-- ==== Sys2Proof/Word.lean ====
section
/-!
DEFINITION. The word types of the SK40 and their plainest arithmetic (spec/00_scope.md, "Numbers and
units" and "Rounding and integer division").
-/
namespace Sys2Proof

abbrev Byte := BitVec 8
/-- A two-byte field of the link, of the pod bus or of a record. -/
abbrev Half := BitVec 16
/-- A four-byte field of the link, of the pod bus or of a record. -/
abbrev Word := BitVec 32
/-- A word of the pod bus, 24 bits (R1, R185). -/
abbrev BusWord := BitVec 24

/-- clamp(x, a, b) of the Conventions: a below a, b above b, otherwise x. -/
def clampNat (x a b : Nat) : Nat := if x < a then a else if b < x then b else x

/-- clamp(x, a, b) over the integers. -/
def clampInt (x a b : Int) : Int := if x < a then a else if b < x then b else x

/-- A count that saturates at `top`. -/
def satInc (top n : Nat) : Nat := if n < top then n + 1 else top

/-- The 32-bit saturation limit, 4,294,967,295. -/
def max32 : Nat := 4294967295

/-- Applies `f` to the element at place `i`; a list too short is unchanged. -/
def updateAt {α : Type} (f : α → α) : Nat → List α → List α
  | _, [] => []
  | 0, x :: xs => f x :: xs
  | i + 1, x :: xs => x :: updateAt f i xs

end Sys2Proof
end

