-- ==== Sys2Proof/Payload.lean ====
section
/-!
DEFINITION. The parameters a request carries (R184), as the wire carries them: each field has the
width of its row in the payload table, and a value the width admits but a rule does not is judged by
that rule. `Request` is a request that has passed the length check of R177.
-/
namespace Sys2Proof

/-- Where a hardware reset comes from (R174, R175, R182). -/
inductive ResetSource where
  | power
  | pin
  | brownout
  deriving DecidableEq, Repr

/-- The three configuration straps (R175): 60 Hz nominal, 576-dot paper, 921,600 bit/s. -/
structure Straps where
  nominal60 : Bool
  wide : Bool
  fast : Bool
  deriving DecidableEq, Repr

/-- The settings a SITE_SET carries (R43, R184): `none` where the mask bit is clear. -/
structure CarriedSettings where
  enabled : Option Bool := none
  name : Option (List Byte) := none
  udin : Option Half := none
  st : Option Half := none
  h : Option Byte := none
  ti : Option Half := none
  nc : Option Byte := none
  pc : Option Byte := none
  wc : Option Byte := none
  pe : Option Byte := none
  we : Option Byte := none
  hmax : Option Byte := none
  interval : Option Byte := none
  rotCheck : Option Bool := none
  deriving DecidableEq, Repr

/-- The three places of a crew tag (R184: letters left-aligned, unused places 0x00). -/
structure Crew where
  a : Byte
  b : Byte
  c : Byte
  deriving DecidableEq, Repr

/-- A section of a print job as PRINT_SUBMIT carries it (R153, R184). -/
inductive Section where
  | text (chars : List Byte)
  | feed (lines : Half)
  | eventList (first last : Word) (site : Byte)
  | eventDetail (id : Word) (waveform : Bool)
  | intervalTable (id : Word) (orders : List Byte)
  | note (id : Word) (amendments : Bool)
  | surveySummary
  | unknown (code : Byte) (params : List Byte)
  deriving DecidableEq, Repr

/-- A request of the catalogue (R183) with its parameters. -/
inductive Request where
  | podRoster
  | podStatus (slot : Byte)
  | podRetry (slot : Byte)
  | podClear (slot : Byte)
  | trackRef (slot : Byte)
  | trackFixed (freq : Word)
  | trackStatus (clear : Bool)
  | clockSet (sec : Word) (ms : Half)
  | siteSet (site : Byte) (carried : CarriedSettings)
  | siteGet (site : Byte)
  | assign (slot site role : Byte)
  | surveyStart
  | surveyHold
  | surveyResume
  | surveyEnd
  | surveyNew
  | surveyStatus
  | sagStatus (site : Byte)
  | captureList
  | captureRead (slot segment member first cycles : Byte)
  | captureRelease (slot : Byte) (serial : Option Half)
  | harmonicStatus (site : Byte)
  | storeStatus
  | storeMode (mode : Byte)
  | recordList (kind : Byte) (fromId : Word) (count : Byte)
  | recordRead (kind : Byte) (id : Word)
  | recordDelete (kind : Byte) (id : Word)
  | storeWipe
  | noteAdd (site attachKind : Byte) (attachId : Word) (crew : Crew) (text : List Byte)
  | noteAmend (id : Word) (crew : Crew) (text : List Byte)
  | noteAttach (id : Word) (kind : Byte) (target : Word)
  | noteDelete (id : Word)
  | noteLock (upto : Word)
  | noteList (fromId : Word) (count : Byte)
  | printSubmit (copies : Byte) (sections : List Section)
  | printCancel (job : Half)
  | printResume
  | printDoneRead
  | printStatus
  | supplySet (low critical : Option Half) (schedule : Option Byte)
  | supplyStatus (clear : Bool)
  | noticeMask (mask : Half)
  | reset (domains : Byte)
  | identify
  deriving DecidableEq, Repr

end Sys2Proof
end

