-- ==== Sys2Proof/Syntax.lean ====
section
/-!
DEFINITION. The commands of the SK40: one constructor for each row of spec/opcode_table.json. The
first group are the part's events; the second are the requests of R183, each with the tag of its
frame (R178) and the fields of its payload (R184).
-/
namespace Sys2Proof

inductive Instr where
  /-- HARDWARE_RESET. R175: a reset from `source`; the strap pins read `straps`; the backup cell has kept the clock or not (R40). -/
  | hardwareReset (source : ResetSource) (straps : Straps) (backupHeld : Bool)
  /-- BROWNOUT. R174: the supply falls below 8.00 V. -/
  | brownout
  /-- FRAME_START. R1: an NCO carry begins a frame. -/
  | frameStart
  /-- FRAME_END. R22: the frame's up words of slots 1 to 15, in slot order, have arrived. -/
  | frameEnd (words : List BusWord)
  /-- POD_LOST. R15. -/
  | podLost (slot : Nat)
  /-- POD_STUCK. R16. -/
  | podStuck (slot : Nat)
  /-- NO_CROSSING_TIMEOUT. R33. -/
  | noCrossingTimeout
  /-- WINDOW_COMPLETE. R99: the window of a site's member position is complete. -/
  | windowComplete (site role : Nat)
  /-- HALF_CYCLE_BOUNDARY. R68. -/
  | halfCycleBoundary
  /-- CAPTURE_COMPLETE. R89. -/
  | captureComplete (slot : Nat)
  /-- START_BOUNDARY. R49. -/
  | startBoundary
  /-- STOP_BOUNDARY. R55. -/
  | stopBoundary
  /-- INTERVAL_BOUNDARY. R109. -/
  | intervalBoundary (site : Nat)
  /-- CLOCK_MIDNIGHT. R19. -/
  | clockMidnight
  /-- CLOCK_WRAP. R40. -/
  | clockWrap
  /-- ACQ_RESET. R2, R181. -/
  | acqReset
  /-- PRINT_RESET. R168. -/
  | printReset
  /-- NOTICE_RESET. R181. -/
  | noticeReset
  /-- SUPPLY_READING. R169, R170: the supply stands at `input` steps of 10 mV. -/
  | supplyReading (input : Nat)
  /-- HEAD_TEMPERATURE_READING. R150. -/
  | headTemperatureReading (celsius : Int)
  /-- PAPER_SENSOR_CHANGE. R162: the sensor reports paper present or absent. -/
  | paperSensorChange (present : Bool)
  /-- DOT_LINE_DONE. R159. -/
  | dotLineDone
  /-- SECTION_FETCH. R156. -/
  | sectionFetch
  /-- RECORD_WRITE_DONE. R124. -/
  | recordWriteDone
  /-- RELOCATION_COPY_DONE. R126. -/
  | relocationCopyDone
  /-- DEAD_MARK_DONE. R124. -/
  | deadMarkDone
  /-- SECTOR_ERASE_DONE. R126. -/
  | sectorEraseDone
  /-- EXTENSION_STEP_DONE. R120. -/
  | extensionStepDone
  /-- MOUNT_COMPLETE. R131. -/
  | mountComplete
  /-- WIPE_COMPLETE. R136. -/
  | wipeComplete
  /-- LINK_BYTE_RECEIVED. R176: a byte arrives, with its stop bit or without. -/
  | linkByteReceived (byte : Byte) (stopBit : Bool)
  /-- INTERBYTE_TIMEOUT. R176. -/
  | interbyteTimeout
  /-- UNKNOWN_KIND. R177: a good frame of a kind outside the catalogue arrives, its payload empty. -/
  | unknownKind (kind tag : Byte)
  /-- TRANSMIT_DONE. R179. -/
  | transmitDone
  /-- CLOCK_TICK. R40: one millisecond of the clock's oscillator. -/
  | clockTick
  /-- POD_ROSTER. -/
  | podRoster (tag : Byte)
  /-- POD_STATUS. -/
  | podStatus (tag : Byte) (slot : Byte)
  /-- POD_RETRY. -/
  | podRetry (tag : Byte) (slot : Byte)
  /-- POD_CLEAR. -/
  | podClear (tag : Byte) (slot : Byte)
  /-- TRACK_REF. -/
  | trackRef (tag : Byte) (slot : Byte)
  /-- TRACK_FIXED. -/
  | trackFixed (tag : Byte) (freq : Word)
  /-- TRACK_STATUS. -/
  | trackStatus (tag : Byte) (clear : Bool)
  /-- CLOCK_SET. -/
  | clockSet (tag : Byte) (sec : Word) (ms : Half)
  /-- SITE_SET. -/
  | siteSet (tag : Byte) (site : Byte) (carried : CarriedSettings)
  /-- SITE_GET. -/
  | siteGet (tag : Byte) (site : Byte)
  /-- ASSIGN. -/
  | assign (tag : Byte) (slot site role : Byte)
  /-- SURVEY_START. -/
  | surveyStart (tag : Byte)
  /-- SURVEY_HOLD. -/
  | surveyHold (tag : Byte)
  /-- SURVEY_RESUME. -/
  | surveyResume (tag : Byte)
  /-- SURVEY_END. -/
  | surveyEnd (tag : Byte)
  /-- SURVEY_NEW. -/
  | surveyNew (tag : Byte)
  /-- SURVEY_STATUS. -/
  | surveyStatus (tag : Byte)
  /-- SAG_STATUS. -/
  | sagStatus (tag : Byte) (site : Byte)
  /-- CAPTURE_LIST. -/
  | captureList (tag : Byte)
  /-- CAPTURE_READ. -/
  | captureRead (tag : Byte) (slot segment member first cycles : Byte)
  /-- CAPTURE_RELEASE. -/
  | captureRelease (tag : Byte) (slot : Byte) (serial : Option Half)
  /-- HARMONIC_STATUS. -/
  | harmonicStatus (tag : Byte) (site : Byte)
  /-- STORE_STATUS. -/
  | storeStatus (tag : Byte)
  /-- STORE_MODE. -/
  | storeMode (tag : Byte) (mode : Byte)
  /-- RECORD_LIST. -/
  | recordList (tag : Byte) (kind : Byte) (fromId : Word) (count : Byte)
  /-- RECORD_READ. -/
  | recordRead (tag : Byte) (kind : Byte) (id : Word)
  /-- RECORD_DELETE. -/
  | recordDelete (tag : Byte) (kind : Byte) (id : Word)
  /-- STORE_WIPE. -/
  | storeWipe (tag : Byte)
  /-- NOTE_ADD. -/
  | noteAdd (tag : Byte) (site attachKind : Byte) (attachId : Word) (crew : Crew) (text : List Byte)
  /-- NOTE_AMEND. -/
  | noteAmend (tag : Byte) (id : Word) (crew : Crew) (text : List Byte)
  /-- NOTE_ATTACH. -/
  | noteAttach (tag : Byte) (id : Word) (kind : Byte) (target : Word)
  /-- NOTE_DELETE. -/
  | noteDelete (tag : Byte) (id : Word)
  /-- NOTE_LOCK. -/
  | noteLock (tag : Byte) (upto : Word)
  /-- NOTE_LIST. -/
  | noteList (tag : Byte) (fromId : Word) (count : Byte)
  /-- PRINT_SUBMIT. -/
  | printSubmit (tag : Byte) (copies : Byte) (sections : List Section)
  /-- PRINT_CANCEL. -/
  | printCancel (tag : Byte) (job : Half)
  /-- PRINT_RESUME. -/
  | printResume (tag : Byte)
  /-- PRINT_DONE_READ. -/
  | printDoneRead (tag : Byte)
  /-- PRINT_STATUS. -/
  | printStatus (tag : Byte)
  /-- SUPPLY_SET. -/
  | supplySet (tag : Byte) (low critical : Option Half) (schedule : Option Byte)
  /-- SUPPLY_STATUS. -/
  | supplyStatus (tag : Byte) (clear : Bool)
  /-- NOTICE_MASK. -/
  | noticeMask (tag : Byte) (mask : Half)
  /-- RESET. -/
  | reset (tag : Byte) (domains : Byte)
  /-- IDENTIFY. -/
  | identify (tag : Byte)
  deriving DecidableEq, Repr

end Sys2Proof
end

