-- ==== Sys2Proof/Decode.lean ====
section
/-!
DEFINITION. The command that a word spells by the bits of spec/opcode_table.json. The table gives no
row any bits, so no word spells a command. (The frames of the control link, which spell the request
rows byte by byte, are decoded in Machine/Wire.lean from R184.)
-/
namespace Sys2Proof

/-- No row of spec/opcode_table.json gives bits. -/
def decodeTableWord (_nbits _w : Nat) : Option Instr := none

end Sys2Proof
end

