-- ==== Sys2Proof/Config.lean ====
section
/-!
DEFINITION. What the part fixes (capacities of the spec) and the free values: the choices the spec
leaves open, each an opaque constant of which nothing can be proved. A free value is drawn with
`State.free`, the model's own counter, so that two draws need not agree.
-/
namespace Sys2Proof.Config

/-- What a cut sector erase leaves of one block (R130: "surviving valid records are found again, and
whose other blocks are erased or padding"). -/
inductive CutBlock where
  | survives
  | erased
  | padding
  deriving DecidableEq, Repr, Inhabited

/-- Free value (R25 gives no cycle for a change of K inside a frame): the accumulator's phase after
the next carry. (DEDUCED, safe: log 6.) -/
opaque ncoResidual : Nat → Nat

/-- Free value (R69: "Which of the two draws first, and so has the lower id, is not fixed"): the rank
of a site among sites that open an event at one boundary. (DEDUCED, safe: log 8.) -/
opaque openRank : Nat → Nat → Nat

/-- Free value (R111: "Whichever reaches the queue first takes the place"): how many waiting INTERVAL
records reach the freed places before the pending SURVEY record. (DEDUCED, safe: log 8.) -/
opaque surveyAfter : Nat → Nat

/-- Free value (R130): what a cut erase leaves of a block of the sector.
(DESIGN CHOICE, safe: log 9.) -/
opaque cutErase : Nat → Nat → CutBlock

/-- Free value (R120, R174): a cut extension step has cleared its bit.
(DESIGN CHOICE, safe: log 9.) -/
opaque cutStep : Nat → Bool

/-- Free value (R136): how many sectors, from 0 upward, a cut wipe had erased, and past the last of them
how far the write of its LOCK_MARK record had come. (DESIGN CHOICE, safe: log 9.) -/
opaque cutWipe : Nat → Nat

/-- Free value (R131, R175): how many of its writes a cut mount had made.
(DESIGN CHOICE, safe: log 9.) -/
opaque cutMount : Nat → Nat

/-- Free value (R137: the change "any, hardware reset, MOUNTING"): the store state that a part has lost
with its supply. (DESIGN CHOICE, safe: log 35.) -/
opaque lostStoreState : Nat → Nat

/-- Free value (R137): the count of erased sectors that the store reports as it enters MOUNTING, before
its scan has counted them. (DESIGN CHOICE, safe: log 35.) -/
opaque erasedBeforeMount : Nat → Nat

/-- Capacities: write queue R123, notice queue R180, receive queue R177, job ring R152, done queue
R152, section cache R156, line buffer R158, ring frames R82, capture slots R83. -/
def queuePlaces : Nat := 16
def noticePlaces : Nat := 32
def receivePlaces : Nat := 2
def jobPlaces : Nat := 8
def donePlaces : Nat := 8
def cachePlaces : Nat := 3
def bufferPlaces : Nat := 32
def ringFrames : Nat := 1280

/-- The frame count is 48 bits wide and wraps (R2). -/
def frameModulus : Nat := 2 ^ 48

end Sys2Proof.Config
end

