-- ==== Sys2Proof/Machine/State.lean ====
section
/-!
DEFINITION. The state of the SK40: every register, queue, buffer, counter and mode that spec/ gives
its thirteen blocks, as plain data, with the values a hardware reset leaves. INVENTORY.md lists each
field with its rule.
-/
namespace Sys2Proof.Machine

/-- No command of this model ends in a fault: the part has no trap, and every request it cannot carry
out is answered with a status code (R177, R184). -/
inductive Fault
  deriving DecidableEq, Repr

/-- Why a command has no meaning in the model. -/
inductive Refusal where
  /-- Raised by an arm of `exec` that has no meaning yet, with the row's mnemonic; safe. -/
  | notModelled (mnemonic : String)
  deriving DecidableEq, Repr

/-! ### Common values -/

/-- A clock time: whole seconds since 2000-01-01 and milliseconds (R40). -/
structure ClockTime where
  sec : Nat
  ms : Nat
  deriving DecidableEq, Repr

/-- The eight roles of a site's member positions, in their wire order (R44, R184). -/
inductive Role where
  | l1 | l2 | l3 | n | i1 | i2 | i3 | iN
  deriving DecidableEq, Repr

/-- The kinds of pod (R10). -/
inductive PodKind where
  | voltage | current
  deriving DecidableEq, Repr

/-! ### Pod bus and kit roster -/

inductive SlotState where
  | absent | joining | ready | fault
  deriving DecidableEq, Repr

inductive FaultCause where
  | idCheck | idRange | stuck
  deriving DecidableEq, Repr

/-- The identity fields a roster entry keeps (R12). -/
structure Identity where
  serial : Nat
  kind : PodKind
  model : Nat
  fullScale : Nat
  gain : Nat
  offset : Int
  calDate : Nat
  calInterval : Nat
  maker : Nat
  deriving DecidableEq, Repr

/-- A roster entry (R12). The `present` field of R12 is `state = ready`. -/
structure RosterEntry where
  state : SlotState := .absent
  cause : Option FaultCause := none
  identity : Option Identity := none
  calDue : Bool := false
  overrangeSeen : Bool := false
  dropoutSeen : Bool := false
  overrangeCount : Nat := 0
  dropoutCount : Nat := 0
  deriving DecidableEq, Repr

/-- The receive state of a READY slot (R12): last good raw code, consecutive dropouts, identical run. -/
structure Receive where
  lastGood : Option Int := none
  dropouts : Nat := 0
  run : Nat := 0
  deriving DecidableEq, Repr

/-- Operations of the control word (R3). -/
inductive BusOp where
  | idle | probe | readId | sampleOn | sampleOff
  deriving DecidableEq, Repr

/-- A control word: target slot and operation. Its third field is the frame count modulo 4 (R3). -/
structure ControlWord where
  target : Nat := 0
  op : BusOp := .idle
  deriving DecidableEq, Repr

/-- Where the join in progress stands (R7 to R11). -/
inductive JoinStage where
  /-- The next frame carries READ_ID. -/
  | readNext
  /-- The frame in progress carries READ_ID. -/
  | readSent
  /-- Identity words are arriving; the bytes stored so far. -/
  | words (buffer : List Byte)
  /-- The record passed: the next frame carries SAMPLE_ON. -/
  | onNext (identity : Identity)
  /-- The frame in progress carries SAMPLE_ON. -/
  | onSent (identity : Identity)
  /-- The join has failed: the next frame carries SAMPLE_OFF. The serial is that of an ID_RANGE. -/
  | offNext (cause : FaultCause) (serial : Option Nat)
  /-- The frame in progress carries SAMPLE_OFF. -/
  | offSent (cause : FaultCause) (serial : Option Nat)
  deriving DecidableEq, Repr

structure Join where
  slot : Nat
  readCount : Nat
  stage : JoinStage
  deriving DecidableEq, Repr

structure Bus where
  /-- Count of the frame in progress, or of the last one (R2). Its value before frame 0 is a DESIGN
  CHOICE, unsafe: log 7. -/
  frame : Nat := 0
  /-- A frame has begun since the reset; the next one counts on (R2). -/
  begun : Bool := false
  /-- The clock reading when that frame began (R82: the clock time of a boundary). -/
  frameTime : ClockTime := ⟨0, 0⟩
  /-- CLOCK_VALID when that frame began (R104: at the boundary). -/
  frameValid : Bool := false
  inFrame : Bool := false
  /-- The slot mask (R5), ascending. -/
  mask : List Nat := []
  ctrl : ControlWord := {}
  prevCtrl : ControlWord := {}
  lastProbed : Nat := 15
  join : Option Join := none
  /-- The frame begun is a half-cycle boundary whose work is not yet done (R68). -/
  boundaryDue : Bool := false
  deriving DecidableEq, Repr

/-! ### Line tracker -/

inductive TrackerState where
  | acquiring | locked | holdover | fixed
  deriving DecidableEq, Repr

inductive DetectorState where
  | disarmed | armed | candidate
  deriving DecidableEq, Repr

/-- A crossing detector (R29): its state, the previous sample and, in CANDIDATE, the candidate time. -/
structure Detector where
  state : DetectorState := .disarmed
  prev : Option (Nat × Int) := none
  candidate : Nat := 0
  deriving DecidableEq, Repr

structure Tracker where
  f : Nat
  k : Nat
  nco : Nat := 0
  /-- The model's own: K has changed since the last strobe. -/
  kMoved : Bool := false
  /-- The K that the accumulator adds up to the boundary of an ACQ reset already taken, whose carry
  begins frame 0 (R25, R37). -/
  boundaryK : Option Nat := none
  state : TrackerState := .acquiring
  /-- State and frequency of the last frame delivered (R26). -/
  frameState : TrackerState := .acquiring
  frameFreq : Nat
  /-- The reference selection: none is DEFAULT (R27). -/
  selection : Option Nat := none
  /-- The wanted reference, worked out at the start of each frame (R28). -/
  wanted : Option Nat := none
  inUse : Option Nat := none
  det : Detector := {}
  lastCross : Option Nat := none
  inLock : Nat := 0
  since : Nat := 0
  unlockSeen : Bool := false
  deriving DecidableEq, Repr

inductive RotationState where
  | unknown | normal | reversed
  deriving DecidableEq, Repr

/-- A site's rotation check (R38, R39). -/
structure Rotation where
  state : RotationState := .unknown
  normalRun : Nat := 0
  reversedRun : Nat := 0
  /-- The slots of L1, L2 and L3 while the check runs. -/
  running : Option (Nat × Nat × Nat) := none
  det1 : Detector := {}
  det2 : Detector := {}
  det3 : Detector := {}
  /-- L1's last confirmed crossing time (R38): the crossing that opened the cycle in progress. -/
  opening : Option Nat := none
  /-- The last confirmed crossing times of L2 and L3 (R38). -/
  last2 : Option Nat := none
  last3 : Option Nat := none
  /-- Confirmed crossings of L2 and L3 in the cycle in progress, oldest first. -/
  cross2 : List Nat := []
  cross3 : List Nat := []
  deriving DecidableEq, Repr

/-! ### Clock, sites and survey -/

structure Clock where
  time : ClockTime := ⟨0, 0⟩
  valid : Bool := false
  /-- A midnight has passed and CAL_DUE has not been evaluated for it (R19). -/
  midnightDue : Bool := false
  deriving DecidableEq, Repr

/-- The settings of a site but its members (R42), at their defaults. -/
structure Settings where
  enabled : Bool := false
  name : List Byte := []
  udin : Nat := 230
  st : Nat := 900
  h : Nat := 20
  ti : Nat := 50
  nc : Nat := 1
  pc : Nat := 2
  wc : Nat := 6
  pe : Nat := 2
  we : Nat := 4
  hmax : Nat := 40
  interval : Nat := 10
  rotCheck : Bool := true
  deriving DecidableEq, Repr

/-- An assigned member position (R44). -/
structure Member where
  slot : Nat
  serial : Nat
  active : Bool
  deriving DecidableEq, Repr

/-- A site entry: settings and the eight member positions in role order (R42, R44). -/
structure Site where
  settings : Settings := {}
  members : List (Option Member) := List.replicate 8 none
  deriving DecidableEq, Repr

inductive SurveyState where
  | setup | recording | held | ended
  deriving DecidableEq, Repr

inductive HoldCause where
  | linkRequest | supply | power
  deriving DecidableEq, Repr

/-- The pending change of the survey (R50). -/
inductive Change where
  | start
  | stopHold
  | stopEnd
  | stopSupply
  deriving DecidableEq, Repr

structure RunStart where
  frame : Nat
  time : ClockTime
  deriving DecidableEq, Repr

inductive StoreMode where
  | overwrite | stop
  deriving DecidableEq, Repr

/-- A site entry as a SURVEY record holds it: member activity is not stored (R56). -/
structure SiteRecord where
  settings : Settings
  /-- Slot and expected serial of each position, or none. -/
  members : List (Option (Nat × Nat))
  deriving DecidableEq, Repr

/-- The content of a SURVEY record (R56). -/
structure SurveyRecord where
  number : Nat
  state : SurveyState
  cause : Option HoldCause
  first : Option ClockTime
  runStart : Option RunStart
  mode : StoreMode
  time : ClockTime
  clockUnset : Bool
  sites : List SiteRecord
  deriving DecidableEq, Repr

structure Survey where
  /-- None until the store has mounted (R57). -/
  state : Option SurveyState := none
  cause : Option HoldCause := none
  /-- 1 to 65,535; 0 while no survey is held. -/
  number : Nat := 0
  first : Option ClockTime := none
  runStart : Option RunStart := none
  change : Option Change := none
  /-- The boundary of the pending change has passed and the change is not yet made (R49). -/
  changeDue : Bool := false
  /-- The pending SURVEY record (R56). -/
  place : Option SurveyRecord := none
  deriving DecidableEq, Repr

/-! ### Sag detector -/

/-- A corrected sample (R22 to R24). -/
structure Sample where
  value : Int
  overrange : Bool
  gap : Bool
  deriving DecidableEq, Repr

inductive ChannelState where
  | normal | pendingIn | sag | pendingOut
  deriving DecidableEq, Repr

/-- The value of a judged channel at a boundary (R60 to R62). -/
structure Value where
  u : Nat
  r : Nat
  clipped : Bool
  gapped : Bool
  deriving DecidableEq, Repr

structure Channel where
  state : ChannelState := .normal
  run : Nat := 0
  candidate : Option Nat := none
  sagStart : Option Nat := none
  /-- The minimum of the run statistics (R66). -/
  minR : Option Nat := none
  /-- Its pod has left service since the last boundary (R75). -/
  lost : Bool := false
  judged : Bool := false
  last : Option Value := none
  /-- The frames the window held after the latest boundary was taken (R81). -/
  held : Nat := 0
  /-- The window of R59, newest first. -/
  window : List Sample := []
  deriving DecidableEq, Repr

/-- A record of the boundary history (R63). -/
structure Boundary where
  frame : Nat
  time : ClockTime
  locked : Bool
  reversed : Bool
  clipped : Bool := false
  gapped : Bool := false
  deriving DecidableEq, Repr

/-- The flags of an EVENT record (R73, R74, R78). -/
structure EventFlags where
  long : Bool := false
  truncated : Bool := false
  probeLost : Bool := false
  probeGap : Bool := false
  freqUnlocked : Bool := false
  clipped : Bool := false
  atStart : Bool := false
  calExpired : Bool := false
  rotationReversed : Bool := false
  overlap : Bool := false
  noCapture : Bool := false
  clockUnset : Bool := false
  deriving DecidableEq, Repr

/-- An entry of the involved list (R70). -/
structure Involved where
  role : Role
  serial : Nat
  minR : Nat
  half : Nat
  recovery : Option Nat
  holding : Bool
  deriving DecidableEq, Repr

/-- The open event of a site (R68). -/
structure OpenEvent where
  id : Nat
  startFrame : Nat
  startTime : ClockTime
  opening : Nat
  involved : List Involved
  flags : EventFlags
  /-- Capture slot and serial claimed. -/
  capture : Option (Nat × Nat)
  deriving DecidableEq, Repr

structure SagSite where
  channels : List Channel := List.replicate 3 {}
  /-- Newest first, at most four. -/
  history : List Boundary := []
  event : Option OpenEvent := none
  deriving DecidableEq, Repr

structure Sag where
  sites : List SagSite := List.replicate 4 {}
  lastBoundary : Option Nat := none
  /-- Start boundary of the current run while no ACQ reset has been taken since (R69). -/
  runBoundary : Option Nat := none
  deriving DecidableEq, Repr

/-! ### Capture unit -/

/-- A sample of a ring or a segment: value and gap mark (R82). -/
structure CapSample where
  value : Int
  gap : Bool
  deriving DecidableEq, Repr

/-- A pre-trigger ring (R82): frames newest first, each of eight positions. -/
structure Ring where
  newest : Nat := 0
  frames : List (List CapSample) := []
  /-- Frame and clock time of the boundaries held, newest first. -/
  times : List (Nat × ClockTime) := []
  deriving DecidableEq, Repr

inductive CaptureState where
  | free | filling | complete | releasePending
  deriving DecidableEq, Repr

structure CaptureMember where
  role : Role
  slot : Nat
  serial : Nat
  kind : PodKind
  fullScale : Nat
  gaps : Nat := 0
  /-- The last sample this slot recorded for the member (R87). -/
  lastValue : Int := 0
  deriving DecidableEq, Repr

inductive SegmentKind where
  | start | ending
  deriving DecidableEq, Repr

/-- A listed member in the live part of a segment (R87). -/
inductive LiveState where
  | notYet | measuring | stopped
  deriving DecidableEq, Repr

/-- A segment (R83). `frames` holds the frames recorded, newest first, one sample for each member. -/
structure Segment where
  kind : SegmentKind
  first : Nat
  firstTime : Option ClockTime
  pre : Nat
  planned : Nat
  frames : List (List CapSample)
  filling : Bool
  truncated : Bool := false
  /-- Per member: whether it has measured, or stopped measuring, in the live part. -/
  live : List LiveState
  deriving DecidableEq, Repr

structure CaptureSlot where
  state : CaptureState := .free
  serial : Nat := 0
  event : Option Nat := none
  site : Option Nat := none
  eventOpen : Bool := false
  members : List CaptureMember := []
  segments : List Segment := []
  pins : Nat := 0
  deriving DecidableEq, Repr

structure Capture where
  rings : List Ring := List.replicate 4 {}
  slots : List CaptureSlot := List.replicate 12 {}
  deriving DecidableEq, Repr

/-! ### Harmonic engine -/

/-- The window accumulator (R97, R100). -/
structure Window where
  first : Nat
  taken : Nat
  re : List Int
  im : List Int
  gap : Bool := false
  overrange : Bool := false
  unlocked : Bool := false
  fixed : Bool := false
  deriving DecidableEq, Repr

/-- The flags of an INTERVAL record (R108). -/
structure IntervalFlags where
  partialClose : Bool := false
  flagged : Bool := false
  clipped : Bool := false
  freqUnlocked : Bool := false
  fixedFreq : Bool := false
  calExpired : Bool := false
  clockUnset : Bool := false
  deriving DecidableEq, Repr

/-- The interval accumulator (R105). -/
structure Accumulator where
  slot : Nat
  serial : Nat
  startTime : ClockTime
  firstFrame : Nat
  n : Nat := 0
  excluded : Nat := 0
  sumSq : List Nat
  maxM : List Nat
  thdSum : Nat := 0
  thdCount : Nat := 0
  thdMax : Nat := 0
  freqSum : Nat := 0
  freqMin : Nat := 0
  freqMax : Nat := 0
  flags : IntervalFlags := {}
  deriving DecidableEq, Repr

/-- The content of an INTERVAL record but its id (R112). -/
structure IntervalRecord where
  number : Nat
  site : Nat
  role : Role
  slot : Nat
  serial : Nat
  startTime : ClockTime
  endTime : ClockTime
  n : Nat
  excluded : Nat
  flags : IntervalFlags
  freqMean : Nat
  freqMin : Nat
  freqMax : Nat
  /-- THD mean and max. -/
  thd : Option (Nat × Nat)
  /-- Mean and max of each order from 1. -/
  orders : List (Nat × Nat)
  deriving DecidableEq, Repr

/-- The result of a counted window, with the window's first frame (R103). -/
structure WindowResult where
  first : Nat
  magnitudes : List Nat
  thd : Option Nat
  freq : Nat
  overrange : Bool
  fixed : Bool
  calDue : Bool
  deriving DecidableEq, Repr

structure HarmMember where
  window : Option Window := none
  acc : Option Accumulator := none
  /-- Its pod left in the frame just ended; the accumulator closes at the next (R110). -/
  lossDue : Bool := false
  /-- The closing place (R111), with the order of the close moment. -/
  place : Option (IntervalRecord × Nat) := none
  latest : Option WindowResult := none
  deriving DecidableEq, Repr

inductive Basis where
  | clock | run
  deriving DecidableEq, Repr

structure HarmSite where
  basis : Option Basis := none
  /-- The next interval boundary (R104). -/
  next : Option ClockTime := none
  /-- The site's close frame has begun and is not yet taken. -/
  due : Bool := false
  /-- The event mark (R107). -/
  mark : Option Nat := none
  abandoned : Nat := 0
  empty : Nat := 0
  members : List HarmMember := List.replicate 8 {}
  deriving DecidableEq, Repr

structure Harm where
  sites : List HarmSite := List.replicate 4 {}
  /-- The model's own: numbers the frame starts and ACQ resets, at which accumulators close. -/
  moments : Nat := 0
  deriving DecidableEq, Repr

/-! ### Record store and notes -/

inductive RecordKind where
  | event | interval | note | survey | lockMark
  deriving DecidableEq, Repr

/-- One number for each record kind. -/
structure PerKind where
  event : Nat
  interval : Nat
  note : Nat
  survey : Nat
  lockMark : Nat
  deriving DecidableEq, Repr

/-- The content of an EVENT record (R78). -/
structure EventRecord where
  id : Nat
  number : Nat
  site : Nat
  interruption : Bool
  startTime : ClockTime
  endTime : ClockTime
  half : Nat
  ms : Nat
  minR : Nat
  worst : Role
  udin : Nat
  flags : EventFlags
  capture : Option (Nat × Nat)
  /-- Role, pod serial, minimum r and half-cycles in sag. -/
  involved : List (Role × Nat × Nat × Nat)
  deriving DecidableEq, Repr

/-- What a note attaches to (R138). -/
structure Attach where
  kind : RecordKind
  id : Nat
  deriving DecidableEq, Repr

/-- The content of a NOTE record (R138). -/
structure NoteRecord where
  id : Nat
  number : Nat
  site : Option Nat
  attach : Option Attach
  amends : Option Nat
  crew : List Byte
  time : ClockTime
  clockUnset : Bool
  text : List Byte
  deriving DecidableEq, Repr

/-- The content of a LOCK_MARK record (R146). -/
structure LockRecord where
  id : Nat
  mark : Nat
  time : ClockTime
  clockUnset : Bool
  deriving DecidableEq, Repr

/-- The content of a record of any kind. -/
inductive Content where
  | event (r : EventRecord)
  | interval (id : Nat) (r : IntervalRecord)
  | note (r : NoteRecord)
  | survey (r : SurveyRecord)
  | lockMark (r : LockRecord)
  deriving DecidableEq, Repr

inductive EntryState where
  | queued | live | dead
  deriving DecidableEq, Repr

/-- The links and marks of a note's directory entry (R138, R139). -/
structure Links where
  attach : Option Attach := none
  amends : Option Nat := none
  amendedBy : Option Nat := none
  attachLost : Bool := false
  amendLost : Bool := false
  deriving DecidableEq, Repr

/-- A directory entry (R121). -/
structure Entry where
  kind : RecordKind
  id : Nat
  seq : Option Nat
  /-- Sector and block. -/
  loc : Option (Nat × Nat)
  size : Nat
  state : EntryState
  pins : Nat := 0
  reclaim : Bool := false
  links : Links := {}
  deriving DecidableEq, Repr

/-- A record in the write queue (R123); a replacement rewrites a LIVE note (R143). -/
structure QueueItem where
  kind : RecordKind
  id : Nat
  content : Content
  replacement : Bool := false
  deriving DecidableEq, Repr

/-- Why a DEAD mark is owed (R124). -/
inductive MarkCause where
  /-- A delete: the request in progress is answered, and the FULL re-check follows. -/
  | delete
  /-- A relocation of the record to its new place. -/
  | relocation
  /-- A note replacement. -/
  | replacement
  deriving DecidableEq, Repr

structure Mark where
  loc : Nat × Nat
  cause : MarkCause
  deriving DecidableEq, Repr

/-- The array operation in flight (R116). -/
inductive ArrayOp where
  /-- The write of the oldest queued record; whether it opened a new head. -/
  | write (seq : Nat) (loc : Nat × Nat) (size : Nat) (opened : Bool)
  /-- The relocation copy of a record. -/
  | copy (kind : RecordKind) (id : Nat) (seq : Nat) (loc : Nat × Nat) (size : Nat)
  | mark (m : Mark)
  | erase (sector : Nat)
  /-- An extension step on the header at `loc`. -/
  | extend (loc : Nat × Nat)
  deriving DecidableEq, Repr

inductive StoreState where
  | mounting | ready | reclaiming | full | wiping
  deriving DecidableEq, Repr

/-- The reclaim in flight (R126): its sector and the records still to be copied, in order. -/
structure Reclaim where
  sector : Nat
  copies : List (RecordKind × Nat)
  deriving DecidableEq, Repr

structure Store where
  /-- The nonvolatile array: its bytes that are not erased (R116, R186). -/
  array : List Host.Cell := []
  state : StoreState := .mounting
  mode : StoreMode := .overwrite
  dir : List Entry := []
  queue : List QueueItem := []
  op : Option ArrayOp := none
  nextIds : PerKind := ⟨1, 1, 1, 1, 1⟩
  limits : PerKind := ⟨0, 0, 0, 0, 0⟩
  nextSeq : Nat := 1
  extOwed : Bool := false
  extSector : Option Nat := none
  marks : List Mark := []
  head : Option Nat := none
  headUsed : Nat := 0
  /-- Opening sequence of each sector; none for an erased sector (R116). -/
  opening : List (Option Nat) := List.replicate 64 none
  reclaim : Option Reclaim := none
  lockMark : Nat := 0
  eventDrops : Nat := 0
  intervalDrops : Nat := 0
  discards : PerKind := ⟨0, 0, 0, 0, 0⟩
  reclaims : Nat := 0
  deriving DecidableEq, Repr

/-! ### Print engine -/

/-- The pin of a capture slot (R95). -/
structure CapturePin where
  slot : Nat
  serial : Nat
  event : Nat
  deriving DecidableEq, Repr

/-- A section of an accepted job with what it pinned (R152, R154). -/
structure JobSection where
  content : Section
  /-- The records pinned; for a NOTE section the notes it prints, root first. -/
  pins : List (RecordKind × Nat) := []
  capturePin : Option CapturePin := none
  deriving DecidableEq, Repr

inductive JobPhase where
  | running | cancelling | doneWait
  deriving DecidableEq, Repr

structure Tallies where
  copies : Nat := 0
  textLines : Nat := 0
  dotLines : Nat := 0
  notAvailable : Nat := 0
  deriving DecidableEq, Repr

/-- A job of the ring (R152): `phase` is none while QUEUED. -/
structure Job where
  id : Nat
  copies : Nat
  sections : List JobSection
  phase : Option JobPhase := none
  /-- Copy and item the fetch unit takes next (items: 0 header, then sections, then trailer). -/
  fetchCopy : Nat := 1
  fetchItem : Nat := 0
  /-- Copy and item being rendered. -/
  renderCopy : Nat := 1
  renderItem : Nat := 0
  fullyRendered : Bool := false
  /-- At least one dot line of the job has been placed (R160). -/
  placed : Bool := false
  /-- The job has been cancelled (R164). -/
  cancelled : Bool := false
  tallies : Tallies := {}
  deriving DecidableEq, Repr

/-- What a printed text line says, by meaning (R152, R153, R164). -/
inductive Line where
  | chars (cs : List Byte)
  | jobHeader (job copy copies : Nat)
  | jobTime (time : ClockTime) (survey : Nat)
  | trailer (job copy : Nat)
  | cancelled (job : Nat)
  | listRange (first last : Nat)
  | listFilter (site : Option Nat)
  | listEvent (id site : Nat) (interruption : Bool) (start : ClockTime) (ms minR : Nat)
  | listFooter (notAvailable : Nat)
  | eventHead (id site : Nat) (interruption : Bool)
  | eventTimes (start stop : ClockTime)
  | eventFigures (half ms minR : Nat) (worst : Role)
  | eventFlags (flags : EventFlags)
  | eventCapture (slot serial cycles : Nat) (roles : List Role)
  | noWaveform
  | waveformNotAvailable
  | intervalHead (id site : Nat) (role : Role) (serial : Nat)
  | intervalSpan (start stop : ClockTime) (n excluded : Nat) (flags : IntervalFlags)
  | intervalThd (thd : Option (Nat × Nat))
  | intervalOrder (order : Nat) (values : Option (Nat × Nat)) (current : Bool)
  | noteHead (id : Nat) (crew : List Byte) (time : ClockTime) (site : Option Nat)
      (attach : Option Attach) (locked : Bool)
  | surveyMissing
  | surveyState (number : Nat) (state : SurveyState)
  | surveyCause (cause : Option HoldCause)
  | surveyFirst (time : Option ClockTime)
  | surveyRun (run : Option RunStart)
  | surveyMode (mode : StoreMode) (time : ClockTime)
  | surveySites (a b : Bool × List Byte × Nat)
  | surveyMembers (counts : List Nat)
  | blank
  deriving DecidableEq, Repr

/-- What a dot line marks (R149, R157). -/
inductive Marks where
  /-- Glyph row 0 to 23 of a text line. -/
  | glyph (line : Line) (row : Nat)
  | blank
  /-- A trace line: columns `low` to `high`, the zero axis, and every eighth column when `start`. -/
  | trace (low high axis : Nat) (start : Bool)
  deriving DecidableEq, Repr

structure DotLine where
  marks : Marks
  endsText : Bool := false
  /-- The last line of a copy's trailer (R159). -/
  endsCopy : Bool := false
  deriving DecidableEq, Repr

/-- A trace of a capture snapshot: one voltage member's samples, oldest first (R96, R156). -/
structure Trace where
  role : Role
  samples : List Int
  deriving DecidableEq, Repr

/-- The START segment's snapshot (R96). -/
structure TraceSet where
  slot : Nat
  serial : Nat
  pre : Nat
  cycles : Nat
  traces : List Trace
  deriving DecidableEq, Repr

/-- A snapshot of an item (R156). -/
inductive Snapshot where
  | header (job copy copies : Nat) (time : ClockTime) (survey : Nat)
  | trailer (job copy copies : Nat) (time : ClockTime) (survey : Nat)
  | cancelTrailer (job : Nat)
  | text (chars : List Byte)
  | feed (lines : Nat)
  | eventList (first last : Nat) (site : Option Nat) (events : List EventRecord) (missing : Nat)
  | eventDetail (record : Option EventRecord) (waveform : Bool) (capture : Option TraceSet)
  | intervalTable (id : Nat) (record : Option IntervalRecord) (orders : List Nat)
  | notes (notes : List (NoteRecord × Bool))
  | survey (record : Option SurveyRecord)
  deriving DecidableEq, Repr

/-- An entry of the section cache: its copy and item, its snapshot (none while the fetch waits for a
sector erase, R156) and how many of its dot lines have been placed. -/
structure CacheEntry where
  copy : Nat
  item : Nat
  snapshot : Option Snapshot
  placed : Nat := 0
  deriving DecidableEq, Repr

/-- A done entry (R165). -/
structure DoneEntry where
  job : Nat
  cancelled : Bool
  tallies : Tallies
  deriving DecidableEq, Repr

inductive TempClass where
  | cool | hot | overheat
  deriving DecidableEq, Repr

inductive MechState where
  | idle | braked | paperOut | overheat | stalled | printing
  deriving DecidableEq, Repr

structure Print where
  ring : List Job := []
  cache : List CacheEntry := []
  buffer : List DotLine := []
  inHand : Option DotLine := none
  lineBusy : Bool := false
  lineSlow : Bool := false
  /-- The line in progress was in progress when its job was cancelled (R164). -/
  lineStale : Bool := false
  brake : Bool := true
  latch : Bool := false
  paper : Bool := true
  tempClass : TempClass := .overheat
  /-- The latest head temperature; none before the first reading after a hardware reset.
  (DESIGN CHOICE, unsafe: log 7.) -/
  temp : Option Int := none
  done : List DoneEntry := []
  nextJob : Nat := 1
  submits : Nat := 0
  completions : Nat := 0
  stalls : Nat := 0
  abandonedLines : Nat := 0
  deriving DecidableEq, Repr

/-! ### Supply monitor -/

inductive Level where
  | none | normal | low | critical
  deriving DecidableEq, Repr

inductive Schedule where
  | continuous | half | one | two | four
  deriving DecidableEq, Repr

structure Supply where
  level : Level := .none
  /-- Readings taken since the hardware reset, at most 3: the third sets the level (R170). -/
  taken : Nat := 0
  critIn : Nat := 0
  lowIn : Nat := 0
  critOut : Nat := 0
  lowOut : Nat := 0
  low : Nat := 1160
  critical : Nat := 1080
  schedule : Schedule := .one
  reading : Option Nat := .none
  lowest : Option Nat := .none
  lowEntries : Nat := 0
  critEntries : Nat := 0
  deriving DecidableEq, Repr

/-! ### Control link -/

inductive Status where
  | ok | okClamped | accepted | unknownKind | badLength | badValue | wrongState | busy | notFound
  | pinned | attached | locked | hasAmendment | chainLimit | storeFull | queueFull | supply
  deriving DecidableEq, Repr

/-- The link receiver (R176) with the bytes collected so far. -/
inductive Receiver where
  | hunt
  | header (bytes : List Byte)
  | body (length kind tag : Nat) (bytes : List Byte)
  deriving DecidableEq, Repr

/-- A frame that has passed the CRC (R177). -/
structure Frame where
  kind : Nat
  tag : Byte
  payload : List Byte
  deriving DecidableEq, Repr

inductive TrackCause where
  | lockGained | periodOut | noCrossing | periodValid | request | reset
  deriving DecidableEq, Repr

/-- The causes of an interval close (R113). -/
structure CloseCauses where
  boundary : Bool := false
  stop : Bool := false
  acqReset : Bool := false
  memberLoss : Bool := false
  deriving DecidableEq, Repr

/-- What became of an interval record at its close (R113). -/
structure CloseCounts where
  closed : Nat := 0
  queued : Nat := 0
  waiting : Nat := 0
  dropped : Nat := 0
  empty : Nat := 0
  deriving DecidableEq, Repr

/-- The causes of POD_LEAVE (R15). -/
inductive LeaveCause where
  | lost
  deriving DecidableEq, Repr

/-- What EVENT_CLOSE carries of the record (R80). -/
structure EventSummary where
  id : Nat
  site : Nat
  interruption : Bool
  startTime : ClockTime
  endTime : ClockTime
  half : Nat
  ms : Nat
  minR : Nat
  worst : Role
  flags : EventFlags
  capture : Option (Nat × Nat)
  deriving DecidableEq, Repr

/-- The content of a notice (R183), as its owning rule lists it. -/
inductive NoticeBody where
  | podJoin (slot serial : Nat) (kind : PodKind) (model fullScale : Nat) (calDue : Bool)
      (mismatch : Option (Nat × Role))
  | podLeave (slot serial : Nat) (cause : LeaveCause)
  | podFault (slot : Nat) (cause : FaultCause) (serial : Option Nat)
  | trackState (new old : TrackerState) (f k : Nat) (ref : Option Nat) (cause : TrackCause)
  | rotation (site : Nat) (new old : RotationState)
  | surveyState (number : Nat) (new : SurveyState) (old : Option SurveyState)
      (cause : Option HoldCause) (frame : Nat) (time : ClockTime) (cleared : Option Nat)
  | eventOpen (id site startFrame : Nat) (startTime : ClockTime) (roles : List Role)
      (capture : Option (Nat × Nat)) (atStart overlap noCapture : Bool)
  | eventClose (event : EventSummary) (notStored : Bool)
  | intervalClose (site : Nat) (causes : CloseCauses) (endTime : ClockTime) (counts : CloseCounts)
  | storeState (new old : StoreState) (erased : Nat) (sector : Option Nat) (waiting : Nat)
  | noteLocked (new old record count : Nat)
  | printState (job : Option Nat) (phase : Option (Option JobPhase)) (mech : MechState)
      (brake latch : Bool) (temp : TempClass) (jobs done : Nat)
  | jobDone (entry : DoneEntry)
  | supplyState (new old : Level) (reading low critical : Nat)
  deriving DecidableEq, Repr

/-- A posted notice and its posting time (R180). -/
structure Notice where
  body : NoticeBody
  time : ClockTime
  deriving DecidableEq, Repr

/-- A slot's line of POD_ROSTER (R21). -/
structure RosterLine where
  state : SlotState
  cause : Option FaultCause
  present : Bool
  calDue : Bool
  serial : Option Nat
  deriving DecidableEq, Repr

/-- A channel of SAG_STATUS (R81). -/
structure ChannelView where
  judged : Bool
  state : ChannelState
  run : Nat
  candidate : Option Nat
  sagStart : Option Nat
  minR : Option Nat
  last : Option Value
  held : Nat
  deriving DecidableEq, Repr

structure EventView where
  id : Nat
  startTime : ClockTime
  involved : List (Role × Bool)
  flags : EventFlags
  deriving DecidableEq, Repr

structure SegmentView where
  kind : SegmentKind
  first : Nat
  firstTime : Option ClockTime
  pre : Nat
  planned : Nat
  held : Nat
  filling : Bool
  truncated : Bool
  deriving DecidableEq, Repr

/-- A member-list entry, as CAPTURE_LIST and CAPTURE_READ return it (R92, R93). -/
structure MemberView where
  role : Role
  slot : Nat
  serial : Nat
  kind : PodKind
  fullScale : Nat
  gaps : Nat
  deriving DecidableEq, Repr

/-- A slot's line of CAPTURE_LIST (R92). -/
structure CaptureView where
  state : CaptureState
  serial : Nat
  event : Option Nat
  site : Option Nat
  eventOpen : Bool
  pins : Nat
  members : List MemberView
  segments : List SegmentView
  deriving DecidableEq, Repr

structure CaptureSamples where
  serial : Nat
  event : Option Nat
  member : MemberView
  first : Nat
  firstTime : Option ClockTime
  pre : Nat
  held : Nat
  count : Nat
  samples : List Int
  deriving DecidableEq, Repr

/-- A member's line of HARMONIC_STATUS (R114). -/
structure HarmView where
  role : Role
  slot : Nat
  serial : Nat
  active : Bool
  window : Option (Nat × Nat)
  acc : Option (ClockTime × Nat × Nat × IntervalFlags)
  waiting : Bool
  latest : Option (Nat × Nat × Option Nat × Nat)
  deriving DecidableEq, Repr

/-- The part of STORE_STATUS that is absent while MOUNTING or WIPING (R135). -/
structure StoreView where
  live : Nat
  dead : Nat
  padding : Nat
  erased : Nat
  erasedSectors : Nat
  head : Option Nat
  headFree : Nat
  reclaim : Option Nat
  /-- Entries of each kind that are QUEUED, LIVE and DEAD. -/
  queued : PerKind
  liveEntries : PerKind
  deadEntries : PerKind
  waiting : Nat
  nextIds : PerKind
  limits : PerKind
  nextSeq : Nat
  lockMark : Nat
  extSector : Option Nat
  eventDrops : Nat
  intervalDrops : Nat
  discards : PerKind
  reclaims : Nat
  deriving DecidableEq, Repr

/-- A line of RECORD_LIST (R132). -/
structure RecordLine where
  id : Nat
  state : EntryState
  seq : Option Nat
  size : Nat
  pins : Nat
  held : Bool
  reclaim : Bool
  deriving DecidableEq, Repr

/-- A line of NOTE_LIST (R147). -/
structure NoteLine where
  id : Nat
  state : EntryState
  pins : Nat
  site : Option Nat
  attach : Option Attach
  attachLost : Bool
  amends : Option Nat
  amendLost : Bool
  amendedBy : Option Nat
  depth : Nat
  locked : Bool
  crew : List Byte
  time : ClockTime
  textLength : Nat
  reclaim : Bool
  deriving DecidableEq, Repr

/-- What RECORD_READ of a NOTE adds to its content (R147). -/
structure NoteMarks where
  amendedBy : Option Nat
  depth : Nat
  locked : Bool
  attachLost : Bool
  amendLost : Bool
  deriving DecidableEq, Repr

/-- The conditions of the mechanism that PRINT_STATUS reports one by one (R151, R167). -/
structure MechView where
  mech : MechState
  inHand : Bool
  lineBusy : Bool
  brake : Bool
  latch : Bool
  tempClass : TempClass
  paper : Bool
  temp : Option Int
  deriving DecidableEq, Repr

/-- The kind of an item of a copy, as PRINT_STATUS names the cache entries (R152, R153, R167). -/
inductive ItemKind where
  | header
  /-- A section of the kind with this code (R184). -/
  | body (kind : Byte)
  | trailer
  deriving DecidableEq, Repr

structure PrintView where
  mech : MechView
  fill : Nat
  cache : List ItemKind
  active : Option (Nat × Option JobPhase × Nat × Nat × Tallies)
  jobs : List (Nat × Option JobPhase × Nat)
  done : Nat
  nextJob : Nat
  submits : Nat
  completions : Nat
  stalls : Nat
  abandonedLines : Nat
  deriving DecidableEq, Repr

/-- The reset record (R182). -/
inductive ResetCause where
  | power | pin | brownout | link
  deriving DecidableEq, Repr

/-- A set of reset domains (R181). -/
structure Domains where
  acq : Bool := false
  print : Bool := false
  notice : Bool := false
  deriving DecidableEq, Repr

/-- The content of a reply after its status byte (R178), as the owning rule lists it.
(DESIGN CHOICE, safe: log 10.) -/
inductive ReplyBody where
  | empty
  /-- The section named by a refused PRINT_SUBMIT (R178). -/
  | sectionIndex (n : Nat)
  | roster (lines : List RosterLine) (mask : List Nat) (frame : Nat)
  | entry (e : RosterEntry)
  | reference (selection wanted : Option Nat)
  | frequency (f : Nat)
  | track (state : TrackerState) (f k : Nat) (selection wanted inUse : Option Nat)
      (inLock since : Nat) (unlockSeen : Bool) (rotations : List RotationState)
  | clock (time : ClockTime)
  | site (s : Site)
  | assigned (s : Option Site)
  | surveyStarted (number frame : Nat) (time : ClockTime)
  | resumed (frame : Nat) (time : ClockTime)
  | surveyStatus (state : Option SurveyState) (cause : Option HoldCause) (number : Nat)
      (first : Option ClockTime) (runStart : Option RunStart) (supplyStop recordPending : Bool)
      (time : ClockTime) (valid : Bool) (sites : List (Bool × Nat × Nat))
  | sagStatus (channels : List ChannelView) (event : Option EventView) (boundary : Option Nat)
  | captureList (slots : List CaptureView) (free : Nat)
  | captureRead (samples : CaptureSamples)
  | captureState (state : CaptureState)
  | harmonicStatus (basis : Option Basis) (next : Option ClockTime) (mark : Option Nat)
      (abandoned empty : Nat) (members : List HarmView)
  | storeStatus (state : StoreState) (mode : StoreMode) (busy : Bool) (view : Option StoreView)
  | storeMode (mode : StoreMode)
  | recordList (lines : List RecordLine) (next : Option Nat)
  | record (state : EntryState) (seq : Option Nat) (pins : Nat) (held : Bool) (content : List Byte)
      (note : Option NoteMarks)
  | noteId (id : Nat)
  /-- The mark stored by a NOTE_LOCK whose value was clamped (R145, R178). -/
  | lockMark (mark : Nat)
  | noteList (lockMark : Nat) (lines : List NoteLine) (next : Option Nat)
  | jobId (id : Nat)
  | paper (present : Bool) (mech : MechState)
  | doneEntry (e : DoneEntry)
  | printStatus (view : PrintView)
  | supplySettings (low critical : Nat) (schedule : Schedule)
  | supplyStatus (level : Level) (reading : Option Nat) (low critical : Nat) (schedule : Schedule)
      (forcedPrint forcedStore : Bool) (critIn lowIn critOut lowOut lowEntries critEntries : Nat)
      (lowest : Option Nat)
  | mask (mask : Half)
  | identify (vendor part version : Nat) (straps : Straps) (cause : ResetCause) (domains : Domains)
      (resets framing crc overrun lost : Nat)
  deriving DecidableEq, Repr

/-- A reply (R178): the request's kind with its top bit set, its tag, a status and the content. -/
structure Reply where
  kind : Nat
  tag : Byte
  status : Status
  body : ReplyBody
  deriving DecidableEq, Repr

/-- A frame of the transmitter (R179). -/
inductive OutFrame where
  | reply (r : Reply)
  /-- A notice with its tag, the lost count it carries and its posting. -/
  | notice (tag lost : Nat) (n : Notice)
  deriving DecidableEq, Repr

/-- The request in progress (R177); whether NOTE_LOCK has clamped its mark (R145). -/
structure Current where
  kind : Nat
  tag : Byte
  clamped : Bool := false
  deriving DecidableEq, Repr

/-- The domains a RESET in progress has still to reset, and whether its reply has left (R181). -/
structure OwedReset where
  domains : Domains
  replySent : Bool := false
  deriving DecidableEq, Repr

structure Link where
  rx : Receiver := .hunt
  queue : List Frame := []
  current : Option Current := none
  reply : Option Reply := none
  sending : Option OutFrame := none
  notices : List Notice := []
  lost : Nat := 0
  mask : Half := 0x3FFF
  seq : Nat := 0
  framing : Nat := 0
  crc : Nat := 0
  overrun : Nat := 0
  cause : ResetCause := .power
  domains : Domains := {}
  resets : Nat := 0
  owed : Option OwedReset := none
  deriving DecidableEq, Repr

/-! ### The whole state -/

structure State where
  /-- The brownout detector holds the part in reset (R174). -/
  held : Bool
  straps : Straps
  clock : Clock
  bus : Bus
  /-- The roster entries and receive states of slots 1 to 15, in slot order (R12). -/
  roster : List RosterEntry
  receive : List Receive
  tracker : Tracker
  /-- One rotation check for each site (R38). -/
  rotation : List Rotation
  /-- The site table, sites 0 to 3 (R42). -/
  sites : List Site
  survey : Survey
  sag : Sag
  capture : Capture
  harm : Harm
  store : Store
  print : Print
  supply : Supply
  link : Link
  /-- The model's own: the number of the next free value drawn. -/
  free : Nat
  /-- The commands that are waiting, first in, first out. -/
  pending : List Instr
  deriving DecidableEq, Repr

/-- The nominal frequency of the strap, in mHz (R25). -/
def nominal (straps : Straps) : Nat := if straps.nominal60 then 60000 else 50000

/-- round(f x 2^32 / 128,000,000), halves up (R25). -/
def incrementOf (f : Nat) : Nat := (f * 2 ^ 32 + 64000000) / 128000000

/-- The tracker after a hardware reset (R25, R37). -/
def Tracker.reset (straps : Straps) : Tracker :=
  { f := nominal straps, k := incrementOf (nominal straps), frameFreq := nominal straps }

/-- The store state that a part has lost with its supply: free, by the choice numbered `n`.
(DESIGN CHOICE, safe: log 35.) -/
def lostStoreState (n : Nat) : StoreState :=
  [.mounting, .ready, .reclaiming, .full].getD (Config.lostStoreState n % 5) .wiping

/-- The STORE_STATE of a hardware reset (R137: "any, hardware reset, MOUNTING"): no record waits, and the
count of erased sectors, which the scan has not made yet, is free by the choice numbered `n`.
(DESIGN CHOICE, safe: log 35.) -/
def mountingNotice (old : StoreState) (n : Nat) : NoticeBody :=
  .storeState .mounting old (Config.erasedBeforeMount n % 65) none 0

/-- The link right after a hardware reset at time `t` (R180, R182): the idle transmitter has taken the
store's notice, the first of the sequence (R179). -/
def Link.started (cause : ResetCause) (b : NoticeBody) (t : ClockTime) : Link :=
  { cause := cause, sending := some (.notice 0 0 ⟨b, t⟩), seq := 1 }

/-- The state right after a hardware reset that found power-up, the backup cell lost and a new array:
the values of R2, R5, R6, R12, R25, R37, R42, R57, R64, R83, R115, R130, R168, R170, R171, R176, R180
and R182, with the store's STORE_STATE being sent (R137). The straps (50 Hz, 384 dots, 115,200 bit/s), the paper sensor, the frame count before frame 0,
the store's mode, numbers and lock mark before the end of the mount (R129, R131, R146) and the array's
content are the model's choices.
(DESIGN CHOICE, unsafe: logs 5 and 7.) -/
def State.reset : State where
  held := false
  straps := ⟨false, false, false⟩
  clock := {}
  bus := {}
  roster := List.replicate 15 {}
  receive := List.replicate 15 {}
  tracker := Tracker.reset ⟨false, false, false⟩
  rotation := List.replicate 4 {}
  sites := List.replicate 4 {}
  survey := {}
  sag := {}
  capture := {}
  harm := {}
  store := {}
  print := {}
  supply := {}
  link := Link.started .power (mountingNotice (lostStoreState 0) 1) ⟨0, 0⟩
  free := 2
  pending := []

end Sys2Proof.Machine
end

