-- ==== Sys2Proof/Machine/Ops.lean ====
section
/-!
DEFINITION. The shared operations: arithmetic of frames and clock times, access to the tables, the
store array's bytes, posting a notice, the transmitter, and answering the request in progress.
-/
namespace Sys2Proof.Machine

/-! ### Numbers -/

/-- round(n / d), halves away from zero, for d > 0 (00, "Rounding and integer division"). -/
def roundDiv (n : Int) (d : Nat) : Int :=
  if 0 ≤ n then ((2 * n.toNat + d) / (2 * d) : Nat)
  else -(((2 * (-n).toNat + d) / (2 * d) : Nat) : Int)

/-- ceil(n / d). -/
def ceilDiv (n d : Nat) : Nat := (n + d - 1) / d

/-- One digit of the integer square root: bits below `2 ^ k` of the root are still to be tried. -/
def isqrtFrom (n : Nat) : Nat → Nat → Nat
  | 0, r => r
  | k + 1, r => isqrtFrom n k (if (r + 2 ^ k) * (r + 2 ^ k) ≤ n then r + 2 ^ k else r)

/-- floor(√n). -/
def isqrt (n : Nat) : Nat := isqrtFrom n (n.log2 / 2 + 1) 0

/-- a − b in frame counts, which wrap at 2^48 (R2). -/
def frameDiff (a b : Nat) : Nat := (a + Config.frameModulus - b) % Config.frameModulus

/-- Half-cycle boundaries after b up to and including a (R66, R71). -/
def halfCycles (a b : Nat) : Nat := frameDiff a b / 64

/-- The count of the frame that begins: 0 after a reset, and otherwise one more (R2). -/
def nextFrame (b : Bus) : Nat := if b.begun then (b.frame + 1) % Config.frameModulus else 0

def ClockTime.total (t : ClockTime) : Nat := t.sec * 1000 + t.ms

/-- Milliseconds from b to a; the seconds count wraps at 2^32 (R40, R71).
(DESIGN CHOICE, unsafe: log 40.) -/
def msBetween (a b : ClockTime) : Nat := (a.total + 4294967296000 - b.total) % 4294967296000

/-- a is at or after b, on a clock that wraps (R104). (DESIGN CHOICE, unsafe: log 40.) -/
def atOrAfter (a b : ClockTime) : Bool := msBetween a b < 2147483648000

/-- The least of a list, or `d` for an empty one. -/
def minOf (d : Nat) (xs : List Nat) : Nat :=
  match xs with
  | [] => d
  | x :: rest => rest.foldl Nat.min x

def maxOf (d : Nat) (xs : List Nat) : Nat :=
  match xs with
  | [] => d
  | x :: rest => rest.foldl Nat.max x

/-- Inserts by rank, after its equals. -/
def insertBy {α : Type} (rank : α → Nat) (x : α) : List α → List α
  | [] => [x]
  | y :: ys => if rank x < rank y then x :: y :: ys else y :: insertBy rank x ys

/-- Sorts by rank; elements of one rank keep their order. -/
def sortBy {α : Type} (rank : α → Nat) (xs : List α) : List α :=
  xs.foldl (fun acc x => insertBy rank x acc) []

/-- The places 0, 1, ... of a list at which `p` holds. -/
def placesWhere {α : Type} (p : α → Bool) (xs : List α) : List Nat :=
  (xs.zipIdx.filter (fun x => p x.1)).map (·.2)

/-! ### Tables -/

namespace PerKind

def get (p : PerKind) : RecordKind → Nat
  | .event => p.event
  | .interval => p.interval
  | .note => p.note
  | .survey => p.survey
  | .lockMark => p.lockMark

def modify (f : Nat → Nat) (p : PerKind) : RecordKind → PerKind
  | .event => { p with event := f p.event }
  | .interval => { p with interval := f p.interval }
  | .note => { p with note := f p.note }
  | .survey => { p with survey := f p.survey }
  | .lockMark => { p with lockMark := f p.lockMark }

def map (f : Nat → Nat) (p : PerKind) : PerKind :=
  ⟨f p.event, f p.interval, f p.note, f p.survey, f p.lockMark⟩

def zip (f : Nat → Nat → Nat) (p q : PerKind) : PerKind :=
  ⟨f p.event q.event, f p.interval q.interval, f p.note q.note, f p.survey q.survey,
    f p.lockMark q.lockMark⟩

end PerKind

/-- The roster entry of slot 1 to 15. -/
def entryOf (s : State) (slot : Nat) : RosterEntry := s.roster.getD (slot - 1) {}

def modifyEntry (f : RosterEntry → RosterEntry) (slot : Nat) (s : State) : State :=
  { s with roster := updateAt f (slot - 1) s.roster }

def receiveOf (s : State) (slot : Nat) : Receive := s.receive.getD (slot - 1) {}

def modifyReceive (f : Receive → Receive) (slot : Nat) (s : State) : State :=
  { s with receive := updateAt f (slot - 1) s.receive }

def isSlot (slot : Nat) : Bool := 1 ≤ slot && slot ≤ 15

def slotReady (s : State) (slot : Nat) : Bool := isSlot slot && (entryOf s slot).state == .ready

def siteOf (s : State) (site : Nat) : Site := s.sites.getD site {}

def memberOf (s : State) (site role : Nat) : Option Member := (siteOf s site).members.getD role none

def modifySite (f : Site → Site) (site : Nat) (s : State) : State :=
  { s with sites := updateAt f site s.sites }

def modifyMember (f : Option Member → Option Member) (site role : Nat) (s : State) : State :=
  modifySite (fun e => { e with members := updateAt f role e.members }) site s

def roleOf : Nat → Role
  | 0 => .l1
  | 1 => .l2
  | 2 => .l3
  | 3 => .n
  | 4 => .i1
  | 5 => .i2
  | 6 => .i3
  | _ => .iN

def Role.code : Role → Nat
  | .l1 => 0
  | .l2 => 1
  | .l3 => 2
  | .n => 3
  | .i1 => 4
  | .i2 => 5
  | .i3 => 6
  | .iN => 7

/-- L1, L2, L3 and N are voltage roles, I1, I2, I3 and IN current roles (R44). -/
def roleKind (role : Nat) : PodKind := if role < 4 then .voltage else .current

/-- The member positions of the whole table, in site and role order. -/
def allPositions : List (Nat × Nat) :=
  (List.range 4).flatMap fun i => (List.range 8).map fun j => (i, j)

/-- The position that names a slot, or none; at most one does (R44). -/
def positionOf (s : State) (slot : Nat) : Option (Nat × Nat) :=
  allPositions.find? fun p =>
    match memberOf s p.1 p.2 with
    | some m => m.slot == slot
    | none => false

def sagSite (s : State) (site : Nat) : SagSite := s.sag.sites.getD site {}

def modifySag (f : SagSite → SagSite) (site : Nat) (s : State) : State :=
  { s with sag := { s.sag with sites := updateAt f site s.sag.sites } }

def channelOf (s : State) (site role : Nat) : Channel := (sagSite s site).channels.getD role {}

def modifyChannel (f : Channel → Channel) (site role : Nat) (s : State) : State :=
  modifySag (fun g => { g with channels := updateAt f role g.channels }) site s

def harmSite (s : State) (site : Nat) : HarmSite := s.harm.sites.getD site {}

def modifyHarm (f : HarmSite → HarmSite) (site : Nat) (s : State) : State :=
  { s with harm := { s.harm with sites := updateAt f site s.harm.sites } }

def harmMember (s : State) (site role : Nat) : HarmMember := (harmSite s site).members.getD role {}

def modifyHarmMember (f : HarmMember → HarmMember) (site role : Nat) (s : State) : State :=
  modifyHarm (fun h => { h with members := updateAt f role h.members }) site s

def captureSlot (s : State) (slot : Nat) : CaptureSlot := s.capture.slots.getD slot {}

def modifyCapture (f : CaptureSlot → CaptureSlot) (slot : Nat) (s : State) : State :=
  { s with capture := { s.capture with slots := updateAt f slot s.capture.slots } }

def rotationOf (s : State) (site : Nat) : Rotation := s.rotation.getD site {}

def recording (s : State) : Bool := s.survey.state == some .recording

def critical (s : State) : Bool := s.supply.level == .critical

/-- The next free value's number, and the state that has drawn it. -/
def drawFree (s : State) : Nat × State := (s.free, { s with free := s.free + 1 })

/-! ### The store array's bytes (R116, R186) -/

abbrev Memory := List Host.Cell

/-- An erased byte reads 0xFF (R186). (DESIGN CHOICE for a new part, unsafe: log 5.) -/
def erasedByte : Byte := 0xFF

namespace Memory

def read : Memory → Nat → Byte
  | [], _ => erasedByte
  | (k, b) :: rest, a => if k = a then b else read rest a

/-- The cells of a run of bytes from address `a`; an erased byte has no cell. -/
def cells : Nat → List Byte → Memory
  | _, [] => []
  | a, b :: bs => if b = erasedByte then cells (a + 1) bs else (a, b) :: cells (a + 1) bs

/-- Puts a run of bytes at address `a`. -/
def write (m : Memory) (a : Nat) (bs : List Byte) : Memory :=
  m.filter (fun c => c.1 < a) ++ (cells a bs ++ m.filter (fun c => a + bs.length ≤ c.1))

/-- Erases `n` bytes from address `a`. -/
def erase (m : Memory) (a n : Nat) : Memory :=
  m.filter (fun c => c.1 < a) ++ m.filter (fun c => a + n ≤ c.1)

def readBytes (m : Memory) (a n : Nat) : List Byte :=
  let near := m.filter (fun c => a ≤ c.1 && c.1 < a + n)
  (List.range n).map fun i => read near (a + i)

/-- The canonical form: addresses strictly rising, no erased byte listed. -/
def wf : Memory → Bool
  | [] => true
  | [(_, b)] => b != erasedByte
  | (a, b) :: (a', b') :: rest => a < a' && b != erasedByte && wf ((a', b') :: rest)

end Memory

/-- The address of a block of the array: 64 blocks of 256 bytes a sector (R116, R186). -/
def blockAddress (loc : Nat × Nat) : Nat := loc.1 * 16384 + loc.2 * 256

/-! ### Transmitter and notices (R179, R180) -/

/-- The kind of a notice less 0x60 (R183). -/
def NoticeBody.code : NoticeBody → Nat
  | .podJoin .. => 0
  | .podLeave .. => 1
  | .podFault .. => 2
  | .trackState .. => 3
  | .rotation .. => 4
  | .surveyState .. => 5
  | .eventOpen .. => 6
  | .eventClose .. => 7
  | .intervalClose .. => 8
  | .storeState .. => 9
  | .noteLocked .. => 10
  | .printState .. => 11
  | .jobDone .. => 12
  | .supplyState .. => 13

/-- A NOTICE reset is owed and its RESET reply has left (R181). -/
def Link.noticeResetDue (l : Link) : Bool :=
  match l.owed with
  | some o => o.replySent && o.domains.notice
  | none => false

/-- The RESET ends when every domain has taken its reset (R181). -/
def Link.settle (l : Link) : Link :=
  match l.owed with
  | some o =>
    if o.replySent && !o.domains.acq && !o.domains.print && !o.domains.notice then
      { l with owed := none, current := none }
    else l
  | none => l

/-- The domains still to be reset. -/
def Link.setDomains (f : Domains → Domains) (l : Link) : Link :=
  { l with owed := l.owed.map fun o => { o with domains := f o.domains } }

/-- R181: the NOTICE domain is reset, where that is due. -/
def Link.noticeReset (l : Link) : Link :=
  if l.noticeResetDue then
    (Link.setDomains (fun d => { d with notice := false })
      { l with notices := [], lost := 0, mask := 0x3FFF, seq := 0 }).settle
  else l

/-- R179: an idle transmitter takes the reply, and otherwise the oldest notice; R180: the lost count
goes into that notice and becomes 0. -/
def Link.startTransmit (l : Link) : Link :=
  if l.sending.isSome || l.noticeResetDue then l
  else
    match l.reply with
    | some r => { l with sending := some (.reply r), reply := none }
    | none =>
      match l.notices with
      | n :: rest =>
        { l with
          sending := some (.notice (l.seq % 256) l.lost n), notices := rest, lost := 0
          seq := l.seq + 1 }
      | [] => l

/-- R180: a notice is discarded by the mask, queued, or dropped with the lost count incremented. -/
def Link.offerNotice (n : Notice) (l : Link) : Link :=
  if !l.mask.getLsbD n.body.code then l
  else if l.notices.length < Config.noticePlaces then
    { l with notices := l.notices ++ [n] }.startTransmit
  else { l with lost := satInc 65535 l.lost }

/-- A notice is posted; a NOTICE reset that is due comes before it (R181). -/
def Link.post (n : Notice) (l : Link) : Link := l.noticeReset.offerNotice n

/-- Posts a notice with the clock reading of the moment (R180). -/
def post (body : NoticeBody) (s : State) : State :=
  { s with link := s.link.post ⟨body, s.clock.time⟩ }

def postWhen (c : Bool) (body : NoticeBody) (s : State) : State := if c then post body s else s

/-- A request's kind with its top bit set (R178). -/
def replyKind (kind : Nat) : Nat := if kind < 128 then kind + 128 else kind

/-- R177, R178: answers the request in progress; the reply goes to the reply place. -/
def Link.answer (status : Status) (body : ReplyBody) (l : Link) : Link :=
  match l.current with
  | some c => { l with current := none, reply := some ⟨replyKind c.kind, c.tag, status, body⟩ }.startTransmit
  | none => l

def answer (status : Status) (body : ReplyBody) (s : State) : State :=
  { s with link := s.link.answer status body }

/-- A refusal carries the status alone (R178). -/
def refuse (status : Status) (s : State) : State := answer status .empty s

/-- The outcome every command has: a next state. A part held by the brownout detector does nothing
(R174). (DEDUCED, safe: log 31.) -/
def running (f : State → State) (s : State) : Host.Outcome State Fault Refusal :=
  if s.held then .next s else .next (f s)

end Sys2Proof.Machine
end

