-- ==== Sys2Proof/Machine/Flags.lean ====
section
/-!
DEFINITION. The flag words of the records (R186) and of the identity of a flag set.
-/
namespace Sys2Proof.Machine

/-- The word whose bit k is the k-th flag. -/
def flagWord : List Bool → Nat
  | [] => 0
  | b :: bs => (if b then 1 else 0) + 2 * flagWord bs

/-- Bits 0 to 11 of an EVENT record's flags (R186). -/
def EventFlags.word (f : EventFlags) : Nat :=
  flagWord [f.long, f.truncated, f.probeLost, f.probeGap, f.freqUnlocked, f.clipped, f.atStart,
    f.calExpired, f.rotationReversed, f.overlap, f.noCapture, f.clockUnset]

def eventFlagsOf (w : Nat) : EventFlags where
  long := w.testBit 0
  truncated := w.testBit 1
  probeLost := w.testBit 2
  probeGap := w.testBit 3
  freqUnlocked := w.testBit 4
  clipped := w.testBit 5
  atStart := w.testBit 6
  calExpired := w.testBit 7
  rotationReversed := w.testBit 8
  overlap := w.testBit 9
  noCapture := w.testBit 10
  clockUnset := w.testBit 11

/-- Bits 0 to 6 of an INTERVAL record's flags (R186). -/
def IntervalFlags.word (f : IntervalFlags) : Nat :=
  flagWord [f.partialClose, f.flagged, f.clipped, f.freqUnlocked, f.fixedFreq, f.calExpired,
    f.clockUnset]

def intervalFlagsOf (w : Nat) : IntervalFlags where
  partialClose := w.testBit 0
  flagged := w.testBit 1
  clipped := w.testBit 2
  freqUnlocked := w.testBit 3
  fixedFreq := w.testBit 4
  calExpired := w.testBit 5
  clockUnset := w.testBit 6

end Sys2Proof.Machine
end

