-- ==== Sys2Proof/Machine/Operands.lean ====
section
/-!
DEFINITION. The operand forms: what the coded fields of a request mean (R184).
-/
namespace Sys2Proof.Machine

/-- Status codes of a reply (R178, R184). -/
def Status.code : Status → Nat
  | .ok => 0x00
  | .okClamped => 0x01
  | .accepted => 0x02
  | .unknownKind => 0x10
  | .badLength => 0x11
  | .badValue => 0x12
  | .wrongState => 0x13
  | .busy => 0x14
  | .notFound => 0x15
  | .pinned => 0x16
  | .attached => 0x17
  | .locked => 0x18
  | .hasAmendment => 0x19
  | .chainLimit => 0x1A
  | .storeFull => 0x1B
  | .queueFull => 0x1C
  | .supply => 0x1D

/-- Codes of the record kinds (R184). -/
def RecordKind.code : RecordKind → Nat
  | .event => 1
  | .interval => 2
  | .note => 3
  | .survey => 4
  | .lockMark => 5

def recordKind? : Nat → Option RecordKind
  | 1 => some .event
  | 2 => some .interval
  | 3 => some .note
  | 4 => some .survey
  | 5 => some .lockMark
  | _ => none

/-- A kind a note may attach to: EVENT or INTERVAL (R140). -/
def attachKind? : Nat → Option RecordKind
  | 1 => some .event
  | 2 => some .interval
  | _ => none

def storeMode? : Nat → Option StoreMode
  | 0 => some .overwrite
  | 1 => some .stop
  | _ => none

def schedule? : Nat → Option Schedule
  | 0 => some .continuous
  | 1 => some .half
  | 2 => some .one
  | 3 => some .two
  | 4 => some .four
  | _ => none

/-- A printable character: 0x20 to 0x7E (R42, R140, R153). -/
def printable (c : Byte) : Bool := 0x20 ≤ c.toNat && c.toNat ≤ 0x7E

def letter (c : Byte) : Bool := 0x41 ≤ c.toNat && c.toNat ≤ 0x5A

/-- The letters of a crew tag: 1 to 3 letters A to Z, left-aligned, unused places 0x00 (R140, R184). -/
def crewLetters (c : Crew) : Option (List Byte) :=
  if letter c.a then
    if letter c.b then
      if letter c.c then some [c.a, c.b, c.c]
      else if c.c = 0 then some [c.a, c.b] else none
    else if c.b = 0 ∧ c.c = 0 then some [c.a] else none
  else none

/-- The site of an optional field: 0xFF stands for none (R184). -/
def optionalSite (b : Byte) : Option Nat := if b = 0xFF then none else some b.toNat

/-- The domains a RESET names; none for an empty set or one that names anything else (R181, R184). -/
def domains? (b : Byte) : Option Domains :=
  if b = 0 ∨ 8 ≤ b.toNat then none
  else some ⟨b.getLsbD 0, b.getLsbD 1, b.getLsbD 2⟩

end Sys2Proof.Machine
end

