-- ==== Sys2Proof/Machine/Wire.lean ====
section
/-!
DEFINITION. Little-endian fields, the CRC-16, and the request payloads of R184: `encodeRequest` and
`decodeRequest`, the length check of R177 included.
-/
namespace Sys2Proof.Machine

/-- The `n` bytes of a number, least significant first (R184). -/
def le : Nat → Nat → List Byte
  | 0, _ => []
  | n + 1, v => BitVec.ofNat 8 v :: le n (v / 256)

/-- The number whose little-endian bytes these are. -/
def unle : List Byte → Nat
  | [] => 0
  | b :: bs => b.toNat + 256 * unle bs

/-- The number of `n` bytes at an offset. -/
def field (p : List Byte) (off n : Nat) : Nat := unle ((p.drop off).take n)

def byteAt (p : List Byte) (off : Nat) : Byte := p.getD off 0
def halfAt (p : List Byte) (off : Nat) : Half := BitVec.ofNat 16 (field p off 2)
def wordAt (p : List Byte) (off : Nat) : Word := BitVec.ofNat 32 (field p off 4)

/-! ### CRC-16 (R8, R176) -/

/-- One bit: polynomial 0x1021, most significant bit first. -/
def crcShift (c : Nat) : Nat :=
  if c.testBit 15 then (c * 2 ^^^ 0x1021) % 65536 else c * 2 % 65536

def crcByte (c : Nat) (b : Byte) : Nat :=
  crcShift (crcShift (crcShift (crcShift (crcShift (crcShift (crcShift (crcShift
    (c ^^^ b.toNat * 256))))))))

/-- Initial value 0xFFFF, no final inversion. -/
def crc16 (bs : List Byte) : Nat := bs.foldl crcByte 0xFFFF

/-! ### Request kinds (R183) -/

def requestCode : Request → Nat
  | .podRoster => 0x01
  | .podStatus .. => 0x02
  | .podRetry .. => 0x03
  | .podClear .. => 0x04
  | .trackRef .. => 0x05
  | .trackFixed .. => 0x06
  | .trackStatus .. => 0x07
  | .clockSet .. => 0x08
  | .siteSet .. => 0x09
  | .siteGet .. => 0x0A
  | .assign .. => 0x0B
  | .surveyStart => 0x0C
  | .surveyHold => 0x0D
  | .surveyResume => 0x0E
  | .surveyEnd => 0x0F
  | .surveyNew => 0x10
  | .surveyStatus => 0x11
  | .sagStatus .. => 0x12
  | .captureList => 0x13
  | .captureRead .. => 0x14
  | .captureRelease .. => 0x15
  | .harmonicStatus .. => 0x16
  | .storeStatus => 0x17
  | .storeMode .. => 0x18
  | .recordList .. => 0x19
  | .recordRead .. => 0x1A
  | .recordDelete .. => 0x1B
  | .storeWipe => 0x1C
  | .noteAdd .. => 0x1D
  | .noteAmend .. => 0x1E
  | .noteAttach .. => 0x1F
  | .noteDelete .. => 0x20
  | .noteLock .. => 0x21
  | .noteList .. => 0x22
  | .printSubmit .. => 0x23
  | .printCancel .. => 0x24
  | .printResume => 0x25
  | .printDoneRead => 0x26
  | .printStatus => 0x27
  | .supplySet .. => 0x28
  | .supplyStatus .. => 0x29
  | .noticeMask .. => 0x2A
  | .reset .. => 0x2B
  | .identify => 0x2C

/-! ### Encoding -/

def bit (b : Bool) : Byte := if b then 1 else 0

def optBytes {α : Type} (f : α → List Byte) : Option α → List Byte
  | some x => f x
  | none => []

/-- Bit k of a carried mask. -/
def maskBit {α : Type} (k : Nat) (o : Option α) : Nat := if o.isSome then 2 ^ k else 0

def settingsMask (c : CarriedSettings) : Nat :=
  maskBit 0 c.enabled + maskBit 1 c.name + maskBit 2 c.udin + maskBit 3 c.st + maskBit 4 c.h +
    maskBit 5 c.ti + maskBit 6 c.nc + maskBit 7 c.pc + maskBit 8 c.wc + maskBit 9 c.pe +
    maskBit 10 c.we + maskBit 11 c.hmax + maskBit 12 c.interval + maskBit 13 c.rotCheck

def byteField (b : Byte) : List Byte := [b]
def halfField (h : Half) : List Byte := le 2 h.toNat
def wordField (w : Word) : List Byte := le 4 w.toNat

def encodeSettings (c : CarriedSettings) : List Byte :=
  le 2 (settingsMask c) ++ optBytes (fun b => [bit b]) c.enabled ++
    optBytes (fun cs => BitVec.ofNat 8 cs.length :: cs) c.name ++ optBytes halfField c.udin ++
    optBytes halfField c.st ++ optBytes byteField c.h ++ optBytes halfField c.ti ++
    optBytes byteField c.nc ++ optBytes byteField c.pc ++ optBytes byteField c.wc ++
    optBytes byteField c.pe ++ optBytes byteField c.we ++ optBytes byteField c.hmax ++
    optBytes byteField c.interval ++ optBytes (fun b => [bit b]) c.rotCheck

def sectionCode : Section → Byte
  | .text _ => 1
  | .feed _ => 2
  | .eventList _ _ _ => 3
  | .eventDetail _ _ => 4
  | .intervalTable _ _ => 5
  | .note _ _ => 6
  | .surveySummary => 7
  | .unknown code _ => code

def sectionParams : Section → List Byte
  | .text chars => chars
  | .feed lines => halfField lines
  | .eventList first last site => wordField first ++ wordField last ++ [site]
  | .eventDetail id waveform => wordField id ++ [bit waveform]
  | .intervalTable id orders => wordField id ++ [BitVec.ofNat 8 orders.length] ++ orders
  | .note id amendments => wordField id ++ [bit amendments]
  | .surveySummary => []
  | .unknown _ params => params

def encodeSection (x : Section) : List Byte :=
  sectionCode x :: BitVec.ofNat 8 (sectionParams x).length :: sectionParams x

/-- The payload of a request (R184). -/
def encodeRequest : Request → List Byte
  | .podRoster | .surveyStart | .surveyHold | .surveyResume | .surveyEnd | .surveyNew
  | .surveyStatus | .captureList | .storeStatus | .storeWipe | .printResume | .printDoneRead
  | .printStatus | .identify => []
  | .podStatus slot | .podRetry slot | .podClear slot | .trackRef slot => [slot]
  | .siteGet site | .sagStatus site | .harmonicStatus site => [site]
  | .trackFixed freq => wordField freq
  | .trackStatus clear | .supplyStatus clear => [bit clear]
  | .clockSet sec ms => wordField sec ++ halfField ms
  | .siteSet site carried => site :: encodeSettings carried
  | .assign slot site role => [slot, site, role]
  | .captureRead slot segment member first cycles => [slot, segment, member, first, cycles]
  | .captureRelease slot serial => slot :: optBytes halfField serial
  | .storeMode mode => [mode]
  | .recordList kind fromId count => kind :: (wordField fromId ++ [count])
  | .recordRead kind id | .recordDelete kind id => kind :: wordField id
  | .noteAdd site kind id crew text =>
    [site, kind] ++ wordField id ++ [crew.a, crew.b, crew.c] ++ le 2 text.length ++ text
  | .noteAmend id crew text => wordField id ++ [crew.a, crew.b, crew.c] ++ le 2 text.length ++ text
  | .noteAttach id kind target => wordField id ++ [kind] ++ wordField target
  | .noteDelete id => wordField id
  | .noteLock upto => wordField upto
  | .noteList fromId count => wordField fromId ++ [count]
  | .printSubmit copies sections =>
    [copies, BitVec.ofNat 8 sections.length] ++ sections.flatMap encodeSection
  | .printCancel job => halfField job
  | .supplySet low critical schedule =>
    BitVec.ofNat 8 (maskBit 0 low + maskBit 1 critical + maskBit 2 schedule) ::
      (optBytes halfField low ++ optBytes halfField critical ++ optBytes byteField schedule)
  | .noticeMask mask => halfField mask
  | .reset domains => [domains]

/-- The length, kind, tag and payload of a link frame, over which its CRC is computed (R176). -/
def frameCore (kind : Nat) (tag : Byte) (payload : List Byte) : List Byte :=
  le 2 payload.length ++ le 1 kind ++ [tag] ++ payload

/-- The bytes of a link frame (R184). -/
def frameBytes (kind : Nat) (tag : Byte) (payload : List Byte) : List Byte :=
  0xA5 :: (frameCore kind tag payload ++ le 2 (crc16 (frameCore kind tag payload)))

/-- The first byte of a reply's payload: its status, coded (R178, R184). -/
def Reply.statusByte (r : Reply) : Byte := BitVec.ofNat 8 r.status.code

/-- The bytes of a reply that carries its status alone (R178), and none of a reply with content, which
the model holds by meaning. (DESIGN CHOICE, safe: log 10.) -/
def Reply.bytes (r : Reply) : Option (List Byte) :=
  if r.body = .empty then some (frameBytes r.kind r.tag [r.statusByte]) else none

/-! ### Decoding -/

/-- A request payload read against its kind (R177). -/
inductive Decoded where
  | ok (r : Request)
  | unknownKind
  | badLength
  deriving DecidableEq, Repr

def sized (c : Bool) (r : Request) : Decoded := if c then .ok r else .badLength

/-- A carried number of `n` bytes: absent when its mask bit is clear, a failure when bytes are short. -/
def takeNumber (n : Nat) (carried : Bool) (p : List Byte) : Option (Option Nat × List Byte) :=
  if !carried then some (none, p)
  else if p.length < n then none
  else some (some (unle (p.take n)), p.drop n)

/-- A carried name: a length byte, then that many characters (R184). -/
def takeName (carried : Bool) (p : List Byte) : Option (Option (List Byte) × List Byte) :=
  if !carried then some (none, p)
  else
    match p with
    | [] => none
    | n :: rest =>
      if rest.length < n.toNat then none else some (some (rest.take n.toNat), rest.drop n.toNat)

def toByte? (o : Option Nat) : Option Byte := o.map (BitVec.ofNat 8)
def toHalf? (o : Option Nat) : Option Half := o.map (BitVec.ofNat 16)
def toFlag? (o : Option Nat) : Option Bool := o.map (· != 0)

/-- The settings after the mask of a SITE_SET, in order of their mask bits; all bytes are used (R184). -/
def decodeSettings (mask : Nat) (p : List Byte) : Option CarriedSettings := do
  let (enabled, p) ← takeNumber 1 (mask.testBit 0) p
  let (name, p) ← takeName (mask.testBit 1) p
  let (udin, p) ← takeNumber 2 (mask.testBit 2) p
  let (st, p) ← takeNumber 2 (mask.testBit 3) p
  let (h, p) ← takeNumber 1 (mask.testBit 4) p
  let (ti, p) ← takeNumber 2 (mask.testBit 5) p
  let (nc, p) ← takeNumber 1 (mask.testBit 6) p
  let (pc, p) ← takeNumber 1 (mask.testBit 7) p
  let (wc, p) ← takeNumber 1 (mask.testBit 8) p
  let (pe, p) ← takeNumber 1 (mask.testBit 9) p
  let (we, p) ← takeNumber 1 (mask.testBit 10) p
  let (hmax, p) ← takeNumber 1 (mask.testBit 11) p
  let (interval, p) ← takeNumber 1 (mask.testBit 12) p
  let (rotCheck, p) ← takeNumber 1 (mask.testBit 13) p
  if p.isEmpty then
    some
      { enabled := toFlag? enabled, name := name, udin := toHalf? udin, st := toHalf? st
        h := toByte? h, ti := toHalf? ti, nc := toByte? nc, pc := toByte? pc, wc := toByte? wc
        pe := toByte? pe, we := toByte? we, hmax := toByte? hmax, interval := toByte? interval
        rotCheck := toFlag? rotCheck }
  else none

/-- A section of a known code whose parameter length is not its own gives none (R184). -/
def decodeSection (code : Byte) (p : List Byte) : Option Section :=
  match code.toNat with
  | 1 => some (.text p)
  | 2 => if p.length = 2 then some (.feed (halfAt p 0)) else none
  | 3 => if p.length = 9 then some (.eventList (wordAt p 0) (wordAt p 4) (byteAt p 8)) else none
  | 4 => if p.length = 5 then some (.eventDetail (wordAt p 0) (byteAt p 4 != 0)) else none
  | 5 =>
    if 5 ≤ p.length ∧ p.length = 5 + (byteAt p 4).toNat then
      some (.intervalTable (wordAt p 0) (p.drop 5))
    else none
  | 6 => if p.length = 5 then some (.note (wordAt p 0) (byteAt p 4 != 0)) else none
  | 7 => if p.length = 0 then some .surveySummary else none
  | _ => some (.unknown code p)

/-- `n` sections that fill the bytes exactly (R184). -/
def decodeSections : Nat → List Byte → Option (List Section)
  | 0, p => if p.isEmpty then some [] else none
  | n + 1, p =>
    match p with
    | code :: len :: rest =>
      if rest.length < len.toNat then none
      else
        match decodeSection code (rest.take len.toNat), decodeSections n (rest.drop len.toNat) with
        | some x, some xs => some (x :: xs)
        | _, _ => none
    | _ => none

def crewAt (p : List Byte) (off : Nat) : Crew :=
  ⟨byteAt p off, byteAt p (off + 1), byteAt p (off + 2)⟩

/-- The values after the mask of a SUPPLY_SET (R184); its bits 3 to 7 select nothing.
(DEDUCED, unsafe: log 22.) -/
def decodeSupplySet (mask : Byte) (p : List Byte) : Option Request := do
  let (low, p) ← takeNumber 2 (mask.getLsbD 0) p
  let (critical, p) ← takeNumber 2 (mask.getLsbD 1) p
  let (schedule, p) ← takeNumber 1 (mask.getLsbD 2) p
  if p.isEmpty then some (.supplySet (toHalf? low) (toHalf? critical) (toByte? schedule)) else none

def ofOption : Option Request → Decoded
  | some r => .ok r
  | none => .badLength

/-- R177: the kind, then the length, then the request. -/
def decodeRequest (kind : Nat) (p : List Byte) : Decoded :=
  let n := p.length
  match kind with
  | 0x01 => sized (n == 0) .podRoster
  | 0x02 => sized (n == 1) (.podStatus (byteAt p 0))
  | 0x03 => sized (n == 1) (.podRetry (byteAt p 0))
  | 0x04 => sized (n == 1) (.podClear (byteAt p 0))
  | 0x05 => sized (n == 1) (.trackRef (byteAt p 0))
  | 0x06 => sized (n == 4) (.trackFixed (wordAt p 0))
  | 0x07 => sized (n == 1) (.trackStatus (byteAt p 0 != 0))
  | 0x08 => sized (n == 6) (.clockSet (wordAt p 0) (halfAt p 4))
  | 0x09 =>
    if n < 3 then .badLength
    else ofOption ((decodeSettings (field p 1 2) (p.drop 3)).map (.siteSet (byteAt p 0)))
  | 0x0A => sized (n == 1) (.siteGet (byteAt p 0))
  | 0x0B => sized (n == 3) (.assign (byteAt p 0) (byteAt p 1) (byteAt p 2))
  | 0x0C => sized (n == 0) .surveyStart
  | 0x0D => sized (n == 0) .surveyHold
  | 0x0E => sized (n == 0) .surveyResume
  | 0x0F => sized (n == 0) .surveyEnd
  | 0x10 => sized (n == 0) .surveyNew
  | 0x11 => sized (n == 0) .surveyStatus
  | 0x12 => sized (n == 1) (.sagStatus (byteAt p 0))
  | 0x13 => sized (n == 0) .captureList
  | 0x14 =>
    sized (n == 5) (.captureRead (byteAt p 0) (byteAt p 1) (byteAt p 2) (byteAt p 3) (byteAt p 4))
  | 0x15 =>
    if n = 1 then .ok (.captureRelease (byteAt p 0) none)
    else sized (n == 3) (.captureRelease (byteAt p 0) (some (halfAt p 1)))
  | 0x16 => sized (n == 1) (.harmonicStatus (byteAt p 0))
  | 0x17 => sized (n == 0) .storeStatus
  | 0x18 => sized (n == 1) (.storeMode (byteAt p 0))
  | 0x19 => sized (n == 6) (.recordList (byteAt p 0) (wordAt p 1) (byteAt p 5))
  | 0x1A => sized (n == 5) (.recordRead (byteAt p 0) (wordAt p 1))
  | 0x1B => sized (n == 5) (.recordDelete (byteAt p 0) (wordAt p 1))
  | 0x1C => sized (n == 0) .storeWipe
  | 0x1D =>
    sized (11 ≤ n && n == 11 + field p 9 2)
      (.noteAdd (byteAt p 0) (byteAt p 1) (wordAt p 2) (crewAt p 6) (p.drop 11))
  | 0x1E =>
    sized (9 ≤ n && n == 9 + field p 7 2) (.noteAmend (wordAt p 0) (crewAt p 4) (p.drop 9))
  | 0x1F => sized (n == 9) (.noteAttach (wordAt p 0) (byteAt p 4) (wordAt p 5))
  | 0x20 => sized (n == 4) (.noteDelete (wordAt p 0))
  | 0x21 => sized (n == 4) (.noteLock (wordAt p 0))
  | 0x22 => sized (n == 5) (.noteList (wordAt p 0) (byteAt p 4))
  | 0x23 =>
    if n < 2 then .badLength
    else
      ofOption ((decodeSections (byteAt p 1).toNat (p.drop 2)).map (.printSubmit (byteAt p 0)))
  | 0x24 => sized (n == 2) (.printCancel (halfAt p 0))
  | 0x25 => sized (n == 0) .printResume
  | 0x26 => sized (n == 0) .printDoneRead
  | 0x27 => sized (n == 0) .printStatus
  | 0x28 => if n < 1 then .badLength else ofOption (decodeSupplySet (byteAt p 0) (p.drop 1))
  | 0x29 => sized (n == 1) (.supplyStatus (byteAt p 0 != 0))
  | 0x2A => sized (n == 2) (.noticeMask (halfAt p 0))
  | 0x2B => sized (n == 1) (.reset (byteAt p 0))
  | 0x2C => sized (n == 0) .identify
  | _ => .unknownKind

end Sys2Proof.Machine
end

