-- ==== Sys2Proof/Machine/Records.lean ====
section
/-!
DEFINITION. The records as bytes: header, content and blocks (R117, R118, R186), and their reading back.
-/
namespace Sys2Proof.Machine

def timeField (t : ClockTime) : List Byte := le 4 t.sec ++ le 2 t.ms
def timeAt (p : List Byte) (off : Nat) : ClockTime := ⟨field p off 4, field p (off + 4) 2⟩

/-- Fills up to `n` bytes with 0x00 (R186: unused bytes of a written block). -/
def padTo (n : Nat) (bs : List Byte) : List Byte := bs ++ List.replicate (n - bs.length) 0

/-- Pieces of `n` elements, `fuel` of them at most. -/
def pieces {α : Type} (n : Nat) : Nat → List α → List (List α)
  | 0, _ => []
  | fuel + 1, xs => if xs.isEmpty then [] else xs.take n :: pieces n fuel (xs.drop n)

def EventFlags.bytes (f : EventFlags) : List Byte := le 2 f.word

/-! ### Content (R186) -/

def involvedBytes (e : Role × Nat × Nat × Nat) : List Byte :=
  le 1 e.1.code ++ le 4 e.2.1 ++ le 2 e.2.2.1 ++ le 2 e.2.2.2

/-- The EVENT record (R186). Of a duration above 4,294,967,295 ms its four bytes hold the low 32 bits.
(DESIGN CHOICE, unsafe: log 40.) -/
def eventBytes (r : EventRecord) : List Byte :=
  le 4 r.id ++ le 2 r.number ++ le 1 r.site ++ le 1 (if r.interruption then 1 else 0) ++
    timeField r.startTime ++ timeField r.endTime ++ le 2 r.half ++ le 4 r.ms ++ le 2 r.minR ++
    le 1 r.worst.code ++ le 2 r.udin ++ le 2 r.flags.word ++
    (match r.capture with
      | some c => le 1 1 ++ le 1 c.1 ++ le 2 c.2
      | none => le 4 0) ++
    le 1 r.involved.length ++ r.involved.flatMap involvedBytes

def decodeInvolved (p : List Byte) : Role × Nat × Nat × Nat :=
  (roleOf (field p 0 1), field p 1 4, field p 5 2, field p 7 2)

def decodeEvent (p : List Byte) : EventRecord where
  id := field p 0 4
  number := field p 4 2
  site := field p 6 1
  interruption := field p 7 1 == 1
  startTime := timeAt p 8
  endTime := timeAt p 14
  half := field p 20 2
  ms := field p 22 4
  minR := field p 26 2
  worst := roleOf (field p 28 1)
  udin := field p 29 2
  flags := eventFlagsOf (field p 31 2)
  capture := if field p 33 1 = 0 then none else some (field p 34 1, field p 35 2)
  involved := (pieces 9 (field p 37 1) (p.drop 38)).map decodeInvolved

def orderBytes (o : Nat × Nat) : List Byte := le 4 o.1 ++ le 4 o.2

/-- The first 53 bytes of an INTERVAL record's content. -/
def intervalHead (id : Nat) (r : IntervalRecord) : List Byte :=
  le 4 id ++ le 2 r.number ++ le 1 r.site ++ le 1 r.role.code ++ le 1 r.slot ++ le 4 r.serial ++
    timeField r.startTime ++ timeField r.endTime ++ le 4 r.n ++ le 4 r.excluded ++
    le 1 r.flags.word ++ le 1 0 ++ le 4 r.freqMean ++ le 4 r.freqMin ++ le 4 r.freqMax ++
    (match r.thd with
      | some t => le 1 1 ++ le 2 t.1 ++ le 2 t.2
      | none => le 5 0) ++
    le 1 r.orders.length

/-- Reads an INTERVAL record's content from its head and the bytes of its order list. -/
def decodeInterval (p orders : List Byte) : Nat × IntervalRecord :=
  (field p 0 4,
    { number := field p 4 2, site := field p 6 1, role := roleOf (field p 7 1)
      slot := field p 8 1, serial := field p 9 4, startTime := timeAt p 13, endTime := timeAt p 19
      n := field p 25 4, excluded := field p 29 4, flags := intervalFlagsOf (field p 33 1)
      freqMean := field p 35 4, freqMin := field p 39 4, freqMax := field p 43 4
      thd := if field p 47 1 = 0 then none else some (field p 48 2, field p 50 2)
      orders := (pieces 8 (field p 52 1) orders).map fun o => (field o 0 4, field o 4 4) })

/-- The first 28 bytes of a NOTE record's content. -/
def noteHead (r : NoteRecord) : List Byte :=
  le 4 r.id ++ le 2 r.number ++ le 1 (r.site.getD 0xFF) ++
    (match r.attach with
      | some a => le 1 a.kind.code ++ le 4 a.id
      | none => le 5 0) ++
    le 4 (r.amends.getD 0) ++ padTo 3 r.crew ++ timeField r.time ++
    le 1 (if r.clockUnset then 1 else 0) ++ le 2 r.text.length

def decodeNote (p text : List Byte) : NoteRecord where
  id := field p 0 4
  number := field p 4 2
  site := if field p 6 1 = 0xFF then none else some (field p 6 1)
  attach := (attachKind? (field p 7 1)).map fun k => ⟨k, field p 8 4⟩
  amends := if field p 12 4 = 0 then none else some (field p 12 4)
  crew := ((p.drop 16).take 3).filter (· != 0)
  time := timeAt p 19
  clockUnset := (field p 25 1).testBit 0
  text := text.take (field p 26 2)

def memberBytes : Option (Nat × Nat) → List Byte
  | some m => le 1 m.1 ++ le 4 m.2
  | none => le 5 0

def decodeMember (p : List Byte) : Option (Nat × Nat) :=
  if field p 0 1 = 0 then none else some (field p 0 1, field p 1 4)

/-- A 72-byte site entry of a SURVEY record. -/
def siteBytes (r : SiteRecord) : List Byte :=
  [bit r.settings.enabled] ++ padTo 16 r.settings.name ++ le 2 r.settings.udin ++
    le 2 r.settings.st ++ le 1 r.settings.h ++ le 2 r.settings.ti ++ le 1 r.settings.nc ++
    le 1 r.settings.pc ++ le 1 r.settings.wc ++ le 1 r.settings.pe ++ le 1 r.settings.we ++
    le 1 r.settings.hmax ++ le 1 r.settings.interval ++ [bit r.settings.rotCheck] ++
    r.members.flatMap memberBytes

def decodeSite (p : List Byte) : SiteRecord where
  settings :=
    { enabled := field p 0 1 != 0, name := ((p.drop 1).take 16).filter (· != 0)
      udin := field p 17 2, st := field p 19 2, h := field p 21 1, ti := field p 22 2
      nc := field p 24 1, pc := field p 25 1, wc := field p 26 1, pe := field p 27 1
      we := field p 28 1, hmax := field p 29 1, interval := field p 30 1
      rotCheck := field p 31 1 != 0 }
  members := (List.range 8).map fun j => decodeMember ((p.drop (32 + 5 * j)).take 5)

def surveyStateCode : SurveyState → Nat
  | .recording => 1
  | .held => 2
  | .ended => 3
  | .setup => 0

def holdCauseCode : Option HoldCause → Nat
  | some .linkRequest => 1
  | some .supply => 2
  | _ => 0

def timeOptBytes : Option ClockTime → List Byte
  | some t => le 1 1 ++ timeField t
  | none => le 7 0

def surveyBytes (r : SurveyRecord) : List Byte :=
  le 2 r.number ++ le 1 (surveyStateCode r.state) ++ le 1 (holdCauseCode r.cause) ++
    timeOptBytes r.first ++
    (match r.runStart with
      | some x => le 1 1 ++ le 6 x.frame ++ timeField x.time
      | none => le 13 0) ++
    le 1 (if r.mode = .stop then 1 else 0) ++ timeField r.time ++
    le 1 (if r.clockUnset then 1 else 0) ++ r.sites.flatMap siteBytes

def decodeSurvey (p : List Byte) : SurveyRecord where
  number := field p 0 2
  state := match field p 2 1 with
    | 1 => .recording
    | 2 => .held
    | _ => .ended
  cause := match field p 3 1 with
    | 1 => some .linkRequest
    | 2 => some .supply
    | _ => none
  first := if field p 4 1 = 0 then none else some (timeAt p 5)
  runStart := if field p 11 1 = 0 then none else some ⟨field p 12 6, timeAt p 18⟩
  mode := if field p 24 1 = 1 then .stop else .overwrite
  time := timeAt p 25
  clockUnset := (field p 31 1).testBit 0
  sites := (List.range 4).map fun i => decodeSite ((p.drop (32 + 72 * i)).take 72)

def lockBytes (r : LockRecord) : List Byte :=
  le 4 r.id ++ le 4 r.mark ++ timeField r.time ++ le 1 (if r.clockUnset then 1 else 0)

def decodeLock (p : List Byte) : LockRecord where
  id := field p 0 4
  mark := field p 4 4
  time := timeAt p 8
  clockUnset := (field p 14 1).testBit 0

/-- A record's content as one run of bytes, as RECORD_READ returns it (R186). -/
def contentRun : Content → List Byte
  | .event r => eventBytes r
  | .interval id r => intervalHead id r ++ r.orders.flatMap orderBytes
  | .note r => noteHead r ++ r.text
  | .survey r => surveyBytes r
  | .lockMark r => lockBytes r

/-- Offset of the content in the first block (R186). -/
def headerBytes : Nat := 37

/-- The content bytes of the first block, then those of each later block (R186). -/
def contentBlocks : Content → List Byte × List (List Byte)
  | .event r => (eventBytes r, [])
  | .interval id r => (intervalHead id r, pieces 128 4 (r.orders.flatMap orderBytes))
  | .note r => (noteHead r, pieces 200 3 r.text)
  | .survey r => ((surveyBytes r).take 219, [(surveyBytes r).drop 219])
  | .lockMark r => (lockBytes r, [])

/-- Size in blocks (R117). -/
def contentSize (c : Content) : Nat := 1 + (contentBlocks c).2.length

def contentKind : Content → RecordKind
  | .event _ => .event
  | .interval .. => .interval
  | .note _ => .note
  | .survey _ => .survey
  | .lockMark _ => .lockMark

/-! ### Headers (R118, R186) -/

/-- Status bytes: LIVE 0x7E, DEAD 0x00. -/
def liveStatus : Byte := 0x7E
def deadStatus : Byte := 0x00

/-- The 30 bytes under the header check. -/
def headerCore (kind : RecordKind) (size id seq : Nat) (limits : PerKind) : List Byte :=
  le 1 kind.code ++ le 1 size ++ le 4 id ++ le 4 seq ++ le 4 limits.event ++ le 4 limits.interval ++
    le 4 limits.note ++ le 4 limits.survey ++ le 4 limits.lockMark

/-- A header with status LIVE and a clear extension field. -/
def headerOf (kind : RecordKind) (size id seq : Nat) (limits : PerKind) : List Byte :=
  let core := headerCore kind size id seq limits
  core ++ le 2 (crc16 core) ++ [liveStatus] ++ List.replicate 4 erasedByte

/-- A record as the bytes of its blocks. -/
def recordBytes (header : List Byte) (c : Content) : List Byte :=
  padTo 256 (header ++ (contentBlocks c).1) ++ (contentBlocks c).2.flatMap (padTo 256)

/-- What a cut write leaves: the body and no header (R130). -/
def bodyBytes (c : Content) : List Byte := recordBytes (List.replicate headerBytes erasedByte) c

structure Header where
  kind : RecordKind
  size : Nat
  id : Nat
  seq : Nat
  limits : PerKind
  live : Bool
  /-- The extension field as read: a clear step is a 1 bit. -/
  ext : Nat
  deriving DecidableEq, Repr

/-- Steps set: bits that read 0. -/
def stepsSet (ext : Nat) : Nat :=
  ((List.range 32).filter fun k => !ext.testBit k).length

/-- The valid header in the first block's bytes, or none (R118). The status reads LIVE only when it
holds exactly the LIVE value. -/
def decodeHeader (p : List Byte) : Option Header :=
  if crc16 (p.take 30) = field p 30 2 then
    (recordKind? (field p 0 1)).map fun k =>
      { kind := k, size := field p 1 1, id := field p 2 4, seq := field p 6 4
        limits := ⟨field p 10 4, field p 14 4, field p 18 4, field p 22 4, field p 26 4⟩
        live := byteAt p 32 == liveStatus, ext := field p 33 4 }
  else none

/-- The effective limit of a header: its carried limit plus 1,024 a step set (R131). -/
def Header.effective (h : Header) : PerKind := h.limits.map (· + 1024 * stepsSet h.ext)

/-- Reads the content of a record of `kind` from the bytes of its blocks. -/
def decodeContent (kind : RecordKind) (bytes : List Byte) : Content :=
  let first := (bytes.take 256).drop headerBytes
  let later := pieces 256 4 (bytes.drop 256)
  match kind with
  | .event => .event (decodeEvent first)
  | .interval =>
    let x := decodeInterval first (later.flatMap (·.take 128))
    .interval x.1 x.2
  | .note => .note (decodeNote first (later.flatMap (·.take 200)))
  | .survey => .survey (decodeSurvey (first ++ later.flatten))
  | .lockMark => .lockMark (decodeLock first)

end Sys2Proof.Machine
end

