-- ==== Sys2Proof/Machine/StoreArray.lean ====
section
/-!
DEFINITION. The record store: directory, ids, write queue, array operations and reclaim (R116 to R128).
-/
namespace Sys2Proof.Machine

def setStore (f : Store → Store) (s : State) : State := { s with store := f s.store }

/-! ### Directory (R121, R122) -/

def Entry.isFor (e : Entry) (kind : RecordKind) (id : Nat) : Bool :=
  e.kind == kind && e.id == id && e.state != .dead

/-- The QUEUED or LIVE entry of a record; there is at most one (R121). -/
def findEntry (st : Store) (kind : RecordKind) (id : Nat) : Option Entry :=
  st.dir.find? (·.isFor kind id)

/-- A record that the reclaim has discarded, taken to be still under reclaim until its sector's erase has
completed (R126, R127; DESIGN CHOICE, unsafe: log 55). -/
def discarding (st : Store) (kind : RecordKind) (id : Nat) : Bool :=
  st.dir.any fun e => e.kind == kind && e.id == id && e.state == .dead && e.reclaim

/-- The answer to a request that names a record neither QUEUED nor LIVE: NOT_FOUND (R133, R134), but BUSY
(R127) for one that the reclaim has discarded and whose sector is not yet erased
(DESIGN CHOICE, unsafe: log 55). -/
def absentStatus (st : Store) (kind : RecordKind) (id : Nat) : Status :=
  if discarding st kind id then .busy else .notFound

def Store.modifyEntry (f : Entry → Entry) (kind : RecordKind) (id : Nat) (st : Store) : Store :=
  { st with dir := st.dir.map fun e => if e.isFor kind id then f e else e }

/-- Sequence order, with QUEUED entries after the rest (R121). -/
def Entry.rank (e : Entry) : Nat := e.seq.getD (2 ^ 64)

def Store.insertEntry (e : Entry) (st : Store) : Store :=
  { st with dir := insertBy Entry.rank e st.dir }

/-- Takes the QUEUED or LIVE entry of a record out of the directory. -/
def Store.removeEntry (kind : RecordKind) (id : Nat) (st : Store) : Store :=
  { st with dir := st.dir.filter fun e => !e.isFor kind id }

/-- The LIVE entry of a kind with the highest sequence number. -/
def latestLive (st : Store) (kind : RecordKind) : Option Entry :=
  (st.dir.filter fun e => e.kind == kind && e.state == .live).foldl
    (fun best e =>
      match best with
      | some b => if b.rank < e.rank then some e else best
      | none => some e) none

/-- A QUEUED or LIVE note attaches to the record. -/
def attachedTo (st : Store) (kind : RecordKind) (id : Nat) : Bool :=
  st.dir.any fun e => e.kind == .note && e.state != .dead && e.links.attach == some ⟨kind, id⟩

/-- R122: held. -/
def isHeld (st : Store) (e : Entry) : Bool :=
  e.kind == .note || attachedTo st e.kind e.id ||
    ((e.kind == .survey || e.kind == .lockMark) && e.state == .live &&
      (latestLive st e.kind).map (·.seq) == some e.seq)

/-- R122: retained. -/
def isRetained (st : Store) (e : Entry) : Bool := isHeld st e || 0 < e.pins

/-- A record's bytes in the array. -/
def entryBytes (st : Store) (e : Entry) : List Byte :=
  match e.loc with
  | some loc => Memory.readBytes st.array (blockAddress loc) (e.size * 256)
  | none => []

/-- The content an entry holds: that of its queued record or replacement (R133, R143), and otherwise
that in the array. -/
def contentOf (st : Store) (e : Entry) : Content :=
  match st.queue.find? fun q => q.kind == e.kind && q.id == e.id with
  | some q => q.content
  | none => decodeContent e.kind (entryBytes st e)

/-- The write of this record, or of its replacement, has begun. -/
def writeInFlight (st : Store) (kind : RecordKind) (id : Nat) : Bool :=
  match st.op, st.queue with
  | some (.write ..), q :: _ => q.kind == kind && q.id == id
  | _, _ => false

/-! ### Sectors (R116, R117) -/

def erasedSectors (st : Store) : List Nat := placesWhere Option.isNone st.opening

/-- Closed sectors, lowest opening sequence first, and of equal ones (0, padding alone) the
lower-numbered sector. (DESIGN CHOICE, unsafe: log 36.) -/
def closedSectors (st : Store) : List Nat :=
  sortBy (fun x => (st.opening.getD x none).getD 0)
    ((placesWhere Option.isSome st.opening).filter fun x => st.head != some x)

def inSector (e : Entry) (sector : Nat) : Bool :=
  match e.loc with
  | some loc => loc.1 == sector
  | none => false

/-- LIVE records of a sector, in order of sequence. -/
def liveIn (st : Store) (sector : Nat) : List Entry :=
  st.dir.filter fun e => e.state == .live && inSector e sector

/-- A store that is neither MOUNTING nor WIPING. -/
def storeUp (st : Store) : Bool := st.state != .mounting && st.state != .wiping

/-- R137: STORE_STATE at a change of state, and at a change of reclaim sector. -/
def enterStore (new : StoreState) (s : State) : State :=
  let old := s.store.state
  let s := setStore (fun st => { st with state := new }) s
  postWhen (new != old || new == .reclaiming)
    (.storeState new old (erasedSectors s.store).length
      (if new = .reclaiming then s.store.reclaim.map (·.sector) else none) s.store.queue.length) s

/-! ### Ids (R119, R120) -/

/-- Fewer than 256 ids of the kind remain at or below the limit. -/
def idsShort (st : Store) (kind : RecordKind) : Bool :=
  st.limits.get kind + 1 - st.nextIds.get kind < 256

def extensionInFlight (st : Store) : Bool :=
  match st.op with
  | some (.extend _) => true
  | _ => false

/-- R119: draws an id; R120: which may make an extension step owed. -/
def drawId (kind : RecordKind) (st : Store) : Nat × Store :=
  let id := st.nextIds.get kind
  let st := { st with nextIds := st.nextIds.modify (· + 1) kind }
  (id,
    if !extensionInFlight st && idsShort st kind then { st with extOwed := true } else st)

/-- R119: the limits a header carries when it is programmed. -/
def carriedLimits (st : Store) : PerKind :=
  st.limits.zip (fun limit next => Nat.max limit (next + 1023)) st.nextIds

/-! ### Write queue (R123) -/

def queueRoom (st : Store) : Bool := st.queue.length < Config.queuePlaces

/-- A record enters the queue and takes a QUEUED entry. -/
def Store.enqueue (id : Nat) (c : Content) (links : Links) (st : Store) : Store :=
  { st with
    queue := st.queue ++ [⟨contentKind c, id, c, false⟩]
    dir := st.dir ++ [{ kind := contentKind c, id := id, seq := none, loc := none
                        size := contentSize c, state := .queued, links := links }] }

/-- Takes a queued record or replacement out of the queue. -/
def Store.dequeue (kind : RecordKind) (id : Nat) (st : Store) : Store :=
  { st with queue := st.queue.filter fun q => !(q.kind == kind && q.id == id) }

/-- R79, R123: an EVENT record is queued, or dropped and counted; whether it was queued. -/
def offerEvent (r : EventRecord) (s : State) : Bool × State :=
  let ok := storeUp s.store && s.store.state != .full && queueRoom s.store
  (ok,
    if ok then
      let r := { r with flags := { r.flags with clockUnset := !s.clock.valid } }
      setStore (Store.enqueue r.id (.event r) {}) s
    else setStore (fun st => { st with eventDrops := satInc max32 st.eventDrops }) s)

/-- A SURVEY record leaves its place for the queue, with its id and CLOCK_UNSET. R56 has it take its
sequence number here too, and R118 and R121 when its write begins, which is followed.
(DEDUCED, unsafe: log 46.) -/
def queueSurvey (r : SurveyRecord) (s : State) : State :=
  let (id, st) := drawId .survey s.store
  { s with
    store := st.enqueue id (.survey { r with clockUnset := !s.clock.valid }) {}
    survey := { s.survey with place := none } }

/-- R56, R123: the pending SURVEY record is queued as soon as the queue has room. -/
def offerSurvey (s : State) : State :=
  match s.survey.place with
  | none => s
  | some r =>
    if storeUp s.store && queueRoom s.store then queueSurvey r s
    else s

/-- R111: an INTERVAL record is queued: it takes its id and CLOCK_UNSET. -/
def queueInterval (r : IntervalRecord) (s : State) : State :=
  let (id, st) := drawId .interval s.store
  let r := { r with flags := { r.flags with clockUnset := !s.clock.valid } }
  { s with store := st.enqueue id (.interval id r) {} }

def dropInterval (s : State) : State :=
  setStore (fun st => { st with intervalDrops := satInc max32 st.intervalDrops }) s

/-- R111: the position whose waiting record is next: by close moment, then site, then role. -/
def nextWaiting (s : State) : Option (Nat × Nat × IntervalRecord) :=
  (allPositions.foldl
    (fun (best : Option (Nat × Nat × Nat × IntervalRecord)) p =>
      match (harmMember s p.1 p.2).place with
      | none => best
      | some (r, moment) =>
        match best with
        | some b => if moment < b.1 then some (moment, p.1, p.2, r) else best
        | none => some (moment, p.1, p.2, r)) none).map (·.2)

/-- R111: hands one waiting INTERVAL record to a free place; a FULL store drops it. -/
def handInterval (s : State) : State :=
  match nextWaiting s with
  | none => s
  | some (site, role, r) =>
    if !queueRoom s.store then s
    else
      let s := modifyHarmMember (fun m => { m with place := none }) site role s
      if s.store.state = .full then dropInterval s else queueInterval r s

/-- R111: hands up to `n` waiting INTERVAL records, one for each of `n` free places. -/
def handIntervals : Nat → State → State
  | 0, s => s
  | n + 1, s => handIntervals n (handInterval s)

/-- The free places of the write queue. -/
def freePlaces (st : Store) : Nat := Config.queuePlaces - st.queue.length

/-- R123: a freed place is announced, and one waiting INTERVAL record is handed for each free place,
which stays free where a FULL store drops the record (R111). The pending SURVEY record takes its place
after a number of them that is not fixed (free value, safe: log 8). All of this is part of the command that
frees the place, so an EVENT record that arrives as the place frees never takes it before a record that
waits (DESIGN CHOICE, unsafe: log 42). -/
def announcePlace (s : State) : State :=
  let free := freePlaces s.store
  if s.survey.place.isSome && (nextWaiting s).isSome then
    let (n, s) := drawFree s
    let before := Nat.min (Config.surveyAfter n) free
    handIntervals (free - before - 1) (offerSurvey (handIntervals before s))
  else handIntervals free (offerSurvey s)

/-! ### Reclaim (R125, R126) -/

/-- The sizes R of a sector's LIVE retained records (R125). -/
def retainedSize (st : Store) (sector : Nat) : Nat :=
  (((liveIn st sector).filter (isRetained st)).map (·.size)).sum

/-- R125. -/
def eligible (st : Store) (sector : Nat) : Bool :=
  retainedSize st sector ≤ 48 && st.extSector != some sector &&
    (st.mode == .overwrite || (liveIn st sector).all (isRetained st))

/-- R125: the oldest eligible of the 8 closed sectors with the lowest opening sequences. -/
def reclaimChoice (st : Store) : Option Nat := ((closedSectors st).take 8).find? (eligible st)

/-- R126: the sector's LIVE records come under reclaim and the retained ones are to be copied. -/
def Store.chooseSector (sector : Nat) (st : Store) : Store :=
  let copies := ((liveIn st sector).filter (isRetained st)).map fun e => (e.kind, e.id)
  { st with
    reclaim := some ⟨sector, copies⟩
    dir := st.dir.map fun e =>
      if e.state == .live && inSector e sector then { e with reclaim := true } else e }

def startReclaim (sector : Nat) (s : State) : State :=
  enterStore .reclaiming (setStore (Store.chooseSector sector) s)

/-- R125: chooses a reclaim sector, or enters FULL. -/
def chooseReclaim (s : State) : State :=
  match reclaimChoice s.store with
  | some sector => startReclaim sector s
  | none => enterStore .full s

/-- R128: the re-check while FULL. -/
def recheckFull (s : State) : State :=
  if s.store.state = .full then
    match reclaimChoice s.store with
    | some sector => startReclaim sector s
    | none => s
  else s

/-- R126, step 2: the remaining LIVE records of the sector are discarded. They stay under reclaim until
the erase has completed (R127; DESIGN CHOICE, unsafe: log 55). -/
def Store.discard (sector : Nat) (st : Store) : Store :=
  let gone := liveIn st sector
  { st with
    discards := gone.foldl (fun d e => d.modify (satInc max32) e.kind) st.discards
    dir := st.dir.map fun e =>
      if e.state == .live && inSector e sector then { e with state := .dead } else e }

/-! ### The next array operation (R124) -/

/-- R117: where a record goes: the head, or block 0 of the lowest-numbered erased sector. A write of
the queue leaves the last erased sector to relocation. Answers the location and whether it opens a
head. -/
def placeFor (st : Store) (size : Nat) (spare : Nat) : Option ((Nat × Nat) × Bool) :=
  let open? :=
    if spare < (erasedSectors st).length then
      (erasedSectors st).head?.map fun x => ((x, 0), true)
    else none
  match st.head with
  | some h => if st.headUsed + size ≤ 64 then some ((h, st.headUsed), false) else open?
  | none => open?

/-- Takes a sequence number and the place; a sector opened becomes the head with its opening sequence. -/
def Store.openPlace (loc : Nat × Nat) (opened : Bool) (st : Store) : Store :=
  let seq := st.nextSeq
  let st := { st with nextSeq := seq + 1 }
  if opened then
    { st with
      head := some loc.1, headUsed := 0, opening := updateAt (fun _ => some seq) loc.1 st.opening }
  else st

/-- The extension field of an entry's header (R186). -/
def extensionField (st : Store) (loc : Nat × Nat) : Nat :=
  field (Memory.readBytes st.array (blockAddress loc + 33) 4) 0 4

/-- R120: the location of the header of highest sequence whose field has a step clear. -/
def extensionTarget (st : Store) : Option (Nat × Nat) :=
  (st.dir.foldl
    (fun (best : Option (Nat × Nat × Nat)) e =>
      match e.seq, e.loc with
      | some seq, some loc =>
        if extensionField st loc = 0 then best
        else
          match best with
          | some b => if b.1 < seq then some (seq, loc) else best
          | none => some (seq, loc)
      | _, _ => best) none).map (·.2)

/-- R124, step 4: the write of the oldest queued record begins. -/
def beginWrite (st : Store) : Store :=
  match st.queue with
  | [] => st
  | q :: _ =>
    let size := contentSize q.content
    match placeFor st size 1 with
    | some (loc, opened) =>
      { st.openPlace loc opened with op := some (.write st.nextSeq loc size opened) }
    | none => st

/-- R126: the next relocation copy begins, or the sector's erase. The discard of step 2 is made as the erase
begins, after an extension step or a mark that the array takes first (R124; DESIGN CHOICE, unsafe: log 53). -/
def nextReclaim (st : Store) : Store :=
  match st.reclaim with
  | none => st
  | some r =>
    match r.copies with
    | (kind, id) :: rest =>
      let st' := { st with reclaim := some { r with copies := rest } }
      match findEntry st kind id with
      | some e =>
        match placeFor st e.size 0 with
        | some (loc, opened) =>
          { st'.openPlace loc opened with op := some (.copy kind id st.nextSeq loc e.size) }
        | none => st
      | none => st'
    | [] => { st.discard r.sector with op := some (.erase r.sector) }

/-- R124: when the array is free, the next operation in the order of the rule. -/
def Store.next (st : Store) : Store :=
  if st.op.isSome || !storeUp st then st
  else
    match (if st.extOwed then extensionTarget st else none), st.marks with
    | some loc, _ => { st with op := some (.extend loc), extOwed := false }
    | none, m :: rest => { st with op := some (.mark m), marks := rest }
    | none, [] =>
      match st.state with
      | .reclaiming => nextReclaim st
      | .ready => beginWrite st
      | _ => st

def storeNext (s : State) : State := setStore Store.next s

/-! ### Ends of array operations -/

/-- Programs a record: limits, blocks, head and the extension sector (R117, R119, R120). -/
def Store.program (kind : RecordKind) (id seq : Nat) (loc : Nat × Nat) (c : Content) (st : Store) :
    Store :=
  let limits := carriedLimits st
  let size := contentSize c
  { st with
    limits := limits
    array := Memory.write st.array (blockAddress loc)
      (recordBytes (headerOf kind size id seq limits) c)
    headUsed := if st.head = some loc.1 then loc.2 + size else st.headUsed
    extSector := none }

/-- The entry moves to a new location; a DEAD entry stands for the old copy and a mark is owed
(R126, R143). -/
def Store.moveEntry (e : Entry) (seq : Nat) (loc : Nat × Nat) (size : Nat) (cause : MarkCause)
    (st : Store) : Store :=
  let st := st.removeEntry e.kind e.id
  let st := st.insertEntry { e with seq := some seq, loc := some loc, size := size, reclaim := false }
  match e.loc with
  | some old =>
    { (st.insertEntry { e with state := .dead, pins := 0, reclaim := false, links := {} }) with
      marks := st.marks ++ [⟨old, cause⟩] }
  | none => st

/-- R136, step 2: queue, directory, marks, extension step and the places of other blocks are emptied. -/
def wipeEmpty (s : State) : State :=
  { s with
    store :=
      { s.store with
        queue := [], dir := [], marks := [], extOwed := false, reclaim := none, op := none }
    survey := { s.survey with place := none }
    harm := { s.harm with sites := s.harm.sites.map fun h =>
      { h with members := h.members.map fun m => { m with place := none } } } }

/-- After an array operation: a wipe under way empties the store, and otherwise the array takes its
next operation. -/
def afterOp (s : State) : State :=
  if s.store.state = .wiping then wipeEmpty s else storeNext s

/-- R145: the LOCK_MARK record of a NOTE_LOCK has been written. -/
def lockWritten (r : LockRecord) (s : State) : State :=
  let old := s.store.lockMark
  let count := (s.store.dir.filter fun e =>
    e.kind == .note && e.state != .dead && old < e.id && e.id ≤ r.mark).length
  let clamped := match s.link.current with
    | some c => c.clamped
    | none => false
  answer (if clamped then .okClamped else .ok) (if clamped then .lockMark r.mark else .empty)
    (post (.noteLocked r.mark old r.id count)
      (setStore (fun st => { st with lockMark := r.mark }) s))

/-- The directory after the header of a queued record or replacement has been programmed. -/
def Store.recordWritten (q : QueueItem) (seq : Nat) (loc : Nat × Nat) (size : Nat) (st : Store) :
    Store :=
  match findEntry st q.kind q.id with
  | none => st
  | some e =>
    if q.replacement then st.moveEntry e seq loc size .replacement
    else
      (st.removeEntry q.kind q.id).insertEntry
        { e with seq := some seq, loc := some loc, size := size, state := .live }

/-- The store when the write of the oldest queued record ends. -/
def Store.writeEnds (q : QueueItem) (rest : List QueueItem) (seq : Nat) (loc : Nat × Nat) (size : Nat)
    (st : Store) : Store :=
  { ((st.program q.kind q.id seq loc q.content).recordWritten q seq loc size) with
    queue := rest, op := none }

/-- R145: a LOCK_MARK record that has been written sets the mark. -/
def markWritten (c : Content) (s : State) : State :=
  match c with
  | .lockMark r => lockWritten r s
  | _ => s

/-- R125: the trigger, after a write that opened a new head. -/
def headTrigger (opened : Bool) (s : State) : State :=
  if opened && (erasedSectors s.store).length < 2 && s.store.state == .ready then chooseReclaim s
  else s

/-- R123, R125: the freed place is announced, the trigger checked and the next operation begun. -/
def afterWrite (opened : Bool) (s : State) : State :=
  if s.store.state = .wiping then wipeEmpty s
  else storeNext (headTrigger opened (announcePlace s))

/-- R124: a record's header is programmed. NOTE_LOCKED and its reply come before the STORE_STATE of the
trigger. (DESIGN CHOICE, unsafe: log 33.) -/
def recordWriteDone (s : State) : State :=
  match s.store.op, s.store.queue with
  | some (.write seq loc size opened), q :: rest =>
    afterWrite opened (markWritten q.content (setStore (Store.writeEnds q rest seq loc size) s))
  | _, _ => s

/-- The store when the relocation copy of an entry ends. -/
def Store.copyEnds (e : Entry) (seq : Nat) (loc : Nat × Nat) (size : Nat) (c : Content) (st : Store) :
    Store :=
  { ((st.program e.kind e.id seq loc c).moveEntry e seq loc size .relocation) with op := none }

/-- R126, step 1: a relocation copy's header is programmed. -/
def relocationCopyDone (s : State) : State :=
  match s.store.op with
  | some (.copy kind id seq loc size) =>
    match findEntry s.store kind id with
    | some e =>
      let c := contentOf s.store e
      afterOp (setStore (Store.copyEnds e seq loc size c) s)
    | none => afterOp (setStore (fun st => { st with op := none }) s)
  | _ => s

/-- The status of the header at a place is programmed DEAD. -/
def Store.markDead (loc : Nat × Nat) (st : Store) : Store :=
  { st with array := Memory.write st.array (blockAddress loc + 32) [deadStatus], op := none }

/-- R124, R134, R144: a header's status is programmed DEAD. A waiting delete is answered before the FULL
re-check. (DESIGN CHOICE, unsafe: log 33.) -/
def deadMarkDone (s : State) : State :=
  match s.store.op with
  | some (.mark m) =>
    let s := setStore (Store.markDead m.loc) s
    match m.cause with
    | .delete => afterOp (recheckFull (answer .ok .empty s))
    | _ => afterOp s
  | _ => s

/-- The sector of the array and of the directory after its erase. -/
def Store.eraseSector (sector : Nat) (st : Store) : Store :=
  { st with
    array := Memory.erase st.array (sector * 16384) 16384
    dir := st.dir.filter fun e => !inSector e sector
    opening := updateAt (fun _ => none) sector st.opening
    op := none }

/-- R126, step 3: the erase ends the reclaim, which is counted. -/
def Store.reclaimEnds (sector : Nat) (st : Store) : Store :=
  { st.eraseSector sector with reclaim := none, reclaims := satInc max32 st.reclaims }

/-- R126, steps 3 and 4. -/
def sectorEraseDone (s : State) : State :=
  match s.store.op with
  | some (.erase sector) =>
    let s := setStore (Store.reclaimEnds sector) s
    if s.store.state = .wiping then wipeEmpty s
    else
      storeNext
        (if (erasedSectors s.store).length < 2 then chooseReclaim s else enterStore .ready s)
  | _ => s

/-- The lowest step that is clear becomes set (R186: its bit is programmed to 0).
(DEDUCED, unsafe: log 18.) -/
def setStep (ext : Nat) : Nat :=
  match (List.range 32).find? ext.testBit with
  | some k => ext - 2 ^ k
  | none => ext

def Store.programStep (loc : Nat × Nat) (st : Store) : Store :=
  { st with
    array := Memory.write st.array (blockAddress loc + 33) (le 4 (setStep (extensionField st loc)))
    limits := st.limits.map (· + 1024)
    extSector := some loc.1 }

/-- The store when an extension step ends. -/
def Store.stepEnds (loc : Nat × Nat) (st : Store) : Store := { st.programStep loc with op := none }

/-- R120: an extension step is programmed. -/
def extensionStepDone (s : State) : State :=
  match s.store.op with
  | some (.extend loc) => afterOp (setStore (Store.stepEnds loc) s)
  | _ => s

/-! ### Pins (R122) -/

inductive PinAnswer where
  | granted | busy | notFound
  deriving DecidableEq, Repr

/-- R122: the answer to a pin. A record that the reclaim has discarded answers BUSY until its sector is
erased (R127; DESIGN CHOICE, unsafe: log 55). -/
def pinAnswer (st : Store) (kind : RecordKind) (id : Nat) : PinAnswer :=
  match findEntry st kind id with
  | none => if discarding st kind id then .busy else .notFound
  | some e =>
    if e.reclaim then .busy
    else if kind = .survey ∨ kind = .lockMark then .notFound
    else .granted

def pinRecord (p : RecordKind × Nat) (s : State) : State :=
  setStore (Store.modifyEntry (fun e => { e with pins := e.pins + 1 }) p.1 p.2) s

/-- An unpin, followed by the FULL re-check (R122, R128). -/
def unpinRecord (s : State) (p : RecordKind × Nat) : State :=
  storeNext
    (recheckFull
      (setStore (Store.modifyEntry (fun e => { e with pins := e.pins - 1 }) p.1 p.2) s))

end Sys2Proof.Machine
end

