-- ==== Sys2Proof/Machine/PodBus.lean ====
section
/-!
DEFINITION. The words of the pod bus, the join and the kit roster (R1 to R21), but for what a leave or
a join does in other blocks.
-/
namespace Sys2Proof.Machine

/-! ### Words (R4, R185) -/

def BusOp.code : BusOp → Nat
  | .idle => 0
  | .probe => 1
  | .readId => 2
  | .sampleOn => 3
  | .sampleOff => 4

/-- The 24-bit control word of a frame (R185): target 23-20, operation 19-17, frame count modulo 4. -/
def controlBits (c : ControlWord) (frame : Nat) : BusWord :=
  BitVec.ofNat 24 (c.target % 16 * 2 ^ 20 + c.op.code * 2 ^ 17 + frame % 4 * 2 ^ 15)

def upField (w : BusWord) : BitVec 16 := w.extractLsb' 8 16
def upOvr (w : BusWord) : Bool := w.getLsbD 7
def upPres (w : BusWord) : Bool := w.getLsbD 6
def upEcho (w : BusWord) : Nat := (w.extractLsb' 4 2).toNat

/-- The count of ones in the word is odd (R4). -/
def oddParity (w : BusWord) : Bool := (List.range 24).foldl (fun p i => p != w.getLsbD i) false

/-- R4: presence, parity and frame echo are correct. -/
def goodWord (frame : Nat) (w : BusWord) : Bool :=
  upPres w && oddParity w && upEcho w == frame % 4

/-! ### The pod's side of the bus (R3) -/

inductive PodMode where
  | silent | sampling
  /-- Identity words are being sent; the mode it returns to after the twelfth. -/
  | identifying (backToSampling : Bool)
  deriving DecidableEq, Repr

/-- R3: the mode of a pod that reads an operation addressed to it. The pods are outside the part; no
command uses this. (DEDUCED, safe: log 11.) -/
def podRespond : BusOp → PodMode → PodMode
  | .readId, .silent => .identifying false
  | .readId, .sampling => .identifying true
  | .sampleOn, _ => .sampling
  | .sampleOff, _ => .silent
  | _, m => m

/-! ### Identity records (R8, R10, R185) -/

def signed16 (n : Nat) : Int := (BitVec.ofNat 16 n).toInt

/-- The CRC over bytes 0 to 21 equals bytes 22 and 23 (R8). -/
def identityCrcOk (b : List Byte) : Bool := crc16 (b.take 22) == field b 22 2

/-- The serial of the record in the buffer. -/
def identitySerial (b : List Byte) : Nat := field b 0 4

/-- R10: the record when every checked field is in range. -/
def identityOf (b : List Byte) : Option Identity :=
  let kind := field b 4 1
  let scale := field b 6 2
  let gain := field b 8 4
  let offset := signed16 (field b 12 2)
  let scaleOk :=
    (kind == 0 && 100 ≤ scale && scale ≤ 2000) || (kind == 1 && 1 ≤ scale && scale ≤ 6000)
  if scaleOk && 32768 ≤ gain && gain ≤ 98304 && -2048 ≤ offset && offset ≤ 2047 then
    some
      { serial := identitySerial b, kind := if kind = 0 then .voltage else .current
        model := field b 5 1, fullScale := scale, gain := gain, offset := offset
        calDate := field b 14 2, calInterval := field b 16 2, maker := field b 18 2 }
  else none

/-! ### CAL_DUE (R19) -/

/-- Today's day number. -/
def today (c : Clock) : Nat := c.time.sec / 86400

def calDueOf (c : Clock) (identity : Option Identity) : Bool :=
  match identity with
  | some i => c.valid && decide (i.calDate + i.calInterval < today c)
  | none => false

/-- Evaluates CAL_DUE for every entry. -/
def evaluateCalDue (s : State) : State :=
  { s with roster := s.roster.map fun e => { e with calDue := calDueOf s.clock e.identity } }

/-! ### The control slot (R6) -/

/-- The ABSENT slots from the one after `last`, wrapping from 15 to 1. -/
def probeOrder (last : Nat) : List Nat := (List.range 15).map fun i => (last + i) % 15 + 1

def nextProbe (s : State) : Option Nat :=
  (probeOrder s.bus.lastProbed).find? fun slot => (entryOf s slot).state == .absent

/-- R6: the word of a frame with no join in progress. -/
def pollWord (s : State) : State :=
  match nextProbe s with
  | some slot => { s with bus := { s.bus with ctrl := ⟨slot, .probe⟩, lastProbed := slot } }
  | none => { s with bus := { s.bus with ctrl := ⟨0, .idle⟩ } }

def setJoin (j : Option Join) (s : State) : State := { s with bus := { s.bus with join := j } }

def setCtrl (c : ControlWord) (s : State) : State := { s with bus := { s.bus with ctrl := c } }

/-- R6, R8, R10, R11: the control word of the frame that begins. -/
def selectControl (s : State) : State :=
  match s.bus.join with
  | none => pollWord s
  | some j =>
    match j.stage with
    | .readNext =>
      setCtrl ⟨j.slot, .readId⟩
        (setJoin (some { j with readCount := j.readCount + 1, stage := .readSent }) s)
    | .onNext identity =>
      setCtrl ⟨j.slot, .sampleOn⟩ (setJoin (some { j with stage := .onSent identity }) s)
    | .offNext cause serial =>
      setCtrl ⟨j.slot, .sampleOff⟩ (setJoin (some { j with stage := .offSent cause serial }) s)
    | _ => setCtrl ⟨0, .idle⟩ s

/-! ### Words of a frame -/

/-- The up word of slot 1 to 15; a slot that no pod drives reads as zeros (R1). -/
def upWord (words : List BusWord) (slot : Nat) : BusWord := words.getD (slot - 1) 0

/-- R7: the answer to the PROBE of the frame before. -/
def probeAnswer (frame : Nat) (words : List BusWord) (s : State) : State :=
  let slot := s.bus.prevCtrl.target
  if s.bus.prevCtrl.op == .probe && (entryOf s slot).state == .absent && isSlot slot &&
      s.bus.join.isNone && goodWord frame (upWord words slot) then
    setJoin (some ⟨slot, 0, .readNext⟩) (modifyEntry (fun e => { e with state := .joining }) slot s)
  else s

/-- R8: a failed read begins again, and the fourth ends the join with ID_CHECK. -/
def readFailed (j : Join) (s : State) : State :=
  if j.readCount < 4 then setJoin (some { j with stage := .readNext }) s
  else setJoin (some { j with stage := .offNext .idCheck none }) s

/-- R8, R10: the twelfth word has been stored. -/
def readComplete (j : Join) (buffer : List Byte) (s : State) : State :=
  if !identityCrcOk buffer then readFailed j s
  else
    match identityOf buffer with
    | some identity => setJoin (some { j with stage := .onNext identity }) s
    | none =>
      setJoin (some { j with stage := .offNext .idRange (some (identitySerial buffer)) }) s

/-- R8, R9: an identity word of the joining slot. -/
def identityWord (frame : Nat) (j : Join) (buffer : List Byte) (w : BusWord) (s : State) : State :=
  if goodWord frame w then
    let buffer := buffer ++ [(upField w).extractLsb' 0 8, (upField w).extractLsb' 8 8]
    if buffer.length < 24 then setJoin (some { j with stage := .words buffer }) s
    else readComplete j buffer s
  else if upPres w then readFailed j s
  else setJoin none (modifyEntry (fun e => { e with state := .absent }) j.slot s)

/-- R10: the join ends in FAULT with the frame that carried SAMPLE_OFF. -/
def joinFault (j : Join) (cause : FaultCause) (serial : Option Nat) (s : State) : State :=
  post (.podFault j.slot cause serial)
    (setJoin none (modifyEntry (fun e => { e with state := .fault, cause := some cause }) j.slot s))

/-- The end of a frame for the join in progress. -/
def joinFrame (frame : Nat) (words : List BusWord) (s : State) : State :=
  match s.bus.join with
  | none => s
  | some j =>
    match j.stage with
    | .readSent => setJoin (some { j with stage := .words [] }) s
    | .words buffer => identityWord frame j buffer (upWord words j.slot) s
    | .offSent cause serial => joinFault j cause serial s
    | _ => s

/-! ### Samples (R14 to R16, R18, R22 to R24) -/

/-- R22: the corrected value of a raw code. -/
def correct (gain : Nat) (offset c : Int) : Int :=
  clampInt (roundDiv ((c - offset) * gain) 65536) (-32768) 32767

def correctFor (e : RosterEntry) (c : Int) : Int :=
  match e.identity with
  | some i => correct i.gain i.offset c
  | none => 0

/-- R18, R23: the overrange test. -/
def isOverrange (c : Int) (ovr : Bool) : Bool := c == -32768 || c == 32767 || ovr

/-- R22 to R24: the corrected sample of a slot's up word. -/
def correctedSample (frame : Nat) (e : RosterEntry) (r : Receive) (w : BusWord) : Sample :=
  if goodWord frame w then
    let c := (upField w).toInt
    ⟨correctFor e c, isOverrange c (upOvr w), false⟩
  else
    match r.lastGood with
    | some c => ⟨correctFor e c, false, true⟩
    | none => ⟨0, false, true⟩

/-- R14, R16: the receive state after an up word. -/
def receiveWord (frame : Nat) (w : BusWord) (r : Receive) : Receive :=
  if goodWord frame w then
    let c := (upField w).toInt
    { lastGood := some c, dropouts := 0
      run := if r.lastGood = some c then satInc 1024 r.run else 1 }
  else { r with dropouts := satInc 8 r.dropouts }

/-- R14, R18: the entry's sticky flags and counts after an up word. -/
def countWord (frame : Nat) (w : BusWord) (e : RosterEntry) : RosterEntry :=
  if goodWord frame w then
    if isOverrange (upField w).toInt (upOvr w) then
      { e with overrangeSeen := true, overrangeCount := satInc max32 e.overrangeCount }
    else e
  else { e with dropoutSeen := true, dropoutCount := satInc max32 e.dropoutCount }

/-- R14, R22: the corrected samples of the slots in the mask. -/
def frameSamples (frame : Nat) (words : List BusWord) (s : State) : List (Nat × Sample) :=
  s.bus.mask.map fun slot =>
    (slot, correctedSample frame (entryOf s slot) (receiveOf s slot) (upWord words slot))

def takeWord (frame : Nat) (words : List BusWord) (s : State) (slot : Nat) : State :=
  modifyReceive (receiveWord frame (upWord words slot)) slot
    (modifyEntry (countWord frame (upWord words slot)) slot s)

/-- R14: takes the up word of each slot in the mask. -/
def takeWords (frame : Nat) (words : List BusWord) (s : State) : State :=
  s.bus.mask.foldl (takeWord frame words) s

def sampleOf (samples : List (Nat × Sample)) (slot : Nat) : Option Sample :=
  (samples.find? fun x => x.1 == slot).map (·.2)

/-! ### Requests (R13, R20, R21) -/

/-- R20. -/
def podRetry (slot : Byte) (s : State) : State :=
  let n := slot.toNat
  if !isSlot n then refuse .badValue s
  else
    match (entryOf s n).state with
    | .joining => refuse .busy s
    | .fault =>
      answer .ok .empty (modifyEntry (fun e => { e with state := .absent, cause := none }) n s)
    | _ => refuse .wrongState s

/-- R20. -/
def clearSticky (e : RosterEntry) : RosterEntry :=
  { e with overrangeSeen := false, dropoutSeen := false, overrangeCount := 0, dropoutCount := 0 }

def podClear (slot : Byte) (s : State) : State :=
  let n := slot.toNat
  if !isSlot n then refuse .badValue s
  else if (entryOf s n).state = .joining then refuse .busy s
  else answer .ok .empty (modifyEntry clearSticky n s)

/-- R21. -/
def podStatus (slot : Byte) (s : State) : State :=
  let n := slot.toNat
  if !isSlot n then refuse .badValue s
  else if (entryOf s n).state = .joining then refuse .busy s
  else answer .ok (.entry (entryOf s n)) s

def rosterLine (e : RosterEntry) : RosterLine :=
  ⟨e.state, e.cause, e.state == .ready, e.calDue, e.identity.map (·.serial)⟩

/-- R21. -/
def podRoster (s : State) : State :=
  answer .ok (.roster (s.roster.map rosterLine) s.bus.mask s.bus.frame) s

end Sys2Proof.Machine
end

