-- ==== Sys2Proof/Machine/Tracker.lean ====
section
/-!
DEFINITION. The line tracker: the sample NCO, the reference, crossing detectors, tracker states and
phase rotation (R25 to R39).
-/
namespace Sys2Proof.Machine

/-! ### Frequency and NCO (R25) -/

/-- Changes f and recomputes K in the same step. Between an ACQ reset and the frame 0 it begins there is
no timebase cycle, so a change of K there is none inside a frame (R2, R37). -/
def Tracker.setFreq (f : Nat) (t : Tracker) : Tracker :=
  { t with
    f := f, k := incrementOf f
    kMoved := t.kMoved || (t.boundaryK.isNone && incrementOf f != t.k) }

/-- The phase right after the next carry when `k` is added all the way from phase `acc`. -/
def ncoAfterCarry (acc k : Nat) : Nat :=
  if k = 0 then acc else acc + k * ceilDiv (2 ^ 32 - acc) k - 2 ^ 32

/-- The K added up to the next carry. An ACQ reset changes K at the boundary which that carry is, so
the carry is still that of the K before it (R2, R25, R37). -/
def carryK (t : Tracker) : Nat := t.boundaryK.getD t.k

/-- A carry (R1, R25). Where K has changed since the last strobe the spec gives no cycle for the
change, and the residual below K is a free value. (DEDUCED, safe: log 6.) -/
def ncoCarry (s : State) : State :=
  let t := s.tracker
  if t.kMoved then
    let (n, s) := drawFree s
    { s with tracker :=
        { t with nco := Config.ncoResidual n % carryK t, kMoved := false, boundaryK := none } }
  else { s with tracker := { t with nco := ncoAfterCarry t.nco (carryK t), boundaryK := none } }

/-- f clamped to the range of the estimate. -/
def clampFreq (f : Int) : Nat := (clampInt f 42000 69999).toNat

/-- R31, R32: one smoothing step toward floor(f x 32,768 / P). -/
def smoothed (f period divisor : Nat) : Nat :=
  clampFreq (f + (((f * 32768 / period : Nat) : Int) - f).tdiv divisor)

/-! ### Crossing detector (R29, R30) -/

/-- R30, in units of 1/256 sample. -/
def crossingTime (frame : Nat) (before after : Int) : Nat :=
  frame * 256 + (256 * (-before).toNat) / (after - before).toNat

/-- The test of a candidate; answers the detector and the confirmed time. -/
def Detector.testCandidate (d : Detector) (x : Int) : Detector × Option Nat :=
  if 328 ≤ x then ({ d with state := .disarmed }, some d.candidate)
  else if x ≤ -328 then ({ d with state := .armed }, none)
  else ({ d with state := .candidate }, none)

/-- R29: one sample through the detector. -/
def Detector.take (d : Detector) (frame : Nat) (x : Int) : Detector × Option Nat :=
  let (next, confirmed) : Detector × Option Nat :=
    match d.state with
    | .disarmed => (if x ≤ -328 then { d with state := .armed } else d, none)
    | .armed =>
      if x < 0 then (d, none)
      else
        let time := match d.prev with
          | some p => crossingTime p.1 p.2 x
          | none => frame * 256
        Detector.testCandidate { d with candidate := time } x
    | .candidate => d.testCandidate x
  ({ next with prev := some (frame, x) }, confirmed)

/-- The time from crossing `a` to crossing `b`; frame counts wrap at 2^48. -/
def period (b a : Nat) : Nat :=
  (b + 256 * Config.frameModulus - a) % (256 * Config.frameModulus)

def deviation (p : Nat) : Nat := if p ≤ 32768 then 32768 - p else p - 32768

/-- R30. -/
def periodValid (p : Nat) : Bool := deviation p ≤ 1638
def periodInLock (p : Nat) : Bool := deviation p ≤ 64

/-! ### Tracker states (R31 to R36) -/

/-- R36: TRACK_STATE at a change of the tracker state. -/
def postTrack (old : TrackerState) (cause : TrackCause) (s : State) : State :=
  let t := s.tracker
  postWhen (t.state != old) (.trackState t.state old t.f t.k t.inUse cause) s

def setTracker (f : Tracker → Tracker) (s : State) : State := { s with tracker := f s.tracker }

/-- R31: a period in ACQUIRING. -/
def acquire (p : Nat) (s : State) : State :=
  if !periodValid p then setTracker (fun t => { t with inLock := 0 }) s
  else
    let s := setTracker (fun t => t.setFreq (smoothed t.f p 2)) s
    let count := if periodInLock p then s.tracker.inLock + 1 else 0
    if count < 8 then setTracker (fun t => { t with inLock := count }) s
    else
      postTrack .acquiring .lockGained
        (setTracker (fun t => { t with inLock := 0, state := .locked }) s)

/-- R32, R33, R34: entry to HOLDOVER. -/
def enterHoldover (cause : TrackCause) (s : State) : State :=
  postTrack .locked cause
    (setTracker (fun t => { t with state := .holdover, inLock := 0, unlockSeen := true }) s)

/-- R31 to R35: a period handed over by a confirmed crossing. -/
def takePeriod (p : Nat) (s : State) : State :=
  match s.tracker.state with
  | .acquiring => acquire p s
  | .locked =>
    if periodValid p then setTracker (fun t => t.setFreq (smoothed t.f p 8)) s
    else enterHoldover .periodOut s
  | .holdover =>
    if periodValid p then
      let s := setTracker (fun t => t.setFreq (smoothed t.f p 2)) s
      let s := setTracker
        (fun t => { t with state := .acquiring, inLock := if periodInLock p then 1 else 0 }) s
      postTrack .holdover .periodValid s
    else s
  | .fixed => s

/-- R28: the reference in use becomes the wanted one; the last crossing time is discarded. -/
def changeOver (t : Tracker) : Tracker := { t with inUse := t.wanted, lastCross := none, det := {} }

/-- R30: a crossing of the reference is confirmed. A change-over that waits is made after it (R28). -/
def crossingConfirmed (time : Nat) (s : State) : State :=
  let s :=
    match s.tracker.lastCross with
    | some last => takePeriod (period time last) s
    | none => s
  setTracker
    (fun t =>
      let t := { t with lastCross := some time, since := 0 }
      if t.wanted != t.inUse then changeOver t else t) s

/-- R33: 256 frames without a confirmed crossing have passed in LOCKED. -/
def timeoutDue (t : Tracker) : Bool := t.state == .locked && 256 ≤ t.since

/-- R33. Its TRACK_STATE is posted after the ROTATIONs of the same frame.
(DESIGN CHOICE, unsafe: log 33.) -/
def noCrossingTimeout (s : State) : State :=
  if timeoutDue s.tracker then
    setTracker (fun t => { t with lastCross := none, frameState := .holdover })
      (enterHoldover .noCrossing s)
  else s

/-- R26: the state and frequency of the frame. A timeout that falls in the frame counts. -/
def latchFrame (t : Tracker) : Tracker :=
  { t with frameState := if timeoutDue t then .holdover else t.state, frameFreq := t.f }

/-- R26, R29, R33: the tracker takes a frame. -/
def trackFrame (frame : Nat) (samples : List (Nat × Sample)) (s : State) : State :=
  let s :=
    match s.tracker.inUse.bind (sampleOf samples) with
    | some x =>
      let (d, confirmed) := s.tracker.det.take frame x.value
      let s := setTracker (fun t => { t with det := d }) s
      match confirmed with
      | some time => crossingConfirmed time s
      | none => setTracker (fun t => { t with since := t.since + 1 }) s
    | none => setTracker (fun t => { t with since := t.since + 1 }) s
  setTracker latchFrame s

/-! ### The reference (R27, R28) -/

def isVoltage (s : State) (slot : Nat) : Bool :=
  match (entryOf s slot).identity with
  | some i => i.kind == .voltage
  | none => false

/-- R28, step 2: the lowest READY voltage slot assigned to any position. -/
def fallback (s : State) : Option Nat :=
  ((List.range 15).map (· + 1)).find? fun slot =>
    slotReady s slot && isVoltage s slot && (positionOf s slot).isSome

/-- R28. -/
def wantedReference (s : State) : Option Nat :=
  let selected :=
    match s.tracker.selection with
    | some slot => some slot
    | none => (memberOf s 0 0).map (·.slot)
  match selected with
  | some slot => if slotReady s slot then some slot else fallback s
  | none => fallback s

/-- R28: at the start of a frame. -/
def referenceAtFrame (s : State) : State :=
  let wanted := wantedReference s
  let s := setTracker (fun t => { t with wanted := wanted }) s
  if wanted = s.tracker.inUse then s
  else
    match s.tracker.inUse with
    | some slot =>
      if slotReady s slot && s.tracker.since < 256 then s else setTracker changeOver s
    | none => setTracker changeOver s

/-! ### Rotation (R38, R39) -/

/-- R38: the slots the check runs on, or none. -/
def rotationRuns (s : State) (site : Nat) : Option (Nat × Nat × Nat) :=
  match memberOf s site 0, memberOf s site 1, memberOf s site 2 with
  | some a, some b, some c =>
    if (siteOf s site).settings.rotCheck && a.active && b.active && c.active then
      some (a.slot, b.slot, c.slot)
    else none
  | _, _, _ => none

def setRotation (site : Nat) (r : Rotation) (s : State) : State :=
  { s with rotation := updateAt (fun _ => r) site s.rotation }

/-- Sets a site's rotation check and posts ROTATION when its state changes (R38). -/
def moveRotation (site : Nat) (r : Rotation) (s : State) : State :=
  let old := (rotationOf s site).state
  postWhen (r.state != old) (.rotation site r.state old) (setRotation site r s)

/-- R38: where the condition to run stops, or starts on other slots, the check starts from UNKNOWN. -/
def refreshRotation (s : State) (site : Nat) : State :=
  let runs := rotationRuns s site
  if runs = (rotationOf s site).running then s else moveRotation site { running := runs } s

def refreshRotations (s : State) : State := (List.range 4).foldl refreshRotation s

inductive Judgement where
  | matching | reversed | indeterminate
  deriving DecidableEq, Repr

/-- R39: the cycle from `opening` to `closing`. Crossing times compare as numbers, so the cycle that
spans the wrap of the frame count is INDETERMINATE. (DESIGN CHOICE, unsafe: log 15.) -/
def judgeCycle (cross2 cross3 : List Nat) (opening closing : Nat) : Judgement :=
  let within := fun t => decide (opening ≤ t ∧ t < closing)
  match cross2.find? within, cross3.find? within with
  | some a, some b => if a < b then .matching else if b < a then .reversed else .indeterminate
  | _, _ => .indeterminate

/-- R39: the run counts and the state after a judgement. -/
def judged (r : Rotation) : Judgement → Rotation
  | .matching =>
    let n := satInc 4 r.normalRun
    { r with normalRun := n, reversedRun := 0, state := if n = 4 then .normal else r.state }
  | .reversed =>
    let n := satInc 4 r.reversedRun
    { r with reversedRun := n, normalRun := 0, state := if n = 4 then .reversed else r.state }
  | .indeterminate => { r with normalRun := 0, reversedRun := 0 }

/-- R39: an L1 crossing closes one cycle and opens the next. -/
def closeCycle (r : Rotation) (time : Nat) : Rotation :=
  let r :=
    match r.opening with
    | some opening => judged r (judgeCycle r.cross2 r.cross3 opening time)
    | none => r
  { r with
    opening := some time
    cross2 := r.cross2.filter (time ≤ ·), cross3 := r.cross3.filter (time ≤ ·) }

def takeSample (d : Detector) (frame : Nat) (x : Option Sample) : Detector × Option Nat :=
  match x with
  | some x => d.take frame x.value
  | none => (d, none)

/-- R38, R39: a frame's samples through a site's three detectors; L1 is judged after L2 and L3.
(DESIGN CHOICE, unsafe: log 15.) -/
def rotateFrame (frame : Nat) (samples : List (Nat × Sample)) (r : Rotation) : Rotation :=
  match r.running with
  | none => r
  | some (a, b, c) =>
    let (d1, t1) := takeSample r.det1 frame (sampleOf samples a)
    let (d2, t2) := takeSample r.det2 frame (sampleOf samples b)
    let (d3, t3) := takeSample r.det3 frame (sampleOf samples c)
    let r :=
      { r with
        det1 := d1, det2 := d2, det3 := d3, last2 := t2.or r.last2, last3 := t3.or r.last3
        cross2 := r.cross2 ++ t2.toList, cross3 := r.cross3 ++ t3.toList }
    match t1 with
    | some time => closeCycle r time
    | none => r

/-- The rotation checks take a frame; TRACK_STATE of the frame has been posted, and ROTATION follows
for the sites 0 to 3. (DESIGN CHOICE, unsafe: log 33.) -/
def rotationFrame (frame : Nat) (samples : List (Nat × Sample)) (s : State) : State :=
  (List.range 4).foldl
    (fun s site => moveRotation site (rotateFrame frame samples (rotationOf s site)) s) s

/-! ### Reset and requests (R27, R35 to R37) -/

/-- R37: an ACQ reset reaches the tracker. K changes at the boundary itself, so the carry that begins
frame 0 keeps the K before it (R25). -/
def trackerAcqReset (s : State) : State :=
  let old := s.tracker.state
  let s := setTracker
    (fun t =>
      { (t.setFreq (nominal s.straps)) with
        kMoved := t.kMoved, boundaryK := some (carryK t)
        state := .acquiring, inLock := 0, since := 0, lastCross := none, selection := none
        wanted := none, inUse := none, det := {}, unlockSeen := false, frameState := .acquiring
        frameFreq := nominal s.straps }) s
  let s := postTrack old .reset s
  (List.range 4).foldl (fun s site => moveRotation site {} s) s

/-- R27. (DEDUCED, unsafe: log 19.) -/
def trackRef (slot : Byte) (s : State) : State :=
  let n := slot.toNat
  let accept := fun (selection : Option Nat) =>
    answer .ok (.reference selection s.tracker.wanted)
      (setTracker (fun t => { t with selection := selection }) s)
  if 15 < n then refuse .badValue s
  else if n = 0 then accept none
  else if (entryOf s n).state = .joining then refuse .busy s
  else if isVoltage s n then accept (some n)
  else refuse .badValue s

/-- R35: FIXED is entered or left. TRACK_STATE is posted before the reply (DESIGN CHOICE, unsafe: log
33), and leaving FIXED drops the detector's previous sample with its state (DESIGN CHOICE, safe: log
39). -/
def setFixed (freq : Word) (s : State) : State :=
  let n := freq.toNat
  let old := s.tracker.state
  if n ≠ 0 then
    let f := clampNat n 42000 69999
    let s := setTracker (fun t => { (t.setFreq f) with state := .fixed, inLock := 0 }) s
    answer (if f = n then .ok else .okClamped) (.frequency f) (postTrack old .request s)
  else if old = .fixed then
    let s := setTracker
      (fun t => { t with state := .acquiring, lastCross := none, inLock := 0, det := {} }) s
    answer .ok .empty (postTrack old .request s)
  else refuse .wrongState s

/-- R35. A timeout that the frame before owes comes first (R33; DEDUCED, unsafe: log 4). -/
def trackFixed (freq : Word) (s : State) : State := setFixed freq (noCrossingTimeout s)

/-- R36. -/
def trackView (s : State) : ReplyBody :=
  let t := s.tracker
  .track t.state t.f t.k t.selection t.wanted t.inUse t.inLock t.since t.unlockSeen
    (s.rotation.map (·.state))

/-- R36: UNLOCK_SEEN is cleared after its value has been placed in the reply. -/
def reportTrack (clear : Bool) (s : State) : State :=
  answer .ok (trackView s)
    (if clear then setTracker (fun t => { t with unlockSeen := false }) s else s)

/-- R36. A timeout that the frame before owes comes first (R33; DEDUCED, unsafe: log 4). -/
def trackStatus (clear : Bool) (s : State) : State := reportTrack clear (noCrossingTimeout s)

end Sys2Proof.Machine
end

