-- ==== Sys2Proof/Machine/Survey.lean ====
section
/-!
DEFINITION. The clock, the site table, member positions, the survey and its record (R40 to R58).
-/
namespace Sys2Proof.Machine

def setSurvey (f : Survey → Survey) (s : State) : State := { s with survey := f s.survey }

/-- R58: while the store is mounting, every request of the chapter is answered BUSY. -/
def unlessMounting (f : State → State) (s : State) : State :=
  if s.store.state = .mounting then refuse .busy s else f s

/-! ### Clock (R40, R41) -/

/-- One millisecond of the oscillator. At the top of the seconds count the clock wraps to 0 and
CLOCK_VALID becomes 0. -/
def Clock.tick (c : Clock) : Clock :=
  if c.time.ms < 999 then { c with time := { c.time with ms := c.time.ms + 1 } }
  else if c.time.sec < max32 then
    { c with
      time := ⟨c.time.sec + 1, 0⟩
      midnightDue := c.midnightDue || (c.time.sec + 1) % 86400 == 0 }
  else { time := ⟨0, 0⟩, valid := false, midnightDue := true }

/-- R19: the evaluation of CAL_DUE at a midnight. -/
def takeMidnight (s : State) : State :=
  if s.clock.midnightDue then
    evaluateCalDue { s with clock := { s.clock with midnightDue := false } }
  else s

/-- R41. -/
def clockSet (sec : Word) (ms : Half) (s : State) : State :=
  unlessMounting (fun s =>
    if recording s then refuse .wrongState s
    else if 999 < ms.toNat then refuse .badValue s
    else
      let time : ClockTime := ⟨sec.toNat, ms.toNat⟩
      answer .ok (.clock time)
        (evaluateCalDue { s with clock := { s.clock with time := time, valid := true } })) s

/-! ### Site settings (R42, R43) -/

/-- Step 1: a carried setting clamped to its own range; a setting not carried is left as stored. -/
def carriedNat (stored lo hi : Nat) : Option Nat → Nat
  | some v => clampNat v lo hi
  | none => stored

/-- Step 1 has changed the carried value. -/
def clampedNat (lo hi : Nat) : Option Nat → Bool
  | some v => clampNat v lo hi != v
  | none => false

def half? (o : Option Half) : Option Nat := o.map (·.toNat)
def byte? (o : Option Byte) : Option Nat := o.map (·.toNat)

/-- Step 1 of R43. Ti has no range of its own but step 3. -/
def carrySettings (c : CarriedSettings) (x : Settings) : Settings where
  enabled := c.enabled.getD x.enabled
  name := (c.name.map (·.take 16)).getD x.name
  udin := carriedNat x.udin 50 1000 (half? c.udin)
  st := carriedNat x.st 100 950 (half? c.st)
  h := carriedNat x.h 0 100 (byte? c.h)
  ti := (half? c.ti).getD x.ti
  nc := carriedNat x.nc 1 4 (byte? c.nc)
  pc := carriedNat x.pc 1 8 (byte? c.pc)
  wc := carriedNat x.wc 1 14 (byte? c.wc)
  pe := carriedNat x.pe 1 8 (byte? c.pe)
  we := carriedNat x.we 1 14 (byte? c.we)
  hmax := carriedNat x.hmax 2 50 (byte? c.hmax)
  interval := carriedNat x.interval 1 60 (byte? c.interval)
  rotCheck := c.rotCheck.getD x.rotCheck

def carryClamped (c : CarriedSettings) : Bool :=
  (match c.name with
    | some cs => decide (16 < cs.length)
    | none => false) ||
    clampedNat 50 1000 (half? c.udin) || clampedNat 100 950 (half? c.st) ||
    clampedNat 0 100 (byte? c.h) || clampedNat 1 4 (byte? c.nc) || clampedNat 1 8 (byte? c.pc) ||
    clampedNat 1 14 (byte? c.wc) || clampedNat 1 8 (byte? c.pe) || clampedNat 1 14 (byte? c.we) ||
    clampedNat 2 50 (byte? c.hmax) || clampedNat 1 60 (byte? c.interval)

/-- Steps 3 and 4 of R43. -/
def limitSettings (x : Settings) : Settings :=
  { x with
    ti := clampNat x.ti 0 x.st, wc := Nat.min x.wc (16 - x.pc), we := Nat.min x.we (16 - x.pe) }

/-- R43. ROTATION is posted before the reply. (DESIGN CHOICE, unsafe: log 33.) -/
def siteSet (site : Byte) (c : CarriedSettings) (s : State) : State :=
  unlessMounting (fun s =>
    let n := site.toNat
    if s.survey.state = some .recording ∨ s.survey.state = some .ended then refuse .wrongState s
    else if 3 < n then refuse .badValue s
    else if !(c.name.getD []).all printable then refuse .badValue s
    else
      let carried := carrySettings c (siteOf s n).settings
      let settings := limitSettings carried
      let s := refreshRotation (modifySite (fun e => { e with settings := settings }) n s) n
      answer (if carryClamped c || settings != carried then .okClamped else .ok)
        (.site (siteOf s n)) s) s

/-- R47. -/
def siteGet (site : Byte) (s : State) : State :=
  unlessMounting (fun s =>
    if 3 < site.toNat then refuse .badValue s else answer .ok (.site (siteOf s site.toNat)) s) s

/-! ### Member positions (R44 to R47) -/

/-- A position is cleared or takes another slot: its window is emptied (R59), its latest window
result is discarded (R103), and an accumulator a mismatched join leaves is removed (R105). -/
def changePosition (m : Option Member) (site role : Nat) (s : State) : State :=
  let s := modifyMember (fun _ => m) site role s
  let s := if role < 3 then modifyChannel (fun c => { c with window := [] }) site role s else s
  let s := modifyHarmMember
    (fun x => { x with window := none, acc := none, lossDue := false, latest := none }) site role s
  refreshRotation s site

/-- The member a slot would be, from the roster entry (R45). -/
def memberFor (s : State) (slot : Nat) (identity : Identity) : Member :=
  ⟨slot, identity.serial, (entryOf s slot).state == .ready⟩

/-- R45, ASSIGN(slot, none). ROTATION is posted before the reply. (DESIGN CHOICE, unsafe: log 33.) -/
def unassign (slot : Nat) (s : State) : State :=
  match positionOf s slot with
  | some (site, role) =>
    let s := changePosition none site role s
    answer .ok (.assigned (some (siteOf s site))) s
  | none => answer .ok (.assigned none) s

/-- A slot that takes another position leaves the one that names it (R44, R45), and the ROTATION of the
site it leaves is posted before that of the site it joins. (DESIGN CHOICE, unsafe: log 33.) -/
def vacate (slot site role : Nat) (s : State) : State :=
  match positionOf s slot with
  | some (i, j) => if i = site ∧ j = role then s else changePosition none i j s
  | none => s

/-- The position takes the member; one that names the same slot keeps what it has collected. -/
def settleIn (m : Member) (site role : Nat) (s : State) : State :=
  if (memberOf s site role).map (·.slot) = some m.slot then
    refreshRotation (modifyMember (fun _ => some m) site role s) site
  else changePosition (some m) site role s

/-- R45, the accepted request of a role. ROTATION is posted before the reply, that of a vacated site first.
(DESIGN CHOICE, unsafe: log 33.) -/
def place (slot site role : Nat) (identity : Identity) (s : State) : State :=
  let s := vacate slot site role s
  let s := settleIn (memberFor s slot identity) site role s
  answer .ok (.assigned (some (siteOf s site))) s

/-- R45. -/
def assign (slot site role : Byte) (s : State) : State :=
  unlessMounting (fun s =>
    let n := slot.toNat
    let none? := role = 0xFF
    if !isSlot n then refuse .badValue s
    else if ¬none? ∧ (3 < site.toNat ∨ 7 < role.toNat) then refuse .badValue s
    else if s.survey.state = some .recording ∨ s.survey.state = some .ended then
      refuse .wrongState s
    else if (entryOf s n).state = .joining then refuse .busy s
    else if none? then unassign n s
    else
      match (entryOf s n).identity with
      | none => refuse .badValue s
      | some identity =>
        if identity.kind = roleKind role.toNat then place n site.toNat role.toNat identity s
        else refuse .badValue s) s

/-- R46: the position naming a slot is matched against the identity in its entry; the mismatch
indication names the position that was cleared. -/
def matchMember (slot : Nat) (identity : Identity) (s : State) : Option (Nat × Role) × State :=
  match positionOf s slot with
  | none => (none, s)
  | some (site, role) =>
    if (memberOf s site role).map (·.serial) = some identity.serial ∧
        identity.kind = roleKind role then
      (none,
        refreshRotation
          (modifyMember (Option.map fun m => { m with active := true }) site role s) site)
    else (some (site, roleOf role), changePosition none site role s)

/-- R11: READY takes effect at the frame boundary. -/
def joinComplete (j : Join) (identity : Identity) (s : State) : State :=
  let slot := j.slot
  let same := (entryOf s slot).identity.map (·.serial) == some identity.serial
  let s := setJoin none s
  let s := modifyEntry
    (fun e =>
      let e := if same then e else clearSticky e
      { e with
        state := .ready, cause := none, identity := some identity
        calDue := calDueOf s.clock (some identity) }) slot s
  let s := modifyReceive (fun _ => {}) slot s
  let (mismatch, s) := matchMember slot identity s
  post (.podJoin slot identity.serial identity.kind identity.model identity.fullScale
    (calDueOf s.clock (some identity)) mismatch) s

/-- R11: at the boundary that ends the frame of SAMPLE_ON. -/
def joinAtFrame (s : State) : State :=
  match s.bus.join with
  | some j =>
    match j.stage with
    | .onSent identity => joinComplete j identity s
    | _ => s
  | none => s

/-! ### The SURVEY record (R56) -/

def siteRecord (e : Site) : SiteRecord :=
  ⟨e.settings, e.members.map fun m => m.map fun m => (m.slot, m.serial)⟩

def surveyRecord (s : State) : SurveyRecord where
  number := s.survey.number
  state := s.survey.state.getD .setup
  cause := s.survey.cause
  first := s.survey.first
  runStart := s.survey.runStart
  mode := s.store.mode
  time := s.clock.time
  clockUnset := !s.clock.valid
  sites := s.sites.map siteRecord

/-- A SURVEY record is made into the pending place and handed to the queue when it has room.
(DEDUCED, unsafe: log 32.) -/
def makeSurveyRecord (s : State) : State :=
  storeNext (offerSurvey (setSurvey (fun v => { v with place := some (surveyRecord s) }) s))

/-! ### The survey (R48 to R54) -/

/-- R48: SURVEY_STATE at a change of the survey state, at a frame and clock time. -/
def enterSurvey (new : SurveyState) (cause : Option HoldCause) (frame : Nat)
    (time : ClockTime) (s : State) : State :=
  let old := s.survey.state
  let s := makeSurveyRecord
    (setSurvey (fun v => { v with state := some new, cause := cause }) s)
  post (.surveyState s.survey.number new old cause frame time none) s

/-- R51, check 1: an enabled site with an assigned voltage member. -/
def qualifies (s : State) : Bool :=
  s.sites.any fun e => e.settings.enabled && (e.members.take 4).any Option.isSome

/-- R51, R53: the checks after the survey state; an accepted request makes a start pending. -/
def requestStart (s : State) : State :=
  if !qualifies s then refuse .badValue s
  else if critical s then refuse .supply s
  else if !storeUp s.store then refuse .busy s
  else setSurvey (fun v => { v with change := some .start }) s

/-- R51. -/
def surveyStart (s : State) : State :=
  unlessMounting (fun s =>
    if s.survey.state = some .setup then requestStart s else refuse .wrongState s) s

/-- R53. -/
def surveyResume (s : State) : State :=
  unlessMounting (fun s =>
    if s.survey.state = some .held then requestStart s else refuse .wrongState s) s

/-- R50, R52: a request that finds a stop with cause SUPPLY pending waits for it. -/
def surveyHold (s : State) : State :=
  unlessMounting (fun s =>
    if !recording s then refuse .wrongState s
    else if s.survey.change = some .stopSupply then s
    else setSurvey (fun v => { v with change := some .stopHold }) s) s

/-- R50, R54. (DEDUCED, unsafe: log 23.) -/
def surveyEnd (s : State) : State :=
  unlessMounting (fun s =>
    match s.survey.state with
    | some .recording =>
      if critical s || s.survey.change == some .stopSupply then refuse .supply s
      else setSurvey (fun v => { v with change := some .stopEnd }) s
    | some .held =>
      if critical s then refuse .supply s
      else answer .ok .empty (enterSurvey .ended none s.bus.frame s.clock.time s)
    | _ => refuse .wrongState s) s

/-- The next survey number: 65,535 wraps to 1 (R54). -/
def nextSurvey (n : Nat) : Nat := if n < 65535 then n + 1 else 1

/-- R54. -/
def surveyNew (s : State) : State :=
  unlessMounting (fun s =>
    if s.survey.state = some .ended then
      let s := setSurvey
        (fun v =>
          { v with
            state := some .setup, cause := none, number := nextSurvey v.number, first := none
            runStart := none }) s
      answer .ok .empty
        (post (.surveyState s.survey.number .setup (some .ended) none s.bus.frame s.clock.time none) s)
    else refuse .wrongState s) s

/-- R49: the survey's own part of a start boundary. -/
def surveyStarts (s : State) : State :=
  let old := s.survey.state
  let frame := s.bus.frame
  let time := s.bus.frameTime
  let s := setSurvey
    (fun v =>
      { v with
        change := none, changeDue := false, runStart := some ⟨frame, time⟩
        first := some (v.first.getD time) }) s
  let s := enterSurvey .recording none frame time s
  answer .ok
    (if old = some .held then .resumed frame time else .surveyStarted s.survey.number frame time) s

/-- R52, R54, R55: the state that a stop leads to. -/
def changeEnds (change : Option Change) (s : State) : State :=
  let frame := s.bus.frame
  let time := s.bus.frameTime
  match change with
  | some .stopEnd => enterSurvey .ended none frame time s
  | some .stopSupply => enterSurvey .held (some .supply) frame time s
  | _ => enterSurvey .held (some .linkRequest) frame time s

/-- R50: a SURVEY_HOLD or SURVEY_END that waits for the stop is answered. -/
def answerStop (s : State) : State :=
  match s.link.current with
  | some c => if c.kind = 0x0D ∨ c.kind = 0x0F then answer .ok .empty s else s
  | none => s

/-- R50, R52, R54, R55: the survey's own part of a stop boundary. -/
def surveyStops (s : State) : State :=
  answerStop
    (changeEnds s.survey.change (setSurvey (fun v => { v with change := none, changeDue := false }) s))

/-- R50, R52: the supply reaches CRITICAL. A start whose boundary's frame has begun, and which
START_BOUNDARY has not yet taken, is abandoned as well (DESIGN CHOICE, unsafe: log 54). -/
def surveyCritical (s : State) : State :=
  match s.survey.change with
  | some .start =>
    refuse .supply (setSurvey (fun v => { v with change := none, changeDue := false }) s)
  | some _ => s
  | none =>
    if recording s then setSurvey (fun v => { v with change := some .stopSupply }) s else s

/-! ### Restoration (R57) -/

/-- R57: a restored position: inactive when its slot is not READY, and otherwise matched as R46 states;
none when it does not match. -/
def restoreMember (s : State) (role : Nat) (m : Nat × Nat) : Option Member :=
  if slotReady s m.1 then
    match (entryOf s m.1).identity with
    | some i =>
      if i.serial = m.2 ∧ i.kind = roleKind role then some ⟨m.1, m.2, true⟩ else none
    | none => none
  else some ⟨m.1, m.2, false⟩

/-- R57: one site entry of the record; its eight positions restored. -/
def restoreSite (s : State) (r : SiteRecord) : Site where
  settings := r.settings
  members := (List.range 8).map fun role => (r.members.getD role none).bind (restoreMember s role)

/-- R57: the four site entries of the record. -/
def restoreSites (s : State) (rs : List SiteRecord) : List Site :=
  (List.range 4).map fun site => restoreSite s (rs.getD site ⟨{}, []⟩)

/-- Positions a restoration has cleared. -/
def clearedCount (rs : List SiteRecord) (sites : List Site) : Nat :=
  let assigned := fun (n : Nat) (o : Option Member) => if o.isSome then n + 1 else n
  (rs.map fun r => (r.members.filter Option.isSome).length).sum -
    (sites.map fun e => e.members.foldl assigned 0).sum

/-- R57: the latest SURVEY record found. -/
def latestSurvey (st : Store) : Option SurveyRecord :=
  match latestLive st .survey with
  | some e =>
    match contentOf st e with
    | .survey r => some r
    | _ => none
  | none => none

/-- R57: the survey and the site table that the latest SURVEY record gives, and how many positions
the restoration has cleared. -/
def restored (s : State) : State × Nat :=
  match latestSurvey s.store with
  | some r =>
    let sites := restoreSites s r.sites
    let ended := r.state == .ended
    ({ s with
        sites := sites
        survey :=
          { s.survey with
            state := some (if ended then .ended else .held)
            cause := if ended then none else some .power
            number := r.number, first := r.first, runStart := r.runStart } },
      clearedCount r.sites sites)
  | none =>
    ({ s with
        sites := List.replicate 4 {}
        survey :=
          { s.survey with
            state := some .setup, cause := none, number := 1, first := none, runStart := none } },
      0)

/-- R57: the survey and the site table after the mount; SURVEY_STATE with previous state none. -/
def restoreSurvey (s : State) : State :=
  let cleared := (restored s).2
  let s := refreshRotations (restored s).1
  post (.surveyState s.survey.number (s.survey.state.getD .setup) none s.survey.cause s.bus.frame
    s.clock.time (some cleared)) s

/-! ### SURVEY_STATUS (R58) -/

def siteCounts (e : Site) : Bool × Nat × Nat :=
  (e.settings.enabled, (e.members.filter Option.isSome).length,
    (e.members.filter fun m => (m.map (·.active)).getD false).length)

def surveyStatus (s : State) : State :=
  unlessMounting (fun s =>
    answer .ok
      (.surveyStatus s.survey.state s.survey.cause s.survey.number s.survey.first s.survey.runStart
        (s.survey.change == some .stopSupply) s.survey.place.isSome s.clock.time s.clock.valid
        (s.sites.map siteCounts)) s) s

end Sys2Proof.Machine
end

