-- ==== Sys2Proof/Machine/Capture.lean ====
section
/-!
DEFINITION. The capture unit: pre-trigger rings, claims, segments, truncation, reading, releasing and
pinning (R82 to R96).
-/
namespace Sys2Proof.Machine

/-! ### Rings (R82) -/

/-- The sample of a member position in a frame: 0 with a gap mark when it is not active. -/
def positionSample (samples : List (Nat × Sample)) : Option Member → CapSample
  | some m =>
    if m.active then
      match sampleOf samples m.slot with
      | some x => ⟨x.value, x.gap⟩
      | none => ⟨0, true⟩
    else ⟨0, true⟩
  | none => ⟨0, true⟩

/-- A frame enters the ring, and the oldest is dropped once 1,280 are held. -/
def Ring.enter (frame : Nat) (time : ClockTime) (row : List CapSample) (r : Ring) : Ring :=
  let frames := (row :: r.frames).take Config.ringFrames
  let times := if frame % 64 = 0 then (frame, time) :: r.times else r.times
  { newest := frame, frames := frames
    times := times.filter fun x => frameDiff frame x.1 < frames.length }

def ringFrame (frame : Nat) (samples : List (Nat × Sample)) (s : State) : State :=
  { s with capture := { s.capture with
      rings := (s.capture.rings.zip s.sites).map fun x =>
        x.1.enter frame s.bus.frameTime (x.2.members.map (positionSample samples)) } }

/-- `count` frames from `first` onward, newest first, of the listed roles. -/
def Ring.copy (r : Ring) (first count : Nat) (roles : List Role) : List (List CapSample) :=
  let last := (first + count + Config.frameModulus - 1) % Config.frameModulus
  let rows := if count = 0 then [] else (r.frames.drop (frameDiff r.newest last)).take count
  rows.map fun row => roles.map fun role => row.getD role.code ⟨0, true⟩

def Ring.timeOf (r : Ring) (frame : Nat) : Option ClockTime :=
  (r.times.find? fun x => x.1 == frame).map (·.2)

/-! ### Segments (R83, R86 to R88) -/

def Segment.cycles (g : Segment) : Nat := g.frames.length / 128

def capMember (s : State) (role : Nat) (m : Member) : CaptureMember :=
  let identity := (entryOf s m.slot).identity
  { role := roleOf role, slot := m.slot, serial := m.serial
    kind := (identity.map (·.kind)).getD (roleKind role)
    fullScale := (identity.map (·.fullScale)).getD 0 }

/-- R83: one entry for each active member position, in role order. -/
def memberList (s : State) (site : Nat) : List CaptureMember :=
  ((siteOf s site).members.zipIdx.filterMap fun x =>
    match x.1 with
    | some m => if m.active then some (capMember s x.2 m) else none
    | none => none)

/-- Counts the gap marks of rows taken and keeps each member's last sample (R83, R87). -/
def countRows (rows : List (List CapSample)) (members : List CaptureMember) : List CaptureMember :=
  members.zipIdx.map fun x =>
    let column := rows.map fun row => row.getD x.2 ⟨0, true⟩
    { x.1 with
      gaps := x.1.gaps + (column.filter (·.gap)).length
      lastValue := match column with
        | c :: _ => c.value
        | [] => x.1.lastValue }

/-- A segment whose first `copied` frames come from the ring. -/
def newSegment (kind : SegmentKind) (r : Ring) (first copied pre planned : Nat)
    (members : List CaptureMember) : Segment :=
  let frames := r.copy first (Nat.min copied (128 * planned)) (members.map (·.role))
  { kind := kind, first := first, firstTime := r.timeOf first, pre := pre, planned := planned
    frames := frames, filling := frames.length < 128 * planned
    live := members.map fun _ => .notYet }

/-! ### Claims (R85, R86) -/

/-- R85, overlap: a slot of the site is FILLING. -/
def captureOverlap (s : State) (site : Nat) : Bool :=
  s.capture.slots.any fun c => c.state == .filling && c.site == some site

def freeSlot (s : State) : Option Nat :=
  ((List.range 12).filter fun i => i < s.capture.slots.length).find? fun i =>
    (captureSlot s i).state == .free

/-- The next capture serial: 65,535 wraps to 0 (R83). -/
def nextSerial (n : Nat) : Nat := (n + 1) % 65536

/-- R85, R86: the claimed slot. -/
def claimed (s : State) (event site start opening : Nat) (c : CaptureSlot) : CaptureSlot :=
  let x := (siteOf s site).settings
  let pre := Nat.min x.pc (start / 128)
  let first := (start + Config.frameModulus - 128 * pre) % Config.frameModulus
  let members := memberList s site
  let g := newSegment .start (s.capture.rings.getD site {}) first (frameDiff opening first) pre
    (pre + x.wc) members
  { c with
    state := .filling, serial := nextSerial c.serial, event := some event, site := some site
    eventOpen := true, members := countRows g.frames members, segments := [g] }

/-- R85: the slot and serial claimed for an event, or none. -/
def claimSlot (event site start opening : Nat) (s : State) : Option (Nat × Nat) × State :=
  match freeSlot s with
  | some i =>
    let s := modifyCapture (claimed s event site start opening) i s
    (some (i, (captureSlot s i).serial), s)
  | none => (none, s)

/-! ### Filling (R87) -/

/-- The site's position for a listed member holds its slot and serial and is active. -/
def isMeasuring (s : State) (site : Nat) (m : CaptureMember) : Bool :=
  match memberOf s site m.role.code with
  | some p => p.active && p.slot == m.slot && p.serial == m.serial
  | none => false

/-- The sample recorded for a member in a live frame, and its live state after it. -/
def liveSample (s : State) (site : Nat) (samples : List (Nat × Sample)) (m : CaptureMember)
    (live : LiveState) : CapSample × LiveState :=
  match live, isMeasuring s site m, sampleOf samples m.slot with
  | .stopped, _, _ => (⟨m.lastValue, true⟩, .stopped)
  | _, true, some x => (⟨x.value, x.gap⟩, .measuring)
  | .measuring, _, _ => (⟨m.lastValue, true⟩, .stopped)
  | .notYet, _, _ => (⟨m.lastValue, true⟩, .notYet)

/-- A frame into a segment that is filling and waits for it. -/
def fillSegment (s : State) (frame : Nat) (samples : List (Nat × Sample)) (site : Nat)
    (members : List CaptureMember) (g : Segment) : Segment :=
  if g.filling && frameDiff frame g.first == g.frames.length then
    let taken := (members.zip g.live).map fun x => liveSample s site samples x.1 x.2
    let frames := taken.map (·.1) :: g.frames
    { g with
      frames := frames, live := taken.map (·.2), filling := frames.length < 128 * g.planned }
  else g

def fillSlot (s : State) (frame : Nat) (samples : List (Nat × Sample)) (c : CaptureSlot) :
    CaptureSlot :=
  match c.state, c.site with
  | .filling, some site =>
    let segments := c.segments.map (fillSegment s frame samples site c.members)
    let rows := (c.segments.zip segments).flatMap fun x =>
      x.2.frames.take (x.2.frames.length - x.1.frames.length)
    { c with segments := segments, members := countRows rows c.members }
  | _, _ => c

def captureFrame (frame : Nat) (samples : List (Nat × Sample)) (s : State) : State :=
  { s with capture := { s.capture with slots := s.capture.slots.map (fillSlot s frame samples) } }

/-- R89: its event has closed and none of its segments is filling. -/
def captureDone (c : CaptureSlot) : Bool :=
  c.state == .filling && !c.eventOpen && c.segments.all fun g => !g.filling

/-- R89. -/
def completeSlot (c : CaptureSlot) : CaptureSlot :=
  if captureDone c then { c with state := .complete } else c

def captureComplete (slot : Nat) (s : State) : State := modifyCapture completeSlot slot s

/-! ### Closing (R88) and truncation (R90, R91) -/

/-- R88: an END segment is taken at closing boundary `c`. -/
def takesEnd (s : State) (site c : Nat) (slot : CaptureSlot) : Bool :=
  match slot.segments with
  | g :: _ => 128 * g.planned + 128 * (siteOf s site).settings.pe ≤ frameDiff c g.first
  | [] => false

/-- R88: the END segment about closing boundary `c`. -/
def endSegment (s : State) (site c : Nat) (slot : CaptureSlot) : Segment :=
  let x := (siteOf s site).settings
  newSegment .ending (s.capture.rings.getD site {})
    ((c + Config.frameModulus - 128 * x.pe) % Config.frameModulus) (128 * x.pe) x.pe (x.pe + x.we)
    slot.members

def addEnd (s : State) (site c : Nat) (slot : CaptureSlot) : CaptureSlot :=
  if takesEnd s site c slot then
    let g := endSegment s site c slot
    { slot with
      segments := slot.segments ++ [g], members := countRows g.frames slot.members }
  else slot

/-- R88, R89: the slot of an event that has closed at boundary `c`. -/
def closeSlot (s : State) (site c : Nat) (slot : CaptureSlot) : CaptureSlot :=
  completeSlot { addEnd s site c slot with eventOpen := false }

/-- R90: a filling segment stops with its whole cycles. -/
def cutSegment (g : Segment) : Segment :=
  if g.filling then
    let held := g.frames.length / 128
    { g with
      frames := g.frames.drop (g.frames.length % 128), filling := false
      truncated := held < g.planned }
  else g

/-- Gap marks in the frames that the cut discards (R90). -/
def discardedGaps (g : Segment) (i : Nat) : Nat :=
  if g.filling then
    ((g.frames.take (g.frames.length % 128)).filter fun row =>
      (row.getD i ⟨0, false⟩).gap).length
  else 0

def cutMembers (segments : List Segment) (members : List CaptureMember) : List CaptureMember :=
  members.zipIdx.map fun x =>
    { x.1 with gaps := x.1.gaps - (segments.map fun g => discardedGaps g x.2).sum }

/-- R90, R91: a FILLING slot is brought to COMPLETE; an event still open closes at `c`. -/
def truncateSlot (s : State) (c : Nat) (slot : CaptureSlot) : CaptureSlot :=
  match slot.state, slot.site with
  | .filling, some site =>
    let slot := if slot.eventOpen then addEnd s site c slot else slot
    { slot with
      state := .complete, eventOpen := false, segments := slot.segments.map cutSegment
      members := cutMembers slot.segments slot.members }
  | _, _ => slot

def truncateCaptures (c : Nat) (s : State) : State :=
  { s with capture := { s.capture with slots := s.capture.slots.map (truncateSlot s c) } }

/-- R91: every ring is emptied. -/
def emptyRings (s : State) : State :=
  { s with capture := { s.capture with rings := List.replicate 4 {} } }

/-! ### Releasing and pinning (R84, R94, R95) -/

/-- R84: a capture reference is valid. -/
def captureValid (s : State) (p : CapturePin) : Bool :=
  let c := captureSlot s p.slot
  p.slot < 12 && c.state != .free && c.serial == p.serial && c.event == some p.event

/-- R94: the slot gives up its content and keeps its serial. -/
def freed (c : CaptureSlot) : CaptureSlot := { serial := c.serial }

def pinCapture (p : CapturePin) (s : State) : State :=
  modifyCapture (fun c => { c with pins := c.pins + 1 }) p.slot s

/-- R95: a RELEASE_PENDING slot whose count reaches 0 becomes FREE. -/
def unpinSlot (c : CaptureSlot) : CaptureSlot :=
  let c := { c with pins := c.pins - 1 }
  if c.pins = 0 ∧ c.state = .releasePending then freed c else c

def unpinCapture (p : CapturePin) (s : State) : State := modifyCapture unpinSlot p.slot s

/-- R95: a PRINT reset. -/
def unpinAllSlots (s : State) : State :=
  { s with capture := { s.capture with slots := s.capture.slots.map fun c =>
      if c.state = .releasePending then freed c else { c with pins := 0 } } }

/-- R94. -/
def captureRelease (slot : Byte) (serial : Option Half) (s : State) : State :=
  let i := slot.toNat
  let c := captureSlot s i
  let done := fun (state : CaptureState) (s : State) => answer .ok (.captureState state) s
  if 11 < i then refuse .badValue s
  else if c.state = .free ∨ (serial.map (·.toNat)).getD c.serial ≠ c.serial then
    refuse .notFound s
  else
    match c.state with
    | .complete =>
      if c.pins = 0 then done .free (modifyCapture freed i s)
      else done .releasePending (modifyCapture (fun c => { c with state := .releasePending }) i s)
    | .releasePending => done .releasePending s
    | _ => refuse .wrongState s

/-! ### Reading (R92, R93) -/

def segmentView (g : Segment) : SegmentView :=
  ⟨g.kind, g.first, g.firstTime, g.pre, g.planned, g.cycles, g.filling, g.truncated⟩

def memberView (m : CaptureMember) : MemberView := ⟨m.role, m.slot, m.serial, m.kind, m.fullScale, m.gaps⟩

def captureView (c : CaptureSlot) : CaptureView :=
  ⟨c.state, c.serial, c.event, c.site, c.eventOpen, c.pins, c.members.map memberView,
    c.segments.map segmentView⟩

/-- R92. -/
def captureList (s : State) : State :=
  answer .ok
    (.captureList (s.capture.slots.map captureView)
      (s.capture.slots.filter fun c => c.state == .free).length) s

/-- The samples of a member, oldest first. -/
def memberSamples (g : Segment) (i : Nat) : List Int :=
  (g.frames.map fun row => (row.getD i ⟨0, true⟩).value).reverse

/-- R93. -/
def captureRead (slot segment member first cycles : Byte) (s : State) : State :=
  let c := captureSlot s slot.toNat
  let k := first.toNat
  if 11 < slot.toNat ∨ cycles.toNat < 1 ∨ 2 < cycles.toNat then refuse .badValue s
  else if c.state = .free then refuse .notFound s
  else
    match c.segments[segment.toNat]?, c.members[member.toNat]? with
    | some g, some m =>
      if g.planned ≤ k ∨ (g.filling = false ∧ g.cycles ≤ k) then refuse .badValue s
      else
        let count := Nat.min cycles.toNat (g.cycles - k)
        answer .ok
          (.captureRead
            { serial := c.serial, event := c.event, member := memberView m, first := g.first
              firstTime := g.firstTime, pre := g.pre, held := g.cycles, count := count
              samples := ((memberSamples g member.toNat).drop (128 * k)).take (128 * count) }) s
    | _, _ => refuse .notFound s

end Sys2Proof.Machine
end

