-- ==== Sys2Proof/Machine/Harmonic.lean ====
section
/-!
DEFINITION. The harmonic engine: windows, the transform, intervals and their records (R97 to R115).
-/
namespace Sys2Proof.Machine

/-! ### Windows (R97, R100) -/

/-- The table step of order h at sample n: (8 h n) mod 1,024. -/
def tableIndex (h n : Nat) : Nat := 8 * h * n % 1024

/-- Adds `f h` to the sum of each order h from 1. -/
def addOrders (f : Nat → Int) (sums : List Int) : List Int :=
  sums.zipIdx.map fun x => x.1 + f (x.2 + 1)

def newWindow (first hmax : Nat) : Window :=
  { first := first, taken := 0, re := List.replicate hmax 0, im := List.replicate hmax 0 }

/-- R97: a sample into the window, with the tracker state of the frame. -/
def Window.add (x : Sample) (track : TrackerState) (w : Window) : Window :=
  { w with
    taken := w.taken + 1
    re := addOrders (fun h => x.value * cosTable (tableIndex h w.taken)) w.re
    im := addOrders (fun h => x.value * sinTable (tableIndex h w.taken)) w.im
    gap := w.gap || x.gap
    overrange := w.overrange || x.overrange
    unlocked := w.unlocked || track == .acquiring || track == .holdover
    fixed := w.fixed || track == .fixed }

/-- R97: a frame for one member position of an enabled site while RECORDING. A window in progress is
held from its first sample on, so during its first frame there is none yet.
(DESIGN CHOICE, unsafe: log 34.) -/
def harmPosition (frame : Nat) (samples : List (Nat × Sample)) (track : TrackerState) (e : Site)
    (m : Option Member) (x : HarmMember) : HarmMember :=
  match m with
  | some p =>
    match p.active && e.settings.enabled, sampleOf samples p.slot with
    | true, some sample =>
      match x.window with
      | some w => if w.taken < 1024 then { x with window := some (w.add sample track) } else x
      | none =>
        if frame % 1024 = 0 then
          { x with window := some ((newWindow frame e.settings.hmax).add sample track) }
        else x
    | _, _ => x
  | none => x

def harmFrame (frame : Nat) (samples : List (Nat × Sample)) (s : State) : State :=
  if recording s then
    { s with harm := { s.harm with
        sites := (s.harm.sites.zip s.sites).map fun y =>
          { y.1 with
            members := (y.1.members.zip y.2.members).map fun z =>
              harmPosition frame samples s.tracker.frameState y.2 z.2 z.1 } } }
  else s

/-! ### Magnitudes (R101, R102) -/

/-- 1,024 x 32,767 x 32,768. -/
def magnitudeDivisor : Nat := 1099478073344

/-- round(√n / d), halves up. -/
def rootRound (n d : Nat) : Nat := (isqrt (4 * n) + d) / (2 * d)

/-- R101: the magnitude of one order. -/
def magnitude (re im : Int) (fullScale : Nat) : Nat :=
  rootRound (2 * (re.natAbs * re.natAbs + im.natAbs * im.natAbs) * (100 * fullScale) ^ 2)
    magnitudeDivisor

def sumSquares (ms : List Nat) : Nat := (ms.map fun m => m * m).sum

/-- R102: absent when the fundamental is too small; capped at 9,999. -/
def thdOf (kind : PodKind) (udin fullScale : Nat) (ms : List Nat) : Option Nat :=
  match ms with
  | [] => none
  | m1 :: rest =>
    let small := match kind with
      | .voltage => decide (m1 < udin)
      | .current => decide (2 * m1 < fullScale)
    if small || m1 == 0 then none
    else some (Nat.min 9999 (rootRound (sumSquares rest * 1000000) m1))

/-! ### Interval accumulators (R105 to R108) -/

def newAccumulator (m : Member) (hmax : Nat) (time : ClockTime) (frame : Nat) (flagged : Bool) :
    Accumulator :=
  { slot := m.slot, serial := m.serial, startTime := time, firstFrame := frame
    sumSq := List.replicate hmax 0, maxM := List.replicate hmax 0, flags := { flagged := flagged } }

/-- R106, R108: a counted window. -/
def Accumulator.count (r : WindowResult) (a : Accumulator) : Accumulator :=
  let thd := r.thd.getD 0
  { a with
    n := a.n + 1
    sumSq := (a.sumSq.zip r.magnitudes).map fun x => x.1 + x.2 * x.2
    maxM := (a.maxM.zip r.magnitudes).map fun x => Nat.max x.1 x.2
    thdSum := a.thdSum + thd
    thdCount := a.thdCount + r.thd.toList.length
    thdMax := Nat.max a.thdMax thd
    freqSum := a.freqSum + r.freq
    freqMin := if a.n = 0 then r.freq else Nat.min a.freqMin r.freq
    freqMax := Nat.max a.freqMax r.freq
    flags :=
      { a.flags with
        clipped := a.flags.clipped || r.overrange
        fixedFreq := a.flags.fixedFreq || r.fixed
        calExpired := a.flags.calExpired || r.calDue } }

/-- R106, R108: an excluded window. -/
def Accumulator.exclude (unlocked calDue : Bool) (a : Accumulator) : Accumulator :=
  { a with
    excluded := a.excluded + 1
    flags :=
      { a.flags with
        freqUnlocked := a.flags.freqUnlocked || unlocked
        calExpired := a.flags.calExpired || calDue } }

/-- R99, R101 to R103: the result of a counted window. -/
def windowResult (s : State) (site role : Nat) (slot : Nat) (w : Window) : WindowResult :=
  let fullScale := ((entryOf s slot).identity.map (·.fullScale)).getD 0
  let ms := (w.re.zip w.im).map fun x => magnitude x.1 x.2 fullScale
  { first := w.first, magnitudes := ms
    thd := thdOf (roleKind role) (siteOf s site).settings.udin fullScale ms
    freq := s.tracker.frameFreq, overrange := w.overrange, fixed := w.fixed
    calDue := (entryOf s slot).calDue }

/-- R99: a window of 1,024 frames is waiting for its judgement. -/
def windowDue (x : HarmMember) : Bool :=
  match x.window with
  | some w => w.taken == 1024
  | none => false

/-- R99: the judgement of a complete window and its hand-over. -/
def judgeWindow (s : State) (site role slot : Nat) (w : Window) (x : HarmMember) : HarmMember :=
  let calDue := (entryOf s slot).calDue
  if w.unlocked || w.gap then
    { x with window := none, acc := x.acc.map (Accumulator.exclude w.unlocked calDue) }
  else
    let r := windowResult s site role slot w
    { x with
      window := none, latest := some r
      acc := x.acc.map (Accumulator.count r) }

def windowComplete (site role : Nat) (s : State) : State :=
  let x := harmMember s site role
  match x.window, memberOf s site role with
  | some w, some m =>
    if w.taken = 1024 then modifyHarmMember (judgeWindow s site role m.slot w) site role s else s
  | _, _ => s

/-! ### Event marks (R107) -/

/-- An event of the site opens at boundary `o`: open accumulators take FLAGGED, but not one that
closes at the frame `o` itself. -/
def markOpen (site o : Nat) (s : State) : State :=
  modifyHarm
    (fun h =>
      { h with
        mark := some o
        members :=
          if h.due then h.members
          else h.members.map fun x =>
            { x with acc := x.acc.map fun a => { a with flags := { a.flags with flagged := true } } } })
    site s

/-- The event of the site is told closed at `c`: an accumulator that opened at `c` shares no frame
with it. (DEDUCED, safe: log 26.) -/
def markClose (site : Nat) (c : Option Nat) (s : State) : State :=
  modifyHarm
    (fun h =>
      { h with
        mark := none
        members := h.members.map fun x =>
          { x with acc := x.acc.map fun a =>
              if some a.firstFrame = c then { a with flags := { a.flags with flagged := false } }
              else a } })
    site s

/-! ### Interval boundaries (R104) -/

/-- The boundary after a clock time, on the CLOCK basis. -/
def clockBoundary (t : ClockTime) (minutes : Nat) : ClockTime :=
  let step := 60 * minutes
  let n := (t.sec / step + 1) * step
  ⟨if n < 4294967296 then n else 0, 0⟩

/-- The boundary after a boundary (or after the run start), on either basis. -/
def nextBoundary (basis : Basis) (t : ClockTime) (minutes : Nat) : ClockTime :=
  match basis with
  | .clock => clockBoundary t minutes
  | .run => ⟨(t.sec + 60 * minutes) % 4294967296, t.ms⟩

/-! ### Closing (R109 to R113) -/

/-- The mean of an order: round(√(sum / n)), halves up. -/
def orderMean (sum n : Nat) : Nat := (isqrt (4 * sum / n) + 1) / 2

/-- R109, R110: the record of an accumulator with n of 1 or more. -/
def recordOf (s : State) (site role : Nat) (endTime : ClockTime) (isPartial : Bool)
    (a : Accumulator) : IntervalRecord :=
  { number := s.survey.number, site := site, role := roleOf role, slot := a.slot
    serial := a.serial, startTime := a.startTime, endTime := endTime, n := a.n
    excluded := a.excluded
    flags := { a.flags with partialClose := isPartial }
    freqMean := (2 * a.freqSum + a.n) / (2 * a.n), freqMin := a.freqMin, freqMax := a.freqMax
    thd :=
      if a.thdCount = 0 then none
      else some ((2 * a.thdSum + a.thdCount) / (2 * a.thdCount), a.thdMax)
    orders := (a.sumSq.zip a.maxM).map fun x => (orderMean x.1 a.n, x.2) }

/-- R111: a record goes to the write queue, or waits in its closing place. -/
def placeRecord (r : IntervalRecord) (moment site role : Nat) (counts : CloseCounts) (s : State) :
    CloseCounts × State :=
  if queueRoom s.store && storeUp s.store then
    ({ counts with queued := counts.queued + 1 },
      queueInterval r (modifyHarmMember (fun x => { x with place := none }) site role s))
  else
    ({ counts with waiting := counts.waiting + 1 },
      modifyHarmMember (fun x => { x with place := some (r, moment) }) site role s)

/-- R111: a record at its close; one that still waits at its position is dropped and counted, and so
is every record while the store is FULL. -/
def handRecord (r : IntervalRecord) (moment site role : Nat) (counts : CloseCounts) (s : State) :
    CloseCounts × State :=
  if s.store.state = .full then ({ counts with dropped := counts.dropped + 1 }, dropInterval s)
  else if (harmMember s site role).place.isSome then
    placeRecord r moment site role { counts with dropped := counts.dropped + 1 } (dropInterval s)
  else placeRecord r moment site role counts s

/-- How accumulators close: at a moment, with an end time, with PARTIAL for all or for lost members
alone, and with the frame and time at which fresh ones open, or none. -/
structure Closing where
  moment : Nat
  endTime : ClockTime
  allPartial : Bool
  fresh : Option (Nat × ClockTime)

/-- The accumulator that follows a closed one (R105, R107, R109, R110). -/
def freshFor (s : State) (site role : Nat) (c : Closing) : Option Accumulator :=
  match c.fresh, memberOf s site role with
  | some (frame, time), some m =>
    some (newAccumulator m (siteOf s site).settings.hmax time frame (harmSite s site).mark.isSome)
  | _, _ => none

/-- Closes the accumulator of one position. -/
def closePosition (c : Closing) (site : Nat) (acc : CloseCounts × State) (role : Nat) :
    CloseCounts × State :=
  let (counts, s) := acc
  let x := harmMember s site role
  match x.acc with
  | none => acc
  | some a =>
    let counts := { counts with closed := counts.closed + 1 }
    let s := modifyHarmMember
      (fun x => { x with acc := freshFor s site role c, lossDue := false }) site role s
    if a.n = 0 then
      ({ counts with empty := counts.empty + 1 },
        modifyHarm (fun h => { h with empty := satInc max32 h.empty }) site s)
    else
      handRecord (recordOf s site role c.endTime (c.allPartial || x.lossDue) a) c.moment site role
        counts s

/-- Closes the accumulators of some positions of a site and posts INTERVAL_CLOSE (R113). -/
def closeSite (c : Closing) (causes : CloseCauses) (roles : List Nat) (s : State) (site : Nat) :
    State :=
  let lost := roles.any fun role => (harmMember s site role).lossDue
  let (counts, s) := roles.foldl (closePosition c site) ({}, s)
  postWhen (0 < counts.closed)
    (.intervalClose site { causes with memberLoss := causes.memberLoss || lost } c.endTime counts) s

def allRoles : List Nat := List.range 8

/-- A close moment begins: the start of a frame, or an ACQ reset (R109, R110). Every close of the moment
carries its number (R111). -/
def nextMoment (s : State) : State :=
  { s with harm := { s.harm with moments := s.harm.moments + 1 } }

/-- R109: the site's close frame. -/
def intervalBoundary (site : Nat) (s : State) : State :=
  let h := harmSite s site
  match h.due, h.next, h.basis with
  | true, some boundary, some basis =>
    let s := modifyHarm
      (fun h =>
        { h with
          due := false
          next := some (nextBoundary basis boundary (siteOf s site).settings.interval) }) site s
    storeNext
      (closeSite ⟨s.harm.moments, boundary, false, some (s.bus.frame, boundary)⟩ { boundary := true }
        allRoles s site)
  | _, _, _ => s

/-- R104: the site's boundary has been reached at a clock time. -/
def boundaryReached (s : State) (time : ClockTime) (h : HarmSite) : Bool :=
  match h.next with
  | some t => recording s && atOrAfter time t
  | none => false

/-- R104: the frame that begins is a close frame of the sites whose boundary has been reached. -/
def intervalsAtFrame (s : State) : State :=
  { s with harm := { s.harm with
      sites := s.harm.sites.map fun h => { h with due := h.due || boundaryReached s s.bus.frameTime h } } }

/-- R110: the closes by loss of the frame before, but where another close of this frame takes them, in
site order. (DEDUCED, unsafe: log 14.) -/
def lossCloses (s : State) : State :=
  if !(allPositions.any fun p => (harmMember s p.1 p.2).lossDue) then s
  else
    let frame := s.bus.frame
    let time := s.bus.frameTime
    storeNext
      ((List.range 4).foldl
        (fun s site =>
          if (harmSite s site).due then s
          else
            closeSite ⟨s.harm.moments, time, true, some (frame, time)⟩ {}
              (allRoles.filter fun role => (harmMember s site role).lossDue) s site) s)

/-! ### Starts, stops, leaves and resets (R98, R105, R110, R115) -/

/-- R104, R105: a start boundary fixes the basis, by CLOCK_VALID as its frame began, and opens the
accumulators. -/
def startSite (frame : Nat) (time : ClockTime) (valid : Bool) (e : Site) (h : HarmSite) : HarmSite :=
  let basis : Basis := if valid then .clock else .run
  if e.settings.enabled then
    { h with
      basis := some basis, next := some (nextBoundary basis time e.settings.interval), due := false
      members := (h.members.zip e.members).map fun x =>
        { x.1 with
          acc := x.2.map fun m => newAccumulator m e.settings.hmax time frame h.mark.isSome
          lossDue := false } }
  else { h with basis := some basis, next := some (nextBoundary basis time e.settings.interval) }

def harmStarts (s : State) : State :=
  { s with harm := { s.harm with
      sites := (s.harm.sites.zip s.sites).map fun x =>
        startSite s.bus.frame s.bus.frameTime s.bus.frameValid x.2 x.1 } }

/-- R98: the windows in progress of a site are abandoned and counted. -/
def abandonSite (h : HarmSite) : HarmSite :=
  { h with
    abandoned := Nat.min max32
      (h.abandoned + (h.members.filter fun x => x.window.isSome && !windowDue x).length)
    members := h.members.map fun x => { x with window := none } }

def abandonWindows (s : State) : State :=
  { s with harm := { s.harm with sites := s.harm.sites.map abandonSite } }

/-- The site's interval boundary passes without a close frame of its own. -/
def boundaryPasses (site : Nat) (s : State) : State :=
  match (harmSite s site).next, (harmSite s site).basis with
  | some t, some basis =>
    modifyHarm
      (fun h =>
        { h with
          due := false
          next := some (nextBoundary basis t (siteOf s site).settings.interval) }) site s
  | _, _ => s

/-- R110: the closes of a stop boundary or an ACQ reset at a clock time. Where a site's close frame
falls here too, its end time is the interval boundary's clock time. The sites close in the order 0 to 3,
and so their records are queued. (DEDUCED, unsafe: log 14.) -/
def partialCloses (causes : CloseCauses) (time : ClockTime) (fresh : Option Nat) (s : State) :
    State :=
  (List.range 4).foldl
    (fun s site =>
      let h := harmSite s site
      let due := h.due || boundaryReached s time h
      let endTime := if due then h.next.getD time else time
      closeSite ⟨s.harm.moments, endTime, true, fresh.map fun frame => (frame, endTime)⟩
        { causes with boundary := due } allRoles (if due then boundaryPasses site s else s) site) s

/-- R98, R104, R110: the engine's part of a stop boundary. -/
def harmStops (s : State) : State :=
  let s := partialCloses { stop := true } s.bus.frameTime none (abandonWindows s)
  { s with harm := { s.harm with
      sites := s.harm.sites.map fun h => { h with basis := none, next := none, due := false } } }

/-- R98, R103, R110, R115: the engine's part of an ACQ reset. -/
def harmAcqReset (s : State) : State :=
  let s := abandonWindows s
  let s :=
    if recording s then partialCloses { acqReset := true } s.clock.time (some 0) (nextMoment s) else s
  { s with harm := { s.harm with
      sites := s.harm.sites.map fun h =>
        { h with mark := none, members := h.members.map fun x => { x with latest := none } } } }

/-- R98, R110: the pod of a member position has left service. -/
def harmLeave (site role : Nat) (s : State) : State :=
  let x := harmMember s site role
  let abandons := x.window.isSome && !windowDue x
  let s := modifyHarmMember
    (fun x =>
      { x with
        window := if windowDue x then x.window else none
        lossDue := x.acc.isSome }) site role s
  modifyHarm
    (fun h =>
      { h with abandoned := if abandons then satInc max32 h.abandoned else h.abandoned }) site s

/-! ### HARMONIC_STATUS (R114) -/

def harmView (role : Nat) (m : Member) (x : HarmMember) : HarmView where
  role := roleOf role
  slot := m.slot
  serial := m.serial
  active := m.active
  window := x.window.map fun w => (w.first, w.taken)
  acc := x.acc.map fun a => (a.startTime, a.n, a.excluded, a.flags)
  waiting := x.place.isSome
  latest := x.latest.map fun r => (r.first, r.magnitudes.headD 0, r.thd, r.freq)

def harmonicStatus (site : Byte) (s : State) : State :=
  let i := site.toNat
  let h := harmSite s i
  if 3 < i then refuse .badValue s
  else
    answer .ok
      (.harmonicStatus h.basis h.next h.mark h.abandoned h.empty
        (((siteOf s i).members.zip h.members).zipIdx.filterMap fun x =>
          x.1.1.map fun m => harmView x.2 m x.1.2)) s

end Sys2Proof.Machine
end

