-- ==== Sys2Proof/Machine/Sag.lean ====
section
/-!
DEFINITION. The sag detector: windows, values, channel states, the site's event and its record (R59
to R81).
-/
namespace Sys2Proof.Machine

/-! ### Windows and values (R59 to R62) -/

/-- R59: a corrected sample enters a window of 128. -/
def windowAdd (x : Sample) (w : List Sample) : List Sample := (x :: w).take 128

/-- R59: a frame's sample for one channel, whose member is assigned and active. -/
def Channel.feed (samples : List (Nat × Sample)) (m : Option Member) (c : Channel) : Channel :=
  match m with
  | some p =>
    match p.active, sampleOf samples p.slot with
    | true, some x => { c with window := windowAdd x c.window }
    | _, _ => c
  | none => c

def sagFrame (samples : List (Nat × Sample)) (s : State) : State :=
  { s with sag := { s.sag with
      sites := (s.sag.sites.zip s.sites).map fun x =>
        { x.1 with channels := (x.1.channels.zip x.2.members).map fun y =>
            y.1.feed samples y.2 } } }

/-- R60: the exact sum of the squares. -/
def sumsq (w : List Sample) : Nat := (w.map fun x => x.value.natAbs * x.value.natAbs).sum

/-- R60: the largest n for which 128 n² is at most the sum. -/
def rmsOf (sum : Nat) : Nat := isqrt (sum / 128)

/-- R61: the voltage in cV. -/
def voltageOf (rms fullScale : Nat) : Nat := (2 * (rms * fullScale * 100) + 32768) / 65536

/-- R61: the residual in tenths of a percent, capped at 2,000. -/
def residualOf (u udin : Nat) : Nat := Nat.min 2000 (u * 10 / udin)

/-- R60 to R62: the value of a full window. -/
def valueOf (w : List Sample) (fullScale udin : Nat) : Value :=
  let u := voltageOf (rmsOf (sumsq w)) fullScale
  ⟨u, residualOf u udin, w.any (·.overrange), w.any (·.gap)⟩

/-- R60: the value of a channel at a boundary, where it is judged. -/
def channelValue (s : State) (site role : Nat) : Option Value :=
  let settings := (siteOf s site).settings
  let w := (channelOf s site role).window
  match memberOf s site role with
  | some m =>
    if recording s && settings.enabled && m.active && w.length == 128 then
      some (valueOf w (((entryOf s m.slot).identity.map (·.fullScale)).getD 0) settings.udin)
    else none
  | none => none

/-! ### Channel states (R64 to R67) -/

/-- What a channel's move tells the site's aggregation. -/
inductive Move where
  | still
  /-- It reached SAG; its sag start. -/
  | sagged (start : Nat)
  /-- It recovered at a boundary, with its run minimum and half-cycles in sag. -/
  | recovered (recovery minR half : Nat)
  /-- Its pod was lost while it held (R75); the recovery is the boundary of loss. -/
  | lost (minR half : Nat)
  deriving DecidableEq, Repr

/-- NORMAL, with no candidate and no run statistics. -/
def Channel.rest (c : Channel) : Channel :=
  { c with
    state := .normal, run := 0, candidate := none, sagStart := none, minR := none, lost := false }

/-- R66: half-cycles in sag at a recovery. -/
def Channel.halves (c : Channel) (recovery : Nat) : Nat :=
  Nat.min 65535 (halfCycles recovery (c.sagStart.getD recovery))

/-- A recovery at a boundary (R65). -/
def Channel.recover (recovery minR : Nat) (c : Channel) : Channel × Move :=
  (c.rest, .recovered recovery minR (c.halves recovery))

/-- R64, R66: a value taken at boundary `b` with confirm count `nc`. -/
def Channel.take (b nc : Nat) (below recovered : Bool) (r : Nat) (c : Channel) : Channel × Move :=
  let least := Nat.min r (c.minR.getD r)
  match c.state with
  | .normal =>
    if below then
      if nc ≤ 1 then
        ({ c with state := .sag, run := 0, sagStart := some b, minR := some r }, .sagged b)
      else
        ({ c with state := .pendingIn, run := 1, candidate := some b, minR := some r }, .still)
    else (c, .still)
  | .pendingIn =>
    if below then
      if c.run + 1 < nc then ({ c with run := c.run + 1, minR := some least }, .still)
      else
        let start := c.candidate.getD b
        ({ c with
            state := .sag, run := 0, candidate := none, sagStart := some start
            minR := some least }, .sagged start)
    else (c.rest, .still)
  | .sag =>
    if recovered then
      if nc ≤ 1 then c.recover b least
      else
        ({ c with state := .pendingOut, run := 1, candidate := some b, minR := some least }, .still)
    else ({ c with minR := some least }, .still)
  | .pendingOut =>
    if recovered then
      if c.run + 1 < nc then ({ c with run := c.run + 1, minR := some least }, .still)
      else c.recover (c.candidate.getD b) least
    else
      ({ c with state := .sag, run := 0, candidate := none, minR := some least }, .still)

/-- The channel is in SAG or PENDING_OUT. -/
def Channel.holds (c : Channel) : Bool := c.state == .sag || c.state == .pendingOut

/-- R75: the channel at its boundary of loss. -/
def Channel.loseAt (b : Nat) (c : Channel) : Channel × Move :=
  (c.rest, if c.holds then .lost (c.minR.getD 0) (c.halves b) else .still)

/-- The thresholds of a site: below, and recovered (4.3). -/
def isBelow (x : Settings) (r : Nat) : Bool := r < x.st
def isRecovered (x : Settings) (r : Nat) : Bool := Nat.min (x.st + x.h) 1000 ≤ r

/-- What SAG_STATUS shows of a channel after a boundary, with its value or none (R81). -/
def Channel.shown (v : Option Value) (c : Channel) : Channel :=
  { c with judged := v.isSome, last := v.or c.last, held := c.window.length }

/-- A channel at a boundary: R75 for a loss, R64 for a value and R67 for neither. -/
def Channel.atBoundary (b : Nat) (x : Settings) (v : Option Value) (c : Channel) : Channel × Move :=
  if c.lost then
    let (c, move) := c.loseAt b
    (c.shown none, move)
  else
    match v with
    | some v =>
      let (c, move) := c.take b x.nc (isBelow x v.r) (isRecovered x v.r) v.r
      (c.shown (some v), move)
    | none => (c.shown none, .still)

/-! ### Boundary history (R63) -/

/-- The record of the boundary that the frame in progress began. -/
def boundaryRecord (s : State) (site : Nat) (values : List Value) : Boundary where
  frame := s.bus.frame
  time := s.bus.frameTime
  locked := s.tracker.frameState == .locked || s.tracker.frameState == .fixed
  reversed := (rotationOf s site).state == .reversed
  clipped := values.any (·.clipped)
  gapped := values.any (·.gapped)

/-- Enters a boundary; the four most recent are kept, and one boundary is entered once. -/
def SagSite.enter (b : Boundary) (g : SagSite) : SagSite :=
  if (g.history.head?.map (·.frame)) = some b.frame then g
  else { g with history := (b :: g.history).take 4 }

def SagSite.timeOf (g : SagSite) (frame : Nat) : Option ClockTime :=
  (g.history.find? fun b => b.frame == frame).map (·.time)

/-! ### Flags (R73, R74) -/

/-- R73: the flags that one boundary of the span gives. -/
def EventFlags.at (f : EventFlags) (b : Boundary) : EventFlags :=
  { f with
    freqUnlocked := f.freqUnlocked || !b.locked
    rotationReversed := f.rotationReversed || b.reversed
    clipped := f.clipped || b.clipped
    probeGap := f.probeGap || b.gapped }

/-- R74: an involved channel whose member is active is on a slot with CAL_DUE. -/
def calExpired (s : State) (site : Nat) (involved : List Involved) : Bool :=
  involved.any fun e =>
    match memberOf s site e.role.code with
    | some m => m.active && (entryOf s m.slot).calDue
    | none => false

/-- The flags of the boundary just entered, on an open event. -/
def flagBoundary (s : State) (site : Nat) (e : OpenEvent) : OpenEvent :=
  let flags := match (sagSite s site).history with
    | b :: _ => e.flags.at b
    | [] => e.flags
  { e with flags := { flags with calExpired := flags.calExpired || calExpired s site e.involved } }

/-! ### The involved list (R70, R75) -/

def newInvolved (s : State) (site : Nat) (role : Role) : Involved :=
  { role := role, serial := ((memberOf s site role.code).map (·.serial)).getD 0, minR := 2000
    half := 0, recovery := none, holding := true }

/-- A channel that reached SAG enters the list in role order, or holds again. -/
def joinInvolved (s : State) (site : Nat) (role : Role) (xs : List Involved) : List Involved :=
  if xs.any fun e => e.role == role then
    xs.map fun e => if e.role = role then { e with holding := true } else e
  else insertBy (fun e => e.role.code) (newInvolved s site role) xs

/-- An entry takes the statistics of a completed sag and the recovery, and stops holding. -/
def Involved.finish (recovery minR half : Nat) (e : Involved) : Involved :=
  { e with
    minR := Nat.min e.minR minR, half := Nat.min 65535 (e.half + half)
    recovery := some recovery, holding := false }

def finishInvolved (role : Role) (recovery minR half : Nat) (xs : List Involved) : List Involved :=
  xs.map fun e => if e.role = role then e.finish recovery minR half else e

/-- One channel's move, taken into the open event at boundary `b`. -/
def takeMove (s : State) (site b : Nat) (e : OpenEvent) (x : Role × Move) : OpenEvent :=
  match x.2 with
  | .still => e
  | .sagged _ => { e with involved := joinInvolved s site x.1 e.involved }
  | .recovered recovery minR half =>
    { e with involved := finishInvolved x.1 recovery minR half e.involved }
  | .lost minR half =>
    { e with
      involved := finishInvolved x.1 b minR half e.involved
      flags := { e.flags with probeLost := true } }

/-! ### Opening (R69) -/

def setEvent (e : Option OpenEvent) (site : Nat) (s : State) : State :=
  modifySag (fun g => { g with event := e }) site s

/-- The earliest of some sag starts, seen from boundary `b`. -/
def earliest (b : Nat) (starts : List Nat) : Nat :=
  starts.foldl (fun best x => if frameDiff b best < frameDiff b x then x else best) b

/-- R69: the site's event opens at boundary `b` with the channels that reached SAG there. -/
def openEvent (site b : Nat) (sagged : List (Role × Nat)) (s : State) : State :=
  let start := earliest b (sagged.map (·.2))
  let (id, st) := drawId .event s.store
  let s := { s with store := st }
  let overlap := captureOverlap s site
  let (capture, s) := claimSlot id site start b s
  let g := sagSite s site
  let span := g.history.filter fun x => frameDiff b x.frame ≤ frameDiff b start
  let involved := sagged.foldl (fun xs x => joinInvolved s site x.1 xs) []
  let flags := span.foldl EventFlags.at {}
  let atStart := s.sag.runBoundary == some start
  let startTime := (g.timeOf start).getD s.bus.frameTime
  let e : OpenEvent :=
    { id := id, startFrame := start, startTime := startTime, opening := b, involved := involved
      flags :=
        { flags with
          calExpired := calExpired s site involved, atStart := atStart, overlap := overlap
          noCapture := capture.isNone }
      capture := capture }
  let s := markOpen site b (setEvent (some e) site s)
  post (.eventOpen id site start startTime (sagged.map (·.1)) capture atStart overlap
    capture.isNone) s

/-! ### Closing (R71, R72, R78 to R80) -/

/-- R71: the latest recovery, seen from closing boundary `c`. -/
def endBoundary (c : Nat) (e : OpenEvent) : Nat :=
  match e.involved.filterMap (·.recovery) with
  | [] => c
  | x :: rest => rest.foldl (fun best y => if frameDiff c y < frameDiff c best then y else best) x

/-- R72: the entry with the lowest minimum, first in role order. -/
def worstOf (involved : List Involved) : Role × Nat :=
  match involved with
  | [] => (.l1, 0)
  | x :: rest =>
    rest.foldl (fun best y => if y.minR < best.2 then (y.role, y.minR) else best) (x.role, x.minR)

/-- R71, R72, R78: the record of an event that closes at boundary `c`. -/
def eventRecord (s : State) (site c : Nat) (e : OpenEvent) : EventRecord :=
  let x := (siteOf s site).settings
  let stop := endBoundary c e
  let stopTime := ((sagSite s site).timeOf stop).getD s.bus.frameTime
  let n := halfCycles stop e.startFrame
  let worst := worstOf e.involved
  { id := e.id, number := s.survey.number, site := site, interruption := worst.2 < x.ti
    startTime := e.startTime, endTime := stopTime, half := Nat.min 65535 n
    ms := msBetween stopTime e.startTime, minR := worst.2, worst := worst.1, udin := x.udin
    flags := { e.flags with long := 65535 < n }
    capture := e.capture
    involved := e.involved.map fun i => (i.role, i.serial, i.minR, i.half) }

/-- R88: the capture unit is told of the close at boundary `c`. -/
def closeCapture (site c : Nat) (e : OpenEvent) (s : State) : State :=
  match e.capture with
  | some p => modifyCapture (closeSlot s site c) p.1 s
  | none => s

/-- R80: what EVENT_CLOSE carries. -/
def eventSummary (r : EventRecord) : EventSummary where
  id := r.id
  site := r.site
  interruption := r.interruption
  startTime := r.startTime
  endTime := r.endTime
  half := r.half
  ms := r.ms
  minR := r.minR
  worst := r.worst
  flags := r.flags
  capture := r.capture

/-- R71, R79, R80: the event closes at boundary `c`. Its open span ends before `told` (R107); none at
an ACQ reset, where it ends with the last delivered frame. -/
def closeEvent (site c : Nat) (told : Option Nat) (e : OpenEvent) (s : State) : State :=
  let r := eventRecord s site c e
  let s := markClose site told (setEvent none site (closeCapture site c e s))
  let (queued, s) := offerEvent r s
  let r := { r with flags := { r.flags with clockUnset := queued && !s.clock.valid } }
  post (.eventClose (eventSummary r) (!queued)) s

/-- R76, R77: the holding entries take boundary `c` as their recovery; R75: PROBE_LOST for a channel
whose pod has left since the last boundary. -/
def forceInvolved (g : SagSite) (c : Nat) (i : Involved) : Involved :=
  let ch := g.channels.getD i.role.code {}
  if i.holding then i.finish c (ch.minR.getD 2000) (ch.halves c) else i

def forceEvent (g : SagSite) (c : Nat) (e : OpenEvent) : OpenEvent :=
  let lost := e.involved.any fun i => i.holding && (g.channels.getD i.role.code {}).lost
  { e with
    involved := e.involved.map (forceInvolved g c)
    flags := { e.flags with truncated := true, probeLost := e.flags.probeLost || lost } }

/-- R76, R77: a site's open event closes TRUNCATED at boundary `c`; at a stop boundary that boundary
gives its flags too. -/
def forceClose (c : Nat) (atStop : Bool) (s : State) (site : Nat) : State :=
  match (sagSite s site).event with
  | some e =>
    let e := forceEvent (sagSite s site) c e
    if atStop then closeEvent site c (some c) (flagBoundary s site e) s
    else closeEvent site c none e s
  | none => s

def allSites : List Nat := List.range 4

/-! ### The half-cycle boundary (R68) -/

/-- The three channels of a site at boundary `b`, and its history entry. -/
def moveChannels (b : Nat) (s : State) (site : Nat) : List (Role × Move) × State :=
  let x := (siteOf s site).settings
  let values := (List.range 3).map fun role => channelValue s site role
  let moved := (sagSite s site).channels.zipIdx.map fun c =>
    (roleOf c.2, c.1.atBoundary b x (values.getD c.2 none))
  (moved.map fun m => (m.1, m.2.2),
    modifySag
      (fun g => { g.enter (boundaryRecord s site (values.filterMap id)) with
          channels := moved.map (·.2.1) }) site s)

def sagStarts (moves : List (Role × Move)) : List (Role × Nat) :=
  moves.filterMap fun m =>
    match m.2 with
    | .sagged start => some (m.1, start)
    | _ => none

/-- The site acts on its channels' moves. -/
def siteActs (b site : Nat) (moves : List (Role × Move)) (s : State) : State :=
  match (sagSite s site).event with
  | some e =>
    let e := flagBoundary s site (moves.foldl (takeMove s site b) e)
    if e.involved.any (·.holding) then setEvent (some e) site s else closeEvent site b (some b) e s
  | none =>
    match sagStarts moves with
    | [] => s
    | starts => openEvent site b starts s

/-- R69: which site that opens an event draws first is not fixed. -/
def drawOrder (opening : List Nat) (s : State) : List Nat × State :=
  if opening.length < 2 then (opening, s)
  else
    let (n, s) := drawFree s
    (sortBy (Config.openRank n) opening, s)

/-- The channels of every site at boundary `b`, with their moves. -/
def allChannels (b : Nat) (s : State) : List (List (Role × Move)) × State :=
  allSites.foldl
    (fun acc site =>
      let (m, s) := moveChannels b acc.2 site
      (acc.1 ++ [m], s)) ([], s)

/-- R63, R68: the detector's work at the boundary that the frame in progress began. -/
def sagBoundary (s : State) : State :=
  let b := s.bus.frame
  let (moves, s) := allChannels b s
  let opens := fun site =>
    (sagSite s site).event.isNone && !(sagStarts (moves.getD site [])).isEmpty
  let (order, s) := drawOrder (allSites.filter opens) s
  let s := (allSites.filter (fun site => !opens site) ++ order).foldl
    (fun s site => siteActs b site (moves.getD site []) s) s
  { s with sag := { s.sag with lastBoundary := some b } }

/-! ### Stops, leaves and resets (R59, R75 to R77) -/

/-- R76: the detector's part of a stop boundary, up to the closes. -/
def sagStop (s : State) : State :=
  let b := s.bus.frame
  let s := allSites.foldl
    (fun s site => modifySag (SagSite.enter (boundaryRecord s site [])) site s) s
  allSites.foldl (forceClose b true) s

def SagSite.rest (g : SagSite) : SagSite :=
  { g with channels := g.channels.map fun c => c.rest.shown none }

/-- R64, R76: after the closes of a stop boundary every channel is NORMAL; the windows are kept. -/
def sagRest (s : State) : State :=
  { s with sag :=
    { sites := s.sag.sites.map SagSite.rest, lastBoundary := some s.bus.frame, runBoundary := none } }

/-- R75: the pod of a channel has left service. -/
def sagLeave (site role : Nat) (s : State) : State :=
  if role < 3 then modifyChannel (fun c => { c with window := [], lost := true }) site role s else s

/-- R77: the closes of an ACQ reset, at the last boundary that passed. -/
def sagAcqCloses (s : State) : State :=
  allSites.foldl (forceClose (s.sag.lastBoundary.getD 0) false) s

/-- R77: after them every channel is NORMAL, and every window and history is empty. -/
def sagAcqReset (s : State) : State :=
  { s with sag := { sites := s.sag.sites.map fun _ => {}, lastBoundary := none, runBoundary := none } }

/-! ### SAG_STATUS (R81) -/

/-- A channel of SAG_STATUS, as it stands after the most recent boundary was taken (R81). -/
def channelView (c : Channel) : ChannelView :=
  ⟨c.judged, c.state, c.run, c.candidate, c.sagStart, c.minR, c.last, c.held⟩

def eventView (e : OpenEvent) : EventView :=
  ⟨e.id, e.startTime, e.involved.map fun i => (i.role, i.holding), e.flags⟩

/-- R81. (DESIGN CHOICE, unsafe: log 28.) -/
def sagStatus (site : Byte) (s : State) : State :=
  let g := sagSite s site.toNat
  if 3 < site.toNat then refuse .badValue s
  else
    answer .ok
      (.sagStatus (g.channels.map channelView) (g.event.map eventView) s.sag.lastBoundary) s

end Sys2Proof.Machine
end

