-- ==== Sys2Proof/Machine/Notes.lean ====
section
/-!
DEFINITION. Site notes: links, chains, the requests that make and change notes, and the lock (R138 to
R148).
-/
namespace Sys2Proof.Machine

/-! ### Links and chains (R138) -/

/-- The QUEUED or LIVE entry of a note. -/
def noteEntry (st : Store) (id : Nat) : Option Entry := findEntry st .note id

/-- The ids from a note back to the root of its chain, root first. -/
def backward (st : Store) : Nat → Nat → List Nat
  | 0, id => [id]
  | fuel + 1, id =>
    match ((noteEntry st id).bind (·.links.amends)).filter fun a => (noteEntry st a).isSome with
    | some a => backward st fuel a ++ [id]
    | none => [id]

/-- The ids after a note to the tail of its chain. -/
def forward (st : Store) : Nat → Nat → List Nat
  | 0, _ => []
  | fuel + 1, id =>
    match (noteEntry st id).bind (·.links.amendedBy) with
    | some next => next :: forward st fuel next
    | none => []

/-- The chain of a note, from root to tail. -/
def chainOf (st : Store) (id : Nat) : List Nat :=
  backward st st.dir.length id ++ forward st st.dir.length id

/-- The position of a note in its chain, counted from 1 at the root. -/
def depthOf (st : Store) (id : Nat) : Nat := (backward st st.dir.length id).length

/-- The note an entry of kind NOTE holds. -/
def noteContent (st : Store) (e : Entry) : Option NoteRecord :=
  match contentOf st e with
  | .note r => some r
  | _ => none

def isLocked (st : Store) (id : Nat) : Bool := id ≤ st.lockMark

def setLinks (f : Links → Links) (id : Nat) (s : State) : State :=
  setStore (Store.modifyEntry (fun e => { e with links := f e.links }) .note id) s

/-- The site of an EVENT or INTERVAL record. -/
def siteOfTarget (st : Store) (e : Entry) : Option Nat :=
  match contentOf st e with
  | .event r => some r.site
  | .interval _ r => some r.site
  | _ => none

/-! ### Making a note (R140, R141) -/

/-- R140, check 1: the text of a note. -/
def textValid (text : List Byte) : Bool :=
  1 ≤ text.length && text.length ≤ 600 && text.all printable

/-- R140: a note is queued with its id, the survey number, the clock time and CLOCK_UNSET. -/
def queueNote (site : Option Nat) (attach : Option Attach) (amends : Option Nat) (crew text : List Byte)
    (s : State) : Nat × State :=
  let (id, st) := drawId .note s.store
  let r : NoteRecord :=
    { id := id, number := s.survey.number, site := site, attach := attach, amends := amends
      crew := crew, time := s.clock.time, clockUnset := !s.clock.valid, text := text }
  (id, { s with store := st.enqueue id (.note r) { attach := attach, amends := amends } })

/-- R140, R141, the last two checks: the store FULL, then the write queue full. -/
def whenQueueOpen (f : State → State) (s : State) : State :=
  if s.store.state = .full then refuse .storeFull s
  else if !queueRoom s.store then refuse .busy s
  else f s

/-- The new note is queued, and the reply is ACCEPTED with its id. -/
def acceptNote (site : Option Nat) (attach : Option Attach) (crew text : List Byte) (s : State) :
    State :=
  whenQueueOpen (fun s =>
    let (id, s) := queueNote site attach none crew text s
    answer .accepted (.noteId id) (storeNext s)) s

/-- R140, checks 4 to 6, for a note with an attach. -/
def addAttached (site : Option Nat) (a : Attach) (crew text : List Byte) (s : State) : State :=
  match findEntry s.store a.kind a.id with
  | none => refuse (absentStatus s.store a.kind a.id) s
  | some target =>
    let targetSite := siteOfTarget s.store target
    if target.reclaim then refuse .busy s
    else if site.isSome ∧ site ≠ targetSite then refuse .badValue s
    else acceptNote targetSite (some a) crew text s

/-- R140, check 1: the fields of a NOTE_ADD, with the attach kind 0 for no attach. -/
def addFields (site kind : Byte) (crew : Crew) (text : List Byte) :
    Option (Option Nat × Option RecordKind × List Byte) :=
  let attach := attachKind? kind.toNat
  match crewLetters crew with
  | none => none
  | some letters =>
    if textValid text && (site == 0xFF || site.toNat ≤ 3) && (kind == 0 || attach.isSome) then
      some (optionalSite site, attach, letters)
    else none

/-- R140. -/
def noteAdd (site attachKind : Byte) (attachId : Word) (crew : Crew) (text : List Byte) (s : State) :
    State :=
  match addFields site attachKind crew text with
  | none => refuse .badValue s
  | some (site, kind, letters) =>
    if !storeUp s.store then refuse .busy s
    else if critical s then refuse .supply s
    else
      match kind with
      | some k => addAttached site ⟨k, attachId.toNat⟩ letters text s
      | none => acceptNote site none letters text s

/-- R141: the accepted amendment of note `id`, whose site and attach it copies. -/
def amend (id : Nat) (e : Entry) (crew text : List Byte) (s : State) : State :=
  let r := noteContent s.store e
  let attach := if e.links.attachLost then none else r.bind (·.attach)
  let (new, s) := queueNote (r.bind (·.site)) attach (some id) crew text s
  let s := setLinks (fun l => { l with amendedBy := some new }) id s
  answer .accepted (.noteId new) (storeNext s)

/-- R141. -/
def noteAmend (id : Word) (crew : Crew) (text : List Byte) (s : State) : State :=
  let n := id.toNat
  match crewLetters crew with
  | none => refuse .badValue s
  | some letters =>
    if !textValid text then refuse .badValue s
    else if !storeUp s.store then refuse .busy s
    else if critical s then refuse .supply s
    else
      match noteEntry s.store n with
      | none => refuse (absentStatus s.store .note n) s
      | some e =>
        if e.reclaim then refuse .busy s
        else if e.links.amendedBy.isSome then refuse .hasAmendment s
        else if 8 ≤ depthOf s.store n then refuse .chainLimit s
        else whenQueueOpen (amend n e letters text) s

/-! ### Attaching a written note (R142, R143) -/

/-- The note's content with the attach, and with the target's site when it had none. -/
def withAttach (a : Attach) (site : Option Nat) (r : NoteRecord) : NoteRecord :=
  { r with attach := some a, site := if r.site.isSome then r.site else site }

def replaceContent (id : Nat) (r : NoteRecord) (st : Store) : Store :=
  { st with queue := st.queue.map fun q =>
      if q.kind == .note && q.id == id then { q with content := .note r } else q }

/-- R143: a replacement of a LIVE note takes a place of the queue. -/
def queueReplacement (id : Nat) (r : NoteRecord) (st : Store) : Store :=
  { st with queue := st.queue ++ [⟨.note, id, .note r, true⟩] }

/-- R142: the accepted attach. -/
def attach (id : Nat) (e : Entry) (a : Attach) (r : NoteRecord) (s : State) : State :=
  let link := setLinks (fun l => { l with attach := some a }) id
  if e.state = .queued then answer .ok .empty (setStore (replaceContent id r) (link s))
  else
    whenQueueOpen
      (fun s => answer .ok .empty (storeNext (setStore (queueReplacement id r) (link s)))) s

/-- A replacement of the note is in the write queue. -/
def replacementQueued (st : Store) (id : Nat) : Bool :=
  st.queue.any fun q => q.kind == .note && q.id == id && q.replacement

/-- R142, checks 9 to 11. -/
def attachTo (id : Nat) (e : Entry) (a : Attach) (s : State) : State :=
  match findEntry s.store a.kind a.id, noteContent s.store e with
  | some target, some r =>
    let site := siteOfTarget s.store target
    if target.reclaim then refuse .busy s
    else if r.site.isSome ∧ r.site ≠ site then refuse .badValue s
    else attach id e a (withAttach a site r) s
  | _, _ => refuse (absentStatus s.store a.kind a.id) s

/-- R142. -/
def noteAttach (id : Word) (kind : Byte) (target : Word) (s : State) : State :=
  let n := id.toNat
  match attachKind? kind.toNat with
  | none => refuse .badValue s
  | some k =>
    if !storeUp s.store then refuse .busy s
    else if critical s then refuse .supply s
    else
      match noteEntry s.store n with
      | none => refuse (absentStatus s.store .note n) s
      | some e =>
        if e.reclaim || writeInFlight s.store .note n then refuse .busy s
        else if isLocked s.store n then refuse .locked s
        else if e.links.attach.isSome || e.links.attachLost then refuse .wrongState s
        else if 0 < e.pins then refuse .pinned s
        else attachTo n e ⟨k, target.toNat⟩ s

/-! ### Deleting (R134, R144) -/

/-- R134: a QUEUED record whose write has not begun is taken out, and its place is announced. -/
def removeQueued (kind : RecordKind) (id : Nat) (s : State) : State :=
  storeNext (announcePlace (setStore (fun st => (st.dequeue kind id).removeEntry kind id) s))

/-- R134: a LIVE record's entry becomes DEAD and its mark is owed; the reply waits for the mark. -/
def killLive (kind : RecordKind) (id : Nat) (e : Entry) (s : State) : State :=
  let s := setStore
    (Store.modifyEntry (fun e => { e with state := .dead, pins := 0, links := {} }) kind id) s
  match e.loc with
  | some loc => storeNext (setStore (fun st => { st with marks := st.marks ++ [⟨loc, .delete⟩] }) s)
  | none => s

/-- R144: the note it amended becomes the tail of its chain. -/
def unlink (e : Entry) (s : State) : State :=
  match e.links.amends with
  | some a => setLinks (fun l => { l with amendedBy := none }) a s
  | none => s

/-- R143: a replacement that is queued is taken out of the queue and its place announced. -/
def dropReplacement (id : Nat) (s : State) : State :=
  if replacementQueued s.store id then announcePlace (setStore (Store.dequeue .note id) s) else s

/-- R144, from check 4. -/
def deleteNote (id : Nat) (e : Entry) (s : State) : State :=
  if isLocked s.store id then refuse .locked s
  else if e.reclaim || writeInFlight s.store .note id then refuse .busy s
  else if 0 < e.pins then refuse .pinned s
  else if e.links.amendedBy.isSome then refuse .hasAmendment s
  else if e.state = .queued then answer .ok .empty (removeQueued .note id (unlink e s))
  else killLive .note id e (dropReplacement id (unlink e s))

/-- R144. -/
def noteDelete (id : Word) (s : State) : State :=
  let n := id.toNat
  if !storeUp s.store then refuse .busy s
  else if critical s then refuse .supply s
  else
    match noteEntry s.store n with
    | none => refuse (absentStatus s.store .note n) s
    | some e => deleteNote n e s

/-! ### The lock (R145) -/

/-- The highest NOTE id drawn since the last wipe. -/
def lastNoteId (st : Store) : Nat := st.nextIds.note - 1

/-- R145: the LOCK_MARK record is queued; the reply waits for its write. -/
def queueLock (mark : Nat) (clamped : Bool) (s : State) : State :=
  let (id, st) := drawId .lockMark s.store
  let r : LockRecord :=
    { id := id, mark := mark, time := s.clock.time, clockUnset := !s.clock.valid }
  storeNext
    { s with
      store := st.enqueue id (.lockMark r) {}
      link :=
        { s.link with current := s.link.current.map fun c => { c with clamped := clamped } } }

/-- R145. -/
def noteLock (upto : Word) (s : State) : State :=
  let n := upto.toNat
  if !storeUp s.store then refuse .busy s
  else if critical s then refuse .supply s
  else if n < s.store.lockMark then refuse .badValue s
  else
    whenQueueOpen (fun s =>
      let mark := Nat.min n (lastNoteId s.store)
      let clamped := mark != n
      if mark = s.store.lockMark then
        answer (if clamped then .okClamped else .ok) (if clamped then .lockMark mark else .empty) s
      else queueLock mark clamped s) s

/-! ### Reading (R147) -/

/-- The QUEUED and LIVE entries of a kind from an id, in order of id. -/
def listed (st : Store) (kind : RecordKind) (fromId : Nat) : List Entry :=
  sortBy (·.id) (st.dir.filter fun e => e.kind == kind && e.state != .dead && fromId ≤ e.id)

/-- The id of the next entry after the first `count`. -/
def nextListed (xs : List Entry) (count : Nat) : Option Nat := (xs.drop count).head?.map (·.id)

def countValid (count : Byte) : Bool := 1 ≤ count.toNat && count.toNat ≤ 32

def noteLine (st : Store) (e : Entry) : NoteLine :=
  let r := noteContent st e
  { id := e.id, state := e.state, pins := e.pins, site := r.bind (·.site), attach := e.links.attach
    attachLost := e.links.attachLost, amends := e.links.amends, amendLost := e.links.amendLost
    amendedBy := e.links.amendedBy, depth := depthOf st e.id, locked := isLocked st e.id
    crew := (r.map (·.crew)).getD [], time := (r.map (·.time)).getD ⟨0, 0⟩
    textLength := (r.map (·.text.length)).getD 0, reclaim := e.reclaim }

def noteMarks (st : Store) (e : Entry) : NoteMarks :=
  ⟨e.links.amendedBy, depthOf st e.id, isLocked st e.id, e.links.attachLost, e.links.amendLost⟩

/-- R147. The count is judged before BUSY. (DEDUCED, unsafe: log 20.) -/
def noteList (fromId : Word) (count : Byte) (s : State) : State :=
  if !countValid count then refuse .badValue s
  else if !storeUp s.store then refuse .busy s
  else
    let xs := listed s.store .note fromId.toNat
    answer .ok
      (.noteList s.store.lockMark ((xs.take count.toNat).map (noteLine s.store))
        (nextListed xs count.toNat)) s

/-! ### The links at mount (R139) -/

def isLive (st : Store) (kind : RecordKind) (id : Nat) : Bool :=
  match findEntry st kind id with
  | some e => e.state == .live
  | none => false

/-- The links of a note found at mount, before its amended-by. -/
def mountLinks (st : Store) (r : NoteRecord) : Links :=
  let kept := r.attach.filter fun a => isLive st a.kind a.id
  { attach := kept, attachLost := r.attach.isSome && kept.isNone, amends := r.amends
    amendLost := r.amends.isSome && !(r.amends.any (isLive st .note)) }

/-- R139: a LIVE note's links, and its amended note's amended-by. -/
def linkNote (s : State) (e : Entry) : State :=
  match noteContent s.store e with
  | some r =>
    let links := mountLinks s.store r
    let s := setLinks (fun l => { links with amendedBy := l.amendedBy }) e.id s
    match r.amends with
    | some a => setLinks (fun l => { l with amendedBy := some e.id }) a s
    | none => s
  | none => s

/-- DEDUCED, unsafe: log 25. -/
def linkNotes (s : State) : State :=
  (s.store.dir.filter fun e => e.kind == .note && e.state == .live).foldl linkNote s

end Sys2Proof.Machine
end

