-- ==== Sys2Proof/Machine/Render.lean ====
section
/-!
DEFINITION. The items of a print job: what a fetch takes (R156) and the dot lines of a snapshot (R149,
R152, R153, R157).
-/
namespace Sys2Proof.Machine

/-! ### Measures (R149) -/

/-- Dots across the head. -/
def headWidth (straps : Straps) : Nat := if straps.wide then 576 else 384

/-- Characters of a text line. -/
def charsPerLine (straps : Straps) : Nat := headWidth straps / 12

/-- A text broken into text lines, at least one. -/
def breakText (cpl : Nat) (cs : List Byte) : List (List Byte) :=
  if cs.isEmpty then [[]] else pieces cpl cs.length cs

/-! ### Dot lines -/

def blankLine : DotLine := { marks := .blank }

/-- The 28 dot lines of a text line, the last of them marked. -/
def textLine (x : Line) : List DotLine :=
  ((List.range 24).map fun row => { marks := .glyph x row }) ++
    (List.replicate 3 blankLine ++ [{ marks := .blank, endsText := true }])

def textLines (xs : List Line) : List DotLine := xs.flatMap textLine

def blankLines (n : Nat) : List DotLine := List.replicate n blankLine

/-- A trailer's feed: 64 blank dot lines, the last of which ends the copy when `ends` holds. -/
def trailerFeed (ends : Bool) : List DotLine :=
  blankLines 63 ++ [{ marks := .blank, endsCopy := ends }]

/-- R157: the column of a sample. -/
def column (width : Nat) (x : Int) : Nat := (x + 32768).toNat * width / 65536

def leastInt (xs : List Int) : Int := xs.foldl min (xs.headD 0)
def greatestInt (xs : List Int) : Int := xs.foldl max (xs.headD 0)

/-- R157: dot line `k` of a trace. -/
def traceLine (width pre cycles : Nat) (samples : List Int) (k : Nat) : DotLine :=
  let n := 128 * cycles
  let first := k * n / 96
  let after := (k + 1) * n / 96
  let covered := (samples.drop first).take (after - first)
  { marks := .trace (column width (leastInt covered)) (column width (greatestInt covered)) (width / 2)
      (first ≤ 128 * pre && 128 * pre < after) }

def traceLines (width : Nat) (c : TraceSet) (t : Trace) : List DotLine :=
  (List.range 96).map (traceLine width c.pre c.cycles t.samples)

/-! ### Text of the sections (R153) -/

def listLine (r : EventRecord) : Line :=
  .listEvent r.id r.site r.interruption r.startTime r.ms r.minR

def captureLine (waveform : Bool) : Option TraceSet → Line
  | some c => if waveform then .eventCapture c.slot c.serial c.cycles (c.traces.map (·.role))
    else .noWaveform
  | none => .noWaveform

def detailLines (waveform : Bool) (c : Option TraceSet) : Option EventRecord → List Line
  | some r =>
    [.eventHead r.id r.site r.interruption, .eventTimes r.startTime r.endTime,
      .eventFigures r.half r.ms r.minR r.worst, .eventFlags r.flags, captureLine waveform c]
  | none => List.replicate 5 .blank

def orderLine (r : IntervalRecord) (order : Nat) : Line :=
  .intervalOrder order (r.orders[order - 1]?) (roleKind r.role.code == .current)

def tableLines (id : Nat) (orders : List Nat) : Option IntervalRecord → List Line
  | some r =>
    [.intervalHead id r.site r.role r.serial,
      .intervalSpan r.startTime r.endTime r.n r.excluded r.flags, .intervalThd r.thd] ++
      orders.map (orderLine r)
  | none => List.replicate (3 + orders.length) .blank

def noteLines (cpl : Nat) (x : NoteRecord × Bool) : List Line :=
  .noteHead x.1.id x.1.crew x.1.time x.1.site x.1.attach x.2 ::
    (breakText cpl x.1.text).map .chars

def siteLine (r : SurveyRecord) (i : Nat) : Bool × List Byte × Nat :=
  match r.sites[i]? with
  | some e => (e.settings.enabled, e.settings.name, e.settings.udin)
  | none => (false, [], 0)

def summaryLines : Option SurveyRecord → List Line
  | some r =>
    [.surveyState r.number r.state, .surveyCause r.cause, .surveyFirst r.first,
      .surveyRun r.runStart, .surveyMode r.mode r.time, .surveySites (siteLine r 0) (siteLine r 1),
      .surveySites (siteLine r 2) (siteLine r 3),
      .surveyMembers (r.sites.map fun e => (e.members.filter Option.isSome).length)]
  | none => .surveyMissing :: List.replicate 7 .blank

/-- The waveform of an EVENT_DETAIL with the option. -/
def waveformLines (width : Nat) : Option TraceSet → List DotLine
  | some c => c.traces.flatMap (traceLines width c)
  | none => textLine .waveformNotAvailable

/-- The dot lines of a snapshot, in printing order. -/
def linesOf (straps : Straps) : Snapshot → List DotLine
  | .header job copy copies time survey =>
    textLines [.jobHeader job copy copies, .jobTime time survey]
  | .trailer job copy _ _ _ => textLine (.trailer job copy) ++ trailerFeed true
  | .cancelTrailer job => textLine (.cancelled job) ++ trailerFeed false
  | .text chars => textLines ((breakText (charsPerLine straps) chars).map .chars)
  | .feed n => blankLines n
  | .eventList first last site events missing =>
    textLines ([.listRange first last, .listFilter site] ++ events.map listLine ++
      [.listFooter missing])
  | .eventDetail record waveform capture =>
    textLines (detailLines waveform capture record) ++
      (if waveform then waveformLines (headWidth straps) capture else [])
  | .intervalTable id record orders => textLines (tableLines id orders record)
  | .notes notes => textLines (notes.flatMap (noteLines (charsPerLine straps)))
  | .survey record => textLines (summaryLines record)

/-- R153: the section counts as not available. -/
def notAvailable : Snapshot → Bool
  | .eventList _ _ _ _ missing => 0 < missing
  | .eventDetail _ waveform capture => waveform && capture.isNone
  | .survey record => record.isNone
  | _ => false

/-! ### Fetching (R156) -/

/-- The ids of an EVENT_LIST's range. -/
def rangeIds (first last : Nat) : List Nat := (List.range (last + 1 - first)).map (first + ·)

def eventOf (st : Store) (e : Entry) : Option EventRecord :=
  match contentOf st e with
  | .event r => some r
  | _ => none

def intervalOf (st : Store) (e : Entry) : Option IntervalRecord :=
  match contentOf st e with
  | .interval _ r => some r
  | _ => none

def listSnapshot (st : Store) (first last : Nat) (site : Option Nat) : Snapshot :=
  let ids := rangeIds first last
  let found := ids.filterMap (findEntry st .event)
  let events := (found.filterMap (eventOf st)).filter fun r => site.all (r.site == ·)
  .eventList first last site events (ids.length - found.length)

/-- R96: the START segment as it stands. -/
def traceSet (s : State) (p : CapturePin) : Option TraceSet :=
  let c := captureSlot s p.slot
  c.segments.head?.map fun g =>
    { slot := p.slot, serial := p.serial, pre := g.pre, cycles := g.cycles
      traces := (c.members.zipIdx.filter fun m => m.1.kind == .voltage).map fun m =>
        ⟨m.1.role, (memberSamples g m.2).take (128 * g.cycles)⟩ }

/-- The snapshot of a section, as its content stands. -/
def sectionSnapshot (s : State) (x : JobSection) : Snapshot :=
  match x.content with
  | .text chars => .text chars
  | .feed lines => .feed lines.toNat
  | .eventList first last site =>
    listSnapshot s.store first.toNat last.toNat (optionalSite site)
  | .eventDetail id waveform =>
    .eventDetail ((findEntry s.store .event id.toNat).bind (eventOf s.store)) waveform
      (x.capturePin.bind (traceSet s))
  | .intervalTable id orders =>
    .intervalTable id.toNat ((findEntry s.store .interval id.toNat).bind (intervalOf s.store))
      (orders.map (·.toNat))
  | .note .. =>
    .notes (x.pins.filterMap fun p =>
      ((noteEntry s.store p.2).bind (noteContent s.store)).map fun r => (r, isLocked s.store p.2))
  | .surveySummary => .survey (latestSurvey s.store)
  | .unknown .. => .feed 0

/-- The records a section's fetch reads. -/
def recordsRead (st : Store) (x : JobSection) : List Entry :=
  match x.content with
  | .eventList first last _ => (rangeIds first.toNat last.toNat).filterMap (findEntry st .event)
  | .surveySummary => (latestLive st .survey).toList
  | _ => x.pins.filterMap fun p => findEntry st p.1 p.2

/-- The record's content is read from the array: a LIVE record, but for a note whose replacement waits in
the write queue and is read there. (DEDUCED, unsafe: log 37.) -/
def inArray (st : Store) (e : Entry) : Bool :=
  e.state == .live && !(st.queue.any fun q => q.kind == e.kind && q.id == e.id)

def eraseInFlight (st : Store) : Bool :=
  match st.op with
  | some (.erase _) => true
  | _ => false

/-- The fetch waits: it needs content from the array while a sector erase is in flight. -/
def fetchWaits (st : Store) (x : JobSection) : Bool :=
  eraseInFlight st && (recordsRead st x).any (inArray st)

end Sys2Proof.Machine
end

