-- ==== Sys2Proof/Machine/Print.lean ====
section
/-!
DEFINITION. The print engine: jobs, fetch unit, renderer, mechanism, brake, paper and heat (R149 to
R168).
-/
namespace Sys2Proof.Machine

def setPrint (f : Print → Print) (s : State) : State := { s with print := f s.print }

/-! ### The job at work -/

/-- The ACTIVE job: the oldest of the ring when it has a phase (R152). -/
def activeJob (p : Print) : Option Job := p.ring.head?.filter fun j => j.phase.isSome

def modifyActive (f : Job → Job) (p : Print) : Print :=
  match p.ring with
  | j :: rest => if j.phase.isSome then { p with ring := f j :: rest } else p
  | [] => p

/-- R160. -/
def unfinished (j : Job) : Bool := j.phase == some .running && !j.fullyRendered && j.placed

/-- R151: the mechanism state, by the first row that applies. -/
def mechState (p : Print) : MechState :=
  match activeJob p with
  | none => .idle
  | some j =>
    if j.phase = some .doneWait then .idle
    else if p.brake then .braked
    else if p.latch then .paperOut
    else if p.tempClass = .overheat then .overheat
    else if p.inHand.isNone && p.buffer.isEmpty && unfinished j then .stalled
    else .printing

/-- R151: the mechanism may print. -/
def mayPrint (p : Print) : Bool :=
  (match activeJob p with
    | some j => j.phase != some .doneWait
    | none => false) && !p.brake && !p.latch && p.tempClass != .overheat

/-! ### PRINT_STATE (R167) -/

/-- Posts PRINT_STATE for a job, with its state and phase, or for a mechanism change. -/
def postPrint (job : Option Nat) (phase : Option (Option JobPhase)) (s : State) : State :=
  let p := s.print
  post (.printState job phase (mechState p) p.brake p.latch p.tempClass p.ring.length p.done.length) s

/-- A change between PRINTING and STALLED posts nothing. -/
def mechMoves (old new : MechState) : Bool :=
  let work := fun (m : MechState) => m == .printing || m == .stalled
  old != new && !(work old && work new)

/-- A notice for a job has shown the mechanism's new state: the job has become ACTIVE, after another
has completed or none was at work, or entered DONE_WAIT in the step. (DEDUCED, unsafe: log 27.) -/
def jobShown (old new : Print) : Bool :=
  match activeJob new with
  | none => false
  | some j =>
    match activeJob old with
    | some k =>
      old.completions != new.completions || (j.phase == some .doneWait && k.phase != some .doneWait)
    | none => true

/-- A step of the engine, with the PRINT_STATE of the mechanism's change after what the step itself
posts, JOB_DONE of the last job among it. (DESIGN CHOICE, unsafe: log 33.) -/
def printStep (f : State → State) (s : State) : State :=
  let new := f s
  postWhen (mechMoves (mechState s.print) (mechState new.print) && !jobShown s.print new.print)
    (.printState none none (mechState new.print) new.print.brake new.print.latch new.print.tempClass
      new.print.ring.length new.print.done.length) new

/-! ### Renderer (R158) -/

/-- Whether an item is the trailer of the last copy. -/
def lastItem (j : Job) (copy item : Nat) : Bool :=
  copy == j.copies && item == j.sections.length + 1

/-- The oldest entry's last dot line has been placed: the entry is freed.
(DEDUCED, unsafe: log 29.) -/
def entryRendered (e : CacheEntry) (x : Snapshot) (j : Job) : Job :=
  { j with
    fullyRendered := j.fullyRendered || j.phase == some .cancelling || lastItem j e.copy e.item
    tallies :=
      { j.tallies with
        notAvailable := j.tallies.notAvailable + (if notAvailable x then 1 else 0) } }

/-- Places dot lines of the oldest entry while the buffer has room; `fuel` entries at most. While the cache
is empty or its oldest entry is still being fetched, the copy and item that PRINT_STATUS names stay those of
the last item rendered (R167; DESIGN CHOICE, unsafe: log 38). -/
def renderFrom (straps : Straps) : Nat → Print → Print
  | 0, p => p
  | fuel + 1, p =>
    match p.cache with
    | [] => p
    | e :: rest =>
      match e.snapshot with
      | none => p
      | some x =>
        let free := Config.bufferPlaces - p.buffer.length
        let left := (linesOf straps x).drop e.placed
        let p := modifyActive
          (fun j =>
            { j with
              renderCopy := e.copy, renderItem := e.item
              placed := j.placed || 0 < Nat.min free left.length })
          { p with buffer := p.buffer ++ left.take free }
        if left.length ≤ free then
          renderFrom straps fuel (modifyActive (entryRendered e x) { p with cache := rest })
        else { p with cache := { e with placed := e.placed + free } :: rest }

def render (s : State) : State := setPrint (renderFrom s.straps (Config.cachePlaces + 1)) s

/-! ### Mechanism (R159, R160, R162) -/

/-- A PRINT reset is owed and its RESET reply has left: the engine waits for the line in progress, and
no other begins (R168, R181). -/
def printResetDue (l : Link) : Bool :=
  match l.owed with
  | some o => o.replySent && o.domains.print
  | none => false

/-- R162, R150: the line in hand begins, or sets the paper-out latch. -/
def beginLine (p : Print) : Print :=
  if p.paper then { p with lineBusy := true, lineSlow := p.tempClass == .hot }
  else { p with latch := true }

/-- R159, R160: the mechanism at a line boundary. -/
def lineBoundary (s : State) : State :=
  if s.print.lineBusy || !mayPrint s.print || printResetDue s.link then s
  else
    match s.print.inHand, s.print.buffer with
    | some _, _ => setPrint beginLine s
    | none, x :: rest =>
      render (setPrint (fun p => beginLine { p with inHand := some x, buffer := rest }) s)
    | none, [] =>
      match activeJob s.print with
      | some j =>
        if unfinished j then setPrint (fun p => { p with stalls := satInc max32 p.stalls }) s else s
      | none => s

/-- R159: renders, and where a line has been placed with none in hand, that is a line boundary. -/
def renderAndTake (s : State) : State :=
  let new := render s
  if s.print.buffer.length < new.print.buffer.length && new.print.inHand.isNone then lineBoundary new
  else new

/-! ### Pins (R152, R154, R165) -/

/-- The pins of a section are released: each record with the store's re-check (R128), in the order of
its pin list, and then its capture slot. (DESIGN CHOICE for the order, unsafe: log 50.) -/
def releaseSection (s : State) (x : JobSection) : State :=
  let s := x.pins.foldl unpinRecord s
  match x.capturePin with
  | some p => unpinCapture p s
  | none => s

/-- The pins of a job are released, section by section. (DESIGN CHOICE for the order, unsafe: log 50.) -/
def releaseJob (j : Job) (s : State) : State := j.sections.foldl releaseSection s

def takeSection (s : State) (x : JobSection) : State :=
  let s := x.pins.foldl (fun s p => pinRecord p s) s
  match x.capturePin with
  | some p => pinCapture p s
  | none => s

/-! ### Starting and ending jobs (R155, R163, R165, R166) -/

/-- R155: the oldest QUEUED job becomes ACTIVE when no job is and the done queue has room. -/
def startNext (s : State) : State :=
  match s.print.ring with
  | j :: rest =>
    if j.phase.isNone && s.print.done.length < Config.donePlaces then
      let s := setPrint (fun p => { p with ring := { j with phase := some .running } :: rest }) s
      postPrint (some j.id) (some (some .running)) s
    else s
  | [] => s

def wrap32 (n : Nat) : Nat := (n + 1) % 4294967296

/-- R165: the done entry of a job, which leaves the ring: it is the oldest with its id, since the job
ids wrap and a later job may have the same one. -/
def makeDone (j : Job) (s : State) : State :=
  let entry : DoneEntry := ⟨j.id, j.cancelled, j.tallies⟩
  let s := setPrint
    (fun p =>
      { p with
        done := p.done ++ [entry], ring := p.ring.eraseP fun k => k.id == j.id
        completions := wrap32 p.completions }) s
  startNext (post (.jobDone entry) (releaseJob j s))

/-- R163: the ACTIVE job's last line has left the head. -/
def finishActive (j : Job) (s : State) : State :=
  if s.print.done.length < Config.donePlaces then makeDone j s
  else
    postPrint (some j.id) (some (some .doneWait))
      (setPrint (modifyActive fun j => { j with phase := some .doneWait }) s)

/-- R163: the job has finished. -/
def finished (p : Print) (j : Job) : Bool :=
  (j.phase == some .running || j.phase == some .cancelling) && j.fullyRendered &&
    p.buffer.isEmpty && p.inHand.isNone

/-! ### Fetch unit (R156) -/

/-- The item that follows (R156). -/
def advanceFetch (j : Job) : Job :=
  if j.fetchItem = j.sections.length + 1 then { j with fetchCopy := j.fetchCopy + 1, fetchItem := 0 }
  else { j with fetchItem := j.fetchItem + 1 }

/-- The section of an item, or none for the header and the trailer. -/
def itemSection (j : Job) (item : Nat) : Option JobSection :=
  if item = 0 then none else j.sections[item - 1]?

/-- The snapshot of an item of a copy. -/
def itemSnapshot (s : State) (j : Job) (copy item : Nat) : Snapshot :=
  if item = 0 then .header j.id copy j.copies s.clock.time s.survey.number
  else
    match itemSection j item with
    | some x => sectionSnapshot s x
    | none => .trailer j.id copy j.copies s.clock.time s.survey.number

def itemWaits (st : Store) (j : Job) (item : Nat) : Bool :=
  match itemSection j item with
  | some x => fetchWaits st x
  | none => false

/-- A cache entry is free, no fetch waits, and the job has items not yet fetched (R156). While a fetch
waits for an erase no later item is fetched. (DESIGN CHOICE, unsafe: log 47.) -/
def canFetch (p : Print) (j : Job) : Bool :=
  j.phase == some .running && p.cache.length < Config.cachePlaces &&
    p.cache.all (fun e => e.snapshot.isSome) && j.fetchCopy ≤ j.copies

/-- R156: the fetch unit takes the next item, or holds an entry for it while the array erases. -/
def fetchNext (s : State) : State :=
  match activeJob s.print with
  | none => s
  | some j =>
    if canFetch s.print j then
      let x :=
        if itemWaits s.store j j.fetchItem then none
        else some (itemSnapshot s j j.fetchCopy j.fetchItem)
      renderAndTake
        (setPrint
          (fun p =>
            modifyActive advanceFetch
              { p with cache := p.cache ++ [{ copy := j.fetchCopy, item := j.fetchItem, snapshot := x }] })
          s)
    else s

/-- The entry's snapshot as its content stands now. -/
def fillEntry (s : State) (j : Job) (e : CacheEntry) : CacheEntry :=
  if e.snapshot.isSome then e else { e with snapshot := some (itemSnapshot s j e.copy e.item) }

/-- R156: the erase completes, and the fetch that waits for it is taken. -/
def waitingFetch (s : State) : State :=
  match activeJob s.print with
  | some j =>
    if s.print.cache.all fun e => e.snapshot.isSome then s
    else
      printStep renderAndTake
        (setPrint (fun p => { p with cache := p.cache.map (fillEntry s j) }) s)
  | none => s

/-- R126, R156: the sector's erase completes; the fetch that waits for it is taken with it, before the
store's own steps. (DESIGN CHOICE, unsafe: log 48.) -/
def eraseDone (s : State) : State :=
  if eraseInFlight s.store then sectorEraseDone (waitingFetch s) else s

def sectionFetch (s : State) : State := printStep fetchNext s

/-- The fetches that are due are taken (R156: whenever the cache has a free entry). -/
def fetchDue (s : State) : State := sectionFetch (sectionFetch (sectionFetch s))

/-! ### A line done (R159, R163) -/

/-- R159: what the completion of a line counts; R164: copies count before a cancel. -/
def countLine (x : DotLine) (j : Job) : Job :=
  { j with
    tallies :=
      { j.tallies with
        dotLines := j.tallies.dotLines + 1
        textLines := j.tallies.textLines + (if x.endsText then 1 else 0)
        copies := j.tallies.copies + (if x.endsCopy && !j.cancelled then 1 else 0) } }

def endLine (s : State) : State :=
  match activeJob s.print with
  | some j => if finished s.print j then finishActive j s else lineBoundary s
  | none => s

/-- R159: the line in progress has been printed to its last dot and the paper has advanced. -/
def lineDone (x : DotLine) (s : State) : State :=
  let s := setPrint
    (fun p => modifyActive (countLine x) { p with inHand := none, lineBusy := false, lineStale := false })
    s
  if printResetDue s.link then s else endLine s

def dotLineDone (s : State) : State :=
  match s.print.lineBusy, s.print.inHand with
  | true, some x => printStep (lineDone x) (fetchDue s)
  | _, _ => s

/-! ### Brake, paper and heat (R150, R161, R162) -/

/-- A line in progress stops with no paper step: it stays in hand, or is discarded where its job was
cancelled under it (R164). (DEDUCED, unsafe: log 30.) -/
def stopLine (p : Print) : Print :=
  { p with
    inHand := if p.lineStale then none else p.inHand, lineBusy := false, lineStale := false }

/-- R161: a level report reaches the brake. -/
def brakeReport (level : Level) (s : State) : State :=
  printStep (fun s =>
    if level = .normal then
      let set := s.print.brake
      let s := setPrint (fun p => { p with brake := false }) s
      if set then lineBoundary s else s
    else
      setPrint
        (fun p =>
          let p := { p with brake := true }
          if p.lineBusy then
            stopLine { p with abandonedLines := satInc max32 p.abandonedLines }
          else p) s) s

/-- R162: the sensor reports paper present or absent. -/
def paperChange (present : Bool) (s : State) : State :=
  printStep
    (setPrint fun p =>
      let p := { p with paper := present }
      if !present && p.lineBusy then stopLine { p with latch := true } else p) s

/-- R150: the class after a reading; the first reading sets it directly. -/
def classAfter (first : Bool) (c : TempClass) (t : Int) : TempClass :=
  if first then if 75 ≤ t then .overheat else if 60 ≤ t then .hot else .cool
  else if t < 55 then .cool
  else
    match c with
    | .cool => if 75 ≤ t then .overheat else if 60 ≤ t then .hot else .cool
    | .hot => if 75 ≤ t then .overheat else .hot
    | .overheat => .overheat

/-- R150: a reading; a class that leaves OVERHEAT is a line boundary (R159). -/
def headTemperature (t : Int) (s : State) : State :=
  printStep (fun s =>
    let old := s.print.tempClass
    let s := setPrint
      (fun p => { p with tempClass := classAfter p.temp.isNone p.tempClass t, temp := some t }) s
    if old = .overheat ∧ s.print.tempClass ≠ .overheat then lineBoundary s else s) s

/-- R162. The reply comes before the PRINT_STATE of the mechanism's change.
(DESIGN CHOICE, unsafe: log 33.) -/
def printResume (s : State) : State :=
  let reply := fun (status : Status) (s : State) =>
    answer status (.paper s.print.paper (mechState s.print)) s
  if s.print.latch && s.print.paper then
    printStep (fun s => reply .ok (lineBoundary (setPrint (fun p => { p with latch := false }) s))) s
  else reply .wrongState s

/-! ### Submission (R153, R154) -/

/-- R153: the parameters are within their ranges. -/
def sectionValid : Section → Bool
  | .text chars => chars.length ≤ 96 && chars.all printable
  | .feed lines => 8 ≤ lines.toNat && lines.toNat ≤ 400
  | .eventList first last site =>
    first.toNat ≤ last.toNat && last.toNat - first.toNat ≤ 255 && (site == 0xFF || site.toNat ≤ 3)
  | .eventDetail .. => true
  | .intervalTable _ orders =>
    1 ≤ orders.length && orders.length ≤ 8 &&
      orders.all fun h => 1 ≤ h.toNat && h.toNat ≤ 50
  | .note .. => true
  | .surveySummary => true
  | .unknown .. => false

/-- The section needs the store. -/
def needsStore : Section → Bool
  | .text _ => false
  | .feed _ => false
  | _ => true

/-- The record a section names. -/
def namedRecord : Section → Option (RecordKind × Nat)
  | .eventDetail id _ => some (.event, id.toNat)
  | .intervalTable id _ => some (.interval, id.toNat)
  | .note id _ => some (.note, id.toNat)
  | _ => none

/-- The records a section would pin; those of a NOTE are the notes it prints (R148). -/
def recordsPinned (st : Store) (x : Section) : List (RecordKind × Nat) :=
  match x with
  | .note id true => (chainOf st id.toNat).map fun n => (.note, n)
  | _ => (namedRecord x).toList

/-- R154: the capture slot an EVENT_DETAIL with the option pins. -/
def capturePinned (s : State) : Section → Option CapturePin
  | .eventDetail id true =>
    (((findEntry s.store .event id.toNat).bind (eventOf s.store)).bind (·.capture)).bind fun c =>
      let p : CapturePin := ⟨c.1, c.2, id.toNat⟩
      if captureValid s p then some p else none
  | _ => none

/-- The position, counted from 1, of the first section at which `bad` holds. -/
def firstFault (bad : Section → Bool) (xs : List Section) : Option Nat :=
  (xs.findIdx? bad).map (· + 1)

/-- R154, check 4. A record that the reclaim has discarded falls under check 5 until its sector is erased
(R127; DESIGN CHOICE, unsafe: log 55). -/
def recordMissing (st : Store) (x : Section) : Bool :=
  (namedRecord x).any fun p => (findEntry st p.1 p.2).isNone && !discarding st p.1 p.2

/-- R154, check 5, for a record that the reclaim has discarded too (R127; DESIGN CHOICE, unsafe: log 55). -/
def recordReclaimed (st : Store) (x : Section) : Bool :=
  (recordsPinned st x).any fun p =>
    match findEntry st p.1 p.2 with
    | some e => e.reclaim
    | none => discarding st p.1 p.2

/-- The first check of R154 that fails, with the section it names. (DEDUCED, unsafe: log 21.) -/
def submitFault (copies : Byte) (xs : List Section) (s : State) : Option (Status × ReplyBody) :=
  if copies.toNat < 1 ∨ 3 < copies.toNat ∨ xs.length < 1 ∨ 16 < xs.length then
    some (.badValue, .sectionIndex 0)
  else
    match firstFault (fun x => !sectionValid x) xs with
    | some n => some (.badValue, .sectionIndex n)
    | none =>
      if !storeUp s.store && xs.any needsStore then some (.busy, .sectionIndex 0)
      else if Config.jobPlaces ≤ s.print.ring.length then some (.queueFull, .empty)
      else
        match firstFault (recordMissing s.store) xs with
        | some n => some (.notFound, .sectionIndex n)
        | none => (firstFault (recordReclaimed s.store) xs).map fun n => (.busy, .sectionIndex n)

/-- The next job id: 65,535 wraps to 1 (R152). -/
def nextJobId (n : Nat) : Nat := if n < 65535 then n + 1 else 1

/-- R154: an accepted job takes its pins and joins the ring. -/
def acceptJob (copies : Nat) (xs : List Section) (s : State) : State :=
  let sections := xs.map fun x => (⟨x, recordsPinned s.store x, capturePinned s x⟩ : JobSection)
  let s := sections.foldl takeSection s
  let id := s.print.nextJob
  let s := setPrint
    (fun p =>
      { p with
        ring := p.ring ++ [{ id := id, copies := copies, sections := sections }]
        nextJob := nextJobId id, submits := wrap32 p.submits }) s
  startNext (answer .accepted (.jobId id) (postPrint (some id) (some none) s))

/-- R154. -/
def printSubmit (copies : Byte) (sections : List Section) (s : State) : State :=
  match submitFault copies sections s with
  | some f => answer f.1 f.2 s
  | none => printStep (acceptJob copies.toNat sections) s

/-! ### Cancelling (R164) -/

/-- R164: the ACTIVE job `j` enters CANCELLING. The cancel trailer stands at the copy and item that the
job was at, which PRINT_STATUS goes on to name (R167). (DESIGN CHOICE, unsafe: log 38.) -/
def cancelActive (j : Job) (p : Print) : Print :=
  modifyActive
    (fun j => { j with phase := some .cancelling, cancelled := true, fullyRendered := false })
    { p with
      cache :=
        [{ copy := j.renderCopy, item := j.renderItem, snapshot := some (.cancelTrailer j.id) }]
      buffer := []
      inHand := if p.lineBusy then p.inHand else none, lineStale := p.lineBusy }

/-- R164. Of two jobs of the ring with the id, the oldest is meant. (DESIGN CHOICE, unsafe: log 49.) -/
def printCancel (job : Half) (s : State) : State :=
  let id := job.toNat
  match s.print.ring.find? fun j => j.id == id with
  | none => refuse .notFound s
  | some j =>
    match j.phase with
    | none =>
      if s.print.done.length < Config.donePlaces then
        printStep (fun s => makeDone { j with cancelled := true, tallies := {} } (answer .ok .empty s)) s
      else refuse .queueFull s
    | some .running =>
      printStep (fun s => renderAndTake (setPrint (cancelActive j) (answer .ok .empty s))) s
    | some .cancelling => answer .ok .empty s
    | some .doneWait => refuse .wrongState s

/-! ### Reading (R166, R167) -/

/-- R166: a place of the done queue has freed. -/
def doneFreed (s : State) : State :=
  match activeJob s.print with
  | some j => if j.phase = some .doneWait then makeDone j s else startNext s
  | none => startNext s

/-- R166. -/
def printDoneRead (s : State) : State :=
  match s.print.done with
  | [] => refuse .notFound s
  | e :: rest =>
    printStep
      (fun s => doneFreed (answer .ok (.doneEntry e) (setPrint (fun p => { p with done := rest }) s))) s

def pinCount (j : Job) : Nat :=
  (j.sections.map fun x => x.pins.length + x.capturePin.toList.length).sum

/-- The kind of an item of a job (R152, R153). -/
def itemKind (j : Job) (item : Nat) : ItemKind :=
  if item = 0 then .header
  else
    match itemSection j item with
    | some x => .body (sectionCode x.content)
    | none => .trailer

def isCancelTrailer (e : CacheEntry) : Bool :=
  match e.snapshot with
  | some (.cancelTrailer _) => true
  | _ => false

/-- The item kinds of the cache entries; a cancel trailer is not an entry of the cache (R164). -/
def cacheKinds (p : Print) : List ItemKind :=
  match activeJob p with
  | some j => (p.cache.filter fun e => !isCancelTrailer e).map fun e => itemKind j e.item
  | none => []

/-- R151, R167: the conditions of the mechanism; no temperature before the first reading.
(DESIGN CHOICE, unsafe: log 7.) -/
def mechView (p : Print) : MechView :=
  ⟨mechState p, p.inHand.isSome, p.lineBusy, p.brake, p.latch, p.tempClass, p.paper, p.temp⟩

/-- R167. The current copy is the rendered one, also where the fetch unit is a copy ahead, and the one last
rendered while the renderer waits.
(DESIGN CHOICE, unsafe: log 38.) -/
def printView (p : Print) : PrintView where
  mech := mechView p
  fill := p.buffer.length
  cache := cacheKinds p
  active := (activeJob p).map fun j => (j.id, j.phase, j.renderCopy, j.renderItem, j.tallies)
  jobs := p.ring.map fun j => (j.id, j.phase, pinCount j)
  done := p.done.length
  nextJob := p.nextJob
  submits := p.submits
  completions := p.completions
  stalls := p.stalls
  abandonedLines := p.abandonedLines

/-- R167. -/
def printStatus (s : State) : State := answer .ok (.printStatus (printView s.print)) s

/-! ### PRINT reset (R168) -/

/-- R168, steps 2, 3 and 5 to 7: what a PRINT reset keeps is the next job id and what follows its
source. -/
def Print.cleared (p : Print) : Print :=
  { nextJob := p.nextJob, brake := p.brake, tempClass := p.tempClass, temp := p.temp
    paper := p.paper }

/-- R168: the reset of the engine, with no line in progress. The pins are released in ring order.
(DESIGN CHOICE, unsafe: log 50.) -/
def printCleared (s : State) : State :=
  let old := mechState s.print
  let s := unpinAllSlots (s.print.ring.foldl (fun s j => releaseJob j s) s)
  let s := setPrint Print.cleared s
  if old = .idle then s else postPrint none none s

end Sys2Proof.Machine
end

