-- ==== Sys2Proof/Machine/StoreRequests.lean ====
section
/-!
DEFINITION. Requests of the record store, the mount and the wipe (R129 to R137).
-/
namespace Sys2Proof.Machine

/-! ### Reading (R132, R133) -/

def recordLine (st : Store) (e : Entry) : RecordLine :=
  ⟨e.id, e.state, e.seq, e.size, e.pins, isHeld st e, e.reclaim⟩

/-- R132. -/
def recordList (kind : Byte) (fromId : Word) (count : Byte) (s : State) : State :=
  match recordKind? kind.toNat with
  | none => refuse .badValue s
  | some k =>
    if !countValid count then refuse .badValue s
    else if !storeUp s.store then refuse .busy s
    else
      let xs := listed s.store k fromId.toNat
      answer .ok
        (.recordList ((xs.take count.toNat).map (recordLine s.store)) (nextListed xs count.toNat)) s

/-- R133, R147: the content of a record found. -/
def readRecord (e : Entry) (s : State) : State :=
  answer .ok
    (.record e.state e.seq e.pins (isHeld s.store e) (contentRun (contentOf s.store e))
      (if e.kind = .note then some (noteMarks s.store e) else none)) s

/-- R133. -/
def recordRead (kind : Byte) (id : Word) (s : State) : State :=
  match recordKind? kind.toNat with
  | none => refuse .badValue s
  | some k =>
    if !storeUp s.store then refuse .busy s
    else
      match findEntry s.store k id.toNat with
      | none => refuse (absentStatus s.store k id.toNat) s
      | some e => if e.reclaim then refuse .busy s else readRecord e s

/-! ### Deleting (R134) -/

/-- The LIVE SURVEY or LOCK_MARK record that holds the last written state (R122). -/
def holdsLast (st : Store) (e : Entry) : Bool :=
  (e.kind == .survey || e.kind == .lockMark) && isHeld st e

/-- R134, from check 6. -/
def deleteRecord (e : Entry) (s : State) : State :=
  if e.reclaim || writeInFlight s.store e.kind e.id then refuse .busy s
  else if 0 < e.pins then refuse .pinned s
  else if attachedTo s.store e.kind e.id then refuse .attached s
  else if holdsLast s.store e then refuse .wrongState s
  else if e.state = .queued then answer .ok .empty (removeQueued e.kind e.id s)
  else killLive e.kind e.id e s

/-- R134. -/
def recordDelete (kind : Byte) (id : Word) (s : State) : State :=
  match recordKind? kind.toNat with
  | none => refuse .badValue s
  | some k =>
    if !storeUp s.store then refuse .busy s
    else if critical s then refuse .supply s
    else
      match findEntry s.store k id.toNat with
      | none => refuse (absentStatus s.store k id.toNat) s
      | some e => if k = .note then noteDelete id s else deleteRecord e s

/-! ### Mode and status (R129, R135) -/

/-- R129. (DEDUCED, unsafe: log 20.) The reply comes before the STORE_STATE of the re-check.
(DESIGN CHOICE, unsafe: log 33.) -/
def storeMode (mode : Byte) (s : State) : State :=
  if !storeUp s.store then refuse .busy s
  else
    match storeMode? mode.toNat with
    | none => refuse .badValue s
    | some m =>
      storeNext (recheckFull (answer .ok (.storeMode m) (setStore (fun st => { st with mode := m }) s)))

/-- Blocks of the entries in a state. -/
def blocksIn (st : Store) (state : EntryState) : Nat :=
  ((st.dir.filter fun e => e.state == state).map (·.size)).sum

def countKinds (st : Store) (state : EntryState) : PerKind :=
  (st.dir.filter fun e => e.state == state).foldl (fun p e => p.modify (· + 1) e.kind) ⟨0, 0, 0, 0, 0⟩

/-- The unused remainder of the head. -/
def headFree (st : Store) : Nat := if st.head.isSome then 64 - st.headUsed else 0

/-- R116: erased blocks. -/
def erasedBlocks (st : Store) : Nat := 64 * (erasedSectors st).length + headFree st

/-- R116: of the 4,096 blocks, those in none of the other three categories. -/
def paddingBlocks (st : Store) : Nat :=
  4096 - (blocksIn st .live + blocksIn st .dead + erasedBlocks st)

def storeView (st : Store) : StoreView where
  live := blocksIn st .live
  dead := blocksIn st .dead
  padding := paddingBlocks st
  erased := erasedBlocks st
  erasedSectors := (erasedSectors st).length
  head := st.head
  headFree := headFree st
  reclaim := st.reclaim.map (·.sector)
  queued := countKinds st .queued
  liveEntries := countKinds st .live
  deadEntries := countKinds st .dead
  waiting := st.queue.length
  nextIds := st.nextIds
  limits := st.limits
  nextSeq := st.nextSeq
  lockMark := st.lockMark
  extSector := st.extSector
  eventDrops := st.eventDrops
  intervalDrops := st.intervalDrops
  discards := st.discards
  reclaims := st.reclaims

/-- An array operation is in flight: one of R124, a scan of the mount or a wipe's erases (R116). -/
def arrayBusy (st : Store) : Bool := st.op.isSome || !storeUp st

/-- R135. -/
def storeStatus (s : State) : State :=
  let st := s.store
  answer .ok
    (.storeStatus st.state st.mode (arrayBusy st) (if storeUp st then some (storeView st) else none))
    s

/-! ### The first LOCK_MARK record (R131, R136) -/

/-- LOCK_MARK id 1 programmed at a place, with its entry. -/
def Store.firstLock (loc : Nat × Nat) (opened : Bool) (r : LockRecord) (st : Store) : Store :=
  ((st.openPlace loc opened).program .lockMark 1 st.nextSeq loc (.lockMark r)).insertEntry
    { kind := .lockMark, id := 1, seq := some st.nextSeq, loc := some loc, size := 1, state := .live }

/-- LOCK_MARK id 1 with mark 0. It is never queued, so its time and CLOCK_UNSET (R146, R186) are those of
the clock as the wipe or the mount writes it. (DESIGN CHOICE, unsafe: log 51.) -/
def lockRecord (clock : Clock) : LockRecord :=
  { id := 1, mark := 0, time := clock.time, clockUnset := !clock.valid }

/-- The id of the first LOCK_MARK record is drawn. -/
def Store.drawFirst (st : Store) : Store := { st with nextIds := { st.nextIds with lockMark := 2 } }

/-- Writes LOCK_MARK id 1 with mark 0 into the place that R117 gives (DEDUCED, unsafe: log 18), with the
clock reading of the moment (DESIGN CHOICE, unsafe: log 51). -/
def firstLockMark (s : State) : State :=
  let s := setStore Store.drawFirst s
  match placeFor s.store 1 0 with
  | none => s
  | some (loc, opened) => setStore (Store.firstLock loc opened (lockRecord s.clock)) s

/-- What the write of the first LOCK_MARK record leaves in the array when it is cut: its body without
header, and the whole record (R130). -/
def firstLockStages (clock : Clock) (st : Store) : List Memory :=
  let st := st.drawFirst
  match placeFor st 1 0 with
  | none => []
  | some (loc, opened) =>
    [Memory.write st.array (blockAddress loc) (bodyBytes (.lockMark (lockRecord clock))),
      (st.firstLock loc opened (lockRecord clock)).array]

/-! ### Wipe (R136) -/

/-- A print job is QUEUED or ACTIVE. -/
def printJobHeld (s : State) : Bool := !s.print.ring.isEmpty

/-- R136. -/
def storeWipe (s : State) : State :=
  if s.store.state ≠ .ready ∧ s.store.state ≠ .full then refuse .busy s
  else if critical s then refuse .supply s
  else if s.survey.state = some .recording ∨ s.survey.state = some .held then refuse .wrongState s
  else if printJobHeld s then refuse .wrongState s
  else
    let s := enterStore .wiping (answer .ok .empty s)
    if s.store.op.isSome then s else wipeEmpty s

/-- R136, steps 3 to 6: the array erased and every number of the store at its first value. -/
def Store.wiped (st : Store) : Store := { state := st.state }

/-- R136, steps 3 to 7. -/
def wipeComplete (s : State) : State :=
  if s.store.state = .wiping ∧ s.store.op = none then
    storeNext (enterStore .ready (firstLockMark (setStore Store.wiped s)))
  else s

/-! ### Mount (R130, R131) -/

/-- What the walk of a sector finds: its valid records with their first blocks, and the block after the
last programmed one. -/
structure Walk where
  records : List (Header × Nat) := []
  used : Nat := 0
  deriving DecidableEq, Repr

/-- The cells of a block. -/
def blockCells (cells : Memory) (sector block : Nat) : Memory :=
  let a := blockAddress (sector, block)
  cells.filter fun c => a ≤ c.1 && c.1 < a + 256

/-- The valid header of a block whose record lies within the sector. (DEDUCED, unsafe: log 17.) -/
def headerAt (cells : Memory) (sector block : Nat) : Option Header :=
  (decodeHeader (Memory.readBytes cells (blockAddress (sector, block)) headerBytes)).filter fun h =>
    1 ≤ h.size && block + h.size ≤ 64

/-- R130: the walk of a sector from `block`. -/
def walkSector (cells : Memory) (sector : Nat) : Nat → Nat → Walk → Walk
  | 0, _, w => w
  | fuel + 1, block, w =>
    if 64 ≤ block then w
    else
      let here := blockCells cells sector block
      if here.isEmpty then walkSector cells sector fuel (block + 1) w
      else
        match headerAt here sector block with
        | some h =>
          walkSector cells sector fuel (block + h.size)
            ⟨w.records ++ [(h, block)], block + h.size⟩
        | none => walkSector cells sector fuel (block + 1) { w with used := block + 1 }

def sectorCells (m : Memory) (sector : Nat) : Memory :=
  m.filter fun c => sector * 16384 ≤ c.1 && c.1 < (sector + 1) * 16384

def walkOf (m : Memory) (sector : Nat) : Walk := walkSector (sectorCells m sector) sector 64 0 {}

def mountEntry (sector : Nat) (r : Header × Nat) : Entry where
  kind := r.1.kind
  id := r.1.id
  seq := some r.1.seq
  loc := some (sector, r.2)
  size := r.1.size
  state := if r.1.live then .live else .dead

/-- R130: the opening sequence of a sector. -/
def openingOf (w : Walk) : Option Nat :=
  if w.used = 0 then none else some (minOf 0 (w.records.map (·.1.seq)))

/-- The record found with the highest value of `f`, and its sector. -/
def highest (f : Header → Nat) (found : List (Nat × Header)) : Option (Nat × Header) :=
  found.foldl
    (fun best x =>
      match best with
      | some b => if f b.2 < f x.2 then some x else best
      | none => some x) none

def PerKind.max (p q : PerKind) : PerKind := p.zip Nat.max q

/-- R131, step 2: the highest effective limits and the highest ids. -/
def limitsFound (found : List (Nat × Header)) : PerKind :=
  found.foldl (fun p x => p.max x.2.effective) ⟨0, 0, 0, 0, 0⟩

def idsFound (found : List (Nat × Header)) : PerKind :=
  found.foldl (fun p x => p.modify (Nat.max x.2.id) x.2.kind) ⟨0, 0, 0, 0, 0⟩

def PerKind.total (p : PerKind) : Nat := p.event + p.interval + p.note + p.survey + p.lockMark

/-- R131, step 2: the sector of the header with the highest effective limits when it has a step set.
(DEDUCED, unsafe: log 18.) -/
def extFound (found : List (Nat × Header)) : Option Nat :=
  match highest (fun h => h.effective.total) found with
  | some x => if 0 < stepsSet x.2.ext then some x.1 else none
  | none => none

/-- R130: what the walk of every sector leaves in the store. -/
def scanned (st : Store) : Store :=
  let walks := (List.range 64).map (walkOf st.array)
  let found := walks.zipIdx.flatMap fun w => w.1.records.map fun r => (w.2, r.1)
  let head := (highest Header.seq found).map (·.1)
  let limits := limitsFound found
  { st with
    dir := sortBy Entry.rank (walks.zipIdx.flatMap fun w => w.1.records.map (mountEntry w.2))
    opening := walks.map openingOf
    head := head
    headUsed := match head with
      | some x => (walks.getD x {}).used
      | none => 0
    limits := limits
    nextIds := (limits.max (idsFound found)).map (· + 1)
    nextSeq := maxOf 0 (found.map (·.2.seq)) + 1
    extSector := extFound found }

/-- R131, step 1: another LIVE record of the kind and id has a higher sequence. -/
def isDuplicate (st : Store) (e : Entry) : Bool :=
  e.state == .live &&
    st.dir.any fun x =>
      x.kind == e.kind && x.id == e.id && x.state == .live && e.rank < x.rank

/-- The status of the header at an entry's place is programmed DEAD. -/
def markEntry (m : Memory) (e : Entry) : Memory :=
  match e.loc with
  | some loc => Memory.write m (blockAddress loc + 32) [deadStatus]
  | none => m

/-- R131, step 1: the duplicates become DEAD and are marked so in the array. -/
def retireDuplicates (st : Store) : Store :=
  { st with
    dir := st.dir.map fun e => if isDuplicate st e then { e with state := .dead } else e
    array := (st.dir.filter (isDuplicate st)).foldl markEntry st.array }

/-- R131, step 5. Where no header has a step clear, none is set and the limits stand.
(DESIGN CHOICE, unsafe: log 43.) -/
def mountStep (st : Store) : Store :=
  match extensionTarget st with
  | some loc => st.programStep loc
  | none => st

/-- R131, step 6; 0 where headers but no LIVE LOCK_MARK record are found.
(DESIGN CHOICE, unsafe: log 44.) -/
def markFound (st : Store) : Nat :=
  match (latestLive st .lockMark).map (contentOf st) with
  | some (.lockMark r) => r.mark
  | _ => 0

def modeFound (st : Store) : StoreMode :=
  match latestSurvey st with
  | some r => r.mode
  | none => .overwrite

/-- R131, steps 4 and 5: by whether a valid header was found. -/
def firstWrites (s : State) : State :=
  if s.store.dir.isEmpty then firstLockMark s else setStore mountStep s

/-- The array after each of a run of DEAD marks. -/
def markStages : Memory → List Entry → List Memory
  | _, [] => []
  | m, e :: rest => markEntry m e :: markStages (markEntry m e) rest

/-- What a mount leaves in the array when it is cut: before and after each of its writes, which are the
DEAD marks of duplicates and then an extension step or the first LOCK_MARK record (R131, R175). -/
def mountStages (clock : Clock) (st : Store) : List Memory :=
  let found := scanned st
  let kept := retireDuplicates found
  st.array ::
    (markStages st.array (found.dir.filter (isDuplicate found)) ++
      if kept.dir.isEmpty then firstLockStages clock kept else [(mountStep kept).array])

/-- R125: the trigger, at the end of a mount. -/
def mountTrigger (s : State) : State :=
  if (erasedSectors s.store).length < 2 then chooseReclaim s else enterStore .ready s

/-- R131, R139, R57: the mount is complete. The notes are linked after step 6 of R131 and before the
trigger of its step 7, whose choice needs the holds. (DEDUCED, unsafe: log 25.) -/
def mountComplete (s : State) : State :=
  if s.store.state = .mounting then
    let s := firstWrites (setStore (fun st => retireDuplicates (scanned st)) s)
    let s := linkNotes
      (setStore (fun st => { st with lockMark := markFound st, mode := modeFound st }) s)
    storeNext (restoreSurvey (mountTrigger s))
  else s

end Sys2Proof.Machine
end

