-- ==== Sys2Proof/Machine/SupplyMonitor.lean ====
section
/-!
DEFINITION. The van supply monitor: readings, levels, their reports and the settings (R169 to R173).
-/
namespace Sys2Proof.Machine

def setSupply (f : Supply → Supply) (s : State) : State := { s with supply := f s.supply }

/-! ### Readings and levels (R169, R170) -/

/-- One run count after a reading. -/
def runCount (holds : Bool) (n : Nat) : Nat := if holds then satInc 3 n else 0

/-- R170: the run counts after a reading, which is the latest, and the lowest (R173). -/
def Supply.count (v : Nat) (x : Supply) : Supply :=
  { x with
    taken := satInc 3 x.taken
    critIn := runCount (v < x.critical) x.critIn, lowIn := runCount (v < x.low) x.lowIn
    critOut := runCount (x.critical + 30 ≤ v) x.critOut
    lowOut := runCount (x.low + 30 ≤ v) x.lowOut
    reading := some v, lowest := some (Nat.min v (x.lowest.getD v)) }

/-- R170: the level after the counts have been updated, by the first test that applies. -/
def Supply.levelAfter (x : Supply) : Level :=
  match x.level with
  | .none =>
    if x.taken < 3 then .none
    else if x.critIn = 3 then .critical
    else if x.lowIn = 3 then .low
    else .normal
  | .normal => if x.critIn = 3 then .critical else if x.lowIn = 3 then .low else .normal
  | .low => if x.critIn = 3 then .critical else if x.lowOut = 3 then .normal else .low
  | .critical =>
    if x.critOut = 3 ∧ x.lowOut = 3 then .normal else if x.critOut = 3 then .low else .critical

/-- R173: the entry counts. -/
def Supply.enter (new : Level) (x : Supply) : Supply :=
  { x with
    level := new
    lowEntries := if new = .low then satInc max32 x.lowEntries else x.lowEntries
    critEntries := if new = .critical then satInc max32 x.critEntries else x.critEntries }

/-- R172: the report of a change of level. SUPPLY_STATE is posted first, then the print engine's notice,
and the reply of a start that is abandoned comes last. (DESIGN CHOICE, unsafe: log 33.) -/
def supplyReport (new : Level) (reading : Nat) (s : State) : State :=
  let old := s.supply.level
  let s := setSupply (Supply.enter new) s
  let s := post (.supplyState new old reading s.supply.low s.supply.critical) s
  let s := brakeReport new s
  if new = .critical then surveyCritical s else s

/-- R169: an input above 32.00 V reads 3,200. -/
def readingOf (input : Nat) : Nat := Nat.min input 3200

/-- R170. -/
def supplyReading (input : Nat) (s : State) : State :=
  let v := readingOf input
  let s := setSupply (Supply.count v) s
  let new := s.supply.levelAfter
  if new = s.supply.level then s else supplyReport new v s

/-! ### Requests (R171, R173) -/

/-- R171, step 1. -/
def lowThreshold (carried : Option Half) (x : Supply) : Nat :=
  clampNat ((half? carried).getD x.low) 1000 1300

/-- R171, step 2. -/
def criticalThreshold (carried : Option Half) (low : Nat) (x : Supply) : Nat :=
  Nat.min (clampNat ((half? carried).getD x.critical) 900 1200) (low - 20)

/-- R171, with a schedule of the five. -/
def setThresholds (low critical : Option Half) (schedule : Schedule) (s : State) : State :=
  let l := lowThreshold low s.supply
  let c := criticalThreshold critical l s.supply
  let clamped :=
    l != (half? low).getD s.supply.low || c != (half? critical).getD s.supply.critical
  let s := setSupply
    (fun x =>
      { x with
        low := l, critical := c, schedule := schedule, critIn := 0, lowIn := 0, critOut := 0
        lowOut := 0 }) s
  answer (if clamped then .okClamped else .ok) (.supplySettings l c schedule) s

/-- R171. -/
def supplySet (low critical : Option Half) (schedule : Option Byte) (s : State) : State :=
  match schedule with
  | none => setThresholds low critical s.supply.schedule s
  | some b =>
    match schedule? b.toNat with
    | some x => setThresholds low critical x s
    | none => refuse .badValue s

/-- R173: readings are forced by the print mechanism, and by the array (R169). -/
def forcedByPrint (s : State) : Bool := mechState s.print != .idle
def forcedByStore (s : State) : Bool := arrayBusy s.store

def supplyView (s : State) : ReplyBody :=
  let x := s.supply
  .supplyStatus x.level x.reading x.low x.critical x.schedule (forcedByPrint s) (forcedByStore s)
    x.critIn x.lowIn x.critOut x.lowOut x.lowEntries x.critEntries x.lowest

/-- R173. -/
def supplyStatus (clear : Bool) (s : State) : State :=
  answer .ok (supplyView s)
    (if clear then setSupply (fun x => { x with lowest := x.reading }) s else s)

end Sys2Proof.Machine
end

