-- ==== Sys2Proof/Machine/Boundaries.lean ====
section
/-!
DEFINITION. What reaches many blocks at once: frames and their boundaries, a pod that leaves service,
ACQ, brownout and hardware reset (R2, R15 to R17, R49, R55, R68, R174, R175, R181).
-/
namespace Sys2Proof.Machine

def setBus (f : Bus → Bus) (s : State) : State := { s with bus := f s.bus }

/-! ### Leaves (R15 to R17) -/

/-- R17: the consumers of a slot whose pod has left service. -/
def leaveService (slot : Nat) (s : State) : State :=
  match positionOf s slot with
  | some (site, role) =>
    let s := modifyMember (Option.map fun m => { m with active := false }) site role s
    refreshRotation (harmLeave site role (sagLeave site role s)) site
  | none => s

def serialOf (s : State) (slot : Nat) : Nat := ((entryOf s slot).identity.map (·.serial)).getD 0

/-- R15: eight consecutive dropouts of a READY pod. -/
def lostDue (s : State) (slot : Nat) : Bool := slotReady s slot && 8 ≤ (receiveOf s slot).dropouts

/-- R16: 1,024 identical codes of a READY pod. -/
def stuckDue (s : State) (slot : Nat) : Bool := slotReady s slot && 1024 ≤ (receiveOf s slot).run

/-- R15. -/
def podLost (slot : Nat) (s : State) : State :=
  if lostDue s slot then
    leaveService slot
      (post (.podLeave slot (serialOf s slot) .lost)
        (modifyEntry (fun e => { e with state := .absent }) slot s))
  else s

/-- R16. -/
def podStuck (slot : Nat) (s : State) : State :=
  if stuckDue s slot then
    leaveService slot
      (post (.podFault slot .stuck (some (serialOf s slot)))
        (modifyEntry (fun e => { e with state := .fault, cause := some .stuck }) slot s))
  else s

/-- Slots 1 to 15. -/
def allSlots : List Nat := (List.range 15).map (· + 1)

/-! ### Boundaries of the frame in progress (R49, R55, R68) -/

/-- R49: the start boundary of a run. -/
def startBoundary (s : State) : State :=
  if s.survey.changeDue && s.survey.change == some .start then
    let s := harmStarts (surveyStarts s)
    { s with sag := { s.sag with runBoundary := some s.bus.frame } }
  else s

/-- A pending stop whose boundary has passed. -/
def stopDue (s : State) : Bool :=
  s.survey.changeDue && s.survey.change.isSome && s.survey.change != some .start

/-- R55: the stop boundary, block by block. (DEDUCED order, unsafe: log 13.) -/
def stopBoundary (s : State) : State :=
  if stopDue s then
    let s := truncateCaptures s.bus.frame (sagStop s)
    storeNext (surveyStops (sagRest (harmStops s)))
  else s

/-- R49: the survey's change comes first at a boundary. -/
def changeBoundary (s : State) : State := stopBoundary (startBoundary s)

/-- R68: the half-cycle boundary of the frame in progress, once. -/
def halfCycleBoundary (s : State) : State :=
  if s.bus.boundaryDue then
    storeNext (setBus (fun b => { b with boundaryDue := false }) (sagBoundary (changeBoundary s)))
  else s

/-- R109: a site's close frame; a stop boundary at the same frame makes one close with it (R110). -/
def siteBoundary (site : Nat) (s : State) : State := intervalBoundary site (stopBoundary s)

/-- What the boundary of the frame in progress still owes. (DEDUCED, logs 4 and 14.) -/
def boundaryWork (s : State) : State :=
  allSites.foldl (fun s site => intervalBoundary site s) (halfCycleBoundary (changeBoundary s))

/-! ### End of a frame (R22) -/

/-- R22: the corrected samples of a frame reach the tracker, the sag windows, the rings, the capture
slots and the harmonic windows. -/
def deliver (frame : Nat) (samples : List (Nat × Sample)) (s : State) : State :=
  harmFrame frame samples
    (captureFrame frame samples
      (ringFrame frame samples
        (sagFrame samples (rotationFrame frame samples (trackFrame frame samples s)))))

/-- R22. The POD_FAULT of a join that ends comes before the notices of the consumers.
(DESIGN CHOICE, unsafe: log 33.) -/
def frameEnd (words : List BusWord) (s : State) : State :=
  if s.bus.inFrame then
    let s := boundaryWork s
    let frame := s.bus.frame
    let samples := frameSamples frame words s
    let s := joinFrame frame words (probeAnswer frame words (takeWords frame words s))
    setBus (fun b => { b with inFrame := false }) (deliver frame samples s)
  else s

/-- R99: the windows that the frame before has completed. -/
def windowsEnd (s : State) : State := allPositions.foldl (fun s p => windowComplete p.1 p.2 s) s

/-- R89: the captures that the frame before has completed. -/
def capturesEnd (s : State) : State := (List.range 12).foldl (fun s i => captureComplete i s) s

/-- R16: the pods that the frame before has found stuck. -/
def stuckEnd (s : State) : State := allSlots.foldl (fun s slot => podStuck slot s) s

/-- R15: the pods that the frame before has lost. -/
def lostEnd (s : State) : State := allSlots.foldl (fun s slot => podLost slot s) s

/-- What the end of the frame before still owes: windows complete (R99), the timeout (R33), captures
complete (R89), pods stuck and lost (R15, R16). (DEDUCED, log 4; the order of the pods' notices is a
DESIGN CHOICE, unsafe: log 33.) -/
def frameEndWork (s : State) : State :=
  lostEnd (stuckEnd (capturesEnd (noCrossingTimeout (windowsEnd s))))

/-! ### ACQ reset (R2, R12, R37, R47, R77, R91, R110, R181) -/

/-- An ACQ reset is owed, its RESET reply has left and no frame is in progress. -/
def acqResetDue (s : State) : Bool :=
  match s.link.owed with
  | some o => o.replySent && o.domains.acq && !s.bus.inFrame
  | none => false

/-- R2, R5, R6, R9, R12: the bus and the roster. A PROBE carried in the last frame is forgotten, and no
word of frame 0 answers it (DESIGN CHOICE, unsafe: log 45). A join is abandoned, one whose SAMPLE_ON the
last frame carried too (DESIGN CHOICE, unsafe: log 52). -/
def busReset (s : State) : State :=
  { s with
    bus := { frameTime := s.bus.frameTime, frameValid := s.bus.frameValid }
    roster := List.replicate 15 {}, receive := List.replicate 15 {} }

/-- R47: every member becomes inactive. -/
def membersInactive (s : State) : State :=
  { s with sites := s.sites.map fun e =>
      { e with members := e.members.map (Option.map fun m => { m with active := false }) } }

/-- A domain of the RESET in progress has taken its reset. -/
def takeDomain (f : Domains → Domains) (s : State) : State :=
  { s with link := (s.link.setDomains f).settle }

/-- The acquisition blocks take an ACQ reset. Its notices come in the order of the blocks: the closes of
events and intervals, TRACK_STATE, then ROTATION for the sites 0 to 3 (DESIGN CHOICE, unsafe: log 33). The
EVENT records reach the write queue before the INTERVAL records (R79, R111; DESIGN CHOICE, unsafe: log 42). -/
def acqBlocks (s : State) : State :=
  let c := s.sag.lastBoundary.getD 0
  let s := emptyRings (truncateCaptures c (sagAcqCloses s))
  storeNext (trackerAcqReset (membersInactive (busReset (sagAcqReset (harmAcqReset s)))))

/-- R2, R181: the ACQ reset, after all that the frame before it owes, and before a join would complete at
the same boundary (R9, R11; DESIGN CHOICE, unsafe: log 52). -/
def acqReset (s : State) : State :=
  if acqResetDue s then
    takeDomain (fun d => { d with acq := false }) (acqBlocks (frameEndWork s))
  else s

/-! ### PRINT and NOTICE resets (R168, R181) -/

/-- R168: the PRINT reset, once no line is in progress. -/
def printReset (s : State) : State :=
  if printResetDue s.link && !s.print.lineBusy then
    takeDomain (fun d => { d with print := false }) (printCleared s)
  else s

/-- R181: the NOTICE reset, as the RESET reply has left. -/
def noticeReset (s : State) : State := { s with link := s.link.noticeReset }

/-! ### Start of a frame (R1, R2) -/

/-- R2, R5, R25: the next frame begins. -/
def newFrame (s : State) : State :=
  let s := joinAtFrame
    (setBus
      (fun b =>
        { b with
          frame := nextFrame b, begun := true, frameTime := s.clock.time
          frameValid := s.clock.valid, inFrame := true
          prevCtrl := b.ctrl }) (ncoCarry s))
  setBus (fun b => { b with mask := allSlots.filter (slotReady s) }) s

/-- R2: the frame that has begun is a half-cycle boundary. -/
def isBoundary (s : State) : Bool := s.bus.frame % 64 == 0

/-- R68, R50: marks what a half-cycle boundary owes. -/
def markBoundary (s : State) : State :=
  let due := isBoundary s
  setSurvey (fun v => { v with changeDue := due && v.change.isSome })
    (setBus (fun b => { b with boundaryDue := due }) s)

/-- R1. What a mismatched join at this frame clears is removed before the frame's closes, so it is not
among them (DESIGN CHOICE, unsafe: log 41), and the closes by loss come before the interval boundaries
that fall at the same frame and before the half-cycle boundary at it: their INTERVAL records reach the
write queue before its EVENT records (R79, R111; DESIGN CHOICE, unsafe: log 42). POD_JOIN is posted before
INTERVAL_CLOSE, and that before EVENT_OPEN and EVENT_CLOSE (DESIGN CHOICE, unsafe: log 33). -/
def beginFrame (s : State) : State :=
  let s :=
    markBoundary (intervalsAtFrame (nextMoment (referenceAtFrame (selectControl (newFrame s)))))
  if stopDue s then s else lossCloses s

/-- R1: an NCO carry begins a frame, once all that is due before it has been taken. An ACQ reset comes
before the join that would complete as the frame begins. (DESIGN CHOICE, unsafe: log 52.) -/
def frameStart (s : State) : State :=
  if s.bus.inFrame then s
  else beginFrame (acqReset (takeMidnight (frameEndWork (printReset (noticeReset s)))))

/-! ### Loss of power and hardware reset (R174, R175, R182) -/

/-- What a cut erase leaves of a sector (R130). -/
def cutSector (n sector : Nat) (m : Memory) : Memory :=
  (List.range 64).foldl
    (fun m block =>
      match Config.cutErase n block with
      | .survives => m
      | .erased => Memory.erase m (blockAddress (sector, block)) 256
      | .padding => Memory.write m (blockAddress (sector, block)) (List.replicate 256 0)) m

/-- A write in flight leaves its body programmed and no header (R130).
(DESIGN CHOICE, unsafe: log 9.) -/
def cutBody (c : Content) (loc : Nat × Nat) (m : Memory) : Memory :=
  Memory.write m (blockAddress loc) (bodyBytes c)

/-- What a cut wipe leaves (R136): some sectors erased from 0 upward, and the next one cut; or all of
them erased, and the LOCK_MARK record of step 5 not begun, cut or written. -/
def cutWipe (n : Nat) (clock : Clock) (st : Store) : Memory :=
  let k := Config.cutWipe n % 67
  if k < 64 then cutSector n k (Memory.erase st.array 0 (k * 16384))
  else (([] : Memory) :: firstLockStages clock st.wiped).getD (k - 64) []

/-- What a cut mount leaves (R131, R175). -/
def cutMount (n : Nat) (clock : Clock) (st : Store) : Memory :=
  let stages := mountStages clock st
  stages.getD (Config.cutMount n % stages.length) st.array

/-- The array after the operation in flight is cut, with free choice `n`: one of R124, a wipe or a
mount. -/
def cutArray (n : Nat) (clock : Clock) (st : Store) : Memory :=
  match st.op with
  | some (.write _ loc _ _) =>
    match st.queue with
    | q :: _ => cutBody q.content loc st.array
    | [] => st.array
  | some (.copy kind id _ loc _) =>
    match findEntry st kind id with
    | some e => cutBody (contentOf st e) loc st.array
    | none => st.array
  | some (.mark m) => Memory.write st.array (blockAddress m.loc + 32) [deadStatus]
  | some (.erase sector) => cutSector n sector st.array
  | some (.extend loc) => if Config.cutStep n then (st.programStep loc).array else st.array
  | none =>
    match st.state with
    | .wiping => cutWipe n clock st
    | .mounting => cutMount n clock st
    | _ => st.array

/-- The latched straps' reset values, with what a hardware reset keeps: the array, the inputs, the
queue of commands and the model's counter. (DESIGN CHOICE, unsafe: log 7.) -/
def resetState (straps : Straps) (clock : Clock) (s : State) : State :=
  { State.reset with
    straps := straps, clock := clock, tracker := Tracker.reset straps
    store := { array := s.store.array }, print := { paper := s.print.paper }
    free := s.free, pending := s.pending }

/-- An operation in flight is cut (R130, R174). -/
def cut (s : State) : State :=
  let (n, s) := drawFree s
  setStore (fun st => { st with array := cutArray n s.clock st, op := none }) s

/-- R174: the brownout detector takes the part into reset; the clock runs on. -/
def brownout (s : State) : State :=
  { resetState s.straps s.clock (cut s) with held := true, link := { cause := .brownout } }

def causeOf : ResetSource → ResetCause
  | .power => .power
  | .pin => .pin
  | .brownout => .brownout

/-- R40: the clock is kept while the backup cell holds. -/
def clockAfter (backupHeld : Bool) (c : Clock) : Clock :=
  if backupHeld then { c with midnightDue := false } else {}

/-- The store's state before a hardware reset: the reset pin finds it in a running part, and a part that
lost its supply has lost it. (DESIGN CHOICE, safe: log 35.) -/
def stateBefore (source : ResetSource) (s : State) : StoreState × State :=
  if source == .pin then (s.store.state, s)
  else
    let (n, s) := drawFree s
    (lostStoreState n, s)

/-- R137: the store has entered MOUNTING by a hardware reset and posts STORE_STATE. -/
def postMounting (old : StoreState) (s : State) : State :=
  let (n, s) := drawFree s
  post (mountingNotice old n) s

/-- R175, R182: a hardware reset. A part that the brownout detector holds has been cut already; the
detector's release and a power-up end the hold, and the reset pin does not (R174; DEDUCED, safe: log 31).
The notice queue is empty (R180), and the store's STORE_STATE is posted as the part is released (R137; what
it carries is free where the spec leaves it open: log 35). -/
def hardwareReset (source : ResetSource) (straps : Straps) (backupHeld : Bool) (s : State) : State :=
  if s.held && source == .pin then s
  else
    let (old, s) := stateBefore source (if s.held then s else cut s)
    postMounting old
      { resetState straps (clockAfter backupHeld s.clock) s with link := { cause := causeOf source } }

/-! ### Clock (R19, R40) -/

/-- R40: one millisecond; a midnight not yet taken is taken first (R19). -/
def clockTick (s : State) : State :=
  let s := takeMidnight s
  { s with clock := s.clock.tick }

/-- R40: the next millisecond wraps the seconds count. -/
def wrapDue (c : Clock) : Bool := c.time.sec == max32 && c.time.ms == 999

def clockWrap (s : State) : State := if wrapDue s.clock then clockTick s else s

end Sys2Proof.Machine
end

