-- ==== Sys2Proof/Machine/Link.lean ====
section
/-!
DEFINITION. The control link: receiver, receive queue, the request in progress, the transmitter and the
requests of chapter 11 (R176 to R183).
-/
namespace Sys2Proof.Machine

def setLink (f : Link → Link) (s : State) : State := { s with link := f s.link }

/-! ### Requests of the link (R180 to R182) -/

/-- R180: a set that names a kind outside the fourteen is refused. -/
def noticeMask (mask : Half) (s : State) : State :=
  if 0x3FFF < mask.toNat then refuse .badValue s
  else answer .ok (.mask mask) (setLink (fun l => { l with mask := mask }) s)

/-- The reply of the request in progress goes to the reply place and the request stays in progress. -/
def Link.replyKept (status : Status) (l : Link) : Link :=
  match l.current with
  | some c => { l with reply := some ⟨replyKind c.kind, c.tag, status, .empty⟩ }.startTransmit
  | none => l

/-- R181, R182: an accepted RESET. -/
def acceptReset (d : Domains) (s : State) : State :=
  setLink
    (fun l =>
      Link.replyKept .ok
        { l with
          cause := .link, domains := d, resets := satInc 65535 l.resets, owed := some ⟨d, false⟩ }) s

/-- R181. -/
def linkReset (domains : Byte) (s : State) : State :=
  match domains? domains with
  | none => refuse .badValue s
  | some d => acceptReset d s

/-- R182. -/
def identify (s : State) : State :=
  let l := s.link
  answer .ok
    (.identify 0x1E7A 0x0040 1 s.straps l.cause l.domains l.resets l.framing l.crc l.overrun l.lost) s

/-! ### Serving (R177, R183) -/

/-- R183: a request goes to the rule that owns its kind. -/
def serve : Request → State → State
  | .podRoster => podRoster
  | .podStatus slot => podStatus slot
  | .podRetry slot => podRetry slot
  | .podClear slot => podClear slot
  | .trackRef slot => trackRef slot
  | .trackFixed freq => trackFixed freq
  | .trackStatus clear => trackStatus clear
  | .clockSet sec ms => clockSet sec ms
  | .siteSet site carried => siteSet site carried
  | .siteGet site => siteGet site
  | .assign slot site role => assign slot site role
  | .surveyStart => surveyStart
  | .surveyHold => surveyHold
  | .surveyResume => surveyResume
  | .surveyEnd => surveyEnd
  | .surveyNew => surveyNew
  | .surveyStatus => surveyStatus
  | .sagStatus site => sagStatus site
  | .captureList => captureList
  | .captureRead slot segment member first cycles => captureRead slot segment member first cycles
  | .captureRelease slot serial => captureRelease slot serial
  | .harmonicStatus site => harmonicStatus site
  | .storeStatus => storeStatus
  | .storeMode mode => storeMode mode
  | .recordList kind fromId count => recordList kind fromId count
  | .recordRead kind id => recordRead kind id
  | .recordDelete kind id => recordDelete kind id
  | .storeWipe => storeWipe
  | .noteAdd site kind id crew text => noteAdd site kind id crew text
  | .noteAmend id crew text => noteAmend id crew text
  | .noteAttach id kind target => noteAttach id kind target
  | .noteDelete id => noteDelete id
  | .noteLock upto => noteLock upto
  | .noteList fromId count => noteList fromId count
  | .printSubmit copies sections => printSubmit copies sections
  | .printCancel job => printCancel job
  | .printResume => printResume
  | .printDoneRead => printDoneRead
  | .printStatus => printStatus
  | .supplySet low critical schedule => supplySet low critical schedule
  | .supplyStatus clear => supplyStatus clear
  | .noticeMask mask => noticeMask mask
  | .reset domains => linkReset domains
  | .identify => identify

/-- R177: a frame is taken: its kind, then its length, then the request. -/
def takeFrame (f : Frame) (s : State) : State :=
  let s := setLink (fun l => { l with current := some ⟨f.kind, f.tag, false⟩ }) s
  match decodeRequest f.kind f.payload with
  | .unknownKind => refuse .unknownKind s
  | .badLength => refuse .badLength s
  | .ok r => serve r s

/-- R177: no request is in progress and the last reply has been handed to the transmitter.
(DEDUCED, unsafe: log 24.) -/
def linkFree (l : Link) : Bool := l.current.isNone && l.reply.isNone && l.owed.isNone

/-- Takes waiting frames while the link is free; `fuel` of them at most. -/
def pumpFrom : Nat → State → State
  | 0, s => s
  | fuel + 1, s =>
    match s.link.queue with
    | [] => s
    | f :: rest =>
      if linkFree s.link then
        pumpFrom fuel (takeFrame f (setLink (fun l => { l with queue := rest }) s))
      else s

/-- R177: the oldest waiting frame is taken as soon as the link is free. A command that frees the link has
had its other effects by then. (DEDUCED, unsafe: log 24.) -/
def pump (s : State) : State := pumpFrom Config.receivePlaces s

/-- R177: a good frame is offered to the receive queue. -/
def offerFrame (f : Frame) (s : State) : State :=
  if s.link.queue.length < Config.receivePlaces then
    pump (setLink (fun l => { l with queue := l.queue ++ [f] }) s)
  else setLink (fun l => { l with overrun := satInc max32 l.overrun }) s

/-- The arrival of a request as one good frame: taken at once where the link is free, and otherwise
offered to the receive queue. -/
def arrive (tag : Byte) (r : Request) (s : State) : State :=
  if linkFree s.link && s.link.queue.isEmpty then
    pump (serve r (setLink (fun l => { l with current := some ⟨requestCode r, tag, false⟩ }) s))
  else offerFrame ⟨requestCode r, tag, encodeRequest r⟩ s

/-! ### Receiver (R176) -/

/-- A fault ends the frame: FRAMING is counted and the receiver returns to HUNT. -/
def framingFault (s : State) : State :=
  setLink (fun l => { l with rx := .hunt, framing := satInc max32 l.framing }) s

/-- The four header bytes have been collected: length, kind and tag. (DEDUCED, unsafe: log 24.) -/
def headerDone (h : List Byte) (s : State) : State :=
  if 1000 < field h 0 2 then framingFault s
  else setLink (fun l => { l with rx := .body (field h 0 2) (field h 2 1) (field h 3 1) [] }) s

/-- R176: the last CRC byte has arrived. -/
def checkFrame (length kind tag : Nat) (b : List Byte) (s : State) : State :=
  let s := setLink (fun l => { l with rx := .hunt }) s
  if crc16 (le 2 length ++ le 1 kind ++ le 1 tag ++ b.take length) = field b length 2 then
    offerFrame ⟨kind, BitVec.ofNat 8 tag, b.take length⟩ s
  else setLink (fun l => { l with crc := satInc max32 l.crc }) s

/-- R176: a byte with its stop bit. -/
def goodByte (b : Byte) (s : State) : State :=
  match s.link.rx with
  | .hunt => if b = 0xA5 then setLink (fun l => { l with rx := .header [] }) s else s
  | .header bs =>
    let bs := bs ++ [b]
    if bs.length < 4 then setLink (fun l => { l with rx := .header bs }) s else headerDone bs s
  | .body length kind tag bs =>
    let bs := bs ++ [b]
    if bs.length < length + 2 then setLink (fun l => { l with rx := .body length kind tag bs }) s
    else checkFrame length kind tag bs s

/-- The receiver is in HEADER or BODY. -/
def receiving (l : Link) : Bool := l.rx != .hunt

/-- R176. -/
def receiveByte (b : Byte) (stopBit : Bool) (s : State) : State :=
  if stopBit then goodByte b s else if receiving s.link then framingFault s else s

/-- R176: more than 20 ms between two bytes of one frame. -/
def interbyteTimeout (s : State) : State := if receiving s.link then framingFault s else s

/-! ### Transmitter (R179, R181) -/

/-- The frame that has left was the reply of the RESET in progress: a reply, with none waiting. -/
def resetReplied (f : OutFrame) (l : Link) : Bool :=
  match f with
  | .reply _ => l.reply.isNone
  | .notice .. => false

/-- R179, R181: the last byte of the frame being sent has left. -/
def Link.transmitDone (l : Link) : Link :=
  match l.sending with
  | none => l
  | some f =>
    let owed := l.owed.map fun o => { o with replySent := o.replySent || resetReplied f l }
    { l with sending := none, owed := owed }.startTransmit

def transmitDone (s : State) : State := setLink Link.transmitDone s

end Sys2Proof.Machine
end

