-- ==== Sys2Proof/Machine/Events.lean ====
section
/-!
DEFINITION. The meanings of the part's events, one for each row of the table that is no request.
-/
namespace Sys2Proof.Machine

/-- An event: first its effect, and then, where the link has become free, the oldest frame that waits
(R177; DEDUCED, unsafe: log 24). -/
def event (f : State → State) (s : State) : Host.Outcome State Fault Refusal :=
  running (fun s => pump (f s)) s

/-- HARDWARE_RESET (R175). Power-up, reset pin or brownout release resets the whole part, latches
the straps and starts every block from its reset values. Power-up and release act on a part that the
brownout detector holds too. -/
def execHardwareReset (source : ResetSource) (straps : Straps) (backupHeld : Bool) (s : State) :
    Host.Outcome State Fault Refusal :=
  .next (hardwareReset source straps backupHeld s)

/-- BROWNOUT (R174). The supply falls below 8.00 V and the brownout detector holds the part in reset
until the supply reaches 8.30 V. -/
def execBrownout (s : State) : Host.Outcome State Fault Refusal :=
  running brownout s

/-- FRAME_START (R1). A sample NCO carry gives a strobe, and the PBC begins a pod-bus frame by
driving frame sync. -/
def execFrameStart (s : State) : Host.Outcome State Fault Refusal :=
  event frameStart s

/-- FRAME_END (R22). A frame's words have all arrived, and the corrector delivers the frame's
corrected samples to their consumers. -/
def execFrameEnd (words : List BusWord) (s : State) : Host.Outcome State Fault Refusal :=
  event (frameEnd words) s

/-- POD_LOST (R15). The eighth consecutive dropout makes the pod lost: the entry becomes ABSENT and
POD_LEAVE is posted. -/
def execPodLost (slot : Nat) (s : State) : Host.Outcome State Fault Refusal :=
  event (podLost slot) s

/-- POD_STUCK (R16). The 1,024th identical good code makes the pod stuck: the entry becomes FAULT,
cause STUCK, and POD_FAULT is posted. -/
def execPodStuck (slot : Nat) (s : State) : Host.Outcome State Fault Refusal :=
  event (podStuck slot) s

/-- NO_CROSSING_TIMEOUT (R33). In LOCKED, 256 frames without a confirmed crossing take the tracker
to HOLDOVER. -/
def execNoCrossingTimeout (s : State) : Host.Outcome State Fault Refusal :=
  event noCrossingTimeout s

/-- WINDOW_COMPLETE (R99). A member's 1,024th window frame completes the window, which is judged
counted or excluded and handed to its interval accumulator. -/
def execWindowComplete (site role : Nat) (s : State) : Host.Outcome State Fault Refusal :=
  event (windowComplete site role) s

/-- HALF_CYCLE_BOUNDARY (R68). A frame count that is a multiple of 64 passes: the boundary history
is entered and each site's channels and event are judged. -/
def execHalfCycleBoundary (s : State) : Host.Outcome State Fault Refusal :=
  event halfCycleBoundary s

/-- CAPTURE_COMPLETE (R89). The frame that fills a slot's last segment makes the slot COMPLETE after
its event has closed. -/
def execCaptureComplete (slot : Nat) (s : State) : Host.Outcome State Fault Refusal :=
  event (captureComplete slot) s

/-- START_BOUNDARY (R49). A pending start takes effect at a half-cycle boundary: the survey enters
RECORDING and the waiting request is answered. -/
def execStartBoundary (s : State) : Host.Outcome State Fault Refusal :=
  event startBoundary s

/-- STOP_BOUNDARY (R55). A pending stop takes effect at a half-cycle boundary: events close
TRUNCATED, captures truncate, intervals close PARTIAL and the survey enters HELD or ENDED. -/
def execStopBoundary (s : State) : Host.Outcome State Fault Refusal :=
  event stopBoundary s

/-- INTERVAL_BOUNDARY (R109). At a site's close frame, every accumulator of the site closes, makes a
record or counts empty, and a fresh one opens. -/
def execIntervalBoundary (site : Nat) (s : State) : Host.Outcome State Fault Refusal :=
  event (siteBoundary site) s

/-- CLOCK_MIDNIGHT (R19). The clock's seconds reach a multiple of 86,400, and CAL_DUE is evaluated
for every entry that holds an identity. The clock runs on while the part is held (R174). -/
def execClockMidnight (s : State) : Host.Outcome State Fault Refusal :=
  .next (takeMidnight s)

/-- CLOCK_WRAP (R40). The seconds count passes 4,294,967,295 and wraps to 0, and CLOCK_VALID becomes
0. The clock runs on while the part is held (R174). -/
def execClockWrap (s : State) : Host.Outcome State Fault Refusal :=
  .next (clockWrap s)

/-- ACQ_RESET (R2). A link ACQ reset is taken at the first frame boundary after its reply, resetting
the roster, tracker and recording blocks. -/
def execAcqReset (s : State) : Host.Outcome State Fault Refusal :=
  event acqReset s

/-- PRINT_RESET (R168). A link PRINT reset, taken after its reply and after any line in progress
completes, discards jobs, done entries and pins. -/
def execPrintReset (s : State) : Host.Outcome State Fault Refusal :=
  event printReset s

/-- NOTICE_RESET (R181). As the RESET reply's last byte leaves, the notice queue, lost count, mask
and notice sequence are reset. -/
def execNoticeReset (s : State) : Host.Outcome State Fault Refusal :=
  event noticeReset s

/-- SUPPLY_READING (R170). A supply reading is taken at its scheduled or forced time and updates the
four run counts. -/
def execSupplyReading (input : Nat) (s : State) : Host.Outcome State Fault Refusal :=
  event (supplyReading input) s

/-- HEAD_TEMPERATURE_READING (R150). A head temperature reading updates the class COOL, HOT or
OVERHEAT. -/
def execHeadTemperatureReading (celsius : Int) (s : State) : Host.Outcome State Fault Refusal :=
  event (headTemperature celsius) s

/-- PAPER_SENSOR_CHANGE (R162). The paper sensor reports absent during a line, stopping the line and
setting the paper-out latch. While the part is held the sensor's reading alone moves. -/
def execPaperSensorChange (present : Bool) (s : State) : Host.Outcome State Fault Refusal :=
  if s.held then .next (setPrint (fun p => { p with paper := present }) s)
  else event (paperChange present) s

/-- DOT_LINE_DONE (R159). A dot line printed to its last dot is stepped and counted, and the next
line boundary is taken. -/
def execDotLineDone (s : State) : Host.Outcome State Fault Refusal :=
  event dotLineDone s

/-- SECTION_FETCH (R156). The fetch unit takes a snapshot of the next item into a free cache entry,
waiting for a sector erase when one is in flight. -/
def execSectionFetch (s : State) : Host.Outcome State Fault Refusal :=
  event sectionFetch s

/-- RECORD_WRITE_DONE (R124). A record's header is programmed: its entry becomes LIVE and its queue
place is freed and announced. -/
def execRecordWriteDone (s : State) : Host.Outcome State Fault Refusal :=
  event recordWriteDone s

/-- RELOCATION_COPY_DONE (R126). A relocation copy's header is programmed, its entry moves to the
new location and a DEAD mark is owed for the old copy. -/
def execRelocationCopyDone (s : State) : Host.Outcome State Fault Refusal :=
  event relocationCopyDone s

/-- DEAD_MARK_DONE (R124). A header status is programmed DEAD in place, answering a waiting delete
or letting the reclaim go on. -/
def execDeadMarkDone (s : State) : Host.Outcome State Fault Refusal :=
  event deadMarkDone s

/-- SECTOR_ERASE_DONE (R126). The reclaim sector's erase completes: its entries are removed, the
reclaim is counted and the trigger is checked again. -/
def execSectorEraseDone (s : State) : Host.Outcome State Fault Refusal :=
  event eraseDone s

/-- EXTENSION_STEP_DONE (R120). An extension step is programmed, every limit rises by 1,024 and the
extension sector is set. -/
def execExtensionStepDone (s : State) : Host.Outcome State Fault Refusal :=
  event extensionStepDone s

/-- MOUNT_COMPLETE (R131). The mount scan ends: duplicates are resolved, ids and sequence are set,
the lock mark and mode are taken and the store leaves MOUNTING. -/
def execMountComplete (s : State) : Host.Outcome State Fault Refusal :=
  event mountComplete s

/-- WIPE_COMPLETE (R136). The wipe's erases end, counters restart, a LOCK_MARK with mark 0 is
written and the store enters READY. -/
def execWipeComplete (s : State) : Host.Outcome State Fault Refusal :=
  event wipeComplete s

/-- LINK_BYTE_RECEIVED (R176). A byte arrives on the control link and advances the receiver through
HUNT, HEADER and BODY. -/
def execLinkByteReceived (byte : Byte) (stopBit : Bool) (s : State) :
    Host.Outcome State Fault Refusal :=
  event (receiveByte byte stopBit) s

/-- INTERBYTE_TIMEOUT (R176). More than 20 ms pass between two bytes of a frame, which is abandoned
with a FRAMING count. -/
def execInterbyteTimeout (s : State) : Host.Outcome State Fault Refusal :=
  event interbyteTimeout s

/-- UNKNOWN_KIND (R177). A taken frame whose kind is not a request kind is answered UNKNOWN_KIND. -/
def execUnknownKind (kind tag : Byte) (s : State) : Host.Outcome State Fault Refusal :=
  event (offerFrame ⟨kind.toNat, tag, []⟩) s

/-- TRANSMIT_DONE (R179). The transmitter finishes a frame and begins the waiting reply or the
oldest notice. -/
def execTransmitDone (s : State) : Host.Outcome State Fault Refusal :=
  event transmitDone s

/-- CLOCK_TICK (R40). The clock's own oscillator advances the milliseconds count once per
millisecond, returning it to 0 after 999 and incrementing the seconds count. The clock runs on while
the part is held (R174). -/
def execClockTick (s : State) : Host.Outcome State Fault Refusal :=
  .next (clockTick s)

end Sys2Proof.Machine
end

