-- ==== Sys2Proof/Machine/Requests.lean ====
section
/-!
DEFINITION. The meanings of the requests of R183: the arrival of each as one good frame with its tag.
-/
namespace Sys2Proof.Machine

/-- POD_ROSTER (R21). Returns every slot's state, identity summary, the slot mask and the frame
count. -/
def execPodRoster (tag : Byte) (s : State) : Host.Outcome State Fault Refusal :=
  running (arrive tag .podRoster) s

/-- POD_STATUS (R21). Returns the whole roster entry of one slot. -/
def execPodStatus (tag : Byte) (slot : Byte) (s : State) : Host.Outcome State Fault Refusal :=
  running (arrive tag (.podStatus slot)) s

/-- POD_RETRY (R20). Returns a FAULT slot to ABSENT so that it is probed again. -/
def execPodRetry (tag : Byte) (slot : Byte) (s : State) : Host.Outcome State Fault Refusal :=
  running (arrive tag (.podRetry slot)) s

/-- POD_CLEAR (R20). Clears a slot's sticky flags and counts. -/
def execPodClear (tag : Byte) (slot : Byte) (s : State) : Host.Outcome State Fault Refusal :=
  running (arrive tag (.podClear slot)) s

/-- TRACK_REF (R27). Sets the tracker's reference selection to DEFAULT or a voltage slot. -/
def execTrackRef (tag : Byte) (slot : Byte) (s : State) : Host.Outcome State Fault Refusal :=
  running (arrive tag (.trackRef slot)) s

/-- TRACK_FIXED (R35). Enters FIXED at a given frequency, or with 0 leaves FIXED for ACQUIRING. -/
def execTrackFixed (tag : Byte) (freq : Word) (s : State) : Host.Outcome State Fault Refusal :=
  running (arrive tag (.trackFixed freq)) s

/-- TRACK_STATUS (R36). Returns the tracker and rotation state and optionally clears UNLOCK_SEEN. -/
def execTrackStatus (tag : Byte) (clear : Bool) (s : State) : Host.Outcome State Fault Refusal :=
  running (arrive tag (.trackStatus clear)) s

/-- CLOCK_SET (R41). Sets the clock, makes CLOCK_VALID 1 and re-evaluates CAL_DUE. -/
def execClockSet (tag : Byte) (sec : Word) (ms : Half) (s : State) :
    Host.Outcome State Fault Refusal :=
  running (arrive tag (.clockSet sec ms)) s

/-- SITE_SET (R43). Changes and clamps the settings of one site. -/
def execSiteSet (tag : Byte) (site : Byte) (carried : CarriedSettings) (s : State) :
    Host.Outcome State Fault Refusal :=
  running (arrive tag (.siteSet site carried)) s

/-- SITE_GET (R47). Returns the whole entry of one site. -/
def execSiteGet (tag : Byte) (site : Byte) (s : State) : Host.Outcome State Fault Refusal :=
  running (arrive tag (.siteGet site)) s

/-- ASSIGN (R45). Places a pod slot in a site member position or takes it out of the table. -/
def execAssign (tag : Byte) (slot site role : Byte) (s : State) :
    Host.Outcome State Fault Refusal :=
  running (arrive tag (.assign slot site role)) s

/-- SURVEY_START (R51). Makes a start pending from SETUP, answered at the start boundary. -/
def execSurveyStart (tag : Byte) (s : State) : Host.Outcome State Fault Refusal :=
  running (arrive tag .surveyStart) s

/-- SURVEY_HOLD (R52). Makes a stop with cause LINK_REQUEST pending from RECORDING. -/
def execSurveyHold (tag : Byte) (s : State) : Host.Outcome State Fault Refusal :=
  running (arrive tag .surveyHold) s

/-- SURVEY_RESUME (R53). Makes a start pending from HELD. -/
def execSurveyResume (tag : Byte) (s : State) : Host.Outcome State Fault Refusal :=
  running (arrive tag .surveyResume) s

/-- SURVEY_END (R54). Ends the survey: pending at a stop boundary from RECORDING, at once from HELD.
-/
def execSurveyEnd (tag : Byte) (s : State) : Host.Outcome State Fault Refusal :=
  running (arrive tag .surveyEnd) s

/-- SURVEY_NEW (R54). Takes an ENDED survey to SETUP with the next survey number. -/
def execSurveyNew (tag : Byte) (s : State) : Host.Outcome State Fault Refusal :=
  running (arrive tag .surveyNew) s

/-- SURVEY_STATUS (R58). Returns the survey state, times, pending indications, the clock and the
site counts. -/
def execSurveyStatus (tag : Byte) (s : State) : Host.Outcome State Fault Refusal :=
  running (arrive tag .surveyStatus) s

/-- SAG_STATUS (R81). Returns the sag detector's view of one site. -/
def execSagStatus (tag : Byte) (site : Byte) (s : State) : Host.Outcome State Fault Refusal :=
  running (arrive tag (.sagStatus site)) s

/-- CAPTURE_LIST (R92). Returns the state and content summary of every capture slot. -/
def execCaptureList (tag : Byte) (s : State) : Host.Outcome State Fault Refusal :=
  running (arrive tag .captureList) s

/-- CAPTURE_READ (R93). Returns whole recorded cycles of one member of one segment of a capture
slot. -/
def execCaptureRead (tag : Byte) (slot segment member first cycles : Byte) (s : State) :
    Host.Outcome State Fault Refusal :=
  running (arrive tag (.captureRead slot segment member first cycles)) s

/-- CAPTURE_RELEASE (R94). Frees a COMPLETE capture slot, or makes a pinned one RELEASE_PENDING. -/
def execCaptureRelease (tag : Byte) (slot : Byte) (serial : Option Half) (s : State) :
    Host.Outcome State Fault Refusal :=
  running (arrive tag (.captureRelease slot serial)) s

/-- HARMONIC_STATUS (R114). Returns the harmonic engine's view of one site. -/
def execHarmonicStatus (tag : Byte) (site : Byte) (s : State) : Host.Outcome State Fault Refusal :=
  running (arrive tag (.harmonicStatus site)) s

/-- STORE_STATUS (R135). Returns the store's state, block counts, ids, drop and discard counts. -/
def execStoreStatus (tag : Byte) (s : State) : Host.Outcome State Fault Refusal :=
  running (arrive tag .storeStatus) s

/-- STORE_MODE (R129). Sets the store mode to OVERWRITE or STOP and re-checks FULL. -/
def execStoreMode (tag : Byte) (mode : Byte) (s : State) : Host.Outcome State Fault Refusal :=
  running (arrive tag (.storeMode mode)) s

/-- RECORD_LIST (R132). Lists QUEUED and LIVE records of one kind from a given id. -/
def execRecordList (tag : Byte) (kind : Byte) (fromId : Word) (count : Byte) (s : State) :
    Host.Outcome State Fault Refusal :=
  running (arrive tag (.recordList kind fromId count)) s

/-- RECORD_READ (R133). Returns one record's content and directory state. -/
def execRecordRead (tag : Byte) (kind : Byte) (id : Word) (s : State) :
    Host.Outcome State Fault Refusal :=
  running (arrive tag (.recordRead kind id)) s

/-- RECORD_DELETE (R134). Removes a record from use, answered when its DEAD mark is programmed. -/
def execRecordDelete (tag : Byte) (kind : Byte) (id : Word) (s : State) :
    Host.Outcome State Fault Refusal :=
  running (arrive tag (.recordDelete kind id)) s

/-- STORE_WIPE (R136). Starts the erasure of the whole array and enters WIPING. -/
def execStoreWipe (tag : Byte) (s : State) : Host.Outcome State Fault Refusal :=
  running (arrive tag .storeWipe) s

/-- NOTE_ADD (R140). Queues a new note, optionally attached to an EVENT or INTERVAL record. -/
def execNoteAdd (tag : Byte) (site attachKind : Byte) (attachId : Word) (crew : Crew)
    (text : List Byte) (s : State) : Host.Outcome State Fault Refusal :=
  running (arrive tag (.noteAdd site attachKind attachId crew text)) s

/-- NOTE_AMEND (R141). Queues a new note that amends the tail of a chain. -/
def execNoteAmend (tag : Byte) (id : Word) (crew : Crew) (text : List Byte) (s : State) :
    Host.Outcome State Fault Refusal :=
  running (arrive tag (.noteAmend id crew text)) s

/-- NOTE_ATTACH (R142). Gives an attach to a note that has none, in place or by a queued
replacement. -/
def execNoteAttach (tag : Byte) (id : Word) (kind : Byte) (target : Word) (s : State) :
    Host.Outcome State Fault Refusal :=
  running (arrive tag (.noteAttach id kind target)) s

/-- NOTE_DELETE (R144). Removes an unlocked, unpinned tail note from use. -/
def execNoteDelete (tag : Byte) (id : Word) (s : State) : Host.Outcome State Fault Refusal :=
  running (arrive tag (.noteDelete id)) s

/-- NOTE_LOCK (R145). Raises the lock mark by queuing a LOCK_MARK record, answered when it is
written. -/
def execNoteLock (tag : Byte) (upto : Word) (s : State) : Host.Outcome State Fault Refusal :=
  running (arrive tag (.noteLock upto)) s

/-- NOTE_LIST (R147). Lists notes with their links, depth, lock state and marks. -/
def execNoteList (tag : Byte) (fromId : Word) (count : Byte) (s : State) :
    Host.Outcome State Fault Refusal :=
  running (arrive tag (.noteList fromId count)) s

/-- PRINT_SUBMIT (R154). Checks a print job, pins its records and capture slots, and places it in
the ring. -/
def execPrintSubmit (tag : Byte) (copies : Byte) (sections : List Section) (s : State) :
    Host.Outcome State Fault Refusal :=
  running (arrive tag (.printSubmit copies sections)) s

/-- PRINT_CANCEL (R164). Removes a QUEUED job or takes an ACTIVE job into CANCELLING. -/
def execPrintCancel (tag : Byte) (job : Half) (s : State) : Host.Outcome State Fault Refusal :=
  running (arrive tag (.printCancel job)) s

/-- PRINT_RESUME (R162). Clears the paper-out latch when paper is present. -/
def execPrintResume (tag : Byte) (s : State) : Host.Outcome State Fault Refusal :=
  running (arrive tag .printResume) s

/-- PRINT_DONE_READ (R166). Removes and returns the oldest done entry. -/
def execPrintDoneRead (tag : Byte) (s : State) : Host.Outcome State Fault Refusal :=
  running (arrive tag .printDoneRead) s

/-- PRINT_STATUS (R167). Returns the print engine's mechanism, buffer, job and count state. -/
def execPrintStatus (tag : Byte) (s : State) : Host.Outcome State Fault Refusal :=
  running (arrive tag .printStatus) s

/-- SUPPLY_SET (R171). Sets and clamps the supply thresholds and schedule and zeroes the run counts.
-/
def execSupplySet (tag : Byte) (low critical : Option Half) (schedule : Option Byte) (s : State) :
    Host.Outcome State Fault Refusal :=
  running (arrive tag (.supplySet low critical schedule)) s

/-- SUPPLY_STATUS (R173). Returns the supply level, readings and counts, optionally clearing the
lowest reading. -/
def execSupplyStatus (tag : Byte) (clear : Bool) (s : State) : Host.Outcome State Fault Refusal :=
  running (arrive tag (.supplyStatus clear)) s

/-- NOTICE_MASK (R180). Sets the set of notice kinds enabled. -/
def execNoticeMask (tag : Byte) (mask : Half) (s : State) : Host.Outcome State Fault Refusal :=
  running (arrive tag (.noticeMask mask)) s

/-- RESET (R181). Resets the named link reset domains after its reply has been sent. -/
def execReset (tag : Byte) (domains : Byte) (s : State) : Host.Outcome State Fault Refusal :=
  running (arrive tag (.reset domains)) s

/-- IDENTIFY (R182). Returns the part identity, latched straps, reset record and link counters. -/
def execIdentify (tag : Byte) (s : State) : Host.Outcome State Fault Refusal :=
  running (arrive tag .identify) s

end Sys2Proof.Machine
end

