-- ==== Sys2Proof/Machine/Dispatch.lean ====
section
/-! DEFINITION. The dispatch of a command to its meaning, one arm for each row of the table. -/
namespace Sys2Proof.Machine

def exec (i : Instr) (s : State) : Host.Outcome State Fault Refusal :=
  match i with
  | .hardwareReset source straps backupHeld => Sys2Proof.Machine.execHardwareReset source straps backupHeld s
  | .brownout => Sys2Proof.Machine.execBrownout s
  | .frameStart => Sys2Proof.Machine.execFrameStart s
  | .frameEnd words => Sys2Proof.Machine.execFrameEnd words s
  | .podLost slot => Sys2Proof.Machine.execPodLost slot s
  | .podStuck slot => Sys2Proof.Machine.execPodStuck slot s
  | .noCrossingTimeout => Sys2Proof.Machine.execNoCrossingTimeout s
  | .windowComplete site role => Sys2Proof.Machine.execWindowComplete site role s
  | .halfCycleBoundary => Sys2Proof.Machine.execHalfCycleBoundary s
  | .captureComplete slot => Sys2Proof.Machine.execCaptureComplete slot s
  | .startBoundary => Sys2Proof.Machine.execStartBoundary s
  | .stopBoundary => Sys2Proof.Machine.execStopBoundary s
  | .intervalBoundary site => Sys2Proof.Machine.execIntervalBoundary site s
  | .clockMidnight => Sys2Proof.Machine.execClockMidnight s
  | .clockWrap => Sys2Proof.Machine.execClockWrap s
  | .acqReset => Sys2Proof.Machine.execAcqReset s
  | .printReset => Sys2Proof.Machine.execPrintReset s
  | .noticeReset => Sys2Proof.Machine.execNoticeReset s
  | .supplyReading input => Sys2Proof.Machine.execSupplyReading input s
  | .headTemperatureReading celsius => Sys2Proof.Machine.execHeadTemperatureReading celsius s
  | .paperSensorChange present => Sys2Proof.Machine.execPaperSensorChange present s
  | .dotLineDone => Sys2Proof.Machine.execDotLineDone s
  | .sectionFetch => Sys2Proof.Machine.execSectionFetch s
  | .recordWriteDone => Sys2Proof.Machine.execRecordWriteDone s
  | .relocationCopyDone => Sys2Proof.Machine.execRelocationCopyDone s
  | .deadMarkDone => Sys2Proof.Machine.execDeadMarkDone s
  | .sectorEraseDone => Sys2Proof.Machine.execSectorEraseDone s
  | .extensionStepDone => Sys2Proof.Machine.execExtensionStepDone s
  | .mountComplete => Sys2Proof.Machine.execMountComplete s
  | .wipeComplete => Sys2Proof.Machine.execWipeComplete s
  | .linkByteReceived byte stopBit => Sys2Proof.Machine.execLinkByteReceived byte stopBit s
  | .interbyteTimeout => Sys2Proof.Machine.execInterbyteTimeout s
  | .unknownKind kind tag => Sys2Proof.Machine.execUnknownKind kind tag s
  | .transmitDone => Sys2Proof.Machine.execTransmitDone s
  | .clockTick => Sys2Proof.Machine.execClockTick s
  | .podRoster tag => Sys2Proof.Machine.execPodRoster tag s
  | .podStatus tag slot => Sys2Proof.Machine.execPodStatus tag slot s
  | .podRetry tag slot => Sys2Proof.Machine.execPodRetry tag slot s
  | .podClear tag slot => Sys2Proof.Machine.execPodClear tag slot s
  | .trackRef tag slot => Sys2Proof.Machine.execTrackRef tag slot s
  | .trackFixed tag freq => Sys2Proof.Machine.execTrackFixed tag freq s
  | .trackStatus tag clear => Sys2Proof.Machine.execTrackStatus tag clear s
  | .clockSet tag sec ms => Sys2Proof.Machine.execClockSet tag sec ms s
  | .siteSet tag site carried => Sys2Proof.Machine.execSiteSet tag site carried s
  | .siteGet tag site => Sys2Proof.Machine.execSiteGet tag site s
  | .assign tag slot site role => Sys2Proof.Machine.execAssign tag slot site role s
  | .surveyStart tag => Sys2Proof.Machine.execSurveyStart tag s
  | .surveyHold tag => Sys2Proof.Machine.execSurveyHold tag s
  | .surveyResume tag => Sys2Proof.Machine.execSurveyResume tag s
  | .surveyEnd tag => Sys2Proof.Machine.execSurveyEnd tag s
  | .surveyNew tag => Sys2Proof.Machine.execSurveyNew tag s
  | .surveyStatus tag => Sys2Proof.Machine.execSurveyStatus tag s
  | .sagStatus tag site => Sys2Proof.Machine.execSagStatus tag site s
  | .captureList tag => Sys2Proof.Machine.execCaptureList tag s
  | .captureRead tag slot segment member first cycles => Sys2Proof.Machine.execCaptureRead tag slot segment member first cycles s
  | .captureRelease tag slot serial => Sys2Proof.Machine.execCaptureRelease tag slot serial s
  | .harmonicStatus tag site => Sys2Proof.Machine.execHarmonicStatus tag site s
  | .storeStatus tag => Sys2Proof.Machine.execStoreStatus tag s
  | .storeMode tag mode => Sys2Proof.Machine.execStoreMode tag mode s
  | .recordList tag kind fromId count => Sys2Proof.Machine.execRecordList tag kind fromId count s
  | .recordRead tag kind id => Sys2Proof.Machine.execRecordRead tag kind id s
  | .recordDelete tag kind id => Sys2Proof.Machine.execRecordDelete tag kind id s
  | .storeWipe tag => Sys2Proof.Machine.execStoreWipe tag s
  | .noteAdd tag site attachKind attachId crew text => Sys2Proof.Machine.execNoteAdd tag site attachKind attachId crew text s
  | .noteAmend tag id crew text => Sys2Proof.Machine.execNoteAmend tag id crew text s
  | .noteAttach tag id kind target => Sys2Proof.Machine.execNoteAttach tag id kind target s
  | .noteDelete tag id => Sys2Proof.Machine.execNoteDelete tag id s
  | .noteLock tag upto => Sys2Proof.Machine.execNoteLock tag upto s
  | .noteList tag fromId count => Sys2Proof.Machine.execNoteList tag fromId count s
  | .printSubmit tag copies sections => Sys2Proof.Machine.execPrintSubmit tag copies sections s
  | .printCancel tag job => Sys2Proof.Machine.execPrintCancel tag job s
  | .printResume tag => Sys2Proof.Machine.execPrintResume tag s
  | .printDoneRead tag => Sys2Proof.Machine.execPrintDoneRead tag s
  | .printStatus tag => Sys2Proof.Machine.execPrintStatus tag s
  | .supplySet tag low critical schedule => Sys2Proof.Machine.execSupplySet tag low critical schedule s
  | .supplyStatus tag clear => Sys2Proof.Machine.execSupplyStatus tag clear s
  | .noticeMask tag mask => Sys2Proof.Machine.execNoticeMask tag mask s
  | .reset tag domains => Sys2Proof.Machine.execReset tag domains s
  | .identify tag => Sys2Proof.Machine.execIdentify tag s

end Sys2Proof.Machine
end

