-- ==== Sys2Proof/Safety.lean ====
section
/-!
DEFINITION. What counts as a safe run, and the words the statements use: no command ends a run; the
store array keeps its canonical form, f keeps its range and K follows f, and the link's queues keep their bounds.
-/
namespace Sys2Proof

/-- The command of a request that arrives with a tag. -/
def Request.command (tag : Byte) : Request → Instr
  | .podRoster => .podRoster tag
  | .podStatus slot => .podStatus tag slot
  | .podRetry slot => .podRetry tag slot
  | .podClear slot => .podClear tag slot
  | .trackRef slot => .trackRef tag slot
  | .trackFixed freq => .trackFixed tag freq
  | .trackStatus clear => .trackStatus tag clear
  | .clockSet sec ms => .clockSet tag sec ms
  | .siteSet site carried => .siteSet tag site carried
  | .siteGet site => .siteGet tag site
  | .assign slot site role => .assign tag slot site role
  | .surveyStart => .surveyStart tag
  | .surveyHold => .surveyHold tag
  | .surveyResume => .surveyResume tag
  | .surveyEnd => .surveyEnd tag
  | .surveyNew => .surveyNew tag
  | .surveyStatus => .surveyStatus tag
  | .sagStatus site => .sagStatus tag site
  | .captureList => .captureList tag
  | .captureRead slot segment member first cycles => .captureRead tag slot segment member first cycles
  | .captureRelease slot serial => .captureRelease tag slot serial
  | .harmonicStatus site => .harmonicStatus tag site
  | .storeStatus => .storeStatus tag
  | .storeMode mode => .storeMode tag mode
  | .recordList kind fromId count => .recordList tag kind fromId count
  | .recordRead kind id => .recordRead tag kind id
  | .recordDelete kind id => .recordDelete tag kind id
  | .storeWipe => .storeWipe tag
  | .noteAdd site attachKind attachId crew text => .noteAdd tag site attachKind attachId crew text
  | .noteAmend id crew text => .noteAmend tag id crew text
  | .noteAttach id kind target => .noteAttach tag id kind target
  | .noteDelete id => .noteDelete tag id
  | .noteLock upto => .noteLock tag upto
  | .noteList fromId count => .noteList tag fromId count
  | .printSubmit copies sections => .printSubmit tag copies sections
  | .printCancel job => .printCancel tag job
  | .printResume => .printResume tag
  | .printDoneRead => .printDoneRead tag
  | .printStatus => .printStatus tag
  | .supplySet low critical schedule => .supplySet tag low critical schedule
  | .supplyStatus clear => .supplyStatus tag clear
  | .noticeMask mask => .noticeMask tag mask
  | .reset domains => .reset tag domains
  | .identify => .identify tag

namespace Machine

/-- The payload lengths of the requests without variable parts, by kind (R184). -/
def fixedLengths : Nat → List Nat
  | 0x01 | 0x0C | 0x0D | 0x0E | 0x0F | 0x10 | 0x11 | 0x13 | 0x17 | 0x1C => [0]
  | 0x25 | 0x26 | 0x27 | 0x2C => [0]
  | 0x02 | 0x03 | 0x04 | 0x05 | 0x07 | 0x0A | 0x12 | 0x16 | 0x18 | 0x29 | 0x2B => [1]
  | 0x15 => [1, 3]
  | 0x24 | 0x2A => [2]
  | 0x0B => [3]
  | 0x06 | 0x20 | 0x21 => [4]
  | 0x14 | 0x1A | 0x1B | 0x22 => [5]
  | 0x08 | 0x19 => [6]
  | 0x1F => [9]
  | _ => []

/-- The parameters of a section have the length of its code, where the code is known (R184). -/
def sectionSuits (code : Nat) (p : List Byte) : Bool :=
  match code with
  | 2 => p.length == 2
  | 3 => p.length == 9
  | 4 | 6 => p.length == 5
  | 5 => 5 ≤ p.length && p.length == 5 + (p.getD 4 0).toNat
  | 7 => p.length == 0
  | _ => true

/-- The sections of a job fill its bytes exactly (R184). -/
def sectionsSuit : Nat → List Byte → Bool
  | 0, p => p.isEmpty
  | n + 1, code :: len :: rest =>
    len.toNat ≤ rest.length && sectionSuits code.toNat (rest.take len.toNat) &&
      sectionsSuit n (rest.drop len.toNat)
  | _ + 1, _ => false

/-- The payload of a request kind has the length of its row, with the variable parts it declares (R184). -/
def payloadSuits (kind : Nat) (p : List Byte) : Bool :=
  let at_ := fun (i : Nat) => (p.getD i 0).toNat
  let size := fun (mask k width : Nat) => if mask.testBit k then width else 0
  match kind with
  | 0x09 =>
    let mask := at_ 1 + 256 * at_ 2
    let flag := size mask 0 1
    3 ≤ p.length && p.length == 3 + flag + size mask 1 (1 + at_ (3 + flag)) + size mask 2 2 +
      size mask 3 2 + size mask 4 1 + size mask 5 2 + size mask 6 1 + size mask 7 1 + size mask 8 1 +
      size mask 9 1 + size mask 10 1 + size mask 11 1 + size mask 12 1 + size mask 13 1
  | 0x1D => 11 ≤ p.length && p.length == 11 + at_ 9 + 256 * at_ 10
  | 0x1E => 9 ≤ p.length && p.length == 9 + at_ 7 + 256 * at_ 8
  | 0x23 => 2 ≤ p.length && sectionsSuit (at_ 1) (p.drop 2)
  | 0x28 =>
    1 ≤ p.length && p.length == 1 + size (at_ 0) 0 2 + size (at_ 0) 1 2 + size (at_ 0) 2 1
  | _ => (fixedLengths kind).contains p.length

/-- A run is safe as long as each step answers a next state: the part has no trap. -/
def Completes (s : State) : Prop := ∃ t, step s = .next t

/-- The store array is in its canonical form (R186: an erased byte reads 0xFF and has no cell). -/
def CanonicalStore (s : State) : Prop := Memory.wf s.store.array = true

/-- f is 42,000 to 69,999 mHz and K is its increment (R25). -/
def FreqOk (t : Tracker) : Prop := t.k = incrementOf t.f ∧ 42000 ≤ t.f ∧ t.f ≤ 69999

/-- The tracker's frequency and increment are sound. -/
def FrequencySound (s : State) : Prop := FreqOk s.tracker

/-- Every table has its size: 15 slots (R12), 4 sites of 8 member positions (R42, R44), their rotation
checks (R38), 3 sag channels (R59) and 8 accumulator positions (R105) a site, 4 pre-trigger rings (R82)
and 12 capture slots (R83). -/
def Shaped (s : State) : Prop :=
  s.roster.length = 15 ∧ s.receive.length = 15 ∧ s.rotation.length = 4 ∧
    (s.sites.length = 4 ∧ ∀ e ∈ s.sites, e.members.length = 8) ∧
    (s.sag.sites.length = 4 ∧ ∀ g ∈ s.sag.sites, g.channels.length = 3) ∧
    (s.capture.rings.length = 4 ∧ s.capture.slots.length = 12) ∧
    (s.harm.sites.length = 4 ∧ ∀ h ∈ s.harm.sites, h.members.length = 8)

/-- Every rotation check runs on the slots of the site's L1, L2 and L3 members, or on none (R38). -/
def RotationSound (s : State) : Prop :=
  ∀ site, site < 4 → (rotationOf s site).running = rotationRuns s site

/-- A site's rotation check from `s` to `t` (R38): it goes on where it runs on the slots that it ran on;
where the condition to run has stopped, or has begun to hold, or holds on other slots, it is UNKNOWN with
both counts 0 and its detectors DISARMED; and a change of its state is told by ROTATION. -/
def RotationFollows (site : Nat) (s t : State) : Prop :=
  let old := rotationOf s site
  let new := rotationOf t site
  let check := (siteOf t site).settings.rotCheck
  (∀ a b c, check = true → memberOf t site 0 = some a → memberOf t site 1 = some b →
    memberOf t site 2 = some c → a.active = true → b.active = true → c.active = true →
    new = if old.running = some (a.slot, b.slot, c.slot) then old
      else { running := some (a.slot, b.slot, c.slot) }) ∧
  ((check = false ∨ ∃ role, role < 3 ∧ ∀ m, memberOf t site role = some m → m.active = false) →
    new = if old.running = none then old else {}) ∧
  (new.state ≠ old.state → s.link.sending.isSome = true → s.link.owed = none →
    s.link.mask.getLsbD 4 = true → s.link.notices.length ≤ 30 →
    ⟨.rotation site new.state old.state, s.clock.time⟩ ∈ t.link.notices)

/-- The sag channel of a member position, where it has one, and its part of the harmonic engine are the same
in `s` and `t`. -/
def PositionKept (site role : Nat) (s t : State) : Prop :=
  (role < 3 → channelOf t site role = channelOf s site role) ∧
    harmMember t site role = harmMember s site role

/-- From `s` to `t` a member position has been cleared or has taken another slot: its sag window is emptied
(R59), its harmonic window and its latest result are discarded (R103), and its accumulator is removed (R105).
A record that waits in its closing place stays (R111). -/
def PositionEmptied (site role : Nat) (s t : State) : Prop :=
  (role < 3 → channelOf t site role = { channelOf s site role with window := [] }) ∧
    harmMember t site role =
      { harmMember s site role with window := none, acc := none, lossDue := false, latest := none }

/-- The INTERVAL records that wait in `s`, each with its close moment, site and role, in the order in which
R111 hands them: by moment, then by site, then by role. -/
def WaitingInOrder (s : State) (ws : List (Nat × Nat × Nat × IntervalRecord)) : Prop :=
  ws.Pairwise (fun a b =>
    a.1 < b.1 ∨ a.1 = b.1 ∧ (a.2.1 < b.2.1 ∨ a.2.1 = b.2.1 ∧ a.2.2.1 < b.2.2.1)) ∧
  ∀ moment site role r, (moment, site, role, r) ∈ ws ↔
    site < 4 ∧ role < 8 ∧ (harmMember s site role).place = some (r, moment)

/-- From `s` to `t` the free places of the write queue, whose records are now `rest`, go to the records that
wait (R56, R111, R123). One waiting INTERVAL record is handed for each free place: it is queued with the next
id, or dropped and counted where the store is FULL. The pending SURVEY record is queued where a place is left,
after some `k` of them. -/
def HandsOver (rest : List QueueItem) (s t : State) : Prop :=
  ∀ ws, WaitingInOrder s ws →
    let room := 16 - rest.length
    let ids := s.store.nextIds
    let intervals : List QueueItem := ws.mapIdx fun n w =>
      ⟨.interval, ids.interval + n,
        .interval (ids.interval + n)
          { w.2.2.2 with flags := { w.2.2.2.flags with clockUnset := !s.clock.valid } }, false⟩
    let surveys : List QueueItem := s.survey.place.toList.map fun r =>
      ⟨.survey, ids.survey, .survey { r with clockUnset := !s.clock.valid }, false⟩
    ∃ k handed,
      let queued :=
        (if s.store.state = .full then surveys
          else intervals.take k ++ surveys ++ intervals.drop k).take room
      t.store.queue = rest ++ queued ∧
      (s.store.state ≠ .full →
        handed = queued.countP (·.kind == .interval) ∧
          t.store.intervalDrops = s.store.intervalDrops) ∧
      (s.store.state = .full →
        room - surveys.length ≤ handed ∧ handed ≤ room ∧
          t.store.intervalDrops =
            (satInc 4294967295)^[Nat.min handed ws.length] s.store.intervalDrops) ∧
      t.survey.place =
        (if queued.any (·.kind == .survey) then none else s.survey.place) ∧
      ∀ n w, ws[n]? = some w → (harmMember t w.2.1 w.2.2.1).place =
        if n < handed then none else (harmMember s w.2.1 w.2.2.1).place

/-- From `st` to `t` a record or copy of `size` blocks begins, leaving `spare` erased sectors alone (R117): in
the head where it fits the remainder, and otherwise in block 0 of the lowest-numbered erased sector, which
becomes the head. It takes the next sequence number (R118). Where there is no place for it, nothing begins. -/
def BeginsAt (size spare : Nat) (op : Nat → Nat × Nat → Bool → ArrayOp) (st u t : Store) : Prop :=
  let erased := st.opening.countP (·.isNone)
  (∀ h, st.head = some h → st.headUsed + size ≤ 64 →
    t = { u with nextSeq := st.nextSeq + 1, op := some (op st.nextSeq (h, st.headUsed) false) }) ∧
  ((∀ h, st.head = some h → 64 < st.headUsed + size) →
    (∀ x, spare < erased → st.opening[x]? = some none → (∀ y, y < x → st.opening[y]? ≠ some none) →
      t =
        { u with
          nextSeq := st.nextSeq + 1, head := some x, headUsed := 0
          opening := st.opening.set x (some st.nextSeq)
          op := some (op st.nextSeq (x, 0) true) }) ∧
    (erased ≤ spare → t = st))

/-- From `st`, whose array is free, to `t` the array takes its next operation (R120, R124, R126): an owed
extension step, on the header of highest sequence with a step clear; else the oldest DEAD mark; else, while
RECLAIMING, the next relocation copy or the erase, with which the LIVE records left are discarded; else, while
READY, the write of the oldest queued record, which leaves the last erased sector alone. -/
def TakesNext (st t : Store) : Prop :=
  let up := st.state ≠ .mounting ∧ st.state ≠ .wiping
  let header := fun (loc : Nat × Nat) (seq : Nat) => ∃ e ∈ st.dir, e.loc = some loc ∧ e.seq = some seq
  let step := st.extOwed = true ∧ ∃ loc seq, header loc seq ∧ extensionField st loc ≠ 0
  (¬up → t = st) ∧
  (∀ loc seq, up → st.extOwed = true → header loc seq → extensionField st loc ≠ 0 →
    (∀ loc' seq', header loc' seq' → extensionField st loc' ≠ 0 → loc' ≠ loc → seq' < seq) →
    t = { st with op := some (.extend loc), extOwed := false }) ∧
  (∀ m rest, up → ¬step → st.marks = m :: rest → t = { st with op := some (.mark m), marks := rest }) ∧
  (up → ¬step → st.marks = [] →
    (st.state = .full → t = st) ∧
    (st.state = .ready → st.queue = [] → t = st) ∧
    (∀ q rest, st.state = .ready → st.queue = q :: rest →
      BeginsAt (contentSize q.content) 1
        (fun seq loc opened => .write seq loc (contentSize q.content) opened) st st t) ∧
    (∀ r kind id rest e, st.state = .reclaiming → st.reclaim = some r → r.copies = (kind, id) :: rest →
      findEntry st kind id = some e →
      BeginsAt e.size 0 (fun seq loc _ => .copy kind id seq loc e.size) st
        { st with reclaim := some ⟨r.sector, rest⟩ } t) ∧
    (∀ sector, st.state = .reclaiming → st.reclaim = some ⟨sector, []⟩ →
      let left := fun (e : Entry) => decide (e.state = .live ∧ e.loc.map (·.1) = some sector)
      t =
        { st with
          dir := st.dir.map (fun e => if left e then { e with state := .dead } else e)
          discards := t.discards, op := some (.erase sector) } ∧
      ∀ k, t.discards.get k =
        (satInc 4294967295)^[st.dir.countP fun e => left e && e.kind == k] (st.discards.get k)))

/-- From `s` to `t` the FILLING slots are brought to COMPLETE at boundary `c` (R90, R91). A slot whose event
closes there takes an END segment with its pre-cycles from the ring, where R88's condition holds; every
segment still filling is cut to its whole cycles, and is TRUNCATED where they are fewer than planned; the
members keep all but their gap counts. A slot that is not FILLING, and that no open event names, is the same. -/
def CapturesEndAt (c : Nat) (s t : State) : Prop :=
  let names := fun (site i : Nat) => ∃ e p, site < 4 ∧ (sagSite s site).event = some e ∧
    e.capture = some p ∧ p.1 = i
  (∀ i, i < 12 → (captureSlot s i).state ≠ .filling → (∀ site, ¬names site i) →
    captureSlot t i = captureSlot s i) ∧
  ∀ i site, i < 12 → (captureSlot s i).state = .filling → (captureSlot s i).site = some site →
    (∀ other, other ≠ site → ¬names other i) →
    let slot := captureSlot s i
    let x := (siteOf s site).settings
    let ring := s.capture.rings.getD site {}
    let first := (c + 2 ^ 48 - 128 * x.pe) % 2 ^ 48
    let rows := (ring.frames.drop
      (frameDiff ring.newest ((first + 128 * x.pe + 2 ^ 48 - 1) % 2 ^ 48))).take (128 * x.pe)
    let frames := rows.map fun row => slot.members.map fun m => row.getD m.role.code ⟨0, true⟩
    let end_ : Segment :=
      { kind := .ending, first := first
        firstTime := (ring.times.find? fun y => y.1 = first).map (·.2), pre := x.pe
        planned := x.pe + x.we, frames := frames
        filling := decide (frames.length < 128 * (x.pe + x.we))
        live := slot.members.map fun _ => .notYet }
    let takes := (slot.eventOpen = true ∨ names site i) ∧
      ∃ g rest, slot.segments = g :: rest ∧
        128 * g.planned + 128 * x.pe ≤ frameDiff c g.first
    let cut := fun (g : Segment) =>
      if g.filling then
        { g with
          frames := g.frames.drop (g.frames.length % 128), filling := false
          truncated := decide (g.frames.length / 128 < g.planned) }
      else g
    let done := captureSlot t i
    done = { slot with
      state := .complete, eventOpen := false, segments := done.segments, members := done.members } ∧
    (takes → done.segments = (slot.segments ++ [end_]).map cut) ∧
    (¬takes → done.segments = slot.segments.map cut) ∧
    done.members.map (fun m => (m.role, m.slot, m.serial, m.kind, m.fullScale)) =
      slot.members.map fun m => (m.role, m.slot, m.serial, m.kind, m.fullScale)

/-- The receive queue holds up to 2 frames (R177) and the notice queue up to 32 notices (R180). -/
def LinkBounded (s : State) : Prop :=
  s.link.queue.length ≤ Config.receivePlaces ∧ s.link.notices.length ≤ Config.noticePlaces

/-- The part runs and no frame waits in its receive queue. -/
abbrev Quiet (s : State) : Prop := s.held = false ∧ s.link.queue = []

/-- The part runs and its link is free: the next request is taken as it arrives (R177). -/
abbrev Ready (s : State) : Prop :=
  Quiet s ∧ s.link.current = none ∧ s.link.reply = none ∧ s.link.owed = none

/-- No frame is in progress and the frame before owes nothing: no window, capture or pod that it has
completed or taken out, no timeout, no midnight and no reset. -/
abbrev Settled (s : State) : Prop :=
  s.bus.inFrame = false ∧ frameEndWork s = s ∧ s.clock.midnightDue = false ∧ s.link.owed = none

/-- The state with a reply in the reply place, which an idle transmitter takes (R178, R179). -/
def replied (kind : Nat) (tag : Byte) (status : Status) (body : ReplyBody) (s : State) : State :=
  { s with link := { s.link with reply := some ⟨kind, tag, status, body⟩ }.startTransmit }

/-- The state with a request in progress that waits for its reply. -/
def waiting (kind : Nat) (tag : Byte) (s : State) : State :=
  { s with link := { s.link with current := some ⟨kind, tag, false⟩ } }

/-- The commands that act on a part the brownout detector holds: its release and a power-up, but not the
reset pin (R174), the clock, which runs on from its backup cell, and the paper sensor's own reading. -/
def actsWhileHeld : Instr → Bool
  | .hardwareReset source .. => source != .pin
  | .clockMidnight => true
  | .clockWrap => true
  | .clockTick => true
  | .paperSensorChange _ => true
  | _ => false

/-- The commands of a list one after the other, stopping where one does not answer a next state. -/
def execAll : List Instr → State → Host.Outcome State Fault Refusal
  | [], s => .next s
  | c :: cs, s =>
    match exec c s with
    | .next t => execAll cs t
    | o => o

end Machine
end Sys2Proof
end

