-- ==== Sys2Proof/WellFormed.lean ====
section
/-!
DEFINITION. Which commands the outside can form: a slot, site, role or capture slot that exists, one
up word for each connector (R1), and a request payload that fits its frame and its own length fields
(R176, R184).
-/
namespace Sys2Proof

/-- Bytes a section takes in a PRINT_SUBMIT payload (R184). -/
def Section.wireSize : Section → Nat
  | .text chars => 2 + chars.length
  | .feed _ => 4
  | .eventList _ _ _ => 11
  | .eventDetail _ _ => 7
  | .intervalTable _ orders => 7 + orders.length
  | .note _ _ => 7
  | .surveySummary => 2
  | .unknown _ params => 2 + params.length

/-- The section's parameter length fits its length byte, and an unknown code is none of the seven. -/
def Section.wellFormed : Section → Bool
  | .text chars => chars.length ≤ 255
  | .intervalTable _ orders => orders.length ≤ 250
  | .unknown code params => (code.toNat == 0 || 7 < code.toNat) && params.length ≤ 255
  | _ => true

/-- A name fits its length byte. -/
def CarriedSettings.wellFormed (c : CarriedSettings) : Bool :=
  match c.name with
  | some chars => chars.length ≤ 255
  | none => true

/-- The request's payload can be carried by one link frame (R176: at most 1,000 bytes). -/
def Request.wellFormed : Request → Bool
  | .siteSet _ carried => carried.wellFormed
  | .noteAdd _ _ _ _ text => text.length ≤ 989
  | .noteAmend _ _ text => text.length ≤ 991
  | .printSubmit _ sections =>
    sections.all Section.wellFormed && sections.length ≤ 255 &&
      (sections.map Section.wireSize).sum ≤ 998
  | _ => true

/-- The command can be formed. -/
def Instr.wellFormed : Instr → Bool
  | .frameEnd words => words.length == 15
  | .podLost slot => 1 ≤ slot && slot ≤ 15
  | .podStuck slot => 1 ≤ slot && slot ≤ 15
  | .windowComplete site role => site < 4 && role < 8
  | .captureComplete slot => slot < 12
  | .intervalBoundary site => site < 4
  | .unknownKind kind _ => kind.toNat == 0 || 0x2C < kind.toNat
  | .siteSet _ site carried => (Request.siteSet site carried).wellFormed
  | .noteAdd _ site kind id crew text => (Request.noteAdd site kind id crew text).wellFormed
  | .noteAmend _ id crew text => (Request.noteAmend id crew text).wellFormed
  | .printSubmit _ copies sections => (Request.printSubmit copies sections).wellFormed
  | _ => true

end Sys2Proof
end

