-- ==== Sys2Proof/Certificates/Slice0/Obligations.lean ====
section
/-!
DEFINITION. The statements for the provers, from the numbered rules of spec/. A statement about a
request takes a free link (`Ready`), and one about an event a part that runs with no frame waiting
(`Quiet`); Sys2Proof/Tests/Slice0.lean has a witness for each.
-/
open Sys2Proof Sys2Proof.Machine

/-! ### The queue of commands, every command, a part held in reset -/

/-- A step takes the command at the front of the queue and is its execution with the queue's rest; an
empty queue leaves the part as it stands (the model's choice, log 1). -/
def Obligations.StepTakesTheFrontCommand : Prop :=
  ∀ (c : Instr) (rest : List Instr) (s : State),
    step { s with pending := c :: rest } = exec c { s with pending := rest } ∧
      step { s with pending := [] } = .next { s with pending := [] }

/-- Every command answers a next state in every state, and it leaves the queue of commands and, but
for a hardware reset, the latched straps. -/
def Obligations.EveryCommandCompletes : Prop :=
  ∀ (c : Instr) (s : State),
    ∃ t, exec c s = .next t ∧ t.pending = s.pending ∧
      ((∀ source straps backup, c ≠ .hardwareReset source straps backup) → t.straps = s.straps)

/-- While the brownout detector holds the part, a command does nothing, the reset pin included, but for
the detector's release and a power-up, the clock and the paper sensor's own reading (R174; what goes on
while the part is held is the model's choice, log 31). -/
def Obligations.HeldPartDoesNothing : Prop :=
  ∀ (c : Instr) (s : State), s.held = true → actsWhileHeld c = false → exec c s = .next s

/-! ### The request payloads (R184) -/

/-- Every request a frame can carry is read back from its own payload, with every field at every value
the wire admits. -/
def Obligations.RequestPayloadsRoundTrip : Prop :=
  ∀ r : Request, r.wellFormed = true → decodeRequest (requestCode r) (encodeRequest r) = .ok r

/-- The bytes of a request's frame, received one by one with their stop bits from HUNT, do what the
request's own command does (R176, R177). -/
def Obligations.FrameBytesAreTheRequest : Prop :=
  ∀ (r : Request) (tag : Byte) (s : State), r.wellFormed = true → Quiet s → s.link.rx = .hunt →
    execAll ((frameBytes (requestCode r) tag (encodeRequest r)).map fun b => .linkByteReceived b true)
        s = exec (r.command tag) s

/-! ### Invariants -/

/-- The invariants hold right after reset. -/
def Obligations.InvariantsHoldAtReset : Prop :=
  CanonicalStore State.reset ∧ FrequencySound State.reset ∧ Shaped State.reset ∧
    LinkBounded State.reset ∧ RotationSound State.reset

/-- Every step keeps the store array in its canonical form. -/
def Obligations.StepKeepsCanonicalStore : Prop :=
  ∀ s t : State, CanonicalStore s → step s = .next t → CanonicalStore t

/-- Every step keeps f within 42,000 to 69,999 mHz and K its increment (R25). -/
def Obligations.StepKeepsFrequencySound : Prop :=
  ∀ s t : State, FrequencySound s → step s = .next t → FrequencySound t

/-- Every step keeps the size of every table: 15 roster entries, 4 sites of 8 member positions, the
detector's 4 sites of 3 channels, 4 rings and 12 capture slots, and the engine's 4 sites of 8
positions; and with it every rotation check on the slots that its site's members name (R38). -/
def Obligations.StepKeepsTableSizes : Prop :=
  ∀ s t : State, Shaped s → step s = .next t → Shaped t ∧ (RotationSound s → RotationSound t)

/-- Every step keeps the receive queue within 2 frames (R177) and the notice queue within 32 (R180). -/
def Obligations.StepKeepsLinkBounded : Prop :=
  ∀ s t : State, LinkBounded s → step s = .next t → LinkBounded t

/-! ### Control link (R176 to R182) -/

/-- NOTICE_MASK, RESET and IDENTIFY on a free link: the state each leaves (R180, R181, R182). -/
def Obligations.LinkRequestsAnswer : Prop :=
  ∀ (tag : Byte) (s : State), Ready s →
    (∀ mask : Half, mask.toNat ≤ 0x3FFF →
      exec (.noticeMask tag mask) s =
        .next (replied 0xAA tag .ok (.mask mask) { s with link := { s.link with mask := mask } })) ∧
    (∀ mask : Half, 0x3FFF < mask.toNat →
      exec (.noticeMask tag mask) s = .next (replied 0xAA tag .badValue .empty s)) ∧
    (∀ domains : Byte, 1 ≤ domains.toNat → domains.toNat ≤ 7 →
      let set : Domains := ⟨domains.getLsbD 0, domains.getLsbD 1, domains.getLsbD 2⟩
      exec (.reset tag domains) s =
        .next (replied 0xAB tag .ok .empty
          { s with link :=
            { s.link with
              current := some ⟨0x2B, tag, false⟩, cause := .link, domains := set
              resets := if s.link.resets < 65535 then s.link.resets + 1 else 65535
              owed := some ⟨set, false⟩ } })) ∧
    (∀ domains : Byte, domains = 0 ∨ 8 ≤ domains.toNat →
      exec (.reset tag domains) s = .next (replied 0xAB tag .badValue .empty s)) ∧
    exec (.identify tag) s =
      .next (replied 0xAC tag .ok
        (.identify 0x1E7A 0x0040 1 s.straps s.link.cause s.link.domains s.link.resets s.link.framing
          s.link.crc s.link.overrun s.link.lost) s)

/-- A request that finds another in progress waits in the receive queue, and a third frame is dropped
and counted; a taken frame whose kind is no request kind is answered UNKNOWN_KIND, its kind returned with
its top bit set, and one whose payload length does not suit its kind BAD_LENGTH, and a frame of any other
payload is a request of its kind (R177, R178, R184). That a SUPPLY_SET mask bit above those the table names
selects nothing is the model's choice (log 22). -/
def Obligations.FramesAreQueuedDroppedOrUnknown : Prop :=
  (∀ (r : Request) (tag : Byte) (s : State), s.held = false → s.link.current.isSome = true →
    (s.link.queue.length < 2 →
      exec (r.command tag) s =
        .next { s with link := { s.link with
          queue := s.link.queue ++ [⟨requestCode r, tag, encodeRequest r⟩] } }) ∧
    (s.link.queue.length = 2 →
      exec (r.command tag) s =
        .next { s with link := { s.link with
          overrun := if s.link.overrun < 4294967295 then s.link.overrun + 1 else 4294967295 } })) ∧
  (∀ (kind tag : Byte) (s : State), Ready s → (kind.toNat = 0 ∨ 0x2C < kind.toNat) →
    exec (.unknownKind kind tag) s =
      .next (replied (if kind.toNat < 128 then kind.toNat + 128 else kind.toNat) tag .unknownKind
        .empty s)) ∧
  ∀ (kind : Nat) (tag : Byte) (p : List Byte) (s : State), Ready s → s.link.rx = .hunt →
    1 ≤ kind → kind ≤ 0x2C → p.length ≤ 1000 →
    let received :=
      execAll ((frameBytes kind tag p).map fun b => .linkByteReceived b true) s
    (payloadSuits kind p = false →
      received = .next (replied (kind + 128) tag .badLength .empty s)) ∧
    (payloadSuits kind p = true →
      ∃ r, requestCode r = kind ∧ received = exec (r.command tag) s)

/-- The receiver in HUNT and HEADER, the three faults, and a frame whose CRC fails (R176). That a length
is judged at the fourth header byte is the model's choice (log 24). -/
def Obligations.ReceiverFollowsItsStates : Prop :=
  ∀ (b : Byte) (s : State), Quiet s →
    let set := fun (rx : Receiver) => ({ s with link := { s.link with rx := rx } } : State)
    let fault : State := { s with link := { s.link with
      rx := .hunt
      framing := if s.link.framing < 4294967295 then s.link.framing + 1 else 4294967295 } }
    (s.link.rx = .hunt →
      exec (.linkByteReceived b true) s = .next (if b = 0xA5 then set (.header []) else s) ∧
      exec (.linkByteReceived b false) s = .next s ∧ exec .interbyteTimeout s = .next s) ∧
    (∀ h : List Byte, s.link.rx = .header h → h.length < 3 →
      exec (.linkByteReceived b true) s = .next (set (.header (h ++ [b])))) ∧
    (∀ l0 l1 kind : Byte, s.link.rx = .header [l0, l1, kind] →
      exec (.linkByteReceived b true) s =
        .next (if 1000 < l0.toNat + 256 * l1.toNat then fault
          else set (.body (l0.toNat + 256 * l1.toNat) kind.toNat b.toNat []))) ∧
    (∀ length kind tag p, s.link.rx = .body length kind tag p → p.length + 1 < length + 2 →
      exec (.linkByteReceived b true) s = .next (set (.body length kind tag (p ++ [b])))) ∧
    (∀ length kind tag p, s.link.rx = .body length kind tag p → p.length + 1 = length + 2 →
      crc16 (le 2 length ++ le 1 kind ++ le 1 tag ++ p.take length) ≠ field (p ++ [b]) length 2 →
      exec (.linkByteReceived b true) s =
        .next { s with link := { s.link with
          rx := .hunt, crc := if s.link.crc < 4294967295 then s.link.crc + 1 else 4294967295 } }) ∧
    (s.link.rx ≠ .hunt →
      exec (.linkByteReceived b false) s = .next fault ∧ exec .interbyteTimeout s = .next fault)

/-- When the transmitter finishes a frame it takes the waiting reply, and otherwise the oldest notice
with the lost count, which becomes 0, and the notice sequence as its tag (R179, R180). The same while a
RESET is in progress, whose domains are to be reset once its own reply has left; and a NOTICE reset that is
then due comes before any further notice (R181). The reply that it takes frees the link, and the oldest
waiting frame leaves the queue and is taken: it is checked, and a request has the effect that it has as it
arrives on a free link (R177). After every command, a frame waits only while the link is not free. That the
reply frees the link as its transmission begins, and that a command's own effects come before the frame is
taken, are the model's choices (log 24). -/
def Obligations.TransmitterTakesTheNextFrame : Prop :=
  (∀ s : State, Quiet s → s.link.sending.isSome = true → s.link.owed = none →
    (∀ r, s.link.reply = some r →
      exec .transmitDone s =
        .next { s with link := { s.link with sending := some (.reply r), reply := none } }) ∧
    (∀ n rest, s.link.reply = none → s.link.notices = n :: rest →
      exec .transmitDone s =
        .next { s with link := { s.link with
          sending := some (.notice (s.link.seq % 256) s.link.lost n), notices := rest, lost := 0
          seq := s.link.seq + 1 } }) ∧
    (s.link.reply = none → s.link.notices = [] →
      exec .transmitDone s = .next { s with link := { s.link with sending := none } })) ∧
  (∀ (d : Domains) (s : State), s.held = false → s.link.sending.isSome = true →
    (∀ w, s.link.reply = some w → s.link.owed = some ⟨d, false⟩ →
      exec .transmitDone s =
        .next { s with link := { s.link with sending := some (.reply w), reply := none } }) ∧
    (∀ sent, s.link.reply = none → s.link.owed = some ⟨d, sent⟩ →
      sent = true ∨ (∃ w, s.link.sending = some (.reply w)) →
      (d.notice = true ∨ s.link.notices = [] →
        exec .transmitDone s =
          .next { s with link := { s.link with sending := none, owed := some ⟨d, true⟩ } }) ∧
      (∀ n rest, d.notice = false → s.link.notices = n :: rest →
        exec .transmitDone s =
          .next { s with link := { s.link with
            sending := some (.notice (s.link.seq % 256) s.link.lost n), notices := rest, lost := 0
            seq := s.link.seq + 1, owed := some ⟨d, true⟩ } }))) ∧
  (∀ (f : Frame) (rest : List Frame) (w : Reply) (s : State), s.held = false →
    s.link.sending.isSome = true → s.link.reply = some w → s.link.current = none →
    s.link.owed = none → s.link.queue = f :: rest →
    let u : State := { s with
      link := { s.link with sending := some (.reply w), reply := none, queue := rest } }
    (f.kind = 0 ∨ 0x2C < f.kind →
      exec .transmitDone s =
        .next (replied (if f.kind < 128 then f.kind + 128 else f.kind) f.tag .unknownKind .empty
          u)) ∧
    (1 ≤ f.kind → f.kind ≤ 0x2C → payloadSuits f.kind f.payload = false →
      exec .transmitDone s = .next (replied (f.kind + 128) f.tag .badLength .empty u)) ∧
    (∀ r : Request, r.wellFormed = true → f.kind = requestCode r → f.payload = encodeRequest r →
      ∃ t, exec (r.command f.tag) { u with link := { u.link with queue := [] } } = .next t ∧
        exec .transmitDone s = .next { t with link := { t.link with queue := rest } })) ∧
  ∀ (c : Instr) (s t : State), LinkBounded s →
    let busy := fun (l : Link) => l.current.isSome || l.reply.isSome || l.owed.isSome
    s.link.queue = [] ∨ busy s.link = true → exec c s = .next t →
    t.link.queue = [] ∨ busy t.link = true

/-- The NOTICE and the PRINT reset, taken once the RESET reply has left (R168, R181): the notice queue,
the lost count, the mask and the sequence; the jobs, the done queue, the pins and the counts, with the
next job id, the brake and the head's readings kept; and the end of the RESET where no other domain is
owed. A PRINT reset waits for the line in progress. -/
def Obligations.NoticeAndPrintResetsAreTaken : Prop :=
  ∀ (s : State) (acq other : Bool), Quiet s →
    (s.link.owed = some ⟨⟨acq, other, true⟩, true⟩ →
      exec .noticeReset s =
        .next { s with link := { s.link with
          notices := [], lost := 0, mask := 0x3FFF, seq := 0
          owed := if acq || other then some ⟨⟨acq, other, false⟩, true⟩ else none
          current := if acq || other then s.link.current else none } }) ∧
    (s.link.owed = some ⟨⟨acq, true, false⟩, true⟩ → s.print.lineBusy = true →
      exec .printReset s = .next s) ∧
    (s.link.owed = some ⟨⟨acq, true, false⟩, true⟩ → s.print.lineBusy = false →
      ∃ t, exec .printReset s = .next t ∧
        t.print =
          { nextJob := s.print.nextJob, brake := s.print.brake, tempClass := s.print.tempClass
            temp := s.print.temp, paper := s.print.paper } ∧
        t.link.owed = (if acq then some ⟨⟨acq, false, false⟩, true⟩ else none) ∧
        t.link.current = (if acq then s.link.current else none) ∧
        (∀ c ∈ t.capture.slots, c.pins = 0 ∧ c.state ≠ .releasePending) ∧
        (∀ kind id e, findEntry s.store kind id = some e →
          s.store.state = .ready ∨ s.store.op.isSome = true ∧ s.store.state ≠ .full →
          findEntry t.store kind id =
            some { e with
              pins := e.pins - ((s.print.ring.flatMap fun j =>
                j.sections.flatMap (·.pins)).count (kind, id)) }) ∧
        t.store.array = s.store.array ∧ t.store.queue = s.store.queue ∧ t.sites = s.sites ∧
        t.sag = s.sag ∧ t.harm = s.harm ∧ t.roster = s.roster ∧ t.tracker = s.tracker ∧
        t.survey = s.survey ∧ t.supply = s.supply)

/-- A posted notice is discarded by the mask, appended with its posting time, or dropped and counted
at 32 (R180); while the transmitter sends, nothing else moves. -/
def Obligations.PostedNoticeIsHandled : Prop :=
  ∀ (b : NoticeBody) (s : State), s.link.owed = none → s.link.sending.isSome = true →
    (s.link.mask.getLsbD b.code = false → post b s = s) ∧
    (s.link.mask.getLsbD b.code = true → s.link.notices.length < 32 →
      post b s = { s with link := { s.link with notices := s.link.notices ++ [⟨b, s.clock.time⟩] } }) ∧
    (s.link.mask.getLsbD b.code = true → 32 ≤ s.link.notices.length →
      post b s = { s with link := { s.link with
        lost := if s.link.lost < 65535 then s.link.lost + 1 else 65535 } })

/-! ### Pod bus and kit roster (R1 to R21) -/

/-- POD_ROSTER, POD_STATUS, POD_CLEAR and POD_RETRY on a free link (R20, R21), with their refusals and
the BUSY of a JOINING slot (R13). -/
def Obligations.PodRequestsAnswer : Prop :=
  ∀ (tag slot : Byte) (s : State), Ready s →
    let n := slot.toNat
    let e := entryOf s n
    let refused := fun (status : Status) =>
      exec (.podStatus tag slot) s = .next (replied 0x82 tag status .empty s) ∧
        exec (.podRetry tag slot) s = .next (replied 0x83 tag status .empty s) ∧
        exec (.podClear tag slot) s = .next (replied 0x84 tag status .empty s)
    exec (.podRoster tag) s =
      .next (replied 0x81 tag .ok
        (.roster
          (s.roster.map fun e =>
            ⟨e.state, e.cause, e.state == .ready, e.calDue, e.identity.map (·.serial)⟩)
          s.bus.mask s.bus.frame) s) ∧
    (n < 1 ∨ 15 < n → refused .badValue) ∧
    (1 ≤ n → n ≤ 15 → e.state = .joining → refused .busy) ∧
    (1 ≤ n → n ≤ 15 → e.state ≠ .joining →
      exec (.podStatus tag slot) s = .next (replied 0x82 tag .ok (.entry e) s) ∧
      exec (.podRetry tag slot) s =
        .next (if e.state = .fault then
            replied 0x83 tag .ok .empty
              (modifyEntry (fun e => { e with state := .absent, cause := none }) n s)
          else replied 0x83 tag .wrongState .empty s) ∧
      exec (.podClear tag slot) s =
        .next (replied 0x84 tag .ok .empty
          (modifyEntry
            (fun e =>
              { e with
                overrangeSeen := false, dropoutSeen := false, overrangeCount := 0
                dropoutCount := 0 }) n s)))

/-- A frame begins (R1, R2): its count, its clock reading and validity, the slot mask (R5) and the control word
(R6, R8, R10, R11); f and K stay, and the phase passes 2^32 by whole additions of the K in force (R25).
That the carry which begins frame 0 after an ACQ reset is still that of the K before the reset is the
model's choice (log 6). -/
def Obligations.FrameStartBegins : Prop :=
  ∀ s : State, Quiet s → Settled s →
    ∃ t, exec .frameStart s = .next t ∧
      t.bus.frame = (if s.bus.begun then (s.bus.frame + 1) % 2 ^ 48 else 0) ∧
      t.bus.begun = true ∧ t.bus.boundaryDue = (t.bus.frame % 64 == 0) ∧
      t.survey.changeDue = (t.bus.boundaryDue && s.survey.change.isSome) ∧
      t.bus.frameTime = s.clock.time ∧ t.bus.frameValid = s.clock.valid ∧ t.bus.inFrame = true ∧
      t.bus.prevCtrl = s.bus.ctrl ∧
      t.bus.mask = ((List.range 15).map (· + 1)).filter (slotReady t) ∧
      (s.bus.join = none →
        t.bus.join = none ∧ t.roster = s.roster ∧
          match ((List.range 15).map fun i => (s.bus.lastProbed + i) % 15 + 1).find?
              fun slot => (entryOf s slot).state == .absent with
          | some slot => t.bus.ctrl = ⟨slot, .probe⟩ ∧ t.bus.lastProbed = slot
          | none => t.bus.ctrl = ⟨0, .idle⟩ ∧ t.bus.lastProbed = s.bus.lastProbed) ∧
      (∀ slot count, s.bus.join = some ⟨slot, count, .readNext⟩ →
        t.bus.ctrl = ⟨slot, .readId⟩ ∧ t.bus.join = some ⟨slot, count + 1, .readSent⟩) ∧
      (∀ slot count bytes, s.bus.join = some ⟨slot, count, .words bytes⟩ →
        t.bus.ctrl = ⟨0, .idle⟩ ∧ t.bus.join = s.bus.join) ∧
      (∀ slot count identity, s.bus.join = some ⟨slot, count, .onNext identity⟩ →
        t.bus.ctrl = ⟨slot, .sampleOn⟩ ∧ t.bus.join = some ⟨slot, count, .onSent identity⟩) ∧
      (∀ slot count cause serial, s.bus.join = some ⟨slot, count, .offNext cause serial⟩ →
        t.bus.ctrl = ⟨slot, .sampleOff⟩ ∧ t.bus.join = some ⟨slot, count, .offSent cause serial⟩) ∧
      t.tracker.f = s.tracker.f ∧ t.tracker.k = s.tracker.k ∧
      t.tracker.boundaryK = none ∧
      (let k := match s.tracker.boundaryK with
        | some old => old
        | none => s.tracker.k
      s.tracker.kMoved = false → 0 < k → s.tracker.nco < k → k < 2 ^ 32 →
        t.tracker.nco < k ∧ (2 ^ 32 + t.tracker.nco - s.tracker.nco) % k = 0) ∧
      t.clock = s.clock ∧ t.store.array = s.store.array ∧ t.capture = s.capture ∧
      t.print = s.print ∧ t.supply = s.supply ∧ t.pending = s.pending

/-- At the frame boundary after SAMPLE_ON a join takes effect (R11, R19): the slot's entry, its receive
state and its place in the mask; the member that names the slot, active where the identity matches and
cleared where it does not (R46); the site's rotation check (R38); and POD_JOIN with its mismatch
indication. A position that is cleared loses its sag window (R59), its latest harmonic result (R103) and its
accumulator, with no record (R105); that it is no part of a close at this frame is the model's choice
(log 41). The control word of the frame is a PROBE of the next ABSENT slot, or IDLE (R6). -/
def Obligations.JoinTakesEffectAtTheFrame : Prop :=
  ∀ (slot count : Nat) (identity : Identity) (s : State), Quiet s → Settled s → Shaped s →
    1 ≤ slot → slot ≤ 15 → s.bus.join = some ⟨slot, count, .onSent identity⟩ →
    let e := entryOf s slot
    let same := e.identity.map (·.serial) = some identity.serial
    ∃ t, exec .frameStart s = .next t ∧ t.bus.join = none ∧ slot ∈ t.bus.mask ∧
      (match ((List.range 15).map fun i => (s.bus.lastProbed + i) % 15 + 1).find?
          fun i => i != slot && (entryOf s i).state == .absent with
      | some i => t.bus.ctrl = ⟨i, .probe⟩ ∧ t.bus.lastProbed = i
      | none => t.bus.ctrl = ⟨0, .idle⟩ ∧ t.bus.lastProbed = s.bus.lastProbed) ∧
      entryOf t slot =
        { state := .ready, cause := none, identity := some identity
          calDue := s.clock.valid &&
            decide (identity.calDate + identity.calInterval < s.clock.time.sec / 86400)
          overrangeSeen := if same then e.overrangeSeen else false
          dropoutSeen := if same then e.dropoutSeen else false
          overrangeCount := if same then e.overrangeCount else 0
          dropoutCount := if same then e.dropoutCount else 0 } ∧
      receiveOf t slot = { lastGood := none, dropouts := 0, run := 0 } ∧
      (∀ i, 1 ≤ i → i ≤ 15 → i ≠ slot →
        entryOf t i = entryOf s i ∧ receiveOf t i = receiveOf s i) ∧
      (positionOf s slot = none →
        t.sites = s.sites ∧ t.rotation = s.rotation ∧ t.sag = s.sag) ∧
      (∀ site role m, positionOf s slot = some (site, role) → memberOf s site role = some m →
        let matched := m.serial = identity.serial ∧ identity.kind = roleKind role
        (matched → memberOf t site role = some { m with active := true } ∧
          ((harmMember s site role).lossDue = false → PositionKept site role s t)) ∧
        (¬matched → memberOf t site role = none ∧ PositionEmptied site role s t) ∧
        (∀ i j, i < 4 → j < 8 → (i ≠ site ∨ j ≠ role) → memberOf t i j = memberOf s i j) ∧
        RotationFollows site s t ∧ ∀ k, k ≠ site → rotationOf t k = rotationOf s k) ∧
      (let mismatch := match positionOf s slot with
        | none => none
        | some (site, role) =>
          if (memberOf s site role).map (·.serial) = some identity.serial ∧
              identity.kind = roleKind role then none
          else some (site, roleOf role)
      s.link.sending.isSome = true → s.link.mask.getLsbD 0 = true → s.link.notices.length < 31 →
        (⟨.podJoin slot identity.serial identity.kind identity.model identity.fullScale
          (calDueOf s.clock (some identity)) mismatch, s.clock.time⟩ : Notice) ∈ t.link.notices)

/-- A frame's end takes the up word of each slot in the mask (R14, R16, R18), whatever a join or a PROBE
does in the same frame: the receive states, the sticky flags and the counts, with every other slot's kept.
Where no join moves, nothing else of any entry changes. The answer to the PROBE of the frame before starts a
join where the word is good and no join is in progress, and else is ignored (R7). -/
def Obligations.FrameEndTakesTheWords : Prop :=
  ∀ (words : List BusWord) (s : State), Quiet s → Shaped s → s.bus.inFrame = true →
    boundaryWork s = s → s.bus.mask.Nodup → (∀ slot ∈ s.bus.mask, 1 ≤ slot ∧ slot ≤ 15) →
    (s.bus.join = none → s.bus.prevCtrl.op ≠ .probe →
    ∃ t, exec (.frameEnd words) s = .next t ∧ t.bus = { s.bus with inFrame := false } ∧
      (∀ slot, 1 ≤ slot → slot ≤ 15 → slot ∉ s.bus.mask →
        entryOf t slot = entryOf s slot ∧ receiveOf t slot = receiveOf s slot) ∧
      (∀ slot ∈ s.bus.mask,
        let e := entryOf s slot
        let r := receiveOf s slot
        let w := words.getD (slot - 1) 0
        let c := (upField w).toInt
        (goodWord s.bus.frame w = true →
          receiveOf t slot =
            { lastGood := some c, dropouts := 0
              run := if r.lastGood = some c then satInc 1024 r.run else 1 } ∧
          entryOf t slot =
            (if c = -32768 ∨ c = 32767 ∨ upOvr w = true then
              { e with
                overrangeSeen := true, overrangeCount := satInc 4294967295 e.overrangeCount }
            else e)) ∧
        (goodWord s.bus.frame w = false →
          receiveOf t slot = { r with dropouts := satInc 8 r.dropouts } ∧
          entryOf t slot =
            { e with dropoutSeen := true, dropoutCount := satInc 4294967295 e.dropoutCount })) ∧
      t.clock = s.clock ∧ t.sites = s.sites ∧ t.survey = s.survey ∧ t.store = s.store ∧
      t.print = s.print ∧ t.supply = s.supply ∧ t.pending = s.pending) ∧
    (let slot := s.bus.prevCtrl.target
    let good := goodWord s.bus.frame (words.getD (slot - 1) 0)
    s.bus.prevCtrl.op = .probe → 1 ≤ slot → slot ≤ 15 → slot ∉ s.bus.mask →
      (entryOf s slot).state = .absent →
      ∃ t, exec (.frameEnd words) s = .next t ∧
        (s.bus.join = none → good = true →
          t.bus = { s.bus with inFrame := false, join := some ⟨slot, 0, .readNext⟩ } ∧
            entryOf t slot = { entryOf s slot with state := .joining }) ∧
        (s.bus.join = none → good = false →
          t.bus = { s.bus with inFrame := false } ∧ entryOf t slot = entryOf s slot) ∧
        ∀ j, s.bus.join = some j → 1 ≤ j.slot → j.slot ≠ slot →
          entryOf t slot = entryOf s slot ∧ ∀ k, t.bus.join = some k → k.slot = j.slot) ∧
    (∃ t, exec (.frameEnd words) s = .next t ∧
      ∀ slot, 1 ≤ slot → slot ≤ 15 →
        let e := entryOf s slot
        let e' := entryOf t slot
        let r := receiveOf s slot
        let w := words.getD (slot - 1) 0
        let c := (upField w).toInt
        e'.identity = e.identity ∧ e'.calDue = e.calDue ∧
        (slot ∉ s.bus.mask →
          receiveOf t slot = r ∧ e'.overrangeSeen = e.overrangeSeen ∧
            e'.overrangeCount = e.overrangeCount ∧ e'.dropoutSeen = e.dropoutSeen ∧
            e'.dropoutCount = e.dropoutCount) ∧
        (slot ∈ s.bus.mask → goodWord s.bus.frame w = true →
          let beyond := c = -32768 ∨ c = 32767 ∨ upOvr w = true
          receiveOf t slot =
            { lastGood := some c, dropouts := 0
              run := if r.lastGood = some c then satInc 1024 r.run else 1 } ∧
          e'.overrangeSeen = (if beyond then true else e.overrangeSeen) ∧
          e'.overrangeCount =
            (if beyond then satInc 4294967295 e.overrangeCount else e.overrangeCount) ∧
          e'.dropoutSeen = e.dropoutSeen ∧ e'.dropoutCount = e.dropoutCount) ∧
        (slot ∈ s.bus.mask → goodWord s.bus.frame w = false →
          receiveOf t slot = { r with dropouts := satInc 8 r.dropouts } ∧
          e'.dropoutSeen = true ∧ e'.dropoutCount = satInc 4294967295 e.dropoutCount ∧
          e'.overrangeSeen = e.overrangeSeen ∧ e'.overrangeCount = e.overrangeCount))

/-- The corrected samples of a frame reach the sag window of an active channel (R59), the
pre-trigger ring of every site (R82) and the harmonic window in progress of an active position of an
enabled site while RECORDING (R97), whose sums they enter by the tables of the rounded cosine and sine
(R100). A window opens at a frame count that is a multiple of 1,024, for an active position of an enabled
site while RECORDING (R97); that it is held from its first sample on is the model's choice (log 34). A
position with no member, or with an inactive one, feeds no window and has 0 with a gap mark in the ring
(R82). The sample of the reference in use goes through the tracker's detector (R26, R29): a confirmed
crossing is used (R30), and otherwise the frames since the last one are counted (R33); the frame's state and
frequency are kept. A rotation check that runs takes the samples of its three slots, and judges a cycle where
L1 confirms (R38, R39). A filling segment that waits for the frame takes one row (R87). That L1 is judged
after L2 and L3 is the model's choice (log 15). -/
def Obligations.FrameEndDeliversTheSamples : Prop :=
  (∀ (words : List BusWord) (site role : Nat) (m : Member) (s : State), Quiet s → Shaped s →
    s.bus.inFrame = true → boundaryWork s = s → s.bus.mask.Nodup →
    (∀ slot ∈ s.bus.mask, 1 ≤ slot ∧ slot ≤ 15) → site < 4 → role < 8 →
    memberOf s site role = some m → m.active = true → m.slot ∈ s.bus.mask →
    let frame := s.bus.frame
    let x := correctedSample frame (entryOf s m.slot) (receiveOf s m.slot)
      (words.getD (m.slot - 1) 0)
    ∃ t, exec (.frameEnd words) s = .next t ∧
      (role < 3 →
        channelOf t site role =
          { channelOf s site role with window := (x :: (channelOf s site role).window).take 128 }) ∧
      (let r := t.capture.rings.getD site {}
      r.newest = frame ∧ (r.frames.headD [])[role]? = some ⟨x.value, x.gap⟩ ∧
        r.frames.tail = (s.capture.rings.getD site {}).frames.take 1279) ∧
      (∀ w, recording s = true → (siteOf s site).settings.enabled = true →
        (harmMember s site role).window = some w → w.taken < 1024 →
        let step := fun (i : Nat) => 8 * (i + 1) * w.taken % 1024
        let track := t.tracker.frameState
        harmMember t site role =
          { harmMember s site role with
            window := some
              { w with
                taken := w.taken + 1
                re := w.re.mapIdx fun i sum => sum + x.value * cosTable (step i)
                im := w.im.mapIdx fun i sum => sum + x.value * sinTable (step i)
                gap := w.gap || x.gap
                overrange := w.overrange || x.overrange
                unlocked := w.unlocked || track == .acquiring || track == .holdover
                fixed := w.fixed || track == .fixed } }) ∧
      (∀ n : Nat, n < 1024 →
        |(cosTable n : ℝ) - 32767 * Real.cos (2 * Real.pi * n / 1024)| < 1 / 2 ∧
          |(sinTable n : ℝ) - 32767 * Real.sin (2 * Real.pi * n / 1024)| < 1 / 2) ∧
      ((harmMember s site role).window = none → frame % 1024 = 0 → recording s = true →
        (siteOf s site).settings.enabled = true →
        let hmax := (siteOf s site).settings.hmax
        let track := t.tracker.frameState
        harmMember t site role =
          { harmMember s site role with
            window := some
              { first := frame, taken := 1, re := List.replicate hmax (x.value * 32767)
                im := List.replicate hmax 0, gap := x.gap, overrange := x.overrange
                unlocked := track == .acquiring || track == .holdover, fixed := track == .fixed } }) ∧
      ((harmMember s site role).window = none ∧ frame % 1024 ≠ 0 ∨ recording s = false ∨
          (siteOf s site).settings.enabled = false →
        harmMember t site role = harmMember s site role)) ∧
  (∀ (words : List BusWord) (site role : Nat) (s : State), Quiet s → Shaped s →
    s.bus.inFrame = true → boundaryWork s = s → site < 4 → role < 8 →
    (∀ m, memberOf s site role = some m → m.active = false) →
    ∃ t, exec (.frameEnd words) s = .next t ∧
      (role < 3 → channelOf t site role = channelOf s site role) ∧
      harmMember t site role = harmMember s site role ∧
      (let r := t.capture.rings.getD site {}
      r.newest = s.bus.frame ∧ (r.frames.headD [])[role]? = some ⟨0, true⟩ ∧
        r.frames.tail = (s.capture.rings.getD site {}).frames.take 1279)) ∧
  ∀ (words : List BusWord) (s : State), Quiet s → Shaped s →
    s.bus.inFrame = true → boundaryWork s = s → s.bus.mask.Nodup →
    (∀ slot ∈ s.bus.mask, 1 ≤ slot ∧ slot ≤ 15) →
    let frame := s.bus.frame
    let sample := fun (slot : Nat) =>
      correctedSample frame (entryOf s slot) (receiveOf s slot) (words.getD (slot - 1) 0)
    let through := fun (slot : Nat) (d : Detector) =>
      if slot ∈ s.bus.mask then d.take frame (sample slot).value else (d, none)
    let told := fun (bit : Nat) =>
      s.link.sending.isSome = true ∧ s.link.owed = none ∧ s.link.mask.getLsbD bit = true ∧
        s.link.notices.length ≤ 26
    ∃ t, exec (.frameEnd words) s = .next t ∧
      -- the reference in use
      (let taken := match s.tracker.inUse with
        | some slot => through slot s.tracker.det
        | none => (s.tracker.det, none)
      let u : State := { s with tracker := { s.tracker with det := taken.1 } }
      let latched := fun (x : Tracker) =>
        { x with
          frameState := if x.state = .locked ∧ 256 ≤ x.since then .holdover else x.state
          frameFreq := x.f }
      (∀ time, taken.2 = some time → t.tracker = latched (crossingConfirmed time u).tracker) ∧
      (taken.2 = none → t.tracker = latched { u.tracker with since := u.tracker.since + 1 }) ∧
      (t.tracker.state ≠ s.tracker.state → told 3 → ∃ cause,
        ⟨.trackState t.tracker.state s.tracker.state t.tracker.f t.tracker.k s.tracker.inUse cause,
          s.clock.time⟩ ∈ t.link.notices)) ∧
      -- the rotation checks
      (∀ site, site < 4 →
        let r := rotationOf s site
        (r.running = none → rotationOf t site = r) ∧
        (∀ a b c, r.running = some (a, b, c) →
          let d1 := through a r.det1
          let d2 := through b r.det2
          let d3 := through c r.det3
          let q : Rotation :=
            { r with
              det1 := d1.1, det2 := d2.1, det3 := d3.1, last2 := d2.2.or r.last2
              last3 := d3.2.or r.last3, cross2 := r.cross2 ++ d2.2.toList
              cross3 := r.cross3 ++ d3.2.toList }
          (∀ time, d1.2 = some time → rotationOf t site = closeCycle q time) ∧
          (d1.2 = none → rotationOf t site = q)) ∧
        ((rotationOf t site).state ≠ r.state → told 4 →
          ⟨.rotation site (rotationOf t site).state r.state, s.clock.time⟩ ∈ t.link.notices)) ∧
      -- the capture slots
      ∀ i, i < 12 →
        let c := captureSlot s i
        let d := captureSlot t i
        (c.state ≠ .filling ∨ c.site = none → d = c) ∧
        ∀ site, c.state = .filling → c.site = some site →
          let measures := fun (m : CaptureMember) =>
            m.slot ∈ s.bus.mask ∧ ∃ p, memberOf s site m.role.code = some p ∧ p.active = true ∧
              p.slot = m.slot ∧ p.serial = m.serial
          let waits := fun (g : Segment) =>
            g.filling = true ∧ frameDiff frame g.first = g.frames.length
          d = { c with segments := d.segments, members := d.members } ∧
          d.segments.length = c.segments.length ∧
          (∀ (k : Nat) (g : Segment), c.segments[k]? = some g →
            (¬waits g → d.segments[k]? = some g) ∧
            (waits g → ∃ (row : List CapSample) (live : List LiveState),
              d.segments[k]? = some { g with
                frames := row :: g.frames, live := live
                filling := decide (g.frames.length + 1 < 128 * g.planned) } ∧
              row.length = Nat.min c.members.length g.live.length ∧ live.length = row.length ∧
              (∀ (j : Nat) (m : CaptureMember) (x : LiveState),
                c.members[j]? = some m → g.live[j]? = some x →
                (x ≠ .stopped → measures m →
                  row[j]? = some ⟨(sample m.slot).value, (sample m.slot).gap⟩ ∧
                    live[j]? = some .measuring) ∧
                (x = .stopped ∨ ¬measures m →
                  row[j]? = some ⟨m.lastValue, true⟩ ∧
                    live[j]? = some (if x = .notYet then .notYet else .stopped))) ∧
              ((∀ (k' : Nat) (g' : Segment), c.segments[k']? = some g' → waits g' → k' = k) →
                d.members = c.members.mapIdx fun j m =>
                  let x := row.getD j ⟨0, true⟩
                  { m with
                    gaps := m.gaps + if x.gap then 1 else 0, lastValue := x.value }))) ∧
          ((∀ g ∈ c.segments, ¬waits g) → d.members = c.members)

/-- A word is good exactly when PRES is 1, its count of ones is odd and its echo is the frame count
modulo 4; one wrong bit anywhere makes a good word non-good (R4, R185). -/
def Obligations.GoodWordsAreChecked : Prop :=
  ∀ (frame : Nat) (w : BusWord),
    (goodWord frame w = true ↔
      w.getLsbD 6 = true ∧ ((List.range 24).filter fun i => w.getLsbD i).length % 2 = 1 ∧
        w.toNat / 16 % 4 = frame % 4) ∧
    (goodWord frame w = true → ∀ i, i < 24 →
      goodWord frame (w ^^^ BitVec.twoPow 24 i) = false)

/-- The join's own part of a frame's end (R8, R9, R10): identity words stored two bytes at a time, the
checks of the twelfth, failed reads, abandonment, and the FAULT after SAMPLE_OFF. A FRAME_END while a
join is in progress makes that part (R22): the join, the slot's entry and POD_FAULT are those it leaves.
That POD_FAULT comes before the frame's other notices is the model's choice (log 33). -/
def Obligations.JoinFollowsTheIdentityWords : Prop :=
  ∀ (frame slot count : Nat) (words : List BusWord) (s : State), 1 ≤ slot → slot ≤ 15 →
    let at_ := fun (stage : JoinStage) =>
      ({ s with bus := { s.bus with join := some ⟨slot, count, stage⟩ } } : State)
    let w := words.getD (slot - 1) 0
    let failed := if count < 4 then at_ .readNext else at_ (.offNext .idCheck none)
    (s.bus.join = some ⟨slot, count, .readSent⟩ → joinFrame frame words s = at_ (.words [])) ∧
    (∀ bytes, s.bus.join = some ⟨slot, count, .words bytes⟩ →
      (let bytes := bytes ++ [w.extractLsb' 8 8, w.extractLsb' 16 8]
      goodWord frame w = true →
        (bytes.length < 24 → joinFrame frame words s = at_ (.words bytes)) ∧
        (24 ≤ bytes.length → crc16 (bytes.take 22) ≠ field bytes 22 2 →
          joinFrame frame words s = failed) ∧
        (24 ≤ bytes.length → crc16 (bytes.take 22) = field bytes 22 2 →
          joinFrame frame words s =
            match identityOf bytes with
            | some identity => at_ (.onNext identity)
            | none => at_ (.offNext .idRange (some (field bytes 0 4))))) ∧
      (goodWord frame w = false → w.getLsbD 6 = true → joinFrame frame words s = failed) ∧
      (goodWord frame w = false → w.getLsbD 6 = false →
        joinFrame frame words s =
          { modifyEntry (fun e => { e with state := .absent }) slot s with
            bus := { s.bus with join := none } })) ∧
    (∀ cause serial, s.bus.join = some ⟨slot, count, .offSent cause serial⟩ →
      joinFrame frame words s =
        post (.podFault slot cause serial)
          { modifyEntry (fun e => { e with state := .fault, cause := some cause }) slot s with
            bus := { s.bus with join := none } }) ∧
    ∀ stage, Quiet s → Shaped s → s.bus.inFrame = true → s.bus.frame = frame →
      boundaryWork s = s → s.bus.mask.Nodup → (∀ i ∈ s.bus.mask, 1 ≤ i ∧ i ≤ 15) →
      slot ∉ s.bus.mask → s.bus.join = some ⟨slot, count, stage⟩ →
      let own := joinFrame frame words s
      ∃ t, exec (.frameEnd words) s = .next t ∧ t.bus = { own.bus with inFrame := false } ∧
        entryOf t slot = entryOf own slot ∧ receiveOf t slot = receiveOf s slot ∧
        (∀ i, 1 ≤ i → i ≤ 15 → i ∉ s.bus.mask → i ≠ slot →
          entryOf t i = entryOf s i ∧ receiveOf t i = receiveOf s i) ∧
        (∀ cause serial, stage = .offSent cause serial → s.link.owed = none →
          s.link.sending.isSome = true → s.link.mask.getLsbD 2 = true →
          s.link.notices.length < 32 →
          s.link.notices ++ [⟨.podFault slot cause serial, s.clock.time⟩] <+: t.link.notices) ∧
        t.clock = s.clock ∧ t.sites = s.sites ∧ t.survey = s.survey ∧ t.store = s.store ∧
        t.print = s.print ∧ t.supply = s.supply ∧ t.pending = s.pending

/-- An identity record is accepted exactly when its kind is 0 or 1 and its full scale, gain and signed
offset are within the ranges of R10, and the identity's fields are then those of the record (R185). -/
def Obligations.IdentityRangesAreChecked : Prop :=
  ∀ bytes : List Byte,
    let kind := field bytes 4 1
    let scale := field bytes 6 2
    let gain := field bytes 8 4
    let raw := field bytes 12 2
    let offset : Int := if raw < 32768 then raw else (raw : Int) - 65536
    let accepted :=
      (kind = 0 ∧ 100 ≤ scale ∧ scale ≤ 2000 ∨ kind = 1 ∧ 1 ≤ scale ∧ scale ≤ 6000) ∧
        32768 ≤ gain ∧ gain ≤ 98304 ∧ -2048 ≤ offset ∧ offset ≤ 2047
    (accepted →
      identityOf bytes = some
        { serial := field bytes 0 4, kind := if kind = 0 then .voltage else .current
          model := field bytes 5 1, fullScale := scale, gain := gain, offset := offset
          calDate := field bytes 14 2, calInterval := field bytes 16 2
          maker := field bytes 18 2 }) ∧
    (¬accepted → identityOf bytes = none)

/-- A pod is lost at eight consecutive dropouts and stuck at 1,024 identical codes (R15, R16): its entry,
the notice and its member, which becomes inactive (R17); the member's window in progress is abandoned and
counted, a complete one waits for its judgement, and its accumulator is to close (R98, R110); and its
site's rotation check stops to UNKNOWN with its ROTATION notice (R38). That short of the counts nothing
happens is the model's choice (log 3). -/
def Obligations.PodsLeaveService : Prop :=
  ∀ (slot : Nat) (s : State), Quiet s → Shaped s → s.link.owed = none → 1 ≤ slot → slot ≤ 15 →
    (entryOf s slot).state = .ready →
    let serial := ((entryOf s slot).identity.map (·.serial)).getD 0
    let left := fun (e : RosterEntry) (t : State) =>
      entryOf t slot = e ∧
        (∀ i, 1 ≤ i → i ≤ 15 → i ≠ slot → entryOf t i = entryOf s i) ∧
        (∀ site role m, positionOf s slot = some (site, role) → memberOf s site role = some m →
          memberOf t site role = some { m with active := false } ∧
            (role < 3 → (channelOf t site role).window = [] ∧ (channelOf t site role).lost = true) ∧
            let x := harmMember s site role
            (harmMember t site role).acc = x.acc ∧
            (harmMember t site role).lossDue = x.acc.isSome ∧
            (∀ w, x.window = some w → w.taken ≠ 1024 →
              (harmMember t site role).window = none ∧
                (harmSite t site).abandoned = satInc 4294967295 (harmSite s site).abandoned) ∧
            ((∀ w, x.window = some w → w.taken = 1024) →
              (harmMember t site role).window = x.window ∧
                (harmSite t site).abandoned = (harmSite s site).abandoned) ∧
            RotationFollows site s t ∧ ∀ k, k ≠ site → rotationOf t k = rotationOf s k) ∧
        (positionOf s slot = none →
          t.sites = s.sites ∧ t.sag = s.sag ∧ t.harm = s.harm ∧ t.rotation = s.rotation) ∧
        t.bus = s.bus ∧ t.tracker = s.tracker ∧ t.store = s.store ∧ t.capture = s.capture
    let told := fun (bit : Nat) (body : NoticeBody) (t : State) =>
      (positionOf s slot = none → t.link = (post body s).link) ∧
        (s.link.sending.isSome = true → s.link.mask.getLsbD bit = true →
          s.link.notices.length < 32 →
          s.link.notices ++ [⟨body, s.clock.time⟩] <+: t.link.notices)
    (8 ≤ (receiveOf s slot).dropouts →
      ∃ t, exec (.podLost slot) s = .next t ∧ left { entryOf s slot with state := .absent } t ∧
        told 1 (.podLeave slot serial .lost) t) ∧
    (1024 ≤ (receiveOf s slot).run →
      ∃ t, exec (.podStuck slot) s = .next t ∧
        left { entryOf s slot with state := .fault, cause := some .stuck } t ∧
        told 2 (.podFault slot .stuck (some serial)) t) ∧
    ((receiveOf s slot).dropouts < 8 → exec (.podLost slot) s = .next s) ∧
    ((receiveOf s slot).run < 1024 → exec (.podStuck slot) s = .next s)

/-- The corrected value of a raw code: (c - o) x G / 65,536 rounded, halves away from zero, and clamped
(R22). The corrected sample of a good word carries it with its overrange mark (R23), and that of a
dropout is a gap with the value of the last good code, or 0 without one, and never overrange (R24). -/
def Obligations.CorrectionRoundsAndClamps : Prop :=
  ∀ (gain : Nat) (offset c : Int),
    let p := (c - offset) * gain
    let v := correct gain offset c
    (-32768 ≤ v ∧ v ≤ 32767) ∧
    (∀ n : Int, -32768 ≤ n → n ≤ 32767 →
      (0 ≤ p → 65536 * (2 * n - 1) ≤ 2 * p → 2 * p < 65536 * (2 * n + 1) → v = n) ∧
      (p < 0 → 65536 * (2 * n - 1) < 2 * p → 2 * p ≤ 65536 * (2 * n + 1) → v = n)) ∧
    (65536 * 65535 ≤ 2 * p → v = 32767) ∧ (2 * p ≤ -(65536 * 65537) → v = -32768) ∧
    ∀ (frame : Nat) (e : RosterEntry) (r : Receive) (w : BusWord) (identity : Identity),
      e.identity = some identity → identity.gain = gain → identity.offset = offset →
      (goodWord frame w = true → (w.extractLsb' 8 16).toInt = c →
        correctedSample frame e r w =
          ⟨v, decide (c = -32768 ∨ c = 32767 ∨ w.getLsbD 7 = true), false⟩) ∧
      (goodWord frame w = false → r.lastGood = some c →
        correctedSample frame e r w = ⟨v, false, true⟩) ∧
      (goodWord frame w = false → r.lastGood = none →
        correctedSample frame e r w = ⟨0, false, true⟩)

/-! ### Line tracker (R25 to R39) -/

/-- TRACK_REF, TRACK_FIXED and TRACK_STATUS on a free link (R27, R35, R36). The wanted reference in the reply
to TRACK_REF is the one worked out at the latest frame start, not one from the new selection: the model's
choice (log 19). Where the frame before owes a timeout, TRACK_FIXED and TRACK_STATUS find the state that it
leaves (R33; the model's choice, log 4). That TRACK_FIXED posts its notice before its reply (log 33), and
that leaving FIXED drops the detector's previous sample with its state (log 39), are its choices too. -/
def Obligations.TrackRequestsAnswer : Prop :=
  ∀ (tag slot : Byte) (freq : Word) (s : State), Ready s →
    let n := slot.toNat
    let select := fun (r : Option Nat) =>
      exec (.trackRef tag slot) s =
        .next (replied 0x85 tag .ok (.reference r s.tracker.wanted)
          { s with tracker := { s.tracker with selection := r } })
    let refused := fun (status : Status) =>
      exec (.trackRef tag slot) s = .next (replied 0x85 tag status .empty s)
    (15 < n → refused .badValue) ∧ (n = 0 → select none) ∧
    (1 ≤ n → n ≤ 15 → (entryOf s n).state = .joining → refused .busy) ∧
    (1 ≤ n → n ≤ 15 → (entryOf s n).state ≠ .joining →
      if (entryOf s n).identity.map (·.kind) = some .voltage then select (some n)
      else refused .badValue) ∧
    let answers := fun (u : State) =>
      (freq ≠ 0 →
        let f := clampNat freq.toNat 42000 69999
        let k := (f * 2 ^ 32 + 64000000) / 128000000
        let t : State := { u with
          tracker :=
            { u.tracker with
              f := f, k := k, state := .fixed, inLock := 0
              kMoved := u.tracker.kMoved || (u.tracker.boundaryK.isNone && k != u.tracker.k) } }
        exec (.trackFixed tag freq) s =
          .next (replied 0x86 tag (if f = freq.toNat then .ok else .okClamped) (.frequency f)
            (if u.tracker.state = .fixed then t
            else post (.trackState .fixed u.tracker.state f k u.tracker.inUse .request) t))) ∧
      (u.tracker.state = .fixed →
        let t : State := { u with
          tracker :=
            { u.tracker with state := .acquiring, lastCross := none, inLock := 0, det := {} } }
        exec (.trackFixed tag 0) s =
          .next (replied 0x86 tag .ok .empty
            (post
              (.trackState .acquiring .fixed u.tracker.f u.tracker.k u.tracker.inUse .request) t))) ∧
      (u.tracker.state ≠ .fixed →
        exec (.trackFixed tag 0) s = .next (replied 0x86 tag .wrongState .empty u)) ∧
      (∀ clear : Bool,
        exec (.trackStatus tag clear) s =
          .next (replied 0x87 tag .ok
            (.track u.tracker.state u.tracker.f u.tracker.k u.tracker.selection u.tracker.wanted
              u.tracker.inUse u.tracker.inLock u.tracker.since u.tracker.unlockSeen
              (u.rotation.map (·.state)))
            { u with
              tracker :=
                { u.tracker with unlockSeen := if clear then false else u.tracker.unlockSeen } }))
    (s.tracker.state ≠ .locked ∨ s.tracker.since < 256 → answers s) ∧
    (s.tracker.state = .locked → 256 ≤ s.tracker.since →
      answers { post
          (.trackState .holdover .locked s.tracker.f s.tracker.k s.tracker.inUse .noCrossing) s with
        tracker :=
          { s.tracker with
            state := .holdover, inLock := 0, unlockSeen := true, lastCross := none
            frameState := .holdover } })

/-- In LOCKED, 256 frames without a confirmed crossing take the tracker to HOLDOVER with f and K held
and the last crossing time discarded (R33, R34, R36); that the timeout otherwise does nothing is the
model's choice (log 3). -/
def Obligations.NoCrossingEndsTheLock : Prop :=
  ∀ s : State, Quiet s →
    (s.tracker.state = .locked → 256 ≤ s.tracker.since →
      exec .noCrossingTimeout s =
        .next { post
            (.trackState .holdover .locked s.tracker.f s.tracker.k s.tracker.inUse .noCrossing) s with
          tracker :=
            { s.tracker with
              state := .holdover, inLock := 0, unlockSeen := true, lastCross := none
              frameState := .holdover } }) ∧
    (s.tracker.state ≠ .locked ∨ s.tracker.since < 256 → exec .noCrossingTimeout s = .next s)

/-- What a period handed over does in each tracker state: smoothing, the in-lock count, and the changes
of state with their notices (R31, R32, R34, R35, R36). -/
def Obligations.PeriodsMoveTheTracker : Prop :=
  ∀ (p : Nat) (s : State),
    let t := s.tracker
    let valid := 31130 ≤ p ∧ p ≤ 34406
    let inLock := 32704 ≤ p ∧ p ≤ 32832
    let step := fun (d : Int) =>
      let f := (t.f + ((t.f * 32768 / p : Nat) - (t.f : Int)).tdiv d)
      (if f < 42000 then 42000 else if 69999 < f then 69999 else f).toNat
    let moved := fun (f : Nat) (state : TrackerState) (count : Nat) =>
      let k := (f * 2 ^ 32 + 64000000) / 128000000
      ({ s with
        tracker :=
          { t with
            f := f, k := k, state := state, inLock := count
            kMoved := t.kMoved || (t.boundaryK.isNone && k != t.k) } } : State)
    let told := fun (cause : TrackCause) (u : State) =>
      post (.trackState u.tracker.state t.state u.tracker.f u.tracker.k t.inUse cause) u
    (t.state = .acquiring → ¬valid →
      takePeriod p s = { s with tracker := { t with inLock := 0 } }) ∧
    (t.state = .acquiring → valid → ¬inLock → takePeriod p s = moved (step 2) .acquiring 0) ∧
    (t.state = .acquiring → inLock → t.inLock < 7 →
      takePeriod p s = moved (step 2) .acquiring (t.inLock + 1)) ∧
    (t.state = .acquiring → inLock → 7 ≤ t.inLock →
      takePeriod p s = told .lockGained (moved (step 2) .locked 0)) ∧
    (t.state = .locked → valid → takePeriod p s = moved (step 8) .locked t.inLock) ∧
    (t.state = .locked → ¬valid →
      takePeriod p s =
        told .periodOut
          { s with
            tracker := { t with state := .holdover, inLock := 0, unlockSeen := true } }) ∧
    (t.state = .holdover → valid →
      takePeriod p s =
        told .periodValid (moved (step 2) .acquiring (if inLock then 1 else 0))) ∧
    (t.state = .holdover → ¬valid → takePeriod p s = s) ∧
    (t.state = .fixed → takePeriod p s = s)

/-- The crossing detector, sample by sample (R29), with the candidate's time in 1/256 of a sample
(R30). -/
def Obligations.DetectorFollowsTheTable : Prop :=
  ∀ (d : Detector) (frame n : Nat) (before x : Int), d.prev = some (n, before) →
    let enters := fun (state : DetectorState) (candidate : Nat) =>
      (⟨state, some (frame, x), candidate⟩ : Detector)
    let time := n * 256 + (256 * (-before).toNat) / (x - before).toNat
    (d.state = .disarmed → x ≤ -328 → d.take frame x = (enters .armed d.candidate, none)) ∧
    (d.state = .disarmed → -328 < x → d.take frame x = (enters .disarmed d.candidate, none)) ∧
    (d.state = .armed → x < 0 → d.take frame x = (enters .armed d.candidate, none)) ∧
    (d.state = .armed → 0 ≤ x → x < 328 → d.take frame x = (enters .candidate time, none)) ∧
    (d.state = .armed → 328 ≤ x → d.take frame x = (enters .disarmed time, some time)) ∧
    (d.state = .candidate → 328 ≤ x →
      d.take frame x = (enters .disarmed d.candidate, some d.candidate)) ∧
    (d.state = .candidate → x ≤ -328 → d.take frame x = (enters .armed d.candidate, none)) ∧
    (d.state = .candidate → -328 < x → x < 328 →
      d.take frame x = (enters .candidate d.candidate, none)) ∧
    (before < 0 → 0 ≤ x → n * 256 ≤ time ∧ time ≤ n * 256 + 256)

/-- The rotation check judges a cycle of L1 by the first crossings of L2 and L3 in it; four cycles in
one order set the state (R39). -/
def Obligations.RotationJudgesTheCycle : Prop :=
  ∀ (r : Rotation) (opening closing : Nat), r.opening = some opening → opening < closing →
    let first := fun (xs : List Nat) => xs.find? fun t => decide (opening ≤ t ∧ t < closing)
    let t := closeCycle r closing
    t.opening = some closing ∧
    (∀ a b, first r.cross2 = some a → first r.cross3 = some b → a < b →
      t.normalRun = Nat.min 4 (Nat.min 4 r.normalRun + 1) ∧ t.reversedRun = 0 ∧
        (t.normalRun = 4 → t.state = .normal) ∧ (t.normalRun < 4 → t.state = r.state)) ∧
    (∀ a b, first r.cross2 = some a → first r.cross3 = some b → b < a →
      t.reversedRun = Nat.min 4 (Nat.min 4 r.reversedRun + 1) ∧ t.normalRun = 0 ∧
        (t.reversedRun = 4 → t.state = .reversed) ∧ (t.reversedRun < 4 → t.state = r.state)) ∧
    (first r.cross2 = none ∨ first r.cross3 = none ∨ first r.cross2 = first r.cross3 →
      t.normalRun = 0 ∧ t.reversedRun = 0 ∧ t.state = r.state)

/-- The wanted reference at the start of a frame (R28): the selected slot where it is READY, and
otherwise the lowest READY voltage slot that a member position names, and otherwise none. The reference
in use changes over to it at once, or waits for a crossing of a slot that is still READY, up to 256
frames after the last; that crossing is used before the change (R30). That a period is the difference of two
crossing times modulo the wrap of the frame count is the model's choice (log 15). -/
def Obligations.WantedReferenceIsChosen : Prop :=
  ∀ s : State,
    let selected := match s.tracker.selection with
      | some slot => some slot
      | none => (memberOf s 0 0).map (·.slot)
    let eligible := fun (slot : Nat) =>
      1 ≤ slot ∧ slot ≤ 15 ∧ (entryOf s slot).state = .ready ∧
        (entryOf s slot).identity.map (·.kind) = some .voltage ∧
        ∃ site role m, site < 4 ∧ role < 8 ∧ memberOf s site role = some m ∧ m.slot = slot
    (∀ slot, selected = some slot → 1 ≤ slot → slot ≤ 15 → (entryOf s slot).state = .ready →
      wantedReference s = some slot) ∧
    ((∀ slot, selected = some slot → slotReady s slot = false) →
      (∀ slot, wantedReference s = some slot →
        eligible slot ∧ ∀ i, eligible i → slot ≤ i) ∧
      (wantedReference s = none → ∀ i, ¬eligible i)) ∧
    (Quiet s → Settled s →
      ∃ t, exec .frameStart s = .next t ∧ t.tracker.wanted = wantedReference t ∧
        let keeps := t.tracker.wanted = s.tracker.inUse ∨
          (∃ slot, s.tracker.inUse = some slot ∧ slotReady t slot = true) ∧ s.tracker.since < 256
        (keeps → t.tracker.inUse = s.tracker.inUse ∧ t.tracker.lastCross = s.tracker.lastCross ∧
          t.tracker.det = s.tracker.det) ∧
        (¬keeps → t.tracker.inUse = t.tracker.wanted ∧ t.tracker.lastCross = none ∧
          t.tracker.det = {})) ∧
    ∀ time : Nat,
      let u := match s.tracker.lastCross with
        | some last => takePeriod ((time + 256 * 2 ^ 48 - last) % (256 * 2 ^ 48)) s
        | none => s
      crossingConfirmed time s =
        { u with
          tracker :=
            if s.tracker.wanted = s.tracker.inUse then
              { u.tracker with lastCross := some time, since := 0 }
            else
              { u.tracker with
                inUse := s.tracker.wanted, lastCross := none, since := 0, det := {} } }

/-! ### Clock, sites and survey (R40 to R58) -/

/-- The clock's millisecond, its midnight and its wrap, in every state, held or not (R40, R19, R174).
That CLOCK_WRAP and CLOCK_MIDNIGHT do nothing where they are not due is the model's choice (log 3). -/
def Obligations.ClockCommandsMoveTheClock : Prop :=
  ∀ s : State,
    let c := s.clock
    let at_ := fun (t : ClockTime) (valid due : Bool) =>
      ({ s with clock := { time := t, valid := valid, midnightDue := due } } : State)
    (c.midnightDue = false → c.time.ms < 999 →
      exec .clockTick s = .next (at_ ⟨c.time.sec, c.time.ms + 1⟩ c.valid false)) ∧
    (c.midnightDue = false → 999 ≤ c.time.ms → c.time.sec < 4294967295 →
      exec .clockTick s =
        .next (at_ ⟨c.time.sec + 1, 0⟩ c.valid ((c.time.sec + 1) % 86400 == 0))) ∧
    (c.midnightDue = false → 999 ≤ c.time.ms → 4294967295 ≤ c.time.sec →
      exec .clockTick s = .next (at_ ⟨0, 0⟩ false true)) ∧
    (c.midnightDue = false → c.time = ⟨4294967295, 999⟩ →
      exec .clockWrap s = .next (at_ ⟨0, 0⟩ false true)) ∧
    (c.time ≠ ⟨4294967295, 999⟩ → exec .clockWrap s = .next s) ∧
    (c.midnightDue = true →
      exec .clockMidnight s =
        .next { at_ c.time c.valid false with
          roster := s.roster.map fun e =>
            { e with
              calDue := match e.identity with
                | some i => c.valid && decide (i.calDate + i.calInterval < c.time.sec / 86400)
                | none => false } }) ∧
    (c.midnightDue = false → exec .clockMidnight s = .next s)

/-- CLOCK_SET on a free link (R41): BUSY while the store is mounting, refused while RECORDING and for a
bad milliseconds value; otherwise the clock is set and valid, and CAL_DUE is evaluated (R19). That
WRONG_STATE is judged before the milliseconds is the model's choice (log 20). -/
def Obligations.ClockSetSetsTheClock : Prop :=
  ∀ (tag : Byte) (sec : Word) (ms : Half) (s : State), Ready s →
    let up := s.store.state ≠ .mounting
    (¬up → exec (.clockSet tag sec ms) s = .next (replied 0x88 tag .busy .empty s)) ∧
    (up → s.survey.state = some .recording →
      exec (.clockSet tag sec ms) s = .next (replied 0x88 tag .wrongState .empty s)) ∧
    (up → s.survey.state ≠ some .recording → 999 < ms.toNat →
      exec (.clockSet tag sec ms) s = .next (replied 0x88 tag .badValue .empty s)) ∧
    (up → s.survey.state ≠ some .recording → ms.toNat ≤ 999 →
      let time : ClockTime := ⟨sec.toNat, ms.toNat⟩
      exec (.clockSet tag sec ms) s =
        .next (replied 0x88 tag .ok (.clock time)
          { s with
            clock := { s.clock with time := time, valid := true }
            roster := s.roster.map fun e =>
              { e with
                calDue := match e.identity with
                  | some i => decide (i.calDate + i.calInterval < sec.toNat / 86400)
                  | none => false } }))

/-- While the store is mounting every request of the survey's chapter is answered BUSY and has no effect;
SURVEY_STATUS otherwise returns the survey as it stands (R58). -/
def Obligations.MountingAnswersBusy : Prop :=
  ∀ (tag slot site role : Byte) (sec : Word) (ms : Half) (c : CarriedSettings) (s : State), Ready s →
    (s.store.state = .mounting →
      exec (.clockSet tag sec ms) s = .next (replied 0x88 tag .busy .empty s) ∧
      exec (.siteSet tag site c) s = .next (replied 0x89 tag .busy .empty s) ∧
      exec (.siteGet tag site) s = .next (replied 0x8A tag .busy .empty s) ∧
      exec (.assign tag slot site role) s = .next (replied 0x8B tag .busy .empty s) ∧
      exec (.surveyStart tag) s = .next (replied 0x8C tag .busy .empty s) ∧
      exec (.surveyHold tag) s = .next (replied 0x8D tag .busy .empty s) ∧
      exec (.surveyResume tag) s = .next (replied 0x8E tag .busy .empty s) ∧
      exec (.surveyEnd tag) s = .next (replied 0x8F tag .busy .empty s) ∧
      exec (.surveyNew tag) s = .next (replied 0x90 tag .busy .empty s) ∧
      exec (.surveyStatus tag) s = .next (replied 0x91 tag .busy .empty s)) ∧
    (s.store.state ≠ .mounting →
      exec (.surveyStatus tag) s =
        .next (replied 0x91 tag .ok
          (.surveyStatus s.survey.state s.survey.cause s.survey.number s.survey.first
            s.survey.runStart (s.survey.change == some .stopSupply) s.survey.place.isSome
            s.clock.time s.clock.valid
            (s.sites.map fun e =>
              (e.settings.enabled, (e.members.filter (·.isSome)).length,
                (e.members.filter fun m => m.any (·.active)).length))) s))

/-- SITE_SET stores each setting carried, clamped, with Ti, Wc and We clamped by what will be stored, and
echoes the entry (R42, R43); the rotation check stops, starts or goes on (R38); its refusals, and SITE_GET
(R47). That WRONG_STATE is judged before the site number (log 20), and that ROTATION comes before the reply
(log 33), are the model's choices. -/
def Obligations.SiteSetClampsAndEchoes : Prop :=
  ∀ (tag site : Byte) (c : CarriedSettings) (s : State), Ready s → Shaped s →
    s.store.state ≠ .mounting →
    let n := site.toNat
    let e := siteOf s n
    let x := e.settings
    let refused := fun (status : Status) =>
      exec (.siteSet tag site c) s = .next (replied 0x89 tag status .empty s)
    let keep := fun (o : Option Nat) (stored low high : Nat) =>
      match o with
      | some v => clampNat v low high
      | none => stored
    let half := fun (o : Option Half) => o.map (·.toNat)
    let byte := fun (o : Option Byte) => o.map (·.toNat)
    let open_ := s.survey.state = some .setup ∨ s.survey.state = some .held
    (s.survey.state = some .recording ∨ s.survey.state = some .ended → refused .wrongState) ∧
    (open_ → 3 < n → refused .badValue) ∧
    (open_ → n ≤ 3 → (∃ text, c.name = some text ∧ ∃ b ∈ text, b.toNat < 0x20 ∨ 0x7E < b.toNat) →
      refused .badValue) ∧
    (open_ → n ≤ 3 → x.pc ≤ 8 → x.pe ≤ 8 →
      (∀ text, c.name = some text → ∀ b ∈ text, 0x20 ≤ b.toNat ∧ b.toNat ≤ 0x7E) →
      let st := keep (half c.st) x.st 100 950
      let pc := keep (byte c.pc) x.pc 1 8
      let pe := keep (byte c.pe) x.pe 1 8
      let asked : Settings :=
        { enabled := c.enabled.getD x.enabled, name := c.name.getD x.name
          udin := (half c.udin).getD x.udin, st := (half c.st).getD x.st, h := (byte c.h).getD x.h
          ti := (half c.ti).getD x.ti, nc := (byte c.nc).getD x.nc, pc := (byte c.pc).getD x.pc
          wc := (byte c.wc).getD x.wc, pe := (byte c.pe).getD x.pe, we := (byte c.we).getD x.we
          hmax := (byte c.hmax).getD x.hmax, interval := (byte c.interval).getD x.interval
          rotCheck := c.rotCheck.getD x.rotCheck }
      let stored : Settings :=
        { asked with
          name := (c.name.map (·.take 16)).getD x.name, udin := keep (half c.udin) x.udin 50 1000
          st := st, h := keep (byte c.h) x.h 0 100, ti := clampNat ((half c.ti).getD x.ti) 0 st
          nc := keep (byte c.nc) x.nc 1 4, pc := pc
          wc := Nat.min (keep (byte c.wc) x.wc 1 14) (16 - pc), pe := pe
          we := Nat.min (keep (byte c.we) x.we 1 14) (16 - pe)
          hmax := keep (byte c.hmax) x.hmax 2 50, interval := keep (byte c.interval) x.interval 1 60 }
      ∃ t, exec (.siteSet tag site c) s =
          .next (replied 0x89 tag (if stored = asked then .ok else .okClamped)
            (.site ⟨stored, e.members⟩) t) ∧
        t.sites = updateAt (fun e => { e with settings := stored }) n s.sites ∧
        siteOf t n = ⟨stored, e.members⟩ ∧
        RotationFollows n s t ∧ (∀ k, k ≠ n → rotationOf t k = rotationOf s k) ∧
        t.survey = s.survey ∧ t.sag = s.sag ∧ t.capture = s.capture ∧ t.harm = s.harm ∧
        t.store = s.store ∧ t.roster = s.roster ∧ t.tracker = s.tracker ∧ t.print = s.print) ∧
    exec (.siteGet tag site) s =
      .next (if 3 < n then replied 0x8A tag .badValue .empty s else replied 0x8A tag .ok (.site e) s)

/-- ASSIGN places a slot in a position, or takes it out of the table; its four checks in their order
(R44, R45); the rotation checks of the sites it touches stop, start anew or go on (R38). A position that is
cleared or takes another slot loses its sag window (R59), its latest harmonic result (R103) and its
accumulator (R105), and one that takes the slot it had keeps them. That ROTATION comes before the reply, that
of a vacated site first, is the model's choice (log 33). -/
def Obligations.AssignPlacesTheSlot : Prop :=
  ∀ (tag slot site role : Byte) (s : State), Ready s → Shaped s → s.store.state ≠ .mounting →
    let n := slot.toNat
    let e := entryOf s n
    let named := 1 ≤ n ∧ n ≤ 15
    let placeable := role = 0xFF ∨ site.toNat ≤ 3 ∧ role.toNat ≤ 7
    let open_ := s.survey.state ≠ some .recording ∧ s.survey.state ≠ some .ended
    let refused := fun (status : Status) =>
      exec (.assign tag slot site role) s = .next (replied 0x8B tag status .empty s)
    let fits := e.identity.map (·.kind) = some (if role.toNat < 4 then .voltage else .current)
    (¬named ∨ ¬placeable → refused .badValue) ∧
    (named → placeable → ¬open_ → refused .wrongState) ∧
    (named → placeable → open_ → e.state = .joining → refused .busy) ∧
    (named → placeable → open_ → e.state ≠ .joining → role ≠ 0xFF → ¬fits → refused .badValue) ∧
    (∀ identity, named → placeable → open_ → e.state ≠ .joining → role ≠ 0xFF →
      e.identity = some identity → fits →
      (∀ i j m, memberOf s i j = some m → m.slot = n → i < 4 → j < 8 →
        positionOf s n = some (i, j)) →
      ∃ t, exec (.assign tag slot site role) s =
          .next (replied 0x8B tag .ok (.assigned (some (siteOf t site.toNat))) t) ∧
        memberOf t site.toNat role.toNat =
          some { slot := n, serial := identity.serial, active := e.state == .ready } ∧
        ((memberOf s site.toNat role.toNat).map (·.slot) = some n →
          PositionKept site.toNat role.toNat s t) ∧
        ((memberOf s site.toNat role.toNat).map (·.slot) ≠ some n →
          PositionEmptied site.toNat role.toNat s t) ∧
        (∀ i j, i < 4 → j < 8 → (i ≠ site.toNat ∨ j ≠ role.toNat) →
          ((memberOf s i j).map (·.slot) = some n →
            memberOf t i j = none ∧ PositionEmptied i j s t) ∧
          ((memberOf s i j).map (·.slot) ≠ some n →
            memberOf t i j = memberOf s i j ∧ PositionKept i j s t)) ∧
        (RotationSound s → ∀ k, k < 4 → RotationFollows k s t) ∧
        (∀ k, k ≠ site.toNat → (∀ j, positionOf s n ≠ some (k, j)) →
          rotationOf t k = rotationOf s k) ∧
        t.roster = s.roster ∧ t.survey = s.survey ∧ t.store = s.store ∧ t.capture = s.capture) ∧
    (named → open_ → e.state ≠ .joining → role = 0xFF → positionOf s n = none →
      exec (.assign tag slot site role) s = .next (replied 0x8B tag .ok (.assigned none) s)) ∧
    (∀ i j, named → open_ → e.state ≠ .joining → role = 0xFF → positionOf s n = some (i, j) →
      ∃ t, exec (.assign tag slot site role) s =
          .next (replied 0x8B tag .ok (.assigned (some (siteOf t i))) t) ∧
        memberOf t i j = none ∧ PositionEmptied i j s t ∧
        (∀ i' j', i' < 4 → j' < 8 → (i' ≠ i ∨ j' ≠ j) →
          memberOf t i' j' = memberOf s i' j' ∧ PositionKept i' j' s t) ∧
        RotationFollows i s t ∧ (∀ k, k ≠ i → rotationOf t k = rotationOf s k) ∧
        t.roster = s.roster ∧ t.survey = s.survey ∧ t.store = s.store ∧ t.capture = s.capture)

/-- SURVEY_START, SURVEY_RESUME, SURVEY_HOLD and SURVEY_END from RECORDING: refused by their checks in
their order, and otherwise pending, with no reply yet (R50 to R54). The answer to SURVEY_END while a stop
with cause SUPPLY is pending after the level left CRITICAL is the model's choice (log 23). -/
def Obligations.SurveyRequestsArePending : Prop :=
  ∀ (tag : Byte) (s : State), Ready s → s.store.state ≠ .mounting →
    let site := ∃ e ∈ s.sites, e.settings.enabled = true ∧ ∃ m ∈ e.members.take 4, m.isSome = true
    let wait := fun (kind : Nat) (change : Change) =>
      waiting kind tag { s with survey := { s.survey with change := some change } }
    let starts := fun (kind : Nat) (o : Host.Outcome State Fault Refusal) =>
      (¬site → o = .next (replied (kind + 128) tag .badValue .empty s)) ∧
      (site → s.supply.level = .critical →
        o = .next (replied (kind + 128) tag .supply .empty s)) ∧
      (site → s.supply.level ≠ .critical → s.store.state = .wiping →
        o = .next (replied (kind + 128) tag .busy .empty s)) ∧
      (site → s.supply.level ≠ .critical → s.store.state ≠ .wiping →
        o = .next (wait kind .start))
    (s.survey.state = some .setup → starts 0x0C (exec (.surveyStart tag) s)) ∧
    (s.survey.state ≠ some .setup →
      exec (.surveyStart tag) s = .next (replied 0x8C tag .wrongState .empty s)) ∧
    (s.survey.state = some .held → starts 0x0E (exec (.surveyResume tag) s)) ∧
    (s.survey.state ≠ some .held →
      exec (.surveyResume tag) s = .next (replied 0x8E tag .wrongState .empty s)) ∧
    (s.survey.state = some .recording →
      exec (.surveyHold tag) s =
        .next (if s.survey.change = some .stopSupply then waiting 0x0D tag s
          else wait 0x0D .stopHold)) ∧
    (s.survey.state ≠ some .recording →
      exec (.surveyHold tag) s = .next (replied 0x8D tag .wrongState .empty s)) ∧
    (s.survey.state = some .recording →
      exec (.surveyEnd tag) s =
        .next (if s.supply.level = .critical ∨ s.survey.change = some .stopSupply then
            replied 0x8F tag .supply .empty s
          else wait 0x0F .stopEnd))

/-- Entering a survey state makes the SURVEY record with the fields of R56, queued as soon as the queue
has room and pending until then, and posts SURVEY_STATE (R48). That it stays pending while the store is
MOUNTING or WIPING is the model's choice (log 32). -/
def Obligations.SurveyRecordIsMade : Prop :=
  ∀ (new : SurveyState) (cause : Option HoldCause) (frame : Nat) (time : ClockTime) (s : State),
    let t := enterSurvey new cause frame time s
    let r : SurveyRecord :=
      { number := s.survey.number, state := new, cause := cause, first := s.survey.first
        runStart := s.survey.runStart, mode := s.store.mode, time := s.clock.time
        clockUnset := !s.clock.valid
        sites := s.sites.map fun e =>
          ⟨e.settings, e.members.map fun m => m.map fun m => (m.slot, m.serial)⟩ }
    let up := s.store.state ≠ .mounting ∧ s.store.state ≠ .wiping
    t.link =
      (post (.surveyState s.survey.number new s.survey.state cause frame time none) s).link ∧
    t.survey =
      { s.survey with
        state := some new, cause := cause
        place := if up ∧ s.store.queue.length < 16 then none else some r } ∧
    (up → s.store.queue.length < 16 →
      t.store.queue = s.store.queue ++ [⟨.survey, s.store.nextIds.survey, .survey r, false⟩] ∧
        t.store.nextIds = { s.store.nextIds with survey := s.store.nextIds.survey + 1 }) ∧
    (¬up ∨ 16 ≤ s.store.queue.length → t.store.queue = s.store.queue) ∧
    t.store.array = s.store.array ∧ t.sites = s.sites ∧ t.sag = s.sag ∧ t.harm = s.harm ∧
      t.capture = s.capture ∧ t.print = s.print ∧ t.clock = s.clock

/-- SURVEY_END from HELD and SURVEY_NEW take effect when taken; their refusals (R54). That each posts
SURVEY_STATE before its reply is the model's choice (log 33). -/
def Obligations.SurveyEndsAndRenews : Prop :=
  ∀ (tag : Byte) (s : State), Ready s → s.store.state ≠ .mounting →
    (s.survey.state = some .held → s.supply.level = .critical →
      exec (.surveyEnd tag) s = .next (replied 0x8F tag .supply .empty s)) ∧
    (s.survey.state = some .held → s.supply.level ≠ .critical →
      exec (.surveyEnd tag) s =
        .next (replied 0x8F tag .ok .empty (enterSurvey .ended none s.bus.frame s.clock.time s))) ∧
    (s.survey.state = some .setup ∨ s.survey.state = some .ended →
      exec (.surveyEnd tag) s = .next (replied 0x8F tag .wrongState .empty s)) ∧
    (s.survey.state = some .ended →
      let number := if s.survey.number < 65535 then s.survey.number + 1 else 1
      exec (.surveyNew tag) s =
        .next (replied 0x90 tag .ok .empty
          (post (.surveyState number .setup (some .ended) none s.bus.frame s.clock.time none)
            { s with
              survey :=
                { s.survey with
                  state := some .setup, cause := none, number := number, first := none
                  runStart := none } }))) ∧
    (s.survey.state ≠ some .ended →
      exec (.surveyNew tag) s = .next (replied 0x90 tag .wrongState .empty s))

/-- The start boundary of a run (R49, R51, R53): RECORDING, the run start and the first recording time,
the waiting request's reply, the interval bases by CLOCK_VALID as the boundary's frame began and the first
interval boundary of each site (R104), the accumulators of enabled sites (R105), the SURVEY record, queued
where the queue has room and pending where it has none (R56), and SURVEY_STATE (R48). That the record stays pending while the store is MOUNTING or WIPING
(log 32), and that SURVEY_STATE comes before the reply (log 33), are the model's choices. -/
def Obligations.StartBoundaryStartsTheRun : Prop :=
  ∀ (kind tag : Byte) (frame : Nat) (s : State), Quiet s → Shaped s → s.link.owed = none →
    s.link.reply = none → s.link.sending.isSome = true →
    s.link.current = some ⟨kind.toNat, tag, false⟩ → s.survey.change = some .start →
    s.survey.changeDue = true → s.bus.frame = frame →
    ∃ t, exec .startBoundary s = .next t ∧
      t.survey.state = some .recording ∧ t.survey.change = none ∧ t.survey.changeDue = false ∧
      t.survey.runStart = some ⟨frame, s.bus.frameTime⟩ ∧
      t.survey.first = some (s.survey.first.getD s.bus.frameTime) ∧
      t.survey.number = s.survey.number ∧ t.link.current = none ∧
      t.link.reply =
        some ⟨replyKind kind.toNat, tag, .ok,
          if s.survey.state = some .held then .resumed frame s.bus.frameTime
          else .surveyStarted s.survey.number frame s.bus.frameTime⟩ ∧
      t.sag.runBoundary = some frame ∧ t.sag.sites = s.sag.sites ∧
      (∀ site, site < 4 →
        (harmSite t site).basis = some (if s.bus.frameValid then .clock else .run) ∧
        (let start := s.bus.frameTime
        let step := 60 * (siteOf s site).settings.interval
        let next := (start.sec / step + 1) * step
        (harmSite t site).next =
          some (if s.bus.frameValid then ⟨if next < 2 ^ 32 then next else 0, 0⟩
            else ⟨(start.sec + step) % 2 ^ 32, start.ms⟩)) ∧
        ∀ role, role < 8 → (siteOf s site).settings.enabled = true →
          (harmMember t site role).acc =
            (memberOf s site role).map fun m =>
              newAccumulator m (siteOf s site).settings.hmax s.bus.frameTime frame
                (harmSite s site).mark.isSome) ∧
      (let r : SurveyRecord :=
        { number := s.survey.number, state := .recording, cause := none
          first := some (s.survey.first.getD s.bus.frameTime)
          runStart := some ⟨frame, s.bus.frameTime⟩, mode := s.store.mode, time := s.clock.time
          clockUnset := !s.clock.valid
          sites := s.sites.map fun e =>
            ⟨e.settings, e.members.map fun m => m.map fun m => (m.slot, m.serial)⟩ }
      let up := s.store.state ≠ .mounting ∧ s.store.state ≠ .wiping
      (up → s.store.queue.length < 16 →
        t.store.queue = s.store.queue ++ [⟨.survey, s.store.nextIds.survey, .survey r, false⟩] ∧
          t.survey.place = none) ∧
      (¬up ∨ 16 ≤ s.store.queue.length →
        t.store.queue = s.store.queue ∧ t.survey.place = some r)) ∧
      (s.link.mask.getLsbD 5 = true → s.link.notices.length < 32 →
        t.link.notices = s.link.notices ++
          [⟨.surveyState s.survey.number .recording s.survey.state none frame s.bus.frameTime none,
            s.clock.time⟩]) ∧
      t.sites = s.sites ∧ t.capture = s.capture ∧ t.store.array = s.store.array ∧ t.bus = s.bus

/-- A stop boundary (R49, R52, R54, R55, R76, R90, R98): the survey leaves RECORDING, no event stays
open, no channel pends, no capture fills, and no window or accumulator is left. An open event makes its
TRUNCATED record (R76), an accumulator with a counted window its PARTIAL record (R110), and the survey its
SURVEY record (R56), each queued where the queue has room; SURVEY_STATE is posted (R48); a SURVEY_HOLD or
SURVEY_END that waits is answered (R52, R54). A filling capture ends COMPLETE, with its END segment where the
close takes one and its whole cycles kept (R88, R90). That events, intervals and the survey hand their
records in this order (log 13), that the SURVEY record stays pending while the store is MOUNTING or WIPING
(log 32), that the request is answered after SURVEY_STATE (log 33), and how a boundary is reached on a clock
that wraps (log 40), are the model's choices. -/
def Obligations.StopBoundaryEndsTheRun : Prop :=
  ∀ (change : Change) (s : State), Quiet s → Shaped s → s.survey.change = some change →
    change ≠ .start → s.survey.changeDue = true →
    ∃ t, exec .stopBoundary s = .next t ∧
      t.survey.state = some (if change = .stopEnd then .ended else .held) ∧
      t.survey.cause =
        (match change with
          | .stopEnd => none
          | .stopSupply => some .supply
          | _ => some .linkRequest) ∧
      t.survey.change = none ∧ t.survey.changeDue = false ∧
      t.survey.number = s.survey.number ∧ t.survey.runStart = s.survey.runStart ∧
      (∀ site, site < 4 →
        (sagSite t site).event = none ∧
        (∀ role, role < 3 →
          (channelOf t site role).state = .normal ∧ (channelOf t site role).candidate = none ∧
            (channelOf t site role).window = (channelOf s site role).window) ∧
        (harmSite t site).basis = none ∧ (harmSite t site).next = none ∧
        ∀ role, role < 8 →
          (harmMember t site role).window = none ∧ (harmMember t site role).acc = none) ∧
      (∀ c ∈ t.capture.slots, c.site.isSome → c.state ≠ .filling) ∧
      (let b := s.bus.frame
      let up := s.store.state ≠ .mounting ∧ s.store.state ≠ .wiping
      let events := (List.range 4).countP fun site => (sagSite s site).event.isSome
      let intervals := (((List.range 4).map fun site => (List.range 8).countP fun role =>
        (harmMember s site role).acc.any fun a => 0 < a.n)).sum
      -- the EVENT records
      (∀ site e, site < 4 → (sagSite s site).event = some e → up → s.store.state ≠ .full →
        s.store.queue.length + events ≤ 16 →
        ∃ r : EventRecord, ⟨.event, e.id, .event r, false⟩ ∈ t.store.queue ∧ r.id = e.id ∧
          r.site = site ∧ r.number = s.survey.number ∧ r.startTime = e.startTime ∧
          r.capture = e.capture ∧ r.flags.truncated = true ∧ r.flags.clockUnset = !s.clock.valid ∧
          ((∃ i ∈ e.involved, i.holding = true) → b < 2 ^ 48 →
            (∀ i ∈ e.involved, ∀ x, i.recovery = some x → x < 2 ^ 48) →
            (sagSite s site).history.head?.map (·.frame) ≠ some b →
            r.endTime = s.bus.frameTime ∧ r.half = Nat.min 65535 (frameDiff b e.startFrame / 64))) ∧
      -- the INTERVAL records
      (∀ site role a, site < 4 → role < 8 → (harmMember s site role).acc = some a → 0 < a.n →
        up → s.store.state ≠ .full → s.store.queue.length + events + intervals ≤ 16 →
        let h := harmSite s site
        ∃ id r, ⟨.interval, id, .interval id r, false⟩ ∈ t.store.queue ∧
          r.number = s.survey.number ∧ r.site = site ∧ r.role = roleOf role ∧ r.slot = a.slot ∧
          r.serial = a.serial ∧ r.startTime = a.startTime ∧
          r.endTime = (if h.due = true ∨ boundaryReached s s.bus.frameTime h = true then
            h.next.getD s.bus.frameTime else s.bus.frameTime) ∧
          r.n = a.n ∧ r.excluded = a.excluded ∧ r.flags.partialClose = true ∧
          r.flags.clockUnset = !s.clock.valid) ∧
      -- the SURVEY record and SURVEY_STATE
      (let new : SurveyState := if change = .stopEnd then .ended else .held
      let r : SurveyRecord :=
        { number := s.survey.number, state := new, cause := t.survey.cause, first := s.survey.first
          runStart := s.survey.runStart, mode := s.store.mode, time := s.clock.time
          clockUnset := !s.clock.valid
          sites := s.sites.map fun e =>
            ⟨e.settings, e.members.map fun m => m.map fun m => (m.slot, m.serial)⟩ }
      (up → s.store.queue.length + events + intervals < 16 →
        ⟨.survey, s.store.nextIds.survey, .survey r, false⟩ ∈ t.store.queue ∧
          t.survey.place = none) ∧
      (¬up ∨ 16 ≤ s.store.queue.length → t.survey.place = some r) ∧
      (s.link.sending.isSome = true → s.link.owed = none → s.link.mask.getLsbD 5 = true →
        s.link.notices.length ≤ 23 →
        ⟨.surveyState s.survey.number new s.survey.state t.survey.cause b s.bus.frameTime none,
          s.clock.time⟩ ∈ t.link.notices)) ∧
      -- the waiting request
      (s.link.owed = none → ∀ kind tag clamped, s.link.current = some ⟨kind, tag, clamped⟩ →
        (kind = 0x0D ∨ kind = 0x0F → t.link.current = none ∧
          (s.link.sending.isSome = true →
            t.link.reply = some ⟨kind + 128, tag, .ok, .empty⟩)) ∧
        (kind ≠ 0x0D → kind ≠ 0x0F → t.link.current = s.link.current)) ∧
      -- the captures that fill
      ∀ i site, i < 12 → (captureSlot s i).state = .filling → (captureSlot s i).site = some site →
        (∀ other e p, other < 4 → other ≠ site → (sagSite s other).event = some e →
          e.capture = some p → p.1 ≠ i) →
        let c := captureSlot s i
        let x := (siteOf s site).settings
        let ring := s.capture.rings.getD site {}
        let first := (b + 2 ^ 48 - 128 * x.pe) % 2 ^ 48
        let rows := (ring.frames.drop
          (frameDiff ring.newest ((first + 128 * x.pe + 2 ^ 48 - 1) % 2 ^ 48))).take (128 * x.pe)
        let frames := rows.map fun row => c.members.map fun m => row.getD m.role.code ⟨0, true⟩
        let end_ : Segment :=
          { kind := .ending, first := first
            firstTime := (ring.times.find? fun y => y.1 = first).map (·.2), pre := x.pe
            planned := x.pe + x.we, frames := frames
            filling := decide (frames.length < 128 * (x.pe + x.we))
            live := c.members.map fun _ => .notYet }
        let closes := c.eventOpen = true ∨
          ∃ e p, site < 4 ∧ (sagSite s site).event = some e ∧ e.capture = some p ∧ p.1 = i
        let takes := closes ∧ ∃ g rest, c.segments = g :: rest ∧
          128 * g.planned + 128 * x.pe ≤ frameDiff b g.first
        let cut := fun (g : Segment) =>
          if g.filling then
            { g with
              frames := g.frames.drop (g.frames.length % 128), filling := false
              truncated := decide (g.frames.length / 128 < g.planned) }
          else g
        let d := captureSlot t i
        d = { c with
          state := .complete, eventOpen := false, segments := d.segments, members := d.members } ∧
        (takes → d.segments = (c.segments ++ [end_]).map cut) ∧
        (¬takes → d.segments = c.segments.map cut) ∧
        d.members.map (fun m => (m.role, m.slot, m.serial, m.kind, m.fullScale)) =
          c.members.map fun m => (m.role, m.slot, m.serial, m.kind, m.fullScale)) ∧
      t.sites = s.sites ∧ t.roster = s.roster ∧ t.tracker = s.tracker ∧ t.bus = s.bus ∧
      t.store.array = s.store.array

/-! ### Sag detector (R59 to R81) -/

/-- The value of a judged channel (R60, R61, R62), and no value where it is not judged or where its
position has no member. -/
def Obligations.SagFiguresAreExact : Prop :=
  (∀ (site role : Nat) (s : State), memberOf s site role = none → channelValue s site role = none) ∧
  ∀ (site role : Nat) (m : Member) (identity : Identity) (s : State),
    memberOf s site role = some m → (entryOf s m.slot).identity = some identity →
    let w := (channelOf s site role).window
    let judged := s.survey.state = some .recording ∧ (siteOf s site).settings.enabled = true ∧
      m.active = true ∧ w.length = 128
    let sumsq : Int := (w.map fun x => x.value * x.value).sum
    (judged →
      ∃ (rms : Nat) (v : Value), channelValue s site role = some v ∧
        128 * (rms : Int) ^ 2 ≤ sumsq ∧ sumsq < 128 * ((rms : Int) + 1) ^ 2 ∧
        65536 * v.u ≤ 2 * (rms * identity.fullScale * 100) + 32768 ∧
        2 * (rms * identity.fullScale * 100) + 32768 < 65536 * (v.u + 1) ∧
        v.r = Nat.min (v.u * 10 / (siteOf s site).settings.udin) 2000 ∧
        (v.clipped = true ↔ ∃ x ∈ w, x.overrange = true) ∧
        (v.gapped = true ↔ ∃ x ∈ w, x.gap = true)) ∧
    (¬judged → channelValue s site role = none)

/-- A channel at a boundary: its state table, its run statistics and its recovery for a value (R64,
R65, R66), a boundary without a value (R67) and a boundary of loss (R75), and what SAG_STATUS shows of it
after the boundary (R81). That its latest value stays at a boundary without one is the model's choice
(log 28). -/
def Obligations.ChannelFollowsItsTable : Prop :=
  ∀ (b : Nat) (x : Settings) (v : Value) (c : Channel), 1 ≤ x.nc →
    let below := v.r < x.st
    let recovered := Nat.min (x.st + x.h) 1000 ≤ v.r
    let least := Nat.min v.r (c.minR.getD v.r)
    let half := fun (recovery : Nat) =>
      Nat.min 65535 ((recovery + 2 ^ 48 - c.sagStart.getD recovery) % 2 ^ 48 / 64)
    let goes := fun (d : Channel) (m : Move) =>
      c.atBoundary b x (some v) =
        ({ d with judged := true, last := some v, held := c.window.length }, m)
    let rest : Channel :=
      { c with
        state := .normal, run := 0, candidate := none, sagStart := none, minR := none
        lost := false }
    (c.lost = false →
      (c.state = .normal → below → x.nc = 1 →
        goes { c with state := .sag, run := 0, sagStart := some b, minR := some v.r } (.sagged b)) ∧
      (c.state = .normal → below → 1 < x.nc →
        goes { c with state := .pendingIn, run := 1, candidate := some b, minR := some v.r }
          .still) ∧
      (c.state = .normal → ¬below → goes c .still) ∧
      (c.state = .pendingIn → below → c.run + 1 < x.nc →
        goes { c with run := c.run + 1, minR := some least } .still) ∧
      (∀ first, c.state = .pendingIn → below → x.nc ≤ c.run + 1 → c.candidate = some first →
        goes { c with
            state := .sag, run := 0, candidate := none, sagStart := some first
            minR := some least } (.sagged first)) ∧
      (c.state = .pendingIn → ¬below → goes rest .still) ∧
      (c.state = .sag → recovered → x.nc = 1 → goes rest (.recovered b least (half b))) ∧
      (c.state = .sag → recovered → 1 < x.nc →
        goes { c with state := .pendingOut, run := 1, candidate := some b, minR := some least }
          .still) ∧
      (c.state = .sag → ¬recovered → goes { c with minR := some least } .still) ∧
      (c.state = .pendingOut → recovered → c.run + 1 < x.nc →
        goes { c with run := c.run + 1, minR := some least } .still) ∧
      (∀ first, c.state = .pendingOut → recovered → x.nc ≤ c.run + 1 → c.candidate = some first →
        goes rest (.recovered first least (half first))) ∧
      (c.state = .pendingOut → ¬recovered →
        goes { c with state := .sag, run := 0, candidate := none, minR := some least } .still) ∧
      c.atBoundary b x none = ({ c with judged := false, held := c.window.length }, .still)) ∧
    (c.lost = true → ∀ value, c.atBoundary b x value =
      ({ rest with judged := false, held := c.window.length },
        if c.state = .sag ∨ c.state = .pendingOut then .lost (c.minR.getD 0) (half b) else .still))

/-- The half-cycle boundary (R63, R68, R69, R71): every site's channels move by their tables, the
boundary enters the history, and the site's event opens, stays or closes on their moves; a change of the
survey that is due comes first (R49). An event that opens takes its flags from the span of the history (R73,
R74), claims the lowest FREE slot with its START segment (R85, R86) and posts EVENT_OPEN; one that closes
queues its record, made of the list and the flags as this boundary leaves them (R71, R72, R78, R80), and
gives its slot the END segment that R88 decides. At every boundary of an open event the entry of each channel
takes that channel's move (R70, R75), and the flags take the boundary's (R73, R74). What an opening finds of
slots that another site's open event names, and what a close leaves of such a slot, is said only where each
event names slots of its own site, as every run has it. That nothing happens where no boundary is due is the
model's choice (log 3). -/
def Obligations.HalfCycleBoundaryMovesTheSites : Prop :=
  ∀ (b : Nat) (s : State), Quiet s → Shaped s → s.bus.frame = b →
    (s.bus.boundaryDue = false → exec .halfCycleBoundary s = .next s) ∧
    (∀ change, s.bus.boundaryDue = true → s.survey.changeDue = true →
      s.survey.change = some change →
      ∃ u, exec (if change = .start then .startBoundary else .stopBoundary) s = .next u ∧
        u.survey.changeDue = false ∧ exec .halfCycleBoundary s = exec .halfCycleBoundary u) ∧
    (s.bus.boundaryDue = true → s.survey.changeDue = false ∨ s.survey.change = none →
      ∃ t, exec .halfCycleBoundary s = .next t ∧
        t.bus = { s.bus with boundaryDue := false } ∧ t.sag.lastBoundary = some b ∧
        t.sag.runBoundary = s.sag.runBoundary ∧ t.sites = s.sites ∧ t.roster = s.roster ∧
        t.receive = s.receive ∧ t.tracker = s.tracker ∧ t.rotation = s.rotation ∧
        t.clock = s.clock ∧ t.survey = s.survey ∧ t.print = s.print ∧ t.supply = s.supply ∧
        t.capture.rings = s.capture.rings ∧ t.store.array = s.store.array ∧
        ∀ site, site < 4 →
          let move := fun (role : Nat) =>
            (channelOf s site role).atBoundary b (siteOf s site).settings (channelValue s site role)
          let sags := fun (role start : Nat) => role < 3 ∧ (move role).2 = .sagged start
          let leaves := fun (role : Nat) =>
            role < 3 ∧ ((∃ at_ least half, (move role).2 = .recovered at_ least half) ∨
              ∃ least half, (move role).2 = .lost least half)
          (∀ role, role < 3 → channelOf t site role = (move role).1) ∧
          ((sagSite s site).history.head?.map (·.frame) ≠ some b →
            ∃ h : Boundary, (sagSite t site).history = (h :: (sagSite s site).history).take 4 ∧
              h.frame = b ∧ h.time = s.bus.frameTime ∧
              (h.locked = true ↔
                s.tracker.frameState = .locked ∨ s.tracker.frameState = .fixed) ∧
              (h.reversed = true ↔ (rotationOf s site).state = .reversed) ∧
              (h.clipped = true ↔
                ∃ role v, role < 3 ∧ channelValue s site role = some v ∧ v.clipped = true) ∧
              (h.gapped = true ↔
                ∃ role v, role < 3 ∧ channelValue s site role = some v ∧ v.gapped = true)) ∧
          ((sagSite s site).event = none → (∀ role start, ¬sags role start) →
            (sagSite t site).event = none) ∧
          ((sagSite s site).event = none → (∃ role start, sags role start) →
            ∃ e, (sagSite t site).event = some e ∧ e.opening = b ∧
              s.store.nextIds.event ≤ e.id ∧ e.id < t.store.nextIds.event ∧
              (e.startFrame = b ∨ ∃ role, sags role e.startFrame) ∧
              (∀ role start, sags role start →
                frameDiff b start ≤ frameDiff b e.startFrame) ∧
              (∀ role, role < 3 →
                ((∃ i ∈ e.involved, i.role = roleOf role) ↔ ∃ start, sags role start)) ∧
              (∀ i ∈ e.involved, i.holding = true) ∧ (harmSite t site).mark = some b ∧
              -- its flags
              (let spans := fun (h : Boundary) =>
                h ∈ (sagSite t site).history ∧ frameDiff b h.frame ≤ frameDiff b e.startFrame
              let f := e.flags
              f = { freqUnlocked := f.freqUnlocked, rotationReversed := f.rotationReversed
                    clipped := f.clipped, probeGap := f.probeGap, calExpired := f.calExpired
                    atStart := f.atStart, overlap := f.overlap, noCapture := f.noCapture } ∧
              (f.freqUnlocked = true ↔ ∃ h, spans h ∧ h.locked = false) ∧
              (f.rotationReversed = true ↔ ∃ h, spans h ∧ h.reversed = true) ∧
              (f.clipped = true ↔ ∃ h, spans h ∧ h.clipped = true) ∧
              (f.probeGap = true ↔ ∃ h, spans h ∧ h.gapped = true) ∧
              (f.calExpired = true ↔ ∃ i ∈ e.involved, ∃ m,
                memberOf s site i.role.code = some m ∧ m.active = true ∧
                  (entryOf s m.slot).calDue = true) ∧
              (f.atStart = true ↔ s.sag.runBoundary = some e.startFrame) ∧
              ((∀ other e' p, other < 4 → (sagSite s other).event = some e' → e'.capture = some p →
                  (captureSlot s p.1).site ≠ some site) →
                (f.overlap = true ↔
                  ∃ c ∈ s.capture.slots, c.state = .filling ∧ c.site = some site)) ∧
              (f.noCapture = true ↔ e.capture = none)) ∧
              -- its capture slot
              (e.capture = none → ∀ i, i < 12 → (captureSlot t i).state ≠ .free) ∧
              (∀ i serial, e.capture = some (i, serial) →
                let x := (siteOf s site).settings
                let ring := s.capture.rings.getD site {}
                let pre := Nat.min x.pc (e.startFrame / 128)
                let first := (e.startFrame + 2 ^ 48 - 128 * pre) % 2 ^ 48
                let n := Nat.min (frameDiff b first) (128 * (pre + x.wc))
                let d := captureSlot t i
                i < 12 ∧ (captureSlot s i).state = .free ∧
                (∀ j, j < i → (captureSlot t j).state ≠ .free) ∧
                serial = ((captureSlot s i).serial + 1) % 65536 ∧
                ∃ frames : List (List CapSample),
                  d =
                    { state := .filling, serial := serial, event := some e.id, site := some site
                      eventOpen := true, members := d.members, pins := (captureSlot s i).pins
                      segments :=
                        [{ kind := .start, first := first
                           firstTime := (ring.times.find? fun y => y.1 = first).map (·.2)
                           pre := pre, planned := pre + x.wc, frames := frames
                           filling := decide (frames.length < 128 * (pre + x.wc))
                           live := d.members.map fun _ => .notYet }] } ∧
                  frames = (((ring.frames.drop
                      (frameDiff ring.newest ((first + n + 2 ^ 48 - 1) % 2 ^ 48))).take n).map
                    fun row => d.members.map fun m => row.getD m.role.code ⟨0, true⟩) ∧
                  d.members.map (fun m => (m.role, m.slot, m.serial)) =
                    (List.range 8).filterMap (fun role => (memberOf s site role).bind fun m =>
                      if m.active then some (roleOf role, m.slot, m.serial) else none) ∧
                  (∀ m ∈ d.members, ∀ identity, (entryOf s m.slot).identity = some identity →
                    m.kind = identity.kind ∧ m.fullScale = identity.fullScale) ∧
                  ∀ j m, d.members[j]? = some m →
                    m.gaps = frames.countP fun row => (row.getD j ⟨0, true⟩).gap) ∧
              -- EVENT_OPEN
              (s.link.sending.isSome = true → s.link.owed = none →
                s.link.mask.getLsbD 6 = true → s.link.notices.length ≤ 28 →
                ⟨.eventOpen e.id site e.startFrame e.startTime (e.involved.map (·.role)) e.capture
                  e.flags.atStart e.flags.overlap e.flags.noCapture, s.clock.time⟩ ∈
                    t.link.notices)) ∧
          ∀ e, (sagSite s site).event = some e →
            let holds := (∃ i ∈ e.involved, i.holding = true ∧ ¬leaves i.role.code) ∨
              ∃ role start, sags role start
            ∃ e1 : OpenEvent,
            e1 = { e with involved := e1.involved, flags := e1.flags } ∧
            -- its involved list
            (∀ role, role < 3 →
              let mine := fun (xs : List Involved) => xs.filter fun i => i.role = roleOf role
              let ends := fun (recovery least half : Nat) =>
                mine e1.involved = (mine e.involved).map fun i =>
                  { i with
                    minR := Nat.min i.minR least, half := Nat.min 65535 (i.half + half)
                    recovery := some recovery, holding := false }
              ((move role).2 = .still → mine e1.involved = mine e.involved) ∧
              (∀ start, (move role).2 = .sagged start →
                mine e1.involved =
                  if mine e.involved = [] then
                    [⟨roleOf role, ((memberOf s site role).map (·.serial)).getD 0, 2000, 0, none,
                      true⟩]
                  else (mine e.involved).map fun i => { i with holding := true }) ∧
              (∀ recovery least half, (move role).2 = .recovered recovery least half →
                ends recovery least half) ∧
              (∀ least half, (move role).2 = .lost least half → ends b least half)) ∧
            (∀ i : Involved, 3 ≤ i.role.code → (i ∈ e1.involved ↔ i ∈ e.involved)) ∧
            (e.involved.Pairwise (fun i j => i.role.code < j.role.code) →
              e1.involved.Pairwise (fun i j => i.role.code < j.role.code)) ∧
            -- its flags
            (let f := e.flags
            let g := e1.flags
            g = { f with
              freqUnlocked := g.freqUnlocked, rotationReversed := g.rotationReversed
              clipped := g.clipped, probeGap := g.probeGap, calExpired := g.calExpired
              probeLost := g.probeLost } ∧
            (∃ h, (sagSite t site).history.head? = some h ∧
              g.freqUnlocked = (f.freqUnlocked || !h.locked) ∧
              g.rotationReversed = (f.rotationReversed || h.reversed) ∧
              g.clipped = (f.clipped || h.clipped) ∧ g.probeGap = (f.probeGap || h.gapped)) ∧
            (g.calExpired = true ↔ f.calExpired = true ∨ ∃ i ∈ e1.involved, ∃ m,
              memberOf s site i.role.code = some m ∧ m.active = true ∧
                (entryOf s m.slot).calDue = true) ∧
            (g.probeLost = true ↔ f.probeLost = true ∨
              ∃ role least half, role < 3 ∧ (move role).2 = .lost least half)) ∧
            (holds → (sagSite t site).event = some e1) ∧
            (¬holds → (sagSite t site).event = none ∧
              -- its record
              (e.involved ≠ [] →
                s.store.state = .ready ∨ s.store.state = .reclaiming → s.store.queue.length ≤ 12 →
                ∃ r : EventRecord, ⟨.event, e.id, .event r, false⟩ ∈ t.store.queue ∧
                  r.id = e.id ∧ r.site = site ∧ r.number = s.survey.number ∧
                  r.startTime = e.startTime ∧ r.capture = e.capture ∧
                  r.udin = (siteOf s site).settings.udin ∧
                  r.involved = e1.involved.map (fun i => (i.role, i.serial, i.minR, i.half)) ∧
                  (∀ i ∈ e1.involved, r.minR ≤ i.minR) ∧
                  (∃ i, e1.involved.find? (fun i => i.minR = r.minR) = some i ∧
                    i.role = r.worst) ∧
                  (r.interruption = true ↔ r.minR < (siteOf s site).settings.ti) ∧
                  r.flags =
                    { e1.flags with long := r.flags.long, clockUnset := !s.clock.valid } ∧
                  (∃ stop, (stop = b ∧ (∀ i ∈ e1.involved, i.recovery = none) ∨
                      (∃ i ∈ e1.involved, i.recovery = some stop) ∧
                        ∀ i ∈ e1.involved, ∀ x, i.recovery = some x →
                          frameDiff b stop ≤ frameDiff b x) ∧
                    let n := frameDiff stop e.startFrame / 64
                    r.half = Nat.min n 65535 ∧ (r.flags.long = true ↔ 65535 < n) ∧
                    ∀ h, (sagSite t site).history.find? (fun h => h.frame = stop) = some h →
                      r.endTime = h.time ∧
                      let ms := fun (x : ClockTime) => x.sec * 1000 + x.ms
                      (ms e.startTime ≤ ms h.time → ms h.time < 2 ^ 32 * 1000 →
                        r.ms = ms h.time - ms e.startTime)) ∧
                  (s.link.sending.isSome = true → s.link.owed = none →
                    s.link.mask.getLsbD 7 = true → s.link.notices.length ≤ 28 →
                    ⟨.eventClose (eventSummary r) false, s.clock.time⟩ ∈ t.link.notices)) ∧
              ∀ i serial, e.capture = some (i, serial) → i < 12 →
                (captureSlot s i).state = .filling →
                (∀ other e' p, other < 4 → other ≠ site → (sagSite s other).event = some e' →
                  e'.capture = some p → p.1 ≠ i) →
                let c := captureSlot s i
                let x := (siteOf s site).settings
                let ring := s.capture.rings.getD site {}
                let first := (b + 2 ^ 48 - 128 * x.pe) % 2 ^ 48
                let rows := (ring.frames.drop (frameDiff ring.newest
                  ((first + 128 * x.pe + 2 ^ 48 - 1) % 2 ^ 48))).take (128 * x.pe)
                let frames := rows.map fun row =>
                  c.members.map fun m => row.getD m.role.code ⟨0, true⟩
                let end_ : Segment :=
                  { kind := .ending, first := first
                    firstTime := (ring.times.find? fun y => y.1 = first).map (·.2), pre := x.pe
                    planned := x.pe + x.we, frames := frames
                    filling := decide (frames.length < 128 * (x.pe + x.we))
                    live := c.members.map fun _ => .notYet }
                let takes := ∃ g rest, c.segments = g :: rest ∧
                  128 * g.planned + 128 * x.pe ≤ frameDiff b g.first
                let d := captureSlot t i
                d = { c with
                  state := d.state, eventOpen := false, segments := d.segments
                  members := d.members } ∧
                (takes → d.segments = c.segments ++ [end_] ∧
                  d.members = c.members.mapIdx fun j m =>
                    { m with
                      gaps := m.gaps + frames.countP fun row => (row.getD j ⟨0, true⟩).gap
                      lastValue := match frames with
                        | [] => m.lastValue
                        | row :: _ => (row.getD j ⟨0, true⟩).value }) ∧
                (¬takes → d.segments = c.segments ∧ d.members = c.members) ∧
                d.state = if d.segments.all (fun g => !g.filling) then .complete else .filling))

/-- An event that closes (R71, R72, R78 to R80): its record is queued with the lowest minimum of its
list and its first role, its end time and its durations in half-cycles and milliseconds, or dropped and
counted; the site holds none; EVENT_CLOSE carries what R80 lists of it. That the milliseconds run on over
the wrap of the clock is the model's choice (log 40). -/
def Obligations.EventCloseMakesTheRecord : Prop :=
  ∀ (site c : Nat) (told : Option Nat) (e : OpenEvent) (s : State), Shaped s → site < 4 →
    e.involved ≠ [] →
    let t := closeEvent site c told e s
    let up := s.store.state ≠ .mounting ∧ s.store.state ≠ .wiping ∧ s.store.state ≠ .full ∧
      s.store.queue.length < 16
    (sagSite t site).event = none ∧ (harmSite t site).mark = none ∧
    t.store.nextIds = s.store.nextIds ∧ t.store.array = s.store.array ∧ t.sites = s.sites ∧
    t.roster = s.roster ∧ t.survey = s.survey ∧ t.print = s.print ∧
    ∃ r : EventRecord,
      r.id = e.id ∧ r.number = s.survey.number ∧ r.site = site ∧ r.startTime = e.startTime ∧
      r.udin = (siteOf s site).settings.udin ∧ r.capture = e.capture ∧
      (∀ i ∈ e.involved, r.minR ≤ i.minR) ∧
      (∃ i, e.involved.find? (fun i => i.minR = r.minR) = some i ∧ i.role = r.worst) ∧
      (r.interruption = true ↔ r.minR < (siteOf s site).settings.ti) ∧
      r.involved = e.involved.map (fun i => (i.role, i.serial, i.minR, i.half)) ∧
      r.flags.truncated = e.flags.truncated ∧ r.flags.probeLost = e.flags.probeLost ∧
      (∃ stop, (stop = c ∧ (∀ i ∈ e.involved, i.recovery = none) ∨
          (∃ i ∈ e.involved, i.recovery = some stop) ∧
            ∀ i ∈ e.involved, ∀ x, i.recovery = some x → frameDiff c stop ≤ frameDiff c x) ∧
        let n := frameDiff stop e.startFrame / 64
        r.half = Nat.min n 65535 ∧ (r.flags.long = true ↔ 65535 < n) ∧
        ∀ h, (sagSite s site).history.find? (fun h => h.frame = stop) = some h →
          r.endTime = h.time ∧
          let ms := fun (x : ClockTime) => x.sec * 1000 + x.ms
          (ms e.startTime ≤ ms h.time → ms h.time < 2 ^ 32 * 1000 →
            r.ms = ms h.time - ms e.startTime) ∧
          (ms h.time < ms e.startTime → ms e.startTime < 2 ^ 32 * 1000 →
            r.ms = ms h.time + 2 ^ 32 * 1000 - ms e.startTime)) ∧
      (up →
        t.store.queue = s.store.queue ++ [⟨.event, e.id, .event r, false⟩] ∧
          t.store.eventDrops = s.store.eventDrops ∧ r.flags.clockUnset = !s.clock.valid) ∧
      (¬up →
        t.store.queue = s.store.queue ∧ t.store.eventDrops = satInc 4294967295 s.store.eventDrops) ∧
      t.link = s.link.post
        ⟨.eventClose
          { id := r.id, site := r.site, interruption := r.interruption, startTime := r.startTime
            endTime := r.endTime, half := r.half, ms := r.ms, minR := r.minR, worst := r.worst
            flags := r.flags, capture := r.capture } (decide ¬up), s.clock.time⟩

/-! ### Status requests (R81, R92, R114, R135, R167, R173) -/

/-- SAG_STATUS, CAPTURE_LIST, HARMONIC_STATUS, STORE_STATUS, PRINT_STATUS and SUPPLY_STATUS on a free
link: each answers a next state, with what its rule lists in the reply, and only SUPPLY_STATUS with its
clear indication writes (R81, R92, R114, R116, R135, R167, R173). What SAG_STATUS keeps of the last value
(log 28), that a harmonic window is held from its first sample on (log 34), and that PRINT_STATUS names
the copy being rendered (log 38) and gives no temperature before the first reading (log 7), are the model's
choices. -/
def Obligations.StatusRequestsAnswer : Prop :=
  ∀ (tag site : Byte) (s : State), Ready s → Shaped s →
    let n := site.toNat
    let st := s.store
    let p := s.print
    let busy := st.op.isSome || st.state == .mounting || st.state == .wiping
    -- SAG_STATUS
    (3 < n → exec (.sagStatus tag site) s = .next (replied 0x92 tag .badValue .empty s)) ∧
    (n ≤ 3 → exec (.sagStatus tag site) s = .next (replied 0x92 tag .ok
      (.sagStatus
        ((List.range 3).map fun role =>
          let c := channelOf s n role
          ⟨c.judged, c.state, c.run, c.candidate, c.sagStart, c.minR, c.last, c.held⟩)
        ((sagSite s n).event.map fun e =>
          ⟨e.id, e.startTime, e.involved.map fun i => (i.role, i.holding), e.flags⟩)
        s.sag.lastBoundary) s)) ∧
    -- CAPTURE_LIST
    exec (.captureList tag) s = .next (replied 0x93 tag .ok
      (.captureList
        ((List.range 12).map fun i =>
          let c := captureSlot s i
          ⟨c.state, c.serial, c.event, c.site, c.eventOpen, c.pins,
            c.members.map fun m => ⟨m.role, m.slot, m.serial, m.kind, m.fullScale, m.gaps⟩,
            c.segments.map fun g =>
              ⟨g.kind, g.first, g.firstTime, g.pre, g.planned, g.frames.length / 128, g.filling,
                g.truncated⟩⟩)
        (s.capture.slots.countP fun c => c.state = .free)) s) ∧
    -- HARMONIC_STATUS
    (3 < n → exec (.harmonicStatus tag site) s = .next (replied 0x96 tag .badValue .empty s)) ∧
    (n ≤ 3 →
      let h := harmSite s n
      exec (.harmonicStatus tag site) s = .next (replied 0x96 tag .ok
        (.harmonicStatus h.basis h.next h.mark h.abandoned h.empty
          ((List.range 8).filterMap fun role =>
            (memberOf s n role).map fun m =>
              let x := harmMember s n role
              { role := roleOf role, slot := m.slot, serial := m.serial, active := m.active
                window := x.window.map fun w => (w.first, w.taken)
                acc := x.acc.map fun a => (a.startTime, a.n, a.excluded, a.flags)
                waiting := x.place.isSome
                latest := x.latest.map fun r =>
                  (r.first, r.magnitudes.headD 0, r.thd, r.freq) })) s)) ∧
    -- STORE_STATUS
    (st.state = .mounting ∨ st.state = .wiping → exec (.storeStatus tag) s =
      .next (replied 0x97 tag .ok (.storeStatus st.state st.mode busy none) s)) ∧
    (st.state ≠ .mounting → st.state ≠ .wiping →
      let sizes := fun (state : EntryState) =>
        ((st.dir.filter fun e => e.state = state).map (·.size)).sum
      let count := fun (state : EntryState) (kind : RecordKind) =>
        st.dir.countP fun e => e.kind = kind ∧ e.state = state
      let counts := fun (state : EntryState) =>
        (⟨count state .event, count state .interval, count state .note, count state .survey,
          count state .lockMark⟩ : PerKind)
      let sectors := st.opening.countP (·.isNone)
      let headFree := if st.head.isSome then 64 - st.headUsed else 0
      let erased := 64 * sectors + headFree
      exec (.storeStatus tag) s = .next (replied 0x97 tag .ok
        (.storeStatus st.state st.mode busy
          (some
            { live := sizes .live, dead := sizes .dead
              padding := 4096 - (sizes .live + sizes .dead + erased), erased := erased
              erasedSectors := sectors, head := st.head, headFree := headFree
              reclaim := st.reclaim.map (·.sector), queued := counts .queued
              liveEntries := counts .live, deadEntries := counts .dead
              waiting := st.queue.length, nextIds := st.nextIds, limits := st.limits
              nextSeq := st.nextSeq, lockMark := st.lockMark, extSector := st.extSector
              eventDrops := st.eventDrops, intervalDrops := st.intervalDrops
              discards := st.discards, reclaims := st.reclaims })) s)) ∧
    -- PRINT_STATUS
    (let atWork := p.ring.head?.filter fun j => j.phase.isSome
    exec (.printStatus tag) s = .next (replied 0xA7 tag .ok
      (.printStatus
        { mech :=
            { mech := mechState p, inHand := p.inHand.isSome, lineBusy := p.lineBusy
              brake := p.brake, latch := p.latch, tempClass := p.tempClass, paper := p.paper
              temp := p.temp }
          fill := p.buffer.length
          cache := match atWork with
            | none => []
            | some j =>
              (p.cache.filter fun e => !isCancelTrailer e).map fun e =>
                if e.item = 0 then .header
                else match j.sections[e.item - 1]? with
                  | some x => .body (sectionCode x.content)
                  | none => .trailer
          active := atWork.map fun j => (j.id, j.phase, j.renderCopy, j.renderItem, j.tallies)
          jobs := p.ring.map fun j =>
            (j.id, j.phase,
              (j.sections.map fun x => x.pins.length + if x.capturePin.isSome then 1 else 0).sum)
          done := p.done.length, nextJob := p.nextJob, submits := p.submits
          completions := p.completions, stalls := p.stalls
          abandonedLines := p.abandonedLines }) s)) ∧
    -- SUPPLY_STATUS
    ∀ clear : Bool,
      exec (.supplyStatus tag clear) s =
        .next (replied 0xA9 tag .ok
          (.supplyStatus s.supply.level s.supply.reading s.supply.low s.supply.critical
            s.supply.schedule (decide (mechState p ≠ .idle)) busy
            s.supply.critIn s.supply.lowIn s.supply.critOut s.supply.lowOut s.supply.lowEntries
            s.supply.critEntries s.supply.lowest)
          { s with
            supply :=
              { s.supply with lowest := if clear then s.supply.reading else s.supply.lowest } })

/-! ### Capture unit (R82 to R96) -/

/-- A slot completes (R89); CAPTURE_READ gives the whole recorded cycles asked for, oldest sample first
(R93); CAPTURE_RELEASE frees a slot and keeps its serial, or waits for its pins (R94). That
CAPTURE_COMPLETE does nothing where it is not due is the model's choice (log 3). -/
def Obligations.CapturesCompleteReadAndRelease : Prop :=
  ∀ (s : State), Shaped s →
    let put := fun (i : Nat) (c : CaptureSlot) =>
      ({ s with capture := { s.capture with slots := s.capture.slots.set i c } } : State)
    (∀ i, Quiet s → i < 12 →
      let c := captureSlot s i
      exec (.captureComplete i) s =
        .next (if c.state = .filling ∧ c.eventOpen = false ∧ ∀ g ∈ c.segments, g.filling = false
          then put i { c with state := .complete } else s)) ∧
    (∀ (tag slot segment member first cycles : Byte), Ready s →
      let c := captureSlot s slot.toNat
      let k := first.toNat
      let o := exec (.captureRead tag slot segment member first cycles) s
      let refused := fun (status : Status) => o = .next (replied 0x94 tag status .empty s)
      let asked := slot.toNat ≤ 11 ∧ 1 ≤ cycles.toNat ∧ cycles.toNat ≤ 2
      (¬asked → refused .badValue) ∧
      (asked → c.state = .free ∨ c.segments.length ≤ segment.toNat ∨
        c.members.length ≤ member.toNat → refused .notFound) ∧
      ∀ g m, asked → c.state ≠ .free → c.segments[segment.toNat]? = some g →
        c.members[member.toNat]? = some m →
        let held := g.frames.length / 128
        (g.planned ≤ k ∨ (g.filling = false ∧ held ≤ k) → refused .badValue) ∧
        (k < g.planned → g.filling = true ∨ k < held →
          ∃ samples : List Int,
            let count := Nat.min cycles.toNat (held - k)
            o = .next (replied 0x94 tag .ok
              (.captureRead
                { serial := c.serial, event := c.event
                  member := ⟨m.role, m.slot, m.serial, m.kind, m.fullScale, m.gaps⟩
                  first := g.first
                  firstTime := g.firstTime, pre := g.pre, held := held, count := count
                  samples := samples }) s) ∧
            samples.length = 128 * count ∧
            ∀ j, j < 128 * count → ∃ row,
              g.frames.reverse[128 * k + j]? = some row ∧
                samples[j]? = some ((row.getD member.toNat ⟨0, true⟩).value))) ∧
    ∀ (tag slot : Byte) (serial : Option Half), Ready s →
      let i := slot.toNat
      let c := captureSlot s i
      let o := exec (.captureRelease tag slot serial) s
      let refused := fun (status : Status) => o = .next (replied 0x95 tag status .empty s)
      let named := c.state ≠ .free ∧ ∀ x, serial = some x → x.toNat = c.serial
      (11 < i → refused .badValue) ∧ (i ≤ 11 → ¬named → refused .notFound) ∧
      (i ≤ 11 → named → c.state = .filling → refused .wrongState) ∧
      (i ≤ 11 → named → c.state = .complete → c.pins = 0 →
        o = .next (replied 0x95 tag .ok (.captureState .free) (put i { serial := c.serial }))) ∧
      (i ≤ 11 → named → c.state = .complete → 0 < c.pins →
        o = .next (replied 0x95 tag .ok (.captureState .releasePending)
          (put i { c with state := .releasePending }))) ∧
      (i ≤ 11 → named → c.state = .releasePending →
        o = .next (replied 0x95 tag .ok (.captureState .releasePending) s))

/-! ### Harmonic engine (R97 to R115) -/

/-- A window of 1,024 frames is judged (R99): excluded, or counted with the magnitudes of R101, each
the exact real value rounded once, the THD of R102 and the frequency of its last frame (R103); its
member's accumulator takes it (R106, R108), and nothing else changes. That nothing happens short of the
1,024 samples is the model's choice (log 3). -/
def Obligations.WindowCompleteIsJudged : Prop :=
  ∀ (site role : Nat) (m : Member) (w : Window) (s : State), Quiet s → Shaped s → site < 4 →
    role < 8 → memberOf s site role = some m → (harmMember s site role).window = some w →
    let x := harmMember s site role
    let calDue := (entryOf s m.slot).calDue
    let fs : Nat := ((entryOf s m.slot).identity.map (·.fullScale)).getD 0
    let udin := (siteOf s site).settings.udin
    let sets := fun (y : HarmMember) =>
      ∃ sites, exec (.windowComplete site role) s =
          .next { s with harm := { s.harm with sites := sites } } ∧
        sites = s.harm.sites.set site
          { harmSite s site with members := (harmSite s site).members.set role y }
    (w.taken ≠ 1024 → exec (.windowComplete site role) s = .next s) ∧
    (w.taken = 1024 → w.unlocked = true ∨ w.gap = true →
      sets { x with
        window := none
        acc := x.acc.map fun a =>
          { a with
            excluded := a.excluded + 1
            flags :=
              { a.flags with
                freqUnlocked := a.flags.freqUnlocked || w.unlocked
                calExpired := a.flags.calExpired || calDue } } }) ∧
    (w.taken = 1024 → w.unlocked = false → w.gap = false →
      ∃ r : WindowResult,
        r.first = w.first ∧ r.freq = s.tracker.frameFreq ∧ r.overrange = w.overrange ∧
        r.fixed = w.fixed ∧ r.calDue = calDue ∧
        r.magnitudes.length = Nat.min w.re.length w.im.length ∧
        (∀ (h mag : Nat) (re im : Int), w.re[h]? = some re → w.im[h]? = some im → r.magnitudes[h]? = some mag →
          let exact : Int := 8 * (re * re + im * im) * (100 * (fs : Int)) ^ 2
          let d : Int := 1024 * 32767 * 32768
          (1 ≤ mag → (2 * (mag : Int) - 1) ^ 2 * d ^ 2 ≤ exact) ∧
            exact < (2 * (mag : Int) + 1) ^ 2 * d ^ 2) ∧
        (∀ m1 rest, r.magnitudes = m1 :: rest →
          (if role < 4 then m1 < udin else 2 * m1 < fs) ∨ m1 = 0 → r.thd = none) ∧
        (∀ m1 rest, r.magnitudes = m1 :: rest →
          (if role < 4 then udin ≤ m1 else fs ≤ 2 * m1) → m1 ≠ 0 →
          ∃ thd, r.thd = some (Nat.min thd 9999) ∧
            let exact := 4 * (rest.map fun x => x * x).sum * 1000 ^ 2
            (1 ≤ thd → (2 * thd - 1) ^ 2 * m1 ^ 2 ≤ exact) ∧ exact < (2 * thd + 1) ^ 2 * m1 ^ 2) ∧
        sets { x with
          window := none, latest := some r
          acc := x.acc.map fun a =>
            { a with
              n := a.n + 1
              sumSq := List.zipWith (fun t mag => t + mag * mag) a.sumSq r.magnitudes
              maxM := List.zipWith Nat.max a.maxM r.magnitudes
              thdSum := a.thdSum + r.thd.getD 0
              thdCount := if r.thd.isSome then a.thdCount + 1 else a.thdCount
              thdMax := Nat.max a.thdMax (r.thd.getD 0)
              freqSum := a.freqSum + r.freq
              freqMin := if a.n = 0 then r.freq else Nat.min a.freqMin r.freq
              freqMax := Nat.max a.freqMax r.freq
              flags :=
                { a.flags with
                  clipped := a.flags.clipped || w.overrange
                  fixedFreq := a.flags.fixedFreq || w.fixed
                  calExpired := a.flags.calExpired || calDue } } })

/-- A site's close frame (R104, R109, R111): every accumulator closes and a fresh one opens for its
member from the interval boundary's clock time; one with n = 0 counts as empty, the others make records
that a roomy store queues in role order and a FULL store drops and counts, and INTERVAL_CLOSE tells it
(R113). A frame that begins at or after a site's next boundary while RECORDING is its close frame (R104).
The closes by loss at a frame's start (R110, R113): a lost member's accumulator alone closes, its record
PARTIAL. That nothing happens where no boundary is due (log 3), the order in which the records of one moment
are queued (log 14), and how clock times compare over the wrap (log 40), are the model's choices. -/
def Obligations.IntervalBoundaryClosesTheSite : Prop :=
  (∀ (site frame : Nat) (boundary : ClockTime) (basis : Basis) (s : State), Quiet s → Shaped s →
    site < 4 → s.survey.changeDue = false → s.bus.frame = frame →
    (harmSite s site).next = some boundary → (harmSite s site).basis = some basis →
    let h := harmSite s site
    let x := (siteOf s site).settings
    let accOf := fun (role : Nat) => (harmMember s site role).acc
    let closing := (List.range 8).filterMap fun role => (accOf role).map fun a => (role, a)
    let made := closing.filter fun c => 1 ≤ c.2.n
    let lost := (List.range 8).any fun role => (harmMember s site role).lossDue
    let told := fun (counts : CloseCounts) (t : State) =>
      t.link =
        if closing = [] then s.link
        else (post (.intervalClose site
          { boundary := true, stop := false, acqReset := false, memberLoss := lost } boundary
          counts) s).link
    (h.due = false → exec (.intervalBoundary site) s = .next s) ∧
    (h.due = true →
      ∃ t, exec (.intervalBoundary site) s = .next t ∧
        t.bus = s.bus ∧ t.sites = s.sites ∧ t.roster = s.roster ∧ t.sag = s.sag ∧
        t.capture = s.capture ∧ t.survey = s.survey ∧ t.print = s.print ∧
        t.store.array = s.store.array ∧
        (∀ i, i ≠ site → harmSite t i = harmSite s i) ∧
        (harmSite t site).due = false ∧ (harmSite t site).basis = some basis ∧
        (harmSite t site).mark = h.mark ∧ (harmSite t site).abandoned = h.abandoned ∧
        (harmSite t site).next =
          some (match basis with
            | .run => ⟨(boundary.sec + 60 * x.interval) % 2 ^ 32, boundary.ms⟩
            | .clock =>
              let n := (boundary.sec / (60 * x.interval) + 1) * (60 * x.interval)
              ⟨if n < 2 ^ 32 then n else 0, 0⟩) ∧
        (h.empty + closing.length ≤ 4294967295 →
          (harmSite t site).empty = h.empty + (closing.length - made.length)) ∧
        (∀ role, role < 8 →
          (harmMember t site role).window = (harmMember s site role).window ∧
          (harmMember t site role).latest = (harmMember s site role).latest ∧
          (harmMember t site role).acc =
            (accOf role).bind fun _ => (memberOf s site role).map fun m =>
              newAccumulator m x.hmax boundary frame h.mark.isSome) ∧
        (s.store.state = .full →
          t.store.queue = s.store.queue ∧
            told ⟨closing.length, 0, 0, made.length, closing.length - made.length⟩ t ∧
            (s.store.intervalDrops + made.length ≤ 4294967295 →
              t.store.intervalDrops = s.store.intervalDrops + made.length)) ∧
        (s.store.state = .ready ∨ s.store.state = .reclaiming →
          s.store.queue.length + made.length ≤ 16 →
          (∀ role, role < 8 → (harmMember s site role).place = none) →
          t.store.intervalDrops = s.store.intervalDrops ∧
          told ⟨closing.length, made.length, 0, 0, closing.length - made.length⟩ t ∧
          t.store.nextIds =
            { s.store.nextIds with interval := s.store.nextIds.interval + made.length } ∧
          ∃ records : List IntervalRecord,
            t.store.queue = s.store.queue ++ records.zipIdx.map (fun r =>
              ⟨.interval, s.store.nextIds.interval + r.2,
                .interval (s.store.nextIds.interval + r.2) r.1, false⟩) ∧
            records.map (fun r => (r.number, r.site, r.role, r.slot, r.serial)) =
              made.map (fun c => (s.survey.number, site, roleOf c.1, c.2.slot, c.2.serial)) ∧
            records.map (fun r => (r.startTime, r.endTime, r.n, r.excluded)) =
              made.map (fun c => (c.2.startTime, boundary, c.2.n, c.2.excluded)) ∧
            records.map (fun r => (r.freqMean, r.freqMin, r.freqMax)) =
              made.map (fun c =>
                ((2 * c.2.freqSum + c.2.n) / (2 * c.2.n), c.2.freqMin, c.2.freqMax)) ∧
            records.map (fun r => r.thd) =
              made.map (fun c => if c.2.thdCount = 0 then none
                else some ((2 * c.2.thdSum + c.2.thdCount) / (2 * c.2.thdCount), c.2.thdMax)) ∧
            records.map (fun r => r.orders.map (·.2)) =
              made.map (fun c => (List.zip c.2.sumSq c.2.maxM).map (·.2)) ∧
            ∀ (k i sum : Nat) (c : Nat × Accumulator) (r : IntervalRecord) (o : Nat × Nat), made[k]? = some c → records[k]? = some r → c.2.sumSq[i]? = some sum →
              r.orders[i]? = some o →
              let mean := o.1
              (1 ≤ mean → (2 * mean - 1) ^ 2 * c.2.n ≤ 4 * sum) ∧
                4 * sum < (2 * mean + 1) ^ 2 * c.2.n))) ∧
  (∀ (site : Nat) (s : State), Quiet s → Shaped s → Settled s → site < 4 →
    let h := harmSite s site
    let ms := fun (x : ClockTime) => x.sec * 1000 + x.ms
    ∃ t, exec .frameStart s = .next t ∧ (harmSite t site).next = h.next ∧
      (harmSite t site).basis = h.basis ∧
      (recording s = false ∨ h.next = none → (harmSite t site).due = h.due) ∧
      ∀ boundary, recording s = true → h.next = some boundary → ms boundary < 2 ^ 32 * 1000 →
        let passed := (ms s.clock.time + (2 ^ 32 * 1000 - ms boundary)) % (2 ^ 32 * 1000)
        ((harmSite t site).due = true ↔ h.due = true ∨ passed < 2 ^ 31 * 1000)) ∧
  ∀ (site role : Nat) (a : Accumulator) (s : State), Shaped s → site < 4 → role < 8 →
    (harmMember s site role).acc = some a → (harmMember s site role).lossDue = true →
    (harmSite s site).due = false →
    (∀ i j, i < 4 → j < 8 → (i ≠ site ∨ j ≠ role) → (harmMember s i j).lossDue = false) →
    let t := lossCloses s
    let told := fun (counts : CloseCounts) =>
      t.link = (post (.intervalClose site
        { boundary := false, stop := false, acqReset := false, memberLoss := true }
        s.bus.frameTime counts) s).link
    (harmMember t site role).acc =
      ((memberOf s site role).map fun m =>
        newAccumulator m (siteOf s site).settings.hmax s.bus.frameTime s.bus.frame
          (harmSite s site).mark.isSome) ∧
    (harmMember t site role).lossDue = false ∧
    (∀ i j, i < 4 → j < 8 → (i ≠ site ∨ j ≠ role) → harmMember t i j = harmMember s i j) ∧
    t.sites = s.sites ∧ t.survey = s.survey ∧ t.bus = s.bus ∧ t.store.array = s.store.array ∧
    (a.n = 0 → t.store.queue = s.store.queue ∧ told ⟨1, 0, 0, 0, 1⟩ ∧
      (harmSite t site).empty = satInc 4294967295 (harmSite s site).empty) ∧
    (1 ≤ a.n → s.store.state = .full →
      t.store.queue = s.store.queue ∧ told ⟨1, 0, 0, 1, 0⟩ ∧
        t.store.intervalDrops = satInc 4294967295 s.store.intervalDrops) ∧
    (1 ≤ a.n → s.store.state = .ready ∨ s.store.state = .reclaiming → s.store.queue.length < 16 →
      (harmMember s site role).place = none →
      told ⟨1, 1, 0, 0, 0⟩ ∧ ∃ r : IntervalRecord,
        t.store.queue = s.store.queue ++
          [⟨.interval, s.store.nextIds.interval, .interval s.store.nextIds.interval r, false⟩] ∧
        r.flags = { a.flags with partialClose := true, clockUnset := !s.clock.valid } ∧
        r.startTime = a.startTime ∧ r.endTime = s.bus.frameTime ∧ r.n = a.n ∧
        r.excluded = a.excluded ∧ r.site = site ∧ r.role = roleOf role ∧ r.slot = a.slot ∧
        r.serial = a.serial ∧ r.number = s.survey.number)

/-! ### Record store (R116 to R137) -/

/-- The ends of a record write and of a relocation copy (R117 to R119, R124, R126, R145): the record's blocks
are programmed and no other byte, its entry is LIVE there, and the queue place is freed or a DEAD mark is
owed for the old copy. The place that a write frees goes at once to the records that wait: the INTERVAL
records by close moment, site and role (R111), and the pending SURVEY record (R56). A record has the blocks
that R117 gives its kind. That the hand-over is part of the command, so that no EVENT record comes before it,
is the model's choice (log 42), as is that a completion that is not due does nothing (log 3). After how many
INTERVAL records the SURVEY record comes is left open (log 8). -/
def Obligations.WritesProgramTheRecord : Prop :=
  ∀ (seq sector block size : Nat) (s : State), Quiet s → s.store.state ≠ .wiping →
    let addr := sector * 16384 + block * 256
    let limits := s.store.limits.zip (fun limit next => Nat.max limit (next + 1023)) s.store.nextIds
    let programmed := fun (kind : RecordKind) (id : Nat) (c : Content) (t : State) =>
      let bytes := recordBytes (headerOf kind (contentSize c) id seq limits) c
      (∀ i b, bytes[i]? = some b → Memory.read t.store.array (addr + i) = b) ∧
      (∀ a, a < addr ∨ addr + bytes.length ≤ a →
        Memory.read t.store.array a = Memory.read s.store.array a) ∧
      t.store.limits = limits ∧ t.store.extSector = none ∧ t.roster = s.roster ∧
      t.sites = s.sites ∧ t.sag = s.sag ∧ t.capture = s.capture ∧ t.print = s.print ∧
      t.bus = s.bus ∧ t.tracker = s.tracker ∧ t.supply = s.supply
    let isLive := fun (e : Entry) (t : State) =>
      ∃ e', findEntry t.store e.kind e.id = some e' ∧ e'.seq = some seq ∧
        e'.loc = some (sector, block) ∧ e'.size = size ∧ e'.links = e.links ∧ e'.pins = e.pins
    (∀ (opened : Bool) (q : QueueItem) (rest : List QueueItem) (e : Entry),
      s.store.op = some (.write seq (sector, block) size opened) → s.store.queue = q :: rest →
      findEntry s.store q.kind q.id = some e →
      ∃ t, exec .recordWriteDone s = .next t ∧ programmed q.kind q.id q.content t ∧
        rest <+: t.store.queue ∧
        (s.survey.place = none → nextWaiting s = none → t.store.queue = rest) ∧
        (s.store.state ≠ .mounting → HandsOver rest s t) ∧
        (s.store.state = .ready → opened = false ∨ 2 ≤ s.store.opening.countP (·.isNone) →
          t.store.state = .ready ∧ isLive e t ∧
            (q.replacement = false → findEntry t.store q.kind q.id =
              some { e with
                seq := some seq, loc := some (sector, block), size := size, state := .live }) ∧
            (q.replacement = true → ∀ old, e.loc = some old →
              ⟨old, .replacement⟩ ∈ t.store.marks ∨
                t.store.op = some (.mark ⟨old, .replacement⟩))) ∧
        (s.store.state = .ready → opened = true → s.store.opening.countP (·.isNone) < 2 →
          t.store.state = .reclaiming ∨ t.store.state = .full) ∧
        (∀ r, q.content = .lockMark r →
          t.store.lockMark = r.mark ∧
            ∀ tag clamped, s.link.current = some ⟨0x21, tag, clamped⟩ → s.link.reply = none →
              s.link.owed = none → s.link.sending.isSome = true →
              t.link.current = none ∧
                t.link.reply =
                  some ⟨0xA1, tag, if clamped then .okClamped else .ok,
                    if clamped then .lockMark r.mark else .empty⟩) ∧
        ((∀ r, q.content ≠ .lockMark r) → t.store.lockMark = s.store.lockMark)) ∧
    (∀ (kind : RecordKind) (id : Nat) (e : Entry) (old : Nat × Nat),
      s.store.op = some (.copy kind id seq (sector, block) size) →
      findEntry s.store kind id = some e → e.loc = some old → s.store.state = .reclaiming →
      ∃ t, exec .relocationCopyDone s = .next t ∧
        programmed kind id (contentOf s.store e) t ∧ isLive e t ∧
        t.store.queue = s.store.queue ∧ t.store.lockMark = s.store.lockMark ∧
        t.store.state = .reclaiming ∧
        (∃ d ∈ t.store.dir, d.kind = kind ∧ d.id = id ∧ d.state = .dead ∧ d.loc = some old) ∧
        (⟨old, .relocation⟩ ∈ t.store.marks ∨ t.store.op = some (.mark ⟨old, .relocation⟩))) ∧
    (∀ r, contentSize (.event r) = 1) ∧
    (∀ id r, r.orders.length ≤ 64 →
      contentSize (.interval id r) = 1 + (r.orders.length + 15) / 16) ∧
    (∀ r, r.text.length ≤ 600 → contentSize (.note r) = 1 + (r.text.length + 199) / 200) ∧
    (∀ r, contentSize (.survey r) = 2) ∧ (∀ r, contentSize (.lockMark r) = 1) ∧
    ((∀ n loc m opened, s.store.op ≠ some (.write n loc m opened)) →
      exec .recordWriteDone s = .next s) ∧
    ((∀ kind id n loc m, s.store.op ≠ some (.copy kind id n loc m)) →
      exec .relocationCopyDone s = .next s)

/-- The ends of a DEAD mark, an extension step and a sector erase (R120, R124, R126, R128, R134): the bytes
each programs and no other, the waiting delete's reply, the limits, and the reclaim's count and next state. A
reclaim takes the oldest eligible of the 8 closed sectors opened first (R125). After a mark and after a step
the array takes its next operation, with the place and the sequence of the record or copy that begins (R117,
R124, R126). That a step takes the lowest clear bit (log 18), that the lower-numbered of two sectors opened
alike is the older (log 36), that a step waits where no header has one clear (log 43), that the records left
are discarded as their sector's erase begins (log 53), and that a completion that is not due does nothing
(log 3), are the model's choices. -/
def Obligations.MarksStepsAndErasesEnd : Prop :=
  (∀ st : Store,
    let closed := fun (x : Nat) => (st.opening.getD x none).isSome && st.head != some x
    let opened := fun (x : Nat) => (st.opening.getD x none).getD 0
    let older := fun (x y : Nat) => opened x < opened y || (opened x == opened y && decide (x < y))
    let candidate := fun (x : Nat) =>
      closed x = true ∧
        ((List.range st.opening.length).countP fun y => closed y && older y x) < 8
    let live := fun (x : Nat) => st.dir.filter fun e => e.state = .live ∧ e.loc.map (·.1) = some x
    let fits := fun (x : Nat) =>
      (((live x).filter (isRetained st)).map (·.size)).sum ≤ 48 ∧ st.extSector ≠ some x ∧
        (st.mode = .overwrite ∨ ∀ e ∈ live x, isRetained st e = true)
    (∀ x, reclaimChoice st = some x →
      candidate x ∧ fits x ∧ ∀ y, candidate y → fits y → y = x ∨ older x y = true) ∧
    (reclaimChoice st = none → ∀ x, candidate x → ¬fits x)) ∧
  ∀ s : State, Quiet s →
    let at_ := fun (loc : Nat × Nat) => loc.1 * 16384 + loc.2 * 256
    let kept := fun (first count : Nat) (t : State) =>
      ∀ a, a < first ∨ first + count ≤ a →
        Memory.read t.store.array a = Memory.read s.store.array a
    let same := fun (t : State) =>
      t.roster = s.roster ∧ t.sites = s.sites ∧ t.sag = s.sag ∧ t.capture = s.capture ∧
        t.bus = s.bus ∧ t.tracker = s.tracker ∧ t.supply = s.supply ∧ t.clock = s.clock
    (∀ m, s.store.op = some (.mark m) →
      ∃ t, exec .deadMarkDone s = .next t ∧ same t ∧ t.print = s.print ∧
        Memory.read t.store.array (at_ m.loc + 32) = 0x00 ∧ kept (at_ m.loc + 32) 1 t ∧
        (s.store.state = .ready → t.store.dir = s.store.dir ∧ t.store.queue = s.store.queue) ∧
        (m.cause = .delete → ∀ kind tag clamped, s.link.current = some ⟨kind, tag, clamped⟩ →
          s.link.reply = none → s.link.owed = none → s.link.sending.isSome = true →
          t.link.current = none ∧ t.link.reply = some ⟨replyKind kind, tag, .ok, .empty⟩) ∧
        (m.cause = .delete → s.store.state = .full → ∀ sector, reclaimChoice s.store = some sector →
          t.store.state = .reclaiming ∧ t.store.reclaim.map (·.sector) = some sector) ∧
        (m.cause = .delete → s.store.state = .full → reclaimChoice s.store = none →
          t.store.state = .full) ∧
        (m.cause ≠ .delete ∨ s.store.state ≠ .full → s.store.state ≠ .wiping →
          TakesNext { s.store with array := t.store.array, op := none } t.store)) ∧
    (∀ loc, s.store.op = some (.extend loc) → extensionField s.store loc ≠ 0 →
      ∃ t k, exec .extensionStepDone s = .next t ∧ same t ∧ t.print = s.print ∧
        t.store.limits = s.store.limits.map (· + 1024) ∧ t.store.extSector = some loc.1 ∧
        (extensionField s.store loc).testBit k = true ∧
        (∀ j, j < k → (extensionField s.store loc).testBit j = false) ∧
        extensionField t.store loc = extensionField s.store loc - 2 ^ k ∧
        kept (at_ loc + 33) 4 t ∧
        (s.store.state ≠ .wiping →
          TakesNext
            { s.store with
              array := t.store.array, limits := s.store.limits.map (· + 1024)
              extSector := some loc.1, op := none } t.store)) ∧
    (∀ sector, s.store.op = some (.erase sector) → s.store.state ≠ .wiping →
      ∃ t, exec .sectorEraseDone s = .next t ∧ same t ∧
        (∀ a, sector * 16384 ≤ a → a < (sector + 1) * 16384 →
          Memory.read t.store.array a = 0xFF) ∧ kept (sector * 16384) 16384 t ∧
        (∀ e ∈ t.store.dir, ∀ loc, e.loc = some loc → loc.1 ≠ sector) ∧
        t.store.reclaims = satInc 4294967295 s.store.reclaims ∧
        (2 ≤ (s.store.opening.set sector none).countP (·.isNone) →
          t.store.state = .ready ∧ t.store.reclaim = none) ∧
        ((s.store.opening.set sector none).countP (·.isNone) < 2 →
          t.store.state = .reclaiming ∨ t.store.state = .full) ∧
        ((activeJob s.print).isSome = true → ∀ e ∈ t.print.cache, e.snapshot.isSome = true)) ∧
    ((∀ m, s.store.op ≠ some (.mark m)) → exec .deadMarkDone s = .next s) ∧
    ((∀ loc, s.store.op ≠ some (.extend loc)) → exec .extensionStepDone s = .next s) ∧
    ((∀ sector, s.store.op ≠ some (.erase sector)) → exec .sectorEraseDone s = .next s)

/-- The ends of a mount and of a wipe (R57, R131, R136, R139): an array with no header and a wiped one hold
the first LOCK_MARK record alone; after any mount the next ids and the next sequence lie above all that was
found, and the survey is none but SETUP, HELD with cause POWER, or ENDED. Over an array that holds records,
the walk of a sector finds the valid headers that lie in no record before them (R130); each record found is
an entry, LIVE or DEAD, and the lower of two LIVE records of one kind and id is DEAD and marked so; the next
ids, the limits and the next sequence are those of R131, with its extension step; the lock mark and the mode
are those of the latest LIVE LOCK_MARK and SURVEY records; the links of a LIVE note are those its record
holds, where their ends are LIVE, and a note that a LIVE one amends is amended by it (R139); and the survey,
its site table and SURVEY_STATE come from that SURVEY record (R57). What an unlisted byte of the array reads
as (log 5), what mount takes for a record (log 17), which step of a field is set and that the first LOCK_MARK
owes none (log 18), that a lost amends keeps the id the record names (log 25), the time and CLOCK_UNSET the
first LOCK_MARK carries (log 51), that no step is set where none is clear (log 43), the lock mark where no
LIVE LOCK_MARK record is found (log 44), and that a completion that is not due does nothing (log 3), are the
model's choices. -/
def Obligations.MountAndWipeComplete : Prop :=
  ∀ s : State, Quiet s →
    let r : LockRecord := ⟨1, 0, s.clock.time, !s.clock.valid⟩
    let limits : PerKind := ⟨1024, 1024, 1024, 1024, 1025⟩
    let first : Store :=
      { array := Memory.cells 0 (recordBytes (headerOf .lockMark 1 1 1 limits) (.lockMark r))
        state := .ready
        dir :=
          [{ kind := .lockMark, id := 1, seq := some 1, loc := some (0, 0), size := 1
             state := .live }]
        nextIds := ⟨1, 1, 1, 1, 2⟩, limits := limits, nextSeq := 2, head := some 0, headUsed := 1
        opening := some 1 :: List.replicate 63 none }
    let same := fun (t : State) =>
      t.roster = s.roster ∧ t.bus = s.bus ∧ t.tracker = s.tracker ∧ t.clock = s.clock ∧
        t.sag = s.sag ∧ t.capture = s.capture ∧ t.print = s.print ∧ t.supply = s.supply
    (s.store = {} →
      ∃ t, exec .mountComplete s = .next t ∧ same t ∧ t.store = first ∧
        t.sites = List.replicate 4 {} ∧ t.survey.state = some .setup ∧ t.survey.number = 1 ∧
        t.survey.first = none ∧ t.survey.runStart = none) ∧
    (s.store.state = .mounting →
      ∃ t, exec .mountComplete s = .next t ∧ same t ∧
        (t.store.state = .ready ∨ t.store.state = .reclaiming ∨ t.store.state = .full) ∧
        (∀ e ∈ t.store.dir, e.id < t.store.nextIds.get e.kind ∧
          ∃ seq, e.seq = some seq ∧ seq < t.store.nextSeq) ∧
        (∀ e ∈ t.store.dir, ∀ d ∈ t.store.dir, e.state = .live → d.state = .live →
          e.kind = d.kind → e.id = d.id → e.seq = d.seq) ∧
        ((t.survey.state = some .setup ∧ t.survey.number = 1) ∨
          (t.survey.state = some .held ∧ t.survey.cause = some .power) ∨
          (t.survey.state = some .ended ∧ t.survey.cause = none)) ∧
        let a := s.store.array
        let found := fun (sector block : Nat) (h : Header) =>
          sector < 64 ∧ (h, block) ∈ (walkOf a sector).records
        (s.store = { array := a } → (∃ sector block h, found sector block h) →
          let at_ := fun (sector block : Nat) => sector * 16384 + block * 256
          let duplicate := fun (h : Header) => h.live = true ∧ ∃ sector block d,
            found sector block d ∧ d.live = true ∧ d.kind = h.kind ∧ d.id = h.id ∧ h.seq < d.seq
          let latest := fun (kind : RecordKind) (sector block : Nat) (h : Header) =>
            found sector block h ∧ h.kind = kind ∧ h.live = true ∧
              ∀ sector' block' d, found sector' block' d → d.kind = kind → d.live = true →
                (sector', block') ≠ (sector, block) → d.seq < h.seq
          let erased := (List.range 64).countP fun sector => (walkOf a sector).used == 0
          let tells := s.link.sending.isSome = true ∧ s.link.owed = none ∧
            s.link.notices.length ≤ 26
          -- the walk
          (∀ sector block h, sector < 64 → (found sector block h ↔
            1 ≤ h.size ∧ block + h.size ≤ 64 ∧
              decodeHeader (Memory.readBytes a (at_ sector block) 37) = some h ∧
              ∀ block' d, found sector block' d → block' < block → block' + d.size ≤ block)) ∧
          -- the directory
          (∀ sector block h, found sector block h → ∃ e ∈ t.store.dir,
            e.kind = h.kind ∧ e.id = h.id ∧ e.seq = some h.seq ∧ e.size = h.size ∧
              e.loc = some (sector, block) ∧
              (h.live = false ∨ duplicate h → e.state = .dead) ∧
              (h.live = true → ¬duplicate h →
                (∀ r, t.store.reclaim = some r → r.sector ≠ sector) → e.state = .live)) ∧
          (∀ e ∈ t.store.dir, ∃ sector block h, found sector block h ∧
            e.loc = some (sector, block) ∧ e.kind = h.kind ∧ e.id = h.id ∧ e.seq = some h.seq) ∧
          -- the array: the marks of duplicates, and the extension step
          (∀ sector block h, found sector block h → duplicate h →
            Memory.read t.store.array (at_ sector block + 32) = 0x00) ∧
          (∀ b, (∀ sector block h, found sector block h →
              (duplicate h → b ≠ at_ sector block + 32) ∧
                (b < at_ sector block + 33 ∨ at_ sector block + 37 ≤ b)) →
            Memory.read t.store.array b = Memory.read a b) ∧
          (∀ sector block h, found sector block h → h.ext ≠ 0 →
            (∀ sector' block' d, found sector' block' d → d.ext ≠ 0 →
              (sector', block') ≠ (sector, block) → d.seq < h.seq) →
            t.store.extSector = some sector ∧
            (∃ k, h.ext.testBit k = true ∧ (∀ j, j < k → h.ext.testBit j = false) ∧
              extensionField t.store (sector, block) = h.ext - 2 ^ k) ∧
            ∀ sector' block' d, found sector' block' d → (sector', block') ≠ (sector, block) →
              extensionField t.store (sector', block') = d.ext) ∧
          -- the numbers
          (∀ k : RecordKind, ∃ limit id,
            (∀ sector block h, found sector block h →
              h.limits.get k + 1024 * stepsSet h.ext ≤ limit ∧ (h.kind = k → h.id ≤ id)) ∧
            (∃ sector block h, found sector block h ∧
              h.limits.get k + 1024 * stepsSet h.ext = limit) ∧
            (id = 0 ∨ ∃ sector block h, found sector block h ∧ h.kind = k ∧ h.id = id) ∧
            t.store.nextIds.get k = Nat.max limit id + 1 ∧
            ((∃ sector block h, found sector block h ∧ h.ext ≠ 0) →
              t.store.limits.get k = limit + 1024) ∧
            ((∀ sector block h, found sector block h → h.ext = 0) →
              t.store.limits.get k = limit)) ∧
          (t.store.op = none →
            ∃ sector block h, found sector block h ∧ t.store.nextSeq = h.seq + 1) ∧
          -- the trigger
          (2 ≤ erased → t.store.state = .ready ∧ t.store.reclaim = none ∧ t.store.op = none ∧
            (tells → s.link.mask.getLsbD 9 = true →
              ⟨.storeState .ready .mounting erased none 0, s.clock.time⟩ ∈ t.link.notices)) ∧
          (erased < 2 → t.store.state = .reclaiming ∨ t.store.state = .full) ∧
          -- the lock mark
          (∀ sector block h, latest .lockMark sector block h → ∃ r,
            contentOf t.store (mountEntry sector (h, block)) = .lockMark r ∧
              t.store.lockMark = r.mark) ∧
          ((∀ sector block h, found sector block h → h.kind = .lockMark → h.live = false) →
            t.store.lockMark = 0) ∧
          -- the links of the notes
          (let liveRecord := fun (k : RecordKind) (id : Nat) => ∃ sector block h,
            found sector block h ∧ h.kind = k ∧ h.id = id ∧ h.live = true
          let holds := fun (sector block : Nat) (h : Header) (r : NoteRecord) =>
            found sector block h ∧ h.kind = .note ∧ h.live = true ∧
              contentOf t.store (mountEntry sector (h, block)) = .note r
          ∀ sector block h r, holds sector block h r →
            (∀ sector' block' d, found sector' block' d → d.kind = .note → d.live = true →
              d.id = h.id → (sector', block') ≠ (sector, block) → d.seq < h.seq) →
            let amendedBy := fun (id : Nat) => ∃ sector' block' d r',
              holds sector' block' d r' ∧ ¬duplicate d ∧ d.id = id ∧ r'.amends = some h.id
            ∃ e, findEntry t.store .note h.id = some e ∧ e.loc = some (sector, block) ∧
              (∀ a, e.links.attach = some a ↔ r.attach = some a ∧ liveRecord a.kind a.id) ∧
              (e.links.attachLost = true ↔ r.attach.isSome = true ∧ e.links.attach = none) ∧
              e.links.amends = r.amends ∧
              (e.links.amendLost = true ↔ ∃ id, r.amends = some id ∧ ¬liveRecord .note id) ∧
              (∀ id, e.links.amendedBy = some id → amendedBy id) ∧
              ((∃ id, amendedBy id) → e.links.amendedBy.isSome = true)) ∧
          -- the mode, the survey and the site table
          (∀ sector block h, latest .survey sector block h → ∃ r,
            contentOf t.store (mountEntry sector (h, block)) = .survey r ∧
              t.store.mode = r.mode ∧
              t.survey.state = some (if r.state = .ended then .ended else .held) ∧
              t.survey.cause = (if r.state = .ended then none else some .power) ∧
              t.survey.number = r.number ∧ t.survey.first = r.first ∧
              t.survey.runStart = r.runStart ∧
              let from_ := fun (site : Nat) => r.sites.getD site ⟨{}, []⟩
              (∀ site, site < 4 → (siteOf t site).settings = (from_ site).settings ∧
                ∀ role, role < 8 → memberOf t site role =
                  match (from_ site).members.getD role none with
                  | none => none
                  | some (slot, serial) =>
                    if slotReady s slot then
                      if (entryOf s slot).identity.map (fun i => (i.serial, i.kind)) =
                          some (serial, if role < 4 then .voltage else .current) then
                        some ⟨slot, serial, true⟩
                      else none
                    else some ⟨slot, serial, false⟩) ∧
              (tells → s.link.mask.getLsbD 5 = true →
                ⟨.surveyState r.number (if r.state = .ended then .ended else .held) none
                  (if r.state = .ended then none else some .power) s.bus.frame s.clock.time
                  (some (allPositions.countP fun p =>
                    ((from_ p.1).members.getD p.2 none).isSome &&
                      (memberOf t p.1 p.2).isNone)), s.clock.time⟩ ∈ t.link.notices)) ∧
          ((∀ sector block h, found sector block h → h.kind = .survey → h.live = false) →
            t.store.mode = .overwrite ∧ t.survey.state = some .setup ∧ t.survey.number = 1 ∧
              t.survey.first = none ∧ t.survey.runStart = none ∧
              t.sites = List.replicate 4 {}))) ∧
    (s.store.state = .wiping → s.store.op = none →
      ∃ t, exec .wipeComplete s = .next t ∧ same t ∧ t.store = first ∧ t.sites = s.sites ∧
        t.survey = s.survey ∧ t.harm = s.harm) ∧
    (s.store.state ≠ .mounting → exec .mountComplete s = .next s) ∧
    (s.store.state ≠ .wiping ∨ s.store.op.isSome = true → exec .wipeComplete s = .next s)

/-- STORE_MODE, RECORD_LIST, RECORD_READ, RECORD_DELETE and STORE_WIPE on a free link, with their checks in
order (R128, R129, R132 to R134, R136). A place that a delete frees goes in the same command to the records
that wait (R56, R111, R123). That no EVENT record comes before them (log 42), that a record which a reclaim
has discarded answers BUSY (R127) and not the NOT_FOUND of R134 until its sector is erased (log 55), and that
STORE_MODE judges BUSY before the mode, and RECORD_LIST and RECORD_READ the kind and the count before BUSY
(log 20), are the model's choices. -/
def Obligations.StoreRequestsAnswer : Prop :=
  ∀ (tag kind mode count : Byte) (id : Word) (s : State), Ready s →
    let up := s.store.state ≠ .mounting ∧ s.store.state ≠ .wiping
    let st := s.store
    let ans := fun (code : Nat) (status : Status) =>
      (.next (replied code tag status .empty s) : Host.Outcome State Fault Refusal)
    let absent := fun (k : RecordKind) =>
      if ∃ d ∈ st.dir, d.kind = k ∧ d.id = id.toNat ∧ d.state = .dead ∧ d.reclaim = true then
        Status.busy else Status.notFound
    -- STORE_MODE
    (¬up → exec (.storeMode tag mode) s = ans 0x98 .busy) ∧
    (up → 1 < mode.toNat → exec (.storeMode tag mode) s = ans 0x98 .badValue) ∧
    (up → mode.toNat ≤ 1 →
      let m : StoreMode := if mode = 1 then .stop else .overwrite
      ∃ t, exec (.storeMode tag mode) s = .next t ∧ t.store.mode = m ∧
        t.store.array = st.array ∧ t.store.queue = st.queue ∧ t.sites = s.sites ∧
        (st.state = .ready →
          t.store.dir = st.dir ∧
            t.link = (replied 0x98 tag .ok (.storeMode m) s).link) ∧
        (st.state ≠ .full → t.store.state = st.state) ∧
        (st.state = .full → ∀ sector, reclaimChoice { st with mode := m } = some sector →
          t.store.state = .reclaiming ∧ t.store.reclaim.map (·.sector) = some sector) ∧
        (st.state = .full → reclaimChoice { st with mode := m } = none →
          t.store.state = .full ∧ t.link = (replied 0x98 tag .ok (.storeMode m) s).link)) ∧
    -- RECORD_LIST, RECORD_READ and RECORD_DELETE
    (recordKind? kind.toNat = none →
      exec (.recordList tag kind id count) s = ans 0x99 .badValue ∧
      exec (.recordRead tag kind id) s = ans 0x9A .badValue ∧
      exec (.recordDelete tag kind id) s = ans 0x9B .badValue) ∧
    (∀ k, recordKind? kind.toNat = some k →
      let matches_ := fun (e : Entry) =>
        decide (e.kind = k ∧ e.state ≠ .dead ∧ id.toNat ≤ e.id)
      let counted := 1 ≤ count.toNat ∧ count.toNat ≤ 32
      (¬counted → exec (.recordList tag kind id count) s = ans 0x99 .badValue) ∧
      (¬up →
        (counted → exec (.recordList tag kind id count) s = ans 0x99 .busy) ∧
        exec (.recordRead tag kind id) s = ans 0x9A .busy ∧
        exec (.recordDelete tag kind id) s = ans 0x9B .busy) ∧
      (up → counted → ∃ lines next,
        exec (.recordList tag kind id count) s =
          .next (replied 0x99 tag .ok (.recordList lines next) s) ∧
        ∃ es : List Entry, es.Perm (st.dir.filter matches_) ∧
          es.Pairwise (fun a b => a.id ≤ b.id) ∧ next = es[count.toNat]?.map (·.id) ∧
          lines = (es.take count.toNat).map fun e =>
            ⟨e.id, e.state, e.seq, e.size, e.pins, isHeld st e, e.reclaim⟩) ∧
      (up → findEntry st k id.toNat = none →
        exec (.recordRead tag kind id) s = ans 0x9A (absent k)) ∧
      (∀ e, up → findEntry st k id.toNat = some e →
        exec (.recordRead tag kind id) s =
          if e.reclaim then ans 0x9A .busy
          else .next (replied 0x9A tag .ok
            (.record e.state e.seq e.pins (isHeld st e) (contentRun (contentOf st e))
              (if k = .note then some (noteMarks st e) else none)) s)) ∧
      (up → s.supply.level = .critical →
        exec (.recordDelete tag kind id) s = ans 0x9B .supply) ∧
      (up → s.supply.level ≠ .critical → findEntry st k id.toNat = none →
        exec (.recordDelete tag kind id) s = ans 0x9B (absent k)) ∧
      ∀ e, up → s.supply.level ≠ .critical → k ≠ .note → findEntry st k id.toNat = some e →
        let o := exec (.recordDelete tag kind id) s
        let busy := e.reclaim = true ∨ writeInFlight st k id.toNat = true
        let attached := ∃ n ∈ st.dir, n.kind = .note ∧ n.state ≠ .dead ∧
          n.links.attach = some ⟨k, id.toNat⟩
        let last := (k = .survey ∨ k = .lockMark) ∧ isHeld st e = true
        (busy → o = ans 0x9B .busy) ∧
        (¬busy → 0 < e.pins → o = ans 0x9B .pinned) ∧
        (¬busy → e.pins = 0 → attached → o = ans 0x9B .attached) ∧
        (¬busy → e.pins = 0 → ¬attached → last → o = ans 0x9B .wrongState) ∧
        (¬busy → e.pins = 0 → ¬attached → ¬last → e.state = .queued →
          s.survey.place = none → nextWaiting s = none → st.state = .ready →
          ∃ t, o = .next t ∧ t.link = (replied 0x9B tag .ok .empty s).link ∧
            findEntry t.store k id.toNat = none ∧
            t.store.queue = st.queue.filter (fun q => ¬(q.kind = k ∧ q.id = id.toNat)) ∧
            t.store.dir = st.dir.filter (fun d => ¬(d.kind = k ∧ d.id = id.toNat ∧ d.state ≠ .dead)) ∧
            t.store.array = st.array ∧ t.store.nextIds = st.nextIds ∧ t.sites = s.sites) ∧
        (¬busy → e.pins = 0 → ¬attached → ¬last → e.state = .queued →
          ∃ t, o = .next t ∧ t.link = (replied 0x9B tag .ok .empty s).link ∧
            HandsOver (st.queue.filter (fun q => ¬(q.kind = k ∧ q.id = id.toNat))) s t ∧
            t.store.array = st.array ∧ t.sites = s.sites) ∧
        (∀ loc, ¬busy → e.pins = 0 → ¬attached → ¬last → e.state = .live → e.loc = some loc →
          ∃ t, o = .next t ∧ t.link = (waiting 0x1B tag s).link ∧
            findEntry t.store k id.toNat = none ∧
            (⟨loc, .delete⟩ ∈ t.store.marks ∨ t.store.op = some (.mark ⟨loc, .delete⟩)) ∧
            t.store.queue = st.queue ∧ t.store.array = st.array ∧ t.store.nextIds = st.nextIds ∧
            t.sites = s.sites ∧ t.capture = s.capture)) ∧
    -- STORE_WIPE
    (st.state ≠ .ready → st.state ≠ .full → exec (.storeWipe tag) s = ans 0x9C .busy) ∧
    (st.state = .ready ∨ st.state = .full →
      let running := s.survey.state = some .recording ∨ s.survey.state = some .held
      (s.supply.level = .critical → exec (.storeWipe tag) s = ans 0x9C .supply) ∧
      (s.supply.level ≠ .critical → running ∨ s.print.ring ≠ [] →
        exec (.storeWipe tag) s = ans 0x9C .wrongState) ∧
      (s.supply.level ≠ .critical → ¬running → s.print.ring = [] →
        ∃ t, exec (.storeWipe tag) s = .next t ∧ t.store.state = .wiping ∧
          t.link =
            (post (.storeState .wiping st.state (st.opening.countP (·.isNone)) none
              st.queue.length) (replied 0x9C tag .ok .empty s)).link ∧
          t.store.array = st.array ∧ t.sites = s.sites ∧ t.roster = s.roster ∧
          t.capture = s.capture ∧
          (st.op.isSome = true →
            t.store = { st with state := .wiping } ∧ t.survey = s.survey ∧ t.harm = s.harm) ∧
          (st.op = none → t.store.queue = [] ∧ t.store.dir = [] ∧ t.store.marks = [] ∧
            t.store.extOwed = false ∧ t.survey.place = none ∧ t.survey.state = s.survey.state)))

/-! ### Site notes (R138 to R147) -/

/-- NOTE_ADD and NOTE_AMEND on a free link: their checks in order, and the accepted note with its id, its
record in the write queue and its QUEUED entry (R140, R141). That attach kind 0 ignores the attach id (log
22), and that a target or a note which a reclaim has discarded answers BUSY until its sector is erased (R127;
log 55), are the model's choices. -/
def Obligations.NotesAreAddedAndAmended : Prop :=
  ∀ (tag site kind : Byte) (target id : Word) (crew : Crew) (text : List Byte) (s : State), Ready s →
    let st := s.store
    let new := st.nextIds.note
    let up := st.state ≠ .mounting ∧ st.state ≠ .wiping
    let goes := up ∧ s.supply.level ≠ .critical
    let textOk := 1 ≤ text.length ∧ text.length ≤ 600 ∧
      ∀ c ∈ text, 0x20 ≤ c.toNat ∧ c.toNat ≤ 0x7E
    let ends := fun (code : Nat) (o : Host.Outcome State Fault Refusal) (status : Status) =>
      o = .next (replied code tag status .empty s)
    let absent := fun (k : RecordKind) (id : Nat) =>
      if ∃ d ∈ st.dir, d.kind = k ∧ d.id = id ∧ d.state = .dead ∧ d.reclaim = true then
        Status.busy else Status.notFound
    let queues := fun (code : Nat) (o : Host.Outcome State Fault Refusal) (at_ : Option Nat)
        (a : Option Attach) (amends : Option Nat) (letters : List Byte) (dir : List Entry) =>
      (st.state = .full → ends code o .storeFull) ∧
      (st.state ≠ .full → 16 ≤ st.queue.length → ends code o .busy) ∧
      (st.state ≠ .full → st.queue.length < 16 →
        let r : NoteRecord :=
          { id := new, number := s.survey.number, site := at_, attach := a, amends := amends
            crew := letters, time := s.clock.time, clockUnset := !s.clock.valid, text := text }
        ∃ t, o = .next t ∧
          t.link = (replied code tag .accepted (.noteId new) s).link ∧
          t.store.queue = st.queue ++ [⟨.note, new, .note r, false⟩] ∧
          t.store.nextIds = { st.nextIds with note := new + 1 } ∧
          (st.state = .ready ∨ st.op.isSome = true → t.store.dir = dir) ∧
          t.store.array = st.array ∧ t.store.lockMark = st.lockMark ∧ t.sites = s.sites ∧
          t.survey = s.survey ∧ t.capture = s.capture ∧ t.print = s.print)
    let entry := fun (size : Nat) (links : Links) =>
      ({ kind := .note, id := new, seq := none, loc := none, size := size, state := .queued
         links := links } : Entry)
    let size := 1 + (text.length + 199) / 200
    let add := exec (.noteAdd tag site kind target crew text) s
    let amend := exec (.noteAmend tag id crew text) s
    (crewLetters crew = none ∨ ¬textOk →
      ends 0x9D add .badValue ∧ ends 0x9E amend .badValue) ∧
    ((site ≠ 0xFF ∧ 3 < site.toNat) ∨ 2 < kind.toNat → ends 0x9D add .badValue) ∧
    ∀ letters, crewLetters crew = some letters → textOk →
      let own := if site = 0xFF then none else some site.toNat
      let fields := (site = 0xFF ∨ site.toNat ≤ 3) ∧ kind.toNat ≤ 2
      (fields → ¬up → ends 0x9D add .busy) ∧
      (fields → up → s.supply.level = .critical → ends 0x9D add .supply) ∧
      (fields → goes → kind = 0 →
        queues 0x9D add own none none letters (st.dir ++ [entry size {}])) ∧
      (∀ k, fields → goes → (kind = 1 ∧ k = .event ∨ kind = 2 ∧ k = .interval) →
        (findEntry st k target.toNat = none → ends 0x9D add (absent k target.toNat)) ∧
        ∀ e, findEntry st k target.toNat = some e →
          let targetSite := siteOfTarget st e
          let a : Attach := ⟨k, target.toNat⟩
          (e.reclaim = true → ends 0x9D add .busy) ∧
          (e.reclaim = false → own.isSome = true → own ≠ targetSite → ends 0x9D add .badValue) ∧
          (e.reclaim = false → own = none ∨ own = targetSite →
            queues 0x9D add targetSite (some a) none letters
              (st.dir ++ [entry size { attach := some a }]))) ∧
      (¬up → ends 0x9E amend .busy) ∧
      (up → s.supply.level = .critical → ends 0x9E amend .supply) ∧
      (goes → findEntry st .note id.toNat = none → ends 0x9E amend (absent .note id.toNat)) ∧
      ∀ e, goes → findEntry st .note id.toNat = some e →
        (e.reclaim = true → ends 0x9E amend .busy) ∧
        (e.reclaim = false → e.links.amendedBy.isSome = true → ends 0x9E amend .hasAmendment) ∧
        (e.reclaim = false → e.links.amendedBy = none → 8 ≤ depthOf st id.toNat →
          ends 0x9E amend .chainLimit) ∧
        ∀ r, e.reclaim = false → e.links.amendedBy = none → depthOf st id.toNat < 8 →
          contentOf st e = .note r →
          let a := if e.links.attachLost then none else r.attach
          queues 0x9E amend r.site a (some id.toNat) letters
            ((st.dir ++ [entry size { attach := a, amends := some id.toNat }]).map fun d =>
              if d.kind = .note ∧ d.id = id.toNat ∧ d.state ≠ .dead then
                { d with links := { d.links with amendedBy := some new } } else d)

/-- NOTE_ATTACH, NOTE_DELETE (and RECORD_DELETE of a note), NOTE_LOCK and NOTE_LIST on a free link: their
checks in order and their effects (R134, R142 to R145, R147). A place that a delete frees goes in the same
command to the records that wait (R56, R111, R123). That no EVENT record comes before them (log 42), that a
record which a reclaim has discarded answers BUSY until its sector is erased (R127; log 55), and that
NOTE_LIST judges the count before BUSY (log 20), are the model's choices. -/
def Obligations.NotesAreAttachedDeletedAndLocked : Prop :=
  ∀ (tag kind count : Byte) (target id : Word) (s : State), Ready s →
    let st := s.store
    let n := id.toNat
    let up := st.state ≠ .mounting ∧ st.state ≠ .wiping
    let goes := up ∧ s.supply.level ≠ .critical
    let absent := fun (k : RecordKind) (id : Nat) =>
      if ∃ d ∈ st.dir, d.kind = k ∧ d.id = id ∧ d.state = .dead ∧ d.reclaim = true then
        Status.busy else Status.notFound
    let calm := st.state = .ready ∨ st.op.isSome = true
    let same := fun (t : State) =>
      t.store.array = st.array ∧ t.sites = s.sites ∧ t.survey = s.survey ∧
        t.capture = s.capture ∧ t.print = s.print
    let relink := fun (m : Nat) (f : Links → Links) (dir : List Entry) =>
      dir.map fun d =>
        if d.kind = .note ∧ d.id = m ∧ d.state ≠ .dead then { d with links := f d.links } else d
    let ends := fun (code : Nat) (o : Host.Outcome State Fault Refusal) (status : Status) =>
      o = .next (replied code tag status .empty s)
    -- NOTE_ATTACH
    (let o := exec (.noteAttach tag id kind target) s
    (kind ≠ 1 → kind ≠ 2 → ends 0x9F o .badValue) ∧
    ∀ k, (kind = 1 ∧ k = .event ∨ kind = 2 ∧ k = .interval) →
      (¬up → ends 0x9F o .busy) ∧ (up → s.supply.level = .critical → ends 0x9F o .supply) ∧
      (goes → findEntry st .note n = none → ends 0x9F o (absent .note n)) ∧
      ∀ e, goes → findEntry st .note n = some e →
        let busy := e.reclaim = true ∨ writeInFlight st .note n = true
        let linked := e.links.attach.isSome = true ∨ e.links.attachLost = true
        (busy → ends 0x9F o .busy) ∧ (¬busy → n ≤ st.lockMark → ends 0x9F o .locked) ∧
        (¬busy → st.lockMark < n → linked → ends 0x9F o .wrongState) ∧
        (¬busy → st.lockMark < n → ¬linked → 0 < e.pins → ends 0x9F o .pinned) ∧
        (¬busy → st.lockMark < n → ¬linked → e.pins = 0 →
          (findEntry st k target.toNat = none → ends 0x9F o (absent k target.toNat)) ∧
          ∀ d r, findEntry st k target.toNat = some d → contentOf st e = .note r →
            let site := siteOfTarget st d
            let a : Attach := ⟨k, target.toNat⟩
            let r' : NoteRecord :=
              { r with attach := some a, site := if r.site.isSome then r.site else site }
            (d.reclaim = true → ends 0x9F o .busy) ∧
            (d.reclaim = false → r.site.isSome = true → r.site ≠ site → ends 0x9F o .badValue) ∧
            (d.reclaim = false → r.site = none ∨ r.site = site →
              (e.state = .queued → ∃ t, o = .next t ∧ same t ∧
                t.link = (replied 0x9F tag .ok .empty s).link ∧
                t.store.queue =
                  st.queue.map (fun q =>
                    if q.kind = .note ∧ q.id = n then { q with content := .note r' } else q) ∧
                t.store.dir = relink n (fun l => { l with attach := some a }) st.dir) ∧
              (e.state = .live → st.state = .full → ends 0x9F o .storeFull) ∧
              (e.state = .live → st.state ≠ .full → 16 ≤ st.queue.length → ends 0x9F o .busy) ∧
              (e.state = .live → st.state ≠ .full → st.queue.length < 16 → ∃ t, o = .next t ∧
                same t ∧ t.link = (replied 0x9F tag .ok .empty s).link ∧
                t.store.queue = st.queue ++ [⟨.note, n, .note r', true⟩] ∧
                (calm → t.store.dir =
                  relink n (fun l => { l with attach := some a }) st.dir))))) ∧
    -- NOTE_DELETE, and RECORD_DELETE of kind NOTE
    (∀ c code, c = .noteDelete tag id ∧ code = 0xA0 ∨ c = .recordDelete tag 3 id ∧ code = 0x9B →
      let o := exec c s
      (¬up → ends code o .busy) ∧ (up → s.supply.level = .critical → ends code o .supply) ∧
      (goes → findEntry st .note n = none → ends code o (absent .note n)) ∧
      ∀ e, goes → findEntry st .note n = some e →
        let busy := e.reclaim = true ∨ writeInFlight st .note n = true
        let unlinked := match e.links.amends with
          | some a => relink a (fun l => { l with amendedBy := none }) st.dir
          | none => st.dir
        (n ≤ st.lockMark → ends code o .locked) ∧ (st.lockMark < n → busy → ends code o .busy) ∧
        (st.lockMark < n → ¬busy → 0 < e.pins → ends code o .pinned) ∧
        (st.lockMark < n → ¬busy → e.pins = 0 → e.links.amendedBy.isSome = true →
          ends code o .hasAmendment) ∧
        (st.lockMark < n → ¬busy → e.pins = 0 → e.links.amendedBy = none →
          (e.state = .queued ∨ e.state = .live ∧
            st.queue.any (fun q => q.kind = .note ∧ q.id = n ∧ q.replacement = true) = true) →
          ∃ t, o = .next t ∧ t.store.array = st.array ∧ t.sites = s.sites ∧
            HandsOver (st.queue.filter (fun q => ¬(q.kind = .note ∧ q.id = n))) s t) ∧
        (st.lockMark < n → ¬busy → e.pins = 0 → e.links.amendedBy = none →
          s.survey.place = none → nextWaiting s = none →
          (e.state = .queued → ∃ t, o = .next t ∧ same t ∧
            t.link = (replied code tag .ok .empty s).link ∧
            t.store.queue = st.queue.filter (fun q => ¬(q.kind = .note ∧ q.id = n)) ∧
            (calm → t.store.dir =
              unlinked.filter fun d => ¬(d.kind = .note ∧ d.id = n ∧ d.state ≠ .dead))) ∧
          (∀ loc, e.state = .live → e.loc = some loc → ∃ t, o = .next t ∧ same t ∧
            t.link = (waiting (code - 128) tag s).link ∧
            t.store.queue =
              (if st.queue.any (fun q => q.kind = .note ∧ q.id = n ∧ q.replacement = true) then
                st.queue.filter (fun q => ¬(q.kind = .note ∧ q.id = n)) else st.queue) ∧
            (⟨loc, .delete⟩ ∈ t.store.marks ∨ t.store.op = some (.mark ⟨loc, .delete⟩)) ∧
            t.store.dir = unlinked.map (fun d =>
              if d.kind = .note ∧ d.id = n ∧ d.state ≠ .dead then
                { d with state := .dead, pins := 0, links := {} } else d)))) ∧
    -- NOTE_LOCK
    (let o := exec (.noteLock tag id) s
    let last := st.nextIds.note - 1
    let mark := Nat.min n last
    let status : Status := if n ≤ last then .ok else .okClamped
    (¬up → ends 0xA1 o .busy) ∧ (up → s.supply.level = .critical → ends 0xA1 o .supply) ∧
    (goes → n < st.lockMark → ends 0xA1 o .badValue) ∧
    (goes → st.lockMark ≤ n → st.state = .full → ends 0xA1 o .storeFull) ∧
    (goes → st.lockMark ≤ n → st.state ≠ .full → 16 ≤ st.queue.length → ends 0xA1 o .busy) ∧
    (goes → st.lockMark ≤ n → st.state ≠ .full → st.queue.length < 16 → mark = st.lockMark →
      o = .next (replied 0xA1 tag status (if n ≤ last then .empty else .lockMark mark) s)) ∧
    (goes → st.lockMark ≤ n → st.state ≠ .full → st.queue.length < 16 → mark ≠ st.lockMark →
      let r : LockRecord := ⟨st.nextIds.lockMark, mark, s.clock.time, !s.clock.valid⟩
      ∃ t, o = .next t ∧ same t ∧ t.store.lockMark = st.lockMark ∧
        t.link = { s.link with current := some ⟨0x21, tag, decide (last < n)⟩ } ∧
        t.store.queue = st.queue ++ [⟨.lockMark, r.id, .lockMark r, false⟩] ∧
        t.store.nextIds = { st.nextIds with lockMark := st.nextIds.lockMark + 1 })) ∧
    -- NOTE_LIST
    (let o := exec (.noteList tag id count) s
    let counted := 1 ≤ count.toNat ∧ count.toNat ≤ 32
    let matches_ := fun (e : Entry) => decide (e.kind = .note ∧ e.state ≠ .dead ∧ n ≤ e.id)
    (¬counted → ends 0xA2 o .badValue) ∧ (counted → ¬up → ends 0xA2 o .busy) ∧
    (counted → up → ∃ lines next,
      o = .next (replied 0xA2 tag .ok (.noteList st.lockMark lines next) s) ∧
      ∃ es : List Entry, es.Perm (st.dir.filter matches_) ∧
      es.Pairwise (fun a b => a.id ≤ b.id) ∧ next = es[count.toNat]?.map (·.id) ∧
      lines.length = Nat.min count.toNat es.length ∧
      ∀ (i : Nat) (e : Entry) (line : NoteLine), es[i]? = some e → lines[i]? = some line →
        line.id = e.id ∧ line.state = e.state ∧ line.pins = e.pins ∧
        line.attach = e.links.attach ∧ line.attachLost = e.links.attachLost ∧
        line.amends = e.links.amends ∧ line.amendLost = e.links.amendLost ∧
        line.amendedBy = e.links.amendedBy ∧ line.depth = depthOf st e.id ∧
        (line.locked = true ↔ e.id ≤ st.lockMark) ∧ line.reclaim = e.reclaim ∧
        ∀ r, contentOf st e = .note r →
          line.site = r.site ∧ line.crew = r.crew ∧ line.time = r.time ∧
            line.textLength = r.text.length))

/-! ### Print engine (R149 to R168) -/

/-- A head temperature reading, a change of the paper sensor, a fetch and the end of a dot line (R150, R151,
R156, R158 to R160, R162, R163, R165, R167): the engine's own state and its notice, and nothing else of the
part. A fetch takes a section's content as it stands (R156), and an item is printed in the text lines, blank
lines and trace lines that R149, R152, R153 and R157 give it. A text dot line stands for its text line and
row, and the fifth line of an EVENT_DETAIL that names no capture reads "no waveform": the model's choices
(log 10). That a fetch or a line's end that is not due does nothing (log 3), that the mechanism's change is
told once (log 27), that a line stopped under a cancel is discarded where it stops (log 30), that a note
whose replacement is queued needs no array (log 37), and that nothing is fetched while an earlier fetch still
waits (log 47), are the model's choices too. -/
def Obligations.PrintEventsMoveTheEngine : Prop :=
  ∀ s : State, Quiet s →
    let p := s.print
    let told := fun (q : Print) =>
      let old := mechState p
      let new := mechState q
      let silent := old = new ∨
        (old = .printing ∨ old = .stalled) ∧ (new = .printing ∨ new = .stalled)
      if silent then s.link
      else (post (.printState none none new q.brake q.latch q.tempClass q.ring.length
        q.done.length) s).link
    let moves := fun (c : Instr) (q : Print) =>
      exec c s = .next { s with print := q, link := told q }
    let idle := p.lineBusy = false
    let ready := p.brake = false ∧ p.latch = false ∧ s.link.owed = none ∧
      ∃ j rest, p.ring = j :: rest ∧ (j.phase = some .running ∨ j.phase = some .cancelling)
    -- HEAD_TEMPERATURE_READING
    (∀ c : Int,
      let first := p.temp = none
      let class_ : TempClass :=
        if first then if c < 60 then .cool else if c < 75 then .hot else .overheat
        else if c < 55 then .cool
        else if p.tempClass = .overheat ∨ 75 ≤ c then .overheat
        else if 60 ≤ c then .hot
        else p.tempClass
      let q := { p with temp := some c, tempClass := class_ }
      (p.tempClass ≠ .overheat ∨ class_ = .overheat → moves (.headTemperatureReading c) q) ∧
      (p.tempClass = .overheat → class_ ≠ .overheat → idle → ready → ∀ x, p.inHand = some x →
        moves (.headTemperatureReading c)
          (if p.paper then { q with lineBusy := true, lineSlow := class_ == .hot }
          else { q with latch := true })) ∧
      ∃ q', moves (.headTemperatureReading c) q' ∧ q'.temp = some c ∧ q'.tempClass = class_ ∧
        q'.ring.length = p.ring.length ∧ q'.done = p.done ∧ q'.brake = p.brake) ∧
    -- PAPER_SENSOR_CHANGE
    (∀ present : Bool,
      moves (.paperSensorChange present)
        (if present = false ∧ p.lineBusy = true then
          { p with
            paper := present, latch := true, lineBusy := false, lineStale := false
            inHand := if p.lineStale then none else p.inHand }
        else { p with paper := present })) ∧
    -- SECTION_FETCH
    (∀ j rest, p.ring = j :: rest →
      let last := j.sections.length + 1
      let next : Job :=
        if j.fetchItem = last then { j with fetchCopy := j.fetchCopy + 1, fetchItem := 0 }
        else { j with fetchItem := j.fetchItem + 1 }
      let fetches := j.phase = some .running ∧ p.cache.length < 3 ∧ j.fetchCopy ≤ j.copies ∧
        ∀ e ∈ p.cache, e.snapshot.isSome = true
      let waits := ∃ x, 1 ≤ j.fetchItem ∧ j.sections[j.fetchItem - 1]? = some x ∧
        (∃ sector, s.store.op = some (.erase sector)) ∧
        ∃ e ∈ recordsRead s.store x, e.state = .live ∧
          ∀ q ∈ s.store.queue, ¬(q.kind = e.kind ∧ q.id = e.id)
      (¬fetches → exec .sectionFetch s = .next s) ∧
      (fetches → ∃ (q : Print) (snapshot : Option Snapshot), moves .sectionFetch q ∧
        (waits → snapshot = none) ∧ (¬waits → snapshot.isSome = true) ∧
        (¬waits → j.fetchItem = 0 →
          snapshot = some (.header j.id j.fetchCopy j.copies s.clock.time s.survey.number)) ∧
        (j.fetchItem = last → snapshot =
          some (.trailer j.id j.fetchCopy j.copies s.clock.time s.survey.number)) ∧
        (∀ x, ¬waits → 1 ≤ j.fetchItem → j.sections[j.fetchItem - 1]? = some x →
          snapshot = some (sectionSnapshot s x)) ∧
        (p.buffer.length = 32 → p.cache ≠ [] → q.buffer = p.buffer ∧
          (∀ h t, p.cache = h :: t → ∀ x, h.snapshot = some x →
            h.placed < (linesOf s.straps x).length →
            q.cache = p.cache ++ [{ copy := j.fetchCopy, item := j.fetchItem, snapshot := snapshot }] ∧
            q.ring.map (fun k => (k.id, k.phase, k.fetchCopy, k.fetchItem, k.tallies)) =
              (next :: rest).map fun k => (k.id, k.phase, k.fetchCopy, k.fetchItem, k.tallies))) ∧
        (∀ x, p.cache = [] → p.buffer = [] → p.brake = true → snapshot = some x →
          32 < (linesOf s.straps x).length →
          q.buffer = (linesOf s.straps x).take 32 ∧ q.inHand = p.inHand ∧
            q.cache =
              [{ copy := j.fetchCopy, item := j.fetchItem, snapshot := snapshot, placed := 32 }]))) ∧
    (p.ring = [] → exec .sectionFetch s = .next s) ∧
    -- what a fetch takes of a section
    (∀ (pins : List (RecordKind × Nat)) (capture : Option CapturePin),
      let taken := fun (c : Section) => sectionSnapshot s ⟨c, pins, capture⟩
      let eventOf := fun (id : Nat) => (findEntry s.store .event id).bind fun e =>
        match contentOf s.store e with
        | .event r => some r
        | _ => none
      (∀ chars, taken (.text chars) = .text chars) ∧
      (∀ n, taken (.feed n) = .feed n.toNat) ∧
      (∀ (a b : Word) (site : Byte),
        let ids := (List.range (b.toNat + 1 - a.toNat)).map (a.toNat + ·)
        taken (.eventList a b site) =
          .eventList a.toNat b.toNat (if site = 0xFF then none else some site.toNat)
            ((ids.filterMap eventOf).filter fun r => site = 0xFF ∨ r.site = site.toNat)
            (ids.countP fun id => (findEntry s.store .event id).isNone)) ∧
      (∀ (id : Word) w, capture = none →
        taken (.eventDetail id w) = .eventDetail (eventOf id.toNat) w none) ∧
      (∀ (id : Word) w c g more, capture = some c →
        (captureSlot s c.slot).segments = g :: more → ∃ traces,
          taken (.eventDetail id w) =
            .eventDetail (eventOf id.toNat) w (some ⟨c.slot, c.serial, g.pre, g.cycles, traces⟩) ∧
          traces.map (·.role) =
            ((captureSlot s c.slot).members.filter fun m => m.kind = .voltage).map (·.role)) ∧
      (∀ (id : Word) orders e r n, findEntry s.store .interval id.toNat = some e →
        contentOf s.store e = .interval n r →
        taken (.intervalTable id orders) =
          .intervalTable id.toNat (some r) (orders.map (·.toNat))) ∧
      (∀ id amendments (es : List (Entry × NoteRecord)),
        List.Forall₂ (fun p x =>
          findEntry s.store .note p.2 = some x.1 ∧ contentOf s.store x.1 = .note x.2) pins es →
        taken (.note id amendments) =
          .notes ((pins.zip es).map fun x => (x.2.2, decide (x.1.2 ≤ s.store.lockMark)))) ∧
      taken .surveySummary = .survey (latestSurvey s.store)) ∧
    -- the dot lines of an item
    (let width := if s.straps.wide then 576 else 384
    let blank : DotLine := { marks := .blank }
    let printed := fun (xs : List Line) (ds : List DotLine) =>
      ds.length = 28 * xs.length ∧ ∀ (i k : Nat) (x : Line), xs[i]? = some x → k < 28 →
        ds[28 * i + k]? = some
          (if k < 24 then { marks := .glyph x k }
          else { marks := .blank, endsText := decide (k = 27) })
    let broken := fun (cs : List Byte) (parts : List (List Byte)) =>
      parts.flatten = cs ∧
        parts.length = Nat.max 1 ((cs.length + (width / 12 - 1)) / (width / 12)) ∧
        ∀ part ∈ parts.dropLast, part.length = width / 12
    let lines := linesOf s.straps
    (∀ job copy copies time n,
      printed [.jobHeader job copy copies, .jobTime time n] (lines (.header job copy copies time n)) ∧
      ∃ ds, printed [.trailer job copy] ds ∧ lines (.trailer job copy copies time n) =
        ds ++ List.replicate 63 blank ++ [{ marks := .blank, endsCopy := true }]) ∧
    (∀ job, ∃ ds, printed [.cancelled job] ds ∧
      lines (.cancelTrailer job) = ds ++ List.replicate 64 blank) ∧
    (∀ cs, ∃ parts, broken cs parts ∧ printed (parts.map .chars) (lines (.text cs))) ∧
    (∀ n, lines (.feed n) = List.replicate n blank) ∧
    (∀ a b site events missing,
      printed
        ([.listRange a b, .listFilter site] ++
          events.map (fun r =>
            .listEvent r.id r.site r.interruption r.startTime r.ms r.minR) ++
          [.listFooter missing])
        (lines (.eventList a b site events missing))) ∧
    (∀ r : EventRecord,
      let detail := fun (capture : Line) =>
        [.eventHead r.id r.site r.interruption, .eventTimes r.startTime r.endTime,
          .eventFigures r.half r.ms r.minR r.worst, .eventFlags r.flags, capture]
      (∀ c, printed (detail .noWaveform) (lines (.eventDetail (some r) false c))) ∧
      printed (detail .noWaveform ++ [.waveformNotAvailable])
        (lines (.eventDetail (some r) true none)) ∧
      ∀ c : TraceSet, ∃ ds traces, lines (.eventDetail (some r) true (some c)) = ds ++ traces ∧
        printed (detail (.eventCapture c.slot c.serial c.cycles (c.traces.map (·.role)))) ds ∧
        traces.length = 96 * c.traces.length ∧
        ∀ (i k : Nat) (t : Trace), c.traces[i]? = some t → k < 96 → 1 ≤ c.cycles →
          t.samples.length = 128 * c.cycles →
          let first := k * (128 * c.cycles) / 96
          let after := (k + 1) * (128 * c.cycles) / 96
          let at_ := fun (column j : Nat) => first ≤ j ∧ j < after ∧
            ∃ x, t.samples[j]? = some x ∧ column = (x + 32768).toNat * width / 65536
          ∃ low high, (∃ j, at_ low j) ∧ (∃ j, at_ high j) ∧
            (∀ column j, at_ column j → low ≤ column ∧ column ≤ high) ∧
            traces[96 * i + k]? = some
              { marks := .trace low high (width / 2)
                  (decide (first ≤ 128 * c.pre ∧ 128 * c.pre < after)) }) ∧
    (∀ id r orders,
      printed
        ([.intervalHead id r.site r.role r.serial,
          .intervalSpan r.startTime r.endTime r.n r.excluded r.flags, .intervalThd r.thd] ++
          orders.map fun h => .intervalOrder h r.orders[h - 1]? (decide (4 ≤ r.role.code)))
        (lines (.intervalTable id (some r) orders))) ∧
    (∀ xs ys, lines (.notes (xs ++ ys)) = lines (.notes xs) ++ lines (.notes ys)) ∧
    (∀ r locked, ∃ parts, broken r.text parts ∧
      printed (.noteHead r.id r.crew r.time r.site r.attach locked :: parts.map .chars)
        (lines (.notes [(r, locked)]))) ∧
    (∀ r a b c d, r.sites = [a, b, c, d] →
      let site := fun (e : SiteRecord) => (e.settings.enabled, e.settings.name, e.settings.udin)
      printed
        [.surveyState r.number r.state, .surveyCause r.cause, .surveyFirst r.first,
          .surveyRun r.runStart, .surveyMode r.mode r.time, .surveySites (site a) (site b),
          .surveySites (site c) (site d),
          .surveyMembers ([a, b, c, d].map fun e => e.members.countP Option.isSome)]
        (lines (.survey (some r)))) ∧
    printed (.surveyMissing :: List.replicate 7 .blank) (lines (.survey none))) ∧
    -- DOT_LINE_DONE
    (p.lineBusy = false ∨ p.inHand = none → exec .dotLineDone s = .next s) ∧
    (∀ x j rest, p.lineBusy = true → p.inHand = some x → p.ring = j :: rest →
      (j.phase = some .running ∨ j.phase = some .cancelling) → s.link.owed = none →
      (j.phase = some .cancelling ∨ j.copies < j.fetchCopy ∨ 3 ≤ p.cache.length) →
      let tallies : Tallies :=
        { j.tallies with
          dotLines := j.tallies.dotLines + 1
          textLines := if x.endsText then j.tallies.textLines + 1 else j.tallies.textLines
          copies := if x.endsCopy ∧ j.cancelled = false then j.tallies.copies + 1
            else j.tallies.copies }
      let q : Print :=
        { p with
          ring := { j with tallies := tallies } :: rest, inHand := none, lineBusy := false
          lineStale := false }
      let finished := j.fullyRendered = true ∧ p.buffer = []
      let prints := p.brake = false ∧ p.latch = false ∧ p.tempClass ≠ .overheat
      (finished → p.done.length < 8 → ∃ t, exec .dotLineDone s = .next t ∧
        t.print.done = p.done ++ [⟨j.id, j.cancelled, tallies⟩] ∧
        t.print.ring.map (·.id) = rest.map (·.id) ∧
        t.print.completions = (p.completions + 1) % 2 ^ 32 ∧ t.print.inHand = none ∧
        t.store.array = s.store.array ∧ t.sites = s.sites ∧ t.supply = s.supply) ∧
      (finished → 8 ≤ p.done.length → ∃ t, exec .dotLineDone s = .next t ∧
        t.print =
          { q with ring := { j with tallies := tallies, phase := some .doneWait } :: rest } ∧
        t = { s with print := t.print, link := t.link }) ∧
      (¬finished → ¬prints → moves .dotLineDone q) ∧
      (¬finished → prints → p.buffer = [] →
        moves .dotLineDone
          (if j.phase = some .running ∧ j.fullyRendered = false ∧ j.placed = true then
            { q with stalls := satInc 4294967295 p.stalls } else q)) ∧
      (∀ y more, ¬finished → prints → p.buffer = y :: more → ∃ q',
        moves .dotLineDone q' ∧ q'.inHand = some y ∧ q'.lineBusy = p.paper ∧
          q'.latch = !p.paper ∧ (p.paper = true → q'.lineSlow = (p.tempClass == .hot)) ∧
          more <+: q'.buffer ∧
          q'.ring.map (fun k => (k.id, k.tallies.dotLines, k.tallies.textLines, k.tallies.copies)) =
            q.ring.map fun k => (k.id, k.tallies.dotLines, k.tallies.textLines, k.tallies.copies)))

/-- PRINT_SUBMIT, PRINT_CANCEL, PRINT_RESUME and PRINT_DONE_READ on a free link: the ranges of the sections
and the checks of a submission in their order, the records and the capture slot that a section pins, the four
cases of a cancel, the latch, and the done queue (R84, R148, R152 to R155, R162, R164 to R167). That a record
which a reclaim has discarded answers BUSY until its sector is erased (R127; log 55), the section byte 0 on
the BUSY of a store that is not up (log 21), that PRINT_STATUS goes on to name the copy and item a cancelled
job was at (log 38), and that a cancel takes the oldest of two jobs with one id (log 49), are the model's
choices. -/
def Obligations.PrintRequestsAnswer : Prop :=
  ∀ (tag copies : Byte) (sections : List Section) (job : Half) (s : State), Ready s → Shaped s →
    let p := s.print
    let st := s.store
    let up := st.state ≠ .mounting ∧ st.state ≠ .wiping
    let bare := fun (j : Job) => (j.id, j.copies, j.sections.map (·.content), j.tallies)
    -- PRINT_SUBMIT
    (let o := exec (.printSubmit tag copies sections) s
    let refused := fun (status : Status) (body : ReplyBody) =>
      o = .next (replied 0xA3 tag status body s)
    let counted := 1 ≤ copies.toNat ∧ copies.toNat ≤ 3 ∧ 1 ≤ sections.length ∧ sections.length ≤ 16
    let inRange := fun (x : Section) =>
      match x with
      | .text cs => cs.length ≤ 96 ∧ ∀ c ∈ cs, 0x20 ≤ c.toNat ∧ c.toNat ≤ 0x7E
      | .feed n => 8 ≤ n.toNat ∧ n.toNat ≤ 400
      | .eventList a b site =>
        a.toNat ≤ b.toNat ∧ b.toNat - a.toNat ≤ 255 ∧ (site = 0xFF ∨ site.toNat ≤ 3)
      | .intervalTable _ orders =>
        1 ≤ orders.length ∧ orders.length ≤ 8 ∧ ∀ h ∈ orders, 1 ≤ h.toNat ∧ h.toNat ≤ 50
      | .unknown .. => False
      | _ => True
    let names := fun (x : Section) =>
      match x with
      | .eventDetail id _ => some (RecordKind.event, id.toNat)
      | .intervalTable id _ => some (.interval, id.toNat)
      | .note id _ => some (.note, id.toNat)
      | _ => none
    let valid := ∀ x ∈ sections, inRange x
    let stored := ∃ x ∈ sections, (∀ cs, x ≠ .text cs) ∧ ∀ lines, x ≠ .feed lines
    let first := fun (bad : Section → Prop) (n : Nat) =>
      1 ≤ n ∧ (∃ x, sections[n - 1]? = some x ∧ bad x) ∧
        ∀ k x, k + 1 < n → sections[k]? = some x → ¬bad x
    let discarded := fun (kind : RecordKind) (id : Nat) =>
      ∃ d ∈ st.dir, d.kind = kind ∧ d.id = id ∧ d.state = .dead ∧ d.reclaim = true
    let missing := fun (x : Section) =>
      ∃ kind id, names x = some (kind, id) ∧ findEntry st kind id = none ∧
        ¬discarded kind id
    let reclaimed := fun (x : Section) =>
      ∃ r ∈ recordsPinned st x, (∃ e, findEntry st r.1 r.2 = some e ∧ e.reclaim = true) ∨
        findEntry st r.1 r.2 = none ∧ discarded r.1 r.2
    let named := ∀ x ∈ sections, ¬missing x
    -- what a section pins
    (∀ x, (∀ id, x ≠ .note id true) → recordsPinned st x = (names x).toList) ∧
    (∀ (id : Word) (chain : List Nat) (i : Nat), chain[i]? = some id.toNat →
      chain.length ≤ st.dir.length + 1 →
      (∀ k a b, chain[k]? = some a → chain[k + 1]? = some b →
        (findEntry st .note a).isSome = true ∧
          (k < i → (findEntry st .note b).bind (·.links.amends) = some a) ∧
          (i ≤ k → (findEntry st .note a).bind (·.links.amendedBy) = some b)) →
      (∀ root a, chain.head? = some root → (findEntry st .note root).bind (·.links.amends) = some a →
        findEntry st .note a = none) →
      (∀ tail, chain.getLast? = some tail →
        (findEntry st .note tail).bind (·.links.amendedBy) = none) →
      recordsPinned st (.note id true) = chain.map fun n => (.note, n)) ∧
    (∀ x, (∀ id, x ≠ .eventDetail id true) → capturePinned s x = none) ∧
    (∀ (id : Word) c, capturePinned s (.eventDetail id true) = some c ↔
      c.event = id.toNat ∧ c.slot < 12 ∧ (captureSlot s c.slot).state ≠ .free ∧
        (captureSlot s c.slot).serial = c.serial ∧
        (captureSlot s c.slot).event = some id.toNat ∧
        ∃ e r, findEntry st .event id.toNat = some e ∧ contentOf st e = .event r ∧
          r.capture = some (c.slot, c.serial)) ∧
    -- the checks and the acceptance
    (¬counted → refused .badValue (.sectionIndex 0)) ∧
    (∀ n, counted → first (fun x => ¬inRange x) n →
      refused .badValue (.sectionIndex n)) ∧
    (counted → valid → ¬up → stored → refused .busy (.sectionIndex 0)) ∧
    (counted → valid → up ∨ ¬stored → 8 ≤ p.ring.length → refused .queueFull .empty) ∧
    (∀ n, counted → valid → up ∨ ¬stored → p.ring.length < 8 → first missing n →
      refused .notFound (.sectionIndex n)) ∧
    (∀ n, counted → valid → up ∨ ¬stored → p.ring.length < 8 → named → first reclaimed n →
      refused .busy (.sectionIndex n)) ∧
    (counted → valid → up ∨ ¬stored → p.ring.length < 8 → named →
      (∀ x ∈ sections, ¬reclaimed x) →
      ∃ t, o = .next t ∧ t.link.current = none ∧
        (s.link.sending.isSome = true →
          t.link.reply = some ⟨0xA3, tag, .accepted, .jobId p.nextJob⟩) ∧
        t.print.ring.map bare = p.ring.map bare ++ [(p.nextJob, copies.toNat, sections, ({} : Tallies))] ∧
        t.print.nextJob = (if p.nextJob < 65535 then p.nextJob + 1 else 1) ∧
        t.print.submits = (p.submits + 1) % 2 ^ 32 ∧
        t.print.done = p.done ∧ t.print.cache = p.cache ∧ t.print.buffer = p.buffer ∧
        (∀ j rest, p.ring = j :: rest → j.phase.isSome = true →
          t.print.ring.map (·.phase) = p.ring.map (·.phase) ++ [none]) ∧
        (p.ring = [] → t.print.ring.map (·.phase) =
          [if p.done.length < 8 then some .running else none]) ∧
        (∀ kind id e, findEntry st kind id = some e →
          ∃ e', findEntry t.store kind id = some e' ∧
            e' = { e with
              pins := e.pins + (sections.flatMap (recordsPinned st)).count (kind, id) }) ∧
        (∀ i, i < 12 → captureSlot t i =
          { captureSlot s i with
            pins := (captureSlot s i).pins +
              sections.countP fun x => (capturePinned s x).any fun c => c.slot = i }) ∧
        t.store.array = st.array ∧ t.store.queue = st.queue ∧ t.sites = s.sites ∧
        t.survey = s.survey)) ∧
    -- PRINT_CANCEL
    (let o := exec (.printCancel tag job) s
    let ends := fun (status : Status) => o = .next (replied 0xA4 tag status .empty s)
    ((∀ j ∈ p.ring, j.id ≠ job.toNat) → ends .notFound) ∧
    (∀ j, p.ring.find? (fun j => j.id = job.toNat) = some j → j.phase = none →
      (8 ≤ p.done.length → ends .queueFull) ∧
      (p.done.length < 8 → ∃ t, o = .next t ∧
        t.link.current = none ∧
        (s.link.sending.isSome = true → t.link.reply = some ⟨0xA4, tag, .ok, .empty⟩) ∧
        t.print.done = p.done ++ [⟨j.id, true, {}⟩] ∧
        t.print.ring.map bare = (p.ring.eraseP fun k => k.id = j.id).map bare ∧
        t.print.completions = (p.completions + 1) % 2 ^ 32 ∧ t.store.array = st.array)) ∧
    (∀ j rest, p.ring = j :: rest → j.id = job.toNat →
      (j.phase = some .cancelling → ends .ok) ∧ (j.phase = some .doneWait → ends .wrongState) ∧
      (j.phase = some .running → p.lineBusy = true ∨ p.brake = true →
        let lines := linesOf s.straps (.cancelTrailer j.id)
        ∃ t, o = .next t ∧ t.link = (replied 0xA4 tag .ok .empty s).link ∧
          t = { s with print := t.print, link := t.link } ∧ lines.length = 92 ∧
          t.print.buffer = lines.take 32 ∧ (t.print.cache.map (·.placed)) = [32] ∧
          t.print.inHand = (if p.lineBusy then p.inHand else none) ∧
          t.print.lineBusy = p.lineBusy ∧ t.print.lineStale = p.lineBusy ∧
          t.print.ring.map (·.phase) = some .cancelling :: rest.map (·.phase) ∧
          t.print.ring.map (fun k => (k.renderCopy, k.renderItem)) =
            p.ring.map (fun k => (k.renderCopy, k.renderItem)) ∧
          t.print.ring.map bare = p.ring.map bare))) ∧
    -- PRINT_RESUME
    (let o := exec (.printResume tag) s
    (p.latch = false ∨ p.paper = false →
      o = .next (replied 0xA5 tag .wrongState (.paper p.paper (mechState p)) s)) ∧
    (p.latch = true → p.paper = true → p.lineBusy = false →
      ∃ t, o = .next t ∧ t.print.latch = false ∧ t.print.paper = true ∧
        t = { s with print := t.print, link := t.link } ∧
        (s.link.sending.isSome = true →
          t.link.reply = some ⟨0xA5, tag, .ok, .paper true (mechState t.print)⟩) ∧
        (mayPrint { p with latch := false } = true → ∀ x, p.inHand = some x →
          t.print =
            { p with latch := false, lineBusy := true, lineSlow := p.tempClass == .hot }) ∧
        (mayPrint { p with latch := false } = false →
          t.print = { p with latch := false }))) ∧
    -- PRINT_DONE_READ
    (let o := exec (.printDoneRead tag) s
    (p.done = [] → o = .next (replied 0xA6 tag .notFound .empty s)) ∧
    ∀ e rest, p.done = e :: rest →
      (p.ring = [] → o = .next (replied 0xA6 tag .ok (.doneEntry e)
        { s with print := { p with done := rest } })) ∧
      (∀ j more, p.ring = j :: more → j.phase = some .running ∨ j.phase = some .cancelling →
        o = .next (replied 0xA6 tag .ok (.doneEntry e)
          { s with print := { p with done := rest } })) ∧
      (∀ j more, p.ring = j :: more → j.phase = none → rest.length < 8 → ∃ t, o = .next t ∧
        t.print = { p with done := rest, ring := { j with phase := some .running } :: more } ∧
        t = { s with print := t.print, link := t.link } ∧ t.link.current = none) ∧
      (∀ j more, p.ring = j :: more → j.phase = some .doneWait → ∃ t, o = .next t ∧
        t.print.done = rest ++ [⟨j.id, j.cancelled, j.tallies⟩] ∧
        t.print.ring.map (·.id) = more.map (·.id) ∧
        t.print.completions = (p.completions + 1) % 2 ^ 32 ∧ t.link.current = none ∧
        t.store.array = st.array))

/-! ### Van supply monitor (R169 to R172) -/

/-- A supply reading updates the run counts, the latest and the lowest reading; the level changes by
the table of R170, and its report reaches the print engine and survey control (R50, R161, R169, R170,
R172, R173). SUPPLY_SET clamps and stores the thresholds carried or stored, CRITICAL at least 20 below
LOW, zeroes the run counts and keeps the level; a schedule that is none of the five is refused (R171).
That a line stopped by the brake under a cancel is discarded and counted (log 30), that SUPPLY_STATE comes
before the other notices of its report (log 33), and that a start whose boundary's frame has begun is still
abandoned (log 54), are the model's choices. -/
def Obligations.SupplyReadingsAndSettings : Prop :=
  (∀ (input : Nat) (s : State), Quiet s →
      let v := Nat.min input 3200
      let x := s.supply
      let p := s.print
      let up := fun (holds : Prop) [Decidable holds] (n : Nat) =>
        if holds then (if n < 3 then n + 1 else 3) else 0
      let y : Supply :=
        { x with
          taken := if x.taken < 3 then x.taken + 1 else 3
          critIn := up (v < x.critical) x.critIn, lowIn := up (v < x.low) x.lowIn
          critOut := up (x.critical + 30 ≤ v) x.critOut, lowOut := up (x.low + 30 ≤ v) x.lowOut
          reading := some v
          lowest := some (match x.lowest with
            | some least => Nat.min v least
            | none => v) }
      let new : Level :=
        match x.level with
        | .none =>
          if y.taken < 3 then .none
          else if y.critIn = 3 then .critical else if y.lowIn = 3 then .low else .normal
        | .normal => if y.critIn = 3 then .critical else if y.lowIn = 3 then .low else .normal
        | .low => if y.critIn = 3 then .critical else if y.lowOut = 3 then .normal else .low
        | .critical =>
          if y.critOut = 3 ∧ y.lowOut = 3 then .normal else if y.critOut = 3 then .low else .critical
      (new = x.level → exec (.supplyReading input) s = .next { s with supply := y }) ∧
      (new ≠ x.level → ∃ t, exec (.supplyReading input) s = .next t ∧
        t = { s with supply := t.supply, print := t.print, survey := t.survey, link := t.link } ∧
        t.supply =
          { y with
            level := new
            lowEntries := if new = .low then satInc 4294967295 x.lowEntries else x.lowEntries
            critEntries :=
              if new = .critical then satInc 4294967295 x.critEntries else x.critEntries } ∧
        (new = .normal → t.print.brake = false ∧
          (p.brake = false → t.print = p) ∧
          (p.brake = true → mayPrint { p with brake := false } = false →
            t.print = { p with brake := false }) ∧
          (∀ d, p.brake = true → mayPrint { p with brake := false } = true →
            p.lineBusy = false → p.inHand = some d → p.paper = true → s.link.owed = none →
            t.print =
              { p with brake := false, lineBusy := true, lineSlow := p.tempClass == .hot })) ∧
        (new ≠ .normal → t.print =
          if p.lineBusy then
            { p with
              brake := true, lineBusy := false, lineStale := false
              inHand := if p.lineStale then none else p.inHand
              abandonedLines := satInc 4294967295 p.abandonedLines }
          else { p with brake := true }) ∧
        (new ≠ .critical → t.survey = s.survey) ∧
        (new = .critical → s.survey.change = some .start →
          t.survey = { s.survey with change := none, changeDue := false } ∧ t.link.current = none ∧
            ∀ kind tag clamped, s.link.current = some ⟨kind, tag, clamped⟩ → s.link.reply = none →
              s.link.owed = none → s.link.sending.isSome = true →
              t.link.reply = some ⟨replyKind kind, tag, .supply, .empty⟩) ∧
        (new = .critical → s.survey.change = none → t.survey =
          if s.survey.state = some .recording then { s.survey with change := some .stopSupply }
          else s.survey) ∧
        (new = .critical → s.survey.change ≠ none → s.survey.change ≠ some .start →
          t.survey = s.survey) ∧
        (s.link.owed = none → s.link.sending.isSome = true → s.link.mask.getLsbD 13 = true →
          s.link.notices.length < 32 →
          s.link.notices ++ [⟨.supplyState new x.level v x.low x.critical, s.clock.time⟩] <+:
            t.link.notices))) ∧
    ∀ (tag : Byte) (low critical : Option Half) (schedule : Option Byte) (s : State), Ready s →
      let x := s.supply
      let carried := fun (o : Option Half) (stored : Nat) => (o.map (·.toNat)).getD stored
      let l := Nat.max 1000 (Nat.min (carried low x.low) 1300)
      let c := Nat.min (Nat.max 900 (Nat.min (carried critical x.critical) 1200)) (l - 20)
      let same := l = carried low x.low ∧ c = carried critical x.critical
      (∀ b, schedule = some b → 4 < b.toNat →
        exec (.supplySet tag low critical schedule) s =
          .next (replied 0xA8 tag .badValue .empty s)) ∧
      ∀ z : Schedule,
        (schedule = none ∧ z = x.schedule ∨
          (schedule = some 0 ∧ z = .continuous ∨ schedule = some 1 ∧ z = .half ∨
            schedule = some 2 ∧ z = .one ∨ schedule = some 3 ∧ z = .two ∨
            schedule = some 4 ∧ z = .four)) →
        exec (.supplySet tag low critical schedule) s =
          .next (replied 0xA8 tag (if same then .ok else .okClamped) (.supplySettings l c z)
            { s with
              supply :=
                { x with
                  low := l, critical := c, schedule := z, critIn := 0, lowIn := 0, critOut := 0
                  lowOut := 0 } })

/-! ### Resets (R2, R12, R37, R47, R77, R91, R98, R110, R115, R130, R174, R175, R181, R182) -/

/-- HARDWARE_RESET and BROWNOUT: every block at its reset values with the straps latched, the clock of the
backup cell and the reset cause; the array is kept but for what the operation in flight was writing, a mount
being cut between two of its writes. The reset pin does not release a part that the brownout detector holds.
The store's STORE_STATE is posted and the idle transmitter takes it (R137, R179). ACQ_RESET empties the
acquisition blocks and keeps the settings, the survey and the store. Each open event closes TRUNCATED at the
last boundary (R77), each FILLING capture slot becomes COMPLETE with its whole cycles (R91), each accumulator
of a survey that is RECORDING closes PARTIAL and a fresh one opens at frame 0 (R110), and TRACK_STATE and
ROTATION are posted (R37). The paper reading kept and the reset values that the spec leaves open (log 7),
what a cut operation leaves (log 9), what the STORE_STATE of a hardware reset carries of the store before it
(log 35), what a held part does (log 31), that SAG_STATUS has no last boundary after a reset (log 28), the K
of the carry that begins frame 0 after an ACQ reset (log 6), that the EVENT records of an ACQ reset reach the
queue before its INTERVAL records (log 42), that a PROBE of the last frame is forgotten, both control words
being IDLE after an ACQ reset (log 45), that a join whose SAMPLE_ON the last frame carried is abandoned (log
52), how an interval boundary is reached on a clock that wraps (log 40), and that an ACQ_RESET that is not
due does nothing (log 3), are the model's choices. -/
def Obligations.ResetsRestoreTheirBlocks : Prop :=
  ∀ s : State,
    let restarted := fun (a : Memory) (n : Nat) (straps : Straps) (clock : Clock)
        (link : Link) =>
      let f := if straps.nominal60 then 60000 else 50000
      ({ State.reset with
        straps := straps, clock := clock
        tracker := { f := f, k := (f * 2 ^ 32 + 64000000) / 128000000, frameFreq := f }
        store := { array := a }, print := { paper := s.print.paper }, link := link
        free := n, pending := s.pending } : State)
    let cut := fun (a : Memory) =>
      (s.store.op = none → s.store.state ≠ .wiping → s.store.state ≠ .mounting →
        a = s.store.array) ∧
      (s.store.op = none → s.store.state = .mounting → a ∈ mountStages s.clock s.store) ∧
      let at_ := fun (loc : Nat × Nat) => loc.1 * 16384 + loc.2 * 256
      let kept := fun (first count : Nat) => ∀ b, b < first ∨ first + count ≤ b →
        Memory.read a b = Memory.read s.store.array b
      let headless := fun (c : Content) => recordBytes (List.replicate 37 0xFF) c
      let body := fun (loc : Nat × Nat) (c : Content) =>
        (∀ i, i < 37 → Memory.read a (at_ loc + i) = 0xFF) ∧
          (∀ i b, (headless c)[i]? = some b → Memory.read a (at_ loc + i) = b) ∧
          kept (at_ loc) (headless c).length
      let blocks := fun (sector : Nat) => ∀ block, block < 64 →
        let reads := fun (f : Nat → Byte) => ∀ i, i < 256 →
          Memory.read a (at_ (sector, block) + i) = f (at_ (sector, block) + i)
        reads (Memory.read s.store.array) ∨ reads (fun _ => 0xFF) ∨ reads (fun _ => 0x00)
      (∀ seq loc size opened q rest, s.store.op = some (.write seq loc size opened) →
        s.store.queue = q :: rest → body loc q.content) ∧
      (∀ kind id seq loc size e, s.store.op = some (.copy kind id seq loc size) →
        findEntry s.store kind id = some e → body loc (contentOf s.store e)) ∧
      (∀ m, s.store.op = some (.mark m) →
        Memory.read a (at_ m.loc + 32) = 0x00 ∧ kept (at_ m.loc + 32) 1) ∧
      (∀ loc, s.store.op = some (.extend loc) → extensionField s.store loc ≠ 0 →
        a = s.store.array ∨ kept (at_ loc + 33) 4 ∧
          ∃ k, (extensionField s.store loc).testBit k = true ∧
            (∀ j, j < k → (extensionField s.store loc).testBit j = false) ∧
            extensionField { s.store with array := a } loc =
              extensionField s.store loc - 2 ^ k) ∧
      (∀ sector, s.store.op = some (.erase sector) →
        blocks sector ∧ kept (sector * 16384) 16384) ∧
      (s.store.op = none → s.store.state = .wiping →
        (∃ sector, sector < 64 ∧ (∀ b, b < sector * 16384 → Memory.read a b = 0xFF) ∧
          blocks sector ∧ kept 0 ((sector + 1) * 16384)) ∨
        let r : LockRecord := ⟨1, 0, s.clock.time, !s.clock.valid⟩
        let limits : PerKind := ⟨1024, 1024, 1024, 1024, 1025⟩
        a = [] ∨ a = Memory.cells 0 (headless (.lockMark r)) ∨
          a = Memory.cells 0 (recordBytes (headerOf .lockMark 1 1 1 limits) (.lockMark r)))
    (∀ (straps : Straps) (held : Bool), s.held = true →
      exec (.hardwareReset .pin straps held) s = .next s) ∧
    (∀ (source : ResetSource) (straps : Straps) (held : Bool), s.held = false ∨ source ≠ .pin →
      let clock : Clock := if held then { s.clock with midnightDue := false } else {}
      ∃ a n old erased, exec (.hardwareReset source straps held) s =
          .next (restarted a n straps clock
            { cause :=
                match source with
                | .power => .power
                | .pin => .pin
                | .brownout => .brownout
              sending := some (.notice 0 0 ⟨.storeState .mounting old erased none 0, clock.time⟩)
              seq := 1 }) ∧
        (source = .pin → old = s.store.state) ∧ erased ≤ 64 ∧
        (s.held = true → a = s.store.array) ∧ (s.held = false → cut a)) ∧
    (s.held = true → exec .brownout s = .next s) ∧
    (s.held = false → ∃ a n, cut a ∧
      exec .brownout s =
        .next { restarted a n s.straps s.clock { cause := .brownout } with held := true }) ∧
    (∀ (printDue notice : Bool), Quiet s → Shaped s → s.bus.inFrame = false →
      s.link.owed = some ⟨⟨true, printDue, notice⟩, true⟩ →
      ∃ t, exec .acqReset s = .next t ∧
        t.bus = { frameTime := s.bus.frameTime, frameValid := s.bus.frameValid } ∧
        t.roster = List.replicate 15 {} ∧
        t.receive = List.replicate 15 {} ∧
        t.tracker.state = .acquiring ∧ t.tracker.f = nominal s.straps ∧
        t.tracker.k = incrementOf (nominal s.straps) ∧ t.tracker.nco = s.tracker.nco ∧
        t.tracker.kMoved = s.tracker.kMoved ∧
        t.tracker.boundaryK = some (s.tracker.boundaryK.getD s.tracker.k) ∧
        t.tracker.selection = none ∧ t.tracker.inUse = none ∧ t.tracker.wanted = none ∧
        t.tracker.lastCross = none ∧ t.tracker.inLock = 0 ∧ t.tracker.since = 0 ∧
        t.tracker.unlockSeen = false ∧ t.tracker.det = {} ∧
        t.rotation = List.replicate 4 {} ∧ t.sag = {} ∧
        t.sites = s.sites.map (fun e => { e with
          members := e.members.map fun m => m.map fun m => { m with active := false } }) ∧
        t.capture.rings = List.replicate 4 {} ∧
        (∀ c ∈ t.capture.slots, c.site.isSome = true → c.state ≠ .filling) ∧
        (∀ site, site < 4 → (harmSite t site).mark = none ∧ ∀ role, role < 8 →
          (harmMember t site role).window = none ∧ (harmMember t site role).latest = none) ∧
        t.survey = s.survey ∧ t.clock = s.clock ∧ t.print = s.print ∧ t.supply = s.supply ∧
        t.store.array = s.store.array ∧ t.straps = s.straps ∧
        (notice = false → t.link.owed =
          if printDue then some ⟨⟨false, printDue, false⟩, true⟩ else none) ∧
        (frameEndWork s = s →
          let c := s.sag.lastBoundary.getD 0
          let time := s.clock.time
          let room := s.store.state ≠ .mounting ∧ s.store.state ≠ .wiping ∧ s.store.state ≠ .full
          let events := (List.range 4).countP fun site => (sagSite s site).event.isSome
          let intervals := (((List.range 4).map fun site => (List.range 8).countP fun role =>
            (harmMember s site role).acc.any fun a => 0 < a.n)).sum
          let told := notice = false ∧ s.link.sending.isSome = true ∧ s.link.notices.length ≤ 19
          -- the capture slots
          CapturesEndAt c s t ∧
          -- the EVENT records
          (∀ site e, site < 4 → (sagSite s site).event = some e → room →
            s.store.queue.length + events ≤ 16 →
            let ended := fun (i : Involved) =>
              let x := channelOf s site i.role.code
              if i.holding then
                { i with
                  minR := Nat.min i.minR (x.minR.getD 2000)
                  half := Nat.min 65535
                    (i.half + Nat.min 65535 (frameDiff c (x.sagStart.getD c) / 64))
                  recovery := some c, holding := false }
              else i
            ∃ r : EventRecord, ⟨.event, e.id, .event r, false⟩ ∈ t.store.queue ∧ r.id = e.id ∧
              r.site = site ∧ r.number = s.survey.number ∧ r.startTime = e.startTime ∧
              r.capture = e.capture ∧
              r.involved = (e.involved.map ended).map
                (fun i => (i.role, i.serial, i.minR, i.half)) ∧
              r.flags =
                { e.flags with
                  truncated := true, long := r.flags.long, clockUnset := !s.clock.valid
                  probeLost := e.flags.probeLost || e.involved.any fun i =>
                    i.holding && (channelOf s site i.role.code).lost } ∧
              ((∃ i ∈ e.involved, i.holding = true) → c < 2 ^ 48 →
                (∀ i ∈ e.involved, ∀ x, i.recovery = some x → x < 2 ^ 48) →
                r.half = Nat.min 65535 (frameDiff c e.startFrame / 64) ∧
                ∀ h, (sagSite s site).history.find? (fun h => h.frame = c) = some h →
                  r.endTime = h.time) ∧
              (told → s.link.mask.getLsbD 7 = true →
                ⟨.eventClose (eventSummary r) false, time⟩ ∈ t.link.notices)) ∧
          -- the INTERVAL records and the fresh accumulators
          (∀ site role, site < 4 → role < 8 →
            let h := harmSite s site
            let due := h.due = true ∨ boundaryReached s time h = true
            let end_ := if due then h.next.getD time else time
            (∀ a, s.survey.state = some .recording → (harmMember s site role).acc = some a →
              (harmMember t site role).acc =
                ((memberOf s site role).map fun m =>
                  newAccumulator m (siteOf s site).settings.hmax end_ 0
                    (h.mark.isSome && (sagSite s site).event.isNone)) ∧
              (0 < a.n → room → s.store.queue.length + events + intervals ≤ 16 →
                ∃ id r, ⟨.interval, id, .interval id r, false⟩ ∈ t.store.queue ∧
                  r.number = s.survey.number ∧ r.site = site ∧ r.role = roleOf role ∧
                  r.slot = a.slot ∧ r.serial = a.serial ∧ r.startTime = a.startTime ∧
                  r.endTime = end_ ∧ r.n = a.n ∧ r.excluded = a.excluded ∧
                  r.flags.partialClose = true ∧ r.flags.clockUnset = !s.clock.valid)) ∧
            ((harmMember s site role).acc = none → (harmMember t site role).acc = none) ∧
            (h.empty ≤ 4294967295 → s.survey.state = some .recording →
              (harmSite t site).empty = Nat.min 4294967295 (h.empty + (List.range 8).countP
                fun role => (harmMember s site role).acc.any fun a => a.n == 0)) ∧
            (harmSite t site).basis = h.basis ∧
            (s.survey.state ≠ some .recording ∨ ¬due → (harmSite t site).next = h.next)) ∧
          -- TRACK_STATE and ROTATION
          (told → s.link.mask.getLsbD 3 = true → s.tracker.state ≠ .acquiring →
            ⟨.trackState .acquiring s.tracker.state (nominal s.straps)
              (incrementOf (nominal s.straps)) none .reset, time⟩ ∈ t.link.notices) ∧
          (told → s.link.mask.getLsbD 4 = true → ∀ site, site < 4 →
            (rotationOf s site).state ≠ .unknown →
            ⟨.rotation site .unknown (rotationOf s site).state, time⟩ ∈ t.link.notices))) ∧
    (s.held = false → s.link.queue = [] →
      (s.bus.inFrame = true ∨ s.link.owed = none) → exec .acqReset s = .next s)
end

