-- ==== Sys2Proof/Laws/Arith.lean ====
section
/-!
SUPPORT. The integer square root, the roundings built on it, and the sorts by rank.
-/

-- One declaration at a time: many waiting threads would pass the memory limit of the check.
set_option Elab.async false
namespace Sys2Proof.Machine

theorem isqrtFrom_spec (n : Nat) : ∀ (k r : Nat), r * r ≤ n → n < (r + 2 ^ k) * (r + 2 ^ k) →
    isqrtFrom n k r * isqrtFrom n k r ≤ n ∧ n < (isqrtFrom n k r + 1) * (isqrtFrom n k r + 1)
  | 0, r, h, g => by simpa [isqrtFrom] using ⟨h, g⟩
  | k + 1, r, h, g => by
    simp only [isqrtFrom]
    split
    · rename_i c
      refine isqrtFrom_spec n k _ c ?_
      rw [show r + 2 ^ k + 2 ^ k = r + 2 ^ (k + 1) by rw [pow_succ]; omega]
      exact g
    · exact isqrtFrom_spec n k _ h (by omega)

/-- `isqrt` is the floor of the square root. -/
theorem isqrt_spec (n : Nat) : isqrt n * isqrt n ≤ n ∧ n < (isqrt n + 1) * (isqrt n + 1) := by
  refine isqrtFrom_spec _ _ _ (by simp) ?_
  have h : n.log2 + 1 ≤ (n.log2 / 2 + 1) + (n.log2 / 2 + 1) := by omega
  calc n < 2 ^ (n.log2 + 1) := Nat.lt_log2_self
    _ ≤ 2 ^ ((n.log2 / 2 + 1) + (n.log2 / 2 + 1)) := Nat.pow_le_pow_right (by norm_num) h
    _ = _ := by rw [pow_add]; simp

/-- `rootRound n d` is √n / d rounded once, halves up. -/
theorem rootRound_spec (n d : Nat) (hd : 0 < d) :
    (1 ≤ rootRound n d → (2 * rootRound n d - 1) ^ 2 * d ^ 2 ≤ 4 * n) ∧
      4 * n < (2 * rootRound n d + 1) ^ 2 * d ^ 2 := by
  obtain ⟨h1, h2⟩ := isqrt_spec (4 * n)
  generalize hq : isqrt (4 * n) = q at *
  have e : rootRound n d = (q + d) / (2 * d) := by rw [rootRound, hq]
  generalize rootRound n d = m at *
  have a : m * (2 * d) ≤ q + d := e ▸ Nat.div_mul_le_self _ _
  have b : q + d < (m + 1) * (2 * d) := by
    rw [← Nat.div_lt_iff_lt_mul (by omega), ← e]; exact Nat.lt_succ_self m
  constructor
  · intro hm
    obtain ⟨k, rfl⟩ : ∃ k, m = k + 1 := ⟨m - 1, by omega⟩
    have c : (2 * k + 1) * d ≤ q := by nlinarith
    calc (2 * (k + 1) - 1) ^ 2 * d ^ 2 = ((2 * k + 1) * d) * ((2 * k + 1) * d) := by
          rw [show 2 * (k + 1) - 1 = 2 * k + 1 by omega]; ring
      _ ≤ q * q := Nat.mul_le_mul c c
      _ ≤ _ := h1
  · have c : q + 1 ≤ (2 * m + 1) * d := by nlinarith
    calc 4 * n < (q + 1) * (q + 1) := h2
      _ ≤ ((2 * m + 1) * d) * ((2 * m + 1) * d) := Nat.mul_le_mul c c
      _ = _ := by ring

/-- The mean of an order is √(sum / n) rounded once, halves up. -/
theorem orderMean_spec (sum n : Nat) (hn : 0 < n) :
    (1 ≤ orderMean sum n → (2 * orderMean sum n - 1) ^ 2 * n ≤ 4 * sum) ∧
      4 * sum < (2 * orderMean sum n + 1) ^ 2 * n := by
  obtain ⟨h1, h2⟩ := isqrt_spec (4 * sum / n)
  generalize hq : isqrt (4 * sum / n) = q at *
  have e : orderMean sum n = (q + 1) / 2 := by rw [orderMean, hq]
  generalize orderMean sum n = m at *
  rw [Nat.le_div_iff_mul_le hn] at h1
  rw [Nat.div_lt_iff_lt_mul hn] at h2
  constructor
  · intro hm
    obtain ⟨k, rfl⟩ : ∃ k, m = k + 1 := ⟨m - 1, by omega⟩
    have c : 2 * (k + 1) - 1 ≤ q := by omega
    calc (2 * (k + 1) - 1) ^ 2 * n ≤ q * q * n := by
          rw [sq]; exact Nat.mul_le_mul_right _ (Nat.mul_le_mul c c)
      _ ≤ _ := h1
  · have c : q + 1 ≤ 2 * m + 1 := by omega
    calc 4 * sum < (q + 1) * (q + 1) * n := h2
      _ ≤ (2 * m + 1) ^ 2 * n := by
          rw [sq]; exact Nat.mul_le_mul_right _ (Nat.mul_le_mul c c)

/-- The sum of the squares as an integer. -/
theorem sumsq_int (w : List Sample) :
    ((sumsq w : Nat) : Int) = (w.map fun x => x.value * x.value).sum := by
  induction w with
  | nil => rfl
  | cons x xs ih =>
    simp only [sumsq, List.map_cons, List.sum_cons] at *
    rw [Nat.cast_add, ih]; simp

variable {α : Type} (rank : α → Nat)

theorem insertBy_perm (x : α) : ∀ ys, (insertBy rank x ys).Perm (x :: ys)
  | [] => .refl _
  | y :: ys => by
    simp only [insertBy]
    split
    · exact .refl _
    · exact ((insertBy_perm x ys).cons y).trans (.swap x y ys)

theorem insertBy_sorted (x : α) : ∀ ys, ys.Pairwise (fun a b => rank a ≤ rank b) →
    (insertBy rank x ys).Pairwise (fun a b => rank a ≤ rank b)
  | [], _ => by simp [insertBy]
  | y :: ys, h => by
    have h' := List.pairwise_cons.1 h
    simp only [insertBy]
    split
    · rename_i c
      refine List.pairwise_cons.2 ⟨?_, h⟩
      rintro z (_ | ⟨_, hz⟩)
      · omega
      · have := h'.1 z hz; omega
    · refine List.pairwise_cons.2 ⟨fun z hz => ?_, insertBy_sorted x ys h'.2⟩
      rcases List.mem_cons.1 ((insertBy_perm rank x ys).mem_iff.1 hz) with rfl | hz
      · omega
      · exact h'.1 z hz

theorem sortBy_spec (xs : List α) :
    (sortBy rank xs).Perm xs ∧ (sortBy rank xs).Pairwise (fun a b => rank a ≤ rank b) := by
  suffices h : ∀ (xs acc : List α), acc.Pairwise (fun a b => rank a ≤ rank b) →
      (xs.foldl (fun acc x => insertBy rank x acc) acc).Perm (xs ++ acc) ∧
        (xs.foldl (fun acc x => insertBy rank x acc) acc).Pairwise (fun a b => rank a ≤ rank b) by
    simpa [sortBy] using h xs [] .nil
  intro xs
  induction xs with
  | nil => exact fun acc h => ⟨.refl _, h⟩
  | cons x xs ih =>
    intro acc h
    obtain ⟨p, q⟩ := ih (insertBy rank x acc) (insertBy_sorted rank x acc h)
    refine ⟨p.trans ?_, q⟩
    exact ((insertBy_perm rank x acc).append_left xs).trans List.perm_middle

end Sys2Proof.Machine
end

