-- ==== Sys2Proof/Laws/Cosine.lean ====
section
/-!
SUPPORT. The transform tables of R100 are the rounded cosine and sine: a turn by pi / 512, held to
2^-40, is repeated from 0 to a quarter of a turn, and the other quarters follow by symmetry.
-/

-- One declaration at a time: many waiting threads would pass the memory limit of the check.
set_option Elab.async false
namespace Sys2Proof.Machine
open Real

/-! ### The angle pi / 512 -/

/-- Bounds of a half-angle cosine, in units of 10^-24, from those of the one before it. -/
theorem series_step (n : Nat) (a b c d : Nat)
    (h : a ≤ 10 ^ 24 * sqrtTwoAddSeries 0 n ∧ 10 ^ 24 * sqrtTwoAddSeries 0 n ≤ b)
    (h1 : c * c ≤ 2 * 10 ^ 48 + a * 10 ^ 24) (h2 : 2 * 10 ^ 48 + b * 10 ^ 24 ≤ d * d) :
    (c : ℝ) ≤ 10 ^ 24 * sqrtTwoAddSeries 0 (n + 1) ∧
      10 ^ 24 * sqrtTwoAddSeries 0 (n + 1) ≤ d := by
  rw [sqrtTwoAddSeries]
  generalize sqrtTwoAddSeries 0 n = x at *
  have h1' : (c : ℝ) * c ≤ 2 * 10 ^ 48 + a * 10 ^ 24 := by exact_mod_cast h1
  have h2' : (2 : ℝ) * 10 ^ 48 + b * 10 ^ 24 ≤ d * d := by exact_mod_cast h2
  have e : ∀ y : ℝ, 10 ^ 24 * √y = √(10 ^ 48 * y) := fun y => by
    rw [Real.sqrt_mul (by positivity), show (10 : ℝ) ^ 48 = (10 ^ 24) ^ 2 by norm_num,
      Real.sqrt_sq (by positivity)]
  rw [e]
  exact ⟨Real.le_sqrt_of_sq_le (by nlinarith [h.1]),
    Real.sqrt_le_iff.2 ⟨by positivity, by nlinarith [h.2]⟩⟩

theorem series_seven :
    (1999849403678289081843290 : Nat) ≤ 10 ^ 24 * sqrtTwoAddSeries 0 7 ∧
      10 ^ 24 * sqrtTwoAddSeries 0 7 ≤ (1999849403678289081843296 : Nat) := by
  have s0 : ((0 : Nat) : ℝ) ≤ 10 ^ 24 * sqrtTwoAddSeries 0 0 ∧
      10 ^ 24 * sqrtTwoAddSeries 0 0 ≤ ((0 : Nat) : ℝ) := by simp
  have s1 := series_step 0 _ _ 1414213562373095048801686 1414213562373095048801691 s0
    (by norm_num) (by norm_num)
  have s2 := series_step 1 _ _ 1847759065022573512256363 1847759065022573512256370 s1
    (by norm_num) (by norm_num)
  have s3 := series_step 2 _ _ 1961570560806460898252361 1961570560806460898252368 s2
    (by norm_num) (by norm_num)
  have s4 := series_step 3 _ _ 1990369453344393772489670 1990369453344393772489676 s3
    (by norm_num) (by norm_num)
  have s5 := series_step 4 _ _ 1997590912410344785429540 1997590912410344785429547 s4
    (by norm_num) (by norm_num)
  have s6 := series_step 5 _ _ 1999397637392408440231528 1999397637392408440231534 s5
    (by norm_num) (by norm_num)
  exact series_step 6 _ _ _ _ s6 (by norm_num) (by norm_num)

theorem cos_turn : |2 ^ 40 * cos (π / 512) - 1099490929780| ≤ 1 := by
  have h := series_step 7 _ _ 1999962350565202285313978 1999962350565202285313983 series_seven
    (by norm_num) (by norm_num)
  rw [show (512 : ℝ) = 2 ^ (8 + 1) by norm_num, cos_pi_over_two_pow, abs_le]
  norm_num at h ⊢
  constructor <;> linarith [h.1, h.2]

theorem sin_turn : |2 ^ 40 * sin (π / 512) - 6746476518| ≤ 1 := by
  obtain ⟨h1, h2⟩ := series_seven
  rw [show (512 : ℝ) = 2 ^ (7 + 2) by norm_num, sin_pi_over_two_pow_succ]
  generalize sqrtTwoAddSeries 0 7 = x at *
  norm_num at h1 h2
  have a : (6746476517.1 : ℝ) / 2 ^ 39 ≤ √(2 - x) :=
    Real.le_sqrt_of_sq_le (by norm_num; linarith)
  have b : √(2 - x) ≤ (6746476518.9 : ℝ) / 2 ^ 39 :=
    Real.sqrt_le_iff.2 ⟨by positivity, by norm_num; linarith⟩
  rw [abs_le]
  norm_num at a b ⊢
  constructor <;> linarith

/-! ### Turns -/

/-- `m` turns by pi / 512, in units of 2^-40, each rounded down. -/
def turned : Nat → Int × Int
  | 0 => (2 ^ 40, 0)
  | m + 1 =>
    ((1099490929780 * (turned m).1 - 6746476518 * (turned m).2) / 2 ^ 40,
      (1099490929780 * (turned m).2 + 6746476518 * (turned m).1) / 2 ^ 40)

/-- The turns stay within 6 units for each of the exact circle. -/
theorem turned_near (m : Nat) (hm : m ≤ 256) :
    ‖(2 ^ 40 : ℂ) * Complex.exp (m * (π / 512 : ℝ) * Complex.I) -
      ((turned m).1 + (turned m).2 * Complex.I)‖ ≤ 6 * m := by
  induction m with
  | zero => norm_num [turned]
  | succ m ih =>
    have ih := ih (by omega)
    set z : ℂ := (turned m).1 + (turned m).2 * Complex.I with hz
    set u : ℂ := Complex.exp ((π / 512 : ℝ) * Complex.I) with hu
    set w : ℂ := 1099490929780 + 6746476518 * Complex.I with hw
    have hu1 : ‖u‖ = 1 := Complex.norm_exp_ofReal_mul_I _
    have hp : ∀ n : ℕ, Complex.exp (n * (π / 512 : ℝ) * Complex.I) = u ^ n := fun n => by
      rw [hu, ← Complex.exp_nat_mul]; ring_nf
    rw [hp] at ih ⊢
    -- the turn itself
    have hd : ‖2 ^ 40 * u - w‖ ≤ 2 := by
      have e : 2 ^ 40 * u - w = ((2 ^ 40 * cos (π / 512) - 1099490929780 : ℝ) : ℂ) +
          ((2 ^ 40 * sin (π / 512) - 6746476518 : ℝ) : ℂ) * Complex.I := by
        rw [hu, Complex.exp_mul_I, ← Complex.ofReal_cos, ← Complex.ofReal_sin, hw]
        push_cast; ring
      rw [e]
      refine (norm_add_le _ _).trans ?_
      rw [norm_mul, Complex.norm_I, mul_one, Complex.norm_real, Complex.norm_real]
      have := cos_turn
      have := sin_turn
      simp only [Real.norm_eq_abs] at *
      linarith
    -- the rounding of the turn
    obtain ⟨r, hr, hs⟩ : ∃ r : ℂ, ‖r‖ ≤ 2 ∧
        ((turned (m + 1)).1 + (turned (m + 1)).2 * Complex.I : ℂ) = z * w / 2 ^ 40 - r := by
      have half : ∀ x : Int, ∃ y : ℝ, |y| ≤ 1 ∧ ((x / 2 ^ 40 : Int) : ℝ) = x / 2 ^ 40 - y := by
        intro x
        refine ⟨x / 2 ^ 40 - (x / 2 ^ 40 : Int), ?_, by ring⟩
        have h1 := Int.emod_add_mul_ediv x (2 ^ 40)
        have h2 := Int.emod_nonneg x (b := 2 ^ 40) (by norm_num)
        have h3 := Int.emod_lt_of_pos x (b := 2 ^ 40) (by norm_num)
        have h1' : ((x % 2 ^ 40 : Int) : ℝ) + 2 ^ 40 * ((x / 2 ^ 40 : Int) : ℝ) = x := by
          exact_mod_cast h1
        have h2' : (0 : ℝ) ≤ (x % 2 ^ 40 : Int) := by exact_mod_cast h2
        have h3' : ((x % 2 ^ 40 : Int) : ℝ) < 2 ^ 40 := by exact_mod_cast h3
        have e : (x : ℝ) / 2 ^ 40 - (x / 2 ^ 40 : Int) = ((x % 2 ^ 40 : Int) : ℝ) / 2 ^ 40 := by
          rw [← h1']; ring
        rw [e, abs_of_nonneg (by positivity), div_le_one (by positivity)]
        exact h3'.le
      obtain ⟨y1, a1, b1⟩ := half (1099490929780 * (turned m).1 - 6746476518 * (turned m).2)
      obtain ⟨y2, a2, b2⟩ := half (1099490929780 * (turned m).2 + 6746476518 * (turned m).1)
      refine ⟨y1 + y2 * Complex.I, ?_, ?_⟩
      · refine (norm_add_le _ _).trans ?_
        rw [norm_mul, Complex.norm_I, mul_one, Complex.norm_real, Complex.norm_real]
        simp only [Real.norm_eq_abs]
        linarith
      · have c1 := congrArg (fun x : ℝ => (x : ℂ)) b1
        have c2 := congrArg (fun x : ℝ => (x : ℂ)) b2
        simp only [turned]
        push_cast at c1 c2 ⊢
        rw [c1, c2, hz, hw]
        linear_combination (-(6746476518 : ℂ) * (turned m).2 / 2 ^ 40) * Complex.I_sq
    rw [hs]
    have hz1 : ‖z‖ ≤ 2 ^ 41 := by
      have : ‖z‖ ≤ ‖2 ^ 40 * u ^ m‖ + ‖2 ^ 40 * u ^ m - z‖ := by
        have := norm_sub_le (2 ^ 40 * u ^ m) (2 ^ 40 * u ^ m - z)
        simpa using this
      have hn : ‖(2 ^ 40 : ℂ) * u ^ m‖ = 2 ^ 40 := by simp [hu1]
      have hm' : (m : ℝ) ≤ 256 := by exact_mod_cast (by omega : m ≤ 256)
      rw [hn] at this
      linarith
    have e : 2 ^ 40 * u ^ (m + 1) - (z * w / 2 ^ 40 - r) =
        (2 ^ 40 * u ^ m - z) * u + z * (2 ^ 40 * u - w) / 2 ^ 40 + r := by ring
    rw [e]
    have h1 : ‖(2 ^ 40 * u ^ m - z) * u‖ ≤ 6 * m := by rw [norm_mul, hu1, mul_one]; exact ih
    have h2 : ‖z * (2 ^ 40 * u - w) / 2 ^ 40‖ ≤ 4 := by
      rw [norm_div, norm_mul]
      have hn : ‖(2 ^ 40 : ℂ)‖ = 2 ^ 40 := by simp
      rw [hn, div_le_iff₀ (by positivity)]
      calc ‖z‖ * ‖2 ^ 40 * u - w‖ ≤ 2 ^ 41 * 2 := by gcongr
        _ = _ := by norm_num
    have h3 := norm_add₃_le (a := (2 ^ 40 * u ^ m - z) * u) (b := z * (2 ^ 40 * u - w) / 2 ^ 40)
      (c := r)
    calc _ ≤ _ := h3
      _ ≤ 6 * m + 4 + 2 := add_le_add (add_le_add h1 h2) hr
      _ = _ := by push_cast; ring

theorem cos_near_turned (m : Nat) (hm : m ≤ 256) :
    |2 ^ 40 * cos (2 * π * m / 1024) - (turned m).1| ≤ 1536 := by
  have h := (Complex.abs_re_le_norm _).trans (turned_near m hm)
  have e : Complex.exp (m * (π / 512 : ℝ) * Complex.I) =
      (cos (2 * π * m / 1024) : ℝ) + (Real.sin (2 * π * m / 1024) : ℝ) * Complex.I := by
    rw [show (m * (π / 512 : ℝ) : ℂ) = ((2 * π * m / 1024 : ℝ) : ℂ) by push_cast; ring,
      Complex.exp_mul_I, Complex.ofReal_cos, Complex.ofReal_sin]
  have r : ((2 ^ 40 : ℂ) * Complex.exp (m * (π / 512 : ℝ) * Complex.I) -
      ((turned m).1 + (turned m).2 * Complex.I)).re =
        2 ^ 40 * cos (2 * π * m / 1024) - (turned m).1 := by
    rw [e, show (2 ^ 40 : ℂ) = ((2 ^ 40 : ℝ) : ℂ) by push_cast; rfl]
    generalize cos (2 * π * m / 1024) = c
    generalize Real.sin (2 * π * m / 1024) = d
    simp only [Complex.sub_re, Complex.add_re, Complex.re_ofReal_mul, Complex.ofReal_re,
      Complex.mul_I_re, Complex.ofReal_im, Complex.intCast_re, Complex.intCast_im]
    ring
  rw [r] at h
  have : (m : ℝ) ≤ 256 := by exact_mod_cast hm
  linarith

/-! ### The tables -/

theorem cosQuarter_near_turned : ∀ m ∈ List.range 257,
    ((cosQuarter.getD m 0 : Int) * 2 ^ 40 - 32767 * (turned m).1).natAbs + 32767 * 1536 < 2 ^ 39 := by
  decide +kernel

theorem cosQuarter_is_rounded (m : Nat) (hm : m ≤ 256) :
    |(cosQuarter.getD m 0 : ℝ) - 32767 * cos (2 * π * m / 1024)| < 1 / 2 := by
  have h := cosQuarter_near_turned m (List.mem_range.2 (by omega))
  have h' : |(cosQuarter.getD m 0 : Int) * 2 ^ 40 - 32767 * (turned m).1| + 32767 * 1536 <
      2 ^ 39 := by rw [Int.abs_eq_natAbs]; omega
  have h1 : |(cosQuarter.getD m 0 : ℝ) * 2 ^ 40 - 32767 * (turned m).1| + 32767 * 1536 <
      2 ^ 39 := by exact_mod_cast h'
  have h2 := cos_near_turned m hm
  generalize cos (2 * π * m / 1024) = c at *
  generalize ((turned m).1 : ℝ) = t at *
  generalize (cosQuarter.getD m 0 : ℝ) = q at *
  rw [abs_lt]
  have h3 := abs_lt.1 (show |q * 2 ^ 40 - 32767 * t| < 2 ^ 39 - 32767 * 1536 by linarith)
  have h4 := abs_le.1 h2
  constructor <;> linarith [h3.1, h3.2, h4.1, h4.2]

/-- C[m] is the integer nearest to 32,767 cos(2 pi m / 1,024) (R100). -/
theorem cosTable_is_rounded (m : Nat) (hm : m < 1024) :
    |(cosTable m : ℝ) - 32767 * cos (2 * π * m / 1024)| < 1 / 2 := by
  unfold cosTable
  split
  · simpa using cosQuarter_is_rounded m (by assumption)
  split
  · have h := cosQuarter_is_rounded (512 - m) (by omega)
    have e : 2 * π * ((512 - m : ℕ) : ℝ) / 1024 = π - 2 * π * m / 1024 := by
      rw [Nat.cast_sub (by assumption)]; push_cast; ring
    rw [e, cos_pi_sub, ← abs_neg] at h
    convert h using 2
    push_cast; ring
  split
  · have h := cosQuarter_is_rounded (m - 512) (by omega)
    have e : 2 * π * ((m - 512 : ℕ) : ℝ) / 1024 = 2 * π * m / 1024 - π := by
      rw [Nat.cast_sub (by omega)]; push_cast; ring
    rw [e, cos_sub_pi, ← abs_neg] at h
    convert h using 2
    push_cast; ring
  · have h := cosQuarter_is_rounded (1024 - m) (by omega)
    have e : 2 * π * ((1024 - m : ℕ) : ℝ) / 1024 = 2 * π - 2 * π * m / 1024 := by
      rw [Nat.cast_sub (by omega)]; push_cast; ring
    rw [e, cos_two_pi_sub] at h
    simpa using h

/-- S[m] is the integer nearest to 32,767 sin(2 pi m / 1,024) (R100). -/
theorem sinTable_is_rounded (m : Nat) (hm : m < 1024) :
    |(sinTable m : ℝ) - 32767 * sin (2 * π * m / 1024)| < 1 / 2 := by
  have h := cosTable_is_rounded ((m + 768) % 1024) (by omega)
  have e : cos (2 * π * (((m + 768) % 1024 : ℕ) : ℝ) / 1024) = sin (2 * π * m / 1024) := by
    rw [← cos_sub_pi_div_two]
    rcases Nat.lt_or_ge m 256 with h | h
    · rw [Nat.mod_eq_of_lt (by omega), ← cos_sub_two_pi]
      congr 1; push_cast; ring
    · rw [show (m + 768) % 1024 = m - 256 by omega, Nat.cast_sub h]
      congr 1; push_cast; ring
  rwa [e] at h

end Sys2Proof.Machine
end

