-- ==== Sys2Proof/Laws/Memory.lean ====
section
/-!
SUPPORT. The store array keeps its canonical form: every operation on it, and the reset state. What a
write or an erase leaves every byte reading.
-/

-- One declaration at a time: many waiting threads would pass the memory limit of the check.
set_option Elab.async false
namespace Sys2Proof.Machine.Memory

/-- The canonical form, element by element. -/
theorem wf_iff (m : Memory) :
    wf m = true ↔ m.Pairwise (fun x y => x.1 < y.1) ∧ ∀ c ∈ m, c.2 ≠ erasedByte := by
  induction m with
  | nil => simp [wf]
  | cons x xs ih =>
    cases xs with
    | nil => cases x; simp [wf]
    | cons y ys =>
      obtain ⟨a, b⟩ := x
      obtain ⟨a', b'⟩ := y
      rw [wf, Bool.and_eq_true, Bool.and_eq_true, ih]
      simp only [List.pairwise_cons, List.mem_cons, decide_eq_true_eq, bne_iff_ne, ne_eq]
      constructor
      · rintro ⟨⟨h1, h2⟩, ⟨h3, h4⟩, h5⟩
        refine ⟨⟨?_, h3, h4⟩, ?_⟩
        · rintro c (rfl | hc)
          · exact h1
          · exact Nat.lt_trans h1 (h3 c hc)
        · rintro c (rfl | hc)
          · exact h2
          · exact h5 c hc
      · rintro ⟨⟨h1, h3, h4⟩, h5⟩
        exact ⟨⟨h1 _ (.inl rfl), h5 _ (.inl rfl)⟩, ⟨h3, h4⟩, fun c hc => h5 c (.inr hc)⟩

theorem mem_cells (a : Nat) (bs : List Byte) :
    ∀ c ∈ cells a bs, a ≤ c.1 ∧ c.1 < a + bs.length ∧ c.2 ≠ erasedByte := by
  induction bs generalizing a with
  | nil => simp [cells]
  | cons b bs ih =>
    intro c hc
    have := ih (a + 1)
    grind [cells]

theorem cells_sorted (a : Nat) (bs : List Byte) :
    (cells a bs).Pairwise (fun x y => x.1 < y.1) := by
  induction bs generalizing a with
  | nil => simp [cells]
  | cons b bs ih =>
    unfold cells
    split
    · exact ih _
    · refine List.pairwise_cons.2 ⟨fun c hc => ?_, ih _⟩
      have := (mem_cells (a + 1) bs c hc).1
      simp only
      omega

theorem wf_nil : wf [] = true := rfl

theorem wf_filter (p : Host.Cell → Bool) (m : Memory) (h : wf m = true) : wf (m.filter p) = true := by
  rw [wf_iff] at *
  exact ⟨h.1.filter p, fun c hc => h.2 c ((List.mem_filter.1 hc).1)⟩

/-- A write keeps the canonical form. -/
theorem wf_write (m : Memory) (a : Nat) (bs : List Byte) (h : wf m = true) :
    wf (write m a bs) = true := by
  rw [wf_iff] at *
  have hc := mem_cells a bs
  refine ⟨?_, ?_⟩
  · unfold write
    rw [List.pairwise_append, List.pairwise_append]
    refine ⟨h.1.filter _, ⟨cells_sorted a bs, h.1.filter _, ?_⟩, ?_⟩
    · intro x hx y hy
      have := hc x hx
      simp only [List.mem_filter, decide_eq_true_eq] at hy
      omega
    · intro x hx y hy
      simp only [List.mem_filter, decide_eq_true_eq] at hx
      rcases List.mem_append.1 hy with hy | hy
      · have := hc y hy; omega
      · simp only [List.mem_filter, decide_eq_true_eq] at hy; omega
  · intro c hm
    simp only [write, List.mem_append, List.mem_filter] at hm
    rcases hm with hm | hm | hm
    · exact h.2 c hm.1
    · exact (hc c hm).2.2
    · exact h.2 c hm.1

/-- An erase keeps the canonical form. -/
theorem wf_erase (m : Memory) (a n : Nat) (h : wf m = true) : wf (erase m a n) = true := by
  rw [wf_iff] at *
  refine ⟨?_, ?_⟩
  · unfold erase
    rw [List.pairwise_append]
    refine ⟨h.1.filter _, h.1.filter _, ?_⟩
    intro x hx y hy
    simp only [List.mem_filter, decide_eq_true_eq] at hx hy
    omega
  · intro c hm
    simp only [erase, List.mem_append, List.mem_filter] at hm
    rcases hm with hm | hm <;> exact h.2 c hm.1

/-- The reset state's array has the canonical form. -/
theorem wf_reset : wf State.reset.store.array = true := rfl

/-! ### Reading back -/

theorem read_append (m n : Memory) (a : Nat) (h : ∀ c ∈ m, c.1 ≠ a) : read (m ++ n) a = read n a := by
  induction m with
  | nil => rfl
  | cons c m ih =>
    obtain ⟨k, b⟩ := c
    rw [List.cons_append, read, if_neg (h (k, b) (.head _))]
    exact ih fun c hc => h c (.tail _ hc)

theorem read_append_none (m n : Memory) (a : Nat) (h : ∀ c ∈ n, c.1 ≠ a) :
    read (m ++ n) a = read m a := by
  induction m with
  | nil =>
    induction n with
    | nil => rfl
    | cons c n ih =>
      obtain ⟨k, b⟩ := c
      have := ih fun c hc => h c (.tail _ hc)
      have hk : k ≠ a := h (k, b) (.head _)
      simpa [read, hk] using this
  | cons c m ih =>
    obtain ⟨k, b⟩ := c
    rw [List.cons_append, read, read, ih]

theorem read_filter (p : Host.Cell → Bool) (m : Memory) (a : Nat) (h : ∀ b, p (a, b) = true) :
    read (m.filter p) a = read m a := by
  induction m with
  | nil => rfl
  | cons c m ih =>
    obtain ⟨k, b⟩ := c
    by_cases e : k = a
    · subst e; simp [h, read]
    · by_cases q : p (k, b) = true
      · simp [q, read, e, ih]
      · simp [q, read, e, ih]

theorem read_cells (bs : List Byte) : ∀ (a i : Nat) (b : Byte), bs[i]? = some b →
    read (cells a bs) (a + i) = b := by
  induction bs with
  | nil => simp
  | cons x xs ih =>
    intro a i b h
    cases i with
    | zero =>
      obtain rfl : x = b := by simpa using h
      unfold cells
      split
      · rename_i e
        have := read_append_none [] (cells (a + 1) xs) a fun c hc => by
          have := (mem_cells (a + 1) xs c hc).1; omega
        rw [Nat.add_zero]; exact this.trans e.symm
      · simp [read]
    | succ i =>
      have := ih (a + 1) i b (by simpa using h)
      rw [show a + 1 + i = a + (i + 1) by omega] at this
      unfold cells
      split
      · exact this
      · rw [read, if_neg (by omega)]; exact this

/-- A byte written is read back. -/
theorem read_write (m : Memory) (a : Nat) (bs : List Byte) (i : Nat) (b : Byte)
    (h : bs[i]? = some b) : read (write m a bs) (a + i) = b := by
  have hi : i < bs.length := (List.getElem?_eq_some_iff.1 h).1
  unfold write
  rw [read_append _ _ _ (fun c hc => by have := of_decide_eq_true (List.mem_filter.1 hc).2; omega),
    read_append_none _ _ _ (fun c hc => by have := of_decide_eq_true (List.mem_filter.1 hc).2; omega)]
  exact read_cells bs a i b h

/-- A write leaves every other byte. -/
theorem read_write_other (m : Memory) (a : Nat) (bs : List Byte) (x : Nat)
    (h : x < a ∨ a + bs.length ≤ x) : read (write m a bs) x = read m x := by
  have hc : ∀ c ∈ cells a bs, c.1 ≠ x := fun c hc => by
    have := mem_cells a bs c hc; omega
  unfold write
  rcases h with h | h
  · rw [read_append_none, read_filter _ _ _ fun _ => decide_eq_true h]
    intro c hm
    rcases List.mem_append.1 hm with hm | hm
    · exact hc c hm
    · have := of_decide_eq_true (List.mem_filter.1 hm).2; omega
  · rw [read_append _ _ _ (fun c hm => by have := of_decide_eq_true (List.mem_filter.1 hm).2; omega),
      read_append _ _ _ hc, read_filter _ _ _ fun _ => decide_eq_true h]

/-- An erased byte reads 0xFF. -/
theorem read_erase (m : Memory) (a n x : Nat) (h : a ≤ x) (k : x < a + n) :
    read (erase m a n) x = erasedByte := by
  unfold erase
  rw [read_append _ _ _ (fun c hm => by have := of_decide_eq_true (List.mem_filter.1 hm).2; omega)]
  have := read_append_none [] (m.filter fun c => a + n ≤ c.1) x fun c hm => by
    have := of_decide_eq_true (List.mem_filter.1 hm).2; omega
  rwa [List.nil_append] at this

/-- An erase leaves every other byte. -/
theorem read_erase_other (m : Memory) (a n x : Nat) (h : x < a ∨ a + n ≤ x) :
    read (erase m a n) x = read m x := by
  unfold erase
  rcases h with h | h
  · rw [read_append_none, read_filter _ _ _ fun _ => decide_eq_true h]
    intro c hm
    have := of_decide_eq_true (List.mem_filter.1 hm).2; omega
  · rw [read_append _ _ _ (fun c hm => by have := of_decide_eq_true (List.mem_filter.1 hm).2; omega),
      read_filter _ _ _ fun _ => decide_eq_true h]

end Sys2Proof.Machine.Memory
end

