-- ==== Sys2Proof/Laws/State.lean ====
section
/-!
SUPPORT. One lemma for each field under each shared update, so that no proof unfolds a record update.
-/

-- One declaration at a time: many waiting threads would pass the memory limit of the check.
set_option Elab.async false
namespace Sys2Proof.Machine

/-! ### `setBus` -/

@[simp] theorem setBus_held (f : Bus → Bus) (s : State) :
    (setBus f s).held = s.held := rfl

@[simp] theorem setBus_straps (f : Bus → Bus) (s : State) :
    (setBus f s).straps = s.straps := rfl

@[simp] theorem setBus_clock (f : Bus → Bus) (s : State) :
    (setBus f s).clock = s.clock := rfl

@[simp] theorem setBus_bus (f : Bus → Bus) (s : State) :
    (setBus f s).bus = f s.bus := rfl

@[simp] theorem setBus_roster (f : Bus → Bus) (s : State) :
    (setBus f s).roster = s.roster := rfl

@[simp] theorem setBus_receive (f : Bus → Bus) (s : State) :
    (setBus f s).receive = s.receive := rfl

@[simp] theorem setBus_tracker (f : Bus → Bus) (s : State) :
    (setBus f s).tracker = s.tracker := rfl

@[simp] theorem setBus_rotation (f : Bus → Bus) (s : State) :
    (setBus f s).rotation = s.rotation := rfl

@[simp] theorem setBus_sites (f : Bus → Bus) (s : State) :
    (setBus f s).sites = s.sites := rfl

@[simp] theorem setBus_survey (f : Bus → Bus) (s : State) :
    (setBus f s).survey = s.survey := rfl

@[simp] theorem setBus_sag (f : Bus → Bus) (s : State) :
    (setBus f s).sag = s.sag := rfl

@[simp] theorem setBus_capture (f : Bus → Bus) (s : State) :
    (setBus f s).capture = s.capture := rfl

@[simp] theorem setBus_harm (f : Bus → Bus) (s : State) :
    (setBus f s).harm = s.harm := rfl

@[simp] theorem setBus_store (f : Bus → Bus) (s : State) :
    (setBus f s).store = s.store := rfl

@[simp] theorem setBus_print (f : Bus → Bus) (s : State) :
    (setBus f s).print = s.print := rfl

@[simp] theorem setBus_supply (f : Bus → Bus) (s : State) :
    (setBus f s).supply = s.supply := rfl

@[simp] theorem setBus_link (f : Bus → Bus) (s : State) :
    (setBus f s).link = s.link := rfl

@[simp] theorem setBus_free (f : Bus → Bus) (s : State) :
    (setBus f s).free = s.free := rfl

@[simp] theorem setBus_pending (f : Bus → Bus) (s : State) :
    (setBus f s).pending = s.pending := rfl

/-! ### `setJoin` -/

@[simp] theorem setJoin_held (j : Option Join) (s : State) :
    (setJoin j s).held = s.held := rfl

@[simp] theorem setJoin_straps (j : Option Join) (s : State) :
    (setJoin j s).straps = s.straps := rfl

@[simp] theorem setJoin_clock (j : Option Join) (s : State) :
    (setJoin j s).clock = s.clock := rfl

@[simp] theorem setJoin_bus (j : Option Join) (s : State) :
    (setJoin j s).bus = { s.bus with join := j } := rfl

@[simp] theorem setJoin_roster (j : Option Join) (s : State) :
    (setJoin j s).roster = s.roster := rfl

@[simp] theorem setJoin_receive (j : Option Join) (s : State) :
    (setJoin j s).receive = s.receive := rfl

@[simp] theorem setJoin_tracker (j : Option Join) (s : State) :
    (setJoin j s).tracker = s.tracker := rfl

@[simp] theorem setJoin_rotation (j : Option Join) (s : State) :
    (setJoin j s).rotation = s.rotation := rfl

@[simp] theorem setJoin_sites (j : Option Join) (s : State) :
    (setJoin j s).sites = s.sites := rfl

@[simp] theorem setJoin_survey (j : Option Join) (s : State) :
    (setJoin j s).survey = s.survey := rfl

@[simp] theorem setJoin_sag (j : Option Join) (s : State) :
    (setJoin j s).sag = s.sag := rfl

@[simp] theorem setJoin_capture (j : Option Join) (s : State) :
    (setJoin j s).capture = s.capture := rfl

@[simp] theorem setJoin_harm (j : Option Join) (s : State) :
    (setJoin j s).harm = s.harm := rfl

@[simp] theorem setJoin_store (j : Option Join) (s : State) :
    (setJoin j s).store = s.store := rfl

@[simp] theorem setJoin_print (j : Option Join) (s : State) :
    (setJoin j s).print = s.print := rfl

@[simp] theorem setJoin_supply (j : Option Join) (s : State) :
    (setJoin j s).supply = s.supply := rfl

@[simp] theorem setJoin_link (j : Option Join) (s : State) :
    (setJoin j s).link = s.link := rfl

@[simp] theorem setJoin_free (j : Option Join) (s : State) :
    (setJoin j s).free = s.free := rfl

@[simp] theorem setJoin_pending (j : Option Join) (s : State) :
    (setJoin j s).pending = s.pending := rfl

/-! ### `setCtrl` -/

@[simp] theorem setCtrl_held (c : ControlWord) (s : State) :
    (setCtrl c s).held = s.held := rfl

@[simp] theorem setCtrl_straps (c : ControlWord) (s : State) :
    (setCtrl c s).straps = s.straps := rfl

@[simp] theorem setCtrl_clock (c : ControlWord) (s : State) :
    (setCtrl c s).clock = s.clock := rfl

@[simp] theorem setCtrl_bus (c : ControlWord) (s : State) :
    (setCtrl c s).bus = { s.bus with ctrl := c } := rfl

@[simp] theorem setCtrl_roster (c : ControlWord) (s : State) :
    (setCtrl c s).roster = s.roster := rfl

@[simp] theorem setCtrl_receive (c : ControlWord) (s : State) :
    (setCtrl c s).receive = s.receive := rfl

@[simp] theorem setCtrl_tracker (c : ControlWord) (s : State) :
    (setCtrl c s).tracker = s.tracker := rfl

@[simp] theorem setCtrl_rotation (c : ControlWord) (s : State) :
    (setCtrl c s).rotation = s.rotation := rfl

@[simp] theorem setCtrl_sites (c : ControlWord) (s : State) :
    (setCtrl c s).sites = s.sites := rfl

@[simp] theorem setCtrl_survey (c : ControlWord) (s : State) :
    (setCtrl c s).survey = s.survey := rfl

@[simp] theorem setCtrl_sag (c : ControlWord) (s : State) :
    (setCtrl c s).sag = s.sag := rfl

@[simp] theorem setCtrl_capture (c : ControlWord) (s : State) :
    (setCtrl c s).capture = s.capture := rfl

@[simp] theorem setCtrl_harm (c : ControlWord) (s : State) :
    (setCtrl c s).harm = s.harm := rfl

@[simp] theorem setCtrl_store (c : ControlWord) (s : State) :
    (setCtrl c s).store = s.store := rfl

@[simp] theorem setCtrl_print (c : ControlWord) (s : State) :
    (setCtrl c s).print = s.print := rfl

@[simp] theorem setCtrl_supply (c : ControlWord) (s : State) :
    (setCtrl c s).supply = s.supply := rfl

@[simp] theorem setCtrl_link (c : ControlWord) (s : State) :
    (setCtrl c s).link = s.link := rfl

@[simp] theorem setCtrl_free (c : ControlWord) (s : State) :
    (setCtrl c s).free = s.free := rfl

@[simp] theorem setCtrl_pending (c : ControlWord) (s : State) :
    (setCtrl c s).pending = s.pending := rfl

/-! ### `modifyEntry` -/

@[simp] theorem modifyEntry_held (f : RosterEntry → RosterEntry) (slot : Nat) (s : State) :
    (modifyEntry f slot s).held = s.held := rfl

@[simp] theorem modifyEntry_straps (f : RosterEntry → RosterEntry) (slot : Nat) (s : State) :
    (modifyEntry f slot s).straps = s.straps := rfl

@[simp] theorem modifyEntry_clock (f : RosterEntry → RosterEntry) (slot : Nat) (s : State) :
    (modifyEntry f slot s).clock = s.clock := rfl

@[simp] theorem modifyEntry_bus (f : RosterEntry → RosterEntry) (slot : Nat) (s : State) :
    (modifyEntry f slot s).bus = s.bus := rfl

@[simp] theorem modifyEntry_roster (f : RosterEntry → RosterEntry) (slot : Nat) (s : State) :
    (modifyEntry f slot s).roster = updateAt f (slot - 1) s.roster := rfl

@[simp] theorem modifyEntry_receive (f : RosterEntry → RosterEntry) (slot : Nat) (s : State) :
    (modifyEntry f slot s).receive = s.receive := rfl

@[simp] theorem modifyEntry_tracker (f : RosterEntry → RosterEntry) (slot : Nat) (s : State) :
    (modifyEntry f slot s).tracker = s.tracker := rfl

@[simp] theorem modifyEntry_rotation (f : RosterEntry → RosterEntry) (slot : Nat) (s : State) :
    (modifyEntry f slot s).rotation = s.rotation := rfl

@[simp] theorem modifyEntry_sites (f : RosterEntry → RosterEntry) (slot : Nat) (s : State) :
    (modifyEntry f slot s).sites = s.sites := rfl

@[simp] theorem modifyEntry_survey (f : RosterEntry → RosterEntry) (slot : Nat) (s : State) :
    (modifyEntry f slot s).survey = s.survey := rfl

@[simp] theorem modifyEntry_sag (f : RosterEntry → RosterEntry) (slot : Nat) (s : State) :
    (modifyEntry f slot s).sag = s.sag := rfl

@[simp] theorem modifyEntry_capture (f : RosterEntry → RosterEntry) (slot : Nat) (s : State) :
    (modifyEntry f slot s).capture = s.capture := rfl

@[simp] theorem modifyEntry_harm (f : RosterEntry → RosterEntry) (slot : Nat) (s : State) :
    (modifyEntry f slot s).harm = s.harm := rfl

@[simp] theorem modifyEntry_store (f : RosterEntry → RosterEntry) (slot : Nat) (s : State) :
    (modifyEntry f slot s).store = s.store := rfl

@[simp] theorem modifyEntry_print (f : RosterEntry → RosterEntry) (slot : Nat) (s : State) :
    (modifyEntry f slot s).print = s.print := rfl

@[simp] theorem modifyEntry_supply (f : RosterEntry → RosterEntry) (slot : Nat) (s : State) :
    (modifyEntry f slot s).supply = s.supply := rfl

@[simp] theorem modifyEntry_link (f : RosterEntry → RosterEntry) (slot : Nat) (s : State) :
    (modifyEntry f slot s).link = s.link := rfl

@[simp] theorem modifyEntry_free (f : RosterEntry → RosterEntry) (slot : Nat) (s : State) :
    (modifyEntry f slot s).free = s.free := rfl

@[simp] theorem modifyEntry_pending (f : RosterEntry → RosterEntry) (slot : Nat) (s : State) :
    (modifyEntry f slot s).pending = s.pending := rfl

/-! ### `modifyReceive` -/

@[simp] theorem modifyReceive_held (f : Receive → Receive) (slot : Nat) (s : State) :
    (modifyReceive f slot s).held = s.held := rfl

@[simp] theorem modifyReceive_straps (f : Receive → Receive) (slot : Nat) (s : State) :
    (modifyReceive f slot s).straps = s.straps := rfl

@[simp] theorem modifyReceive_clock (f : Receive → Receive) (slot : Nat) (s : State) :
    (modifyReceive f slot s).clock = s.clock := rfl

@[simp] theorem modifyReceive_bus (f : Receive → Receive) (slot : Nat) (s : State) :
    (modifyReceive f slot s).bus = s.bus := rfl

@[simp] theorem modifyReceive_roster (f : Receive → Receive) (slot : Nat) (s : State) :
    (modifyReceive f slot s).roster = s.roster := rfl

@[simp] theorem modifyReceive_receive (f : Receive → Receive) (slot : Nat) (s : State) :
    (modifyReceive f slot s).receive = updateAt f (slot - 1) s.receive := rfl

@[simp] theorem modifyReceive_tracker (f : Receive → Receive) (slot : Nat) (s : State) :
    (modifyReceive f slot s).tracker = s.tracker := rfl

@[simp] theorem modifyReceive_rotation (f : Receive → Receive) (slot : Nat) (s : State) :
    (modifyReceive f slot s).rotation = s.rotation := rfl

@[simp] theorem modifyReceive_sites (f : Receive → Receive) (slot : Nat) (s : State) :
    (modifyReceive f slot s).sites = s.sites := rfl

@[simp] theorem modifyReceive_survey (f : Receive → Receive) (slot : Nat) (s : State) :
    (modifyReceive f slot s).survey = s.survey := rfl

@[simp] theorem modifyReceive_sag (f : Receive → Receive) (slot : Nat) (s : State) :
    (modifyReceive f slot s).sag = s.sag := rfl

@[simp] theorem modifyReceive_capture (f : Receive → Receive) (slot : Nat) (s : State) :
    (modifyReceive f slot s).capture = s.capture := rfl

@[simp] theorem modifyReceive_harm (f : Receive → Receive) (slot : Nat) (s : State) :
    (modifyReceive f slot s).harm = s.harm := rfl

@[simp] theorem modifyReceive_store (f : Receive → Receive) (slot : Nat) (s : State) :
    (modifyReceive f slot s).store = s.store := rfl

@[simp] theorem modifyReceive_print (f : Receive → Receive) (slot : Nat) (s : State) :
    (modifyReceive f slot s).print = s.print := rfl

@[simp] theorem modifyReceive_supply (f : Receive → Receive) (slot : Nat) (s : State) :
    (modifyReceive f slot s).supply = s.supply := rfl

@[simp] theorem modifyReceive_link (f : Receive → Receive) (slot : Nat) (s : State) :
    (modifyReceive f slot s).link = s.link := rfl

@[simp] theorem modifyReceive_free (f : Receive → Receive) (slot : Nat) (s : State) :
    (modifyReceive f slot s).free = s.free := rfl

@[simp] theorem modifyReceive_pending (f : Receive → Receive) (slot : Nat) (s : State) :
    (modifyReceive f slot s).pending = s.pending := rfl

/-! ### `setTracker` -/

@[simp] theorem setTracker_held (f : Tracker → Tracker) (s : State) :
    (setTracker f s).held = s.held := rfl

@[simp] theorem setTracker_straps (f : Tracker → Tracker) (s : State) :
    (setTracker f s).straps = s.straps := rfl

@[simp] theorem setTracker_clock (f : Tracker → Tracker) (s : State) :
    (setTracker f s).clock = s.clock := rfl

@[simp] theorem setTracker_bus (f : Tracker → Tracker) (s : State) :
    (setTracker f s).bus = s.bus := rfl

@[simp] theorem setTracker_roster (f : Tracker → Tracker) (s : State) :
    (setTracker f s).roster = s.roster := rfl

@[simp] theorem setTracker_receive (f : Tracker → Tracker) (s : State) :
    (setTracker f s).receive = s.receive := rfl

@[simp] theorem setTracker_tracker (f : Tracker → Tracker) (s : State) :
    (setTracker f s).tracker = f s.tracker := rfl

@[simp] theorem setTracker_rotation (f : Tracker → Tracker) (s : State) :
    (setTracker f s).rotation = s.rotation := rfl

@[simp] theorem setTracker_sites (f : Tracker → Tracker) (s : State) :
    (setTracker f s).sites = s.sites := rfl

@[simp] theorem setTracker_survey (f : Tracker → Tracker) (s : State) :
    (setTracker f s).survey = s.survey := rfl

@[simp] theorem setTracker_sag (f : Tracker → Tracker) (s : State) :
    (setTracker f s).sag = s.sag := rfl

@[simp] theorem setTracker_capture (f : Tracker → Tracker) (s : State) :
    (setTracker f s).capture = s.capture := rfl

@[simp] theorem setTracker_harm (f : Tracker → Tracker) (s : State) :
    (setTracker f s).harm = s.harm := rfl

@[simp] theorem setTracker_store (f : Tracker → Tracker) (s : State) :
    (setTracker f s).store = s.store := rfl

@[simp] theorem setTracker_print (f : Tracker → Tracker) (s : State) :
    (setTracker f s).print = s.print := rfl

@[simp] theorem setTracker_supply (f : Tracker → Tracker) (s : State) :
    (setTracker f s).supply = s.supply := rfl

@[simp] theorem setTracker_link (f : Tracker → Tracker) (s : State) :
    (setTracker f s).link = s.link := rfl

@[simp] theorem setTracker_free (f : Tracker → Tracker) (s : State) :
    (setTracker f s).free = s.free := rfl

@[simp] theorem setTracker_pending (f : Tracker → Tracker) (s : State) :
    (setTracker f s).pending = s.pending := rfl

/-! ### `setRotation` -/

@[simp] theorem setRotation_held (site : Nat) (r : Rotation) (s : State) :
    (setRotation site r s).held = s.held := rfl

@[simp] theorem setRotation_straps (site : Nat) (r : Rotation) (s : State) :
    (setRotation site r s).straps = s.straps := rfl

@[simp] theorem setRotation_clock (site : Nat) (r : Rotation) (s : State) :
    (setRotation site r s).clock = s.clock := rfl

@[simp] theorem setRotation_bus (site : Nat) (r : Rotation) (s : State) :
    (setRotation site r s).bus = s.bus := rfl

@[simp] theorem setRotation_roster (site : Nat) (r : Rotation) (s : State) :
    (setRotation site r s).roster = s.roster := rfl

@[simp] theorem setRotation_receive (site : Nat) (r : Rotation) (s : State) :
    (setRotation site r s).receive = s.receive := rfl

@[simp] theorem setRotation_tracker (site : Nat) (r : Rotation) (s : State) :
    (setRotation site r s).tracker = s.tracker := rfl

@[simp] theorem setRotation_rotation (site : Nat) (r : Rotation) (s : State) :
    (setRotation site r s).rotation = updateAt (fun _ => r) site s.rotation := rfl

@[simp] theorem setRotation_sites (site : Nat) (r : Rotation) (s : State) :
    (setRotation site r s).sites = s.sites := rfl

@[simp] theorem setRotation_survey (site : Nat) (r : Rotation) (s : State) :
    (setRotation site r s).survey = s.survey := rfl

@[simp] theorem setRotation_sag (site : Nat) (r : Rotation) (s : State) :
    (setRotation site r s).sag = s.sag := rfl

@[simp] theorem setRotation_capture (site : Nat) (r : Rotation) (s : State) :
    (setRotation site r s).capture = s.capture := rfl

@[simp] theorem setRotation_harm (site : Nat) (r : Rotation) (s : State) :
    (setRotation site r s).harm = s.harm := rfl

@[simp] theorem setRotation_store (site : Nat) (r : Rotation) (s : State) :
    (setRotation site r s).store = s.store := rfl

@[simp] theorem setRotation_print (site : Nat) (r : Rotation) (s : State) :
    (setRotation site r s).print = s.print := rfl

@[simp] theorem setRotation_supply (site : Nat) (r : Rotation) (s : State) :
    (setRotation site r s).supply = s.supply := rfl

@[simp] theorem setRotation_link (site : Nat) (r : Rotation) (s : State) :
    (setRotation site r s).link = s.link := rfl

@[simp] theorem setRotation_free (site : Nat) (r : Rotation) (s : State) :
    (setRotation site r s).free = s.free := rfl

@[simp] theorem setRotation_pending (site : Nat) (r : Rotation) (s : State) :
    (setRotation site r s).pending = s.pending := rfl

/-! ### `modifySite` -/

@[simp] theorem modifySite_held (f : Site → Site) (site : Nat) (s : State) :
    (modifySite f site s).held = s.held := rfl

@[simp] theorem modifySite_straps (f : Site → Site) (site : Nat) (s : State) :
    (modifySite f site s).straps = s.straps := rfl

@[simp] theorem modifySite_clock (f : Site → Site) (site : Nat) (s : State) :
    (modifySite f site s).clock = s.clock := rfl

@[simp] theorem modifySite_bus (f : Site → Site) (site : Nat) (s : State) :
    (modifySite f site s).bus = s.bus := rfl

@[simp] theorem modifySite_roster (f : Site → Site) (site : Nat) (s : State) :
    (modifySite f site s).roster = s.roster := rfl

@[simp] theorem modifySite_receive (f : Site → Site) (site : Nat) (s : State) :
    (modifySite f site s).receive = s.receive := rfl

@[simp] theorem modifySite_tracker (f : Site → Site) (site : Nat) (s : State) :
    (modifySite f site s).tracker = s.tracker := rfl

@[simp] theorem modifySite_rotation (f : Site → Site) (site : Nat) (s : State) :
    (modifySite f site s).rotation = s.rotation := rfl

@[simp] theorem modifySite_sites (f : Site → Site) (site : Nat) (s : State) :
    (modifySite f site s).sites = updateAt f site s.sites := rfl

@[simp] theorem modifySite_survey (f : Site → Site) (site : Nat) (s : State) :
    (modifySite f site s).survey = s.survey := rfl

@[simp] theorem modifySite_sag (f : Site → Site) (site : Nat) (s : State) :
    (modifySite f site s).sag = s.sag := rfl

@[simp] theorem modifySite_capture (f : Site → Site) (site : Nat) (s : State) :
    (modifySite f site s).capture = s.capture := rfl

@[simp] theorem modifySite_harm (f : Site → Site) (site : Nat) (s : State) :
    (modifySite f site s).harm = s.harm := rfl

@[simp] theorem modifySite_store (f : Site → Site) (site : Nat) (s : State) :
    (modifySite f site s).store = s.store := rfl

@[simp] theorem modifySite_print (f : Site → Site) (site : Nat) (s : State) :
    (modifySite f site s).print = s.print := rfl

@[simp] theorem modifySite_supply (f : Site → Site) (site : Nat) (s : State) :
    (modifySite f site s).supply = s.supply := rfl

@[simp] theorem modifySite_link (f : Site → Site) (site : Nat) (s : State) :
    (modifySite f site s).link = s.link := rfl

@[simp] theorem modifySite_free (f : Site → Site) (site : Nat) (s : State) :
    (modifySite f site s).free = s.free := rfl

@[simp] theorem modifySite_pending (f : Site → Site) (site : Nat) (s : State) :
    (modifySite f site s).pending = s.pending := rfl

/-! ### `modifyMember` -/

@[simp] theorem modifyMember_held (f : Option Member → Option Member) (site role : Nat) (s : State) :
    (modifyMember f site role s).held = s.held := rfl

@[simp] theorem modifyMember_straps (f : Option Member → Option Member) (site role : Nat) (s : State) :
    (modifyMember f site role s).straps = s.straps := rfl

@[simp] theorem modifyMember_clock (f : Option Member → Option Member) (site role : Nat) (s : State) :
    (modifyMember f site role s).clock = s.clock := rfl

@[simp] theorem modifyMember_bus (f : Option Member → Option Member) (site role : Nat) (s : State) :
    (modifyMember f site role s).bus = s.bus := rfl

@[simp] theorem modifyMember_roster (f : Option Member → Option Member) (site role : Nat) (s : State) :
    (modifyMember f site role s).roster = s.roster := rfl

@[simp] theorem modifyMember_receive (f : Option Member → Option Member) (site role : Nat) (s : State) :
    (modifyMember f site role s).receive = s.receive := rfl

@[simp] theorem modifyMember_tracker (f : Option Member → Option Member) (site role : Nat) (s : State) :
    (modifyMember f site role s).tracker = s.tracker := rfl

@[simp] theorem modifyMember_rotation (f : Option Member → Option Member) (site role : Nat) (s : State) :
    (modifyMember f site role s).rotation = s.rotation := rfl

@[simp] theorem modifyMember_sites (f : Option Member → Option Member) (site role : Nat) (s : State) :
    (modifyMember f site role s).sites =
      updateAt (fun e => { e with members := updateAt f role e.members }) site s.sites := rfl

@[simp] theorem modifyMember_survey (f : Option Member → Option Member) (site role : Nat) (s : State) :
    (modifyMember f site role s).survey = s.survey := rfl

@[simp] theorem modifyMember_sag (f : Option Member → Option Member) (site role : Nat) (s : State) :
    (modifyMember f site role s).sag = s.sag := rfl

@[simp] theorem modifyMember_capture (f : Option Member → Option Member) (site role : Nat) (s : State) :
    (modifyMember f site role s).capture = s.capture := rfl

@[simp] theorem modifyMember_harm (f : Option Member → Option Member) (site role : Nat) (s : State) :
    (modifyMember f site role s).harm = s.harm := rfl

@[simp] theorem modifyMember_store (f : Option Member → Option Member) (site role : Nat) (s : State) :
    (modifyMember f site role s).store = s.store := rfl

@[simp] theorem modifyMember_print (f : Option Member → Option Member) (site role : Nat) (s : State) :
    (modifyMember f site role s).print = s.print := rfl

@[simp] theorem modifyMember_supply (f : Option Member → Option Member) (site role : Nat) (s : State) :
    (modifyMember f site role s).supply = s.supply := rfl

@[simp] theorem modifyMember_link (f : Option Member → Option Member) (site role : Nat) (s : State) :
    (modifyMember f site role s).link = s.link := rfl

@[simp] theorem modifyMember_free (f : Option Member → Option Member) (site role : Nat) (s : State) :
    (modifyMember f site role s).free = s.free := rfl

@[simp] theorem modifyMember_pending (f : Option Member → Option Member) (site role : Nat) (s : State) :
    (modifyMember f site role s).pending = s.pending := rfl

/-! ### `setSurvey` -/

@[simp] theorem setSurvey_held (f : Survey → Survey) (s : State) :
    (setSurvey f s).held = s.held := rfl

@[simp] theorem setSurvey_straps (f : Survey → Survey) (s : State) :
    (setSurvey f s).straps = s.straps := rfl

@[simp] theorem setSurvey_clock (f : Survey → Survey) (s : State) :
    (setSurvey f s).clock = s.clock := rfl

@[simp] theorem setSurvey_bus (f : Survey → Survey) (s : State) :
    (setSurvey f s).bus = s.bus := rfl

@[simp] theorem setSurvey_roster (f : Survey → Survey) (s : State) :
    (setSurvey f s).roster = s.roster := rfl

@[simp] theorem setSurvey_receive (f : Survey → Survey) (s : State) :
    (setSurvey f s).receive = s.receive := rfl

@[simp] theorem setSurvey_tracker (f : Survey → Survey) (s : State) :
    (setSurvey f s).tracker = s.tracker := rfl

@[simp] theorem setSurvey_rotation (f : Survey → Survey) (s : State) :
    (setSurvey f s).rotation = s.rotation := rfl

@[simp] theorem setSurvey_sites (f : Survey → Survey) (s : State) :
    (setSurvey f s).sites = s.sites := rfl

@[simp] theorem setSurvey_survey (f : Survey → Survey) (s : State) :
    (setSurvey f s).survey = f s.survey := rfl

@[simp] theorem setSurvey_sag (f : Survey → Survey) (s : State) :
    (setSurvey f s).sag = s.sag := rfl

@[simp] theorem setSurvey_capture (f : Survey → Survey) (s : State) :
    (setSurvey f s).capture = s.capture := rfl

@[simp] theorem setSurvey_harm (f : Survey → Survey) (s : State) :
    (setSurvey f s).harm = s.harm := rfl

@[simp] theorem setSurvey_store (f : Survey → Survey) (s : State) :
    (setSurvey f s).store = s.store := rfl

@[simp] theorem setSurvey_print (f : Survey → Survey) (s : State) :
    (setSurvey f s).print = s.print := rfl

@[simp] theorem setSurvey_supply (f : Survey → Survey) (s : State) :
    (setSurvey f s).supply = s.supply := rfl

@[simp] theorem setSurvey_link (f : Survey → Survey) (s : State) :
    (setSurvey f s).link = s.link := rfl

@[simp] theorem setSurvey_free (f : Survey → Survey) (s : State) :
    (setSurvey f s).free = s.free := rfl

@[simp] theorem setSurvey_pending (f : Survey → Survey) (s : State) :
    (setSurvey f s).pending = s.pending := rfl

/-! ### `modifySag` -/

@[simp] theorem modifySag_held (f : SagSite → SagSite) (site : Nat) (s : State) :
    (modifySag f site s).held = s.held := rfl

@[simp] theorem modifySag_straps (f : SagSite → SagSite) (site : Nat) (s : State) :
    (modifySag f site s).straps = s.straps := rfl

@[simp] theorem modifySag_clock (f : SagSite → SagSite) (site : Nat) (s : State) :
    (modifySag f site s).clock = s.clock := rfl

@[simp] theorem modifySag_bus (f : SagSite → SagSite) (site : Nat) (s : State) :
    (modifySag f site s).bus = s.bus := rfl

@[simp] theorem modifySag_roster (f : SagSite → SagSite) (site : Nat) (s : State) :
    (modifySag f site s).roster = s.roster := rfl

@[simp] theorem modifySag_receive (f : SagSite → SagSite) (site : Nat) (s : State) :
    (modifySag f site s).receive = s.receive := rfl

@[simp] theorem modifySag_tracker (f : SagSite → SagSite) (site : Nat) (s : State) :
    (modifySag f site s).tracker = s.tracker := rfl

@[simp] theorem modifySag_rotation (f : SagSite → SagSite) (site : Nat) (s : State) :
    (modifySag f site s).rotation = s.rotation := rfl

@[simp] theorem modifySag_sites (f : SagSite → SagSite) (site : Nat) (s : State) :
    (modifySag f site s).sites = s.sites := rfl

@[simp] theorem modifySag_survey (f : SagSite → SagSite) (site : Nat) (s : State) :
    (modifySag f site s).survey = s.survey := rfl

@[simp] theorem modifySag_sag (f : SagSite → SagSite) (site : Nat) (s : State) :
    (modifySag f site s).sag = { s.sag with sites := updateAt f site s.sag.sites } := rfl

@[simp] theorem modifySag_capture (f : SagSite → SagSite) (site : Nat) (s : State) :
    (modifySag f site s).capture = s.capture := rfl

@[simp] theorem modifySag_harm (f : SagSite → SagSite) (site : Nat) (s : State) :
    (modifySag f site s).harm = s.harm := rfl

@[simp] theorem modifySag_store (f : SagSite → SagSite) (site : Nat) (s : State) :
    (modifySag f site s).store = s.store := rfl

@[simp] theorem modifySag_print (f : SagSite → SagSite) (site : Nat) (s : State) :
    (modifySag f site s).print = s.print := rfl

@[simp] theorem modifySag_supply (f : SagSite → SagSite) (site : Nat) (s : State) :
    (modifySag f site s).supply = s.supply := rfl

@[simp] theorem modifySag_link (f : SagSite → SagSite) (site : Nat) (s : State) :
    (modifySag f site s).link = s.link := rfl

@[simp] theorem modifySag_free (f : SagSite → SagSite) (site : Nat) (s : State) :
    (modifySag f site s).free = s.free := rfl

@[simp] theorem modifySag_pending (f : SagSite → SagSite) (site : Nat) (s : State) :
    (modifySag f site s).pending = s.pending := rfl

/-! ### `modifyChannel` -/

@[simp] theorem modifyChannel_held (f : Channel → Channel) (site role : Nat) (s : State) :
    (modifyChannel f site role s).held = s.held := rfl

@[simp] theorem modifyChannel_straps (f : Channel → Channel) (site role : Nat) (s : State) :
    (modifyChannel f site role s).straps = s.straps := rfl

@[simp] theorem modifyChannel_clock (f : Channel → Channel) (site role : Nat) (s : State) :
    (modifyChannel f site role s).clock = s.clock := rfl

@[simp] theorem modifyChannel_bus (f : Channel → Channel) (site role : Nat) (s : State) :
    (modifyChannel f site role s).bus = s.bus := rfl

@[simp] theorem modifyChannel_roster (f : Channel → Channel) (site role : Nat) (s : State) :
    (modifyChannel f site role s).roster = s.roster := rfl

@[simp] theorem modifyChannel_receive (f : Channel → Channel) (site role : Nat) (s : State) :
    (modifyChannel f site role s).receive = s.receive := rfl

@[simp] theorem modifyChannel_tracker (f : Channel → Channel) (site role : Nat) (s : State) :
    (modifyChannel f site role s).tracker = s.tracker := rfl

@[simp] theorem modifyChannel_rotation (f : Channel → Channel) (site role : Nat) (s : State) :
    (modifyChannel f site role s).rotation = s.rotation := rfl

@[simp] theorem modifyChannel_sites (f : Channel → Channel) (site role : Nat) (s : State) :
    (modifyChannel f site role s).sites = s.sites := rfl

@[simp] theorem modifyChannel_survey (f : Channel → Channel) (site role : Nat) (s : State) :
    (modifyChannel f site role s).survey = s.survey := rfl

@[simp] theorem modifyChannel_sag (f : Channel → Channel) (site role : Nat) (s : State) :
    (modifyChannel f site role s).sag =
      { s.sag with sites := updateAt (fun g => { g with channels := updateAt f role g.channels }) site s.sag.sites } := rfl

@[simp] theorem modifyChannel_capture (f : Channel → Channel) (site role : Nat) (s : State) :
    (modifyChannel f site role s).capture = s.capture := rfl

@[simp] theorem modifyChannel_harm (f : Channel → Channel) (site role : Nat) (s : State) :
    (modifyChannel f site role s).harm = s.harm := rfl

@[simp] theorem modifyChannel_store (f : Channel → Channel) (site role : Nat) (s : State) :
    (modifyChannel f site role s).store = s.store := rfl

@[simp] theorem modifyChannel_print (f : Channel → Channel) (site role : Nat) (s : State) :
    (modifyChannel f site role s).print = s.print := rfl

@[simp] theorem modifyChannel_supply (f : Channel → Channel) (site role : Nat) (s : State) :
    (modifyChannel f site role s).supply = s.supply := rfl

@[simp] theorem modifyChannel_link (f : Channel → Channel) (site role : Nat) (s : State) :
    (modifyChannel f site role s).link = s.link := rfl

@[simp] theorem modifyChannel_free (f : Channel → Channel) (site role : Nat) (s : State) :
    (modifyChannel f site role s).free = s.free := rfl

@[simp] theorem modifyChannel_pending (f : Channel → Channel) (site role : Nat) (s : State) :
    (modifyChannel f site role s).pending = s.pending := rfl

/-! ### `modifyHarm` -/

@[simp] theorem modifyHarm_held (f : HarmSite → HarmSite) (site : Nat) (s : State) :
    (modifyHarm f site s).held = s.held := rfl

@[simp] theorem modifyHarm_straps (f : HarmSite → HarmSite) (site : Nat) (s : State) :
    (modifyHarm f site s).straps = s.straps := rfl

@[simp] theorem modifyHarm_clock (f : HarmSite → HarmSite) (site : Nat) (s : State) :
    (modifyHarm f site s).clock = s.clock := rfl

@[simp] theorem modifyHarm_bus (f : HarmSite → HarmSite) (site : Nat) (s : State) :
    (modifyHarm f site s).bus = s.bus := rfl

@[simp] theorem modifyHarm_roster (f : HarmSite → HarmSite) (site : Nat) (s : State) :
    (modifyHarm f site s).roster = s.roster := rfl

@[simp] theorem modifyHarm_receive (f : HarmSite → HarmSite) (site : Nat) (s : State) :
    (modifyHarm f site s).receive = s.receive := rfl

@[simp] theorem modifyHarm_tracker (f : HarmSite → HarmSite) (site : Nat) (s : State) :
    (modifyHarm f site s).tracker = s.tracker := rfl

@[simp] theorem modifyHarm_rotation (f : HarmSite → HarmSite) (site : Nat) (s : State) :
    (modifyHarm f site s).rotation = s.rotation := rfl

@[simp] theorem modifyHarm_sites (f : HarmSite → HarmSite) (site : Nat) (s : State) :
    (modifyHarm f site s).sites = s.sites := rfl

@[simp] theorem modifyHarm_survey (f : HarmSite → HarmSite) (site : Nat) (s : State) :
    (modifyHarm f site s).survey = s.survey := rfl

@[simp] theorem modifyHarm_sag (f : HarmSite → HarmSite) (site : Nat) (s : State) :
    (modifyHarm f site s).sag = s.sag := rfl

@[simp] theorem modifyHarm_capture (f : HarmSite → HarmSite) (site : Nat) (s : State) :
    (modifyHarm f site s).capture = s.capture := rfl

@[simp] theorem modifyHarm_harm (f : HarmSite → HarmSite) (site : Nat) (s : State) :
    (modifyHarm f site s).harm = { s.harm with sites := updateAt f site s.harm.sites } := rfl

@[simp] theorem modifyHarm_store (f : HarmSite → HarmSite) (site : Nat) (s : State) :
    (modifyHarm f site s).store = s.store := rfl

@[simp] theorem modifyHarm_print (f : HarmSite → HarmSite) (site : Nat) (s : State) :
    (modifyHarm f site s).print = s.print := rfl

@[simp] theorem modifyHarm_supply (f : HarmSite → HarmSite) (site : Nat) (s : State) :
    (modifyHarm f site s).supply = s.supply := rfl

@[simp] theorem modifyHarm_link (f : HarmSite → HarmSite) (site : Nat) (s : State) :
    (modifyHarm f site s).link = s.link := rfl

@[simp] theorem modifyHarm_free (f : HarmSite → HarmSite) (site : Nat) (s : State) :
    (modifyHarm f site s).free = s.free := rfl

@[simp] theorem modifyHarm_pending (f : HarmSite → HarmSite) (site : Nat) (s : State) :
    (modifyHarm f site s).pending = s.pending := rfl

/-! ### `modifyHarmMember` -/

@[simp] theorem modifyHarmMember_held (f : HarmMember → HarmMember) (site role : Nat) (s : State) :
    (modifyHarmMember f site role s).held = s.held := rfl

@[simp] theorem modifyHarmMember_straps (f : HarmMember → HarmMember) (site role : Nat) (s : State) :
    (modifyHarmMember f site role s).straps = s.straps := rfl

@[simp] theorem modifyHarmMember_clock (f : HarmMember → HarmMember) (site role : Nat) (s : State) :
    (modifyHarmMember f site role s).clock = s.clock := rfl

@[simp] theorem modifyHarmMember_bus (f : HarmMember → HarmMember) (site role : Nat) (s : State) :
    (modifyHarmMember f site role s).bus = s.bus := rfl

@[simp] theorem modifyHarmMember_roster (f : HarmMember → HarmMember) (site role : Nat) (s : State) :
    (modifyHarmMember f site role s).roster = s.roster := rfl

@[simp] theorem modifyHarmMember_receive (f : HarmMember → HarmMember) (site role : Nat) (s : State) :
    (modifyHarmMember f site role s).receive = s.receive := rfl

@[simp] theorem modifyHarmMember_tracker (f : HarmMember → HarmMember) (site role : Nat) (s : State) :
    (modifyHarmMember f site role s).tracker = s.tracker := rfl

@[simp] theorem modifyHarmMember_rotation (f : HarmMember → HarmMember) (site role : Nat) (s : State) :
    (modifyHarmMember f site role s).rotation = s.rotation := rfl

@[simp] theorem modifyHarmMember_sites (f : HarmMember → HarmMember) (site role : Nat) (s : State) :
    (modifyHarmMember f site role s).sites = s.sites := rfl

@[simp] theorem modifyHarmMember_survey (f : HarmMember → HarmMember) (site role : Nat) (s : State) :
    (modifyHarmMember f site role s).survey = s.survey := rfl

@[simp] theorem modifyHarmMember_sag (f : HarmMember → HarmMember) (site role : Nat) (s : State) :
    (modifyHarmMember f site role s).sag = s.sag := rfl

@[simp] theorem modifyHarmMember_capture (f : HarmMember → HarmMember) (site role : Nat) (s : State) :
    (modifyHarmMember f site role s).capture = s.capture := rfl

@[simp] theorem modifyHarmMember_harm (f : HarmMember → HarmMember) (site role : Nat) (s : State) :
    (modifyHarmMember f site role s).harm =
      { s.harm with sites := updateAt (fun h => { h with members := updateAt f role h.members }) site s.harm.sites } := rfl

@[simp] theorem modifyHarmMember_store (f : HarmMember → HarmMember) (site role : Nat) (s : State) :
    (modifyHarmMember f site role s).store = s.store := rfl

@[simp] theorem modifyHarmMember_print (f : HarmMember → HarmMember) (site role : Nat) (s : State) :
    (modifyHarmMember f site role s).print = s.print := rfl

@[simp] theorem modifyHarmMember_supply (f : HarmMember → HarmMember) (site role : Nat) (s : State) :
    (modifyHarmMember f site role s).supply = s.supply := rfl

@[simp] theorem modifyHarmMember_link (f : HarmMember → HarmMember) (site role : Nat) (s : State) :
    (modifyHarmMember f site role s).link = s.link := rfl

@[simp] theorem modifyHarmMember_free (f : HarmMember → HarmMember) (site role : Nat) (s : State) :
    (modifyHarmMember f site role s).free = s.free := rfl

@[simp] theorem modifyHarmMember_pending (f : HarmMember → HarmMember) (site role : Nat) (s : State) :
    (modifyHarmMember f site role s).pending = s.pending := rfl

/-! ### `modifyCapture` -/

@[simp] theorem modifyCapture_held (f : CaptureSlot → CaptureSlot) (slot : Nat) (s : State) :
    (modifyCapture f slot s).held = s.held := rfl

@[simp] theorem modifyCapture_straps (f : CaptureSlot → CaptureSlot) (slot : Nat) (s : State) :
    (modifyCapture f slot s).straps = s.straps := rfl

@[simp] theorem modifyCapture_clock (f : CaptureSlot → CaptureSlot) (slot : Nat) (s : State) :
    (modifyCapture f slot s).clock = s.clock := rfl

@[simp] theorem modifyCapture_bus (f : CaptureSlot → CaptureSlot) (slot : Nat) (s : State) :
    (modifyCapture f slot s).bus = s.bus := rfl

@[simp] theorem modifyCapture_roster (f : CaptureSlot → CaptureSlot) (slot : Nat) (s : State) :
    (modifyCapture f slot s).roster = s.roster := rfl

@[simp] theorem modifyCapture_receive (f : CaptureSlot → CaptureSlot) (slot : Nat) (s : State) :
    (modifyCapture f slot s).receive = s.receive := rfl

@[simp] theorem modifyCapture_tracker (f : CaptureSlot → CaptureSlot) (slot : Nat) (s : State) :
    (modifyCapture f slot s).tracker = s.tracker := rfl

@[simp] theorem modifyCapture_rotation (f : CaptureSlot → CaptureSlot) (slot : Nat) (s : State) :
    (modifyCapture f slot s).rotation = s.rotation := rfl

@[simp] theorem modifyCapture_sites (f : CaptureSlot → CaptureSlot) (slot : Nat) (s : State) :
    (modifyCapture f slot s).sites = s.sites := rfl

@[simp] theorem modifyCapture_survey (f : CaptureSlot → CaptureSlot) (slot : Nat) (s : State) :
    (modifyCapture f slot s).survey = s.survey := rfl

@[simp] theorem modifyCapture_sag (f : CaptureSlot → CaptureSlot) (slot : Nat) (s : State) :
    (modifyCapture f slot s).sag = s.sag := rfl

@[simp] theorem modifyCapture_capture (f : CaptureSlot → CaptureSlot) (slot : Nat) (s : State) :
    (modifyCapture f slot s).capture =
      { s.capture with slots := updateAt f slot s.capture.slots } := rfl

@[simp] theorem modifyCapture_harm (f : CaptureSlot → CaptureSlot) (slot : Nat) (s : State) :
    (modifyCapture f slot s).harm = s.harm := rfl

@[simp] theorem modifyCapture_store (f : CaptureSlot → CaptureSlot) (slot : Nat) (s : State) :
    (modifyCapture f slot s).store = s.store := rfl

@[simp] theorem modifyCapture_print (f : CaptureSlot → CaptureSlot) (slot : Nat) (s : State) :
    (modifyCapture f slot s).print = s.print := rfl

@[simp] theorem modifyCapture_supply (f : CaptureSlot → CaptureSlot) (slot : Nat) (s : State) :
    (modifyCapture f slot s).supply = s.supply := rfl

@[simp] theorem modifyCapture_link (f : CaptureSlot → CaptureSlot) (slot : Nat) (s : State) :
    (modifyCapture f slot s).link = s.link := rfl

@[simp] theorem modifyCapture_free (f : CaptureSlot → CaptureSlot) (slot : Nat) (s : State) :
    (modifyCapture f slot s).free = s.free := rfl

@[simp] theorem modifyCapture_pending (f : CaptureSlot → CaptureSlot) (slot : Nat) (s : State) :
    (modifyCapture f slot s).pending = s.pending := rfl

/-! ### `setStore` -/

@[simp] theorem setStore_held (f : Store → Store) (s : State) :
    (setStore f s).held = s.held := rfl

@[simp] theorem setStore_straps (f : Store → Store) (s : State) :
    (setStore f s).straps = s.straps := rfl

@[simp] theorem setStore_clock (f : Store → Store) (s : State) :
    (setStore f s).clock = s.clock := rfl

@[simp] theorem setStore_bus (f : Store → Store) (s : State) :
    (setStore f s).bus = s.bus := rfl

@[simp] theorem setStore_roster (f : Store → Store) (s : State) :
    (setStore f s).roster = s.roster := rfl

@[simp] theorem setStore_receive (f : Store → Store) (s : State) :
    (setStore f s).receive = s.receive := rfl

@[simp] theorem setStore_tracker (f : Store → Store) (s : State) :
    (setStore f s).tracker = s.tracker := rfl

@[simp] theorem setStore_rotation (f : Store → Store) (s : State) :
    (setStore f s).rotation = s.rotation := rfl

@[simp] theorem setStore_sites (f : Store → Store) (s : State) :
    (setStore f s).sites = s.sites := rfl

@[simp] theorem setStore_survey (f : Store → Store) (s : State) :
    (setStore f s).survey = s.survey := rfl

@[simp] theorem setStore_sag (f : Store → Store) (s : State) :
    (setStore f s).sag = s.sag := rfl

@[simp] theorem setStore_capture (f : Store → Store) (s : State) :
    (setStore f s).capture = s.capture := rfl

@[simp] theorem setStore_harm (f : Store → Store) (s : State) :
    (setStore f s).harm = s.harm := rfl

@[simp] theorem setStore_store (f : Store → Store) (s : State) :
    (setStore f s).store = f s.store := rfl

@[simp] theorem setStore_print (f : Store → Store) (s : State) :
    (setStore f s).print = s.print := rfl

@[simp] theorem setStore_supply (f : Store → Store) (s : State) :
    (setStore f s).supply = s.supply := rfl

@[simp] theorem setStore_link (f : Store → Store) (s : State) :
    (setStore f s).link = s.link := rfl

@[simp] theorem setStore_free (f : Store → Store) (s : State) :
    (setStore f s).free = s.free := rfl

@[simp] theorem setStore_pending (f : Store → Store) (s : State) :
    (setStore f s).pending = s.pending := rfl

/-! ### `setPrint` -/

@[simp] theorem setPrint_held (f : Print → Print) (s : State) :
    (setPrint f s).held = s.held := rfl

@[simp] theorem setPrint_straps (f : Print → Print) (s : State) :
    (setPrint f s).straps = s.straps := rfl

@[simp] theorem setPrint_clock (f : Print → Print) (s : State) :
    (setPrint f s).clock = s.clock := rfl

@[simp] theorem setPrint_bus (f : Print → Print) (s : State) :
    (setPrint f s).bus = s.bus := rfl

@[simp] theorem setPrint_roster (f : Print → Print) (s : State) :
    (setPrint f s).roster = s.roster := rfl

@[simp] theorem setPrint_receive (f : Print → Print) (s : State) :
    (setPrint f s).receive = s.receive := rfl

@[simp] theorem setPrint_tracker (f : Print → Print) (s : State) :
    (setPrint f s).tracker = s.tracker := rfl

@[simp] theorem setPrint_rotation (f : Print → Print) (s : State) :
    (setPrint f s).rotation = s.rotation := rfl

@[simp] theorem setPrint_sites (f : Print → Print) (s : State) :
    (setPrint f s).sites = s.sites := rfl

@[simp] theorem setPrint_survey (f : Print → Print) (s : State) :
    (setPrint f s).survey = s.survey := rfl

@[simp] theorem setPrint_sag (f : Print → Print) (s : State) :
    (setPrint f s).sag = s.sag := rfl

@[simp] theorem setPrint_capture (f : Print → Print) (s : State) :
    (setPrint f s).capture = s.capture := rfl

@[simp] theorem setPrint_harm (f : Print → Print) (s : State) :
    (setPrint f s).harm = s.harm := rfl

@[simp] theorem setPrint_store (f : Print → Print) (s : State) :
    (setPrint f s).store = s.store := rfl

@[simp] theorem setPrint_print (f : Print → Print) (s : State) :
    (setPrint f s).print = f s.print := rfl

@[simp] theorem setPrint_supply (f : Print → Print) (s : State) :
    (setPrint f s).supply = s.supply := rfl

@[simp] theorem setPrint_link (f : Print → Print) (s : State) :
    (setPrint f s).link = s.link := rfl

@[simp] theorem setPrint_free (f : Print → Print) (s : State) :
    (setPrint f s).free = s.free := rfl

@[simp] theorem setPrint_pending (f : Print → Print) (s : State) :
    (setPrint f s).pending = s.pending := rfl

/-! ### `setSupply` -/

@[simp] theorem setSupply_held (f : Supply → Supply) (s : State) :
    (setSupply f s).held = s.held := rfl

@[simp] theorem setSupply_straps (f : Supply → Supply) (s : State) :
    (setSupply f s).straps = s.straps := rfl

@[simp] theorem setSupply_clock (f : Supply → Supply) (s : State) :
    (setSupply f s).clock = s.clock := rfl

@[simp] theorem setSupply_bus (f : Supply → Supply) (s : State) :
    (setSupply f s).bus = s.bus := rfl

@[simp] theorem setSupply_roster (f : Supply → Supply) (s : State) :
    (setSupply f s).roster = s.roster := rfl

@[simp] theorem setSupply_receive (f : Supply → Supply) (s : State) :
    (setSupply f s).receive = s.receive := rfl

@[simp] theorem setSupply_tracker (f : Supply → Supply) (s : State) :
    (setSupply f s).tracker = s.tracker := rfl

@[simp] theorem setSupply_rotation (f : Supply → Supply) (s : State) :
    (setSupply f s).rotation = s.rotation := rfl

@[simp] theorem setSupply_sites (f : Supply → Supply) (s : State) :
    (setSupply f s).sites = s.sites := rfl

@[simp] theorem setSupply_survey (f : Supply → Supply) (s : State) :
    (setSupply f s).survey = s.survey := rfl

@[simp] theorem setSupply_sag (f : Supply → Supply) (s : State) :
    (setSupply f s).sag = s.sag := rfl

@[simp] theorem setSupply_capture (f : Supply → Supply) (s : State) :
    (setSupply f s).capture = s.capture := rfl

@[simp] theorem setSupply_harm (f : Supply → Supply) (s : State) :
    (setSupply f s).harm = s.harm := rfl

@[simp] theorem setSupply_store (f : Supply → Supply) (s : State) :
    (setSupply f s).store = s.store := rfl

@[simp] theorem setSupply_print (f : Supply → Supply) (s : State) :
    (setSupply f s).print = s.print := rfl

@[simp] theorem setSupply_supply (f : Supply → Supply) (s : State) :
    (setSupply f s).supply = f s.supply := rfl

@[simp] theorem setSupply_link (f : Supply → Supply) (s : State) :
    (setSupply f s).link = s.link := rfl

@[simp] theorem setSupply_free (f : Supply → Supply) (s : State) :
    (setSupply f s).free = s.free := rfl

@[simp] theorem setSupply_pending (f : Supply → Supply) (s : State) :
    (setSupply f s).pending = s.pending := rfl

/-! ### `setLink` -/

@[simp] theorem setLink_held (f : Link → Link) (s : State) :
    (setLink f s).held = s.held := rfl

@[simp] theorem setLink_straps (f : Link → Link) (s : State) :
    (setLink f s).straps = s.straps := rfl

@[simp] theorem setLink_clock (f : Link → Link) (s : State) :
    (setLink f s).clock = s.clock := rfl

@[simp] theorem setLink_bus (f : Link → Link) (s : State) :
    (setLink f s).bus = s.bus := rfl

@[simp] theorem setLink_roster (f : Link → Link) (s : State) :
    (setLink f s).roster = s.roster := rfl

@[simp] theorem setLink_receive (f : Link → Link) (s : State) :
    (setLink f s).receive = s.receive := rfl

@[simp] theorem setLink_tracker (f : Link → Link) (s : State) :
    (setLink f s).tracker = s.tracker := rfl

@[simp] theorem setLink_rotation (f : Link → Link) (s : State) :
    (setLink f s).rotation = s.rotation := rfl

@[simp] theorem setLink_sites (f : Link → Link) (s : State) :
    (setLink f s).sites = s.sites := rfl

@[simp] theorem setLink_survey (f : Link → Link) (s : State) :
    (setLink f s).survey = s.survey := rfl

@[simp] theorem setLink_sag (f : Link → Link) (s : State) :
    (setLink f s).sag = s.sag := rfl

@[simp] theorem setLink_capture (f : Link → Link) (s : State) :
    (setLink f s).capture = s.capture := rfl

@[simp] theorem setLink_harm (f : Link → Link) (s : State) :
    (setLink f s).harm = s.harm := rfl

@[simp] theorem setLink_store (f : Link → Link) (s : State) :
    (setLink f s).store = s.store := rfl

@[simp] theorem setLink_print (f : Link → Link) (s : State) :
    (setLink f s).print = s.print := rfl

@[simp] theorem setLink_supply (f : Link → Link) (s : State) :
    (setLink f s).supply = s.supply := rfl

@[simp] theorem setLink_link (f : Link → Link) (s : State) :
    (setLink f s).link = f s.link := rfl

@[simp] theorem setLink_free (f : Link → Link) (s : State) :
    (setLink f s).free = s.free := rfl

@[simp] theorem setLink_pending (f : Link → Link) (s : State) :
    (setLink f s).pending = s.pending := rfl

/-! ### `post` -/

@[simp] theorem post_held (b : NoticeBody) (s : State) :
    (post b s).held = s.held := rfl

@[simp] theorem post_straps (b : NoticeBody) (s : State) :
    (post b s).straps = s.straps := rfl

@[simp] theorem post_clock (b : NoticeBody) (s : State) :
    (post b s).clock = s.clock := rfl

@[simp] theorem post_bus (b : NoticeBody) (s : State) :
    (post b s).bus = s.bus := rfl

@[simp] theorem post_roster (b : NoticeBody) (s : State) :
    (post b s).roster = s.roster := rfl

@[simp] theorem post_receive (b : NoticeBody) (s : State) :
    (post b s).receive = s.receive := rfl

@[simp] theorem post_tracker (b : NoticeBody) (s : State) :
    (post b s).tracker = s.tracker := rfl

@[simp] theorem post_rotation (b : NoticeBody) (s : State) :
    (post b s).rotation = s.rotation := rfl

@[simp] theorem post_sites (b : NoticeBody) (s : State) :
    (post b s).sites = s.sites := rfl

@[simp] theorem post_survey (b : NoticeBody) (s : State) :
    (post b s).survey = s.survey := rfl

@[simp] theorem post_sag (b : NoticeBody) (s : State) :
    (post b s).sag = s.sag := rfl

@[simp] theorem post_capture (b : NoticeBody) (s : State) :
    (post b s).capture = s.capture := rfl

@[simp] theorem post_harm (b : NoticeBody) (s : State) :
    (post b s).harm = s.harm := rfl

@[simp] theorem post_store (b : NoticeBody) (s : State) :
    (post b s).store = s.store := rfl

@[simp] theorem post_print (b : NoticeBody) (s : State) :
    (post b s).print = s.print := rfl

@[simp] theorem post_supply (b : NoticeBody) (s : State) :
    (post b s).supply = s.supply := rfl

@[simp] theorem post_link (b : NoticeBody) (s : State) :
    (post b s).link = s.link.post ⟨b, s.clock.time⟩ := rfl

@[simp] theorem post_free (b : NoticeBody) (s : State) :
    (post b s).free = s.free := rfl

@[simp] theorem post_pending (b : NoticeBody) (s : State) :
    (post b s).pending = s.pending := rfl

/-! ### `answer` -/

@[simp] theorem answer_held (st : Status) (b : ReplyBody) (s : State) :
    (answer st b s).held = s.held := rfl

@[simp] theorem answer_straps (st : Status) (b : ReplyBody) (s : State) :
    (answer st b s).straps = s.straps := rfl

@[simp] theorem answer_clock (st : Status) (b : ReplyBody) (s : State) :
    (answer st b s).clock = s.clock := rfl

@[simp] theorem answer_bus (st : Status) (b : ReplyBody) (s : State) :
    (answer st b s).bus = s.bus := rfl

@[simp] theorem answer_roster (st : Status) (b : ReplyBody) (s : State) :
    (answer st b s).roster = s.roster := rfl

@[simp] theorem answer_receive (st : Status) (b : ReplyBody) (s : State) :
    (answer st b s).receive = s.receive := rfl

@[simp] theorem answer_tracker (st : Status) (b : ReplyBody) (s : State) :
    (answer st b s).tracker = s.tracker := rfl

@[simp] theorem answer_rotation (st : Status) (b : ReplyBody) (s : State) :
    (answer st b s).rotation = s.rotation := rfl

@[simp] theorem answer_sites (st : Status) (b : ReplyBody) (s : State) :
    (answer st b s).sites = s.sites := rfl

@[simp] theorem answer_survey (st : Status) (b : ReplyBody) (s : State) :
    (answer st b s).survey = s.survey := rfl

@[simp] theorem answer_sag (st : Status) (b : ReplyBody) (s : State) :
    (answer st b s).sag = s.sag := rfl

@[simp] theorem answer_capture (st : Status) (b : ReplyBody) (s : State) :
    (answer st b s).capture = s.capture := rfl

@[simp] theorem answer_harm (st : Status) (b : ReplyBody) (s : State) :
    (answer st b s).harm = s.harm := rfl

@[simp] theorem answer_store (st : Status) (b : ReplyBody) (s : State) :
    (answer st b s).store = s.store := rfl

@[simp] theorem answer_print (st : Status) (b : ReplyBody) (s : State) :
    (answer st b s).print = s.print := rfl

@[simp] theorem answer_supply (st : Status) (b : ReplyBody) (s : State) :
    (answer st b s).supply = s.supply := rfl

@[simp] theorem answer_link (st : Status) (b : ReplyBody) (s : State) :
    (answer st b s).link = s.link.answer st b := rfl

@[simp] theorem answer_free (st : Status) (b : ReplyBody) (s : State) :
    (answer st b s).free = s.free := rfl

@[simp] theorem answer_pending (st : Status) (b : ReplyBody) (s : State) :
    (answer st b s).pending = s.pending := rfl

/-! ### `refuse` -/

@[simp] theorem refuse_held (st : Status) (s : State) :
    (refuse st s).held = s.held := rfl

@[simp] theorem refuse_straps (st : Status) (s : State) :
    (refuse st s).straps = s.straps := rfl

@[simp] theorem refuse_clock (st : Status) (s : State) :
    (refuse st s).clock = s.clock := rfl

@[simp] theorem refuse_bus (st : Status) (s : State) :
    (refuse st s).bus = s.bus := rfl

@[simp] theorem refuse_roster (st : Status) (s : State) :
    (refuse st s).roster = s.roster := rfl

@[simp] theorem refuse_receive (st : Status) (s : State) :
    (refuse st s).receive = s.receive := rfl

@[simp] theorem refuse_tracker (st : Status) (s : State) :
    (refuse st s).tracker = s.tracker := rfl

@[simp] theorem refuse_rotation (st : Status) (s : State) :
    (refuse st s).rotation = s.rotation := rfl

@[simp] theorem refuse_sites (st : Status) (s : State) :
    (refuse st s).sites = s.sites := rfl

@[simp] theorem refuse_survey (st : Status) (s : State) :
    (refuse st s).survey = s.survey := rfl

@[simp] theorem refuse_sag (st : Status) (s : State) :
    (refuse st s).sag = s.sag := rfl

@[simp] theorem refuse_capture (st : Status) (s : State) :
    (refuse st s).capture = s.capture := rfl

@[simp] theorem refuse_harm (st : Status) (s : State) :
    (refuse st s).harm = s.harm := rfl

@[simp] theorem refuse_store (st : Status) (s : State) :
    (refuse st s).store = s.store := rfl

@[simp] theorem refuse_print (st : Status) (s : State) :
    (refuse st s).print = s.print := rfl

@[simp] theorem refuse_supply (st : Status) (s : State) :
    (refuse st s).supply = s.supply := rfl

@[simp] theorem refuse_link (st : Status) (s : State) :
    (refuse st s).link = s.link.answer st .empty := rfl

@[simp] theorem refuse_free (st : Status) (s : State) :
    (refuse st s).free = s.free := rfl

@[simp] theorem refuse_pending (st : Status) (s : State) :
    (refuse st s).pending = s.pending := rfl

/-! ### `replied` -/

@[simp] theorem replied_held (kind : Nat) (tag : Byte) (st : Status) (b : ReplyBody) (s : State) :
    (replied kind tag st b s).held = s.held := rfl

@[simp] theorem replied_straps (kind : Nat) (tag : Byte) (st : Status) (b : ReplyBody) (s : State) :
    (replied kind tag st b s).straps = s.straps := rfl

@[simp] theorem replied_clock (kind : Nat) (tag : Byte) (st : Status) (b : ReplyBody) (s : State) :
    (replied kind tag st b s).clock = s.clock := rfl

@[simp] theorem replied_bus (kind : Nat) (tag : Byte) (st : Status) (b : ReplyBody) (s : State) :
    (replied kind tag st b s).bus = s.bus := rfl

@[simp] theorem replied_roster (kind : Nat) (tag : Byte) (st : Status) (b : ReplyBody) (s : State) :
    (replied kind tag st b s).roster = s.roster := rfl

@[simp] theorem replied_receive (kind : Nat) (tag : Byte) (st : Status) (b : ReplyBody) (s : State) :
    (replied kind tag st b s).receive = s.receive := rfl

@[simp] theorem replied_tracker (kind : Nat) (tag : Byte) (st : Status) (b : ReplyBody) (s : State) :
    (replied kind tag st b s).tracker = s.tracker := rfl

@[simp] theorem replied_rotation (kind : Nat) (tag : Byte) (st : Status) (b : ReplyBody) (s : State) :
    (replied kind tag st b s).rotation = s.rotation := rfl

@[simp] theorem replied_sites (kind : Nat) (tag : Byte) (st : Status) (b : ReplyBody) (s : State) :
    (replied kind tag st b s).sites = s.sites := rfl

@[simp] theorem replied_survey (kind : Nat) (tag : Byte) (st : Status) (b : ReplyBody) (s : State) :
    (replied kind tag st b s).survey = s.survey := rfl

@[simp] theorem replied_sag (kind : Nat) (tag : Byte) (st : Status) (b : ReplyBody) (s : State) :
    (replied kind tag st b s).sag = s.sag := rfl

@[simp] theorem replied_capture (kind : Nat) (tag : Byte) (st : Status) (b : ReplyBody) (s : State) :
    (replied kind tag st b s).capture = s.capture := rfl

@[simp] theorem replied_harm (kind : Nat) (tag : Byte) (st : Status) (b : ReplyBody) (s : State) :
    (replied kind tag st b s).harm = s.harm := rfl

@[simp] theorem replied_store (kind : Nat) (tag : Byte) (st : Status) (b : ReplyBody) (s : State) :
    (replied kind tag st b s).store = s.store := rfl

@[simp] theorem replied_print (kind : Nat) (tag : Byte) (st : Status) (b : ReplyBody) (s : State) :
    (replied kind tag st b s).print = s.print := rfl

@[simp] theorem replied_supply (kind : Nat) (tag : Byte) (st : Status) (b : ReplyBody) (s : State) :
    (replied kind tag st b s).supply = s.supply := rfl

@[simp] theorem replied_link (kind : Nat) (tag : Byte) (st : Status) (b : ReplyBody) (s : State) :
    (replied kind tag st b s).link =
      { s.link with reply := some ⟨kind, tag, st, b⟩ }.startTransmit := rfl

@[simp] theorem replied_free (kind : Nat) (tag : Byte) (st : Status) (b : ReplyBody) (s : State) :
    (replied kind tag st b s).free = s.free := rfl

@[simp] theorem replied_pending (kind : Nat) (tag : Byte) (st : Status) (b : ReplyBody) (s : State) :
    (replied kind tag st b s).pending = s.pending := rfl

/-! ### `waiting` -/

@[simp] theorem waiting_held (kind : Nat) (tag : Byte) (s : State) :
    (waiting kind tag s).held = s.held := rfl

@[simp] theorem waiting_straps (kind : Nat) (tag : Byte) (s : State) :
    (waiting kind tag s).straps = s.straps := rfl

@[simp] theorem waiting_clock (kind : Nat) (tag : Byte) (s : State) :
    (waiting kind tag s).clock = s.clock := rfl

@[simp] theorem waiting_bus (kind : Nat) (tag : Byte) (s : State) :
    (waiting kind tag s).bus = s.bus := rfl

@[simp] theorem waiting_roster (kind : Nat) (tag : Byte) (s : State) :
    (waiting kind tag s).roster = s.roster := rfl

@[simp] theorem waiting_receive (kind : Nat) (tag : Byte) (s : State) :
    (waiting kind tag s).receive = s.receive := rfl

@[simp] theorem waiting_tracker (kind : Nat) (tag : Byte) (s : State) :
    (waiting kind tag s).tracker = s.tracker := rfl

@[simp] theorem waiting_rotation (kind : Nat) (tag : Byte) (s : State) :
    (waiting kind tag s).rotation = s.rotation := rfl

@[simp] theorem waiting_sites (kind : Nat) (tag : Byte) (s : State) :
    (waiting kind tag s).sites = s.sites := rfl

@[simp] theorem waiting_survey (kind : Nat) (tag : Byte) (s : State) :
    (waiting kind tag s).survey = s.survey := rfl

@[simp] theorem waiting_sag (kind : Nat) (tag : Byte) (s : State) :
    (waiting kind tag s).sag = s.sag := rfl

@[simp] theorem waiting_capture (kind : Nat) (tag : Byte) (s : State) :
    (waiting kind tag s).capture = s.capture := rfl

@[simp] theorem waiting_harm (kind : Nat) (tag : Byte) (s : State) :
    (waiting kind tag s).harm = s.harm := rfl

@[simp] theorem waiting_store (kind : Nat) (tag : Byte) (s : State) :
    (waiting kind tag s).store = s.store := rfl

@[simp] theorem waiting_print (kind : Nat) (tag : Byte) (s : State) :
    (waiting kind tag s).print = s.print := rfl

@[simp] theorem waiting_supply (kind : Nat) (tag : Byte) (s : State) :
    (waiting kind tag s).supply = s.supply := rfl

@[simp] theorem waiting_link (kind : Nat) (tag : Byte) (s : State) :
    (waiting kind tag s).link = { s.link with current := some ⟨kind, tag, false⟩ } := rfl

@[simp] theorem waiting_free (kind : Nat) (tag : Byte) (s : State) :
    (waiting kind tag s).free = s.free := rfl

@[simp] theorem waiting_pending (kind : Nat) (tag : Byte) (s : State) :
    (waiting kind tag s).pending = s.pending := rfl

/-! ### `postWhen` -/

@[simp] theorem postWhen_held (c : Bool) (b : NoticeBody) (s : State) :
    (postWhen c b s).held = s.held := by cases c <;> rfl

@[simp] theorem postWhen_straps (c : Bool) (b : NoticeBody) (s : State) :
    (postWhen c b s).straps = s.straps := by cases c <;> rfl

@[simp] theorem postWhen_clock (c : Bool) (b : NoticeBody) (s : State) :
    (postWhen c b s).clock = s.clock := by cases c <;> rfl

@[simp] theorem postWhen_bus (c : Bool) (b : NoticeBody) (s : State) :
    (postWhen c b s).bus = s.bus := by cases c <;> rfl

@[simp] theorem postWhen_roster (c : Bool) (b : NoticeBody) (s : State) :
    (postWhen c b s).roster = s.roster := by cases c <;> rfl

@[simp] theorem postWhen_receive (c : Bool) (b : NoticeBody) (s : State) :
    (postWhen c b s).receive = s.receive := by cases c <;> rfl

@[simp] theorem postWhen_tracker (c : Bool) (b : NoticeBody) (s : State) :
    (postWhen c b s).tracker = s.tracker := by cases c <;> rfl

@[simp] theorem postWhen_rotation (c : Bool) (b : NoticeBody) (s : State) :
    (postWhen c b s).rotation = s.rotation := by cases c <;> rfl

@[simp] theorem postWhen_sites (c : Bool) (b : NoticeBody) (s : State) :
    (postWhen c b s).sites = s.sites := by cases c <;> rfl

@[simp] theorem postWhen_survey (c : Bool) (b : NoticeBody) (s : State) :
    (postWhen c b s).survey = s.survey := by cases c <;> rfl

@[simp] theorem postWhen_sag (c : Bool) (b : NoticeBody) (s : State) :
    (postWhen c b s).sag = s.sag := by cases c <;> rfl

@[simp] theorem postWhen_capture (c : Bool) (b : NoticeBody) (s : State) :
    (postWhen c b s).capture = s.capture := by cases c <;> rfl

@[simp] theorem postWhen_harm (c : Bool) (b : NoticeBody) (s : State) :
    (postWhen c b s).harm = s.harm := by cases c <;> rfl

@[simp] theorem postWhen_store (c : Bool) (b : NoticeBody) (s : State) :
    (postWhen c b s).store = s.store := by cases c <;> rfl

@[simp] theorem postWhen_print (c : Bool) (b : NoticeBody) (s : State) :
    (postWhen c b s).print = s.print := by cases c <;> rfl

@[simp] theorem postWhen_supply (c : Bool) (b : NoticeBody) (s : State) :
    (postWhen c b s).supply = s.supply := by cases c <;> rfl

@[simp] theorem postWhen_free (c : Bool) (b : NoticeBody) (s : State) :
    (postWhen c b s).free = s.free := by cases c <;> rfl

@[simp] theorem postWhen_pending (c : Bool) (b : NoticeBody) (s : State) :
    (postWhen c b s).pending = s.pending := by cases c <;> rfl

end Sys2Proof.Machine
end

