-- ==== Sys2Proof/Laws/Tables.lean ====
section
/-!
SUPPORT. Reading an entry of a table after one of its entries has been updated.
-/

-- One declaration at a time: many waiting threads would pass the memory limit of the check.
set_option Elab.async false
namespace Sys2Proof

variable {α : Type}

@[simp] theorem updateAt_length (f : α → α) (i : Nat) (xs : List α) :
    (updateAt f i xs).length = xs.length := by
  induction xs generalizing i with
  | nil => simp [updateAt]
  | cons x xs ih => cases i <;> simp [updateAt, ih]

theorem updateAt_getD_same (f : α → α) (i : Nat) (xs : List α) (d : α) (h : i < xs.length) :
    (updateAt f i xs).getD i d = f (xs.getD i d) := by
  induction xs generalizing i with
  | nil => simp at h
  | cons x xs ih =>
    cases i with
    | zero => simp [updateAt]
    | succ i =>
      have := ih i (by simpa using h)
      simpa [updateAt] using this

theorem updateAt_getD_other (f : α → α) (i j : Nat) (xs : List α) (d : α) (h : j ≠ i) :
    (updateAt f i xs).getD j d = xs.getD j d := by
  induction xs generalizing i j with
  | nil => simp [updateAt]
  | cons x xs ih =>
    cases i with
    | zero =>
      cases j with
      | zero => exact absurd rfl h
      | succ j => rfl
    | succ i =>
      cases j with
      | zero => rfl
      | succ j =>
        have := ih i j (by omega)
        simpa [updateAt] using this

namespace Machine

theorem entryOf_modifyEntry (f : RosterEntry → RosterEntry) (slot : Nat) (s : State)
    (h : slot - 1 < s.roster.length) : entryOf (modifyEntry f slot s) slot = f (entryOf s slot) :=
  updateAt_getD_same f _ _ _ h

theorem entryOf_modifyEntry_other (f : RosterEntry → RosterEntry) (slot i : Nat) (s : State)
    (h : i - 1 ≠ slot - 1) : entryOf (modifyEntry f slot s) i = entryOf s i :=
  updateAt_getD_other f _ _ _ _ h

theorem receiveOf_modifyReceive (f : Receive → Receive) (slot : Nat) (s : State)
    (h : slot - 1 < s.receive.length) :
    receiveOf (modifyReceive f slot s) slot = f (receiveOf s slot) :=
  updateAt_getD_same f _ _ _ h

theorem receiveOf_modifyReceive_other (f : Receive → Receive) (slot i : Nat) (s : State)
    (h : i - 1 ≠ slot - 1) : receiveOf (modifyReceive f slot s) i = receiveOf s i :=
  updateAt_getD_other f _ _ _ _ h

theorem siteOf_modifySite (f : Site → Site) (site : Nat) (s : State) (h : site < s.sites.length) :
    siteOf (modifySite f site s) site = f (siteOf s site) :=
  updateAt_getD_same f _ _ _ h

theorem siteOf_modifySite_other (f : Site → Site) (site i : Nat) (s : State) (h : i ≠ site) :
    siteOf (modifySite f site s) i = siteOf s i :=
  updateAt_getD_other f _ _ _ _ h

theorem captureSlot_modifyCapture (f : CaptureSlot → CaptureSlot) (slot : Nat) (s : State)
    (h : slot < s.capture.slots.length) :
    captureSlot (modifyCapture f slot s) slot = f (captureSlot s slot) :=
  updateAt_getD_same f _ _ _ h

theorem captureSlot_modifyCapture_other (f : CaptureSlot → CaptureSlot) (slot i : Nat) (s : State)
    (h : i ≠ slot) : captureSlot (modifyCapture f slot s) i = captureSlot s i :=
  updateAt_getD_other f _ _ _ _ h

theorem harmSite_modifyHarm (f : HarmSite → HarmSite) (site : Nat) (s : State)
    (h : site < s.harm.sites.length) : harmSite (modifyHarm f site s) site = f (harmSite s site) :=
  updateAt_getD_same f _ _ _ h

theorem harmSite_modifyHarm_other (f : HarmSite → HarmSite) (site i : Nat) (s : State)
    (h : i ≠ site) : harmSite (modifyHarm f site s) i = harmSite s i :=
  updateAt_getD_other f _ _ _ _ h

theorem sagSite_modifySag (f : SagSite → SagSite) (site : Nat) (s : State)
    (h : site < s.sag.sites.length) : sagSite (modifySag f site s) site = f (sagSite s site) :=
  updateAt_getD_same f _ _ _ h

theorem sagSite_modifySag_other (f : SagSite → SagSite) (site i : Nat) (s : State) (h : i ≠ site) :
    sagSite (modifySag f site s) i = sagSite s i :=
  updateAt_getD_other f _ _ _ _ h

end Machine
end Sys2Proof
end

