-- ==== Sys2Proof/Laws/Moves.lean ====
section
/-!
SUPPORT. What an operation can touch, said once: `Moves P s t` holds when `t` comes from `s` by
changing the parts of State that `P` allows, posting notices, answering the request in progress and
ending reset domains. Each function of the machine has one lemma of this form.
-/

-- One declaration at a time: many waiting threads would pass the memory limit of the check.
set_option Elab.async false
namespace Sys2Proof.Machine

/-! ### The sizes of the tables -/

theorem updateAt_forall {α : Type} {Q : α → Prop} (f : α → α) (hf : ∀ x, Q x → Q (f x)) (i : Nat)
    (xs : List α) (h : ∀ x ∈ xs, Q x) : ∀ y ∈ updateAt f i xs, Q y := by
  induction xs generalizing i with
  | nil => simpa [updateAt] using h
  | cons x xs ih =>
    have hx := h x (by simp)
    have ht : ∀ y ∈ xs, Q y := fun y k => h y (by simp [k])
    intro y hy
    cases i with
    | zero =>
      rcases List.mem_cons.mp hy with rfl | hy
      · exact hf _ hx
      · exact ht y hy
    | succ i =>
      rcases List.mem_cons.mp hy with rfl | hy
      · exact hx
      · exact ih i ht y hy

theorem map_forall {α β : Type} {Q : β → Prop} (f : α → β) (xs : List α)
    (h : ∀ x ∈ xs, Q (f x)) : ∀ y ∈ xs.map f, Q y := by
  intro y hy
  obtain ⟨x, hx, rfl⟩ := List.mem_map.mp hy
  exact h x hx

/-- The engine's sites keep their number and their eight positions. -/
def HarmShape (s : State) (x : Harm) : Prop :=
  Shaped s → x.sites.length = 4 ∧ ∀ h ∈ x.sites, h.members.length = 8

theorem harmShape_same {s : State} {x : Harm} (h : x.sites = s.harm.sites) : HarmShape s x :=
  fun k => by rw [h]; exact k.2.2.2.2.2.2

theorem harmShape_map {s : State} {x : Harm} (f : HarmSite → HarmSite)
    (h : x.sites = s.harm.sites.map f) (hf : ∀ g, (f g).members.length = g.members.length) :
    HarmShape s x := fun k => by
  rw [h]
  exact ⟨(List.length_map _).trans k.2.2.2.2.2.2.1,
    map_forall _ _ fun g hg => (hf g).trans (k.2.2.2.2.2.2.2 g hg)⟩

theorem harmShape_zip {s : State} {x : Harm} (f : HarmSite × Site → HarmSite)
    (h : x.sites = (s.harm.sites.zip s.sites).map f)
    (hf : ∀ g e, g.members.length = 8 → e.members.length = 8 → (f (g, e)).members.length = 8) :
    HarmShape s x := fun k => by
  rw [h]
  refine ⟨by simp [k.2.2.2.2.2.2.1, k.2.2.2.1.1], map_forall _ _ fun g hg => ?_⟩
  have := List.of_mem_zip hg
  exact hf g.1 g.2 (k.2.2.2.2.2.2.2 _ this.1) (k.2.2.2.1.2 _ this.2)

/-- The parts of State that an operation may be allowed to change. -/
inductive Part where
  | clock | bus | roster | receive | tracker | rotation | sites | survey | sag | capture | harm
  | store | array | print | supply | free
  deriving DecidableEq, Repr

/-- An update that tells the link nothing and changes only the parts that `P` allows; an array that
was canonical stays so, f and K stay sound, and the tables keep their sizes. -/
structure Same (P : Part → Prop) (s t : State) : Prop where
  held : t.held = s.held
  straps : t.straps = s.straps
  pending : t.pending = s.pending
  link : t.link = s.link
  clock : P .clock ∨ t.clock = s.clock
  bus : P .bus ∨ t.bus = s.bus
  roster : P .roster ∨ t.roster = s.roster
  receive : P .receive ∨ t.receive = s.receive
  tracker : P .tracker ∨ t.tracker = s.tracker
  rotation : P .rotation ∨ t.rotation = s.rotation
  sites : P .sites ∨ t.sites = s.sites
  survey : P .survey ∨ t.survey = s.survey
  sag : P .sag ∨ t.sag = s.sag
  capture : P .capture ∨ t.capture = s.capture
  harm : P .harm ∨ t.harm = s.harm
  store : P .store ∨ t.store = s.store
  array : P .array ∨ t.store.array = s.store.array
  print : P .print ∨ t.print = s.print
  supply : P .supply ∨ t.supply = s.supply
  free : P .free ∨ t.free = s.free
  canonical : CanonicalStore s → CanonicalStore t
  freq : FreqOk s.tracker → FreqOk t.tracker
  shape : Shaped s → Shaped t

/-- RESET's domain is ended (R181). -/
inductive Moves (P : Part → Prop) : State → State → Prop where
  | refl (s : State) : Moves P s s
  | same {s t : State} (h : Same P s t) : Moves P s t
  | post (b : NoticeBody) (s : State) : Moves P s (post b s)
  | answer (st : Status) (b : ReplyBody) (s : State) : Moves P s (answer st b s)
  | clamp (c : Bool) (s : State) :
    Moves P s
      { s with link := { s.link with current := s.link.current.map fun x => { x with clamped := c } } }
  | domain (f : Domains → Domains) (s : State) : Moves P s (takeDomain f s)
  | notice (s : State) : Moves P s (noticeReset s)
  | trans {s t u : State} (h : Moves P s t) (k : Moves P t u) : Moves P s u

/-- What the link of a state and of one it moves to share. -/
structure LinkKept (l m : Link) : Prop where
  rx : m.rx = l.rx
  queue : m.queue = l.queue
  framing : m.framing = l.framing
  crc : m.crc = l.crc
  overrun : m.overrun = l.overrun
  cause : m.cause = l.cause
  domains : m.domains = l.domains
  resets : m.resets = l.resets
  idle : l.current = none → m.current = none
  unowed : l.owed = none → m.owed = none
  bounded : l.notices.length ≤ Config.noticePlaces → m.notices.length ≤ Config.noticePlaces

theorem LinkKept.refl (l : Link) : LinkKept l l :=
  ⟨rfl, rfl, rfl, rfl, rfl, rfl, rfl, rfl, id, id, id⟩

theorem LinkKept.trans {l m n : Link} (h : LinkKept l m) (k : LinkKept m n) : LinkKept l n :=
  ⟨k.rx.trans h.rx, k.queue.trans h.queue, k.framing.trans h.framing, k.crc.trans h.crc,
    k.overrun.trans h.overrun, k.cause.trans h.cause, k.domains.trans h.domains,
    k.resets.trans h.resets, fun x => k.idle (h.idle x), fun x => k.unowed (h.unowed x),
    fun x => k.bounded (h.bounded x)⟩

theorem setDomains_kept (f : Domains → Domains) (l : Link) : LinkKept l (l.setDomains f) := by
  refine ⟨rfl, rfl, rfl, rfl, rfl, rfl, rfl, rfl, id, ?_, id⟩
  intro h; simp [Link.setDomains, h]

theorem settle_kept (l : Link) : LinkKept l l.settle := by
  unfold Link.settle
  split
  · split
    · exact ⟨rfl, rfl, rfl, rfl, rfl, rfl, rfl, rfl, fun _ => rfl, fun _ => rfl, id⟩
    · exact .refl l
  · exact .refl l

theorem noticeReset_kept (l : Link) : LinkKept l l.noticeReset := by
  unfold Link.noticeReset
  split
  · refine LinkKept.trans ?_ (LinkKept.trans (setDomains_kept _ _) (settle_kept _))
    exact ⟨rfl, rfl, rfl, rfl, rfl, rfl, rfl, rfl, id, id, fun _ => by simp⟩
  · exact .refl l

theorem startTransmit_kept (l : Link) : LinkKept l l.startTransmit := by
  unfold Link.startTransmit
  split
  · exact .refl l
  · split
    · exact ⟨rfl, rfl, rfl, rfl, rfl, rfl, rfl, rfl, id, id, id⟩
    · split
      · next h => exact ⟨rfl, rfl, rfl, rfl, rfl, rfl, rfl, rfl, id, id, by simp [h]; omega⟩
      · exact .refl l

theorem offerNotice_kept (n : Notice) (l : Link) : LinkKept l (l.offerNotice n) := by
  unfold Link.offerNotice
  split
  · exact .refl l
  · split
    · next h =>
      refine LinkKept.trans ?_ (startTransmit_kept _)
      exact ⟨rfl, rfl, rfl, rfl, rfl, rfl, rfl, rfl, id, id, fun _ => by simp; omega⟩
    · exact ⟨rfl, rfl, rfl, rfl, rfl, rfl, rfl, rfl, id, id, id⟩

theorem linkPost_kept (n : Notice) (l : Link) : LinkKept l (l.post n) :=
  (noticeReset_kept l).trans (offerNotice_kept n _)

theorem linkAnswer_kept (st : Status) (b : ReplyBody) (l : Link) : LinkKept l (l.answer st b) := by
  unfold Link.answer
  split
  · refine LinkKept.trans ?_ (startTransmit_kept _)
    exact ⟨rfl, rfl, rfl, rfl, rfl, rfl, rfl, rfl, fun _ => rfl, id, id⟩
  · exact .refl l

namespace Moves

variable {P Q : Part → Prop} {s t u : State}

theorem link_kept (h : Moves P s t) : LinkKept s.link t.link := by
  induction h with
  | refl s => exact .refl _
  | same h => rw [h.link]; exact .refl _
  | post b s => exact linkPost_kept _ _
  | answer st b s => exact linkAnswer_kept _ _ _
  | clamp c s =>
    exact ⟨rfl, rfl, rfl, rfl, rfl, rfl, rfl, rfl, fun h => by simp [h], id, id⟩
  | domain f s => exact (setDomains_kept _ _).trans (settle_kept _)
  | notice s => exact noticeReset_kept _
  | trans _ _ h k => exact h.trans k

theorem queue_eq (h : Moves P s t) : t.link.queue = s.link.queue := h.link_kept.queue

theorem held_eq (h : Moves P s t) : t.held = s.held := by
  induction h with
  | same h => exact h.held
  | trans _ _ h k => exact k.trans h
  | _ => rfl

theorem straps_eq (h : Moves P s t) : t.straps = s.straps := by
  induction h with
  | same h => exact h.straps
  | trans _ _ h k => exact k.trans h
  | _ => rfl

theorem pending_eq (h : Moves P s t) : t.pending = s.pending := by
  induction h with
  | same h => exact h.pending
  | trans _ _ h k => exact k.trans h
  | _ => rfl

theorem clock_eq (h : Moves P s t) (n : ¬P .clock) : t.clock = s.clock := by
  induction h with
  | same h => exact h.clock.resolve_left n
  | trans _ _ h k => exact k.trans h
  | _ => rfl

theorem bus_eq (h : Moves P s t) (n : ¬P .bus) : t.bus = s.bus := by
  induction h with
  | same h => exact h.bus.resolve_left n
  | trans _ _ h k => exact k.trans h
  | _ => rfl

theorem roster_eq (h : Moves P s t) (n : ¬P .roster) : t.roster = s.roster := by
  induction h with
  | same h => exact h.roster.resolve_left n
  | trans _ _ h k => exact k.trans h
  | _ => rfl

theorem receive_eq (h : Moves P s t) (n : ¬P .receive) : t.receive = s.receive := by
  induction h with
  | same h => exact h.receive.resolve_left n
  | trans _ _ h k => exact k.trans h
  | _ => rfl

theorem tracker_eq (h : Moves P s t) (n : ¬P .tracker) : t.tracker = s.tracker := by
  induction h with
  | same h => exact h.tracker.resolve_left n
  | trans _ _ h k => exact k.trans h
  | _ => rfl

theorem rotation_eq (h : Moves P s t) (n : ¬P .rotation) : t.rotation = s.rotation := by
  induction h with
  | same h => exact h.rotation.resolve_left n
  | trans _ _ h k => exact k.trans h
  | _ => rfl

theorem sites_eq (h : Moves P s t) (n : ¬P .sites) : t.sites = s.sites := by
  induction h with
  | same h => exact h.sites.resolve_left n
  | trans _ _ h k => exact k.trans h
  | _ => rfl

theorem survey_eq (h : Moves P s t) (n : ¬P .survey) : t.survey = s.survey := by
  induction h with
  | same h => exact h.survey.resolve_left n
  | trans _ _ h k => exact k.trans h
  | _ => rfl

theorem sag_eq (h : Moves P s t) (n : ¬P .sag) : t.sag = s.sag := by
  induction h with
  | same h => exact h.sag.resolve_left n
  | trans _ _ h k => exact k.trans h
  | _ => rfl

theorem capture_eq (h : Moves P s t) (n : ¬P .capture) : t.capture = s.capture := by
  induction h with
  | same h => exact h.capture.resolve_left n
  | trans _ _ h k => exact k.trans h
  | _ => rfl

theorem harm_eq (h : Moves P s t) (n : ¬P .harm) : t.harm = s.harm := by
  induction h with
  | same h => exact h.harm.resolve_left n
  | trans _ _ h k => exact k.trans h
  | _ => rfl

theorem store_eq (h : Moves P s t) (n : ¬P .store) : t.store = s.store := by
  induction h with
  | same h => exact h.store.resolve_left n
  | trans _ _ h k => exact k.trans h
  | _ => rfl

theorem print_eq (h : Moves P s t) (n : ¬P .print) : t.print = s.print := by
  induction h with
  | same h => exact h.print.resolve_left n
  | trans _ _ h k => exact k.trans h
  | _ => rfl

theorem supply_eq (h : Moves P s t) (n : ¬P .supply) : t.supply = s.supply := by
  induction h with
  | same h => exact h.supply.resolve_left n
  | trans _ _ h k => exact k.trans h
  | _ => rfl

theorem free_eq (h : Moves P s t) (n : ¬P .free) : t.free = s.free := by
  induction h with
  | same h => exact h.free.resolve_left n
  | trans _ _ h k => exact k.trans h
  | _ => rfl

theorem array_eq (h : Moves P s t) (n : ¬P .array) : t.store.array = s.store.array := by
  induction h with
  | same h => exact h.array.resolve_left n
  | trans _ _ h k => exact k.trans h
  | _ => rfl

theorem canonical (h : Moves P s t) (k : CanonicalStore s) : CanonicalStore t := by
  induction h with
  | same h => exact h.canonical k
  | trans _ _ h g => exact g (h k)
  | _ => exact k

theorem freqOk (h : Moves P s t) (k : FreqOk s.tracker) : FreqOk t.tracker := by
  induction h with
  | same h => exact h.freq k
  | trans _ _ h g => exact g (h k)
  | _ => exact k

theorem shaped (h : Moves P s t) (k : Shaped s) : Shaped t := by
  induction h with
  | same h => exact h.shape k
  | trans _ _ h g => exact g (h k)
  | _ => exact k

/-- A fold of moves is a move. -/
theorem foldl {α : Type} (f : State → α → State) (hf : ∀ s a, Moves P s (f s a)) (xs : List α)
    (s : State) : Moves P s (xs.foldl f s) := by
  induction xs generalizing s with
  | nil => exact .refl s
  | cons x xs ih => exact (hf s x).trans (ih _)

/-- A fold that carries a value beside the state. -/
theorem foldl_snd {α β : Type} (f : β × State → α → β × State)
    (hf : ∀ b a, Moves P b.2 (f b a).2) (xs : List α) (b : β × State) :
    Moves P b.2 (xs.foldl f b).2 := by
  induction xs generalizing b with
  | nil => exact .refl _
  | cons x xs ih => exact (hf b x).trans (ih _)

theorem ite {c : Prop} [Decidable c] (h : Moves P s t) (k : Moves P s u) :
    Moves P s (if c then t else u) := by
  split <;> assumption

end Moves

end Sys2Proof.Machine
end

