-- ==== Sys2Proof/Laws/MovesFront.lean ====
section
/-!
SUPPORT. The moves of the shared operations, the pod bus, the tracker and the record store.
-/

-- One declaration at a time: many waiting threads would pass the memory limit of the check.
set_option Elab.async false
namespace Sys2Proof.Machine

variable {P : Part → Prop}

/-! ### Shared operations -/

theorem refuse_moves (st : Status) (s : State) : Moves P s (refuse st s) := .answer st .empty s

theorem postWhen_moves (c : Bool) (b : NoticeBody) (s : State) : Moves P s (postWhen c b s) := by
  unfold postWhen; split
  · exact .post b s
  · exact .refl s

theorem Shaped.modifySite {s : State} (k : Shaped s) {f : Site → Site} {site : Nat}
    (hf : ∀ e : Site, (f e).members.length = e.members.length) : Shaped (modifySite f site s) :=
  ⟨k.1, k.2.1, k.2.2.1, ⟨(updateAt_length _ _ _).trans k.2.2.2.1.1,
    updateAt_forall f (fun x h => (hf x).trans h) _ _ k.2.2.2.1.2⟩, k.2.2.2.2⟩

theorem Shaped.modifySag {s : State} (k : Shaped s) {f : SagSite → SagSite} {site : Nat}
    (hf : ∀ g : SagSite, (f g).channels.length = g.channels.length) : Shaped (modifySag f site s) :=
  ⟨k.1, k.2.1, k.2.2.1, k.2.2.2.1, ⟨(updateAt_length _ _ _).trans k.2.2.2.2.1.1,
    updateAt_forall f (fun x h => (hf x).trans h) _ _ k.2.2.2.2.1.2⟩, k.2.2.2.2.2⟩

theorem Shaped.modifyHarm {s : State} (k : Shaped s) {f : HarmSite → HarmSite} {site : Nat}
    (hf : ∀ g : HarmSite, (f g).members.length = g.members.length) :
    Shaped (modifyHarm f site s) :=
  ⟨k.1, k.2.1, k.2.2.1, k.2.2.2.1, k.2.2.2.2.1, k.2.2.2.2.2.1,
    ⟨(updateAt_length _ _ _).trans k.2.2.2.2.2.2.1,
      updateAt_forall f (fun x h => (hf x).trans h) _ _ k.2.2.2.2.2.2.2⟩⟩

theorem modifyEntry_moves (f : RosterEntry → RosterEntry) (slot : Nat) (s : State)
    (h : P .roster := by assumption) : Moves P s (modifyEntry f slot s) :=
  .same (by constructor <;> first | exact .inl h | rfl | exact .inr rfl | exact id |
    exact fun k : Shaped s => ⟨(updateAt_length _ _ _).trans k.1, k.2⟩)

theorem modifyReceive_moves (f : Receive → Receive) (slot : Nat) (s : State)
    (h : P .receive := by assumption) : Moves P s (modifyReceive f slot s) :=
  .same (by constructor <;> first | exact .inl h | rfl | exact .inr rfl | exact id |
    exact fun k : Shaped s => ⟨k.1, (updateAt_length _ _ _).trans k.2.1, k.2.2⟩)

theorem modifySite_moves (f : Site → Site) (site : Nat) (s : State)
    (hf : ∀ e : Site, (f e).members.length = e.members.length)
    (h : P .sites := by assumption) : Moves P s (modifySite f site s) :=
  .same (by constructor <;> first | exact .inl h | rfl | exact .inr rfl | exact id |
    exact fun k : Shaped s => k.modifySite hf)

theorem modifyMember_moves (f : Option Member → Option Member) (site role : Nat) (s : State)
    (h : P .sites := by assumption) : Moves P s (modifyMember f site role s) :=
  modifySite_moves _ _ _ fun _ => updateAt_length _ _ _

theorem modifySag_moves (f : SagSite → SagSite) (site : Nat) (s : State)
    (hf : ∀ g : SagSite, (f g).channels.length = g.channels.length)
    (h : P .sag := by assumption) : Moves P s (modifySag f site s) :=
  .same (by constructor <;> first | exact .inl h | rfl | exact .inr rfl | exact id |
    exact fun k : Shaped s => k.modifySag hf)

theorem modifyChannel_moves (f : Channel → Channel) (site role : Nat) (s : State)
    (h : P .sag := by assumption) : Moves P s (modifyChannel f site role s) :=
  modifySag_moves _ _ _ fun _ => updateAt_length _ _ _

theorem modifyHarm_moves (f : HarmSite → HarmSite) (site : Nat) (s : State)
    (hf : ∀ g : HarmSite, (f g).members.length = g.members.length)
    (h : P .harm := by assumption) : Moves P s (modifyHarm f site s) :=
  .same (by constructor <;> first | exact .inl h | rfl | exact .inr rfl | exact id |
    exact fun k : Shaped s => k.modifyHarm hf)

theorem modifyHarmMember_moves (f : HarmMember → HarmMember) (site role : Nat) (s : State)
    (h : P .harm := by assumption) : Moves P s (modifyHarmMember f site role s) :=
  modifyHarm_moves _ _ _ fun _ => updateAt_length _ _ _

theorem modifyCapture_moves (f : CaptureSlot → CaptureSlot) (slot : Nat) (s : State)
    (h : P .capture := by assumption) : Moves P s (modifyCapture f slot s) :=
  .same (by constructor <;> first | exact .inl h | rfl | exact .inr rfl | exact id |
    exact fun k : Shaped s => ⟨k.1, k.2.1, k.2.2.1, k.2.2.2.1, k.2.2.2.2.1, ⟨k.2.2.2.2.2.1.1, (updateAt_length _ _ _).trans k.2.2.2.2.2.1.2⟩, k.2.2.2.2.2.2⟩)

theorem drawFree_moves (s : State) (h : P .free := by assumption) : Moves P s (drawFree s).2 :=
  .same (by constructor <;> first | exact .inl h | rfl | exact .inr rfl | exact id)

/-! ### Pod bus -/

theorem setJoin_moves (j : Option Join) (s : State) (h : P .bus := by assumption) :
    Moves P s (setJoin j s) :=
  .same (by constructor <;> first | exact .inl h | rfl | exact .inr rfl | exact id)

theorem setCtrl_moves (c : ControlWord) (s : State) (h : P .bus := by assumption) :
    Moves P s (setCtrl c s) :=
  .same (by constructor <;> first | exact .inl h | rfl | exact .inr rfl | exact id)

theorem evaluateCalDue_moves (s : State) (h : P .roster := by assumption) :
    Moves P s (evaluateCalDue s) :=
  .same (by constructor <;> first | exact .inl h | rfl | exact .inr rfl | exact id |
    exact fun k : Shaped s => ⟨(List.length_map _).trans k.1, k.2⟩)

theorem pollWord_moves (s : State) (h : P .bus := by assumption) : Moves P s (pollWord s) := by
  unfold pollWord
  split <;>
    exact .same (by constructor <;> first | exact .inl h | rfl | exact .inr rfl | exact id)

theorem selectControl_moves (s : State) (h : P .bus := by assumption) :
    Moves P s (selectControl s) := by
  unfold selectControl
  split
  · exact pollWord_moves s
  · split
    · exact (setJoin_moves _ _).trans (setCtrl_moves _ _)
    · exact (setJoin_moves _ _).trans (setCtrl_moves _ _)
    · exact (setJoin_moves _ _).trans (setCtrl_moves _ _)
    · exact setCtrl_moves _ _

theorem probeAnswer_moves (frame : Nat) (words : List BusWord) (s : State)
    (h : P .bus := by assumption) (k : P .roster := by assumption) :
    Moves P s (probeAnswer frame words s) := by
  unfold probeAnswer
  exact .ite ((modifyEntry_moves _ _ _).trans (setJoin_moves _ _)) (.refl s)

theorem readFailed_moves (j : Join) (s : State) (h : P .bus := by assumption) :
    Moves P s (readFailed j s) :=
  .ite (setJoin_moves _ _) (setJoin_moves _ _)

theorem readComplete_moves (j : Join) (buffer : List Byte) (s : State)
    (h : P .bus := by assumption) : Moves P s (readComplete j buffer s) := by
  unfold readComplete
  split
  · exact readFailed_moves _ _
  · split <;> exact setJoin_moves _ _

theorem identityWord_moves (frame : Nat) (j : Join) (buffer : List Byte) (w : BusWord) (s : State)
    (h : P .bus := by assumption) (k : P .roster := by assumption) :
    Moves P s (identityWord frame j buffer w s) := by
  unfold identityWord
  split
  · exact .ite (setJoin_moves _ _) (readComplete_moves _ _ _)
  · exact .ite (readFailed_moves _ _) ((modifyEntry_moves _ _ _).trans (setJoin_moves _ _))

theorem joinFault_moves (j : Join) (cause : FaultCause) (serial : Option Nat) (s : State)
    (h : P .bus := by assumption) (k : P .roster := by assumption) :
    Moves P s (joinFault j cause serial s) :=
  ((modifyEntry_moves _ _ _).trans (setJoin_moves _ _)).trans (.post _ _)

theorem joinFrame_moves (frame : Nat) (words : List BusWord) (s : State)
    (h : P .bus := by assumption) (k : P .roster := by assumption) :
    Moves P s (joinFrame frame words s) := by
  unfold joinFrame
  split
  · exact .refl s
  · split
    · exact setJoin_moves _ _
    · exact identityWord_moves _ _ _ _ _
    · exact joinFault_moves _ _ _ _
    · exact .refl s

theorem takeWord_moves (frame : Nat) (words : List BusWord) (s : State) (slot : Nat)
    (h : P .roster := by assumption) (k : P .receive := by assumption) :
    Moves P s (takeWord frame words s slot) :=
  (modifyEntry_moves _ _ _).trans (modifyReceive_moves _ _ _)

theorem takeWords_moves (frame : Nat) (words : List BusWord) (s : State)
    (h : P .roster := by assumption) (k : P .receive := by assumption) :
    Moves P s (takeWords frame words s) :=
  .foldl _ (fun s slot => takeWord_moves frame words s slot) _ _

theorem podRetry_moves (slot : Byte) (s : State) (h : P .roster := by assumption) :
    Moves P s (podRetry slot s) := by
  unfold podRetry
  dsimp only
  split
  · exact refuse_moves _ _
  · split
    · exact refuse_moves _ _
    · exact (modifyEntry_moves _ _ _).trans (.answer _ _ _)
    · exact refuse_moves _ _

theorem podClear_moves (slot : Byte) (s : State) (h : P .roster := by assumption) :
    Moves P s (podClear slot s) :=
  .ite (refuse_moves _ _) (.ite (refuse_moves _ _) ((modifyEntry_moves _ _ _).trans (.answer _ _ _)))

theorem podStatus_moves (slot : Byte) (s : State) : Moves P s (podStatus slot s) :=
  .ite (refuse_moves _ _) (.ite (refuse_moves _ _) (.answer _ _ _))

theorem podRoster_moves (s : State) : Moves P s (podRoster s) := .answer _ _ _

/-! ### Tracker -/

theorem clampFreq_range (f : Int) : 42000 ≤ clampFreq f ∧ clampFreq f ≤ 69999 := by
  unfold clampFreq clampInt
  split
  · decide
  · split
    · decide
    · omega

theorem nominal_range (straps : Straps) : 42000 ≤ nominal straps ∧ nominal straps ≤ 69999 := by
  unfold nominal; split <;> decide

theorem setTracker_moves (f : Tracker → Tracker) (s : State)
    (k : FreqOk s.tracker → FreqOk (f s.tracker)) (h : P .tracker := by assumption) :
    Moves P s (setTracker f s) :=
  .same (by constructor <;> first | exact .inl h | rfl | exact .inr rfl | exact id | exact k)

theorem postTrack_moves (old : TrackerState) (cause : TrackCause) (s : State) :
    Moves P s (postTrack old cause s) := postWhen_moves _ _ _

theorem acquire_moves (p : Nat) (s : State) (h : P .tracker := by assumption) :
    Moves P s (acquire p s) := by
  unfold acquire
  dsimp only
  split
  · exact setTracker_moves _ _ id
  · have k : Moves P s (setTracker (fun t => t.setFreq (smoothed t.f p 2)) s) :=
      setTracker_moves _ s fun _ => ⟨rfl, clampFreq_range _⟩
    exact k.trans (.ite (setTracker_moves _ _ id)
      (.trans (setTracker_moves _ _ id) (postTrack_moves _ _ _)))

theorem enterHoldover_moves (cause : TrackCause) (s : State) (h : P .tracker := by assumption) :
    Moves P s (enterHoldover cause s) :=
  (setTracker_moves _ _ id).trans (postTrack_moves _ _ _)

theorem takePeriod_moves (p : Nat) (s : State) (h : P .tracker := by assumption) :
    Moves P s (takePeriod p s) := by
  unfold takePeriod
  split
  · exact acquire_moves _ _
  · exact .ite (setTracker_moves _ s fun _ => ⟨rfl, clampFreq_range _⟩) (enterHoldover_moves _ _)
  · split
    · exact .trans (.trans (setTracker_moves _ _ fun _ => ⟨rfl, clampFreq_range _⟩)
        (setTracker_moves _ _ id)) (postTrack_moves _ _ _)
    · exact .refl s
  · exact .refl s

theorem crossingConfirmed_moves (time : Nat) (s : State) (h : P .tracker := by assumption) :
    Moves P s (crossingConfirmed time s) := by
  unfold crossingConfirmed
  refine Moves.trans (t := match s.tracker.lastCross with
    | some last => takePeriod (period time last) s
    | none => s) ?_ (setTracker_moves _ _ fun k => ?_)
  · split
    · exact takePeriod_moves _ _
    · exact .refl s
  · generalize (match s.tracker.lastCross with
      | some last => takePeriod (period time last) s
      | none => s) = t at k ⊢
    dsimp only
    split <;> exact k

theorem noCrossingTimeout_moves (s : State) (h : P .tracker := by assumption) :
    Moves P s (noCrossingTimeout s) :=
  .ite ((enterHoldover_moves _ _).trans (setTracker_moves _ _ id)) (.refl s)

theorem trackFrame_moves (frame : Nat) (samples : List (Nat × Sample)) (s : State)
    (h : P .tracker := by assumption) : Moves P s (trackFrame frame samples s) := by
  unfold trackFrame
  refine Moves.trans ?_ (setTracker_moves _ _ id)
  split
  · dsimp only
    split
    · exact .trans (setTracker_moves _ _ id) (crossingConfirmed_moves _ _)
    · exact .trans (setTracker_moves _ _ id) (setTracker_moves _ _ id)
  · exact setTracker_moves _ _ id

theorem referenceAtFrame_moves (s : State) (h : P .tracker := by assumption) :
    Moves P s (referenceAtFrame s) := by
  unfold referenceAtFrame
  dsimp only
  refine (setTracker_moves (fun t => { t with wanted := wantedReference s }) s id).trans ?_
  split
  · exact .refl _
  · split
    · exact .ite (.refl _) (setTracker_moves _ _ id)
    · exact setTracker_moves _ _ id

theorem ncoCarry_moves (s : State) (h : P .tracker := by assumption)
    (k : P .free := by assumption) : Moves P s (ncoCarry s) := by
  unfold ncoCarry
  dsimp only [drawFree]
  split <;>
    exact .same (by
      constructor <;> first | exact .inl h | exact .inl k | rfl | exact .inr rfl | exact id)

theorem setRotation_moves (site : Nat) (r : Rotation) (s : State)
    (h : P .rotation := by assumption) : Moves P s (setRotation site r s) :=
  .same (by constructor <;> first | exact .inl h | rfl | exact .inr rfl | exact id |
    exact fun k : Shaped s => ⟨k.1, k.2.1, (updateAt_length _ _ _).trans k.2.2.1, k.2.2.2⟩)

theorem moveRotation_moves (site : Nat) (r : Rotation) (s : State)
    (h : P .rotation := by assumption) : Moves P s (moveRotation site r s) :=
  (setRotation_moves _ _ _).trans (postWhen_moves _ _ _)

/-- What a site's rotation check is after it has been set, and that no other site's moves (R38). -/
theorem moveRotation_rotationOf (site k : Nat) (r : Rotation) (s : State)
    (h : site < s.rotation.length) :
    rotationOf (moveRotation site r s) k = if k = site then r else rotationOf s k := by
  have e : (moveRotation site r s).rotation = updateAt (fun _ => r) site s.rotation := by
    simp only [moveRotation, postWhen]
    split <;> rfl
  unfold rotationOf
  rw [e]
  split
  · subst k; exact updateAt_getD_same _ _ _ _ h
  · exact updateAt_getD_other _ _ _ _ _ ‹_›

/-- R38, whole: the check goes on where it runs on what it ran on, and starts from UNKNOWN elsewhere. -/
theorem refreshRotation_rotationOf (site k : Nat) (s : State) (h : site < s.rotation.length) :
    rotationOf (refreshRotation s site) k =
      if k = site ∧ rotationRuns s site ≠ (rotationOf s site).running then
        { running := rotationRuns s site }
      else rotationOf s k := by
  by_cases e : rotationRuns s site = (rotationOf s site).running
  · simp [refreshRotation, e]
  · simp [refreshRotation, e, moveRotation_rotationOf _ _ _ _ h]

theorem refreshRotation_moves (s : State) (site : Nat) (h : P .rotation := by assumption) :
    Moves P s (refreshRotation s site) :=
  .ite (.refl s) (moveRotation_moves _ _ _)

theorem refreshRotations_moves (s : State) (h : P .rotation := by assumption) :
    Moves P s (refreshRotations s) :=
  .foldl _ (fun s site => refreshRotation_moves s site) _ _

theorem rotationFrame_moves (frame : Nat) (samples : List (Nat × Sample)) (s : State)
    (h : P .rotation := by assumption) : Moves P s (rotationFrame frame samples s) :=
  .foldl _ (fun s site => moveRotation_moves site _ s) _ _

theorem trackerAcqReset_moves (s : State) (h : P .tracker := by assumption)
    (k : P .rotation := by assumption) : Moves P s (trackerAcqReset s) :=
  .trans (.trans (setTracker_moves _ _ fun _ => ⟨rfl, nominal_range _⟩) (postTrack_moves _ _ _))
    (.foldl _ (fun s site => moveRotation_moves site {} s) _ _)

theorem trackRef_moves (slot : Byte) (s : State) (h : P .tracker := by assumption) :
    Moves P s (trackRef slot s) := by
  have accept : ∀ r : Option Nat, Moves P s
      (answer .ok (.reference r s.tracker.wanted)
        (setTracker (fun t => { t with selection := r }) s)) :=
    fun r => (setTracker_moves _ _ id).trans (.answer _ _ _)
  unfold trackRef
  exact .ite (refuse_moves _ _) (.ite (accept _) (.ite (refuse_moves _ _)
    (.ite (accept _) (refuse_moves _ _))))

theorem setFixed_moves (freq : Word) (s : State) (h : P .tracker := by assumption) :
    Moves P s (setFixed freq s) := by
  unfold setFixed
  dsimp only
  split
  · refine .trans (.trans (setTracker_moves _ _ fun _ => ⟨rfl, ?_⟩) (postTrack_moves _ _ _))
      (.answer _ _ _)
    show 42000 ≤ clampNat _ _ _ ∧ clampNat _ _ _ ≤ 69999
    unfold clampNat
    split
    · decide
    · split
      · decide
      · omega
  · split
    · exact ((setTracker_moves _ _ id).trans (postTrack_moves _ _ _)).trans (.answer _ _ _)
    · exact refuse_moves _ _

theorem trackFixed_moves (freq : Word) (s : State) (h : P .tracker := by assumption) :
    Moves P s (trackFixed freq s) := (noCrossingTimeout_moves s).trans (setFixed_moves freq _)

theorem reportTrack_moves (clear : Bool) (s : State) (h : P .tracker := by assumption) :
    Moves P s (reportTrack clear s) :=
  (Moves.ite (setTracker_moves _ _ id) (.refl s)).trans (.answer _ _ _)

theorem trackStatus_moves (clear : Bool) (s : State) (h : P .tracker := by assumption) :
    Moves P s (trackStatus clear s) := (noCrossingTimeout_moves s).trans (reportTrack_moves clear _)

end Sys2Proof.Machine
end

