-- ==== Sys2Proof/Laws/MovesStore.lean ====
section
/-!
SUPPORT. The moves of the record store: an operation that programs or erases needs `P .array`.
-/

-- One declaration at a time: many waiting threads would pass the memory limit of the check.
set_option Elab.async false
namespace Sys2Proof.Machine

variable {P : Part → Prop}

/-- A change of the store that leaves the array. -/
theorem setStore_moves (f : Store → Store) (s : State) (k : (f s.store).array = s.store.array)
    (h : P .store := by assumption) : Moves P s (setStore f s) :=
  .same (by
    constructor <;> first | exact .inl h | rfl | exact .inr rfl | exact .inr k | exact id | skip
    intro c; unfold CanonicalStore; rw [show (setStore f s).store.array = s.store.array from k]
    exact c)

/-- A change of the store that keeps the array canonical. -/
theorem setArray_moves (f : Store → Store) (s : State)
    (k : Memory.wf s.store.array = true → Memory.wf (f s.store).array = true)
    (h : P .store := by assumption) (h' : P .array := by assumption) : Moves P s (setStore f s) :=
  .same (by
    constructor <;> first | exact .inl h | exact .inl h' | rfl | exact .inr rfl | exact id | exact k)

theorem enterStore_moves (new : StoreState) (s : State) (h : P .store := by assumption) :
    Moves P s (enterStore new s) :=
  .trans (setStore_moves _ _ rfl) (postWhen_moves _ _ _)

/-! ### The array of each store operation -/

theorem Store.enqueue_array (id : Nat) (c : Content) (links : Links) (st : Store) :
    (st.enqueue id c links).array = st.array := rfl

theorem drawId_array (kind : RecordKind) (st : Store) : (drawId kind st).2.array = st.array := by
  unfold drawId; dsimp only; split <;> rfl

theorem Store.openPlace_array (loc : Nat × Nat) (opened : Bool) (st : Store) :
    (st.openPlace loc opened).array = st.array := by
  unfold Store.openPlace; dsimp only; split <;> rfl

theorem beginWrite_array (st : Store) : (beginWrite st).array = st.array := by
  unfold beginWrite
  split
  · rfl
  · dsimp only; split
    · exact Store.openPlace_array _ _ _
    · rfl

theorem nextReclaim_array (st : Store) : (nextReclaim st).array = st.array := by
  unfold nextReclaim
  split
  · rfl
  · split
    · dsimp only
      split
      · split
        · exact Store.openPlace_array _ _ _
        · rfl
      · rfl
    · rfl

theorem Store.next_array (st : Store) : st.next.array = st.array := by
  unfold Store.next
  split
  · rfl
  · split
    · rfl
    · rfl
    · split
      · exact nextReclaim_array _
      · exact beginWrite_array _
      · rfl

theorem Store.insertEntry_array (e : Entry) (st : Store) : (st.insertEntry e).array = st.array := rfl

theorem Store.moveEntry_array (e : Entry) (seq : Nat) (loc : Nat × Nat) (size : Nat)
    (cause : MarkCause) (st : Store) : (st.moveEntry e seq loc size cause).array = st.array := by
  unfold Store.moveEntry; dsimp only; split <;> rfl

theorem Store.recordWritten_array (q : QueueItem) (seq : Nat) (loc : Nat × Nat) (size : Nat)
    (st : Store) : (st.recordWritten q seq loc size).array = st.array := by
  unfold Store.recordWritten
  split
  · rfl
  · split
    · exact Store.moveEntry_array _ _ _ _ _ _
    · rfl

theorem Store.program_wf (kind : RecordKind) (id seq : Nat) (loc : Nat × Nat) (c : Content)
    (st : Store) (h : Memory.wf st.array = true) :
    Memory.wf (st.program kind id seq loc c).array = true :=
  Memory.wf_write _ _ _ h

theorem Store.programStep_wf (loc : Nat × Nat) (st : Store) (h : Memory.wf st.array = true) :
    Memory.wf (st.programStep loc).array = true :=
  Memory.wf_write _ _ _ h

/-! ### Queue and reclaim -/

theorem storeNext_moves (s : State) (h : P .store := by assumption) : Moves P s (storeNext s) :=
  setStore_moves _ _ (Store.next_array _)

theorem offerEvent_moves (r : EventRecord) (s : State) (h : P .store := by assumption) :
    Moves P s (offerEvent r s).2 :=
  .ite (setStore_moves _ _ rfl) (setStore_moves _ _ rfl)

theorem queueSurvey_moves (r : SurveyRecord) (s : State) (h : P .store := by assumption)
    (k : P .survey := by assumption) : Moves P s (queueSurvey r s) := by
  have e := drawId_array .survey s.store
  apply Moves.same
  constructor <;> first
    | exact .inl h | exact .inl k | rfl | exact .inr rfl | exact .inr e | exact id | skip
  intro c
  show Memory.wf (drawId .survey s.store).2.array = true
  rw [e]
  exact c

theorem offerSurvey_moves (s : State) (h : P .store := by assumption)
    (k : P .survey := by assumption) : Moves P s (offerSurvey s) := by
  unfold offerSurvey
  split
  · exact .refl s
  · split
    · exact queueSurvey_moves _ _
    · exact .refl s

theorem queueInterval_moves (r : IntervalRecord) (s : State) (h : P .store := by assumption) :
    Moves P s (queueInterval r s) :=
  setStore_moves (fun st => (drawId .interval st).2.enqueue _ _ _) s (drawId_array _ _)

theorem dropInterval_moves (s : State) (h : P .store := by assumption) :
    Moves P s (dropInterval s) :=
  setStore_moves _ _ rfl

theorem handInterval_moves (s : State) (h : P .store := by assumption)
    (k : P .harm := by assumption) : Moves P s (handInterval s) := by
  unfold handInterval
  split
  · exact .refl s
  · split
    · exact .refl s
    · exact .trans (modifyHarmMember_moves _ _ _ _)
        (.ite (dropInterval_moves _) (queueInterval_moves _ _))

theorem handIntervals_moves (n : Nat) (s : State) (h : P .store := by assumption)
    (k : P .harm := by assumption) : Moves P s (handIntervals n s) := by
  induction n generalizing s with
  | zero => exact .refl s
  | succ n ih => exact .trans (handInterval_moves s) (ih _)

/-- Where no INTERVAL record waits, an announcement hands none (R111). -/
theorem handIntervals_none (n : Nat) (s : State) (h : nextWaiting s = none) :
    handIntervals n s = s := by
  induction n with
  | zero => rfl
  | succ n ih => simpa [handIntervals, handInterval, h] using ih

theorem announcePlace_moves (s : State) (h : P .store := by assumption)
    (k : P .survey := by assumption) (l : P .harm := by assumption)
    (m : P .free := by assumption) : Moves P s (announcePlace s) := by
  unfold announcePlace
  split
  · exact .trans (drawFree_moves s)
      (.trans (handIntervals_moves _ _) (.trans (offerSurvey_moves _) (handIntervals_moves _ _)))
  · exact .trans (offerSurvey_moves _) (handIntervals_moves _ _)

theorem startReclaim_moves (sector : Nat) (s : State) (h : P .store := by assumption) :
    Moves P s (startReclaim sector s) :=
  .trans (setStore_moves _ _ rfl) (enterStore_moves _ _)

theorem chooseReclaim_moves (s : State) (h : P .store := by assumption) :
    Moves P s (chooseReclaim s) := by
  unfold chooseReclaim
  split
  · exact startReclaim_moves _ _
  · exact enterStore_moves _ _

theorem recheckFull_moves (s : State) (h : P .store := by assumption) :
    Moves P s (recheckFull s) := by
  unfold recheckFull
  split
  · split
    · exact startReclaim_moves _ _
    · exact .refl s
  · exact .refl s

theorem wipeEmpty_moves (s : State) (h : P .store := by assumption)
    (k : P .survey := by assumption) (l : P .harm := by assumption) : Moves P s (wipeEmpty s) :=
  .same (by
    constructor <;> first
      | exact .inl h | exact .inl k | exact .inl l | rfl | exact .inr rfl | exact id
      | exact fun k : Shaped s => ⟨k.1, k.2.1, k.2.2.1, k.2.2.2.1, k.2.2.2.2.1, k.2.2.2.2.2.1,
          harmShape_map _ rfl (fun _ => List.length_map _) k⟩)

theorem afterOp_moves (s : State) (h : P .store := by assumption) (k : P .survey := by assumption)
    (l : P .harm := by assumption) : Moves P s (afterOp s) :=
  .ite (wipeEmpty_moves s) (storeNext_moves s)

theorem lockWritten_moves (r : LockRecord) (s : State) (h : P .store := by assumption) :
    Moves P s (lockWritten r s) :=
  .trans (.trans (setStore_moves _ _ rfl) (.post _ _)) (.answer _ _ _)

/-! ### Ends of array operations -/

theorem Store.writeEnds_wf (q : QueueItem) (rest : List QueueItem) (seq : Nat) (loc : Nat × Nat)
    (size : Nat) (st : Store) (h : Memory.wf st.array = true) :
    Memory.wf (st.writeEnds q rest seq loc size).array = true := by
  show Memory.wf (Store.recordWritten q seq loc size _).array = true
  rw [Store.recordWritten_array]
  exact Store.program_wf _ _ _ _ _ _ h

theorem Store.copyEnds_wf (e : Entry) (seq : Nat) (loc : Nat × Nat) (size : Nat) (c : Content)
    (st : Store) (h : Memory.wf st.array = true) :
    Memory.wf (st.copyEnds e seq loc size c).array = true := by
  show Memory.wf (Store.moveEntry e seq loc size .relocation _).array = true
  rw [Store.moveEntry_array]
  exact Store.program_wf _ _ _ _ _ _ h

theorem markWritten_moves (c : Content) (s : State) (h : P .store := by assumption) :
    Moves P s (markWritten c s) := by
  unfold markWritten
  split
  · exact lockWritten_moves _ _
  · exact .refl s

theorem headTrigger_moves (opened : Bool) (s : State) (h : P .store := by assumption) :
    Moves P s (headTrigger opened s) :=
  .ite (chooseReclaim_moves _) (.refl _)

theorem afterWrite_moves (opened : Bool) (s : State) (h : P .store := by assumption)
    (k : P .survey := by assumption) (l : P .harm := by assumption)
    (m : P .free := by assumption) : Moves P s (afterWrite opened s) :=
  .ite (wipeEmpty_moves _)
    (.trans (announcePlace_moves _) (.trans (headTrigger_moves _ _) (storeNext_moves _)))

theorem recordWriteDone_moves (s : State) (h : P .store := by assumption)
    (a : P .array := by assumption) (k : P .survey := by assumption)
    (l : P .harm := by assumption) (m : P .free := by assumption) :
    Moves P s (recordWriteDone s) := by
  unfold recordWriteDone
  split
  · exact .trans (setArray_moves _ _ (Store.writeEnds_wf _ _ _ _ _ _))
      (.trans (markWritten_moves _ _) (afterWrite_moves _ _))
  · exact .refl s

theorem relocationCopyDone_moves (s : State) (h : P .store := by assumption)
    (a : P .array := by assumption) (k : P .survey := by assumption)
    (l : P .harm := by assumption) : Moves P s (relocationCopyDone s) := by
  unfold relocationCopyDone
  split
  · split
    · exact .trans (setArray_moves _ _ (Store.copyEnds_wf _ _ _ _ _ _)) (afterOp_moves _)
    · exact .trans (setStore_moves _ _ rfl) (afterOp_moves _)
  · exact .refl s

theorem deadMarkDone_moves (s : State) (h : P .store := by assumption)
    (a : P .array := by assumption) (k : P .survey := by assumption)
    (l : P .harm := by assumption) : Moves P s (deadMarkDone s) := by
  unfold deadMarkDone
  split
  · rename_i m _
    dsimp only
    refine .trans (setArray_moves (Store.markDead m.loc) _ (Memory.wf_write _ _ _)) ?_
    split
    · exact .trans (.answer _ _ _) (.trans (recheckFull_moves _) (afterOp_moves _))
    · exact afterOp_moves _
  · exact .refl s

theorem sectorEraseDone_moves (s : State) (h : P .store := by assumption)
    (a : P .array := by assumption) (k : P .survey := by assumption)
    (l : P .harm := by assumption) : Moves P s (sectorEraseDone s) := by
  unfold sectorEraseDone
  split
  · rename_i sector _
    dsimp only
    refine .trans (setArray_moves (Store.reclaimEnds sector) _ (Memory.wf_erase _ _ _)) ?_
    refine .ite (wipeEmpty_moves _) (.trans ?_ (storeNext_moves _))
    exact .ite (chooseReclaim_moves _) (enterStore_moves _ _)
  · exact .refl s

theorem extensionStepDone_moves (s : State) (h : P .store := by assumption)
    (a : P .array := by assumption) (k : P .survey := by assumption)
    (l : P .harm := by assumption) : Moves P s (extensionStepDone s) := by
  unfold extensionStepDone
  split
  · rename_i loc _
    exact .trans (setArray_moves (Store.stepEnds loc) _ (Store.programStep_wf _ _)) (afterOp_moves _)
  · exact .refl s

theorem pinRecord_moves (p : RecordKind × Nat) (s : State) (h : P .store := by assumption) :
    Moves P s (pinRecord p s) := setStore_moves _ _ rfl

theorem unpinRecord_moves (s : State) (p : RecordKind × Nat) (h : P .store := by assumption) :
    Moves P s (unpinRecord s p) :=
  .trans (setStore_moves _ _ rfl) (.trans (recheckFull_moves _) (storeNext_moves _))

end Sys2Proof.Machine
end

