-- ==== Sys2Proof/Laws/HandOver.lean ====
section
/-!
SUPPORT. What becomes of the free places of the write queue (R56, R111, R123): `announcePlace_handsOver` says
once what the hand-over can do.
-/

-- One declaration at a time: many waiting threads would pass the memory limit of the check.
set_option Elab.async false
namespace Sys2Proof.Machine

/-- R111's order of two waiting records. -/
def WaitsBefore (a b : Nat × Nat × Nat × IntervalRecord) : Prop :=
  a.1 < b.1 ∨ a.1 = b.1 ∧ (a.2.1 < b.2.1 ∨ a.2.1 = b.2.1 ∧ a.2.2.1 < b.2.2.1)

/-- A waiting INTERVAL record with its close moment, site and role. -/
abbrev WaitingRecord := Nat × Nat × Nat × IntervalRecord

/-- A record waits in the closing place of its position. -/
def WaitsIn (s : State) (w : WaitingRecord) : Prop :=
  (harmMember s w.2.1 w.2.2.1).place = some (w.2.2.2, w.1)

/-- The earlier of the record found so far and the one that waits at a position. -/
def earlierWaiting (s : State) (best : Option WaitingRecord) (p : Nat × Nat) : Option WaitingRecord :=
  match (harmMember s p.1 p.2).place with
  | none => best
  | some (r, moment) =>
    match best with
    | some b => if moment < b.1 then some (moment, p.1, p.2, r) else best
    | none => some (moment, p.1, p.2, r)

theorem nextWaiting_eq (s : State) :
    nextWaiting s = (allPositions.foldl (earlierWaiting s) none).map (·.2) := rfl

/-- Site and then role order. -/
def PositionBefore (p q : Nat × Nat) : Prop := p.1 < q.1 ∨ p.1 = q.1 ∧ p.2 < q.2

/-- The fold keeps the earliest of those it has seen. -/
theorem earlierWaiting_spec (s : State) (ps : List (Nat × Nat)) (hp : ps.Pairwise PositionBefore) : ∀ b,
    (∀ w, b = some w → ∀ p ∈ ps, PositionBefore (w.2.1, w.2.2.1) p) →
    match ps.foldl (earlierWaiting s) b with
    | none => b = none ∧ ∀ p ∈ ps, (harmMember s p.1 p.2).place = none
    | some w => (b = some w ∨ (w.2.1, w.2.2.1) ∈ ps ∧ WaitsIn s w) ∧
        (∀ c, b = some c → w = c ∨ WaitsBefore w c) ∧
        ∀ c, (c.2.1, c.2.2.1) ∈ ps → WaitsIn s c → w = c ∨ WaitsBefore w c := by
  induction ps with
  | nil => intro b _; cases b <;> simp
  | cons p ps ih =>
    intro b hb
    obtain ⟨hp1, hp2⟩ := List.pairwise_cons.1 hp
    rw [List.foldl_cons]
    cases hpl : (harmMember s p.1 p.2).place with
    | none =>
      have e : earlierWaiting s b p = b := by simp [earlierWaiting, hpl]
      rw [e]
      have := ih hp2 b (fun w h q hq => hb w h q (List.mem_cons_of_mem _ hq))
      cases hr : ps.foldl (earlierWaiting s) b with
      | none =>
        rw [hr] at this
        exact ⟨this.1, fun q hq => (List.mem_cons.1 hq).elim (fun h => h ▸ hpl) (this.2 q)⟩
      | some w =>
        rw [hr] at this
        refine ⟨this.1.imp_right fun h => ⟨List.mem_cons_of_mem _ h.1, h.2⟩, this.2.1, fun c hc hw => ?_⟩
        rcases List.mem_cons.1 hc with h | h
        · unfold WaitsIn at hw; rw [← h] at hpl; simp at hpl; rw [hpl] at hw; cases hw
        · exact this.2.2 c h hw
    | some x =>
      obtain ⟨r, m⟩ := x
      set n : WaitingRecord := (m, p.1, p.2, r) with hn
      have wn : WaitsIn s n := hpl
      have uniq : ∀ c : WaitingRecord, (c.2.1, c.2.2.1) = p → WaitsIn s c → c = n := by
        rintro ⟨m', i, j, r'⟩ h hw
        cases h
        unfold WaitsIn at hw
        simp at hw hpl
        rw [hpl] at hw
        cases hw
        rfl
      by_cases hlt : ∃ d, b = some d ∧ ¬m < d.1
      · obtain ⟨d, hd, hl⟩ := hlt
        have e : earlierWaiting s b p = b := by simp [earlierWaiting, hpl, hd, hl]
        rw [e]
        have := ih hp2 b (fun w h q hq => hb w h q (List.mem_cons_of_mem _ hq))
        cases hr : ps.foldl (earlierWaiting s) b with
        | none => rw [hr] at this; rw [hd] at this; cases this.1
        | some w =>
          rw [hr] at this
          refine ⟨this.1.imp_right fun h => ⟨List.mem_cons_of_mem _ h.1, h.2⟩, this.2.1, fun c hc hw => ?_⟩
          rcases List.mem_cons.1 hc with h | h
          · have hcn := uniq c h hw
            have hbd := hb d hd p (List.mem_cons_self ..)
            have edn : WaitsBefore d n := by
              unfold WaitsBefore PositionBefore at *
              simp at hbd
              simp [hn]; omega
            right
            rcases this.2.1 d hd with h1 | h1
            · rw [h1, hcn]; exact edn
            · rw [hcn]; unfold WaitsBefore at *; omega
          · exact this.2.2 c h hw
      · have e : earlierWaiting s b p = some n := by
          unfold earlierWaiting
          cases b with
          | none => simp [hpl, hn]
          | some d =>
            have : m < d.1 := by by_contra h; exact hlt ⟨d, rfl, h⟩
            simp [hpl, this, hn]
        rw [e]
        have := ih hp2 (some n) (by intro w h q hq; cases h; exact hp1 q hq)
        cases hr : ps.foldl (earlierWaiting s) (some n) with
        | none => rw [hr] at this; cases this.1
        | some w =>
          rw [hr] at this
          have nw := this.2.1 n rfl
          refine ⟨Or.inr ?_, fun c hc => ?_, fun c hc hw => ?_⟩
          · rcases this.1 with h | h
            · cases h; exact ⟨List.mem_cons_self .., wn⟩
            · exact ⟨List.mem_cons_of_mem _ h.1, h.2⟩
          · right
            have : m < c.1 := by by_contra h; exact hlt ⟨c, hc, h⟩
            have enc : n.1 < c.1 := this
            rcases nw with h | h
            · rw [h]; exact .inl enc
            · unfold WaitsBefore at *; omega
          · rcases List.mem_cons.1 hc with h | h
            · rw [uniq c h hw]; exact nw
            · exact this.2.2 c h hw

/-- The next waiting record is the first in R111's order. -/
theorem nextWaiting_head (s : State) (ws : List WaitingRecord) (h : WaitingInOrder s ws) :
    nextWaiting s = ws.head?.map (·.2) := by
  obtain ⟨hp, hm⟩ := h
  have spec := earlierWaiting_spec s allPositions (by unfold PositionBefore; decide) none (by simp)
  rw [nextWaiting_eq]
  cases hr : allPositions.foldl (earlierWaiting s) none with
  | none =>
    rw [hr] at spec
    cases ws with
    | nil => rfl
    | cons w ws =>
      obtain ⟨m, i, j, r⟩ := w
      have := (hm m i j r).1 (List.mem_cons_self ..)
      have hin : (i, j) ∈ allPositions := by
        simp [allPositions]; exact ⟨this.1, this.2.1⟩
      have := spec.2 _ hin
      simp_all
  | some w =>
    rw [hr] at spec
    obtain ⟨h1, -, h3⟩ := spec
    obtain ⟨hin, hw⟩ := h1.resolve_left (by simp)
    obtain ⟨m, i, j, r⟩ := w
    have hin' : i < 4 ∧ j < 8 := by simpa [allPositions] using hin
    have mem := (hm m i j r).2 ⟨hin'.1, hin'.2, hw⟩
    cases ws with
    | nil => cases mem
    | cons v vs =>
      obtain ⟨m', i', j', r'⟩ := v
      have hv := (hm m' i' j' r').1 (List.mem_cons_self ..)
      have := h3 (m', i', j', r') (by simp [allPositions]; exact ⟨hv.1, hv.2.1⟩) hv.2.2
      rcases this with h | h
      · rw [h]; rfl
      · rcases List.mem_cons.1 mem with h' | h'
        · rw [h']; rfl
        · have := (List.pairwise_cons.1 hp).1 _ h'
          unfold WaitsBefore at h
          omega

theorem harmMember_modify_same (f : HarmMember → HarmMember) (i j : Nat) (s : State)
    (h : harmMember s i j ≠ {}) : harmMember (modifyHarmMember f i j s) i j = f (harmMember s i j) := by
  have hi : i < s.harm.sites.length := by
    by_contra hc
    apply h
    have d : ∀ j, (({} : HarmSite).members).getD j {} = {} := by
      intro j
      match j with
      | 0 | 1 | 2 | 3 | 4 | 5 | 6 | 7 => rfl
      | n + 8 => rfl
    unfold harmMember harmSite
    rw [List.getD_eq_default _ _ (Nat.le_of_not_lt hc)]
    exact d j
  have hj : j < (harmSite s i).members.length := by
    by_contra hc
    apply h
    simp only [harmMember]
    exact List.getD_eq_default _ _ (Nat.le_of_not_lt hc)
  unfold modifyHarmMember
  unfold harmMember
  rw [harmSite_modifyHarm _ _ _ hi]
  exact updateAt_getD_same f _ _ _ hj

theorem harmMember_modify_other (f : HarmMember → HarmMember) (i j a b : Nat) (s : State)
    (h : (a, b) ≠ (i, j)) : harmMember (modifyHarmMember f i j s) a b = harmMember s a b := by
  unfold modifyHarmMember harmMember
  by_cases ha : a = i
  · subst ha
    by_cases hi : a < s.harm.sites.length
    · rw [harmSite_modifyHarm _ _ _ hi]
      exact updateAt_getD_other f _ _ _ _ (by rintro rfl; exact h rfl)
    · have e1 : harmSite s a = {} := List.getD_eq_default _ _ (Nat.le_of_not_lt hi)
      have e2 : harmSite (modifyHarm (fun h => { h with members := updateAt f j h.members }) a s) a = {} :=
        List.getD_eq_default _ _ (by simpa [modifyHarm] using Nat.le_of_not_lt hi)
      rw [e1, e2]
  · rw [harmSite_modifyHarm_other _ _ _ _ ha]

/-- What a hand-over looks at beside the queue and the counts. -/
structure HandoverKeeps (s u : State) : Prop where
  survey : u.survey = s.survey
  clock : u.clock = s.clock
  state : u.store.state = s.store.state
  surveyId : u.store.nextIds.survey = s.store.nextIds.survey

/-- Those that wait after the first of them has been taken. -/
theorem waitingInOrder_tail (s u : State) (w : WaitingRecord) (ws : List WaitingRecord)
    (h : WaitingInOrder s (w :: ws))
    (h1 : (harmMember u w.2.1 w.2.2.1).place = none)
    (h2 : ∀ a b, (a, b) ≠ (w.2.1, w.2.2.1) → (harmMember u a b).place = (harmMember s a b).place) :
    WaitingInOrder u ws := by
  obtain ⟨hp, hm⟩ := h
  obtain ⟨hp1, hp2⟩ := List.pairwise_cons.1 hp
  refine ⟨hp2, fun m i j r => ?_⟩
  constructor
  · intro hmem
    obtain ⟨a, b, c⟩ := (hm m i j r).1 (List.mem_cons_of_mem _ hmem)
    refine ⟨a, b, ?_⟩
    rw [h2]
    · exact c
    · rintro h
      obtain ⟨m', i', j', r'⟩ := w
      cases h
      have := (hm m' i' j' r').1 (List.mem_cons_self ..)
      rw [c] at this
      have e := hp1 _ hmem
      have := Option.some.inj this.2.2
      cases this
      simp at e
  · rintro ⟨a, b, c⟩
    by_cases h : (i, j) = (w.2.1, w.2.2.1)
    · cases h; rw [h1] at c; cases c
    · rw [h2 _ _ h] at c
      rcases List.mem_cons.1 ((hm m i j r).2 ⟨a, b, c⟩) with hh | hh
      · cases hh; exact absurd rfl h
      · exact hh

/-- A waiting record as it is queued. -/
def handedItem (valid : Bool) (id : Nat) (w : WaitingRecord) : QueueItem :=
  ⟨.interval, id, .interval id { w.2.2.2 with flags := { w.2.2.2.flags with clockUnset := !valid } }, false⟩

/-- The waiting records as they are queued, with the ids from `base`. -/
def handedItems (valid : Bool) (base : Nat) (ws : List WaitingRecord) : List QueueItem :=
  ws.mapIdx fun n w => handedItem valid (base + n) w

theorem handedItems_cons (v : Bool) (b : Nat) (w : WaitingRecord) (ws : List WaitingRecord) :
    handedItems v b (w :: ws) = handedItem v b w :: handedItems v (b + 1) ws := by
  simp only [handedItems, List.mapIdx_cons, Nat.add_zero]
  congr 2
  funext n w
  rw [show b + 1 + n = b + (n + 1) by omega]

/-- Up to `n` waiting records are queued where the store is not FULL. -/
theorem handIntervals_ready (n : Nat) : ∀ (s : State) (ws : List WaitingRecord), WaitingInOrder s ws →
    s.store.state ≠ .full → n ≤ 16 - s.store.queue.length →
    let u := handIntervals n s
    u.store.queue = s.store.queue ++ (handedItems s.clock.valid s.store.nextIds.interval ws).take n ∧
    u.store.nextIds.interval = s.store.nextIds.interval + Nat.min n ws.length ∧ HandoverKeeps s u ∧
    u.store.intervalDrops = s.store.intervalDrops ∧ WaitingInOrder u (ws.drop n) ∧
    (∀ k w, ws[k]? = some w → (harmMember u w.2.1 w.2.2.1).place =
      if k < n then none else (harmMember s w.2.1 w.2.2.1).place) := by
  induction n with
  | zero =>
    intro s ws h _ _
    exact ⟨by simp [handIntervals], by simp [handIntervals], ⟨rfl, rfl, rfl, rfl⟩, rfl,
      by simpa [handIntervals] using h, by simp [handIntervals]⟩
  | succ n ih =>
    intro s ws h hf hn
    have hd := nextWaiting_head s ws h
    cases ws with
    | nil =>
      rw [handIntervals_none _ _ hd]
      exact ⟨by simp [handedItems], by simp, ⟨rfl, rfl, rfl, rfl⟩, rfl, by simpa using h, by simp⟩
    | cons w ws =>
      have hd : nextWaiting s = some w.2 := hd
      have room : queueRoom s.store = true := decide_eq_true (show s.store.queue.length < 16 by omega)
      set v := modifyHarmMember (fun m => { m with place := none }) w.2.1 w.2.2.1 s with hv
      have e : handInterval s = queueInterval w.2.2.2 v := by
        obtain ⟨m, i, j, r⟩ := w
        simp [handInterval, hd, room, hf, hv]
      have hw := (h.2 w.1 w.2.1 w.2.2.1 w.2.2.2).1 (List.mem_cons_self ..)
      have ne : harmMember s w.2.1 w.2.2.1 ≠ {} := by
        intro hc; rw [hc] at hw; cases hw.2.2
      have hu : ∀ a b, harmMember (handInterval s) a b = harmMember v a b := by rw [e]; intro a b; rfl
      have p1 : (harmMember (handInterval s) w.2.1 w.2.2.1).place = none := by
        rw [hu, hv, harmMember_modify_same _ _ _ _ ne]
      have p2 : ∀ a b, (a, b) ≠ (w.2.1, w.2.2.1) →
          (harmMember (handInterval s) a b).place = (harmMember s a b).place := by
        intro a b hab; rw [hu, hv, harmMember_modify_other _ _ _ _ _ _ hab]
      have ho := waitingInOrder_tail s (handInterval s) w ws h p1 p2
      have q : (handInterval s).store.queue = s.store.queue ++
          [handedItem s.clock.valid s.store.nextIds.interval w] := by
        rw [e]; simp only [queueInterval, drawId, Store.enqueue, hv]
        split <;> rfl
      have idn : (handInterval s).store.nextIds = { s.store.nextIds with interval :=
          s.store.nextIds.interval + 1 } := by
        rw [e]; simp only [queueInterval, drawId, Store.enqueue, hv]
        split <;> rfl
      have st : (handInterval s).store.state = s.store.state := by
        rw [e]; simp only [queueInterval, drawId, Store.enqueue, hv]
        split <;> rfl
      have dr : (handInterval s).store.intervalDrops = s.store.intervalDrops := by
        rw [e]; simp only [queueInterval, drawId, Store.enqueue, hv]
        split <;> rfl
      have ck : (handInterval s).clock = s.clock := by rw [e]; rfl
      have sv : (handInterval s).survey = s.survey := by rw [e]; rfl
      have := ih (handInterval s) ws ho (by rw [st]; exact hf) (by rw [q]; simp; omega)
      obtain ⟨a1, a2, a3, a4, a5, a6⟩ := this
      refine ⟨?_, ?_, ⟨a3.survey.trans sv, a3.clock.trans ck, a3.state.trans st, ?_⟩, a4.trans dr, ?_, ?_⟩
      · show (handIntervals n (handInterval s)).store.queue = _
        rw [a1, q, ck, idn, handedItems_cons]; simp
      · show (handIntervals n (handInterval s)).store.nextIds.interval = _
        rw [a2, idn]
        have : Nat.min (n + 1) (ws.length + 1) = Nat.min n ws.length + 1 := Nat.succ_min_succ ..
        show _ = _ + Nat.min (n + 1) (ws.length + 1)
        rw [this]
        simp only []
        omega
      · show (handIntervals n (handInterval s)).store.nextIds.survey = _
        rw [a3.surveyId, idn]
      · exact a5
      · intro k x hk
        show (harmMember (handIntervals n (handInterval s)) _ _).place = _
        cases k with
        | zero =>
          cases hk
          simp only [Nat.zero_lt_succ, if_true]
          -- not among the rest, so its place stays none
          by_cases hex : ∃ (k' : Nat) (y : WaitingRecord), ws[k']? = some y ∧ y.2.1 = w.2.1 ∧ y.2.2.1 =
              w.2.2.1
          · obtain ⟨k', y, hy, e1, e2⟩ := hex
            have := a6 k' y hy
            rw [e1, e2] at this
            rw [this, p1]; split <;> rfl
          · have hm := a5.2
            by_contra hc
            obtain ⟨⟨r', m'⟩, hr⟩ := Option.ne_none_iff_exists'.1 hc
            have := (hm m' w.2.1 w.2.2.1 r').2 ⟨hw.1, hw.2.1, hr⟩
            have := List.mem_of_mem_drop this
            obtain ⟨k', hk'⟩ := List.mem_iff_getElem?.1 this
            exact hex ⟨k', _, hk', rfl, rfl⟩
        | succ k =>
          have hk' : ws[k]? = some x := by simpa using hk
          rw [a6 k x hk']
          have hx := List.mem_of_getElem? hk'
          have nx : (x.2.1, x.2.2.1) ≠ (w.2.1, w.2.2.1) := by
            intro hc
            have := (ho.2 x.1 x.2.1 x.2.2.1 x.2.2.2).1 hx
            have hc1 := congrArg Prod.fst hc
            have hc2 := congrArg Prod.snd hc
            simp at hc1 hc2
            rw [hc1, hc2, p1] at this
            cases this.2.2
          rw [p2 _ _ nx]
          simp

/-- Up to `n` waiting records are dropped where the store is FULL. -/
theorem handIntervals_drops (n : Nat) : ∀ (s : State) (ws : List WaitingRecord), WaitingInOrder s ws →
    s.store.state = .full → s.store.queue.length < 16 →
    let u := handIntervals n s
    u.store.queue = s.store.queue ∧ u.store.nextIds = s.store.nextIds ∧ HandoverKeeps s u ∧
    u.store.intervalDrops = (satInc 4294967295)^[Nat.min n ws.length] s.store.intervalDrops ∧
    WaitingInOrder u (ws.drop n) ∧
    (∀ k w, ws[k]? = some w → (harmMember u w.2.1 w.2.2.1).place =
      if k < n then none else (harmMember s w.2.1 w.2.2.1).place) := by
  induction n with
  | zero =>
    intro s ws h _ _
    exact ⟨by simp [handIntervals], by simp [handIntervals], ⟨rfl, rfl, rfl, rfl⟩,
      by simp [handIntervals], by simpa [handIntervals] using h, by simp [handIntervals]⟩
  | succ n ih =>
    intro s ws h hf hn
    have hd := nextWaiting_head s ws h
    cases ws with
    | nil =>
      rw [handIntervals_none _ _ hd]
      exact ⟨rfl, rfl, ⟨rfl, rfl, rfl, rfl⟩, by simp, by simpa using h, by simp⟩
    | cons w ws =>
      have hd : nextWaiting s = some w.2 := hd
      have room : queueRoom s.store = true := decide_eq_true (show s.store.queue.length < 16 by omega)
      set v := modifyHarmMember (fun m => { m with place := none }) w.2.1 w.2.2.1 s with hv
      have e : handInterval s = dropInterval v := by
        obtain ⟨m, i, j, r⟩ := w
        simp [handInterval, hd, room, hf, hv]
      have hw := (h.2 w.1 w.2.1 w.2.2.1 w.2.2.2).1 (List.mem_cons_self ..)
      have ne : harmMember s w.2.1 w.2.2.1 ≠ {} := by
        intro hc; rw [hc] at hw; cases hw.2.2
      have hu : ∀ a b, harmMember (handInterval s) a b = harmMember v a b := by rw [e]; intro a b; rfl
      have p1 : (harmMember (handInterval s) w.2.1 w.2.2.1).place = none := by
        rw [hu, hv, harmMember_modify_same _ _ _ _ ne]
      have p2 : ∀ a b, (a, b) ≠ (w.2.1, w.2.2.1) →
          (harmMember (handInterval s) a b).place = (harmMember s a b).place := by
        intro a b hab; rw [hu, hv, harmMember_modify_other _ _ _ _ _ _ hab]
      have ho := waitingInOrder_tail s (handInterval s) w ws h p1 p2
      have q : (handInterval s).store.queue = s.store.queue := by rw [e]; rfl
      have idn : (handInterval s).store.nextIds = s.store.nextIds := by rw [e]; rfl
      have st : (handInterval s).store.state = s.store.state := by rw [e]; rfl
      have dr : (handInterval s).store.intervalDrops = satInc 4294967295 s.store.intervalDrops := by
          rw [e]; rfl
      have ck : (handInterval s).clock = s.clock := by rw [e]; rfl
      have sv : (handInterval s).survey = s.survey := by rw [e]; rfl
      obtain ⟨a1, a2, a3, a4, a5, a6⟩ := ih (handInterval s) ws ho (by rw [st]; exact hf) (by
          rw [q]; exact hn)
      refine ⟨a1.trans q, a2.trans idn, ⟨a3.survey.trans sv, a3.clock.trans ck, a3.state.trans st, ?_⟩,
          ?_, a5, ?_⟩
      · show (handIntervals n (handInterval s)).store.nextIds.survey = _
        rw [a3.surveyId, idn]
      · show (handIntervals n (handInterval s)).store.intervalDrops = _
        rw [a4, dr, ← Function.iterate_succ_apply]
        have : Nat.min (n + 1) (ws.length + 1) = Nat.min n ws.length + 1 := Nat.succ_min_succ ..
        show _ = _^[Nat.min (n + 1) (ws.length + 1)] _
        rw [this]
      · intro k x hk
        show (harmMember (handIntervals n (handInterval s)) _ _).place = _
        cases k with
        | zero =>
          cases hk
          simp only [Nat.zero_lt_succ, if_true]
          by_cases hex : ∃ (k' : Nat) (y : WaitingRecord), ws[k']? = some y ∧ y.2.1 = w.2.1 ∧ y.2.2.1 =
              w.2.2.1
          · obtain ⟨k', y, hy, e1, e2⟩ := hex
            have := a6 k' y hy
            rw [e1, e2] at this
            rw [this, p1]; split <;> rfl
          · have hm := a5.2
            by_contra hc
            obtain ⟨⟨r', m'⟩, hr⟩ := Option.ne_none_iff_exists'.1 hc
            have := (hm m' w.2.1 w.2.2.1 r').2 ⟨hw.1, hw.2.1, hr⟩
            have := List.mem_of_mem_drop this
            obtain ⟨k', hk'⟩ := List.mem_iff_getElem?.1 this
            exact hex ⟨k', _, hk', rfl, rfl⟩
        | succ k =>
          have hk' : ws[k]? = some x := by simpa using hk
          rw [a6 k x hk']
          have hx := List.mem_of_getElem? hk'
          have nx : (x.2.1, x.2.2.1) ≠ (w.2.1, w.2.2.1) := by
            intro hc
            have := (ho.2 x.1 x.2.1 x.2.2.1 x.2.2.2).1 hx
            have hc1 := congrArg Prod.fst hc
            have hc2 := congrArg Prod.snd hc
            simp at hc1 hc2
            rw [hc1, hc2, p1] at this
            cases this.2.2
          rw [p2 _ _ nx]
          simp


theorem handedItems_take_count (v : Bool) (b n : Nat) (ws : List WaitingRecord) :
    ((handedItems v b ws).take n).countP (·.kind == .interval) = Nat.min n ws.length := by
  have : ∀ q ∈ (handedItems v b ws).take n, (q.kind == RecordKind.interval) = true := by
    intro q hq
    have := List.mem_of_mem_take hq
    simp only [handedItems, List.mem_mapIdx] at this
    obtain ⟨i, h, rfl⟩ := this
    rfl
  rw [List.countP_eq_length.2 this]
  simp [handedItems]

theorem handedItems_no_survey (v : Bool) (b : Nat) (ws : List WaitingRecord) (q : QueueItem)
    (h : q ∈ handedItems v b ws) : q.kind = .interval := by
  simp only [handedItems, List.mem_mapIdx] at h
  obtain ⟨i, h, rfl⟩ := h
  rfl

theorem handedItems_drop (v : Bool) (b n : Nat) (ws : List WaitingRecord) :
    (handedItems v b ws).drop n = handedItems v (b + n) (ws.drop n) := by
  apply List.ext_getElem?
  intro i
  simp [handedItems, List.getElem?_drop, Nat.add_assoc]

theorem offerSurvey_queues (s : State) (r : SurveyRecord) (up : storeUp s.store = true)
    (hp : s.survey.place = some r) (room : s.store.queue.length < 16) :
    let u := offerSurvey s
    u.store.queue = s.store.queue ++
      [⟨.survey, s.store.nextIds.survey, .survey { r with clockUnset := !s.clock.valid }, false⟩] ∧
    u.store.nextIds.interval = s.store.nextIds.interval ∧ u.survey.place = none ∧ u.clock = s.clock ∧
    u.store.state = s.store.state ∧ u.store.intervalDrops = s.store.intervalDrops ∧ u.harm = s.harm := by
  have e : offerSurvey s = queueSurvey r s := by
    have : queueRoom s.store = true := decide_eq_true room
    simp [offerSurvey, hp, up, this]
  rw [e]
  unfold queueSurvey drawId Store.enqueue
  dsimp only
  split <;> exact ⟨rfl, rfl, rfl, rfl, rfl, rfl, rfl⟩

theorem handIntervals_full (s : State) (h : 16 ≤ s.store.queue.length) : ∀ n, handIntervals n s = s
  | 0 => rfl
  | n + 1 => by
    have : queueRoom s.store = false := decide_eq_false (by show ¬_ < 16; omega)
    have e : handInterval s = s := by unfold handInterval; split <;> simp [this]
    show handIntervals n (handInterval s) = s
    rw [e]; exact handIntervals_full s h n

/-- The places of the records that waited, from those that still wait. -/
theorem place_of_waitingInOrder (s t : State) (ws : List WaitingRecord) (h : Nat) (hs : WaitingInOrder s ws)
    (ht : WaitingInOrder t (ws.drop h)) (k : Nat) (w : WaitingRecord) (hk : ws[k]? = some w) :
    (harmMember t w.2.1 w.2.2.1).place = if k < h then none else (harmMember s w.2.1 w.2.2.1).place := by
  have hw := (hs.2 w.1 w.2.1 w.2.2.1 w.2.2.2).1 (List.mem_of_getElem? hk)
  split
  · next hlt =>
    by_contra hc
    obtain ⟨⟨r, m⟩, hr⟩ := Option.ne_none_iff_exists'.1 hc
    have hm := (ht.2 m w.2.1 w.2.2.1 r).2 ⟨hw.1, hw.2.1, hr⟩
    obtain ⟨j, hj⟩ := List.mem_iff_getElem?.1 hm
    rw [List.getElem?_drop] at hj
    have := (hs.2 m w.2.1 w.2.2.1 r).1 (List.mem_of_getElem? hj)
    rw [hw.2.2] at this
    have e := Option.some.inj this.2.2
    have e' : ((m, w.2.1, w.2.2.1, r) : WaitingRecord) = w := by
      obtain ⟨a, b, c, d⟩ := w
      simp at e
      simp [e]
    rw [e'] at hj
    have k1 : k < ws.length := by by_contra hc; rw [List.getElem?_eq_none (by omega)] at hk; cases hk
    have k2 : h + j < ws.length := by by_contra hc; rw [List.getElem?_eq_none (by omega)] at hj; cases hj
    have := List.pairwise_iff_getElem.1 hs.1 k (h + j) k1 k2 (by omega)
    rw [List.getElem?_eq_getElem k1] at hk
    rw [List.getElem?_eq_getElem k2] at hj
    rw [Option.some.inj hk, Option.some.inj hj] at this
    omega
  · next hge =>
    have : w ∈ ws.drop h := by
      apply List.mem_iff_getElem?.2
      exact ⟨k - h, by rw [List.getElem?_drop, show h + (k - h) = k by omega]; exact hk⟩
    have := (ht.2 w.1 w.2.1 w.2.2.1 w.2.2.2).1 this
    rw [this.2.2, hw.2.2]

theorem offerSurvey_none (s : State) (h : s.survey.place = none) : offerSurvey s = s := by
  simp [offerSurvey, h]

theorem offerSurvey_full (s : State) (h : 16 ≤ s.store.queue.length) : offerSurvey s = s := by
  have : queueRoom s.store = false := decide_eq_false (by show ¬_ < 16; omega)
  unfold offerSurvey
  split <;> simp [this]

/-- What an announced place does, in any state of a store that is up. -/
theorem announcePlace_handsOver (s : State) (up : storeUp s.store = true) :
    HandsOver s.store.queue s (announcePlace s) := by
  intro ws hws room ids intervals surveys
  have hi : intervals = handedItems s.clock.valid ids.interval ws := rfl
  have hd := nextWaiting_head s ws hws
  have free : freePlaces s.store = room := rfl
  have noI : intervals.any (fun q => q.kind == RecordKind.survey) = false := by
    rw [List.any_eq_false]; intro q hq; rw [handedItems_no_survey _ _ _ q hq]; decide
  have noT : ∀ n, (intervals.take n).any (fun q => q.kind == RecordKind.survey) = false := by
    intro n
    rw [List.any_eq_false] at noI ⊢
    exact fun q hq => noI q (List.mem_of_mem_take hq)
  by_cases r0 : room = 0
  · -- no place is free
    have hq : 16 ≤ s.store.queue.length := by simp [room] at r0; omega
    have hann : (announcePlace s).store = s.store ∧ (announcePlace s).survey = s.survey ∧
        (announcePlace s).harm = s.harm := by
      unfold announcePlace
      dsimp only
      split
      · rw [handIntervals_full (drawFree s).2 hq, offerSurvey_full (drawFree s).2 hq,
          handIntervals_full (drawFree s).2 hq]
        exact ⟨rfl, rfl, rfl⟩
      · rw [offerSurvey_full _ hq, handIntervals_full _ hq]; exact ⟨rfl, rfl, rfl⟩
    refine ⟨0, 0, ?_⟩
    rw [r0, hann.1, hann.2.1]
    simp only [List.take_zero, List.append_nil, List.countP_nil, List.any_nil]
    refine ⟨trivial, fun _ => ⟨trivial, trivial⟩, fun _ => ⟨by omega, le_refl _, by simp⟩, by simp,
        fun n w hw => ?_⟩
    simp [harmMember, harmSite, hann.2.2]
  have rpos : s.store.queue.length < 16 := by simp [room] at r0; omega
  have rlen : room = 16 - s.store.queue.length := rfl
  by_cases both : s.survey.place.isSome && (nextWaiting s).isSome
  · have sp : s.survey.place.isSome = true := by
      have := both; simp at this; exact this.1
    obtain ⟨r, hp⟩ := Option.isSome_iff_exists.1 sp
    have hs : surveys = [⟨.survey, s.store.nextIds.survey, .survey { r with clockUnset :=
        !s.clock.valid }, false⟩] := by
      simp [surveys, hp, ids]
    generalize hbd : Nat.min (Config.surveyAfter s.free) room = before
    have hb : before ≤ room := by rw [← hbd]; exact Nat.min_le_right ..
    set s' : State := { s with free := s.free + 1 } with hs'
    have ha : announcePlace s =
        handIntervals (room - before - 1) (offerSurvey (handIntervals before s')) := by
      unfold announcePlace
      dsimp only
      rw [if_pos both, ← hbd]
      rfl
    rw [ha]
    have hws' : WaitingInOrder s' ws := hws
    by_cases hf : s.store.state = .full
    · obtain ⟨a1, a2, a3, a4, a5, -⟩ := handIntervals_drops before s' ws hws' hf rpos
      set u1 := handIntervals before s' with hu1
      have rm1 : u1.store.queue.length < 16 := by rw [a1]; exact rpos
      have up1 : storeUp u1.store = true := by simp [storeUp, a3.state, hf, hs']
      have hp1 : u1.survey.place = some r := by rw [a3.survey]; exact hp
      obtain ⟨b1, b2, b3, b4, b5, b6, b7⟩ := offerSurvey_queues u1 r up1 hp1 rm1
      set u2 := offerSurvey u1 with hu2
      have o2 : WaitingInOrder u2 (ws.drop before) := by
        obtain ⟨x, y⟩ := a5
        exact ⟨x, fun m i j r => by rw [y]; simp only [harmMember, harmSite, b7]⟩
      have f2 : u2.store.state = .full := by rw [b5, a3.state]; exact hf
      have fin : ∀ n, n = room - before - 1 →
          let u := handIntervals n u2
          u.store.queue = u2.store.queue ∧ u.survey = u2.survey ∧
          u.store.intervalDrops =
              (satInc 4294967295)^[Nat.min n (ws.length - before)] u2.store.intervalDrops ∧
          WaitingInOrder u ((ws.drop before).drop n) := by
        intro n hn
        cases n with
        | zero => exact ⟨rfl, rfl, by simp [handIntervals], by simpa [handIntervals] using o2⟩
        | succ n =>
          obtain ⟨c1, c2, c3, c4, c5, -⟩ := handIntervals_drops (n + 1) u2 _ o2 f2 (by
            rw [b1, a1, List.length_append]; show s.store.queue.length + 1 < 16; omega)
          exact ⟨c1, c3.survey, by rw [c4, List.length_drop], c5⟩
      obtain ⟨c1, c2, c3, c4⟩ := fin _ rfl
      rw [List.drop_drop] at c4
      refine ⟨0, before + (room - before - 1), ?_⟩
      have tk : surveys.take room = surveys := by
        rw [hs]; exact List.take_of_length_le (show 1 ≤ room by omega)
      simp only [hf, if_true, tk]
      refine ⟨?_, fun h => absurd rfl h, fun _ => ⟨by rw [hs]; show room - 1 ≤ _; omega, by omega, ?_⟩,
          ?_, fun n w hw => ?_⟩
      · rw [c1, b1, a1, a3.surveyId, a3.clock, hs]
      · rw [c3, b6, a4, ← Function.iterate_add_apply]
        congr 1
        show min _ _ + min _ _ = min _ _
        omega
      · rw [c2, b3, hs]; rfl
      · exact place_of_waitingInOrder s' _ ws _ hws' c4 n w hw
    · obtain ⟨a1, a2, a3, a4, a5, -⟩ := handIntervals_ready before s' ws hws' hf (by
        show _ ≤ 16 - s.store.queue.length; omega)
      set u1 := handIntervals before s' with hu1
      have hI : ∀ n, (intervals.take n).countP (fun q => q.kind == RecordKind.interval) =
          Nat.min n ws.length :=
        fun n => handedItems_take_count _ _ _ _
      have a1 : u1.store.queue = s.store.queue ++ intervals.take before := a1
      have li : intervals.length = ws.length := by simp [hi, handedItems]
      have l1 : u1.store.queue.length = s.store.queue.length + Nat.min before ws.length := by
        rw [a1, List.length_append, List.length_take, li]
      by_cases full1 : 16 ≤ u1.store.queue.length
      · have hbr : before = room ∧ room ≤ ws.length := by
          rw [l1] at full1
          have : Nat.min before ws.length = min before ws.length := rfl
          omega
        rw [offerSurvey_full _ full1, hbr.1, Nat.sub_self]
        rw [hbr.1] at a1 a5
        refine ⟨room, room, ?_⟩
        have tk : (intervals.take room ++ surveys ++ intervals.drop room).take room =
            intervals.take room := by
          rw [List.append_assoc, List.take_append_of_le_length (by rw [List.length_take]; omega),
              List.take_take, Nat.min_self]
        simp only [hf, if_false, tk, noT]
        refine ⟨a1, fun _ => ⟨?_, a4⟩, fun h => absurd h (by simp), ?_, fun n w hw => ?_⟩
        · rw [hI]; show _ = min _ _; omega
        · show u1.survey.place = _
          rw [a3.survey]; rfl
        · exact place_of_waitingInOrder s' u1 ws room hws' a5 n w hw
      · have rm1 : u1.store.queue.length < 16 := by omega
        have up1 : storeUp u1.store = true := by
          have : u1.store.state = s.store.state := a3.state
          simp only [storeUp, this]; exact up
        have hp1 : u1.survey.place = some r := by rw [a3.survey]; exact hp
        obtain ⟨b1, b2, b3, b4, b5, b6, b7⟩ := offerSurvey_queues u1 r up1 hp1 rm1
        set u2 := offerSurvey u1 with hu2
        have o2 : WaitingInOrder u2 (ws.drop before) := by
          obtain ⟨x, y⟩ := a5
          exact ⟨x, fun m i j r => by rw [y]; simp only [harmMember, harmSite, b7]⟩
        have f2 : u2.store.state ≠ .full := by rw [b5, a3.state]; exact hf
        have mb : Nat.min before ws.length = min before ws.length := rfl
        obtain ⟨c1, c2, c3, c4, c5, -⟩ := handIntervals_ready (room - before - 1) u2 _ o2 f2 (by
          rw [b1, List.length_append, l1]; show _ ≤ 16 - (_ + 1); omega)
        rw [List.drop_drop] at c5
        have v1 : u1.clock = s.clock := a3.clock
        have v2 : u2.clock.valid = s.clock.valid := by rw [b4, v1]
        have base : u2.store.nextIds.interval = ids.interval + Nat.min before ws.length := by rw [b2, a2]
        have dr : handedItems u2.clock.valid u2.store.nextIds.interval (ws.drop before) =
            intervals.drop before := by
          rw [hi, handedItems_drop, v2, base]
          by_cases hle : before ≤ ws.length
          · rw [show Nat.min before ws.length = before by omega]
          · rw [List.drop_eq_nil_of_le (by omega)]; rfl
        rw [dr] at c1
        have q : (intervals.take before ++ surveys ++ intervals.drop before).take room =
            intervals.take before ++ surveys ++ (intervals.drop before).take (room - before - 1) := by
          rw [List.append_assoc, List.append_assoc, List.take_append, List.take_take, List.length_take, li]
          congr 1
          · congr 1; omega
          · rw [hs]
            have : room - min before ws.length = (room - min before ws.length - 1) + 1 := by omega
            rw [this, List.singleton_append, List.take_succ_cons]
            congr 1
            by_cases hle : before ≤ ws.length
            · congr 1; omega
            · rw [List.drop_eq_nil_of_le (by rw [li]; omega)]; simp
        refine ⟨before, Nat.min before ws.length + Nat.min (room - before - 1) (ws.length - before), ?_⟩
        simp only [hf, if_false, q]
        have cd : ((intervals.drop before).take (room - before - 1)).countP (fun q => q.kind ==
            RecordKind.interval) = Nat.min (room - before - 1) (ws.length - before) := by
          rw [hi, handedItems_drop, handedItems_take_count, List.length_drop]
        refine ⟨?_, fun _ => ⟨?_, ?_⟩, fun h => absurd h (by simp), ?_, fun n w hw => ?_⟩
        · rw [c1, b1, a1, a3.surveyId, a3.clock, hs]
          simp [List.append_assoc]
          exact ⟨rfl, rfl⟩
        · rw [List.countP_append, List.countP_append, hI, cd, hs]
          rfl
        · rw [c4, b6, a4]
        · rw [c3.survey, b3, hs]
          simp
        · rw [place_of_waitingInOrder s' _ ws _ hws' c5 n w hw]
          have hl : n < ws.length := by by_contra hc; rw [List.getElem?_eq_none (by omega)] at hw; cases hw
          have : (n < before + (room - before - 1)) =
              (n < Nat.min before ws.length + Nat.min (room - before - 1) (ws.length - before)) := by
            rw [eq_iff_iff]; show _ ↔ n < min _ _ + min _ _; omega
          simp only [this]
          rfl
  · have ha : announcePlace s = handIntervals room (offerSurvey s) := by
      unfold announcePlace
      simp only [free]
      rw [if_neg both]
    rw [ha]
    cases hp : s.survey.place with
    | none =>
      rw [offerSurvey_none _ hp]
      have hs : surveys = [] := by simp [surveys, hp]
      by_cases hf : s.store.state = .full
      · obtain ⟨a1, a2, a3, a4, a5, a6⟩ := handIntervals_drops room s ws hws hf rpos
        refine ⟨0, room, ?_⟩
        simp only [hf, if_true, hs, List.take_nil, List.append_nil, List.any_nil]
        refine ⟨a1, fun h => absurd rfl h, fun _ => ⟨by simp, le_refl _, a4⟩, by simp [a3.survey, hp], a6⟩
      · obtain ⟨a1, a2, a3, a4, a5, a6⟩ := handIntervals_ready room s ws hws hf (le_of_eq rlen)
        refine ⟨0, Nat.min room ws.length, ?_⟩
        simp only [hf, if_false, hs, List.take_zero, List.nil_append, List.drop_zero, noT]
        refine ⟨a1, fun _ => ⟨(handedItems_take_count _ _ _ _).symm, a4⟩, fun h => absurd h (by simp),
            by simp [a3.survey, hp], fun n w hw => ?_⟩
        rw [a6 n w hw]
        have hl : n < ws.length := by by_contra hc; rw [List.getElem?_eq_none (by omega)] at hw; cases hw
        have : (n < room) = (n < Nat.min room ws.length) := by
          rw [eq_iff_iff]; show _ ↔ n < min _ _; omega
        simp only [this]
    | some r =>
      have hn : nextWaiting s = none := by
        rw [hp] at both; simpa using both
      have hw0 : ws = [] := by
        rw [hd] at hn; cases ws with
        | nil => rfl
        | cons w ws => simp at hn
      subst hw0
      obtain ⟨b1, b2, b3, b4, b5, b6, b7⟩ := offerSurvey_queues s r up hp rpos
      have hnu : nextWaiting (offerSurvey s) = none := by
        have : ∀ u : State, u.harm = s.harm → nextWaiting u = nextWaiting s := by
          intro u hu; rw [nextWaiting_eq, nextWaiting_eq]
          have : earlierWaiting u = earlierWaiting s := by
            funext b p; simp [earlierWaiting, harmMember, harmSite, hu]
          rw [this]
        rw [this _ b7, hn]
      rw [handIntervals_none _ _ hnu]
      have hs : surveys = [⟨.survey, s.store.nextIds.survey, .survey { r with clockUnset :=
          !s.clock.valid }, false⟩] := by
        simp [surveys, hp, ids]
      have hI : intervals = [] := rfl
      have tk : surveys.take room = surveys := by
        rw [hs]; exact List.take_of_length_le (show 1 ≤ room by omega)
      refine ⟨0, if s.store.state = .full then room else 0, ?_⟩
      have hq : (if s.store.state = .full then surveys else intervals.take 0 ++ surveys ++
          intervals.drop 0) = surveys := by
        simp [hI]
      simp only [hq, tk]
      refine ⟨by rw [b1, hs], fun hf => ⟨by simp [hf, hs], b6⟩, fun hf => ⟨by simp [hf], by simp [hf],
          by simp [b6]⟩, by simp [b3, hs], by simp⟩

end Sys2Proof.Machine
end

