-- ==== Sys2Proof/Laws/MovesSurvey.lean ====
section
/-!
SUPPORT. The moves of the survey, the capture unit, the harmonic engine and the sag detector.
-/

-- One declaration at a time: many waiting threads would pass the memory limit of the check.
set_option Elab.async false
namespace Sys2Proof.Machine

variable {P : Part → Prop}

/-! ### Survey -/

theorem setSurvey_moves (f : Survey → Survey) (s : State) (h : P .survey := by assumption) :
    Moves P s (setSurvey f s) :=
  .same (by constructor <;> first | exact .inl h | rfl | exact .inr rfl | exact id)

theorem unlessMounting_moves (f : State → State) (s : State) (h : Moves P s (f s)) :
    Moves P s (unlessMounting f s) :=
  .ite (refuse_moves _ _) h

theorem takeMidnight_moves (s : State) (h : P .clock := by assumption)
    (k : P .roster := by assumption) : Moves P s (takeMidnight s) := by
  unfold takeMidnight
  split
  · refine .trans (t := { s with clock := { s.clock with midnightDue := false } }) (.same ?_)
      (evaluateCalDue_moves _)
    constructor <;> first | exact .inl h | rfl | exact .inr rfl | exact id
  · exact .refl s

theorem setClock_moves (c : Clock) (s : State) (h : P .clock := by assumption) :
    Moves P s { s with clock := c } :=
  .same (by constructor <;> first | exact .inl h | rfl | exact .inr rfl | exact id)

theorem clockSet_moves (sec : Word) (ms : Half) (s : State) (h : P .clock := by assumption)
    (k : P .roster := by assumption) : Moves P s (clockSet sec ms s) :=
  unlessMounting_moves _ _ (.ite (refuse_moves _ _) (.ite (refuse_moves _ _)
    (.trans (.trans (setClock_moves _ _) (evaluateCalDue_moves _)) (.answer _ _ _))))

theorem siteSet_moves (site : Byte) (c : CarriedSettings) (s : State)
    (h : P .sites := by assumption) (k : P .rotation := by assumption) :
    Moves P s (siteSet site c s) :=
  unlessMounting_moves _ _ (.ite (refuse_moves _ _) (.ite (refuse_moves _ _) (.ite (refuse_moves _ _)
    (.trans (.trans (modifySite_moves _ _ _ (by intro; rfl)) (refreshRotation_moves _ _)) (.answer _ _ _)))))

theorem siteGet_moves (site : Byte) (s : State) : Moves P s (siteGet site s) :=
  unlessMounting_moves _ _ (.ite (refuse_moves _ _) (.answer _ _ _))

theorem changePosition_moves (m : Option Member) (site role : Nat) (s : State)
    (h : P .sites := by assumption) (k : P .sag := by assumption) (l : P .harm := by assumption)
    (n : P .rotation := by assumption) : Moves P s (changePosition m site role s) :=
  .trans (modifyMember_moves _ _ _ _) (.trans (.ite (modifyChannel_moves _ _ _ _) (.refl _))
    (.trans (modifyHarmMember_moves _ _ _ _) (refreshRotation_moves _ _)))

theorem unassign_moves (slot : Nat) (s : State)
    (h : P .sites := by assumption) (k : P .sag := by assumption) (l : P .harm := by assumption)
    (n : P .rotation := by assumption) : Moves P s (unassign slot s) := by
  unfold unassign
  split
  · exact .trans (changePosition_moves _ _ _ _) (.answer _ _ _)
  · exact .answer _ _ _

theorem vacate_moves (slot site role : Nat) (s : State)
    (h : P .sites := by assumption) (k : P .sag := by assumption) (l : P .harm := by assumption)
    (n : P .rotation := by assumption) : Moves P s (vacate slot site role s) := by
  unfold vacate
  split
  · exact .ite (.refl s) (changePosition_moves _ _ _ _)
  · exact .refl s

theorem settleIn_moves (m : Member) (site role : Nat) (s : State)
    (h : P .sites := by assumption) (k : P .sag := by assumption) (l : P .harm := by assumption)
    (n : P .rotation := by assumption) : Moves P s (settleIn m site role s) :=
  .ite (.trans (modifyMember_moves _ _ _ _) (refreshRotation_moves _ _))
    (changePosition_moves _ _ _ _)

theorem place_moves (slot site role : Nat) (identity : Identity) (s : State)
    (h : P .sites := by assumption) (k : P .sag := by assumption) (l : P .harm := by assumption)
    (n : P .rotation := by assumption) : Moves P s (place slot site role identity s) :=
  .trans (vacate_moves _ _ _ _) (.trans (settleIn_moves _ _ _ _) (.answer _ _ _))

theorem assign_moves (slot site role : Byte) (s : State)
    (h : P .sites := by assumption) (k : P .sag := by assumption) (l : P .harm := by assumption)
    (n : P .rotation := by assumption) : Moves P s (assign slot site role s) := by
  refine unlessMounting_moves _ _ (.ite (refuse_moves _ _) (.ite (refuse_moves _ _)
    (.ite (refuse_moves _ _) (.ite (refuse_moves _ _) (.ite (unassign_moves _ _) ?_)))))
  split
  · exact refuse_moves _ _
  · exact .ite (place_moves _ _ _ _ _) (refuse_moves _ _)

theorem matchMember_moves (slot : Nat) (identity : Identity) (s : State)
    (h : P .sites := by assumption) (k : P .sag := by assumption) (l : P .harm := by assumption)
    (n : P .rotation := by assumption) : Moves P s (matchMember slot identity s).2 := by
  unfold matchMember
  split
  · exact .refl s
  · split
    · exact .trans (modifyMember_moves _ _ _ _) (refreshRotation_moves _ _)
    · exact changePosition_moves _ _ _ _

theorem joinComplete_moves (j : Join) (identity : Identity) (s : State)
    (a : P .bus := by assumption) (b : P .roster := by assumption) (c : P .receive := by assumption)
    (h : P .sites := by assumption) (k : P .sag := by assumption) (l : P .harm := by assumption)
    (n : P .rotation := by assumption) : Moves P s (joinComplete j identity s) :=
  .trans (.trans (.trans (.trans (setJoin_moves _ _) (modifyEntry_moves _ _ _))
    (modifyReceive_moves _ _ _)) (matchMember_moves _ _ _)) (.post _ _)

theorem joinAtFrame_moves (s : State)
    (a : P .bus := by assumption) (b : P .roster := by assumption) (c : P .receive := by assumption)
    (h : P .sites := by assumption) (k : P .sag := by assumption) (l : P .harm := by assumption)
    (n : P .rotation := by assumption) : Moves P s (joinAtFrame s) := by
  unfold joinAtFrame
  split
  · split
    · exact joinComplete_moves _ _ _
    · exact .refl s
  · exact .refl s

theorem makeSurveyRecord_moves (s : State) (h : P .store := by assumption)
    (k : P .survey := by assumption) : Moves P s (makeSurveyRecord s) :=
  .trans (.trans (setSurvey_moves _ _) (offerSurvey_moves _)) (storeNext_moves _)

theorem enterSurvey_moves (new : SurveyState) (cause : Option HoldCause) (frame : Nat)
    (time : ClockTime) (s : State) (h : P .store := by assumption)
    (k : P .survey := by assumption) : Moves P s (enterSurvey new cause frame time s) :=
  .trans (.trans (setSurvey_moves _ _) (makeSurveyRecord_moves _)) (.post _ _)

theorem requestStart_moves (s : State) (k : P .survey := by assumption) :
    Moves P s (requestStart s) :=
  .ite (refuse_moves _ _) (.ite (refuse_moves _ _) (.ite (refuse_moves _ _) (setSurvey_moves _ _)))

theorem surveyStart_moves (s : State) (k : P .survey := by assumption) : Moves P s (surveyStart s) :=
  unlessMounting_moves _ _ (.ite (requestStart_moves _) (refuse_moves _ _))

theorem surveyResume_moves (s : State) (k : P .survey := by assumption) :
    Moves P s (surveyResume s) :=
  unlessMounting_moves _ _ (.ite (requestStart_moves _) (refuse_moves _ _))

theorem surveyHold_moves (s : State) (k : P .survey := by assumption) : Moves P s (surveyHold s) :=
  unlessMounting_moves _ _ (.ite (refuse_moves _ _) (.ite (.refl _) (setSurvey_moves _ _)))

theorem surveyEnd_moves (s : State) (h : P .store := by assumption) (k : P .survey := by assumption) :
    Moves P s (surveyEnd s) := by
  refine unlessMounting_moves _ _ ?_
  split
  · exact .ite (refuse_moves _ _) (setSurvey_moves _ _)
  · exact .ite (refuse_moves _ _) (.trans (enterSurvey_moves _ _ _ _ _) (.answer _ _ _))
  · exact refuse_moves _ _

theorem surveyNew_moves (s : State) (k : P .survey := by assumption) : Moves P s (surveyNew s) :=
  unlessMounting_moves _ _
    (.ite (.trans (.trans (setSurvey_moves _ _) (.post _ _)) (.answer _ _ _)) (refuse_moves _ _))

theorem surveyStarts_moves (s : State) (h : P .store := by assumption)
    (k : P .survey := by assumption) : Moves P s (surveyStarts s) :=
  .trans (.trans (setSurvey_moves _ _) (enterSurvey_moves _ _ _ _ _)) (.answer _ _ _)

theorem changeEnds_moves (change : Option Change) (s : State) (h : P .store := by assumption)
    (k : P .survey := by assumption) : Moves P s (changeEnds change s) := by
  unfold changeEnds
  split <;> exact enterSurvey_moves _ _ _ _ _

theorem answerStop_moves (s : State) : Moves P s (answerStop s) := by
  unfold answerStop
  split
  · exact .ite (.answer _ _ _) (.refl s)
  · exact .refl s

theorem surveyStops_moves (s : State) (h : P .store := by assumption)
    (k : P .survey := by assumption) : Moves P s (surveyStops s) :=
  .trans (.trans (setSurvey_moves _ _) (changeEnds_moves _ _)) (answerStop_moves _)

theorem surveyCritical_moves (s : State) (k : P .survey := by assumption) :
    Moves P s (surveyCritical s) := by
  unfold surveyCritical
  split
  · exact .trans (setSurvey_moves _ _) (refuse_moves _ _)
  · exact .refl s
  · exact .ite (setSurvey_moves _ _) (.refl s)

theorem restoreSurvey_moves (s : State) (k : P .survey := by assumption)
    (h : P .sites := by assumption) (l : P .rotation := by assumption) :
    Moves P s (restoreSurvey s) := by
  unfold restoreSurvey
  refine .trans (.trans (t := (restored s).1) ?_ (refreshRotations_moves _)) (.post _ _)
  unfold restored
  split
  · exact .same (by
      constructor <;> first | exact .inl h | exact .inl k | rfl | exact .inr rfl | exact id |
        exact fun k : Shaped s => ⟨k.1, k.2.1, k.2.2.1, ⟨rfl, map_forall _ _ fun _ _ => rfl⟩,
          k.2.2.2.2⟩)
  · exact .same (by
      constructor <;> first | exact .inl h | exact .inl k | rfl | exact .inr rfl | exact id |
        exact fun k : Shaped s => ⟨k.1, k.2.1, k.2.2.1,
          ⟨rfl, fun e he => by rw [List.eq_of_mem_replicate he]; rfl⟩, k.2.2.2.2⟩)

theorem surveyStatus_moves (s : State) : Moves P s (surveyStatus s) :=
  unlessMounting_moves _ _ (.answer _ _ _)

/-! ### Capture unit -/

theorem setCapture_moves (c : Capture) (s : State)
    (hr : Shaped s → c.rings.length = 4) (hc : c.slots.length = s.capture.slots.length)
    (h : P .capture := by assumption) :
    Moves P s { s with capture := c } :=
  .same (by
    constructor <;> first | exact .inl h | rfl | exact .inr rfl | exact id |
      exact fun k : Shaped s => ⟨k.1, k.2.1, k.2.2.1, k.2.2.2.1, k.2.2.2.2.1,
        ⟨hr k, hc.trans k.2.2.2.2.2.1.2⟩, k.2.2.2.2.2.2⟩)

theorem ringFrame_moves (frame : Nat) (samples : List (Nat × Sample)) (s : State)
    (h : P .capture := by assumption) : Moves P s (ringFrame frame samples s) :=
  setCapture_moves _ _ (fun k => by simp [k.2.2.2.2.2.1.1, k.2.2.2.1.1]) rfl

theorem captureFrame_moves (frame : Nat) (samples : List (Nat × Sample)) (s : State)
    (h : P .capture := by assumption) : Moves P s (captureFrame frame samples s) :=
  setCapture_moves _ _ (fun k => k.2.2.2.2.2.1.1) (List.length_map _)

theorem claimSlot_moves (event site start opening : Nat) (s : State)
    (h : P .capture := by assumption) : Moves P s (claimSlot event site start opening s).2 := by
  unfold claimSlot
  split
  · exact modifyCapture_moves _ _ _
  · exact .refl s

theorem captureComplete_moves (slot : Nat) (s : State) (h : P .capture := by assumption) :
    Moves P s (captureComplete slot s) := modifyCapture_moves _ _ _

theorem truncateCaptures_moves (c : Nat) (s : State) (h : P .capture := by assumption) :
    Moves P s (truncateCaptures c s) :=
  setCapture_moves _ _ (fun k => k.2.2.2.2.2.1.1) (List.length_map _)

theorem emptyRings_moves (s : State) (h : P .capture := by assumption) :
    Moves P s (emptyRings s) :=
  setCapture_moves _ _ (fun _ => rfl) rfl

theorem pinCapture_moves (p : CapturePin) (s : State) (h : P .capture := by assumption) :
    Moves P s (pinCapture p s) := modifyCapture_moves _ _ _

theorem unpinCapture_moves (p : CapturePin) (s : State) (h : P .capture := by assumption) :
    Moves P s (unpinCapture p s) := modifyCapture_moves _ _ _

theorem unpinAllSlots_moves (s : State) (h : P .capture := by assumption) :
    Moves P s (unpinAllSlots s) :=
  setCapture_moves _ _ (fun k => k.2.2.2.2.2.1.1) (List.length_map _)

theorem captureRelease_moves (slot : Byte) (serial : Option Half) (s : State)
    (h : P .capture := by assumption) : Moves P s (captureRelease slot serial s) := by
  refine .ite (refuse_moves _ _) (.ite (refuse_moves _ _) ?_)
  split
  · exact .ite (.trans (modifyCapture_moves _ _ _) (.answer _ _ _))
      (.trans (modifyCapture_moves _ _ _) (.answer _ _ _))
  · exact .answer _ _ _
  · exact refuse_moves _ _

theorem captureList_moves (s : State) : Moves P s (captureList s) := .answer _ _ _

theorem captureRead_moves (slot segment member first cycles : Byte) (s : State) :
    Moves P s (captureRead slot segment member first cycles s) := by
  refine .ite (refuse_moves _ _) (.ite (refuse_moves _ _) ?_)
  split
  · exact .ite (refuse_moves _ _) (.answer _ _ _)
  · exact refuse_moves _ _

/-! ### Harmonic engine -/

theorem setHarm_moves (x : Harm) (s : State) (hx : HarmShape s x) (h : P .harm := by assumption) :
    Moves P s { s with harm := x } :=
  .same (by
    constructor <;> first | exact .inl h | rfl | exact .inr rfl | exact id |
      exact fun k : Shaped s => ⟨k.1, k.2.1, k.2.2.1, k.2.2.2.1, k.2.2.2.2.1, k.2.2.2.2.2.1, hx k⟩)

theorem harmFrame_moves (frame : Nat) (samples : List (Nat × Sample)) (s : State)
    (h : P .harm := by assumption) : Moves P s (harmFrame frame samples s) :=
  .ite (setHarm_moves _ _ (harmShape_zip _ rfl fun g e hg he => by simp [hg, he])) (.refl s)

theorem windowComplete_moves (site role : Nat) (s : State) (h : P .harm := by assumption) :
    Moves P s (windowComplete site role s) := by
  unfold windowComplete
  dsimp only
  split
  · exact .ite (modifyHarmMember_moves _ _ _ _) (.refl s)
  · exact .refl s

theorem markOpen_moves (site o : Nat) (s : State) (h : P .harm := by assumption) :
    Moves P s (markOpen site o s) :=
  modifyHarm_moves _ _ _ fun _ => by dsimp only; split <;> simp

theorem markClose_moves (site : Nat) (c : Option Nat) (s : State) (h : P .harm := by assumption) :
    Moves P s (markClose site c s) :=
  modifyHarm_moves _ _ _ fun _ => List.length_map _

theorem placeRecord_moves (r : IntervalRecord) (moment site role : Nat) (counts : CloseCounts)
    (s : State) (h : P .harm := by assumption) (k : P .store := by assumption) :
    Moves P s (placeRecord r moment site role counts s).2 := by
  unfold placeRecord
  split
  · exact .trans (modifyHarmMember_moves _ _ _ _) (queueInterval_moves _ _)
  · exact modifyHarmMember_moves _ _ _ _

theorem handRecord_moves (r : IntervalRecord) (moment site role : Nat) (counts : CloseCounts)
    (s : State) (h : P .harm := by assumption) (k : P .store := by assumption) :
    Moves P s (handRecord r moment site role counts s).2 := by
  unfold handRecord
  split
  · exact dropInterval_moves _
  · split
    · exact .trans (dropInterval_moves _) (placeRecord_moves _ _ _ _ _ _)
    · exact placeRecord_moves _ _ _ _ _ _

theorem closePosition_moves (c : Closing) (site : Nat) (acc : CloseCounts × State) (role : Nat)
    (h : P .harm := by assumption) (k : P .store := by assumption) :
    Moves P acc.2 (closePosition c site acc role).2 := by
  unfold closePosition
  dsimp only
  split
  · exact .refl _
  · split
    · exact .trans (modifyHarmMember_moves _ _ _ _) (modifyHarm_moves _ _ _ (by intro; rfl))
    · exact .trans (modifyHarmMember_moves _ _ _ _) (handRecord_moves _ _ _ _ _ _)

theorem closeSite_moves (c : Closing) (causes : CloseCauses) (roles : List Nat) (s : State)
    (site : Nat) (h : P .harm := by assumption) (k : P .store := by assumption) :
    Moves P s (closeSite c causes roles s site) :=
  .trans (Moves.foldl_snd _ (fun b a => closePosition_moves c site b a) roles ({}, s))
    (postWhen_moves _ _ _)

theorem nextMoment_moves (s : State) (h : P .harm := by assumption) :
    Moves P s (nextMoment s) :=
  setHarm_moves _ _ (harmShape_same rfl)

theorem intervalBoundary_moves (site : Nat) (s : State) (h : P .harm := by assumption)
    (k : P .store := by assumption) : Moves P s (intervalBoundary site s) := by
  unfold intervalBoundary
  dsimp only
  split
  · exact .trans (.trans (modifyHarm_moves _ _ _ (by intro; rfl)) (closeSite_moves _ _ _ _ _))
      (storeNext_moves _)
  · exact .refl s

theorem intervalsAtFrame_moves (s : State) (h : P .harm := by assumption) :
    Moves P s (intervalsAtFrame s) :=
  setHarm_moves _ _ (harmShape_map _ rfl fun _ => rfl)

theorem lossCloses_moves (s : State) (h : P .harm := by assumption)
    (k : P .store := by assumption) : Moves P s (lossCloses s) := by
  unfold lossCloses
  refine .ite (.refl s) (.trans (.foldl _ (fun s site => ?_) _ _) (storeNext_moves _))
  exact .ite (.refl s) (closeSite_moves _ _ _ _ _)

theorem harmStarts_moves (s : State) (h : P .harm := by assumption) :
    Moves P s (harmStarts s) :=
  setHarm_moves _ _ (harmShape_zip _ rfl fun g e hg he => by
    dsimp only [startSite]; split <;> simp [hg, he])

theorem abandonWindows_moves (s : State) (h : P .harm := by assumption) :
    Moves P s (abandonWindows s) :=
  setHarm_moves _ _ (harmShape_map _ rfl fun _ => List.length_map _)

theorem boundaryPasses_moves (site : Nat) (s : State) (h : P .harm := by assumption) :
    Moves P s (boundaryPasses site s) := by
  unfold boundaryPasses
  split
  · exact modifyHarm_moves _ _ _ fun _ => rfl
  · exact .refl s

theorem partialCloses_moves (causes : CloseCauses) (time : ClockTime) (fresh : Option Nat) (s : State)
    (h : P .harm := by assumption) (k : P .store := by assumption) :
    Moves P s (partialCloses causes time fresh s) := by
  unfold partialCloses
  refine .foldl _ (fun s site => ?_) _ _
  exact .trans (.ite (boundaryPasses_moves _ _) (.refl _)) (closeSite_moves _ _ _ _ _)

theorem harmStops_moves (s : State) (h : P .harm := by assumption)
    (k : P .store := by assumption) : Moves P s (harmStops s) := by
  unfold harmStops
  dsimp only
  refine .trans (.trans (abandonWindows_moves s)
    (partialCloses_moves { stop := true } s.bus.frameTime none _)) ?_
  generalize partialCloses { stop := true } s.bus.frameTime none (abandonWindows s) = t
  exact setHarm_moves _ _ (harmShape_map _ rfl fun _ => rfl)

theorem harmAcqReset_moves (s : State) (h : P .harm := by assumption)
    (k : P .store := by assumption) : Moves P s (harmAcqReset s) := by
  unfold harmAcqReset
  dsimp only
  refine .trans (t := if recording (abandonWindows s) then
    partialCloses { acqReset := true } (abandonWindows s).clock.time (some 0)
      (nextMoment (abandonWindows s))
    else abandonWindows s) (.trans (abandonWindows_moves s)
      (.ite (.trans (nextMoment_moves _) (partialCloses_moves _ _ _ _)) (.refl _))) ?_
  generalize (if recording (abandonWindows s) then
    partialCloses { acqReset := true } (abandonWindows s).clock.time (some 0)
      (nextMoment (abandonWindows s))
    else abandonWindows s) = t
  exact setHarm_moves _ _ (harmShape_map _ rfl fun _ => List.length_map _)

theorem harmLeave_moves (site role : Nat) (s : State) (h : P .harm := by assumption) :
    Moves P s (harmLeave site role s) :=
  .trans (modifyHarmMember_moves _ _ _ _) (modifyHarm_moves _ _ _ (by intro; rfl))

theorem harmonicStatus_moves (site : Byte) (s : State) : Moves P s (harmonicStatus site s) :=
  .ite (refuse_moves _ _) (.answer _ _ _)

end Sys2Proof.Machine
end

