-- ==== Sys2Proof/Laws/MovesReport.lean ====
section
/-!
SUPPORT. The moves of the sag detector, the notes, the store's requests, the print engine and the
supply monitor.
-/

-- One declaration at a time: many waiting threads would pass the memory limit of the check.
set_option Elab.async false
namespace Sys2Proof.Machine

variable {P : Part → Prop}

/-! ### Sag detector -/

/-- The detector's sites keep their number and their three channels. -/
def SagShape (s : State) (x : Sag) : Prop :=
  Shaped s → x.sites.length = 4 ∧ ∀ g ∈ x.sites, g.channels.length = 3

theorem setSag_moves (x : Sag) (s : State) (hx : SagShape s x) (h : P .sag := by assumption) :
    Moves P s { s with sag := x } :=
  .same (by
    constructor <;> first | exact .inl h | rfl | exact .inr rfl | exact id |
      exact fun k : Shaped s => ⟨k.1, k.2.1, k.2.2.1, k.2.2.2.1, hx k, k.2.2.2.2.2⟩)

theorem sagShape_same {s : State} {x : Sag} (h : x.sites = s.sag.sites) : SagShape s x :=
  fun k => by rw [h]; exact k.2.2.2.2.1

theorem sagShape_map {s : State} {x : Sag} (f : SagSite → SagSite)
    (h : x.sites = s.sag.sites.map f) (hf : ∀ g, g.channels.length = 3 → (f g).channels.length = 3) :
    SagShape s x := fun k => by
  rw [h]
  exact ⟨(List.length_map _).trans k.2.2.2.2.1.1,
    map_forall _ _ fun g hg => hf g (k.2.2.2.2.1.2 g hg)⟩

theorem sagShape_zip {s : State} {x : Sag} (f : SagSite × Site → SagSite)
    (h : x.sites = (s.sag.sites.zip s.sites).map f)
    (hf : ∀ g e, g.channels.length = 3 → e.members.length = 8 → (f (g, e)).channels.length = 3) :
    SagShape s x := fun k => by
  rw [h]
  refine ⟨by simp [k.2.2.2.2.1.1, k.2.2.2.1.1], map_forall _ _ fun g hg => ?_⟩
  have := List.of_mem_zip hg
  exact hf g.1 g.2 (k.2.2.2.2.1.2 _ this.1) (k.2.2.2.1.2 _ this.2)

/-- A site's channels as `Shaped` gives them, also past the table's end. -/
theorem sagSite_channels {s : State} (k : Shaped s) (site : Nat) :
    (sagSite s site).channels.length = 3 := by
  unfold sagSite
  rcases Nat.lt_or_ge site s.sag.sites.length with h | h
  · rw [List.getD_eq_getElem?_getD, List.getElem?_eq_getElem h]; exact k.2.2.2.2.1.2 _ (List.getElem_mem h)
  · rw [List.getD_eq_getElem?_getD, List.getElem?_eq_none h]; rfl

theorem enter_channels (b : Boundary) (g : SagSite) : (g.enter b).channels = g.channels := by
  unfold SagSite.enter; split <;> rfl

theorem sagFrame_moves (samples : List (Nat × Sample)) (s : State) (h : P .sag := by assumption) :
    Moves P s (sagFrame samples s) :=
  setSag_moves _ _ (sagShape_zip _ rfl fun g e hg he => by simp [hg, he])

theorem setEvent_moves (e : Option OpenEvent) (site : Nat) (s : State)
    (h : P .sag := by assumption) : Moves P s (setEvent e site s) :=
  modifySag_moves _ _ _ fun _ => rfl

theorem drawEvent_moves (s : State) (h : P .store := by assumption) :
    Moves P s { s with store := (drawId .event s.store).2 } :=
  setStore_moves (fun st => (drawId .event st).2) s (drawId_array _ _)

theorem openEvent_moves (site b : Nat) (sagged : List (Role × Nat)) (s : State)
    (a : P .sag := by assumption) (c : P .store := by assumption) (d : P .capture := by assumption)
    (e : P .harm := by assumption) : Moves P s (openEvent site b sagged s) :=
  .trans (.trans (.trans (.trans (drawEvent_moves s) (claimSlot_moves _ _ _ _ _))
    (setEvent_moves _ _ _)) (markOpen_moves _ _ _)) (.post _ _)

theorem closeCapture_moves (site c : Nat) (e : OpenEvent) (s : State)
    (d : P .capture := by assumption) : Moves P s (closeCapture site c e s) := by
  unfold closeCapture
  split
  · exact modifyCapture_moves _ _ _
  · exact .refl s

theorem closeEvent_moves (site c : Nat) (told : Option Nat) (ev : OpenEvent) (s : State)
    (a : P .sag := by assumption) (b : P .store := by assumption) (d : P .capture := by assumption)
    (e : P .harm := by assumption) : Moves P s (closeEvent site c told ev s) :=
  .trans (.trans (.trans (.trans (closeCapture_moves _ _ _ _) (setEvent_moves _ _ _))
    (markClose_moves _ _ _)) (offerEvent_moves _ _)) (.post _ _)

theorem forceClose_moves (c : Nat) (atStop : Bool) (s : State) (site : Nat)
    (a : P .sag := by assumption) (b : P .store := by assumption) (d : P .capture := by assumption)
    (e : P .harm := by assumption) : Moves P s (forceClose c atStop s site) := by
  unfold forceClose
  split
  · exact .ite (closeEvent_moves _ _ _ _ _) (closeEvent_moves _ _ _ _ _)
  · exact .refl s

theorem moveChannels_moves (b : Nat) (s : State) (site : Nat) (a : P .sag := by assumption) :
    Moves P s (moveChannels b s site).2 :=
  .same (by
    unfold moveChannels
    dsimp only
    constructor <;> first | exact .inl a | rfl | exact .inr rfl | exact id | skip
    intro k
    refine ⟨k.1, k.2.1, k.2.2.1, k.2.2.2.1, ⟨(updateAt_length _ _ _).trans k.2.2.2.2.1.1,
      updateAt_forall (Q := fun g : SagSite => g.channels.length = 3) _ (fun x _ => ?_) _ _ k.2.2.2.2.1.2⟩, k.2.2.2.2.2⟩
    simp [sagSite_channels k])

theorem siteActs_moves (b site : Nat) (moves : List (Role × Move)) (s : State)
    (a : P .sag := by assumption) (c : P .store := by assumption) (d : P .capture := by assumption)
    (e : P .harm := by assumption) : Moves P s (siteActs b site moves s) := by
  unfold siteActs
  split
  · exact .ite (setEvent_moves _ _ _) (closeEvent_moves _ _ _ _ _)
  · split
    · exact .refl s
    · exact openEvent_moves _ _ _ _

theorem drawOrder_moves (opening : List Nat) (s : State) (h : P .free := by assumption) :
    Moves P s (drawOrder opening s).2 := by
  unfold drawOrder
  split
  · exact .refl s
  · exact drawFree_moves s

theorem allChannels_moves (b : Nat) (s : State) (a : P .sag := by assumption) :
    Moves P s (allChannels b s).2 :=
  Moves.foldl_snd (fun acc site => (acc.1 ++ [(moveChannels b acc.2 site).1],
    (moveChannels b acc.2 site).2)) (fun acc site => moveChannels_moves b acc.2 site) _ ([], s)

theorem sagBoundary_moves (s : State)
    (a : P .sag := by assumption) (c : P .store := by assumption) (d : P .capture := by assumption)
    (e : P .harm := by assumption) (f : P .free := by assumption) : Moves P s (sagBoundary s) :=
  .trans (.trans (.trans (allChannels_moves _ s) (drawOrder_moves _ _))
    (.foldl _ (fun s site => siteActs_moves _ site _ s) _ _)) (setSag_moves _ _ (sagShape_same rfl))

theorem sagStop_moves (s : State)
    (a : P .sag := by assumption) (c : P .store := by assumption) (d : P .capture := by assumption)
    (e : P .harm := by assumption) : Moves P s (sagStop s) :=
  .trans (.foldl _ (fun s site => modifySag_moves _ site s (fun g => by rw [enter_channels])) _ _)
    (.foldl _ (fun s site => forceClose_moves _ true s site) _ _)

theorem sagRest_moves (s : State) (a : P .sag := by assumption) : Moves P s (sagRest s) :=
  setSag_moves _ _ (sagShape_map _ rfl fun _ h => (List.length_map _).trans h)

theorem sagLeave_moves (site role : Nat) (s : State) (a : P .sag := by assumption) :
    Moves P s (sagLeave site role s) := .ite (modifyChannel_moves _ _ _ _) (.refl s)

theorem sagAcqCloses_moves (s : State)
    (a : P .sag := by assumption) (c : P .store := by assumption) (d : P .capture := by assumption)
    (e : P .harm := by assumption) : Moves P s (sagAcqCloses s) :=
  .foldl _ (fun s site => forceClose_moves _ false s site) _ _

theorem sagAcqReset_moves (s : State) (a : P .sag := by assumption) : Moves P s (sagAcqReset s) :=
  setSag_moves _ _ (sagShape_map _ rfl fun _ _ => rfl)

theorem sagStatus_moves (site : Byte) (s : State) : Moves P s (sagStatus site s) :=
  .ite (refuse_moves _ _) (.answer _ _ _)

/-! ### Notes -/

theorem setLinks_moves (f : Links → Links) (id : Nat) (s : State) (h : P .store := by assumption) :
    Moves P s (setLinks f id s) := setStore_moves _ _ rfl

theorem queueNote_moves (site : Option Nat) (attach : Option Attach) (amends : Option Nat)
    (crew text : List Byte) (s : State) (h : P .store := by assumption) :
    Moves P s (queueNote site attach amends crew text s).2 :=
  setStore_moves (fun st => (drawId .note st).2.enqueue _ _ _) s (drawId_array _ _)

theorem whenQueueOpen_moves (f : State → State) (s : State) (h : Moves P s (f s)) :
    Moves P s (whenQueueOpen f s) :=
  .ite (refuse_moves _ _) (.ite (refuse_moves _ _) h)

theorem acceptNote_moves (site : Option Nat) (attach : Option Attach) (crew text : List Byte)
    (s : State) (h : P .store := by assumption) :
    Moves P s (acceptNote site attach crew text s) :=
  whenQueueOpen_moves _ _
    (.trans (.trans (queueNote_moves site attach none crew text s) (storeNext_moves _))
      (.answer _ _ _))

theorem addAttached_moves (site : Option Nat) (a : Attach) (crew text : List Byte) (s : State)
    (h : P .store := by assumption) : Moves P s (addAttached site a crew text s) := by
  unfold addAttached
  split
  · exact refuse_moves _ _
  · exact .ite (refuse_moves _ _) (.ite (refuse_moves _ _) (acceptNote_moves _ _ _ _ _))

theorem noteAdd_moves (site attachKind : Byte) (attachId : Word) (crew : Crew) (text : List Byte)
    (s : State) (h : P .store := by assumption) :
    Moves P s (noteAdd site attachKind attachId crew text s) := by
  unfold noteAdd
  split
  · exact refuse_moves _ _
  · refine .ite (refuse_moves _ _) (.ite (refuse_moves _ _) ?_)
    split
    · exact addAttached_moves _ _ _ _ _
    · exact acceptNote_moves _ _ _ _ _

theorem amend_moves (id : Nat) (e : Entry) (crew text : List Byte) (s : State)
    (h : P .store := by assumption) : Moves P s (amend id e crew text s) :=
  .trans (.trans (.trans (queueNote_moves _ _ (some id) crew text s) (setLinks_moves _ _ _))
    (storeNext_moves _)) (.answer _ _ _)

theorem noteAmend_moves (id : Word) (crew : Crew) (text : List Byte) (s : State)
    (h : P .store := by assumption) : Moves P s (noteAmend id crew text s) := by
  unfold noteAmend
  dsimp only
  split
  · exact refuse_moves _ _
  · refine .ite (refuse_moves _ _) (.ite (refuse_moves _ _) (.ite (refuse_moves _ _) ?_))
    split
    · exact refuse_moves _ _
    · exact .ite (refuse_moves _ _) (.ite (refuse_moves _ _) (.ite (refuse_moves _ _)
        (whenQueueOpen_moves _ _ (amend_moves _ _ _ _ _))))

theorem attach_moves (id : Nat) (e : Entry) (a : Attach) (r : NoteRecord) (s : State)
    (h : P .store := by assumption) : Moves P s (attach id e a r s) :=
  .ite (.trans (.trans (setLinks_moves _ _ _) (setStore_moves _ _ rfl)) (.answer _ _ _))
    (whenQueueOpen_moves _ _
      (.trans (.trans (.trans (setLinks_moves _ _ _) (setStore_moves _ _ rfl)) (storeNext_moves _))
        (.answer _ _ _)))

theorem attachTo_moves (id : Nat) (e : Entry) (a : Attach) (s : State)
    (h : P .store := by assumption) : Moves P s (attachTo id e a s) := by
  unfold attachTo
  split
  · exact .ite (refuse_moves _ _) (.ite (refuse_moves _ _) (attach_moves _ _ _ _ _))
  · exact refuse_moves _ _

theorem noteAttach_moves (id : Word) (kind : Byte) (target : Word) (s : State)
    (h : P .store := by assumption) : Moves P s (noteAttach id kind target s) := by
  unfold noteAttach
  dsimp only
  split
  · exact refuse_moves _ _
  · refine .ite (refuse_moves _ _) (.ite (refuse_moves _ _) ?_)
    split
    · exact refuse_moves _ _
    · exact .ite (refuse_moves _ _) (.ite (refuse_moves _ _) (.ite (refuse_moves _ _)
        (.ite (refuse_moves _ _) (attachTo_moves _ _ _ _))))

theorem removeQueued_moves (kind : RecordKind) (id : Nat) (s : State)
    (h : P .store := by assumption) (k : P .survey := by assumption)
    (l : P .harm := by assumption) (m : P .free := by assumption) :
    Moves P s (removeQueued kind id s) :=
  .trans (.trans (setStore_moves _ _ rfl) (announcePlace_moves _)) (storeNext_moves _)

theorem killLive_moves (kind : RecordKind) (id : Nat) (e : Entry) (s : State)
    (h : P .store := by assumption) : Moves P s (killLive kind id e s) := by
  unfold killLive
  refine .trans (setStore_moves (Store.modifyEntry
    (fun e => { e with state := .dead, pins := 0, links := {} }) kind id) s rfl) ?_
  dsimp only
  split
  · exact .trans (setStore_moves _ _ rfl) (storeNext_moves _)
  · exact .refl _

theorem unlink_moves (e : Entry) (s : State) (h : P .store := by assumption) :
    Moves P s (unlink e s) := by
  unfold unlink
  split
  · exact setLinks_moves _ _ _
  · exact .refl s

theorem dropReplacement_moves (id : Nat) (s : State)
    (h : P .store := by assumption) (k : P .survey := by assumption)
    (l : P .harm := by assumption) (m : P .free := by assumption) :
    Moves P s (dropReplacement id s) :=
  .ite (.trans (setStore_moves _ _ rfl) (announcePlace_moves _)) (.refl s)

theorem deleteNote_moves (id : Nat) (e : Entry) (s : State)
    (h : P .store := by assumption) (k : P .survey := by assumption)
    (l : P .harm := by assumption) (m : P .free := by assumption) :
    Moves P s (deleteNote id e s) :=
  .ite (refuse_moves _ _) (.ite (refuse_moves _ _) (.ite (refuse_moves _ _) (.ite (refuse_moves _ _)
    (.ite (.trans (.trans (unlink_moves _ _) (removeQueued_moves _ _ _)) (.answer _ _ _))
      (.trans (.trans (unlink_moves _ _) (dropReplacement_moves _ _)) (killLive_moves _ _ _ _))))))

theorem noteDelete_moves (id : Word) (s : State)
    (h : P .store := by assumption) (k : P .survey := by assumption)
    (l : P .harm := by assumption) (m : P .free := by assumption) :
    Moves P s (noteDelete id s) := by
  refine .ite (refuse_moves _ _) (.ite (refuse_moves _ _) ?_)
  split
  · exact refuse_moves _ _
  · exact deleteNote_moves _ _ _

theorem queueLock_moves (mark : Nat) (clamped : Bool) (s : State) (h : P .store := by assumption) :
    Moves P s (queueLock mark clamped s) :=
  .trans (.trans (setStore_moves (fun st => (drawId .lockMark st).2.enqueue _ _ _) s (drawId_array _ _))
    (.clamp clamped _)) (storeNext_moves _)

theorem noteLock_moves (upto : Word) (s : State) (h : P .store := by assumption) :
    Moves P s (noteLock upto s) :=
  .ite (refuse_moves _ _) (.ite (refuse_moves _ _) (.ite (refuse_moves _ _)
    (whenQueueOpen_moves _ _ (.ite (.answer _ _ _) (queueLock_moves _ _ _)))))

theorem noteList_moves (fromId : Word) (count : Byte) (s : State) :
    Moves P s (noteList fromId count s) :=
  .ite (refuse_moves _ _) (.ite (refuse_moves _ _) (.answer _ _ _))

theorem linkNote_moves (s : State) (e : Entry) (h : P .store := by assumption) :
    Moves P s (linkNote s e) := by
  unfold linkNote
  split
  · dsimp only
    split
    · exact .trans (setLinks_moves _ _ _) (setLinks_moves _ _ _)
    · exact setLinks_moves _ _ _
  · exact .refl s

theorem linkNotes_moves (s : State) (h : P .store := by assumption) : Moves P s (linkNotes s) :=
  .foldl _ (fun s e => linkNote_moves s e) _ _

/-! ### Requests of the store -/

theorem recordList_moves (kind : Byte) (fromId : Word) (count : Byte) (s : State) :
    Moves P s (recordList kind fromId count s) := by
  unfold recordList
  split
  · exact refuse_moves _ _
  · exact .ite (refuse_moves _ _) (.ite (refuse_moves _ _) (.answer _ _ _))

theorem recordRead_moves (kind : Byte) (id : Word) (s : State) : Moves P s (recordRead kind id s) := by
  unfold recordRead
  split
  · exact refuse_moves _ _
  · refine .ite (refuse_moves _ _) ?_
    split
    · exact refuse_moves _ _
    · exact .ite (refuse_moves _ _) (.answer _ _ _)

theorem deleteRecord_moves (e : Entry) (s : State)
    (h : P .store := by assumption) (k : P .survey := by assumption)
    (l : P .harm := by assumption) (m : P .free := by assumption) :
    Moves P s (deleteRecord e s) :=
  .ite (refuse_moves _ _) (.ite (refuse_moves _ _) (.ite (refuse_moves _ _) (.ite (refuse_moves _ _)
    (.ite (.trans (removeQueued_moves _ _ _) (.answer _ _ _)) (killLive_moves _ _ _ _)))))

theorem recordDelete_moves (kind : Byte) (id : Word) (s : State)
    (h : P .store := by assumption) (k : P .survey := by assumption)
    (l : P .harm := by assumption) (m : P .free := by assumption) :
    Moves P s (recordDelete kind id s) := by
  unfold recordDelete
  split
  · exact refuse_moves _ _
  · refine .ite (refuse_moves _ _) (.ite (refuse_moves _ _) ?_)
    split
    · exact refuse_moves _ _
    · exact .ite (noteDelete_moves _ _) (deleteRecord_moves _ _)

theorem storeMode_moves (mode : Byte) (s : State) (h : P .store := by assumption) :
    Moves P s (storeMode mode s) := by
  refine .ite (refuse_moves _ _) ?_
  split
  · exact refuse_moves _ _
  · exact .trans (.trans (.trans (setStore_moves _ _ rfl) (.answer _ _ _)) (recheckFull_moves _))
      (storeNext_moves _)

theorem storeStatus_moves (s : State) : Moves P s (storeStatus s) := .answer _ _ _

theorem firstLock_wf (st : Store) (loc : Nat × Nat) (opened : Bool) (r : LockRecord)
    (h : Memory.wf st.array = true) : Memory.wf (st.firstLock loc opened r).array = true := by
  show Memory.wf (Memory.write (st.openPlace loc opened).array _ _) = true
  rw [Store.openPlace_array]
  exact Memory.wf_write _ _ _ h

theorem firstLockMark_moves (s : State) (h : P .store := by assumption)
    (k : P .array := by assumption) : Moves P s (firstLockMark s) := by
  unfold firstLockMark
  refine .trans (setStore_moves Store.drawFirst s rfl) ?_
  dsimp only
  split
  · exact .refl _
  · exact setArray_moves _ _ (firstLock_wf _ _ _ _)

theorem storeWipe_moves (s : State) (h : P .store := by assumption)
    (k : P .survey := by assumption) (l : P .harm := by assumption) : Moves P s (storeWipe s) :=
  .ite (refuse_moves _ _) (.ite (refuse_moves _ _) (.ite (refuse_moves _ _) (.ite (refuse_moves _ _)
    (.trans (.trans (.answer _ _ _) (enterStore_moves _ _)) (.ite (.refl _) (wipeEmpty_moves _))))))

theorem wipeComplete_moves (s : State) (h : P .store := by assumption)
    (k : P .array := by assumption) : Moves P s (wipeComplete s) :=
  .ite (.trans (.trans (.trans (setArray_moves Store.wiped _ fun _ => rfl) (firstLockMark_moves _))
    (enterStore_moves _ _)) (storeNext_moves _)) (.refl s)

theorem markEntry_wf (m : Memory) (e : Entry) (h : m.wf = true) : (markEntry m e).wf = true := by
  unfold markEntry
  split
  · exact Memory.wf_write _ _ _ h
  · exact h

theorem retireDuplicates_wf (st : Store) (h : Memory.wf st.array = true) :
    Memory.wf (retireDuplicates st).array = true := by
  show Memory.wf (List.foldl markEntry st.array _) = true
  generalize st.dir.filter (isDuplicate st) = xs
  generalize st.array = m at h
  induction xs generalizing m with
  | nil => exact h
  | cons x xs ih => exact ih _ (markEntry_wf _ _ h)

theorem mountStep_wf (st : Store) (h : Memory.wf st.array = true) :
    Memory.wf (mountStep st).array = true := by
  unfold mountStep
  split
  · exact Store.programStep_wf _ _ h
  · exact h

/-! ### What a cut mount leaves -/

theorem firstLockStages_wf (clock : Clock) (st : Store) (h : Memory.wf st.array = true) :
    ∀ m ∈ firstLockStages clock st, m.wf = true := by
  unfold firstLockStages
  dsimp only
  split
  · simp
  · intro m hm
    rcases List.mem_cons.mp hm with rfl | hm
    · exact Memory.wf_write _ _ _ h
    · rw [List.mem_singleton.mp hm]
      exact firstLock_wf _ _ _ _ h

theorem markStages_wf (xs : List Entry) (m : Memory) (h : m.wf = true) :
    ∀ a ∈ markStages m xs, a.wf = true := by
  induction xs generalizing m with
  | nil => simp [markStages]
  | cons x xs ih =>
    intro a ha
    rcases List.mem_cons.mp ha with rfl | ha
    · exact markEntry_wf _ _ h
    · exact ih _ (markEntry_wf _ _ h) a ha

/-- Whatever a mount has come to, the array it leaves is canonical. -/
theorem mountStages_wf (clock : Clock) (st : Store) (h : Memory.wf st.array = true) :
    ∀ m ∈ mountStages clock st, m.wf = true := by
  unfold mountStages
  dsimp only
  intro m hm
  rcases List.mem_cons.mp hm with rfl | hm
  · exact h
  · rcases List.mem_append.mp hm with hm | hm
    · exact markStages_wf _ _ h m hm
    · split at hm
      · exact firstLockStages_wf _ _ (retireDuplicates_wf (scanned st) h) m hm
      · rw [List.mem_singleton.mp hm]
        exact mountStep_wf _ (retireDuplicates_wf (scanned st) h)

theorem firstWrites_moves (s : State) (h : P .store := by assumption)
    (k : P .array := by assumption) : Moves P s (firstWrites s) :=
  .ite (firstLockMark_moves _) (setArray_moves _ _ (mountStep_wf _))

theorem mountTrigger_moves (s : State) (h : P .store := by assumption) :
    Moves P s (mountTrigger s) := .ite (chooseReclaim_moves _) (enterStore_moves _ _)

theorem mountComplete_moves (s : State) (h : P .store := by assumption)
    (k : P .array := by assumption) (l : P .survey := by assumption)
    (m : P .sites := by assumption) (n : P .rotation := by assumption) :
    Moves P s (mountComplete s) :=
  .ite (.trans (.trans (.trans (.trans (.trans (.trans
    (setArray_moves (fun st => retireDuplicates (scanned st)) s
      fun w => retireDuplicates_wf (scanned s.store) w)
    (firstWrites_moves _)) (setStore_moves _ _ rfl)) (linkNotes_moves _)) (mountTrigger_moves _))
    (restoreSurvey_moves _)) (storeNext_moves _)) (.refl s)

end Sys2Proof.Machine
end

