-- ==== Sys2Proof/Laws/MovesPart.lean ====
section
/-!
SUPPORT. The moves of the print engine, the supply monitor and the part's boundaries, and of every
request.
-/

-- One declaration at a time: many waiting threads would pass the memory limit of the check.
set_option Elab.async false
namespace Sys2Proof.Machine

variable {P : Part → Prop}

/-! ### Print engine -/

theorem setPrint_moves (f : Print → Print) (s : State) (h : P .print := by assumption) :
    Moves P s (setPrint f s) :=
  .same (by constructor <;> first | exact .inl h | rfl | exact .inr rfl | exact id)

theorem postPrint_moves (job : Option Nat) (phase : Option (Option JobPhase)) (s : State) :
    Moves P s (postPrint job phase s) := .post _ _

theorem printStep_moves (f : State → State) (s : State) (h : Moves P s (f s)) :
    Moves P s (printStep f s) := .trans h (postWhen_moves _ _ _)

theorem render_moves (s : State) (h : P .print := by assumption) : Moves P s (render s) :=
  setPrint_moves _ _

theorem lineBoundary_moves (s : State) (h : P .print := by assumption) :
    Moves P s (lineBoundary s) := by
  refine .ite (.refl s) ?_
  split
  · exact setPrint_moves _ _
  · exact .trans (setPrint_moves _ _) (render_moves _)
  · split
    · exact .ite (setPrint_moves _ _) (.refl s)
    · exact .refl s

theorem renderAndTake_moves (s : State) (h : P .print := by assumption) :
    Moves P s (renderAndTake s) :=
  .ite (.trans (render_moves s) (lineBoundary_moves _)) (render_moves s)

theorem releaseSection_moves (s : State) (x : JobSection) (k : P .store := by assumption)
    (l : P .capture := by assumption) : Moves P s (releaseSection s x) := by
  refine .trans (t := x.pins.foldl unpinRecord s)
    (.foldl _ (fun s p => unpinRecord_moves s p) _ _) ?_
  unfold releaseSection
  dsimp only
  split
  · exact unpinCapture_moves _ _
  · exact .refl _

theorem releaseJob_moves (j : Job) (s : State) (k : P .store := by assumption)
    (l : P .capture := by assumption) : Moves P s (releaseJob j s) :=
  .foldl _ (fun s x => releaseSection_moves s x) _ _

theorem takeSection_moves (s : State) (x : JobSection) (k : P .store := by assumption)
    (l : P .capture := by assumption) : Moves P s (takeSection s x) := by
  refine .trans (t := x.pins.foldl (fun s p => pinRecord p s) s)
    (.foldl _ (fun s p => pinRecord_moves p s) _ _) ?_
  unfold takeSection
  dsimp only
  split
  · exact pinCapture_moves _ _
  · exact .refl _

theorem startNext_moves (s : State) (h : P .print := by assumption) : Moves P s (startNext s) := by
  unfold startNext
  split
  · exact .ite (.trans (setPrint_moves _ _) (postPrint_moves _ _ _)) (.refl s)
  · exact .refl s

theorem makeDone_moves (j : Job) (s : State) (h : P .print := by assumption)
    (k : P .store := by assumption) (l : P .capture := by assumption) :
    Moves P s (makeDone j s) :=
  .trans (.trans (.trans (setPrint_moves _ _) (releaseJob_moves _ _)) (.post _ _))
    (startNext_moves _)

theorem finishActive_moves (j : Job) (s : State) (h : P .print := by assumption)
    (k : P .store := by assumption) (l : P .capture := by assumption) :
    Moves P s (finishActive j s) :=
  .ite (makeDone_moves _ _) (.trans (setPrint_moves _ _) (postPrint_moves _ _ _))

theorem fetchNext_moves (s : State) (h : P .print := by assumption) : Moves P s (fetchNext s) := by
  unfold fetchNext
  split
  · exact .refl s
  · exact .ite (.trans (setPrint_moves _ _) (renderAndTake_moves _)) (.refl s)

theorem waitingFetch_moves (s : State) (h : P .print := by assumption) :
    Moves P s (waitingFetch s) := by
  unfold waitingFetch
  split
  · exact .ite (.refl s)
      (.trans (setPrint_moves _ _) (printStep_moves _ _ (renderAndTake_moves _)))
  · exact .refl s

theorem eraseDone_moves (s : State) (h : P .print := by assumption) (k : P .store := by assumption)
    (a : P .array := by assumption) (b : P .survey := by assumption)
    (c : P .harm := by assumption) : Moves P s (eraseDone s) :=
  .ite (.trans (waitingFetch_moves s) (sectorEraseDone_moves _)) (.refl s)

theorem sectionFetch_moves (s : State) (h : P .print := by assumption) :
    Moves P s (sectionFetch s) := printStep_moves _ _ (fetchNext_moves s)

theorem fetchDue_moves (s : State) (h : P .print := by assumption) : Moves P s (fetchDue s) :=
  .trans (.trans (sectionFetch_moves s) (sectionFetch_moves _)) (sectionFetch_moves _)

theorem endLine_moves (s : State) (h : P .print := by assumption)
    (k : P .store := by assumption) (l : P .capture := by assumption) :
    Moves P s (endLine s) := by
  unfold endLine
  split
  · exact .ite (finishActive_moves _ _) (lineBoundary_moves _)
  · exact .refl s

theorem lineDone_moves (x : DotLine) (s : State) (h : P .print := by assumption)
    (k : P .store := by assumption) (l : P .capture := by assumption) :
    Moves P s (lineDone x s) :=
  .trans (setPrint_moves _ s) (.ite (.refl _) (endLine_moves _))

theorem dotLineDone_moves (s : State) (h : P .print := by assumption)
    (k : P .store := by assumption) (l : P .capture := by assumption) :
    Moves P s (dotLineDone s) := by
  unfold dotLineDone
  split
  · exact .trans (fetchDue_moves s) (printStep_moves _ _ (lineDone_moves _ _))
  · exact .refl s

theorem brakeReport_moves (level : Level) (s : State) (h : P .print := by assumption) :
    Moves P s (brakeReport level s) :=
  printStep_moves _ _ (.ite (.trans (setPrint_moves _ _) (.ite (lineBoundary_moves _) (.refl _)))
    (setPrint_moves _ _))

theorem paperChange_moves (present : Bool) (s : State) (h : P .print := by assumption) :
    Moves P s (paperChange present s) := printStep_moves _ _ (setPrint_moves _ _)

theorem headTemperature_moves (t : Int) (s : State) (h : P .print := by assumption) :
    Moves P s (headTemperature t s) :=
  printStep_moves _ _ (.trans (setPrint_moves _ _) (.ite (lineBoundary_moves _) (.refl _)))

theorem printResume_moves (s : State) (h : P .print := by assumption) :
    Moves P s (printResume s) :=
  .ite (printStep_moves _ _ (.trans (.trans (setPrint_moves _ _) (lineBoundary_moves _))
    (.answer _ _ _))) (.answer _ _ _)

theorem acceptJob_moves (copies : Nat) (xs : List Section) (s : State)
    (h : P .print := by assumption) (k : P .store := by assumption)
    (l : P .capture := by assumption) : Moves P s (acceptJob copies xs s) :=
  .trans (.trans (.trans (.trans (.foldl takeSection (fun s x => takeSection_moves s x) _ s)
    (setPrint_moves _ _)) (postPrint_moves _ _ _)) (.answer _ _ _)) (startNext_moves _)

theorem printSubmit_moves (copies : Byte) (sections : List Section) (s : State)
    (h : P .print := by assumption) (k : P .store := by assumption)
    (l : P .capture := by assumption) : Moves P s (printSubmit copies sections s) := by
  unfold printSubmit
  split
  · exact .answer _ _ _
  · exact printStep_moves _ _ (acceptJob_moves _ _ _)

theorem printCancel_moves (job : Half) (s : State) (h : P .print := by assumption)
    (k : P .store := by assumption) (l : P .capture := by assumption) :
    Moves P s (printCancel job s) := by
  unfold printCancel
  dsimp only
  split
  · exact refuse_moves _ _
  · split
    · exact .ite (printStep_moves _ _ (.trans (.answer _ _ _) (makeDone_moves _ _)))
        (refuse_moves _ _)
    · exact printStep_moves _ _
        (.trans (.trans (.answer _ _ _) (setPrint_moves _ _)) (renderAndTake_moves _))
    · exact .answer _ _ _
    · exact refuse_moves _ _

theorem doneFreed_moves (s : State) (h : P .print := by assumption)
    (k : P .store := by assumption) (l : P .capture := by assumption) :
    Moves P s (doneFreed s) := by
  unfold doneFreed
  split
  · exact .ite (makeDone_moves _ _) (startNext_moves _)
  · exact startNext_moves _

theorem printDoneRead_moves (s : State) (h : P .print := by assumption)
    (k : P .store := by assumption) (l : P .capture := by assumption) :
    Moves P s (printDoneRead s) := by
  unfold printDoneRead
  split
  · exact refuse_moves _ _
  · exact printStep_moves _ _
      (.trans (.trans (setPrint_moves _ _) (.answer _ _ _)) (doneFreed_moves _))

theorem printStatus_moves (s : State) : Moves P s (printStatus s) := .answer _ _ _

theorem printCleared_moves (s : State) (h : P .print := by assumption)
    (k : P .store := by assumption) (l : P .capture := by assumption) :
    Moves P s (printCleared s) :=
  .trans (.trans (.trans (.foldl _ (fun s j => releaseJob_moves j s) _ s) (unpinAllSlots_moves _))
    (setPrint_moves _ _)) (.ite (.refl _) (postPrint_moves _ _ _))

/-! ### Supply monitor -/

theorem setSupply_moves (f : Supply → Supply) (s : State) (h : P .supply := by assumption) :
    Moves P s (setSupply f s) :=
  .same (by constructor <;> first | exact .inl h | rfl | exact .inr rfl | exact id)

theorem supplyReport_moves (new : Level) (reading : Nat) (s : State)
    (h : P .supply := by assumption) (k : P .print := by assumption)
    (l : P .survey := by assumption) : Moves P s (supplyReport new reading s) :=
  .trans (.trans (.trans (setSupply_moves _ s) (.post _ _)) (brakeReport_moves _ _))
    (.ite (surveyCritical_moves _) (.refl _))

theorem supplyReading_moves (input : Nat) (s : State)
    (h : P .supply := by assumption) (k : P .print := by assumption)
    (l : P .survey := by assumption) : Moves P s (supplyReading input s) :=
  .trans (setSupply_moves _ s) (.ite (.refl _) (supplyReport_moves _ _ _))

theorem setThresholds_moves (low critical : Option Half) (schedule : Schedule) (s : State)
    (h : P .supply := by assumption) : Moves P s (setThresholds low critical schedule s) :=
  .trans (setSupply_moves _ s) (.answer _ _ _)

theorem supplySet_moves (low critical : Option Half) (schedule : Option Byte) (s : State)
    (h : P .supply := by assumption) : Moves P s (supplySet low critical schedule s) := by
  unfold supplySet
  split
  · exact setThresholds_moves _ _ _ _
  · split
    · exact setThresholds_moves _ _ _ _
    · exact refuse_moves _ _

theorem supplyStatus_moves (clear : Bool) (s : State) (h : P .supply := by assumption) :
    Moves P s (supplyStatus clear s) :=
  .trans (.ite (setSupply_moves _ s) (.refl s)) (.answer _ _ _)

/-! ### Boundaries -/

theorem setBus_moves (f : Bus → Bus) (s : State) (h : P .bus := by assumption) :
    Moves P s (setBus f s) :=
  .same (by constructor <;> first | exact .inl h | rfl | exact .inr rfl | exact id)

theorem leaveService_moves (slot : Nat) (s : State) (a : P .sites := by assumption)
    (b : P .sag := by assumption) (c : P .harm := by assumption)
    (d : P .rotation := by assumption) : Moves P s (leaveService slot s) := by
  unfold leaveService
  split
  · exact .trans (.trans (.trans (modifyMember_moves _ _ _ _) (sagLeave_moves _ _ _))
      (harmLeave_moves _ _ _)) (refreshRotation_moves _ _)
  · exact .refl s

theorem podLost_moves (slot : Nat) (s : State) (e : P .roster := by assumption)
    (a : P .sites := by assumption) (b : P .sag := by assumption) (c : P .harm := by assumption)
    (d : P .rotation := by assumption) : Moves P s (podLost slot s) :=
  .ite (.trans (.trans (modifyEntry_moves _ _ _) (.post _ _)) (leaveService_moves _ _)) (.refl s)

theorem podStuck_moves (slot : Nat) (s : State) (e : P .roster := by assumption)
    (a : P .sites := by assumption) (b : P .sag := by assumption) (c : P .harm := by assumption)
    (d : P .rotation := by assumption) : Moves P s (podStuck slot s) :=
  .ite (.trans (.trans (modifyEntry_moves _ _ _) (.post _ _)) (leaveService_moves _ _)) (.refl s)

theorem startBoundary_moves (s : State) (a : P .survey := by assumption)
    (b : P .sag := by assumption) (c : P .harm := by assumption)
    (d : P .store := by assumption) : Moves P s (startBoundary s) :=
  .ite (.trans (.trans (surveyStarts_moves s) (harmStarts_moves _))
    (setSag_moves _ _ (sagShape_same rfl))) (.refl s)

theorem stopBoundary_moves (s : State) (a : P .survey := by assumption)
    (b : P .sag := by assumption) (c : P .harm := by assumption) (d : P .store := by assumption)
    (e : P .capture := by assumption) : Moves P s (stopBoundary s) :=
  .ite (.trans (.trans (.trans (.trans (.trans (sagStop_moves s) (truncateCaptures_moves _ _))
    (harmStops_moves _)) (sagRest_moves _)) (surveyStops_moves _)) (storeNext_moves _)) (.refl s)

theorem changeBoundary_moves (s : State) (a : P .survey := by assumption)
    (b : P .sag := by assumption) (c : P .harm := by assumption) (d : P .store := by assumption)
    (e : P .capture := by assumption) : Moves P s (changeBoundary s) :=
  .trans (startBoundary_moves s) (stopBoundary_moves _)

theorem halfCycleBoundary_moves (s : State) (a : P .survey := by assumption)
    (b : P .sag := by assumption) (c : P .harm := by assumption) (d : P .store := by assumption)
    (e : P .capture := by assumption) (f : P .bus := by assumption)
    (g : P .free := by assumption) : Moves P s (halfCycleBoundary s) :=
  .ite (.trans (.trans (.trans (changeBoundary_moves s) (sagBoundary_moves _)) (setBus_moves _ _))
    (storeNext_moves _)) (.refl s)

theorem siteBoundary_moves (site : Nat) (s : State) (a : P .survey := by assumption)
    (b : P .sag := by assumption) (c : P .harm := by assumption) (d : P .store := by assumption)
    (e : P .capture := by assumption) : Moves P s (siteBoundary site s) :=
  .trans (stopBoundary_moves s) (intervalBoundary_moves _ _)

theorem boundaryWork_moves (s : State) (a : P .survey := by assumption)
    (b : P .sag := by assumption) (c : P .harm := by assumption) (d : P .store := by assumption)
    (e : P .capture := by assumption) (f : P .bus := by assumption)
    (g : P .free := by assumption) : Moves P s (boundaryWork s) :=
  .trans (.trans (changeBoundary_moves s) (halfCycleBoundary_moves _))
    (.foldl _ (fun s site => intervalBoundary_moves site s) _ _)

theorem deliver_moves (frame : Nat) (samples : List (Nat × Sample)) (s : State)
    (a : P .tracker := by assumption) (b : P .rotation := by assumption)
    (c : P .sag := by assumption) (d : P .capture := by assumption)
    (e : P .harm := by assumption) : Moves P s (deliver frame samples s) :=
  .trans (.trans (.trans (.trans (.trans (trackFrame_moves _ _ s) (rotationFrame_moves _ _ _))
    (sagFrame_moves _ _)) (ringFrame_moves _ _ _)) (captureFrame_moves _ _ _)) (harmFrame_moves _ _ _)

theorem windowsEnd_moves (s : State) (e : P .harm := by assumption) : Moves P s (windowsEnd s) := by
  unfold windowsEnd
  generalize allPositions = xs
  exact .foldl _ (fun s p => windowComplete_moves p.1 p.2 s) xs s

theorem capturesEnd_moves (s : State) (e : P .capture := by assumption) :
    Moves P s (capturesEnd s) := .foldl _ (fun s i => captureComplete_moves i s) _ s

theorem stuckEnd_moves (s : State) (e : P .roster := by assumption)
    (a : P .sites := by assumption) (b : P .sag := by assumption) (c : P .harm := by assumption)
    (d : P .rotation := by assumption) : Moves P s (stuckEnd s) :=
  .foldl _ (fun s slot => podStuck_moves slot s) _ s

theorem lostEnd_moves (s : State) (e : P .roster := by assumption)
    (a : P .sites := by assumption) (b : P .sag := by assumption) (c : P .harm := by assumption)
    (d : P .rotation := by assumption) : Moves P s (lostEnd s) :=
  .foldl _ (fun s slot => podLost_moves slot s) _ s

theorem frameEndWork_moves (s : State) (a : P .tracker := by assumption)
    (b : P .rotation := by assumption) (c : P .sag := by assumption)
    (d : P .capture := by assumption) (e : P .harm := by assumption)
    (f : P .roster := by assumption) (g : P .sites := by assumption) :
    Moves P s (frameEndWork s) :=
  .trans (.trans (.trans (.trans (windowsEnd_moves s) (noCrossingTimeout_moves _))
    (capturesEnd_moves _)) (stuckEnd_moves _)) (lostEnd_moves _)

theorem frameEnd_moves (words : List BusWord) (s : State) (a : P .survey := by assumption)
    (b : P .sag := by assumption) (c : P .harm := by assumption) (d : P .store := by assumption)
    (e : P .capture := by assumption) (f : P .bus := by assumption) (g : P .free := by assumption)
    (h : P .tracker := by assumption) (i : P .rotation := by assumption)
    (j : P .roster := by assumption) (k : P .receive := by assumption) :
    Moves P s (frameEnd words s) :=
  .ite (.trans (.trans (.trans (.trans (.trans (boundaryWork_moves s) (takeWords_moves _ _ _))
    (probeAnswer_moves _ _ _)) (joinFrame_moves _ _ _)) (deliver_moves _ _ _)) (setBus_moves _ _))
    (.refl s)

theorem busReset_moves (s : State) (a : P .bus := by assumption) (b : P .roster := by assumption)
    (c : P .receive := by assumption) : Moves P s (busReset s) :=
  .same (by
    constructor <;> first
      | exact .inl a | exact .inl b | exact .inl c | rfl | exact .inr rfl | exact id
      | exact fun k : Shaped s => ⟨rfl, rfl, k.2.2⟩)

theorem membersInactive_moves (s : State) (a : P .sites := by assumption) :
    Moves P s (membersInactive s) :=
  .same (by constructor <;> first | exact .inl a | rfl | exact .inr rfl | exact id |
    exact fun k : Shaped s => ⟨k.1, k.2.1, k.2.2.1, ⟨(List.length_map _).trans k.2.2.2.1.1,
      map_forall _ _ fun e he => (List.length_map _).trans (k.2.2.2.1.2 e he)⟩, k.2.2.2.2⟩)

theorem acqBlocks_moves (s : State) (b : P .sag := by assumption) (c : P .harm := by assumption)
    (d : P .store := by assumption) (e : P .capture := by assumption) (f : P .bus := by assumption)
    (h : P .tracker := by assumption) (i : P .rotation := by assumption)
    (j : P .roster := by assumption) (k : P .receive := by assumption)
    (l : P .sites := by assumption) : Moves P s (acqBlocks s) :=
  .trans (.trans (.trans (.trans (.trans (.trans (.trans (.trans (.trans (sagAcqCloses_moves s)
    (truncateCaptures_moves _ _)) (emptyRings_moves _)) (harmAcqReset_moves _))
    (sagAcqReset_moves _)) (busReset_moves _)) (membersInactive_moves _))
    (trackerAcqReset_moves _)) (storeNext_moves _)) (.refl _)

theorem acqReset_moves (s : State) (b : P .sag := by assumption) (c : P .harm := by assumption)
    (d : P .store := by assumption) (e : P .capture := by assumption) (f : P .bus := by assumption)
    (h : P .tracker := by assumption) (i : P .rotation := by assumption)
    (j : P .roster := by assumption) (k : P .receive := by assumption)
    (l : P .sites := by assumption) : Moves P s (acqReset s) :=
  .ite (.trans (.trans (frameEndWork_moves s) (acqBlocks_moves _)) (.domain _ _)) (.refl s)

theorem printReset_moves (s : State) (h : P .print := by assumption)
    (k : P .store := by assumption) (l : P .capture := by assumption) :
    Moves P s (printReset s) :=
  .ite (.trans (printCleared_moves s) (.domain _ _)) (.refl s)

theorem newFrame_moves (s : State)
    (a : P .bus := by assumption) (b : P .roster := by assumption) (c : P .receive := by assumption)
    (h : P .sites := by assumption) (k : P .sag := by assumption) (l : P .harm := by assumption)
    (n : P .rotation := by assumption) (t : P .tracker := by assumption)
    (f : P .free := by assumption) : Moves P s (newFrame s) := by
  unfold newFrame
  dsimp only
  refine .trans ?_ (setBus_moves _ _)
  refine .trans ?_ (joinAtFrame_moves _)
  exact .trans (ncoCarry_moves s) (setBus_moves _ _)

theorem markBoundary_moves (s : State) (a : P .bus := by assumption)
    (b : P .survey := by assumption) : Moves P s (markBoundary s) := by
  unfold markBoundary
  exact .trans (setBus_moves _ _) (setSurvey_moves _ _)

theorem beginFrame_moves (s : State)
    (a : P .bus := by assumption) (b : P .roster := by assumption) (c : P .receive := by assumption)
    (h : P .sites := by assumption) (k : P .sag := by assumption) (l : P .harm := by assumption)
    (n : P .rotation := by assumption) (t : P .tracker := by assumption)
    (f : P .free := by assumption) (v : P .survey := by assumption)
    (st : P .store := by assumption) : Moves P s (beginFrame s) :=
  .trans (.trans (.trans (.trans (.trans (.trans (newFrame_moves s) (selectControl_moves _))
    (referenceAtFrame_moves _)) (nextMoment_moves _)) (intervalsAtFrame_moves _))
    (markBoundary_moves _))
    (.ite (.refl _) (lossCloses_moves _))

/-- A frame's start: everything may change but the supply level's own state. -/
theorem frameStart_moves (s : State) (m : P .clock := by assumption)
    (a : P .bus := by assumption) (b : P .roster := by assumption) (c : P .receive := by assumption)
    (h : P .sites := by assumption) (k : P .sag := by assumption) (l : P .harm := by assumption)
    (n : P .rotation := by assumption) (t : P .tracker := by assumption)
    (f : P .free := by assumption) (v : P .survey := by assumption)
    (st : P .store := by assumption) (cp : P .capture := by assumption)
    (pr : P .print := by assumption) : Moves P s (frameStart s) :=
  .ite (.refl s) (.trans (.trans (.trans (.trans (.trans (.notice s) (printReset_moves _))
    (frameEndWork_moves _)) (takeMidnight_moves _)) (acqReset_moves _)) (beginFrame_moves _))

/-! ### Clock -/

theorem clockTick_moves (s : State) (h : P .clock := by assumption)
    (k : P .roster := by assumption) : Moves P s (clockTick s) :=
  .trans (takeMidnight_moves s) (setClock_moves _ _)

theorem clockWrap_moves (s : State) (h : P .clock := by assumption)
    (k : P .roster := by assumption) : Moves P s (clockWrap s) :=
  .ite (clockTick_moves s) (.refl s)

end Sys2Proof.Machine
end

