-- ==== Sys2Proof/Laws/Link.lean ====
section
/-!
SUPPORT. The link's shared operations, said once: what a served request leaves, when a frame is taken,
and what the outcome of an event or of a request on a free link is.
-/

-- One declaration at a time: many waiting threads would pass the memory limit of the check.
set_option Elab.async false
namespace Sys2Proof.Machine

variable {P : Part → Prop}

/-- Every request but RESET and NOTICE_MASK moves the state in the sense of `Moves`. -/
theorem serve_moves (r : Request) (s : State) (hr : ∀ d, r ≠ .reset d) (hm : ∀ m, r ≠ .noticeMask m)
    (h1 : P .clock) (h2 : P .roster) (h3 : P .tracker) (h4 : P .rotation) (h5 : P .sites)
    (h6 : P .survey) (h7 : P .sag) (h8 : P .capture) (h9 : P .harm) (h10 : P .store)
    (h11 : P .print) (h12 : P .supply) (h13 : P .free) : Moves P s (serve r s) := by
  cases r with
  | podRoster => exact podRoster_moves _
  | podStatus => exact podStatus_moves _ _
  | podRetry => exact podRetry_moves _ _
  | podClear => exact podClear_moves _ _
  | trackRef => exact trackRef_moves _ _
  | trackFixed => exact trackFixed_moves _ _
  | trackStatus => exact trackStatus_moves _ _
  | clockSet => exact clockSet_moves _ _ _
  | siteSet => exact siteSet_moves _ _ _
  | siteGet => exact siteGet_moves _ _
  | assign => exact assign_moves _ _ _ _
  | surveyStart => exact surveyStart_moves _
  | surveyHold => exact surveyHold_moves _
  | surveyResume => exact surveyResume_moves _
  | surveyEnd => exact surveyEnd_moves _
  | surveyNew => exact surveyNew_moves _
  | surveyStatus => exact surveyStatus_moves _
  | sagStatus => exact sagStatus_moves _ _
  | captureList => exact captureList_moves _
  | captureRead => exact captureRead_moves _ _ _ _ _ _
  | captureRelease => exact captureRelease_moves _ _ _
  | harmonicStatus => exact harmonicStatus_moves _ _
  | storeStatus => exact storeStatus_moves _
  | storeMode => exact storeMode_moves _ _
  | recordList => exact recordList_moves _ _ _ _
  | recordRead => exact recordRead_moves _ _ _
  | recordDelete => exact recordDelete_moves _ _ _
  | storeWipe => exact storeWipe_moves _
  | noteAdd => exact noteAdd_moves _ _ _ _ _ _
  | noteAmend => exact noteAmend_moves _ _ _ _
  | noteAttach => exact noteAttach_moves _ _ _ _
  | noteDelete => exact noteDelete_moves _ _
  | noteLock => exact noteLock_moves _ _
  | noteList => exact noteList_moves _ _ _
  | printSubmit => exact printSubmit_moves _ _ _
  | printCancel => exact printCancel_moves _ _
  | printResume => exact printResume_moves _
  | printDoneRead => exact printDoneRead_moves _
  | printStatus => exact printStatus_moves _
  | supplySet => exact supplySet_moves _ _ _ _
  | supplyStatus => exact supplyStatus_moves _ _
  | noticeMask m => exact absurd rfl (hm m)
  | reset d => exact absurd rfl (hr d)
  | identify => exact .answer _ _ _

theorem replyKept_link (st : Status) (l : Link) :
    (l.replyKept st).rx = l.rx ∧ (l.replyKept st).queue = l.queue ∧
      (l.notices.length ≤ Config.noticePlaces →
        (l.replyKept st).notices.length ≤ Config.noticePlaces) := by
  unfold Link.replyKept
  split
  · rename_i c _
    have k := startTransmit_kept { l with reply := some ⟨replyKind c.kind, c.tag, st, .empty⟩ }
    exact ⟨k.rx, k.queue, k.bounded⟩
  · exact ⟨rfl, rfl, id⟩

/-- What RESET and NOTICE_MASK do to the link: the receiver, the receive queue and the bound of the
notice queue are kept. -/
theorem linkReset_link (d : Byte) (s : State) :
    (linkReset d s).link.rx = s.link.rx ∧ (linkReset d s).link.queue = s.link.queue ∧
      (s.link.notices.length ≤ Config.noticePlaces →
        (linkReset d s).link.notices.length ≤ Config.noticePlaces) := by
  unfold linkReset
  split
  · have k := linkAnswer_kept .badValue .empty s.link
    exact ⟨k.rx, k.queue, k.bounded⟩
  · exact replyKept_link _ _

theorem noticeMask_link (m : Half) (s : State) :
    (noticeMask m s).link.rx = s.link.rx ∧ (noticeMask m s).link.queue = s.link.queue ∧
      (s.link.notices.length ≤ Config.noticePlaces →
        (noticeMask m s).link.notices.length ≤ Config.noticePlaces) := by
  unfold noticeMask
  split
  · have k := linkAnswer_kept .badValue .empty s.link
    exact ⟨k.rx, k.queue, k.bounded⟩
  · have k := linkAnswer_kept .ok (.mask m) { s.link with mask := m }
    exact ⟨k.rx, k.queue, k.bounded⟩

/-- A served request leaves the receiver and the receive queue, and keeps the notice queue's bound. -/
theorem serve_link (r : Request) (s : State) :
    (serve r s).link.rx = s.link.rx ∧ (serve r s).link.queue = s.link.queue ∧
      (s.link.notices.length ≤ Config.noticePlaces →
        (serve r s).link.notices.length ≤ Config.noticePlaces) := by
  by_cases hr : ∃ d, r = .reset d
  · obtain ⟨d, rfl⟩ := hr
    exact linkReset_link d s
  · by_cases hm : ∃ m, r = .noticeMask m
    · obtain ⟨m, rfl⟩ := hm
      exact noticeMask_link m s
    · have k := (serve_moves (P := fun _ => True) r s (fun d h => hr ⟨d, h⟩) (fun m h => hm ⟨m, h⟩)
        trivial trivial trivial trivial trivial trivial trivial trivial trivial trivial trivial
        trivial trivial).link_kept
      exact ⟨k.rx, k.queue, k.bounded⟩

/-- What each change of the link and each served request keeps, the taking of waiting frames keeps. -/
theorem pumpFrom_keeps (I : State → Prop)
    (hl : ∀ s f rest, s.link.queue = f :: rest → I s → I (takeFrame f
      (setLink (fun l => { l with queue := rest }) s)))
    (fuel : Nat) (s : State) (h : I s) : I (pumpFrom fuel s) := by
  induction fuel generalizing s with
  | zero => exact h
  | succ fuel ih =>
    unfold pumpFrom
    split
    · exact h
    · rename_i f rest hq
      split
      · exact ih _ (hl s f rest hq h)
      · exact h

/-- A frame that is taken is served, or refused by its kind or its length. -/
theorem takeFrame_cases (f : Frame) (s : State) :
    (∃ r, takeFrame f s = serve r (waiting f.kind f.tag s)) ∨
      ∃ st, takeFrame f s = refuse st (waiting f.kind f.tag s) := by
  unfold takeFrame
  dsimp only
  split
  · exact .inr ⟨_, rfl⟩
  · exact .inr ⟨_, rfl⟩
  · exact .inl ⟨_, rfl⟩

/-- With no frame waiting there is nothing to take. -/
theorem pump_of_empty (s : State) (h : s.link.queue = []) : pump s = s := by
  unfold pump Config.receivePlaces pumpFrom
  rw [h]

/-- The outcome of an event on a part that runs, with no frame waiting. -/
theorem event_quiet (f : State → State) (s : State) (h : s.held = false)
    (k : (f s).link.queue = []) : event f s = .next (f s) := by
  simp [event, running, h, pump_of_empty _ k]

/-- An event on a part that the brownout detector holds (R174). -/
theorem event_held (f : State → State) (s : State) (h : s.held = true) : event f s = .next s := by
  simp [event, running, h]

theorem linkFree_of_ready (s : State) (h : Ready s) : linkFree s.link = true := by
  obtain ⟨_, h1, h2, h3⟩ := h
  simp [linkFree, h1, h2, h3]

/-- A request that arrives on a free link is served at once (R177). -/
theorem request_ready (tag : Byte) (r : Request) (s : State) (h : Ready s) :
    running (arrive tag r) s = .next (serve r (waiting (requestCode r) tag s)) := by
  have hf := linkFree_of_ready s h
  obtain ⟨⟨h1, h2⟩, _⟩ := h
  have e : pump (serve r (waiting (requestCode r) tag s)) = serve r (waiting (requestCode r) tag s) :=
    pump_of_empty _ ((serve_link r _).2.1.trans h2)
  have h3 : s.link.queue.isEmpty = true := by rw [h2]; rfl
  have e2 : setLink (fun l => { l with current := some ⟨requestCode r, tag, false⟩ }) s =
      waiting (requestCode r) tag s := rfl
  simp only [running, h1, arrive, hf, h3, Bool.and_self, if_true, e2, e]
  rfl

/-- No frame is taken while the link is not free. -/
theorem pump_busy (s : State) (h : linkFree s.link = false) : pump s = s := by
  unfold pump Config.receivePlaces pumpFrom
  split
  · rfl
  · rw [h]; rfl

/-- A frame that is taken leaves the receive queue. -/
theorem takeFrame_queue (f : Frame) (s : State) : (takeFrame f s).link.queue = s.link.queue := by
  rcases takeFrame_cases f s with ⟨r, h⟩ | ⟨st, h⟩
  · rw [h]; exact (serve_link r _).2.1
  · rw [h]; exact (linkAnswer_kept st .empty _).queue

theorem setQueue_self (s : State) (q : List Frame) (h : s.link.queue = q) :
    setLink (fun l => { l with queue := q }) s = s := by
  subst h; rfl

/-- A good frame that arrives on a free link is taken at once (R177). -/
theorem offerFrame_ready (f : Frame) (s : State) (h : Ready s) : offerFrame f s = takeFrame f s := by
  have hf := linkFree_of_ready s h
  obtain ⟨⟨h1, h2⟩, _⟩ := h
  have e : pumpFrom 1 (takeFrame f s) = takeFrame f s := by
    unfold pumpFrom
    rw [takeFrame_queue, h2]
  unfold offerFrame
  rw [if_pos (by rw [h2]; decide)]
  unfold pump Config.receivePlaces pumpFrom
  simp only [setLink_link, h2, List.nil_append]
  rw [if_pos (by simpa [linkFree] using hf)]
  have e2 : setLink (fun l => { l with queue := [] })
      (setLink (fun l => { l with queue := l.queue ++ [f] }) s) = s :=
    setQueue_self s [] h2
  rw [e2, e]

/-- The reply to the request in progress goes to the reply place. -/
theorem answer_waiting (kind : Nat) (tag : Byte) (st : Status) (b : ReplyBody) (s : State)
    (h : s.link.current = none) :
    answer st b (waiting kind tag s) = replied (replyKind kind) tag st b s := by
  simp only [answer, waiting, Link.answer, replied, h]

theorem startTransmit_current (c : Option Current) (l : Link) :
    { l with current := c }.startTransmit = { l.startTransmit with current := c } := by
  obtain ⟨rx, queue, current, reply, sending, notices, lost, mask, seq, framing, crc, overrun, cause,
    domains, resets, owed⟩ := l
  cases sending with
  | some f => rfl
  | none =>
    simp only [Link.startTransmit, Option.isSome_none, Bool.false_or, Link.noticeResetDue]
    cases owed with
    | none => cases reply <;> cases notices <;> rfl
    | some o =>
      cases h : (o.replySent && o.domains.notice) <;> cases reply <;> cases notices <;> simp [h]

theorem offerNotice_current (c : Option Current) (n : Notice) (l : Link) :
    { l with current := c }.offerNotice n = { l.offerNotice n with current := c } := by
  unfold Link.offerNotice
  dsimp only
  split
  · rfl
  · split
    · exact startTransmit_current c { l with notices := l.notices ++ [n] }
    · rfl

theorem noticeReset_unowed (l : Link) (h : l.owed = none) : l.noticeReset = l := by
  simp [Link.noticeReset, Link.noticeResetDue, h]

/-- Where no RESET is in progress a notice is told to the link in the same way before and after a
request is taken. -/
theorem post_waiting (kind : Nat) (tag : Byte) (b : NoticeBody) (s : State)
    (h : s.link.owed = none) :
    post b (waiting kind tag s) = waiting kind tag (post b s) := by
  unfold post waiting Link.post
  dsimp only
  rw [noticeReset_unowed s.link h,
    noticeReset_unowed { s.link with current := some ⟨kind, tag, false⟩ } h, offerNotice_current]

/-- R137: a link that has just been reset sends the store's notice, and nothing else moves. -/
theorem postMounting_released (old : StoreState) (cause : ResetCause) (s : State) :
    postMounting old { s with link := { cause := cause } } =
      { s with
        link := Link.started cause (mountingNotice old s.free) s.clock.time, free := s.free + 1 } := by
  simp [postMounting, drawFree, post, Link.post, Link.noticeReset, Link.noticeResetDue, Link.offerNotice,
    mountingNotice, NoticeBody.code, Link.startTransmit, Link.started, Config.noticePlaces]

end Sys2Proof.Machine
end

