-- ==== Sys2Proof/Laws/StoreNext.lean ====
section
/-!
SUPPORT. The next array operation (R117, R124, R126): `next_takesNext` says once what the array can take.
-/

-- One declaration at a time: many waiting threads would pass the memory limit of the check.
set_option Elab.async false
namespace Sys2Proof.Machine

theorem updateAt_const {α : Type} (x : α) :
    ∀ (i : Nat) (xs : List α), updateAt (fun _ => x) i xs = xs.set i x
  | _, [] => by cases ‹Nat› <;> rfl
  | 0, _ :: _ => rfl
  | i + 1, _ :: xs => by simp [updateAt, updateAt_const x i xs]

theorem erasedSectors_head (xs : List (Option Nat)) (x : Nat) (h : xs[x]? = some none)
    (k : ∀ y, y < x → xs[y]? ≠ some none) :
    (placesWhere Option.isNone xs).head? = some x := by
  unfold placesWhere
  rw [List.head?_map, List.head?_filter]
  have hx : x < xs.length := by
    by_contra hc; rw [List.getElem?_eq_none (by omega)] at h; cases h
  have : List.find? (fun x => x.1.isNone) xs.zipIdx = some (none, x) := by
    rw [List.find?_eq_some_iff_getElem]
    refine ⟨rfl, x, by simpa using hx, ?_, ?_⟩
    · rw [List.getElem?_eq_getElem hx] at h
      simp at h
      simp [h]
    · intro j hj
      have hk := k j hj
      rw [List.getElem?_eq_getElem (by omega)] at hk
      simp at hk ⊢
      cases hxj : xs[j] <;> simp_all
  simp [this]

theorem erasedSectors_length (st : Store) : (erasedSectors st).length = st.opening.countP (·.isNone) := by
  unfold erasedSectors placesWhere
  rw [List.length_map, ← List.countP_eq_length_filter]
  conv_rhs => rw [← List.zipIdx_map_fst 0 st.opening]
  rw [List.countP_map]
  rfl

/-- R117's place, as `placeFor` gives it. -/
theorem beginsAt_of_placeFor (size spare : Nat) (op : Nat → Nat × Nat → Bool → ArrayOp) (st u t : Store)
    (hseq : u.nextSeq = st.nextSeq) (ho : u.opening = st.opening)
    (hn : placeFor st size spare = none → t = st)
    (hs : ∀ loc opened, placeFor st size spare = some (loc, opened) →
      t = { u.openPlace loc opened with op := some (op st.nextSeq loc opened) }) :
    BeginsAt size spare op st u t := by
  refine ⟨fun h hh hf => ?_, fun hno => ⟨fun x hx h1 h2 => ?_, fun hx => ?_⟩⟩
  · rw [hs (h, st.headUsed) false (by simp [placeFor, hh, hf])]
    simp [Store.openPlace, hseq]
  · have hp : placeFor st size spare = some ((x, 0), true) := by
      have e := erasedSectors_head st.opening x h1 h2
      have l := erasedSectors_length st
      unfold placeFor
      rw [l, if_pos hx]
      unfold erasedSectors
      rw [e]
      cases hh : st.head with
      | none => simp
      | some h => have := hno h hh; simp; omega
    rw [hs _ _ hp]
    simp [Store.openPlace, hseq, ho, updateAt_const]
  · apply hn
    have l := erasedSectors_length st
    unfold placeFor
    rw [l, if_neg (by omega)]
    cases hh : st.head with
    | none => simp
    | some h => have := hno h hh; simp; omega

/-- The header of higher sequence with a step clear. -/
def higherHeader (st : Store) (best : Option (Nat × Nat × Nat)) (e : Entry) : Option (Nat × Nat × Nat) :=
      match e.seq, e.loc with
      | some seq, some loc =>
        if extensionField st loc = 0 then best
        else
          match best with
          | some b => if b.1 < seq then some (seq, loc) else best
          | none => some (seq, loc)
      | _, _ => best

theorem extensionTarget_eq (st : Store) :
    extensionTarget st = (st.dir.foldl (higherHeader st) none).map (·.2) := rfl

/-- An entry's header has the sequence and place `b` and a step clear. -/
def StandsAt (st : Store) (e : Entry) (b : Nat × Nat × Nat) : Prop :=
  e.seq = some b.1 ∧ e.loc = some b.2 ∧ extensionField st b.2 ≠ 0

theorem higherHeader_spec (st : Store) (es : List Entry) : ∀ b,
    match es.foldl (higherHeader st) b with
    | none => b = none ∧ ∀ e ∈ es, ∀ c, ¬StandsAt st e c
    | some r =>
      (b = some r ∨ ∃ e ∈ es, StandsAt st e r) ∧ (∀ c, b = some c → c.1 ≤ r.1) ∧
        ∀ e ∈ es, ∀ c, StandsAt st e c → c.1 ≤ r.1 := by
  induction es with
  | nil => intro b; cases b <;> simp
  | cons e es ih =>
    intro b
    rw [List.foldl_cons]
    have := ih (higherHeader st b e)
    have step :
        (higherHeader st b e = b ∧ ∀ c, StandsAt st e c → ∃ d, b = some d ∧ c.1 ≤ d.1) ∨
        (∃ c, StandsAt st e c ∧ higherHeader st b e = some c ∧ (∀ d, b = some d → d.1 < c.1)) := by
      unfold higherHeader StandsAt
      cases hs : e.seq with
      | none => left; simp
      | some seq =>
        cases hl : e.loc with
        | none => left; simp
        | some loc =>
          by_cases hf : extensionField st loc = 0
          · left; refine ⟨by simp [hf], ?_⟩; rintro c ⟨-, h2, h3⟩; cases h2; exact absurd hf h3
          · cases b with
            | none => right; exact ⟨(seq, loc), by simp [hf]⟩
            | some d =>
              by_cases hd : d.1 < seq
              · right; exact ⟨(seq, loc), by simp [hf, hd]⟩
              · left; refine ⟨by simp [hf, hd], ?_⟩; rintro c ⟨h1, -, -⟩; cases h1; exact ⟨d, rfl, by omega⟩
    cases hr : es.foldl (higherHeader st) (higherHeader st b e) with
    | none =>
      rw [hr] at this
      rcases step with ⟨h1, h2⟩ | ⟨c, h1, h2, h3⟩
      · rw [h1] at this
        refine ⟨this.1, fun x hx c hc => ?_⟩
        rcases List.mem_cons.1 hx with rfl | hx
        · obtain ⟨d, hd, _⟩ := h2 c hc; rw [this.1] at hd; cases hd
        · exact this.2 x hx c hc
      · rw [h2] at this; cases this.1
    | some r =>
      rw [hr] at this
      obtain ⟨a1, a2, a3⟩ := this
      rcases step with ⟨h1, h2⟩ | ⟨c, h1, h2, h3⟩
      · rw [h1] at a1 a2
        refine ⟨?_, a2, fun x hx c hc => ?_⟩
        · rcases a1 with a | ⟨x, hx, hh⟩
          · exact .inl a
          · exact .inr ⟨x, List.mem_cons_of_mem _ hx, hh⟩
        · rcases List.mem_cons.1 hx with rfl | hx
          · obtain ⟨d, hd, hle⟩ := h2 c hc
            exact le_trans hle (a2 d hd)
          · exact a3 x hx c hc
      · rw [h2] at a1 a2
        have hcr := a2 c rfl
        refine ⟨?_, fun d hd => by have := h3 d hd; omega, fun x hx c' hc => ?_⟩
        · rcases a1 with a | ⟨x, hx, hh⟩
          · cases a; exact .inr ⟨e, List.mem_cons_self .., h1⟩
          · exact .inr ⟨x, List.mem_cons_of_mem _ hx, hh⟩
        · rcases List.mem_cons.1 hx with rfl | hx
          · have : c' = c := by
              obtain ⟨p, q, _⟩ := h1; obtain ⟨p', q', _⟩ := hc
              rw [p] at p'; rw [q] at q'; exact (Prod.ext (Option.some.inj p') (Option.some.inj q')).symm
            rw [this]; exact hcr
          · exact a3 x hx c' hc

/-- The discard counts of a kind after a run of entries. -/
theorem discards_get (k : RecordKind) (xs : List Entry) : ∀ d : PerKind,
    (xs.foldl (fun d e => d.modify (satInc max32) e.kind) d).get k =
      (satInc 4294967295)^[xs.countP fun e => e.kind == k] (d.get k) := by
  induction xs with
  | nil => intro d; rfl
  | cons x xs ih =>
    intro d
    rw [List.foldl_cons, ih]
    by_cases h : x.kind = k
    · rw [List.countP_cons_of_pos (by simp [h]), Function.iterate_succ_apply]
      congr 1; subst h; cases x.kind <;> rfl
    · rw [List.countP_cons_of_neg (by simp [h])]
      congr 1; cases hx : x.kind <;> cases k <;> simp_all [PerKind.modify, PerKind.get]

/-- What the array takes next where no operation is in flight. -/
theorem next_takesNext (st : Store) (h : st.op = none) : TakesNext st st.next := by
  unfold TakesNext
  intro up header step
  have hup : storeUp st = true ↔ up := by simp [storeUp, up]
  have spec := higherHeader_spec st st.dir none
  have conv : ∀ c, (∃ e ∈ st.dir, StandsAt st e c) ↔ (header c.2 c.1 ∧ extensionField st c.2 ≠ 0) := by
    intro c; constructor
    · rintro ⟨e, he, a, b, d⟩; exact ⟨⟨e, he, b, a⟩, d⟩
    · rintro ⟨⟨e, he, b, a⟩, d⟩; exact ⟨e, he, a, b, d⟩
  refine ⟨fun hn => ?_, fun loc seq hu ho hh hf hmax => ?_, fun m rest hu hs hm => ?_, fun hu hs hm => ?_⟩
  · have : storeUp st = false := by rw [← Bool.not_eq_true, hup]; exact hn
    simp [Store.next, h, this]
  · have ht : extensionTarget st = some loc := by
      rw [extensionTarget_eq]
      cases hr : st.dir.foldl (higherHeader st) none with
      | none =>
        rw [hr] at spec
        obtain ⟨e, he, hc⟩ := (conv (seq, loc)).2 ⟨hh, hf⟩
        exact absurd hc (spec.2 e he _)
      | some r =>
        rw [hr] at spec
        obtain ⟨a1, -, a3⟩ := spec
        obtain ⟨e, he, hc⟩ := (conv (seq, loc)).2 ⟨hh, hf⟩
        have h1 := a3 e he _ hc
        rcases a1 with a | a
        · cases a
        · obtain ⟨b1, b2⟩ := (conv r).1 a
          by_cases hl : r.2 = loc
          · simp [hl]
          · have := hmax r.2 r.1 b1 b2 hl
            simp at h1; omega
    simp [Store.next, h, hup.2 hu, ho, ht]
  all_goals
    have hx : (if st.extOwed then extensionTarget st else none) = none := by
      split
      · next ho =>
        rw [extensionTarget_eq]
        cases hr : st.dir.foldl (higherHeader st) none with
        | none => rfl
        | some r =>
          rw [hr] at spec
          rcases spec.1 with a | a
          · cases a
          · obtain ⟨b1, b2⟩ := (conv r).1 a
            exact absurd ⟨ho, _, _, b1, b2⟩ hs
      · rfl
  · simp only [Store.next, h, hup.2 hu, hm, hx]; rfl
  · have hnx : st.next = match st.state with
      | .reclaiming => nextReclaim st
      | .ready => beginWrite st
      | _ => st := by
      simp only [Store.next, h, hup.2 hu, hm, hx]; rfl
    refine ⟨fun e => by rw [hnx, e], fun e hq => by rw [hnx, e]; simp [beginWrite, hq],
        fun q rest e hq => ?_, fun r kind id rest e hst hr hc hf => ?_, fun sector hst hr => ?_⟩
    · rw [hnx, e]
      apply beginsAt_of_placeFor _ _ _ _ _ _ rfl rfl
      · intro hp; simp [beginWrite, hq, hp]
      · intro loc opened hp; simp [beginWrite, hq, hp]
    · have hnx : st.next = nextReclaim st := by rw [hnx, hst]
      rw [hnx]
      refine beginsAt_of_placeFor _ _ _ st { st with reclaim := some ⟨r.sector, rest⟩ } _ rfl rfl ?_ ?_
      · intro hp; simp [nextReclaim, hr, hc, hf, hp]
      · intro loc opened hp; simp [nextReclaim, hr, hc, hf, hp]
    · have hnx : st.next = nextReclaim st := by rw [hnx, hst]
      rw [hnx]
      have same : ∀ e : Entry, (e.state == .live && inSector e sector) = decide (e.state = .live ∧
          e.loc.map (·.1) = some sector) := by
        intro e
        rw [Bool.eq_iff_iff]
        unfold inSector
        cases e.loc <;> simp
      have lv : liveIn st sector = st.dir.filter fun e => decide (e.state = .live ∧ e.loc.map (·.1) =
          some sector) := by
        unfold liveIn; apply List.filter_congr; intro e _; exact same e
      simp only [nextReclaim, hr, Store.discard]
      refine ⟨?_, fun k => ?_⟩
      · congr 1
        apply List.map_congr_left
        intro e _
        rw [same]
      · show PerKind.get (List.foldl _ _ _) k = _
        rw [discards_get, lv, List.countP_filter]
        simp only [Bool.and_comm]

end Sys2Proof.Machine
end

