-- ==== Sys2Proof/Laws/Wire.lean ====
section
/-!
SUPPORT. Little-endian fields, mask bits and flag words read back.
-/

-- One declaration at a time: many waiting threads would pass the memory limit of the check.
set_option Elab.async false
namespace Sys2Proof.Machine

@[simp] theorem le_length (n v : Nat) : (le n v).length = n := by
  induction n generalizing v with
  | zero => rfl
  | succ n ih => simp [le, ih]

/-- The bytes of a number that fits them give it back. -/
theorem unle_le (n v : Nat) (h : v < 256 ^ n) : unle (le n v) = v := by
  induction n generalizing v with
  | zero => simp at h; simp [le, unle, h]
  | succ n ih =>
    have hv : v / 256 < 256 ^ n := by
      rw [Nat.div_lt_iff_lt_mul (by decide)]
      rwa [pow_succ] at h
    simp only [le, unle, ih _ hv, BitVec.toNat_ofNat]
    omega

/-- A field that starts a list of bytes. -/
theorem field_le_append (n v : Nat) (p : List Byte) (h : v < 256 ^ n) :
    field (le n v ++ p) 0 n = v := by
  rw [field, List.drop_zero, List.take_append_of_le_length (by simp), List.take_of_length_le (by simp),
    unle_le n v h]

/-- A field after a run of bytes. -/
theorem field_append (q p : List Byte) (n : Nat) : field (q ++ p) q.length n = field p 0 n := by
  simp [field]

theorem flagWord_testBit (bs : List Bool) (k : Nat) :
    (flagWord bs).testBit k = bs.getD k false := by
  induction bs generalizing k with
  | nil => simp [flagWord]
  | cons b bs ih =>
    have e : flagWord (b :: bs) = Nat.bit b (flagWord bs) := by
      cases b <;> simp [flagWord, Nat.bit_val] <;> omega
    cases k with
    | zero => rw [e, Nat.testBit_bit_zero]; rfl
    | succ k => rw [e, Nat.testBit_bit_succ, ih]; rfl

/-- The mask of a SITE_SET as a word of flags. -/
theorem settingsMask_eq (c : CarriedSettings) :
    settingsMask c = flagWord [c.enabled.isSome, c.name.isSome, c.udin.isSome, c.st.isSome,
      c.h.isSome, c.ti.isSome, c.nc.isSome, c.pc.isSome, c.wc.isSome, c.pe.isSome, c.we.isSome,
      c.hmax.isSome, c.interval.isSome, c.rotCheck.isSome] := by
  have e : ∀ (α : Type) (k : Nat) (o : Option α), maskBit k o = 2 ^ k * (if o.isSome then 1 else 0) := by
    intro α k o; unfold maskBit; split <;> simp
  simp only [settingsMask, flagWord, e]
  ring

theorem settingsMask_lt (c : CarriedSettings) : settingsMask c < 2 ^ 16 := by
  have e : ∀ (α : Type) (k : Nat) (o : Option α), maskBit k o ≤ 2 ^ k := by
    intro α k o; unfold maskBit; split <;> simp
  unfold settingsMask
  have h0 := e _ 0 c.enabled
  have h1 := e _ 1 c.name
  have h2 := e _ 2 c.udin
  have h3 := e _ 3 c.st
  have h4 := e _ 4 c.h
  have h5 := e _ 5 c.ti
  have h6 := e _ 6 c.nc
  have h7 := e _ 7 c.pc
  have h8 := e _ 8 c.wc
  have h9 := e _ 9 c.pe
  have h10 := e _ 10 c.we
  have h11 := e _ 11 c.hmax
  have h12 := e _ 12 c.interval
  have h13 := e _ 13 c.rotCheck
  omega

/-- An EVENT record's flags read back from their word (R186). -/
theorem eventFlagsOf_word (f : EventFlags) : eventFlagsOf f.word = f := by
  simp only [eventFlagsOf, EventFlags.word, flagWord_testBit]
  rfl

/-- An INTERVAL record's flags read back from their word (R186). -/
theorem intervalFlagsOf_word (f : IntervalFlags) : intervalFlagsOf f.word = f := by
  simp only [intervalFlagsOf, IntervalFlags.word, flagWord_testBit]
  rfl

end Sys2Proof.Machine
end

