-- ==== Sys2Proof/Tests/Slice0.lean ====
section
/-!
SUPPORT. The package's own tests: what WellFormed refuses, the worked figures of spec/, one step of a
few commands, and for each statement with hypotheses a state and operands that meet them.
-/

-- One declaration at a time: many waiting threads would pass the memory limit of the check.
set_option Elab.async false
open Sys2Proof Sys2Proof.Machine

/-! ### WellFormed refuses an ill-formed command of each kind -/

theorem test_wf_frame_end_words :
    (Instr.frameEnd []).wellFormed = false ∧ (Instr.frameEnd (List.replicate 16 0)).wellFormed = false ∧
      (Instr.frameEnd (List.replicate 15 0)).wellFormed = true := by decide

theorem test_wf_slots :
    (Instr.podLost 0).wellFormed = false ∧ (Instr.podLost 16).wellFormed = false ∧
      (Instr.podStuck 0).wellFormed = false ∧ (Instr.podStuck 16).wellFormed = false ∧
      (Instr.podStuck 15).wellFormed = true := by decide

theorem test_wf_sites_roles_and_captures :
    (Instr.windowComplete 4 0).wellFormed = false ∧ (Instr.windowComplete 0 8).wellFormed = false ∧
      (Instr.captureComplete 12).wellFormed = false ∧ (Instr.intervalBoundary 4).wellFormed = false ∧
      (Instr.windowComplete 3 7).wellFormed = true := by decide

theorem test_wf_unknown_kind :
    (Instr.unknownKind 0x2C 0).wellFormed = false ∧ (Instr.unknownKind 1 0).wellFormed = false ∧
      (Instr.unknownKind 0x2D 0).wellFormed = true := by decide

theorem test_wf_payload_lengths :
    (Instr.siteSet 0 0 { name := some (List.replicate 256 0x41) }).wellFormed = false ∧
      (Instr.noteAdd 0 0 0 0 ⟨0x41, 0, 0⟩ (List.replicate 990 0x41)).wellFormed = false ∧
      (Instr.noteAmend 0 1 ⟨0x41, 0, 0⟩ (List.replicate 992 0x41)).wellFormed = false := by decide +kernel

theorem test_wf_print_sections :
    (Instr.printSubmit 0 1 [.text (List.replicate 256 0x41)]).wellFormed = false ∧
      (Instr.printSubmit 0 1 [.intervalTable 1 (List.replicate 251 1)]).wellFormed = false ∧
      (Instr.printSubmit 0 1 [.unknown 7 []]).wellFormed = false ∧
      (Instr.printSubmit 0 1 (List.replicate 256 (.feed 1))).wellFormed = false ∧
      (Instr.printSubmit 0 1 (List.replicate 4 (.text (List.replicate 248 0x41)))).wellFormed = false := by
  decide +kernel

/-! ### The table gives its rows no bits -/

theorem test_no_word_spells_a_command :
    decodeTableWord 0 0 = none ∧ decodeTableWord 8 0x2C = none := by decide

/-! ### Worked figures -/

/-- Section 2.1: gain 65,812 and offset -37. -/
theorem test_correction_figures :
    correct 65812 (-37) 12000 = 12088 ∧ correct 65812 (-37) (-12000) = -12013 ∧
      correct 65812 (-37) 32767 = 32767 ∧ correct 65812 (-37) 32700 = 32767 := by decide

/-- R25 and section 2.7: K at 50 Hz, at 60 Hz and at 49,988 mHz. -/
theorem test_increments :
    incrementOf 50000 = 1677722 ∧ incrementOf 60000 = 2013266 ∧ incrementOf 49988 = 1677319 := by decide

/-- Section 2.7: a period of 32,832 in LOCKED takes f from 50,000 to 49,988. -/
theorem test_frequency_update : smoothed 50000 32832 8 = 49988 := by decide

/-- Section 4.2: rms 6,030 of sumsq / 128, and the root that gives no credit for the surplus. -/
theorem test_rms_figure :
    isqrt (4654195200 / 128) = 6030 ∧ isqrt (4654195327 / 128) = 6030 := by decide +kernel

/-- Section 6.3: M_1 and M_5 at FS 650, and the THD of M_1 and M_5. -/
theorem test_window_figures :
    magnitude 274869518336 0 650 = 22981 ∧ magnitude 13740120576 0 650 = 1149 ∧
      thdOf .voltage 230 650 [22981, 0, 0, 0, 1149] = some 50 := by decide +kernel

/-- R178 and the CRC of the link: CRC-16/CCITT-FALSE of the digits 1 to 9 is 0x29B1. -/
theorem test_crc_check_value :
    crc16 [0x31, 0x32, 0x33, 0x34, 0x35, 0x36, 0x37, 0x38, 0x39] = 0x29B1 := by
  decide +kernel

/-! ### States for the witnesses -/

/-- After reset, with the store READY and its first notice sent: a free link. -/
def tReady : State :=
  { State.reset with store := { State.reset.store with state := .ready }, link := {} }

/-- A reply under way in the transmitter. -/
def tSending (s : State) : State :=
  { s with link := { s.link with sending := some (.reply ⟨0x81, 0, .ok, .empty⟩) } }

/-- A RESET whose reply has left and whose domains are owed. -/
def tOwes (d : Domains) (s : State) : State :=
  { s with link := { s.link with owed := some ⟨d, true⟩, current := some ⟨0x2B, 0, false⟩ } }

/-- A request in progress. -/
def tBusy (kind : Nat) (s : State) : State :=
  { s with link := { s.link with current := some ⟨kind, 7, false⟩ } }

def tIdentity (kind : PodKind) : Identity :=
  { serial := 77, kind := kind, model := 1, fullScale := 650, gain := 65536, offset := 0
    calDate := 100, calInterval := 365, maker := 0x1E7A }

/-- A roster with an entry of the given state in slot 1 and one in slot 15, both with an identity. -/
def tPods (x : SlotState) (kind : PodKind) (s : State) : State :=
  let e : RosterEntry := { state := x, identity := some (tIdentity kind) }
  { s with roster := [e] ++ List.replicate 13 {} ++ [e] }

def tJoin (j : JoinStage) (s : State) : State :=
  { s with bus := { s.bus with join := some ⟨15, 1, j⟩ } }

/-- Frame 64 in progress with slots 1 and 15 in the mask. -/
def tFrame (s : State) : State :=
  { s with bus := { s.bus with frame := 64, begun := true, inFrame := true, mask := [1, 15] } }

def tSites (e : Site) (s : State) : State := { s with sites := e :: List.replicate 3 {} }

/-- Site 0 enabled, with slot 1 in its L1 position. -/
def tSite : Site :=
  { settings := { enabled := true }
    members := some ⟨1, 77, true⟩ :: List.replicate 7 none }

def tSurvey (x : SurveyState) (s : State) : State :=
  { s with survey := { s.survey with state := some x, number := 1 } }

def tChange (c : Change) (s : State) : State :=
  { s with survey := { s.survey with change := some c } }

def tLevel (l : Level) (s : State) : State := { s with supply := { s.supply with level := l } }

def tStore (x : StoreState) (s : State) : State := { s with store := { s.store with state := x } }

def tTrack (f : Tracker → Tracker) (s : State) : State := { s with tracker := f s.tracker }

/-! ### A state and operands that meet the hypotheses of each statement -/

theorem test_meets_HeldPartDoesNothing :
    ({ tReady with held := true } : State).held = true ∧ actsWhileHeld .brownout = false ∧
      actsWhileHeld .frameStart = false ∧ actsWhileHeld (.identify 0) = false := by decide

theorem test_meets_RequestPayloadsRoundTrip :
    (Request.identify).wellFormed = true ∧
      (Request.noteAdd 0xFF 0 0 ⟨0x41, 0, 0⟩ (List.replicate 989 0x41)).wellFormed = true := by
  decide +kernel

theorem test_meets_FrameBytesAreTheRequest :
    (Request.podStatus 15).wellFormed = true ∧ Quiet tReady ∧ tReady.link.rx = .hunt := by decide

theorem test_meets_StepKeepsCanonicalStore :
    CanonicalStore State.reset ∧ ∃ t, step { State.reset with pending := [.clockTick] } = .next t :=
  ⟨by unfold CanonicalStore; decide, _, rfl⟩

theorem test_meets_StepKeepsFrequencySound :
    FrequencySound State.reset ∧ ∃ t, step { State.reset with pending := [.clockTick] } = .next t :=
  ⟨by unfold FrequencySound FreqOk; decide, _, rfl⟩

theorem test_meets_StepKeepsTableSizes :
    Shaped State.reset ∧ RotationSound State.reset ∧
      ∃ t, step { State.reset with pending := [.clockTick] } = .next t :=
  ⟨by unfold Shaped; decide, by unfold RotationSound; decide, _, rfl⟩

/-- Site 0 with its rotation check running on slots 1 to 3, in NORMAL. -/
def tTurning : State :=
  let site : Site :=
    { settings := { rotCheck := true }
      members := [some ⟨1, 77, true⟩, some ⟨2, 78, true⟩, some ⟨3, 79, true⟩] ++
        List.replicate 5 none }
  let s := tSending (tPods .ready .voltage (tSites site tReady))
  { s with
    receive := { dropouts := 8 } :: List.replicate 14 {}
    rotation := { running := some (1, 2, 3), state := .normal, normalRun := 4 } ::
      List.replicate 3 {} }

/-- R38: a pod that leaves stops the check, with its notice. -/
theorem test_rotation_stops_as_a_pod_leaves :
    RotationSound tTurning ∧ ∃ t, exec (.podLost 1) tTurning = .next t ∧
      t.rotation = List.replicate 4 {} ∧
      t.link.notices.map (·.body) = [.podLeave 1 77 .lost, .rotation 0 .unknown .normal] :=
  ⟨by unfold RotationSound; decide, _, rfl, by decide, by decide⟩

theorem test_meets_StepKeepsLinkBounded :
    LinkBounded State.reset ∧ ∃ t, step { State.reset with pending := [.clockTick] } = .next t :=
  ⟨by unfold LinkBounded; decide, _, rfl⟩

theorem test_meets_LinkRequestsAnswer :
    Ready tReady ∧ (0x3FFF : Half).toNat ≤ 0x3FFF ∧ 0x3FFF < (0x4000 : Half).toNat ∧
      1 ≤ (1 : Byte).toNat ∧ (7 : Byte).toNat ≤ 7 ∧ 8 ≤ (8 : Byte).toNat := by decide

theorem test_meets_FramesAreQueuedDroppedOrUnknown :
    (let s := tBusy 1 tReady
    let waits := fun (n : Nat) =>
      ({ s with link := { s.link with queue := List.replicate n ⟨1, 0, []⟩ } } : State)
    s.held = false ∧ s.link.current.isSome = true ∧ (waits 1).link.queue.length < 2 ∧
      (waits 2).link.queue.length = 2) ∧
    Ready tReady ∧ (0 : Byte).toNat = 0 ∧ 0x2C < (0x2D : Byte).toNat ∧ tReady.link.rx = .hunt ∧
    payloadSuits 0x01 [0] = false ∧ payloadSuits 0x2C [] = true ∧
    payloadSuits 0x09 [0, 2, 0, 3, 65, 66, 67] = true ∧
    payloadSuits 0x09 [0, 2, 0, 3, 65, 66] = false ∧
    payloadSuits 0x23 [1, 1, 2, 2, 9, 0] = true ∧ payloadSuits 0x23 [1, 1, 2, 1, 9] = false ∧
    payloadSuits 0x28 [5, 0xB0, 4, 1] = true ∧ payloadSuits 0x15 [3, 0] = false := by decide

theorem test_meets_ReceiverFollowsItsStates :
    (let rx := fun (r : Receiver) => ({ tReady with link := { tReady.link with rx := r } } : State)
    Quiet (rx .hunt) ∧ ([0, 0] : List Byte).length < 3 ∧
      Quiet (rx (.header [0, 0])) ∧ Quiet (rx (.header [0xE8, 0x03, 1])) ∧
      1000 < (0xE9 : Byte).toNat + 256 * (0x03 : Byte).toNat ∧
      ([0] : List Byte).length + 1 < 1 + 2 ∧ ([0, 0] : List Byte).length + 1 = 1 + 2 ∧
      crc16 (le 2 1 ++ le 1 1 ++ le 1 0 ++ ([0, 0] : List Byte).take 1) ≠
        field (([0, 0] : List Byte) ++ [0]) 1 2 ∧
      (rx (.header [])).link.rx ≠ .hunt) := by decide +kernel

theorem test_meets_TransmitterTakesTheNextFrame :
    (let s := tSending tReady
    let r : Reply := ⟨0x82, 1, .ok, .empty⟩
    let n : Notice := ⟨.jobDone ⟨1, false, {}⟩, ⟨0, 0⟩⟩
    Quiet s ∧ s.link.sending.isSome = true ∧ s.link.owed = none ∧
      s.link.reply = none ∧ s.link.notices = [] ∧
      ({ s.link with reply := some r } : Link).reply = some r ∧
      ({ s.link with notices := [n] } : Link).notices = n :: []) ∧
    (let w : Reply := ⟨0x82, 1, .ok, .empty⟩
    let waits := fun (kind : Nat) (payload : List Byte) =>
      let s := tSending tReady
      ({ s with link := { s.link with
        reply := some w, queue := [⟨kind, 9, payload⟩, ⟨1, 8, []⟩] } } : State)
    let s := waits 0x02 (encodeRequest (.podStatus 3))
    s.held = false ∧ s.link.sending.isSome = true ∧ s.link.reply = some w ∧
      s.link.current = none ∧ s.link.owed = none ∧ 0x2C < 0x2D ∧
      payloadSuits 0x02 [1, 2] = false ∧ (Request.podStatus 3).wellFormed = true ∧
      0x02 = requestCode (.podStatus 3) ∧ LinkBounded s) := by unfold LinkBounded; decide

/-- A RESET of every domain whose reply waits, is being sent, and has left. -/
theorem test_meets_TransmitterTakesTheNextFrame_reset :
    let w : Reply := ⟨0xAB, 0, .ok, .empty⟩
    let s := fun (d : Domains) (sent : Bool) (reply : Option Reply) =>
      let u := tSending tReady
      ({ u with link := { u.link with
        reply := reply, owed := some ⟨d, sent⟩, current := some ⟨0x2B, 0, false⟩
        notices := [⟨.jobDone ⟨1, false, {}⟩, ⟨0, 0⟩⟩] } } : State)
    let all : Domains := ⟨true, true, true⟩
    let after := fun (s : State) =>
      match exec .transmitDone s with
      | .next t => (t.link.sending.isSome, t.link.owed, t.link.notices.length)
      | _ => (true, none, 9)
    (s all false (some w)).held = false ∧ (s all false (some w)).link.sending.isSome = true ∧
      after (s all false (some w)) = (true, some ⟨all, false⟩, 1) ∧
      (∃ w, (s all false none).link.sending = some (.reply w)) ∧
      after (s all false none) = (false, some ⟨all, true⟩, 1) ∧
      after (s ⟨true, true, false⟩ false none) = (true, some ⟨⟨true, true, false⟩, true⟩, 0) ∧
      after (s ⟨true, true, false⟩ true none) = (true, some ⟨⟨true, true, false⟩, true⟩, 0) :=
  ⟨rfl, rfl, by decide, ⟨_, rfl⟩, by decide, by decide, by decide⟩

theorem test_meets_NoticeAndPrintResetsAreTaken :
    Quiet (tOwes ⟨true, true, true⟩ tReady) ∧ Quiet (tOwes ⟨true, true, false⟩ tReady) ∧
    (tOwes ⟨true, true, true⟩ tReady).link.owed = some ⟨⟨true, true, true⟩, true⟩ ∧
    (tOwes ⟨false, true, false⟩ tReady).link.owed = some ⟨⟨false, true, false⟩, true⟩ ∧
    tReady.print.lineBusy = false ∧
    ({ tReady.print with lineBusy := true } : Print).lineBusy = true ∧
    (let e : Entry :=
      { kind := .event, id := 1, seq := some 2, loc := some (0, 1), size := 1, state := .live
        pins := 1 }
    findEntry { tReady.store with dir := [e] } .event 1 = some e ∧ tReady.store.state = .ready) := by
  decide

theorem test_meets_PostedNoticeIsHandled :
    (let s := tSending tReady
    let b : NoticeBody := .podLeave 1 77 .lost
    let many := List.replicate 32 (⟨b, ⟨0, 0⟩⟩ : Notice)
    s.link.owed = none ∧ s.link.sending.isSome = true ∧ (0 : Half).getLsbD b.code = false ∧
      s.link.mask.getLsbD b.code = true ∧ (many.take 31).length < 32 ∧ 32 ≤ many.length) := by decide

theorem test_meets_PodRequestsAnswer :
    Ready tReady ∧ (0 : Byte).toNat < 1 ∧ 15 < (16 : Byte).toNat ∧
      Ready (tPods .joining .voltage tReady) ∧
      (entryOf (tPods .joining .voltage tReady) 1).state = .joining ∧
      (entryOf (tPods .joining .voltage tReady) 15).state = .joining ∧
      Ready (tPods .fault .voltage tReady) ∧
      (entryOf (tPods .fault .voltage tReady) 1).state ≠ .joining ∧
      (entryOf (tPods .fault .voltage tReady) 15).state = .fault := by decide

theorem test_meets_FrameStartBegins :
    (Quiet tReady ∧ Settled tReady ∧ tReady.bus.begun = false ∧ tReady.bus.join = none ∧
      tReady.tracker.kMoved = false ∧ 0 < tReady.tracker.k ∧ tReady.tracker.nco < tReady.tracker.k ∧
      tReady.tracker.k < 2 ^ 32 ∧ tReady.tracker.boundaryK = none) ∧
    (let s := tTrack (fun t => { t with boundaryK := some 1677319, nco := 1677318 }) tReady
    Settled s ∧ s.tracker.boundaryK = some 1677319 ∧ 0 < 1677319 ∧ s.tracker.nco < 1677319 ∧
      1677319 < 2 ^ 32 ∧ s.tracker.k = 1677722) ∧
    (let s := tPods .ready .voltage tReady
    Quiet s ∧ Settled s ∧
      ({ s.bus with frame := 2 ^ 48 - 1, begun := true } : Bus).frame + 1 = 2 ^ 48) ∧
    (let s := tJoin .readNext tReady
    Settled s ∧ s.bus.join = some ⟨15, 1, .readNext⟩) ∧
    (let s := tJoin (.words []) tReady
    Settled s ∧ s.bus.join = some ⟨15, 1, .words []⟩) ∧
    (let s := tJoin (.onNext (tIdentity .voltage)) tReady
    Settled s ∧ s.bus.join = some ⟨15, 1, .onNext (tIdentity .voltage)⟩) ∧
    (let s := tJoin (.offNext .idCheck none) tReady
    Settled s ∧ s.bus.join = some ⟨15, 1, .offNext .idCheck none⟩) := by decide +kernel

theorem test_meets_JoinTakesEffectAtTheFrame :
    let s := tJoin (.onSent (tIdentity .voltage)) (tPods .joining .voltage tReady)
    let member := fun (serial : Nat) =>
      tSites { members := some ⟨15, serial, false⟩ :: List.replicate 7 none } s
    Quiet s ∧ Settled s ∧ Shaped s ∧ s.bus.join = some ⟨15, 1, .onSent (tIdentity .voltage)⟩ ∧
      positionOf s 15 = none ∧ positionOf (member 77) 15 = some (0, 0) ∧
      memberOf (member 77) 0 0 = some ⟨15, 77, false⟩ ∧
      (tIdentity .voltage).kind = roleKind 0 ∧ positionOf (member 78) 15 = some (0, 0) ∧
      memberOf (member 78) 0 0 = some ⟨15, 78, false⟩ ∧ (tSending s).link.sending.isSome = true ∧
      (tSending s).link.mask.getLsbD 0 = true ∧ (tSending s).link.notices.length < 31 := by
  unfold Shaped; decide +kernel

/-- The control word of a join that completes goes to the next ABSENT slot; a mismatched one empties the
position, and a matched one keeps what it holds. -/
theorem test_meets_JoinTakesEffectAtTheFrame_position :
    let s := tJoin (.onSent (tIdentity .voltage)) (tPods .joining .voltage tReady)
    let member := fun (serial : Nat) =>
      let u := tSites { members := some ⟨15, serial, false⟩ :: List.replicate 7 none } s
      let c : Channel := { window := List.replicate 2 ⟨9, false, false⟩ }
      let h : HarmMember :=
        { acc := some (newAccumulator ⟨15, serial, true⟩ 40 ⟨0, 0⟩ 0 false)
          latest := some ⟨0, [], none, 50000, false, false, false⟩ }
      ({ u with
        sag := { u.sag with sites := { channels := [c, {}, {}] } :: List.replicate 3 {} }
        harm := { u.harm with
          sites := { members := h :: List.replicate 7 {} } :: List.replicate 3 {} } } : State)
    let after := fun (s : State) =>
      match exec .frameStart s with
      | .next t => ((channelOf t 0 0).window.length, (harmMember t 0 0).acc.isSome,
          (harmMember t 0 0).latest.isSome, t.bus.ctrl)
      | _ => (9, true, true, {})
    Quiet (member 78) ∧ Settled (member 78) ∧ Shaped (member 78) ∧ Settled (member 77) ∧
      (harmMember (member 77) 0 0).lossDue = false ∧
      after (member 78) = (0, false, false, ⟨2, .probe⟩) ∧
      after (member 77) = (2, true, true, ⟨2, .probe⟩) := by
  unfold Shaped; decide +kernel

theorem test_meets_FrameEndTakesTheWords :
    let s := tFrame (tPods .ready .voltage tReady)
    Quiet s ∧ Shaped s ∧ s.bus.inFrame = true ∧ boundaryWork s = s ∧ s.bus.mask.Nodup ∧
      (∀ slot ∈ s.bus.mask, 1 ≤ slot ∧ slot ≤ 15) ∧ s.bus.join = none ∧
      s.bus.prevCtrl.op ≠ .probe ∧ 2 ∉ s.bus.mask ∧
      goodWord 64 0x000040 = true ∧ goodWord 64 0 = false ∧
      (upField 0x7FFF40 : BitVec 16).toInt = 32767 ∧ upOvr 0x000080 = true := by
  unfold Shaped; decide +kernel

/-- The frame after a PROBE of slot 2, ABSENT and outside the mask. -/
def tProbed (j : Option Join) (s : State) : State :=
  { s with bus := { s.bus with prevCtrl := ⟨2, .probe⟩, join := j } }

theorem test_meets_FrameEndTakesTheWords_probe :
    let s := tFrame (tPods .ready .voltage tReady)
    let p := tProbed none s
    let q := tProbed (some ⟨3, 1, .readSent⟩) s
    Quiet p ∧ Shaped p ∧ p.bus.inFrame = true ∧ boundaryWork p = p ∧ p.bus.prevCtrl.op = .probe ∧
      p.bus.prevCtrl.target = 2 ∧ 2 ∉ p.bus.mask ∧ (entryOf p 2).state = .absent ∧
      p.bus.join = none ∧ Quiet q ∧ Shaped q ∧ boundaryWork q = q ∧
      q.bus.join = some ⟨3, 1, .readSent⟩ := by
  unfold Shaped; decide +kernel

/-- A join and a PROBE in a frame whose mask has slots 1 and 15: a good word of slot 1, none of slot 15. -/
theorem test_meets_FrameEndTakesTheWords_join :
    let q := tProbed (some ⟨3, 1, .readSent⟩) (tFrame (tPods .ready .voltage tReady))
    Quiet q ∧ Shaped q ∧ q.bus.inFrame = true ∧ boundaryWork q = q ∧ q.bus.mask.Nodup ∧
      1 ∈ q.bus.mask ∧ 15 ∈ q.bus.mask ∧ 2 ∉ q.bus.mask ∧ q.bus.prevCtrl.op = .probe ∧
      q.bus.join.isSome = true ∧ goodWord 64 0x7FFFC0 = true ∧
      (match exec (.frameEnd [0x7FFFC0]) q with
      | .next t =>
        ((receiveOf t 1).lastGood, (entryOf t 1).overrangeSeen, (entryOf t 15).dropoutCount,
          t.bus.join.map (·.slot))
      | _ => (none, false, 0, none)) = (some 32767, true, 1, some 3) := by
  unfold Shaped; decide +kernel

theorem test_meets_FrameEndDeliversTheSamples :
    let s := tSurvey .recording (tSites tSite (tFrame (tPods .ready .voltage tReady)))
    Quiet s ∧ Shaped s ∧ s.bus.inFrame = true ∧ boundaryWork s = s ∧ s.bus.mask.Nodup ∧
      (∀ slot ∈ s.bus.mask, 1 ≤ slot ∧ slot ≤ 15) ∧
      memberOf s 0 0 = some ⟨1, 77, true⟩ ∧ 1 ∈ s.bus.mask ∧ recording s = true ∧
      (siteOf s 0).settings.enabled = true ∧ (newWindow 0 40).taken < 1024 ∧
      (harmMember s 0 0).window = none ∧ 64 % 1024 ≠ 0 := by
  unfold Shaped; decide +kernel

/-- Frame 1,024 opens the window of an active position, and feeds nothing to one with no member or with an
inactive one. -/
theorem test_meets_FrameEndDeliversTheSamples_opening :
    let s := fun (active : Bool) =>
      let u := tSurvey .recording (tSites
        { tSite with members := some ⟨1, 77, active⟩ :: List.replicate 7 none }
        (tFrame (tPods .ready .voltage tReady)))
      ({ u with bus := { u.bus with frame := 1024 } } : State)
    let after := fun (s : State) =>
      match exec (.frameEnd [0x018040]) s with
      | .next t =>
        ((harmMember t 0 0).window.map fun w => (w.first, w.taken, w.re.take 2, w.im.take 1),
          (((t.capture.rings.getD 0 {}).frames.headD []).take 2).map fun x => (x.value, x.gap))
      | _ => (none, [])
    Quiet (s true) ∧ Shaped (s true) ∧ (s true).bus.inFrame = true ∧ boundaryWork (s true) = s true ∧
      (s true).bus.mask.Nodup ∧ memberOf (s true) 0 0 = some ⟨1, 77, true⟩ ∧ 1 ∈ (s true).bus.mask ∧
      (harmMember (s true) 0 0).window = none ∧ 1024 % 1024 = 0 ∧ recording (s true) = true ∧
      (siteOf (s true) 0).settings.enabled = true ∧
      after (s true) =
        (some (1024, 1, [384 * 32767, 384 * 32767], [0]), [(384, false), (0, true)]) ∧
      boundaryWork (s false) = s false ∧ (∀ m, memberOf (s false) 0 0 = some m → m.active = false) ∧
      memberOf (s false) 0 1 = none ∧ after (s false) = (none, [(0, true), (0, true)]) := by
  refine ⟨by decide, by unfold Shaped; decide, by decide, by decide +kernel, by decide, by decide,
    by decide, by decide, by decide, by decide, by decide, by decide +kernel, by decide +kernel,
    ?_, by decide, by decide +kernel⟩
  intro m h
  cases h
  rfl

/-- Frame 192 with slots 1, 2 and 15 READY, L1, L2 and L3 of site 0, whose rotation check runs; slot 1 is the
reference in use, and the captures of site 0 fill. Each detector is ARMED after a sample of -384. -/
def tFilling (s : State) : State :=
  let e : RosterEntry := { state := .ready, identity := some (tIdentity .voltage) }
  let site : Site :=
    { settings := { enabled := true }
      members := [some ⟨1, 77, true⟩, some ⟨2, 77, true⟩, some ⟨15, 77, true⟩] ++
        List.replicate 5 none }
  let d : Detector := { state := .armed, prev := some (191, -384) }
  let s := tSending (tSurvey .recording (tSites site (tFrame s)))
  { s with
    roster := [e, e] ++ List.replicate 12 {} ++ [e]
    bus := { s.bus with frame := 192, mask := [1, 2, 15] }
    tracker := { s.tracker with inUse := some 1, wanted := some 1, det := d, lastCross := some 16384 }
    rotation := { running := some (1, 2, 15), det1 := d, det2 := d, det3 := d } :: List.replicate 3 {} }

theorem test_meets_GoodWordsAreChecked :
    goodWord 0 0x000040 = true ∧ goodWord 3 0x000070 = true := by decide

/-- An identity record that passes both checks, with its CRC in its last two bytes. -/
def tRecord : List Byte :=
  let b := le 4 77 ++ le 1 0 ++ le 1 1 ++ le 2 650 ++ le 4 65536 ++ le 2 0 ++ le 2 100 ++ le 2 365 ++
    le 2 0x1E7A ++ le 2 0
  b ++ le 2 (crc16 b)

theorem test_meets_JoinFollowsTheIdentityWords :
    (tJoin .readSent tReady).bus.join = some ⟨15, 1, .readSent⟩ ∧
      goodWord 0 0x000040 = true ∧ goodWord 0 0x000050 = false ∧ (0x000050 : BusWord).getLsbD 6 = true ∧
      goodWord 0 0 = false ∧ (0 : BusWord).getLsbD 6 = false ∧
      (List.replicate 20 (0 : Byte) ++ [0, 0]).length < 24 ∧
      24 ≤ tRecord.length ∧ crc16 (tRecord.take 22) = field tRecord 22 2 ∧
      crc16 ((List.replicate 24 (0 : Byte)).take 22) ≠ field (List.replicate 24 0) 22 2 ∧
      (tJoin (.offSent .idCheck none) tReady).bus.join = some ⟨15, 1, .offSent .idCheck none⟩ := by
  decide +kernel

/-- A FRAME_END with a join of slot 3 in progress, before its first word and after SAMPLE_OFF. -/
theorem test_meets_JoinFollowsTheIdentityWords_frame_end :
    let f := tFrame (tPods .ready .voltage (tSending tReady))
    let s := fun (stage : JoinStage) =>
      ({ f with bus := { f.bus with join := some ⟨3, 1, stage⟩ } } : State)
    Quiet (s .readSent) ∧ Shaped (s .readSent) ∧ (s .readSent).bus.inFrame = true ∧
      (s .readSent).bus.frame = 64 ∧ boundaryWork (s .readSent) = s .readSent ∧
      (s .readSent).bus.mask.Nodup ∧ (∀ i ∈ (s .readSent).bus.mask, 1 ≤ i ∧ i ≤ 15) ∧
      3 ∉ (s .readSent).bus.mask ∧ (s .readSent).bus.join = some ⟨3, 1, .readSent⟩ ∧
      boundaryWork (s (.offSent .idCheck none)) = s (.offSent .idCheck none) ∧
      f.link.owed = none ∧ f.link.sending.isSome = true ∧ f.link.mask.getLsbD 2 = true ∧
      f.link.notices.length < 32 := by
  unfold Shaped; decide +kernel

theorem test_meets_IdentityRangesAreChecked :
    field tRecord 4 1 = 0 ∧ field tRecord 6 2 = 650 ∧ field tRecord 8 4 = 65536 ∧
      field tRecord 12 2 = 0 ∧ ((65535 : Nat) : Int) - 65536 = -1 ∧ ¬65535 < 32768 ∧
      ((63488 : Nat) : Int) - 65536 = -2048 ∧ (2047 : Int) ≤ 2047 ∧ ¬(2048 : Int) ≤ 2047 := by
  decide +kernel

/-- R10 and R185: an offset of -2,048 is carried as 0xF800 and accepted; -2,049 and 2,048 are not. -/
theorem test_identity_offset_is_signed :
    let b := fun (offset : Nat) => tRecord.take 12 ++ le 2 offset ++ tRecord.drop 14
    (identityOf (b 0xF800)).map (·.offset) = some (-2048) ∧ identityOf (b 0xF7FF) = none ∧
      (identityOf (b 2047)).map (·.offset) = some 2047 ∧ identityOf (b 2048) = none := by
  decide +kernel

theorem test_meets_PodsLeaveService :
    let s := tSites tSite (tPods .ready .voltage tReady)
    let count := fun (r : Receive) =>
      ({ s with receive := [r] ++ List.replicate 13 {} ++ [r] } : State)
    Quiet s ∧ Shaped s ∧ s.link.owed = none ∧ (entryOf s 1).state = .ready ∧
      (entryOf s 15).state = .ready ∧ positionOf s 1 = some (0, 0) ∧ positionOf s 15 = none ∧
      8 ≤ (receiveOf (count { dropouts := 8 }) 1).dropouts ∧
      (receiveOf (count { dropouts := 7 }) 15).dropouts < 8 ∧
      1024 ≤ (receiveOf (count { run := 1024 }) 15).run ∧
      (receiveOf (count { run := 1023 }) 1).run < 1024 ∧ memberOf s 0 0 = some ⟨1, 77, true⟩ ∧
      (tSending s).link.sending.isSome = true ∧ (tSending s).link.mask.getLsbD 1 = true ∧
      (tSending s).link.mask.getLsbD 2 = true ∧ (tSending s).link.notices.length < 32 := by
  unfold Shaped; decide +kernel

theorem test_meets_CorrectionRoundsAndClamps :
    (let p : Int := (12000 - (-37)) * (65812 : Nat)
    0 ≤ p ∧ 65536 * (2 * 12088 - 1) ≤ 2 * p ∧ 2 * p < 65536 * (2 * 12088 + 1)) ∧
    (let p : Int := (-12000 - (-37)) * (65812 : Nat)
    p < 0 ∧ 65536 * (2 * (-12013) - 1) < 2 * p ∧ 2 * p ≤ 65536 * (2 * (-12013) + 1)) ∧
    65536 * 65535 ≤ 2 * ((32767 - (-37)) * (65812 : Int)) ∧
    2 * ((-32768 - 37) * (65812 : Int)) ≤ -(65536 * 65537) ∧
    (let e : RosterEntry := { identity := some (tIdentity .voltage) }
    e.identity = some (tIdentity .voltage) ∧ goodWord 0 0x7FFFC0 = true ∧
      ((0x7FFFC0 : BusWord).extractLsb' 8 16).toInt = 32767 ∧ goodWord 0 0 = false ∧
      ({ lastGood := some 32767 } : Receive).lastGood = some 32767 ∧
      ({} : Receive).lastGood = none) := by decide +kernel

theorem test_meets_TrackRequestsAnswer :
    Ready tReady ∧ 15 < (16 : Byte).toNat ∧ (0 : Byte).toNat = 0 ∧
      (entryOf (tPods .joining .voltage tReady) 15).state = .joining ∧
      (let s := tPods .ready .voltage tReady
      Ready s ∧ (entryOf s 1).state ≠ .joining ∧
        (entryOf s 1).identity.map (·.kind) = some .voltage ∧
        (entryOf s 2).identity.map (·.kind) ≠ some .voltage) ∧
      (41999 : Word) ≠ 0 ∧ tReady.tracker.state ≠ .fixed ∧
      (tTrack (fun t => { t with state := .fixed }) tReady).tracker.state = .fixed := by decide

/-- A timeout that is owed when TRACK_FIXED or TRACK_STATUS arrives, at its limit, and none. -/
theorem test_meets_TrackRequestsAnswer_timeout :
    let s := fun (since : Nat) => tTrack (fun t => { t with state := .locked, since := since }) tReady
    Ready (s 256) ∧ (s 256).tracker.state = .locked ∧ 256 ≤ (s 256).tracker.since ∧
      Ready (s 255) ∧ (s 255).tracker.since < 256 ∧ tReady.tracker.state ≠ .locked := by decide

/-- R33, R35 and R36: TRACK_STATUS and TRACK_FIXED(0) find HOLDOVER where the timeout is owed. -/
theorem test_track_requests_find_the_timeout_taken :
    let s := tTrack (fun t => { t with state := .locked, since := 256 }) (tSending tReady)
    let told := fun (o : Host.Outcome State Fault Refusal) =>
      match o with
      | .next t => (t.tracker.state, t.tracker.unlockSeen, t.link.notices.length,
          t.link.reply.map (·.status))
      | _ => (.acquiring, false, 0, none)
    told (exec (.trackStatus 1 false) s) = (.holdover, true, 1, some .ok) ∧
      told (exec (.trackFixed 1 0) s) = (.holdover, true, 1, some .wrongState) ∧
      told (exec (.trackFixed 1 50000) s) = (.fixed, true, 2, some .ok) := by decide +kernel

/-- R2, R25 and R37: a TRACK_FIXED between an ACQ reset and frame 0 leaves the carry the old K's. -/
theorem test_track_fixed_before_frame_0_keeps_the_carry :
    let s := tTrack (fun t => { t with boundaryK := some 1677319, nco := 1677318 }) tReady
    (match execAll [.trackFixed 1 60000, .frameStart] s with
    | .next t => (t.tracker.k, t.tracker.kMoved, (2 ^ 32 + t.tracker.nco - 1677318) % 1677319)
    | _ => (0, true, 1)) = (2013266, false, 0) := by decide +kernel

theorem test_meets_NoCrossingEndsTheLock :
    let s := tTrack (fun t => { t with state := .locked, since := 256 }) tReady
    Quiet s ∧ s.tracker.state = .locked ∧ 256 ≤ s.tracker.since ∧
      (tTrack (fun t => { t with since := 255 }) s).tracker.since < 256 ∧
      tReady.tracker.state ≠ .locked := by decide

theorem test_meets_PeriodsMoveTheTracker :
    (let valid := fun p : Nat => 31130 ≤ p ∧ p ≤ 34406
    let inLock := fun p : Nat => 32704 ≤ p ∧ p ≤ 32832
    ¬valid 31129 ∧ valid 31130 ∧ ¬inLock 32703 ∧ inLock 32704 ∧ inLock 32832 ∧ ¬inLock 32833 ∧
      valid 34406 ∧ ¬valid 34407) ∧
    tReady.tracker.state = .acquiring ∧ tReady.tracker.inLock < 7 ∧
    7 ≤ (tTrack (fun t => { t with inLock := 7 }) tReady).tracker.inLock ∧
    (tTrack (fun t => { t with state := .locked }) tReady).tracker.state = .locked ∧
    (tTrack (fun t => { t with state := .holdover }) tReady).tracker.state = .holdover ∧
    (tTrack (fun t => { t with state := .fixed }) tReady).tracker.state = .fixed := by decide

/-- The samples of R29 at each limit: -329, -328, -327, -1, 0, 327 and 328. -/
theorem test_meets_DetectorFollowsTheTable :
    let d : Detector := ⟨.armed, some (1000, -1), 0⟩
    d.prev = some (1000, -1) ∧ d.state = .armed ∧ (-328 : Int) ≤ -328 ∧ (-328 : Int) < -327 ∧
      (-1 : Int) < 0 ∧ (0 : Int) < 328 ∧ (327 : Int) < 328 ∧ (328 : Int) ≤ 328 ∧
      ({ d with state := .disarmed } : Detector).state = .disarmed ∧
      ({ d with state := .candidate } : Detector).state = .candidate := by decide

theorem test_meets_RotationJudgesTheCycle :
    let first := fun (xs : List Nat) => xs.find? fun t => decide (1000 ≤ t ∧ t < 33768)
    ({ opening := some 1000 } : Rotation).opening = some 1000 ∧ 1000 < 33768 ∧
      first [999, 1000] = some 1000 ∧ first [33767] = some 33767 ∧ first [33768] = none := by decide

theorem test_meets_WantedReferenceIsChosen :
    (let s := tSites tSite (tPods .ready .voltage tReady)
    (memberOf s 0 0).map (·.slot) = some 1 ∧ (entryOf s 1).state = .ready) ∧
    (let s := tTrack (fun t => { t with selection := some 15 })
      (tSites tSite (tPods .absent .voltage tReady))
    s.tracker.selection = some 15 ∧ slotReady s 15 = false) := by decide

/-- A change-over of the reference at once, and one that waits for a crossing of slot 15. -/
theorem test_meets_WantedReferenceIsChosen_change_over :
    let s := fun (inUse : Option Nat) (since : Nat) =>
      tTrack (fun t => { t with inUse := inUse, since := since })
        (tSites tSite (tPods .ready .voltage tReady))
    let after := fun (s : State) =>
      match exec .frameStart s with
      | .next t => (t.tracker.wanted, t.tracker.inUse)
      | _ => (none, none)
    Quiet (s (some 15) 255) ∧ Settled (s (some 15) 255) ∧ Settled (s (some 15) 256) ∧
      Settled (s none 0) ∧ after (s (some 15) 255) = (some 1, some 15) ∧
      after (s (some 15) 256) = (some 1, some 1) ∧ after (s none 0) = (some 1, some 1) := by
  decide +kernel

theorem test_meets_ClockCommandsMoveTheClock :
    let at_ := fun (sec ms : Nat) => ({ time := ⟨sec, ms⟩ } : Clock)
    (at_ 0 998).midnightDue = false ∧ (at_ 0 998).time.ms < 999 ∧ 999 ≤ (at_ 86399 999).time.ms ∧
      (at_ 4294967294 999).time.sec < 4294967295 ∧ 4294967295 ≤ (at_ 4294967295 999).time.sec ∧
      (at_ 4294967295 999).time = ⟨4294967295, 999⟩ ∧ (at_ 4294967295 998).time ≠ ⟨4294967295, 999⟩ ∧
      ({ midnightDue := true } : Clock).midnightDue = true := by decide

theorem test_meets_ClockSetSetsTheClock :
    Ready State.reset ∧ State.reset.store.state = .mounting ∧ Ready tReady ∧
      tReady.store.state ≠ .mounting ∧ tReady.survey.state ≠ some .recording ∧
      Ready (tSurvey .recording tReady) ∧ (tSurvey .recording tReady).survey.state = some .recording ∧
      (999 : Half).toNat ≤ 999 ∧ 999 < (1000 : Half).toNat := by decide

theorem test_meets_MountingAnswersBusy :
    Ready State.reset ∧ State.reset.store.state = .mounting ∧ Ready tReady ∧
      tReady.store.state ≠ .mounting := by decide

/-- The SITE_SET of the worked figures of section 3.2, and a character outside the printable set. -/
theorem test_meets_SiteSetClampsAndEchoes :
    let s := tSurvey .setup tReady
    let c : CarriedSettings := { st := some 980, ti := some 960, pc := some 6, wc := some 14 }
    Ready s ∧ Shaped s ∧ s.store.state ≠ .mounting ∧ s.survey.state = some .setup ∧
      Ready (tSurvey .recording tReady) ∧ 3 < (4 : Byte).toNat ∧ (3 : Byte).toNat ≤ 3 ∧
      (siteOf s 3).settings.pc ≤ 8 ∧ (siteOf s 3).settings.pe ≤ 8 ∧ c.name = none ∧
      (0x1F : Byte).toNat < 0x20 ∧ 0x7E < (0x7F : Byte).toNat := by unfold Shaped; decide

theorem test_meets_AssignPlacesTheSlot :
    (let s := tSites tSite (tPods .ready .voltage tReady)
    Ready s ∧ Shaped s ∧ s.store.state ≠ .mounting ∧ 1 ≤ (15 : Byte).toNat ∧ (15 : Byte).toNat ≤ 15 ∧
      ¬1 ≤ (0 : Byte).toNat ∧ ¬(16 : Byte).toNat ≤ 15 ∧ (3 : Byte).toNat ≤ 3 ∧ (7 : Byte).toNat ≤ 7 ∧
      ¬(8 : Byte).toNat ≤ 7 ∧ s.survey.state ≠ some .recording ∧ s.survey.state ≠ some .ended ∧
      (entryOf s 15).state ≠ .joining ∧ (3 : Byte) ≠ 0xFF ∧
      (entryOf s 15).identity = some (tIdentity .voltage) ∧
      (entryOf s 15).identity.map (·.kind) = some (if (3 : Byte).toNat < 4 then .voltage else .current) ∧
      (entryOf s 15).identity.map (·.kind) ≠ some (if (4 : Byte).toNat < 4 then .voltage else .current) ∧
      positionOf s 15 = none ∧ positionOf s 1 = some (0, 0) ∧
      (∀ i ∈ List.range 4, ∀ j ∈ List.range 8, (memberOf s i j).map (·.slot) = some 1 → positionOf s 1 = some (i, j))) ∧
    Ready (tSurvey .recording tReady) ∧ (tSurvey .recording tReady).survey.state = some .recording ∧
    (entryOf (tPods .joining .voltage tReady) 15).state = .joining := by
  unfold Shaped; decide +kernel

/-- ASSIGN of slot 1 to the position it has, and to another, which empties both. -/
theorem test_meets_AssignPlacesTheSlot_position :
    let c : Channel := { window := List.replicate 2 ⟨9, false, false⟩ }
    let u := tSites tSite (tPods .ready .voltage tReady)
    let s : State :=
      { u with sag := { u.sag with sites := { channels := [c, c, {}] } :: List.replicate 3 {} } }
    let after := fun (role : Byte) =>
      match exec (.assign 1 1 0 role) s with
      | .next t => ((channelOf t 0 0).window.length, (channelOf t 0 1).window.length)
      | _ => (9, 9)
    Ready s ∧ Shaped s ∧ (memberOf s 0 0).map (·.slot) = some 1 ∧
      (memberOf s 0 1).map (·.slot) ≠ some 1 ∧ after 0 = (2, 2) ∧ after 1 = (0, 0) := by
  unfold Shaped; decide +kernel

theorem test_meets_SurveyRequestsArePending :
    (let s := tSurvey .setup (tSites tSite tReady)
    Ready s ∧ s.store.state ≠ .mounting ∧ s.survey.state = some .setup ∧
      (∃ e ∈ s.sites, e.settings.enabled = true ∧ ∃ m ∈ e.members.take 4, m.isSome = true) ∧
      s.supply.level ≠ .critical ∧ s.store.state ≠ .wiping ∧
      Ready (tLevel .critical s) ∧ (tLevel .critical s).supply.level = .critical ∧
      Ready (tStore .wiping s) ∧ (tStore .wiping s).store.state = .wiping) ∧
    ¬(∃ e ∈ tReady.sites, e.settings.enabled = true ∧ ∃ m ∈ e.members.take 4, m.isSome = true) ∧
    Ready (tSurvey .held tReady) ∧ Ready (tSurvey .recording tReady) ∧
    (tSurvey .held tReady).survey.state ≠ some .setup ∧
    (tSurvey .recording tReady).survey.state ≠ some .held ∧
    (tChange .stopSupply (tSurvey .recording tReady)).survey.change = some .stopSupply := by decide

theorem test_meets_SurveyRecordIsMade :
    (tReady.store.state ≠ .mounting ∧ tReady.store.state ≠ .wiping ∧ tReady.store.queue.length < 16) ∧
      ¬(State.reset.store.state ≠ .mounting) ∧
      16 ≤ (List.replicate 16 (⟨.survey, 1, .lockMark ⟨1, 0, ⟨0, 0⟩, true⟩, false⟩ : QueueItem)).length := by
  decide

theorem test_meets_SurveyEndsAndRenews :
    (let s := tSurvey .held tReady
    Ready s ∧ s.store.state ≠ .mounting ∧ s.survey.state = some .held ∧ s.supply.level ≠ .critical ∧
      (tLevel .critical s).supply.level = .critical) ∧
    Ready (tSurvey .setup tReady) ∧ Ready (tSurvey .ended tReady) ∧
    (tSurvey .ended tReady).survey.state = some .ended ∧
    (tSurvey .setup tReady).survey.state ≠ some .ended := by decide

/-- A change of the survey whose boundary, frame 64, is due. -/
def tDue (c : Change) (s : State) : State :=
  let s := tChange c (tSending s)
  { s with survey := { s.survey with changeDue := true }, bus := { s.bus with frame := 64, begun := true } }

theorem test_meets_StartBoundaryStartsTheRun :
    let s := tDue .start (tBusy 0x0C (tSurvey .setup (tSites tSite tReady)))
    Quiet s ∧ Shaped s ∧ s.link.owed = none ∧ s.link.reply = none ∧ s.link.sending.isSome = true ∧
      s.link.current = some ⟨(0x0C : Byte).toNat, 7, false⟩ ∧ s.survey.change = some .start ∧
      s.survey.changeDue = true ∧ s.bus.frame = 64 ∧ s.store.queue.length < 16 ∧
      (tStore .wiping s).store.state = .wiping ∧ s.link.mask.getLsbD 5 = true ∧
      s.link.notices.length < 32 := by unfold Shaped; decide

theorem test_meets_StopBoundaryEndsTheRun :
    let s := tDue .stopHold (tBusy 0x0D (tSurvey .recording (tSites tSite tReady)))
    Quiet s ∧ Shaped s ∧ s.survey.change = some .stopHold ∧ Change.stopHold ≠ .start ∧
      s.survey.changeDue = true := by unfold Shaped; decide

/-- Site 0 with a full window on L1. -/
def tWindow (s : State) : State :=
  let c : Channel := { window := List.replicate 128 ⟨6030, false, false⟩ }
  { s with sag := { s.sag with sites := { channels := [c, {}, {}] } :: List.replicate 3 {} } }

theorem test_meets_SagFiguresAreExact :
    let s := tWindow (tSurvey .recording (tSites tSite (tPods .ready .voltage tReady)))
    memberOf s 0 0 = some ⟨1, 77, true⟩ ∧ (entryOf s 1).identity = some (tIdentity .voltage) ∧
      s.survey.state = some .recording ∧ (siteOf s 0).settings.enabled = true ∧
      (channelOf s 0 0).window.length = 128 ∧
      (tSurvey .held s).survey.state ≠ some .recording ∧ memberOf s 0 1 = none := by
  decide +kernel

theorem test_meets_ChannelFollowsItsTable :
    let x : Settings := {}
    (1 ≤ x.nc ∧ x.nc = 1 ∧ 1 < 2 ∧ 899 < x.st ∧ ¬900 < x.st ∧ Nat.min (x.st + x.h) 1000 ≤ 920 ∧
      ¬Nat.min (x.st + x.h) 1000 ≤ 919) ∧
    (let c : Channel := { state := .pendingIn, run := 2, candidate := some 64, minR := some 850 }
    c.lost = false ∧ c.run + 1 < 4 ∧ 3 ≤ c.run + 1 ∧ c.candidate = some 64 ∧
      ({ c with state := .sag } : Channel).state = .sag ∧
      ({ c with state := .pendingOut } : Channel).state = .pendingOut ∧
      ({ c with lost := true } : Channel).lost = true) := by decide

def tInvolved : Involved := ⟨.l1, 77, 520, 3, none, true⟩

def tEvent : OpenEvent := ⟨1, 0, ⟨0, 0⟩, 64, [tInvolved], {}, none⟩

/-- Site 0 with an open event. -/
def tOpen (s : State) : State :=
  { s with sag := { s.sag with sites := { event := some tEvent } :: List.replicate 3 {} } }

theorem test_meets_HalfCycleBoundaryMovesTheSites :
    (let s := tWindow (tSurvey .recording (tSites tSite (tFrame (tPods .ready .voltage tReady))))
    let due : State := { s with bus := { s.bus with boundaryDue := true } }
    Quiet s ∧ Shaped s ∧ s.bus.frame = 64 ∧ s.bus.boundaryDue = false ∧ Quiet due ∧ Shaped due ∧
      due.bus.boundaryDue = true ∧ due.survey.changeDue = false ∧ (sagSite due 0).event = none ∧
      (sagSite due 0).history.head?.map (·.frame) ≠ some 64 ∧
      ((channelOf due 0 0).atBoundary 64 (siteOf due 0).settings (channelValue due 0 0)).2 =
        .sagged 64 ∧
      ((channelOf due 1 0).atBoundary 64 (siteOf due 1).settings (channelValue due 1 0)).2 =
        .still) ∧
    (let s := tOpen (tFrame tReady)
    (sagSite s 0).event = some tEvent ∧ tInvolved ∈ tEvent.involved ∧ tInvolved.holding = true) := by
  unfold Shaped; decide +kernel

theorem test_meets_EventCloseMakesTheRecord :
    let s := tOpen tReady
    Shaped s ∧ tEvent.involved ≠ [] ∧ s.store.state ≠ .mounting ∧ s.store.state ≠ .wiping ∧
      s.store.state ≠ .full ∧ s.store.queue.length < 16 ∧ (tStore .full s).store.state = .full ∧
      (let h : Boundary := ⟨128, ⟨1, 250⟩, true, false, false, false⟩
      [h].find? (fun h => h.frame = 128) = some h ∧ 0 * 1000 + 0 ≤ h.time.sec * 1000 + h.time.ms ∧
        1 * 1000 + 250 < 2 ^ 32 * 1000 ∧ 1 * 1000 + 250 < 4294967295 * 1000 + 999 ∧
        4294967295 * 1000 + 999 < 2 ^ 32 * 1000) := by
  unfold Shaped; decide

/-- R71: an event from 2.000 s whose end boundary has the clock time 3.250 s lasts 1,250 ms. -/
theorem test_event_record_times :
    let h : Boundary := ⟨128, ⟨3, 250⟩, true, false, false, false⟩
    let e : OpenEvent :=
      ⟨1, 64, ⟨2, 0⟩, 64, [⟨.l1, 77, 520, 1, some 128, false⟩], {}, none⟩
    let s : State := { tReady with
      sag := { tReady.sag with sites := { history := [h], event := some e } :: List.replicate 3 {} } }
    ((eventRecord s 0 128 e).endTime, (eventRecord s 0 128 e).ms, (eventRecord s 0 128 e).half) =
      (⟨3, 250⟩, 1250, 1) := by decide +kernel

theorem test_meets_StatusRequestsAnswer :
    Ready State.reset ∧ Shaped State.reset ∧ State.reset.store.state = .mounting ∧
      Ready tReady ∧ Shaped tReady ∧ tReady.store.state ≠ .mounting ∧ tReady.store.state ≠ .wiping ∧
      3 < (4 : Byte).toNat ∧ (3 : Byte).toNat ≤ 3 ∧
      (tStore .wiping tReady).store.state = .wiping := by
  unfold Shaped; decide

/-- R81: SAG_STATUS returns the window count that stood after the latest boundary, here of 2 frames, not
that of the frames since. -/
theorem test_sag_status_shows_the_count_of_the_boundary :
    let c : Channel := { window := List.replicate 2 ⟨0, false, false⟩ }
    let after := (c.atBoundary 64 {} none).1
    (channelView { after with window := ⟨0, false, false⟩ :: after.window }).held = 2 := by decide

/-- Capture slot 11 holds one member and a START segment of one recorded cycle of two planned. -/
def tCapture (x : CaptureState) (filling : Bool) (pins : Nat) (s : State) : State :=
  let m : CaptureMember := { role := .l1, slot := 1, serial := 77, kind := .voltage, fullScale := 650 }
  let g : Segment :=
    { kind := .start, first := 64, firstTime := none, pre := 1, planned := 2
      frames := List.replicate 128 [⟨5, false⟩], filling := filling, live := [.measuring] }
  let c : CaptureSlot :=
    { state := x, serial := 9, event := some 1, site := some 0, members := [m], segments := [g]
      pins := pins }
  { s with capture := { s.capture with slots := List.replicate 11 {} ++ [c] } }

theorem test_meets_CapturesCompleteReadAndRelease :
    (let s := tCapture .filling true 0 tReady
    Quiet s ∧ Ready s ∧ Shaped s ∧ (captureSlot s 11).state = .filling ∧
      (captureSlot s 11).segments.length = 1 ∧ (captureSlot s 11).members.length = 1 ∧
      ((captureSlot s 11).segments[0]?.map fun g => (g.planned, g.filling, g.frames.length / 128)) =
        some (2, true, 1)) ∧
    (let s := tCapture .filling false 0 tReady
    (captureSlot s 11).eventOpen = false ∧ ∀ g ∈ (captureSlot s 11).segments, g.filling = false) ∧
    (captureSlot tReady 0).state = .free ∧ (11 : Byte).toNat ≤ 11 ∧ 11 < (12 : Byte).toNat ∧
    1 ≤ (1 : Byte).toNat ∧ (2 : Byte).toNat ≤ 2 ∧ ¬(3 : Byte).toNat ≤ 2 ∧ ¬1 ≤ (0 : Byte).toNat ∧
    (captureSlot (tCapture .complete false 0 tReady) 11).pins = 0 ∧
    0 < (captureSlot (tCapture .complete false 1 tReady) 11).pins ∧
    (9 : Half).toNat = (captureSlot (tCapture .complete false 1 tReady) 11).serial ∧
    (captureSlot (tCapture .releasePending false 1 tReady) 11).state = .releasePending := by
  unfold Shaped; decide +kernel

/-- FRAME_END of a rise from -384 to 384 on slot 1: a confirmed crossing, a period handed over, a cycle of
the rotation check opened, and a row for the segment that waits for frame 192, but not for one that is
full. -/
theorem test_meets_FrameEndDeliversTheSamples_consumers :
    let s := tCapture .filling true 0 (tFilling tReady)
    let full := tCapture .filling false 0 (tFilling tReady)
    let g := (captureSlot s 11).segments[0]?
    Quiet s ∧ Shaped s ∧ s.bus.inFrame = true ∧ boundaryWork s = s ∧ s.bus.mask.Nodup ∧
      (∀ slot ∈ s.bus.mask, 1 ≤ slot ∧ slot ≤ 15) ∧ s.tracker.inUse = some 1 ∧
      (rotationOf s 0).running = some (1, 2, 15) ∧ (rotationOf s 1).running = none ∧
      (s.tracker.det.take 192 384).2 = some 49024 ∧ (s.tracker.det.take 192 100).2 = none ∧
      (captureSlot s 11).state = .filling ∧ (captureSlot s 11).site = some 0 ∧
      (g.map fun g => (g.filling, frameDiff 192 g.first, g.frames.length)) = some (true, 128, 128) ∧
      ((captureSlot full 11).segments.map (·.filling)) = [false] ∧
      (captureSlot s 0).state = .free ∧ s.link.owed = none ∧ s.link.notices.length ≤ 26 ∧
      (match exec (.frameEnd [0x018040]) s with
      | .next t =>
        (t.tracker.lastCross, t.tracker.f, (rotationOf t 0).opening,
          (captureSlot t 11).segments.map (·.frames.length), t.bus.inFrame)
      | _ => (none, 0, none, [], true)) = (some 49024, 50098, some 49024, [129], false) := by
  unfold Shaped; decide +kernel

/-- Site 0 with an open event that holds capture slot 11, whose START segment is full or still fills, and a
channel of L1 in SAG with its voltage back. -/
def tClosing (filling : Bool) (s : State) : State :=
  let s := tCapture .filling filling 0 (tSurvey .recording (tSites tSite (tFrame s)))
  let ch : Channel :=
    { state := .sag, sagStart := some 64, minR := some 500
      window := List.replicate 128 ⟨32000, false, false⟩ }
  let slots := s.capture.slots.map fun c => { c with eventOpen := c.state == .filling }
  { s with
    bus := { s.bus with frame := 640, boundaryDue := true }
    capture := { s.capture with slots := slots }
    sag :=
      { s.sag with
        sites := { channels := [ch, {}, {}], event := some { tEvent with capture := some (11, 9) } } ::
          List.replicate 3 {} } }

/-- An event that opens with a FREE capture slot, and one that opens with none. -/
theorem test_meets_HalfCycleBoundaryMovesTheSites_opening :
    let s := tSending (tWindow (tSurvey .recording (tSites tSite
      (tFrame (tPods .ready .voltage tReady)))))
    let due : State := { s with bus := { s.bus with boundaryDue := true } }
    let none_ : State := { due with capture :=
      { due.capture with slots := List.replicate 12 { state := .complete } } }
    let claims := fun (s : State) =>
      match exec .halfCycleBoundary s with
      | .next t => ((sagSite t 0).event.bind (·.capture), (captureSlot t 0).state,
          t.link.notices.map (·.body.code))
      | _ => (none, CaptureState.free, [])
    Quiet due ∧ Shaped due ∧ due.survey.changeDue = false ∧ due.link.mask.getLsbD 6 = true ∧
      due.link.notices.length ≤ 28 ∧ claims due = (some (0, 1), .filling, [6]) ∧
      Quiet none_ ∧ Shaped none_ ∧ claims none_ = (none, .complete, [6]) := by
  unfold Shaped; decide +kernel

/-- An event that closes and whose slot takes an END segment; a boundary at which a stop is due. -/
theorem test_meets_HalfCycleBoundaryMovesTheSites_closing :
    (let s := tClosing false (tPods .ready .voltage tReady)
    Quiet s ∧ Shaped s ∧ s.bus.boundaryDue = true ∧ s.survey.changeDue = false ∧
      (sagSite s 0).event.map (·.involved) ≠ some [] ∧ (channelOf s 0 0).state = .sag ∧ (captureSlot s 11).state = .filling ∧
      ((captureSlot s 11).segments.map fun g =>
        decide (128 * g.planned + 128 * (siteOf s 0).settings.pe ≤ frameDiff 640 g.first)) =
          [true] ∧
      (match exec .halfCycleBoundary s with
      | .next t => ((sagSite t 0).event.isNone, (captureSlot t 11).segments.map (·.kind),
          t.store.queue.map (·.kind))
      | _ => (false, [], [])) = (true, [.start, .ending], [.event])) ∧
    (let s := tDue .stopHold (tSurvey .recording (tSites tSite tReady))
    s.survey.changeDue = true ∧ s.survey.change = some .stopHold) := by
  unfold Shaped; decide +kernel

/-- Site 0 with a window and an accumulator in its L1 position. -/
def tHarm (w : Window) (a : Accumulator) (due : Bool) (s : State) : State :=
  let h : HarmSite :=
    { basis := some .run, next := some ⟨600, 0⟩, due := due
      members := { window := some w, acc := some a } :: List.replicate 7 {} }
  { s with harm := { s.harm with sites := h :: List.replicate 3 {} } }

def tAccumulator (n : Nat) : Accumulator :=
  { slot := 1, serial := 77, startTime := ⟨0, 0⟩, firstFrame := 0, n := n
    sumSq := List.replicate 40 0, maxM := List.replicate 40 0 }

/-- A leave with a window in progress, with a complete one and with none. -/
theorem test_meets_PodsLeaveService_window :
    let s := fun (w : Window) => tHarm w (tAccumulator 3) false (tSites tSite (tPods .ready .voltage tReady))
    let full : Window := { newWindow 0 40 with taken := 1024 }
    Quiet (s full) ∧ Shaped (s full) ∧ (harmMember (s full) 0 0).window = some full ∧
      full.taken = 1024 ∧ (newWindow 0 40).taken ≠ 1024 ∧
      (harmMember (s full) 0 0).acc = some (tAccumulator 3) ∧ (harmMember tReady 0 0).window = none := by
  unfold Shaped; decide +kernel

/-- A stop boundary at frame 640 that closes an event, an accumulator with three windows and a capture, and
answers the SURVEY_END that waits. -/
theorem test_meets_StopBoundaryEndsTheRun_records :
    let s := tDue .stopEnd (tBusy 0x0F (tClosing true (tPods .ready .voltage tReady)))
    let s : State := tHarm (newWindow 0 40) (tAccumulator 3) false
      { s with bus := { s.bus with frame := 640 } }
    Quiet s ∧ Shaped s ∧ s.survey.change = some .stopEnd ∧ s.survey.changeDue = true ∧
      (sagSite s 0).event.isSome = true ∧ (sagSite s 0).history.head?.map (·.frame) ≠ some 640 ∧
      (harmMember s 0 0).acc = some (tAccumulator 3) ∧ s.store.queue.length + 1 + 1 < 16 ∧
      s.link.owed = none ∧ s.link.mask.getLsbD 5 = true ∧ s.link.notices.length ≤ 23 ∧
      (captureSlot s 11).state = .filling ∧ (captureSlot s 11).site = some 0 ∧
      (match exec .stopBoundary s with
      | .next t => (t.store.queue.map (·.kind), (captureSlot t 11).segments.map (·.truncated),
          t.link.reply.map (·.kind), t.link.notices.map (·.body.code))
      | _ => ([], [], none, [])) =
        ([.event, .interval, .survey], [true, true], some 0x8F, [7, 8, 5]) := by
  unfold Shaped; decide +kernel

theorem test_meets_WindowCompleteIsJudged :
    let w := newWindow 0 40
    let s := fun (w : Window) =>
      tHarm w (tAccumulator 0) false
        (tSurvey .recording (tSites tSite (tPods .ready .voltage tReady)))
    Quiet (s w) ∧ Shaped (s w) ∧ memberOf (s w) 0 0 = some ⟨1, 77, true⟩ ∧
      (harmMember (s w) 0 0).window = some w ∧ w.taken ≠ 1024 ∧ w.unlocked = false ∧ w.gap = false ∧
      ({ w with taken := 1024 } : Window).taken = 1024 ∧ ({ w with gap := true } : Window).gap = true ∧
      (siteOf (s w) 0).settings.udin ≤ 230 ∧ ¬230 < (siteOf (s w) 0).settings.udin := by
  unfold Shaped; decide +kernel

theorem test_meets_IntervalBoundaryClosesTheSite :
    let s := fun (n : Nat) (due : Bool) =>
      tHarm (newWindow 0 40) (tAccumulator n) due
        (tSurvey .recording (tSites tSite (tFrame (tPods .ready .voltage tReady))))
    Quiet (s 1 true) ∧ Shaped (s 1 true) ∧ (s 1 true).survey.changeDue = false ∧
      (s 1 true).bus.frame = 64 ∧ (harmSite (s 1 true) 0).next = some ⟨600, 0⟩ ∧
      (harmSite (s 1 true) 0).basis = some .run ∧ (harmSite (s 1 true) 0).due = true ∧
      (harmSite (s 0 false) 0).due = false ∧ (harmSite (s 0 true) 0).empty + 1 ≤ 4294967295 ∧
      (s 1 true).store.state = .ready ∧ (s 1 true).store.queue.length + 1 ≤ 16 ∧
      (∀ role < 8, (harmMember (s 1 true) 0 role).place = none) ∧
      (tStore .full (s 1 true)).store.state = .full := by unfold Shaped; decide +kernel

/-- R104: the frame that begins at 600.000 s is the close frame of the boundary 600 s, the one at 599.999 s
is not, and with no next boundary none is. -/
theorem test_meets_IntervalBoundaryClosesTheSite_close_frame :
    let s := fun (sec ms : Nat) =>
      let u := tHarm (newWindow 0 40) (tAccumulator 1) false
        (tSurvey .recording (tSites tSite (tPods .ready .voltage tReady)))
      ({ u with clock := { u.clock with time := ⟨sec, ms⟩ } } : State)
    let due := fun (s : State) =>
      match exec .frameStart s with
      | .next t => some (harmSite t 0).due
      | _ => none
    Quiet (s 600 0) ∧ Shaped (s 600 0) ∧ Settled (s 600 0) ∧ recording (s 600 0) = true ∧
      (harmSite (s 600 0) 0).next = some ⟨600, 0⟩ ∧ 600 * 1000 + 0 < 2 ^ 32 * 1000 ∧
      due (s 600 0) = some true ∧ due (s 599 999) = some false ∧
      Settled tReady ∧ (harmSite tReady 0).next = none := by unfold Shaped; decide +kernel

/-- R104: the basis is CLOCK where CLOCK_VALID was 1 as the boundary's frame began, though the clock has
wrapped since. -/
theorem test_basis_is_that_of_the_boundary :
    let s := tDue .start (tBusy 0x0C (tSurvey .setup (tSites tSite tReady)))
    let u : State := { s with
      bus := { s.bus with frameTime := ⟨4294967295, 999⟩, frameValid := true } }
    (match exec .startBoundary u with
    | .next t => ((harmSite t 0).basis, (harmSite t 0).next)
    | _ => (none, none)) = (some .clock, some ⟨0, 0⟩) ∧ u.clock.valid = false := by decide +kernel

/-- A close by loss at L1 of site 0, of an accumulator with n = 0 and of one with n = 1. -/
theorem test_meets_IntervalBoundaryClosesTheSite_loss :
    let s := fun (n : Nat) =>
      let h : HarmSite :=
        { basis := some .run, next := some ⟨600, 0⟩
          members := { acc := some (tAccumulator n), lossDue := true } :: List.replicate 7 {} }
      let u := tSites tSite (tFrame tReady)
      ({ u with harm := { u.harm with sites := h :: List.replicate 3 {} } } : State)
    Shaped (s 1) ∧ (harmMember (s 1) 0 0).acc = some (tAccumulator 1) ∧
      (harmMember (s 0) 0 0).acc = some (tAccumulator 0) ∧
      (harmMember (s 1) 0 0).lossDue = true ∧ (harmSite (s 1) 0).due = false ∧
      (∀ i ∈ List.range 4, ∀ j ∈ List.range 8, (i ≠ 0 ∨ j ≠ 0) →
        (harmMember (s 1) i j).lossDue = false) ∧
      (s 1).store.state = .ready ∧ (s 1).store.queue.length < 16 ∧
      (harmMember (s 1) 0 0).place = none ∧ (tStore .full (s 1)).store.state = .full := by
  unfold Shaped; decide +kernel

/-- An EVENT entry, id 1, LIVE in block 1 of sector 0. -/
def tEntry : Entry :=
  { kind := .event, id := 1, seq := some 2, loc := some (0, 1), size := 1, state := .live }

def tLock : LockRecord := ⟨2, 0, ⟨0, 0⟩, true⟩

/-- A store with an operation in flight, one queued LOCK_MARK record and an EVENT entry. -/
def tArray (x : StoreState) (op : ArrayOp) (s : State) : State :=
  { s with
    store :=
      { s.store with
        state := x, op := some op, head := some 0, headUsed := 2
        opening := some 1 :: List.replicate 63 none
        queue := [⟨.lockMark, 2, .lockMark tLock, false⟩]
        dir := [tEntry,
          { kind := .lockMark, id := 2, seq := none, loc := none, size := 1, state := .queued }] } }

theorem test_meets_WritesProgramTheRecord :
    (let s := tArray .ready (.write 5 (0, 2) 1 false) tReady
    Quiet s ∧ s.store.state ≠ .wiping ∧ s.store.op = some (.write 5 (0, 2) 1 false) ∧
      s.store.queue = ⟨.lockMark, 2, .lockMark tLock, false⟩ :: [] ∧
      (findEntry s.store .lockMark 2).isSome = true ∧ s.survey.place = none ∧ nextWaiting s = none ∧
      s.store.state = .ready ∧ 2 ≤ s.store.opening.countP (·.isNone)) ∧
    (let s := tArray .reclaiming (.copy .event 1 5 (0, 2) 1) tReady
    Quiet s ∧ s.store.op = some (.copy .event 1 5 (0, 2) 1) ∧ findEntry s.store .event 1 = some tEntry ∧
      tEntry.loc = some (0, 1) ∧ s.store.state = .reclaiming) ∧
    (∀ op ∈ tReady.store.op, op = .erase 0) := by decide +kernel

theorem test_meets_MarksStepsAndErasesEnd :
    (let s := tArray .ready (.mark ⟨(0, 1), .delete⟩) tReady
    Quiet s ∧ s.store.op = some (.mark ⟨(0, 1), .delete⟩) ∧ s.store.state = .ready ∧
      (tStore .full s).store.state = .full) ∧
    (let s := tSending (tBusy 0x1B (tArray .ready (.mark ⟨(0, 1), .delete⟩) tReady))
    Quiet s ∧ s.link.current = some ⟨0x1B, 7, false⟩ ∧ s.link.reply = none ∧ s.link.owed = none ∧
      s.link.sending.isSome = true) ∧
    (let s := tArray .ready (.extend (0, 1)) tReady
    Quiet s ∧ s.store.op = some (.extend (0, 1)) ∧ extensionField s.store (0, 1) ≠ 0) ∧
    (let s := tArray .reclaiming (.erase 63) tReady
    Quiet s ∧ s.store.op = some (.erase 63) ∧ s.store.state ≠ .wiping ∧
      2 ≤ (s.store.opening.set 63 none).countP (·.isNone) ∧
      ((List.replicate 64 (some 1)).set 63 none).countP (·.isNone) < 2) := by decide +kernel

/-- After a DEAD mark the oldest queued record goes to the last block of the head, or opens sector 1, or waits
where one erased sector is left; an owed step and an older mark come before it. -/
theorem test_meets_MarksStepsAndErasesEnd_next :
    let s := fun (f : Store → Store) =>
      let u := tArray .ready (.mark ⟨(0, 1), .relocation⟩) tReady
      ({ u with store := f u.store } : State)
    let after := fun (f : Store → Store) =>
      match exec .deadMarkDone (s f) with
      | .next t => (t.store.op, t.store.head, t.store.headUsed)
      | _ => (none, none, 0)
    Quiet (s id) ∧ (s id).store.state = .ready ∧ MarkCause.relocation ≠ .delete ∧
      after (fun st => { st with headUsed := 63, nextSeq := 5 }) =
        (some (.write 5 (0, 63) 1 false), some 0, 63) ∧
      after (fun st => { st with headUsed := 64, nextSeq := 5 }) =
        (some (.write 5 (1, 0) 1 true), some 1, 0) ∧
      after (fun st => { st with headUsed := 64, opening := none :: List.replicate 63 (some 1) }) =
        (none, some 0, 64) ∧
      after (fun st => { st with marks := [⟨(0, 0), .delete⟩] }) =
        (some (.mark ⟨(0, 0), .delete⟩), some 0, 2) ∧
      after (fun st => { st with marks := [⟨(0, 0), .delete⟩], extOwed := true }) =
        (some (.extend (0, 1)), some 0, 2) ∧
      after (fun st => { st with
        state := .reclaiming, reclaim := some ⟨0, [(.event, 1)]⟩, nextSeq := 5 }) =
        (some (.copy .event 1 5 (0, 2) 1), some 0, 2) ∧
      after (fun st => { st with state := .reclaiming, reclaim := some ⟨0, []⟩ }) =
        (some (.erase 0), some 0, 2) := by decide +kernel

/-- R125: with nine closed sectors opened in the order of their numbers, and the first eight holding 49
blocks of pinned records, no candidate is eligible; with 48 in sector 3, sector 3 is taken. -/
theorem test_reclaim_choice :
    let st := fun (size : Nat) =>
      ({ opening := (List.range 9).map some ++ List.replicate 55 none
         dir := (List.range 8).map fun i =>
          { tEntry with loc := some (i, 0), pins := 1, size := if i = 3 then size else 49 } } : Store)
    reclaimChoice (st 49) = none ∧ reclaimChoice (st 48) = some 3 := by decide +kernel

theorem test_meets_MountAndWipeComplete :
    Quiet State.reset ∧ State.reset.store = {} ∧ State.reset.store.state = .mounting ∧
      (tStore .wiping tReady).store.state = .wiping ∧ (tStore .wiping tReady).store.op = none ∧
      tReady.store.state ≠ .mounting ∧ tReady.store.state ≠ .wiping := by decide +kernel

/-- An array with two LOCK_MARK records of one id, as a cut relocation leaves them, and a SURVEY record: their
headers with the first bytes of their contents. -/
def tMounted : State :=
  let header := fun (kind : RecordKind) (size seq : Nat) =>
    headerOf kind size 1 seq ⟨1024, 1024, 1024, 1024, 1025⟩
  let array := Memory.write (Memory.write (Memory.write []
    0 (header .lockMark 1 1 ++ [1, 0, 0, 0, 30])) 256 (header .lockMark 1 2 ++ [1, 0, 0, 0, 40]))
    512 (header .survey 2 3 ++ [7, 0, 1])
  { State.reset with store := { array := array } }

/-- R131, R57: the lower of two LIVE records of one id becomes DEAD, and the survey comes back. -/
theorem test_meets_MountAndWipeComplete_records :
    Quiet tMounted ∧ tMounted.store = { array := tMounted.store.array } ∧
      (walkOf tMounted.store.array 0).records.map (·.2) = [0, 1, 2] ∧
      (match exec .mountComplete tMounted with
      | .next t => (t.store.dir.map (·.state), t.survey.number)
      | _ => ([], 0)) = ([.dead, .live, .live], 7) := by
  decide +kernel

/-- R139: note 2 amends note 1, which is attached to an EVENT record that is gone. -/
theorem test_meets_MountAndWipeComplete_notes :
    let note : NoteRecord :=
      { id := 1, number := 1, site := none, attach := some ⟨.event, 4⟩, amends := none, crew := [0x41]
        time := ⟨0, 0⟩, clockUnset := true, text := [0x41] }
    let bytes := fun (id seq : Nat) (r : NoteRecord) =>
      (recordBytes (headerOf .note 2 id seq ⟨1024, 1024, 1024, 1024, 1025⟩) (.note r)).take 257
    let array := Memory.write (Memory.write [] 0 (bytes 1 1 note)) 512
      (bytes 2 2 { note with id := 2, attach := none, amends := some 1 })
    let s : State := { State.reset with store := { array := array } }
    Quiet s ∧ s.store = { array := array } ∧
      (walkOf array 0).records.map (fun r => (r.1.id, r.1.live, r.2)) = [(1, true, 0), (2, true, 2)] ∧
      (match exec .mountComplete s with
      | .next t => ([1, 2].map fun id => (findEntry t.store .note id).map fun e => e.links)
      | _ => []) =
        [some { attachLost := true, amendedBy := some 2 }, some { amends := some 1 }] := by
  decide +kernel

theorem test_meets_StoreRequestsAnswer :
    Ready tReady ∧ tReady.store.state ≠ .mounting ∧ tReady.store.state ≠ .wiping ∧
      Ready State.reset ∧ 1 < (2 : Byte).toNat ∧ (1 : Byte).toNat ≤ 1 ∧
      recordKind? (0 : Byte).toNat = none ∧ recordKind? (1 : Byte).toNat = some .event ∧
      recordKind? (5 : Byte).toNat = some .lockMark ∧ recordKind? (6 : Byte).toNat = none ∧
      ¬1 ≤ (0 : Byte).toNat ∧ 1 ≤ (1 : Byte).toNat ∧ (32 : Byte).toNat ≤ 32 ∧
      ¬(33 : Byte).toNat ≤ 32 ∧ findEntry tReady.store .event 1 = none := by decide +kernel

/-- A record that a reclaim has discarded, its erase in flight: BUSY until it has completed (R127). -/
def tDiscarded (s : State) : State :=
  let s := tArray .reclaiming (.erase 0) s
  { s with store := { s.store with dir := [{ tEntry with state := .dead, reclaim := true }] } }

theorem test_meets_requests_naming_a_discarded_record :
    let s := tDiscarded tReady
    Ready s ∧ s.store.state ≠ .mounting ∧ s.store.state ≠ .wiping ∧
      findEntry s.store .event 1 = none ∧
      (∃ d ∈ s.store.dir, d.kind = .event ∧ d.id = 1 ∧ d.state = .dead ∧ d.reclaim = true) ∧
      ¬(∃ d ∈ s.store.dir, d.kind = .event ∧ d.id = 2 ∧ d.state = .dead ∧ d.reclaim = true) ∧
      (.event, 1) ∈ recordsPinned s.store (.eventDetail 1 false) := by decide +kernel

theorem test_meets_StoreRequestsAnswer_delete_and_wipe :
    (let s := tArray .ready (.erase 63) tReady
    Ready s ∧ findEntry s.store .event (1 : Word).toNat = some tEntry ∧ tEntry.reclaim = false ∧
      writeInFlight s.store .event 1 = false ∧ tEntry.pins = 0 ∧ isHeld s.store tEntry = false ∧
      (∀ n ∈ s.store.dir, n.kind ≠ .note) ∧ s.supply.level ≠ .critical ∧ tEntry.state = .live ∧
      tEntry.loc = some (0, 1)) ∧
    Ready (tLevel .critical tReady) ∧ Ready (tStore .full tReady) ∧
    reclaimChoice (tStore .full tReady).store = none ∧ Ready (tSurvey .held tReady) ∧
    tReady.print.ring = [] ∧ tReady.store.op = none ∧ tReady.survey.state ≠ some .recording ∧
    tReady.survey.state ≠ some .held := by decide +kernel

/-- R111: two free places are handed two waiting INTERVAL records; a FULL store drops both. -/
theorem test_two_free_places_take_two_records :
    let r := recordOf tReady 0 0 ⟨60, 0⟩ false (tAccumulator 1)
    let u := tHarm (newWindow 0 40) (tAccumulator 1) false tReady
    let q : QueueItem := ⟨.lockMark, 2, .lockMark tLock, false⟩
    let s := fun (x : StoreState) =>
      modifyHarmMember (fun m => { m with place := some (r, 1) }) 0 0
        (modifyHarmMember (fun m => { m with place := some (r, 1) }) 0 1
          (tStore x { u with store := { u.store with queue := List.replicate 14 q } }))
    let after := fun (x : StoreState) =>
      let t := announcePlace (s x)
      (t.store.queue.length, t.store.intervalDrops, (nextWaiting t).isSome)
    after .ready = (16, 0, false) ∧ after .full = (14, 2, false) := by decide +kernel

/-- A store with two notes, the second an amendment of the first. -/
def tNotes (s : State) : State :=
  let note : NoteRecord :=
    { id := 1, number := 1, site := none, attach := none, amends := none, crew := [0x41]
      time := ⟨0, 0⟩, clockUnset := true, text := [0x41] }
  let entry : Entry :=
    { kind := .note, id := 1, seq := none, loc := none, size := 2, state := .queued
      links := { amendedBy := some 2 } }
  { s with
    store :=
      { s.store with
        nextIds := { s.store.nextIds with note := 3 }
        queue := [⟨.note, 1, .note note, false⟩,
          ⟨.note, 2, .note { note with id := 2, amends := some 1 }, false⟩]
        dir := [tEntry, entry, { entry with id := 2, links := { amends := some 1 } }] } }

theorem test_meets_NotesAreAddedAndAmended :
    (let s := tNotes tReady
    Ready s ∧ s.store.state ≠ .mounting ∧ s.store.state ≠ .wiping ∧ s.supply.level ≠ .critical ∧
      crewLetters ⟨0x41, 0, 0⟩ = some [0x41] ∧ crewLetters ⟨0, 0, 0⟩ = none ∧
      1 ≤ ([0x20] : List Byte).length ∧ (List.replicate 600 (0x7E : Byte)).length ≤ 600 ∧
      ¬(List.replicate 601 (0x7E : Byte)).length ≤ 600 ∧ 3 < (4 : Byte).toNat ∧ (3 : Byte).toNat ≤ 3 ∧
      2 < (3 : Byte).toNat ∧ (2 : Byte).toNat ≤ 2 ∧
      findEntry s.store .event 1 = some tEntry ∧ tEntry.reclaim = false ∧
      siteOfTarget s.store tEntry ≠ some 3 ∧
      findEntry s.store .event 2 = none ∧ (findEntry s.store .note 2).isSome = true ∧
      depthOf s.store 2 < 8 ∧
      ((findEntry s.store .note 1).bind fun e => e.links.amendedBy) = some 2 ∧
      ((findEntry s.store .note 2).map fun e => e.links.amendedBy) = some none ∧
      ((findEntry s.store .note 2).map fun e =>
        match contentOf s.store e with
        | .note r => r.id
        | _ => 0) = some 2 ∧
      s.store.state = .ready ∧ s.store.queue.length < 16) ∧
    Ready State.reset ∧ State.reset.store.state = .mounting ∧ Ready (tLevel .critical tReady) ∧
    Ready (tStore .full tReady) := by decide +kernel

theorem test_meets_NotesAreAttachedDeletedAndLocked :
    (let s := tNotes tReady
    Ready s ∧ s.store.state = .ready ∧ s.supply.level ≠ .critical ∧ s.store.lockMark < 2 ∧
      (∃ e ∈ s.store.dir, findEntry s.store .note 2 = some e ∧ e.reclaim = false ∧
        writeInFlight s.store .note 2 = false ∧ e.links.attach = none ∧ e.links.attachLost = false ∧
        e.pins = 0 ∧ e.state = .queued ∧ e.links.amendedBy = none) ∧
      findEntry s.store .event 1 = some tEntry ∧ s.survey.place = none ∧ nextWaiting s = none ∧
      findEntry s.store .note 3 = none ∧
      (2 : Word).toNat ≤ s.store.nextIds.note - 1 ∧ ¬(3 : Word).toNat ≤ s.store.nextIds.note - 1 ∧
      s.store.lockMark ≤ (0 : Word).toNat ∧ s.store.queue.length < 16 ∧
      Nat.min (0 : Word).toNat 2 = s.store.lockMark ∧ Nat.min (2 : Word).toNat 2 ≠ s.store.lockMark) ∧
    Ready (tLevel .critical tReady) ∧ Ready State.reset ∧ (32 : Byte).toNat ≤ 32 ∧
    ¬(33 : Byte).toNat ≤ 32 ∧ ¬1 ≤ (0 : Byte).toNat := by decide +kernel

/-- Two INTERVAL records that wait: L2's closed first. -/
def tWaiting (s : State) : State :=
  let r := recordOf tReady 0 0 ⟨60, 0⟩ false (tAccumulator 1)
  modifyHarmMember (fun m => { m with place := some (r, 2) }) 0 0
    (modifyHarmMember (fun m => { m with place := some ({ r with role := .l2 }, 1) }) 0 1
      (tHarm (newWindow 0 40) (tAccumulator 1) false s))

theorem test_waiting_records_in_order (s : State) :
    let r := recordOf tReady 0 0 ⟨60, 0⟩ false (tAccumulator 1)
    WaitingInOrder (tWaiting s) [(1, 0, 1, { r with role := .l2 }), (2, 0, 0, r)] := by
  refine ⟨by decide +kernel, fun moment site role r => ⟨fun h => ?_, fun ⟨hi, hj, h⟩ => ?_⟩⟩
  · rcases List.mem_cons.1 h with h | h
    · cases h; exact ⟨by decide, by decide, rfl⟩
    · rcases List.mem_cons.1 h with h | h
      · cases h; exact ⟨by decide, by decide, rfl⟩
      · cases h
  · interval_cases site <;> interval_cases role <;> cases h <;> simp

/-- A write that ends with two records waiting hands its place to the one that closed first; so do the delete
of a QUEUED record and that of a QUEUED note. -/
theorem test_meets_WritesProgramTheRecord_hand_over :
    (let s := tWaiting (tArray .ready (.write 5 (0, 2) 1 false) tReady)
    let s : State := { s with
      store := { s.store with queue := s.store.queue ++ List.replicate 15 ⟨.event, 1, .event
        (eventRecord tReady 0 640 tEvent), false⟩ } }
    Quiet s ∧ s.store.state ≠ .mounting ∧ (findEntry s.store .lockMark 2).isSome = true ∧
      s.survey.place = none ∧
      (match exec .recordWriteDone s with
      | .next t => ((t.store.queue.drop 15).map fun q =>
          match q.content with
          | .interval id r => (id, r.role.code)
          | _ => (9, 9), (nextWaiting t).map (·.2.1))
      | _ => ([], none)) = ([(1, 1)], some 0)) ∧
    (let s := tWaiting (tArray .ready (.erase 63) tReady)
    let after := match exec (.recordDelete 1 5 2) s with
      | .next t => t.store.queue.map (·.kind)
      | _ => []
    Ready s ∧ s.supply.level ≠ .critical ∧ (findEntry s.store .lockMark 2).map (·.state) = some .queued ∧
      writeInFlight s.store .lockMark 2 = false ∧ after = [.interval, .interval]) ∧
    (let s := tWaiting (tNotes tReady)
    let after := match exec (.noteDelete 1 2) s with
      | .next t => t.store.queue.map (·.kind)
      | _ => []
    Ready s ∧ s.store.lockMark < 2 ∧ writeInFlight s.store .note 2 = false ∧
      after = [.note, .interval, .interval]) := by decide +kernel

/-- A job of one TEXT section at the head of the ring. -/
def tJob (phase : Option JobPhase) (f : Print → Print) (s : State) : State :=
  let j : Job := { id := 1, copies := 1, sections := [{ content := .text [0x41] }], phase := phase }
  { s with print := f { s.print with ring := [j] } }

theorem test_meets_PrintEventsMoveTheEngine :
    (let s := tJob (some .running) (fun p => { p with brake := false }) tReady
    Quiet s ∧ s.print.tempClass = .overheat ∧ s.print.temp = none ∧ s.print.lineBusy = false ∧
      s.print.brake = false ∧ s.print.latch = false ∧ s.link.owed = none ∧
      s.print.ring.map (·.phase) = [some .running] ∧ s.print.cache.length < 3 ∧
      s.print.ring.map (fun j => decide (j.fetchCopy ≤ j.copies)) = [true] ∧
      s.print.cache = [] ∧ s.print.buffer = []) ∧
    (let x : DotLine := { marks := .blank }
    let s := tJob (some .cancelling)
      (fun p => { p with
        brake := false, tempClass := .cool, lineBusy := true, inHand := some x, buffer := [x] }) tReady
    Quiet s ∧ s.print.lineBusy = true ∧ s.print.inHand = some x ∧ s.print.buffer = x :: [] ∧
      s.print.ring.map (·.phase) = [some .cancelling] ∧ s.print.tempClass ≠ .overheat ∧
      s.print.done.length < 8) ∧
    (let s := tJob (some .running) (fun p => { p with cache := List.replicate 3 ⟨1, 1, none, 0⟩ }) tReady
    Quiet s ∧ 3 ≤ s.print.cache.length) ∧
    (let s := tJob (some .running) (fun p => { p with cache := [⟨1, 1, none, 0⟩] }) tReady
    Quiet s ∧ s.print.cache.length < 3 ∧ ¬∀ e ∈ s.print.cache, e.snapshot.isSome = true) ∧
    (54 : Int) < 55 ∧ (59 : Int) < 60 ∧ (60 : Int) ≤ 60 ∧ (74 : Int) < 75 ∧ (75 : Int) ≤ 75 ∧
    tReady.print.ring = [] ∧ tReady.print.lineBusy = false := by decide +kernel

/-- A fetch that waits for an erase: item 1 prints EVENT 1, which is LIVE in the array. -/
theorem test_meets_PrintEventsMoveTheEngine_waits :
    let x : JobSection := { content := .eventDetail 1 false, pins := [(.event, 1)] }
    let j : Job :=
      { id := 1, copies := 1, sections := [x], phase := some .running, fetchItem := 1 }
    let s := tArray .reclaiming (.erase 5) tReady
    let s : State := { s with print := { s.print with ring := [j] } }
    Quiet s ∧ s.print.cache = [] ∧ j.fetchCopy ≤ j.copies ∧ j.sections[j.fetchItem - 1]? = some x ∧
      s.store.op = some (.erase 5) ∧ tEntry ∈ recordsRead s.store x ∧ tEntry.state = .live ∧
      (∀ q ∈ s.store.queue, ¬(q.kind = tEntry.kind ∧ q.id = tEntry.id)) ∧
      (match exec .sectionFetch s with
      | .next t => t.print.cache.map fun e => (e.item, e.snapshot.isSome)
      | _ => []) = [(1, false)] := by decide +kernel

/-- The last line of a job that finds the done queue full: the job goes to DONE_WAIT. -/
theorem test_meets_PrintEventsMoveTheEngine_done_wait :
    let x : DotLine := { marks := .blank }
    let j : Job :=
      { id := 1, copies := 1, sections := [{ content := .text [0x41] }], phase := some .running
        fetchCopy := 2, fullyRendered := true }
    let s : State :=
      { tReady with
        print :=
          { tReady.print with
            brake := false, tempClass := .cool, lineBusy := true, inHand := some x, ring := [j]
            done := List.replicate 8 ⟨9, false, {}⟩ } }
    Quiet s ∧ s.print.lineBusy = true ∧ s.print.inHand = some x ∧ s.print.ring = j :: [] ∧
      j.phase = some .running ∧ s.link.owed = none ∧ j.copies < j.fetchCopy ∧
      j.fullyRendered = true ∧ s.print.buffer = [] ∧ 8 ≤ s.print.done.length ∧
      (match exec .dotLineDone s with
      | .next t => t.print.ring.map (·.phase)
      | _ => []) = [some .doneWait] := by decide +kernel

/-- A trace of one cycle that rises at its start boundary, in the dot lines of its EVENT_DETAIL; a note that is
fetched from the write queue; a text of 33 characters at 32 a line. -/
theorem test_meets_PrintEventsMoveTheEngine_lines :
    let c : TraceSet :=
      { slot := 0, serial := 1, pre := 0, cycles := 1
        traces := [⟨.l1, [-32768, 32767] ++ List.replicate 126 0⟩] }
    let straps : Straps := ⟨false, false, false⟩
    let lines := linesOf straps (.eventDetail (some (eventRecord tReady 0 640 tEvent)) true (some c))
    lines.length = 5 * 28 + 96 ∧ c.traces.map (·.samples.length) = [128 * c.cycles] ∧
      lines[140]?.map (·.marks) = some (.trace 0 0 192 true) ∧
      lines[141]?.map (·.marks) = some (.trace 383 383 192 false) ∧
      lines[235]?.map (·.marks) = some (.trace 192 192 192 false) ∧
      (linesOf straps (.text (List.replicate 33 0x41))).length = 2 * 28 ∧
      (findEntry (tNotes tReady).store .note 2).map (fun e =>
        match contentOf (tNotes tReady).store e with
        | .note r => r.id
        | _ => 0) = some 2 := by decide +kernel

/-- R165: job ids wrap, so job 1 can end while a later job 1 is QUEUED, which stays in the ring and becomes
ACTIVE; PRINT_CANCEL of job 1 takes the older of two QUEUED ones. -/
theorem test_one_of_two_jobs_with_one_id_ends :
    let j := fun (copies : Nat) (phase : Option JobPhase) =>
      ({ id := 1, copies := copies, sections := [{ content := .text [0x41] }], phase := phase } : Job)
    let s := fun (ring : List Job) (done : List DoneEntry) =>
      ({ tReady with print := { tReady.print with ring := ring, done := done } } : State)
    let e : DoneEntry := ⟨9, false, {}⟩
    let after := fun (o : Host.Outcome State Fault Refusal) =>
      match o with
      | .next t => (t.print.ring.map fun j => (j.copies, j.phase), t.print.done.length)
      | _ => ([], 0)
    after (exec (.printDoneRead 0) (s [j 1 (some .doneWait), j 2 none] (List.replicate 7 e))) =
        ([(2, some .running)], 7) ∧
      after (exec (.printCancel 0 1) (s [j 1 none, j 2 none] [])) = ([(2, some .running)], 1) := by
  decide +kernel

theorem test_meets_PrintRequestsAnswer :
    let s := tJob none (fun p => p) tReady
    Ready s ∧ Shaped s ∧ s.print.ring.length < 8 ∧ s.print.ring ≠ [] ∧ s.store.state ≠ .mounting ∧
      s.store.state ≠ .wiping ∧ 1 ≤ (1 : Byte).toNat ∧ (3 : Byte).toNat ≤ 3 ∧ ¬(4 : Byte).toNat ≤ 3 ∧
      sectionValid (.feed 8) = true ∧ sectionValid (.feed 7) = false ∧
      namedRecord (.eventDetail 1 false) = some (.event, 1) ∧ findEntry s.store .event 1 = none ∧
      s.print.ring.map (fun j => (j.id, j.phase)) = [((1 : Half).toNat, none)] ∧
      s.print.done.length < 8 := by unfold Shaped; decide +kernel

/-- The ranges of R153 at their ends, and the chain of two notes from root to tail. -/
theorem test_meets_PrintRequestsAnswer_sections :
    ([.text (List.replicate 96 0x20), .text [], .feed 8, .feed 400, .eventList 5 260 3,
        .eventList 5 5 0xFF, .intervalTable 1 [1, 50], .intervalTable 1 (List.replicate 8 1),
        .eventDetail 1 true, .note 1 true, .surveySummary] : List Section).all sectionValid = true ∧
      ([.text (List.replicate 97 0x20), .text [0x1F], .text [0x7F], .feed 7, .feed 401,
        .eventList 5 261 3, .eventList 5 4 3, .eventList 5 5 4, .intervalTable 1 [],
        .intervalTable 1 [0], .intervalTable 1 [51], .intervalTable 1 (List.replicate 9 1),
        .unknown 9 []] : List Section).all (fun x => !sectionValid x) = true ∧
      (let st := (tNotes tReady).store
      (findEntry st .note 1).bind (·.links.amendedBy) = some 2 ∧
        (findEntry st .note 2).bind (·.links.amends) = some 1 ∧
        (findEntry st .note 1).bind (·.links.amends) = none ∧
        (findEntry st .note 2).bind (·.links.amendedBy) = none ∧
        recordsPinned st (.note 2 true) = [(.note, 1), (.note, 2)]) := by decide +kernel

theorem test_meets_PrintRequestsAnswer_in_progress :
    (let s := tJob (some .running) (fun p => { p with latch := true }) tReady
    Ready s ∧ s.print.ring.map (·.phase) = [some .running] ∧ s.print.brake = true ∧
      s.print.latch = true ∧ s.print.paper = true ∧ s.print.lineBusy = false) ∧
    (let s := tJob (some .doneWait)
      (fun p => { p with done := List.replicate 8 ⟨9, false, {}⟩ }) tReady
    Ready s ∧ s.print.done.length = 8 ∧ s.print.ring.map (·.phase) = [some .doneWait]) ∧
    tReady.print.done = [] ∧ tReady.print.latch = false := by decide +kernel

/-- The readings and thresholds at the limits of R170 and the carried values of the table of R171. -/
theorem test_meets_SupplyReadingsAndSettings :
    (let x := ({ tLevel .normal tReady with
      supply := { level := .normal, taken := 3, critIn := 2, lowIn := 2 } } : State)
    Quiet x ∧ Ready x ∧ 1079 < x.supply.critical ∧ ¬1080 < x.supply.critical ∧ 1159 < x.supply.low ∧
      x.supply.critical + 30 ≤ 1110 ∧ ¬x.supply.critical + 30 ≤ 1109 ∧ x.link.owed = none ∧
      x.survey.change = none ∧ x.print.brake = true ∧ x.print.lineBusy = false) ∧
    (tChange .start tReady).survey.change = some .start ∧
    4 < (5 : Byte).toNat ∧ (some (4 : Byte)) = some 4 ∧
    Nat.max 1000 (Nat.min 1350 1300) = 1300 ∧
    Nat.min (Nat.max 900 (Nat.min 1150 1200)) (1160 - 20) = 1140 := by decide

theorem test_meets_ResetsRestoreTheirBlocks :
    (let s := tArray .ready (.write 5 (0, 2) 1 false) tReady
    s.held = false ∧ s.store.op = some (.write 5 (0, 2) 1 false) ∧
      s.store.queue = ⟨.lockMark, 2, .lockMark tLock, false⟩ :: [] ∧ s.store.state ≠ .wiping) ∧
    ({ tReady with held := true } : State).held = true ∧ tReady.store.op = none ∧
    State.reset.held = false ∧ State.reset.store.state = .mounting ∧ State.reset.store.op = none ∧
    (let s := tOwes ⟨true, true, false⟩ tReady
    Quiet s ∧ Shaped s ∧ s.bus.inFrame = false ∧ s.link.owed = some ⟨⟨true, true, false⟩, true⟩) ∧
    tReady.link.queue = [] ∧ tReady.link.owed = none ∧
    (tFrame tReady).bus.inFrame = true := by unfold Shaped; decide

/-- An ACQ reset that closes an event and an accumulator with three windows (R77, R110, R37). -/
theorem test_meets_ResetsRestoreTheirBlocks_records :
    let s := tHarm (newWindow 0 40) (tAccumulator 3) false
      (tSurvey .recording (tClosing true (tPods .ready .voltage tReady)))
    let s : State := tOwes ⟨true, true, false⟩ (tSending
      { s with
        bus := { s.bus with inFrame := false }, sag := { s.sag with lastBoundary := some 576 }
        tracker := { s.tracker with state := .fixed }
        rotation := { state := .normal } :: List.replicate 3 {} })
    Quiet s ∧ Shaped s ∧ s.bus.inFrame = false ∧ s.link.owed = some ⟨⟨true, true, false⟩, true⟩ ∧
      frameEndWork s = s ∧ s.store.queue.length + 1 + 1 ≤ 16 ∧ s.link.sending.isSome = true ∧
      s.link.mask.getLsbD 7 = true ∧ s.link.mask.getLsbD 3 = true ∧ s.link.mask.getLsbD 4 = true ∧
      s.link.notices.length ≤ 19 ∧
      (match exec .acqReset s with
      | .next t => (t.store.queue.map (·.kind), t.link.notices.map (·.body.code),
          (harmMember t 0 0).acc.map fun a => (a.n, a.firstFrame))
      | _ => ([], [], none)) = ([.event, .interval], [7, 8, 3, 4], some (0, 0)) := by
  unfold Shaped; decide +kernel

/-- A brownout that cuts a mark, a copy and a write; an ACQ reset with a FILLING capture slot whose
open event closes at frame 576 with an END segment. -/
theorem test_meets_ResetsRestoreTheirBlocks_cuts :
    (let cutAt := fun (op : ArrayOp) (a : Nat) =>
      match exec .brownout (tArray .ready op tReady) with
      | .next t => Memory.read t.store.array a
      | _ => 0
    cutAt (.mark ⟨(0, 1), .delete⟩) (256 + 32) = 0x00 ∧ cutAt (.copy .event 1 5 (0, 2) 1) 512 = 0xFF ∧
      cutAt (.write 5 (0, 2) 1 false) (512 + 255) = 0x00) ∧
    findEntry (tArray .ready (.copy .event 1 5 (0, 2) 1) tReady).store .event 1 = some tEntry ∧
    extensionField (tArray .ready (.extend (0, 1)) tReady).store (0, 1) ≠ 0 ∧
    (let s := fun (filling : Bool) =>
      let s := tSurvey .recording (tClosing filling (tPods .ready .voltage tReady))
      tOwes ⟨true, true, false⟩
        { s with
          bus := { s.bus with inFrame := false }, sag := { s.sag with lastBoundary := some 576 } }
    let after := fun (s : State) =>
      match exec .acqReset s with
      | .next t => ((captureSlot t 11).state, (captureSlot t 11).eventOpen,
          (captureSlot t 11).segments.map fun g => (g.kind, g.truncated, g.frames.length))
      | _ => (.free, true, [])
    Quiet (s true) ∧ Shaped (s true) ∧ frameEndWork (s true) = s true ∧
      (captureSlot (s true) 11).state = .filling ∧ (captureSlot (s true) 11).site = some 0 ∧
      (sagSite (s true) 0).event.bind (·.capture) = some (11, 9) ∧
      (captureSlot (s true) 0).state ≠ .filling ∧
      after (s true) = (.complete, false, [(.start, true, 128), (.ending, true, 0)])) := by
  unfold Shaped; decide +kernel

/-! ### One step of a few commands -/

/-- Section 11.6 and R178: the status codes, and a BUSY reply to RECORD_READ, tag 7, on the wire. -/
theorem test_status_bytes :
    ([Status.ok, .okClamped, .accepted, .unknownKind, .badLength, .attached, .supply].map (·.code)) =
        [0x00, 0x01, 0x02, 0x10, 0x11, 0x17, 0x1D] ∧
      (Reply.bytes ⟨0x9A, 7, .busy, .empty⟩).map (·.take 6) =
        some [0xA5, 1, 0, 0x9A, 7, 0x14] := by
  decide +kernel

/-- R137 and R179: the reset pin finds a READY store, and its STORE_STATE is the notice being sent. -/
theorem test_hardware_reset_posts_store_state :
    (match exec (.hardwareReset .pin ⟨true, false, false⟩ false) tReady with
    | .next t =>
      match t.link.sending with
      | some (.notice tag lost ⟨.storeState new old _ none waiting, _⟩) =>
        (tag, lost, new, old, waiting, t.link.notices.length)
      | _ => (9, 9, .full, .full, 9, 9)
    | _ => (9, 9, .full, .full, 9, 9)) = (0, 0, .mounting, .ready, 0, 0) := by decide +kernel

/-- R175 and R41: a part at 60 Hz; a clock set to the last second of a day. -/
theorem test_hardware_reset_latches_the_straps :
    (match exec (.hardwareReset .pin ⟨true, false, false⟩ false) tReady with
    | .next t => (t.tracker.f, t.tracker.k, t.link.cause, t.store.state)
    | _ => (0, 0, .power, .full)) = (60000, 2013266, .pin, .mounting) := by decide +kernel

/-- The worked figures of section 3.2: St 950, Ti 950, Pc 6, Wc 10, answered OK_CLAMPED. -/
theorem test_site_set_worked_figures :
    (match exec (.siteSet 1 2 { st := some 980, ti := some 960, pc := some 6, wc := some 14 })
        (tSurvey .setup tReady) with
    | .next t =>
      let x := (siteOf t 2).settings
      (x.st, x.ti, x.pc, x.wc, t.link.sending.map fun
        | .reply r => r.status
        | .notice .. => .busy)
    | _ => (0, 0, 0, 0, none)) = (950, 950, 6, 10, some .okClamped) := by decide +kernel

/-- The table of R171: critical 1,150 with low 1,160 stored becomes 1,140. -/
theorem test_supply_set_table :
    (match exec (.supplySet 1 none (some 1150) none) tReady with
    | .next t => (t.supply.low, t.supply.critical)
    | _ => (0, 0)) = (1160, 1140) := by decide +kernel

/-- R29: a rise straight from -400 to 400 makes a candidate and confirms it in the same frame. -/
theorem test_crossing_confirmed_at_once :
    (Detector.take ⟨.armed, some (1000, -400), 0⟩ 1001 400).2 = some (1000 * 256 + 128) := by decide

/-- R136: an array without a header mounts with its first LOCK_MARK record, mark 0, in block 0. -/
theorem test_mount_of_an_erased_array :
    (match exec .mountComplete State.reset with
    | .next t =>
      (t.store.state, t.store.lockMark, t.store.nextIds.lockMark, t.survey.state,
        Memory.read t.store.array 32)
    | _ => (.full, 9, 9, none, 0)) = (.ready, 0, 2, some .setup, 0x7E) := by decide +kernel

/-- An empty queue: the part idles. -/
theorem test_step_idles_on_an_empty_queue : step State.reset = .next State.reset := rfl
end

