-- ==== Sys2Proof/Proofs/PodRequests.lean ====
section
/-!
PROOFS. The requests of the pod bus (R13, R20, R21): what each answers in its cases, and O17.
-/

namespace Sys2Proof.Machine

theorem isSlot_eq_true {n : Nat} (h1 : 1 ≤ n) (h15 : n ≤ 15) : isSlot n = true := by
  simp [isSlot, h1, h15]

theorem isSlot_eq_false {n : Nat} (h : n < 1 ∨ 15 < n) : isSlot n = false := by
  simp only [isSlot, Bool.and_eq_false_iff, decide_eq_false_iff_not]
  omega

/-! ### The shared checks of POD_STATUS, POD_RETRY and POD_CLEAR -/

/-- A byte that names no slot is refused by all three. -/
theorem podRequests_badValue (slot : Byte) (s : State) (h : isSlot slot.toNat = false) :
    podStatus slot s = refuse .badValue s ∧ podRetry slot s = refuse .badValue s ∧
      podClear slot s = refuse .badValue s := by
  simp [podStatus, podRetry, podClear, h]

/-- A slot whose join is under way is BUSY to all three (R13). -/
theorem podRequests_busy (slot : Byte) (s : State) (h : isSlot slot.toNat = true)
    (hj : (entryOf s slot.toNat).state = .joining) :
    podStatus slot s = refuse .busy s ∧ podRetry slot s = refuse .busy s ∧
      podClear slot s = refuse .busy s := by
  simp [podStatus, podRetry, podClear, h, hj]

/-! ### Each request past the checks -/

theorem podStatus_ok (slot : Byte) (s : State) (h : isSlot slot.toNat = true)
    (hj : (entryOf s slot.toNat).state ≠ .joining) :
    podStatus slot s = answer .ok (.entry (entryOf s slot.toNat)) s := by
  simp [podStatus, h, hj]

theorem podClear_ok (slot : Byte) (s : State) (h : isSlot slot.toNat = true)
    (hj : (entryOf s slot.toNat).state ≠ .joining) :
    podClear slot s = answer .ok .empty (modifyEntry clearSticky slot.toNat s) := by
  simp [podClear, h, hj]

/-- Only a FAULT slot is retried; its entry keeps identity, flags and counts (R20). -/
theorem podRetry_of_not_joining (slot : Byte) (s : State) (h : isSlot slot.toNat = true)
    (hj : (entryOf s slot.toNat).state ≠ .joining) :
    podRetry slot s =
      if (entryOf s slot.toNat).state = .fault then
        answer .ok .empty
          (modifyEntry (fun e => { e with state := .absent, cause := none }) slot.toNat s)
      else refuse .wrongState s := by
  cases hs : (entryOf s slot.toNat).state with
  | joining => exact absurd hs hj
  | fault => simp [podRetry, h, hs]
  | absent => simp [podRetry, h, hs]
  | ready => simp [podRetry, h, hs]

/-! ### A request in progress and the roster -/

@[simp] theorem entryOf_waiting (kind : Nat) (tag : Byte) (s : State) (slot : Nat) :
    entryOf (waiting kind tag s) slot = entryOf s slot := rfl

theorem modifyEntry_waiting (f : RosterEntry → RosterEntry) (slot kind : Nat) (tag : Byte)
    (s : State) :
    modifyEntry f slot (waiting kind tag s) = waiting kind tag (modifyEntry f slot s) := rfl

theorem refuse_waiting (kind : Nat) (tag : Byte) (st : Status) (s : State)
    (h : s.link.current = none) :
    refuse st (waiting kind tag s) = replied (replyKind kind) tag st .empty s :=
  answer_waiting kind tag st .empty s h

/-- The answer to a request that has changed a roster entry. -/
theorem answer_modifyEntry_waiting (f : RosterEntry → RosterEntry) (slot kind : Nat) (tag : Byte)
    (st : Status) (b : ReplyBody) (s : State) (h : s.link.current = none) :
    answer st b (modifyEntry f slot (waiting kind tag s)) =
      replied (replyKind kind) tag st b (modifyEntry f slot s) := by
  rw [modifyEntry_waiting, answer_waiting _ _ _ _ (modifyEntry f slot s) h]

/-! ### The four requests on a free link -/

theorem exec_podRoster (tag : Byte) (s : State) (h : Ready s) :
    exec (.podRoster tag) s = .next (podRoster (waiting 0x01 tag s)) :=
  request_ready tag .podRoster s h

theorem exec_podStatus (tag slot : Byte) (s : State) (h : Ready s) :
    exec (.podStatus tag slot) s = .next (podStatus slot (waiting 0x02 tag s)) :=
  request_ready tag (.podStatus slot) s h

theorem exec_podRetry (tag slot : Byte) (s : State) (h : Ready s) :
    exec (.podRetry tag slot) s = .next (podRetry slot (waiting 0x03 tag s)) :=
  request_ready tag (.podRetry slot) s h

theorem exec_podClear (tag slot : Byte) (s : State) (h : Ready s) :
    exec (.podClear tag slot) s = .next (podClear slot (waiting 0x04 tag s)) :=
  request_ready tag (.podClear slot) s h

/-- Where each of the three refuses with the same status whatever request is in progress, each replies
with that status and nothing else moves. -/
theorem exec_podRequests_refused (tag slot : Byte) (status : Status) (s : State) (h : Ready s)
    (hr : ∀ kind, let u := waiting kind tag s
      podStatus slot u = refuse status u ∧ podRetry slot u = refuse status u ∧
        podClear slot u = refuse status u) :
    exec (.podStatus tag slot) s = .next (replied 0x82 tag status .empty s) ∧
      exec (.podRetry tag slot) s = .next (replied 0x83 tag status .empty s) ∧
      exec (.podClear tag slot) s = .next (replied 0x84 tag status .empty s) := by
  have ⟨_, hc, _, _⟩ := h
  obtain ⟨hStatus, _, _⟩ := hr 0x02
  obtain ⟨_, hRetry, _⟩ := hr 0x03
  obtain ⟨_, _, hClear⟩ := hr 0x04
  rw [exec_podStatus _ _ _ h, exec_podRetry _ _ _ h, exec_podClear _ _ _ h, hStatus, hRetry, hClear]
  simp only [refuse_waiting _ _ _ _ hc]
  exact ⟨rfl, rfl, rfl⟩

theorem exec_podRoster_replied (tag : Byte) (s : State) (h : Ready s) :
    exec (.podRoster tag) s =
      .next (replied 0x81 tag .ok (.roster (s.roster.map rosterLine) s.bus.mask s.bus.frame) s) := by
  have ⟨_, hc, _, _⟩ := h
  rw [exec_podRoster _ _ h, podRoster, answer_waiting _ _ _ _ _ hc]
  rfl

theorem exec_podStatus_replied (tag slot : Byte) (s : State) (h : Ready s)
    (hs : isSlot slot.toNat = true) (hj : (entryOf s slot.toNat).state ≠ .joining) :
    exec (.podStatus tag slot) s =
      .next (replied 0x82 tag .ok (.entry (entryOf s slot.toNat)) s) := by
  have ⟨_, hc, _, _⟩ := h
  rw [exec_podStatus _ _ _ h, podStatus_ok _ (waiting 0x02 tag s) hs hj,
    answer_waiting _ _ _ _ _ hc, entryOf_waiting]
  rfl

theorem exec_podRetry_replied (tag slot : Byte) (s : State) (h : Ready s)
    (hs : isSlot slot.toNat = true) (hj : (entryOf s slot.toNat).state ≠ .joining) :
    exec (.podRetry tag slot) s =
      .next (if (entryOf s slot.toNat).state = .fault then
          replied 0x83 tag .ok .empty
            (modifyEntry (fun e => { e with state := .absent, cause := none }) slot.toNat s)
        else replied 0x83 tag .wrongState .empty s) := by
  have ⟨_, hc, _, _⟩ := h
  rw [exec_podRetry _ _ _ h, podRetry_of_not_joining _ (waiting 0x03 tag s) hs hj,
    refuse_waiting _ _ _ _ hc, answer_modifyEntry_waiting _ _ _ _ _ _ _ hc, entryOf_waiting]
  rfl

theorem exec_podClear_replied (tag slot : Byte) (s : State) (h : Ready s)
    (hs : isSlot slot.toNat = true) (hj : (entryOf s slot.toNat).state ≠ .joining) :
    exec (.podClear tag slot) s =
      .next (replied 0x84 tag .ok .empty (modifyEntry clearSticky slot.toNat s)) := by
  have ⟨_, hc, _, _⟩ := h
  rw [exec_podClear _ _ _ h, podClear_ok _ (waiting 0x04 tag s) hs hj,
    answer_modifyEntry_waiting _ _ _ _ _ _ _ hc]
  rfl

/-- Settles O17: the cases of the slot byte and of its entry's state are those of the shared checks. -/
theorem podRequestsAnswer : Obligations.PodRequestsAnswer := by
  unfold Obligations.PodRequestsAnswer
  intro tag slot s h
  refine ⟨exec_podRoster_replied tag s h, ?noSlot, ?joining, ?free⟩
  case noSlot =>
    intro hn
    exact exec_podRequests_refused tag slot .badValue s h fun _ =>
      podRequests_badValue slot _ (isSlot_eq_false hn)
  case joining =>
    intro h1 h15 hj
    exact exec_podRequests_refused tag slot .busy s h fun _ =>
      podRequests_busy slot _ (isSlot_eq_true h1 h15) hj
  case free =>
    intro h1 h15 hj
    have hs := isSlot_eq_true h1 h15
    exact ⟨exec_podStatus_replied tag slot s h hs hj, exec_podRetry_replied tag slot s h hs hj,
      exec_podClear_replied tag slot s h hs hj⟩

end Sys2Proof.Machine
end

