-- ==== Sys2Proof/Proofs/SurveyRequests.lean ====
section
/-!
PROOFS. The requests of the survey's chapter while the store mounts, SURVEY_STATUS (R58), and O35.
-/

namespace Sys2Proof.Machine

/-! ### While the store is mounting -/

theorem unlessMounting_of_mounting (f : State → State) (s : State) (hm : s.store.state = .mounting) :
    unlessMounting f s = refuse .busy s := by
  rw [unlessMounting, if_pos hm]

theorem unlessMounting_of_not_mounting (f : State → State) (s : State)
    (hm : s.store.state ≠ .mounting) : unlessMounting f s = f s := by
  rw [unlessMounting, if_neg hm]

/-- A request whose rule is guarded by R58, on a free link while the store is mounting: the BUSY reply
and no other effect. -/
theorem request_busy_of_mounting (tag : Byte) (r : Request) {f : State → State} (s : State)
    (h : Ready s) (hm : s.store.state = .mounting) (guarded : serve r = unlessMounting f) :
    running (arrive tag r) s =
      .next (replied (replyKind (requestCode r)) tag .busy .empty s) := by
  have ⟨_, hc, _, _⟩ := h
  rw [request_ready tag r s h, guarded,
    unlessMounting_of_mounting f (waiting (requestCode r) tag s) hm, refuse_waiting _ _ _ _ hc]

/-! ### SURVEY_STATUS -/

/-- The site line of SURVEY_STATUS: enabled, the assigned members, and those of them that are active. -/
theorem siteCounts_eq (e : Site) :
    siteCounts e = (e.settings.enabled, (e.members.filter (·.isSome)).length,
      (e.members.filter fun m => m.any (·.active)).length) := by
  have active : (fun m : Option Member => (m.map (·.active)).getD false) =
      fun m => m.any (·.active) := by
    funext m
    cases m with
    | none => rfl
    | some m => rfl
  rw [siteCounts, active]

theorem surveyStatus_of_not_mounting (s : State) (hm : s.store.state ≠ .mounting) :
    surveyStatus s = answer .ok
      (.surveyStatus s.survey.state s.survey.cause s.survey.number s.survey.first s.survey.runStart
        (s.survey.change == some .stopSupply) s.survey.place.isSome s.clock.time s.clock.valid
        (s.sites.map siteCounts)) s :=
  unlessMounting_of_not_mounting _ s hm

theorem exec_surveyStatus_replied (tag : Byte) (s : State) (h : Ready s)
    (hm : s.store.state ≠ .mounting) :
    exec (.surveyStatus tag) s =
      .next (replied 0x91 tag .ok
        (.surveyStatus s.survey.state s.survey.cause s.survey.number s.survey.first
          s.survey.runStart (s.survey.change == some .stopSupply) s.survey.place.isSome
          s.clock.time s.clock.valid (s.sites.map siteCounts)) s) := by
  have ⟨_, hc, _, _⟩ := h
  have served : exec (.surveyStatus tag) s = .next (surveyStatus (waiting 0x11 tag s)) :=
    request_ready tag .surveyStatus s h
  rw [served, surveyStatus_of_not_mounting (waiting 0x11 tag s) hm, answer_waiting _ _ _ _ _ hc]
  rfl

/-! ### O35 -/

/-- Settles O35: each of the ten rules is guarded by R58, and past its guard SURVEY_STATUS answers. -/
theorem mountingAnswersBusy : Obligations.MountingAnswersBusy := by
  unfold Obligations.MountingAnswersBusy
  intro tag slot site role sec ms c s h
  refine ⟨fun hm => ?mounting, fun hm => ?mounted⟩
  case mounting =>
    exact
      ⟨request_busy_of_mounting tag (.clockSet sec ms) s h hm rfl,
        request_busy_of_mounting tag (.siteSet site c) s h hm rfl,
        request_busy_of_mounting tag (.siteGet site) s h hm rfl,
        request_busy_of_mounting tag (.assign slot site role) s h hm rfl,
        request_busy_of_mounting tag .surveyStart s h hm rfl,
        request_busy_of_mounting tag .surveyHold s h hm rfl,
        request_busy_of_mounting tag .surveyResume s h hm rfl,
        request_busy_of_mounting tag .surveyEnd s h hm rfl,
        request_busy_of_mounting tag .surveyNew s h hm rfl,
        request_busy_of_mounting tag .surveyStatus s h hm rfl⟩
  case mounted =>
    rw [exec_surveyStatus_replied tag s h hm, funext siteCounts_eq]

end Sys2Proof.Machine
end

