-- ==== Sys2Proof/Proofs/SagValues.lean ====
section
/-!
PROOFS. The value of a channel at a half-cycle boundary (R60 to R62): what its figures are, when it has
one, and O43.
-/

namespace Sys2Proof.Machine

/-! ### The figures of a window -/

/-- The model sums natural squares; they are the squares of the signed samples. -/
theorem sumsq_cast (w : List Sample) :
    (sumsq w : Int) = (w.map fun x => x.value * x.value).sum := by
  induction w with
  | nil => rfl
  | cons x xs ih =>
    have hc : sumsq (x :: xs) = x.value.natAbs * x.value.natAbs + sumsq xs := rfl
    rw [hc, Nat.cast_add, Int.natAbs_mul_self, ih, List.map_cons, List.sum_cons]

/-- R60: `rmsOf` is the largest n with 128 n² at most the sum; dividing by 128 before the root loses
nothing, as n² is an integer. -/
theorem rmsOf_spec (sum : Nat) :
    128 * rmsOf sum ^ 2 ≤ sum ∧ sum < 128 * (rmsOf sum + 1) ^ 2 := by
  obtain ⟨lower, upper⟩ := isqrt_spec (sum / 128)
  rw [← pow_two] at lower upper
  unfold rmsOf
  omega

/-- R61: the quotient by 32,768, rounded half up (the product is not negative). -/
theorem voltageOf_spec (rms fullScale : Nat) :
    65536 * voltageOf rms fullScale ≤ 2 * (rms * fullScale * 100) + 32768 ∧
      2 * (rms * fullScale * 100) + 32768 < 65536 * (voltageOf rms fullScale + 1) :=
  ⟨Nat.mul_div_le _ _, Nat.lt_mul_div_succ _ (by decide)⟩

/-! ### Where a channel has a value -/

/-- R60: the channel of member `m` is judged at a boundary. -/
def Judged (s : State) (site role : Nat) (m : Member) : Prop :=
  s.survey.state = some .recording ∧ (siteOf s site).settings.enabled = true ∧
    m.active = true ∧ (channelOf s site role).window.length = 128

theorem channelValue_of_no_member (s : State) (site role : Nat) (h : memberOf s site role = none) :
    channelValue s site role = none := by
  simp only [channelValue, h]

/-- The test that `channelValue` makes is `Judged`. -/
theorem judged_iff (s : State) (site role : Nat) (m : Member) :
    Judged s site role m ↔
      (recording s && (siteOf s site).settings.enabled && m.active &&
        (channelOf s site role).window.length == 128) = true := by
  simp only [Judged, recording, Bool.and_eq_true, beq_iff_eq, and_assoc]

theorem channelValue_of_judged (s : State) (site role : Nat) (m : Member) (identity : Identity)
    (h : memberOf s site role = some m) (hi : (entryOf s m.slot).identity = some identity)
    (hj : Judged s site role m) :
    channelValue s site role =
      some (valueOf (channelOf s site role).window identity.fullScale
        (siteOf s site).settings.udin) := by
  simp only [channelValue, h, hi, if_pos ((judged_iff s site role m).1 hj), Option.map_some,
    Option.getD_some]

theorem channelValue_of_not_judged (s : State) (site role : Nat) (m : Member)
    (h : memberOf s site role = some m) (hj : ¬Judged s site role m) :
    channelValue s site role = none := by
  simp only [channelValue, h, if_neg (mt (judged_iff s site role m).2 hj)]

/-! ### O43 -/

/-- Settles O43: a judged channel has the figures of its window, and no other channel has a value. -/
theorem sagFiguresAreExact : Obligations.SagFiguresAreExact := by
  unfold Obligations.SagFiguresAreExact
  refine ⟨fun site role s => channelValue_of_no_member s site role, ?member⟩
  case member =>
    intro site role m identity s hm hi w judged total
    refine ⟨fun hj => ?figures, channelValue_of_not_judged s site role m hm⟩
    case figures =>
      have hsum : (sumsq w : Int) = total := sumsq_cast w
      obtain ⟨lower, upper⟩ := rmsOf_spec (sumsq w)
      obtain ⟨voltageLower, voltageUpper⟩ := voltageOf_spec (rmsOf (sumsq w)) identity.fullScale
      refine ⟨rmsOf (sumsq w), _, channelValue_of_judged s site role m identity hm hi hj, ?rmsLower,
        ?rmsUpper, voltageLower, voltageUpper, Nat.min_comm _ _, List.any_eq_true, List.any_eq_true⟩
      case rmsLower => rw [← hsum]; exact_mod_cast lower
      case rmsUpper => rw [← hsum]; exact_mod_cast upper

end Sys2Proof.Machine
end

