-- ==== Sys2Proof/Proofs/Commands.lean ====
section
/-!
PROOFS. The commands by their form: the events, the requests, the clock and the resets. What every command
but a reset may do to the state (`Effects`), and O1, O2 and O3.
-/

namespace Sys2Proof.Machine

/-! ### The form of a command -/

/-- The effect of an event of the part: a running part takes it and then, where the link has become free,
the oldest waiting frame. -/
def eventEffect : Instr → Option (State → State)
  | .frameStart => some frameStart
  | .frameEnd words => some (frameEnd words)
  | .podLost slot => some (podLost slot)
  | .podStuck slot => some (podStuck slot)
  | .noCrossingTimeout => some noCrossingTimeout
  | .windowComplete site role => some (windowComplete site role)
  | .halfCycleBoundary => some halfCycleBoundary
  | .captureComplete slot => some (captureComplete slot)
  | .startBoundary => some startBoundary
  | .stopBoundary => some stopBoundary
  | .intervalBoundary site => some (siteBoundary site)
  | .acqReset => some acqReset
  | .printReset => some printReset
  | .noticeReset => some noticeReset
  | .supplyReading input => some (supplyReading input)
  | .headTemperatureReading celsius => some (headTemperature celsius)
  | .dotLineDone => some dotLineDone
  | .sectionFetch => some sectionFetch
  | .recordWriteDone => some recordWriteDone
  | .relocationCopyDone => some relocationCopyDone
  | .deadMarkDone => some deadMarkDone
  | .sectorEraseDone => some eraseDone
  | .extensionStepDone => some extensionStepDone
  | .mountComplete => some mountComplete
  | .wipeComplete => some wipeComplete
  | .linkByteReceived byte stopBit => some (receiveByte byte stopBit)
  | .interbyteTimeout => some interbyteTimeout
  | .unknownKind kind tag => some (offerFrame ⟨kind.toNat, tag, []⟩)
  | .transmitDone => some transmitDone
  | _ => none

/-- The effect of a command of the clock, which runs on in a held part. -/
def clockEffect : Instr → Option (State → State)
  | .clockMidnight => some takeMidnight
  | .clockWrap => some clockWrap
  | .clockTick => some clockTick
  | _ => none

theorem exec_event {c : Instr} {f : State → State} (h : eventEffect c = some f) : exec c = event f := by
  cases c <;> cases h <;> rfl

theorem exec_clock {c : Instr} {f : State → State} (h : clockEffect c = some f) :
    exec c = fun s => .next (f s) := by
  cases c <;> cases h <;> rfl

theorem exec_command (r : Request) (tag : Byte) : exec (r.command tag) = running (arrive tag r) := by
  cases r <;> rfl

/-- Every command has one of these forms. -/
inductive Form : Instr → Prop
  | event {c f} (h : eventEffect c = some f) : Form c
  | clock {c f} (h : clockEffect c = some f) : Form c
  | request (tag : Byte) (r : Request) : Form (r.command tag)
  | paper (present : Bool) : Form (.paperSensorChange present)
  | brownout : Form .brownout
  | hardwareReset (source : ResetSource) (straps : Straps) (backup : Bool) :
    Form (.hardwareReset source straps backup)

theorem form (c : Instr) : Form c := by
  cases c with
  | hardwareReset source straps backup => exact .hardwareReset source straps backup
  | brownout => exact .brownout
  | paperSensorChange present => exact .paper present
  | clockMidnight => exact .clock rfl
  | clockWrap => exact .clock rfl
  | clockTick => exact .clock rfl
  | frameStart => exact .event rfl
  | frameEnd words => exact .event rfl
  | podLost slot => exact .event rfl
  | podStuck slot => exact .event rfl
  | noCrossingTimeout => exact .event rfl
  | windowComplete site role => exact .event rfl
  | halfCycleBoundary => exact .event rfl
  | captureComplete slot => exact .event rfl
  | startBoundary => exact .event rfl
  | stopBoundary => exact .event rfl
  | intervalBoundary site => exact .event rfl
  | acqReset => exact .event rfl
  | printReset => exact .event rfl
  | noticeReset => exact .event rfl
  | supplyReading input => exact .event rfl
  | headTemperatureReading celsius => exact .event rfl
  | dotLineDone => exact .event rfl
  | sectionFetch => exact .event rfl
  | recordWriteDone => exact .event rfl
  | relocationCopyDone => exact .event rfl
  | deadMarkDone => exact .event rfl
  | sectorEraseDone => exact .event rfl
  | extensionStepDone => exact .event rfl
  | mountComplete => exact .event rfl
  | wipeComplete => exact .event rfl
  | linkByteReceived byte stopBit => exact .event rfl
  | interbyteTimeout => exact .event rfl
  | unknownKind kind tag => exact .event rfl
  | transmitDone => exact .event rfl
  | podRoster tag => exact .request tag .podRoster
  | podStatus tag slot => exact .request tag (.podStatus slot)
  | podRetry tag slot => exact .request tag (.podRetry slot)
  | podClear tag slot => exact .request tag (.podClear slot)
  | trackRef tag slot => exact .request tag (.trackRef slot)
  | trackFixed tag freq => exact .request tag (.trackFixed freq)
  | trackStatus tag clear => exact .request tag (.trackStatus clear)
  | clockSet tag sec ms => exact .request tag (.clockSet sec ms)
  | siteSet tag site carried => exact .request tag (.siteSet site carried)
  | siteGet tag site => exact .request tag (.siteGet site)
  | assign tag slot site role => exact .request tag (.assign slot site role)
  | surveyStart tag => exact .request tag .surveyStart
  | surveyHold tag => exact .request tag .surveyHold
  | surveyResume tag => exact .request tag .surveyResume
  | surveyEnd tag => exact .request tag .surveyEnd
  | surveyNew tag => exact .request tag .surveyNew
  | surveyStatus tag => exact .request tag .surveyStatus
  | sagStatus tag site => exact .request tag (.sagStatus site)
  | captureList tag => exact .request tag .captureList
  | captureRead tag slot segment member first cycles =>
    exact .request tag (.captureRead slot segment member first cycles)
  | captureRelease tag slot serial => exact .request tag (.captureRelease slot serial)
  | harmonicStatus tag site => exact .request tag (.harmonicStatus site)
  | storeStatus tag => exact .request tag .storeStatus
  | storeMode tag mode => exact .request tag (.storeMode mode)
  | recordList tag kind fromId count => exact .request tag (.recordList kind fromId count)
  | recordRead tag kind id => exact .request tag (.recordRead kind id)
  | recordDelete tag kind id => exact .request tag (.recordDelete kind id)
  | storeWipe tag => exact .request tag .storeWipe
  | noteAdd tag site kind id crew text => exact .request tag (.noteAdd site kind id crew text)
  | noteAmend tag id crew text => exact .request tag (.noteAmend id crew text)
  | noteAttach tag id kind target => exact .request tag (.noteAttach id kind target)
  | noteDelete tag id => exact .request tag (.noteDelete id)
  | noteLock tag upto => exact .request tag (.noteLock upto)
  | noteList tag fromId count => exact .request tag (.noteList fromId count)
  | printSubmit tag copies sections => exact .request tag (.printSubmit copies sections)
  | printCancel tag job => exact .request tag (.printCancel job)
  | printResume tag => exact .request tag .printResume
  | printDoneRead tag => exact .request tag .printDoneRead
  | printStatus tag => exact .request tag .printStatus
  | supplySet tag low critical schedule => exact .request tag (.supplySet low critical schedule)
  | supplyStatus tag clear => exact .request tag (.supplyStatus clear)
  | noticeMask tag mask => exact .request tag (.noticeMask mask)
  | reset tag domains => exact .request tag (.reset domains)
  | identify tag => exact .request tag .identify

/-! ### What a command may do -/

/-- Some part of State may change. -/
abbrev anyPart : Part → Prop := fun _ => True

/-- A change of the link keeps the bounds of its two queues (R177, R180). -/
structure LinkBounds (l m : Link) : Prop where
  queue : l.queue.length ≤ Config.receivePlaces → m.queue.length ≤ Config.receivePlaces
  notices : l.notices.length ≤ Config.noticePlaces → m.notices.length ≤ Config.noticePlaces

/-- What a command other than a reset of the part may do: moves of the blocks, and changes of the link
within its bounds. -/
inductive Effects : State → State → Prop where
  | moves {s t : State} (h : Moves anyPart s t) : Effects s t
  | link (f : Link → Link) (s : State) (h : LinkBounds s.link (f s.link)) : Effects s (setLink f s)
  | trans {s t u : State} (h : Effects s t) (k : Effects t u) : Effects s u

namespace Effects

variable {s t u : State}

theorem refl (s : State) : Effects s s := .moves (.refl s)

theorem ite {c : Prop} [Decidable c] (h : Effects s t) (k : Effects s u) :
    Effects s (if c then t else u) := by
  split <;> assumption

/-- A change of the link that moves neither queue. -/
theorem link_same (f : Link → Link) (s : State) (hq : (f s.link).queue = s.link.queue)
    (hn : (f s.link).notices = s.link.notices) : Effects s (setLink f s) :=
  .link f s ⟨fun h => by rwa [hq], fun h => by rwa [hn]⟩

theorem pending_eq (h : Effects s t) : t.pending = s.pending := by
  induction h with
  | moves h => exact h.pending_eq
  | link f s => rfl
  | trans _ _ h k => exact k.trans h

theorem straps_eq (h : Effects s t) : t.straps = s.straps := by
  induction h with
  | moves h => exact h.straps_eq
  | link f s => rfl
  | trans _ _ h k => exact k.trans h

theorem canonical (h : Effects s t) (k : CanonicalStore s) : CanonicalStore t := by
  induction h with
  | moves h => exact h.canonical k
  | link f s => exact k
  | trans _ _ h g => exact g (h k)

theorem frequencySound (h : Effects s t) (k : FrequencySound s) : FrequencySound t := by
  induction h with
  | moves h => exact h.freqOk k
  | link f s => exact k
  | trans _ _ h g => exact g (h k)

theorem shaped (h : Effects s t) (k : Shaped s) : Shaped t := by
  induction h with
  | moves h => exact h.shaped k
  | link f s => exact k
  | trans _ _ h g => exact g (h k)

theorem linkBounds (h : Effects s t) : LinkBounds s.link t.link := by
  induction h with
  | moves h => exact ⟨fun k => by rwa [h.queue_eq], h.link_kept.bounded⟩
  | link f s h => exact h
  | trans _ _ h g => exact ⟨fun k => g.queue (h.queue k), fun k => g.notices (h.notices k)⟩

theorem linkBounded (h : Effects s t) (k : LinkBounded s) : LinkBounded t := by
  obtain ⟨hq, hn⟩ := k
  exact ⟨h.linkBounds.queue hq, h.linkBounds.notices hn⟩

end Effects

/-! ### The effects of the link's operations -/

theorem linkReset_eq (d : Byte) (s : State) :
    linkReset d s = setLink (fun _ => (linkReset d s).link) s := by
  unfold linkReset
  split <;> rfl

theorem noticeMask_eq (m : Half) (s : State) :
    noticeMask m s = setLink (fun _ => (noticeMask m s).link) s := by
  unfold noticeMask
  split <;> rfl

theorem linkBounds_of_served {l m : Link} (h : m.rx = l.rx ∧ m.queue = l.queue ∧
    (l.notices.length ≤ Config.noticePlaces → m.notices.length ≤ Config.noticePlaces)) :
    LinkBounds l m := by
  obtain ⟨_, hq, hn⟩ := h
  exact ⟨fun k => by rwa [hq], hn⟩

theorem serve_effects (r : Request) (s : State) : Effects s (serve r s) := by
  by_cases hr : ∃ d, r = .reset d
  · obtain ⟨d, rfl⟩ := hr
    have h := Effects.link (fun _ => (linkReset d s).link) s (linkBounds_of_served (linkReset_link d s))
    rwa [← linkReset_eq] at h
  · by_cases hm : ∃ m, r = .noticeMask m
    · obtain ⟨m, rfl⟩ := hm
      have h :=
        Effects.link (fun _ => (noticeMask m s).link) s (linkBounds_of_served (noticeMask_link m s))
      rwa [← noticeMask_eq] at h
    · exact .moves (serve_moves r s (fun d h => hr ⟨d, h⟩) (fun m h => hm ⟨m, h⟩) trivial trivial
        trivial trivial trivial trivial trivial trivial trivial trivial trivial trivial trivial)

theorem waiting_effects (kind : Nat) (tag : Byte) (s : State) : Effects s (waiting kind tag s) :=
  .link_same (fun l => { l with current := some ⟨kind, tag, false⟩ }) s rfl rfl

theorem takeFrame_effects (f : Frame) (s : State) : Effects s (takeFrame f s) := by
  obtain ⟨r, h⟩ | ⟨st, h⟩ := takeFrame_cases f s
  · rw [h]; exact (waiting_effects _ _ _).trans (serve_effects _ _)
  · rw [h]; exact (waiting_effects _ _ _).trans (.moves (refuse_moves _ _))

theorem pumpFrom_effects (fuel : Nat) (s : State) : Effects s (pumpFrom fuel s) := by
  refine pumpFrom_keeps (Effects s) (fun u f rest hq hu => hu.trans ?_) fuel s (.refl s)
  refine .trans (.link _ u ⟨fun h => ?_, id⟩) (takeFrame_effects f _)
  have : rest.length + 1 ≤ Config.receivePlaces := by rwa [hq] at h
  exact Nat.le_of_succ_le this

theorem pump_effects (s : State) : Effects s (pump s) := pumpFrom_effects _ s

theorem offerFrame_effects (f : Frame) (s : State) : Effects s (offerFrame f s) := by
  unfold offerFrame
  split
  · next h =>
    refine .trans (.link _ s ⟨fun _ => ?_, id⟩) (pump_effects _)
    rw [List.length_append]
    exact h
  · exact .link_same _ s rfl rfl

theorem arrive_effects (tag : Byte) (r : Request) (s : State) : Effects s (arrive tag r s) :=
  .ite (((waiting_effects _ _ _).trans (serve_effects _ _)).trans (pump_effects _))
    (offerFrame_effects _ _)

theorem framingFault_effects (s : State) : Effects s (framingFault s) := .link_same _ s rfl rfl

theorem checkFrame_effects (length kind tag : Nat) (b : List Byte) (s : State) :
    Effects s (checkFrame length kind tag b s) :=
  .ite (.trans (.link_same _ s rfl rfl) (offerFrame_effects _ _))
    (.trans (.link_same _ s rfl rfl) (.link_same _ _ rfl rfl))

theorem goodByte_effects (b : Byte) (s : State) : Effects s (goodByte b s) := by
  unfold goodByte
  split
  · exact .ite (.link_same _ s rfl rfl) (.refl s)
  · exact .ite (.link_same _ s rfl rfl) (.ite (framingFault_effects s) (.link_same _ s rfl rfl))
  · exact .ite (.link_same _ s rfl rfl) (checkFrame_effects _ _ _ _ _)

theorem receiveByte_effects (b : Byte) (stopBit : Bool) (s : State) :
    Effects s (receiveByte b stopBit s) :=
  .ite (goodByte_effects b s) (.ite (framingFault_effects s) (.refl s))

theorem linkTransmitDone_bounds (l : Link) : LinkBounds l l.transmitDone := by
  unfold Link.transmitDone
  split
  · exact ⟨id, id⟩
  · next f _ =>
    have k := startTransmit_kept { l with sending := none, owed := l.owed.map fun o =>
      { o with replySent := o.replySent || resetReplied f l } }
    exact ⟨fun h => by rw [k.queue]; exact h, k.bounded⟩

/-! ### The effects of the commands -/

theorem event_effects {c : Instr} {f : State → State} (h : eventEffect c = some f) (s : State) :
    Effects s (f s) := by
  have any : True := trivial
  cases c <;> cases h
  case frameStart => exact .moves (frameStart_moves s)
  case frameEnd words => exact .moves (frameEnd_moves words s)
  case podLost slot => exact .moves (podLost_moves slot s)
  case podStuck slot => exact .moves (podStuck_moves slot s)
  case noCrossingTimeout => exact .moves (noCrossingTimeout_moves s)
  case windowComplete site role => exact .moves (windowComplete_moves site role s)
  case halfCycleBoundary => exact .moves (halfCycleBoundary_moves s)
  case captureComplete slot => exact .moves (captureComplete_moves slot s)
  case startBoundary => exact .moves (startBoundary_moves s)
  case stopBoundary => exact .moves (stopBoundary_moves s)
  case intervalBoundary site => exact .moves (siteBoundary_moves site s)
  case acqReset => exact .moves (acqReset_moves s)
  case printReset => exact .moves (printReset_moves s)
  case noticeReset => exact .moves (.notice s)
  case supplyReading input => exact .moves (supplyReading_moves input s)
  case headTemperatureReading celsius => exact .moves (headTemperature_moves celsius s)
  case dotLineDone => exact .moves (dotLineDone_moves s)
  case sectionFetch => exact .moves (sectionFetch_moves s)
  case recordWriteDone => exact .moves (recordWriteDone_moves s)
  case relocationCopyDone => exact .moves (relocationCopyDone_moves s)
  case deadMarkDone => exact .moves (deadMarkDone_moves s)
  case sectorEraseDone => exact .moves (eraseDone_moves s)
  case extensionStepDone => exact .moves (extensionStepDone_moves s)
  case mountComplete => exact .moves (mountComplete_moves s)
  case wipeComplete => exact .moves (wipeComplete_moves s)
  case linkByteReceived byte stopBit => exact receiveByte_effects byte stopBit s
  case interbyteTimeout => exact .ite (framingFault_effects s) (.refl s)
  case unknownKind kind tag => exact offerFrame_effects _ s
  case transmitDone => exact .link _ s (linkTransmitDone_bounds s.link)

theorem clock_moves {c : Instr} {f : State → State} (h : clockEffect c = some f) (s : State) :
    Moves anyPart s (f s) := by
  have any : True := trivial
  cases c <;> cases h
  case clockMidnight => exact takeMidnight_moves s
  case clockWrap => exact clockWrap_moves s
  case clockTick => exact clockTick_moves s

/-- A running command ends in its effect, and one on a held part in the state as it stands. -/
theorem running_next (f : State → State) (s : State) :
    running f s = .next (if s.held then s else f s) := by
  unfold running
  split <;> rfl

theorem event_next (f : State → State) (s : State) :
    event f s = .next (if s.held then s else pump (f s)) := running_next _ s

/-- What every command but BROWNOUT and HARDWARE_RESET does. -/
theorem exec_effects (c : Instr) (s : State) (hb : c ≠ .brownout)
    (hr : ∀ source straps backup, c ≠ .hardwareReset source straps backup) :
    ∃ t, exec c s = .next t ∧ Effects s t := by
  have any : True := trivial
  cases form c with
  | event h =>
    rw [exec_event h, event_next]
    exact ⟨_, rfl, .ite (.refl s) ((event_effects h s).trans (pump_effects _))⟩
  | clock h =>
    rw [exec_clock h]
    exact ⟨_, rfl, .moves (clock_moves h s)⟩
  | request tag r =>
    rw [exec_command, running_next]
    exact ⟨_, rfl, .ite (.refl s) (arrive_effects tag r s)⟩
  | paper present =>
    change ∃ t, (if s.held then _ else event (paperChange present) s) = .next t ∧ Effects s t
    split
    · exact ⟨_, rfl, .moves (setPrint_moves _ s)⟩
    · rw [event_next]
      exact ⟨_, rfl, .ite (.refl s) (.trans (.moves (paperChange_moves present s)) (pump_effects _))⟩
  | brownout => exact absurd rfl hb
  | hardwareReset source straps backup => exact absurd rfl (hr source straps backup)

/-! ### Losing power and the hardware reset -/

theorem exec_brownout (s : State) :
    exec .brownout s = .next (if s.held then s else brownout s) := running_next brownout s

theorem stateBefore_store (source : ResetSource) (s : State) :
    (stateBefore source s).2.store = s.store := by
  unfold stateBefore
  split <;> rfl

theorem stateBefore_pending (source : ResetSource) (s : State) :
    (stateBefore source s).2.pending = s.pending := by
  unfold stateBefore
  split <;> rfl

theorem hardwareReset_pending (source : ResetSource) (straps : Straps) (backup : Bool) (s : State) :
    (hardwareReset source straps backup s).pending = s.pending := by
  unfold hardwareReset
  split
  · rfl
  · refine (stateBefore_pending source _).trans ?_
    split <;> rfl

/-! ### O1, O2 and O3 -/

/-- Settles O1: both halves are the two branches of `step`. -/
theorem stepTakesTheFrontCommand : Obligations.StepTakesTheFrontCommand := by
  unfold Obligations.StepTakesTheFrontCommand
  exact fun _ _ _ => ⟨rfl, rfl⟩

/-- Settles O2, by the form of the command. -/
theorem everyCommandCompletes : Obligations.EveryCommandCompletes := by
  unfold Obligations.EveryCommandCompletes
  intro c s
  by_cases hr : ∃ source straps backup, c = .hardwareReset source straps backup
  · obtain ⟨source, straps, backup, rfl⟩ := hr
    exact ⟨_, rfl, hardwareReset_pending source straps backup s, fun h => absurd rfl (h _ _ _)⟩
  · by_cases hb : c = .brownout
    · subst hb
      refine ⟨_, exec_brownout s, ?_, fun _ => ?_⟩
      · split <;> rfl
      · split <;> rfl
    · obtain ⟨t, ht, e⟩ := exec_effects c s hb fun source straps backup h => hr ⟨_, _, _, h⟩
      exact ⟨t, ht, e.pending_eq, fun _ => e.straps_eq⟩

/-- Settles O3: of the commands that do not act on a held part, the reset pin is refused by the reset
itself and every other one is guarded by `running`. -/
theorem heldPartDoesNothing : Obligations.HeldPartDoesNothing := by
  unfold Obligations.HeldPartDoesNothing
  intro c s held idle
  cases form c with
  | event h => rw [exec_event h, event_held _ s held]
  | clock h => cases c <;> cases h <;> cases idle
  | request tag r => rw [exec_command, running_next, if_pos held]
  | paper present => cases idle
  | brownout => rw [exec_brownout, if_pos held]
  | hardwareReset source straps backup =>
    have pin : (source == .pin) = true := by simpa [actsWhileHeld] using idle
    change Host.Outcome.next (hardwareReset source straps backup s) = _
    rw [hardwareReset, if_pos (by rw [held, pin]; rfl)]

end Sys2Proof.Machine
end

