-- ==== Sys2Proof/Proofs/Invariants.lean ====
section
/-!
PROOFS. The invariants that every step keeps: the canonical store array (R186), the frequency and its
increment (R25), the table sizes and the bounds of the link's queues (R177, R180), with O6 to O8 and O10.
-/

namespace Sys2Proof.Machine

/-! ### What a cut array operation leaves is canonical -/

theorem cutSector_wf (n sector : Nat) (m : Memory) (h : m.wf = true) :
    (cutSector n sector m).wf = true := by
  unfold cutSector
  refine List.foldlRecOn (motive := fun m => Memory.wf m = true) _ _ h fun m hm block _ => ?_
  split
  · exact hm
  · exact Memory.wf_erase _ _ _ hm
  · exact Memory.wf_write _ _ _ hm

theorem getD_forall {α : Type} {Q : α → Prop} (xs : List α) (i : Nat) (d : α) (h : ∀ x ∈ xs, Q x)
    (hd : Q d) : Q (xs.getD i d) := by
  by_cases hi : i < xs.length
  · rw [List.getD_eq_getElem _ _ hi]; exact h _ (List.getElem_mem hi)
  · rwa [List.getD_eq_default _ _ (Nat.le_of_not_lt hi)]

theorem cutWipe_wf (n : Nat) (clock : Clock) (st : Store) (h : Memory.wf st.array = true) :
    (cutWipe n clock st).wf = true := by
  unfold cutWipe
  dsimp only
  split
  · exact cutSector_wf _ _ _ (Memory.wf_erase _ _ _ h)
  · refine getD_forall (Q := fun m => Memory.wf m = true) _ _ _ (fun m hm => ?_) rfl
    obtain rfl | hm := List.mem_cons.mp hm
    · rfl
    · exact firstLockStages_wf clock st.wiped rfl m hm

theorem cutMount_wf (n : Nat) (clock : Clock) (st : Store) (h : Memory.wf st.array = true) :
    (cutMount n clock st).wf = true :=
  getD_forall (Q := fun m => Memory.wf m = true) _ _ _ (mountStages_wf clock st h) h

/-- Whatever operation is cut, the array it leaves is canonical. -/
theorem cutArray_wf (n : Nat) (clock : Clock) (st : Store) (h : Memory.wf st.array = true) :
    (cutArray n clock st).wf = true := by
  unfold cutArray
  split
  · split
    · exact Memory.wf_write _ _ _ h
    · exact h
  · split
    · exact Memory.wf_write _ _ _ h
    · exact h
  · exact Memory.wf_write _ _ _ h
  · exact cutSector_wf _ _ _ h
  · split
    · exact Store.programStep_wf _ _ h
    · exact h
  · split
    · exact cutWipe_wf _ _ _ h
    · exact cutMount_wf _ _ _ h
    · exact h

theorem cut_canonical (s : State) (h : CanonicalStore s) : CanonicalStore (cut s) :=
  cutArray_wf _ _ _ h

/-! ### What a reset of the part leaves -/

theorem brownout_canonical (s : State) (h : CanonicalStore s) : CanonicalStore (brownout s) :=
  cut_canonical s h

theorem resetTracker_sound (straps : Straps) : FreqOk (Tracker.reset straps) :=
  ⟨rfl, nominal_range straps⟩

theorem reset_shaped : Shaped State.reset := by
  unfold Shaped
  decide

/-- The parts of the state that a hardware reset leaves as at reset but for the array, the clock, the
straps and the paper sensor: those that the table sizes and the rotation checks are about. -/
structure ResetTables (t : State) : Prop where
  roster : t.roster = State.reset.roster
  receive : t.receive = State.reset.receive
  rotation : t.rotation = State.reset.rotation
  sites : t.sites = State.reset.sites
  sag : t.sag = State.reset.sag
  capture : t.capture = State.reset.capture
  harm : t.harm = State.reset.harm

theorem ResetTables.shaped {t : State} (h : ResetTables t) : Shaped t := by
  unfold Shaped
  rw [h.roster, h.receive, h.rotation, h.sites, h.sag, h.capture, h.harm]
  exact reset_shaped

theorem brownout_tables (s : State) : ResetTables (brownout s) := by
  constructor <;> rfl

/-- A hardware reset of a held part by the reset pin does nothing; every other one leaves the reset state
with the array as it was cut. -/
theorem hardwareReset_cases (source : ResetSource) (straps : Straps) (backup : Bool) (s : State) :
    hardwareReset source straps backup s = s ∨
      ResetTables (hardwareReset source straps backup s) ∧
        (hardwareReset source straps backup s).tracker = Tracker.reset straps ∧
        (hardwareReset source straps backup s).store.array =
          (if s.held then s else cut s).store.array ∧
        ∃ b time, (hardwareReset source straps backup s).link =
          Link.started (causeOf source) b time := by
  unfold hardwareReset
  split
  · exact .inl rfl
  · refine .inr ?_
    dsimp only
    rw [postMounting_released]
    refine ⟨by constructor <;> rfl, rfl, ?_, _, _, rfl⟩
    change (stateBefore source _).2.store.array = _
    rw [stateBefore_store]

theorem hardwareReset_canonical (source : ResetSource) (straps : Straps) (backup : Bool) (s : State)
    (h : CanonicalStore s) : CanonicalStore (hardwareReset source straps backup s) := by
  obtain e | ⟨_, _, harray, _⟩ := hardwareReset_cases source straps backup s
  · rwa [e]
  · unfold CanonicalStore
    rw [harray]
    split
    · exact h
    · exact cut_canonical s h

/-! ### What every command keeps -/

/-- An invariant that moves of the blocks and bounded changes of the link keep, and both resets of the part
keep or establish, is kept by every step. -/
theorem step_keeps {I : State → Prop} (heffects : ∀ s t, Effects s t → I s → I t)
    (hpending : ∀ (s : State) rest, I s → I { s with pending := rest })
    (hbrownout : ∀ s, I s → I (brownout s))
    (hreset : ∀ source straps backup s, I s → I (hardwareReset source straps backup s))
    (s t : State) (h : I s) (ht : step s = .next t) : I t := by
  unfold step at ht
  split at ht
  · cases ht; exact h
  · next c rest _ =>
    have hs := hpending s rest h
    generalize { s with pending := rest } = u at ht hs
    by_cases hr : ∃ source straps backup, c = .hardwareReset source straps backup
    · obtain ⟨source, straps, backup, rfl⟩ := hr
      cases ht
      exact hreset _ _ _ _ hs
    · by_cases hb : c = .brownout
      · subst hb
        rw [exec_brownout] at ht
        cases ht
        split
        · exact hs
        · exact hbrownout _ hs
      · obtain ⟨v, hv, e⟩ := exec_effects c u hb fun source straps backup h => hr ⟨_, _, _, h⟩
        rw [ht] at hv
        cases hv
        exact heffects _ _ e hs

/-- Settles O6: the reset state is a literal. -/
theorem invariantsHoldAtReset : Obligations.InvariantsHoldAtReset := by
  unfold Obligations.InvariantsHoldAtReset
  exact ⟨Memory.wf_reset, resetTracker_sound _, reset_shaped, by unfold LinkBounded; decide,
    by unfold RotationSound; decide⟩

/-- Settles O7. -/
theorem stepKeepsCanonicalStore : Obligations.StepKeepsCanonicalStore := by
  unfold Obligations.StepKeepsCanonicalStore
  exact step_keeps (fun _ _ e => e.canonical) (fun _ _ h => h) brownout_canonical
    hardwareReset_canonical

/-- Settles O8. -/
theorem stepKeepsFrequencySound : Obligations.StepKeepsFrequencySound := by
  unfold Obligations.StepKeepsFrequencySound
  refine step_keeps (fun _ _ e => e.frequencySound) (fun _ _ h => h)
    (fun s _ => resetTracker_sound s.straps) fun source straps backup s h => ?_
  obtain e | ⟨_, htracker, _⟩ := hardwareReset_cases source straps backup s
  · rwa [e]
  · unfold FrequencySound
    rw [htracker]
    exact resetTracker_sound straps

theorem step_keeps_shaped (s t : State) (h : Shaped s) (ht : step s = .next t) : Shaped t := by
  refine step_keeps (fun _ _ e => e.shaped) (fun _ _ h => h) (fun s _ => (brownout_tables s).shaped)
    (fun source straps backup s h => ?_) s t h ht
  obtain e | ⟨tables, _⟩ := hardwareReset_cases source straps backup s
  · rwa [e]
  · exact tables.shaped

/-- Settles O10. -/
theorem stepKeepsLinkBounded : Obligations.StepKeepsLinkBounded := by
  unfold Obligations.StepKeepsLinkBounded
  refine step_keeps (fun _ _ e => e.linkBounded) (fun _ _ h => h)
    (fun s _ => ⟨Nat.zero_le _, Nat.zero_le _⟩) fun source straps backup s h => ?_
  obtain e | ⟨_, _, _, b, time, hlink⟩ := hardwareReset_cases source straps backup s
  · rwa [e]
  · unfold LinkBounded
    rw [hlink]
    exact ⟨Nat.zero_le _, Nat.zero_le _⟩

end Sys2Proof.Machine
end

