-- ==== Sys2Proof/Proofs/RotationInvariant.lean ====
section
/-!
PROOFS. The table sizes with the rotation checks on the slots that their sites' members name (R38): every
function that moves the site table or a rotation check keeps both, and so does every step (O9).
-/

namespace Sys2Proof.Machine

/-- The invariant of O9: the tables have their sizes, and each rotation check runs on its members. -/
structure TablesSound (s : State) : Prop where
  shaped : Shaped s
  sound : RotationSound s

/-- Every part but the site table and the rotation checks. -/
abbrev aside (p : Part) : Prop := p ≠ .sites ∧ p ≠ .rotation

theorem Shaped.rotation_length {s : State} (h : Shaped s) : s.rotation.length = 4 := by
  obtain ⟨_, _, hr, _⟩ := h
  exact hr

theorem Shaped.sites_length {s : State} (h : Shaped s) : s.sites.length = 4 := by
  obtain ⟨_, _, _, ⟨hs, _⟩, _⟩ := h
  exact hs

/-- A state whose site table and rotation checks are those of a sound one. -/
theorem RotationSound.of_same {s t : State} (hr : t.rotation = s.rotation) (hs : t.sites = s.sites)
    (h : RotationSound s) : RotationSound t := by
  intro site hsite
  simp only [rotationOf, rotationRuns, memberOf, siteOf, hr, hs]
  exact h site hsite

theorem TablesSound.of_moves {P : Part → Prop} {s t : State} (h : TablesSound s) (m : Moves P s t)
    (hs : ¬P .sites) (hr : ¬P .rotation) : TablesSound t :=
  ⟨m.shaped h.shaped, h.sound.of_same (m.rotation_eq hr) (m.sites_eq hs)⟩

theorem TablesSound.of_aside {s t : State} (h : TablesSound s) (m : Moves aside s t) : TablesSound t :=
  h.of_moves m (fun k => k.1 rfl) fun k => k.2 rfl

theorem TablesSound.link {s : State} (f : Link → Link) (h : TablesSound s) : TablesSound (setLink f s) :=
  ⟨h.shaped, h.sound⟩

theorem TablesSound.foldl {α : Type} (f : State → α → State) (xs : List α)
    (hf : ∀ x ∈ xs, ∀ s, TablesSound s → TablesSound (f s x)) (s : State) (h : TablesSound s) :
    TablesSound (xs.foldl f s) :=
  List.foldlRecOn xs f h fun _ hs x hx => hf x hx _ hs

/-! ### One site's check -/

theorem rotationRuns_of_sites {s t : State} (k : Nat) (h : siteOf t k = siteOf s k) :
    rotationRuns t k = rotationRuns s k := by
  simp only [rotationRuns, memberOf, h]

/-- The check that has just been refreshed is sound, and the others stay as they were. -/
theorem refreshRotation_sound {s : State} {site : Nat} (hsite : site < 4) (hs : Shaped s)
    (others : ∀ k, k < 4 → k ≠ site → (rotationOf s k).running = rotationRuns s k) :
    TablesSound (refreshRotation s site) := by
  have moves : Moves (· = .rotation) s (refreshRotation s site) := refreshRotation_moves s site rfl
  refine ⟨moves.shaped hs, fun k hk => ?_⟩
  have runs : rotationRuns (refreshRotation s site) k = rotationRuns s k :=
    rotationRuns_of_sites k (by rw [siteOf, moves.sites_eq (by simp)]; rfl)
  rw [runs, refreshRotation_rotationOf site k s (by rw [hs.rotation_length]; exact hsite)]
  by_cases e : k = site
  · subst e
    by_cases g : rotationRuns s k = (rotationOf s k).running
    · simp [g]
    · simp [g]
  · simp [e, others k hk e]

/-- Where only the entry of one site has changed since a sound state, refreshing its check restores
soundness. -/
theorem refreshRotation_after {s u : State} {site : Nat} (hsite : site < 4) (hs : TablesSound s)
    (hu : Shaped u) (hr : u.rotation = s.rotation) (same : ∀ k, k ≠ site → siteOf u k = siteOf s k) :
    TablesSound (refreshRotation u site) :=
  refreshRotation_sound hsite hu fun k hk hne => by
    rw [rotationRuns_of_sites k (same k hne), rotationOf, hr]
    exact hs.sound k hk

theorem refreshRotation_keeps {s : State} {site : Nat} (hsite : site < 4) (hs : TablesSound s) :
    TablesSound (refreshRotation s site) :=
  refreshRotation_after hsite hs hs.shaped rfl fun _ _ => rfl

theorem siteOf_eq_of_sites {s t : State} (h : t.sites = s.sites) (k : Nat) : siteOf t k = siteOf s k := by
  rw [siteOf, h]; rfl

/-- A change of one site's entry, with further moves of other blocks, and the refresh of its check. -/
theorem refreshRotation_modifySite {s u : State} (f : Site → Site) {site : Nat} (hsite : site < 4)
    (hs : TablesSound s) (hf : ∀ e : Site, (f e).members.length = e.members.length)
    (m : Moves aside (modifySite f site s) u) : TablesSound (refreshRotation u site) := by
  refine refreshRotation_after hsite hs (m.shaped (hs.shaped.modifySite hf))
    (m.rotation_eq fun k => k.2 rfl) fun k hne => ?_
  rw [siteOf_eq_of_sites (m.sites_eq fun k => k.1 rfl), siteOf_modifySite_other f site k s hne]

theorem refreshRotation_modifyMember {s u : State} (f : Option Member → Option Member) {site role : Nat}
    (hsite : site < 4) (hs : TablesSound s) (m : Moves aside (modifyMember f site role s) u) :
    TablesSound (refreshRotation u site) :=
  refreshRotation_modifySite _ hsite hs (fun _ => updateAt_length _ _ _) m

/-- A check set to one that runs on the same slots stays sound. -/
theorem moveRotation_keeps {s : State} {site : Nat} {r : Rotation} (hsite : site < 4)
    (hs : TablesSound s) (h : r.running = (rotationOf s site).running) :
    TablesSound (moveRotation site r s) := by
  have moves : Moves (· = .rotation) s (moveRotation site r s) := moveRotation_moves site r s rfl
  refine ⟨moves.shaped hs.shaped, fun k hk => ?_⟩
  rw [rotationRuns_of_sites k (siteOf_eq_of_sites (moves.sites_eq (by simp)) k),
    moveRotation_rotationOf site k r s (by rw [hs.shaped.rotation_length]; exact hsite)]
  split
  · next e => subst e; rw [h]; exact hs.sound k hk
  · exact hs.sound k hk

/-! ### Positions -/

theorem mem_allPositions (p : Nat × Nat) : p ∈ allPositions ↔ p.1 < 4 ∧ p.2 < 8 := by
  obtain ⟨i, j⟩ := p
  simp [allPositions]

/-- The position that names a slot is one of the table. -/
theorem positionOf_lt {s : State} {slot site role : Nat} (h : positionOf s slot = some (site, role)) :
    site < 4 ∧ role < 8 :=
  (mem_allPositions _).1 (List.mem_of_find?_eq_some h)

theorem changePosition_sound (m : Option Member) {site : Nat} (role : Nat) {s : State} (hsite : site < 4)
    (h : TablesSound s) : TablesSound (changePosition m site role s) := by
  have sag : aside .sag := by decide
  have harm : aside .harm := by decide
  exact refreshRotation_modifyMember _ hsite h
    (.trans (.ite (modifyChannel_moves _ _ _ _) (.refl _)) (modifyHarmMember_moves _ _ _ _))

theorem unassign_sound (slot : Nat) {s : State} (h : TablesSound s) : TablesSound (unassign slot s) := by
  unfold unassign
  split
  · next hp => exact (changePosition_sound none _ (positionOf_lt hp).1 h).of_aside (.answer _ _ _)
  · exact h.of_aside (.answer _ _ _)

theorem vacate_sound (slot site role : Nat) {s : State} (h : TablesSound s) :
    TablesSound (vacate slot site role s) := by
  unfold vacate
  split
  · next hp =>
    split
    · exact h
    · exact changePosition_sound none _ (positionOf_lt hp).1 h
  · exact h

theorem settleIn_sound (m : Member) {site : Nat} (role : Nat) {s : State} (hsite : site < 4)
    (h : TablesSound s) : TablesSound (settleIn m site role s) := by
  unfold settleIn
  split
  · exact refreshRotation_modifyMember _ hsite h (.refl _)
  · exact changePosition_sound _ _ hsite h

theorem place_sound (slot role : Nat) (identity : Identity) {site : Nat} {s : State} (hsite : site < 4)
    (h : TablesSound s) : TablesSound (place slot site role identity s) := by
  have settled := settleIn_sound (memberFor (vacate slot site role s) slot identity) role hsite
    (vacate_sound slot site role h)
  unfold place
  exact settled.of_aside (.answer _ _ _)

theorem unlessMounting_sound {f : State → State} {s : State} (h : TablesSound s)
    (hf : TablesSound (f s)) : TablesSound (unlessMounting f s) := by
  unfold unlessMounting
  split
  · exact h.of_aside (refuse_moves _ _)
  · exact hf

theorem assign_sound (slot site role : Byte) {s : State} (h : TablesSound s) :
    TablesSound (assign slot site role s) := by
  have refused : ∀ st, TablesSound (refuse st s) := fun st => h.of_aside (refuse_moves _ _)
  refine unlessMounting_sound h ?_
  dsimp only
  split
  · exact refused _
  · split
    · exact refused _
    · next inTable =>
      split
      · exact refused _
      · split
        · exact refused _
        · split
          · exact unassign_sound _ h
          · next hrole =>
            have hsite : site.toNat < 4 := by
              by_contra hc
              exact inTable ⟨hrole, .inl (by omega)⟩
            split
            · exact refused _
            · split
              · exact place_sound _ _ _ hsite h
              · exact refused _

theorem siteSet_sound (site : Byte) (c : CarriedSettings) {s : State} (h : TablesSound s) :
    TablesSound (siteSet site c s) := by
  have refused : ∀ st, TablesSound (refuse st s) := fun st => h.of_aside (refuse_moves _ _)
  refine unlessMounting_sound h ?_
  dsimp only
  split
  · exact refused _
  · split
    · exact refused _
    · split
      · exact refused _
      · next inTable _ =>
        have stored : ∀ x : Settings, TablesSound (refreshRotation
            (modifySite (fun e => { e with settings := x }) site.toNat s) site.toNat) :=
          fun x => refreshRotation_modifySite (fun e => { e with settings := x }) (by omega) h
            (fun _ => rfl) (.refl _)
        exact (stored _).of_aside (.answer _ _ _)

/-! ### Leaves and joins -/

theorem leaveService_sound (slot : Nat) {s : State} (h : TablesSound s) :
    TablesSound (leaveService slot s) := by
  have sag : aside .sag := by decide
  have harm : aside .harm := by decide
  unfold leaveService
  split
  · next hp =>
    exact refreshRotation_modifyMember _ (positionOf_lt hp).1 h
      (.trans (sagLeave_moves _ _ _) (harmLeave_moves _ _ _))
  · exact h

theorem podLost_sound (slot : Nat) {s : State} (h : TablesSound s) : TablesSound (podLost slot s) := by
  have roster : aside .roster := by decide
  unfold podLost
  split
  · exact leaveService_sound slot (h.of_aside (.trans (modifyEntry_moves _ _ _) (.post _ _)))
  · exact h

theorem podStuck_sound (slot : Nat) {s : State} (h : TablesSound s) : TablesSound (podStuck slot s) := by
  have roster : aside .roster := by decide
  unfold podStuck
  split
  · exact leaveService_sound slot (h.of_aside (.trans (modifyEntry_moves _ _ _) (.post _ _)))
  · exact h

theorem frameEndWork_sound {s : State} (h : TablesSound s) : TablesSound (frameEndWork s) := by
  have harm : aside .harm := by decide
  have tracker : aside .tracker := by decide
  have capture : aside .capture := by decide
  unfold frameEndWork lostEnd stuckEnd
  refine TablesSound.foldl _ _ (fun slot _ s hs => podLost_sound slot hs) _ ?_
  refine TablesSound.foldl _ _ (fun slot _ s hs => podStuck_sound slot hs) _ ?_
  exact h.of_aside (.trans (.trans (windowsEnd_moves s) (noCrossingTimeout_moves _)) (capturesEnd_moves _))

theorem matchMember_sound (slot : Nat) (identity : Identity) {s : State} (h : TablesSound s) :
    TablesSound (matchMember slot identity s).2 := by
  unfold matchMember
  split
  · exact h
  · next hp =>
    split
    · exact refreshRotation_modifyMember _ (positionOf_lt hp).1 h (.refl _)
    · exact changePosition_sound _ _ (positionOf_lt hp).1 h

theorem joinAtFrame_sound {s : State} (h : TablesSound s) : TablesSound (joinAtFrame s) := by
  have bus : aside .bus := by decide
  have roster : aside .roster := by decide
  have receive : aside .receive := by decide
  unfold joinAtFrame
  split
  · split
    · refine (matchMember_sound _ _ (h.of_aside ?_)).of_aside (.post _ _)
      exact .trans (.trans (setJoin_moves _ _) (modifyEntry_moves _ _ _)) (modifyReceive_moves _ _ _)
    · exact h
  · exact h

/-! ### Frames -/

theorem judged_running (r : Rotation) (j : Judgement) : (judged r j).running = r.running := by
  cases j <;> rfl

theorem closeCycle_running (r : Rotation) (time : Nat) : (closeCycle r time).running = r.running := by
  unfold closeCycle
  dsimp only
  split
  · exact judged_running _ _
  · rfl

/-- A frame's samples leave the slots on which the check runs. -/
theorem rotateFrame_running (frame : Nat) (samples : List (Nat × Sample)) (r : Rotation) :
    (rotateFrame frame samples r).running = r.running := by
  unfold rotateFrame
  split
  · rfl
  · dsimp only
    split
    · exact closeCycle_running _ _
    · rfl

theorem rotationFrame_sound (frame : Nat) (samples : List (Nat × Sample)) {s : State}
    (h : TablesSound s) : TablesSound (rotationFrame frame samples s) :=
  TablesSound.foldl _ _ (fun _ hsite _ hs =>
    moveRotation_keeps (List.mem_range.1 hsite) hs (rotateFrame_running _ _ _)) s h

theorem deliver_sound (frame : Nat) (samples : List (Nat × Sample)) {s : State} (h : TablesSound s) :
    TablesSound (deliver frame samples s) := by
  have tracker : aside .tracker := by decide
  have sag : aside .sag := by decide
  have harm : aside .harm := by decide
  have capture : aside .capture := by decide
  exact (rotationFrame_sound frame samples (h.of_aside (trackFrame_moves frame samples s))).of_aside
    (.trans (.trans (.trans (sagFrame_moves _ _) (ringFrame_moves _ _ _)) (captureFrame_moves _ _ _))
      (harmFrame_moves _ _ _))

theorem frameEnd_sound (words : List BusWord) {s : State} (h : TablesSound s) :
    TablesSound (frameEnd words s) := by
  have bus : aside .bus := by decide
  have roster : aside .roster := by decide
  have receive : aside .receive := by decide
  have survey : aside .survey := by decide
  have sag : aside .sag := by decide
  have harm : aside .harm := by decide
  have store : aside .store := by decide
  have capture : aside .capture := by decide
  have free : aside .free := by decide
  unfold frameEnd
  split
  · refine (deliver_sound _ _ (h.of_aside ?_)).of_aside (setBus_moves _ _)
    exact .trans (.trans (.trans (boundaryWork_moves s) (takeWords_moves _ _ _))
      (probeAnswer_moves _ _ _)) (joinFrame_moves _ _ _)
  · exact h

/-! ### The ACQ reset -/

theorem restartRotations_rotationOf (xs : List Nat) (k : Nat) : ∀ s : State, s.rotation.length = 4 →
    (∀ x ∈ xs, x < 4) →
    rotationOf (xs.foldl (fun s site => moveRotation site {} s) s) k =
      if k ∈ xs then {} else rotationOf s k := by
  induction xs with
  | nil => simp
  | cons x xs ih =>
    intro s hs hx
    have hx4 : x < s.rotation.length := by rw [hs]; exact hx x (List.mem_cons_self ..)
    have hl : (moveRotation x {} s).rotation.length = 4 := by
      simp only [moveRotation, postWhen]
      split <;> simp [setRotation, post, hs]
    rw [List.foldl_cons, ih _ hl fun y hy => hx y (List.mem_cons_of_mem _ hy),
      moveRotation_rotationOf _ _ _ _ hx4]
    by_cases h1 : k ∈ xs <;> by_cases h2 : k = x <;> simp [h1, h2]

/-- An ACQ reset starts every rotation check from its reset values (R37). -/
theorem trackerAcqReset_rotationOf {s : State} (hs : Shaped s) (k : Nat) (hk : k < 4) :
    rotationOf (trackerAcqReset s) k = {} := by
  unfold trackerAcqReset
  refine (restartRotations_rotationOf _ k _ ?_ fun x hx => List.mem_range.1 hx).trans
    (if_pos (List.mem_range.2 hk))
  simp [postTrack, hs.rotation_length]

theorem memberOf_membersInactive (s : State) (site role : Nat) :
    memberOf (membersInactive s) site role =
      (memberOf s site role).map fun m => { m with active := false } := by
  let stop : Option Member → Option Member := Option.map fun m => { m with active := false }
  let stopAll : Site → Site := fun e => { e with members := e.members.map stop }
  have entry : siteOf (membersInactive s) site = stopAll (siteOf s site) :=
    List.getD_map s.sites {} stopAll
  unfold memberOf
  rw [entry]
  exact List.getD_map (siteOf s site).members none stop

/-- With no member active no check runs (R38, R47). -/
theorem rotationRuns_membersInactive (s : State) (site : Nat) :
    rotationRuns (membersInactive s) site = none := by
  simp only [rotationRuns, memberOf_membersInactive]
  cases memberOf s site 0 <;> cases memberOf s site 1 <;> cases memberOf s site 2 <;> simp

theorem acqBlocks_sound {s : State} (h : Shaped s) : TablesSound (acqBlocks s) := by
  have any : True := trivial
  have store : aside .store := by decide
  unfold acqBlocks
  dsimp only
  generalize hu : busReset _ = u
  have hs : Shaped u := by
    subst hu
    have moves : Moves anyPart s (busReset (sagAcqReset (harmAcqReset
        (emptyRings (truncateCaptures (s.sag.lastBoundary.getD 0) (sagAcqCloses s)))))) :=
      .trans (.trans (.trans (.trans (.trans (sagAcqCloses_moves s) (truncateCaptures_moves _ _))
        (emptyRings_moves _)) (harmAcqReset_moves _)) (sagAcqReset_moves _)) (busReset_moves _)
    exact moves.shaped h
  have hm : Shaped (membersInactive u) := (membersInactive_moves (P := anyPart) u).shaped hs
  have reset : Moves (fun p => p = .tracker ∨ p = .rotation) (membersInactive u)
      (trackerAcqReset (membersInactive u)) := trackerAcqReset_moves _ (.inl rfl) (.inr rfl)
  refine TablesSound.of_aside ⟨reset.shaped hm, fun k hk => ?_⟩ (storeNext_moves _)
  rw [trackerAcqReset_rotationOf hm k hk,
    rotationRuns_of_sites k (siteOf_eq_of_sites (reset.sites_eq (by simp)) k),
    rotationRuns_membersInactive]

theorem acqReset_sound {s : State} (h : TablesSound s) : TablesSound (acqReset s) := by
  unfold acqReset
  split
  · exact (acqBlocks_sound (frameEndWork_sound h).shaped).of_aside (.domain _ _)
  · exact h

/-! ### The start of a frame, and the end of a mount -/

theorem newFrame_sound {s : State} (h : TablesSound s) : TablesSound (newFrame s) := by
  have bus : aside .bus := by decide
  have tracker : aside .tracker := by decide
  have free : aside .free := by decide
  unfold newFrame
  dsimp only
  refine TablesSound.of_aside (joinAtFrame_sound (h.of_aside ?_)) (setBus_moves _ _)
  exact .trans (ncoCarry_moves s) (setBus_moves _ _)

theorem beginFrame_sound {s : State} (h : TablesSound s) : TablesSound (beginFrame s) := by
  have bus : aside .bus := by decide
  have tracker : aside .tracker := by decide
  have survey : aside .survey := by decide
  have harm : aside .harm := by decide
  have store : aside .store := by decide
  exact (newFrame_sound h).of_aside
    (.trans (.trans (.trans (.trans (.trans (selectControl_moves _) (referenceAtFrame_moves _))
      (nextMoment_moves _)) (intervalsAtFrame_moves _)) (markBoundary_moves _))
      (.ite (.refl _) (lossCloses_moves _)))

theorem frameStart_sound {s : State} (h : TablesSound s) : TablesSound (frameStart s) := by
  have print : aside .print := by decide
  have store : aside .store := by decide
  have capture : aside .capture := by decide
  have clock : aside .clock := by decide
  have roster : aside .roster := by decide
  unfold frameStart
  split
  · exact h
  · refine beginFrame_sound (acqReset_sound ?_)
    exact (frameEndWork_sound (h.of_aside (.trans (.notice s) (printReset_moves _)))).of_aside
      (takeMidnight_moves _)

/-- Refreshing every check makes them all sound, whatever they ran on before. -/
theorem refreshRotations_sound {s : State} (h : Shaped s) : TablesSound (refreshRotations s) := by
  have all : ∀ n, n ≤ 4 → Shaped ((List.range n).foldl refreshRotation s) ∧
      ∀ k, k < n → (rotationOf ((List.range n).foldl refreshRotation s) k).running =
        rotationRuns ((List.range n).foldl refreshRotation s) k := by
    intro n
    induction n with
    | zero => exact fun _ => ⟨h, fun k hk => absurd hk (Nat.not_lt_zero k)⟩
    | succ n ih =>
      intro hn
      obtain ⟨hs, hk⟩ := ih (Nat.le_of_succ_le hn)
      rw [List.range_succ, List.foldl_append, List.foldl_cons, List.foldl_nil]
      generalize (List.range n).foldl refreshRotation s = u at hs hk
      have moves : Moves (· = .rotation) u (refreshRotation u n) := refreshRotation_moves u n rfl
      refine ⟨moves.shaped hs, fun k hkn => ?_⟩
      rw [rotationRuns_of_sites k (siteOf_eq_of_sites (moves.sites_eq (by simp)) k),
        refreshRotation_rotationOf n k u (by rw [hs.rotation_length]; exact hn)]
      by_cases e : k = n
      · subst e
        by_cases g : rotationRuns u k = (rotationOf u k).running
        · simp [g]
        · simp [g]
      · simp [e, hk k (by omega)]
  obtain ⟨hs, hk⟩ := all 4 (Nat.le_refl 4)
  exact ⟨hs, hk⟩

theorem restored_shaped {s : State} (h : Shaped s) : Shaped (restored s).1 := by
  obtain ⟨h1, h2, h3, _, h5⟩ := h
  unfold restored
  split
  · exact ⟨h1, h2, h3, ⟨rfl, map_forall _ _ fun _ _ => rfl⟩, h5⟩
  · exact ⟨h1, h2, h3, ⟨rfl, fun e he => by rw [List.eq_of_mem_replicate he]; rfl⟩, h5⟩

theorem restoreSurvey_sound {s : State} (h : Shaped s) : TablesSound (restoreSurvey s) :=
  (refreshRotations_sound (restored_shaped h)).of_aside (.post _ _)

theorem mountComplete_sound {s : State} (h : TablesSound s) : TablesSound (mountComplete s) := by
  have any : True := trivial
  have store : aside .store := by decide
  unfold mountComplete
  split
  · refine (restoreSurvey_sound (Moves.shaped (P := anyPart) ?_ h.shaped)).of_aside (storeNext_moves _)
    exact .trans (.trans (.trans (.trans
      (setArray_moves (fun st => retireDuplicates (scanned st)) s
        fun w => retireDuplicates_wf (scanned s.store) w)
      (firstWrites_moves _)) (setStore_moves _ _ rfl)) (linkNotes_moves _)) (mountTrigger_moves _)
  · exact h

/-! ### Every step -/

theorem serve_sound (r : Request) {s : State} (h : TablesSound s) : TablesSound (serve r s) := by
  have clock : aside .clock := by decide
  have roster : aside .roster := by decide
  have tracker : aside .tracker := by decide
  have survey : aside .survey := by decide
  have sag : aside .sag := by decide
  have capture : aside .capture := by decide
  have harm : aside .harm := by decide
  have store : aside .store := by decide
  have print : aside .print := by decide
  have supply : aside .supply := by decide
  have free : aside .free := by decide
  cases r with
  | siteSet site carried => exact siteSet_sound _ _ h
  | assign slot site role => exact assign_sound _ _ _ h
  | noticeMask mask => change TablesSound (noticeMask mask s); rw [noticeMask_eq]; exact h.link _
  | reset domains => change TablesSound (linkReset domains s); rw [linkReset_eq]; exact h.link _
  | podRoster => exact h.of_aside (podRoster_moves _)
  | podStatus => exact h.of_aside (podStatus_moves _ _)
  | podRetry => exact h.of_aside (podRetry_moves _ _)
  | podClear => exact h.of_aside (podClear_moves _ _)
  | trackRef => exact h.of_aside (trackRef_moves _ _)
  | trackFixed => exact h.of_aside (trackFixed_moves _ _)
  | trackStatus => exact h.of_aside (trackStatus_moves _ _)
  | clockSet => exact h.of_aside (clockSet_moves _ _ _)
  | siteGet => exact h.of_aside (siteGet_moves _ _)
  | surveyStart => exact h.of_aside (surveyStart_moves _)
  | surveyHold => exact h.of_aside (surveyHold_moves _)
  | surveyResume => exact h.of_aside (surveyResume_moves _)
  | surveyEnd => exact h.of_aside (surveyEnd_moves _)
  | surveyNew => exact h.of_aside (surveyNew_moves _)
  | surveyStatus => exact h.of_aside (surveyStatus_moves _)
  | sagStatus => exact h.of_aside (sagStatus_moves _ _)
  | captureList => exact h.of_aside (captureList_moves _)
  | captureRead => exact h.of_aside (captureRead_moves _ _ _ _ _ _)
  | captureRelease => exact h.of_aside (captureRelease_moves _ _ _)
  | harmonicStatus => exact h.of_aside (harmonicStatus_moves _ _)
  | storeStatus => exact h.of_aside (storeStatus_moves _)
  | storeMode => exact h.of_aside (storeMode_moves _ _)
  | recordList => exact h.of_aside (recordList_moves _ _ _ _)
  | recordRead => exact h.of_aside (recordRead_moves _ _ _)
  | recordDelete => exact h.of_aside (recordDelete_moves _ _ _)
  | storeWipe => exact h.of_aside (storeWipe_moves _)
  | noteAdd => exact h.of_aside (noteAdd_moves _ _ _ _ _ _)
  | noteAmend => exact h.of_aside (noteAmend_moves _ _ _ _)
  | noteAttach => exact h.of_aside (noteAttach_moves _ _ _ _)
  | noteDelete => exact h.of_aside (noteDelete_moves _ _)
  | noteLock => exact h.of_aside (noteLock_moves _ _)
  | noteList => exact h.of_aside (noteList_moves _ _ _)
  | printSubmit => exact h.of_aside (printSubmit_moves _ _ _)
  | printCancel => exact h.of_aside (printCancel_moves _ _)
  | printResume => exact h.of_aside (printResume_moves _)
  | printDoneRead => exact h.of_aside (printDoneRead_moves _)
  | printStatus => exact h.of_aside (printStatus_moves _)
  | supplySet => exact h.of_aside (supplySet_moves _ _ _ _)
  | supplyStatus => exact h.of_aside (supplyStatus_moves _ _)
  | identify => exact h.of_aside (.answer _ _ _)

theorem takeFrame_sound (f : Frame) {s : State} (h : TablesSound s) : TablesSound (takeFrame f s) := by
  obtain ⟨r, e⟩ | ⟨st, e⟩ := takeFrame_cases f s
  · rw [e]; exact serve_sound r (h.link fun l => { l with current := some ⟨f.kind, f.tag, false⟩ })
  · rw [e]
    exact (h.link fun l => { l with current := some ⟨f.kind, f.tag, false⟩ }).of_aside
      (refuse_moves _ _)

theorem pump_sound {s : State} (h : TablesSound s) : TablesSound (pump s) :=
  pumpFrom_keeps TablesSound (fun _ f _ _ hu => takeFrame_sound f (hu.link _)) _ s h

theorem offerFrame_sound (f : Frame) {s : State} (h : TablesSound s) : TablesSound (offerFrame f s) := by
  unfold offerFrame
  split
  · exact pump_sound (h.link _)
  · exact h.link _

theorem arrive_sound (tag : Byte) (r : Request) {s : State} (h : TablesSound s) :
    TablesSound (arrive tag r s) := by
  unfold arrive
  split
  · exact pump_sound (serve_sound r (h.link _))
  · exact offerFrame_sound _ h

theorem goodByte_sound (b : Byte) {s : State} (h : TablesSound s) : TablesSound (goodByte b s) := by
  unfold goodByte
  split
  · split
    · exact h.link _
    · exact h
  · dsimp only
    split
    · exact h.link _
    · unfold headerDone
      split <;> exact h.link _
  · dsimp only
    split
    · exact h.link _
    · unfold checkFrame
      dsimp only
      split
      · exact offerFrame_sound _ (h.link _)
      · exact (h.link _).link _

theorem event_sound {c : Instr} {f : State → State} (e : eventEffect c = some f) {s : State}
    (h : TablesSound s) : TablesSound (f s) := by
  have clock : aside .clock := by decide
  have bus : aside .bus := by decide
  have tracker : aside .tracker := by decide
  have survey : aside .survey := by decide
  have sag : aside .sag := by decide
  have capture : aside .capture := by decide
  have harm : aside .harm := by decide
  have store : aside .store := by decide
  have array : aside .array := by decide
  have print : aside .print := by decide
  have supply : aside .supply := by decide
  have free : aside .free := by decide
  cases c <;> cases e
  case frameStart => exact frameStart_sound h
  case frameEnd words => exact frameEnd_sound words h
  case podLost slot => exact podLost_sound slot h
  case podStuck slot => exact podStuck_sound slot h
  case acqReset => exact acqReset_sound h
  case mountComplete => exact mountComplete_sound h
  case linkByteReceived byte stopBit =>
    change TablesSound (receiveByte byte stopBit s)
    unfold receiveByte
    split
    · exact goodByte_sound byte h
    · split
      · exact h.link _
      · exact h
  case interbyteTimeout =>
    change TablesSound (interbyteTimeout s)
    unfold interbyteTimeout
    split
    · exact h.link _
    · exact h
  case unknownKind kind tag => exact offerFrame_sound _ h
  case transmitDone => exact h.link _
  case noCrossingTimeout => exact h.of_aside (noCrossingTimeout_moves s)
  case windowComplete site role => exact h.of_aside (windowComplete_moves site role s)
  case halfCycleBoundary => exact h.of_aside (halfCycleBoundary_moves s)
  case captureComplete slot => exact h.of_aside (captureComplete_moves slot s)
  case startBoundary => exact h.of_aside (startBoundary_moves s)
  case stopBoundary => exact h.of_aside (stopBoundary_moves s)
  case intervalBoundary site => exact h.of_aside (siteBoundary_moves site s)
  case printReset => exact h.of_aside (printReset_moves s)
  case noticeReset => exact h.of_aside (.notice s)
  case supplyReading input => exact h.of_aside (supplyReading_moves input s)
  case headTemperatureReading celsius => exact h.of_aside (headTemperature_moves celsius s)
  case dotLineDone => exact h.of_aside (dotLineDone_moves s)
  case sectionFetch => exact h.of_aside (sectionFetch_moves s)
  case recordWriteDone => exact h.of_aside (recordWriteDone_moves s)
  case relocationCopyDone => exact h.of_aside (relocationCopyDone_moves s)
  case deadMarkDone => exact h.of_aside (deadMarkDone_moves s)
  case sectorEraseDone => exact h.of_aside (eraseDone_moves s)
  case extensionStepDone => exact h.of_aside (extensionStepDone_moves s)
  case wipeComplete => exact h.of_aside (wipeComplete_moves s)

theorem clock_sound {c : Instr} {f : State → State} (e : clockEffect c = some f) {s : State}
    (h : TablesSound s) : TablesSound (f s) := by
  have clock : aside .clock := by decide
  have roster : aside .roster := by decide
  cases c <;> cases e
  case clockMidnight => exact h.of_aside (takeMidnight_moves s)
  case clockWrap => exact h.of_aside (clockWrap_moves s)
  case clockTick => exact h.of_aside (clockTick_moves s)

theorem ResetTables.sound {t : State} (h : ResetTables t) : RotationSound t :=
  invariantsHoldAtReset.2.2.2.2.of_same h.rotation h.sites

theorem exec_sound (c : Instr) {s t : State} (h : TablesSound s) (ht : exec c s = .next t) :
    TablesSound t := by
  have print : aside .print := by decide
  cases form c with
  | event e =>
    rw [exec_event e, event_next] at ht
    cases ht
    split
    · exact h
    · exact pump_sound (event_sound e h)
  | clock e =>
    rw [exec_clock e] at ht
    cases ht
    exact clock_sound e h
  | request tag r =>
    rw [exec_command, running_next] at ht
    cases ht
    split
    · exact h
    · exact arrive_sound tag r h
  | paper present =>
    change (if s.held then _ else event (paperChange present) s) = .next t at ht
    split at ht
    · cases ht
      exact h.of_aside (setPrint_moves _ s)
    · rw [event_next] at ht
      cases ht
      split
      · exact h
      · exact pump_sound (h.of_aside (paperChange_moves present s))
  | brownout =>
    rw [exec_brownout] at ht
    cases ht
    split
    · exact h
    · exact ⟨(brownout_tables s).shaped, (brownout_tables s).sound⟩
  | hardwareReset source straps backup =>
    cases ht
    obtain e | ⟨tables, _⟩ := hardwareReset_cases source straps backup s
    · rwa [e]
    · exact ⟨tables.shaped, tables.sound⟩

/-- Settles O9. -/
theorem stepKeepsTableSizes : Obligations.StepKeepsTableSizes := by
  unfold Obligations.StepKeepsTableSizes
  refine fun s t shaped ht => ⟨step_keeps_shaped s t shaped ht, fun sound => ?_⟩
  unfold step at ht
  split at ht
  · cases ht; exact sound
  · next c rest _ => exact (exec_sound c (s := { s with pending := rest }) ⟨shaped, sound⟩ ht).sound

end Sys2Proof.Machine
end

