-- ==== Sys2Proof/Proofs/Payloads.lean ====
section
/-!
PROOFS. The request payloads (R184): each field is read back from where its encoding puts it, so every
request is read back from its payload (O4).
-/

namespace Sys2Proof.Machine

/-! ### Numbers and flags -/

theorem half_unle_le (h : Half) : BitVec.ofNat 16 (unle (le 2 h.toNat)) = h := by
  rw [unle_le 2 _ h.isLt, BitVec.ofNat_toNat, BitVec.setWidth_eq]

theorem word_unle_le (w : Word) : BitVec.ofNat 32 (unle (le 4 w.toNat)) = w := by
  rw [unle_le 4 _ w.isLt, BitVec.ofNat_toNat, BitVec.setWidth_eq]

@[simp] theorem bit_ne_zero (b : Bool) : (bit b != 0) = b := by cases b <;> rfl

theorem byte_toNat_ofNat {n : Nat} (h : n ≤ 255) : (BitVec.ofNat 8 n).toNat = n := by
  rw [BitVec.toNat_ofNat]
  omega

/-- The two bytes of a length after any bytes. -/
theorem field_append_le (q p : List Byte) (n : Nat) (h : n < 65536) :
    field (q ++ (le 2 n ++ p)) q.length 2 = n := by
  rw [field_append, field_le_append 2 n p h]

theorem maskBit_eq {α : Type} (k : Nat) (o : Option α) :
    maskBit k o = 2 ^ k * if o.isSome then 1 else 0 := by
  unfold maskBit
  split <;> simp

/-! ### Optional fields -/

theorem bind_of_some {α β : Type} {x : Option α} {a : α} {f : α → Option β} {b : Option β}
    (h : x = some a) (k : f a = b) : x >>= f = b := by
  rw [h]
  exact k

theorem takeNumber_none (n : Nat) (p : List Byte) : takeNumber n false p = some (none, p) := rfl

theorem takeNumber_bytes (q p : List Byte) :
    takeNumber q.length true (q ++ p) = some (some (unle q), p) := by
  simp [takeNumber]

theorem takeNumber_byte (o : Option Byte) (p : List Byte) :
    takeNumber 1 o.isSome (optBytes byteField o ++ p) = some (o.map (·.toNat), p) := by
  cases o with
  | none => rfl
  | some b => exact takeNumber_bytes [b] p

theorem takeNumber_half (o : Option Half) (p : List Byte) :
    takeNumber 2 o.isSome (optBytes halfField o ++ p) = some (o.map (·.toNat), p) := by
  cases o with
  | none => rfl
  | some h =>
    refine (takeNumber_bytes (le 2 h.toNat) p).trans ?_
    rw [unle_le 2 _ h.isLt]
    rfl

theorem takeNumber_flag (o : Option Bool) (p : List Byte) :
    takeNumber 1 o.isSome (optBytes (fun b => [bit b]) o ++ p) =
      some (o.map fun b => (bit b).toNat, p) := by
  cases o with
  | none => rfl
  | some b => exact takeNumber_bytes [bit b] p

theorem takeName_chars (o : Option (List Byte)) (p : List Byte)
    (h : ∀ chars, o = some chars → chars.length ≤ 255) :
    takeName o.isSome (optBytes (fun cs => BitVec.ofNat 8 cs.length :: cs) o ++ p) = some (o, p) := by
  cases o with
  | none => rfl
  | some chars => simp [takeName, optBytes, byte_toNat_ofNat (h chars rfl)]

@[simp] theorem toByte?_toNat (o : Option Byte) : toByte? (o.map (·.toNat)) = o := by
  cases o <;> simp [toByte?]

@[simp] theorem toHalf?_toNat (o : Option Half) : toHalf? (o.map (·.toNat)) = o := by
  cases o <;> simp [toHalf?]

@[simp] theorem toFlag?_bit (o : Option Bool) : toFlag? (o.map fun b => (bit b).toNat) = o := by
  rcases o with _ | _ | _ <;> rfl

/-! ### SITE_SET and SUPPLY_SET -/

theorem settingsMask_testBit (c : CarriedSettings) (k : Nat) :
    (settingsMask c).testBit k = [c.enabled.isSome, c.name.isSome, c.udin.isSome, c.st.isSome,
      c.h.isSome, c.ti.isSome, c.nc.isSome, c.pc.isSome, c.wc.isSome, c.pe.isSome, c.we.isSome,
      c.hmax.isSome, c.interval.isSome, c.rotCheck.isSome].getD k false := by
  rw [settingsMask_eq, flagWord_testBit]

/-- The settings after the mask of a SITE_SET are read back one by one. -/
theorem decodeSettings_encode (c : CarriedSettings) (h : c.wellFormed = true) :
    decodeSettings (settingsMask c) ((encodeSettings c).drop 2) = some c := by
  have name : ∀ chars, c.name = some chars → chars.length ≤ 255 := by
    intro chars e
    simpa [CarriedSettings.wellFormed, e] using h
  have last := takeNumber_flag c.rotCheck []
  rw [List.append_nil] at last
  have bytes : (encodeSettings c).drop 2 = (optBytes (fun b => [bit b]) c.enabled ++
      (optBytes (fun cs => BitVec.ofNat 8 cs.length :: cs) c.name ++ (optBytes halfField c.udin ++
      (optBytes halfField c.st ++ (optBytes byteField c.h ++ (optBytes halfField c.ti ++
      (optBytes byteField c.nc ++ (optBytes byteField c.pc ++ (optBytes byteField c.wc ++
      (optBytes byteField c.pe ++ (optBytes byteField c.we ++ (optBytes byteField c.hmax ++
      (optBytes byteField c.interval ++ optBytes (fun b => [bit b]) c.rotCheck))))))))))))) := by
    simp only [encodeSettings, List.append_assoc]
    exact List.drop_left' (le_length 2 _)
  rw [bytes]
  unfold decodeSettings
  simp only [settingsMask_testBit]
  refine bind_of_some (takeNumber_flag _ _) ?_
  refine bind_of_some (takeName_chars _ _ name) ?_
  refine bind_of_some (takeNumber_half _ _) ?_
  refine bind_of_some (takeNumber_half _ _) ?_
  refine bind_of_some (takeNumber_byte _ _) ?_
  refine bind_of_some (takeNumber_half _ _) ?_
  refine bind_of_some (takeNumber_byte _ _) ?_
  refine bind_of_some (takeNumber_byte _ _) ?_
  refine bind_of_some (takeNumber_byte _ _) ?_
  refine bind_of_some (takeNumber_byte _ _) ?_
  refine bind_of_some (takeNumber_byte _ _) ?_
  refine bind_of_some (takeNumber_byte _ _) ?_
  refine bind_of_some (takeNumber_byte _ _) ?_
  refine bind_of_some last ?_
  simp

theorem decodeSupplySet_encode (low critical : Option Half) (schedule : Option Byte) :
    decodeSupplySet (BitVec.ofNat 8 (maskBit 0 low + maskBit 1 critical + maskBit 2 schedule))
      (optBytes halfField low ++ optBytes halfField critical ++ optBytes byteField schedule) =
        some (.supplySet low critical schedule) := by
  have mask : maskBit 0 low + maskBit 1 critical + maskBit 2 schedule =
      flagWord [low.isSome, critical.isSome, schedule.isSome] := by
    simp only [maskBit_eq, flagWord]
    ring
  have bits : ∀ k, k < 8 → (BitVec.ofNat 8 (maskBit 0 low + maskBit 1 critical +
      maskBit 2 schedule)).getLsbD k = [low.isSome, critical.isSome, schedule.isSome].getD k false := by
    intro k hk
    rw [mask, BitVec.getLsbD_ofNat, flagWord_testBit]
    simp [hk]
  have last := takeNumber_byte schedule []
  rw [List.append_nil] at last
  unfold decodeSupplySet
  rw [bits 0 (by decide), bits 1 (by decide), bits 2 (by decide), List.append_assoc]
  refine bind_of_some (takeNumber_half _ _) ?_
  refine bind_of_some (takeNumber_half _ _) ?_
  refine bind_of_some last ?_
  simp

/-! ### PRINT_SUBMIT -/

theorem sectionParams_length (x : Section) (h : x.wellFormed = true) : (sectionParams x).length ≤ 255 := by
  cases x with
  | text chars => exact of_decide_eq_true h
  | intervalTable id orders =>
    have : orders.length ≤ 250 := by simpa [Section.wellFormed] using h
    simp [sectionParams, wordField]
    omega
  | unknown code params =>
    have : (code.toNat = 0 ∨ 7 < code.toNat) ∧ params.length ≤ 255 := by
      simpa [Section.wellFormed] using h
    exact this.2
  | feed lines => simp [sectionParams, halfField]
  | eventList first last site => simp [sectionParams, wordField]
  | eventDetail id waveform => simp [sectionParams, wordField]
  | note id amendments => simp [sectionParams, wordField]
  | surveySummary => simp [sectionParams]

/-- A section of an unknown code keeps its parameter bytes. -/
theorem decodeSection_unknown (code : Byte) (p : List Byte) (h : code.toNat = 0 ∨ 7 < code.toNat) :
    decodeSection code p = some (.unknown code p) := by
  unfold decodeSection
  split <;> first | omega | rfl

theorem decodeSection_encode (x : Section) (h : x.wellFormed = true) :
    decodeSection (sectionCode x) (sectionParams x) = some x := by
  cases x with
  | text chars => rfl
  | feed lines =>
    change some (Section.feed (BitVec.ofNat 16 (unle (le 2 lines.toNat)))) = _
    rw [half_unle_le]
  | eventList first last site =>
    change some (Section.eventList (BitVec.ofNat 32 (unle (le 4 first.toNat)))
      (BitVec.ofNat 32 (unle (le 4 last.toNat))) site) = _
    rw [word_unle_le, word_unle_le]
  | eventDetail id waveform =>
    change some (Section.eventDetail (BitVec.ofNat 32 (unle (le 4 id.toNat))) (bit waveform != 0)) = _
    rw [word_unle_le, bit_ne_zero]
  | intervalTable id orders =>
    have small : orders.length ≤ 250 := by simpa [Section.wellFormed] using h
    have count : (byteAt (sectionParams (.intervalTable id orders)) 4).toNat = orders.length :=
      byte_toNat_ofNat (by omega)
    have size : (sectionParams (.intervalTable id orders)).length = 5 + orders.length := by
      simp [sectionParams, wordField]
      omega
    change (if 5 ≤ (sectionParams (.intervalTable id orders)).length ∧ _ = 5 + BitVec.toNat _ then
      some (Section.intervalTable (BitVec.ofNat 32 (unle (le 4 id.toNat))) orders) else none) = _
    rw [count, size, if_pos ⟨by omega, rfl⟩, word_unle_le]
  | note id amendments =>
    change some (Section.note (BitVec.ofNat 32 (unle (le 4 id.toNat))) (bit amendments != 0)) = _
    rw [word_unle_le, bit_ne_zero]
  | surveySummary => rfl
  | unknown code params =>
    have : (code.toNat = 0 ∨ 7 < code.toNat) ∧ params.length ≤ 255 := by
      simpa [Section.wellFormed] using h
    exact decodeSection_unknown code params this.1

theorem decodeSections_encode (xs : List Section) (h : ∀ x ∈ xs, x.wellFormed = true) :
    decodeSections xs.length (xs.flatMap encodeSection) = some xs := by
  induction xs with
  | nil => rfl
  | cons x xs ih =>
    have hx := h x (List.mem_cons_self ..)
    have size := byte_toNat_ofNat (sectionParams_length x hx)
    have rest := ih fun y hy => h y (List.mem_cons_of_mem _ hy)
    simp [decodeSections, encodeSection, size, decodeSection_encode x hx, rest]

/-! ### Every request -/

theorem decode_siteSet (site : Byte) (c : CarriedSettings) (h : c.wellFormed = true) :
    decodeRequest 0x09 (site :: encodeSettings c) = .ok (.siteSet site c) := by
  have size : ¬(site :: encodeSettings c).length < 3 := by
    simp [encodeSettings]
  have mask : field (site :: encodeSettings c) 1 2 = settingsMask c := by
    simp only [encodeSettings, List.append_assoc]
    exact field_append_le [site] _ _ (settingsMask_lt c)
  change (if (site :: encodeSettings c).length < 3 then Decoded.badLength else
    ofOption ((decodeSettings (field (site :: encodeSettings c) 1 2)
      ((encodeSettings c).drop 2)).map (.siteSet site))) = _
  rw [if_neg size, mask, decodeSettings_encode c h]
  rfl

theorem decode_noteAdd (site kind : Byte) (id : Word) (crew : Crew) (text : List Byte)
    (h : text.length ≤ 989) :
    decodeRequest 0x1D (encodeRequest (.noteAdd site kind id crew text)) =
      .ok (.noteAdd site kind id crew text) := by
  have size : field (encodeRequest (.noteAdd site kind id crew text)) 9 2 = text.length :=
    field_append_le ([site, kind] ++ wordField id ++ [crew.a, crew.b, crew.c]) text text.length
      (by omega)
  have length : (encodeRequest (.noteAdd site kind id crew text)).length = 11 + text.length := by
    simp [encodeRequest, wordField]
    omega
  change sized (11 ≤ (encodeRequest (.noteAdd site kind id crew text)).length &&
    _ == 11 + field (encodeRequest (.noteAdd site kind id crew text)) 9 2)
      (.noteAdd site kind (BitVec.ofNat 32 (unle (le 4 id.toNat))) crew text) = _
  rw [size, length, word_unle_le]
  simp [sized]

theorem decode_noteAmend (id : Word) (crew : Crew) (text : List Byte) (h : text.length ≤ 991) :
    decodeRequest 0x1E (encodeRequest (.noteAmend id crew text)) = .ok (.noteAmend id crew text) := by
  have size : field (encodeRequest (.noteAmend id crew text)) 7 2 = text.length :=
    field_append_le (wordField id ++ [crew.a, crew.b, crew.c]) text text.length (by omega)
  have length : (encodeRequest (.noteAmend id crew text)).length = 9 + text.length := by
    simp [encodeRequest, wordField]
    omega
  change sized (9 ≤ (encodeRequest (.noteAmend id crew text)).length &&
    _ == 9 + field (encodeRequest (.noteAmend id crew text)) 7 2)
      (.noteAmend (BitVec.ofNat 32 (unle (le 4 id.toNat))) crew text) = _
  rw [size, length, word_unle_le]
  simp [sized]

theorem decode_printSubmit (copies : Byte) (sections : List Section)
    (hs : ∀ x ∈ sections, x.wellFormed = true) (hl : sections.length ≤ 255) :
    decodeRequest 0x23 (encodeRequest (.printSubmit copies sections)) =
      .ok (.printSubmit copies sections) := by
  change ofOption ((decodeSections (BitVec.ofNat 8 sections.length).toNat
    (sections.flatMap encodeSection)).map (.printSubmit copies)) = _
  rw [byte_toNat_ofNat hl, decodeSections_encode sections hs]
  rfl

theorem decode_captureRelease (slot : Byte) (serial : Option Half) :
    decodeRequest 0x15 (encodeRequest (.captureRelease slot serial)) =
      .ok (.captureRelease slot serial) := by
  cases serial with
  | none => rfl
  | some serial =>
    change Decoded.ok (.captureRelease slot (some (BitVec.ofNat 16 (unle (le 2 serial.toNat))))) = _
    rw [half_unle_le]

/-- Settles O4: the requests of a fixed layout read each field at its offset, and the six with optional or
variable parts by their own lemmas. -/
theorem requestPayloadsRoundTrip : Obligations.RequestPayloadsRoundTrip := by
  unfold Obligations.RequestPayloadsRoundTrip
  intro r h
  cases r with
  | siteSet site carried => exact decode_siteSet site carried h
  | noteAdd site kind id crew text => exact decode_noteAdd site kind id crew text (of_decide_eq_true h)
  | noteAmend id crew text => exact decode_noteAmend id crew text (of_decide_eq_true h)
  | printSubmit copies sections =>
    have fits : ((∀ x ∈ sections, x.wellFormed = true) ∧ sections.length ≤ 255) ∧
        (sections.map Section.wireSize).sum ≤ 998 := by
      simpa [Request.wellFormed] using h
    obtain ⟨⟨wf, count⟩, _⟩ := fits
    exact decode_printSubmit copies sections wf count
  | captureRelease slot serial => exact decode_captureRelease slot serial
  | supplySet low critical schedule =>
    exact congrArg ofOption (decodeSupplySet_encode low critical schedule)
  | trackFixed freq =>
    change Decoded.ok (.trackFixed (BitVec.ofNat 32 (unle (le 4 freq.toNat)))) = _
    rw [word_unle_le]
  | trackStatus clear => cases clear <;> rfl
  | supplyStatus clear => cases clear <;> rfl
  | clockSet sec ms =>
    change Decoded.ok (.clockSet (BitVec.ofNat 32 (unle (le 4 sec.toNat)))
      (BitVec.ofNat 16 (unle (le 2 ms.toNat)))) = _
    rw [word_unle_le, half_unle_le]
  | recordList kind fromId count =>
    change Decoded.ok (.recordList kind (BitVec.ofNat 32 (unle (le 4 fromId.toNat))) count) = _
    rw [word_unle_le]
  | recordRead kind id =>
    change Decoded.ok (.recordRead kind (BitVec.ofNat 32 (unle (le 4 id.toNat)))) = _
    rw [word_unle_le]
  | recordDelete kind id =>
    change Decoded.ok (.recordDelete kind (BitVec.ofNat 32 (unle (le 4 id.toNat)))) = _
    rw [word_unle_le]
  | noteAttach id kind target =>
    change Decoded.ok (.noteAttach (BitVec.ofNat 32 (unle (le 4 id.toNat))) kind
      (BitVec.ofNat 32 (unle (le 4 target.toNat)))) = _
    rw [word_unle_le, word_unle_le]
  | noteDelete id =>
    change Decoded.ok (.noteDelete (BitVec.ofNat 32 (unle (le 4 id.toNat)))) = _
    rw [word_unle_le]
  | noteLock upto =>
    change Decoded.ok (.noteLock (BitVec.ofNat 32 (unle (le 4 upto.toNat)))) = _
    rw [word_unle_le]
  | noteList fromId count =>
    change Decoded.ok (.noteList (BitVec.ofNat 32 (unle (le 4 fromId.toNat))) count) = _
    rw [word_unle_le]
  | printCancel job =>
    change Decoded.ok (.printCancel (BitVec.ofNat 16 (unle (le 2 job.toNat)))) = _
    rw [half_unle_le]
  | noticeMask mask =>
    change Decoded.ok (.noticeMask (BitVec.ofNat 16 (unle (le 2 mask.toNat)))) = _
    rw [half_unle_le]
  | podRoster => rfl
  | podStatus slot => rfl
  | podRetry slot => rfl
  | podClear slot => rfl
  | trackRef slot => rfl
  | siteGet site => rfl
  | assign slot site role => rfl
  | surveyStart => rfl
  | surveyHold => rfl
  | surveyResume => rfl
  | surveyEnd => rfl
  | surveyNew => rfl
  | surveyStatus => rfl
  | sagStatus site => rfl
  | captureList => rfl
  | captureRead slot segment member first cycles => rfl
  | harmonicStatus site => rfl
  | storeStatus => rfl
  | storeMode mode => rfl
  | storeWipe => rfl
  | printResume => rfl
  | printDoneRead => rfl
  | printStatus => rfl
  | reset domains => rfl
  | identify => rfl

end Sys2Proof.Machine
end

