-- ==== Sys2Proof/Proofs/Receiver.lean ====
section
/-!
PROOFS. The link receiver byte by byte (R176), the frame it takes whole, and the arrival of a request as one
frame (R177): O5 and O13.
-/

namespace Sys2Proof.Machine

/-! ### The receiver's state -/

/-- The state with the receiver in `rx`. -/
def withRx (rx : Receiver) (s : State) : State := setLink (fun l => { l with rx := rx }) s

@[simp] theorem withRx_rx (rx : Receiver) (s : State) : (withRx rx s).link.rx = rx := rfl

@[simp] theorem withRx_held (rx : Receiver) (s : State) : (withRx rx s).held = s.held := rfl

@[simp] theorem withRx_queue (rx : Receiver) (s : State) : (withRx rx s).link.queue = s.link.queue := rfl

theorem withRx_withRx (rx rx' : Receiver) (s : State) : withRx rx (withRx rx' s) = withRx rx s := rfl

theorem withRx_self {rx : Receiver} {s : State} (h : s.link.rx = rx) : withRx rx s = s := by
  subst h; rfl

theorem framingFault_queue (s : State) : (framingFault s).link.queue = s.link.queue := rfl

/-! ### One byte -/

/-- A byte on a part that runs with no frame waiting does what the receiver does with it, where no frame
waits after it either. -/
theorem exec_byte (b : Byte) (stopBit : Bool) (s : State) (h : s.held = false)
    (hq : (receiveByte b stopBit s).link.queue = []) :
    exec (.linkByteReceived b stopBit) s = .next (receiveByte b stopBit s) :=
  event_quiet _ s h hq

theorem exec_goodByte {b : Byte} {s t : State} (h : s.held = false) (e : goodByte b s = t)
    (hq : t.link.queue = []) : exec (.linkByteReceived b true) s = .next t := by
  subst e
  exact exec_byte b true s h hq

theorem goodByte_hunt (b : Byte) (s : State) (h : s.link.rx = .hunt) :
    goodByte b s = if b = 0xA5 then withRx (.header []) s else s := by
  simp only [goodByte, h]
  rfl

theorem goodByte_header (b : Byte) (bs : List Byte) (s : State) (h : s.link.rx = .header bs)
    (hl : bs.length < 3) : goodByte b s = withRx (.header (bs ++ [b])) s := by
  have : (bs ++ [b]).length < 4 := by simp; omega
  simp only [goodByte, h, if_pos this]
  rfl

/-- The fourth header byte ends the header: its length is judged (R176). -/
theorem goodByte_headerEnds (b l0 l1 kind : Byte) (s : State)
    (h : s.link.rx = .header [l0, l1, kind]) :
    goodByte b s = if 1000 < l0.toNat + 256 * l1.toNat then framingFault s
      else withRx (.body (l0.toNat + 256 * l1.toNat) kind.toNat b.toNat []) s := by
  simp only [goodByte, h]
  rfl

theorem goodByte_body (b : Byte) {length kind tag : Nat} {bs : List Byte} (s : State)
    (h : s.link.rx = .body length kind tag bs) (hl : bs.length + 1 < length + 2) :
    goodByte b s = withRx (.body length kind tag (bs ++ [b])) s := by
  have : (bs ++ [b]).length < length + 2 := by simpa using hl
  simp only [goodByte, h, if_pos this]
  rfl

theorem goodByte_bodyEnds (b : Byte) {length kind tag : Nat} {bs : List Byte} (s : State)
    (h : s.link.rx = .body length kind tag bs) (hl : bs.length + 1 = length + 2) :
    goodByte b s = checkFrame length kind tag (bs ++ [b]) s := by
  have : ¬(bs ++ [b]).length < length + 2 := by simp; omega
  simp only [goodByte, h, if_neg this]

theorem receiving_iff (l : Link) : receiving l = true ↔ l.rx ≠ .hunt := by
  simp [receiving]

/-! ### A whole frame -/

theorem execAll_append {xs : List Instr} {s t : State} (ys : List Instr)
    (h : execAll xs s = .next t) : execAll (xs ++ ys) s = execAll ys t := by
  induction xs generalizing s with
  | nil => cases h; rfl
  | cons c cs ih =>
    simp only [List.cons_append, execAll] at h ⊢
    cases e : exec c s with
    | next u => simp only [e] at h ⊢; exact ih h
    | fault r => simp only [e] at h; cases h
    | refused r => simp only [e] at h; cases h

/-- The bytes as they arrive, each with its stop bit. -/
abbrev arrivals (bs : List Byte) : List Instr := bs.map fun b => .linkByteReceived b true

/-- A run of bytes that does not end the body is collected. -/
theorem execAll_body {length kind tag : Nat} (q : List Byte) : ∀ (bs : List Byte) (s : State),
    Quiet s → (bs ++ q).length < length + 2 →
    execAll (arrivals q) (withRx (.body length kind tag bs) s) =
      .next (withRx (.body length kind tag (bs ++ q)) s) := by
  induction q with
  | nil => intro bs s _ _; rw [List.append_nil]; rfl
  | cons b q ih =>
    intro bs s h hl
    have ⟨held, empty⟩ := h
    have short : bs.length + 1 < length + 2 := by simp at hl; omega
    have taken := goodByte_body b (withRx (.body length kind tag bs) s) rfl short
    have step := exec_goodByte (s := withRx (.body length kind tag bs) s)
      (t := withRx (.body length kind tag (bs ++ [b])) s) held taken empty
    change (match exec (.linkByteReceived b true) (withRx (.body length kind tag bs) s) with
      | .next t => execAll (arrivals q) t
      | o => o) = _
    rw [step]
    have rest := ih (bs ++ [b]) s h (by simpa using hl)
    simpa using rest

theorem crcShift_lt (c : Nat) : crcShift c < 65536 := by
  unfold crcShift
  split <;> exact Nat.mod_lt _ (by decide)

theorem crc16_lt (bs : List Byte) : crc16 bs < 65536 := by
  unfold crc16
  refine List.foldlRecOn (motive := fun c => c < 65536) bs crcByte (by decide) fun c _ b _ => ?_
  exact crcShift_lt _

theorem le_one (b : Byte) : le 1 b.toNat = [b] := by simp [le]

theorem le_two (n : Nat) : le 2 n = [BitVec.ofNat 8 n, BitVec.ofNat 8 (n / 256)] := rfl

/-- R176: the CRC at the end of a frame's body is that of the frame. -/
theorem checkFrame_good (kind : Nat) (tag : Byte) (p : List Byte) (s : State) :
    checkFrame p.length kind tag.toNat (p ++ le 2 (crc16 (frameCore kind tag p))) s =
      offerFrame ⟨kind, tag, p⟩ (withRx .hunt s) := by
  have payload : (p ++ le 2 (crc16 (frameCore kind tag p))).take p.length = p := by simp
  have crc : field (p ++ le 2 (crc16 (frameCore kind tag p))) p.length 2 =
      crc16 (frameCore kind tag p) := by
    have := field_append_le p [] _ (crc16_lt (frameCore kind tag p))
    rwa [List.append_nil] at this
  have core : le 2 p.length ++ le 1 kind ++ le 1 tag.toNat ++ p = frameCore kind tag p := by
    rw [le_one]; rfl
  unfold checkFrame
  rw [payload, crc, core, if_pos rfl, BitVec.ofNat_toNat, BitVec.setWidth_eq]
  rfl

/-- The first five bytes of a frame take the receiver from HUNT to the frame's body. -/
theorem execAll_header (kind : Nat) (tag : Byte) (n : Nat) (s : State) (h : Quiet s)
    (hr : s.link.rx = .hunt) (hk : kind < 256) (hn : n ≤ 1000) :
    execAll (arrivals (0xA5 :: (le 2 n ++ le 1 kind ++ [tag]))) s =
      .next (withRx (.body n kind tag.toNat []) s) := by
  have ⟨held, empty⟩ := h
  have sync := exec_goodByte held (goodByte_hunt 0xA5 s hr) empty
  have collect : ∀ (b : Byte) (bs : List Byte), bs.length < 3 →
      exec (.linkByteReceived b true) (withRx (.header bs) s) =
        .next (withRx (.header (bs ++ [b])) s) :=
    fun b bs hl => exec_goodByte held (goodByte_header b bs _ rfl hl) empty
  have one := collect (BitVec.ofNat 8 n) [] (by simp)
  have two := collect (BitVec.ofNat 8 (n / 256)) [BitVec.ofNat 8 n] (by simp)
  have three := collect (BitVec.ofNat 8 kind) [BitVec.ofNat 8 n, BitVec.ofNat 8 (n / 256)] (by simp)
  have lenEq : (BitVec.ofNat 8 n).toNat + 256 * (BitVec.ofNat 8 (n / 256)).toNat = n := by
    simp only [BitVec.toNat_ofNat]
    omega
  have kindEq : (BitVec.ofNat 8 kind).toNat = kind := byte_toNat_ofNat (by omega)
  have four := exec_goodByte (b := tag)
    (s := withRx (.header [BitVec.ofNat 8 n, BitVec.ofNat 8 (n / 256), BitVec.ofNat 8 kind]) s)
    (t := withRx (.body n kind tag.toNat []) s) held
    (by rw [goodByte_headerEnds tag _ _ _ _ rfl, lenEq, kindEq, if_neg (by omega)]; rfl) empty
  change (match exec (.linkByteReceived 0xA5 true) s with
    | .next t => execAll (arrivals (le 2 n ++ le 1 kind ++ [tag])) t
    | o => o) = _
  rw [sync]
  simp only [le, List.cons_append, List.nil_append, List.map_cons, List.map_nil, execAll]
  simp only [if_true, one, List.nil_append, two, List.cons_append, three, four]

/-- The bytes of a good frame, received one by one from HUNT, offer the frame to the receive queue. -/
theorem execAll_frame (kind : Nat) (tag : Byte) (p : List Byte) (s : State) (h : Quiet s)
    (hr : s.link.rx = .hunt) (hk : kind < 256) (hp : p.length ≤ 1000) :
    execAll (arrivals (frameBytes kind tag p)) s = .next (pump (offerFrame ⟨kind, tag, p⟩ s)) := by
  have ⟨held, empty⟩ := h
  set crc := crc16 (frameCore kind tag p) with hcrc
  set c0 : Byte := BitVec.ofNat 8 crc
  set c1 : Byte := BitVec.ofNat 8 (crc / 256)
  have bytes : frameBytes kind tag p =
      (0xA5 :: (le 2 p.length ++ le 1 kind ++ [tag])) ++ ((p ++ [c0]) ++ [c1]) := by
    simp only [frameBytes, ← hcrc]
    simp [frameCore, le_two, c0, c1]
  have body : execAll (arrivals (p ++ [c0])) (withRx (.body p.length kind tag.toNat []) s) =
      .next (withRx (.body p.length kind tag.toNat (p ++ [c0])) s) :=
    execAll_body (p ++ [c0]) [] s h (by simp)
  have checked : goodByte c1 (withRx (.body p.length kind tag.toNat (p ++ [c0])) s) =
      offerFrame ⟨kind, tag, p⟩ s := by
    rw [goodByte_bodyEnds c1 _ rfl (by simp), List.append_assoc]
    refine (checkFrame_good kind tag p _).trans ?_
    rw [withRx_withRx, withRx_self hr]
  have last : exec (.linkByteReceived c1 true)
      (withRx (.body p.length kind tag.toNat (p ++ [c0])) s) =
        .next (pump (offerFrame ⟨kind, tag, p⟩ s)) := by
    rw [exec_event (f := receiveByte c1 true) rfl, event_next,
      withRx_held, if_neg (by rw [held]; decide)]
    exact congrArg (fun u => Host.Outcome.next (pump u)) checked
  rw [bytes, arrivals, List.map_append, execAll_append _ (execAll_header kind tag _ s h hr hk hp),
    List.map_append, execAll_append _ body]
  change (match exec (.linkByteReceived c1 true) _ with
    | .next t => execAll [] t
    | o => o) = _
  rw [last]
  rfl

/-! ### A request as a frame and as a command -/

theorem optBytes_length_le {α : Type} {f : α → List Byte} {n : Nat} (hf : ∀ x, (f x).length ≤ n)
    (o : Option α) : (optBytes f o).length ≤ n := by
  cases o with
  | none => exact Nat.zero_le _
  | some x => exact hf x

theorem encodeSettings_length_le (c : CarriedSettings) (h : c.wellFormed = true) :
    (encodeSettings c).length ≤ 999 := by
  have flag : ∀ o : Option Bool, (optBytes (fun b => [bit b]) o).length ≤ 1 :=
    optBytes_length_le fun _ => Nat.le_refl 1
  have half : ∀ o : Option Half, (optBytes halfField o).length ≤ 2 :=
    optBytes_length_le fun _ => Nat.le_refl 2
  have byte : ∀ o : Option Byte, (optBytes byteField o).length ≤ 1 :=
    optBytes_length_le fun _ => Nat.le_refl 1
  have name : (optBytes (fun cs => BitVec.ofNat 8 cs.length :: cs) c.name).length ≤ 256 := by
    cases e : c.name with
    | none => exact Nat.zero_le _
    | some chars =>
      have : chars.length ≤ 255 := by simpa [CarriedSettings.wellFormed, e] using h
      simp [optBytes]
      omega
  simp only [encodeSettings, List.length_append, le_length]
  have := flag c.enabled; have := flag c.rotCheck
  have := half c.udin; have := half c.st; have := half c.ti
  have := byte c.h; have := byte c.nc; have := byte c.pc; have := byte c.wc; have := byte c.pe
  have := byte c.we; have := byte c.hmax; have := byte c.interval
  omega

theorem encodeSection_length (x : Section) : (encodeSection x).length = x.wireSize := by
  cases x <;> simp [encodeSection, sectionParams, Section.wireSize, wordField, halfField] <;> omega

/-- Every request that can be formed fits a frame (R176). -/
theorem encodeRequest_length_le (r : Request) (h : r.wellFormed = true) :
    (encodeRequest r).length ≤ 1000 := by
  cases r with
  | siteSet site carried =>
    have := encodeSettings_length_le carried h
    exact Nat.succ_le_succ this
  | noteAdd site kind id crew text =>
    have : text.length ≤ 989 := of_decide_eq_true h
    simp [encodeRequest, wordField]
    omega
  | noteAmend id crew text =>
    have : text.length ≤ 991 := of_decide_eq_true h
    simp [encodeRequest, wordField]
    omega
  | printSubmit copies sections =>
    have fits : ((∀ x ∈ sections, x.wellFormed = true) ∧ sections.length ≤ 255) ∧
        (sections.map Section.wireSize).sum ≤ 998 := by
      simpa [Request.wellFormed] using h
    have size : (sections.flatMap encodeSection).length = (sections.map Section.wireSize).sum := by
      rw [List.length_flatMap]
      simp only [encodeSection_length]
    simp only [encodeRequest, List.length_append, size, List.length_cons, List.length_nil]
    omega
  | captureRelease slot serial => cases serial <;> simp [encodeRequest, optBytes, halfField]
  | supplySet low critical schedule =>
    have half : ∀ o : Option Half, (optBytes halfField o).length ≤ 2 :=
      optBytes_length_le fun _ => Nat.le_refl 2
    have byte : (optBytes byteField schedule).length ≤ 1 :=
      optBytes_length_le (fun _ => Nat.le_refl 1) schedule
    have := half low; have := half critical
    simp [encodeRequest]
    omega
  | _ => exact of_decide_eq_true rfl

theorem requestCode_lt (r : Request) : requestCode r < 256 := by
  cases r <;> exact of_decide_eq_true rfl

/-- A frame whose payload reads as a request serves it. -/
theorem takeFrame_request {f : Frame} {r : Request} (s : State)
    (h : decodeRequest f.kind f.payload = .ok r) :
    takeFrame f s = serve r (waiting f.kind f.tag s) := by
  simp only [takeFrame, h]
  rfl

/-- The arrival of a request on a link with no frame waiting is the arrival of its frame. -/
theorem pump_offerFrame_request (tag : Byte) (r : Request) (s : State) (h : s.link.queue = [])
    (hd : decodeRequest (requestCode r) (encodeRequest r) = .ok r) :
    pump (offerFrame ⟨requestCode r, tag, encodeRequest r⟩ s) = arrive tag r s := by
  unfold arrive
  rw [h]
  cases free : linkFree s.link with
  | false =>
    have busy : pump (setLink (fun l => { l with queue := l.queue ++
        [⟨requestCode r, tag, encodeRequest r⟩] }) s) = _ := pump_busy _ free
    simp only [Bool.false_and, Bool.false_eq_true, if_false, offerFrame, h, List.length_nil]
    rw [if_pos (by decide), busy]
    exact pump_busy _ free
  | true =>
    have served : offerFrame ⟨requestCode r, tag, encodeRequest r⟩ s =
        serve r (waiting (requestCode r) tag s) := by
      unfold offerFrame pump Config.receivePlaces
      rw [if_pos (by rw [h]; decide)]
      unfold pumpFrom
      simp only [setLink_link, h, List.nil_append]
      have free' : linkFree { s.link with queue := [⟨requestCode r, tag, encodeRequest r⟩] } = true :=
        free
      rw [if_pos free']
      have taken : takeFrame ⟨requestCode r, tag, encodeRequest r⟩ s =
          serve r (waiting (requestCode r) tag s) := takeFrame_request s hd
      have same : setLink (fun l => { l with queue := [] })
          (setLink (fun l => { l with queue := l.queue ++
            [⟨requestCode r, tag, encodeRequest r⟩] }) s) = s := setQueue_self s [] h
      have empty : (serve r (waiting (requestCode r) tag s)).link.queue = [] :=
        (serve_link r _).2.1.trans h
      rw [same, taken]
      unfold pumpFrom
      rw [empty]
    rw [served]
    rfl

/-! ### O5 and O13 -/

/-- Settles O5: the bytes offer the request's frame, which is read back as the request. -/
theorem frameBytesAreTheRequest : Obligations.FrameBytesAreTheRequest := by
  unfold Obligations.FrameBytesAreTheRequest
  intro r tag s wf h hr
  have ⟨held, empty⟩ := h
  rw [execAll_frame _ tag _ s h hr (requestCode_lt r) (encodeRequest_length_le r wf),
    pump_offerFrame_request tag r s empty (requestPayloadsRoundTrip r wf), exec_command, running_next,
    if_neg (by rw [held]; decide)]

/-- Settles O13: each clause is one row of the receiver, on a part with no frame waiting. -/
theorem receiverFollowsItsStates : Obligations.ReceiverFollowsItsStates := by
  unfold Obligations.ReceiverFollowsItsStates
  intro b s h set fault
  have ⟨held, empty⟩ := h
  have good : ∀ t, goodByte b s = t → t.link.queue = [] →
      exec (.linkByteReceived b true) s = .next t := fun t => exec_goodByte held
  have bad : exec (.linkByteReceived b false) s =
      .next (if receiving s.link then framingFault s else s) := by
    refine exec_byte b false s held ?_
    change (if receiving s.link then framingFault s else s).link.queue = []
    split <;> exact empty
  have late : exec .interbyteTimeout s = .next (if receiving s.link then framingFault s else s) := by
    refine event_quiet interbyteTimeout s held ?_
    unfold interbyteTimeout
    split <;> exact empty
  refine ⟨?hunt, ?header, ?headerEnds, ?body, ?badCrc, ?faults⟩
  case hunt =>
    intro hr
    have idle : ¬receiving s.link = true := fun k => (receiving_iff _).1 k hr
    refine ⟨good _ (goodByte_hunt b s hr) ?_, by rw [bad, if_neg idle], by rw [late, if_neg idle]⟩
    split <;> exact empty
  case header =>
    intro bytes hr hl
    exact good _ (goodByte_header b bytes s hr hl) empty
  case headerEnds =>
    intro l0 l1 kind hr
    refine good _ (goodByte_headerEnds b l0 l1 kind s hr) ?_
    split <;> exact empty
  case body =>
    intro length kind tag p hr hl
    exact good _ (goodByte_body b s hr hl) empty
  case badCrc =>
    intro length kind tag p hr hl hcrc
    refine good _ ((goodByte_bodyEnds b s hr hl).trans ?_) empty
    have payload : (p ++ [b]).take length = p.take length := by
      rw [List.take_append_of_le_length (by omega)]
    unfold checkFrame
    rw [payload, if_neg hcrc]
    rfl
  case faults =>
    intro hr
    have busy := (receiving_iff s.link).2 hr
    exact ⟨by rw [bad, if_pos busy]; rfl, by rw [late, if_pos busy]; rfl⟩

end Sys2Proof.Machine
end

