-- ==== Sys2Proof/Proofs/LinkRequests.lean ====
section
/-!
PROOFS. The requests of the link's own chapter, a posted notice, and what becomes of a frame by the state of
the link, its kind and its length (R177, R178, R180 to R182, R184): O11, O12 and O16.
-/

namespace Sys2Proof.Machine

/-! ### O11 -/

/-- A request on a free link whose rule refuses it replies with the status and moves nothing else. -/
theorem request_refused (tag : Byte) (r : Request) (status : Status) (s : State) (h : Ready s)
    (hr : ∀ u : State, u = waiting (requestCode r) tag s → serve r u = refuse status u) :
    exec (r.command tag) s = .next (replied (replyKind (requestCode r)) tag status .empty s) := by
  have ⟨_, hc, _, _⟩ := h
  rw [exec_command, request_ready tag r s h, hr _ rfl, refuse_waiting _ _ _ _ hc]

/-- A request on a free link whose rule answers at once, leaving the rest of the state. -/
theorem request_answered (tag : Byte) (r : Request) (status : Status) (body : ReplyBody) (s t : State)
    (h : Ready s) (ht : t.link.current = none)
    (hr : serve r (waiting (requestCode r) tag s) =
      answer status body (waiting (requestCode r) tag t)) :
    exec (r.command tag) s = .next (replied (replyKind (requestCode r)) tag status body t) := by
  rw [exec_command, request_ready tag r s h, hr, answer_waiting _ _ _ _ _ ht]

theorem domains?_of_range (b : Byte) (h1 : 1 ≤ b.toNat) (h7 : b.toNat ≤ 7) :
    domains? b = some ⟨b.getLsbD 0, b.getLsbD 1, b.getLsbD 2⟩ := by
  have : ¬(b = 0 ∨ 8 ≤ b.toNat) := by
    rintro (rfl | h8)
    · exact absurd h1 (by decide)
    · omega
  rw [domains?, if_neg this]

/-- An accepted RESET: its reply waits and the request stays in progress (R181, R182). -/
theorem acceptReset_waiting (d : Domains) (kind : Nat) (tag : Byte) (s : State) :
    acceptReset d (waiting kind tag s) =
      replied (replyKind kind) tag .ok .empty
        { s with link := { s.link with
          current := some ⟨kind, tag, false⟩, cause := .link, domains := d
          resets := satInc 65535 s.link.resets, owed := some ⟨d, false⟩ } } := rfl

/-- Settles O11. -/
theorem linkRequestsAnswer : Obligations.LinkRequestsAnswer := by
  unfold Obligations.LinkRequestsAnswer
  intro tag s h
  have ⟨_, hc, _, _⟩ := h
  refine ⟨?mask, ?badMask, ?reset, ?badReset, ?identify⟩
  case mask =>
    intro mask hm
    refine request_answered tag (.noticeMask mask) .ok (.mask mask) s
      (setLink (fun l => { l with mask := mask }) s) h hc ?_
    change noticeMask mask _ = _
    rw [noticeMask, if_neg (by omega)]
    rfl
  case badMask =>
    intro mask hm
    refine request_refused tag (.noticeMask mask) .badValue s h fun u _ => ?_
    exact if_pos hm
  case reset =>
    intro domains h1 h7 set
    change exec (Request.command tag (.reset domains)) s = _
    rw [exec_command, request_ready tag (.reset domains) s h]
    change Host.Outcome.next (linkReset domains _) = _
    rw [linkReset, domains?_of_range domains h1 h7]
    exact congrArg _ (acceptReset_waiting set 0x2B tag s)
  case badReset =>
    intro domains hd
    refine request_refused tag (.reset domains) .badValue s h fun u _ => ?_
    change linkReset domains u = _
    rw [linkReset, domains?, if_pos hd]
  case identify => exact request_answered tag .identify .ok _ s s h hc rfl

/-! ### O16 -/

/-- While the transmitter sends it takes no other frame. -/
theorem startTransmit_sending (l : Link) (h : l.sending.isSome = true) : l.startTransmit = l := by
  simp [Link.startTransmit, h]

theorem post_unowed (b : NoticeBody) (s : State) (h : s.link.owed = none) :
    post b s = { s with link := s.link.offerNotice ⟨b, s.clock.time⟩ } := by
  unfold post Link.post
  rw [noticeReset_unowed _ h]

/-- Settles O16. -/
theorem postedNoticeIsHandled : Obligations.PostedNoticeIsHandled := by
  unfold Obligations.PostedNoticeIsHandled
  intro b s owed sending
  rw [post_unowed b s owed]
  unfold Link.offerNotice
  refine ⟨fun masked => ?masked, fun open_ room => ?queued, fun open_ full => ?lost⟩
  case masked => simp [masked]
  case queued =>
    have fits : s.link.notices.length < Config.noticePlaces := room
    simp only [open_, Bool.not_true, Bool.false_eq_true, if_false, if_pos fits]
    rw [startTransmit_sending { s.link with notices := s.link.notices ++ _ } sending]
  case lost =>
    have full' : ¬s.link.notices.length < Config.noticePlaces := Nat.not_lt.2 full
    simp only [open_, Bool.not_true, Bool.false_eq_true, if_false, if_neg full']
    rfl

/-! ### The length of a payload (R184) -/

/-- The reading `d` of a payload of the kind is a request of that kind where `c` holds, and BAD_LENGTH
where it does not. -/
def ReadsWhere (kind : Nat) (c : Bool) (d : Decoded) : Prop :=
  (c = false → d = .badLength) ∧ (c = true → ∃ r, requestCode r = kind ∧ d = .ok r)

theorem sized_reads {kind : Nat} {r : Request} (c : Bool) (h : requestCode r = kind) :
    ReadsWhere kind c (sized c r) := by
  cases c with
  | false => exact ⟨fun _ => rfl, fun k => (nomatch k)⟩
  | true => exact ⟨fun k => (nomatch k), fun _ => ⟨r, h, rfl⟩⟩

/-- A kind whose payload has one length. -/
theorem fixed_reads {kind : Nat} {r : Request} (n : Nat) (p : List Byte) (h : requestCode r = kind) :
    ReadsWhere kind ([n].contains p.length) (sized (p.length == n) r) := by
  have e : [n].contains p.length = (p.length == n) := by simp [beq_eq_decide]
  rw [e]
  exact sized_reads _ h

/-- An optional reading is BAD_LENGTH where it is none. -/
theorem ofOption_reads {α : Type} {kind : Nat} {c : Bool} {o : Option α} {f : α → Request}
    (hf : ∀ a, requestCode (f a) = kind) (h : o.isSome = c) :
    ReadsWhere kind c (ofOption (o.map f)) := by
  cases o with
  | none => subst h; exact ⟨fun _ => rfl, fun k => (nomatch k)⟩
  | some a => subst h; exact ⟨fun k => (nomatch k), fun _ => ⟨f a, hf a, rfl⟩⟩

theorem field_two (p : List Byte) (off : Nat) (h : off + 2 ≤ p.length) :
    field p off 2 = (p.getD off 0).toNat + 256 * (p.getD (off + 1) 0).toNat := by
  have two : (p.drop off).take 2 = [p.getD off 0, p.getD (off + 1) 0] := by
    rw [List.getD_eq_getElem _ _ (by omega), List.getD_eq_getElem _ _ (by omega),
      List.drop_eq_getElem_cons (by omega), List.drop_eq_getElem_cons (by omega)]
    rfl
  rw [field, two]
  simp [unle]

/-- A field reader takes `k` bytes, and fails where there are fewer. -/
def Takes {α : Type} (x : Option (α × List Byte)) (p : List Byte) (k : Nat) : Prop :=
  (p.length < k → x = none) ∧ (k ≤ p.length → ∃ a, x = some (a, p.drop k))

theorem takeNumber_takes (n : Nat) (carried : Bool) (p : List Byte) :
    Takes (takeNumber n carried p) p (if carried then n else 0) := by
  cases carried with
  | false => exact ⟨fun h => absurd h (Nat.not_lt_zero _), fun _ => ⟨none, rfl⟩⟩
  | true =>
    refine ⟨fun h => ?_, fun h => ⟨some (unle (p.take n)), ?_⟩⟩
    · exact if_pos h
    · exact if_neg (Nat.not_lt.2 h)

theorem takeName_takes (carried : Bool) (p : List Byte) :
    Takes (takeName carried p) p (if carried then 1 + (p.getD 0 0).toNat else 0) := by
  cases carried with
  | false => exact ⟨fun h => absurd h (Nat.not_lt_zero _), fun _ => ⟨none, rfl⟩⟩
  | true =>
    cases p with
    | nil => exact ⟨fun _ => rfl, fun h => absurd h (by simp)⟩
    | cons n rest =>
      refine ⟨fun h => ?_, fun h => ⟨some (rest.take n.toNat), ?_⟩⟩
      · have : rest.length < n.toNat := by simp at h; omega
        exact if_pos this
      · have : ¬rest.length < n.toNat := by simp at h; omega
        refine (if_neg this).trans ?_
        rw [show (if true = true then 1 + ((n :: rest).getD 0 0).toNat else 0) = n.toNat + 1 by
          simp; omega]
        rfl

/-- A reader followed by one that takes exactly `c` bytes takes exactly the sum. -/
theorem bind_isSome {α β : Type} {x : Option (α × List Byte)} {p : List Byte} {k c : Nat}
    {f : α × List Byte → Option β} (hx : Takes x p k)
    (hf : ∀ a, (f (a, p.drop k)).isSome = ((p.drop k).length == c)) :
    (x >>= f).isSome = (p.length == k + c) := by
  obtain ⟨short, long⟩ := hx
  by_cases h : p.length < k
  · rw [short h]
    exact (beq_false_of_ne (by omega)).symm
  · obtain ⟨a, e⟩ := long (by omega)
    rw [e]
    refine (hf a).trans ?_
    rw [List.length_drop, Bool.eq_iff_iff, beq_iff_eq, beq_iff_eq]
    omega

/-- A carried number followed by a reader that takes `c` bytes wherever it stands. -/
theorem takeNumber_bind_isSome {β : Type} (n : Nat) (carried : Bool) (p : List Byte) {c : Nat}
    {f : Option Nat × List Byte → Option β}
    (hf : ∀ a q, (f (a, q)).isSome = (q.length == c)) :
    (takeNumber n carried p >>= f).isSome = (p.length == (if carried then n else 0) + c) :=
  bind_isSome (takeNumber_takes n carried p) fun a => hf a _

theorem ifEmpty_isSome {α : Type} (x : α) (q : List Byte) :
    (if q.isEmpty then some x else none).isSome = (q.length == 0) := by
  cases q <;> rfl

/-- Bytes that the bit of a mask selects. -/
abbrev carriedSize (mask k width : Nat) : Nat := if mask.testBit k then width else 0

theorem decodeSettings_isSome (mask : Nat) (p : List Byte) :
    (decodeSettings mask p).isSome = (p.length == carriedSize mask 0 1 +
      (carriedSize mask 1 (1 + ((p.drop (carriedSize mask 0 1)).getD 0 0).toNat) +
      (carriedSize mask 2 2 + (carriedSize mask 3 2 + (carriedSize mask 4 1 + (carriedSize mask 5 2 +
      (carriedSize mask 6 1 + (carriedSize mask 7 1 + (carriedSize mask 8 1 + (carriedSize mask 9 1 +
      (carriedSize mask 10 1 + (carriedSize mask 11 1 + (carriedSize mask 12 1 +
      (carriedSize mask 13 1 + 0)))))))))))))) := by
  unfold decodeSettings
  refine bind_isSome (takeNumber_takes 1 _ p) fun _ => ?_
  refine bind_isSome (takeName_takes _ _) fun _ => ?_
  refine takeNumber_bind_isSome 2 _ _ fun _ _ => ?_
  refine takeNumber_bind_isSome 2 _ _ fun _ _ => ?_
  refine takeNumber_bind_isSome 1 _ _ fun _ _ => ?_
  refine takeNumber_bind_isSome 2 _ _ fun _ _ => ?_
  refine takeNumber_bind_isSome 1 _ _ fun _ _ => ?_
  refine takeNumber_bind_isSome 1 _ _ fun _ _ => ?_
  refine takeNumber_bind_isSome 1 _ _ fun _ _ => ?_
  refine takeNumber_bind_isSome 1 _ _ fun _ _ => ?_
  refine takeNumber_bind_isSome 1 _ _ fun _ _ => ?_
  refine takeNumber_bind_isSome 1 _ _ fun _ _ => ?_
  refine takeNumber_bind_isSome 1 _ _ fun _ _ => ?_
  refine takeNumber_bind_isSome 1 _ _ fun _ _ => ?_
  exact ifEmpty_isSome _ _

theorem siteSet_reads (p : List Byte) :
    ReadsWhere 0x09 (payloadSuits 0x09 p) (decodeRequest 0x09 p) := by
  change ReadsWhere _ (3 ≤ p.length && _) (if p.length < 3 then .badLength else
    ofOption ((decodeSettings (field p 1 2) (p.drop 3)).map (.siteSet (byteAt p 0))))
  by_cases h : p.length < 3
  · rw [if_pos h, decide_eq_false (by omega), Bool.false_and]
    exact ⟨fun _ => rfl, fun k => (nomatch k)⟩
  · rw [if_neg h, decide_eq_true (by omega), Bool.true_and]
    refine ofOption_reads (fun _ => rfl) ?_
    have name : ∀ n, ((p.drop 3).drop n).getD 0 0 = p.getD (3 + n) 0 := by
      intro n
      simp [List.getD_eq_getElem?_getD, List.getElem?_drop]
    have mask : field p 1 2 = (p.getD 1 0).toNat + 256 * (p.getD 2 0).toNat := field_two p 1 (by omega)
    rw [decodeSettings_isSome, mask, name, List.length_drop, Bool.eq_iff_iff,
      beq_iff_eq, beq_iff_eq]
    dsimp only [carriedSize]
    omega

theorem supplySet_isSome (mask : Byte) (p : List Byte) :
    (decodeSupplySet mask p).isSome = (p.length == (if mask.getLsbD 0 then 2 else 0) +
      ((if mask.getLsbD 1 then 2 else 0) + ((if mask.getLsbD 2 then 1 else 0) + 0))) := by
  unfold decodeSupplySet
  refine takeNumber_bind_isSome 2 _ _ fun _ _ => ?_
  refine takeNumber_bind_isSome 2 _ _ fun _ _ => ?_
  refine takeNumber_bind_isSome 1 _ _ fun _ _ => ?_
  exact ifEmpty_isSome _ _

theorem decodeSupplySet_code {mask : Byte} {p : List Byte} {r : Request}
    (h : decodeSupplySet mask p = some r) : requestCode r = 0x28 := by
  unfold decodeSupplySet at h
  simp only [Option.bind_eq_bind, Option.bind_eq_some_iff] at h
  obtain ⟨_, _, _, _, _, _, h⟩ := h
  split at h
  · cases h; rfl
  · cases h

theorem supplySet_reads (p : List Byte) :
    ReadsWhere 0x28 (payloadSuits 0x28 p) (decodeRequest 0x28 p) := by
  change ReadsWhere _ (1 ≤ p.length && _) (if p.length < 1 then .badLength else
    ofOption (decodeSupplySet (byteAt p 0) (p.drop 1)))
  by_cases h : p.length < 1
  · rw [if_pos h, decide_eq_false (by omega), Bool.false_and]
    exact ⟨fun _ => rfl, fun k => (nomatch k)⟩
  · rw [if_neg h, decide_eq_true (by omega), Bool.true_and]
    have size := supplySet_isSome (byteAt p 0) (p.drop 1)
    rw [List.length_drop] at size
    cases e : decodeSupplySet (byteAt p 0) (p.drop 1) with
    | none =>
      rw [e] at size
      have wrong := size.symm
      refine ⟨fun _ => rfl, fun k => ?_⟩
      simp only [Option.isSome_none, beq_eq_false_iff_ne, ne_eq] at wrong
      rw [beq_iff_eq] at k
      change _ = 1 + (if (byteAt p 0).getLsbD 0 then 2 else 0) + (if (byteAt p 0).getLsbD 1 then 2 else 0)
        + (if (byteAt p 0).getLsbD 2 then 1 else 0) at k
      omega
    | some r =>
      rw [e] at size
      refine ⟨fun k => ?_, fun _ => ⟨r, decodeSupplySet_code e, rfl⟩⟩
      have right := size.symm
      simp only [Option.isSome_some, beq_iff_eq] at right
      rw [beq_eq_false_iff_ne] at k
      refine absurd ?_ k
      change _ = 1 + (if (byteAt p 0).getLsbD 0 then 2 else 0) + (if (byteAt p 0).getLsbD 1 then 2 else 0)
        + (if (byteAt p 0).getLsbD 2 then 1 else 0)
      omega

theorem decodeSection_isSome (code : Byte) (p : List Byte) :
    (decodeSection code p).isSome = sectionSuits code.toNat p := by
  have checked : ∀ (c : Prop) [Decidable c] (x : Section),
      (if c then some x else none).isSome = decide c := by
    intro c _ x
    by_cases h : c <;> simp [h]
  by_cases known : 1 ≤ code.toNat ∧ code.toNat ≤ 7
  · obtain ⟨h1, h7⟩ := known
    unfold decodeSection
    interval_cases code.toNat <;> simp [sectionSuits, checked, beq_eq_decide, byteAt]
  · rw [decodeSection_unknown code p (by omega)]
    unfold sectionSuits
    split <;> first | rfl | omega

theorem decodeSections_isSome (n : Nat) : ∀ p : List Byte,
    (decodeSections n p).isSome = sectionsSuit n p := by
  induction n with
  | zero => intro p; cases p <;> rfl
  | succ n ih =>
    intro p
    match p with
    | [] => rfl
    | [_] => rfl
    | code :: len :: rest =>
      have hs := decodeSection_isSome code (rest.take len.toNat)
      have hr := ih (rest.drop len.toNat)
      simp only [decodeSections, sectionsSuit, ← hs, ← hr]
      by_cases h : rest.length < len.toNat
      · rw [if_pos h, decide_eq_false (by omega)]
        rfl
      · rw [if_neg h, decide_eq_true (by omega)]
        cases decodeSection code (rest.take len.toNat) <;>
          cases decodeSections n (rest.drop len.toNat) <;> rfl

theorem printSubmit_reads (p : List Byte) :
    ReadsWhere 0x23 (payloadSuits 0x23 p) (decodeRequest 0x23 p) := by
  change ReadsWhere _ (2 ≤ p.length && _) (if p.length < 2 then .badLength else
    ofOption ((decodeSections (byteAt p 1).toNat (p.drop 2)).map (.printSubmit (byteAt p 0))))
  by_cases h : p.length < 2
  · rw [if_pos h, decide_eq_false (by omega), Bool.false_and]
    exact ⟨fun _ => rfl, fun k => (nomatch k)⟩
  · rw [if_neg h, decide_eq_true (by omega), Bool.true_and]
    exact ofOption_reads (fun _ => rfl) (decodeSections_isSome _ _)

theorem noteAdd_reads (p : List Byte) :
    ReadsWhere 0x1D (payloadSuits 0x1D p) (decodeRequest 0x1D p) := by
  have e : payloadSuits 0x1D p = (11 ≤ p.length && p.length == 11 + field p 9 2) := by
    by_cases h : 11 ≤ p.length
    · rw [field_two p 9 (by omega), ← Nat.add_assoc]; rfl
    · rw [decide_eq_false h, Bool.false_and]
      change (decide (11 ≤ p.length) && _) = false
      rw [decide_eq_false h, Bool.false_and]
  rw [e]
  exact sized_reads _ rfl

theorem noteAmend_reads (p : List Byte) :
    ReadsWhere 0x1E (payloadSuits 0x1E p) (decodeRequest 0x1E p) := by
  have e : payloadSuits 0x1E p = (9 ≤ p.length && p.length == 9 + field p 7 2) := by
    by_cases h : 9 ≤ p.length
    · rw [field_two p 7 (by omega), ← Nat.add_assoc]; rfl
    · rw [decide_eq_false h, Bool.false_and]
      change (decide (9 ≤ p.length) && _) = false
      rw [decide_eq_false h, Bool.false_and]
  rw [e]
  exact sized_reads _ rfl

theorem captureRelease_reads (p : List Byte) :
    ReadsWhere 0x15 (payloadSuits 0x15 p) (decodeRequest 0x15 p) := by
  have e : payloadSuits 0x15 p = (p.length == 1 || p.length == 3) := by
    change [1, 3].contains p.length = _
    simp [beq_eq_decide]
  rw [e]
  change ReadsWhere _ _ (if p.length = 1 then _ else sized (p.length == 3) _)
  by_cases h : p.length = 1
  · rw [if_pos h, h]
    exact ⟨fun k => (nomatch k), fun _ => ⟨_, rfl, rfl⟩⟩
  · rw [if_neg h, beq_false_of_ne h, Bool.false_or]
    exact sized_reads _ rfl

/-- R177, R184: a payload of a request kind is read as a request of that kind exactly where it suits it. -/
theorem decodeRequest_reads (kind : Nat) (p : List Byte) (h1 : 1 ≤ kind) (h2 : kind ≤ 0x2C) :
    ReadsWhere kind (payloadSuits kind p) (decodeRequest kind p) := by
  by_cases variable_ : kind = 0x09 ∨ kind = 0x15 ∨ kind = 0x1D ∨ kind = 0x1E ∨ kind = 0x23 ∨ kind = 0x28
  · obtain rfl | rfl | rfl | rfl | rfl | rfl := variable_
    · exact siteSet_reads p
    · exact captureRelease_reads p
    · exact noteAdd_reads p
    · exact noteAmend_reads p
    · exact printSubmit_reads p
    · exact supplySet_reads p
  · interval_cases kind
    all_goals first
      | exact absurd (by decide) variable_
      | exact fixed_reads _ p rfl

theorem decodeRequest_unknown (kind : Nat) (p : List Byte) (h : kind = 0 ∨ 0x2C < kind) :
    decodeRequest kind p = .unknownKind := by
  unfold decodeRequest
  dsimp only
  split <;> first | rfl | omega

/-! ### O12 -/

theorem takeFrame_unknown {f : Frame} (s : State) (h : decodeRequest f.kind f.payload = .unknownKind)
    (hc : s.link.current = none) :
    takeFrame f s = replied (replyKind f.kind) f.tag .unknownKind .empty s := by
  simp only [takeFrame, h]
  exact refuse_waiting _ _ _ _ hc

theorem takeFrame_badLength {f : Frame} (s : State) (h : decodeRequest f.kind f.payload = .badLength)
    (hc : s.link.current = none) :
    takeFrame f s = replied (replyKind f.kind) f.tag .badLength .empty s := by
  simp only [takeFrame, h]
  exact refuse_waiting _ _ _ _ hc

/-- A request that arrives while another is in progress is offered to the receive queue as its frame. -/
theorem exec_command_busy (r : Request) (tag : Byte) (s : State) (held : s.held = false)
    (busy : linkFree s.link = false) :
    exec (r.command tag) s = .next (offerFrame ⟨requestCode r, tag, encodeRequest r⟩ s) := by
  rw [exec_command, running_next, if_neg (by rw [held]; decide), arrive, busy]
  rfl

theorem offerFrame_busy (f : Frame) (s : State) (busy : linkFree s.link = false)
    (room : s.link.queue.length < 2) :
    offerFrame f s = setLink (fun l => { l with queue := l.queue ++ [f] }) s := by
  have fits : s.link.queue.length < Config.receivePlaces := room
  rw [offerFrame, if_pos fits]
  exact pump_busy _ busy

theorem linkFree_of_current (l : Link) (h : l.current.isSome = true) : linkFree l = false := by
  obtain ⟨c, hc⟩ := Option.isSome_iff_exists.1 h
  rw [linkFree, hc]
  rfl

/-- Settles O12. -/
theorem framesAreQueuedDroppedOrUnknown : Obligations.FramesAreQueuedDroppedOrUnknown := by
  unfold Obligations.FramesAreQueuedDroppedOrUnknown
  refine ⟨?waits, ?unknown, ?received⟩
  case waits =>
    intro r tag s held inProgress
    have busy := linkFree_of_current s.link inProgress
    rw [exec_command_busy r tag s held busy]
    refine ⟨fun room => congrArg _ (offerFrame_busy _ s busy room), fun full => ?_⟩
    have fullQueue : ¬s.link.queue.length < Config.receivePlaces := by rw [full]; decide
    rw [offerFrame, if_neg fullQueue]
    rfl
  case unknown =>
    intro kind tag s h hk
    have ⟨⟨held, empty⟩, hc, _, _⟩ := h
    have taken := takeFrame_unknown (f := ⟨kind.toNat, tag, []⟩) s (decodeRequest_unknown _ _ hk) hc
    have offered := (offerFrame_ready ⟨kind.toNat, tag, []⟩ s h).trans taken
    refine (event_quiet (offerFrame ⟨kind.toNat, tag, []⟩) s held ?_).trans (congrArg _ offered)
    rw [offered]
    exact (startTransmit_kept _).queue.trans empty
  case received =>
    intro kind tag p s h hr h1 h2 hp received
    have ⟨⟨held, empty⟩, hc, _, _⟩ := h
    have taken : received = .next (pump (takeFrame ⟨kind, tag, p⟩ s)) := by
      refine (execAll_frame kind tag p s ⟨held, empty⟩ hr (by omega) hp).trans ?_
      rw [offerFrame_ready _ s h]
    have done : pump (takeFrame ⟨kind, tag, p⟩ s) = takeFrame ⟨kind, tag, p⟩ s :=
      pump_of_empty _ ((takeFrame_queue _ _).trans empty)
    rw [done] at taken
    obtain ⟨bad, good⟩ := decodeRequest_reads kind p h1 h2
    refine ⟨fun unsuited => ?_, fun suited => ?_⟩
    · rw [taken, takeFrame_badLength (f := ⟨kind, tag, p⟩) s (bad unsuited) hc]
      simp only [replyKind, if_pos (show kind < 128 by omega)]
    · obtain ⟨r, code, e⟩ := good suited
      refine ⟨r, code, ?_⟩
      rw [taken, takeFrame_request (f := ⟨kind, tag, p⟩) s e, exec_command, request_ready tag r s h,
        code]

end Sys2Proof.Machine
end

