-- ==== Sys2Proof/Proofs/Words.lean ====
section
/-!
PROOFS. The words of the pod bus, the identity record and the corrected sample (R4, R10, R22 to R24, R185):
O22, O24 and O26.
-/

namespace Sys2Proof.Machine

/-! ### Parity -/

/-- The exclusive or of a run of bits is the parity of their count of ones. -/
theorem foldl_ne_eq_parity (f : Nat → Bool) (xs : List Nat) : ∀ b : Bool,
    xs.foldl (fun p i => p != f i) b = (b != decide ((xs.filter f).length % 2 = 1)) := by
  induction xs with
  | nil => simp
  | cons x xs ih =>
    intro b
    rw [List.foldl_cons, ih]
    cases hf : f x with
    | false => simp [hf]
    | true =>
      have flip : decide (((x :: xs).filter f).length % 2 = 1) =
          !decide ((xs.filter f).length % 2 = 1) := by
        rw [List.filter_cons_of_pos hf, List.length_cons, Bool.eq_not, ne_eq, decide_eq_decide]
        omega
      rw [flip]
      cases b <;> simp

/-- Turning one bit over turns the exclusive or over where the bit is among those taken. -/
theorem foldl_ne_flip (f : Nat → Bool) (i : Nat) (xs : List Nat) (h : xs.Nodup) : ∀ b : Bool,
    xs.foldl (fun p j => p != (f j != decide (j = i))) b =
      (xs.foldl (fun p j => p != f j) b != decide (i ∈ xs)) := by
  induction xs with
  | nil => simp
  | cons x xs ih =>
    intro b
    obtain ⟨hx, hxs⟩ := List.nodup_cons.1 h
    rw [List.foldl_cons, List.foldl_cons, ih hxs]
    by_cases e : x = i
    · subst e
      simp only [foldl_ne_eq_parity, hx, List.mem_cons_self]
      cases b <;> cases f x <;> simp
    · have : ¬i = x := fun k => e k.symm
      simp [e, this]

theorem oddParity_iff (w : BusWord) :
    oddParity w = true ↔ ((List.range 24).filter fun i => w.getLsbD i).length % 2 = 1 := by
  rw [oddParity, foldl_ne_eq_parity]
  simp

theorem oddParity_flip (w : BusWord) (i : Nat) (h : i < 24) :
    oddParity (w ^^^ BitVec.twoPow 24 i) = !oddParity w := by
  have bits : (fun (p : Bool) (j : Nat) => p != (w ^^^ BitVec.twoPow 24 i).getLsbD j) =
      fun p j => p != (w.getLsbD j != decide (j = i)) := by
    funext p j
    rw [BitVec.getLsbD_xor, BitVec.getLsbD_twoPow]
    congr 2
    rw [decide_eq_true h, Bool.true_and]
    exact decide_eq_decide.2 eq_comm
  rw [oddParity, bits, foldl_ne_flip _ _ _ List.nodup_range,
    decide_eq_true (List.mem_range.2 h)]
  exact Bool.bne_true _

theorem upEcho_eq (w : BusWord) : upEcho w = w.toNat / 16 % 4 := by
  rw [upEcho, BitVec.extractLsb'_toNat, Nat.shiftRight_eq_div_pow]

theorem goodWord_iff (frame : Nat) (w : BusWord) :
    goodWord frame w = true ↔ upPres w = true ∧ oddParity w = true ∧ upEcho w = frame % 4 := by
  simp [goodWord, and_assoc]

/-- Settles O22: one wrong bit turns the parity over. -/
theorem goodWordsAreChecked : Obligations.GoodWordsAreChecked := by
  unfold Obligations.GoodWordsAreChecked
  intro frame w
  refine ⟨?good, fun good i hi => ?flipped⟩
  case good => rw [goodWord_iff, oddParity_iff, upEcho_eq, upPres]
  case flipped =>
    obtain ⟨_, odd, _⟩ := (goodWord_iff frame w).1 good
    rw [Bool.eq_false_iff, ne_eq, goodWord_iff, oddParity_flip w i hi, odd]
    simp

/-! ### Identity records -/

theorem unle_lt (bs : List Byte) : unle bs < 256 ^ bs.length := by
  induction bs with
  | nil => decide
  | cons b bs ih =>
    have := b.isLt
    rw [unle, List.length_cons, pow_succ]
    omega

theorem field_lt (p : List Byte) (off n : Nat) : field p off n < 256 ^ n :=
  lt_of_lt_of_le (unle_lt _) (Nat.pow_le_pow_right (by decide) (List.length_take_le _ _))

theorem signed16_eq (n : Nat) (h : n < 65536) :
    signed16 n = if n < 32768 then (n : Int) else (n : Int) - 65536 := by
  rw [signed16, BitVec.toInt_eq_toNat_cond, BitVec.toNat_ofNat, Nat.mod_eq_of_lt h]
  split <;> split <;> first | rfl | omega

/-- Settles O24: the ranges are the tests of `identityOf`. -/
theorem identityRangesAreChecked : Obligations.IdentityRangesAreChecked := by
  unfold Obligations.IdentityRangesAreChecked
  intro bytes kind scale gain raw offset accepted
  have signed : signed16 raw = offset := signed16_eq raw (field_lt bytes 12 2)
  have tests : identityOf bytes = if accepted then some
      { serial := field bytes 0 4, kind := if kind = 0 then .voltage else .current
        model := field bytes 5 1, fullScale := scale, gain := gain, offset := offset
        calDate := field bytes 14 2, calInterval := field bytes 16 2
        maker := field bytes 18 2 } else none := by
    unfold identityOf
    dsimp only
    rw [show signed16 (field bytes 12 2) = offset from signed]
    refine if_congr ?_ rfl rfl
    simp only [Bool.and_eq_true, Bool.or_eq_true, beq_iff_eq, decide_eq_true_eq, and_assoc, accepted]
    rfl
  exact ⟨fun h => tests.trans (if_pos h), fun h => tests.trans (if_neg h)⟩

/-! ### Corrected samples -/

/-- The quotient rounded, halves away from zero. -/
theorem roundDiv_eq (p n : Int) (d : Nat) (hd : 0 < d)
    (hpos : 0 ≤ p → d * (2 * n - 1) ≤ 2 * p ∧ 2 * p < d * (2 * n + 1))
    (hneg : p < 0 → d * (2 * n - 1) < 2 * p ∧ 2 * p ≤ d * (2 * n + 1)) : roundDiv p d = n := by
  have hd' : (0 : Int) < d := by exact_mod_cast hd
  unfold roundDiv
  split
  · next h =>
    obtain ⟨lower, upper⟩ := hpos h
    have hp : (p.toNat : Int) = p := Int.toNat_of_nonneg h
    rw [Int.natCast_ediv]
    push_cast
    rw [hp]
    refine (Int.ediv_eq_iff_of_pos (by omega)).2 ⟨?_, ?_⟩ <;> nlinarith
  · next h =>
    obtain ⟨lower, upper⟩ := hneg (by omega)
    have hp : ((-p).toNat : Int) = -p := Int.toNat_of_nonneg (by omega)
    rw [Int.natCast_ediv]
    push_cast
    rw [hp]
    have : (2 * -p + d) / (2 * d) = -n :=
      (Int.ediv_eq_iff_of_pos (by omega)).2 ⟨by nlinarith, by nlinarith⟩
    omega

theorem clampInt_range (x a b : Int) (h : a ≤ b) : a ≤ clampInt x a b ∧ clampInt x a b ≤ b := by
  unfold clampInt
  split
  · omega
  · split <;> omega

theorem clampInt_of_mem {x a b : Int} (h1 : a ≤ x) (h2 : x ≤ b) : clampInt x a b = x := by
  rw [clampInt, if_neg (by omega), if_neg (by omega)]

theorem clampInt_of_ge {x a b : Int} (h : b ≤ x) (hab : a ≤ b) : clampInt x a b = b := by
  unfold clampInt
  split
  · omega
  · split <;> omega

theorem clampInt_of_le {x a b : Int} (h : x ≤ a) (hab : a ≤ b) : clampInt x a b = a := by
  unfold clampInt
  split
  · rfl
  · split <;> omega

/-- Settles O26. -/
theorem correctionRoundsAndClamps : Obligations.CorrectionRoundsAndClamps := by
  unfold Obligations.CorrectionRoundsAndClamps
  intro gain offset c p v
  refine ⟨clampInt_range _ _ _ (by decide), ?rounds, ?above, ?below, ?samples⟩
  case rounds =>
    intro n h1 h2
    refine ⟨fun hp lower upper => ?_, fun hp lower upper => ?_⟩
    · have : roundDiv p 65536 = n :=
        roundDiv_eq p n 65536 (by decide) (fun _ => ⟨lower, upper⟩) fun h => absurd hp (by omega)
      exact (congrArg (clampInt · (-32768) 32767) this).trans (clampInt_of_mem h1 h2)
    · have : roundDiv p 65536 = n :=
        roundDiv_eq p n 65536 (by decide) (fun h => absurd hp (by omega)) fun _ => ⟨lower, upper⟩
      exact (congrArg (clampInt · (-32768) 32767) this).trans (clampInt_of_mem h1 h2)
  case above =>
    intro hp
    refine clampInt_of_ge ?_ (by decide)
    change 32767 ≤ roundDiv p 65536
    rw [roundDiv, if_pos (by omega)]
    omega
  case below =>
    intro hp
    refine clampInt_of_le ?_ (by decide)
    change roundDiv p 65536 ≤ -32768
    rw [roundDiv, if_neg (by omega)]
    omega
  case samples =>
    intro frame e r w identity he hg ho
    have corrected : correctFor e c = v := by
      rw [correctFor, he]
      subst hg ho
      rfl
    refine ⟨fun good code => ?good, fun bad last => ?gap, fun bad last => ?noGood⟩
    case good =>
      have field_ : (upField w).toInt = c := code
      simp only [correctedSample, good, if_true, field_, corrected, isOverrange]
      congr 1
      rw [Bool.eq_iff_iff]
      simp [upOvr, or_assoc]
    case gap => simp [correctedSample, bad, last, corrected]
    case noGood => simp [correctedSample, bad, last]

end Sys2Proof.Machine
end

