-- ==== Sys2Proof/Proofs/LineTracker.lean ====
section
/-!
PROOFS. The line tracker and the phase rotation: a period, a detector's sample, a judged cycle, the timeout
and the requests of R27, R35 and R36 (O27 to O31).
-/

namespace Sys2Proof.Machine

/-- An event that moves the state in the sense of `Moves`, on a part that runs with no frame waiting. -/
theorem event_of_moves {P : Part → Prop} {f : State → State} {s : State} (m : Moves P s (f s))
    (h : Quiet s) : event f s = .next (f s) :=
  event_quiet f s h.1 (m.queue_eq.trans h.2)

/-! ### The timeout -/

/-- The tracker that has waited 256 frames for a crossing enters HOLDOVER. -/
def timedOut (s : State) : State :=
  { post (.trackState .holdover .locked s.tracker.f s.tracker.k s.tracker.inUse .noCrossing) s with
    tracker :=
      { s.tracker with
        state := .holdover, inLock := 0, unlockSeen := true, lastCross := none
        frameState := .holdover } }

theorem timeoutDue_iff (t : Tracker) : timeoutDue t = true ↔ t.state = .locked ∧ 256 ≤ t.since := by
  simp [timeoutDue]

theorem noCrossingTimeout_due {s : State} (h : s.tracker.state = .locked) (h' : 256 ≤ s.tracker.since) :
    noCrossingTimeout s = timedOut s := by
  rw [noCrossingTimeout, if_pos ((timeoutDue_iff _).2 ⟨h, h'⟩)]
  rfl

theorem noCrossingTimeout_early {s : State} (h : s.tracker.state ≠ .locked ∨ s.tracker.since < 256) :
    noCrossingTimeout s = s := by
  refine if_neg fun k => ?_
  obtain ⟨locked, long⟩ := (timeoutDue_iff _).1 k
  exact h.elim (· locked) fun short => by omega

theorem noCrossingTimeout_link (s : State) : LinkKept s.link (noCrossingTimeout s).link := by
  have any : anyPart .tracker := trivial
  exact (noCrossingTimeout_moves (P := anyPart) s).link_kept

/-- A request in progress does not touch the timeout. -/
theorem noCrossingTimeout_waiting (kind : Nat) (tag : Byte) (s : State) (h : s.link.owed = none) :
    noCrossingTimeout (waiting kind tag s) = waiting kind tag (noCrossingTimeout s) := by
  by_cases due : s.tracker.state = .locked ∧ 256 ≤ s.tracker.since
  · obtain ⟨locked, long⟩ := due
    rw [noCrossingTimeout_due locked long, noCrossingTimeout_due (s := waiting kind tag s) locked long,
      timedOut, post_waiting _ _ _ _ h]
    rfl
  · have early : s.tracker.state ≠ .locked ∨ s.tracker.since < 256 := by
      by_cases locked : s.tracker.state = .locked
      · exact .inr (Nat.lt_of_not_le fun long => due ⟨locked, long⟩)
      · exact .inl locked
    rw [noCrossingTimeout_early early, noCrossingTimeout_early (s := waiting kind tag s) early]

/-- Settles O28. -/
theorem noCrossingEndsTheLock : Obligations.NoCrossingEndsTheLock := by
  unfold Obligations.NoCrossingEndsTheLock
  intro s h
  have any : anyPart .tracker := trivial
  have taken : exec .noCrossingTimeout s = .next (noCrossingTimeout s) :=
    event_of_moves (P := anyPart) (noCrossingTimeout_moves s) h
  refine ⟨fun locked long => ?_, fun early => ?_⟩
  · rw [taken, noCrossingTimeout_due locked long]
    rfl
  · rw [taken, noCrossingTimeout_early early]

/-! ### Periods -/

theorem periodValid_iff (p : Nat) : periodValid p = true ↔ 31130 ≤ p ∧ p ≤ 34406 := by
  rw [periodValid, decide_eq_true_eq, deviation]
  split <;> omega

theorem periodInLock_iff (p : Nat) : periodInLock p = true ↔ 32704 ≤ p ∧ p ≤ 32832 := by
  rw [periodInLock, decide_eq_true_eq, deviation]
  split <;> omega

theorem postTrack_changed {s : State} {old : TrackerState} (cause : TrackCause)
    (h : s.tracker.state ≠ old) :
    postTrack old cause s = post
      (.trackState s.tracker.state old s.tracker.f s.tracker.k s.tracker.inUse cause) s := by
  have changed : (s.tracker.state != old) = true := bne_iff_ne.2 h
  simp only [postTrack, postWhen, changed, if_true]

theorem postTrack_same {s : State} {old : TrackerState} (cause : TrackCause)
    (h : s.tracker.state = old) : postTrack old cause s = s := by
  have same : (s.tracker.state != old) = false := by rw [h]; exact bne_self_eq_false _
  simp only [postTrack, postWhen, same, Bool.false_eq_true, if_false]

theorem postWhen_waiting (kind : Nat) (tag : Byte) (c : Bool) (b : NoticeBody) (s : State)
    (h : s.link.owed = none) :
    postWhen c b (waiting kind tag s) = waiting kind tag (postWhen c b s) := by
  cases c
  · rfl
  · exact post_waiting kind tag b s h

/-- A request in progress does not touch the notice of a change. -/
theorem postTrack_waiting (kind : Nat) (tag : Byte) (old : TrackerState) (cause : TrackCause) (s : State)
    (h : s.link.owed = none) :
    postTrack old cause (waiting kind tag s) = waiting kind tag (postTrack old cause s) :=
  postWhen_waiting kind tag _ _ s h

/-- A period in ACQUIRING that leaves fewer than 8 in a row. -/
theorem acquire_counts {p n : Nat} {s : State} (valid : periodValid p = true)
    (count : (if periodInLock p then s.tracker.inLock + 1 else 0) = n) (h : n < 8) :
    acquire p s =
      setTracker (fun t => { t.setFreq (smoothed t.f p 2) with inLock := n }) s := by
  have e : (if periodInLock p then
      (setTracker (fun t => t.setFreq (smoothed t.f p 2)) s).tracker.inLock + 1 else 0) = n := count
  simp only [acquire, valid, Bool.not_true, Bool.false_eq_true, if_false]
  rw [e, if_pos h]
  rfl

theorem takePeriod_acquiring (p : Nat) {s : State} (h : s.tracker.state = .acquiring) :
    takePeriod p s = acquire p s := by
  simp only [takePeriod, h]

theorem takePeriod_locked (p : Nat) {s : State} (h : s.tracker.state = .locked) :
    takePeriod p s = if periodValid p then setTracker (fun t => t.setFreq (smoothed t.f p 8)) s
      else enterHoldover .periodOut s := by
  simp only [takePeriod, h]

theorem takePeriod_holdover (p : Nat) {s : State} (h : s.tracker.state = .holdover) :
    takePeriod p s = if periodValid p then postTrack .holdover .periodValid (setTracker
        (fun t => { t.setFreq (smoothed t.f p 2) with
          state := .acquiring, inLock := if periodInLock p then 1 else 0 }) s)
      else s := by
  simp only [takePeriod, h]
  rfl

theorem takePeriod_fixed (p : Nat) {s : State} (h : s.tracker.state = .fixed) : takePeriod p s = s := by
  simp only [takePeriod, h]

/-- Settles O29. -/
theorem periodsMoveTheTracker : Obligations.PeriodsMoveTheTracker := by
  unfold Obligations.PeriodsMoveTheTracker
  intro p s t valid inLock step moved told
  have isValid : periodValid p = true ↔ valid := periodValid_iff p
  have isInLock : periodInLock p = true ↔ inLock := periodInLock_iff p
  have near : inLock → valid := fun h => ⟨by have := h.1; omega, by have := h.2; omega⟩
  refine ⟨?badAcquiring, ?far, ?counts, ?locks, ?follows, ?leaves, ?returns, ?badHoldover, ?fixed⟩
  case badAcquiring =>
    intro h bad
    rw [takePeriod_acquiring p h]
    simp only [acquire, Bool.eq_false_iff.2 (mt isValid.1 bad), Bool.not_false, if_true]
    rfl
  case far =>
    intro h good away
    have count : (if periodInLock p then s.tracker.inLock + 1 else 0) = 0 := if_neg (mt isInLock.1 away)
    rw [takePeriod_acquiring p h]
    refine (acquire_counts (isValid.2 good) count (by decide)).trans ?_
    simp only [moved, ← h]
    rfl
  case counts =>
    intro h close few
    have count : (if periodInLock p then s.tracker.inLock + 1 else 0) = t.inLock + 1 :=
      if_pos (isInLock.2 close)
    rw [takePeriod_acquiring p h]
    refine (acquire_counts (isValid.2 (near close)) count (by omega)).trans ?_
    simp only [moved, ← h]
    rfl
  case locks =>
    intro h close many
    have full : ¬(if periodInLock p then
        (setTracker (fun t => t.setFreq (smoothed t.f p 2)) s).tracker.inLock + 1 else 0) < 8 := by
      rw [if_pos (isInLock.2 close)]
      exact Nat.not_lt.2 (Nat.succ_le_succ many)
    rw [takePeriod_acquiring p h]
    simp only [acquire, isValid.2 (near close), Bool.not_true, Bool.false_eq_true, if_false, if_neg full]
    rw [postTrack_changed _ (by simp)]
    simp only [told, h]
    rfl
  case follows =>
    intro h good
    rw [takePeriod_locked p h]
    simp only [isValid.2 good, if_true, moved, ← h]
    rfl
  case leaves =>
    intro h bad
    rw [takePeriod_locked p h]
    simp only [Bool.eq_false_iff.2 (mt isValid.1 bad), Bool.false_eq_true, if_false, enterHoldover]
    rw [postTrack_changed _ (by simp)]
    simp only [told, h]
    rfl
  case returns =>
    intro h good
    have count : (if periodInLock p then 1 else 0) = if inLock then 1 else 0 :=
      if_congr isInLock rfl rfl
    rw [takePeriod_holdover p h]
    simp only [isValid.2 good, if_true, count]
    rw [postTrack_changed _ (by simp)]
    simp only [told, h]
    rfl
  case badHoldover =>
    intro h bad
    rw [takePeriod_holdover p h]
    simp only [Bool.eq_false_iff.2 (mt isValid.1 bad), Bool.false_eq_true, if_false]
  case fixed => exact fun h => takePeriod_fixed p h

/-! ### The crossing detector -/

/-- Settles O30: the three rows of R29's table, with the candidate tested in the second and third. -/
theorem detectorFollowsTheTable : Obligations.DetectorFollowsTheTable := by
  unfold Obligations.DetectorFollowsTheTable
  intro d frame n before x prev enters time
  refine ⟨?arms, ?stays, ?falls, ?crosses, ?confirms, ?late, ?back, ?waits, ?within⟩
  case within =>
    intro below above
    have bound : (256 * (-before).toNat) / (x - before).toNat ≤ 256 :=
      Nat.div_le_of_le_mul (by rw [Nat.mul_comm]; exact Nat.mul_le_mul_right _ (by omega))
    exact ⟨Nat.le_add_right _ _, Nat.add_le_add_left bound _⟩
  case arms => intro h low; simp [Detector.take, h, low, enters]
  case stays => intro h high; simp [Detector.take, h, not_le.2 high, enters]
  case falls => intro h neg; simp [Detector.take, h, neg, enters]
  case crosses =>
    intro h pos small
    simp [Detector.take, Detector.testCandidate, h, prev, not_lt.2 pos, not_le.2 small, enters, time,
      crossingTime, show ¬x ≤ -328 by omega]
  case confirms =>
    intro h large
    simp [Detector.take, Detector.testCandidate, h, prev, large, enters, time, crossingTime,
      show ¬x < 0 by omega]
  case late => intro h large; simp [Detector.take, Detector.testCandidate, h, large, enters]
  case back =>
    intro h low
    simp [Detector.take, Detector.testCandidate, h, low, enters, show ¬328 ≤ x by omega]
  case waits =>
    intro h above below
    simp [Detector.take, Detector.testCandidate, h, not_le.2 below, not_le.2 above, enters]

/-! ### Rotation -/

theorem closeCycle_judged (r : Rotation) {opening : Nat} (closing : Nat) (h : r.opening = some opening) :
    closeCycle r closing =
      { judged r (judgeCycle r.cross2 r.cross3 opening closing) with
        opening := some closing
        cross2 := r.cross2.filter (closing ≤ ·), cross3 := r.cross3.filter (closing ≤ ·) } := by
  have kept : ∀ j, (judged r j).cross2 = r.cross2 ∧ (judged r j).cross3 = r.cross3 := by
    intro j
    cases j <;> exact ⟨rfl, rfl⟩
  obtain ⟨second, third⟩ := kept (judgeCycle r.cross2 r.cross3 opening closing)
  simp only [closeCycle, h, second, third]

theorem satInc_eq_min (top n : Nat) : satInc top n = Nat.min top (Nat.min top n + 1) := by
  unfold satInc
  split <;> simp only [Nat.min_def] <;> split <;> split <;> omega

/-- The judgement of a cycle by the first crossing of L2 and of L3 in it. -/
theorem judgeCycle_of_first {xs ys : List Nat} {opening closing : Nat} {a b : Nat}
    (ha : (xs.find? fun t => decide (opening ≤ t ∧ t < closing)) = some a)
    (hb : (ys.find? fun t => decide (opening ≤ t ∧ t < closing)) = some b) :
    judgeCycle xs ys opening closing =
      if a < b then .matching else if b < a then .reversed else .indeterminate := by
  simp only [judgeCycle, ha, hb]

/-- Settles O31. -/
theorem rotationJudgesTheCycle : Obligations.RotationJudgesTheCycle := by
  unfold Obligations.RotationJudgesTheCycle
  intro r opening closing h _ first t
  have cycle : t = _ := closeCycle_judged r closing h
  refine ⟨by rw [cycle], ?matching, ?reversed, ?indeterminate⟩
  case matching =>
    intro a b ha hb lt
    rw [cycle, judgeCycle_of_first ha hb, if_pos lt]
    refine ⟨satInc_eq_min _ _, rfl, fun k => if_pos k, fun k => if_neg (Nat.ne_of_lt k)⟩
  case reversed =>
    intro a b ha hb lt
    rw [cycle, judgeCycle_of_first ha hb, if_neg (Nat.not_lt.2 lt.le), if_pos lt]
    refine ⟨satInc_eq_min _ _, rfl, fun k => if_pos k, fun k => if_neg (Nat.ne_of_lt k)⟩
  case indeterminate =>
    intro k
    have none_ : judgeCycle r.cross2 r.cross3 opening closing = .indeterminate := by
      cases ha : first r.cross2 with
      | none => simp only [judgeCycle, show (List.find? _ r.cross2) = none from ha]
      | some a =>
        cases hb : first r.cross3 with
        | none =>
          simp only [judgeCycle, show (List.find? _ r.cross2) = some a from ha,
            show (List.find? _ r.cross3) = none from hb]
        | some b =>
          rw [ha, hb] at k
          have same : a = b := by simpa using k
          rw [judgeCycle_of_first ha hb, if_neg (by omega), if_neg (by omega)]
    rw [cycle, none_]
    exact ⟨rfl, rfl, rfl⟩

/-! ### The requests -/

theorem isVoltage_iff (s : State) (slot : Nat) :
    isVoltage s slot = true ↔ (entryOf s slot).identity.map (·.kind) = some .voltage := by
  unfold isVoltage
  cases (entryOf s slot).identity <;> simp

/-- R35, FIXED entered: what `setFixed` leaves and replies. -/
theorem setFixed_enters {freq : Word} (hf : freq ≠ 0) (kind : Nat) (tag : Byte) (u : State)
    (ho : u.link.owed = none) :
    let f := clampNat freq.toNat 42000 69999
    setFixed freq (waiting kind tag u) =
      answer (if f = freq.toNat then .ok else .okClamped) (.frequency f)
        (waiting kind tag (postTrack u.tracker.state .request
          (setTracker (fun t => { t.setFreq f with state := .fixed, inLock := 0 }) u))) := by
  intro f
  have nonzero : freq.toNat ≠ 0 := fun h => hf (BitVec.eq_of_toNat_eq h)
  rw [setFixed, if_pos nonzero]
  rw [← postTrack_waiting _ _ _ _ _ (by exact ho)]
  rfl

/-- Settles O27. -/
theorem trackRequestsAnswer : Obligations.TrackRequestsAnswer := by
  unfold Obligations.TrackRequestsAnswer
  intro tag slot freq s h n select refused
  have ⟨_, hc, _, howed⟩ := h
  have selects : ∀ r : Option Nat,
      (∀ u : State, u = waiting 0x05 tag s → trackRef slot u = answer .ok (.reference r u.tracker.wanted)
        (setTracker (fun t => { t with selection := r }) u)) → select r := by
    intro r hr
    exact request_answered tag (.trackRef slot) .ok (.reference r s.tracker.wanted) s
      (setTracker (fun t => { t with selection := r }) s) h hc (hr _ rfl)
  have refuses : ∀ status : Status, (∀ u : State, u = waiting 0x05 tag s →
      trackRef slot u = refuse status u) → refused status :=
    fun status => request_refused tag (.trackRef slot) status s h
  refine ⟨?badSlot, ?none_, ?joining, ?kind, ?answers⟩
  case badSlot =>
    intro big
    exact refuses .badValue fun u _ => if_pos big
  case none_ =>
    intro zero
    refine selects none fun u _ => ?_
    rw [trackRef, if_neg (show ¬15 < slot.toNat by omega), if_pos (show slot.toNat = 0 from zero)]
  case joining =>
    intro low high joining
    refine refuses .busy fun u hu => ?_
    subst hu
    rw [trackRef, if_neg (Nat.not_lt.2 high), if_neg (Nat.pos_iff_ne_zero.1 low)]
    exact if_pos joining
  case kind =>
    intro low high settled
    have reaches : ∀ u : State, u = waiting 0x05 tag s → trackRef slot u =
        if isVoltage s n then answer .ok (.reference (some n) u.tracker.wanted)
          (setTracker (fun t => { t with selection := some n }) u) else refuse .badValue u := by
      intro u hu
      subst hu
      rw [trackRef, if_neg (Nat.not_lt.2 high), if_neg (Nat.pos_iff_ne_zero.1 low)]
      exact if_neg settled
    split
    · next voltage =>
      refine selects (some n) fun u hu => ?_
      rw [reaches u hu, if_pos ((isVoltage_iff _ _).2 voltage)]
    · next other =>
      refine refuses .badValue fun u hu => ?_
      rw [reaches u hu, if_neg (mt (isVoltage_iff _ _).1 other)]
  case answers =>
    intro answers
    have kept := noCrossingTimeout_link s
    have found : ∀ u, noCrossingTimeout s = u → answers u := by
      rintro u rfl
      have idle := kept.idle hc
      have unowed := kept.unowed howed
      have reaches := fun kind => noCrossingTimeout_waiting kind tag s howed
      refine ⟨fun hf => ?_, fun fixed => ?_, fun other => ?_, fun clear => ?_⟩
      · intro f k t
        have told : postTrack (noCrossingTimeout s).tracker.state .request t =
            if (noCrossingTimeout s).tracker.state = .fixed then t
            else post (.trackState .fixed (noCrossingTimeout s).tracker.state f k
              (noCrossingTimeout s).tracker.inUse .request) t := by
          split
          · next same => exact postTrack_same _ same.symm
          · next differs => exact postTrack_changed _ (Ne.symm differs)
        rw [← told]
        have quiet : (postTrack (noCrossingTimeout s).tracker.state .request t).link.current = none :=
          (postTrack_moves (P := anyPart) _ _ t).link_kept.idle idle
        refine request_answered tag (.trackFixed freq) _ _ s _ h quiet ?_
        change setFixed freq (noCrossingTimeout (waiting 0x06 tag s)) = _
        rw [reaches]
        exact setFixed_enters hf _ _ _ unowed
      · intro t
        refine request_answered tag (.trackFixed 0) _ _ s _ h
          ((linkPost_kept _ _).idle idle) ?_
        change setFixed 0 (noCrossingTimeout (waiting 0x06 tag s)) = _
        rw [reaches, setFixed, if_neg (by decide)]
        refine (if_pos fixed).trans (congrArg (answer _ _) ?_)
        have told := postTrack_changed (s := t) (old := .fixed) .request (fun e => nomatch e)
        rw [show (waiting 0x06 tag (noCrossingTimeout s)).tracker.state = .fixed from fixed]
        refine (postTrack_waiting 0x06 tag .fixed .request t unowed).trans ?_
        rw [told]
        rfl
      · refine request_answered tag (.trackFixed 0) .wrongState .empty s _ h idle ?_
        change setFixed 0 (noCrossingTimeout (waiting 0x06 tag s)) = _
        rw [reaches, setFixed, if_neg (by decide)]
        exact if_neg other
      · refine request_answered tag (.trackStatus clear) .ok _ s _ h idle ?_
        change reportTrack clear (noCrossingTimeout (waiting 0x07 tag s)) = _
        rw [reaches]
        cases clear <;> rfl
    exact ⟨fun early => found _ (noCrossingTimeout_early early),
      fun locked long => found _ (noCrossingTimeout_due locked long)⟩

end Sys2Proof.Machine
end

