-- ==== Sys2Proof/Proofs/FrameStart.lean ====
section
/-!
PROOFS. The start of a frame (R1, R2, R5, R6, R25, R28): what the steps of `beginFrame` leave in the bus, the
survey and the tracker, with O18 and O32.
-/

namespace Sys2Proof.Machine

/-- The parts of a list, which alone may move. -/
abbrev only (ps : List Part) (p : Part) : Prop := p ∈ ps

/-! ### The steps of a frame's start -/

/-- The frame's count, clock reading and control words, after the carry. -/
def frameBegun (s : State) : State :=
  setBus
    (fun b =>
      { b with
        frame := nextFrame b, begun := true, frameTime := s.clock.time
        frameValid := s.clock.valid, inFrame := true
        prevCtrl := b.ctrl }) (ncoCarry s)

/-- The state in which the frame's control word has been chosen. -/
def controlled (s : State) : State := selectControl (newFrame s)

theorem newFrame_eq (s : State) :
    newFrame s = setBus (fun b => { b with mask := allSlots.filter (slotReady (joinAtFrame (frameBegun s))) })
      (joinAtFrame (frameBegun s)) := rfl

theorem ncoCarry_bus (s : State) : (ncoCarry s).bus = s.bus :=
  (ncoCarry_moves (P := only [.tracker, .free]) s (by decide) (by decide)).bus_eq (by decide)

theorem frameBegun_bus (s : State) : (frameBegun s).bus =
    { s.bus with
      frame := nextFrame s.bus, begun := true, frameTime := s.clock.time
      frameValid := s.clock.valid, inFrame := true, prevCtrl := s.bus.ctrl } := by
  unfold frameBegun
  rw [setBus_bus, ncoCarry_bus]

theorem frameBegun_moves (s : State) : Moves (only [.tracker, .free, .bus]) s (frameBegun s) :=
  (ncoCarry_moves s (by decide) (by decide)).trans (setBus_moves _ _ (by decide))

/-- The parts that a join which takes effect may move. -/
abbrev joinParts : Part → Prop := only [.bus, .roster, .receive, .sites, .sag, .harm, .rotation]

theorem joinComplete_bus (j : Join) (identity : Identity) (s : State) :
    (joinComplete j identity s).bus = { s.bus with join := none } := by
  unfold joinComplete
  dsimp only
  rw [post_bus]
  refine (matchMember_moves (P := only [.sites, .sag, .harm, .rotation]) _ _ _ (by decide) (by decide)
    (by decide) (by decide)).bus_eq (by decide)

theorem joinAtFrame_other {s : State} (h : ∀ j identity, s.bus.join = some j → j.stage ≠ .onSent identity) :
    joinAtFrame s = s := by
  unfold joinAtFrame
  split
  · next j hj =>
    split
    · next identity hs => exact absurd hs (h j identity hj)
    · rfl
  · rfl

theorem joinAtFrame_onSent {s : State} {j : Join} {identity : Identity} (h : s.bus.join = some j)
    (k : j.stage = .onSent identity) : joinAtFrame s = joinComplete j identity s := by
  simp only [joinAtFrame, h, k]

theorem joinAtFrame_joinParts (s : State) : Moves joinParts s (joinAtFrame s) :=
  joinAtFrame_moves s (by decide) (by decide) (by decide) (by decide) (by decide) (by decide) (by decide)

theorem newFrame_tracker (s : State) : (newFrame s).tracker = (ncoCarry s).tracker :=
  (joinAtFrame_joinParts (frameBegun s)).tracker_eq (by decide)

/-- A join moves nothing of the bus but itself, and that only where SAMPLE_ON has been sent. -/
theorem joinAtFrame_bus (s : State) : ∃ join, (joinAtFrame s).bus = { s.bus with join := join } := by
  unfold joinAtFrame
  split
  · split
    · exact ⟨none, joinComplete_bus _ _ _⟩
    · exact ⟨s.bus.join, rfl⟩
  · exact ⟨s.bus.join, rfl⟩

theorem selectControl_bus (s : State) : ∃ join ctrl probed, (selectControl s).bus =
    { s.bus with join := join, ctrl := ctrl, lastProbed := probed } := by
  unfold selectControl pollWord
  split
  · split
    · exact ⟨_, _, _, rfl⟩
    · exact ⟨_, _, _, rfl⟩
  · split <;> exact ⟨_, _, _, rfl⟩

theorem selectControl_onlyBus (s : State) : Moves (only [.bus]) s (selectControl s) :=
  selectControl_moves s (by decide)

/-- What the control word and the boundary's marks leave as the frame began. -/
theorem controlled_bus (s : State) : ∃ join ctrl probed, (controlled s).bus =
    { s.bus with
      frame := nextFrame s.bus, begun := true, frameTime := s.clock.time, frameValid := s.clock.valid
      inFrame := true, prevCtrl := s.bus.ctrl, mask := allSlots.filter (slotReady (controlled s))
      join := join, ctrl := ctrl, lastProbed := probed } := by
  obtain ⟨join, hj⟩ := joinAtFrame_bus (frameBegun s)
  obtain ⟨join', ctrl, probed, hc⟩ := selectControl_bus (newFrame s)
  have ready : slotReady (controlled s) = slotReady (joinAtFrame (frameBegun s)) := by
    have kept : (controlled s).roster = (newFrame s).roster :=
      (selectControl_onlyBus _).roster_eq (by decide)
    funext slot
    simp only [slotReady, entryOf, kept]
    rfl
  refine ⟨join', ctrl, probed, ?_⟩
  rw [ready]
  refine hc.trans ?_
  rw [newFrame_eq, setBus_bus, hj, frameBegun_bus]

theorem referenceAtFrame_onlyTracker (s : State) : Moves (only [.tracker]) s (referenceAtFrame s) :=
  referenceAtFrame_moves s (by decide)

/-- The moments and the close frames of the sites. -/
def closesMarked (s : State) : State := intervalsAtFrame (nextMoment s)

theorem closesMarked_moves (s : State) : Moves (only [.harm]) s (closesMarked s) :=
  (nextMoment_moves s (by decide)).trans (intervalsAtFrame_moves _ (by decide))

theorem beginFrame_eq (s : State) :
    beginFrame s =
      if stopDue (markBoundary (closesMarked (referenceAtFrame (controlled s)))) then
        markBoundary (closesMarked (referenceAtFrame (controlled s)))
      else lossCloses (markBoundary (closesMarked (referenceAtFrame (controlled s)))) := rfl

/-- The closes by loss at the end of a frame's start. -/
theorem beginFrame_closes (s : State) : Moves (only [.harm, .store])
    (markBoundary (closesMarked (referenceAtFrame (controlled s)))) (beginFrame s) := by
  rw [beginFrame_eq]
  exact .ite (.refl _) (lossCloses_moves _ (by decide) (by decide))

theorem markBoundary_bus (s : State) :
    (markBoundary s).bus = { s.bus with boundaryDue := s.bus.frame % 64 == 0 } := rfl

theorem markBoundary_survey (s : State) : (markBoundary s).survey =
    { s.survey with changeDue := s.bus.frame % 64 == 0 && s.survey.change.isSome } := rfl

theorem beginFrame_bus (s : State) : (beginFrame s).bus =
    { (controlled s).bus with boundaryDue := (controlled s).bus.frame % 64 == 0 } := by
  rw [(beginFrame_closes s).bus_eq (by decide), markBoundary_bus, (closesMarked_moves _).bus_eq (by decide),
    (referenceAtFrame_onlyTracker _).bus_eq (by decide)]

/-- The parts that the choice of the control word and the reference may move. -/
abbrev startParts : Part → Prop :=
  only [.bus, .roster, .receive, .sites, .sag, .harm, .rotation, .tracker, .free]

theorem controlled_moves (s : State) : Moves startParts s (controlled s) :=
  (newFrame_moves s (by decide) (by decide) (by decide) (by decide) (by decide) (by decide) (by decide)
    (by decide) (by decide)).trans (selectControl_moves _ (by decide))

theorem beginFrame_survey (s : State) : (beginFrame s).survey =
    { s.survey with
      changeDue := (controlled s).bus.frame % 64 == 0 && s.survey.change.isSome } := by
  rw [(beginFrame_closes s).survey_eq (by decide), markBoundary_survey, (closesMarked_moves _).bus_eq (by decide),
    (referenceAtFrame_onlyTracker _).bus_eq (by decide), (closesMarked_moves _).survey_eq (by decide),
    (referenceAtFrame_onlyTracker _).survey_eq (by decide), (controlled_moves s).survey_eq (by decide)]

/-- What follows the choice of the reference. -/
theorem beginFrame_after (s : State) : Moves (only [.harm, .store, .bus, .survey])
    (referenceAtFrame (controlled s)) (beginFrame s) := by
  have marks : Moves (only [.harm, .store, .bus, .survey]) (referenceAtFrame (controlled s))
      (markBoundary (closesMarked (referenceAtFrame (controlled s)))) :=
    .trans (.trans (nextMoment_moves _ (by decide)) (intervalsAtFrame_moves _ (by decide)))
      (markBoundary_moves _ (by decide) (by decide))
  rw [beginFrame_eq]
  exact marks.trans (.ite (.refl _) (lossCloses_moves _ (by decide) (by decide)))

theorem beginFrame_roster (s : State) : (beginFrame s).roster = (controlled s).roster := by
  rw [(beginFrame_after s).roster_eq (by decide), (referenceAtFrame_onlyTracker _).roster_eq (by decide)]

theorem beginFrame_sites (s : State) : (beginFrame s).sites = (controlled s).sites := by
  rw [(beginFrame_after s).sites_eq (by decide), (referenceAtFrame_onlyTracker _).sites_eq (by decide)]

theorem beginFrame_tracker (s : State) : (beginFrame s).tracker = (referenceAtFrame (controlled s)).tracker :=
  (beginFrame_after s).tracker_eq (by decide)

/-- Everything a frame's start may move from a settled state. -/
theorem beginFrame_onlyStart (s : State) :
    Moves (only [.bus, .roster, .receive, .sites, .sag, .harm, .rotation, .tracker, .free, .survey, .store])
      s (beginFrame s) :=
  beginFrame_moves s (by decide) (by decide) (by decide) (by decide) (by decide) (by decide) (by decide)
    (by decide) (by decide) (by decide) (by decide)

theorem frameStart_settled {s : State} (h : Settled s) : frameStart s = beginFrame s := by
  obtain ⟨idle, worked, noMidnight, unowed⟩ := h
  have notice : noticeReset s = s := by
    rw [noticeReset, noticeReset_unowed _ unowed]
  have print : printReset s = s := by
    simp [printReset, printResetDue, unowed]
  have midnight : takeMidnight s = s := by
    simp [takeMidnight, noMidnight]
  have acq : acqReset s = s := by
    simp [acqReset, acqResetDue, unowed]
  rw [frameStart, idle, notice, print, worked, midnight, acq]
  rfl

theorem exec_frameStart {s : State} (q : Quiet s) (h : Settled s) :
    exec .frameStart s = .next (beginFrame s) := by
  have e := frameStart_settled h
  rw [← e]
  refine event_of_moves (P := only [.bus, .roster, .receive, .sites, .sag, .harm, .rotation, .tracker, .free,
    .survey, .store]) ?_ q
  rw [e]
  exact beginFrame_onlyStart s

/-! ### O18 -/

/-- R25: the phase after a carry stands below K, and is reached by whole additions of K. -/
theorem ncoAfterCarry_lt {acc k : Nat} (hk : 0 < k) (ha : acc < k) (h : k < 2 ^ 32) :
    ncoAfterCarry acc k < k ∧ (2 ^ 32 + ncoAfterCarry acc k - acc) % k = 0 := by
  have additions : k * ceilDiv (2 ^ 32 - acc) k < 2 ^ 32 - acc + k ∧
      2 ^ 32 - acc ≤ k * ceilDiv (2 ^ 32 - acc) k := by
    unfold ceilDiv
    have split := Nat.div_add_mod (2 ^ 32 - acc + k - 1) k
    have := Nat.mod_lt (2 ^ 32 - acc + k - 1) hk
    omega
  rw [ncoAfterCarry, if_neg (by omega)]
  refine ⟨by omega, ?_⟩
  have whole : 2 ^ 32 + (acc + k * ceilDiv (2 ^ 32 - acc) k - 2 ^ 32) - acc =
      k * ceilDiv (2 ^ 32 - acc) k := by omega
  rw [whole, Nat.mul_mod_right]

/-- A carry moves nothing of the tracker but the phase and the marks of a change of K. -/
theorem ncoCarry_tracker (s : State) : ∃ nco, (ncoCarry s).tracker =
      { s.tracker with nco := nco, kMoved := false, boundaryK := none } ∧
    (s.tracker.kMoved = false → nco = ncoAfterCarry s.tracker.nco (carryK s.tracker)) := by
  unfold ncoCarry
  dsimp only
  by_cases moved : s.tracker.kMoved = true
  · rw [if_pos moved]
    exact ⟨_, rfl, fun k => by rw [k] at moved; cases moved⟩
  · rw [if_neg moved]
    refine ⟨_, ?_, fun _ => rfl⟩
    simp only [Bool.not_eq_true] at moved
    rw [← moved]

theorem referenceAtFrame_cases (s : State) :
    let t := { s.tracker with wanted := wantedReference s }
    (referenceAtFrame s).tracker = t ∨ (referenceAtFrame s).tracker = changeOver t := by
  intro t
  unfold referenceAtFrame
  dsimp only
  split
  · exact .inl rfl
  · split
    · split
      · exact .inl rfl
      · exact .inr rfl
    · exact .inr rfl

theorem controlled_tracker (s : State) : (controlled s).tracker = (ncoCarry s).tracker := by
  rw [controlled, (selectControl_onlyBus _).tracker_eq (by decide), newFrame_tracker]

/-- The choice of the reference leaves f, K and the phase as the carry left them. -/
theorem beginFrame_frequency (s : State) :
    (beginFrame s).tracker.f = s.tracker.f ∧ (beginFrame s).tracker.k = s.tracker.k ∧
      (beginFrame s).tracker.boundaryK = none ∧
      (beginFrame s).tracker.nco = (ncoCarry s).tracker.nco := by
  obtain ⟨nco, carried, _⟩ := ncoCarry_tracker s
  rw [beginFrame_tracker]
  rcases referenceAtFrame_cases (controlled s) with h | h <;>
    · rw [h]
      simp only [changeOver, controlled_tracker, carried, and_self]

/-- The control word of a frame in which a join is in progress, and does not take effect. -/
theorem controlled_joining {s : State} {j : Join} (h : s.bus.join = some j)
    (k : ∀ identity, j.stage ≠ .onSent identity) :
    ∃ u : State, u.bus.join = some j ∧ controlled s = selectControl u := by
  have other : joinAtFrame (frameBegun s) = frameBegun s := joinAtFrame_other fun j' identity hj' => by
    rw [frameBegun_bus] at hj'
    cases h.symm.trans hj'
    exact k identity
  refine ⟨newFrame s, ?_, rfl⟩
  rw [newFrame_eq, other, setBus_bus, frameBegun_bus]
  exact h

theorem beginFrame_control (s : State) : (beginFrame s).bus.ctrl = (controlled s).bus.ctrl ∧
    (beginFrame s).bus.join = (controlled s).bus.join ∧
    (beginFrame s).bus.lastProbed = (controlled s).bus.lastProbed := by
  rw [beginFrame_bus]
  exact ⟨rfl, rfl, rfl⟩

theorem selectControl_poll {s : State} (h : s.bus.join = none) :
    match nextProbe s with
    | some slot => (selectControl s).bus.ctrl = ⟨slot, .probe⟩ ∧ (selectControl s).bus.lastProbed = slot
    | none => (selectControl s).bus.ctrl = ⟨0, .idle⟩ ∧
        (selectControl s).bus.lastProbed = s.bus.lastProbed := by
  simp only [selectControl, h, pollWord]
  cases nextProbe s <;> exact ⟨rfl, rfl⟩

theorem selectControl_idle_join {s : State} (h : s.bus.join = none) :
    (selectControl s).bus.join = none := by
  rw [selectControl, h]
  change (pollWord s).bus.join = none
  unfold pollWord
  split <;> exact h

/-- Settles O18. -/
theorem frameStartBegins : Obligations.FrameStartBegins := by
  unfold Obligations.FrameStartBegins
  intro s q settled
  obtain ⟨join, ctrl, probed, bus⟩ := controlled_bus s
  obtain ⟨sameF, sameK, carried, phase⟩ := beginFrame_frequency s
  obtain ⟨ctrlEq, joinEq, probedEq⟩ := beginFrame_control s
  have moves := beginFrame_onlyStart s
  refine ⟨beginFrame s, exec_frameStart q settled, ?frame, ?begun, ?due, ?change, ?time, ?valid, ?in_, ?prev,
    ?mask, ?idle, ?read, ?words, ?on, ?off, sameF, sameK, carried, ?nco, moves.clock_eq (by decide),
    moves.array_eq (by decide), moves.capture_eq (by decide), moves.print_eq (by decide),
    moves.supply_eq (by decide), moves.pending_eq⟩
  case frame => rw [beginFrame_bus, bus]; rfl
  case begun => rw [beginFrame_bus, bus]
  case due => rw [beginFrame_bus]
  case change => rw [beginFrame_bus, beginFrame_survey]
  case time => rw [beginFrame_bus, bus]
  case valid => rw [beginFrame_bus, bus]
  case in_ => rw [beginFrame_bus, bus]
  case prev => rw [beginFrame_bus, bus]
  case mask =>
    have ready : slotReady (beginFrame s) = slotReady (controlled s) := by
      funext slot
      simp only [slotReady, entryOf, beginFrame_roster]
    rw [ready, beginFrame_bus, bus]
    rfl
  case idle =>
    intro none_
    have other : joinAtFrame (frameBegun s) = frameBegun s := joinAtFrame_other fun j identity hj => by
      rw [frameBegun_bus] at hj
      cases none_.symm.trans hj
    have begun : (newFrame s).bus.join = none := by
      rw [newFrame_eq, other, setBus_bus, frameBegun_bus]
      exact none_
    have roster : (newFrame s).roster = s.roster := by
      rw [newFrame_eq, other]
      exact (frameBegun_moves s).roster_eq (by decide)
    have lastProbed : (newFrame s).bus.lastProbed = s.bus.lastProbed := by
      rw [newFrame_eq, other, setBus_bus, frameBegun_bus]
    have probe : nextProbe (newFrame s) =
        (probeOrder s.bus.lastProbed).find? fun slot => (entryOf s slot).state == .absent := by
      simp only [nextProbe, entryOf, roster, lastProbed]
    have poll := selectControl_poll begun
    rw [probe, lastProbed] at poll
    refine ⟨joinEq.trans (selectControl_idle_join begun), ?_, ?_⟩
    · rw [beginFrame_roster, controlled, (selectControl_onlyBus _).roster_eq (by decide), roster]
    · rw [ctrlEq, probedEq]
      exact poll
  case read =>
    intro slot count hj
    obtain ⟨u, hu, e⟩ := controlled_joining hj fun _ => nofun
    rw [ctrlEq, joinEq, e]
    simp only [selectControl, hu]
    exact ⟨rfl, rfl⟩
  case words =>
    intro slot count bytes hj
    obtain ⟨u, hu, e⟩ := controlled_joining hj fun _ => nofun
    rw [ctrlEq, joinEq, e, hj, ← hu]
    simp only [selectControl, hu]
    exact ⟨rfl, hu⟩
  case on =>
    intro slot count identity hj
    obtain ⟨u, hu, e⟩ := controlled_joining hj fun _ => nofun
    rw [ctrlEq, joinEq, e]
    simp only [selectControl, hu]
    exact ⟨rfl, rfl⟩
  case off =>
    intro slot count cause serial hj
    obtain ⟨u, hu, e⟩ := controlled_joining hj fun _ => nofun
    rw [ctrlEq, joinEq, e]
    simp only [selectControl, hu]
    exact ⟨rfl, rfl⟩
  case nco =>
    intro k still pos below small
    obtain ⟨nco, tracker, after⟩ := ncoCarry_tracker s
    have same : carryK s.tracker = k := by
      simp only [carryK, k]
      cases s.tracker.boundaryK <;> rfl
    rw [phase, tracker, after still, same]
    exact ncoAfterCarry_lt pos below small

/-! ### O32 -/

/-- R28, step 2: a slot that the fallback may choose. -/
def Eligible (s : State) (slot : Nat) : Prop :=
  1 ≤ slot ∧ slot ≤ 15 ∧ (entryOf s slot).state = .ready ∧
    (entryOf s slot).identity.map (·.kind) = some .voltage ∧
    ∃ site role m, site < 4 ∧ role < 8 ∧ memberOf s site role = some m ∧ m.slot = slot

theorem positionOf_isSome_iff (s : State) (slot : Nat) : (positionOf s slot).isSome = true ↔
    ∃ site role m, site < 4 ∧ role < 8 ∧ memberOf s site role = some m ∧ m.slot = slot := by
  unfold positionOf
  rw [List.find?_isSome]
  constructor
  · rintro ⟨p, hp, names⟩
    obtain ⟨hsite, hrole⟩ := (mem_allPositions p).1 hp
    cases hm : memberOf s p.1 p.2 with
    | none => simp [hm] at names
    | some m => exact ⟨p.1, p.2, m, hsite, hrole, hm, by simpa [hm] using names⟩
  · rintro ⟨site, role, m, hsite, hrole, hm, rfl⟩
    exact ⟨(site, role), (mem_allPositions _).2 ⟨hsite, hrole⟩, by simp [hm]⟩

theorem slotReady_iff (s : State) (slot : Nat) :
    slotReady s slot = true ↔ 1 ≤ slot ∧ slot ≤ 15 ∧ (entryOf s slot).state = .ready := by
  simp [slotReady, isSlot, and_assoc]

theorem eligible_iff (s : State) (slot : Nat) :
    (slotReady s slot && isVoltage s slot && (positionOf s slot).isSome) = true ↔ Eligible s slot := by
  rw [Bool.and_eq_true, Bool.and_eq_true, slotReady_iff, isVoltage_iff, positionOf_isSome_iff, Eligible]
  simp only [and_assoc]

/-- The fallback is the lowest eligible slot, and none where there is none. -/
theorem fallback_spec (s : State) :
    (∀ slot, fallback s = some slot → Eligible s slot ∧ ∀ i, Eligible s i → slot ≤ i) ∧
      (fallback s = none → ∀ i, ¬Eligible s i) := by
  have shifted : fallback s = ((List.range 15).find? fun i =>
      slotReady s (i + 1) && isVoltage s (i + 1) && (positionOf s (i + 1)).isSome).map (· + 1) :=
    List.find?_map ..
  refine ⟨fun slot h => ?_, fun h i able => ?_⟩
  · rw [shifted, Option.map_eq_some_iff] at h
    obtain ⟨n, found, rfl⟩ := h
    rw [List.find?_range_eq_some] at found
    obtain ⟨here, _, before⟩ := found
    refine ⟨(eligible_iff s _).1 here, fun i able => Nat.le_of_not_lt fun lt => ?_⟩
    obtain ⟨one, _⟩ := id able
    have no := before (i - 1) (by omega)
    rw [Nat.sub_add_cancel one, (eligible_iff s i).2 able] at no
    exact Bool.noConfusion no
  · rw [shifted, Option.map_eq_none_iff, List.find?_eq_none] at h
    obtain ⟨one, top, _⟩ := id able
    have no := h (i - 1) (List.mem_range.2 (by omega))
    rw [Nat.sub_add_cancel one] at no
    exact no ((eligible_iff s i).2 able)

theorem wantedReference_of_same {s t : State} (hr : t.roster = s.roster) (hs : t.sites = s.sites)
    (ht : t.tracker.selection = s.tracker.selection) : wantedReference t = wantedReference s := by
  have ready : slotReady t = slotReady s := by
    funext slot
    simp only [slotReady, entryOf, hr]
  have voltage : isVoltage t = isVoltage s := by
    funext slot
    simp only [isVoltage, entryOf, hr]
  have member : memberOf t = memberOf s := by
    funext site role
    simp only [memberOf, siteOf, hs]
  have position : positionOf t = positionOf s := by
    funext slot
    simp only [positionOf, member]
  simp only [wantedReference, fallback, ready, voltage, member, position, ht]

/-- R28: the reference in use after the choice at a frame's start. -/
theorem referenceAtFrame_inUse (s : State) :
    let wanted := wantedReference s
    let keeps := wanted = s.tracker.inUse ∨
      (∃ slot, s.tracker.inUse = some slot ∧ slotReady s slot = true) ∧ s.tracker.since < 256
    (keeps → (referenceAtFrame s).tracker = { s.tracker with wanted := wanted }) ∧
      (¬keeps → (referenceAtFrame s).tracker = changeOver { s.tracker with wanted := wanted }) := by
  intro wanted keeps
  unfold referenceAtFrame
  dsimp only
  by_cases same : wantedReference s = s.tracker.inUse
  · have kept : keeps := .inl same
    rw [setTracker_tracker, if_pos same]
    exact ⟨fun _ => rfl, fun k => absurd kept k⟩
  · rw [setTracker_tracker, if_neg same]
    cases inUse : s.tracker.inUse with
    | none =>
      refine ⟨?_, fun _ => rfl⟩
      rintro (h | ⟨⟨slot, h, _⟩, _⟩)
      · exact absurd h same
      · exact nomatch inUse.symm.trans h
    | some slot =>
      dsimp only
      split
      · next waits =>
        rw [Bool.and_eq_true, decide_eq_true_eq] at waits
        obtain ⟨ready, since⟩ := waits
        refine ⟨fun _ => ?_, fun k => absurd (.inr ⟨⟨slot, inUse, ready⟩, since⟩) k⟩
        rw [← inUse]
        rfl
      · next passes =>
        rw [Bool.and_eq_true, decide_eq_true_eq] at passes
        refine ⟨?_, fun _ => rfl⟩
        rintro (h | ⟨⟨slot', h, ready⟩, since⟩)
        · exact absurd h same
        · cases inUse.symm.trans h
          exact absurd ⟨ready, since⟩ passes

/-- A period moves neither the reference in use nor the wanted one. -/
theorem takePeriod_reference (p : Nat) (s : State) :
    (takePeriod p s).tracker.wanted = s.tracker.wanted ∧
      (takePeriod p s).tracker.inUse = s.tracker.inUse := by
  unfold takePeriod
  split
  · unfold acquire
    dsimp only
    split
    · exact ⟨rfl, rfl⟩
    · generalize (if periodInLock p then _ else 0) = n
      split
      · exact ⟨rfl, rfl⟩
      · simp [postTrack, Tracker.setFreq]
  · split
    · exact ⟨rfl, rfl⟩
    · simp [enterHoldover, postTrack]
  · split
    · simp [postTrack, Tracker.setFreq]
    · exact ⟨rfl, rfl⟩
  · exact ⟨rfl, rfl⟩

/-- Settles O32. -/
theorem wantedReferenceIsChosen : Obligations.WantedReferenceIsChosen := by
  unfold Obligations.WantedReferenceIsChosen
  intro s selected eligible
  have reads : wantedReference s = match selected with
      | some slot => if slotReady s slot then some slot else fallback s
      | none => fallback s := by
    simp only [wantedReference, selected]
    cases s.tracker.selection <;> rfl
  obtain ⟨lowest, nowhere⟩ := fallback_spec s
  refine ⟨?selected, ?fallback, ?frame, ?crossing⟩
  case selected =>
    intro slot h one top ready
    rw [reads, h]
    exact if_pos ((slotReady_iff s slot).2 ⟨one, top, ready⟩)
  case fallback =>
    intro unready
    have falls : wantedReference s = fallback s := by
      rw [reads]
      cases h : selected with
      | none => rfl
      | some slot => exact if_neg (by rw [unready slot h]; decide)
    rw [falls]
    exact ⟨lowest, nowhere⟩
  case frame =>
    intro q settled
    obtain ⟨nco, carried, _⟩ := ncoCarry_tracker s
    have inUse : (controlled s).tracker.inUse = s.tracker.inUse := by rw [controlled_tracker, carried]
    have since : (controlled s).tracker.since = s.tracker.since := by rw [controlled_tracker, carried]
    have lastCross : (controlled s).tracker.lastCross = s.tracker.lastCross := by
      rw [controlled_tracker, carried]
    have det : (controlled s).tracker.det = s.tracker.det := by rw [controlled_tracker, carried]
    have wanted : (beginFrame s).tracker.wanted = wantedReference (controlled s) := by
      rw [beginFrame_tracker]
      rcases referenceAtFrame_cases (controlled s) with h | h <;> simp only [h, changeOver]
    have again : wantedReference (beginFrame s) = wantedReference (controlled s) := by
      refine wantedReference_of_same (beginFrame_roster s) (beginFrame_sites s) ?_
      rw [beginFrame_tracker]
      rcases referenceAtFrame_cases (controlled s) with h | h <;> simp only [h, changeOver]
    have ready : slotReady (beginFrame s) = slotReady (controlled s) := by
      funext slot
      simp only [slotReady, entryOf, beginFrame_roster]
    refine ⟨beginFrame s, exec_frameStart q settled, wanted.trans again.symm, ?_⟩
    obtain ⟨keeps, changes⟩ := referenceAtFrame_inUse (controlled s)
    rw [inUse, since] at keeps changes
    rw [wanted, ready, beginFrame_tracker]
    refine ⟨fun k => ?_, fun k => ?_⟩
    · rw [keeps k]
      exact ⟨inUse, lastCross, det⟩
    · rw [changes k]
      exact ⟨rfl, rfl, rfl⟩
  case crossing =>
    intro time u
    have kept : u.tracker.wanted = s.tracker.wanted ∧ u.tracker.inUse = s.tracker.inUse := by
      cases h : s.tracker.lastCross with
      | none => simp only [u, h, and_self]
      | some last =>
        simp only [u, h]
        exact takePeriod_reference _ s
    obtain ⟨wanted, inUse⟩ := kept
    have confirmed : crossingConfirmed time s = setTracker
        (fun t =>
          let t := { t with lastCross := some time, since := 0 }
          if t.wanted != t.inUse then changeOver t else t) u := by
      unfold crossingConfirmed
      cases h : s.tracker.lastCross with
      | none => simp only [u, h]
      | some last =>
        simp only [u, h]
        rfl
    rw [confirmed, ← wanted, ← inUse]
    by_cases same : u.tracker.wanted = u.tracker.inUse
    · simp [setTracker, same]
    · simp [setTracker, same, changeOver]

end Sys2Proof.Machine
end

