-- ==== Sys2Proof/Proofs/ClockAndSurvey.lean ====
section
/-!
PROOFS. The clock (R19, R40, R41), and the survey's requests, its record and its notices (R48 to R56): O33,
O34, O38, O39 and O40.
-/

namespace Sys2Proof.Machine

/-! ### The clock -/

theorem evaluateCalDue_eq (s : State) : evaluateCalDue s =
    { s with roster := s.roster.map fun e =>
        { e with
          calDue := match e.identity with
            | some i => s.clock.valid && decide (i.calDate + i.calInterval < s.clock.time.sec / 86400)
            | none => false } } := by
  have due : ∀ e : RosterEntry, calDueOf s.clock e.identity = match e.identity with
      | some i => s.clock.valid && decide (i.calDate + i.calInterval < s.clock.time.sec / 86400)
      | none => false := by
    intro e
    unfold calDueOf today
    cases e.identity <;> rfl
  simp only [evaluateCalDue, due]

theorem takeMidnight_early {s : State} (h : s.clock.midnightDue = false) : takeMidnight s = s := by
  rw [takeMidnight, h]
  rfl

theorem clockTick_early {s : State} (h : s.clock.midnightDue = false) :
    clockTick s = { s with clock := s.clock.tick } := by
  rw [clockTick, takeMidnight_early h]

/-- Settles O33. -/
theorem clockCommandsMoveTheClock : Obligations.ClockCommandsMoveTheClock := by
  unfold Obligations.ClockCommandsMoveTheClock
  intro s c at_
  have tick : c.midnightDue = false → exec .clockTick s = .next { s with clock := c.tick } :=
    fun early => congrArg _ (clockTick_early early)
  refine ⟨?millisecond, ?second, ?top, ?wrap, ?noWrap, ?midnight, ?noMidnight⟩
  case millisecond =>
    intro early ms
    rw [tick early, Clock.tick, if_pos ms]
    simp only [at_, ← early]
  case second =>
    intro early ms sec
    rw [tick early, Clock.tick, if_neg (Nat.not_lt.2 ms), if_pos (show c.time.sec < max32 from sec)]
    simp only [at_, early, Bool.false_or]
  case top =>
    intro early ms sec
    rw [tick early, Clock.tick, if_neg (Nat.not_lt.2 ms), if_neg (show ¬c.time.sec < max32 from Nat.not_lt.2 sec)]
  case wrap =>
    intro early full
    have due : wrapDue s.clock = true := by simp [wrapDue, max32, show s.clock.time = _ from full]
    have wrapped : exec .clockWrap s = .next { s with clock := c.tick } := by
      change Host.Outcome.next (if wrapDue s.clock then clockTick s else s) = _
      rw [if_pos due, clockTick_early early]
    rw [wrapped, Clock.tick, full, if_neg (by decide), if_neg (by decide)]
  case noWrap =>
    intro notFull
    have early : wrapDue s.clock ≠ true := fun due => notFull (by
      obtain ⟨sec, ms⟩ : c.time.sec = max32 ∧ c.time.ms = 999 := by simpa [wrapDue] using due
      change c.time = ⟨max32, 999⟩
      rw [← sec, ← ms])
    exact congrArg _ (if_neg early)
  case midnight =>
    intro due
    change Host.Outcome.next (takeMidnight s) = _
    rw [takeMidnight, if_pos due, evaluateCalDue_eq] <;> rfl
  case noMidnight => exact fun early => congrArg _ (takeMidnight_early early)

theorem recording_iff (s : State) : recording s = true ↔ s.survey.state = some .recording := by
  simp [recording]

theorem critical_iff (s : State) : critical s = true ↔ s.supply.level = .critical := by
  simp [critical]

theorem clockSet_up (sec : Word) (ms : Half) (u : State) (up : u.store.state ≠ .mounting) :
    clockSet sec ms u =
      if recording u then refuse .wrongState u
      else if 999 < ms.toNat then refuse .badValue u
      else answer .ok (.clock ⟨sec.toNat, ms.toNat⟩)
        (evaluateCalDue
          { u with clock := { u.clock with time := ⟨sec.toNat, ms.toNat⟩, valid := true } }) :=
  unlessMounting_of_not_mounting _ u up

/-- Settles O34. -/
theorem clockSetSetsTheClock : Obligations.ClockSetSetsTheClock := by
  unfold Obligations.ClockSetSetsTheClock
  intro tag sec ms s h up
  have ⟨_, hc, _, _⟩ := h
  have refuses := fun status => request_refused tag (.clockSet sec ms) status s h
  refine ⟨?mounting, ?recording, ?bad, ?sets⟩
  case mounting =>
    intro down
    refine refuses .busy fun u hu => ?_
    subst hu
    change clockSet sec ms (waiting 0x08 tag s) = _
    rw [clockSet]
    exact unlessMounting_of_mounting _ _ (not_not.1 down)
  case recording =>
    intro upHere runs
    refine refuses .wrongState fun u hu => ?_
    subst hu
    exact (clockSet_up sec ms (waiting 0x08 tag s) upHere).trans (if_pos ((recording_iff s).2 runs))
  case bad =>
    intro upHere still big
    refine refuses .badValue fun u hu => ?_
    subst hu
    exact (clockSet_up sec ms (waiting 0x08 tag s) upHere).trans ((if_neg (mt (recording_iff s).1 still)).trans (if_pos big))
  case sets =>
    intro upHere still small time
    let timed : State := { s with clock := { s.clock with time := time, valid := true } }
    have set := request_answered tag (.clockSet sec ms) .ok (.clock time) s (evaluateCalDue timed) h hc
      ((clockSet_up sec ms (waiting 0x08 tag s) upHere).trans
        ((if_neg (mt (recording_iff s).1 still)).trans (if_neg (Nat.not_lt.2 small))))
    refine set.trans ?_
    rw [evaluateCalDue_eq timed]
    simp only [timed, Bool.true_and]
    rfl

/-! ### Requests that wait for a boundary -/

/-- A request on a free link whose rule leaves it in progress. -/
theorem request_waits (tag : Byte) (r : Request) {s t : State} (h : Ready s)
    (hr : serve r (waiting (requestCode r) tag s) = waiting (requestCode r) tag t) :
    exec (r.command tag) s = .next (waiting (requestCode r) tag t) := by
  rw [exec_command, request_ready tag r s h, hr]

theorem qualifies_iff (s : State) : qualifies s = true ↔
    ∃ e ∈ s.sites, e.settings.enabled = true ∧ ∃ m ∈ e.members.take 4, m.isSome = true := by
  simp only [qualifies, List.any_eq_true, Bool.and_eq_true]

theorem storeUp_iff (st : Store) : storeUp st = true ↔ st.state ≠ .mounting ∧ st.state ≠ .wiping := by
  simp [storeUp]

/-- The checks of a start or a resume, in their order (R51, R53). -/
theorem requestStart_answers (tag : Byte) (r : Request) {s : State} (h : Ready s)
    (up : s.store.state ≠ .mounting)
    (hr : serve r (waiting (requestCode r) tag s) = requestStart (waiting (requestCode r) tag s)) :
    let site := ∃ e ∈ s.sites, e.settings.enabled = true ∧ ∃ m ∈ e.members.take 4, m.isSome = true
    let o := exec (r.command tag) s
    let kind := requestCode r
    (¬site → o = .next (replied (replyKind kind) tag .badValue .empty s)) ∧
      (site → s.supply.level = .critical → o = .next (replied (replyKind kind) tag .supply .empty s)) ∧
      (site → s.supply.level ≠ .critical → s.store.state = .wiping →
        o = .next (replied (replyKind kind) tag .busy .empty s)) ∧
      (site → s.supply.level ≠ .critical → s.store.state ≠ .wiping →
        o = .next (waiting kind tag { s with survey := { s.survey with change := some .start } })) := by
  intro site o kind
  have refuses := fun status => request_refused tag r status s h
  have starts : ∀ u : State, u = waiting (requestCode r) tag s → serve r u = requestStart u := by
    rintro u rfl
    exact hr
  have named : site → (!qualifies s) ≠ true := fun k => by rw [(qualifies_iff s).2 k]; decide
  have calm : s.supply.level ≠ .critical → critical s ≠ true := mt (critical_iff s).1
  refine ⟨fun none_ => ?_, fun k low => ?_, fun k high wiping => ?_, fun k high running => ?_⟩
  · refine refuses .badValue fun u hu => (starts u hu).trans (if_pos ?_)
    subst hu
    rw [show qualifies (waiting (requestCode r) tag s) = false from
      Bool.eq_false_iff.2 (mt (qualifies_iff s).1 none_)]
    rfl
  · refine refuses .supply fun u hu => (starts u hu).trans ?_
    subst hu
    exact (if_neg (named k)).trans (if_pos ((critical_iff s).2 low))
  · refine refuses .busy fun u hu => (starts u hu).trans ?_
    subst hu
    refine (if_neg (named k)).trans ((if_neg (calm high)).trans (if_pos ?_))
    simp [storeUp, waiting, wiping]
  · refine request_waits tag r h (hr.trans ?_)
    refine (if_neg (named k)).trans ((if_neg (calm high)).trans (if_neg ?_))
    rw [show storeUp (waiting (requestCode r) tag s).store = true from (storeUp_iff _).2 ⟨up, running⟩]
    decide

theorem surveyStart_up (u : State) (up : u.store.state ≠ .mounting) : surveyStart u =
    if u.survey.state = some .setup then requestStart u else refuse .wrongState u :=
  unlessMounting_of_not_mounting _ u up

theorem surveyResume_up (u : State) (up : u.store.state ≠ .mounting) : surveyResume u =
    if u.survey.state = some .held then requestStart u else refuse .wrongState u :=
  unlessMounting_of_not_mounting _ u up

theorem surveyHold_up (u : State) (up : u.store.state ≠ .mounting) : surveyHold u =
    if !recording u then refuse .wrongState u
    else if u.survey.change = some .stopSupply then u
    else setSurvey (fun v => { v with change := some .stopHold }) u :=
  unlessMounting_of_not_mounting _ u up

theorem surveyEnd_recording (u : State) (up : u.store.state ≠ .mounting)
    (h : u.survey.state = some .recording) : surveyEnd u =
      if critical u || u.survey.change == some .stopSupply then refuse .supply u
      else setSurvey (fun v => { v with change := some .stopEnd }) u := by
  rw [surveyEnd, unlessMounting_of_not_mounting _ u up, h]

theorem surveyEnd_held (u : State) (up : u.store.state ≠ .mounting)
    (h : u.survey.state = some .held) : surveyEnd u =
      if critical u then refuse .supply u
      else answer .ok .empty (enterSurvey .ended none u.bus.frame u.clock.time u) := by
  rw [surveyEnd, unlessMounting_of_not_mounting _ u up, h]

theorem surveyEnd_other (u : State) (up : u.store.state ≠ .mounting)
    (h : u.survey.state = some .setup ∨ u.survey.state = some .ended) :
    surveyEnd u = refuse .wrongState u := by
  rw [surveyEnd, unlessMounting_of_not_mounting _ u up]
  rcases h with h | h <;> rw [h]

/-- Settles O38. -/
theorem surveyRequestsArePending : Obligations.SurveyRequestsArePending := by
  unfold Obligations.SurveyRequestsArePending
  intro tag s h up site wait starts
  refine ⟨?start, ?noStart, ?resume, ?noResume, ?hold, ?noHold, ?end_⟩
  case start =>
    intro setup
    exact requestStart_answers tag .surveyStart h up ((surveyStart_up (waiting 0x0C tag s) up).trans (if_pos setup))
  case noStart =>
    intro other
    refine request_refused tag .surveyStart .wrongState s h fun u hu => ?_
    subst hu
    exact (surveyStart_up (waiting 0x0C tag s) up).trans (if_neg other)
  case resume =>
    intro held
    exact requestStart_answers tag .surveyResume h up ((surveyResume_up (waiting 0x0E tag s) up).trans (if_pos held))
  case noResume =>
    intro other
    refine request_refused tag .surveyResume .wrongState s h fun u hu => ?_
    subst hu
    exact (surveyResume_up (waiting 0x0E tag s) up).trans (if_neg other)
  case hold =>
    intro runs
    have running : (!recording s) ≠ true := by rw [(recording_iff s).2 runs]; decide
    split
    · next stops =>
      refine request_waits tag .surveyHold h ((surveyHold_up (waiting 0x0D tag s) up).trans ?_)
      exact (if_neg running).trans (if_pos stops)
    · next free =>
      refine request_waits tag .surveyHold h ((surveyHold_up (waiting 0x0D tag s) up).trans ?_)
      exact (if_neg running).trans (if_neg free)
  case noHold =>
    intro other
    refine request_refused tag .surveyHold .wrongState s h fun u hu => ?_
    subst hu
    refine (surveyHold_up (waiting 0x0D tag s) up).trans (if_pos ?_)
    rw [show recording (waiting 0x0D tag s) = false from Bool.eq_false_iff.2 (mt (recording_iff s).1 other)]
    rfl
  case end_ =>
    intro runs
    have supplied : (critical s || s.survey.change == some .stopSupply) = true ↔
        s.supply.level = .critical ∨ s.survey.change = some .stopSupply := by
      rw [Bool.or_eq_true, critical_iff, beq_iff_eq]
    have ends : ∀ u : State, u = waiting 0x0F tag s → surveyEnd u =
        if critical s || s.survey.change == some .stopSupply then refuse .supply u
        else setSurvey (fun v => { v with change := some .stopEnd }) u := by
      rintro u rfl
      exact surveyEnd_recording _ up runs
    split
    · next low =>
      exact request_refused tag .surveyEnd .supply s h fun u hu =>
        (ends u hu).trans (if_pos (supplied.2 low))
    · next free =>
      exact request_waits tag .surveyEnd h ((ends _ rfl).trans (if_neg (mt supplied.1 free)))

/-! ### The SURVEY record -/

/-- What the choice of the next array operation leaves of the store. -/
structure NextKeeps (st t : Store) : Prop where
  array : t.array = st.array
  state : t.state = st.state
  mode : t.mode = st.mode
  queue : t.queue = st.queue
  nextIds : t.nextIds = st.nextIds
  limits : t.limits = st.limits
  lockMark : t.lockMark = st.lockMark
  eventDrops : t.eventDrops = st.eventDrops
  intervalDrops : t.intervalDrops = st.intervalDrops
  reclaims : t.reclaims = st.reclaims

theorem NextKeeps.refl (st : Store) : NextKeeps st st := by constructor <;> rfl

theorem openPlace_keeps (loc : Nat × Nat) (opened : Bool) (st : Store) : NextKeeps st (st.openPlace loc opened) := by
  unfold Store.openPlace
  dsimp only
  split <;> (constructor <;> rfl)

theorem beginWrite_keeps (st : Store) : NextKeeps st (beginWrite st) := by
  unfold beginWrite
  split
  · exact .refl st
  · dsimp only
    split
    · next loc opened _ =>
      obtain ⟨a, b, c, d, e, f, g, h, i, j⟩ := openPlace_keeps loc opened st
      exact ⟨a, b, c, d, e, f, g, h, i, j⟩
    · exact .refl st

theorem nextReclaim_keeps (st : Store) : NextKeeps st (nextReclaim st) := by
  unfold nextReclaim
  split
  · exact .refl st
  · next r _ =>
    split
    · next kind id rest _ =>
      dsimp only
      split
      · split
        · next loc opened _ =>
          obtain ⟨a, b, c, d, e, f, g, h, i, j⟩ :=
            openPlace_keeps loc opened { st with reclaim := some { r with copies := rest } }
          exact ⟨a, b, c, d, e, f, g, h, i, j⟩
        · exact .refl st
      · constructor <;> rfl
    · constructor <;> rfl

theorem next_keeps (st : Store) : NextKeeps st st.next := by
  unfold Store.next
  split
  · exact .refl st
  · split
    · constructor <;> rfl
    · constructor <;> rfl
    · split
      · exact nextReclaim_keeps st
      · exact beginWrite_keeps st
      · exact .refl st

theorem drawId_nextIds (kind : RecordKind) (st : Store) :
    (drawId kind st).2.nextIds = st.nextIds.modify (· + 1) kind := by
  unfold drawId
  dsimp only
  split <;> rfl

theorem drawId_queue (kind : RecordKind) (st : Store) : (drawId kind st).2.queue = st.queue := by
  unfold drawId
  dsimp only
  split <;> rfl

/-- A SURVEY record that finds a store up and a place in its queue. -/
theorem queueSurvey_store (r : SurveyRecord) (s : State) :
    (queueSurvey r s).store.queue = s.store.queue ++
        [⟨.survey, s.store.nextIds.survey, .survey { r with clockUnset := !s.clock.valid }, false⟩] ∧
      (queueSurvey r s).store.nextIds = { s.store.nextIds with survey := s.store.nextIds.survey + 1 } := by
  unfold queueSurvey Store.enqueue
  dsimp only
  rw [drawId_nextIds, drawId_queue]
  exact ⟨rfl, rfl⟩

theorem offerSurvey_room {s : State} {r : SurveyRecord} (hp : s.survey.place = some r)
    (up : storeUp s.store = true) (room : s.store.queue.length < 16) : offerSurvey s = queueSurvey r s := by
  have fits : queueRoom s.store = true := decide_eq_true room
  simp only [offerSurvey, hp, up, fits, Bool.and_self, if_true]

theorem offerSurvey_waits {s : State} (h : ¬storeUp s.store = true ∨ 16 ≤ s.store.queue.length) :
    offerSurvey s = s := by
  have no : ¬(storeUp s.store && queueRoom s.store) = true := by
    rw [Bool.and_eq_true]
    rintro ⟨up, room⟩
    exact h.elim (· up) (Nat.not_le.2 (of_decide_eq_true room))
  unfold offerSurvey
  split
  · rfl
  · exact if_neg no

/-- The survey as it has entered a state, with its record in the pending place. -/
def surveyEntered (new : SurveyState) (cause : Option HoldCause) (s : State) : State :=
  let t := setSurvey (fun v => { v with state := some new, cause := cause }) s
  setSurvey (fun v => { v with place := some (surveyRecord t) }) t

theorem enterSurvey_eq (new : SurveyState) (cause : Option HoldCause) (frame : Nat) (time : ClockTime)
    (s : State) : enterSurvey new cause frame time s =
      post (.surveyState (storeNext (offerSurvey (surveyEntered new cause s))).survey.number new
        s.survey.state cause frame time none) (storeNext (offerSurvey (surveyEntered new cause s))) := rfl

theorem enterSurvey_kept (new : SurveyState) (cause : Option HoldCause) (frame : Nat) (time : ClockTime)
    (s : State) : Moves (only [.store, .survey]) s (enterSurvey new cause frame time s) :=
  enterSurvey_moves _ _ _ _ _ (by decide) (by decide)

/-- The SURVEY record of a survey that enters a state (R56). -/
def recordEntering (new : SurveyState) (cause : Option HoldCause) (s : State) : SurveyRecord :=
  { number := s.survey.number, state := new, cause := cause, first := s.survey.first
    runStart := s.survey.runStart, mode := s.store.mode, time := s.clock.time
    clockUnset := !s.clock.valid
    sites := s.sites.map fun e => ⟨e.settings, e.members.map fun m => m.map fun m => (m.slot, m.serial)⟩ }

theorem surveyEntered_place (new : SurveyState) (cause : Option HoldCause) (s : State) :
    (surveyEntered new cause s).survey =
      { s.survey with
        state := some new, cause := cause, place := some (recordEntering new cause s) } := rfl

/-- What entering a survey state leaves of the survey and of the write queue. -/
theorem enterSurvey_record (new : SurveyState) (cause : Option HoldCause) (frame : Nat) (time : ClockTime)
    (s : State) :
    let t := enterSurvey new cause frame time s
    let r := recordEntering new cause s
    let up := s.store.state ≠ .mounting ∧ s.store.state ≠ .wiping
    t.survey =
      { s.survey with
        state := some new, cause := cause
        place := if up ∧ s.store.queue.length < 16 then none else some r } ∧
    (up → s.store.queue.length < 16 →
      t.store.queue = s.store.queue ++ [⟨.survey, s.store.nextIds.survey, .survey r, false⟩] ∧
        t.store.nextIds = { s.store.nextIds with survey := s.store.nextIds.survey + 1 }) ∧
    (¬up ∨ 16 ≤ s.store.queue.length →
      t.store.queue = s.store.queue ∧ t.store.nextIds = s.store.nextIds) := by
  intro t r up
  have kept := next_keeps (offerSurvey (surveyEntered new cause s)).store
  have isUp : storeUp (surveyEntered new cause s).store = true ↔ up := storeUp_iff _
  have queue : t.store.queue = (offerSurvey (surveyEntered new cause s)).store.queue := kept.queue
  have nextIds : t.store.nextIds = (offerSurvey (surveyEntered new cause s)).store.nextIds := kept.nextIds
  have survey : t.survey = (offerSurvey (surveyEntered new cause s)).survey := rfl
  by_cases goes : up ∧ s.store.queue.length < 16
  · obtain ⟨isup, room⟩ := goes
    have offered : offerSurvey (surveyEntered new cause s) = queueSurvey r (surveyEntered new cause s) :=
      offerSurvey_room rfl (isUp.2 isup) room
    obtain ⟨queued, drawn⟩ := queueSurvey_store r (surveyEntered new cause s)
    rw [queue, nextIds, survey, offered, queued, drawn]
    refine ⟨?_, fun _ _ => ⟨rfl, rfl⟩, ?_⟩
    · rw [if_pos ⟨isup, room⟩]
      rfl
    · rintro (down | full)
      · exact absurd isup down
      · omega
  · have stays : ¬storeUp (surveyEntered new cause s).store = true ∨
        16 ≤ (surveyEntered new cause s).store.queue.length := by
      by_cases isup : up
      · exact .inr (Nat.le_of_not_lt fun room => goes ⟨isup, room⟩)
      · exact .inl (mt isUp.1 isup)
    rw [queue, nextIds, survey, offerSurvey_waits stays, if_neg goes]
    exact ⟨rfl, fun isup room => absurd ⟨isup, room⟩ goes, fun _ => ⟨rfl, rfl⟩⟩

/-- The notice of a survey state is posted to a link that has been told nothing else. -/
theorem enterSurvey_link (new : SurveyState) (cause : Option HoldCause) (frame : Nat) (time : ClockTime)
    (s : State) : (enterSurvey new cause frame time s).link =
      (post (.surveyState s.survey.number new s.survey.state cause frame time none) s).link := by
  have offered : (offerSurvey (surveyEntered new cause s)).link = s.link ∧
      (offerSurvey (surveyEntered new cause s)).clock = s.clock ∧
      (offerSurvey (surveyEntered new cause s)).survey.number = s.survey.number := by
    unfold offerSurvey queueSurvey
    dsimp only
    split
    · exact ⟨rfl, rfl, rfl⟩
    · split <;> exact ⟨rfl, rfl, rfl⟩
  obtain ⟨link, clock, number⟩ := offered
  rw [enterSurvey_eq, show (storeNext (offerSurvey (surveyEntered new cause s))).survey.number =
    s.survey.number from number]
  change Link.post _ (offerSurvey (surveyEntered new cause s)).link = _
  rw [link, show (storeNext (offerSurvey (surveyEntered new cause s))).clock = s.clock from clock]
  rfl

/-- Settles O39. -/
theorem surveyRecordIsMade : Obligations.SurveyRecordIsMade := by
  unfold Obligations.SurveyRecordIsMade
  intro new cause frame time s t r up
  have moves := enterSurvey_kept new cause frame time s
  obtain ⟨survey, queued, stays⟩ := enterSurvey_record new cause frame time s
  exact ⟨enterSurvey_link new cause frame time s, survey, queued, fun h => (stays h).1,
    moves.array_eq (by decide), moves.sites_eq (by decide), moves.sag_eq (by decide),
    moves.harm_eq (by decide), moves.capture_eq (by decide), moves.print_eq (by decide),
    moves.clock_eq (by decide)⟩

/-! ### O40 -/

theorem makeSurveyRecord_waiting (kind : Nat) (tag : Byte) (s : State) :
    makeSurveyRecord (waiting kind tag s) = waiting kind tag (makeSurveyRecord s) := by
  unfold makeSurveyRecord
  generalize e : setSurvey (fun v => { v with place := some (surveyRecord s) }) s = t
  have offered : ∀ u : State, offerSurvey (waiting kind tag u) = waiting kind tag (offerSurvey u) := by
    intro u
    unfold offerSurvey queueSurvey
    cases h : u.survey.place with
    | none =>
      rw [show (waiting kind tag u).survey.place = none from h]
    | some r =>
      rw [show (waiting kind tag u).survey.place = some r from h]
      dsimp only
      by_cases c : (storeUp u.store && queueRoom u.store) = true
      · rw [if_pos c, if_pos (show (storeUp (waiting kind tag u).store &&
          queueRoom (waiting kind tag u).store) = true from c)]
        rfl
      · rw [if_neg c, if_neg (show ¬(storeUp (waiting kind tag u).store &&
          queueRoom (waiting kind tag u).store) = true from c)]
  subst e
  refine Eq.trans ?_ (congrArg storeNext (offered _))
  rfl

/-- A request in progress does not touch the entry to a survey state. -/
theorem enterSurvey_waiting (kind : Nat) (tag : Byte) (new : SurveyState) (cause : Option HoldCause)
    (frame : Nat) (time : ClockTime) (s : State) (h : s.link.owed = none) :
    enterSurvey new cause frame time (waiting kind tag s) =
      waiting kind tag (enterSurvey new cause frame time s) := by
  have made := makeSurveyRecord_waiting kind tag
    (setSurvey (fun v => { v with state := some new, cause := cause }) s)
  have unowed : (makeSurveyRecord
      (setSurvey (fun v => { v with state := some new, cause := cause }) s)).link.owed = none :=
    (makeSurveyRecord_moves (P := anyPart) _ trivial trivial).link_kept.unowed h
  refine Eq.trans ?_ (post_waiting kind tag _ _ unowed)
  unfold enterSurvey
  dsimp only
  rw [show setSurvey (fun v => { v with state := some new, cause := cause }) (waiting kind tag s) =
    waiting kind tag (setSurvey (fun v => { v with state := some new, cause := cause }) s) from rfl, made]
  rfl

theorem surveyNew_up (u : State) (up : u.store.state ≠ .mounting) : surveyNew u =
    if u.survey.state = some .ended then
      answer .ok .empty
        (post (.surveyState (nextSurvey u.survey.number) .setup (some .ended) none u.bus.frame u.clock.time
            none)
          (setSurvey
            (fun v =>
              { v with
                state := some .setup, cause := none, number := nextSurvey v.number, first := none
                runStart := none }) u))
    else refuse .wrongState u :=
  unlessMounting_of_not_mounting _ u up

/-- Settles O40. -/
theorem surveyEndsAndRenews : Obligations.SurveyEndsAndRenews := by
  unfold Obligations.SurveyEndsAndRenews
  intro tag s h up
  have ⟨_, hc, _, howed⟩ := h
  refine ⟨?supply, ?ends, ?wrong, ?renews, ?notEnded⟩
  case supply =>
    intro held low
    exact request_refused tag .surveyEnd .supply s h fun u hu => by
      subst hu
      exact (surveyEnd_held (waiting 0x0F tag s) up held).trans (if_pos ((critical_iff s).2 low))
  case ends =>
    intro held high
    have idle : (enterSurvey .ended none s.bus.frame s.clock.time s).link.current = none :=
      (enterSurvey_kept _ _ _ _ s).link_kept.idle hc
    refine request_answered tag .surveyEnd .ok .empty s _ h idle ?_
    refine (surveyEnd_held (waiting 0x0F tag s) up held).trans
      ((if_neg (mt (critical_iff s).1 high)).trans ?_)
    exact congrArg (answer .ok .empty) (enterSurvey_waiting 0x0F tag _ _ _ _ s howed)
  case wrong =>
    intro other
    exact request_refused tag .surveyEnd .wrongState s h fun u hu => by
      subst hu
      exact surveyEnd_other (waiting 0x0F tag s) up other
  case renews =>
    intro ended number
    refine request_answered tag .surveyNew .ok .empty s _ h ((linkPost_kept _ _).idle hc) ?_
    refine (surveyNew_up (waiting 0x10 tag s) up).trans ((if_pos ended).trans ?_)
    refine congrArg (answer .ok .empty) ?_
    rw [← post_waiting _ _ _ _ (by exact howed)]
    rfl
  case notEnded =>
    intro other
    exact request_refused tag .surveyNew .wrongState s h fun u hu => by
      subst hu
      exact (surveyNew_up (waiting 0x10 tag s) up).trans (if_neg other)

end Sys2Proof.Machine
end

