-- ==== Sys2Proof/Proofs/Notices.lean ====
section
/-!
PROOFS. What a state's notices become while the transmitter sends and no RESET is owed (R179, R180): they are
appended to, and no other part of the link is touched but the reply. And what a site's rotation check becomes
when it is refreshed (R38), with its notice.
-/

namespace Sys2Proof.Machine

/-! ### A transmitter that sends -/

/-- The transmitter sends a frame and no RESET is in progress: what is posted waits. -/
structure Sends (l : Link) : Prop where
  busy : l.sending.isSome = true
  unowed : l.owed = none

/-- From `l` to `m` notices have been appended, and nothing of the transmitter has moved. -/
structure Appends (l m : Link) : Prop where
  sending : m.sending = l.sending
  owed : m.owed = l.owed
  mask : m.mask = l.mask
  notices : l.notices <+: m.notices

theorem Appends.refl (l : Link) : Appends l l := ⟨rfl, rfl, rfl, List.prefix_refl _⟩

theorem Appends.trans {l m n : Link} (h : Appends l m) (k : Appends m n) : Appends l n :=
  ⟨k.sending.trans h.sending, k.owed.trans h.owed, k.mask.trans h.mask, h.notices.trans k.notices⟩

theorem Appends.sends {l m : Link} (h : Appends l m) (k : Sends l) : Sends m :=
  ⟨h.sending ▸ k.busy, h.owed.trans k.unowed⟩

theorem startTransmit_of_sends {l : Link} (h : l.sending.isSome = true) : l.startTransmit = l :=
  startTransmit_sending l h

theorem offerNotice_appends (n : Notice) {l : Link} (h : Sends l) : Appends l (l.offerNotice n) := by
  unfold Link.offerNotice
  split
  · exact .refl l
  · split
    · rw [startTransmit_of_sends (l := { l with notices := l.notices ++ [n] }) h.busy]
      exact ⟨rfl, rfl, rfl, List.prefix_append _ _⟩
    · exact ⟨rfl, rfl, rfl, List.prefix_refl _⟩

theorem post_appends (b : NoticeBody) {s : State} (h : Sends s.link) : Appends s.link (post b s).link := by
  rw [post_unowed b s h.unowed]
  exact offerNotice_appends _ h

theorem linkAnswer_appends (st : Status) (b : ReplyBody) {l : Link} (h : Sends l) :
    Appends l (l.answer st b) := by
  unfold Link.answer
  split
  · rw [startTransmit_of_sends (by exact h.busy)]
    exact ⟨rfl, rfl, rfl, List.prefix_refl _⟩
  · exact .refl l

theorem setDomains_unowed (f : Domains → Domains) {l : Link} (h : l.owed = none) : l.setDomains f = l := by
  unfold Link.setDomains
  rw [h, Option.map_none, ← h]

theorem settle_unowed {l : Link} (h : l.owed = none) : l.settle = l := by
  rw [Link.settle, h]

/-- Whatever an operation of `Moves` tells a link that sends, it appends. -/
theorem Moves.appends {P : Part → Prop} {s t : State} (m : Moves P s t) (h : Sends s.link) :
    Appends s.link t.link := by
  induction m with
  | refl s => exact .refl _
  | same k => rw [k.link]; exact .refl _
  | post b s => exact post_appends b h
  | answer st b s => exact linkAnswer_appends st b h
  | clamp c s => exact ⟨rfl, rfl, rfl, List.prefix_refl _⟩
  | domain f s =>
    have same : (takeDomain f s).link = s.link := by
      change (s.link.setDomains f).settle = _
      rw [setDomains_unowed f h.unowed, settle_unowed h.unowed]
    rw [same]
    exact .refl _
  | notice s =>
    have same : (noticeReset s).link = s.link := noticeReset_unowed _ h.unowed
    rw [same]
    exact .refl _
  | trans _ _ first second => exact (first h).trans (second ((first h).sends h))

/-- A posted notice waits, where its kind is not masked and the queue has room. -/
theorem post_mem {b : NoticeBody} {s : State} (h : Sends s.link)
    (hm : s.link.mask.getLsbD b.code = true) (room : s.link.notices.length < 32) :
    (post b s).link.notices = s.link.notices ++ [⟨b, s.clock.time⟩] := by
  have fits : s.link.notices.length < Config.noticePlaces := room
  rw [post_unowed b s h.unowed]
  simp only [Link.offerNotice, hm, Bool.not_true, Bool.false_eq_true, if_false, if_pos fits]
  rw [startTransmit_of_sends (l := { s.link with notices := s.link.notices ++ _ }) h.busy]

/-- From `s` to `t` at most `n` notices are posted. -/
def PostsAtMost (n : Nat) (s t : State) : Prop :=
  Sends s.link → Appends s.link t.link ∧ t.link.notices.length ≤ s.link.notices.length + n

theorem PostsAtMost.of_link {s t : State} (h : t.link = s.link) : PostsAtMost 0 s t := fun _ => by
  rw [h]
  exact ⟨.refl _, le_refl _⟩

theorem PostsAtMost.mono {m n : Nat} {s t : State} (h : PostsAtMost m s t) (k : m ≤ n) :
    PostsAtMost n s t := fun sends =>
  ⟨(h sends).1, (h sends).2.trans (Nat.add_le_add_left k _)⟩

theorem PostsAtMost.trans {m n : Nat} {s t u : State} (h : PostsAtMost m s t) (k : PostsAtMost n t u) :
    PostsAtMost (m + n) s u := fun sends => by
  obtain ⟨appended, first⟩ := h sends
  obtain ⟨further, second⟩ := k (appended.sends sends)
  exact ⟨appended.trans further, by omega⟩

theorem PostsAtMost.ite {n : Nat} {c : Prop} [Decidable c] {s t u : State} (h : PostsAtMost n s t)
    (k : PostsAtMost n s u) : PostsAtMost n s (if c then t else u) := by
  split
  · exact h
  · exact k

theorem offerNotice_length (n : Notice) {l : Link} (h : Sends l) :
    (l.offerNotice n).notices.length ≤ l.notices.length + 1 := by
  unfold Link.offerNotice
  split
  · exact Nat.le_succ _
  · split
    · rw [startTransmit_of_sends (l := { l with notices := l.notices ++ [n] }) h.busy]
      exact le_of_eq List.length_append
    · exact Nat.le_succ _

theorem post_postsAtMost (b : NoticeBody) (s : State) : PostsAtMost 1 s (post b s) := fun h => by
  refine ⟨post_appends b h, ?_⟩
  rw [post_unowed b s h.unowed]
  exact offerNotice_length _ h

theorem postWhen_postsAtMost (c : Bool) (b : NoticeBody) (s : State) : PostsAtMost 1 s (postWhen c b s) :=
  .ite (post_postsAtMost b s) ((PostsAtMost.of_link rfl).mono (Nat.zero_le _))

theorem answer_postsAtMost (st : Status) (b : ReplyBody) (s : State) :
    PostsAtMost 0 s (answer st b s) := fun h => by
  refine ⟨linkAnswer_appends st b h, ?_⟩
  change (s.link.answer st b).notices.length ≤ _
  unfold Link.answer
  split
  · rw [startTransmit_of_sends (by exact h.busy)]
    exact le_refl _
  · exact le_refl _

/-- A fold of operations that post at most `n` notices each. -/
theorem PostsAtMost.foldl {α : Type} {n : Nat} (f : State → α → State)
    (hf : ∀ s a, PostsAtMost n s (f s a)) (xs : List α) :
    ∀ s : State, PostsAtMost (xs.length * n) s (xs.foldl f s) := by
  induction xs with
  | nil => exact fun s => (PostsAtMost.of_link rfl).mono (Nat.zero_le _)
  | cons x xs ih =>
    intro s
    refine ((hf s x).trans (ih (f s x))).mono ?_
    rw [List.length_cons, Nat.succ_mul, Nat.add_comm]

theorem PostsAtMost.foldl_silent {α : Type} (f : State → α → State)
    (hf : ∀ s a, PostsAtMost 0 s (f s a)) (xs : List α) (s : State) : PostsAtMost 0 s (xs.foldl f s) :=
  PostsAtMost.foldl f hf xs s

/-! ### A refreshed rotation check -/

/-- R38, with its notice: the check of a site after it has been refreshed. -/
theorem refreshRotation_told {u : State} {site : Nat} (h : site < u.rotation.length)
    (changed : (rotationOf (refreshRotation u site) site).state ≠ (rotationOf u site).state)
    (sends : Sends u.link) (hm : u.link.mask.getLsbD 4 = true) (room : u.link.notices.length < 32) :
    ⟨.rotation site (rotationOf (refreshRotation u site) site).state (rotationOf u site).state,
      u.clock.time⟩ ∈ (refreshRotation u site).link.notices := by
  by_cases same : rotationRuns u site = (rotationOf u site).running
  · exact absurd (by rw [refreshRotation, if_pos same]) changed
  · have now : rotationOf (refreshRotation u site) site = { running := rotationRuns u site } := by
      rw [refreshRotation_rotationOf site site u h, if_pos ⟨rfl, same⟩]
    rw [now] at changed ⊢
    have moved : refreshRotation u site = post (.rotation site .unknown (rotationOf u site).state)
        (setRotation site { running := rotationRuns u site } u) := by
      rw [refreshRotation, if_neg same, moveRotation]
      exact if_pos (bne_iff_ne.2 changed)
    rw [moved, post_mem (by exact sends) (by exact hm) (by exact room)]
    exact List.mem_append_right _ (List.mem_singleton.2 rfl)

theorem moveRotation_postsAtMost (site : Nat) (r : Rotation) (s : State) :
    PostsAtMost 1 s (moveRotation site r s) :=
  (PostsAtMost.of_link (s := s) (t := setRotation site r s) rfl).trans (postWhen_postsAtMost _ _ _)

theorem refreshRotation_postsAtMost (s : State) (site : Nat) : PostsAtMost 1 s (refreshRotation s site) :=
  .ite ((PostsAtMost.of_link rfl).mono (Nat.zero_le _)) (moveRotation_postsAtMost _ _ _)

theorem rotationRuns_some {t : State} {site : Nat} {a b c : Member}
    (check : (siteOf t site).settings.rotCheck = true) (ha : memberOf t site 0 = some a)
    (hb : memberOf t site 1 = some b) (hc : memberOf t site 2 = some c) (aa : a.active = true)
    (ab : b.active = true) (ac : c.active = true) :
    rotationRuns t site = some (a.slot, b.slot, c.slot) := by
  simp [rotationRuns, ha, hb, hc, check, aa, ab, ac]

theorem rotationRuns_none {t : State} {site : Nat} (h : (siteOf t site).settings.rotCheck = false ∨
    ∃ role, role < 3 ∧ ∀ m, memberOf t site role = some m → m.active = false) :
    rotationRuns t site = none := by
  unfold rotationRuns
  split
  · next a b c ha hb hc =>
    refine if_neg fun k => ?_
    simp only [Bool.and_eq_true] at k
    obtain ⟨⟨⟨check, aa⟩, ab⟩, ac⟩ := k
    rcases h with h | ⟨role, hr, inactive⟩
    · rw [h] at check; cases check
    · have : role = 0 ∨ role = 1 ∨ role = 2 := by omega
      rcases this with rfl | rfl | rfl
      · rw [inactive a ha] at aa; cases aa
      · rw [inactive b hb] at ab; cases ab
      · rw [inactive c hc] at ac; cases ac
  · rfl

/-- A site's check follows R38 where it goes on when the condition names the slots it ran on, and starts from
UNKNOWN elsewhere, with its notice. -/
theorem rotationFollows_of {site : Nat} {s t : State}
    (h : rotationOf t site = if rotationRuns t site = (rotationOf s site).running then rotationOf s site
      else { running := rotationRuns t site })
    (told : (rotationOf t site).state ≠ (rotationOf s site).state → Sends s.link →
      s.link.mask.getLsbD 4 = true → s.link.notices.length ≤ 30 →
      ⟨.rotation site (rotationOf t site).state (rotationOf s site).state, s.clock.time⟩ ∈
        t.link.notices) : RotationFollows site s t := by
  refine ⟨fun a b c check ha hb hc aa ab ac => ?_, fun stops => ?_, fun changed sending owed =>
    told changed ⟨sending, owed⟩⟩
  · rw [h, rotationRuns_some check ha hb hc aa ab ac]
    exact if_congr eq_comm rfl rfl
  · rw [h, rotationRuns_none stops]
    exact if_congr eq_comm rfl rfl

/-- A site that no change touches follows R38, where its check ran on its members. -/
theorem rotationFollows_same {site : Nat} {s t : State} (sound : (rotationOf s site).running = rotationRuns s site)
    (hr : rotationOf t site = rotationOf s site) (hs : siteOf t site = siteOf s site) :
    RotationFollows site s t :=
  rotationFollows_of (by rw [rotationRuns_of_sites site hs, if_pos sound.symm, hr])
    fun changed => absurd (by rw [hr]) changed

/-- R38 for a site that is refreshed once, with at most one notice of another site posted before. -/
theorem rotationFollows_refresh {site : Nat} {s u t : State} {P : Part → Prop}
    (hlen : site < u.rotation.length) (hr : rotationOf u site = rotationOf s site)
    (before : PostsAtMost 1 s u) (clock : u.clock = s.clock)
    (after : Moves P (refreshRotation u site) t)
    (kept : rotationOf t site = rotationOf (refreshRotation u site) site)
    (sites : siteOf t site = siteOf u site) : RotationFollows site s t := by
  have runs : rotationRuns t site = rotationRuns u site := rotationRuns_of_sites site sites
  refine rotationFollows_of ?_ fun changed sends hm room => ?_
  · rw [kept, runs, refreshRotation_rotationOf site site u hlen, hr]
    by_cases same : rotationRuns u site = (rotationOf s site).running
    · rw [if_pos same, if_neg fun k => k.2 same]
    · rw [if_neg same, if_pos ⟨rfl, same⟩]
  · obtain ⟨appended, few⟩ := before sends
    have sendsThen := appended.sends sends
    have told := refreshRotation_told hlen (by rw [← kept, hr]; exact changed) sendsThen
      (by rw [appended.mask]; exact hm) (by omega)
    rw [hr, clock, ← kept] at told
    have refreshed := refreshRotation_moves (P := anyPart) u site trivial
    exact (after.appends ((refreshed.appends sendsThen).sends sendsThen)).notices.subset told

theorem refreshRotation_other {site k : Nat} (s : State) (h : k ≠ site) :
    rotationOf (refreshRotation s site) k = rotationOf s k := by
  unfold refreshRotation
  dsimp only
  split
  · rfl
  · unfold moveRotation rotationOf
    have e : (postWhen ((({ running := rotationRuns s site } : Rotation)).state != (rotationOf s site).state)
        (.rotation site (({ running := rotationRuns s site } : Rotation)).state (rotationOf s site).state)
        (setRotation site { running := rotationRuns s site } s)).rotation =
        updateAt (fun _ => { running := rotationRuns s site }) site s.rotation := by
      simp only [postWhen]
      split <;> rfl
    exact (congrArg (List.getD · k {}) e).trans (updateAt_getD_other _ _ _ _ _ h)

theorem refreshRotation_waiting (kind : Nat) (tag : Byte) (site : Nat) (s : State) (h : s.link.owed = none) :
    refreshRotation (waiting kind tag s) site = waiting kind tag (refreshRotation s site) := by
  unfold refreshRotation
  dsimp only
  by_cases same : rotationRuns s site = (rotationOf s site).running
  · rw [if_pos same]
    exact if_pos same
  · rw [if_neg same]
    refine (if_neg same).trans ?_
    exact postWhen_waiting kind tag _ _ (setRotation site _ s) h

end Sys2Proof.Machine
end

