-- ==== Sys2Proof/Proofs/SiteSettings.lean ====
section
/-!
PROOFS. SITE_SET and SITE_GET (R42, R43, R47): O36.
-/

namespace Sys2Proof.Machine

/-! ### Clamped settings -/

theorem carriedNat_eq (o : Option Nat) (stored lo hi : Nat) :
    clampedNat lo hi o = false ↔ carriedNat stored lo hi o = o.getD stored := by
  cases o <;> simp [clampedNat, carriedNat]

/-- The settings as they were asked for. -/
def askedSettings (c : CarriedSettings) (x : Settings) : Settings :=
  { enabled := c.enabled.getD x.enabled, name := c.name.getD x.name
    udin := (half? c.udin).getD x.udin, st := (half? c.st).getD x.st, h := (byte? c.h).getD x.h
    ti := (half? c.ti).getD x.ti, nc := (byte? c.nc).getD x.nc, pc := (byte? c.pc).getD x.pc
    wc := (byte? c.wc).getD x.wc, pe := (byte? c.pe).getD x.pe, we := (byte? c.we).getD x.we
    hmax := (byte? c.hmax).getD x.hmax, interval := (byte? c.interval).getD x.interval
    rotCheck := c.rotCheck.getD x.rotCheck }

/-- The settings that SITE_SET stores. -/
def storedSettings (c : CarriedSettings) (x : Settings) : Settings := limitSettings (carrySettings c x)

theorem takenName_eq (name : Option (List Byte)) (stored : List Byte) :
    (match name with
      | some cs => decide (16 < cs.length)
      | none => false) = false ↔ (name.map (·.take 16)).getD stored = name.getD stored := by
  cases name <;> simp

/-- A window length that has been limited after it was clamped is the one asked for exactly where neither
step moves it. -/
theorem limited_eq_asked {o : Option Nat} {stored limit : Nat} (h : 8 ≤ limit) :
    Nat.min (carriedNat stored 1 14 o) limit = o.getD stored ↔
      carriedNat stored 1 14 o = o.getD stored ∧ Nat.min (carriedNat stored 1 14 o) limit =
        carriedNat stored 1 14 o := by
  refine ⟨fun e => ?_, fun ⟨asked, same⟩ => same.trans asked⟩
  have kept : carriedNat stored 1 14 o = o.getD stored := by
    cases o with
    | none => rfl
    | some v =>
      have e' : min (clampNat v 1 14) limit = v := e
      change clampNat v 1 14 = v
      unfold clampNat at e' ⊢
      split
      · next low => rw [if_pos low] at e'; omega
      · next low =>
        rw [if_neg low] at e'
        split
        · next high => rw [if_pos high] at e'; omega
        · rfl
  exact ⟨kept, e.trans kept.symm⟩

/-- Step 1 of R43 has changed no carried value. -/
theorem carryClamped_eq_false (c : CarriedSettings) (x : Settings) :
    carryClamped c = false ↔ carrySettings c x = askedSettings c x := by
  simp only [carryClamped, Bool.or_eq_false_iff, carrySettings, askedSettings, Settings.mk.injEq, true_and,
    and_true, carriedNat_eq (half? c.udin) x.udin,
    carriedNat_eq (half? c.st) x.st, carriedNat_eq (byte? c.h) x.h, carriedNat_eq (byte? c.nc) x.nc,
    carriedNat_eq (byte? c.pc) x.pc, carriedNat_eq (byte? c.wc) x.wc, carriedNat_eq (byte? c.pe) x.pe,
    carriedNat_eq (byte? c.we) x.we, carriedNat_eq (byte? c.hmax) x.hmax,
    carriedNat_eq (byte? c.interval) x.interval, and_assoc]
  exact and_congr (takenName_eq c.name x.name) Iff.rfl

theorem carriedNat_le {o : Option Nat} {stored hi : Nat} (h : stored ≤ hi) (h1 : 1 ≤ hi) :
    carriedNat stored 1 hi o ≤ hi := by
  cases o with
  | none => exact h
  | some v =>
    simp only [carriedNat, clampNat]
    split
    · exact h1
    · split <;> omega

/-- What is stored is what was asked for exactly where no step of R43 moves a value. -/
theorem storedSettings_eq_asked {c : CarriedSettings} {x : Settings} (hpc : x.pc ≤ 8) (hpe : x.pe ≤ 8) :
    storedSettings c x = askedSettings c x ↔
      carrySettings c x = askedSettings c x ∧ storedSettings c x = carrySettings c x := by
  refine ⟨fun same => ?_, fun ⟨asked, stored⟩ => stored.trans asked⟩
  have pc : (carrySettings c x).pc ≤ 8 := carriedNat_le hpc (by decide)
  have pe : (carrySettings c x).pe ≤ 8 := carriedNat_le hpe (by decide)
  obtain ⟨wc, _⟩ := (limited_eq_asked (by omega)).1 (congrArg Settings.wc same)
  obtain ⟨we, _⟩ := (limited_eq_asked (by omega)).1 (congrArg Settings.we same)
  have carried : carrySettings c x = askedSettings c x := by
    simp only [storedSettings, limitSettings, askedSettings, Settings.mk.injEq] at same
    obtain ⟨_, name, udin, st, h, _, nc, pc, _, pe, _, hmax, interval, _⟩ := same
    simp only [carrySettings, askedSettings, Settings.mk.injEq]
    exact ⟨trivial, name, udin, st, h, trivial, nc, pc, wc, pe, we, hmax, interval, trivial⟩
  exact ⟨carried, same.trans carried.symm⟩

/-- R43: OK is the answer exactly where what is stored is what was asked for. -/
theorem siteSet_status (c : CarriedSettings) {x : Settings} (hpc : x.pc ≤ 8) (hpe : x.pe ≤ 8) :
    (if carryClamped c || storedSettings c x != carrySettings c x then Status.okClamped else .ok) =
      if storedSettings c x = askedSettings c x then .ok else .okClamped := by
  by_cases same : storedSettings c x = askedSettings c x
  · obtain ⟨carried, stored⟩ := (storedSettings_eq_asked hpc hpe).1 same
    have kept : (carryClamped c || storedSettings c x != carrySettings c x) = false := by
      rw [(carryClamped_eq_false c x).2 carried, stored, bne_self_eq_false, Bool.or_self]
    rw [if_pos same, kept]
    rfl
  · have moved : (carryClamped c || storedSettings c x != carrySettings c x) = true := by
      rw [← Bool.not_eq_false, Bool.or_eq_false_iff, bne_eq_false_iff_eq]
      rintro ⟨carried, stored⟩
      exact same ((storedSettings_eq_asked hpc hpe).2 ⟨(carryClamped_eq_false c x).1 carried, stored⟩)
    rw [if_neg same, if_pos moved]

/-! ### O36 -/

theorem siteSet_up (site : Byte) (c : CarriedSettings) (u : State) (up : u.store.state ≠ .mounting) :
    siteSet site c u =
      if u.survey.state = some .recording ∨ u.survey.state = some .ended then refuse .wrongState u
      else if 3 < site.toNat then refuse .badValue u
      else if !(c.name.getD []).all printable then refuse .badValue u
      else
        let x := (siteOf u site.toNat).settings
        let t := refreshRotation
          (modifySite (fun e => { e with settings := storedSettings c x }) site.toNat u) site.toNat
        answer (if carryClamped c || storedSettings c x != carrySettings c x then .okClamped else .ok)
          (.site (siteOf t site.toNat)) t :=
  unlessMounting_of_not_mounting _ u up

theorem siteGet_up (site : Byte) (u : State) (up : u.store.state ≠ .mounting) : siteGet site u =
    if 3 < site.toNat then refuse .badValue u else answer .ok (.site (siteOf u site.toNat)) u :=
  unlessMounting_of_not_mounting _ u up

theorem printable_iff (b : Byte) : printable b = true ↔ 0x20 ≤ b.toNat ∧ b.toNat ≤ 0x7E := by
  simp [printable]

/-- A carried name is printable exactly where each of its bytes is. -/
theorem name_printable (name : Option (List Byte)) : (name.getD []).all printable = true ↔
    ∀ text, name = some text → ∀ b ∈ text, 0x20 ≤ b.toNat ∧ b.toNat ≤ 0x7E := by
  cases name <;> simp [printable_iff]

/-- The clamp of a setting, as the statement says it. -/
theorem carriedNat_match (o : Option Nat) (stored low high : Nat) :
    carriedNat stored low high o = match o with
      | some v => clampNat v low high
      | none => stored := by
  cases o <;> rfl

/-- Settles O36. -/
theorem siteSetClampsAndEchoes : Obligations.SiteSetClampsAndEchoes := by
  unfold Obligations.SiteSetClampsAndEchoes
  intro tag site c s h shaped up n e x refused keep half byte open_
  have ⟨_, hc, _, howed⟩ := h
  have refuses : ∀ status : Status, (∀ u : State, u = waiting 0x09 tag s →
      siteSet site c u = refuse status u) → refused status :=
    fun status => request_refused tag (.siteSet site c) status s h
  have calm : open_ → ¬(s.survey.state = some .recording ∨ s.survey.state = some .ended) := by
    rintro (k | k) (k' | k') <;> exact nomatch k.symm.trans k'
  refine ⟨?wrong, ?badSite, ?badName, ?sets, ?get⟩
  case wrong =>
    intro runs
    refine refuses .wrongState fun u hu => ?_
    subst hu
    exact (siteSet_up site c (waiting 0x09 tag s) up).trans (if_pos runs)
  case badSite =>
    intro opens big
    refine refuses .badValue fun u hu => ?_
    subst hu
    exact (siteSet_up site c (waiting 0x09 tag s) up).trans ((if_neg (calm opens)).trans (if_pos big))
  case badName =>
    rintro opens small ⟨text, ht, b, hb, bad⟩
    refine refuses .badValue fun u hu => ?_
    subst hu
    refine (siteSet_up site c (waiting 0x09 tag s) up).trans
      ((if_neg (calm opens)).trans ((if_neg (Nat.not_lt.2 small)).trans (if_pos ?_)))
    rw [Bool.not_eq_true', ← Bool.not_eq_true, name_printable]
    intro good
    have := good text ht b hb
    omega
  case sets =>
    intro opens small hpc hpe good st pc pe asked stored
    let u := modifySite (fun e => { e with settings := stored }) n s
    let t := refreshRotation u n
    have moves : Moves (only [.rotation]) u t := refreshRotation_moves u n (by decide)
    have hn : n < 4 := by omega
    have now : siteOf u n = ⟨stored, e.members⟩ :=
      siteOf_modifySite _ n s (by rw [shaped.sites_length]; exact hn)
    have site' : siteOf t n = ⟨stored, e.members⟩ := by
      rw [siteOf_eq_of_sites (moves.sites_eq (by decide)), now]
    refine ⟨t, ?_, moves.sites_eq (by decide), site', ?_, ?_, moves.survey_eq (by decide),
      moves.sag_eq (by decide), moves.capture_eq (by decide), moves.harm_eq (by decide),
      moves.store_eq (by decide), moves.roster_eq (by decide), moves.tracker_eq (by decide),
      moves.print_eq (by decide)⟩
    · refine request_answered tag (.siteSet site c) _ _ s t h (moves.link_kept.idle hc) ?_
      have named : ¬(!(c.name.getD []).all printable) = true := by
        rw [(name_printable c.name).2 good]
        decide
      refine (siteSet_up site c (waiting 0x09 tag s) up).trans
        ((if_neg (calm opens)).trans ((if_neg (Nat.not_lt.2 small)).trans ((if_neg named).trans ?_)))
      have refreshed := refreshRotation_waiting 0x09 tag n u howed
      refine Eq.trans ?_ (congrArg₂ (fun status body => answer status body (waiting 0x09 tag t))
        (siteSet_status c hpc hpe) (congrArg ReplyBody.site site'))
      exact congrArg (fun v => answer
        (if carryClamped c || storedSettings c x != carrySettings c x then .okClamped else .ok)
        (.site (siteOf v n)) v) refreshed
    · have hlen : n < u.rotation.length := by
        change n < s.rotation.length
        rw [shaped.rotation_length]
        exact hn
      exact rotationFollows_refresh (P := anyPart) hlen rfl ((PostsAtMost.of_link rfl).mono (Nat.zero_le _)) rfl
        (.refl t) rfl (by rw [site', now])
    · intro k hk
      exact refreshRotation_other u hk
  case get =>
    split
    · next big =>
      refine request_refused tag (.siteGet site) .badValue s h fun u hu => ?_
      subst hu
      exact (siteGet_up site (waiting 0x0A tag s) up).trans (if_pos big)
    · next small =>
      refine request_answered tag (.siteGet site) .ok (.site e) s s h hc ?_
      exact (siteGet_up site (waiting 0x0A tag s) up).trans (if_neg small)

end Sys2Proof.Machine
end

