-- ==== Sys2Proof/Proofs/Positions.lean ====
section
/-!
PROOFS. Member positions (R44 to R46): what a change of one position makes of the members, the sag channels,
the harmonic members and the rotation checks, and ASSIGN (O37).
-/

namespace Sys2Proof.Machine

/-! ### One position -/

theorem Shaped.members_length {s : State} (h : Shaped s) {site : Nat} (hs : site < 4) :
    (siteOf s site).members.length = 8 := by
  obtain ⟨_, _, _, ⟨hl, hm⟩, _⟩ := h
  have hi : site < s.sites.length := by omega
  rw [siteOf, List.getD_eq_getElem _ _ hi]
  exact hm _ (List.getElem_mem hi)

theorem Shaped.sag_length {s : State} (h : Shaped s) : s.sag.sites.length = 4 := by
  obtain ⟨_, _, _, _, ⟨hl, _⟩, _⟩ := h
  exact hl

theorem Shaped.channels_length {s : State} (h : Shaped s) {site : Nat} (hs : site < 4) :
    (sagSite s site).channels.length = 3 := by
  obtain ⟨_, _, _, _, ⟨hl, hm⟩, _⟩ := h
  have hi : site < s.sag.sites.length := by omega
  rw [sagSite, List.getD_eq_getElem _ _ hi]
  exact hm _ (List.getElem_mem hi)

theorem Shaped.harm_length {s : State} (h : Shaped s) : s.harm.sites.length = 4 := by
  obtain ⟨_, _, _, _, _, _, hl, _⟩ := h
  exact hl

theorem Shaped.harmMembers_length {s : State} (h : Shaped s) {site : Nat} (hs : site < 4) :
    (harmSite s site).members.length = 8 := by
  obtain ⟨_, _, _, _, _, _, hl, hm⟩ := h
  have hi : site < s.harm.sites.length := by omega
  rw [harmSite, List.getD_eq_getElem _ _ hi]
  exact hm _ (List.getElem_mem hi)

theorem memberOf_modifyMember {s : State} (f : Option Member → Option Member) {site role : Nat}
    (h : Shaped s) (hs : site < 4) (hr : role < 8) :
    memberOf (modifyMember f site role s) site role = f (memberOf s site role) := by
  rw [memberOf, modifyMember, siteOf_modifySite _ _ _ (by rw [h.sites_length]; exact hs)]
  exact updateAt_getD_same _ _ _ _ (by rw [h.members_length hs]; exact hr)

theorem memberOf_modifyMember_other {s : State} (f : Option Member → Option Member) {site role i j : Nat}
    (h : Shaped s) (hs : site < 4) (k : i ≠ site ∨ j ≠ role) :
    memberOf (modifyMember f site role s) i j = memberOf s i j := by
  by_cases same : i = site
  · subst same
    rw [memberOf, modifyMember, siteOf_modifySite _ _ _ (by rw [h.sites_length]; exact hs)]
    exact updateAt_getD_other _ _ _ _ _ (k.resolve_left (not_not.2 rfl))
  · rw [memberOf, modifyMember, siteOf_modifySite_other _ _ _ _ same]
    rfl

theorem channelOf_modifyChannel {s : State} (f : Channel → Channel) {site role : Nat} (h : Shaped s)
    (hs : site < 4) (hr : role < 3) :
    channelOf (modifyChannel f site role s) site role = f (channelOf s site role) := by
  rw [channelOf, modifyChannel, sagSite_modifySag _ _ _ (by rw [h.sag_length]; exact hs)]
  exact updateAt_getD_same _ _ _ _ (by rw [h.channels_length hs]; exact hr)

theorem channelOf_modifyChannel_other {s : State} (f : Channel → Channel) {site role i j : Nat}
    (h : Shaped s) (hs : site < 4) (k : i ≠ site ∨ j ≠ role) :
    channelOf (modifyChannel f site role s) i j = channelOf s i j := by
  by_cases same : i = site
  · subst same
    rw [channelOf, modifyChannel, sagSite_modifySag _ _ _ (by rw [h.sag_length]; exact hs)]
    exact updateAt_getD_other _ _ _ _ _ (k.resolve_left (not_not.2 rfl))
  · rw [channelOf, modifyChannel, sagSite_modifySag_other _ _ _ _ same]
    rfl

theorem harmMember_modifyHarmMember {s : State} (f : HarmMember → HarmMember) {site role : Nat}
    (h : Shaped s) (hs : site < 4) (hr : role < 8) :
    harmMember (modifyHarmMember f site role s) site role = f (harmMember s site role) := by
  rw [harmMember, modifyHarmMember, harmSite_modifyHarm _ _ _ (by rw [h.harm_length]; exact hs)]
  exact updateAt_getD_same _ _ _ _ (by rw [h.harmMembers_length hs]; exact hr)

theorem harmMember_modifyHarmMember_other (s : State) (f : HarmMember → HarmMember) {site role i j : Nat}
    (k : i ≠ site ∨ j ≠ role) :
    harmMember (modifyHarmMember f site role s) i j = harmMember s i j :=
  harmMember_modify_other f site role i j s fun e => by
    obtain ⟨rfl, rfl⟩ := Prod.mk.inj e
    exact k.elim (· rfl) (· rfl)

/-! ### Parts that two states share -/

theorem memberOf_of_sites {s t : State} (h : t.sites = s.sites) (i j : Nat) :
    memberOf t i j = memberOf s i j := by
  rw [memberOf, siteOf_eq_of_sites h]
  rfl

theorem channelOf_of_sag {s t : State} (h : t.sag = s.sag) (i j : Nat) : channelOf t i j = channelOf s i j := by
  simp only [channelOf, sagSite, h]

theorem harmMember_of_harm {s t : State} (h : t.harm = s.harm) (i j : Nat) :
    harmMember t i j = harmMember s i j := by
  simp only [harmMember, harmSite, h]

theorem rotationOf_of_rotation {s t : State} (h : t.rotation = s.rotation) (k : Nat) :
    rotationOf t k = rotationOf s k := by
  simp only [rotationOf, h]

theorem PositionKept.refl (i j : Nat) (s : State) : PositionKept i j s s := ⟨fun _ => rfl, rfl⟩

theorem PositionKept.trans {i j : Nat} {s t u : State} (h : PositionKept i j s t)
    (k : PositionKept i j t u) : PositionKept i j s u :=
  ⟨fun hj => (k.1 hj).trans (h.1 hj), k.2.trans h.2⟩

theorem PositionKept.of_same {i j : Nat} {s t : State} (hs : t.sag = s.sag) (hh : t.harm = s.harm) :
    PositionKept i j s t :=
  ⟨fun _ => channelOf_of_sag hs i j, harmMember_of_harm hh i j⟩

theorem PositionKept.emptied {i j : Nat} {s t u : State} (h : PositionKept i j s t)
    (k : PositionEmptied i j t u) : PositionEmptied i j s u := by
  obtain ⟨channel, harm⟩ := k
  rw [h.2] at harm
  exact ⟨fun hj => by rw [channel hj, h.1 hj], harm⟩

theorem PositionEmptied.kept {i j : Nat} {s t u : State} (h : PositionEmptied i j s t)
    (k : PositionKept i j t u) : PositionEmptied i j s u :=
  ⟨fun hj => (k.1 hj).trans (h.1 hj), k.2.trans h.2⟩

/-! ### A position that is cleared or takes another slot -/

/-- A position with its member changed and what it has collected thrown away, before its site's check is
looked at. -/
def positionChanged (m : Option Member) (site role : Nat) (s : State) : State :=
  modifyHarmMember (fun x => { x with window := none, acc := none, lossDue := false, latest := none }) site role
    (if role < 3 then modifyChannel (fun c => { c with window := [] }) site role
      (modifyMember (fun _ => m) site role s) else modifyMember (fun _ => m) site role s)

theorem changePosition_eq (m : Option Member) (site role : Nat) (s : State) :
    changePosition m site role s = refreshRotation (positionChanged m site role s) site := rfl

theorem positionChanged_moves (m : Option Member) (site role : Nat) (s : State) :
    Moves (only [.sites, .sag, .harm]) s (positionChanged m site role s) :=
  .trans (modifyMember_moves _ _ _ _ (by decide)) (.trans (.ite (modifyChannel_moves _ _ _ _ (by decide)) (.refl _))
    (modifyHarmMember_moves _ _ _ _ (by decide)))

theorem positionChanged_sites (m : Option Member) (site role : Nat) (s : State) :
    (positionChanged m site role s).sites = (modifyMember (fun _ => m) site role s).sites := by
  unfold positionChanged
  split <;> rfl

theorem positionChanged_emptied {s : State} (m : Option Member) {site role : Nat} (h : Shaped s)
    (hs : site < 4) (hr : role < 8) : PositionEmptied site role s (positionChanged m site role s) := by
  have shaped := (modifyMember_moves (P := anyPart) (fun _ => m) site role s trivial).shaped h
  unfold positionChanged
  refine ⟨fun voltage => ?_, ?_⟩
  · rw [if_pos voltage]
    exact channelOf_modifyChannel _ shaped hs voltage
  · split
    · next voltage =>
      exact harmMember_modifyHarmMember _ ((modifyChannel_moves (P := anyPart) _ _ _ _ trivial).shaped shaped) hs hr
    · exact harmMember_modifyHarmMember _ shaped hs hr

theorem positionChanged_kept {s : State} (m : Option Member) {site role i j : Nat} (h : Shaped s)
    (hs : site < 4) (k : i ≠ site ∨ j ≠ role) : PositionKept i j s (positionChanged m site role s) := by
  have shaped := (modifyMember_moves (P := anyPart) (fun _ => m) site role s trivial).shaped h
  unfold positionChanged
  refine ⟨fun _ => ?_, ?_⟩
  · split
    · exact channelOf_modifyChannel_other _ shaped hs k
    · rfl
  · rw [harmMember_modifyHarmMember_other _ _ k]
    split <;> rfl

/-- What a change of one position leaves: the position has its member and has lost what it collected, every
other keeps its own, and the check of the site alone is refreshed. -/
structure PositionSet (m : Option Member) (site role : Nat) (s t : State) : Prop where
  moves : Moves (only [.sites, .sag, .harm, .rotation]) s t
  sites : t.sites = (modifyMember (fun _ => m) site role s).sites
  others : ∀ i j, i ≠ site ∨ j ≠ role → PositionKept i j s t
  rotation : ∀ k, k ≠ site → rotationOf t k = rotationOf s k
  check : rotationOf t site = if rotationRuns t site = (rotationOf s site).running then rotationOf s site
    else { running := rotationRuns t site }
  posts : PostsAtMost 1 s t
  told : (rotationOf t site).state ≠ (rotationOf s site).state → Sends s.link →
    s.link.mask.getLsbD 4 = true → s.link.notices.length < 32 →
    ⟨.rotation site (rotationOf t site).state (rotationOf s site).state, s.clock.time⟩ ∈ t.link.notices

theorem changePosition_set {s : State} (m : Option Member) {site role : Nat} (h : Shaped s) (hs : site < 4) :
    PositionSet m site role s (changePosition m site role s) := by
  have changed := positionChanged_moves m site role s
  have refreshed := refreshRotation_moves (P := only [.rotation]) (positionChanged m site role s) site (by decide)
  have hlen : site < (positionChanged m site role s).rotation.length := by
    rw [changed.rotation_eq (by decide), h.rotation_length]
    exact hs
  have before : rotationOf (positionChanged m site role s) site = rotationOf s site :=
    rotationOf_of_rotation (changed.rotation_eq (by decide)) site
  have silent : PostsAtMost 0 s (positionChanged m site role s) := .of_link (by
    unfold positionChanged
    split <;> rfl)
  rw [changePosition_eq]
  refine ⟨changePosition_moves (P := only [.sites, .sag, .harm, .rotation]) _ _ _ _ (by decide) (by decide)
    (by decide) (by decide), (refreshed.sites_eq (by decide)).trans (positionChanged_sites m site role s),
    fun i j k => (positionChanged_kept m h hs k).trans
      (.of_same (refreshed.sag_eq (by decide)) (refreshed.harm_eq (by decide))),
    fun k hk => (refreshRotation_other _ hk).trans (rotationOf_of_rotation (changed.rotation_eq (by decide)) k),
    ?_, silent.trans (refreshRotation_postsAtMost _ _), fun differs sends hm room => ?told⟩
  case told =>
    obtain ⟨appended, few⟩ := silent sends
    have told := refreshRotation_told hlen (by rw [before]; exact differs) (appended.sends sends)
      (by rw [appended.mask]; exact hm) (by omega)
    rwa [before, changed.clock_eq (by decide)] at told
  rw [refreshRotation_rotationOf site site _ hlen, before,
    rotationRuns_of_sites site (siteOf_eq_of_sites (refreshed.sites_eq (by decide)) _)]
  by_cases same : rotationRuns (positionChanged m site role s) site = (rotationOf s site).running
  · rw [if_pos same, if_neg fun k => k.2 same]
  · rw [if_neg same, if_pos ⟨rfl, same⟩]

theorem changePosition_emptied {s : State} (m : Option Member) {site role : Nat} (h : Shaped s)
    (hs : site < 4) (hr : role < 8) : PositionEmptied site role s (changePosition m site role s) := by
  have refreshed := refreshRotation_moves (P := only [.rotation]) (positionChanged m site role s) site (by decide)
  exact (positionChanged_emptied m h hs hr).kept
    (.of_same (refreshed.sag_eq (by decide)) (refreshed.harm_eq (by decide)))

/-- A position whose member alone is set, with its site's check refreshed. -/
theorem refreshMember_set {s : State} (m : Option Member) {site role : Nat} (h : Shaped s) (hs : site < 4) :
    PositionSet m site role s (refreshRotation (modifyMember (fun _ => m) site role s) site) ∧
      PositionKept site role s (refreshRotation (modifyMember (fun _ => m) site role s) site) := by
  have refreshed := refreshRotation_moves (P := only [.rotation]) (modifyMember (fun _ => m) site role s) site
    (by decide)
  have hlen : site < (modifyMember (fun _ => m) site role s).rotation.length := by
    rw [modifyMember_rotation, h.rotation_length]
    exact hs
  have kept : ∀ i j, PositionKept i j s (refreshRotation (modifyMember (fun _ => m) site role s) site) :=
    fun i j => .of_same (refreshed.sag_eq (by decide)) (refreshed.harm_eq (by decide))
  have silent : PostsAtMost 0 s (modifyMember (fun _ => m) site role s) := .of_link rfl
  refine ⟨⟨.trans (modifyMember_moves _ _ _ _ (by decide)) (refreshRotation_moves _ _ (by decide)),
    refreshed.sites_eq (by decide), fun i j _ => kept i j, fun k hk => refreshRotation_other _ hk, ?_,
    silent.trans (refreshRotation_postsAtMost _ _),
    fun differs sends hm room => refreshRotation_told hlen differs sends hm room⟩, kept site role⟩
  rw [refreshRotation_rotationOf site site _ hlen,
    rotationRuns_of_sites site (siteOf_eq_of_sites (refreshed.sites_eq (by decide)) _)]
  by_cases same : rotationRuns (modifyMember (fun _ => m) site role s) site = (rotationOf s site).running
  · rw [if_pos same]
    exact if_neg fun k => k.2 same
  · rw [if_neg same]
    exact if_pos ⟨rfl, same⟩

namespace PositionSet

variable {m : Option Member} {site role : Nat} {s t : State}

theorem member (p : PositionSet m site role s t) (h : Shaped s) (hs : site < 4) (hr : role < 8) :
    memberOf t site role = m :=
  (memberOf_of_sites p.sites _ _).trans (memberOf_modifyMember _ h hs hr)

theorem member_other (p : PositionSet m site role s t) (h : Shaped s) (hs : site < 4) {i j : Nat}
    (k : i ≠ site ∨ j ≠ role) : memberOf t i j = memberOf s i j :=
  (memberOf_of_sites p.sites _ _).trans (memberOf_modifyMember_other _ h hs k)

theorem site_other (p : PositionSet m site role s t) {k : Nat} (hk : k ≠ site) : siteOf t k = siteOf s k :=
  (siteOf_eq_of_sites p.sites k).trans (siteOf_modifySite_other _ _ _ _ hk)

theorem settings (p : PositionSet m site role s t) (h : Shaped s) (hs : site < 4) :
    (siteOf t site).settings = (siteOf s site).settings := by
  rw [siteOf_eq_of_sites p.sites, modifyMember, siteOf_modifySite _ _ _ (by rw [h.sites_length]; exact hs)]

theorem shaped (p : PositionSet m site role s t) (h : Shaped s) : Shaped t := p.moves.shaped h

/-- R38 for the site of the position, from a state that had the same check and to which at most one notice has
been posted since. -/
theorem follows {r : State} (p : PositionSet m site role s t) (same : rotationOf s site = rotationOf r site)
    (before : PostsAtMost 1 r s) (clock : s.clock = r.clock) : RotationFollows site r t := by
  refine rotationFollows_of (by rw [← same]; exact p.check) fun changed sends hm room => ?_
  obtain ⟨appended, few⟩ := before sends
  have told := p.told (by rw [same]; exact changed) (appended.sends sends) (by rw [appended.mask]; exact hm)
    (by omega)
  rwa [same, clock] at told

end PositionSet

/-- A site whose check and members stay as they are from `t` on. -/
theorem RotationFollows.after {P : Part → Prop} {site : Nat} {s t u : State} (h : RotationFollows site s t)
    (m : Moves P s t) (k : Moves P t u) (hr : rotationOf u site = rotationOf t site)
    (hs : siteOf u site = siteOf t site) : RotationFollows site s u := by
  obtain ⟨runs, stops, told⟩ := h
  have member : ∀ role, memberOf u site role = memberOf t site role := fun role => by
    rw [memberOf, hs]
    rfl
  simp only [RotationFollows, hr, hs, member]
  refine ⟨runs, stops, fun changed sending owed mask room => ?_⟩
  have sends := (m.appends ⟨sending, owed⟩).sends ⟨sending, owed⟩
  exact (k.appends sends).notices.subset (told changed sending owed mask room)

/-! ### ASSIGN -/

theorem changePosition_waiting (kind : Nat) (tag : Byte) (m : Option Member) (site role : Nat) (s : State)
    (h : s.link.owed = none) :
    changePosition m site role (waiting kind tag s) = waiting kind tag (changePosition m site role s) := by
  have changed : positionChanged m site role (waiting kind tag s) =
      waiting kind tag (positionChanged m site role s) := by
    unfold positionChanged
    split <;> rfl
  have unowed := (positionChanged_moves m site role s).link_kept.unowed h
  rw [changePosition_eq, changed, refreshRotation_waiting _ _ _ _ unowed, changePosition_eq]

theorem vacate_waiting (kind : Nat) (tag : Byte) (slot site role : Nat) (s : State) (h : s.link.owed = none) :
    vacate slot site role (waiting kind tag s) = waiting kind tag (vacate slot site role s) := by
  unfold vacate
  rw [show positionOf (waiting kind tag s) slot = positionOf s slot from rfl]
  split
  · split
    · rfl
    · exact changePosition_waiting _ _ _ _ _ _ h
  · rfl

theorem settleIn_waiting (kind : Nat) (tag : Byte) (m : Member) (site role : Nat) (s : State)
    (h : s.link.owed = none) :
    settleIn m site role (waiting kind tag s) = waiting kind tag (settleIn m site role s) := by
  unfold settleIn
  rw [show memberOf (waiting kind tag s) site role = memberOf s site role from rfl]
  split
  · exact refreshRotation_waiting kind tag site (modifyMember (fun _ => some m) site role s) h
  · exact changePosition_waiting _ _ _ _ _ _ h

/-- The position takes the member; what it has collected stays where it named the same slot. -/
theorem settleIn_set {s : State} (m : Member) {site role : Nat} (h : Shaped s) (hs : site < 4) (hr : role < 8) :
    PositionSet (some m) site role s (settleIn m site role s) ∧
      ((memberOf s site role).map (·.slot) = some m.slot →
        PositionKept site role s (settleIn m site role s)) ∧
      ((memberOf s site role).map (·.slot) ≠ some m.slot →
        PositionEmptied site role s (settleIn m site role s)) := by
  unfold settleIn
  split
  · next same =>
    obtain ⟨set_, kept⟩ := refreshMember_set (some m) (role := role) h hs
    exact ⟨set_, fun _ => kept, fun differs => absurd same differs⟩
  · next differs =>
    exact ⟨changePosition_set (some m) h hs, fun same => absurd same differs,
      fun _ => changePosition_emptied (some m) h hs hr⟩

/-- The slot leaves the other position that names it, where there is one. -/
theorem vacate_cases {s : State} (slot site role : Nat) (h : Shaped s) :
    (vacate slot site role s = s ∧ ∀ i j, positionOf s slot = some (i, j) → i = site ∧ j = role) ∨
      ∃ i j, positionOf s slot = some (i, j) ∧ (i ≠ site ∨ j ≠ role) ∧ i < 4 ∧ j < 8 ∧
        PositionSet none i j s (vacate slot site role s) ∧
        PositionEmptied i j s (vacate slot site role s) := by
  unfold vacate
  split
  · next i j names =>
    obtain ⟨hi, hj⟩ := positionOf_lt names
    split
    · next here =>
      refine .inl ⟨rfl, fun i' j' names' => ?_⟩
      cases names.symm.trans names'
      exact here
    · next elsewhere =>
      exact .inr ⟨i, j, names, by omega, hi, hj, changePosition_set none h hi,
        changePosition_emptied none h hi hj⟩
  · next nowhere => exact .inl ⟨rfl, fun i j names => nomatch nowhere.symm.trans names⟩

theorem unassign_waiting (kind : Nat) (tag : Byte) {slot : Nat} {s : State} (h : s.link.owed = none) :
    unassign slot (waiting kind tag s) = match positionOf s slot with
      | some (i, j) => answer .ok (.assigned (some (siteOf (changePosition none i j s) i)))
          (waiting kind tag (changePosition none i j s))
      | none => answer .ok (.assigned none) (waiting kind tag s) := by
  unfold unassign
  rw [show positionOf (waiting kind tag s) slot = positionOf s slot from rfl]
  cases positionOf s slot with
  | none => rfl
  | some p =>
    obtain ⟨i, j⟩ := p
    dsimp only
    rw [changePosition_waiting _ _ _ _ _ _ h]
    rfl

theorem assign_up (slot site role : Byte) (u : State) (up : u.store.state ≠ .mounting) :
    assign slot site role u =
      if !isSlot slot.toNat then refuse .badValue u
      else if ¬role = 0xFF ∧ (3 < site.toNat ∨ 7 < role.toNat) then refuse .badValue u
      else if u.survey.state = some .recording ∨ u.survey.state = some .ended then refuse .wrongState u
      else if (entryOf u slot.toNat).state = .joining then refuse .busy u
      else if role = 0xFF then unassign slot.toNat u
      else
        match (entryOf u slot.toNat).identity with
        | none => refuse .badValue u
        | some identity =>
          if identity.kind = roleKind role.toNat then place slot.toNat site.toNat role.toNat identity u
          else refuse .badValue u :=
  unlessMounting_of_not_mounting _ u up

theorem rotationRuns_of_members {s t : State} {k : Nat}
    (hc : (siteOf t k).settings.rotCheck = (siteOf s k).settings.rotCheck)
    (hm : ∀ role, role < 3 → memberOf t k role = memberOf s k role) : rotationRuns t k = rotationRuns s k := by
  unfold rotationRuns
  rw [hc, hm 0 (by decide), hm 1 (by decide), hm 2 (by decide)]

/-- R38 for a site in which a slot leaves one position and then takes another. -/
theorem rotationFollows_within {s v t : State} {m : Option Member} {site i j : Nat} (h : Shaped s) (hs : site < 4)
    (away : i ≠ j) (sound : (rotationOf s site).running = rotationRuns s site)
    (left : PositionSet none site i s v) (set_ : PositionSet m site j v t) (hi : i < 8) :
    RotationFollows site s t := by
  have hv := left.shaped h
  by_cases phase : i < 3
  · have leaves : memberOf v site i = none := left.member h hs hi
    have stays : memberOf t site i = none := (set_.member_other hv hs (.inr away)).trans leaves
    have stopped : rotationRuns v site = none :=
      rotationRuns_none (.inr ⟨i, phase, fun m hm => nomatch leaves.symm.trans hm⟩)
    have still : rotationRuns t site = none :=
      rotationRuns_none (.inr ⟨i, phase, fun m hm => nomatch stays.symm.trans hm⟩)
    have check := left.check
    rw [stopped] at check
    have stands : (rotationOf v site).running = none := by
      rw [check]
      split
      · next e => exact e.symm
      · rfl
    have same : rotationOf t site = rotationOf v site := by
      rw [set_.check, still, if_pos stands.symm]
    refine rotationFollows_of (by rw [same, still, check]) fun changed sends hm room => ?_
    rw [same] at changed ⊢
    exact (set_.moves.appends ((left.moves.appends sends).sends sends)).notices.subset
      (left.told changed sends hm (by omega))
  · have runs : rotationRuns v site = rotationRuns s site :=
      rotationRuns_of_members (by rw [left.settings h hs]) fun role hr => left.member_other h hs (.inr (by omega))
    have same : rotationOf v site = rotationOf s site := by
      rw [left.check, runs, if_pos sound.symm]
    exact set_.follows same left.posts (left.moves.clock_eq (by decide))

/-- The slot's member after an accepted ASSIGN, and what every position and check has become. -/
theorem place_set {s : State} {slot site role : Nat} (m : Member) (h : Shaped s) (hs : site < 4) (hr : role < 8)
    (hm : m.slot = slot)
    (unique : ∀ i j m, memberOf s i j = some m → m.slot = slot → i < 4 → j < 8 →
      positionOf s slot = some (i, j)) :
    let t := settleIn m site role (vacate slot site role s)
    memberOf t site role = some m ∧
      ((memberOf s site role).map (·.slot) = some slot → PositionKept site role s t) ∧
      ((memberOf s site role).map (·.slot) ≠ some slot → PositionEmptied site role s t) ∧
      (∀ i j, i < 4 → j < 8 → (i ≠ site ∨ j ≠ role) →
        ((memberOf s i j).map (·.slot) = some slot → memberOf t i j = none ∧ PositionEmptied i j s t) ∧
        ((memberOf s i j).map (·.slot) ≠ some slot →
          memberOf t i j = memberOf s i j ∧ PositionKept i j s t)) ∧
      (RotationSound s → ∀ k, k < 4 → RotationFollows k s t) ∧
      (∀ k, k ≠ site → (∀ j, positionOf s slot ≠ some (k, j)) → rotationOf t k = rotationOf s k) ∧
      Moves (only [.sites, .sag, .harm, .rotation]) s t := by
  intro t
  have names : ∀ i j, i < 4 → j < 8 → (memberOf s i j).map (·.slot) = some slot →
      positionOf s slot = some (i, j) := by
    intro i j hi hj hn
    obtain ⟨m', hm', e⟩ := Option.map_eq_some_iff.1 hn
    exact unique i j m' hm' e hi hj
  have named : ∀ i j, positionOf s slot = some (i, j) → (memberOf s i j).map (·.slot) = some slot := by
    intro i j hp
    have found := List.find?_some hp
    cases hm' : memberOf s i j with
    | none => simp [hm'] at found
    | some m' => simpa [hm'] using found
  rcases vacate_cases slot site role h with ⟨stays, here⟩ | ⟨i, j, hp, away, hi, hj, left, lost⟩
  · have e : t = settleIn m site role s := congrArg (settleIn m site role) stays
    obtain ⟨set_, kept, emptied⟩ := settleIn_set m h hs hr
    rw [e]
    rw [hm] at kept emptied
    refine ⟨set_.member h hs hr, kept, emptied, fun i j hi hj other => ⟨fun hn => ?_, fun _ =>
      ⟨set_.member_other h hs other, set_.others i j other⟩⟩, fun sound k hk => ?_,
      fun k hk _ => set_.rotation k hk, set_.moves⟩
    · obtain ⟨rfl, rfl⟩ := here i j (names i j hi hj hn)
      exact absurd other (by simp)
    · by_cases same : k = site
      · subst same
        exact set_.follows rfl ((PostsAtMost.of_link rfl).mono (Nat.zero_le _)) rfl
      · exact rotationFollows_same (sound k hk) (set_.rotation k same) (set_.site_other same)
  · have hv := left.shaped h
    obtain ⟨set_, kept, emptied⟩ := settleIn_set m hv hs hr
    have before : memberOf (vacate slot site role s) site role = memberOf s site role :=
      left.member_other h hi (by omega)
    have otherSlot : (memberOf s site role).map (·.slot) ≠ some slot := fun hn => by
      cases hp.symm.trans (names site role hs hr hn)
      exact absurd away (by simp)
    rw [hm, before] at kept emptied
    refine ⟨set_.member hv hs hr, fun hn => absurd hn otherSlot,
      fun hn => (left.others site role (by omega)).emptied (emptied hn), fun i' j' hi' hj' other =>
      ⟨fun hn => ?_, fun hn => ?_⟩, fun sound k hk => ?_, fun k hk away' => ?_, left.moves.trans set_.moves⟩
    · cases hp.symm.trans (names i' j' hi' hj' hn)
      exact ⟨(set_.member_other hv hs other).trans (left.member h hi hj), lost.kept (set_.others i j other)⟩
    · have other' : i' ≠ i ∨ j' ≠ j := by
        by_contra same
        obtain ⟨rfl, rfl⟩ : i' = i ∧ j' = j := by omega
        exact hn (named i' j' hp)
      exact ⟨(set_.member_other hv hs other).trans (left.member_other h hi other'),
        (left.others i' j' other').trans (set_.others i' j' other)⟩
    · by_cases same : k = site
      · subst same
        have unmoved : rotationOf (vacate slot k role s) k = rotationOf s k →
            RotationFollows k s t := fun e =>
          set_.follows e left.posts (left.moves.clock_eq (by decide))
        by_cases there : k = i
        · subst there
          exact rotationFollows_within h hs (away.resolve_left (not_not.2 rfl)) (sound k hk) left set_ hj
        · exact unmoved (left.rotation k there)
      · by_cases there : k = i
        · subst there
          exact (left.follows rfl ((PostsAtMost.of_link rfl).mono (Nat.zero_le _)) rfl).after left.moves set_.moves
            (set_.rotation k same) (set_.site_other same)
        · exact rotationFollows_same (sound k hk) ((set_.rotation k same).trans (left.rotation k there))
            ((set_.site_other same).trans (left.site_other there))
    · exact (set_.rotation k hk).trans (left.rotation k fun e => away' j (e ▸ hp))

/-- Settles O37. -/
theorem assignPlacesTheSlot : Obligations.AssignPlacesTheSlot := by
  unfold Obligations.AssignPlacesTheSlot
  intro tag slot site role s h shaped up n e named placeable open_ refused fits
  have ⟨_, hc, _, howed⟩ := h
  have refuses : ∀ status : Status, assign slot site role (waiting 0x0B tag s) =
      refuse status (waiting 0x0B tag s) → refused status := fun status hr =>
    request_refused tag (.assign slot site role) status s h fun u hu => by
      subst hu
      exact hr
  have reads := assign_up slot site role (waiting 0x0B tag s) up
  have isNamed : isSlot n = true ↔ named := by simp [isSlot, named]
  have slotOk : named → ¬(!isSlot slot.toNat) = true := fun k => by
    rw [show isSlot slot.toNat = true from isNamed.2 k]
    decide
  have placeOk : placeable → ¬(¬role = 0xFF ∧ (3 < site.toNat ∨ 7 < role.toNat)) := by
    rintro (k | ⟨k, k'⟩) ⟨some_, beyond⟩
    · exact some_ k
    · omega
  have opens : open_ → ¬(s.survey.state = some .recording ∨ s.survey.state = some .ended) := fun k =>
    not_or.2 k
  have reaches : named → placeable → open_ → e.state ≠ .joining → assign slot site role (waiting 0x0B tag s) =
      if role = 0xFF then unassign n (waiting 0x0B tag s)
      else match e.identity with
        | none => refuse .badValue (waiting 0x0B tag s)
        | some identity =>
          if identity.kind = roleKind role.toNat then
            place n site.toNat role.toNat identity (waiting 0x0B tag s)
          else refuse .badValue (waiting 0x0B tag s) := fun k1 k2 k3 k4 =>
    reads.trans ((if_neg (slotOk k1)).trans ((if_neg (placeOk k2)).trans
      ((if_neg (opens k3)).trans (if_neg k4))))
  refine ⟨?badSlot, ?wrong, ?busy, ?badKind, ?places, ?nowhere, ?leaves⟩
  case badSlot =>
    intro bad
    refine refuses .badValue (reads.trans ?_)
    by_cases k : named
    · refine (if_neg (slotOk k)).trans (if_pos ?_)
      obtain ⟨some_, beyond⟩ := not_or.1 (bad.resolve_left (not_not.2 k))
      exact ⟨some_, by omega⟩
    · refine if_pos ?_
      rw [show isSlot slot.toNat = false from Bool.eq_false_iff.2 (mt isNamed.1 k)]
      rfl
  case wrong =>
    intro k1 k2 shut
    refine refuses .wrongState (reads.trans ((if_neg (slotOk k1)).trans ((if_neg (placeOk k2)).trans
      (if_pos ?_))))
    by_contra k
    exact shut (not_or.1 k)
  case busy =>
    intro k1 k2 k3 joining
    exact refuses .busy (reads.trans ((if_neg (slotOk k1)).trans ((if_neg (placeOk k2)).trans
      ((if_neg (opens k3)).trans (if_pos joining)))))
  case badKind =>
    intro k1 k2 k3 k4 some_ unfit
    refine refuses .badValue ((reaches k1 k2 k3 k4).trans ((if_neg some_).trans ?_))
    cases he : e.identity with
    | none => rfl
    | some identity =>
      refine if_neg fun k => unfit ?_
      change e.identity.map (·.kind) = _
      rw [he]
      exact congrArg some k
  case places =>
    intro identity k1 k2 k3 k4 some_ he fit unique
    obtain ⟨hs, hr⟩ := k2.resolve_left some_
    have kind : identity.kind = roleKind role.toNat := by
      simp only [fits, he] at fit
      exact Option.some.inj fit
    let m : Member := { slot := n, serial := identity.serial, active := e.state == .ready }
    obtain ⟨member, kept, emptied, others, follows, unmoved, moves⟩ :=
      place_set m shaped (Nat.lt_succ_of_le hs) (Nat.lt_succ_of_le hr) rfl unique
    refine ⟨settleIn m site.toNat role.toNat (vacate n site.toNat role.toNat s), ?_, member, kept, emptied,
      others, follows, unmoved, moves.roster_eq (by decide), moves.survey_eq (by decide),
      moves.store_eq (by decide), moves.capture_eq (by decide)⟩
    refine request_answered tag (.assign slot site role) _ _ s _ h (moves.link_kept.idle hc) ?_
    refine (reaches k1 (.inr ⟨hs, hr⟩) k3 k4).trans ((if_neg some_).trans ?_)
    rw [he]
    refine (if_pos kind).trans ?_
    have left := vacate_moves (P := anyPart) n site.toNat role.toNat s trivial trivial trivial trivial
    have roster := (vacate_moves (P := only [.sites, .sag, .harm, .rotation]) n site.toNat role.toNat s
      (by decide) (by decide) (by decide) (by decide)).roster_eq (by decide)
    have same : memberFor (vacate n site.toNat role.toNat s) n identity = m := by
      simp only [memberFor, entryOf, roster]
      rfl
    have settled : settleIn (memberFor (vacate n site.toNat role.toNat (waiting 0x0B tag s)) n identity)
        site.toNat role.toNat (vacate n site.toNat role.toNat (waiting 0x0B tag s)) =
        waiting 0x0B tag (settleIn m site.toNat role.toNat (vacate n site.toNat role.toNat s)) := by
      rw [vacate_waiting _ _ _ _ _ _ howed]
      refine Eq.trans ?_ (settleIn_waiting _ _ _ _ _ _ (left.link_kept.unowed howed))
      rw [← same]
      rfl
    exact congrArg (fun u => answer .ok (.assigned (some (siteOf u site.toNat))) u) settled
  case nowhere =>
    intro k1 k3 k4 none_ nowhere
    refine request_answered tag (.assign slot site role) _ _ s s h hc ?_
    refine (reaches k1 (.inl none_) k3 k4).trans ((if_pos none_).trans ?_)
    rw [unassign_waiting _ _ howed, nowhere]
    rfl
  case leaves =>
    intro i j k1 k3 k4 none_ names
    obtain ⟨hi, hj⟩ := positionOf_lt names
    have set_ := changePosition_set none (role := j) shaped hi
    refine ⟨changePosition none i j s, ?_, set_.member shaped hi hj, changePosition_emptied none shaped hi hj,
      fun i' j' _ _ other => ⟨set_.member_other shaped hi other, set_.others i' j' other⟩,
      set_.follows rfl ((PostsAtMost.of_link rfl).mono (Nat.zero_le _)) rfl, set_.rotation,
      set_.moves.roster_eq (by decide), set_.moves.survey_eq (by decide),
      set_.moves.store_eq (by decide), set_.moves.capture_eq (by decide)⟩
    refine request_answered tag (.assign slot site role) _ _ s _ h (set_.moves.link_kept.idle hc) ?_
    refine (reaches k1 (.inl none_) k3 k4).trans ((if_pos none_).trans ?_)
    rw [unassign_waiting _ _ howed, names]
    rfl

end Sys2Proof.Machine
end

