-- ==== Sys2Proof/Proofs/Leaving.lean ====
section
/-!
PROOFS. A pod that leaves service (R15 to R17): what its consumers become, and POD_LOST and POD_STUCK (O25).
-/

namespace Sys2Proof.Machine

theorem positionOf_of_sites {s t : State} (h : t.sites = s.sites) : positionOf t = positionOf s := by
  funext slot
  simp only [positionOf, memberOf_of_sites h]

/-! ### One entry of the roster -/

theorem entryOf_of_roster {s t : State} (h : t.roster = s.roster) (i : Nat) : entryOf t i = entryOf s i := by
  rw [entryOf, h]
  rfl

/-! ### The consumers of a slot that leaves -/

/-- A member's harmonic part after its pod has left service (R98, R110). -/
def harmLeft (x : HarmMember) : HarmMember :=
  { x with window := if windowDue x then x.window else none, lossDue := x.acc.isSome }

theorem windowDue_iff (x : HarmMember) : windowDue x = true ↔ ∃ w, x.window = some w ∧ w.taken = 1024 := by
  unfold windowDue
  split <;> simp_all

theorem harmLeft_complete {x : HarmMember} (h : ∀ w, x.window = some w → w.taken = 1024) :
    (harmLeft x).window = x.window := by
  cases hw : x.window with
  | none => simp [harmLeft, hw]
  | some w => rw [harmLeft, (windowDue_iff x).2 ⟨w, hw, h w hw⟩, if_pos rfl, hw]

theorem harmLeft_abandoned {x : HarmMember} {w : Window} (h : x.window = some w) (k : w.taken ≠ 1024) :
    (harmLeft x).window = none ∧ (x.window.isSome && !windowDue x) = true := by
  have open_ : windowDue x = false := Bool.eq_false_iff.2 fun due => by
    obtain ⟨w', hw, taken⟩ := (windowDue_iff x).1 due
    cases h.symm.trans hw
    exact k taken
  constructor
  · simp [harmLeft, open_]
  · simp [h, open_]

theorem harmLeft_kept {x : HarmMember} (h : ∀ w, x.window = some w → w.taken = 1024) :
    (x.window.isSome && !windowDue x) = false := by
  cases hw : x.window with
  | none => rfl
  | some w => rw [(windowDue_iff x).2 ⟨w, hw, h w hw⟩]; rfl

theorem harmLeave_member {s : State} {site role : Nat} (h : Shaped s) (hs : site < 4) (hr : role < 8) :
    harmMember (harmLeave site role s) site role = harmLeft (harmMember s site role) := by
  unfold harmLeave
  rw [harmMember, harmSite_modifyHarm _ _ _ (by
    rw [((modifyHarmMember_moves (P := anyPart) _ site role s trivial).shaped h).harm_length]
    exact hs)]
  exact harmMember_modifyHarmMember _ h hs hr

theorem harmLeave_abandoned {s : State} {site role : Nat} (h : Shaped s) (hs : site < 4) :
    (harmSite (harmLeave site role s) site).abandoned =
      if (harmMember s site role).window.isSome && !windowDue (harmMember s site role) then
        satInc 4294967295 (harmSite s site).abandoned else (harmSite s site).abandoned := by
  have len := h.harm_length
  unfold harmLeave
  rw [harmSite_modifyHarm _ _ _ (by
    rw [((modifyHarmMember_moves (P := anyPart) _ site role s trivial).shaped h).harm_length]
    exact hs), modifyHarmMember, harmSite_modifyHarm _ _ _ (by rw [len]; exact hs)]
  rfl

/-- The consumers of a slot that leaves service, before its site's check is looked at. -/
def consumersLeft (site role : Nat) (s : State) : State :=
  harmLeave site role (sagLeave site role
    (modifyMember (Option.map fun m => { m with active := false }) site role s))

theorem consumersLeft_moves (site role : Nat) (s : State) :
    Moves (only [.sites, .sag, .harm]) s (consumersLeft site role s) :=
  .trans (.trans (modifyMember_moves _ _ _ _ (by decide)) (sagLeave_moves _ _ _ (by decide)))
    (harmLeave_moves _ _ _ (by decide))

theorem leaveService_placed {s : State} {slot site role : Nat} (h : positionOf s slot = some (site, role)) :
    leaveService slot s = refreshRotation (consumersLeft site role s) site := by
  unfold leaveService
  rw [h]
  rfl

theorem leaveService_free {s : State} {slot : Nat} (h : positionOf s slot = none) :
    leaveService slot s = s := by
  unfold leaveService
  rw [h]

theorem sagLeave_sites (site role : Nat) (s : State) : (sagLeave site role s).sites = s.sites := by
  unfold sagLeave
  split <;> rfl

theorem sagLeave_harm (site role : Nat) (s : State) : (sagLeave site role s).harm = s.harm := by
  unfold sagLeave
  split <;> rfl

theorem consumersLeft_sites (site role : Nat) (s : State) : (consumersLeft site role s).sites =
    (modifyMember (Option.map fun m => { m with active := false }) site role s).sites :=
  sagLeave_sites _ _ _

theorem consumersLeft_link (site role : Nat) (s : State) : (consumersLeft site role s).link = s.link := by
  change (sagLeave site role _).link = _
  unfold sagLeave
  split <;> rfl

section
variable {s : State} {site role : Nat} (h : Shaped s) (hs : site < 4) (hr : role < 8)
include h hs

theorem consumersLeft_channel (voltage : role < 3) :
    channelOf (consumersLeft site role s) site role =
      { channelOf s site role with window := [], lost := true } := by
  have shaped := (modifyMember_moves (P := anyPart)
    (Option.map fun m => { m with active := false }) site role s trivial).shaped h
  refine (channelOf_of_sag (s := sagLeave site role _) rfl site role).trans ?_
  rw [sagLeave, if_pos voltage]
  exact channelOf_modifyChannel _ shaped hs voltage

omit hs in
theorem consumersLeft_shaped : Shaped (sagLeave site role
    (modifyMember (Option.map fun m => { m with active := false }) site role s)) :=
  (Moves.trans (P := anyPart) (modifyMember_moves _ _ _ _ trivial) (sagLeave_moves _ _ _ trivial)).shaped h

theorem consumersLeft_abandoned :
    (harmSite (consumersLeft site role s) site).abandoned =
      if (harmMember s site role).window.isSome && !windowDue (harmMember s site role) then
        satInc 4294967295 (harmSite s site).abandoned else (harmSite s site).abandoned := by
  rw [consumersLeft, harmLeave_abandoned (consumersLeft_shaped h) hs]
  simp only [harmMember, harmSite, sagLeave_harm]
  rfl

include hr in
theorem consumersLeft_harm :
    harmMember (consumersLeft site role s) site role = harmLeft (harmMember s site role) := by
  rw [consumersLeft, harmLeave_member (consumersLeft_shaped h) hs hr]
  exact congrArg harmLeft (harmMember_of_harm (sagLeave_harm _ _ _) site role)

include hr in
theorem consumersLeft_member {m : Member} (names : memberOf s site role = some m) :
    memberOf (consumersLeft site role s) site role = some { m with active := false } := by
  rw [memberOf_of_sites (consumersLeft_sites site role s), memberOf_modifyMember _ h hs hr, names]
  rfl

end

/-! ### POD_LOST and POD_STUCK -/

/-- What a pod that leaves service leaves of the part: its entry is `e`, its consumers have left it. -/
def Left (slot : Nat) (e : RosterEntry) (s t : State) : Prop :=
  entryOf t slot = e ∧
    (∀ i, 1 ≤ i → i ≤ 15 → i ≠ slot → entryOf t i = entryOf s i) ∧
    (∀ site role m, positionOf s slot = some (site, role) → memberOf s site role = some m →
      memberOf t site role = some { m with active := false } ∧
        (role < 3 → (channelOf t site role).window = [] ∧ (channelOf t site role).lost = true) ∧
        let x := harmMember s site role
        (harmMember t site role).acc = x.acc ∧
        (harmMember t site role).lossDue = x.acc.isSome ∧
        (∀ w, x.window = some w → w.taken ≠ 1024 →
          (harmMember t site role).window = none ∧
            (harmSite t site).abandoned = satInc 4294967295 (harmSite s site).abandoned) ∧
        ((∀ w, x.window = some w → w.taken = 1024) →
          (harmMember t site role).window = x.window ∧
            (harmSite t site).abandoned = (harmSite s site).abandoned) ∧
        RotationFollows site s t ∧ ∀ k, k ≠ site → rotationOf t k = rotationOf s k) ∧
    (positionOf s slot = none →
      t.sites = s.sites ∧ t.sag = s.sag ∧ t.harm = s.harm ∧ t.rotation = s.rotation) ∧
    t.bus = s.bus ∧ t.tracker = s.tracker ∧ t.store = s.store ∧ t.capture = s.capture

/-- A slot whose entry alone has changed and of which one notice has been posted leaves service. -/
theorem leaveService_left {s u : State} {slot : Nat} {e : RosterEntry} (h : Shaped s)
    (entry : entryOf u slot = e) (others : ∀ i, 1 ≤ i → i ≤ 15 → i ≠ slot → entryOf u i = entryOf s i)
    (moves : Moves (only [.roster]) s u) (posts : PostsAtMost 1 s u) :
    Left slot e s (leaveService slot u) := by
  have left := leaveService_moves (P := only [.sites, .sag, .harm, .rotation]) slot u (by decide) (by decide)
    (by decide) (by decide)
  have shaped := moves.shaped h
  have sites := moves.sites_eq (by decide)
  have position := congrFun (positionOf_of_sites sites) slot
  refine ⟨(entryOf_of_roster (left.roster_eq (by decide)) slot).trans entry,
    fun i h1 h2 k => (entryOf_of_roster (left.roster_eq (by decide)) i).trans (others i h1 h2 k),
    fun site role m hp hm => ?_, fun hp => ?_,
    (left.bus_eq (by decide)).trans (moves.bus_eq (by decide)),
    (left.tracker_eq (by decide)).trans (moves.tracker_eq (by decide)),
    (left.store_eq (by decide)).trans (moves.store_eq (by decide)),
    (left.capture_eq (by decide)).trans (moves.capture_eq (by decide))⟩
  · obtain ⟨hs, hr⟩ := positionOf_lt hp
    rw [leaveService_placed (position.trans hp)]
    have member : memberOf u site role = some m := (memberOf_of_sites sites _ _).trans hm
    have harm : harmMember u site role = harmMember s site role :=
      harmMember_of_harm (moves.harm_eq (by decide)) _ _
    have harmSame : harmSite u site = harmSite s site := by
      simp only [harmSite, moves.harm_eq (P := only [.roster]) (by decide)]
    have consumers := consumersLeft_moves site role u
    have refreshed := refreshRotation_moves (P := only [.rotation]) (consumersLeft site role u) site (by decide)
    have harmNow := refreshed.harm_eq (by decide)
    have site_ : harmSite (refreshRotation (consumersLeft site role u) site) site =
        harmSite (consumersLeft site role u) site := by simp only [harmSite, harmNow]
    have counted := consumersLeft_abandoned shaped hs (role := role)
    have before : PostsAtMost 1 s (consumersLeft site role u) :=
      posts.trans (.of_link (consumersLeft_link site role u))
    have rotation : ∀ k, rotationOf (consumersLeft site role u) k = rotationOf s k := fun k =>
      (rotationOf_of_rotation (consumers.rotation_eq (by decide)) k).trans
        (rotationOf_of_rotation (moves.rotation_eq (by decide)) k)
    dsimp only
    rw [harmMember_of_harm harmNow, consumersLeft_harm shaped hs hr, site_, counted, harm, harmSame]
    refine ⟨(memberOf_of_sites (refreshed.sites_eq (by decide)) _ _).trans
        (consumersLeft_member shaped hs hr member), fun voltage => ?_, rfl, rfl, fun w hw taken => ?_,
      fun complete => ?_, ?_, fun k hk => (refreshRotation_other _ hk).trans (rotation k)⟩
    · rw [channelOf_of_sag (refreshed.sag_eq (by decide)), consumersLeft_channel shaped hs voltage]
      exact ⟨rfl, rfl⟩
    · obtain ⟨gone, abandons⟩ := harmLeft_abandoned hw taken
      exact ⟨gone, if_pos abandons⟩
    · exact ⟨harmLeft_complete complete, if_neg (Bool.eq_false_iff.1 (harmLeft_kept complete))⟩
    · refine rotationFollows_refresh ?_ (rotation site) before
        ((consumers.clock_eq (by decide)).trans (moves.clock_eq (by decide)))
        (.refl (P := anyPart) _) rfl (siteOf_eq_of_sites (refreshed.sites_eq (by decide)) _)
      rw [consumers.rotation_eq (by decide), shaped.rotation_length]
      exact hs
  · rw [leaveService_free (position.trans hp)]
    exact ⟨sites, moves.sag_eq (by decide), moves.harm_eq (by decide), moves.rotation_eq (by decide)⟩

/-- The notice of a pod that leaves service: alone where no member names its slot, and appended. -/
def LeaveTold (slot bit : Nat) (body : NoticeBody) (s t : State) : Prop :=
  (positionOf s slot = none → t.link = (post body s).link) ∧
    (s.link.sending.isSome = true → s.link.mask.getLsbD bit = true → s.link.notices.length < 32 →
      s.link.notices ++ [⟨body, s.clock.time⟩] <+: t.link.notices)

theorem leaveService_told {s : State} {slot : Nat} {body : NoticeBody} (f : RosterEntry → RosterEntry)
    (owed : s.link.owed = none) :
    LeaveTold slot body.code body s (leaveService slot (post body (modifyEntry f slot s))) := by
  have link : (post body (modifyEntry f slot s)).link = (post body s).link := by
    rw [post_unowed _ _ owed, post_unowed _ _ (by exact owed)]
    rfl
  refine ⟨fun hp => ?_, fun sending masked room => ?_⟩
  · have position : positionOf (post body (modifyEntry f slot s)) slot = none := by
      rw [positionOf_of_sites (s := s)]
      · exact hp
      · exact (Moves.trans (P := only [.roster]) (modifyEntry_moves f slot s (by decide))
          (.post body _)).sites_eq (by decide)
    rw [leaveService_free position, link]
  · have sends : Sends s.link := ⟨sending, owed⟩
    have left := leaveService_moves (P := anyPart) slot (post body (modifyEntry f slot s)) trivial trivial trivial
      trivial
    have appended := left.appends (by rw [link]; exact (post_appends body sends).sends sends)
    have told := appended.notices
    rwa [link, post_mem sends masked room] at told

/-- What POD_LOST and POD_STUCK share: the entry changes, its notice is posted, and the slot leaves. -/
theorem leaves_of_entry {s : State} {slot : Nat} {body : NoticeBody} (f : RosterEntry → RosterEntry)
    (h : Shaped s) (h1 : 1 ≤ slot) (h2 : slot ≤ 15) :
    Left slot (f (entryOf s slot)) s (leaveService slot (post body (modifyEntry f slot s))) := by
  have posted : Moves (only [.roster]) s (post body (modifyEntry f slot s)) :=
    .trans (modifyEntry_moves f slot s (by decide)) (.post body _)
  have same : (post body (modifyEntry f slot s)).roster = (modifyEntry f slot s).roster :=
    (Moves.post (P := only []) body (modifyEntry f slot s)).roster_eq (by decide)
  have inRoster : slot - 1 < s.roster.length := by
    obtain ⟨hl, _⟩ := h
    omega
  exact leaveService_left h ((entryOf_of_roster same slot).trans (entryOf_modifyEntry f slot s inRoster))
    (fun i hi _ k => (entryOf_of_roster same i).trans (entryOf_modifyEntry_other f slot i s (by omega))) posted
    ((PostsAtMost.of_link rfl).trans (post_postsAtMost _ _))

theorem lostDue_iff {s : State} {slot : Nat} (h1 : 1 ≤ slot) (h2 : slot ≤ 15)
    (ready : (entryOf s slot).state = .ready) : lostDue s slot = true ↔ 8 ≤ (receiveOf s slot).dropouts := by
  simp [lostDue, slotReady, isSlot, h1, h2, ready]

theorem stuckDue_iff {s : State} {slot : Nat} (h1 : 1 ≤ slot) (h2 : slot ≤ 15)
    (ready : (entryOf s slot).state = .ready) : stuckDue s slot = true ↔ 1024 ≤ (receiveOf s slot).run := by
  simp [stuckDue, slotReady, isSlot, h1, h2, ready]

/-- Settles O25. -/
theorem podsLeaveService : Obligations.PodsLeaveService := by
  unfold Obligations.PodsLeaveService
  intro slot s h shaped owed h1 h2 ready
  have lost : exec (.podLost slot) s = .next (podLost slot s) :=
    (congrFun (exec_event rfl) s).trans
      (event_of_moves (podLost_moves (P := anyPart) slot s trivial trivial trivial trivial trivial) h)
  have stuck : exec (.podStuck slot) s = .next (podStuck slot s) :=
    (congrFun (exec_event rfl) s).trans
      (event_of_moves (podStuck_moves (P := anyPart) slot s trivial trivial trivial trivial trivial) h)
  refine ⟨fun due => ⟨podLost slot s, lost, ?_⟩, fun due => ⟨podStuck slot s, stuck, ?_⟩,
    fun early => ?_, fun early => ?_⟩
  · rw [podLost, if_pos ((lostDue_iff h1 h2 ready).2 due)]
    exact ⟨leaves_of_entry (fun e => { e with state := .absent }) shaped h1 h2, leaveService_told _ owed⟩
  · rw [podStuck, if_pos ((stuckDue_iff h1 h2 ready).2 due)]
    exact ⟨leaves_of_entry (fun e => { e with state := .fault, cause := some .stuck }) shaped h1 h2,
      leaveService_told _ owed⟩
  · rw [lost, podLost, if_neg (mt (lostDue_iff h1 h2 ready).1 (by omega))]
  · rw [stuck, podStuck, if_neg (mt (stuckDue_iff h1 h2 ready).1 (by omega))]

end Sys2Proof.Machine
end

