-- ==== Sys2Proof/Proofs/Joining.lean ====
section
/-!
PROOFS. A join that takes effect at the start of a frame (R11, R19, R46), and O19: what it makes of the roster,
the member that names its slot and that member's site, and what the rest of the frame's start leaves of it.
-/

namespace Sys2Proof.Machine

theorem Same.mono {P Q : Part → Prop} (h : ∀ p, P p → Q p) {s t : State} (k : Same P s t) : Same Q s t :=
  { k with
    clock := k.clock.imp_left (h _), bus := k.bus.imp_left (h _), roster := k.roster.imp_left (h _)
    receive := k.receive.imp_left (h _), tracker := k.tracker.imp_left (h _)
    rotation := k.rotation.imp_left (h _), sites := k.sites.imp_left (h _)
    survey := k.survey.imp_left (h _), sag := k.sag.imp_left (h _), capture := k.capture.imp_left (h _)
    harm := k.harm.imp_left (h _), store := k.store.imp_left (h _), array := k.array.imp_left (h _)
    print := k.print.imp_left (h _), supply := k.supply.imp_left (h _), free := k.free.imp_left (h _) }

theorem Moves.mono {P Q : Part → Prop} (h : ∀ p, P p → Q p) {s t : State} (m : Moves P s t) : Moves Q s t := by
  induction m with
  | refl s => exact .refl s
  | same k => exact .same (k.mono h)
  | post b s => exact .post b s
  | answer st b s => exact .answer st b s
  | clamp c s => exact .clamp c s
  | domain f s => exact .domain f s
  | notice s => exact .notice s
  | trans _ _ first second => exact first.trans second

/-! ### A close touches the positions it closes -/

theorem harmMember_modifyHarm_members (f : HarmSite → HarmSite) (h : ∀ x, (f x).members = x.members)
    (site : Nat) (s : State) (i j : Nat) : harmMember (modifyHarm f site s) i j = harmMember s i j := by
  by_cases same : i = site
  · subst same
    by_cases hi : i < s.harm.sites.length
    · rw [harmMember, harmSite_modifyHarm _ _ _ hi, h]
      rfl
    · have beyond : ∀ t : State, t.harm.sites.length = s.harm.sites.length → harmSite t i = {} := fun t ht =>
        List.getD_eq_default _ _ (by rw [ht]; exact Nat.le_of_not_lt hi)
      rw [harmMember, beyond _ (updateAt_length _ _ _), harmMember, beyond s rfl]
  · rw [harmMember, harmSite_modifyHarm_other _ _ _ _ same]
    rfl

theorem placeRecord_other (r : IntervalRecord) (moment : Nat) {site role i j : Nat} (counts : CloseCounts)
    (s : State) (h : i ≠ site ∨ j ≠ role) :
    harmMember (placeRecord r moment site role counts s).2 i j = harmMember s i j := by
  unfold placeRecord
  split
  · exact (harmMember_of_harm rfl i j).trans (harmMember_modifyHarmMember_other s _ h)
  · exact harmMember_modifyHarmMember_other s _ h

theorem handRecord_other (r : IntervalRecord) (moment : Nat) {site role i j : Nat} (counts : CloseCounts)
    (s : State) (h : i ≠ site ∨ j ≠ role) :
    harmMember (handRecord r moment site role counts s).2 i j = harmMember s i j := by
  unfold handRecord
  split
  · rfl
  · split
    · exact placeRecord_other r moment _ (dropInterval s) h
    · exact placeRecord_other r moment _ s h

theorem closePosition_other (c : Closing) {site i j : Nat} (acc : CloseCounts × State) (role : Nat)
    (h : i ≠ site ∨ j ≠ role) :
    harmMember (closePosition c site acc role).2 i j = harmMember acc.2 i j := by
  obtain ⟨counts, s⟩ := acc
  unfold closePosition
  dsimp only
  split
  · rfl
  · split
    · exact (harmMember_modifyHarm_members (fun h => { h with empty := satInc max32 h.empty }) (fun _ => rfl)
        _ _ _ _).trans (harmMember_modifyHarmMember_other s _ h)
    · exact (handRecord_other _ _ _ _ h).trans (harmMember_modifyHarmMember_other s _ h)

theorem closeSite_other (c : Closing) (causes : CloseCauses) (roles : List Nat) (s : State) {site i j : Nat}
    (h : i ≠ site ∨ j ∉ roles) :
    harmMember (closeSite c causes roles s site) i j = harmMember s i j := by
  have closes : ∀ (roles : List Nat) (acc : CloseCounts × State), (i ≠ site ∨ j ∉ roles) →
      harmMember (roles.foldl (closePosition c site) acc).2 i j = harmMember acc.2 i j := by
    intro roles
    induction roles with
    | nil => exact fun acc _ => rfl
    | cons role roles ih =>
      intro acc away
      rw [List.mem_cons, not_or] at away
      exact (ih _ (away.imp_right And.right)).trans (closePosition_other c acc role (away.imp_right And.left))
  refine Eq.trans ?_ (closes roles ({}, s) h)
  exact harmMember_of_harm ((postWhen_moves (P := only []) _ _ _).harm_eq (by decide)) i j

/-- The closes by loss leave a position that no loss has touched. -/
theorem lossCloses_kept {s : State} {i j : Nat} (h : (harmMember s i j).lossDue = false) :
    harmMember (lossCloses s) i j = harmMember s i j := by
  unfold lossCloses
  split
  · rfl
  · have closes : ∀ (frame : Nat) (time : ClockTime) (sites : List Nat) (u : State),
        harmMember u i j = harmMember s i j →
        harmMember (sites.foldl (fun s site => if (harmSite s site).due then s
          else closeSite ⟨s.harm.moments, time, true, some (frame, time)⟩ {}
            (allRoles.filter fun role => (harmMember s site role).lossDue) s site) u) i j =
          harmMember s i j := by
      intro frame time sites
      induction sites with
      | nil => exact fun u hu => hu
      | cons site sites ih =>
        intro u hu
        refine ih _ ?_
        dsimp only
        split
        · exact hu
        · refine (closeSite_other _ _ _ u ?_).trans hu
          by_cases same : i = site
          · subst same
            refine .inr fun mem => ?_
            have lost := (List.mem_filter.1 mem).2
            rw [hu, h] at lost
            cases lost
          · exact .inl same
    exact closes _ _ (List.range 4) s rfl

/-! ### What a frame's start leaves of a position -/

theorem closesMarked_harmMember (s : State) (i j : Nat) :
    harmMember (closesMarked s) i j = harmMember s i j := by
  have sites : (closesMarked s).harm.sites = s.harm.sites.map fun h =>
      { h with due := h.due || boundaryReached (nextMoment s) s.bus.frameTime h } := rfl
  simp only [harmMember, harmSite, sites, List.getD_eq_getElem?_getD, List.getElem?_map]
  cases s.harm.sites[i]? <;> rfl

/-- The parts the position of a member is kept in. -/
theorem beginFrame_kept {s : State} {i j : Nat} (h : (harmMember (controlled s) i j).lossDue = false) :
    PositionKept i j (controlled s) (beginFrame s) := by
  have same : harmMember (markBoundary (closesMarked (referenceAtFrame (controlled s)))) i j =
      harmMember (controlled s) i j :=
    (closesMarked_harmMember _ i j).trans
      (harmMember_of_harm ((referenceAtFrame_onlyTracker _).harm_eq (by decide)) i j)
  refine ⟨fun _ => channelOf_of_sag (((beginFrame_after s).sag_eq (by decide)).trans
    ((referenceAtFrame_onlyTracker _).sag_eq (by decide))) i j, ?_⟩
  rw [beginFrame_eq]
  split
  · exact same
  · rw [lossCloses_kept (by rw [same]; exact h), same]

/-! ### The join -/

theorem updateAt_eq_const {α : Type} (f : α → α) (d : α) (n : Nat) (xs : List α) :
    updateAt f n xs = updateAt (fun _ => f (xs.getD n d)) n xs := by
  induction xs generalizing n with
  | nil => cases n <;> rfl
  | cons x xs ih =>
    cases n with
    | zero => rfl
    | succ n => exact congrArg (x :: ·) (ih n)

theorem modifyMember_eq_const {s : State} {site role : Nat} (f : Option Member → Option Member) :
    modifyMember f site role s = modifyMember (fun _ => f (memberOf s site role)) site role s := by
  unfold modifyMember modifySite
  rw [updateAt_eq_const (fun e => { e with members := updateAt f role e.members }) ({} : Site),
    updateAt_eq_const f none]
  exact congrArg (fun xs => { s with sites := xs }) (updateAt_eq_const (fun e : Site =>
    { e with members := updateAt (fun _ => f (memberOf s site role)) role e.members }) {} site s.sites).symm

/-- The entry of a slot whose join takes effect (R11). -/
def joinedEntry (clock : Clock) (identity : Identity) (e : RosterEntry) : RosterEntry :=
  { (if (e.identity.map (·.serial) == some identity.serial) then e else clearSticky e) with
    state := .ready, cause := none, identity := some identity
    calDue := calDueOf clock (some identity) }

/-- The bus, the roster and the receive states of a join that takes effect. -/
def joined (slot : Nat) (identity : Identity) (s : State) : State :=
  modifyReceive (fun _ => {}) slot
    (modifyEntry (fun _ => joinedEntry s.clock identity (entryOf s slot)) slot (setJoin none s))

theorem joined_eq (slot : Nat) (identity : Identity) (s : State) :
    modifyReceive (fun _ => {}) slot (modifyEntry (fun e =>
      { (if ((entryOf s slot).identity.map (·.serial) == some identity.serial) then e else clearSticky e) with
        state := .ready, cause := none, identity := some identity
        calDue := calDueOf s.clock (some identity) }) slot (setJoin none s)) = joined slot identity s := by
  unfold joined modifyEntry
  rw [updateAt_eq_const _ ({} : RosterEntry)]
  rfl

theorem joined_moves (slot : Nat) (identity : Identity) (s : State) :
    Moves (only [.bus, .roster, .receive]) s (joined slot identity s) :=
  .trans (.trans (setJoin_moves _ _ (by decide)) (modifyEntry_moves _ _ _ (by decide)))
    (modifyReceive_moves _ _ _ (by decide))

/-- The mismatch indication of POD_JOIN (R46). -/
def joinMismatch (slot : Nat) (identity : Identity) (s : State) : Option (Nat × Role) :=
  match positionOf s slot with
  | none => none
  | some (site, role) =>
    if (memberOf s site role).map (·.serial) = some identity.serial ∧
        identity.kind = roleKind role then none
    else some (site, roleOf role)

/-- The POD_JOIN notice of a join. -/
def joinNotice (slot : Nat) (identity : Identity) (s : State) : NoticeBody :=
  .podJoin slot identity.serial identity.kind identity.model identity.fullScale
    (calDueOf s.clock (some identity)) (joinMismatch slot identity s)

theorem matchMember_free {s : State} {slot : Nat} (identity : Identity) (h : positionOf s slot = none) :
    matchMember slot identity s = (none, s) := by
  unfold matchMember
  rw [h]

section
variable {s : State} {slot site role : Nat} {m : Member} (identity : Identity)
  (h : positionOf s slot = some (site, role)) (k : memberOf s site role = some m)
include h k

theorem matchMember_matched (fits : m.serial = identity.serial ∧ identity.kind = roleKind role) :
    matchMember slot identity s =
      (none, refreshRotation (modifyMember (Option.map fun m => { m with active := true }) site role s) site) := by
  unfold matchMember
  rw [h]
  refine if_pos ⟨?_, fits.2⟩
  rw [k]
  exact congrArg some fits.1

theorem matchMember_mismatched (fits : ¬(m.serial = identity.serial ∧ identity.kind = roleKind role)) :
    matchMember slot identity s = (some (site, roleOf role), changePosition none site role s) := by
  unfold matchMember
  rw [h]
  refine if_neg fun same => fits ⟨?_, same.2⟩
  have serial := same.1
  rw [k] at serial
  exact Option.some.inj serial

end

theorem matchMember_mismatch (slot : Nat) (identity : Identity) (s : State) :
    (matchMember slot identity s).1 = joinMismatch slot identity s := by
  unfold matchMember joinMismatch
  cases positionOf s slot with
  | none => rfl
  | some p =>
    dsimp only
    split <;> rfl

theorem matchMember_postsAtMost {s : State} (slot : Nat) (identity : Identity) (h : Shaped s) :
    PostsAtMost 1 s (matchMember slot identity s).2 := by
  unfold matchMember
  split
  · exact (PostsAtMost.of_link rfl).mono (Nat.zero_le _)
  · next site role hp =>
    split
    · exact (PostsAtMost.of_link (s := s) (t := modifyMember _ site role s) rfl).trans
        (refreshRotation_postsAtMost _ _)
    · exact (changePosition_set none h (positionOf_lt hp).1).posts

/-- A member that the joining slot's identity fits becomes active, one that it does not fit is cleared. -/
theorem matchMember_set {s : State} {slot site role : Nat} {m : Member} (identity : Identity) (shaped : Shaped s)
    (h : positionOf s slot = some (site, role)) (k : memberOf s site role = some m) :
    let matched := m.serial = identity.serial ∧ identity.kind = roleKind role
    let t := (matchMember slot identity s).2
    (matched → PositionSet (some { m with active := true }) site role s t ∧ PositionKept site role s t) ∧
      (¬matched → PositionSet none site role s t ∧ PositionEmptied site role s t) := by
  obtain ⟨hs, hr⟩ := positionOf_lt h
  refine ⟨fun fits => ?_, fun fits => ?_⟩
  · rw [matchMember_matched identity h k fits, modifyMember_eq_const, k]
    exact refreshMember_set _ shaped hs
  · rw [matchMember_mismatched identity h k fits]
    exact ⟨changePosition_set none shaped hs, changePosition_emptied none shaped hs hr⟩

theorem joinComplete_eq (j : Join) (identity : Identity) (s : State) :
    joinComplete j identity s =
      post (joinNotice j.slot identity s) (matchMember j.slot identity (joined j.slot identity s)).2 := by
  have clock : (matchMember j.slot identity (joined j.slot identity s)).2.clock = s.clock :=
    (matchMember_moves (P := only [.sites, .sag, .harm, .rotation]) _ _ _ (by decide) (by decide) (by decide)
      (by decide)).clock_eq (by decide)
  have mismatch : joinMismatch j.slot identity (joined j.slot identity s) = joinMismatch j.slot identity s := rfl
  rw [joinNotice, ← mismatch, ← matchMember_mismatch, ← clock, ← joined_eq]
  rfl

/-! ### O19 -/

/-- A join that takes effect at the start of a frame that finds the part settled. -/
structure JoinStarts (slot count : Nat) (identity : Identity) (s : State) : Prop where
  shaped : Shaped s
  low : 1 ≤ slot
  high : slot ≤ 15
  join : s.bus.join = some ⟨slot, count, .onSent identity⟩

namespace JoinStarts

variable {slot count : Nat} {identity : Identity} {s : State}

theorem inRoster (h : JoinStarts slot count identity s) : slot - 1 < s.roster.length := by
  obtain ⟨⟨hl, _⟩, low, high, _⟩ := h
  omega

/-- The state after the join, before the mask and the control word. -/
theorem atFrame (h : JoinStarts slot count identity s) : joinAtFrame (frameBegun s) =
    post (joinNotice slot identity s)
      (matchMember slot identity (joined slot identity (frameBegun s))).2 := by
  have begun := frameBegun_moves s
  have clock := begun.clock_eq (by decide)
  rw [joinAtFrame_onSent (j := ⟨slot, count, .onSent identity⟩) (by rw [frameBegun_bus]; exact h.join) rfl,
    joinComplete_eq]
  have sites := begun.sites_eq (by decide)
  have mismatch : joinMismatch slot identity (frameBegun s) = joinMismatch slot identity s := by
    simp only [joinMismatch, positionOf_of_sites sites, memberOf_of_sites sites]
  rw [joinNotice, clock, mismatch]
  rfl

theorem joined_moves (_ : JoinStarts slot count identity s) :
    Moves (only [.tracker, .free, .bus, .roster, .receive]) s (joined slot identity (frameBegun s)) :=
  .trans (.trans (ncoCarry_moves s (by decide) (by decide)) (setBus_moves _ _ (by decide)))
    (.trans (.trans (setJoin_moves _ _ (by decide)) (modifyEntry_moves _ _ _ (by decide)))
      (modifyReceive_moves _ _ _ (by decide)))

theorem roster (h : JoinStarts slot count identity s) : (beginFrame s).roster =
    updateAt (fun _ => joinedEntry s.clock identity (entryOf s slot)) (slot - 1) s.roster := by
  have begun := frameBegun_moves s
  have matches_ := matchMember_moves (P := only [.sites, .sag, .harm, .rotation]) slot identity
    (joined slot identity (frameBegun s)) (by decide) (by decide) (by decide) (by decide)
  have posted := Moves.post (P := only []) (joinNotice slot identity s)
    (matchMember slot identity (joined slot identity (frameBegun s))).2
  rw [beginFrame_roster, controlled, (selectControl_onlyBus _).roster_eq (by decide), newFrame_eq, setBus_roster,
    h.atFrame, posted.roster_eq (by decide), matches_.roster_eq (by decide)]
  change updateAt (fun _ => joinedEntry (frameBegun s).clock identity (entryOf (frameBegun s) slot)) (slot - 1)
    (frameBegun s).roster = _
  rw [entryOf, begun.clock_eq (by decide), begun.roster_eq (by decide)]
  rfl

theorem receive (h : JoinStarts slot count identity s) :
    (beginFrame s).receive = updateAt (fun _ => {}) (slot - 1) s.receive := by
  have begun := frameBegun_moves s
  have matches_ := matchMember_moves (P := only [.sites, .sag, .harm, .rotation]) slot identity
    (joined slot identity (frameBegun s)) (by decide) (by decide) (by decide) (by decide)
  have posted := Moves.post (P := only []) (joinNotice slot identity s)
    (matchMember slot identity (joined slot identity (frameBegun s))).2
  rw [(beginFrame_after s).receive_eq (by decide), (referenceAtFrame_onlyTracker _).receive_eq (by decide),
    controlled, (selectControl_onlyBus _).receive_eq (by decide), newFrame_eq, setBus_receive,
    h.atFrame, posted.receive_eq (by decide), matches_.receive_eq (by decide)]
  change updateAt (fun _ => {}) (slot - 1) (frameBegun s).receive = _
  rw [begun.receive_eq (by decide)]

/-- The state as the join has taken effect. -/
theorem controlled_eq (h : JoinStarts slot count identity s) : Moves (only [.bus])
    (post (joinNotice slot identity s) (matchMember slot identity (joined slot identity (frameBegun s))).2)
    (controlled s) := by
  rw [controlled, newFrame_eq, h.atFrame]
  exact .trans (setBus_moves _ _ (by decide)) (selectControl_moves _ (by decide))

theorem after (h : JoinStarts slot count identity s) :
    Moves (only [.bus, .tracker, .harm, .store, .survey])
      (post (joinNotice slot identity s) (matchMember slot identity (joined slot identity (frameBegun s))).2)
      (beginFrame s) := by
  refine .trans (h.controlled_eq.mono (by decide)) (.trans (referenceAtFrame_moves _ (by decide)) ?_)
  exact (beginFrame_after s).mono (by decide)

/-- What follows the match leaves the sites, the sag channels and the rotation checks. -/
theorem afterMatch (h : JoinStarts slot count identity s) :
    Moves (only [.bus, .tracker, .harm, .store, .survey])
      (matchMember slot identity (joined slot identity (frameBegun s))).2 (beginFrame s) :=
  .trans (.post _ _) h.after

/-- What follows the match leaves a position that no loss has touched. -/
theorem kept (h : JoinStarts slot count identity s) {i j : Nat}
    (k : (harmMember (matchMember slot identity (joined slot identity (frameBegun s))).2 i j).lossDue = false) :
    PositionKept i j (matchMember slot identity (joined slot identity (frameBegun s))).2 (beginFrame s) := by
  have control : Moves (only [.bus]) (matchMember slot identity (joined slot identity (frameBegun s))).2
      (controlled s) := .trans (.post _ _) h.controlled_eq
  have same : PositionKept i j _ (controlled s) :=
    .of_same (control.sag_eq (by decide)) (control.harm_eq (by decide))
  exact same.trans (beginFrame_kept (by rw [same.2]; exact k))

theorem entry (h : JoinStarts slot count identity s) :
    entryOf (beginFrame s) slot = joinedEntry s.clock identity (entryOf s slot) := by
  rw [entryOf, h.roster]
  exact updateAt_getD_same _ _ _ _ h.inRoster

theorem entry_other (h : JoinStarts slot count identity s) {i : Nat} (hi : 1 ≤ i) (k : i ≠ slot) :
    entryOf (beginFrame s) i = entryOf s i := by
  have low := h.low
  rw [entryOf, h.roster]
  exact updateAt_getD_other _ _ _ _ _ (by omega)

theorem receive_slot (h : JoinStarts slot count identity s) : receiveOf (beginFrame s) slot = {} := by
  obtain ⟨⟨_, hl, _⟩, low, high, _⟩ := id h
  rw [receiveOf, h.receive]
  exact updateAt_getD_same _ _ _ _ (by omega)

theorem receive_other (h : JoinStarts slot count identity s) {i : Nat} (hi : 1 ≤ i) (k : i ≠ slot) :
    receiveOf (beginFrame s) i = receiveOf s i := by
  have low := h.low
  rw [receiveOf, h.receive]
  exact updateAt_getD_other _ _ _ _ _ (by omega)

theorem noJoin (h : JoinStarts slot count identity s) : (newFrame s).bus.join = none := by
  rw [newFrame_eq, joinAtFrame_onSent (j := ⟨slot, count, .onSent identity⟩)
    (by rw [frameBegun_bus]; exact h.join) rfl, setBus_bus, joinComplete_bus]

theorem lastProbed (h : JoinStarts slot count identity s) :
    (newFrame s).bus.lastProbed = s.bus.lastProbed := by
  rw [newFrame_eq, joinAtFrame_onSent (j := ⟨slot, count, .onSent identity⟩)
    (by rw [frameBegun_bus]; exact h.join) rfl, setBus_bus, joinComplete_bus, frameBegun_bus]

/-- R6: the next ABSENT slot, with the joined slot no longer among them. -/
theorem nextProbe_eq (h : JoinStarts slot count identity s) : nextProbe (newFrame s) =
    ((List.range 15).map fun i => (s.bus.lastProbed + i) % 15 + 1).find?
      fun i => i != slot && (entryOf s i).state == .absent := by
  have roster : (newFrame s).roster = (beginFrame s).roster := by
    rw [beginFrame_roster, controlled, (selectControl_onlyBus _).roster_eq (by decide)]
  rw [nextProbe, probeOrder, h.lastProbed]
  refine List.find?_congr fun i mem => ?_
  obtain ⟨n, _, rfl⟩ := List.mem_map.1 mem
  rw [entryOf_of_roster roster]
  by_cases same : (s.bus.lastProbed + n) % 15 + 1 = slot
  · rw [same, h.entry, bne_self_eq_false]
    rfl
  · rw [h.entry_other (Nat.le_add_left _ _) same, bne_iff_ne.2 same, Bool.true_and]

theorem member_eq (_ : JoinStarts slot count identity s) :
    (joined slot identity (frameBegun s)).sites = s.sites ∧
      (joined slot identity (frameBegun s)).sag = s.sag ∧
      (joined slot identity (frameBegun s)).harm = s.harm ∧
      (joined slot identity (frameBegun s)).rotation = s.rotation ∧
      (joined slot identity (frameBegun s)).clock = s.clock ∧
      (joined slot identity (frameBegun s)).link = s.link := by
  have begun := frameBegun_moves s
  have link : (frameBegun s).link = s.link := by
    unfold frameBegun ncoCarry
    dsimp only
    split <;> rfl
  exact ⟨begun.sites_eq (by decide), begun.sag_eq (by decide), begun.harm_eq (by decide),
    begun.rotation_eq (by decide), begun.clock_eq (by decide), link⟩

end JoinStarts

/-- Settles O19. -/
theorem joinTakesEffectAtTheFrame : Obligations.JoinTakesEffectAtTheFrame := by
  unfold Obligations.JoinTakesEffectAtTheFrame
  intro slot count identity s q settled shaped low high hj e same
  have h : JoinStarts slot count identity s := ⟨shaped, low, high, hj⟩
  obtain ⟨sites, sag, harm, rotation, clock, link⟩ := h.member_eq
  obtain ⟨_, _, _, unowed⟩ := id settled
  obtain ⟨ctrlEq, joinEq, probedEq⟩ := beginFrame_control s
  have poll := selectControl_poll h.noJoin
  let w := joined slot identity (frameBegun s)
  let u := (matchMember slot identity w).2
  have after := h.afterMatch
  have shapedW : Shaped w := h.joined_moves.shaped shaped
  have position : positionOf w = positionOf s := positionOf_of_sites sites
  have entry := h.entry
  have matched := matchMember_postsAtMost slot identity shapedW
  refine ⟨beginFrame s, exec_frameStart q settled, ?join, ?mask, ?control, ?entry, h.receive_slot,
    fun i hi _ k => ⟨h.entry_other hi k, h.receive_other hi k⟩, ?free, ?placed, ?told⟩
  case join =>
    rw [joinEq]
    exact selectControl_idle_join h.noJoin
  case mask =>
    obtain ⟨join, ctrl, probed, bus⟩ := controlled_bus s
    rw [beginFrame_bus, bus]
    refine List.mem_filter.2 ⟨List.mem_map.2 ⟨slot - 1, List.mem_range.2 (by omega), by omega⟩, ?_⟩
    rw [slotReady_iff, ← entryOf_of_roster (beginFrame_roster s), entry]
    exact ⟨low, high, rfl⟩
  case control =>
    rw [ctrlEq, probedEq, ← h.nextProbe_eq, ← h.lastProbed]
    exact poll
  case entry =>
    rw [entry]
    by_cases k : (entryOf s slot).identity.map (·.serial) = some identity.serial
    · simp only [joinedEntry, if_pos (beq_iff_eq.2 k), same, e, if_pos k]
      rfl
    · simp only [joinedEntry, if_neg (mt beq_iff_eq.1 k), same, e, if_neg k]
      rfl
  case free =>
    intro free
    have stays : u = w := congrArg Prod.snd (matchMember_free identity (by rw [position]; exact free))
    rw [after.sites_eq (by decide), after.rotation_eq (by decide), after.sag_eq (by decide)]
    change u.sites = _ ∧ u.rotation = _ ∧ u.sag = _
    rw [stays]
    exact ⟨sites, rotation, sag⟩
  case placed =>
    intro site role m hp hm
    obtain ⟨hs, hr⟩ := positionOf_lt hp
    obtain ⟨fits, unfit⟩ := matchMember_set identity shapedW (by rw [position]; exact hp)
      ((memberOf_of_sites sites site role).trans hm)
    have same_ : PositionKept site role s w := .of_same sag harm
    have sitesT : (beginFrame s).sites = u.sites := after.sites_eq (by decide)
    have rest : ∀ {m'}, PositionSet m' site role w u →
        (∀ i j, i < 4 → j < 8 → (i ≠ site ∨ j ≠ role) → memberOf (beginFrame s) i j = memberOf s i j) ∧
        RotationFollows site s (beginFrame s) ∧
        ∀ k, k ≠ site → rotationOf (beginFrame s) k = rotationOf s k := fun set_ =>
      ⟨fun i j _ _ away => (memberOf_of_sites sitesT i j).trans ((set_.member_other shapedW hs away).trans
          (memberOf_of_sites sites i j)),
        (set_.follows (rotationOf_of_rotation rotation site)
          ((PostsAtMost.of_link link).mono (Nat.zero_le _)) clock).after (P := anyPart)
          (Moves.trans (h.joined_moves.mono fun _ _ => trivial) (set_.moves.mono fun _ _ => trivial))
          (after.mono fun _ _ => trivial)
          (rotationOf_of_rotation (after.rotation_eq (by decide)) site) (siteOf_eq_of_sites sitesT site),
        fun k hk => (rotationOf_of_rotation (after.rotation_eq (by decide)) k).trans
          ((set_.rotation k hk).trans (rotationOf_of_rotation rotation k))⟩
    by_cases k : m.serial = identity.serial ∧ identity.kind = roleKind role
    · obtain ⟨set_, stays⟩ := fits k
      refine ⟨fun _ => ⟨(memberOf_of_sites sitesT _ _).trans (set_.member shapedW hs hr), fun noLoss => ?_⟩,
        fun k' => absurd k k', rest set_⟩
      have all := same_.trans stays
      exact all.trans (h.kept (by rw [all.2]; exact noLoss))
    · obtain ⟨set_, emptied⟩ := unfit k
      refine ⟨fun k' => absurd k' k, fun _ => ⟨(memberOf_of_sites sitesT _ _).trans
        (set_.member shapedW hs hr), (same_.emptied emptied).kept (h.kept ?_)⟩, rest set_⟩
      rw [emptied.2]
  case told =>
    intro mismatch sending masked room
    have sends : Sends w.link := ⟨by rw [link]; exact sending, by rw [link]; exact unowed⟩
    obtain ⟨appended, few⟩ := matched sends
    have sendsU := appended.sends sends
    have told := post_mem (b := joinNotice slot identity s) sendsU
      (by rw [appended.mask, link]; exact masked) (by rw [link] at few; omega)
    have clockU : u.clock = s.clock := ((matchMember_moves (P := only [.sites, .sag, .harm, .rotation]) slot
      identity w (by decide) (by decide) (by decide) (by decide)).clock_eq (by decide)).trans clock
    refine (h.after.appends ((post_appends _ sendsU).sends sendsU)).notices.subset ?_
    rw [told, clockU]
    exact List.mem_append_right _ (List.mem_singleton.2 rfl)

end Sys2Proof.Machine
end

