-- ==== Sys2Proof/Proofs/FrameEnds.lean ====
section
/-!
PROOFS. The end of a frame in the bus and the roster (R7 to R10, R14, R16, R18, R22): the words of the mask, the
answer to a PROBE and the join in progress, with O20 and O23.
-/

namespace Sys2Proof.Machine

/-! ### The words of the mask -/

/-- What the words of a mask do to a table: each slot named takes its word once. -/
theorem foldl_updateAt {α : Type} (d : α) (f : Nat → α → α) {mask : List Nat} (nodup : mask.Nodup)
    (low : ∀ i ∈ mask, 1 ≤ i) {slot : Nat} (hslot : 1 ≤ slot) (xs : List α) (h : slot - 1 < xs.length) :
    (mask.foldl (fun xs i => updateAt (f i) (i - 1) xs) xs).getD (slot - 1) d =
      if slot ∈ mask then f slot (xs.getD (slot - 1) d) else xs.getD (slot - 1) d := by
  induction mask generalizing xs with
  | nil => rfl
  | cons i mask ih =>
    obtain ⟨fresh, nodup⟩ := List.nodup_cons.1 nodup
    have hi := low i (List.mem_cons_self ..)
    rw [List.foldl_cons, ih nodup (fun k hk => low k (List.mem_cons_of_mem _ hk)) _
      (by rw [updateAt_length]; exact h)]
    by_cases same : slot = i
    · subst same
      rw [if_neg fresh, if_pos (List.mem_cons_self ..), updateAt_getD_same _ _ _ _ h]
    · rw [updateAt_getD_other _ _ _ _ _ (by omega)]
      simp only [List.mem_cons, same, false_or]

theorem takeWords_roster (frame : Nat) (words : List BusWord) (s : State) :
    (takeWords frame words s).roster =
      s.bus.mask.foldl (fun xs i => updateAt (countWord frame (upWord words i)) (i - 1) xs) s.roster := by
  have words_ : ∀ (mask : List Nat) (u : State), (mask.foldl (takeWord frame words) u).roster =
      mask.foldl (fun xs i => updateAt (countWord frame (upWord words i)) (i - 1) xs) u.roster := by
    intro mask
    induction mask with
    | nil => exact fun _ => rfl
    | cons i mask ih => exact fun u => ih _
  exact words_ _ s

theorem takeWords_receive (frame : Nat) (words : List BusWord) (s : State) :
    (takeWords frame words s).receive =
      s.bus.mask.foldl (fun xs i => updateAt (receiveWord frame (upWord words i)) (i - 1) xs) s.receive := by
  have words_ : ∀ (mask : List Nat) (u : State), (mask.foldl (takeWord frame words) u).receive =
      mask.foldl (fun xs i => updateAt (receiveWord frame (upWord words i)) (i - 1) xs) u.receive := by
    intro mask
    induction mask with
    | nil => exact fun _ => rfl
    | cons i mask ih => exact fun u => ih _
  exact words_ _ s

/-- A mask as every frame has it: each slot once. -/
structure MaskSound (mask : List Nat) : Prop where
  nodup : mask.Nodup
  slots : ∀ slot ∈ mask, 1 ≤ slot ∧ slot ≤ 15

section
variable {s : State} (frame : Nat) (words : List BusWord) (shaped : Shaped s) (mask : MaskSound s.bus.mask)
  {slot : Nat} (low : 1 ≤ slot) (high : slot ≤ 15)
include shaped mask low high

theorem entryOf_takeWords : entryOf (takeWords frame words s) slot =
    if slot ∈ s.bus.mask then countWord frame (upWord words slot) (entryOf s slot) else entryOf s slot := by
  obtain ⟨hl, _⟩ := shaped
  rw [entryOf, takeWords_roster]
  exact foldl_updateAt _ _ mask.nodup (fun i hi => (mask.slots i hi).1) low _ (by omega)

theorem receiveOf_takeWords : receiveOf (takeWords frame words s) slot =
    if slot ∈ s.bus.mask then receiveWord frame (upWord words slot) (receiveOf s slot)
    else receiveOf s slot := by
  obtain ⟨_, hl, _⟩ := shaped
  rw [receiveOf, takeWords_receive]
  exact foldl_updateAt _ _ mask.nodup (fun i hi => (mask.slots i hi).1) low _ (by omega)

end

theorem takeWords_bus (frame : Nat) (words : List BusWord) (s : State) :
    (takeWords frame words s).bus = s.bus :=
  (takeWords_moves (P := only [.roster, .receive]) _ _ _ (by decide) (by decide)).bus_eq (by decide)

theorem takeWords_link (frame : Nat) (words : List BusWord) (s : State) :
    (takeWords frame words s).link = s.link := by
  have words_ : ∀ (mask : List Nat) (u : State), (mask.foldl (takeWord frame words) u).link = u.link := by
    intro mask
    induction mask with
    | nil => exact fun _ => rfl
    | cons i mask ih => exact fun u => ih _
  exact words_ _ s

theorem isOverrange_iff (c : Int) (ovr : Bool) :
    isOverrange c ovr = true ↔ c = -32768 ∨ c = 32767 ∨ ovr = true := by
  simp [isOverrange, or_assoc]

/-! ### The join in progress -/

/-- What the end of a frame makes of the join `j`, whatever the other slots' words are: it touches the entry of
its slot in its state and its cause alone. -/
def JoinStep (j : Join) (g : State → State) : Prop :=
  ∃ (f : RosterEntry → RosterEntry) (join : Option Join),
    (∀ e, ∃ state cause, f e = { e with state := state, cause := cause }) ∧
    (∀ k, join = some k → k.slot = j.slot) ∧
    ∀ t : State, t.bus.join = some j → (g t).roster = updateAt f (j.slot - 1) t.roster ∧
      (g t).bus = { t.bus with join := join }

theorem updateAt_id {α : Type} (n : Nat) (xs : List α) : updateAt (fun x => x) n xs = xs := by
  induction xs generalizing n with
  | nil => cases n <;> rfl
  | cons x xs ih =>
    cases n with
    | zero => rfl
    | succ n => exact congrArg (x :: ·) (ih n)

namespace JoinStep

variable {j : Join}

theorem refl : JoinStep j fun t => t :=
  ⟨fun e => e, some j, fun e => ⟨e.state, e.cause, rfl⟩, fun k h => by cases h; rfl, fun t ht =>
    ⟨(updateAt_id _ _).symm, by rw [← ht]⟩⟩

theorem set {j' : Join} (h : j'.slot = j.slot) : JoinStep j (setJoin (some j')) :=
  ⟨fun e => e, some j', fun e => ⟨e.state, e.cause, rfl⟩, fun k hk => by cases hk; exact h, fun _ _ =>
    ⟨(updateAt_id _ _).symm, rfl⟩⟩

theorem failed : JoinStep j (readFailed j) := by
  unfold readFailed
  by_cases again : j.readCount < 4
  · simp only [again, if_true]
    exact set rfl
  · simp only [again, if_false]
    exact set rfl

theorem complete (buffer : List Byte) : JoinStep j (readComplete j buffer) := by
  unfold readComplete
  by_cases crc : identityCrcOk buffer = true
  · simp only [crc, Bool.not_true, Bool.false_eq_true, if_false]
    cases identityOf buffer with
    | some identity => exact set rfl
    | none => exact set rfl
  · simp only [crc, Bool.not_false, if_true]
    exact failed

theorem word (frame : Nat) (buffer : List Byte) (w : BusWord) : JoinStep j (identityWord frame j buffer w) := by
  unfold identityWord
  by_cases good : goodWord frame w = true
  · simp only [good, if_true]
    split
    · exact set rfl
    · exact complete _
  · simp only [good, Bool.false_eq_true, if_false]
    split
    · exact failed
    · exact ⟨fun e => { e with state := .absent }, none, fun e => ⟨_, e.cause, rfl⟩, fun k h => (nomatch h),
        fun _ _ => ⟨rfl, rfl⟩⟩

theorem fault (cause : FaultCause) (serial : Option Nat) : JoinStep j (joinFault j cause serial) :=
  ⟨fun e => { e with state := .fault, cause := some cause }, none, fun e => ⟨_, _, rfl⟩,
    fun k h => (nomatch h), fun t _ => by
      unfold joinFault
      rw [post_bus, post_roster]
      exact ⟨rfl, rfl⟩⟩

theorem frame (n : Nat) (words : List BusWord) (j : Join) : JoinStep j (joinFrame n words) := by
  have step : ∀ g : State → State, (∀ t : State, t.bus.join = some j → joinFrame n words t = g t) → JoinStep j g →
      JoinStep j (joinFrame n words) := by
    rintro g same ⟨f, join, entry, slot, acts⟩
    exact ⟨f, join, entry, slot, fun t ht => by rw [same t ht]; exact acts t ht⟩
  cases hstage : j.stage with
  | readSent =>
    exact step (setJoin (some { j with stage := .words [] }))
      (fun t ht => by simp only [joinFrame, ht, hstage]) (set rfl)
  | words buffer =>
    exact step (fun t => identityWord n j buffer (upWord words j.slot) t)
      (fun t ht => by simp only [joinFrame, ht, hstage]) (word _ _ _)
  | offSent cause serial =>
    exact step (joinFault j cause serial) (fun t ht => by simp only [joinFrame, ht, hstage]) (fault _ _)
  | readNext => exact step _ (fun t ht => by simp only [joinFrame, ht, hstage]) refl
  | onNext identity => exact step _ (fun t ht => by simp only [joinFrame, ht, hstage]) refl
  | onSent identity => exact step _ (fun t ht => by simp only [joinFrame, ht, hstage]) refl
  | offNext cause serial => exact step _ (fun t ht => by simp only [joinFrame, ht, hstage]) refl

end JoinStep

theorem joinFrame_none {frame : Nat} {words : List BusWord} {s : State} (h : s.bus.join = none) :
    joinFrame frame words s = s := by
  unfold joinFrame
  rw [h]

/-! ### The end of a frame that owes nothing -/

/-- The state of the bus and the roster after the words of a frame. -/
def wordsTaken (words : List BusWord) (s : State) : State :=
  joinFrame s.bus.frame words (probeAnswer s.bus.frame words (takeWords s.bus.frame words s))

theorem wordsTaken_moves (words : List BusWord) (s : State) :
    Moves (only [.bus, .roster, .receive]) s (wordsTaken words s) :=
  .trans (.trans (takeWords_moves _ _ _ (by decide) (by decide)) (probeAnswer_moves _ _ _ (by decide) (by decide)))
    (joinFrame_moves _ _ _ (by decide) (by decide))

/-- A frame's end, of a frame that owes nothing of its boundary. -/
def frameEnded (words : List BusWord) (s : State) : State :=
  setBus (fun b => { b with inFrame := false })
    (deliver s.bus.frame (frameSamples s.bus.frame words s) (wordsTaken words s))

theorem exec_frameEnd (words : List BusWord) {s : State} (q : Quiet s) (h : s.bus.inFrame = true)
    (worked : boundaryWork s = s) : exec (.frameEnd words) s = .next (frameEnded words s) := by
  have ended : frameEnd words s = frameEnded words s := by
    rw [frameEnd, if_pos h, worked]
    rfl
  rw [← ended]
  exact (congrFun (exec_event rfl) s).trans (event_of_moves (frameEnd_moves (P := anyPart) words s trivial trivial
    trivial trivial trivial trivial trivial trivial trivial trivial trivial) q)

/-- What the samples of a frame leave of the bus and the roster. -/
theorem frameEnded_moves (words : List BusWord) (s : State) :
    Moves (only [.tracker, .rotation, .sag, .capture, .harm, .bus]) (wordsTaken words s) (frameEnded words s) :=
  .trans (deliver_moves _ _ _ (by decide) (by decide) (by decide) (by decide) (by decide))
    (setBus_moves _ _ (by decide))

theorem frameEnded_bus (words : List BusWord) (s : State) :
    (frameEnded words s).bus = { (wordsTaken words s).bus with inFrame := false } := by
  rw [frameEnded, setBus_bus, (deliver_moves (P := only [.tracker, .rotation, .sag, .capture, .harm]) _ _ _
    (by decide) (by decide) (by decide) (by decide) (by decide)).bus_eq (by decide)]

theorem frameEnded_entry (words : List BusWord) (s : State) (slot : Nat) :
    entryOf (frameEnded words s) slot = entryOf (wordsTaken words s) slot :=
  entryOf_of_roster ((frameEnded_moves words s).roster_eq (by decide)) slot

theorem frameEnded_receive (words : List BusWord) (s : State) (slot : Nat) :
    receiveOf (frameEnded words s) slot = receiveOf (takeWords s.bus.frame words s) slot := by
  have join := joinFrame_moves (P := only [.bus, .roster]) s.bus.frame words
    (probeAnswer s.bus.frame words (takeWords s.bus.frame words s)) (by decide) (by decide)
  have probe := probeAnswer_moves (P := only [.bus, .roster]) s.bus.frame words
    (takeWords s.bus.frame words s) (by decide) (by decide)
  rw [receiveOf, (frameEnded_moves words s).receive_eq (by decide), wordsTaken, join.receive_eq (by decide),
    probe.receive_eq (by decide)]
  rfl

theorem frameEnded_rest (words : List BusWord) (s : State) :
    let t := frameEnded words s
    t.clock = s.clock ∧ t.sites = s.sites ∧ t.survey = s.survey ∧ t.store = s.store ∧
      t.print = s.print ∧ t.supply = s.supply ∧ t.pending = s.pending := by
  have taken := wordsTaken_moves words s
  have ended := frameEnded_moves words s
  exact ⟨(ended.clock_eq (by decide)).trans (taken.clock_eq (by decide)),
    (ended.sites_eq (by decide)).trans (taken.sites_eq (by decide)),
    (ended.survey_eq (by decide)).trans (taken.survey_eq (by decide)),
    (ended.store_eq (by decide)).trans (taken.store_eq (by decide)),
    (ended.print_eq (by decide)).trans (taken.print_eq (by decide)),
    (ended.supply_eq (by decide)).trans (taken.supply_eq (by decide)),
    ended.pending_eq.trans taken.pending_eq⟩

theorem probeAnswer_join {frame : Nat} {words : List BusWord} {s : State}
    (h : s.bus.join.isSome = true) : probeAnswer frame words s = s := by
  cases hj : s.bus.join with
  | none => rw [hj] at h; cases h
  | some j => exact if_neg (by simp [hj])

/-- A frame's end in which a join is in progress. -/
theorem wordsTaken_join {words : List BusWord} {s : State} (h : s.bus.join.isSome = true) :
    wordsTaken words s = joinFrame s.bus.frame words (takeWords s.bus.frame words s) := by
  rw [wordsTaken, probeAnswer_join (by rw [takeWords_bus]; exact h)]

/-! ### O23 -/

theorem joinFrame_readSent {frame : Nat} {words : List BusWord} {s : State} {slot count : Nat}
    (h : s.bus.join = some ⟨slot, count, .readSent⟩) :
    joinFrame frame words s = setJoin (some ⟨slot, count, .words []⟩) s := by
  simp only [joinFrame, h]

theorem joinFrame_words {frame : Nat} {words : List BusWord} {s : State} {slot count : Nat} {buffer : List Byte}
    (h : s.bus.join = some ⟨slot, count, .words buffer⟩) :
    joinFrame frame words s = identityWord frame ⟨slot, count, .words buffer⟩ buffer (upWord words slot) s := by
  simp only [joinFrame, h]

theorem joinFrame_offSent {frame : Nat} {words : List BusWord} {s : State} {slot count : Nat}
    {cause : FaultCause} {serial : Option Nat} (h : s.bus.join = some ⟨slot, count, .offSent cause serial⟩) :
    joinFrame frame words s = joinFault ⟨slot, count, .offSent cause serial⟩ cause serial s := by
  simp only [joinFrame, h]

theorem identityBytes (w : BusWord) : [(upField w).extractLsb' 0 8, (upField w).extractLsb' 8 8] =
    [w.extractLsb' 8 8, w.extractLsb' 16 8] := by
  have cut : ∀ i : Nat, i + 8 ≤ 16 → (upField w).extractLsb' i 8 = w.extractLsb' (8 + i) 8 := by
    intro i hi
    ext k hk
    simp only [upField, BitVec.getElem_extractLsb', BitVec.getLsbD_extractLsb']
    rw [decide_eq_true (by omega : i + k < 16), Bool.true_and, Nat.add_assoc]
  rw [cut 0 (by omega), cut 8 (by omega)]

theorem identityWord_good {frame : Nat} {w : BusWord} (good : goodWord frame w = true) (j : Join)
    (buffer : List Byte) (s : State) :
    let buffer' := buffer ++ [w.extractLsb' 8 8, w.extractLsb' 16 8]
    identityWord frame j buffer w s =
      if buffer'.length < 24 then setJoin (some { j with stage := .words buffer' }) s
      else readComplete j buffer' s := by
  rw [← identityBytes]
  exact if_pos good

theorem identityWord_bad {frame : Nat} {w : BusWord} (bad : goodWord frame w = false) (j : Join)
    (buffer : List Byte) (s : State) :
    identityWord frame j buffer w s =
      if w.getLsbD 6 then readFailed j s
      else setJoin none (modifyEntry (fun e => { e with state := .absent }) j.slot s) :=
  if_neg (by rw [bad]; decide)

theorem readComplete_bad {buffer : List Byte} (h : crc16 (buffer.take 22) ≠ field buffer 22 2) (j : Join)
    (s : State) : readComplete j buffer s = readFailed j s := by
  have crc : identityCrcOk buffer = false := beq_eq_false_iff_ne.2 h
  unfold readComplete
  rw [crc]
  rfl

theorem readComplete_good {buffer : List Byte} (h : crc16 (buffer.take 22) = field buffer 22 2) (j : Join)
    (s : State) : readComplete j buffer s = match identityOf buffer with
      | some identity => setJoin (some { j with stage := .onNext identity }) s
      | none => setJoin (some { j with stage := .offNext .idRange (some (field buffer 0 4)) }) s := by
  have crc : identityCrcOk buffer = true := beq_iff_eq.2 h
  unfold readComplete
  rw [crc]
  cases identityOf buffer <;> rfl

/-- Settles O23. -/
theorem joinFollowsTheIdentityWords : Obligations.JoinFollowsTheIdentityWords := by
  unfold Obligations.JoinFollowsTheIdentityWords
  intro frame slot count words s low high at_ w failed
  refine ⟨fun h => joinFrame_readSent h, fun bytes h => ?words, fun cause serial h => joinFrame_offSent h,
    fun stage q shaped inFrame hframe worked nodup slots away h => ?ends⟩
  case words =>
    have goes := joinFrame_words (frame := frame) (words := words) h
    refine ⟨fun good => ?_, fun bad present => ?_, fun bad absent => ?_⟩
    · have reads := goes.trans (identityWord_good good _ bytes s)
      refine ⟨fun few => reads.trans (if_pos few), fun all crc => ?_, fun all crc => ?_⟩
      · exact reads.trans ((if_neg (Nat.not_lt.2 all)).trans (readComplete_bad crc _ s))
      · refine reads.trans ((if_neg (Nat.not_lt.2 all)).trans ((readComplete_good crc _ s).trans ?_))
        cases identityOf (bytes ++ [w.extractLsb' 8 8, w.extractLsb' 16 8]) <;> rfl
    · exact goes.trans ((identityWord_bad bad _ bytes s).trans (if_pos present))
    · exact goes.trans ((identityWord_bad bad _ bytes s).trans (if_neg (Bool.eq_false_iff.1 absent)))
  case ends =>
    intro own
    subst hframe
    have mask : MaskSound s.bus.mask := ⟨nodup, slots⟩
    obtain ⟨f, join, _, _, acts⟩ := JoinStep.frame s.bus.frame words ⟨slot, count, stage⟩
    obtain ⟨rosterOwn, busOwn⟩ := acts s h
    obtain ⟨rosterNow, busNow⟩ := acts (takeWords s.bus.frame words s) (by rw [takeWords_bus]; exact h)
    have taken : wordsTaken words s = joinFrame s.bus.frame words (takeWords s.bus.frame words s) :=
      wordsTaken_join (by rw [h]; rfl)
    have entries : ∀ i, 1 ≤ i → i ≤ 15 → i ∉ s.bus.mask →
        entryOf (takeWords s.bus.frame words s) i = entryOf s i := fun i h1 h2 out => by
      rw [entryOf_takeWords _ _ shaped mask h1 h2, if_neg out]
    have lengths : slot - 1 < s.roster.length ∧ slot - 1 < (takeWords s.bus.frame words s).roster.length := by
      have shaped' := (takeWords_moves (P := anyPart) s.bus.frame words s trivial trivial).shaped shaped
      obtain ⟨hl, _⟩ := shaped
      obtain ⟨hl', _⟩ := shaped'
      omega
    refine ⟨frameEnded words s, exec_frameEnd words q inFrame worked, ?_, ?_, ?_, fun i h1 h2 out k => ⟨?_, ?_⟩,
      fun cause serial hs owed sending masked room => ?_, frameEnded_rest words s⟩
    · rw [frameEnded_bus, taken, busNow, takeWords_bus, show own.bus = _ from busOwn]
    · rw [frameEnded_entry, taken, entryOf, rosterNow, updateAt_getD_same _ _ _ _ lengths.2, entryOf,
        show own.roster = _ from rosterOwn, updateAt_getD_same _ _ _ _ lengths.1]
      exact congrArg f (entries slot low high away)
    · rw [frameEnded_receive, receiveOf_takeWords _ _ shaped mask low high, if_neg away]
    · rw [frameEnded_entry, taken, entryOf, rosterNow, updateAt_getD_other _ _ _ _ _ (by
        change i - 1 ≠ slot - 1
        omega)]
      exact entries i h1 h2 out
    · rw [frameEnded_receive, receiveOf_takeWords _ _ shaped mask h1 h2, if_neg out]
    · subst hs
      have taken_ := takeWords_moves (P := only [.roster, .receive]) s.bus.frame words s (by decide) (by decide)
      have link := takeWords_link s.bus.frame words s
      have sends : Sends (takeWords s.bus.frame words s).link := by
        rw [link]
        exact ⟨sending, owed⟩
      let u : State := setJoin none (modifyEntry (fun e => { e with state := .fault, cause := some cause }) slot
        (takeWords s.bus.frame words s))
      have faulted : wordsTaken words s = post (.podFault slot cause serial) u :=
        taken.trans (joinFrame_offSent (by rw [takeWords_bus]; exact h))
      have told := post_mem (b := .podFault slot cause serial) (s := u) sends
        (by change (takeWords s.bus.frame words s).link.mask.getLsbD 2 = true; rw [link]; exact masked)
        (by change (takeWords s.bus.frame words s).link.notices.length < 32; rw [link]; exact room)
      have clock : u.clock = s.clock := taken_.clock_eq (by decide)
      have notices : u.link.notices = s.link.notices := congrArg Link.notices link
      have kept := (frameEnded_moves words s).appends (by
        rw [faulted]
        exact (post_appends (s := u) _ sends).sends sends)
      rw [faulted] at kept
      have all := kept.notices
      rwa [told, clock, notices] at all

/-! ### O20 -/

/-- An entry whose state and cause alone may have changed. -/
def SameCounts (e e' : RosterEntry) : Prop := ∃ state cause, e' = { e with state := state, cause := cause }

theorem SameCounts.refl (e : RosterEntry) : SameCounts e e := ⟨e.state, e.cause, rfl⟩

theorem SameCounts.trans {e e' e'' : RosterEntry} (h : SameCounts e e') (k : SameCounts e' e'') :
    SameCounts e e'' := by
  obtain ⟨_, _, rfl⟩ := h
  obtain ⟨state, cause, rfl⟩ := k
  exact ⟨state, cause, rfl⟩

theorem SameCounts.updateAt {f : RosterEntry → RosterEntry} (h : ∀ e, SameCounts e (f e)) (n m : Nat)
    (xs : List RosterEntry) : SameCounts (xs.getD m {}) ((Sys2Proof.updateAt f n xs).getD m {}) := by
  by_cases same : m = n
  · subst same
    by_cases inside : m < xs.length
    · rw [updateAt_getD_same _ _ _ _ inside]
      exact h _
    · have beyond := Nat.not_lt.1 inside
      rw [List.getD_eq_default xs _ beyond,
        List.getD_eq_default (Sys2Proof.updateAt f m xs) _ (by rw [updateAt_length]; exact beyond)]
      exact .refl _
  · rw [updateAt_getD_other _ _ _ _ _ same]
    exact .refl _

theorem joinFrame_sameCounts (frame : Nat) (words : List BusWord) (s : State) (slot : Nat) :
    SameCounts (entryOf s slot) (entryOf (joinFrame frame words s) slot) := by
  cases hj : s.bus.join with
  | none =>
    rw [joinFrame_none hj]
    exact .refl _
  | some j =>
    obtain ⟨f, _, entry, _, acts⟩ := JoinStep.frame frame words j
    obtain ⟨roster, _⟩ := acts s hj
    simp only [entryOf, roster]
    exact .updateAt entry _ _ _

theorem probeAnswer_sameCounts (frame : Nat) (words : List BusWord) (s : State) (slot : Nat) :
    SameCounts (entryOf s slot) (entryOf (probeAnswer frame words s) slot) := by
  unfold probeAnswer
  dsimp only
  split
  · exact .updateAt (fun e => ⟨.joining, e.cause, rfl⟩) _ _ s.roster
  · exact .refl _

theorem wordsTaken_sameCounts (words : List BusWord) (s : State) (slot : Nat) :
    SameCounts (entryOf (takeWords s.bus.frame words s) slot) (entryOf (wordsTaken words s) slot) :=
  (probeAnswer_sameCounts _ _ _ slot).trans (joinFrame_sameCounts _ _ _ slot)

theorem countWord_good {frame : Nat} {w : BusWord} (good : goodWord frame w = true) (e : RosterEntry) :
    countWord frame w e =
      if (upField w).toInt = -32768 ∨ (upField w).toInt = 32767 ∨ upOvr w = true then
        { e with overrangeSeen := true, overrangeCount := satInc 4294967295 e.overrangeCount }
      else e :=
  (if_pos good).trans (if_congr (isOverrange_iff _ _) rfl rfl)

theorem countWord_bad {frame : Nat} {w : BusWord} (bad : goodWord frame w = false) (e : RosterEntry) :
    countWord frame w e =
      { e with dropoutSeen := true, dropoutCount := satInc 4294967295 e.dropoutCount } :=
  if_neg (by rw [bad]; decide)

theorem receiveWord_good {frame : Nat} {w : BusWord} (good : goodWord frame w = true) (r : Receive) :
    receiveWord frame w r =
      { lastGood := some (upField w).toInt, dropouts := 0
        run := if r.lastGood = some (upField w).toInt then satInc 1024 r.run else 1 } :=
  if_pos good

theorem receiveWord_bad {frame : Nat} {w : BusWord} (bad : goodWord frame w = false) (r : Receive) :
    receiveWord frame w r = { r with dropouts := satInc 8 r.dropouts } :=
  if_neg (by rw [bad]; decide)

/-- A good answer to the PROBE of the frame before starts a join. -/
theorem probeAnswer_starts {frame : Nat} {words : List BusWord} {s : State} {slot : Nat}
    (h : s.bus.prevCtrl = ⟨slot, .probe⟩) (absent : (entryOf s slot).state = .absent) (low : 1 ≤ slot)
    (high : slot ≤ 15) (free : s.bus.join = none) (good : goodWord frame (words.getD (slot - 1) 0) = true) :
    probeAnswer frame words s =
      setJoin (some ⟨slot, 0, .readNext⟩) (modifyEntry (fun e => { e with state := .joining }) slot s) := by
  unfold probeAnswer
  rw [h]
  exact if_pos (by rw [upWord, good]; simp [isSlot, absent, low, high, free])

theorem probeAnswer_ignored {frame : Nat} {words : List BusWord} {s : State}
    (h : s.bus.prevCtrl.op ≠ .probe ∨
      goodWord frame (words.getD (s.bus.prevCtrl.target - 1) 0) = false) :
    probeAnswer frame words s = s := by
  refine if_neg fun k => ?_
  simp only [Bool.and_eq_true, beq_iff_eq] at k
  obtain ⟨⟨⟨⟨probe, _⟩, _⟩, _⟩, good⟩ := k
  rcases h with h | h
  · exact h probe
  · rw [upWord, h] at good
    cases good

/-- Settles O20. -/
theorem frameEndTakesTheWords : Obligations.FrameEndTakesTheWords := by
  unfold Obligations.FrameEndTakesTheWords
  intro words s q shaped inFrame worked nodup slots
  have mask : MaskSound s.bus.mask := ⟨nodup, slots⟩
  have runs := exec_frameEnd words q inFrame worked
  have taken : (takeWords s.bus.frame words s).bus = s.bus := takeWords_bus _ _ _
  refine ⟨fun free noProbe => ?quiet, fun probe low high out absent => ?probe, ?counts⟩
  case quiet =>
    have only_ : wordsTaken words s = takeWords s.bus.frame words s := by
      have ignored := probeAnswer_ignored (frame := s.bus.frame) (words := words)
        (s := takeWords s.bus.frame words s) (.inl (by rw [taken]; exact noProbe))
      rw [wordsTaken, ignored, joinFrame_none (by rw [taken]; exact free)]
    have entry : ∀ slot, 1 ≤ slot → slot ≤ 15 → entryOf (frameEnded words s) slot =
        if slot ∈ s.bus.mask then countWord s.bus.frame (upWord words slot) (entryOf s slot)
        else entryOf s slot := fun slot h1 h2 => by
      rw [frameEnded_entry, only_, entryOf_takeWords _ _ shaped mask h1 h2]
    have receive : ∀ slot, 1 ≤ slot → slot ≤ 15 → receiveOf (frameEnded words s) slot =
        if slot ∈ s.bus.mask then receiveWord s.bus.frame (upWord words slot) (receiveOf s slot)
        else receiveOf s slot := fun slot h1 h2 => by
      rw [frameEnded_receive, receiveOf_takeWords _ _ shaped mask h1 h2]
    refine ⟨frameEnded words s, runs, by rw [frameEnded_bus, only_, taken], fun slot h1 h2 out => ?_,
      fun slot mem => ?_, frameEnded_rest words s⟩
    · rw [entry slot h1 h2, receive slot h1 h2, if_neg out, if_neg out]
      exact ⟨rfl, rfl⟩
    · obtain ⟨h1, h2⟩ := slots slot mem
      rw [entry slot h1 h2, receive slot h1 h2, if_pos mem, if_pos mem]
      exact ⟨fun good => ⟨receiveWord_good good _, countWord_good good _⟩,
        fun bad => ⟨receiveWord_bad bad _, countWord_bad bad _⟩⟩
  case probe =>
    have entry : entryOf (takeWords s.bus.frame words s) s.bus.prevCtrl.target =
        entryOf s s.bus.prevCtrl.target := by
      rw [entryOf_takeWords _ _ shaped mask low high, if_neg out]
    have length : s.bus.prevCtrl.target - 1 < (takeWords s.bus.frame words s).roster.length := by
      obtain ⟨hl, _⟩ := (takeWords_moves (P := anyPart) s.bus.frame words s trivial trivial).shaped shaped
      omega
    refine ⟨frameEnded words s, runs, fun free good => ?_, fun free bad => ?_, fun j hj _ away => ?_⟩
    · have started := probeAnswer_starts (frame := s.bus.frame) (words := words)
        (s := takeWords s.bus.frame words s) (slot := s.bus.prevCtrl.target)
        (by rw [taken, ← probe]) (by rw [entry]; exact absent) low high (by rw [taken]; exact free) good
      have idle := joinFrame_none (frame := s.bus.frame) (words := words) (s := s)
      have joins : wordsTaken words s = setJoin (some ⟨s.bus.prevCtrl.target, 0, .readNext⟩)
          (modifyEntry (fun e => { e with state := .joining }) s.bus.prevCtrl.target
            (takeWords s.bus.frame words s)) := by
        rw [wordsTaken, started]
        rfl
      refine ⟨?_, ?_⟩
      · rw [frameEnded_bus, joins]
        change { (takeWords s.bus.frame words s).bus with
          join := some ⟨s.bus.prevCtrl.target, 0, .readNext⟩, inFrame := false } = _
        rw [taken]
      · rw [frameEnded_entry, joins, ← entry]
        exact entryOf_modifyEntry _ _ _ length
    · have ignored := probeAnswer_ignored (frame := s.bus.frame) (words := words)
        (s := takeWords s.bus.frame words s) (.inr (by rw [taken]; exact bad))
      have only_ : wordsTaken words s = takeWords s.bus.frame words s := by
        rw [wordsTaken, ignored, joinFrame_none (by rw [taken]; exact free)]
      rw [frameEnded_bus, frameEnded_entry, only_, taken, entry]
      exact ⟨rfl, rfl⟩
    · obtain ⟨f, join, _, same, acts⟩ := JoinStep.frame s.bus.frame words j
      obtain ⟨roster, bus⟩ := acts (takeWords s.bus.frame words s) (by rw [taken]; exact hj)
      have joins := wordsTaken_join (words := words) (s := s) (by rw [hj]; rfl)
      refine ⟨?_, fun k hk => same k ?_⟩
      · rw [frameEnded_entry, joins, entryOf, roster, updateAt_getD_other _ _ _ _ _ (by omega)]
        exact entry
      · rw [frameEnded_bus, joins, bus] at hk
        exact hk
  case counts =>
    refine ⟨frameEnded words s, runs, fun slot h1 h2 => ?_⟩
    obtain ⟨state, cause, entry⟩ := wordsTaken_sameCounts words s slot
    rw [entryOf_takeWords _ _ shaped mask h1 h2] at entry
    dsimp only
    rw [frameEnded_entry, frameEnded_receive, receiveOf_takeWords _ _ shaped mask h1 h2, entry]
    by_cases mem : slot ∈ s.bus.mask
    · rw [if_pos mem, if_pos mem]
      by_cases good : goodWord s.bus.frame (upWord words slot) = true
      · have counted := countWord_good good (entryOf s slot)
        have rest : ∀ {p : Prop}, slot ∈ s.bus.mask → goodWord s.bus.frame (upWord words slot) = false → p :=
          fun _ bad => absurd good (Bool.eq_false_iff.1 bad)
        rw [receiveWord_good good]
        by_cases beyond : (upField (upWord words slot)).toInt = -32768 ∨
            (upField (upWord words slot)).toInt = 32767 ∨ upOvr (upWord words slot) = true
        · rw [counted, if_pos beyond]
          exact ⟨rfl, rfl, fun out => absurd mem out,
            fun _ _ => ⟨rfl, (if_pos beyond).symm, (if_pos beyond).symm, rfl, rfl⟩, rest⟩
        · rw [counted, if_neg beyond]
          exact ⟨rfl, rfl, fun out => absurd mem out,
            fun _ _ => ⟨rfl, (if_neg beyond).symm, (if_neg beyond).symm, rfl, rfl⟩, rest⟩
      · have bad := Bool.eq_false_iff.2 good
        rw [countWord_bad bad, receiveWord_bad bad]
        exact ⟨rfl, rfl, fun out => absurd mem out, fun _ good' => absurd good' good,
          fun _ _ => ⟨rfl, rfl, rfl, rfl, rfl⟩⟩
    · rw [if_neg mem, if_neg mem]
      exact ⟨rfl, rfl, fun _ => ⟨rfl, rfl, rfl, rfl, rfl⟩, fun mem' => absurd mem' mem,
        fun mem' => absurd mem' mem⟩

end Sys2Proof.Machine
end

