-- ==== Sys2Proof/Proofs/Samples.lean ====
section
/-!
PROOFS. Where the corrected samples of a frame go (O21): the tracker's detector (R26, R29, R30, R33), the rotation
checks (R38, R39), the sag windows (R59), the rings (R82), the capture slots (R87) and the harmonic windows
(R97, R100).
-/

namespace Sys2Proof.Machine

/-! ### Samples and tables -/

theorem sampleOf_frameSamples (frame : Nat) (words : List BusWord) (s : State) (slot : Nat) :
    sampleOf (frameSamples frame words s) slot =
      if slot ∈ s.bus.mask then
        some (correctedSample frame (entryOf s slot) (receiveOf s slot) (words.getD (slot - 1) 0))
      else none := by
  unfold sampleOf frameSamples
  generalize s.bus.mask = mask
  induction mask with
  | nil => rfl
  | cons i mask ih =>
    rw [List.map_cons, List.find?_cons]
    by_cases same : i = slot
    · subst same
      rw [if_pos (List.mem_cons_self ..)]
      simp only [beq_self_eq_true]
      rfl
    · simp only [beq_eq_false_iff_ne.2 same]
      rw [ih]
      exact if_congr (by simp only [List.mem_cons, Ne.symm same, false_or]) rfl rfl

theorem getD_map_zip {α β γ : Type} (f : α × β → γ) (xs : List α) (ys : List β) (a : α) (b : β) (c : γ) {i : Nat}
    (hx : i < xs.length) (hy : i < ys.length) :
    ((xs.zip ys).map f).getD i c = f (xs.getD i a, ys.getD i b) := by
  rw [List.getD_eq_getElem _ _ (by simpa using ⟨hx, hy⟩), List.getElem_map, List.getElem_zip,
    List.getD_eq_getElem _ _ hx, List.getD_eq_getElem _ _ hy]

/-! ### The sag windows -/

theorem channelOf_sagFrame {s : State} (samples : List (Nat × Sample)) {site role : Nat} (h : Shaped s)
    (hs : site < 4) (hr : role < 3) : channelOf (sagFrame samples s) site role =
      (channelOf s site role).feed samples (memberOf s site role) := by
  have sites : sagSite (sagFrame samples s) site = { sagSite s site with
      channels := ((sagSite s site).channels.zip (siteOf s site).members).map fun y =>
        y.1.feed samples y.2 } := by
    change ((s.sag.sites.zip s.sites).map _).getD site ({} : SagSite) = _
    rw [getD_map_zip _ _ _ ({} : SagSite) ({} : Site) _ (by rw [h.sag_length]; exact hs)
      (by rw [h.sites_length]; exact hs)]
    rfl
  rw [channelOf, sites]
  exact getD_map_zip _ _ _ _ _ _ (by rw [h.channels_length hs]; exact hr)
    (by rw [h.members_length hs]; omega)

theorem Channel.feed_active {samples : List (Nat × Sample)} {m : Member} {x : Sample} (c : Channel)
    (active : m.active = true) (h : sampleOf samples m.slot = some x) :
    c.feed samples (some m) = { c with window := (x :: c.window).take 128 } := by
  simp only [Channel.feed, active, h]
  rfl

theorem Channel.feed_inactive (samples : List (Nat × Sample)) {m : Option Member} (c : Channel)
    (h : ∀ p, m = some p → p.active = false) : c.feed samples m = c := by
  cases m with
  | none => rfl
  | some p => simp only [Channel.feed, h p rfl]

/-! ### The rings -/

theorem Shaped.rings_length {s : State} (h : Shaped s) : s.capture.rings.length = 4 := by
  obtain ⟨_, _, _, _, _, ⟨hl, _⟩, _⟩ := h
  exact hl

theorem ringFrame_ring {s : State} (frame : Nat) (samples : List (Nat × Sample)) {site : Nat} (h : Shaped s)
    (hs : site < 4) : (ringFrame frame samples s).capture.rings.getD site {} =
      (s.capture.rings.getD site {}).enter frame s.bus.frameTime
        ((siteOf s site).members.map (positionSample samples)) := by
  change ((s.capture.rings.zip s.sites).map _).getD site ({} : Ring) = _
  rw [getD_map_zip _ _ _ ({} : Ring) ({} : Site) _ (by rw [h.rings_length]; exact hs)
    (by rw [h.sites_length]; exact hs)]
  rfl

theorem Ring.enter_row {s : State} (frame : Nat) (time : ClockTime) (samples : List (Nat × Sample)) {site role : Nat}
    (h : Shaped s) (hs : site < 4) (hr : role < 8) (r : Ring) :
    let r' := r.enter frame time ((siteOf s site).members.map (positionSample samples))
    r'.newest = frame ∧
      (r'.frames.headD [])[role]? = some (positionSample samples (memberOf s site role)) ∧
      r'.frames.tail = r.frames.take 1279 := by
  refine ⟨rfl, ?_, rfl⟩
  have inside : role < (siteOf s site).members.length := by rw [h.members_length hs]; exact hr
  change ((siteOf s site).members.map (positionSample samples))[role]? = _
  rw [List.getElem?_map, List.getElem?_eq_getElem inside, memberOf, List.getD_eq_getElem _ _ inside]
  rfl

theorem positionSample_active {samples : List (Nat × Sample)} {m : Member} {x : Sample} (active : m.active = true)
    (h : sampleOf samples m.slot = some x) : positionSample samples (some m) = ⟨x.value, x.gap⟩ := by
  simp only [positionSample, active, h, if_true]

theorem positionSample_inactive (samples : List (Nat × Sample)) {m : Option Member}
    (h : ∀ p, m = some p → p.active = false) : positionSample samples m = ⟨0, true⟩ := by
  cases m with
  | none => rfl
  | some p => simp only [positionSample, h p rfl, Bool.false_eq_true, if_false]

/-! ### The harmonic windows -/

theorem harmMember_harmFrame {s : State} (frame : Nat) (samples : List (Nat × Sample)) {site role : Nat}
    (h : Shaped s) (hs : site < 4) (hr : role < 8) :
    harmMember (harmFrame frame samples s) site role =
      if recording s then harmPosition frame samples s.tracker.frameState (siteOf s site)
        (memberOf s site role) (harmMember s site role)
      else harmMember s site role := by
  unfold harmFrame
  split
  · have sites : harmSite { s with harm := { s.harm with
        sites := (s.harm.sites.zip s.sites).map fun y =>
          { y.1 with
            members := (y.1.members.zip y.2.members).map fun z =>
              harmPosition frame samples s.tracker.frameState y.2 z.2 z.1 } } } site =
        { harmSite s site with
          members := ((harmSite s site).members.zip (siteOf s site).members).map fun z =>
            harmPosition frame samples s.tracker.frameState (siteOf s site) z.2 z.1 } := by
      change ((s.harm.sites.zip s.sites).map _).getD site ({} : HarmSite) = _
      rw [getD_map_zip _ _ _ ({} : HarmSite) ({} : Site) _ (by rw [h.harm_length]; exact hs)
        (by rw [h.sites_length]; exact hs)]
      rfl
    rw [harmMember, sites]
    exact getD_map_zip _ _ _ _ _ _ (by rw [h.harmMembers_length hs]; exact hr)
      (by rw [h.members_length hs]; exact hr)
  · rfl

theorem addOrders_mapIdx (f : Nat → Int) (sums : List Int) :
    addOrders f sums = sums.mapIdx fun i sum => sum + f (i + 1) := by
  rw [addOrders, List.mapIdx_eq_zipIdx_map]

theorem addOrders_replicate (f : Nat → Int) (c : Int) (n : Nat) (h : ∀ i, f i = c) :
    addOrders f (List.replicate n 0) = List.replicate n c := by
  rw [addOrders_mapIdx]
  refine List.ext_getElem (by simp) fun i _ _ => ?_
  simp [h]

theorem Window.add_first (x : Sample) (track : TrackerState) (first hmax : Nat) :
    (newWindow first hmax).add x track =
      { first := first, taken := 1, re := List.replicate hmax (x.value * 32767)
        im := List.replicate hmax 0, gap := x.gap, overrange := x.overrange
        unlocked := track == .acquiring || track == .holdover, fixed := track == .fixed } := by
  have cos : cosTable 0 = 32767 := by decide
  have sin : sinTable 0 = 0 := by decide
  simp only [Window.add, newWindow, Bool.false_or, Nat.zero_add]
  rw [addOrders_replicate _ (x.value * 32767) _ fun i => by rw [tableIndex, Nat.mul_zero, Nat.zero_mod, cos],
    addOrders_replicate _ 0 _ fun i => by rw [tableIndex, Nat.mul_zero, Nat.zero_mod, sin, Int.mul_zero]]

theorem Window.add_eq (x : Sample) (track : TrackerState) (w : Window) :
    let step := fun (i : Nat) => 8 * (i + 1) * w.taken % 1024
    w.add x track =
      { w with
        taken := w.taken + 1
        re := w.re.mapIdx fun i sum => sum + x.value * cosTable (step i)
        im := w.im.mapIdx fun i sum => sum + x.value * sinTable (step i)
        gap := w.gap || x.gap
        overrange := w.overrange || x.overrange
        unlocked := w.unlocked || track == .acquiring || track == .holdover
        fixed := w.fixed || track == .fixed } := by
  rw [Window.add, addOrders_mapIdx, addOrders_mapIdx]
  rfl

section
variable {frame : Nat} {samples : List (Nat × Sample)} {track : TrackerState} {e : Site} {m : Member} {x : HarmMember}
  {sample : Sample}

theorem harmPosition_fills (active : m.active = true) (enabled : e.settings.enabled = true)
    (hs : sampleOf samples m.slot = some sample) {w : Window} (hw : x.window = some w) (room : w.taken < 1024) :
    harmPosition frame samples track e (some m) x = { x with window := some (w.add sample track) } := by
  simp only [harmPosition, active, enabled, hs, hw, Bool.and_self, if_pos room]

theorem harmPosition_opens (active : m.active = true) (enabled : e.settings.enabled = true)
    (hs : sampleOf samples m.slot = some sample) (hw : x.window = none) (first : frame % 1024 = 0) :
    harmPosition frame samples track e (some m) x =
      { x with window := some ((newWindow frame e.settings.hmax).add sample track) } := by
  simp only [harmPosition, active, enabled, hs, hw, Bool.and_self, if_pos first]

theorem harmPosition_closed (hw : x.window = none) (between : frame % 1024 ≠ 0) (m : Option Member) :
    harmPosition frame samples track e m x = x := by
  unfold harmPosition
  split
  · split
    · rw [hw]
      exact if_neg between
    · rfl
  · rfl

theorem harmPosition_inactive {m : Option Member}
    (h : ∀ p, m = some p → (p.active && e.settings.enabled) = false) :
    harmPosition frame samples track e m x = x := by
  cases m with
  | none => rfl
  | some p => simp only [harmPosition, h p rfl]

end

/-! ### The tracker -/

/-- A tracker that becomes `x`, with TRACK_STATE where there is a cause to tell (R36). -/
def tell (t : Tracker) (cause : Option TrackCause) (x : Tracker) (s : State) : State :=
  match cause with
  | none => setTracker (fun _ => x) s
  | some c => post (.trackState x.state t.state x.f x.k t.inUse c) (setTracker (fun _ => x) s)

theorem tell_tracker (t : Tracker) (cause : Option TrackCause) (x : Tracker) (s : State) :
    (tell t cause x s).tracker = x := by
  cases cause <;> simp [tell]

/-- A period makes of the tracker what the tracker alone decides, and tells it where the state changes. -/
theorem takePeriod_tells (p : Nat) (t : Tracker) : ∃ (x : Tracker) (cause : Option TrackCause),
    x.inUse = t.inUse ∧ (cause = none → x.state = t.state) ∧
      ∀ s : State, s.tracker = t → takePeriod p s = tell t cause x s := by
  have posts : ∀ (s : State) (x : Tracker) (cause : TrackCause), s.tracker = t → x.inUse = t.inUse →
      x.state ≠ t.state → postTrack t.state cause (setTracker (fun _ => x) s) = tell t (some cause) x s := by
    intro s x cause _ inUse changed
    rw [postTrack_changed _ (by exact changed), tell]
    simp only [setTracker_tracker, inUse]
  cases ht : t.state with
  | acquiring =>
    by_cases valid : periodValid p = true
    · let u := t.setFreq (smoothed t.f p 2)
      let count := if periodInLock p then u.inLock + 1 else 0
      by_cases few : count < 8
      · refine ⟨{ u with inLock := count }, none, rfl, fun _ => ht, fun s hs => ?_⟩
        subst hs
        rw [takePeriod_acquiring p ht]
        simp only [acquire, valid, Bool.not_true, Bool.false_eq_true, if_false]
        exact if_pos few
      · refine ⟨{ u with inLock := 0, state := .locked }, some .lockGained, rfl, nofun, fun s hs => ?_⟩
        subst hs
        rw [takePeriod_acquiring p ht]
        refine Eq.trans ?_ (posts s _ .lockGained rfl rfl (fun k => nomatch k.trans ht))
        rw [ht]
        simp only [acquire, valid, Bool.not_true, Bool.false_eq_true, if_false]
        exact if_neg few
    · refine ⟨{ t with inLock := 0 }, none, rfl, fun _ => ht, fun s hs => ?_⟩
      subst hs
      rw [takePeriod_acquiring p ht]
      simp only [acquire, valid, Bool.not_false, if_true]
      rfl
  | locked =>
    by_cases valid : periodValid p = true
    · refine ⟨t.setFreq (smoothed t.f p 8), none, rfl, fun _ => ht, fun s hs => ?_⟩
      subst hs
      rw [takePeriod_locked p ht]
      exact if_pos valid
    · refine ⟨{ t with state := .holdover, inLock := 0, unlockSeen := true }, some .periodOut, rfl, nofun,
        fun s hs => ?_⟩
      subst hs
      rw [takePeriod_locked p ht, if_neg valid]
      refine Eq.trans ?_ (posts s _ .periodOut rfl rfl (fun k => nomatch k.trans ht))
      rw [ht]
      rfl
  | holdover =>
    by_cases valid : periodValid p = true
    · refine ⟨{ t.setFreq (smoothed t.f p 2) with
        state := .acquiring, inLock := if periodInLock p then 1 else 0 }, some .periodValid, rfl, nofun,
        fun s hs => ?_⟩
      subst hs
      rw [takePeriod_holdover p ht, if_pos valid]
      refine Eq.trans ?_ (posts s _ .periodValid rfl rfl (fun k => nomatch k.trans ht))
      rw [ht]
      rfl
    · refine ⟨t, none, rfl, fun _ => ht, fun s hs => ?_⟩
      subst hs
      rw [takePeriod_holdover p ht, if_neg valid]
      rfl
  | fixed =>
    refine ⟨t, none, rfl, fun _ => ht, fun s hs => ?_⟩
    subst hs
    rw [takePeriod_fixed p ht]
    rfl

/-- The tracker after a confirmed crossing has been used. -/
def crossed (time : Nat) (t : Tracker) : Tracker :=
  let t := { t with lastCross := some time, since := 0 }
  if t.wanted != t.inUse then changeOver t else t

theorem crossed_kept (time : Nat) (t : Tracker) :
    (crossed time t).state = t.state ∧ (crossed time t).f = t.f ∧ (crossed time t).k = t.k := by
  unfold crossed
  dsimp only
  split <;> exact ⟨rfl, rfl, rfl⟩

theorem crossingConfirmed_tells (time : Nat) (t : Tracker) : ∃ (x : Tracker) (cause : Option TrackCause),
    x.inUse = t.inUse ∧ (cause = none → x.state = t.state) ∧
      ∀ s : State, s.tracker = t → crossingConfirmed time s = setTracker (crossed time) (tell t cause x s) := by
  cases hc : t.lastCross with
  | none =>
    refine ⟨t, none, rfl, fun _ => rfl, fun s hs => ?_⟩
    subst hs
    simp only [crossingConfirmed, hc]
    rfl
  | some last =>
    obtain ⟨x, cause, inUse, quiet, acts⟩ := takePeriod_tells (period time last) t
    refine ⟨x, cause, inUse, quiet, fun s hs => ?_⟩
    rw [← acts s hs]
    simp only [crossingConfirmed, hs, hc]
    rfl

/-- The detector of the reference in use after a frame, and the crossing it confirms. -/
def referenceTaken (frame : Nat) (samples : List (Nat × Sample)) (t : Tracker) : Detector × Option Nat :=
  match t.inUse.bind (sampleOf samples) with
  | some x => t.det.take frame x.value
  | none => (t.det, none)

theorem trackFrame_eq (frame : Nat) (samples : List (Nat × Sample)) (s : State) :
    trackFrame frame samples s = setTracker latchFrame
      (match (referenceTaken frame samples s.tracker).2 with
      | some time => crossingConfirmed time
          (setTracker (fun t => { t with det := (referenceTaken frame samples s.tracker).1 }) s)
      | none => setTracker (fun t =>
          { t with det := (referenceTaken frame samples s.tracker).1, since := t.since + 1 }) s) := by
  unfold trackFrame referenceTaken
  cases s.tracker.inUse.bind (sampleOf samples) with
  | none => rfl
  | some x =>
    dsimp only
    cases h : s.tracker.det.take frame x.value with
    | mk d confirmed =>
      dsimp only
      cases confirmed <;> rfl

theorem latchFrame_eq (x : Tracker) : latchFrame x =
    { x with
      frameState := if x.state = .locked ∧ 256 ≤ x.since then .holdover else x.state
      frameFreq := x.f } := by
  have due : timeoutDue x = true ↔ x.state = .locked ∧ 256 ≤ x.since := timeoutDue_iff x
  unfold latchFrame
  rw [if_congr due rfl rfl]

/-! ### The rotation checks -/

theorem takeSample_frameSamples (frame : Nat) (words : List BusWord) (s : State) (slot : Nat) (d : Detector) :
    takeSample d frame (sampleOf (frameSamples frame words s) slot) =
      if slot ∈ s.bus.mask then
        d.take frame (correctedSample frame (entryOf s slot) (receiveOf s slot) (words.getD (slot - 1) 0)).value
      else (d, none) := by
  rw [sampleOf_frameSamples]
  split <;> rfl

/-- A check that runs takes the samples of its three slots. -/
theorem rotateFrame_turns {frame : Nat} {samples : List (Nat × Sample)} {r : Rotation} {a b c : Nat}
    (h : r.running = some (a, b, c)) :
    let d1 := takeSample r.det1 frame (sampleOf samples a)
    let d2 := takeSample r.det2 frame (sampleOf samples b)
    let d3 := takeSample r.det3 frame (sampleOf samples c)
    let q : Rotation :=
      { r with
        det1 := d1.1, det2 := d2.1, det3 := d3.1, last2 := d2.2.or r.last2
        last3 := d3.2.or r.last3, cross2 := r.cross2 ++ d2.2.toList
        cross3 := r.cross3 ++ d3.2.toList }
    (∀ time, d1.2 = some time → rotateFrame frame samples r = closeCycle q time) ∧
      (d1.2 = none → rotateFrame frame samples r = q) := by
  refine ⟨fun time ht => ?_, fun ht => ?_⟩ <;>
    · simp only [rotateFrame, h, ht]

theorem rotateFrame_stopped {frame : Nat} {samples : List (Nat × Sample)} {r : Rotation}
    (h : r.running = none) : rotateFrame frame samples r = r := by
  simp only [rotateFrame, h]

/-- Sites whose checks are moved one after the other, each with its notice. -/
theorem moveRotations {g : Rotation → Rotation} {sites : List Nat} (nodup : sites.Nodup) :
    ∀ {s : State}, Shaped s → (∀ site ∈ sites, site < 4) →
      let t := sites.foldl (fun s site => moveRotation site (g (rotationOf s site)) s) s
      PostsAtMost sites.length s t ∧
      (∀ k, k ∉ sites → rotationOf t k = rotationOf s k) ∧
      ∀ k ∈ sites, rotationOf t k = g (rotationOf s k) ∧
        ((rotationOf t k).state ≠ (rotationOf s k).state → Sends s.link → s.link.mask.getLsbD 4 = true →
          s.link.notices.length + sites.length ≤ 32 →
          ⟨.rotation k (rotationOf t k).state (rotationOf s k).state, s.clock.time⟩ ∈ t.link.notices) := by
  induction sites with
  | nil => exact fun _ _ => ⟨.of_link rfl, fun _ _ => rfl, nofun⟩
  | cons site sites ih =>
    intro s shaped low
    obtain ⟨fresh, nodup⟩ := List.nodup_cons.1 nodup
    have hs := low site (List.mem_cons_self ..)
    let u := moveRotation site (g (rotationOf s site)) s
    have moved := moveRotation_moves (P := only [.rotation]) site (g (rotationOf s site)) s (by decide)
    have now : ∀ k, rotationOf u k = if k = site then g (rotationOf s site) else rotationOf s k := fun k =>
      moveRotation_rotationOf site k _ s (by rw [shaped.rotation_length]; exact hs)
    have one := moveRotation_postsAtMost site (g (rotationOf s site)) s
    obtain ⟨posts, others, those⟩ := ih nodup (moved.shaped shaped)
      fun k hk => low k (List.mem_cons_of_mem _ hk)
    have later := Moves.foldl (P := only [.rotation])
      (fun s site => moveRotation site (g (rotationOf s site)) s)
      (fun s k => moveRotation_moves k _ s (by decide)) sites u
    refine ⟨(one.trans posts).mono (by rw [List.length_cons]; omega), fun k hk => ?_, fun k hk => ?_⟩
    · rw [List.mem_cons, not_or] at hk
      exact (others k hk.2).trans ((now k).trans (if_neg hk.1))
    · by_cases same : k = site
      · subst same
        have here := (others k fresh).trans ((now k).trans (if_pos rfl))
        refine ⟨here, fun changed sends mask room => ?_⟩
        have differs : (g (rotationOf s k)).state ≠ (rotationOf s k).state := by
          rw [List.foldl_cons, here] at changed
          exact changed
        have told : (⟨.rotation k (g (rotationOf s k)).state (rotationOf s k).state, s.clock.time⟩ : Notice) ∈
            u.link.notices := by
          have posted : u = post (.rotation k (g (rotationOf s k)).state (rotationOf s k).state)
              (setRotation k (g (rotationOf s k)) s) := if_pos (bne_iff_ne.2 differs)
          rw [posted, post_mem (by exact sends) (by exact mask) (by
            change s.link.notices.length < 32
            rw [List.length_cons] at room
            omega)]
          exact List.mem_append_right _ (List.mem_singleton.2 rfl)
        rw [List.foldl_cons, here]
        exact (later.appends ((moved.appends sends).sends sends)).notices.subset told
      · have mem := (List.mem_cons.1 hk).resolve_left same
        obtain ⟨there, told⟩ := those k mem
        have before : rotationOf u k = rotationOf s k := (now k).trans (if_neg same)
        rw [List.foldl_cons]
        refine ⟨there.trans (congrArg g before), fun changed sends mask room => ?_⟩
        obtain ⟨appended, few⟩ := one sends
        have told := told (by rw [before]; exact changed) (appended.sends sends)
          (by rw [appended.mask]; exact mask) (by rw [List.length_cons] at room; omega)
        rwa [before, moved.clock_eq (by decide)] at told

theorem rotationFrame_site (frame : Nat) (samples : List (Nat × Sample)) {s : State} (h : Shaped s) {site : Nat}
    (hs : site < 4) :
    rotationOf (rotationFrame frame samples s) site = rotateFrame frame samples (rotationOf s site) ∧
      ((rotationOf (rotationFrame frame samples s) site).state ≠ (rotationOf s site).state → Sends s.link →
        s.link.mask.getLsbD 4 = true → s.link.notices.length ≤ 28 →
        ⟨.rotation site (rotationOf (rotationFrame frame samples s) site).state (rotationOf s site).state,
          s.clock.time⟩ ∈ (rotationFrame frame samples s).link.notices) := by
  have folded : rotationFrame frame samples s = (List.range 4).foldl
      (fun s site => moveRotation site (rotateFrame frame samples (rotationOf s site)) s) s := rfl
  have all := moveRotations (g := rotateFrame frame samples) (sites := List.range 4) List.nodup_range h
    fun k hk => List.mem_range.1 hk
  dsimp only at all
  rw [← folded, List.length_range] at all
  obtain ⟨_, _, those⟩ := all
  obtain ⟨there, told⟩ := those site (List.mem_range.2 hs)
  exact ⟨there, fun changed sends mask room => told changed sends mask (by omega)⟩

/-! ### The capture slots -/

section
variable {s : State} {site : Nat} {samples : List (Nat × Sample)} {m : CaptureMember}

theorem isMeasuring_iff : isMeasuring s site m = true ↔ ∃ p, memberOf s site m.role.code = some p ∧
    p.active = true ∧ p.slot = m.slot ∧ p.serial = m.serial := by
  unfold isMeasuring
  cases memberOf s site m.role.code with
  | none => simp
  | some p => simp [and_assoc]

theorem liveSample_measures {x : LiveState} {sample : Sample} (h : x ≠ .stopped)
    (measures : isMeasuring s site m = true) (hs : sampleOf samples m.slot = some sample) :
    liveSample s site samples m x = (⟨sample.value, sample.gap⟩, .measuring) := by
  cases x with
  | stopped => exact absurd rfl h
  | notYet => simp only [liveSample, measures, hs]
  | measuring => simp only [liveSample, measures, hs]

theorem liveSample_stops {x : LiveState}
    (h : x = .stopped ∨ ¬(isMeasuring s site m = true ∧ (sampleOf samples m.slot).isSome = true)) :
    liveSample s site samples m x = (⟨m.lastValue, true⟩, if x = .notYet then .notYet else .stopped) := by
  cases x with
  | stopped => simp [liveSample]
  | notYet =>
    have h := h.resolve_left nofun
    cases measures : isMeasuring s site m <;> cases hs : sampleOf samples m.slot <;> simp_all [liveSample]
  | measuring =>
    have h := h.resolve_left nofun
    cases measures : isMeasuring s site m <;> cases hs : sampleOf samples m.slot <;> simp_all [liveSample]

end

/-- The samples and live states that a frame gives a segment's members. -/
def rowOf (s : State) (samples : List (Nat × Sample)) (site : Nat) (members : List CaptureMember)
    (live : List LiveState) : List (CapSample × LiveState) :=
  (members.zip live).map fun x => liveSample s site samples x.1 x.2

theorem rowOf_getElem? {s : State} {samples : List (Nat × Sample)} {site : Nat} {members : List CaptureMember}
    {live : List LiveState} {j : Nat} {m : CaptureMember} {x : LiveState} (hm : members[j]? = some m)
    (hx : live[j]? = some x) :
    (rowOf s samples site members live)[j]? = some (liveSample s site samples m x) := by
  rw [rowOf, List.getElem?_map, (List.getElem?_zip_eq_some (z := (m, x))).2 ⟨hm, hx⟩]
  rfl

/-- A filling segment that waits for the frame. -/
def Waits (frame : Nat) (g : Segment) : Prop := g.filling = true ∧ frameDiff frame g.first = g.frames.length

theorem fillSegment_waits {s : State} {frame : Nat} {samples : List (Nat × Sample)} {site : Nat}
    {members : List CaptureMember} {g : Segment} (h : Waits frame g) :
    fillSegment s frame samples site members g =
      { g with
        frames := (rowOf s samples site members g.live).map (·.1) :: g.frames
        live := (rowOf s samples site members g.live).map (·.2)
        filling := decide (g.frames.length + 1 < 128 * g.planned) } :=
  if_pos (by simp [h.1, h.2])

theorem fillSegment_other {s : State} {frame : Nat} {samples : List (Nat × Sample)} {site : Nat}
    {members : List CaptureMember} {g : Segment} (h : ¬Waits frame g) :
    fillSegment s frame samples site members g = g :=
  if_neg fun k => h (by simpa [Waits] using k)

theorem flatMap_single {α β : Type} {f : α → List β} {xs : List α} {k : Nat} {x : α} (hk : xs[k]? = some x)
    (others : ∀ i y, xs[i]? = some y → i ≠ k → f y = []) : xs.flatMap f = f x := by
  induction xs generalizing k with
  | nil => cases hk
  | cons y ys ih =>
    rw [List.flatMap_cons]
    cases k with
    | zero =>
      cases hk
      have rest : ys.flatMap f = [] := List.flatMap_eq_nil_iff.2 fun z hz => by
        obtain ⟨i, hi⟩ := List.mem_iff_getElem?.1 hz
        exact others (i + 1) z hi (Nat.succ_ne_zero i)
      rw [rest, List.append_nil]
    | succ k =>
      rw [others 0 y rfl (Nat.zero_ne_add_one k), List.nil_append]
      exact ih hk fun i z hz hi => others (i + 1) z hz fun e => hi (Nat.succ.inj e)

/-- The rows that a frame adds to the segments of a slot. -/
def newRows (f : Segment → Segment) (segments : List Segment) : List (List CapSample) :=
  (segments.zip (segments.map f)).flatMap fun x => x.2.frames.take (x.2.frames.length - x.1.frames.length)

theorem newRows_eq (f : Segment → Segment) (segments : List Segment) :
    newRows f segments = segments.flatMap fun g => (f g).frames.take ((f g).frames.length - g.frames.length) := by
  induction segments with
  | nil => rfl
  | cons g gs ih => exact congrArg ((f g).frames.take ((f g).frames.length - g.frames.length) ++ ·) ih

theorem countRows_none (members : List CaptureMember) : countRows [] members = members := by
  unfold countRows
  refine List.ext_getElem (by simp) fun i _ _ => ?_
  simp

theorem countRows_one (row : List CapSample) (members : List CaptureMember) :
    countRows [row] members = members.mapIdx fun j m =>
      let x := row.getD j ⟨0, true⟩
      { m with gaps := m.gaps + if x.gap then 1 else 0, lastValue := x.value } := by
  rw [List.mapIdx_eq_zipIdx_map]
  refine List.map_congr_left fun x _ => ?_
  cases h : (row.getD x.2 ⟨0, true⟩).gap <;> simp only [List.map_cons, List.map_nil, List.filter, h] <;> rfl

theorem fillSlot_other {s : State} {frame : Nat} {samples : List (Nat × Sample)} {c : CaptureSlot}
    (h : c.state ≠ .filling ∨ c.site = none) : fillSlot s frame samples c = c := by
  unfold fillSlot
  split
  · next site hf hs =>
    rcases h with h | h
    · exact absurd hf h
    · rw [hs] at h
      cases h
  · rfl

theorem fillSlot_filling {s : State} {frame : Nat} {samples : List (Nat × Sample)} {c : CaptureSlot} {site : Nat}
    (h : c.state = .filling) (k : c.site = some site) : fillSlot s frame samples c =
      { c with
        segments := c.segments.map (fillSegment s frame samples site c.members)
        members := countRows (newRows (fillSegment s frame samples site c.members) c.segments) c.members } := by
  simp only [fillSlot, h, k]
  rfl

theorem ringFrame_slots (frame : Nat) (samples : List (Nat × Sample)) (s : State) :
    (ringFrame frame samples s).capture.slots = s.capture.slots := rfl

theorem captureFrame_rings (frame : Nat) (samples : List (Nat × Sample)) (s : State) :
    (captureFrame frame samples s).capture.rings = s.capture.rings := rfl

theorem captureFrame_slots (frame : Nat) (samples : List (Nat × Sample)) (s : State) :
    (captureFrame frame samples s).capture.slots = s.capture.slots.map (fillSlot s frame samples) := rfl

/-! ### The consumers of a frame -/

section
variable (words : List BusWord) (s : State)

/-- The samples of the frame that ends. -/
abbrev endSamples : List (Nat × Sample) := frameSamples s.bus.frame words s

def tracked : State := trackFrame s.bus.frame (endSamples words s) (wordsTaken words s)

def rotated : State := rotationFrame s.bus.frame (endSamples words s) (tracked words s)

def sagged : State := sagFrame (endSamples words s) (rotated words s)

def ringed : State := ringFrame s.bus.frame (endSamples words s) (sagged words s)

def captured : State := captureFrame s.bus.frame (endSamples words s) (ringed words s)

theorem frameEnded_eq : frameEnded words s =
    setBus (fun b => { b with inFrame := false })
      (harmFrame s.bus.frame (endSamples words s) (captured words s)) := rfl

theorem tracked_moves : Moves (only [.bus, .roster, .receive, .tracker]) s (tracked words s) :=
  .trans ((wordsTaken_moves words s).mono (by decide)) (trackFrame_moves _ _ _ (by decide))

theorem rotated_moves : Moves (only [.bus, .roster, .receive, .tracker, .rotation]) s (rotated words s) :=
  .trans ((tracked_moves words s).mono (by decide)) (rotationFrame_moves _ _ _ (by decide))

theorem sagged_moves : Moves (only [.bus, .roster, .receive, .tracker, .rotation, .sag]) s (sagged words s) :=
  .trans ((rotated_moves words s).mono (by decide)) (sagFrame_moves _ _ (by decide))

theorem ringed_moves :
    Moves (only [.bus, .roster, .receive, .tracker, .rotation, .sag, .capture]) s (ringed words s) :=
  .trans ((sagged_moves words s).mono (by decide)) (ringFrame_moves _ _ _ (by decide))

theorem captured_moves :
    Moves (only [.bus, .roster, .receive, .tracker, .rotation, .sag, .capture]) s (captured words s) :=
  .trans (ringed_moves words s) (captureFrame_moves _ _ _ (by decide))

theorem ended_of_captured : Moves (only [.harm, .bus]) (captured words s) (frameEnded words s) :=
  .trans (harmFrame_moves _ _ _ (by decide)) (setBus_moves _ _ (by decide))

theorem ended_of_sagged : Moves (only [.capture, .harm, .bus]) (sagged words s) (frameEnded words s) :=
  .trans (.trans (ringFrame_moves _ _ _ (by decide)) (captureFrame_moves _ _ _ (by decide)))
    ((ended_of_captured words s).mono (by decide))

theorem ended_of_rotated : Moves (only [.sag, .capture, .harm, .bus]) (rotated words s) (frameEnded words s) :=
  .trans (sagFrame_moves _ _ (by decide)) ((ended_of_sagged words s).mono (by decide))

theorem ended_of_tracked :
    Moves (only [.rotation, .sag, .capture, .harm, .bus]) (tracked words s) (frameEnded words s) :=
  .trans (rotationFrame_moves _ _ _ (by decide)) ((ended_of_rotated words s).mono (by decide))

theorem frameEnded_tracker : (frameEnded words s).tracker = (tracked words s).tracker :=
  (ended_of_tracked words s).tracker_eq (by decide)

variable {s} (h : Shaped s)
include h

theorem frameEnded_channel {site role : Nat} (hs : site < 4) (hr : role < 3) :
    channelOf (frameEnded words s) site role =
      (channelOf s site role).feed (endSamples words s) (memberOf s site role) := by
  have before := rotated_moves words s
  rw [channelOf_of_sag ((ended_of_sagged words s).sag_eq (by decide)), sagged,
    channelOf_sagFrame _ (before.shaped h) hs hr, channelOf_of_sag (before.sag_eq (by decide)),
    memberOf_of_sites (before.sites_eq (by decide))]

theorem frameEnded_ring {site : Nat} (hs : site < 4) : ∃ time,
    (frameEnded words s).capture.rings.getD site {} =
      (s.capture.rings.getD site {}).enter s.bus.frame time
        ((siteOf s site).members.map (positionSample (endSamples words s))) := by
  have before := sagged_moves words s
  refine ⟨(sagged words s).bus.frameTime, ?_⟩
  rw [(ended_of_captured words s).capture_eq (by decide), captured, captureFrame_rings, ringed, ringFrame_ring _ _ (before.shaped h) hs, before.capture_eq (by decide),
    siteOf_eq_of_sites (before.sites_eq (by decide))]

theorem frameEnded_harm {site role : Nat} (hs : site < 4) (hr : role < 8) :
    harmMember (frameEnded words s) site role =
      if recording s then harmPosition s.bus.frame (endSamples words s) (frameEnded words s).tracker.frameState
        (siteOf s site) (memberOf s site role) (harmMember s site role)
      else harmMember s site role := by
  have before := captured_moves words s
  have tracker : (frameEnded words s).tracker = (captured words s).tracker :=
    (ended_of_captured words s).tracker_eq (by decide)
  have recorded : recording (captured words s) = recording s := by
    simp only [recording, before.survey_eq (P := only [.bus, .roster, .receive, .tracker, .rotation, .sag,
      .capture]) (by decide)]
  have harm : (frameEnded words s).harm =
      (harmFrame s.bus.frame (endSamples words s) (captured words s)).harm := by
    rw [frameEnded_eq, setBus_harm]
  rw [tracker, harmMember_of_harm harm]
  rw [harmMember_harmFrame _ _ (before.shaped h) hs hr, recorded,
    harmMember_of_harm (before.harm_eq (by decide)), memberOf_of_sites (before.sites_eq (by decide)),
    siteOf_eq_of_sites (before.sites_eq (by decide))]

theorem Shaped.slots_length : s.capture.slots.length = 12 := by
  obtain ⟨_, _, _, _, _, ⟨_, hl⟩, _⟩ := h
  exact hl

theorem frameEnded_slot {i : Nat} (hi : i < 12) : captureSlot (frameEnded words s) i =
    fillSlot (ringed words s) s.bus.frame (endSamples words s) (captureSlot s i) := by
  have slots : (ringed words s).capture.slots = s.capture.slots := by
    rw [ringed, ringFrame_slots, (sagged_moves words s).capture_eq (by decide)]
  have inside : i < s.capture.slots.length := by rw [h.slots_length]; exact hi
  rw [captureSlot, (ended_of_captured words s).capture_eq (by decide), captured, captureFrame_slots, slots, List.getD_eq_getElem _ _ (by rw [List.length_map]; exact inside), List.getElem_map, captureSlot,
    List.getD_eq_getElem _ _ inside]

end

theorem readFailed_link (j : Join) (s : State) : (readFailed j s).link = s.link := by
  unfold readFailed
  split <;> rfl

theorem identityWord_link (frame : Nat) (j : Join) (buffer : List Byte) (w : BusWord) (s : State) :
    (identityWord frame j buffer w s).link = s.link := by
  have complete : ∀ b, (readComplete j b s).link = s.link := fun b => by
    unfold readComplete
    split
    · exact readFailed_link j s
    · cases identityOf b <;> rfl
  unfold identityWord
  dsimp only
  split
  · split
    · rfl
    · exact complete _
  · split
    · exact readFailed_link j s
    · rfl

theorem joinFrame_postsAtMost (frame : Nat) (words : List BusWord) (s : State) :
    PostsAtMost 1 s (joinFrame frame words s) := by
  have silent : ∀ t : State, t.link = s.link → PostsAtMost 1 s t := fun t ht =>
    (PostsAtMost.of_link ht).mono (Nat.zero_le _)
  unfold joinFrame
  split
  · exact silent _ rfl
  · split
    · exact silent _ rfl
    · exact silent _ (identityWord_link _ _ _ _ s)
    · exact (PostsAtMost.of_link (t := setJoin none (modifyEntry _ _ s)) rfl).trans (post_postsAtMost _ _)
    · exact silent _ rfl

/-- What the end of a frame has posted before the tracker takes it: at most the POD_FAULT of a join. -/
theorem wordsTaken_postsAtMost (words : List BusWord) (s : State) : PostsAtMost 1 s (wordsTaken words s) := by
  have probed : (probeAnswer s.bus.frame words (takeWords s.bus.frame words s)).link = s.link := by
    refine Eq.trans ?_ (takeWords_link s.bus.frame words s)
    unfold probeAnswer
    dsimp only
    split <;> rfl
  have before : PostsAtMost 0 s (probeAnswer s.bus.frame words (takeWords s.bus.frame words s)) := .of_link probed
  exact (before.trans (joinFrame_postsAtMost _ _ _)).mono (Nat.le_of_eq (Nat.zero_add 1))

/-! ### O21 -/

section
variable (words : List BusWord) {s : State}

/-- An active member of a slot in the mask: its sample reaches its window, its ring and its harmonic window. -/
theorem frameEnded_active {site role : Nat} {m : Member} {x : Sample} (h : Shaped s) (hs : site < 4)
    (hr : role < 8) (hm : memberOf s site role = some m) (active : m.active = true)
    (hx : sampleOf (endSamples words s) m.slot = some x) :
    let t := frameEnded words s
    let fills := (siteOf s site).settings.enabled = true ∧ recording s = true
    (role < 3 → channelOf t site role =
      { channelOf s site role with window := (x :: (channelOf s site role).window).take 128 }) ∧
    (fills → ∀ w, (harmMember s site role).window = some w → w.taken < 1024 →
      harmMember t site role =
        { harmMember s site role with window := some (w.add x t.tracker.frameState) }) ∧
    (fills → (harmMember s site role).window = none → s.bus.frame % 1024 = 0 →
      harmMember t site role = { harmMember s site role with
        window := some ((newWindow s.bus.frame (siteOf s site).settings.hmax).add x t.tracker.frameState) }) ∧
    ((harmMember s site role).window = none ∧ s.bus.frame % 1024 ≠ 0 ∨ recording s = false ∨
        (siteOf s site).settings.enabled = false → harmMember t site role = harmMember s site role) := by
  have harm := frameEnded_harm words h hs hr
  rw [hm] at harm
  refine ⟨fun voltage => ?_, fun fills w hw room => ?_, fun fills hw first => ?_, fun idle => ?_⟩
  · rw [frameEnded_channel words h hs voltage, hm]
    exact Channel.feed_active _ active hx
  · rw [harm, if_pos fills.2, harmPosition_fills active fills.1 hx hw room]
  · rw [harm, if_pos fills.2, harmPosition_opens active fills.1 hx hw first]
  · rw [harm]
    by_cases recorded : recording s = true
    · rw [if_pos recorded]
      rcases idle with ⟨hw, between⟩ | idle | idle
      · exact harmPosition_closed hw between _
      · rw [recorded] at idle
        cases idle
      · exact harmPosition_inactive fun p hp => by rw [idle, Bool.and_false]
    · exact if_neg recorded

/-- The detector of the reference in use, and the tracker, at the end of a frame. -/
theorem frameEnded_track :
    let t := frameEnded words s
    let taken := referenceTaken s.bus.frame (endSamples words s) s.tracker
    let u : State := { s with tracker := { s.tracker with det := taken.1 } }
    (∀ time, taken.2 = some time → t.tracker = latchFrame (crossingConfirmed time u).tracker) ∧
    (taken.2 = none → t.tracker = latchFrame { u.tracker with since := u.tracker.since + 1 }) ∧
    (t.tracker.state ≠ s.tracker.state → Sends s.link → s.link.mask.getLsbD 3 = true →
      s.link.notices.length ≤ 26 → ∃ cause,
      ⟨.trackState t.tracker.state s.tracker.state t.tracker.f t.tracker.k s.tracker.inUse cause,
        s.clock.time⟩ ∈ t.link.notices) := by
  intro t taken u
  have tracker : (wordsTaken words s).tracker = s.tracker := (wordsTaken_moves words s).tracker_eq (by decide)
  have clock : (wordsTaken words s).clock = s.clock := (wordsTaken_moves words s).clock_eq (by decide)
  have now : t.tracker = (tracked words s).tracker := frameEnded_tracker words s
  have frame := trackFrame_eq s.bus.frame (endSamples words s) (wordsTaken words s)
  rw [tracker] at frame
  change tracked words s = _ at frame
  cases confirmed : taken.2 with
  | none =>
    have confirmed' : (referenceTaken s.bus.frame (endSamples words s) s.tracker).2 = none := confirmed
    rw [confirmed'] at frame
    have all : t.tracker = latchFrame { u.tracker with since := u.tracker.since + 1 } := by
      rw [now, frame]
      change latchFrame { (wordsTaken words s).tracker with
        det := taken.1, since := (wordsTaken words s).tracker.since + 1 } = _
      rw [tracker]
    refine ⟨nofun, fun _ => all, fun changed => absurd ?_ changed⟩
    rw [all]
    rfl
  | some time =>
    have confirmed' : (referenceTaken s.bus.frame (endSamples words s) s.tracker).2 = some time := confirmed
    rw [confirmed'] at frame
    obtain ⟨x, cause, inUse, quiet, acts⟩ := crossingConfirmed_tells time u.tracker
    let v : State := setTracker (fun t => { t with det := taken.1 }) (wordsTaken words s)
    have hv : v.tracker = u.tracker := by
      change { (wordsTaken words s).tracker with det := taken.1 } = _
      rw [tracker]
    have frame : tracked words s = setTracker latchFrame (setTracker (crossed time) (tell u.tracker cause x v)) :=
      frame.trans (congrArg (setTracker latchFrame) (acts v hv))
    have all : t.tracker = latchFrame (crossed time x) := by
      rw [now, frame]
      simp only [setTracker_tracker, tell_tracker]
    obtain ⟨state, f, k⟩ := crossed_kept time x
    refine ⟨fun time' h => ?_, nofun, fun changed sends mask room => ?_⟩
    · cases h
      rw [all, acts u rfl, setTracker_tracker, tell_tracker]
    · have stateT : t.tracker.state = x.state := by
        rw [all]
        exact state
      have kT : t.tracker.f = x.f ∧ t.tracker.k = x.k := by
        rw [all]
        exact ⟨f, k⟩
      cases cause with
      | none => exact absurd (stateT.trans (quiet rfl)) changed
      | some cause =>
        refine ⟨cause, ?_⟩
        obtain ⟨appended, few⟩ := wordsTaken_postsAtMost words s sends
        have sendsV : Sends v.link := appended.sends sends
        have told := post_mem (b := .trackState x.state u.tracker.state x.f x.k u.tracker.inUse cause)
          (s := setTracker (fun _ => x) v) sendsV (by
            change (wordsTaken words s).link.mask.getLsbD 3 = true
            rw [appended.mask]
            exact mask) (by
            change (wordsTaken words s).link.notices.length < 32
            omega)
        have later := (ended_of_tracked words s).appends (by
          rw [frame]
          exact (post_appends (s := setTracker (fun _ => x) v) _ sendsV).sends sendsV)
        refine later.notices.subset ?_
        rw [frame, stateT, kT.1, kT.2, ← clock]
        change _ ∈ (post _ (setTracker (fun _ => x) v)).link.notices
        rw [told]
        exact List.mem_append_right _ (List.mem_singleton.2 rfl)

theorem trackFrame_postsAtMost (frame : Nat) (samples : List (Nat × Sample)) (s : State) :
    PostsAtMost 1 s (trackFrame frame samples s) := by
  rw [trackFrame_eq]
  split
  · next time _ =>
    obtain ⟨x, cause, _, _, acts⟩ := crossingConfirmed_tells time
      { s.tracker with det := (referenceTaken frame samples s.tracker).1 }
    rw [acts _ rfl]
    cases cause with
    | none => exact (PostsAtMost.of_link rfl).mono (Nat.zero_le _)
    | some cause => exact post_postsAtMost _ (setTracker (fun _ => x) (setTracker _ s))
  · exact (PostsAtMost.of_link rfl).mono (Nat.zero_le _)

theorem tracked_postsAtMost (s : State) : PostsAtMost 2 s (tracked words s) :=
  (wordsTaken_postsAtMost words s).trans (trackFrame_postsAtMost _ _ _)

/-- The rotation checks at the end of a frame. -/
theorem frameEnded_rotation (h : Shaped s) {site : Nat} (hs : site < 4) :
    let t := frameEnded words s
    rotationOf t site = rotateFrame s.bus.frame (endSamples words s) (rotationOf s site) ∧
      ((rotationOf t site).state ≠ (rotationOf s site).state → Sends s.link → s.link.mask.getLsbD 4 = true →
        s.link.notices.length ≤ 26 →
        ⟨.rotation site (rotationOf t site).state (rotationOf s site).state, s.clock.time⟩ ∈
          t.link.notices) := by
  intro t
  have before := tracked_moves words s
  have same : ∀ k, rotationOf (tracked words s) k = rotationOf s k := fun k =>
    rotationOf_of_rotation (before.rotation_eq (by decide)) k
  have now : ∀ k, rotationOf t k = rotationOf (rotated words s) k := fun k =>
    rotationOf_of_rotation ((ended_of_rotated words s).rotation_eq (by decide)) k
  obtain ⟨rotates, told⟩ := rotationFrame_site s.bus.frame (endSamples words s) (before.shaped h) hs
  rw [← rotated, same, ← now] at rotates told
  rw [before.clock_eq (by decide)] at told
  refine ⟨rotates, fun changed sends mask room => ?_⟩
  obtain ⟨appended, few⟩ := tracked_postsAtMost words s sends
  have sends' := appended.sends sends
  have rotatedMoves : Moves (only [.rotation]) (tracked words s) (rotated words s) :=
    rotationFrame_moves _ _ _ (by decide)
  have later := (ended_of_rotated words s).appends ((rotatedMoves.appends sends').sends sends')
  exact later.notices.subset (told changed sends' (by rw [appended.mask]; exact mask) (by omega))

end

/-- A filling segment that waits takes one row, of which each listed member has its sample. -/
theorem fillSegment_row {s : State} {frame : Nat} {samples : List (Nat × Sample)} {site : Nat}
    {members : List CaptureMember} {g : Segment} (h : Waits frame g) :
    let taken := rowOf s samples site members g.live
    let row := taken.map (·.1)
    let live := taken.map (·.2)
    fillSegment s frame samples site members g = { g with
        frames := row :: g.frames, live := live
        filling := decide (g.frames.length + 1 < 128 * g.planned) } ∧
      row.length = Nat.min members.length g.live.length ∧ live.length = row.length ∧
      ∀ (j : Nat) (m : CaptureMember) (x : LiveState), members[j]? = some m → g.live[j]? = some x →
        row[j]? = some (liveSample s site samples m x).1 ∧ live[j]? = some (liveSample s site samples m x).2 := by
  refine ⟨fillSegment_waits h, ?_, ?_, fun j m x hm hx => ?_⟩
  · rw [List.length_map, rowOf, List.length_map, List.length_zip]
  · rw [List.length_map, List.length_map]
  · rw [List.getElem?_map, List.getElem?_map, rowOf_getElem? hm hx]
    exact ⟨rfl, rfl⟩

/-- The members of a slot of which one segment alone takes a row. -/
theorem newRows_single {s : State} {frame : Nat} {samples : List (Nat × Sample)} {site : Nat}
    {members : List CaptureMember} {segments : List Segment} {k : Nat} {g : Segment} (hk : segments[k]? = some g)
    (h : Waits frame g) (others : ∀ i g', segments[i]? = some g' → Waits frame g' → i = k) :
    newRows (fillSegment s frame samples site members) segments =
      [(rowOf s samples site members g.live).map (·.1)] := by
  rw [newRows_eq, flatMap_single hk fun i g' hi away => ?_]
  · rw [fillSegment_waits h, List.length_cons, Nat.add_sub_cancel_left]
    rfl
  · rw [fillSegment_other fun w => away (others i g' hi w), Nat.sub_self, List.take_zero]

theorem newRows_none {s : State} {frame : Nat} {samples : List (Nat × Sample)} {site : Nat}
    {members : List CaptureMember} {segments : List Segment} (h : ∀ g ∈ segments, ¬Waits frame g) :
    newRows (fillSegment s frame samples site members) segments = [] := by
  rw [newRows_eq, List.flatMap_eq_nil_iff]
  intro g hg
  rw [fillSegment_other (h g hg), Nat.sub_self, List.take_zero]

/-- Settles O21. -/
theorem frameEndDeliversTheSamples : Obligations.FrameEndDeliversTheSamples := by
  unfold Obligations.FrameEndDeliversTheSamples
  refine ⟨fun words site role m s q shaped inFrame worked nodup slots hs hr hm active mem => ?active,
    fun words site role s q shaped inFrame worked hs hr idle => ?inactive,
    fun words s q shaped inFrame worked nodup slots => ?checks⟩
  case active =>
    intro frame x
    have hx : sampleOf (endSamples words s) m.slot = some x :=
      (sampleOf_frameSamples _ _ _ _).trans (if_pos mem)
    obtain ⟨window, fills, opens, kept⟩ := frameEnded_active words shaped hs hr hm active hx
    obtain ⟨time, ring⟩ := frameEnded_ring words shaped hs
    obtain ⟨newest, row, rest⟩ := Ring.enter_row s.bus.frame time (endSamples words s) shaped hs hr
      (s.capture.rings.getD site {})
    rw [hm, positionSample_active active hx] at row
    refine ⟨frameEnded words s, exec_frameEnd words q inFrame worked, window, ?_, fun w recorded enabled hw room => ?_,
      fun n hn => ⟨cosTable_is_rounded n hn, sinTable_is_rounded n hn⟩, fun hw first recorded enabled => ?_, kept⟩
    · dsimp only
      rw [ring]
      exact ⟨newest, row, rest⟩
    · rw [fills ⟨enabled, recorded⟩ w hw room, Window.add_eq]
    · rw [opens ⟨enabled, recorded⟩ hw first, Window.add_first]
  case inactive =>
    obtain ⟨time, ring⟩ := frameEnded_ring words shaped hs
    obtain ⟨newest, row, rest⟩ := Ring.enter_row s.bus.frame time (endSamples words s) shaped hs hr
      (s.capture.rings.getD site {})
    rw [positionSample_inactive _ idle] at row
    refine ⟨frameEnded words s, exec_frameEnd words q inFrame worked, fun voltage => ?_, ?_, ?_⟩
    · rw [frameEnded_channel words shaped hs voltage, Channel.feed_inactive _ _ idle]
    · rw [frameEnded_harm words shaped hs hr, harmPosition_inactive fun p hp => by rw [idle p hp]; rfl, ite_self]
    · dsimp only
      rw [ring]
      exact ⟨newest, row, rest⟩
  case checks =>
    intro frame sample through told
    have through_eq : ∀ slot d, takeSample d frame (sampleOf (endSamples words s) slot) = through slot d :=
      fun slot d => takeSample_frameSamples frame words s slot d
    refine ⟨frameEnded words s, exec_frameEnd words q inFrame worked, ?reference, fun site hs => ?rotation,
      fun i hi => ?slots⟩
    case reference =>
      intro taken u latched
      have same : referenceTaken frame (endSamples words s) s.tracker = taken := by
        unfold referenceTaken
        simp only [taken]
        cases s.tracker.inUse with
        | none => rfl
        | some slot =>
          dsimp only
          rw [← through_eq]
          exact Eq.refl (takeSample s.tracker.det frame (sampleOf (endSamples words s) slot))
      obtain ⟨crosses, waits, tells⟩ := frameEnded_track words (s := s)
      rw [show referenceTaken s.bus.frame (endSamples words s) s.tracker = taken from same] at crosses waits
      refine ⟨fun time h => ?_, fun h => ?_, fun changed ⟨sending, owed, mask, room⟩ =>
        tells changed ⟨sending, owed⟩ mask room⟩
      · rw [crosses time h, latchFrame_eq]
      · rw [waits h, latchFrame_eq]
    case rotation =>
      intro r
      obtain ⟨now, tells⟩ := frameEnded_rotation words shaped hs
      refine ⟨fun stopped => now.trans (rotateFrame_stopped stopped), fun a b c running => ?_,
        fun changed ⟨sending, owed, mask, room⟩ => tells changed ⟨sending, owed⟩ mask room⟩
      obtain ⟨closes, turns⟩ := rotateFrame_turns (frame := frame) (samples := endSamples words s) running
      simp only [through_eq] at closes turns
      exact ⟨fun time h => now.trans (closes time h), fun h => now.trans (turns h)⟩
    case slots =>
      intro c d
      have now : d = fillSlot (ringed words s) frame (endSamples words s) c := frameEnded_slot words shaped hi
      refine ⟨fun other => now.trans (fillSlot_other other), fun site filling at_ => ?_⟩
      intro measures waits
      rw [fillSlot_filling filling at_] at now
      have segments : d.segments = c.segments.map
          (fillSegment (ringed words s) frame (endSamples words s) site c.members) := by rw [now]
      have members : d.members = countRows (newRows
          (fillSegment (ringed words s) frame (endSamples words s) site c.members) c.segments) c.members := by
        rw [now]
      have sites : (ringed words s).sites = s.sites := (ringed_moves words s).sites_eq (by decide)
      have isSample : ∀ slot, slot ∈ s.bus.mask →
          sampleOf (endSamples words s) slot = some (sample slot) := fun slot hslot =>
        (sampleOf_frameSamples _ _ _ _).trans (if_pos hslot)
      have isMeasured : ∀ m : CaptureMember, measures m ↔ isMeasuring (ringed words s) site m = true ∧
          (sampleOf (endSamples words s) m.slot).isSome = true := fun m => by
        rw [isMeasuring_iff, memberOf_of_sites sites, sampleOf_frameSamples]
        by_cases mem : m.slot ∈ s.bus.mask
        · simp [measures, mem]
        · simp [measures, mem]
      refine ⟨by rw [now], by rw [segments, List.length_map], fun k g hk => ⟨fun still => ?_, fun w => ?_⟩,
        fun none_ => ?_⟩
      · rw [segments, List.getElem?_map, hk]
        exact congrArg some (fillSegment_other still)
      · obtain ⟨fills, length, liveLength, each⟩ := fillSegment_row (s := ringed words s)
          (samples := endSamples words s) (site := site) (members := c.members) w
        refine ⟨_, _, ?_, length, liveLength, fun j m x hm hx => ?_, fun alone => ?_⟩
        · rw [segments, List.getElem?_map, hk]
          exact congrArg some fills
        · obtain ⟨rowAt, liveAt⟩ := each j m x hm hx
          rw [rowAt, liveAt]
          refine ⟨fun moving measured => ?_, fun stops => ?_⟩
          · rw [liveSample_measures moving ((isMeasured m).1 measured).1 (isSample m.slot measured.1)]
            exact ⟨rfl, rfl⟩
          · rw [liveSample_stops (stops.imp_right (mt (isMeasured m).2))]
            exact ⟨rfl, rfl⟩
        · rw [members, newRows_single hk w fun i g' hi' w' => alone i g' hi' w', countRows_one]
      · rw [members, newRows_none none_, countRows_none]

end Sys2Proof.Machine
end

