-- ==== Sys2Proof/Proofs/EngineResets.lean ====
section
/-!
PROOFS. The NOTICE and the PRINT reset (R168, R181), with what the release of a pin leaves of the store (R122,
R128), and O15.
-/

namespace Sys2Proof.Machine

/-! ### The link of a RESET whose reply has left -/

/-- From `s` to `t` neither the RESET in progress nor its place moves, where no NOTICE reset is due. -/
def OwedKept (s t : State) : Prop :=
  s.link.noticeResetDue = false → t.link.owed = s.link.owed ∧ t.link.current = s.link.current

theorem OwedKept.of_link {s t : State} (h : t.link = s.link) : OwedKept s t := fun _ => by
  rw [h]
  exact ⟨rfl, rfl⟩

theorem OwedKept.trans {s t u : State} (h : OwedKept s t) (k : OwedKept t u) : OwedKept s u := fun due => by
  obtain ⟨owed, current⟩ := h due
  have due' : t.link.noticeResetDue = false := by rw [← due, Link.noticeResetDue, owed]; rfl
  obtain ⟨owed', current'⟩ := k due'
  exact ⟨owed'.trans owed, current'.trans current⟩

theorem OwedKept.foldl {α : Type} (f : State → α → State) (hf : ∀ s a, OwedKept s (f s a)) (xs : List α) :
    ∀ s, OwedKept s (xs.foldl f s) := by
  induction xs with
  | nil => exact fun s => .of_link rfl
  | cons x xs ih => exact fun s => (hf s x).trans (ih _)

theorem startTransmit_owed (l : Link) : l.startTransmit.owed = l.owed ∧ l.startTransmit.current = l.current := by
  unfold Link.startTransmit
  split
  · exact ⟨rfl, rfl⟩
  · split
    · exact ⟨rfl, rfl⟩
    · split <;> exact ⟨rfl, rfl⟩

theorem post_owed (b : NoticeBody) (s : State) : OwedKept s (post b s) := fun due => by
  have same : s.link.noticeReset = s.link := if_neg (by rw [due]; decide)
  change (s.link.noticeReset.offerNotice _).owed = _ ∧ (s.link.noticeReset.offerNotice _).current = _
  rw [same]
  unfold Link.offerNotice
  split
  · exact ⟨rfl, rfl⟩
  · split
    · exact startTransmit_owed { s.link with notices := s.link.notices ++ [⟨b, s.clock.time⟩] }
    · exact ⟨rfl, rfl⟩

theorem postWhen_owed (c : Bool) (b : NoticeBody) (s : State) : OwedKept s (postWhen c b s) := by
  unfold postWhen
  split
  · exact post_owed b s
  · exact .of_link rfl

/-! ### The release of a pin -/

theorem enterStore_owed (new : StoreState) (s : State) : OwedKept s (enterStore new s) :=
  OwedKept.trans (t := setStore (fun st => { st with state := new }) s) (.of_link rfl) (postWhen_owed _ _ _)

theorem recheckFull_owed (s : State) : OwedKept s (recheckFull s) := by
  unfold recheckFull
  split
  · split
    · next sector _ =>
      exact OwedKept.trans (t := setStore (Store.chooseSector sector) s) (.of_link rfl) (enterStore_owed _ _)
    · exact .of_link rfl
  · exact .of_link rfl

theorem unpinRecord_owed (s : State) (p : RecordKind × Nat) : OwedKept s (unpinRecord s p) :=
  OwedKept.trans (t := setStore (Store.modifyEntry (fun e => { e with pins := e.pins - 1 }) p.1 p.2) s)
    (.of_link rfl) ((recheckFull_owed _).trans (.of_link rfl))

theorem unpinRecord_queue (s : State) (p : RecordKind × Nat) :
    (unpinRecord s p).store.queue = s.store.queue := by
  have rechecked : ∀ u : State, (recheckFull u).store.queue = u.store.queue := fun u => by
    unfold recheckFull
    split
    · split
      · unfold startReclaim enterStore
        simp only [postWhen_store]
        rfl
      · rfl
    · rfl
  exact ((next_keeps _).queue).trans (rechecked _)

theorem findEntry_modifyEntry (f : Entry → Entry) (hf : ∀ e, (f e).kind = e.kind ∧ (f e).id = e.id ∧
    (f e).state = e.state) (k : RecordKind) (i : Nat) (st : Store) (kind : RecordKind) (id : Nat) :
    findEntry (st.modifyEntry f k i) kind id =
      (findEntry st kind id).map fun e => if k = kind ∧ i = id then f e else e := by
  have same : (fun e : Entry => (if e.isFor k i then f e else e).isFor kind id) = fun e => e.isFor kind id := by
    funext e
    obtain ⟨hk, hi, hs⟩ := hf e
    split
    · simp only [Entry.isFor, hk, hi, hs]
    · rfl
  unfold findEntry Store.modifyEntry
  rw [List.find?_map]
  change ((st.dir.find? fun e => (if e.isFor k i then f e else e).isFor kind id).map _) = _
  rw [same]
  refine Option.map_congr fun e he => ?_
  have found := List.find?_some he
  simp only [Entry.isFor, Bool.and_eq_true, beq_iff_eq, bne_iff_ne] at found
  obtain ⟨⟨hk, hi⟩, hs⟩ := found
  by_cases this : k = kind ∧ i = id
  · rw [if_pos this, if_pos (by simp [Entry.isFor, hk, hi, hs, this])]
  · rw [if_neg this, if_neg]
    simp only [Entry.isFor, Bool.and_eq_true, beq_iff_eq, hk, hi]
    exact fun same => this ⟨same.1.1.symm, same.1.2.symm⟩

theorem findEntry_of_dir {st st' : Store} (h : st'.dir = st.dir) (kind : RecordKind) (id : Nat) :
    findEntry st' kind id = findEntry st kind id := by
  rw [findEntry, h]
  rfl

/-- A store in which a release of a pin begins no reclaim and no discard. -/
def PinsAlone (st : Store) : Prop := st.state = .ready ∨ st.op.isSome = true ∧ st.state ≠ .full

theorem beginWrite_dir (st : Store) : (beginWrite st).dir = st.dir := by
  unfold beginWrite
  split
  · rfl
  · dsimp only
    split
    · unfold Store.openPlace
      dsimp only
      split <;> rfl
    · rfl

/-- What the array takes next in such a store leaves the directory. -/
theorem next_pinsAlone {st : Store} (h : PinsAlone st) : st.next.dir = st.dir ∧ PinsAlone st.next := by
  have kept := (next_keeps st).state
  rcases h with ready | ⟨busy, open_⟩
  · refine ⟨?_, .inl (kept.trans ready)⟩
    unfold Store.next
    split
    · rfl
    · split
      · rfl
      · rfl
      · rw [ready]
        exact beginWrite_dir st
  · have same : st.next = st := if_pos (by rw [busy]; rfl)
    rw [same]
    exact ⟨rfl, .inr ⟨busy, open_⟩⟩

/-- What the pins `ps`, released one after the other, leave of the directory. -/
def Unpinned (ps : List (RecordKind × Nat)) (s t : State) : Prop :=
  PinsAlone s.store → PinsAlone t.store ∧ ∀ kind id e, findEntry s.store kind id = some e →
    findEntry t.store kind id = some { e with pins := e.pins - ps.count (kind, id) }

theorem Unpinned.of_store {s t : State} (h : t.store = s.store) : Unpinned [] s t := fun k => by
  rw [h]
  exact ⟨k, fun kind id e he => he⟩

theorem Unpinned.trans {ps qs : List (RecordKind × Nat)} {s t u : State} (h : Unpinned ps s t)
    (k : Unpinned qs t u) : Unpinned (ps ++ qs) s u := fun alone => by
  obtain ⟨alone', first⟩ := h alone
  obtain ⟨alone'', second⟩ := k alone'
  refine ⟨alone'', fun kind id e he => ?_⟩
  rw [second kind id _ (first kind id e he), List.count_append, ← Nat.sub_sub]

theorem Unpinned.foldl {α : Type} (f : State → α → State) (pins : α → List (RecordKind × Nat))
    (hf : ∀ s a, Unpinned (pins a) s (f s a)) (xs : List α) :
    ∀ s, Unpinned (xs.flatMap pins) s (xs.foldl f s) := by
  induction xs with
  | nil => exact fun s => .of_store rfl
  | cons x xs ih =>
    intro s
    rw [List.flatMap_cons]
    exact (hf s x).trans (ih _)

theorem unpinRecord_unpinned (s : State) (p : RecordKind × Nat) : Unpinned [p] s (unpinRecord s p) := by
  intro alone
  let u := setStore (Store.modifyEntry (fun e => { e with pins := e.pins - 1 }) p.1 p.2) s
  have aloneU : PinsAlone u.store := alone
  have rechecked : recheckFull u = u := if_neg (by rcases aloneU with h | h <;> simp [h])
  obtain ⟨dir, alone'⟩ := next_pinsAlone aloneU
  have done : unpinRecord s p = storeNext u := congrArg storeNext rechecked
  rw [done]
  refine ⟨alone', fun kind id e he => ?_⟩
  refine (findEntry_of_dir (st := u.store) dir kind id).trans ?_
  refine (findEntry_modifyEntry (fun e => { e with pins := e.pins - 1 }) (fun _ => ⟨rfl, rfl, rfl⟩)
    p.1 p.2 s.store kind id).trans ?_
  rw [he, List.count_singleton]
  by_cases same : p.1 = kind ∧ p.2 = id
  · obtain ⟨rfl, rfl⟩ := same
    simp
  · have differs : p ≠ (kind, id) := fun h => same ⟨congrArg Prod.fst h, congrArg Prod.snd h⟩
    simp [same, differs]

/-! ### The release of jobs -/

theorem releaseSection_eq (s : State) (x : JobSection) : ∃ u : State, u = x.pins.foldl unpinRecord s ∧
    (releaseSection s x).store = u.store ∧ (releaseSection s x).link = u.link := by
  refine ⟨_, rfl, ?_⟩
  unfold releaseSection
  dsimp only
  split <;> exact ⟨rfl, rfl⟩

theorem releaseSection_owed (s : State) (x : JobSection) : OwedKept s (releaseSection s x) := by
  obtain ⟨u, rfl, _, link⟩ := releaseSection_eq s x
  exact (OwedKept.foldl _ unpinRecord_owed x.pins s).trans (.of_link link)

theorem releaseSection_queue (s : State) (x : JobSection) :
    (releaseSection s x).store.queue = s.store.queue := by
  have all : ∀ (ps : List (RecordKind × Nat)) (u : State),
      (ps.foldl unpinRecord u).store.queue = u.store.queue := by
    intro ps
    induction ps with
    | nil => exact fun _ => rfl
    | cons p ps ih => exact fun u => (ih _).trans (unpinRecord_queue u p)
  obtain ⟨u, rfl, store, _⟩ := releaseSection_eq s x
  rw [store]
  exact all _ s

theorem releaseSection_unpinned (s : State) (x : JobSection) : Unpinned x.pins s (releaseSection s x) := by
  obtain ⟨u, rfl, store, _⟩ := releaseSection_eq s x
  have pins := Unpinned.foldl unpinRecord (fun p => [p]) unpinRecord_unpinned x.pins s
  rw [List.flatMap_singleton'] at pins
  have all := pins.trans (.of_store store)
  rwa [List.append_nil] at all

theorem releaseJob_owed (j : Job) (s : State) : OwedKept s (releaseJob j s) :=
  OwedKept.foldl _ releaseSection_owed j.sections s

theorem releaseJob_unpinned (j : Job) (s : State) :
    Unpinned (j.sections.flatMap (·.pins)) s (releaseJob j s) :=
  Unpinned.foldl _ (fun x : JobSection => x.pins) releaseSection_unpinned j.sections s

theorem releaseJob_queue (j : Job) (s : State) : (releaseJob j s).store.queue = s.store.queue := by
  unfold releaseJob
  generalize j.sections = xs
  induction xs generalizing s with
  | nil => rfl
  | cons x xs ih => exact (ih _).trans (releaseSection_queue s x)

/-- The jobs of the ring, released. -/
def ringReleased (s : State) : State := s.print.ring.foldl (fun s j => releaseJob j s) s

theorem ringReleased_queue (s : State) : (ringReleased s).store.queue = s.store.queue := by
  have all : ∀ (js : List Job) (u : State),
      (js.foldl (fun s j => releaseJob j s) u).store.queue = u.store.queue := by
    intro js
    induction js with
    | nil => exact fun _ => rfl
    | cons j js ih => exact fun u => (ih _).trans (releaseJob_queue j u)
  exact all _ s

theorem ringReleased_moves (s : State) : Moves (only [.store, .capture]) s (ringReleased s) :=
  .foldl _ (fun s j => releaseJob_moves j s (by decide) (by decide)) _ s

theorem unpinAllSlots_free (s : State) :
    ∀ c ∈ (unpinAllSlots s).capture.slots, c.pins = 0 ∧ c.state ≠ .releasePending := by
  intro c mem
  obtain ⟨c', _, rfl⟩ := List.mem_map.1 mem
  split
  · exact ⟨rfl, nofun⟩
  · next h => exact ⟨rfl, h⟩

/-! ### O15 -/

/-- The state that a PRINT reset leaves before its notice. -/
def engineCleared (s : State) : State := setPrint Print.cleared (unpinAllSlots (ringReleased s))

theorem printCleared_eq (s : State) : printCleared s =
    if mechState s.print = .idle then engineCleared s else postPrint none none (engineCleared s) := rfl

theorem engineCleared_moves (s : State) : Moves (only [.store, .capture, .print]) s (engineCleared s) :=
  .trans (.trans ((ringReleased_moves s).mono (by decide)) (unpinAllSlots_moves _ (by decide)))
    (setPrint_moves _ _ (by decide))

/-- The notice of a PRINT reset leaves every part but the link. -/
theorem printCleared_after (s : State) :
    Moves (only []) (engineCleared s) (printCleared s) ∧ OwedKept (engineCleared s) (printCleared s) := by
  rw [printCleared_eq]
  split
  · exact ⟨.refl _, .of_link rfl⟩
  · exact ⟨.post _ _, post_owed _ _⟩

/-- Settles O15. -/
theorem noticeAndPrintResetsAreTaken : Obligations.NoticeAndPrintResetsAreTaken := by
  unfold Obligations.NoticeAndPrintResetsAreTaken
  intro s acq other q
  have runs : ∀ {c : Instr} {f : State → State}, eventEffect c = some f → Moves anyPart s (f s) →
      exec c s = .next (f s) := fun h m => (congrFun (exec_event h) s).trans (event_of_moves m q)
  refine ⟨fun owed => ?notice, fun owed busy => ?waits, fun owed idle => ?print⟩
  case notice =>
    rw [runs rfl (.notice s)]
    have due : s.link.noticeResetDue = true := by simp [Link.noticeResetDue, owed]
    change Host.Outcome.next { s with link := s.link.noticeReset } = _
    rw [Link.noticeReset, if_pos due]
    simp only [Link.setDomains, Link.settle, owed, Option.map_some]
    cases acq <;> cases other <;> rfl
  case waits =>
    have same : printReset s = s := if_neg (by simp [busy])
    rw [runs rfl (by rw [same]; exact .refl s), same]
  case print =>
    have due : (printResetDue s.link && !s.print.lineBusy) = true := by
      simp [printResetDue, owed, idle]
    have does : printReset s = takeDomain (fun d => { d with print := false }) (printCleared s) := if_pos due
    have cleared := engineCleared_moves s
    obtain ⟨after, afterOwed⟩ := printCleared_after s
    have released := ringReleased_moves s
    have pins : Unpinned (s.print.ring.flatMap fun j => j.sections.flatMap (·.pins)) s (ringReleased s) :=
      Unpinned.foldl _ (fun j : Job => j.sections.flatMap (·.pins)) (fun s j => releaseJob_unpinned j s) _ s
    have owedKept : OwedKept s (printCleared s) :=
      ((OwedKept.foldl _ (fun s j => releaseJob_owed j s) _ s).trans (.of_link rfl)).trans afterOwed
    obtain ⟨owed', current'⟩ := owedKept (by simp [Link.noticeResetDue, owed])
    have moves : Moves (only [.store, .capture, .print]) s (printReset s) := by
      rw [does]
      exact .trans (cleared.trans (after.mono nofun)) (.domain _ _)
    have domain := Moves.domain (P := only []) (fun d => { d with print := false }) (printCleared s)
    have store : (printReset s).store = (ringReleased s).store := by
      rw [does, domain.store_eq (by decide), after.store_eq (by decide)]
      rfl
    have link : (printReset s).link = ((printCleared s).link.setDomains fun d => { d with print := false }).settle := by
      rw [does]
      rfl
    refine ⟨printReset s, runs rfl (moves.mono fun _ _ => trivial), ?_, ?_, ?_, ?_, fun kind id e he alone => ?_,
      moves.array_eq (by decide), ?_, moves.sites_eq (by decide), moves.sag_eq (by decide),
      moves.harm_eq (by decide), moves.roster_eq (by decide), moves.tracker_eq (by decide),
      moves.survey_eq (by decide), moves.supply_eq (by decide)⟩
    · rw [does, domain.print_eq (by decide), after.print_eq (by decide)]
      change Print.cleared (ringReleased s).print = _
      rw [released.print_eq (by decide)]
      rfl
    · rw [link]
      simp only [Link.setDomains, Link.settle, owed', owed, Option.map_some]
      cases acq <;> rfl
    · rw [link]
      simp only [Link.setDomains, Link.settle, owed', owed, Option.map_some]
      cases acq
      · rfl
      · exact current'
    · rw [does, domain.capture_eq (by decide), after.capture_eq (by decide)]
      exact unpinAllSlots_free _
    · rw [store]
      exact (pins alone).2 kind id e he
    · rw [store, ringReleased_queue]

end Sys2Proof.Machine
end

