-- ==== Sys2Proof/Proofs/Supply.lean ====
section
/-!
PROOFS. The van supply monitor (R161, R169 to R173): what a reading makes of the counts, what the report of a
change of level makes of the print engine and of the survey, and SUPPLY_SET, with O59.
-/

namespace Sys2Proof.Machine

/-! ### A reading -/

theorem count_eq (v : Nat) (x : Supply) :
    let up := fun (holds : Prop) [Decidable holds] (n : Nat) =>
      if holds then (if n < 3 then n + 1 else 3) else 0
    x.count v =
      { x with
        taken := if x.taken < 3 then x.taken + 1 else 3
        critIn := up (v < x.critical) x.critIn, lowIn := up (v < x.low) x.lowIn
        critOut := up (x.critical + 30 ≤ v) x.critOut, lowOut := up (x.low + 30 ≤ v) x.lowOut
        reading := some v
        lowest := some (match x.lowest with
          | some least => Nat.min v least
          | none => v) } := by
  have counts : ∀ (holds : Prop) [Decidable holds] (n : Nat),
      runCount (decide holds) n = if holds then (if n < 3 then n + 1 else 3) else 0 := by
    intro holds _ n
    by_cases h : holds
    · simp only [runCount, h, decide_true, if_true]
      rfl
    · simp only [runCount, h, decide_false, Bool.false_eq_true, if_false]
  have least : Nat.min v (x.lowest.getD v) = match x.lowest with
      | some least => Nat.min v least
      | none => v := by
    cases x.lowest with
    | some least => rfl
    | none => exact Nat.min_self v
  intro up
  unfold Supply.count
  rw [counts, counts, counts, counts, least]
  rfl

/-- What a reading does where the level does not change. -/
theorem supplyReading_same {input : Nat} {s : State}
    (h : (s.supply.count (readingOf input)).levelAfter = s.supply.level) :
    supplyReading input s = setSupply (Supply.count (readingOf input)) s :=
  if_pos h

theorem supplyReading_report {input : Nat} {s : State}
    (h : (s.supply.count (readingOf input)).levelAfter ≠ s.supply.level) :
    supplyReading input s = supplyReport (s.supply.count (readingOf input)).levelAfter (readingOf input)
      (setSupply (Supply.count (readingOf input)) s) :=
  if_neg h

/-! ### The brake -/

/-- The print engine after a level report, before its notice (R161). -/
def braked (level : Level) (s : State) : State :=
  if level = .normal then
    let set := s.print.brake
    let s := setPrint (fun p => { p with brake := false }) s
    if set then lineBoundary s else s
  else
    setPrint
      (fun p =>
        let p := { p with brake := true }
        if p.lineBusy then
          stopLine { p with abandonedLines := satInc max32 p.abandonedLines }
        else p) s

theorem brakeReport_eq (level : Level) (s : State) : brakeReport level s = printStep (braked level) s := rfl

theorem printStep_after (f : State → State) (s : State) :
    Moves (only []) (f s) (printStep f s) ∧ OwedKept (f s) (printStep f s) :=
  ⟨postWhen_moves _ _ _, postWhen_owed _ _ _⟩

theorem lineBoundary_link (s : State) : (lineBoundary s).link = s.link := by
  unfold lineBoundary
  split
  · rfl
  · split
    · rfl
    · rfl
    · split
      · split <;> rfl
      · rfl

theorem braked_link (level : Level) (s : State) : (braked level s).link = s.link := by
  unfold braked
  dsimp only
  split
  · split
    · exact lineBoundary_link _
    · rfl
  · rfl

theorem brakeReport_print (level : Level) (s : State) : (brakeReport level s).print = (braked level s).print :=
  (printStep_after (braked level) s).1.print_eq (by decide)

theorem brakeReport_owed (level : Level) (s : State) : OwedKept s (brakeReport level s) :=
  (OwedKept.of_link (braked_link level s)).trans (printStep_after (braked level) s).2

theorem braked_set {level : Level} (h : level ≠ .normal) (s : State) : (braked level s).print =
    let p := s.print
    if p.lineBusy then
      { p with
        brake := true, lineBusy := false, lineStale := false
        inHand := if p.lineStale then none else p.inHand
        abandonedLines := satInc 4294967295 p.abandonedLines }
    else { p with brake := true } := by
  unfold braked
  rw [if_neg h]
  cases busy : s.print.lineBusy <;> simp only [setPrint_print, busy] <;> rfl

theorem modifyActive_brake (f : Job → Job) (p : Print) : (modifyActive f p).brake = p.brake := by
  unfold modifyActive
  split
  · split <;> rfl
  · rfl

theorem renderFrom_brake (straps : Straps) (fuel : Nat) (p : Print) :
    (renderFrom straps fuel p).brake = p.brake := by
  induction fuel generalizing p with
  | zero => rfl
  | succ fuel ih =>
    unfold renderFrom
    split
    · rfl
    · split
      · rfl
      · dsimp only
        split
        · rw [ih, modifyActive_brake]
          exact modifyActive_brake _ _
        · exact modifyActive_brake _ _

theorem beginLine_brake (p : Print) : (beginLine p).brake = p.brake := by
  unfold beginLine
  split <;> rfl

theorem lineBoundary_brake (s : State) : (lineBoundary s).print.brake = s.print.brake := by
  unfold lineBoundary
  split
  · rfl
  · split
    · exact beginLine_brake _
    · exact (renderFrom_brake _ _ _).trans (beginLine_brake _)
    · split
      · split <;> rfl
      · rfl

theorem lineBoundary_stopped {s : State} (h : mayPrint s.print = false) : lineBoundary s = s :=
  if_pos (by simp [h])

theorem lineBoundary_inHand {s : State} {d : DotLine} (idle : s.print.lineBusy = false)
    (may : mayPrint s.print = true) (hand : s.print.inHand = some d) (owed : s.link.owed = none) :
    lineBoundary s = setPrint beginLine s := by
  have free : (s.print.lineBusy || !mayPrint s.print || printResetDue s.link) = false := by
    simp [idle, may, printResetDue, owed]
  unfold lineBoundary
  rw [if_neg (by rw [free]; decide)]
  cases hb : s.print.buffer <;> simp only [hand]

theorem braked_free (s : State) :
    let p := s.print
    let t := braked .normal s
    t.print.brake = false ∧ (p.brake = false → t.print = p) ∧
      (p.brake = true → mayPrint { p with brake := false } = false → t.print = { p with brake := false }) ∧
      (∀ d, p.brake = true → mayPrint { p with brake := false } = true → p.lineBusy = false →
        p.inHand = some d → p.paper = true → s.link.owed = none →
        t.print = { p with brake := false, lineBusy := true, lineSlow := p.tempClass == .hot }) := by
  intro p t
  let u := setPrint (fun p => { p with brake := false }) s
  have cases_ : t = if p.brake then lineBoundary u else u := if_pos rfl
  have off : p.brake = false → t = u := fun h => cases_.trans (if_neg (by rw [h]; decide))
  have on : p.brake = true → t = lineBoundary u := fun h => cases_.trans (if_pos h)
  refine ⟨?_, fun h => ?_, fun h stopped => ?_, fun d h may idle hand paper owed => ?_⟩
  · cases h : p.brake with
    | false =>
      rw [off h]
      rfl
    | true =>
      rw [on h]
      exact lineBoundary_brake u
  · rw [off h]
    change { p with brake := false } = p
    rw [← h]
  · rw [on h, lineBoundary_stopped stopped]
    rfl
  · rw [on h, lineBoundary_inHand (s := u) idle may hand owed]
    exact if_pos paper

/-! ### The survey -/

theorem surveyCritical_start {s : State} (h : s.survey.change = some .start) : surveyCritical s =
    refuse .supply (setSurvey (fun v => { v with change := none, changeDue := false }) s) := by
  simp only [surveyCritical, h]

theorem surveyCritical_none {s : State} (h : s.survey.change = none) : surveyCritical s =
    if recording s then setSurvey (fun v => { v with change := some .stopSupply }) s else s := by
  simp only [surveyCritical, h]

theorem surveyCritical_other {s : State} (h : s.survey.change ≠ none) (k : s.survey.change ≠ some .start) :
    surveyCritical s = s := by
  unfold surveyCritical
  split
  · next hs => exact absurd hs k
  · rfl
  · next hn => exact absurd hn h

theorem linkAnswer_current (st : Status) (b : ReplyBody) (l : Link) : (l.answer st b).current = none := by
  unfold Link.answer
  split
  · exact (startTransmit_owed _).2
  · next h => exact h

theorem linkAnswer_reply {st : Status} {b : ReplyBody} {l : Link} {kind : Nat} {tag : Byte} {clamped : Bool}
    (h : l.current = some ⟨kind, tag, clamped⟩) (sending : l.sending.isSome = true) :
    (l.answer st b).reply = some ⟨replyKind kind, tag, st, b⟩ := by
  simp only [Link.answer, h]
  rw [startTransmit_of_sends (by exact sending)]

/-! ### The report of a change of level -/

/-- A change of level told, before the report reaches the other blocks. -/
def levelTold (new : Level) (reading : Nat) (s : State) : State :=
  post (.supplyState new s.supply.level reading s.supply.low s.supply.critical) (setSupply (Supply.enter new) s)

theorem supplyReport_eq (new : Level) (reading : Nat) (s : State) : supplyReport new reading s =
    if new = .critical then surveyCritical (brakeReport new (levelTold new reading s))
    else brakeReport new (levelTold new reading s) := rfl

theorem levelTold_moves (new : Level) (reading : Nat) (s : State) :
    Moves (only [.supply]) s (levelTold new reading s) :=
  .trans (setSupply_moves _ s (by decide)) (.post _ _)

theorem levelTold_supply (new : Level) (reading : Nat) (s : State) :
    (levelTold new reading s).supply = s.supply.enter new :=
  (Moves.post (P := only []) _ (setSupply (Supply.enter new) s)).supply_eq (by decide)

theorem levelTold_owed (new : Level) (reading : Nat) (s : State) : OwedKept s (levelTold new reading s) :=
  OwedKept.trans (t := setSupply (Supply.enter new) s) (.of_link rfl) (post_owed _ _)

section
variable (new : Level) (reading : Nat) (s : State)

/-- The report as it reaches the print engine. -/
def engineTold : State := brakeReport new (levelTold new reading s)

theorem engineTold_moves : Moves (only [.supply, .print]) s (engineTold new reading s) :=
  .trans ((levelTold_moves new reading s).mono (by decide)) (brakeReport_moves _ _ (by decide))

theorem supplyReport_survey : Moves (only [.survey]) (engineTold new reading s) (supplyReport new reading s) := by
  rw [supplyReport_eq]
  exact .ite (surveyCritical_moves _ (by decide)) (.refl _)

theorem supplyReport_print : (supplyReport new reading s).print = (braked new (levelTold new reading s)).print :=
  ((supplyReport_survey new reading s).print_eq (by decide)).trans (brakeReport_print _ _)

theorem supplyReport_supply : (supplyReport new reading s).supply = s.supply.enter new := by
  rw [(supplyReport_survey new reading s).supply_eq (by decide), engineTold,
    (brakeReport_moves (P := only [.print]) new _ (by decide)).supply_eq (by decide), levelTold_supply]

end

/-! ### O59 -/

theorem eq_of_moves {s t : State} (m : Moves (only [.supply, .print, .survey]) s t) :
    t = { s with supply := t.supply, print := t.print, survey := t.survey, link := t.link } := by
  have held := m.held_eq
  have straps := m.straps_eq
  have clock := m.clock_eq (by decide)
  have bus := m.bus_eq (by decide)
  have roster := m.roster_eq (by decide)
  have receive := m.receive_eq (by decide)
  have tracker := m.tracker_eq (by decide)
  have rotation := m.rotation_eq (by decide)
  have sites := m.sites_eq (by decide)
  have sag := m.sag_eq (by decide)
  have capture := m.capture_eq (by decide)
  have harm := m.harm_eq (by decide)
  have store := m.store_eq (by decide)
  have free := m.free_eq (by decide)
  have pending := m.pending_eq
  rw [← held, ← straps, ← clock, ← bus, ← roster, ← receive, ← tracker, ← rotation, ← sites, ← sag, ← capture,
    ← harm, ← store, ← free, ← pending]

theorem clampNat_eq (x a b : Nat) (h : a ≤ b) : clampNat x a b = Nat.max a (Nat.min x b) := by
  change _ = max a (min x b)
  unfold clampNat
  split
  · omega
  · split <;> omega

theorem setThresholds_eq (low critical : Option Half) (z : Schedule) (s : State) :
    let x := s.supply
    let carried := fun (o : Option Half) (stored : Nat) => (o.map (·.toNat)).getD stored
    let l := Nat.max 1000 (Nat.min (carried low x.low) 1300)
    let c := Nat.min (Nat.max 900 (Nat.min (carried critical x.critical) 1200)) (l - 20)
    setThresholds low critical z s =
      answer (if l = carried low x.low ∧ c = carried critical x.critical then .ok else .okClamped)
        (.supplySettings l c z)
        { s with
          supply :=
            { x with
              low := l, critical := c, schedule := z, critIn := 0, lowIn := 0, critOut := 0
              lowOut := 0 } } := by
  intro x carried l c
  have hl : lowThreshold low s.supply = l := clampNat_eq _ _ _ (by decide)
  have hc : criticalThreshold critical l s.supply = c := congrArg (Nat.min · (l - 20)) (clampNat_eq _ _ _ (by decide))
  unfold setThresholds
  dsimp only
  rw [hl, hc]
  have status : (if (l != (half? low).getD s.supply.low || c != (half? critical).getD s.supply.critical) = true
      then Status.okClamped else .ok) =
      if l = carried low x.low ∧ c = carried critical x.critical then Status.ok else .okClamped := by
    have test : (l != (half? low).getD s.supply.low || c != (half? critical).getD s.supply.critical) = true ↔
        ¬(l = carried low x.low ∧ c = carried critical x.critical) := by
      rw [Bool.or_eq_true, bne_iff_ne, bne_iff_ne, not_and_or]
      rfl
    by_cases same : l = carried low x.low ∧ c = carried critical x.critical
    · rw [if_pos same, if_neg (fun k => test.1 k same)]
    · rw [if_neg same, if_pos (test.2 same)]
  rw [status]
  rfl

/-- Settles O59. -/
theorem supplyReadingsAndSettings : Obligations.SupplyReadingsAndSettings := by
  unfold Obligations.SupplyReadingsAndSettings
  refine ⟨fun input s q => ?readings, fun tag low critical schedule s h => ?settings⟩
  case readings =>
    intro v x p up y new
    have counted : s.supply.count (readingOf input) = y := count_eq v x
    have level : (s.supply.count (readingOf input)).levelAfter = new := by
      rw [counted]
      rfl
    have runs : exec (.supplyReading input) s = .next (supplyReading input s) :=
      (congrFun (exec_event rfl) s).trans
        (event_of_moves (supplyReading_moves (P := anyPart) input s trivial trivial trivial) q)
    refine ⟨fun same => ?same, fun moved => ?moved⟩
    case same =>
      rw [runs, supplyReading_same (by rw [level]; exact same), setSupply, counted]
    case moved =>
      let u := setSupply (Supply.count (readingOf input)) s
      have reports : supplyReading input s = supplyReport new v u := by
        rw [supplyReading_report (by rw [level]; exact moved), level]
        rfl
      have survey := supplyReport_survey new v u
      have engine := engineTold_moves new v u
      have told := levelTold_moves new v u
      have surveyU : (engineTold new v u).survey = s.survey := engine.survey_eq (by decide)
      have printU : (levelTold new v u).print = p := told.print_eq (by decide)
      have unowed : s.link.owed = none → (levelTold new v u).link.owed = none := fun h =>
        ((levelTold_owed new v u (by simp [u, setSupply, Link.noticeResetDue, h])).1).trans h
      have print : (supplyReading input s).print = (braked new (levelTold new v u)).print := by
        rw [reports, supplyReport_print]
      have atCritical : new = .critical → supplyReading input s = surveyCritical (engineTold new v u) := fun k => by
        rw [reports, supplyReport_eq, if_pos k]
        rfl
      have elsewhere : new ≠ .critical → supplyReading input s = engineTold new v u := fun k => by
        rw [reports, supplyReport_eq, if_neg k]
        rfl
      refine ⟨supplyReading input s, runs, eq_of_moves (supplyReading_moves input s (by decide) (by decide)
        (by decide)), ?supply, fun normal => ?free, fun set => ?set, fun k => ?kept, fun k start => ?start,
        fun k none_ => ?stops, fun k some_ other => ?pending, fun owed sending masked room => ?told⟩
      case supply =>
        rw [reports, supplyReport_supply]
        change Supply.enter new (s.supply.count (readingOf input)) = _
        rw [counted]
        rfl
      case free =>
        rw [print, normal]
        rw [normal] at printU unowed
        have free := braked_free (levelTold .normal v u)
        rw [printU] at free
        obtain ⟨off, idle, stopped, begins⟩ := free
        exact ⟨off, idle, stopped, fun d h may busy hand paper owed => begins d h may busy hand paper (unowed owed)⟩
      case set =>
        rw [print, braked_set set, printU]
      case kept =>
        rw [elsewhere k, surveyU]
      case start =>
        rw [atCritical k, surveyCritical_start (by rw [surveyU]; exact start)]
        refine ⟨?_, linkAnswer_current _ _ _, fun kind tag clamped current _ owed sending => ?_⟩
        · change { (engineTold new v u).survey with change := none, changeDue := false } = _
          rw [surveyU]
        · have sends : Sends u.link := ⟨sending, owed⟩
          refine linkAnswer_reply (clamped := clamped) ?_ ((engine.appends sends).sends sends).busy
          have kept := (levelTold_owed new v u).trans (brakeReport_owed new (levelTold new v u))
          exact (kept (by simp [u, setSupply, Link.noticeResetDue, owed])).2.trans current
      case stops =>
        rw [atCritical k, surveyCritical_none (by rw [surveyU]; exact none_)]
        by_cases recorded : s.survey.state = some .recording
        · rw [if_pos (by rw [recording, surveyU, recorded]; rfl), if_pos recorded]
          change { (engineTold new v u).survey with change := some .stopSupply } = _
          rw [surveyU]
        · rw [if_neg (by rw [recording, surveyU]; simpa using recorded), if_neg recorded, surveyU]
      case pending =>
        rw [atCritical k, surveyCritical_other (by rw [surveyU]; exact some_) (by rw [surveyU]; exact other), surveyU]
      case told =>
        have sends : Sends u.link := ⟨sending, owed⟩
        have posted : (levelTold new v u).link.notices =
            s.link.notices ++ [⟨.supplyState new x.level v x.low x.critical, s.clock.time⟩] :=
          post_mem (s := setSupply (Supply.enter new) u) sends masked room
        have after : Moves (only [.print, .survey]) (levelTold new v u) (supplyReading input s) := by
          rw [reports]
          exact .trans (brakeReport_moves _ _ (by decide)) (survey.mono (by decide))
        have appended := after.appends ((told.appends sends).sends sends)
        rw [← posted]
        exact appended.notices
  case settings =>
    intro x carried l c same
    have ⟨_, hc, _, _⟩ := h
    have answers : ∀ z : Schedule, serve (.supplySet low critical schedule) (waiting 0x28 tag s) =
        setThresholds low critical z (waiting 0x28 tag s) →
        exec (.supplySet tag low critical schedule) s =
          .next (replied 0xA8 tag (if same then .ok else .okClamped) (.supplySettings l c z)
            { s with
              supply :=
                { x with
                  low := l, critical := c, schedule := z, critIn := 0, lowIn := 0, critOut := 0
                  lowOut := 0 } }) := fun z serves =>
      request_answered tag (.supplySet low critical schedule) _ _ s _ h (by exact hc)
        (serves.trans (setThresholds_eq low critical z (waiting 0x28 tag s)))
    refine ⟨fun b hb beyond => ?_, fun z hz => answers z ?_⟩
    · refine request_refused tag (.supplySet low critical schedule) .badValue s h ?_
      intro u hu
      have none_ : schedule? b.toNat = none := by
        unfold schedule?
        split <;> first | omega | rfl
      subst hb hu
      simp only [serve, supplySet, none_]
    · rcases hz with ⟨rfl, rfl⟩ | ⟨rfl, rfl⟩ | ⟨rfl, rfl⟩ | ⟨rfl, rfl⟩ | ⟨rfl, rfl⟩ | ⟨rfl, rfl⟩ <;> rfl

end Sys2Proof.Machine
end

