-- ==== Sys2Proof/Proofs/SagChannels.lean ====
section
/-!
PROOFS. A sag channel at a boundary (R64 to R67, R75, R81), state by state, with O44.
-/

namespace Sys2Proof.Machine

namespace Channel

variable {b nc r : Nat} {below recovered : Bool} {c : Channel}

theorem take_normal (h : c.state = .normal) : c.take b nc below recovered r =
    if below then
      if nc ≤ 1 then ({ c with state := .sag, run := 0, sagStart := some b, minR := some r }, .sagged b)
      else ({ c with state := .pendingIn, run := 1, candidate := some b, minR := some r }, .still)
    else (c, .still) := by
  simp only [Channel.take, h]

theorem take_pendingIn (h : c.state = .pendingIn) : c.take b nc below recovered r =
    if below then
      if c.run + 1 < nc then ({ c with run := c.run + 1, minR := some (Nat.min r (c.minR.getD r)) }, .still)
      else
        ({ c with
            state := .sag, run := 0, candidate := none, sagStart := some (c.candidate.getD b)
            minR := some (Nat.min r (c.minR.getD r)) }, .sagged (c.candidate.getD b))
    else (c.rest, .still) := by
  simp only [Channel.take, h]

theorem take_sag (h : c.state = .sag) : c.take b nc below recovered r =
    if recovered then
      if nc ≤ 1 then c.recover b (Nat.min r (c.minR.getD r))
      else
        ({ c with
          state := .pendingOut, run := 1, candidate := some b, minR := some (Nat.min r (c.minR.getD r)) }, .still)
    else ({ c with minR := some (Nat.min r (c.minR.getD r)) }, .still) := by
  simp only [Channel.take, h]

theorem take_pendingOut (h : c.state = .pendingOut) : c.take b nc below recovered r =
    if recovered then
      if c.run + 1 < nc then ({ c with run := c.run + 1, minR := some (Nat.min r (c.minR.getD r)) }, .still)
      else c.recover (c.candidate.getD b) (Nat.min r (c.minR.getD r))
    else
      ({ c with state := .sag, run := 0, candidate := none, minR := some (Nat.min r (c.minR.getD r)) }, .still) := by
  simp only [Channel.take, h]

theorem atBoundary_value {x : Settings} {v : Value} (kept : c.lost = false) : c.atBoundary b x (some v) =
    (((c.take b x.nc (isBelow x v.r) (isRecovered x v.r) v.r).1).shown (some v),
      (c.take b x.nc (isBelow x v.r) (isRecovered x v.r) v.r).2) := by
  simp only [Channel.atBoundary, kept, Bool.false_eq_true, if_false]

theorem atBoundary_none {x : Settings} (kept : c.lost = false) :
    c.atBoundary b x none = (c.shown none, .still) := by
  simp only [Channel.atBoundary, kept, Bool.false_eq_true, if_false]

theorem atBoundary_lost {x : Settings} (lost : c.lost = true) (v : Option Value) :
    c.atBoundary b x v = (c.rest.shown none,
      if c.holds then .lost (c.minR.getD 0) (c.halves b) else .still) := by
  simp only [Channel.atBoundary, lost, if_true]
  rfl

theorem holds_iff : c.holds = true ↔ c.state = .sag ∨ c.state = .pendingOut := by
  simp [Channel.holds]

end Channel

/-- Settles O44. -/
theorem channelFollowsItsTable : Obligations.ChannelFollowsItsTable := by
  unfold Obligations.ChannelFollowsItsTable
  intro b x v c nc below recovered least half goes rest
  have isBelow_iff : isBelow x v.r = true ↔ below := by simp [isBelow, below]
  have isRecovered_iff : isRecovered x v.r = true ↔ recovered := by simp [isRecovered, recovered]
  refine ⟨fun kept => ?_, fun lost value => ?_⟩
  · have value : ∀ {d m}, c.take b x.nc (isBelow x v.r) (isRecovered x v.r) v.r = (d, m) →
        d.window = c.window → goes d m := fun {d m} h same => by
      change c.atBoundary b x (some v) = _
      rw [Channel.atBoundary_value kept, h, ← same]
      rfl
    refine ⟨?normalOne, ?normalMore, ?normal, ?inGoes, ?inDone, ?inBack, ?sagOne, ?sagMore, ?sag, ?outGoes, ?outDone,
      ?outBack, Channel.atBoundary_none kept⟩
    case normalOne =>
      exact fun h k one => value ((Channel.take_normal h).trans
        ((if_pos (isBelow_iff.2 k)).trans (if_pos (Nat.le_of_eq one)))) rfl
    case normalMore =>
      exact fun h k more => value ((Channel.take_normal h).trans
        ((if_pos (isBelow_iff.2 k)).trans (if_neg (Nat.not_le.2 more)))) rfl
    case normal =>
      exact fun h k => value ((Channel.take_normal h).trans (if_neg (mt isBelow_iff.1 k))) rfl
    case inGoes =>
      exact fun h k few => value ((Channel.take_pendingIn h).trans
        ((if_pos (isBelow_iff.2 k)).trans (if_pos few))) rfl
    case inDone =>
      intro first h k full hc
      refine value ((Channel.take_pendingIn h).trans
        ((if_pos (isBelow_iff.2 k)).trans ((if_neg (Nat.not_lt.2 full)).trans ?_))) rfl
      rw [hc]
      rfl
    case inBack =>
      exact fun h k => value ((Channel.take_pendingIn h).trans (if_neg (mt isBelow_iff.1 k))) rfl
    case sagOne =>
      exact fun h k one => value ((Channel.take_sag h).trans
        ((if_pos (isRecovered_iff.2 k)).trans (if_pos (Nat.le_of_eq one)))) rfl
    case sagMore =>
      exact fun h k more => value ((Channel.take_sag h).trans
        ((if_pos (isRecovered_iff.2 k)).trans (if_neg (Nat.not_le.2 more)))) rfl
    case sag =>
      exact fun h k => value ((Channel.take_sag h).trans (if_neg (mt isRecovered_iff.1 k))) rfl
    case outGoes =>
      exact fun h k few => value ((Channel.take_pendingOut h).trans
        ((if_pos (isRecovered_iff.2 k)).trans (if_pos few))) rfl
    case outDone =>
      intro first h k full hc
      refine value ((Channel.take_pendingOut h).trans
        ((if_pos (isRecovered_iff.2 k)).trans ((if_neg (Nat.not_lt.2 full)).trans ?_))) rfl
      rw [hc]
      rfl
    case outBack =>
      exact fun h k => value ((Channel.take_pendingOut h).trans (if_neg (mt isRecovered_iff.1 k))) rfl
  · rw [Channel.atBoundary_lost lost]
    exact congrArg (Prod.mk _) (if_congr Channel.holds_iff rfl rfl)

end Sys2Proof.Machine
end

