-- ==== Sys2Proof/Proofs/EventCloses.lean ====
section
/-!
PROOFS. An event that closes (R71, R72, R78 to R80): the worst of its list, its end boundary and its record, with
O46.
-/

namespace Sys2Proof.Machine

/-! ### The worst of the list and the end boundary -/

/-- R72: the lowest minimum of a list, and the first entry that has it. -/
theorem worstOf_cons (x : Involved) (rest : List Involved) :
    (∀ i ∈ x :: rest, (worstOf (x :: rest)).2 ≤ i.minR) ∧
      ∃ i, (x :: rest).find? (fun i => i.minR = (worstOf (x :: rest)).2) = some i ∧
        i.role = (worstOf (x :: rest)).1 := by
  induction rest generalizing x with
  | nil =>
    refine ⟨fun i hi => ?_, x, ?_, rfl⟩
    · rw [List.mem_singleton.1 hi]
      exact le_refl _
    · exact List.find?_cons_of_pos (by simp [worstOf])
  | cons y rest ih =>
    by_cases lower : y.minR < x.minR
    · have same : worstOf (x :: y :: rest) = worstOf (y :: rest) := by
        simp only [worstOf, List.foldl_cons, if_pos lower]
      obtain ⟨least, i, found, role⟩ := ih y
      rw [same]
      have first := least y (List.mem_cons_self ..)
      refine ⟨fun k hk => ?_, i, ?_, role⟩
      · rcases List.mem_cons.1 hk with rfl | hk
        · omega
        · exact least k hk
      · rw [List.find?_cons_of_neg (by simp; omega)]
        exact found
    · have same : worstOf (x :: y :: rest) = worstOf (x :: rest) := by
        simp only [worstOf, List.foldl_cons, if_neg lower]
      obtain ⟨least, i, found, role⟩ := ih x
      rw [same]
      have first := least x (List.mem_cons_self ..)
      refine ⟨fun k hk => ?_, i, ?_, role⟩
      · rcases List.mem_cons.1 hk with rfl | hk
        · exact first
        · rcases List.mem_cons.1 hk with rfl | hk
          · omega
          · exact least k (List.mem_cons_of_mem _ hk)
      · by_cases here : x.minR = (worstOf (x :: rest)).2
        · rw [List.find?_cons_of_pos (by simpa using here)] at found ⊢
          exact found
        · rw [List.find?_cons_of_neg (by simpa using here)] at found ⊢
          rw [List.find?_cons_of_neg (by simp; omega)]
          exact found

theorem worstOf_spec {xs : List Involved} (h : xs ≠ []) :
    (∀ i ∈ xs, (worstOf xs).2 ≤ i.minR) ∧
      ∃ i, xs.find? (fun i => i.minR = (worstOf xs).2) = some i ∧ i.role = (worstOf xs).1 := by
  obtain ⟨x, rest, rfl⟩ := List.exists_cons_of_ne_nil h
  exact worstOf_cons x rest

theorem foldl_least {α : Type} (f : α → Nat) (xs : List α) : ∀ x,
    let best := xs.foldl (fun best y => if f y < f best then y else best) x
    best ∈ x :: xs ∧ ∀ y ∈ x :: xs, f best ≤ f y := by
  induction xs with
  | nil => exact fun x => ⟨List.mem_singleton.2 rfl, fun y hy => by rw [List.mem_singleton.1 hy]; exact le_refl _⟩
  | cons z xs ih =>
    intro x
    obtain ⟨mem, least⟩ := ih (if f z < f x then z else x)
    have start := least _ (List.mem_cons_self ..)
    have better : f (if f z < f x then z else x) ≤ f x ∧ f (if f z < f x then z else x) ≤ f z := by
      split <;> omega
    refine ⟨?_, fun y hy => ?_⟩
    · rcases List.mem_cons.1 mem with h | h
      · rw [List.foldl_cons, h]
        split
        · exact List.mem_cons_of_mem _ (List.mem_cons_self ..)
        · exact List.mem_cons_self ..
      · exact List.mem_cons_of_mem _ (List.mem_cons_of_mem _ h)
    · rw [List.foldl_cons]
      rcases List.mem_cons.1 hy with rfl | hy
      · exact start.trans better.1
      · rcases List.mem_cons.1 hy with rfl | hy
        · exact start.trans better.2
        · exact least y (List.mem_cons_of_mem _ hy)

/-- R71: the latest recovery of the list, or the closing boundary where there is none. -/
theorem endBoundary_spec (c : Nat) (e : OpenEvent) :
    endBoundary c e = c ∧ (∀ i ∈ e.involved, i.recovery = none) ∨
      (∃ i ∈ e.involved, i.recovery = some (endBoundary c e)) ∧
        ∀ i ∈ e.involved, ∀ x, i.recovery = some x → frameDiff c (endBoundary c e) ≤ frameDiff c x := by
  unfold endBoundary
  cases h : e.involved.filterMap (·.recovery) with
  | nil =>
    refine .inl ⟨rfl, fun i hi => ?_⟩
    by_contra some_
    obtain ⟨x, hx⟩ := Option.ne_none_iff_exists'.1 some_
    have mem : x ∈ e.involved.filterMap (·.recovery) := List.mem_filterMap.2 ⟨i, hi, hx⟩
    rw [h] at mem
    cases mem
  | cons x rest =>
    obtain ⟨mem, least⟩ := foldl_least (frameDiff c) rest x
    rw [← h] at mem least
    refine .inr ⟨List.mem_filterMap.1 mem, fun i hi y hy => least y (List.mem_filterMap.2 ⟨i, hi, hy⟩)⟩

/-- The milliseconds between two clock times, over the wrap where the later reads less. -/
theorem msBetween_spec (a b : ClockTime) :
    let ms := fun (x : ClockTime) => x.sec * 1000 + x.ms
    (ms b ≤ ms a → ms a < 2 ^ 32 * 1000 → msBetween a b = ms a - ms b) ∧
      (ms a < ms b → ms b < 2 ^ 32 * 1000 → msBetween a b = ms a + 2 ^ 32 * 1000 - ms b) := by
  intro ms
  have total : ∀ x : ClockTime, x.total = ms x := fun _ => rfl
  unfold msBetween
  rw [total, total]
  refine ⟨fun h k => ?_, fun h k => ?_⟩
  · rw [show ms a + 4294967296000 - ms b = ms a - ms b + 4294967296000 by omega, Nat.add_mod_right,
      Nat.mod_eq_of_lt (by omega)]
  · exact Nat.mod_eq_of_lt (by omega)

/-! ### The close -/

/-- The state in which a closing event offers its record. -/
def eventClosed (site c : Nat) (told : Option Nat) (e : OpenEvent) (s : State) : State :=
  markClose site told (setEvent none site (closeCapture site c e s))

theorem eventClosed_moves (site c : Nat) (told : Option Nat) (e : OpenEvent) (s : State) :
    Moves (only [.capture, .sag, .harm]) s (eventClosed site c told e s) :=
  .trans (.trans (closeCapture_moves _ _ _ _ (by decide)) (setEvent_moves _ _ _ (by decide)))
    (markClose_moves _ _ _ (by decide))

theorem eventClosed_link (site c : Nat) (told : Option Nat) (e : OpenEvent) (s : State) :
    (eventClosed site c told e s).link = s.link := by
  change (closeCapture site c e s).link = s.link
  unfold closeCapture
  split <;> rfl

/-- R123: the queue takes an EVENT record. -/
def eventFits (s : State) : Bool := storeUp s.store && s.store.state != .full && queueRoom s.store

theorem eventFits_iff (s : State) : eventFits s = true ↔
    s.store.state ≠ .mounting ∧ s.store.state ≠ .wiping ∧ s.store.state ≠ .full ∧
      s.store.queue.length < 16 := by
  have room : queueRoom s.store = true ↔ s.store.queue.length < 16 := decide_eq_true_iff
  simp [eventFits, storeUp, room, and_assoc]

theorem offerEvent_fits {r : EventRecord} {s : State} (h : eventFits s = true) : offerEvent r s =
    (true, setStore (Store.enqueue r.id
      (.event { r with flags := { r.flags with clockUnset := !s.clock.valid } }) {}) s) := by
  have fits : (storeUp s.store && s.store.state != .full && queueRoom s.store) = true := h
  simp only [offerEvent, fits, if_true]

theorem offerEvent_dropped {r : EventRecord} {s : State} (h : eventFits s = false) : offerEvent r s =
    (false, setStore (fun st => { st with eventDrops := satInc 4294967295 st.eventDrops }) s) := by
  have full : (storeUp s.store && s.store.state != .full && queueRoom s.store) = false := h
  simp only [offerEvent, full, Bool.false_eq_true, if_false]
  rfl

/-- The record of a closing event, with CLOCK_UNSET as it is told. -/
def toldRecord (site c : Nat) (e : OpenEvent) (s : State) : EventRecord :=
  { eventRecord s site c e with
    flags := { (eventRecord s site c e).flags with clockUnset := eventFits s && !s.clock.valid } }

/-- LONG and CLOCK_UNSET of an event's flags are those of its record; the others are those it has collected. -/
theorem eventFlags_kept (f : EventFlags) (long unset : Bool) :
    let g : EventFlags := { { f with long := long } with clockUnset := unset }
    g.truncated = f.truncated ∧ g.probeLost = f.probeLost := ⟨rfl, rfl⟩

theorem toldRecord_flags (site c : Nat) (e : OpenEvent) (s : State) :
    (toldRecord site c e s).flags.truncated = e.flags.truncated ∧
      (toldRecord site c e s).flags.probeLost = e.flags.probeLost :=
  eventFlags_kept e.flags (decide (65535 < halfCycles (endBoundary c e) e.startFrame))
    (eventFits s && !s.clock.valid)

/-- The store after a closing event has offered its record. -/
theorem closeEvent_eq (site c : Nat) (told : Option Nat) (e : OpenEvent) (s : State) :
    closeEvent site c told e s = post (.eventClose (eventSummary (toldRecord site c e s)) (!eventFits s))
      (if eventFits s then
        setStore (Store.enqueue e.id (.event (toldRecord site c e s)) {}) (eventClosed site c told e s)
      else
        setStore (fun st => { st with eventDrops := satInc 4294967295 st.eventDrops })
          (eventClosed site c told e s)) := by
  have moves := eventClosed_moves site c told e s
  have fits : eventFits (eventClosed site c told e s) = eventFits s := by
    rw [eventFits, moves.store_eq (by decide)]
    rfl
  have clock := moves.clock_eq (by decide)
  have shape : closeEvent site c told e s =
      let o := offerEvent (eventRecord s site c e) (eventClosed site c told e s)
      post (.eventClose (eventSummary { eventRecord s site c e with
        flags := { (eventRecord s site c e).flags with clockUnset := o.1 && !o.2.clock.valid } }) (!o.1)) o.2 := rfl
  rw [shape]
  cases h : eventFits s with
  | true =>
    rw [offerEvent_fits (by rw [fits]; exact h)]
    simp only [setStore_clock, clock, toldRecord, h, if_true]
    rfl
  | false =>
    rw [offerEvent_dropped (by rw [fits]; exact h)]
    simp only [setStore_clock, clock, toldRecord, h, Bool.false_eq_true, if_false]

/-- Settles O46. -/
theorem eventCloseMakesTheRecord : Obligations.EventCloseMakesTheRecord := by
  unfold Obligations.EventCloseMakesTheRecord
  intro site c told e s shaped hs some_ t up
  have moves : Moves (only [.capture, .sag, .harm, .store]) s t :=
    closeEvent_moves site c told e s (by decide) (by decide) (by decide) (by decide)
  have closed := eventClosed_moves site c told e s
  have shapedClosed := closed.shaped shaped
  have same := closeEvent_eq site c told e s
  have isUp : eventFits s = true ↔ up := eventFits_iff s
  let v := if eventFits s then
      setStore (Store.enqueue e.id (.event (toldRecord site c e s)) {}) (eventClosed site c told e s)
    else
      setStore (fun st => { st with eventDrops := satInc 4294967295 st.eventDrops }) (eventClosed site c told e s)
  have posted : t = post (.eventClose (eventSummary (toldRecord site c e s)) (!eventFits s)) v := same
  have after := Moves.post (P := only []) (.eventClose (eventSummary (toldRecord site c e s)) (!eventFits s)) v
  rw [← posted] at after
  have sag : t.sag = (eventClosed site c told e s).sag := by
    rw [after.sag_eq (by decide)]
    simp only [v]
    split <;> rfl
  have harm : t.harm = (eventClosed site c told e s).harm := by
    rw [after.harm_eq (by decide)]
    simp only [v]
    split <;> rfl
  have store : t.store = v.store := after.store_eq (by decide)
  have storeClosed : (eventClosed site c told e s).store = s.store := closed.store_eq (by decide)
  obtain ⟨least, i, found, role⟩ := worstOf_spec some_
  obtain ⟨truncated, probeLost⟩ := toldRecord_flags site c e s
  refine ⟨?event, ?mark, ?ids, moves.array_eq (by decide), moves.sites_eq (by decide), moves.roster_eq (by decide),
    moves.survey_eq (by decide), moves.print_eq (by decide), toldRecord site c e s, rfl, rfl, rfl, rfl, rfl, rfl,
    least, ⟨i, found, role⟩, decide_eq_true_iff, rfl, truncated, probeLost, ⟨endBoundary c e, endBoundary_spec c e, ?_⟩, ?fits,
    ?dropped, ?link⟩
  case event =>
    rw [sagSite, sag]
    change (sagSite (setEvent none site (closeCapture site c e s)) site).event = none
    rw [setEvent, sagSite_modifySag _ _ _ (by
      rw [(closeCapture_moves (P := only [.capture]) site c e s (by decide)).sag_eq (by decide), shaped.sag_length]
      exact hs)]
  case mark =>
    rw [harmSite, harm]
    change (harmSite (markClose site told (setEvent none site (closeCapture site c e s))) site).mark = none
    rw [markClose, harmSite_modifyHarm _ _ _ (by
      change site < (closeCapture site c e s).harm.sites.length
      rw [(closeCapture_moves (P := only [.capture]) site c e s (by decide)).harm_eq (by decide), shaped.harm_length]
      exact hs)]
  case ids =>
    rw [store]
    simp only [v]
    split
    · rw [setStore_store, storeClosed]
      rfl
    · rw [setStore_store, storeClosed]
  case fits =>
    intro k
    have fits := isUp.2 k
    rw [store]
    simp only [v, fits, if_true]
    change (Store.enqueue e.id (.event (toldRecord site c e s)) {} (eventClosed site c told e s).store).queue = _ ∧
      (Store.enqueue e.id (.event (toldRecord site c e s)) {} (eventClosed site c told e s).store).eventDrops = _ ∧ _
    rw [storeClosed]
    refine ⟨rfl, rfl, ?_⟩
    simp only [toldRecord, fits, Bool.true_and]
  case dropped =>
    intro k
    have full : eventFits s = false := Bool.eq_false_iff.2 (mt isUp.1 k)
    rw [store]
    simp only [v, full, Bool.false_eq_true, if_false]
    rw [setStore_store, storeClosed]
    exact ⟨rfl, rfl⟩
  case link =>
    have linkV : v.link = s.link := by
      simp only [v]
      split <;> exact eventClosed_link site c told e s
    have clockV : v.clock = s.clock := by
      simp only [v]
      split <;> exact closed.clock_eq (by decide)
    have flag : (!eventFits s) = decide ¬up := by
      cases h : eventFits s with
      | true => rw [decide_eq_false (not_not.2 (isUp.1 h))]; rfl
      | false => rw [decide_eq_true (mt isUp.2 (by rw [h]; decide))]; rfl
    rw [posted, ← flag]
    change v.link.post _ = _
    rw [linkV, clockV]
    rfl
  · have half : (toldRecord site c e s).half =
        Nat.min 65535 (frameDiff (endBoundary c e) e.startFrame / 64) := rfl
    have long : (toldRecord site c e s).flags.long =
        decide (65535 < frameDiff (endBoundary c e) e.startFrame / 64) := rfl
    dsimp only
    rw [half, long]
    refine ⟨Nat.min_comm _ _, decide_eq_true_iff, fun b hb => ?_⟩
    have time : ((sagSite s site).timeOf (endBoundary c e)).getD s.bus.frameTime = b.time := by
      have at_ : (sagSite s site).history.find? (fun b => b.frame == endBoundary c e) = some b := hb
      rw [SagSite.timeOf, at_]
      rfl
    have ends : (toldRecord site c e s).endTime = b.time := time
    have lasts : (toldRecord site c e s).ms = msBetween b.time e.startTime := congrArg (msBetween · e.startTime) time
    rw [ends, lasts]
    exact ⟨rfl, msBetween_spec b.time e.startTime⟩

end Sys2Proof.Machine
end

