-- ==== Sys2Proof/Proofs/StatusRequests.lean ====
section
/-!
PROOFS. The status requests (R81, R92, R114, R135, R167, R173): the figures that each counts, with O47.
-/

namespace Sys2Proof.Machine

/-! ### Tables of known length -/

theorem map_eq_range {α β : Type} (f : α → β) (d : α) {xs : List α} {n : Nat} (h : xs.length = n) :
    xs.map f = (List.range n).map fun i => f (xs.getD i d) := by
  refine List.ext_getElem (by simp [h]) fun i h1 h2 => ?_
  have inside : i < xs.length := by simpa using h1
  rw [List.getElem_map, List.getElem_map, List.getElem_range, List.getD_eq_getElem _ _ inside]

theorem zipIdx_eq_range {α : Type} (d : α) {xs : List α} {n : Nat} (h : xs.length = n) :
    xs.zipIdx = (List.range n).map fun i => (xs.getD i d, i) := by
  refine List.ext_getElem (by simp [h]) fun i h1 h2 => ?_
  have inside : i < xs.length := by simpa using h1
  rw [List.getElem_map, List.getElem_range, List.getElem_zipIdx, List.getD_eq_getElem _ _ inside, Nat.zero_add]

theorem getD_zip {α β : Type} {xs : List α} {ys : List β} (a : α) (b : β) {i : Nat} (hx : i < xs.length)
    (hy : i < ys.length) : (xs.zip ys).getD i (a, b) = (xs.getD i a, ys.getD i b) := by
  rw [List.getD_eq_getElem _ _ (by simpa using ⟨hx, hy⟩), List.getElem_zip, List.getD_eq_getElem _ _ hx,
    List.getD_eq_getElem _ _ hy]

theorem countP_of_filter {α : Type} (p : α → Bool) (q : α → Prop) [DecidablePred q] (h : ∀ x, p x = true ↔ q x)
    (xs : List α) : (xs.filter p).length = xs.countP fun x => q x := by
  rw [← List.countP_eq_length_filter]
  refine List.countP_congr fun x _ => ?_
  rw [h x, decide_eq_true_iff]

/-! ### The store's figures -/

/-- Entries counted by kind. -/
theorem countKinds_fold (xs : List Entry) : ∀ p : PerKind,
    let count := fun (kind : RecordKind) => xs.countP fun e => e.kind = kind
    xs.foldl (fun p e => p.modify (· + 1) e.kind) p =
      ⟨p.event + count .event, p.interval + count .interval, p.note + count .note, p.survey + count .survey,
        p.lockMark + count .lockMark⟩ := by
  induction xs with
  | nil => exact fun p => rfl
  | cons e xs ih =>
    intro p
    simp only [List.foldl_cons, ih, List.countP_cons]
    cases he : e.kind <;> simp [PerKind.modify, Nat.add_assoc, Nat.add_comm 1]

theorem countKinds_eq (st : Store) (state : EntryState) :
    let count := fun (kind : RecordKind) => st.dir.countP fun e => e.kind = kind ∧ e.state = state
    countKinds st state = ⟨count .event, count .interval, count .note, count .survey, count .lockMark⟩ := by
  intro count
  have each : ∀ kind, (st.dir.filter fun e => e.state == state).countP (fun e => e.kind = kind) = count kind :=
    fun kind => by
      rw [List.countP_filter]
      exact List.countP_congr fun e _ => by simp
  rw [countKinds, countKinds_fold]
  simp only [each, Nat.zero_add]

theorem blocksIn_eq (st : Store) (state : EntryState) :
    blocksIn st state = ((st.dir.filter fun e => e.state = state).map (·.size)).sum := by
  have same : (st.dir.filter fun e => e.state == state) = st.dir.filter fun e => e.state = state :=
    List.filter_congr fun e _ => rfl
  exact congrArg (fun es => (es.map Entry.size).sum) same

theorem storeView_eq (st : Store) :
    let sizes := fun (state : EntryState) => ((st.dir.filter fun e => e.state = state).map (·.size)).sum
    let count := fun (state : EntryState) (kind : RecordKind) =>
      st.dir.countP fun e => e.kind = kind ∧ e.state = state
    let counts := fun (state : EntryState) =>
      (⟨count state .event, count state .interval, count state .note, count state .survey,
        count state .lockMark⟩ : PerKind)
    let sectors := st.opening.countP (·.isNone)
    let headFree := if st.head.isSome then 64 - st.headUsed else 0
    let erased := 64 * sectors + headFree
    storeView st =
      { live := sizes .live, dead := sizes .dead
        padding := 4096 - (sizes .live + sizes .dead + erased), erased := erased
        erasedSectors := sectors, head := st.head, headFree := headFree
        reclaim := st.reclaim.map (·.sector), queued := counts .queued
        liveEntries := counts .live, deadEntries := counts .dead
        waiting := st.queue.length, nextIds := st.nextIds, limits := st.limits
        nextSeq := st.nextSeq, lockMark := st.lockMark, extSector := st.extSector
        eventDrops := st.eventDrops, intervalDrops := st.intervalDrops
        discards := st.discards, reclaims := st.reclaims } := by
  intro sizes count counts sectors headFree_ erased
  have erasedCount : (erasedSectors st).length = sectors := erasedSectors_length st
  unfold storeView paddingBlocks erasedBlocks
  rw [blocksIn_eq, blocksIn_eq, countKinds_eq, countKinds_eq, countKinds_eq, erasedCount]
  rfl

/-! ### The engines' figures -/

theorem harmonicMembers_eq {s : State} {n : Nat} (h : Shaped s) (hn : n < 4) :
    (((siteOf s n).members.zip (harmSite s n).members).zipIdx.filterMap fun x =>
      x.1.1.map fun m => harmView x.2 m x.1.2) =
      (List.range 8).filterMap fun role => (memberOf s n role).map fun m => harmView role m (harmMember s n role) := by
  have hm := h.members_length hn
  have hh := h.harmMembers_length hn
  rw [zipIdx_eq_range ((none, {}) : Option Member × HarmMember) (n := 8) (by rw [List.length_zip, hm, hh]; rfl),
    List.filterMap_map]
  refine List.filterMap_congr fun role hrole => ?_
  have inside := List.mem_range.1 hrole
  simp only [Function.comp]
  rw [getD_zip (none : Option Member) ({} : HarmMember) (by omega) (by omega)]
  rfl

theorem cacheKinds_eq (p : Print) : cacheKinds p =
    match p.ring.head?.filter fun j => j.phase.isSome with
    | none => []
    | some j =>
      (p.cache.filter fun e => !isCancelTrailer e).map fun e =>
        if e.item = 0 then .header
        else match j.sections[e.item - 1]? with
          | some x => .body (sectionCode x.content)
          | none => .trailer := by
  unfold cacheKinds activeJob
  cases p.ring.head?.filter fun j => j.phase.isSome with
  | none => rfl
  | some j =>
    refine List.map_congr_left fun e _ => ?_
    have body : itemSection j e.item = if e.item = 0 then none else j.sections[e.item - 1]? := rfl
    unfold itemKind
    by_cases first : e.item = 0
    · rw [if_pos first, if_pos first]
    · refine (if_neg first).trans (Eq.trans ?_ (if_neg first).symm)
      have at_ := body.trans (if_neg first)
      generalize itemSection j e.item = x at at_ ⊢
      subst at_
      cases j.sections[e.item - 1]? <;> rfl

theorem pinCount_eq (j : Job) :
    pinCount j = (j.sections.map fun x => x.pins.length + if x.capturePin.isSome then 1 else 0).sum := by
  unfold pinCount
  congr 1
  refine List.map_congr_left fun x _ => ?_
  cases x.capturePin <;> rfl

theorem printView_eq (p : Print) :
    let atWork := p.ring.head?.filter fun j => j.phase.isSome
    printView p =
      { mech :=
          { mech := mechState p, inHand := p.inHand.isSome, lineBusy := p.lineBusy, brake := p.brake
            latch := p.latch, tempClass := p.tempClass, paper := p.paper, temp := p.temp }
        fill := p.buffer.length
        cache := match atWork with
          | none => []
          | some j =>
            (p.cache.filter fun e => !isCancelTrailer e).map fun e =>
              if e.item = 0 then .header
              else match j.sections[e.item - 1]? with
                | some x => .body (sectionCode x.content)
                | none => .trailer
        active := atWork.map fun j => (j.id, j.phase, j.renderCopy, j.renderItem, j.tallies)
        jobs := p.ring.map fun j =>
          (j.id, j.phase, (j.sections.map fun x => x.pins.length + if x.capturePin.isSome then 1 else 0).sum)
        done := p.done.length, nextJob := p.nextJob, submits := p.submits, completions := p.completions
        stalls := p.stalls, abandonedLines := p.abandonedLines } := by
  intro atWork
  have jobs : (fun j : Job => (j.id, j.phase, pinCount j)) = fun j =>
      (j.id, j.phase, (j.sections.map fun x => x.pins.length + if x.capturePin.isSome then 1 else 0).sum) :=
    funext fun j => by rw [pinCount_eq]
  unfold printView
  rw [cacheKinds_eq, jobs]
  rfl

/-- Settles O47. -/
theorem statusRequestsAnswer : Obligations.StatusRequestsAnswer := by
  unfold Obligations.StatusRequestsAnswer
  intro tag site s h shaped n st p busy
  have ⟨_, hc, _, _⟩ := h
  have isBusy : arrayBusy st = busy := by
    simp only [arrayBusy, storeUp, busy, Bool.or_assoc]
    cases st.state <;> rfl
  refine ⟨fun beyond => ?_, fun within => ?_, ?_, fun beyond => ?_, fun within => ?_, fun down => ?_,
    fun mounted wiped => ?_, ?_, fun clear => ?_⟩
  case refine_1 => exact request_refused tag (.sagStatus site) .badValue s h fun u hu => if_pos beyond
  case refine_2 =>
    have channels : (sagSite s n).channels.map channelView =
        (List.range 3).map fun role => channelView (channelOf s n role) :=
      map_eq_range channelView {} (shaped.channels_length (Nat.lt_succ_of_le within))
    refine request_answered tag (.sagStatus site) .ok _ s s h hc
      ((if_neg (Nat.not_lt.2 within)).trans (congrArg (fun v => answer .ok (.sagStatus v _ _) _) channels))
  case refine_3 =>
    have views : s.capture.slots.map captureView = (List.range 12).map fun i => captureView (captureSlot s i) :=
      map_eq_range captureView {} shaped.slots_length
    have free := countP_of_filter (fun c : CaptureSlot => c.state == .free) (fun c => c.state = .free)
      (fun c => by simp) s.capture.slots
    refine request_answered tag .captureList .ok _ s s h hc
      (congrArg₂ (fun v f => answer .ok (.captureList v f) _) views free)
  case refine_4 => exact request_refused tag (.harmonicStatus site) .badValue s h fun u hu => if_pos beyond
  case refine_5 =>
    exact request_answered tag (.harmonicStatus site) .ok _ s s h hc ((if_neg (Nat.not_lt.2 within)).trans
      (congrArg (fun v => answer .ok (.harmonicStatus _ _ _ _ _ v) _)
        (harmonicMembers_eq shaped (Nat.lt_succ_of_le within))))
  case refine_6 =>
    have notUp : ¬storeUp st = true := by simp only [storeUp]; rcases down with down | down <;> simp [down]
    exact request_answered tag .storeStatus .ok _ s s h hc
      (congrArg₂ (fun b v => answer .ok (.storeStatus st.state st.mode b v) _) isBusy (if_neg notUp))
  case refine_7 =>
    have up : storeUp st = true := by simp [storeUp, mounted, wiped]
    exact request_answered tag .storeStatus .ok _ s s h hc
      (congrArg₂ (fun b v => answer .ok (.storeStatus st.state st.mode b v) _) isBusy
        ((if_pos up).trans (congrArg some (storeView_eq st))))
  case refine_8 =>
    exact request_answered tag .printStatus .ok _ s s h hc
      (congrArg (fun v => answer .ok (.printStatus v) _) (printView_eq p))
  case refine_9 =>
    have forced : forcedByPrint s = decide (mechState p ≠ .idle) := by
      unfold forcedByPrint
      cases mechState s.print <;> rfl
    refine request_answered tag (.supplyStatus clear) .ok _ s
      { s with supply := { s.supply with lowest := if clear then s.supply.reading else s.supply.lowest } } h hc ?_
    cases clear with
    | false =>
      exact congrArg₂ (fun f b => answer .ok (.supplyStatus _ _ _ _ _ f b _ _ _ _ _ _ _) _) forced isBusy
    | true =>
      exact congrArg₂ (fun f b => answer .ok (.supplyStatus _ _ _ _ _ f b _ _ _ _ _ _ _) _) forced isBusy

end Sys2Proof.Machine
end

