-- ==== Sys2Proof/Proofs/CaptureRequests.lean ====
section
/-!
PROOFS. The capture unit's command and requests (R89, R93, R94), with O48.
-/

namespace Sys2Proof.Machine

theorem updateAt_eq_set {α : Type} (f : α → α) (d : α) (n : Nat) (xs : List α) :
    updateAt f n xs = xs.set n (f (xs.getD n d)) := by
  induction xs generalizing n with
  | nil => cases n <;> rfl
  | cons x xs ih =>
    cases n with
    | zero => rfl
    | succ n => exact congrArg (x :: ·) (ih n)

theorem modifyCapture_eq_set (f : CaptureSlot → CaptureSlot) (i : Nat) (s : State) :
    modifyCapture f i s =
      { s with capture := { s.capture with slots := s.capture.slots.set i (f (captureSlot s i)) } } :=
  congrArg (fun xs => { s with capture := { s.capture with slots := xs } })
    (updateAt_eq_set f {} i s.capture.slots)

theorem captureDone_iff (c : CaptureSlot) :
    captureDone c = true ↔ c.state = .filling ∧ c.eventOpen = false ∧ ∀ g ∈ c.segments, g.filling = false := by
  simp [captureDone, and_assoc]

theorem captureComplete_eq (i : Nat) (s : State) :
    captureComplete i s =
      if captureDone (captureSlot s i) then
        { s with capture := { s.capture with
          slots := s.capture.slots.set i { captureSlot s i with state := .complete } } }
      else s := by
  refine (modifyCapture_eq_set completeSlot i s).trans ?_
  unfold completeSlot
  cases captureDone (captureSlot s i) with
  | true => rfl
  | false =>
    have kept : s.capture.slots.set i (captureSlot s i) = s.capture.slots := by
      by_cases inside : i < s.capture.slots.length
      · rw [captureSlot, List.getD_eq_getElem _ _ inside, List.set_getElem_self]
      · exact List.set_eq_of_length_le (by omega)
    exact congrArg (fun xs => { s with capture := { s.capture with slots := xs } }) kept

/-- The samples of a member are those of the frames, oldest first. -/
theorem memberSamples_getElem? (g : Segment) (i j : Nat) :
    (memberSamples g i)[j]? = g.frames.reverse[j]?.map fun row => (row.getD i ⟨0, true⟩).value := by
  rw [memberSamples, ← List.map_reverse, List.getElem?_map]

/-- Whole cycles of a member's samples, and the row of each. -/
theorem memberSamples_cycles (g : Segment) (i k count : Nat) (h : k + count ≤ g.frames.length / 128) :
    let samples := ((memberSamples g i).drop (128 * k)).take (128 * count)
    samples.length = 128 * count ∧
      ∀ j, j < 128 * count → ∃ row, g.frames.reverse[128 * k + j]? = some row ∧
        samples[j]? = some ((row.getD i ⟨0, true⟩).value) := by
  have enough : 128 * k + 128 * count ≤ g.frames.length := by omega
  have len : (memberSamples g i).length = g.frames.length := by simp [memberSamples]
  refine ⟨by rw [List.length_take, List.length_drop, len]; omega, fun j hj => ?_⟩
  have inside : 128 * k + j < g.frames.reverse.length := by rw [List.length_reverse]; omega
  refine ⟨g.frames.reverse[128 * k + j], List.getElem?_eq_getElem inside, ?_⟩
  rw [List.getElem?_take_of_lt hj, List.getElem?_drop, memberSamples_getElem?, List.getElem?_eq_getElem inside]
  rfl

theorem captureRead_missing {slot segment member first cycles : Byte} {s : State}
    (good : ¬(11 < slot.toNat ∨ cycles.toNat < 1 ∨ 2 < cycles.toNat))
    (missing : (captureSlot s slot.toNat).state = .free ∨
      (captureSlot s slot.toNat).segments.length ≤ segment.toNat ∨
      (captureSlot s slot.toNat).members.length ≤ member.toNat) :
    captureRead slot segment member first cycles s = refuse .notFound s := by
  refine (if_neg good).trans ?_
  by_cases free : (captureSlot s slot.toNat).state = .free
  · exact if_pos free
  refine (if_neg free).trans ?_
  rcases missing with missing | missing | missing
  · exact absurd missing free
  · rw [List.getElem?_eq_none missing]
  · rw [List.getElem?_eq_none missing]
    cases (captureSlot s slot.toNat).segments[segment.toNat]? <;> rfl

theorem captureRead_named {slot segment member first cycles : Byte} {s : State} {g : Segment} {m : CaptureMember}
    (good : ¬(11 < slot.toNat ∨ cycles.toNat < 1 ∨ 2 < cycles.toNat))
    (taken : (captureSlot s slot.toNat).state ≠ .free)
    (hg : (captureSlot s slot.toNat).segments[segment.toNat]? = some g)
    (hm : (captureSlot s slot.toNat).members[member.toNat]? = some m) :
    let count := Nat.min cycles.toNat (g.cycles - first.toNat)
    captureRead slot segment member first cycles s =
      if g.planned ≤ first.toNat ∨ (g.filling = false ∧ g.cycles ≤ first.toNat) then refuse .badValue s
      else
        answer .ok
          (.captureRead
            { serial := (captureSlot s slot.toNat).serial, event := (captureSlot s slot.toNat).event
              member := memberView m, first := g.first
              firstTime := g.firstTime, pre := g.pre, held := g.cycles, count := count
              samples := ((memberSamples g member.toNat).drop (128 * first.toNat)).take (128 * count) }) s := by
  refine (if_neg good).trans ((if_neg taken).trans ?_)
  rw [hg, hm]

/-- R94: the release of a slot that the request names. -/
def releaseSlot (i : Nat) (s : State) : State :=
  let done := fun (state : CaptureState) (s : State) => answer .ok (.captureState state) s
  match (captureSlot s i).state with
  | .complete =>
    if (captureSlot s i).pins = 0 then done .free (modifyCapture freed i s)
    else done .releasePending (modifyCapture (fun c => { c with state := .releasePending }) i s)
  | .releasePending => done .releasePending s
  | _ => refuse .wrongState s

theorem releaseSlot_filling {i : Nat} {s : State} (h : (captureSlot s i).state = .filling) :
    releaseSlot i s = refuse .wrongState s := by
  simp only [releaseSlot, h]

theorem releaseSlot_complete {i : Nat} {s : State} (h : (captureSlot s i).state = .complete) :
    releaseSlot i s =
      if (captureSlot s i).pins = 0 then answer .ok (.captureState .free) (modifyCapture freed i s)
      else
        answer .ok (.captureState .releasePending)
          (modifyCapture (fun c => { c with state := .releasePending }) i s) := by
  simp only [releaseSlot, h]

theorem releaseSlot_pending {i : Nat} {s : State} (h : (captureSlot s i).state = .releasePending) :
    releaseSlot i s = answer .ok (.captureState .releasePending) s := by
  simp only [releaseSlot, h]

theorem captureRelease_named {slot : Byte} {serial : Option Half} {s : State} (within : slot.toNat ≤ 11)
    (named : ¬((captureSlot s slot.toNat).state = .free ∨
      (serial.map (·.toNat)).getD (captureSlot s slot.toNat).serial ≠ (captureSlot s slot.toNat).serial)) :
    captureRelease slot serial s = releaseSlot slot.toNat s := by
  refine (if_neg (Nat.not_lt.2 within)).trans ((if_neg named).trans ?_)
  unfold releaseSlot
  cases (captureSlot s slot.toNat).state <;> rfl

/-- Settles O48. -/
theorem capturesCompleteReadAndRelease : Obligations.CapturesCompleteReadAndRelease := by
  unfold Obligations.CapturesCompleteReadAndRelease
  intro s shaped put
  refine ⟨fun i h hi => ?_, fun tag slot segment member first cycles h => ?_, fun tag slot serial h => ?_⟩
  case refine_1 =>
    intro c
    have step := (congrFun (exec_event (c := .captureComplete i) rfl) s).trans
      (event_of_moves (P := anyPart) (captureComplete_moves i s trivial) h)
    rw [step, captureComplete_eq]
    exact congrArg Host.Outcome.next (if_congr (captureDone_iff c) rfl rfl)
  case refine_2 =>
    intro c k o refused asked
    have ⟨_, hc, _, _⟩ := h
    let r : Request := .captureRead slot segment member first cycles
    have outside : ¬asked ↔ 11 < slot.toNat ∨ cycles.toNat < 1 ∨ 2 < cycles.toNat := by
      simp only [asked]
      omega
    refine ⟨fun bad => ?_, fun good missing => ?_, fun g m good taken hg hm => ?_⟩
    case refine_1 => exact request_refused tag r .badValue s h fun u hu => if_pos (outside.1 bad)
    case refine_2 =>
      refine request_refused tag r .notFound s h ?_
      rintro u rfl
      exact captureRead_missing (s := waiting (requestCode r) tag s) (mt outside.2 (not_not_intro good)) missing
    case refine_3 =>
      intro held
      have named := captureRead_named (s := waiting (requestCode r) tag s) (first := first)
        (mt outside.2 (not_not_intro good)) taken hg hm
      refine ⟨fun beyond => ?_, fun below live => ?_⟩
      · refine request_refused tag r .badValue s h ?_
        rintro u rfl
        exact named.trans (if_pos beyond)
      · let count := Nat.min cycles.toNat (held - k)
        have within : ¬(g.planned ≤ first.toNat ∨ (g.filling = false ∧ g.cycles ≤ first.toNat)) := by
          rintro (planned | ⟨filled, past⟩)
          · exact absurd below (Nat.not_lt.2 planned)
          · rcases live with filling | inside
            · simp [filled] at filling
            · exact absurd inside (Nat.not_lt.2 past)
        refine ⟨((memberSamples g member.toNat).drop (128 * k)).take (128 * count),
          request_answered tag r .ok _ s s h hc (named.trans (if_neg within)), ?_⟩
        have most : count ≤ held - k := Nat.min_le_right _ _
        by_cases inside : k ≤ held
        · exact memberSamples_cycles g member.toNat k count (Nat.le_trans (Nat.add_le_add_left most k)
            (Nat.le_of_eq (Nat.add_sub_cancel' inside)))
        · have nothing : count = 0 := Nat.le_zero.1 (most.trans (Nat.le_of_eq (by omega)))
          have empty : 128 * count = 0 := by rw [nothing]
          exact ⟨by rw [empty]; rfl, fun j hj => absurd (empty ▸ hj) (Nat.not_lt_zero j)⟩
  case refine_3 =>
    intro i c o refused named
    have ⟨_, hc, _, _⟩ := h
    let r : Request := .captureRelease slot serial
    have unnamed : ¬named ↔ c.state = .free ∨ (serial.map (·.toNat)).getD c.serial ≠ c.serial := by
      cases serial <;> simp [named, or_iff_not_imp_left]
    have passes : i ≤ 11 → named → serve r (waiting (requestCode r) tag s) =
        releaseSlot i (waiting (requestCode r) tag s) := fun within hn =>
      captureRelease_named (s := waiting (requestCode r) tag s) within (mt unnamed.2 (not_not_intro hn))
    refine ⟨fun beyond => ?_, fun within missing => ?_, fun within hn filling => ?_, fun within hn complete unpinned => ?_,
      fun within hn complete pinned => ?_, fun within hn pending => ?_⟩
    case refine_1 => exact request_refused tag r .badValue s h fun u hu => if_pos beyond
    case refine_2 =>
      refine request_refused tag r .notFound s h ?_
      rintro u rfl
      exact (if_neg (Nat.not_lt.2 within)).trans (if_pos (unnamed.1 missing))
    case refine_3 =>
      refine request_refused tag r .wrongState s h ?_
      rintro u rfl
      exact (passes within hn).trans (releaseSlot_filling filling)
    case refine_4 =>
      refine request_answered tag r .ok _ s (put i { serial := c.serial }) h hc ((passes within hn).trans ?_)
      refine (releaseSlot_complete (s := waiting (requestCode r) tag s) complete).trans ((if_pos unpinned).trans ?_)
      rw [modifyCapture_eq_set]
      rfl
    case refine_5 =>
      refine request_answered tag r .ok _ s (put i { c with state := .releasePending }) h hc
        ((passes within hn).trans ?_)
      refine (releaseSlot_complete (s := waiting (requestCode r) tag s) complete).trans ((if_neg (Nat.pos_iff_ne_zero.1 pinned)).trans ?_)
      rw [modifyCapture_eq_set]
      rfl
    case refine_6 =>
      exact request_answered tag r .ok _ s s h hc ((passes within hn).trans (releaseSlot_pending pending))

end Sys2Proof.Machine
end

