-- ==== Sys2Proof/Proofs/WindowsJudged.lean ====
section
/-!
PROOFS. A harmonic window is judged (R99, R101, R102, R106, R108), with O49.
-/

namespace Sys2Proof.Machine

/-! ### The result of a window -/

/-- R101: a magnitude is the exact root over the divisor, rounded once. -/
theorem magnitude_spec (re im : Int) (fullScale : Nat) :
    let mag := magnitude re im fullScale
    let exact : Int := 8 * (re * re + im * im) * (100 * (fullScale : Int)) ^ 2
    let d : Int := 1024 * 32767 * 32768
    (1 ≤ mag → (2 * (mag : Int) - 1) ^ 2 * d ^ 2 ≤ exact) ∧ exact < (2 * (mag : Int) + 1) ^ 2 * d ^ 2 := by
  intro mag exact d
  let n := 2 * (re.natAbs * re.natAbs + im.natAbs * im.natAbs) * (100 * fullScale) ^ 2
  obtain ⟨lower, upper⟩ := rootRound_spec n magnitudeDivisor (by decide)
  have hd : (magnitudeDivisor : Int) = d := by norm_num [magnitudeDivisor, d]
  have hn : ((4 * n : Nat) : Int) = exact := by
    simp only [n, exact]
    push_cast
    rw [abs_mul_abs_self, abs_mul_abs_self]
    ring
  refine ⟨fun one => ?_, ?_⟩
  · have cast : ((2 * mag - 1 : Nat) : Int) = 2 * (mag : Int) - 1 := by omega
    rw [← cast, ← hd, ← hn]
    exact_mod_cast lower one
  · rw [← hd, ← hn]
    exact_mod_cast upper

theorem windowResult_magnitude {s : State} {site role slot : Nat} {w : Window} {h mag : Nat} {re im : Int}
    (hre : w.re[h]? = some re) (him : w.im[h]? = some im)
    (hmag : (windowResult s site role slot w).magnitudes[h]? = some mag) :
    mag = magnitude re im (((entryOf s slot).identity.map (·.fullScale)).getD 0) := by
  have zipped : (w.re.zip w.im)[h]? = some (re, im) := List.getElem?_zip_eq_some.2 ⟨hre, him⟩
  have found : (windowResult s site role slot w).magnitudes[h]? = _ :=
    (List.getElem?_map ..).trans (congrArg _ zipped)
  exact Option.some.inj (hmag.symm.trans found)

/-- The fundamental is too small for a THD (R102). -/
def tooSmall (role udin fullScale m1 : Nat) : Prop :=
  (if role < 4 then m1 < udin else 2 * m1 < fullScale) ∨ m1 = 0

theorem thdOf_small {role udin fullScale m1 : Nat} {rest : List Nat} (h : tooSmall role udin fullScale m1) :
    thdOf (roleKind role) udin fullScale (m1 :: rest) = none := by
  refine if_pos ?_
  unfold roleKind
  rcases h with small | rfl
  · split at small <;> simp [*]
  · simp

theorem thdOf_large {role udin fullScale m1 : Nat} {rest : List Nat}
    (h : if role < 4 then udin ≤ m1 else fullScale ≤ 2 * m1) (nonzero : m1 ≠ 0) :
    thdOf (roleKind role) udin fullScale (m1 :: rest) =
      some (Nat.min (rootRound (sumSquares rest * 1000000) m1) 9999) := by
  refine (if_neg ?_).trans (congrArg some (Nat.min_comm ..))
  unfold roleKind
  split at h <;> simp [*]

/-- R102: a THD is the exact root over the fundamental, rounded once. -/
theorem thd_spec (rest : List Nat) {m1 : Nat} (nonzero : m1 ≠ 0) :
    let thd := rootRound (sumSquares rest * 1000000) m1
    let exact := 4 * (rest.map fun x => x * x).sum * 1000 ^ 2
    (1 ≤ thd → (2 * thd - 1) ^ 2 * m1 ^ 2 ≤ exact) ∧ exact < (2 * thd + 1) ^ 2 * m1 ^ 2 := by
  intro thd exact
  have same : 4 * (sumSquares rest * 1000000) = exact := (Nat.mul_assoc ..).symm
  exact same ▸ rootRound_spec (sumSquares rest * 1000000) m1 (Nat.pos_of_ne_zero nonzero)

/-! ### The accumulator -/

theorem count_eq_zipWith (r : WindowResult) (a : Accumulator) :
    a.count r =
      { a with
        n := a.n + 1
        sumSq := List.zipWith (fun t mag => t + mag * mag) a.sumSq r.magnitudes
        maxM := List.zipWith Nat.max a.maxM r.magnitudes
        thdSum := a.thdSum + r.thd.getD 0
        thdCount := if r.thd.isSome then a.thdCount + 1 else a.thdCount
        thdMax := Nat.max a.thdMax (r.thd.getD 0)
        freqSum := a.freqSum + r.freq
        freqMin := if a.n = 0 then r.freq else Nat.min a.freqMin r.freq
        freqMax := Nat.max a.freqMax r.freq
        flags :=
          { a.flags with
            clipped := a.flags.clipped || r.overrange
            fixedFreq := a.flags.fixedFreq || r.fixed
            calExpired := a.flags.calExpired || r.calDue } } := by
  have counted : a.thdCount + r.thd.toList.length = if r.thd.isSome then a.thdCount + 1 else a.thdCount := by
    cases r.thd <;> rfl
  unfold Accumulator.count
  simp only [List.zip, List.map_zipWith, counted]

/-! ### The judgement -/

theorem modifyHarmMember_eq_set (f : HarmMember → HarmMember) (site role : Nat) (s : State) :
    modifyHarmMember f site role s =
      { s with harm := { s.harm with
        sites := s.harm.sites.set site
          { harmSite s site with members := (harmSite s site).members.set role (f (harmMember s site role)) } } } := by
  refine congrArg (fun xs => { s with harm := { s.harm with sites := xs } })
    ((updateAt_eq_set _ {} site s.harm.sites).trans ?_)
  refine congrArg (s.harm.sites.set site) ?_
  exact congrArg (fun ms => { harmSite s site with members := ms }) (updateAt_eq_set f {} role _)

theorem windowComplete_taken {site role : Nat} {m : Member} {w : Window} {s : State}
    (hm : memberOf s site role = some m) (hw : (harmMember s site role).window = some w) (ht : w.taken = 1024) :
    windowComplete site role s = modifyHarmMember (judgeWindow s site role m.slot w) site role s := by
  unfold windowComplete
  dsimp only
  rw [hw, hm]
  exact if_pos ht

theorem windowComplete_short {site role : Nat} {m : Member} {w : Window} {s : State}
    (hm : memberOf s site role = some m) (hw : (harmMember s site role).window = some w) (ht : w.taken ≠ 1024) :
    windowComplete site role s = s := by
  unfold windowComplete
  dsimp only
  rw [hw, hm]
  exact if_neg ht

/-- Settles O49. -/
theorem windowCompleteIsJudged : Obligations.WindowCompleteIsJudged := by
  unfold Obligations.WindowCompleteIsJudged
  intro site role m w s h shaped hs hr hm hw x calDue fs udin sets
  have step : exec (.windowComplete site role) s = .next (windowComplete site role s) :=
    (congrFun (exec_event rfl) s).trans (event_of_moves (P := anyPart) (windowComplete_moves site role s trivial) h)
  have judged : ∀ {y : HarmMember}, w.taken = 1024 → judgeWindow s site role m.slot w x = y → sets y := by
    rintro y taken rfl
    exact ⟨_, step.trans (congrArg Host.Outcome.next
      ((windowComplete_taken hm hw taken).trans (modifyHarmMember_eq_set _ site role s))), rfl⟩
  refine ⟨fun short => ?_, fun taken bad => ?_, fun taken locked gapless => ?_⟩
  case refine_1 => rw [step, windowComplete_short hm hw short]
  case refine_2 => exact judged taken (if_pos (by simpa using bad))
  case refine_3 =>
    let r := windowResult s site role m.slot w
    have counted : (fun a => Accumulator.count r a) = _ := funext fun a => count_eq_zipWith r a
    refine ⟨r, rfl, rfl, rfl, rfl, rfl, by simp [r, windowResult], fun n mag re im hre him hmag => ?_,
      fun m1 rest hms small => ?_, fun m1 rest hms large nonzero => ?_, judged taken ?_⟩
    · rw [windowResult_magnitude hre him hmag]
      exact magnitude_spec re im fs
    · exact (congrArg (thdOf (roleKind role) udin fs) hms).trans (thdOf_small small)
    · exact ⟨_, (congrArg (thdOf (roleKind role) udin fs) hms).trans (thdOf_large large nonzero),
        thd_spec rest nonzero⟩
    · refine (if_neg (by simp [locked, gapless])).trans ?_
      exact congrArg (fun f => { x with window := none, latest := some r, acc := x.acc.map f }) counted

end Sys2Proof.Machine
end

