-- ==== Sys2Proof/Proofs/Closes.lean ====
section
/-!
PROOFS. The close of a site's accumulators (R105, R109 to R113): what each position, the site, the counts and
the store take from it.
-/

namespace Sys2Proof.Machine

/-! ### The steps of a close -/

/-- A position whose accumulator closes: the fresh one, and no loss pending. -/
def reopened (c : Closing) (site role : Nat) (s : State) : State :=
  modifyHarmMember (fun x => { x with acc := freshFor s site role c, lossDue := false }) site role s

/-- A close with n = 0 is counted (R109). -/
def emptyCounted (site : Nat) (s : State) : State :=
  modifyHarm (fun h => { h with empty := satInc max32 h.empty }) site s

/-- A record that finds room: the place of its position is left empty, and an older record there is lost. -/
def roomMade (site role : Nat) (s : State) : State :=
  modifyHarmMember (fun x => { x with place := none }) site role
    (if (harmMember s site role).place.isSome then dropInterval s else s)

/-- The record of a position's accumulator. -/
def closeRecord (c : Closing) (site : Nat) (s : State) (x : Nat × Accumulator) : IntervalRecord :=
  recordOf s site x.1 c.endTime (c.allPartial || (harmMember s site x.1).lossDue) x.2

section
variable {c : Closing} {site role : Nat} {k : CloseCounts} {s : State} {a : Accumulator}

theorem closePosition_none (h : (harmMember s site role).acc = none) :
    closePosition c site (k, s) role = (k, s) := by
  unfold closePosition
  dsimp only
  rw [h]

theorem closePosition_empty (h : (harmMember s site role).acc = some a) (hn : a.n = 0) :
    closePosition c site (k, s) role =
      ({ k with closed := k.closed + 1, empty := k.empty + 1 }, emptyCounted site (reopened c site role s)) := by
  unfold closePosition
  dsimp only
  rw [h]
  exact if_pos hn

theorem closePosition_counted (h : (harmMember s site role).acc = some a) (hn : a.n ≠ 0) :
    closePosition c site (k, s) role =
      handRecord (closeRecord c site s (role, a)) c.moment site role { k with closed := k.closed + 1 }
        (reopened c site role s) := by
  unfold closePosition
  dsimp only
  rw [h]
  exact if_neg hn

theorem handRecord_full {r : IntervalRecord} {moment : Nat} (h : s.store.state = .full) :
    handRecord r moment site role k s = ({ k with dropped := k.dropped + 1 }, dropInterval s) := if_pos h

theorem handRecord_room {r : IntervalRecord} {moment : Nat} (hf : s.store.state ≠ .full)
    (up : storeUp s.store = true) (room : s.store.queue.length < 16) :
    handRecord r moment site role k s =
      ({ k with
          queued := k.queued + 1
          dropped := k.dropped + if (harmMember s site role).place.isSome then 1 else 0 },
        queueInterval r (roomMade site role s)) := by
  have fits : (queueRoom s.store && storeUp s.store) = true := by
    rw [up, Bool.and_true]
    exact decide_eq_true room
  refine (if_neg hf).trans ?_
  unfold roomMade
  cases (harmMember s site role).place.isSome with
  | true => exact if_pos fits
  | false => exact if_pos fits

end

/-! ### What a close keeps -/

/-- What the close of some positions of a site keeps. -/
structure CloseKeeps (site : Nat) (s t : State) : Prop where
  moves : Moves (only [.harm, .store]) s t
  link : t.link = s.link
  state : t.store.state = s.store.state
  others : ∀ i, i ≠ site → harmSite t i = harmSite s i
  site : { harmSite t site with members := [], empty := 0 } = { harmSite s site with members := [], empty := 0 }

namespace CloseKeeps
variable {site : Nat} {s t u : State}

theorem refl : CloseKeeps site s s := ⟨.refl s, rfl, rfl, fun _ _ => rfl, rfl⟩

theorem trans (h : CloseKeeps site s t) (k : CloseKeeps site t u) : CloseKeeps site s u :=
  ⟨h.moves.trans k.moves, k.link.trans h.link, k.state.trans h.state,
    fun i hi => (k.others i hi).trans (h.others i hi), k.site.trans h.site⟩

theorem of_store {f : Store → Store} (ha : (f s.store).array = s.store.array) (hs : (f s.store).state = s.store.state) :
    CloseKeeps site s (setStore f s) :=
  ⟨setStore_moves f s ha (by decide), rfl, hs, fun _ _ => rfl, rfl⟩

theorem of_modifyHarm {f : HarmSite → HarmSite} (hl : ∀ h, (f h).members.length = h.members.length)
    (hf : ∀ h, { f h with members := [], empty := 0 } = { h with members := [], empty := 0 }) :
    CloseKeeps site s (modifyHarm f site s) := by
  refine ⟨modifyHarm_moves f site s hl (by decide), rfl, rfl,
    fun i hi => harmSite_modifyHarm_other _ _ _ _ hi, ?_⟩
  by_cases inside : site < s.harm.sites.length
  · rw [harmSite_modifyHarm _ _ _ inside, hf]
  · have beyond : modifyHarm f site s = s := congrArg (fun xs => { s with harm := { s.harm with sites := xs } })
      ((updateAt_eq_set f {} site _).trans (List.set_eq_of_length_le (Nat.le_of_not_lt inside)))
    rw [beyond]

theorem of_modifyHarmMember {f : HarmMember → HarmMember} {role : Nat} :
    CloseKeeps site s (modifyHarmMember f site role s) :=
  of_modifyHarm (fun _ => updateAt_length _ _ _) fun _ => rfl

theorem of_reopened {c : Closing} {role : Nat} : CloseKeeps site s (reopened c site role s) := of_modifyHarmMember

theorem of_emptyCounted : CloseKeeps site s (emptyCounted site s) := of_modifyHarm (fun _ => rfl) fun _ => rfl

theorem of_dropInterval : CloseKeeps site s (dropInterval s) := of_store rfl rfl

theorem of_queueInterval {r : IntervalRecord} : CloseKeeps site s (queueInterval r s) := by
  refine of_store (f := fun st => (drawId .interval st).2.enqueue _ _ _) (drawId_array _ _) ?_
  simp only [Store.enqueue, drawId]
  split <;> rfl

theorem of_placeRecord {r : IntervalRecord} {moment role : Nat} {k : CloseCounts} :
    CloseKeeps site s (placeRecord r moment site role k s).2 := by
  unfold placeRecord
  split
  · exact of_modifyHarmMember.trans of_queueInterval
  · exact of_modifyHarmMember

theorem of_handRecord {r : IntervalRecord} {moment role : Nat} {k : CloseCounts} :
    CloseKeeps site s (handRecord r moment site role k s).2 := by
  unfold handRecord
  split
  · exact of_dropInterval
  · split
    · exact of_dropInterval.trans of_placeRecord
    · exact of_placeRecord

theorem of_closePosition {c : Closing} {role : Nat} {k : CloseCounts} :
    CloseKeeps site s (closePosition c site (k, s) role).2 := by
  cases h : (harmMember s site role).acc with
  | none => rw [closePosition_none h]; exact refl
  | some a =>
    by_cases hn : a.n = 0
    · rw [closePosition_empty h hn]; exact of_reopened.trans of_emptyCounted
    · rw [closePosition_counted h hn]; exact of_reopened.trans of_handRecord

theorem of_foldl {c : Closing} (roles : List Nat) : ∀ {k : CloseCounts} {s : State},
    CloseKeeps site s (roles.foldl (closePosition c site) (k, s)).2 := by
  induction roles with
  | nil => exact refl
  | cons role roles ih => exact fun {k s} => of_closePosition.trans ih

theorem freshFor_eq (h : CloseKeeps site s t) (role : Nat) (c : Closing) :
    freshFor t site role c = freshFor s site role c := by
  have sites : t.sites = s.sites := h.moves.sites_eq (by decide)
  have mark : (harmSite t site).mark = (harmSite s site).mark := by
    have same := congrArg HarmSite.mark h.site
    exact same
  unfold freshFor
  rw [memberOf_of_sites sites, siteOf_eq_of_sites sites, mark]

end CloseKeeps

/-! ### The positions -/

/-- What a closed position takes from a close. -/
structure MemberClosed (c : Closing) (site role : Nat) (s t : State) : Prop where
  window : (harmMember t site role).window = (harmMember s site role).window
  latest : (harmMember t site role).latest = (harmMember s site role).latest
  acc : (harmMember t site role).acc = (harmMember s site role).acc.bind fun _ => freshFor s site role c
  lossDue : (harmMember t site role).lossDue = ((harmMember s site role).acc.isNone && (harmMember s site role).lossDue)

theorem placeRecord_same {r : IntervalRecord} {moment site role : Nat} {k : CloseCounts} {s : State}
    (h : Shaped s) (hs : site < 4) (hr : role < 8) :
    ∃ place, harmMember (placeRecord r moment site role k s).2 site role =
      { harmMember s site role with place := place } := by
  unfold placeRecord
  split
  · exact ⟨_, (harmMember_of_harm rfl _ _).trans (harmMember_modifyHarmMember _ h hs hr)⟩
  · exact ⟨_, harmMember_modifyHarmMember _ h hs hr⟩

theorem handRecord_same {r : IntervalRecord} {moment site role : Nat} {k : CloseCounts} {s : State}
    (h : Shaped s) (hs : site < 4) (hr : role < 8) :
    ∃ place, harmMember (handRecord r moment site role k s).2 site role =
      { harmMember s site role with place := place } := by
  unfold handRecord
  split
  · exact ⟨_, rfl⟩
  · split
    · exact placeRecord_same ((dropInterval_moves s trivial : Moves anyPart s _).shaped h) hs hr
    · exact placeRecord_same h hs hr

theorem reopened_member {c : Closing} {site role : Nat} {s : State} (h : Shaped s) (hs : site < 4) (hr : role < 8) :
    harmMember (reopened c site role s) site role =
      { harmMember s site role with acc := freshFor s site role c, lossDue := false } :=
  harmMember_modifyHarmMember _ h hs hr

theorem closePosition_closed {c : Closing} {site role : Nat} {k : CloseCounts} {s : State}
    (h : Shaped s) (hs : site < 4) (hr : role < 8) :
    MemberClosed c site role s (closePosition c site (k, s) role).2 := by
  have open_ := reopened_member (c := c) h hs hr
  cases ha : (harmMember s site role).acc with
  | none =>
    rw [closePosition_none ha]
    exact ⟨rfl, rfl, by rw [ha]; rfl, by rw [ha]; rfl⟩
  | some a =>
    have closed : ∀ {t : State} (place : Option (IntervalRecord × Nat)),
        harmMember t site role = { harmMember (reopened c site role s) site role with place := place } →
        MemberClosed c site role s t := fun place e =>
      ⟨by rw [e, open_], by rw [e, open_], by rw [e, open_, ha]; rfl, by rw [e, open_, ha]; rfl⟩
    by_cases hn : a.n = 0
    · rw [closePosition_empty ha hn]
      exact closed _ (harmMember_modifyHarm_members (fun h => { h with empty := satInc max32 h.empty })
        (fun _ => rfl) _ _ _ _)
    · rw [closePosition_counted ha hn]
      obtain ⟨place, e⟩ := handRecord_same (r := closeRecord c site s (role, a)) (moment := c.moment)
        (k := { k with closed := k.closed + 1 })
        ((CloseKeeps.of_reopened (c := c) (role := role)).moves.shaped h) hs hr
      exact closed place e

/-- The positions outside a close. -/
theorem closeFold_other (c : Closing) {site i j : Nat} (roles : List Nat) (k : CloseCounts) (s : State)
    (h : i ≠ site ∨ j ∉ roles) :
    harmMember (roles.foldl (closePosition c site) (k, s)).2 i j = harmMember s i j := by
  induction roles generalizing k s with
  | nil => rfl
  | cons role roles ih =>
    rw [List.mem_cons, not_or] at h
    exact (ih _ _ (h.imp_right And.right)).trans (closePosition_other c (k, s) role (h.imp_right And.left))

theorem closeFold_closed {c : Closing} {site : Nat} (hs : site < 4) (roles : List Nat) :
    ∀ {k : CloseCounts} {s : State}, Shaped s → roles.Nodup → (∀ role ∈ roles, role < 8) →
      ∀ role ∈ roles, MemberClosed c site role s (roles.foldl (closePosition c site) (k, s)).2 := by
  induction roles with
  | nil => exact nofun
  | cons first roles ih =>
    intro k s h nodup below role mem
    obtain ⟨fresh, nodup⟩ := List.nodup_cons.1 nodup
    have keeps := CloseKeeps.of_closePosition (c := c) (site := site) (role := first) (k := k) (s := s)
    rcases List.mem_cons.1 mem with rfl | later
    · have here := closePosition_closed (c := c) (k := k) h hs (below _ List.mem_cons_self)
      have after := closeFold_other c roles (closePosition c site (k, s) role).1
        (closePosition c site (k, s) role).2 (site := site) (i := site) (j := role) (.inr fresh)
      exact ⟨(congrArg _ after).trans here.window, (congrArg _ after).trans here.latest,
        (congrArg _ after).trans here.acc, (congrArg _ after).trans here.lossDue⟩
    · have before : harmMember (closePosition c site (k, s) first).2 site role = harmMember s site role :=
        closePosition_other c (k, s) first (.inr fun e => fresh (e ▸ later))
      have rest := ih (k := (closePosition c site (k, s) first).1) (keeps.moves.shaped h) nodup
        (fun r hr => below r (List.mem_cons_of_mem _ hr)) role later
      exact ⟨rest.window.trans (congrArg _ before), rest.latest.trans (congrArg _ before),
        rest.acc.trans (by rw [before, keeps.freshFor_eq]), rest.lossDue.trans (by rw [before])⟩

/-! ### The counts and the records -/

/-- The accumulators that a close takes, with their roles. -/
def closingAt (s : State) (site : Nat) (roles : List Nat) : List (Nat × Accumulator) :=
  roles.filterMap fun role => (harmMember s site role).acc.map fun a => (role, a)

/-- Those that make a record. -/
def countedAt (s : State) (site : Nat) (roles : List Nat) : List (Nat × Accumulator) :=
  (closingAt s site roles).filter fun x => 1 ≤ x.2.n

/-- Those that count as empty. -/
def emptyAt (s : State) (site : Nat) (roles : List Nat) : Nat :=
  (closingAt s site roles).countP fun x => x.2.n == 0

section
variable {s t : State} {site role : Nat} {roles : List Nat} {a : Accumulator}

theorem closingAt_none (h : (harmMember s site role).acc = none) :
    closingAt s site (role :: roles) = closingAt s site roles := by
  rw [closingAt, List.filterMap_cons, h]
  rfl

theorem closingAt_some (h : (harmMember s site role).acc = some a) :
    closingAt s site (role :: roles) = (role, a) :: closingAt s site roles := by
  rw [closingAt, List.filterMap_cons, h]
  rfl

theorem closingAt_congr (h : ∀ role ∈ roles, harmMember t site role = harmMember s site role) :
    closingAt t site roles = closingAt s site roles :=
  List.filterMap_congr fun role mem => by rw [h role mem]

theorem mem_closingAt {x : Nat × Accumulator} (h : x ∈ closingAt s site roles) :
    x.1 ∈ roles ∧ (harmMember s site x.1).acc = some x.2 := by
  obtain ⟨role, mem, hx⟩ := List.mem_filterMap.1 h
  obtain ⟨a, ha, rfl⟩ := Option.map_eq_some_iff.1 hx
  exact ⟨mem, ha⟩

theorem closing_length : (closingAt s site roles).length = (countedAt s site roles).length + emptyAt s site roles := by
  rw [countedAt, emptyAt, ← List.countP_eq_length_filter,
    List.length_eq_countP_add_countP (fun x : Nat × Accumulator => decide (1 ≤ x.2.n))]
  congr 1
  refine List.countP_congr fun x _ => ?_
  simp

end

/-- A queued INTERVAL record for each of some records, with ids in order. -/
def intervalEntries (first : Nat) (records : List IntervalRecord) : List QueueItem :=
  records.zipIdx.map fun r => ⟨.interval, first + r.2, .interval (first + r.2) r.1, false⟩

theorem intervalEntries_cons (first : Nat) (r : IntervalRecord) (records : List IntervalRecord) :
    intervalEntries first (r :: records) =
      ⟨.interval, first, .interval first r, false⟩ :: intervalEntries (first + 1) records := by
  unfold intervalEntries
  rw [List.zipIdx_cons', List.map_cons, List.map_map]
  refine congrArg₂ _ rfl (List.map_congr_left fun x _ => ?_)
  simp only [Function.comp, Prod.map, id, Nat.add_assoc, Nat.add_comm 1]

/-- The store's part of a record that is queued. -/
theorem queueInterval_store (r : IntervalRecord) (s : State) :
    (queueInterval r s).store.queue = s.store.queue ++
        intervalEntries s.store.nextIds.interval [{ r with flags := { r.flags with clockUnset := !s.clock.valid } }] ∧
      (queueInterval r s).store.nextIds = { s.store.nextIds with interval := s.store.nextIds.interval + 1 } ∧
      (queueInterval r s).store.intervalDrops = s.store.intervalDrops := by
  have drops : (drawId .interval s.store).2.intervalDrops = s.store.intervalDrops := by
    unfold drawId
    dsimp only
    split <;> rfl
  unfold queueInterval Store.enqueue
  dsimp only
  rw [drawId_nextIds, drawId_queue, drops]
  exact ⟨rfl, rfl, rfl⟩

/-- A position with a counted accumulator, in a FULL store. -/
theorem closePosition_full {c : Closing} {site role : Nat} {k : CloseCounts} {s : State} {a : Accumulator}
    (h : (harmMember s site role).acc = some a) (hn : a.n ≠ 0) (hf : s.store.state = .full) :
    closePosition c site (k, s) role =
      ({ k with closed := k.closed + 1, dropped := k.dropped + 1 }, dropInterval (reopened c site role s)) :=
  (closePosition_counted h hn).trans (handRecord_full hf)

/-- The closes of a site in a FULL store. -/
theorem closeFold_full (c : Closing) (site : Nat) (roles : List Nat) : ∀ (k : CloseCounts) (s : State),
    roles.Nodup → s.store.state = .full →
    let made := (countedAt s site roles).length
    let r := roles.foldl (closePosition c site) (k, s)
    r.1 = { k with
      closed := k.closed + (closingAt s site roles).length
      dropped := k.dropped + made, empty := k.empty + emptyAt s site roles } ∧
      r.2.store = { s.store with intervalDrops := (satInc max32)^[made] s.store.intervalDrops } := by
  induction roles with
  | nil => exact fun k s _ _ => ⟨rfl, rfl⟩
  | cons role roles ih =>
    intro k s nodup hf
    obtain ⟨fresh, nodup⟩ := List.nodup_cons.1 nodup
    have keeps := CloseKeeps.of_closePosition (c := c) (site := site) (role := role) (k := k) (s := s)
    have same : ∀ i ∈ roles, harmMember (closePosition c site (k, s) role).2 site i = harmMember s site i :=
      fun i hi => closePosition_other c (k, s) role (.inr fun e => fresh (e ▸ hi))
    have rest := ih (closePosition c site (k, s) role).1 (closePosition c site (k, s) role).2 nodup
      (keeps.state.trans hf)
    have closing := closingAt_congr same
    simp only [countedAt, emptyAt, closing] at rest
    simp only [countedAt, emptyAt]
    cases ha : (harmMember s site role).acc with
    | none =>
      rw [closePosition_none ha] at rest
      rw [closingAt_none ha, List.foldl_cons, closePosition_none ha]
      exact rest
    | some a =>
      rw [closingAt_some ha, List.foldl_cons]
      by_cases hn : a.n = 0
      · rw [closePosition_empty ha hn] at rest ⊢
        have skip : decide (1 ≤ a.n) = false := decide_eq_false (by omega)
        have empty : (a.n == 0) = true := beq_iff_eq.2 hn
        simp only [List.filter_cons, List.countP_cons, skip, empty, List.length_cons]
        refine ⟨rest.1.trans ?_, rest.2⟩
        simp [Nat.add_assoc, Nat.add_comm 1]
      · rw [closePosition_full ha hn hf] at rest ⊢
        have takes : decide (1 ≤ a.n) = true := decide_eq_true (by omega)
        have counted : (a.n == 0) = false := beq_eq_false_iff_ne.2 hn
        simp only [List.filter_cons, List.countP_cons, takes, counted, List.length_cons]
        refine ⟨rest.1.trans ?_, rest.2⟩
        simp [Nat.add_assoc, Nat.add_comm 1]

/-- The queue's part of the room made for a record. -/
theorem roomMade_store (site role : Nat) (s : State) :
    (roomMade site role s).store.queue = s.store.queue ∧ (roomMade site role s).store.nextIds = s.store.nextIds ∧
      (roomMade site role s).clock = s.clock ∧
      ((harmMember s site role).place = none → (roomMade site role s).store = s.store) := by
  unfold roomMade
  cases (harmMember s site role).place with
  | none => exact ⟨rfl, rfl, rfl, fun _ => rfl⟩
  | some p => exact ⟨rfl, rfl, rfl, nofun⟩

/-- What CLOCK_UNSET says of a record as it is queued. -/
def stamped (s : State) (r : IntervalRecord) : IntervalRecord :=
  { r with flags := { r.flags with clockUnset := !s.clock.valid } }

/-- The closes of a site whose records the queue has room for. -/
theorem closeFold_room (c : Closing) (site : Nat) (roles : List Nat) : ∀ (k : CloseCounts) (s : State),
    roles.Nodup → Shaped s → site < 4 → (∀ role ∈ roles, role < 8) → s.store.state ≠ .full →
    storeUp s.store = true →
    let made := countedAt s site roles
    s.store.queue.length + made.length ≤ 16 →
    let r := roles.foldl (closePosition c site) (k, s)
    r.2.store.queue = s.store.queue ++
        intervalEntries s.store.nextIds.interval (made.map fun x => stamped s (closeRecord c site s x)) ∧
      r.2.store.nextIds = { s.store.nextIds with interval := s.store.nextIds.interval + made.length } ∧
      ((∀ role ∈ roles, (harmMember s site role).place = none) →
        r.2.store.intervalDrops = s.store.intervalDrops ∧
        r.1 = { k with
          closed := k.closed + (closingAt s site roles).length
          queued := k.queued + made.length, empty := k.empty + emptyAt s site roles }) := by
  induction roles with
  | nil => exact fun k s _ _ _ _ _ _ _ => ⟨(List.append_nil _).symm, rfl, fun _ => ⟨rfl, rfl⟩⟩
  | cons role roles ih =>
    intro k s nodup shaped hs below hf up made room
    obtain ⟨fresh, nodup⟩ := List.nodup_cons.1 nodup
    have keeps := CloseKeeps.of_closePosition (c := c) (site := site) (role := role) (k := k) (s := s)
    have same : ∀ i ∈ roles, harmMember (closePosition c site (k, s) role).2 site i = harmMember s site i :=
      fun i hi => closePosition_other c (k, s) role (.inr fun e => fresh (e ▸ hi))
    have upAfter : storeUp (closePosition c site (k, s) role).2.store = true := by
      rw [storeUp, keeps.state]
      exact up
    have rest := ih (closePosition c site (k, s) role).1 (closePosition c site (k, s) role).2 nodup
      (keeps.moves.shaped shaped) hs (fun i hi => below i (List.mem_cons_of_mem _ hi)) (keeps.state ▸ hf) upAfter
    have closing := closingAt_congr same
    have places : (∀ i ∈ roles, (harmMember (closePosition c site (k, s) role).2 site i).place = none) ↔
        ∀ i ∈ roles, (harmMember s site i).place = none :=
      forall₂_congr fun i hi => by rw [same i hi]
    have records : ((closingAt s site roles).filter fun x => 1 ≤ x.2.n).map (fun x =>
          stamped (closePosition c site (k, s) role).2 (closeRecord c site (closePosition c site (k, s) role).2 x)) =
        ((closingAt s site roles).filter fun x => 1 ≤ x.2.n).map fun x => stamped s (closeRecord c site s x) := by
      refine List.map_congr_left fun x mem => ?_
      have survey : (closePosition c site (k, s) role).2.survey = s.survey := keeps.moves.survey_eq (by decide)
      have clock : (closePosition c site (k, s) role).2.clock = s.clock := keeps.moves.clock_eq (by decide)
      have member := same x.1 (mem_closingAt (List.mem_filter.1 mem).1).1
      simp only [stamped, closeRecord, recordOf, survey, clock, member]
    simp only [countedAt, emptyAt, closing, places, records] at rest
    simp only [made, countedAt, emptyAt] at room ⊢
    cases ha : (harmMember s site role).acc with
    | none =>
      rw [closingAt_none ha] at room ⊢
      rw [closePosition_none ha] at rest
      rw [List.foldl_cons, closePosition_none ha]
      obtain ⟨queue, ids, others⟩ := rest room
      exact ⟨queue, ids, fun free => others fun i hi => free i (List.mem_cons_of_mem _ hi)⟩
    | some a =>
      rw [closingAt_some ha] at room ⊢
      rw [List.foldl_cons]
      by_cases hn : a.n = 0
      · have skip : decide (1 ≤ a.n) = false := decide_eq_false (by omega)
        have empty : (a.n == 0) = true := beq_iff_eq.2 hn
        rw [closePosition_empty ha hn] at rest ⊢
        simp only [List.filter_cons, List.countP_cons, skip, empty, List.length_cons] at room ⊢
        obtain ⟨queue, ids, others⟩ := rest room
        refine ⟨queue, ids, fun free => ?_⟩
        obtain ⟨drops, counts⟩ := others fun i hi => free i (List.mem_cons_of_mem _ hi)
        refine ⟨drops, counts.trans ?_⟩
        simp [Nat.add_assoc, Nat.add_comm 1]
      · have takes : decide (1 ≤ a.n) = true := decide_eq_true (by omega)
        have counted : (a.n == 0) = false := beq_eq_false_iff_ne.2 hn
        simp only [List.filter_cons, List.countP_cons, takes, counted, List.length_cons, if_true] at room ⊢
        have fits : (reopened c site role s).store.queue.length < 16 :=
          Nat.lt_of_lt_of_le (Nat.lt_add_of_pos_right (Nat.succ_pos _)) room
        have step := (closePosition_counted (c := c) (k := k) ha hn).trans
          (handRecord_room (s := reopened c site role s) hf up fits)
        obtain ⟨queue0, ids0, clock0, free0⟩ := roomMade_store site role (reopened c site role s)
        obtain ⟨queue1, ids1, drops1⟩ := queueInterval_store (closeRecord c site s (role, a))
          (roomMade site role (reopened c site role s))
        rw [queue0, ids0, clock0] at queue1
        rw [ids0] at ids1
        rw [step] at rest ⊢
        simp only [queue1, ids1] at rest
        have less : s.store.queue.length + 1 + ((closingAt s site roles).filter fun x => 1 ≤ x.2.n).length ≤ 16 := by
          omega
        obtain ⟨queue, ids, others⟩ := rest (by rw [List.length_append]; exact less)
        refine ⟨queue.trans ?_, ids.trans ?_, fun free => ?_⟩
        · rw [List.map_cons, List.append_assoc]
          exact congrArg (s.store.queue ++ ·) (intervalEntries_cons ..).symm
        · exact congrArg (fun n => { s.store.nextIds with interval := n })
            ((Nat.add_assoc _ 1 _).trans (congrArg _ (Nat.add_comm 1 _)))
        · have empty : (harmMember (reopened c site role s) site role).place = none := by
            rw [reopened_member shaped hs (below _ List.mem_cons_self)]
            exact free role List.mem_cons_self
          obtain ⟨drops, counts⟩ := others fun i hi => free i (List.mem_cons_of_mem _ hi)
          refine ⟨drops.trans (drops1.trans (congrArg Store.intervalDrops (free0 empty))), counts.trans ?_⟩
          rw [empty]
          simp [Nat.add_assoc, Nat.add_comm 1]

theorem modifyHarmMember_emptyCount {site : Nat} (role : Nat) (f : HarmMember → HarmMember) (s : State) (i : Nat) :
    (harmSite (modifyHarmMember f site role s) i).empty = (harmSite s i).empty := by
  by_cases inside : i < s.harm.sites.length
  · by_cases same : i = site
    · subst same
      rw [modifyHarmMember, harmSite_modifyHarm _ _ _ inside]
    · rw [modifyHarmMember, harmSite_modifyHarm_other _ _ _ _ same]
  · have beyond : ∀ t : State, t.harm.sites.length = s.harm.sites.length → harmSite t i = {} := fun t ht =>
      List.getD_eq_default _ _ (by rw [ht]; exact Nat.le_of_not_lt inside)
    rw [beyond _ (updateAt_length _ _ _), beyond s rfl]

theorem handRecord_emptyCount (r : IntervalRecord) (moment site role : Nat) (k : CloseCounts) (s : State) :
    (harmSite (handRecord r moment site role k s).2 site).empty = (harmSite s site).empty := by
  have placed : ∀ k s, (harmSite (placeRecord r moment site role k s).2 site).empty = (harmSite s site).empty := by
    intro k s
    unfold placeRecord
    split
    · exact modifyHarmMember_emptyCount role (fun x => { x with place := none }) s site
    · exact modifyHarmMember_emptyCount role _ s site
  unfold handRecord
  split
  · rfl
  · split
    · exact placed _ (dropInterval s)
    · exact placed _ s

/-- The empty count of a site whose accumulators close. -/
theorem closeFold_empty (c : Closing) {site : Nat} (hs : site < 4) (roles : List Nat) :
    ∀ (k : CloseCounts) (s : State), roles.Nodup → Shaped s →
      (harmSite (roles.foldl (closePosition c site) (k, s)).2 site).empty =
        (satInc max32)^[emptyAt s site roles] (harmSite s site).empty := by
  induction roles with
  | nil => exact fun k s _ _ => rfl
  | cons role roles ih =>
    intro k s nodup shaped
    obtain ⟨fresh, nodup⟩ := List.nodup_cons.1 nodup
    have keeps := CloseKeeps.of_closePosition (c := c) (site := site) (role := role) (k := k) (s := s)
    have same : ∀ i ∈ roles, harmMember (closePosition c site (k, s) role).2 site i = harmMember s site i :=
      fun i hi => closePosition_other c (k, s) role (.inr fun e => fresh (e ▸ hi))
    have rest := ih (closePosition c site (k, s) role).1 (closePosition c site (k, s) role).2 nodup
      (keeps.moves.shaped shaped)
    have inside : site < s.harm.sites.length := by rw [shaped.harm_length]; exact hs
    rw [emptyAt, closingAt_congr same, ← emptyAt] at rest
    refine rest.trans ?_
    cases ha : (harmMember s site role).acc with
    | none => rw [closePosition_none ha, emptyAt, emptyAt, closingAt_none ha]
    | some a =>
      rw [emptyAt, emptyAt, closingAt_some ha, List.countP_cons]
      have kept : (harmSite (reopened c site role s) site).empty = (harmSite s site).empty :=
        modifyHarmMember_emptyCount role _ s site
      by_cases hn : a.n = 0
      · have empty : (a.n == 0) = true := beq_iff_eq.2 hn
        have counted : (harmSite (emptyCounted site (reopened c site role s)) site).empty =
            satInc max32 (harmSite s site).empty := by
          rw [emptyCounted, harmSite_modifyHarm _ _ _ (by
            rw [((CloseKeeps.of_reopened (c := c) (site := site) (role := role)).moves.shaped shaped).harm_length]; exact hs), kept]
        rw [closePosition_empty ha hn, counted, empty, if_pos rfl]
        rfl
      · have counted : (a.n == 0) = false := beq_eq_false_iff_ne.2 hn
        rw [closePosition_counted ha hn, handRecord_emptyCount, kept, counted]
        rfl

theorem satInc_iterate {top n : Nat} (h : n ≤ top) (k : Nat) : (satInc top)^[k] n = Nat.min top (n + k) := by
  induction k with
  | zero => exact (Nat.min_eq_right h).symm
  | succ k ih =>
    rw [Function.iterate_succ_apply', ih, satInc_eq_min]
    change min top (min top (min top (n + k)) + 1) = min top (n + k + 1)
    omega

theorem satInc_iterate_below {top n k : Nat} (h : n + k ≤ top) : (satInc top)^[k] n = n + k := by
  exact (satInc_iterate (by omega) k).trans (Nat.min_eq_right h)

/-! ### The close of a site -/

/-- The closes of a site, before INTERVAL_CLOSE is posted. -/
def siteClosed (c : Closing) (roles : List Nat) (s : State) (site : Nat) : CloseCounts × State :=
  roles.foldl (closePosition c site) ({}, s)

theorem closeFold_closedCount (c : Closing) (site : Nat) (roles : List Nat) : ∀ (k : CloseCounts) (s : State),
    roles.Nodup → (roles.foldl (closePosition c site) (k, s)).1.closed = k.closed + (closingAt s site roles).length := by
  induction roles with
  | nil => exact fun k s _ => rfl
  | cons role roles ih =>
    intro k s nodup
    obtain ⟨fresh, nodup⟩ := List.nodup_cons.1 nodup
    have same : ∀ i ∈ roles, harmMember (closePosition c site (k, s) role).2 site i = harmMember s site i :=
      fun i hi => closePosition_other c (k, s) role (.inr fun e => fresh (e ▸ hi))
    refine (ih (closePosition c site (k, s) role).1 (closePosition c site (k, s) role).2 nodup).trans ?_
    rw [closingAt_congr same]
    cases ha : (harmMember s site role).acc with
    | none => rw [closePosition_none ha, closingAt_none ha]
    | some a =>
      rw [closingAt_some ha, List.length_cons, Nat.add_comm _ 1, ← Nat.add_assoc]
      refine congrArg (· + _) ?_
      by_cases hn : a.n = 0
      · rw [closePosition_empty ha hn]
      · rw [closePosition_counted ha hn]
        unfold handRecord placeRecord
        split
        · rfl
        · split <;> split <;> rfl

/-- INTERVAL_CLOSE tells a close that took an accumulator. -/
theorem closeSite_link (c : Closing) (causes : CloseCauses) {roles : List Nat} (nodup : roles.Nodup) (s : State)
    (site : Nat) :
    let lost := roles.any fun role => (harmMember s site role).lossDue
    (closeSite c causes roles s site).link =
      if closingAt s site roles = [] then s.link
      else
        (post (.intervalClose site { causes with memberLoss := causes.memberLoss || lost } c.endTime
          (siteClosed c roles s site).1) s).link := by
  intro lost
  have keeps : CloseKeeps site s (siteClosed c roles s site).2 := .of_foldl roles
  have closed : (siteClosed c roles s site).1.closed = (closingAt s site roles).length :=
    (closeFold_closedCount c site roles {} s nodup).trans (Nat.zero_add _)
  have clock : (siteClosed c roles s site).2.clock = s.clock := keeps.moves.clock_eq (by decide)
  change (postWhen (0 < (siteClosed c roles s site).1.closed) _ (siteClosed c roles s site).2).link = _
  rw [closed, postWhen]
  by_cases none : closingAt s site roles = []
  · rw [if_pos none, none]
    exact keeps.link
  · rw [if_neg none, if_pos (decide_eq_true (List.length_pos_iff.2 none)), post_link, post_link, keeps.link, clock]
    rfl

theorem closeSite_rest (c : Closing) (causes : CloseCauses) (roles : List Nat) (s : State) (site : Nat) :
    (closeSite c causes roles s site).harm = (siteClosed c roles s site).2.harm ∧
      (closeSite c causes roles s site).store = (siteClosed c roles s site).2.store :=
  ⟨postWhen_harm _ _ _, postWhen_store _ _ _⟩

section
variable {c : Closing} {site : Nat} {roles : List Nat} {s : State}

theorem siteClosed_keeps : CloseKeeps site s (siteClosed c roles s site).2 := .of_foldl roles

theorem siteClosed_other {i j : Nat} (h : i ≠ site ∨ j ∉ roles) :
    harmMember (siteClosed c roles s site).2 i j = harmMember s i j := closeFold_other c roles {} s h

theorem siteClosed_full (nodup : roles.Nodup) (full : s.store.state = .full) :
    (siteClosed c roles s site).1 =
        ⟨(closingAt s site roles).length, 0, 0, (countedAt s site roles).length, emptyAt s site roles⟩ ∧
      (siteClosed c roles s site).2.store =
        { s.store with
          intervalDrops := (satInc max32)^[(countedAt s site roles).length] s.store.intervalDrops } := by
  obtain ⟨counts, store⟩ := closeFold_full c site roles {} s nodup full
  simp only [Nat.zero_add] at counts
  exact ⟨counts, store⟩

theorem siteClosed_room (nodup : roles.Nodup) (shaped : Shaped s) (hs : site < 4) (below : ∀ role ∈ roles, role < 8)
    (notFull : s.store.state ≠ .full) (up : storeUp s.store = true)
    (room : s.store.queue.length + (countedAt s site roles).length ≤ 16) :
    (siteClosed c roles s site).2.store.queue = s.store.queue ++ intervalEntries s.store.nextIds.interval
        ((countedAt s site roles).map fun x => stamped s (closeRecord c site s x)) ∧
      (siteClosed c roles s site).2.store.nextIds =
        { s.store.nextIds with interval := s.store.nextIds.interval + (countedAt s site roles).length } ∧
      ((∀ role ∈ roles, (harmMember s site role).place = none) →
        (siteClosed c roles s site).2.store.intervalDrops = s.store.intervalDrops ∧
        (siteClosed c roles s site).1 =
          ⟨(closingAt s site roles).length, (countedAt s site roles).length, 0, 0, emptyAt s site roles⟩) := by
  obtain ⟨queue, ids, others⟩ := closeFold_room c site roles {} s nodup shaped hs below notFull up room
  simp only [Nat.zero_add] at others
  exact ⟨queue, ids, others⟩

end

end Sys2Proof.Machine
end

