-- ==== Sys2Proof/Proofs/IntervalCloses.lean ====
section
/-!
PROOFS. The close frame of a site, the frame that becomes one, and a close by loss (R104, R109 to R111, R113),
with O50.
-/

namespace Sys2Proof.Machine

/-! ### The timing of the sites -/

/-- What a step keeps of the sites' interval boundaries. -/
def TimingKept (s t : State) : Prop :=
  ∀ i, (harmSite t i).next = (harmSite s i).next ∧ (harmSite t i).basis = (harmSite s i).basis ∧
    (harmSite t i).due = (harmSite s i).due

namespace TimingKept
variable {s t u : State}

theorem of_harm (h : t.harm.sites = s.harm.sites) : TimingKept s t := fun i => by
  rw [harmSite, h]
  exact ⟨rfl, rfl, rfl⟩

theorem trans (h : TimingKept s t) (k : TimingKept t u) : TimingKept s u := fun i =>
  ⟨(k i).1.trans (h i).1, (k i).2.1.trans (h i).2.1, (k i).2.2.trans (h i).2.2⟩

theorem of_closeKeeps {site : Nat} (h : CloseKeeps site s t) : TimingKept s t := fun i => by
  by_cases same : i = site
  · subst same
    have next := congrArg HarmSite.next h.site
    have basis := congrArg HarmSite.basis h.site
    have due := congrArg HarmSite.due h.site
    exact ⟨next, basis, due⟩
  · rw [h.others i same]
    exact ⟨rfl, rfl, rfl⟩

theorem of_modifyHarmMember {f : HarmMember → HarmMember} {site role : Nat} :
    TimingKept s (modifyHarmMember f site role s) := of_closeKeeps CloseKeeps.of_modifyHarmMember

theorem of_refreshRotation {site : Nat} : TimingKept s (refreshRotation s site) :=
  of_harm (congrArg Harm.sites ((refreshRotation_moves (P := only [.rotation]) s site (by decide)).harm_eq (by decide)))

theorem of_changePosition {m : Option Member} {site role : Nat} : TimingKept s (changePosition m site role s) := by
  unfold changePosition
  dsimp only
  refine trans ?_ of_refreshRotation
  refine trans ?_ of_modifyHarmMember
  refine of_harm ?_
  split <;> rfl

theorem of_matchMember {slot : Nat} {identity : Identity} : TimingKept s (matchMember slot identity s).2 := by
  unfold matchMember
  split
  · exact of_harm rfl
  · split
    · exact trans (of_harm rfl) of_refreshRotation
    · exact of_changePosition

theorem of_joinAtFrame : TimingKept s (joinAtFrame s) := by
  unfold joinAtFrame
  split
  · split
    · rw [joinComplete_eq]
      exact trans (trans (of_harm (congrArg Harm.sites ((joined_moves _ _ s).harm_eq (by decide)))) of_matchMember)
        (of_harm rfl)
    · exact of_harm rfl
  · exact of_harm rfl

theorem of_controlled : TimingKept s (controlled s) := by
  have begun : TimingKept s (frameBegun s) := of_harm (by rw [(frameBegun_moves s).harm_eq (by decide)])
  have chosen : TimingKept (newFrame s) (controlled s) := of_harm (by
    rw [controlled, (selectControl_onlyBus _).harm_eq (by decide)])
  refine trans ?_ chosen
  rw [newFrame_eq]
  exact trans (trans begun of_joinAtFrame) (of_harm rfl)

theorem of_closeSite {c : Closing} {causes : CloseCauses} {roles : List Nat} {site : Nat} :
    TimingKept s (closeSite c causes roles s site) :=
  trans (of_closeKeeps (siteClosed_keeps (c := c) (site := site) (roles := roles) (s := s)))
    (of_harm (congrArg Harm.sites (closeSite_rest c causes roles s site).1))

theorem of_lossCloses : TimingKept s (lossCloses s) := by
  unfold lossCloses
  split
  · exact of_harm rfl
  · have closes : ∀ (frame : Nat) (time : ClockTime) (sites : List Nat) (u : State),
        TimingKept u (sites.foldl (fun s site => if (harmSite s site).due then s
          else closeSite ⟨s.harm.moments, time, true, some (frame, time)⟩ {}
            (allRoles.filter fun role => (harmMember s site role).lossDue) s site) u) := by
      intro frame time sites
      induction sites with
      | nil => exact fun u => of_harm rfl
      | cons site sites ih =>
        intro u
        refine trans ?_ (ih _)
        dsimp only
        split
        · exact of_harm rfl
        · exact of_closeSite
    exact trans (closes _ _ (List.range 4) s) (of_harm rfl)

end TimingKept

/-- R104: a frame's start marks the sites whose boundary it has reached, and keeps their boundaries. -/
theorem beginFrame_timing (s : State) {site : Nat} (shaped : Shaped s) (hs : site < 4) :
    (harmSite (beginFrame s) site).next = (harmSite s site).next ∧
      (harmSite (beginFrame s) site).basis = (harmSite s site).basis ∧
      (harmSite (beginFrame s) site).due =
        ((harmSite s site).due || boundaryReached s s.clock.time (harmSite s site)) := by
  let u := referenceAtFrame (controlled s)
  have before : TimingKept s u :=
    TimingKept.of_controlled.trans (.of_harm (congrArg Harm.sites ((referenceAtFrame_onlyTracker _).harm_eq (by decide))))
  have after : TimingKept (markBoundary (closesMarked u)) (beginFrame s) := by
    rw [beginFrame_eq]
    split
    · exact .of_harm rfl
    · exact .of_lossCloses
  have shapedU : Shaped u := ((controlled_moves s).shaped shaped |> (referenceAtFrame_onlyTracker _).shaped)
  have marked : harmSite (markBoundary (closesMarked u)) site =
      { harmSite u site with
        due := (harmSite u site).due || boundaryReached (nextMoment u) u.bus.frameTime (harmSite u site) } := by
    have inside : site < u.harm.sites.length := by rw [shapedU.harm_length]; exact hs
    have e : (markBoundary (closesMarked u)).harm.sites = u.harm.sites.map fun h =>
      { h with due := h.due || boundaryReached (nextMoment u) u.bus.frameTime h } := rfl
    simp only [harmSite, e, List.getD_eq_getElem?_getD, List.getElem?_map, List.getElem?_eq_getElem inside]
    rfl
  obtain ⟨next0, basis0, due0⟩ := before site
  obtain ⟨next1, basis1, due1⟩ := after site
  rw [marked] at next1 basis1 due1
  refine ⟨next1.trans next0, basis1.trans basis0, due1.trans ?_⟩
  have time : u.bus.frameTime = s.clock.time := by
    obtain ⟨join, ctrl, probed, bus⟩ := controlled_bus s
    rw [(referenceAtFrame_onlyTracker _).bus_eq (by decide), bus]
  have survey : (nextMoment u).survey = s.survey :=
    ((referenceAtFrame_onlyTracker _).survey_eq (by decide)).trans ((controlled_moves s).survey_eq (by decide))
  rw [due0, time]
  unfold boundaryReached recording
  rw [next0, survey]

/-- A clock time is at or after a boundary on the clock that wraps. -/
theorem atOrAfter_iff {a b : ClockTime} (h : b.sec * 1000 + b.ms < 2 ^ 32 * 1000) :
    atOrAfter a b = true ↔
      (a.sec * 1000 + a.ms + (2 ^ 32 * 1000 - (b.sec * 1000 + b.ms))) % (2 ^ 32 * 1000) < 2 ^ 31 * 1000 := by
  have half : (2 ^ 31 * 1000 : Nat) = 2147483648000 := by norm_num
  have whole : (2 ^ 32 * 1000 : Nat) = 4294967296000 := by norm_num
  rw [whole] at h
  rw [atOrAfter, decide_eq_true_iff, half, whole]
  have same : msBetween a b = (a.sec * 1000 + a.ms + (4294967296000 - (b.sec * 1000 + b.ms))) % 4294967296000 :=
    congrArg (· % 4294967296000) (Nat.add_sub_assoc (Nat.le_of_lt h) (a.sec * 1000 + a.ms))
  rw [same]

theorem boundaryReached_idle {s : State} {time : ClockTime} {h : HarmSite} (k : recording s = false ∨ h.next = none) :
    boundaryReached s time h = false := by
  unfold boundaryReached
  rcases k with idle | none
  · rw [idle]
    cases h.next with
    | none => rfl
    | some time => exact Bool.false_and _
  · rw [none]

theorem boundaryReached_some {s : State} {time boundary : ClockTime} {h : HarmSite} (hb : h.next = some boundary)
    (active : recording s = true) : boundaryReached s time h = atOrAfter time boundary := by
  unfold boundaryReached
  rw [hb, active]
  exact Bool.true_and _

/-! ### The close frame -/

/-- The site's next boundary, as its close frame leaves it. -/
def boundaryTaken (site : Nat) (boundary : ClockTime) (basis : Basis) (s : State) : State :=
  modifyHarm
    (fun h =>
      { h with
        due := false
        next := some (nextBoundary basis boundary (siteOf s site).settings.interval) }) site s

/-- The closing of a close frame. -/
def closeFrame (boundary : ClockTime) (s : State) : Closing :=
  ⟨s.harm.moments, boundary, false, some (s.bus.frame, boundary)⟩

section
variable {site : Nat} {boundary : ClockTime} {basis : Basis} {s : State}

theorem intervalBoundary_due (h : (harmSite s site).due = true) (hn : (harmSite s site).next = some boundary)
    (hb : (harmSite s site).basis = some basis) :
    intervalBoundary site s =
      storeNext (closeSite (closeFrame boundary s) { boundary := true } allRoles
        (boundaryTaken site boundary basis s) site) := by
  unfold intervalBoundary
  dsimp only
  rw [h, hn, hb]
  rfl

theorem intervalBoundary_idle (h : (harmSite s site).due = false) : intervalBoundary site s = s := by
  unfold intervalBoundary
  dsimp only
  rw [h]

theorem boundaryTaken_member (i j : Nat) :
    harmMember (boundaryTaken site boundary basis s) i j = harmMember s i j :=
  harmMember_modifyHarm_members (fun h =>
    { h with
      due := false
      next := some (nextBoundary basis boundary (siteOf s site).settings.interval) }) (fun _ => rfl) _ _ _ _

theorem boundaryTaken_site (inside : site < s.harm.sites.length) :
    harmSite (boundaryTaken site boundary basis s) site =
      { harmSite s site with
        due := false, next := some (nextBoundary basis boundary (siteOf s site).settings.interval) } :=
  harmSite_modifyHarm _ _ _ inside

theorem boundaryTaken_others {i : Nat} (h : i ≠ site) :
    harmSite (boundaryTaken site boundary basis s) i = harmSite s i :=
  harmSite_modifyHarm_other _ _ _ _ h

theorem freshFor_at (s : State) (site role moment frame : Nat) (endTime time : ClockTime) (all : Bool) :
    freshFor s site role ⟨moment, endTime, all, some (frame, time)⟩ =
      (memberOf s site role).map fun m =>
        newAccumulator m (siteOf s site).settings.hmax time frame (harmSite s site).mark.isSome := by
  unfold freshFor
  cases memberOf s site role <;> rfl

end

theorem boundaryTaken_moves (site : Nat) (boundary : ClockTime) (basis : Basis) (s : State) :
    Moves (only [.harm]) s (boundaryTaken site boundary basis s) :=
  modifyHarm_moves (fun h =>
    { h with
      due := false
      next := some (nextBoundary basis boundary (siteOf s site).settings.interval) }) site s (fun _ => rfl) (by decide)

/-! ### A site that closes, and what the store then does -/

/-- The close of some positions of a site, after which the array takes its next operation. -/
def closeNext (c : Closing) (causes : CloseCauses) (roles : List Nat) (site : Nat) (s : State) : State :=
  storeNext (closeSite c causes roles s site)

section
variable {c : Closing} {causes : CloseCauses} {roles : List Nat} {site : Nat} {s : State}

theorem closeNext_moves : Moves (only [.harm, .store]) s (closeNext c causes roles site s) :=
  .trans (closeSite_moves _ _ _ _ _ (by decide) (by decide)) (storeNext_moves _ (by decide))

theorem closeNext_harm : (closeNext c causes roles site s).harm = (siteClosed c roles s site).2.harm :=
  (closeSite_rest c causes roles s site).1

theorem closeNext_store : NextKeeps (siteClosed c roles s site).2.store (closeNext c causes roles site s).store :=
  (closeSite_rest c causes roles s site).2 ▸ next_keeps _

theorem closeNext_site (i : Nat) :
    harmSite (closeNext c causes roles site s) i = harmSite (siteClosed c roles s site).2 i := by
  rw [harmSite, closeNext_harm]
  rfl

theorem closeNext_others {i : Nat} (h : i ≠ site) : harmSite (closeNext c causes roles site s) i = harmSite s i :=
  (closeNext_site i).trans ((siteClosed_keeps (c := c) (site := site) (roles := roles) (s := s)).others i h)

/-- The site's own figures, but its empty count. -/
theorem closeNext_same : (harmSite (closeNext c causes roles site s) site).due = (harmSite s site).due ∧
    (harmSite (closeNext c causes roles site s) site).basis = (harmSite s site).basis ∧
    (harmSite (closeNext c causes roles site s) site).next = (harmSite s site).next ∧
    (harmSite (closeNext c causes roles site s) site).mark = (harmSite s site).mark ∧
    (harmSite (closeNext c causes roles site s) site).abandoned = (harmSite s site).abandoned := by
  have same := (siteClosed_keeps (c := c) (site := site) (roles := roles) (s := s)).site
  rw [closeNext_site]
  have due := congrArg HarmSite.due same
  have basis := congrArg HarmSite.basis same
  have next := congrArg HarmSite.next same
  have mark := congrArg HarmSite.mark same
  have abandoned := congrArg HarmSite.abandoned same
  exact ⟨due, basis, next, mark, abandoned⟩

theorem closeNext_other {i j : Nat} (h : i ≠ site ∨ j ∉ roles) :
    harmMember (closeNext c causes roles site s) i j = harmMember s i j :=
  (harmMember_of_harm closeNext_harm i j).trans (siteClosed_other h)

theorem closeNext_closed (shaped : Shaped s) (hs : site < 4) (nodup : roles.Nodup) (below : ∀ r ∈ roles, r < 8)
    {role : Nat} (mem : role ∈ roles) : MemberClosed c site role s (closeNext c causes roles site s) := by
  have closed := closeFold_closed hs (c := c) roles (k := {}) shaped nodup below role mem
  have same : harmMember (closeNext c causes roles site s) site role =
      harmMember (siteClosed c roles s site).2 site role := harmMember_of_harm closeNext_harm site role
  exact ⟨(congrArg _ same).trans closed.window, (congrArg _ same).trans closed.latest,
    (congrArg _ same).trans closed.acc, (congrArg _ same).trans closed.lossDue⟩

theorem closeNext_link (nodup : roles.Nodup) :
    let lost := roles.any fun role => (harmMember s site role).lossDue
    (closeNext c causes roles site s).link =
      if closingAt s site roles = [] then s.link
      else
        (post (.intervalClose site { causes with memberLoss := causes.memberLoss || lost } c.endTime
          (siteClosed c roles s site).1) s).link := closeSite_link c causes nodup s site

theorem closeNext_empty (shaped : Shaped s) (hs : site < 4) (nodup : roles.Nodup) :
    (harmSite (closeNext c causes roles site s) site).empty =
      (satInc max32)^[emptyAt s site roles] (harmSite s site).empty :=
  (congrArg _ (closeNext_site site)).trans (closeFold_empty c hs roles {} s nodup shaped)

end

theorem allRoles_nodup : allRoles.Nodup := List.nodup_range

theorem allRoles_below : ∀ role ∈ allRoles, role < 8 := fun _ => List.mem_range.1

/-! ### The close frame's parts -/

/-- A site's close frame. -/
def boundaryClosed (site : Nat) (boundary : ClockTime) (basis : Basis) (s : State) : State :=
  closeNext (closeFrame boundary s) { boundary := true } allRoles site (boundaryTaken site boundary basis s)

section
variable {site : Nat} {boundary : ClockTime} {basis : Basis} {s : State}

theorem boundaryClosed_moves : Moves (only [.harm, .store]) s (boundaryClosed site boundary basis s) :=
  ((boundaryTaken_moves site boundary basis s).mono (by decide)).trans closeNext_moves

theorem boundaryClosed_others {i : Nat} (h : i ≠ site) :
    harmSite (boundaryClosed site boundary basis s) i = harmSite s i :=
  (closeNext_others h).trans (boundaryTaken_others h)

theorem boundaryTaken_closing (roles : List Nat) :
    closingAt (boundaryTaken site boundary basis s) site roles = closingAt s site roles :=
  closingAt_congr fun role _ => boundaryTaken_member site role

theorem boundaryTaken_counted (roles : List Nat) :
    countedAt (boundaryTaken site boundary basis s) site roles = countedAt s site roles :=
  congrArg (List.filter _) (boundaryTaken_closing roles)

theorem boundaryTaken_empty (roles : List Nat) :
    emptyAt (boundaryTaken site boundary basis s) site roles =
      (closingAt s site roles).length - (countedAt s site roles).length := by
  have counted := closing_length (s := boundaryTaken site boundary basis s) (site := site) (roles := roles)
  rw [boundaryTaken_closing, boundaryTaken_counted] at counted
  omega

variable (shaped : Shaped s) (hs : site < 4)
include shaped hs

theorem boundaryClosed_timing :
    let t := boundaryClosed site boundary basis s
    (harmSite t site).due = false ∧ (harmSite t site).basis = (harmSite s site).basis ∧
      (harmSite t site).mark = (harmSite s site).mark ∧ (harmSite t site).abandoned = (harmSite s site).abandoned ∧
      (harmSite t site).next = some (nextBoundary basis boundary (siteOf s site).settings.interval) := by
  obtain ⟨due, basis, next, mark, abandoned⟩ :=
    closeNext_same (c := closeFrame boundary s) (causes := { boundary := true }) (roles := allRoles) (site := site)
      (s := boundaryTaken site boundary basis s)
  rw [boundaryTaken_site (by rw [shaped.harm_length]; exact hs)] at due basis next mark abandoned
  exact ⟨due, basis, mark, abandoned, next⟩

theorem boundaryClosed_empty
    (bound : (harmSite s site).empty + (closingAt s site allRoles).length ≤ 4294967295) :
    (harmSite (boundaryClosed site boundary basis s) site).empty =
      (harmSite s site).empty + ((closingAt s site allRoles).length - (countedAt s site allRoles).length) := by
  refine (closeNext_empty ((boundaryTaken_moves _ _ _ _).shaped shaped) hs allRoles_nodup).trans ?_
  have kept : (harmSite (boundaryTaken site boundary basis s) site).empty = (harmSite s site).empty := by
    rw [boundaryTaken_site (by rw [shaped.harm_length]; exact hs)]
  rw [boundaryTaken_empty, kept]
  exact satInc_iterate_below (top := 4294967295) (by omega)

theorem boundaryClosed_member {role : Nat} (hr : role < 8) :
    let t := boundaryClosed site boundary basis s
    (harmMember t site role).window = (harmMember s site role).window ∧
      (harmMember t site role).latest = (harmMember s site role).latest ∧
      (harmMember t site role).acc = (harmMember s site role).acc.bind fun _ => (memberOf s site role).map fun m =>
        newAccumulator m (siteOf s site).settings.hmax boundary s.bus.frame (harmSite s site).mark.isSome := by
  have closed := closeNext_closed (c := closeFrame boundary s) (causes := { boundary := true })
    ((boundaryTaken_moves site boundary basis s).shaped shaped) hs allRoles_nodup allRoles_below (List.mem_range.2 hr)
  have fresh := freshFor_at (boundaryTaken site boundary basis s) site role s.harm.moments s.bus.frame boundary boundary
    false
  rw [boundaryTaken_site (by rw [shaped.harm_length]; exact hs)] at fresh
  refine ⟨closed.window.trans (congrArg _ (boundaryTaken_member site role)),
    closed.latest.trans (congrArg _ (boundaryTaken_member site role)), closed.acc.trans ?_⟩
  rw [boundaryTaken_member]
  exact congrArg _ (funext fun _ => fresh)

omit shaped hs in
theorem boundaryClosed_link :
    (boundaryClosed site boundary basis s).link =
      if closingAt s site allRoles = [] then s.link
      else
        (post (.intervalClose site
          { boundary := true, stop := false, acqReset := false
            memberLoss := (List.range 8).any fun role => (harmMember s site role).lossDue } boundary
          (siteClosed (closeFrame boundary s) allRoles (boundaryTaken site boundary basis s) site).1) s).link := by
  have told := closeNext_link (c := closeFrame boundary s) (causes := { boundary := true })
    (s := boundaryTaken site boundary basis s) (site := site) allRoles_nodup
  have lost : (allRoles.any fun role => (harmMember (boundaryTaken site boundary basis s) site role).lossDue) =
      allRoles.any fun role => (harmMember s site role).lossDue :=
    congrArg allRoles.any (funext fun role => by rw [boundaryTaken_member])
  dsimp only at told
  rw [boundaryTaken_closing, lost, Bool.false_or] at told
  exact told

omit shaped hs in
theorem boundaryClosed_full (full : s.store.state = .full) :
    let t := boundaryClosed site boundary basis s
    let closing := (closingAt s site allRoles).length
    let made := (countedAt s site allRoles).length
    t.store.queue = s.store.queue ∧ t.store.intervalDrops = (satInc max32)^[made] s.store.intervalDrops ∧
      (siteClosed (closeFrame boundary s) allRoles (boundaryTaken site boundary basis s) site).1 =
        ⟨closing, 0, 0, made, closing - made⟩ := by
  obtain ⟨counts, store⟩ := siteClosed_full (c := closeFrame boundary s) (site := site) (roles := allRoles)
    (s := boundaryTaken site boundary basis s) allRoles_nodup full
  have after := closeNext_store (c := closeFrame boundary s) (causes := { boundary := true }) (roles := allRoles)
    (site := site) (s := boundaryTaken site boundary basis s)
  rw [boundaryTaken_counted] at store
  rw [boundaryTaken_counted, boundaryTaken_closing, boundaryTaken_empty] at counts
  have queue := after.queue
  have drops := after.intervalDrops
  rw [store] at queue drops
  exact ⟨queue, drops, counts⟩

theorem boundaryClosed_room (up : s.store.state = .ready ∨ s.store.state = .reclaiming)
    (room : s.store.queue.length + (countedAt s site allRoles).length ≤ 16) :
    let t := boundaryClosed site boundary basis s
    let closing := (closingAt s site allRoles).length
    let made := countedAt s site allRoles
    t.store.queue = s.store.queue ++ intervalEntries s.store.nextIds.interval
        (made.map fun x => stamped s (closeRecord (closeFrame boundary s) site s x)) ∧
      t.store.nextIds = { s.store.nextIds with interval := s.store.nextIds.interval + made.length } ∧
      ((∀ role, role < 8 → (harmMember s site role).place = none) →
        t.store.intervalDrops = s.store.intervalDrops ∧
        (siteClosed (closeFrame boundary s) allRoles (boundaryTaken site boundary basis s) site).1 =
          ⟨closing, made.length, 0, 0, closing - made.length⟩) := by
  have notFull : s.store.state ≠ .full := by rcases up with h | h <;> simp [h]
  have isUp : storeUp s.store = true := by rcases up with h | h <;> simp [storeUp, h]
  obtain ⟨queue, ids, others⟩ := siteClosed_room (c := closeFrame boundary s) (site := site)
    (s := boundaryTaken site boundary basis s) allRoles_nodup ((boundaryTaken_moves _ _ _ _).shaped shaped) hs
    allRoles_below notFull isUp (by rw [boundaryTaken_counted]; exact room)
  have after := closeNext_store (c := closeFrame boundary s) (causes := { boundary := true }) (roles := allRoles)
    (site := site) (s := boundaryTaken site boundary basis s)
  have records : (fun x => stamped (boundaryTaken site boundary basis s)
      (closeRecord (closeFrame boundary s) site (boundaryTaken site boundary basis s) x)) =
      fun x => stamped s (closeRecord (closeFrame boundary s) site s x) := funext fun x => by
    unfold closeRecord
    rw [boundaryTaken_member]
    rfl
  rw [boundaryTaken_counted] at queue ids others
  rw [records] at queue
  refine ⟨after.queue.trans queue, after.nextIds.trans ids, fun free => ?_⟩
  obtain ⟨drops, counts⟩ := others fun role mem => by
    rw [boundaryTaken_member]
    exact free role (List.mem_range.1 mem)
  rw [boundaryTaken_closing, boundaryTaken_empty] at counts
  exact ⟨after.intervalDrops.trans drops, counts⟩

end

/-! ### The records -/

/-- A mean of a record's orders is the exact root rounded once (R109). -/
theorem closeRecord_mean {c : Closing} {s : State} {site i sum : Nat} {x : Nat × Accumulator} {o : Nat × Nat}
    (hn : 0 < x.2.n) (hs : x.2.sumSq[i]? = some sum) (ho : (stamped s (closeRecord c site s x)).orders[i]? = some o) :
    (1 ≤ o.1 → (2 * o.1 - 1) ^ 2 * x.2.n ≤ 4 * sum) ∧ 4 * sum < (2 * o.1 + 1) ^ 2 * x.2.n := by
  obtain ⟨p, hp, rfl⟩ := Option.map_eq_some_iff.1 ((List.getElem?_map ..).symm.trans ho)
  obtain ⟨first, _⟩ := List.getElem?_zip_eq_some.1 hp
  cases first.symm.trans hs
  exact orderMean_spec p.1 x.2.n hn

theorem mem_countedAt {s : State} {site : Nat} {roles : List Nat} {x : Nat × Accumulator}
    (h : x ∈ countedAt s site roles) : 0 < x.2.n :=
  of_decide_eq_true (List.mem_filter.1 h).2

/-! ### A close by loss -/

/-- A fold in which one element alone does something. -/
theorem foldl_of_fixed {α β : Type} {f : β → α → β} {a : α} {s : β} {xs : List α} (nodup : xs.Nodup) (mem : a ∈ xs)
    (before : ∀ x ∈ xs, x ≠ a → f s x = s) (after : ∀ x ∈ xs, x ≠ a → f (f s a) x = f s a) :
    xs.foldl f s = f s a := by
  have stays : ∀ (ys : List α) (u : β), (∀ y ∈ ys, f u y = u) → ys.foldl f u = u := fun ys => by
    induction ys with
    | nil => exact fun u _ => rfl
    | cons y ys ih =>
      intro u h
      rw [List.foldl_cons, h y List.mem_cons_self]
      exact ih u fun z hz => h z (List.mem_cons_of_mem _ hz)
  induction xs with
  | nil => cases mem
  | cons x xs ih =>
    obtain ⟨fresh, nodup⟩ := List.nodup_cons.1 nodup
    by_cases here : x = a
    · subst here
      exact stays xs _ fun y hy => after y (List.mem_cons_of_mem _ hy) fun e => fresh (e ▸ hy)
    · rw [List.foldl_cons, before x List.mem_cons_self here]
      exact ih nodup ((List.mem_cons.1 mem).resolve_left fun e => here e.symm)
        (fun y hy => before y (List.mem_cons_of_mem _ hy)) fun y hy => after y (List.mem_cons_of_mem _ hy)

theorem filter_range_singleton {n k : Nat} {p : Nat → Bool} (h : k < n) (hp : ∀ i, i < n → (p i = true ↔ i = k)) :
    (List.range n).filter p = [k] := by
  have same : (List.range n).filter p = (List.range n).filter (· == k) :=
    List.filter_congr fun i hi => by
      rw [Bool.eq_iff_iff, hp i (List.mem_range.1 hi), beq_iff_eq]
  rw [same, List.filter_beq, List.count_eq_one_of_mem List.nodup_range (List.mem_range.2 h)]
  rfl

/-- The closing of a close by loss. -/
def lossClosing (s : State) : Closing :=
  ⟨s.harm.moments, s.bus.frameTime, true, some (s.bus.frame, s.bus.frameTime)⟩

theorem closeSite_nil (c : Closing) (causes : CloseCauses) (s : State) (site : Nat) :
    closeSite c causes [] s site = s := rfl

section
variable {site role : Nat} {s : State} (hs : site < 4) (hr : role < 8)
  (lost : (harmMember s site role).lossDue = true) (open_ : (harmSite s site).due = false)
  (rest : ∀ i j, i < 4 → j < 8 → (i ≠ site ∨ j ≠ role) → (harmMember s i j).lossDue = false)
include hs hr lost open_ rest

theorem lossCloses_single : lossCloses s = closeNext (lossClosing s) {} [role] site s := by
  have some_ : (allPositions.any fun p => (harmMember s p.1 p.2).lossDue) = true :=
    List.any_eq_true.2 ⟨(site, role), (mem_allPositions _).2 ⟨hs, hr⟩, lost⟩
  have roles : allRoles.filter (fun role => (harmMember s site role).lossDue) = [role] :=
    filter_range_singleton hr fun i hi =>
      ⟨fun due => by
        by_contra other
        rw [rest site i hs hi (.inr other)] at due
        exact Bool.false_ne_true due, fun e => e ▸ lost⟩
  let step := fun (u : State) (i : Nat) => if (harmSite u i).due then u
    else closeSite ⟨u.harm.moments, s.bus.frameTime, true, some (s.bus.frame, s.bus.frameTime)⟩ {}
      (allRoles.filter fun role => (harmMember u i role).lossDue) u i
  have here : step s site = closeSite (lossClosing s) {} [role] s site := by
    refine (if_neg (by rw [open_]; exact Bool.false_ne_true)).trans ?_
    rw [roles]
    rfl
  have idle : ∀ (u : State) (i : Nat), i < 4 → i ≠ site → (∀ j, harmMember u i j = harmMember s i j) → step u i = u := by
    intro u i hi away same
    have none : allRoles.filter (fun role => (harmMember u i role).lossDue) = [] :=
      List.filter_eq_nil_iff.2 fun j hj => by
        rw [same, rest i j hi (List.mem_range.1 hj) (.inl away)]
        exact Bool.false_ne_true
    dsimp only [step]
    rw [none, closeSite_nil]
    exact ite_self u
  have fold : (List.range 4).foldl step s = step s site :=
    foldl_of_fixed List.nodup_range (List.mem_range.2 hs)
      (fun i hi away => idle s i (List.mem_range.1 hi) away fun _ => rfl)
      (fun i hi away => idle _ i (List.mem_range.1 hi) away fun j => by
        rw [here]
        exact closeSite_other _ _ _ _ (.inl away))
  unfold lossCloses
  rw [some_]
  exact congrArg storeNext (fold.trans here)

end

section
variable {site role : Nat} {s : State} {a : Accumulator} (shaped : Shaped s) (hs : site < 4) (hr : role < 8)
  (ha : (harmMember s site role).acc = some a) (lost : (harmMember s site role).lossDue = true)

/-- The positions of a close by loss. -/
theorem singleton_below {role : Nat} (hr : role < 8) : ∀ r ∈ [role], r < 8 := fun r h => by
  rw [List.mem_singleton.1 h]
  exact hr

include ha in
theorem closingAt_singleton : closingAt s site [role] = [(role, a)] := closingAt_some ha

include ha in
theorem countedAt_singleton (hn : 1 ≤ a.n) : countedAt s site [role] = [(role, a)] := by
  rw [countedAt, closingAt_singleton ha]
  exact List.filter_cons_of_pos (decide_eq_true hn)

include ha lost in
theorem lossClosed_link {counts : CloseCounts} (hc : (siteClosed (lossClosing s) [role] s site).1 = counts) :
    (closeNext (lossClosing s) {} [role] site s).link = (post (.intervalClose site
      { boundary := false, stop := false, acqReset := false, memberLoss := true } s.bus.frameTime counts) s).link := by
  have told := closeNext_link (c := lossClosing s) (causes := {}) (s := s) (site := site) (List.nodup_singleton role)
  have any : ([role].any fun role => (harmMember s site role).lossDue) = true := by simp [lost]
  dsimp only at told
  rw [closingAt_singleton ha, hc, any, if_neg (List.cons_ne_nil _ _)] at told
  exact told

include shaped hs ha in
theorem lossClosed_none (hn : a.n = 0) :
    let t := closeNext (lossClosing s) {} [role] site s
    t.store.queue = s.store.queue ∧ (siteClosed (lossClosing s) [role] s site).1 = ⟨1, 0, 0, 0, 1⟩ ∧
      (harmSite t site).empty = satInc 4294967295 (harmSite s site).empty := by
  have one : siteClosed (lossClosing s) [role] s site =
      (⟨1, 0, 0, 0, 1⟩, emptyCounted site (reopened (lossClosing s) site role s)) := closePosition_empty ha hn
  have store : (siteClosed (lossClosing s) [role] s site).2.store = s.store := congrArg (fun r => r.2.store) one
  have queue := (closeNext_store (c := lossClosing s) (causes := {}) (roles := [role]) (site := site) (s := s)).queue
  rw [store] at queue
  have empties : emptyAt s site [role] = 1 := by
    rw [emptyAt, closingAt_singleton ha, List.countP_singleton, if_pos (beq_iff_eq.2 hn)]
  have empty := closeNext_empty (c := lossClosing s) (causes := {}) shaped hs (List.nodup_singleton role)
  rw [empties] at empty
  exact ⟨queue, congrArg Prod.fst one, empty⟩

include ha in
theorem lossClosed_full (hn : 1 ≤ a.n) (full : s.store.state = .full) :
    let t := closeNext (lossClosing s) {} [role] site s
    t.store.queue = s.store.queue ∧ (siteClosed (lossClosing s) [role] s site).1 = ⟨1, 0, 0, 1, 0⟩ ∧
      t.store.intervalDrops = satInc 4294967295 s.store.intervalDrops := by
  obtain ⟨counts, store⟩ := siteClosed_full (c := lossClosing s) (site := site) (List.nodup_singleton role) full
  have after := closeNext_store (c := lossClosing s) (causes := {}) (roles := [role]) (site := site) (s := s)
  have queue := after.queue
  have drops := after.intervalDrops
  have empties : emptyAt s site [role] = 0 := by
    rw [emptyAt, closingAt_singleton ha, List.countP_singleton, if_neg (by simpa using Nat.ne_of_gt hn)]
  rw [store, countedAt_singleton ha hn] at queue drops
  rw [closingAt_singleton ha, countedAt_singleton ha hn, empties] at counts
  exact ⟨queue, counts, drops⟩

include shaped hs hr ha in
theorem lossClosed_room (hn : 1 ≤ a.n) (up : s.store.state = .ready ∨ s.store.state = .reclaiming)
    (room : s.store.queue.length < 16) (free : (harmMember s site role).place = none) :
    let t := closeNext (lossClosing s) {} [role] site s
    (siteClosed (lossClosing s) [role] s site).1 = ⟨1, 1, 0, 0, 0⟩ ∧
      t.store.queue = s.store.queue ++ [⟨.interval, s.store.nextIds.interval,
        .interval s.store.nextIds.interval (stamped s (closeRecord (lossClosing s) site s (role, a))), false⟩] := by
  have notFull : s.store.state ≠ .full := by rcases up with h | h <;> simp [h]
  have isUp : storeUp s.store = true := by rcases up with h | h <;> simp [storeUp, h]
  have counted := countedAt_singleton (site := site) ha hn
  obtain ⟨queue, _, others⟩ := siteClosed_room (c := lossClosing s) (List.nodup_singleton role) shaped hs
    (singleton_below hr) notFull isUp (by rw [counted]; exact room)
  obtain ⟨_, counts⟩ := others fun r h => by rw [List.mem_singleton.1 h]; exact free
  have empties : emptyAt s site [role] = 0 := by
    rw [emptyAt, closingAt_singleton ha, List.countP_singleton, if_neg (by simpa using Nat.ne_of_gt hn)]
  rw [closingAt_singleton ha, counted, empties] at counts
  rw [counted] at queue
  exact ⟨counts, (closeNext_store (causes := {})).queue.trans queue⟩

end

/-- Settles O50. -/
theorem intervalBoundaryClosesTheSite : Obligations.IntervalBoundaryClosesTheSite := by
  unfold Obligations.IntervalBoundaryClosesTheSite
  refine ⟨?closeFrame, ?frameStart, ?loss⟩
  case closeFrame =>
    intro site frame boundary basis s q shaped hs settled hframe hn hb h x accOf closing made lost told
    have unchanged : stopBoundary s = s := if_neg (by simp [stopDue, settled])
    have step : exec (.intervalBoundary site) s = .next (intervalBoundary site s) := by
      have e : siteBoundary site s = intervalBoundary site s := congrArg (intervalBoundary site) unchanged
      rw [exec_event (f := siteBoundary site) rfl, ← e]
      exact event_of_moves (P := anyPart) (by
        rw [e]; exact intervalBoundary_moves site s trivial trivial) q
    refine ⟨fun idle => by rw [step, intervalBoundary_idle idle], fun due => ?_⟩
    have moves := boundaryClosed_moves (site := site) (boundary := boundary) (basis := basis) (s := s)
    obtain ⟨dueT, basisT, markT, abandonedT, nextT⟩ := boundaryClosed_timing (boundary := boundary) (basis := basis) shaped hs
    have link := boundaryClosed_link (site := site) (boundary := boundary) (basis := basis) (s := s)
    refine ⟨boundaryClosed site boundary basis s,
      step.trans (congrArg Host.Outcome.next (intervalBoundary_due due hn hb)), moves.bus_eq (by decide),
      moves.sites_eq (by decide), moves.roster_eq (by decide), moves.sag_eq (by decide), moves.capture_eq (by decide),
      moves.survey_eq (by decide), moves.print_eq (by decide), moves.array_eq (by decide),
      fun i hi => boundaryClosed_others hi, dueT, basisT.trans hb, markT, abandonedT, nextT.trans ?next,
      fun bound => boundaryClosed_empty shaped hs bound,
      fun role hr => hframe ▸ boundaryClosed_member shaped hs hr, fun full => ?full, fun ready room free => ?room⟩
    case next => cases basis <;> rfl
    case full =>
      obtain ⟨queue, drops, counts⟩ := boundaryClosed_full (site := site) (boundary := boundary) (basis := basis) full
      rw [counts] at link
      exact ⟨queue, link, fun bound => drops.trans (satInc_iterate_below bound)⟩
    case room =>
      obtain ⟨queue, ids, others⟩ := boundaryClosed_room (boundary := boundary) (basis := basis) shaped hs ready room
      obtain ⟨drops, counts⟩ := others free
      rw [counts] at link
      refine ⟨drops, link, ids, _, queue, List.map_map, List.map_map, List.map_map, List.map_map, ?_,
        fun k i sum x r o hx hr hsum ho => ?_⟩
      · refine List.map_map.trans (List.map_congr_left fun x _ => ?_)
        exact List.map_map
      · have inMade : x ∈ countedAt s site allRoles := List.mem_of_getElem? hx
        have e := (List.getElem?_map ..).symm.trans hr
        rw [show (countedAt s site allRoles)[k]? = some x from hx] at e
        cases Option.some.inj e
        exact closeRecord_mean (mem_countedAt inMade) hsum ho
  case frameStart =>
    intro site s q shaped settled hs h ms
    obtain ⟨next, basis, due⟩ := beginFrame_timing s shaped hs
    refine ⟨beginFrame s, exec_frameStart q settled, next, basis, ?_, ?_⟩
    · intro idle
      rw [due, boundaryReached_idle idle, Bool.or_false]
    · intro boundary active hb bound passed
      rw [due, boundaryReached_some hb active, Bool.or_eq_true, atOrAfter_iff bound]
  case loss =>
    intro site role a s shaped hs hr ha lost open_ rest t told
    have single : t = closeNext (lossClosing s) {} [role] site s := lossCloses_single hs hr lost open_ rest
    have moves : Moves (only [.harm, .store]) s (closeNext (lossClosing s) {} [role] site s) := closeNext_moves
    have closed := closeNext_closed (c := lossClosing s) (causes := {}) shaped hs (List.nodup_singleton role)
      (singleton_below hr) (List.mem_singleton.2 (rfl : role = role))
    have link := fun counts => lossClosed_link (s := s) (site := site) (counts := counts) ha lost
    simp only [told, single]
    refine ⟨?_, ?_, fun i j _ _ away => closeNext_other (away.imp_right (mt List.mem_singleton.1)), moves.sites_eq (by decide),
      moves.survey_eq (by decide), moves.bus_eq (by decide), moves.array_eq (by decide), fun hn => ?_, fun hn full => ?_,
      fun hn up room free => ?_⟩
    · rw [closed.acc, ha]
      exact freshFor_at s site role ..
    · rw [closed.lossDue, ha]
      rfl
    · obtain ⟨queue, counts, empty⟩ := lossClosed_none shaped hs ha hn
      exact ⟨queue, link _ counts, empty⟩
    · obtain ⟨queue, counts, drops⟩ := lossClosed_full (site := site) ha hn full
      exact ⟨queue, link _ counts, drops⟩
    · obtain ⟨counts, queue⟩ := lossClosed_room shaped hs hr ha hn up room free
      exact ⟨link _ counts, _, queue, rfl, rfl, rfl, rfl, rfl, rfl, rfl, rfl, rfl, rfl⟩

end Sys2Proof.Machine
end

