-- ==== Sys2Proof/Proofs/RunStarts.lean ====
section
/-!
PROOFS. The start boundary of a run (R49, R51, R53, R104, R105), with O41.
-/

namespace Sys2Proof.Machine

/-- The survey of a run that starts (R49). -/
def runStarted (s : State) : State :=
  setSurvey
    (fun v =>
      { v with
        change := none, changeDue := false, runStart := some ⟨s.bus.frame, s.bus.frameTime⟩
        first := some (v.first.getD s.bus.frameTime) }) s

/-- A run that has entered RECORDING, before the waiting request is answered. -/
def runEntered (s : State) : State :=
  enterSurvey .recording none s.bus.frame s.bus.frameTime (runStarted s)

/-- The reply to a SURVEY_START or a SURVEY_RESUME. -/
def startReply (s : State) : ReplyBody :=
  if s.survey.state = some .held then .resumed s.bus.frame s.bus.frameTime
  else .surveyStarted s.survey.number s.bus.frame s.bus.frameTime

theorem startBoundary_due {s : State} (hc : s.survey.change = some .start) (hd : s.survey.changeDue = true) :
    startBoundary s =
      let t := harmStarts (answer .ok (startReply s) (runEntered s))
      { t with sag := { t.sag with runBoundary := some t.bus.frame } } := by
  have due : (s.survey.changeDue && s.survey.change == some .start) = true := by simp [hc, hd]
  have number : (runEntered s).survey.number = s.survey.number := by
    rw [runEntered, (enterSurvey_record .recording none _ _ (runStarted s)).1]
    rfl
  refine (if_pos due).trans ?_
  have reply : surveyStarts s = answer .ok (startReply s) (runEntered s) := by
    rw [startReply, ← number]
    rfl
  rw [reply]

/-! ### The sites -/

section
variable {s : State} (shaped : Shaped s) {site : Nat} (hs : site < 4)
include shaped hs

theorem harmSite_harmStarts : harmSite (harmStarts s) site =
    startSite s.bus.frame s.bus.frameTime s.bus.frameValid (siteOf s site) (harmSite s site) :=
  getD_map_zip (fun x : HarmSite × Site => startSite s.bus.frame s.bus.frameTime s.bus.frameValid x.2 x.1) _ _ {} {} {}
    (by rw [shaped.harm_length]; exact hs) (by rw [shaped.sites_length]; exact hs)

theorem harmMember_harmStarts {role : Nat} (hr : role < 8) (enabled : (siteOf s site).settings.enabled = true) :
    (harmMember (harmStarts s) site role).acc = (memberOf s site role).map fun m =>
      newAccumulator m (siteOf s site).settings.hmax s.bus.frameTime s.bus.frame (harmSite s site).mark.isSome := by
  rw [harmMember, harmSite_harmStarts shaped hs, startSite]
  dsimp only
  rw [if_pos enabled]
  dsimp only
  exact congrArg HarmMember.acc (getD_map_zip _ (harmSite s site).members (siteOf s site).members {} none {}
    (by rw [shaped.harmMembers_length hs]; exact hr) (by rw [shaped.members_length hs]; exact hr))

omit shaped hs in
theorem startSite_timing (frame : Nat) (time : ClockTime) (valid : Bool) (e : Site) (h : HarmSite) :
    (startSite frame time valid e h).basis = some (if valid then .clock else .run) ∧
      (startSite frame time valid e h).next =
        some (nextBoundary (if valid then .clock else .run) time e.settings.interval) := by
  unfold startSite
  dsimp only
  split <;> exact ⟨rfl, rfl⟩

end

/-- Settles O41. -/
theorem startBoundaryStartsTheRun : Obligations.StartBoundaryStartsTheRun := by
  unfold Obligations.StartBoundaryStartsTheRun
  intro kind tag frame s q shaped unowed noReply sending current hc hd hframe
  subst hframe
  obtain ⟨survey, queued, waits⟩ := enterSurvey_record .recording none s.bus.frame s.bus.frameTime (runStarted s)
  have link := enterSurvey_link .recording none s.bus.frame s.bus.frameTime (runStarted s)
  have kept := enterSurvey_kept .recording none s.bus.frame s.bus.frameTime (runStarted s)
  have sends : Sends s.link := ⟨sending, unowed⟩
  have appended := post_appends (s := runStarted s)
    (.surveyState s.survey.number .recording s.survey.state none s.bus.frame s.bus.frameTime none) sends
  have linkV : (runEntered s).link = _ := link
  have sendsV : Sends (runEntered s).link := linkV ▸ appended.sends sends
  have currentV : (runEntered s).link.current = some ⟨kind.toNat, tag, false⟩ :=
    (congrArg Link.current linkV).trans
      ((post_owed _ (runStarted s) (by simp [runStarted, setSurvey, Link.noticeResetDue, unowed])).2.trans current)
  let v := answer .ok (startReply s) (runEntered s)
  have moves : Moves (only [.store, .survey]) s v :=
    .trans ((setSurvey_moves _ s (by decide)).trans kept) (.answer _ _ _)
  have shapedV : Shaped v := moves.shaped shaped
  have sameHarm : v.harm = s.harm := moves.harm_eq (by decide)
  have sameSites : v.sites = s.sites := moves.sites_eq (by decide)
  have sameSag : v.sag.sites = s.sag.sites := congrArg (fun x => x.sites) (moves.sag_eq (by decide))
  have sameBus : v.bus = s.bus := moves.bus_eq (by decide)
  have surveyV : v.survey = _ := survey
  have sites : ∀ i, siteOf v i = siteOf s i := siteOf_eq_of_sites sameSites
  have harm : ∀ i, harmSite v i = harmSite s i := fun i => by rw [harmSite, sameHarm]; rfl
  have replies : v.link.reply = some ⟨replyKind kind.toNat, tag, .ok, startReply s⟩ :=
    linkAnswer_reply currentV sendsV.busy
  refine ⟨_, (congrFun (exec_event rfl) s).trans (event_of_moves (P := anyPart)
    (startBoundary_moves s trivial trivial trivial trivial) q), ?_⟩
  rw [startBoundary_due hc hd]
  refine ⟨congrArg Survey.state surveyV, congrArg Survey.change surveyV, congrArg Survey.changeDue surveyV,
    congrArg Survey.runStart surveyV, congrArg Survey.first surveyV,
    (congrArg Survey.number surveyV).trans rfl,
    linkAnswer_current _ _ _, replies, congrArg (fun b => some b.frame) sameBus, sameSag,
    fun site hs => ⟨?basis, ?next, fun role hr enabled => ?acc⟩, ⟨fun up room => ?queued, fun full => ?waits⟩,
    fun masked room => ?told, sameSites, moves.capture_eq (by decide), moves.array_eq (by decide), sameBus⟩
  case basis =>
    have e := (startSite_timing v.bus.frame v.bus.frameTime v.bus.frameValid (siteOf v site) (harmSite v site)).1
    rw [← harmSite_harmStarts shapedV hs, sameBus] at e
    exact e
  case next =>
    have e := (startSite_timing v.bus.frame v.bus.frameTime v.bus.frameValid (siteOf v site) (harmSite v site)).2
    rw [← harmSite_harmStarts shapedV hs, sameBus, sites] at e
    refine e.trans ?_
    cases s.bus.frameValid <;> rfl
  case acc =>
    have e := harmMember_harmStarts shapedV hs hr (by rw [sites]; exact enabled)
    rw [memberOf_of_sites sameSites, sites, sameBus, harm] at e
    exact e
  case queued =>
    exact ⟨(queued up room).1, (congrArg Survey.place surveyV).trans (if_pos ⟨up, room⟩)⟩
  case waits =>
    refine ⟨(waits full).1, (congrArg Survey.place surveyV).trans (if_neg ?_)⟩
    rintro ⟨up, room⟩
    exact full.elim (· up) (Nat.not_le.2 room)
  case told =>
    have posted := post_mem (s := runStarted s)
      (b := .surveyState s.survey.number .recording s.survey.state none s.bus.frame s.bus.frameTime none) sends masked room
    have answered : (answer .ok (startReply s) (runEntered s)).link.notices = (runEntered s).link.notices := by
      simp only [answer, Link.answer, currentV]
      rw [startTransmit_of_sends (by exact sendsV.busy)]
    exact answered.trans ((congrArg Link.notices linkV).trans posted)

end Sys2Proof.Machine
end

