-- ==== Sys2Proof/Proofs/ForcedCloses.lean ====
section
/-!
PROOFS. The closes of open events at a stop boundary and at an ACQ reset (R76, R77): the sites, the capture slots
and the records they leave.
-/

namespace Sys2Proof.Machine

/-! ### One site's forced close -/

/-- An open event as a forced close at boundary `c` takes it. -/
def forcedEvent (c : Nat) (atStop : Bool) (s : State) (site : Nat) (e : OpenEvent) : OpenEvent :=
  if atStop then flagBoundary s site (forceEvent (sagSite s site) c e) else forceEvent (sagSite s site) c e

/-- The boundary before which a forced close ends the event's span (R107). -/
def forcedSpan (c : Nat) (atStop : Bool) : Option Nat := if atStop then some c else none

section
variable {c : Nat} {atStop : Bool} {s : State} {site : Nat} {e : OpenEvent}

theorem forceClose_none (h : (sagSite s site).event = none) : forceClose c atStop s site = s := by
  unfold forceClose
  rw [h]

theorem forceClose_some (h : (sagSite s site).event = some e) :
    forceClose c atStop s site = closeEvent site c (forcedSpan c atStop) (forcedEvent c atStop s site e) s := by
  unfold forceClose forcedSpan forcedEvent
  rw [h]
  cases atStop <;> rfl

theorem flagBoundary_keeps (s : State) (site : Nat) (e : OpenEvent) : flagBoundary s site e =
    { e with flags := (flagBoundary s site e).flags } := rfl

theorem forcedEvent_keeps : (forcedEvent c atStop s site e).id = e.id ∧
    (forcedEvent c atStop s site e).capture = e.capture ∧ (forcedEvent c atStop s site e).startTime = e.startTime ∧
    (forcedEvent c atStop s site e).startFrame = e.startFrame ∧
    (forcedEvent c atStop s site e).involved = e.involved.map (forceInvolved (sagSite s site) c) := by
  unfold forcedEvent
  split <;> exact ⟨rfl, rfl, rfl, rfl, rfl⟩

theorem flagBoundary_truncated (s : State) (site : Nat) (e : OpenEvent) :
    (flagBoundary s site e).flags.truncated = e.flags.truncated := by
  unfold flagBoundary
  dsimp only
  split <;> rfl

theorem forcedEvent_truncated : (forcedEvent c atStop s site e).flags.truncated = true := by
  unfold forcedEvent
  split
  · exact (flagBoundary_truncated _ _ _).trans rfl
  · rfl

end

/-! ### What it leaves -/

/-- An open event of a site names a capture slot. -/
def Names (s : State) (site i : Nat) : Prop :=
  ∃ e p, (sagSite s site).event = some e ∧ e.capture = some p ∧ p.1 = i

theorem captureSlot_closeCapture_named {s : State} {site c i : Nat} {e : OpenEvent} {p : Nat × Nat}
    (inside : i < s.capture.slots.length) (h : e.capture = some p) (hp : p.1 = i) :
    captureSlot (closeCapture site c e s) i = closeSlot s site c (captureSlot s i) := by
  subst hp
  unfold closeCapture
  rw [h]
  exact captureSlot_modifyCapture _ _ _ inside

theorem captureSlot_closeCapture_other {s : State} {site c i : Nat} {e : OpenEvent}
    (h : ∀ p, e.capture = some p → p.1 ≠ i) :
    captureSlot (closeCapture site c e s) i = captureSlot s i := by
  unfold closeCapture
  cases hc : e.capture with
  | none => rfl
  | some p => exact captureSlot_modifyCapture_other _ _ _ _ fun k => h p hc k.symm

/-- The store of a closed event apart, its parts are those it left before its record was offered. -/
theorem closeEvent_parts (site c : Nat) (told : Option Nat) (e : OpenEvent) (s : State) :
    (closeEvent site c told e s).capture = (closeCapture site c e s).capture ∧
      (closeEvent site c told e s).sag = (setEvent none site s).sag ∧
      (closeEvent site c told e s).harm = (markClose site told s).harm := by
  have capture : (eventClosed site c told e s).capture = (closeCapture site c e s).capture := rfl
  have sag : (eventClosed site c told e s).sag = (setEvent none site s).sag := by
    change (setEvent none site (closeCapture site c e s)).sag = _
    unfold setEvent modifySag
    dsimp only
    rw [(closeCapture_moves (P := only [.capture]) site c e s (by decide)).sag_eq (by decide)]
  have harm : (eventClosed site c told e s).harm = (markClose site told s).harm := by
    unfold eventClosed markClose modifyHarm
    dsimp only
    rw [show (setEvent none site (closeCapture site c e s)).harm = s.harm from
      (closeCapture_moves (P := only [.capture]) site c e s (by decide)).harm_eq (by decide)]
  rw [closeEvent_eq]
  split <;> exact ⟨capture, sag, harm⟩

theorem forceClose_only (c : Nat) (atStop : Bool) (s : State) (site : Nat) :
    Moves (only [.capture, .sag, .harm, .store]) s (forceClose c atStop s site) :=
  forceClose_moves c atStop s site (by decide) (by decide) (by decide) (by decide)

theorem forceClose_keeps (c : Nat) (atStop : Bool) (s : State) (site : Nat) :
    (forceClose c atStop s site).capture.rings = s.capture.rings ∧
      (∀ i, i ≠ site → sagSite (forceClose c atStop s site) i = sagSite s i) := by
  cases h : (sagSite s site).event with
  | none => rw [forceClose_none h]; exact ⟨rfl, fun _ _ => rfl⟩
  | some e =>
    rw [forceClose_some h]
    obtain ⟨capture, sag, _⟩ := closeEvent_parts site c (forcedSpan c atStop) (forcedEvent c atStop s site e) s
    refine ⟨?_, fun i hi => ?_⟩
    · rw [capture]
      unfold closeCapture
      split <;> rfl
    · rw [sagSite, sag]
      exact sagSite_modifySag_other _ _ _ _ hi

theorem forceClose_event (c : Nat) (atStop : Bool) {s : State} {site : Nat} (inside : site < s.sag.sites.length) :
    sagSite (forceClose c atStop s site) site = { sagSite s site with event := none } := by
  cases h : (sagSite s site).event with
  | none =>
    rw [forceClose_none h, ← h]
  | some e =>
    rw [forceClose_some h]
    obtain ⟨_, sag, _⟩ := closeEvent_parts site c (forcedSpan c atStop) (forcedEvent c atStop s site e) s
    rw [sagSite, sag]
    exact sagSite_modifySag _ _ _ inside

/-! ### All the sites -/

section
variable {c : Nat} {atStop : Bool}

theorem forceFold_moves (sites : List Nat) (s : State) :
    Moves (only [.capture, .sag, .harm, .store]) s (sites.foldl (forceClose c atStop) s) :=
  .foldl _ (fun s site => forceClose_only c atStop s site) _ _

theorem forceFold_rings (sites : List Nat) (s : State) :
    (sites.foldl (forceClose c atStop) s).capture.rings = s.capture.rings := by
  induction sites generalizing s with
  | nil => rfl
  | cons site sites ih => exact (ih _).trans (forceClose_keeps c atStop s site).1

theorem forceFold_other (sites : List Nat) (s : State) {i : Nat} (h : i ∉ sites) :
    sagSite (sites.foldl (forceClose c atStop) s) i = sagSite s i := by
  induction sites generalizing s with
  | nil => rfl
  | cons site sites ih =>
    rw [List.mem_cons, not_or] at h
    exact (ih _ h.2).trans ((forceClose_keeps c atStop s site).2 i h.1)

theorem forceFold_event (sites : List Nat) : ∀ s : State, Shaped s → sites.Nodup → ∀ {i : Nat}, i ∈ sites →
    i < 4 → sagSite (sites.foldl (forceClose c atStop) s) i = { sagSite s i with event := none } := by
  induction sites with
  | nil => exact fun _ _ _ _ mem => absurd mem List.not_mem_nil
  | cons site sites ih =>
    intro s shaped nodup i mem inside
    obtain ⟨fresh, nodup⟩ := List.nodup_cons.1 nodup
    rcases List.mem_cons.1 mem with rfl | later
    · exact (forceFold_other sites _ fresh).trans (forceClose_event c atStop (by rw [shaped.sag_length]; exact inside))
    · have other : sagSite (forceClose c atStop s site) i = sagSite s i :=
        (forceClose_keeps c atStop s site).2 i fun e => fresh (e ▸ later)
      exact (ih _ ((forceClose_only c atStop s site).shaped shaped) nodup later inside).trans
        (congrArg (fun g => { g with event := none }) other)

/-! ### The capture slots -/

/-- A close depends on the settings of the site and on its ring. -/
theorem closeSlot_congr {s t : State} (sites : t.sites = s.sites) (rings : t.capture.rings = s.capture.rings)
    (site c : Nat) (slot : CaptureSlot) : closeSlot t site c slot = closeSlot s site c slot := by
  unfold closeSlot addEnd takesEnd endSegment
  simp only [siteOf_eq_of_sites sites, rings]

theorem forceClose_unnamed {s : State} {site i : Nat} (h : ¬Names s site i) :
    captureSlot (forceClose c atStop s site) i = captureSlot s i := by
  cases he : (sagSite s site).event with
  | none => rw [forceClose_none he]
  | some e =>
    have capture := (closeEvent_parts site c (forcedSpan c atStop) (forcedEvent c atStop s site e) s).1
    rw [forceClose_some he, captureSlot, capture]
    refine captureSlot_closeCapture_other fun p hp same => h ⟨e, p, he, ?_, same⟩
    rw [← forcedEvent_keeps.2.1]
    exact hp

theorem forceClose_named {s : State} {site i : Nat} (inside : i < s.capture.slots.length) (h : Names s site i) :
    captureSlot (forceClose c atStop s site) i = closeSlot s site c (captureSlot s i) := by
  obtain ⟨e, p, he, hp, same⟩ := h
  have capture := (closeEvent_parts site c (forcedSpan c atStop) (forcedEvent c atStop s site e) s).1
  rw [forceClose_some he, captureSlot, capture]
  exact captureSlot_closeCapture_named inside (forcedEvent_keeps.2.1.trans hp) same

theorem forceFold_unnamed (sites : List Nat) : ∀ s : State, sites.Nodup → ∀ {i : Nat},
    (∀ site ∈ sites, ¬Names s site i) → captureSlot (sites.foldl (forceClose c atStop) s) i = captureSlot s i := by
  induction sites with
  | nil => exact fun _ _ _ _ => rfl
  | cons site sites ih =>
    intro s nodup i h
    obtain ⟨fresh, nodup⟩ := List.nodup_cons.1 nodup
    refine (ih _ nodup fun x hx => ?_).trans (forceClose_unnamed (h site List.mem_cons_self))
    rw [Names, (forceClose_keeps c atStop s site).2 x fun e => fresh (e ▸ hx)]
    exact h x (List.mem_cons_of_mem _ hx)

theorem forceFold_named (sites : List Nat) : ∀ s : State, Shaped s → sites.Nodup → ∀ {site i : Nat}, site ∈ sites →
    i < 12 → Names s site i → (∀ other ∈ sites, other ≠ site → ¬Names s other i) →
    captureSlot (sites.foldl (forceClose c atStop) s) i = closeSlot s site c (captureSlot s i) := by
  induction sites with
  | nil => exact fun _ _ _ _ _ mem => absurd mem List.not_mem_nil
  | cons first sites ih =>
    intro s shaped nodup site i mem inside named others
    obtain ⟨fresh, nodup⟩ := List.nodup_cons.1 nodup
    have keeps := forceClose_keeps c atStop s first
    have same : ∀ x ∈ sites, (Names (forceClose c atStop s first) x i ↔ Names s x i) := fun x hx => by
      rw [Names, keeps.2 x fun e => fresh (e ▸ hx)]
      rfl
    by_cases here : first = site
    · subst here
      refine (forceFold_unnamed sites _ nodup fun x hx => ?_).trans (forceClose_named (by rw [shaped.slots_length]; exact inside) named)
      rw [same x hx]
      exact others x (List.mem_cons_of_mem _ hx) fun e => fresh (e ▸ hx)
    · have later : site ∈ sites := (List.mem_cons.1 mem).resolve_left fun e => here e.symm
      have moves := forceClose_only c atStop s first
      refine (ih _ (moves.shaped shaped) nodup later inside ((same site later).2 named) fun x hx hne => ?_).trans ?_
      · rw [same x hx]
        exact others x (List.mem_cons_of_mem _ hx) hne
      · refine (closeSlot_congr (moves.sites_eq (by decide)) keeps.1 site c _).trans ?_
        exact congrArg (closeSlot s site c) (forceClose_unnamed (others first List.mem_cons_self here))

end

/-! ### The truncation -/

/-- What a member of a capture slot is, without what it has counted. -/
def memberIdentity (m : CaptureMember) : Role × Nat × Nat × PodKind × Nat :=
  (m.role, m.slot, m.serial, m.kind, m.fullScale)

theorem countRows_identity (rows : List (List CapSample)) (members : List CaptureMember) :
    (countRows rows members).map memberIdentity = members.map memberIdentity := by
  unfold countRows
  rw [List.map_map]
  refine Eq.trans ?_ (congrArg (List.map memberIdentity) (List.zipIdx_map_fst 0 members))
  rw [List.map_map]
  rfl

theorem cutMembers_identity (segments : List Segment) (members : List CaptureMember) :
    (cutMembers segments members).map memberIdentity = members.map memberIdentity := by
  unfold cutMembers
  rw [List.map_map]
  refine Eq.trans ?_ (congrArg (List.map memberIdentity) (List.zipIdx_map_fst 0 members))
  rw [List.map_map]
  rfl

section
variable {s : State} {site c : Nat} {slot : CaptureSlot}

theorem addEnd_rest : addEnd s site c slot =
    { slot with segments := (addEnd s site c slot).segments, members := (addEnd s site c slot).members } := by
  unfold addEnd
  split <;> rfl

theorem addEnd_identity : (addEnd s site c slot).members.map memberIdentity = slot.members.map memberIdentity := by
  unfold addEnd
  split
  · exact countRows_identity _ _
  · rfl

theorem addEnd_segments : (addEnd s site c slot).segments =
    if takesEnd s site c slot then slot.segments ++ [endSegment s site c slot] else slot.segments := by
  unfold addEnd
  split <;> rfl

theorem takesEnd_iff : takesEnd s site c slot = true ↔ ∃ g rest, slot.segments = g :: rest ∧
    128 * g.planned + 128 * (siteOf s site).settings.pe ≤ frameDiff c g.first := by
  unfold takesEnd
  cases h : slot.segments with
  | nil => exact ⟨fun no => absurd no Bool.false_ne_true, nofun⟩
  | cons g rest =>
    refine decide_eq_true_iff.trans ⟨fun k => ⟨g, rest, rfl, k⟩, ?_⟩
    rintro ⟨_, _, e, k⟩
    cases e
    exact k

/-- A slot brought to COMPLETE, with its segments cut. -/
def CutFrom (segments : List Segment) (slot done : CaptureSlot) : Prop :=
  done = { slot with
    state := .complete, eventOpen := false, segments := segments.map cutSegment, members := done.members } ∧
    done.members.map memberIdentity = slot.members.map memberIdentity

theorem cutSegment_full {g : Segment} (h : g.filling = false) : cutSegment g = g :=
  if_neg (by rw [h]; exact Bool.false_ne_true)

/-- R90: a FILLING slot that no event of the moment closes. -/
theorem truncateSlot_filling (hs : slot.state = .filling) (hsite : slot.site = some site) :
    CutFrom (if slot.eventOpen then (addEnd s site c slot).segments else slot.segments) slot (truncateSlot s c slot) := by
  unfold truncateSlot
  rw [hs, hsite]
  dsimp only
  cases slot.eventOpen with
  | true =>
    rw [if_pos rfl, if_pos rfl]
    refine ⟨?_, (cutMembers_identity _ _).trans addEnd_identity⟩
    rw [addEnd_rest]
  | false => exact ⟨rfl, cutMembers_identity _ _⟩

/-- R88, R90: a FILLING slot whose event closes at the moment. -/
theorem truncateSlot_closed (hs : slot.state = .filling) (hsite : slot.site = some site) :
    CutFrom (addEnd s site c slot).segments slot (truncateSlot s c (closeSlot s site c slot)) := by
  let ended : CaptureSlot := { addEnd s site c slot with eventOpen := false }
  have rest : ended =
      { slot with
        eventOpen := false, segments := (addEnd s site c slot).segments, members := (addEnd s site c slot).members } := by
    simp only [ended]
    rw [addEnd_rest]
  have state : ended.state = .filling := (congrArg CaptureSlot.state rest).trans hs
  have site_ : ended.site = some site := (congrArg CaptureSlot.site rest).trans hsite
  by_cases full : captureDone ended = true
  · have closed : closeSlot s site c slot = { ended with state := .complete } := if_pos full
    have filled := ((captureDone_iff ended).1 full).2.2
    have same : ended.segments.map cutSegment = ended.segments :=
      (List.map_congr_left fun g hg => cutSegment_full (filled g hg)).trans (List.map_id _)
    have kept : truncateSlot s c { ended with state := .complete } = { ended with state := .complete } := rfl
    rw [closed, kept]
    refine ⟨?_, addEnd_identity⟩
    rw [show (addEnd s site c slot).segments = ended.segments from rfl, same, rest]
  · have closed : closeSlot s site c slot = ended := if_neg full
    rw [closed]
    obtain ⟨cut, identity⟩ := truncateSlot_filling (s := s) (c := c) state site_
    have open_ : ended.eventOpen = false := rfl
    rw [open_, if_neg Bool.false_ne_true] at cut
    refine ⟨cut.trans ?_, identity.trans addEnd_identity⟩
    rw [show (addEnd s site c slot).segments = ended.segments from rfl, rest]

end

theorem truncateSlot_congr {s t : State} (sites : t.sites = s.sites) (rings : t.capture.rings = s.capture.rings)
    (c : Nat) (slot : CaptureSlot) : truncateSlot t c slot = truncateSlot s c slot := by
  unfold truncateSlot addEnd takesEnd endSegment
  simp only [siteOf_eq_of_sites sites, rings]

theorem truncateSlot_other {s : State} {c : Nat} {slot : CaptureSlot} (h : slot.state ≠ .filling) :
    truncateSlot s c slot = slot := by
  unfold truncateSlot
  cases hs : slot.state with
  | filling => exact absurd hs h
  | _ => rfl

/-- The END segment about a closing boundary (R88). -/
theorem endSegment_eq (s : State) (site c : Nat) (slot : CaptureSlot) :
    let x := (siteOf s site).settings
    let ring := s.capture.rings.getD site {}
    let first := (c + 2 ^ 48 - 128 * x.pe) % 2 ^ 48
    let rows := (ring.frames.drop
      (frameDiff ring.newest ((first + 128 * x.pe + 2 ^ 48 - 1) % 2 ^ 48))).take (128 * x.pe)
    let frames := rows.map fun row => slot.members.map fun m => row.getD m.role.code ⟨0, true⟩
    endSegment s site c slot =
      { kind := .ending, first := first
        firstTime := (ring.times.find? fun y => y.1 = first).map (·.2), pre := x.pe
        planned := x.pe + x.we, frames := frames
        filling := decide (frames.length < 128 * (x.pe + x.we))
        live := slot.members.map fun _ => .notYet } := by
  intro x ring first rows frames
  have count : Nat.min (128 * x.pe) (128 * (x.pe + x.we)) = 128 * x.pe :=
    Nat.min_eq_left (Nat.mul_le_mul_left _ (Nat.le_add_right _ _))
  have copied : ring.copy first (128 * x.pe) (slot.members.map (·.role)) = frames := by
    unfold Ring.copy
    dsimp only
    have taken : (if 128 * x.pe = 0 then [] else
        (ring.frames.drop (frameDiff ring.newest ((first + 128 * x.pe + Config.frameModulus - 1) %
          Config.frameModulus))).take (128 * x.pe)) = rows := by
      split
      · next none => simp only [rows, none, List.take_zero]
      · rfl
    rw [taken]
    exact List.map_congr_left fun row _ => List.map_map
  unfold endSegment newSegment
  dsimp only
  rw [count]
  have time : ring.timeOf first = (ring.times.find? fun y => y.1 = first).map (·.2) := rfl
  have same : ∀ {frames' time'}, frames' = frames → time' = (ring.times.find? fun y => y.1 = first).map (·.2) →
      (⟨.ending, first, time', x.pe, x.pe + x.we, frames', decide (frames'.length < 128 * (x.pe + x.we)),
        false, slot.members.map fun _ => .notYet⟩ : Segment) =
      ⟨.ending, first, (ring.times.find? fun y => y.1 = first).map (·.2), x.pe, x.pe + x.we, frames,
        decide (frames.length < 128 * (x.pe + x.we)), false, slot.members.map fun _ => .notYet⟩ := by
    rintro _ _ rfl rfl
    rfl
  exact same copied time

theorem allSites_nodup : allSites.Nodup := List.nodup_range

theorem captureSlot_truncateCaptures {c i : Nat} {s : State} (inside : i < s.capture.slots.length) :
    captureSlot (truncateCaptures c s) i = truncateSlot s c (captureSlot s i) := by
  have e : (truncateCaptures c s).capture.slots = s.capture.slots.map (truncateSlot s c) := rfl
  simp only [captureSlot, e, List.getD_eq_getElem?_getD, List.getElem?_map, List.getElem?_eq_getElem inside]
  rfl

/-- The forced closes of every site, from a state whose events and capture slots are those of `s`, and the truncation
that follows them. -/
theorem capturesEndAt_forced {c : Nat} {atStop : Bool} {s u t : State} (shaped : Shaped u) (sites : u.sites = s.sites)
    (capture : u.capture = s.capture) (events : ∀ i, (sagSite u i).event = (sagSite s i).event)
    (slots : t.capture.slots = (truncateCaptures c (allSites.foldl (forceClose c atStop) u)).capture.slots) :
    CapturesEndAt c s t := by
  let v := allSites.foldl (forceClose c atStop) u
  have moves : Moves (only [.capture, .sag, .harm, .store]) u v := forceFold_moves allSites u
  have sitesV : v.sites = s.sites := (moves.sites_eq (by decide)).trans sites
  have ringsV : v.capture.rings = s.capture.rings := (forceFold_rings allSites u).trans (by rw [capture])
  have slotU : ∀ i, captureSlot u i = captureSlot s i := fun i => by rw [captureSlot, capture]; rfl
  have slotT : ∀ i, i < 12 → captureSlot t i = truncateSlot s c (captureSlot v i) := fun i hi => by
    rw [captureSlot, slots]
    refine (captureSlot_truncateCaptures ?_).trans (truncateSlot_congr sitesV ringsV c _)
    rw [(moves.shaped shaped).slots_length]
    exact hi
  have names : ∀ i j, (Names u i j ↔ Names s i j) := fun i j => by
    unfold Names
    rw [events]
  have named : ∀ i j, (∃ e p, i < 4 ∧ (sagSite s i).event = some e ∧ e.capture = some p ∧ p.1 = j) ↔
      i < 4 ∧ Names s i j := fun i j => by
    simp only [Names]
    constructor
    · rintro ⟨e, p, hi, rest⟩
      exact ⟨hi, e, p, rest⟩
    · rintro ⟨hi, e, p, rest⟩
      exact ⟨e, p, hi, rest⟩
  unfold CapturesEndAt
  intro byEvent
  have named : ∀ i j, byEvent i j ↔ i < 4 ∧ Names s i j := named
  refine ⟨fun i hi idle free => ?_, fun i site hi filling hsite others => ?_⟩
  · have unnamed : ∀ x ∈ allSites, ¬Names u x i := fun x hx hn =>
      free x ((named x i).2 ⟨List.mem_range.1 hx, (names x i).1 hn⟩)
    rw [slotT i hi, forceFold_unnamed allSites u allSites_nodup unnamed, slotU, truncateSlot_other idle]
  · intro slot x ring first rows frames end_ takes cut done
    have end_eq : endSegment s site c (captureSlot s i) = end_ := endSegment_eq s site c (captureSlot s i)
    have cutEq : cutSegment = cut := rfl
    have byOthers : ∀ y ∈ allSites, y ≠ site → ¬Names u y i := fun y hy hne hn =>
      others y hne ((named y i).2 ⟨List.mem_range.1 hy, (names y i).1 hn⟩)
    have fits := takesEnd_iff (s := s) (site := site) (c := c) (slot := captureSlot s i)
    have result : ∀ segments, CutFrom segments (captureSlot s i) done →
        (takes → segments = (captureSlot s i).segments ++ [end_]) → (¬takes → segments = (captureSlot s i).segments) →
        done = { captureSlot s i with
          state := .complete, eventOpen := false, segments := done.segments, members := done.members } ∧
        (takes → done.segments = ((captureSlot s i).segments ++ [end_]).map cut) ∧
        (¬takes → done.segments = (captureSlot s i).segments.map cut) ∧
        done.members.map memberIdentity = (captureSlot s i).members.map memberIdentity := by
      intro segments hcut yes no
      obtain ⟨shape, identity⟩ := hcut
      have segs : done.segments = segments.map cut := congrArg CaptureSlot.segments shape
      refine ⟨shape.trans (by rw [segs]; rfl), fun h => by rw [segs, yes h], fun h => by rw [segs, no h], identity⟩
    have ended : (addEnd s site c (captureSlot s i)).segments =
        if takesEnd s site c (captureSlot s i) then (captureSlot s i).segments ++ [end_] else (captureSlot s i).segments :=
      end_eq ▸ addEnd_segments
    by_cases hn : site < 4 ∧ Names s site i
    · have slotV : captureSlot v i = closeSlot s site c (captureSlot s i) :=
        (forceFold_named allSites u shaped allSites_nodup (List.mem_range.2 hn.1) hi ((names site i).2 hn.2) byOthers).trans
          ((closeSlot_congr sites (by rw [capture]) site c _).trans (by rw [slotU]))
      have doneEq : done = truncateSlot s c (closeSlot s site c (captureSlot s i)) := (slotT i hi).trans (by rw [slotV])
      refine result _ (doneEq ▸ truncateSlot_closed filling hsite) (fun h => ?_) fun h => ?_
      · rw [ended, if_pos (fits.2 h.2)]
      · rw [ended, if_neg fun k => h ⟨.inr ((named site i).2 hn), fits.1 k⟩]
    · have unnamed : ∀ y ∈ allSites, ¬Names u y i := fun y hy => by
        by_cases same : y = site
        · subst same
          exact fun k => hn ⟨List.mem_range.1 hy, (names y i).1 k⟩
        · exact byOthers y hy same
      have slotV : captureSlot v i = captureSlot s i := (forceFold_unnamed allSites u allSites_nodup unnamed).trans (slotU i)
      have doneEq : done = truncateSlot s c (captureSlot s i) := (slotT i hi).trans (by rw [slotV])
      refine result _ (doneEq ▸ truncateSlot_filling filling hsite) (fun h => ?_) fun h => ?_
      · rw [if_pos (h.1.resolve_right (mt (named site i).1 hn)), ended, if_pos (fits.2 h.2)]
      · cases open_ : (captureSlot s i).eventOpen with
        | false => exact if_neg Bool.false_ne_true
        | true => rw [if_pos rfl, ended, if_neg fun k => h ⟨.inl open_, fits.1 k⟩]

/-! ### The store, the notices and the request in progress -/

/-- The write queue grows by at most `n` records, and what a SURVEY record takes of the store stays. -/
structure QueueGrows (n : Nat) (s t : State) : Prop where
  queue : s.store.queue <+: t.store.queue
  length : t.store.queue.length ≤ s.store.queue.length + n
  state : t.store.state = s.store.state
  survey : t.store.nextIds.survey = s.store.nextIds.survey
  mode : t.store.mode = s.store.mode

namespace QueueGrows
variable {m n : Nat} {s t u : State}

theorem of_store (h : t.store = s.store) : QueueGrows n s t := by
  exact ⟨by rw [h], by rw [h]; exact Nat.le_add_right _ _, by rw [h], by rw [h], by rw [h]⟩

theorem mono (h : QueueGrows m s t) (k : m ≤ n) : QueueGrows n s t :=
  ⟨h.queue, h.length.trans (Nat.add_le_add_left k _), h.state, h.survey, h.mode⟩

theorem trans (h : QueueGrows m s t) (k : QueueGrows n t u) : QueueGrows (m + n) s u :=
  ⟨h.queue.trans k.queue, k.length.trans (by have := h.length; omega), k.state.trans h.state,
    k.survey.trans h.survey, k.mode.trans h.mode⟩

end QueueGrows

section
variable {c : Nat} {atStop : Bool} {s : State} {site : Nat} {e : OpenEvent}

theorem closeEvent_store (told : Option Nat) :
    (closeEvent site c told e s).store =
      if eventFits s then s.store.enqueue e.id (.event (toldRecord site c e s)) {}
      else { s.store with eventDrops := satInc 4294967295 s.store.eventDrops } := by
  have store : (eventClosed site c told e s).store = s.store := (eventClosed_moves site c told e s).store_eq (by decide)
  rw [closeEvent_eq, post_store]
  split <;> rw [setStore_store, store]

theorem closeEvent_grows (told : Option Nat) : QueueGrows 1 s (closeEvent site c told e s) := by
  have store := closeEvent_store (site := site) (c := c) (e := e) (s := s) told
  cases h : eventFits s with
  | true =>
    rw [h, if_pos rfl] at store
    exact ⟨by rw [store]; exact List.prefix_append _ _, by rw [store]; exact Nat.le_of_eq List.length_append,
      (congrArg Store.state store).trans rfl, (congrArg (fun st => st.nextIds.survey) store).trans rfl,
      (congrArg Store.mode store).trans rfl⟩
  | false =>
    rw [h, if_neg Bool.false_ne_true] at store
    exact ⟨by rw [store], by rw [store]; exact Nat.le_succ _, (congrArg Store.state store).trans rfl,
      (congrArg (fun st => st.nextIds.survey) store).trans rfl, (congrArg Store.mode store).trans rfl⟩

theorem closeEvent_link (told : Option Nat) : (closeEvent site c told e s).link =
    (post (.eventClose (eventSummary (toldRecord site c e s)) (!eventFits s)) s).link := by
  have clock : (eventClosed site c told e s).clock = s.clock := (eventClosed_moves site c told e s).clock_eq (by decide)
  have link := eventClosed_link site c told e s
  rw [closeEvent_eq, post_link, post_link]
  split <;> rw [setStore_link, setStore_clock, link, clock]

theorem forceClose_grows : QueueGrows (if (sagSite s site).event.isSome then 1 else 0) s (forceClose c atStop s site) := by
  cases h : (sagSite s site).event with
  | none => rw [forceClose_none h]; exact .of_store rfl
  | some e => rw [forceClose_some h]; exact closeEvent_grows _

theorem forceClose_postsAtMost : PostsAtMost 1 s (forceClose c atStop s site) := by
  cases h : (sagSite s site).event with
  | none => rw [forceClose_none h]; exact (PostsAtMost.of_link rfl).mono (Nat.zero_le _)
  | some e =>
    rw [forceClose_some h]
    intro sends
    rw [closeEvent_link]
    exact post_postsAtMost _ s sends

theorem forceClose_owed : OwedKept s (forceClose c atStop s site) := by
  cases h : (sagSite s site).event with
  | none => rw [forceClose_none h]; exact .of_link rfl
  | some e =>
    rw [forceClose_some h]
    intro due
    rw [closeEvent_link]
    exact post_owed _ s due

end

theorem forceFold_grows {c : Nat} {atStop : Bool} (sites : List Nat) : ∀ s : State, sites.Nodup →
    QueueGrows (sites.countP fun site => (sagSite s site).event.isSome) s (sites.foldl (forceClose c atStop) s) := by
  induction sites with
  | nil => exact fun s _ => .of_store rfl
  | cons site sites ih =>
    intro s nodup
    obtain ⟨fresh, nodup⟩ := List.nodup_cons.1 nodup
    have same : (sites.countP fun x => (sagSite (forceClose c atStop s site) x).event.isSome) =
        sites.countP fun x => (sagSite s x).event.isSome :=
      List.countP_congr fun x hx => by rw [(forceClose_keeps c atStop s site).2 x fun e => fresh (e ▸ hx)]
    rw [List.countP_cons, Nat.add_comm, ← same]
    exact forceClose_grows.trans (ih _ nodup)

/-! ### The records -/

theorem forcedEvent_congr {c : Nat} {atStop : Bool} {s t : State} {site : Nat} (sag : sagSite t site = sagSite s site)
    (sites : t.sites = s.sites) (roster : t.roster = s.roster) (e : OpenEvent) :
    forcedEvent c atStop t site e = forcedEvent c atStop s site e := by
  unfold forcedEvent flagBoundary calExpired
  rw [sag]
  simp only [memberOf_of_sites sites, entryOf_of_roster roster]

theorem toldRecord_congr {site c : Nat} {s t : State} (sag : sagSite t site = sagSite s site) (sites : t.sites = s.sites)
    (bus : t.bus = s.bus) (survey : t.survey = s.survey) (clock : t.clock = s.clock) (fits : eventFits t = eventFits s)
    (e : OpenEvent) : toldRecord site c e t = toldRecord site c e s := by
  unfold toldRecord eventRecord
  rw [sag, bus, survey, clock, fits, siteOf_eq_of_sites sites]

/-- The records of forced closes that the queue has room for. -/
theorem forceFold_records {c : Nat} {atStop : Bool} (sites : List Nat) : ∀ s : State, sites.Nodup →
    storeUp s.store = true → s.store.state ≠ .full →
    s.store.queue.length + (sites.countP fun site => (sagSite s site).event.isSome) ≤ 16 →
    ∀ site ∈ sites, ∀ e, (sagSite s site).event = some e →
      eventFits s = true ∧
      ⟨.event, e.id, .event (toldRecord site c (forcedEvent c atStop s site e) s), false⟩ ∈
        (sites.foldl (forceClose c atStop) s).store.queue := by
  induction sites with
  | nil => exact fun _ _ _ _ _ _ mem => absurd mem List.not_mem_nil
  | cons first sites ih =>
    intro s nodup up notFull room site mem e he
    obtain ⟨fresh, nodup⟩ := List.nodup_cons.1 nodup
    have others : ∀ x ∈ sites, sagSite (forceClose c atStop s first) x = sagSite s x := fun x hx =>
      (forceClose_keeps c atStop s first).2 x fun h => fresh (h ▸ hx)
    have same : (sites.countP fun x => (sagSite (forceClose c atStop s first) x).event.isSome) =
        sites.countP fun x => (sagSite s x).event.isSome :=
      List.countP_congr fun x hx => by rw [others x hx]
    have step := forceClose_grows (c := c) (atStop := atStop) (s := s) (site := first)
    have rest := forceFold_grows (c := c) (atStop := atStop) sites (forceClose c atStop s first) nodup
    have room' := room
    rw [List.countP_cons] at room'
    have fits : ∀ t : State, t.store.state = s.store.state → t.store.queue.length < 16 → eventFits t = true :=
      fun t hs hq => by
        have hup : storeUp t.store = true := by rw [storeUp, hs]; exact up
        rw [eventFits, hup, hs, bne_iff_ne.2 notFull]
        exact decide_eq_true hq
    have some_ : 1 ≤ (first :: sites).countP fun x => (sagSite s x).event.isSome :=
      List.one_le_countP_iff.2 ⟨site, mem, by rw [he]; rfl⟩
    have fitsS : eventFits s = true := fits s rfl (by omega)
    refine ⟨fitsS, ?_⟩
    rcases List.mem_cons.1 mem with rfl | later
    · have step : (forceClose c atStop s site).store.queue = s.store.queue ++
          [⟨.event, (forcedEvent c atStop s site e).id,
            .event (toldRecord site c (forcedEvent c atStop s site e) s), false⟩] := by
        rw [forceClose_some he, closeEvent_store, if_pos fitsS]
        rfl
      rw [forcedEvent_keeps.1] at step
      refine rest.queue.subset ?_
      rw [step]
      exact List.mem_append_right _ (List.mem_singleton.2 rfl)
    · have moves := forceClose_only c atStop s first
      have one : 1 ≤ sites.countP fun x => (sagSite s x).event.isSome :=
        List.one_le_countP_iff.2 ⟨site, later, by rw [he]; rfl⟩
      have length := step.length
      obtain ⟨fitsU, inQueue⟩ := ih _ nodup (by rw [storeUp, step.state]; exact up) (step.state ▸ notFull)
        (by rw [same]; omega) site later e ((congrArg SagSite.event (others site later)).trans he)
      rw [forcedEvent_congr (others site later) (moves.sites_eq (by decide)) (moves.roster_eq (by decide)),
        toldRecord_congr (others site later) (moves.sites_eq (by decide)) (moves.bus_eq (by decide))
          (moves.survey_eq (by decide)) (moves.clock_eq (by decide)) (fitsU.trans fitsS.symm)] at inQueue
      exact inQueue

/-- The latest recovery of a list that held at the closing boundary is that boundary (R71, R76). -/
theorem forced_endBoundary {c : Nat} {atStop : Bool} {s : State} {site : Nat} {e : OpenEvent}
    (holds : ∃ i ∈ e.involved, i.holding = true) (below : c < 2 ^ 48)
    (recoveries : ∀ i ∈ e.involved, ∀ x, i.recovery = some x → x < 2 ^ 48) :
    endBoundary c (forcedEvent c atStop s site e) = c := by
  obtain ⟨i, mem, holding⟩ := holds
  have involved : (forcedEvent c atStop s site e).involved = e.involved.map (forceInvolved (sagSite s site) c) :=
    forcedEvent_keeps.2.2.2.2
  have forcedMem : forceInvolved (sagSite s site) c i ∈ (forcedEvent c atStop s site e).involved := by
    rw [involved]
    exact List.mem_map_of_mem mem
  have recovered : (forceInvolved (sagSite s site) c i).recovery = some c := by
    unfold forceInvolved
    dsimp only
    rw [if_pos holding]
    rfl
  have modulus : Config.frameModulus = 2 ^ 48 := rfl
  rcases endBoundary_spec c (forcedEvent c atStop s site e) with ⟨at_, _⟩ | ⟨⟨k, hk, hrec⟩, latest⟩
  · exact at_
  · have least := latest _ forcedMem c recovered
    have bound : endBoundary c (forcedEvent c atStop s site e) < 2 ^ 48 := by
      rw [involved] at hk
      obtain ⟨j, hj, rfl⟩ := List.mem_map.1 hk
      unfold forceInvolved at hrec
      dsimp only at hrec
      split at hrec
      · have same := Option.some.inj hrec
        omega
      · exact recoveries j hj _ hrec
    unfold frameDiff at least
    rw [modulus] at least
    generalize endBoundary c (forcedEvent c atStop s site e) = x at *
    have zero : (c + 2 ^ 48 - c) % 2 ^ 48 = 0 := by rw [Nat.add_sub_cancel_left]; exact Nat.mod_self _
    rw [zero] at least
    omega

end Sys2Proof.Machine
end

