-- ==== Sys2Proof/Proofs/PartialCloses.lean ====
section
/-!
PROOFS. The interval closes of a stop boundary and of an ACQ reset (R98, R104, R110): what each site's close leaves
of the engine, the write queue and the link.
-/

namespace Sys2Proof.Machine

/-! ### What the closes before them leave of the engine -/

/-- An accumulator without its flags. -/
def Accumulator.bare (a : Accumulator) : Accumulator := { a with flags := {} }

/-- The engine's figures that the closes of events and the abandoned windows leave. -/
structure HarmKept (s t : State) : Prop where
  timing : TimingKept s t
  empty : ∀ i, (harmSite t i).empty = (harmSite s i).empty
  acc : ∀ i j, (harmMember t i j).acc.map Accumulator.bare = (harmMember s i j).acc.map Accumulator.bare

namespace HarmKept
variable {s t u : State}

theorem of_harm (h : t.harm.sites = s.harm.sites) : HarmKept s t :=
  ⟨.of_harm h, fun i => by rw [harmSite, h]; rfl, fun i j => by rw [harmMember, harmSite, h]; rfl⟩

theorem trans (h : HarmKept s t) (k : HarmKept t u) : HarmKept s u :=
  ⟨h.timing.trans k.timing, fun i => (k.empty i).trans (h.empty i), fun i j => (k.acc i j).trans (h.acc i j)⟩

/-- A change of one site that keeps its timing, its empty count and its accumulators but for their flags. -/
theorem of_modifyHarm {f : HarmSite → HarmSite} {site : Nat}
    (h : ∀ x, (f x).next = x.next ∧ (f x).basis = x.basis ∧ (f x).due = x.due ∧ (f x).empty = x.empty ∧
      ∀ j, ((f x).members.getD j {}).acc.map Accumulator.bare = (x.members.getD j {}).acc.map Accumulator.bare) :
    HarmKept s (modifyHarm f site s) := by
  have each : ∀ i, harmSite (modifyHarm f site s) i = harmSite s i ∨
      harmSite (modifyHarm f site s) i = f (harmSite s i) := fun i => by
    by_cases same : i = site
    · subst same
      by_cases inside : i < s.harm.sites.length
      · exact .inr (harmSite_modifyHarm _ _ _ inside)
      · have beyond : modifyHarm f i s = s := congrArg (fun xs => { s with harm := { s.harm with sites := xs } })
          ((updateAt_eq_set f {} i _).trans (List.set_eq_of_length_le (Nat.le_of_not_lt inside)))
        rw [beyond]
        exact .inl rfl
    · exact .inl (harmSite_modifyHarm_other _ _ _ _ same)
  refine ⟨fun i => ?_, fun i => ?_, fun i j => ?_⟩
  · rcases each i with e | e <;> rw [e]
    · exact ⟨rfl, rfl, rfl⟩
    · exact ⟨(h _).1, (h _).2.1, (h _).2.2.1⟩
  · rcases each i with e | e <;> rw [e]
    exact (h _).2.2.2.1
  · rcases each i with e | e <;> rw [harmMember, e]
    · rfl
    · exact (h _).2.2.2.2 j

theorem of_markClose {site : Nat} {told : Option Nat} : HarmKept s (markClose site told s) := by
  refine of_modifyHarm fun x => ⟨rfl, rfl, rfl, rfl, fun j => ?_⟩
  simp only [List.getD_eq_getElem?_getD, List.getElem?_map]
  cases x.members[j]? with
  | none => rfl
  | some y =>
    simp only [Option.map_some, Option.getD_some, Option.map_map]
    refine congrArg (fun f => y.acc.map f) (funext fun a => ?_)
    simp only [Function.comp, Accumulator.bare]
    split <;> rfl

theorem of_forceClose {c : Nat} {atStop : Bool} {site : Nat} : HarmKept s (forceClose c atStop s site) := by
  cases h : (sagSite s site).event with
  | none => rw [forceClose_none h]; exact of_harm rfl
  | some e =>
    rw [forceClose_some h]
    exact of_markClose.trans (of_harm (congrArg Harm.sites (closeEvent_parts site c _ _ s).2.2))

theorem of_forceFold {c : Nat} {atStop : Bool} (sites : List Nat) :
    ∀ s : State, HarmKept s (sites.foldl (forceClose c atStop) s) := by
  induction sites with
  | nil => exact fun _ => of_harm rfl
  | cons site sites ih => exact fun s => of_forceClose.trans (ih _)

end HarmKept

theorem CloseKeeps.figures {site : Nat} {s t : State} (h : CloseKeeps site s t) :
    (harmSite t site).mark = (harmSite s site).mark ∧ (harmSite t site).basis = (harmSite s site).basis ∧
      (harmSite t site).next = (harmSite s site).next := by
  have mark := congrArg HarmSite.mark h.site
  have basis := congrArg HarmSite.basis h.site
  have next := congrArg HarmSite.next h.site
  exact ⟨mark, basis, next⟩

/-- R98: the windows of every site are abandoned. -/
theorem harmSite_abandonWindows (s : State) {i : Nat} (h : i < s.harm.sites.length) :
    harmSite (abandonWindows s) i = abandonSite (harmSite s i) := by
  have e : (abandonWindows s).harm.sites = s.harm.sites.map abandonSite := rfl
  simp only [harmSite, e, List.getD_eq_getElem?_getD, List.getElem?_map, List.getElem?_eq_getElem h]
  rfl

theorem harmMember_abandonWindows (s : State) {i j : Nat} (h : i < s.harm.sites.length) :
    harmMember (abandonWindows s) i j = { harmMember s i j with window := none } := by
  rw [harmMember, harmSite_abandonWindows s h]
  simp only [abandonSite, harmMember, List.getD_eq_getElem?_getD, List.getElem?_map]
  cases (harmSite s i).members[j]? <;> rfl

theorem abandonWindows_kept (s : State) : HarmKept s (abandonWindows s) := by
  have each : ∀ i, (i < s.harm.sites.length ∧ harmSite (abandonWindows s) i = abandonSite (harmSite s i)) ∨
      (harmSite (abandonWindows s) i = {} ∧ harmSite s i = {}) := fun i => by
    by_cases inside : i < s.harm.sites.length
    · exact .inl ⟨inside, harmSite_abandonWindows s inside⟩
    · have beyond : ∀ t : State, t.harm.sites.length = s.harm.sites.length → harmSite t i = {} := fun t ht =>
        List.getD_eq_default _ _ (by rw [ht]; exact Nat.le_of_not_lt inside)
      exact .inr ⟨beyond _ (List.length_map _), beyond s rfl⟩
  refine ⟨fun i => ?_, fun i => ?_, fun i j => ?_⟩
  · rcases each i with ⟨_, e⟩ | ⟨e, e'⟩
    · rw [e]; exact ⟨rfl, rfl, rfl⟩
    · rw [e, e']; exact ⟨rfl, rfl, rfl⟩
  · rcases each i with ⟨_, e⟩ | ⟨e, e'⟩
    · rw [e]; rfl
    · rw [e, e']
  · rcases each i with ⟨inside, _⟩ | ⟨e, e'⟩
    · rw [harmMember_abandonWindows s inside]
    · rw [harmMember, e, harmMember, e']

/-! ### The queue through the close of a site -/

theorem queueInterval_grows (r : IntervalRecord) (s : State) : QueueGrows 1 s (queueInterval r s) := by
  obtain ⟨queue, ids, _⟩ := queueInterval_store r s
  have kept : (queueInterval r s).store.state = s.store.state ∧ (queueInterval r s).store.mode = s.store.mode := by
    simp only [queueInterval, Store.enqueue, drawId]
    split <;> exact ⟨rfl, rfl⟩
  refine ⟨by rw [queue]; exact List.prefix_append _ _, ?_, kept.1, by rw [ids], kept.2⟩
  rw [queue, List.length_append]
  exact Nat.le_refl _

theorem handRecord_grows (r : IntervalRecord) (moment site role : Nat) (k : CloseCounts) (s : State) :
    QueueGrows 1 s (handRecord r moment site role k s).2 := by
  have placed : ∀ (k : CloseCounts) (u : State), u.store.queue = s.store.queue → u.store.state = s.store.state →
      u.store.nextIds = s.store.nextIds → u.store.mode = s.store.mode →
      QueueGrows 1 s (placeRecord r moment site role k u).2 := by
    intro k u queue state ids mode
    have same : ∀ v : State, v.store = u.store → QueueGrows 0 s v := fun v hv =>
      ⟨by rw [hv, queue], by rw [hv, queue]; exact Nat.le_refl _, by rw [hv, state], by rw [hv, ids], by rw [hv, mode]⟩
    unfold placeRecord
    split
    · exact (same (modifyHarmMember _ site role u) rfl).trans (queueInterval_grows _ _)
    · exact (same (modifyHarmMember _ site role u) rfl).mono (Nat.zero_le _)
  unfold handRecord
  split
  · exact ⟨List.prefix_refl _, Nat.le_succ _, rfl, rfl, rfl⟩
  · split
    · exact placed _ _ rfl rfl rfl rfl
    · exact placed _ _ rfl rfl rfl rfl

theorem closeFold_grows (c : Closing) (site : Nat) (roles : List Nat) : ∀ (k : CloseCounts) (s : State),
    roles.Nodup →
    QueueGrows (countedAt s site roles).length s (roles.foldl (closePosition c site) (k, s)).2 := by
  induction roles with
  | nil => exact fun k s _ => .of_store rfl
  | cons role roles ih =>
    intro k s nodup
    obtain ⟨fresh, nodup⟩ := List.nodup_cons.1 nodup
    have same : ∀ i ∈ roles, harmMember (closePosition c site (k, s) role).2 site i = harmMember s site i :=
      fun i hi => closePosition_other c (k, s) role (.inr fun e => fresh (e ▸ hi))
    have rest := ih (closePosition c site (k, s) role).1 (closePosition c site (k, s) role).2 nodup
    rw [countedAt, closingAt_congr same, ← countedAt] at rest
    rw [countedAt]
    cases ha : (harmMember s site role).acc with
    | none =>
      rw [closePosition_none ha] at rest
      rw [closingAt_none ha, List.foldl_cons, closePosition_none ha]
      exact rest
    | some a =>
      rw [closingAt_some ha, List.foldl_cons]
      by_cases hn : a.n = 0
      · rw [closePosition_empty ha hn] at rest ⊢
        rw [List.filter_cons_of_neg (by simp [hn])]
        have step : QueueGrows 0 s (emptyCounted site (reopened c site role s)) := .of_store rfl
        exact (step.trans rest).mono (Nat.le_of_eq (Nat.zero_add _))
      · rw [closePosition_counted ha hn] at rest ⊢
        have takes : decide (1 ≤ (role, a).2.n) = true := decide_eq_true (Nat.pos_of_ne_zero hn)
        rw [List.filter_cons_of_pos (p := fun x : Nat × Accumulator => decide (1 ≤ x.2.n)) takes, List.length_cons, Nat.add_comm]
        have open_ : QueueGrows 0 s (reopened c site role s) := .of_store rfl
        exact ((open_.trans (handRecord_grows _ _ _ _ _ _)).mono (Nat.le_of_eq (Nat.zero_add _))).trans rest

theorem closeSite_grows (c : Closing) (causes : CloseCauses) {roles : List Nat} (nodup : roles.Nodup) (s : State)
    (site : Nat) : QueueGrows (countedAt s site roles).length s (closeSite c causes roles s site) := by
  have grows := closeFold_grows c site roles {} s nodup
  have store : (closeSite c causes roles s site).store = (roles.foldl (closePosition c site) ({}, s)).2.store :=
    (closeSite_rest c causes roles s site).2
  exact ⟨store ▸ grows.queue, store ▸ grows.length, store ▸ grows.state, store ▸ grows.survey, store ▸ grows.mode⟩

theorem closeSite_postsAtMost (c : Closing) (causes : CloseCauses) (roles : List Nat) (s : State) (site : Nat) :
    PostsAtMost 1 s (closeSite c causes roles s site) :=
  ((PostsAtMost.of_link (siteClosed_keeps (c := c) (roles := roles)).link).trans
    (postWhen_postsAtMost _ _ _)).mono (Nat.le_refl _)

theorem closeSite_owed (c : Closing) (causes : CloseCauses) (roles : List Nat) (s : State) (site : Nat) :
    OwedKept s (closeSite c causes roles s site) :=
  (OwedKept.of_link (siteClosed_keeps (c := c) (roles := roles) (site := site) (s := s)).link).trans
    (postWhen_owed _ _ _)

theorem mem_intervalEntries {first : Nat} {records : List IntervalRecord} {r : IntervalRecord} (h : r ∈ records) :
    ∃ id, (⟨.interval, id, .interval id r, false⟩ : QueueItem) ∈ intervalEntries first records := by
  obtain ⟨i, inside, hi⟩ := List.getElem_of_mem h
  exact ⟨first + i, List.mem_map.2 ⟨(r, i), List.mem_zipIdx_iff_getElem?.2 ((List.getElem?_eq_getElem inside).trans
    (congrArg some hi)), rfl⟩⟩

/-! ### One site's part of a stop or a reset -/

/-- The site's interval boundary falls at a clock time, or waits for its close frame. -/
def boundaryFalls (s : State) (time : ClockTime) (site : Nat) : Bool :=
  (harmSite s site).due || boundaryReached s time (harmSite s site)

/-- The end time of the accumulators that close at a clock time (R110). -/
def partialEnd (s : State) (time : ClockTime) (site : Nat) : ClockTime :=
  if boundaryFalls s time site then (harmSite s site).next.getD time else time

def partialClosing (s : State) (time : ClockTime) (fresh : Option Nat) (site : Nat) : Closing :=
  ⟨s.harm.moments, partialEnd s time site, true, fresh.map fun frame => (frame, partialEnd s time site)⟩

/-- The site as its accumulators close. -/
def boundaryGone (s : State) (time : ClockTime) (site : Nat) : State :=
  if boundaryFalls s time site then boundaryPasses site s else s

/-- One site's closes of a stop boundary or an ACQ reset. -/
def partialSite (causes : CloseCauses) (time : ClockTime) (fresh : Option Nat) (s : State) (site : Nat) : State :=
  closeSite (partialClosing s time fresh site) { causes with boundary := boundaryFalls s time site } allRoles
    (boundaryGone s time site) site

theorem partialCloses_eq (causes : CloseCauses) (time : ClockTime) (fresh : Option Nat) (s : State) :
    partialCloses causes time fresh s = (List.range 4).foldl (partialSite causes time fresh) s := rfl

/-- What the passing of a site's interval boundary leaves. -/
structure GoneKeeps (site : Nat) (s t : State) : Prop where
  moves : Moves (only [.harm]) s t
  store : t.store = s.store
  link : t.link = s.link
  others : ∀ i, i ≠ site → harmSite t i = harmSite s i
  member : ∀ i j, harmMember t i j = harmMember s i j
  mark : ∀ i, (harmSite t i).mark = (harmSite s i).mark
  basis : ∀ i, (harmSite t i).basis = (harmSite s i).basis
  empty : ∀ i, (harmSite t i).empty = (harmSite s i).empty

theorem GoneKeeps.refl (site : Nat) (s : State) : GoneKeeps site s s :=
  ⟨.refl s, rfl, rfl, fun _ _ => rfl, fun _ _ => rfl, fun _ => rfl, fun _ => rfl, fun _ => rfl⟩

theorem boundaryTaken_keeps (site : Nat) (boundary : ClockTime) (basis : Basis) (s : State) :
    GoneKeeps site s (boundaryTaken site boundary basis s) := by
  have each : ∀ i, harmSite (boundaryTaken site boundary basis s) i = harmSite s i ∨
      harmSite (boundaryTaken site boundary basis s) i = { harmSite s i with
        due := false, next := some (nextBoundary basis boundary (siteOf s site).settings.interval) } := fun i => by
    by_cases here : i = site
    · subst here
      by_cases inside : i < s.harm.sites.length
      · exact .inr (boundaryTaken_site inside)
      · have beyond : ∀ u : State, u.harm.sites.length = s.harm.sites.length → harmSite u i = {} := fun u hu =>
          List.getD_eq_default _ _ (by rw [hu]; exact Nat.le_of_not_lt inside)
        exact .inl ((beyond _ (updateAt_length _ _ _)).trans (beyond s rfl).symm)
    · exact .inl (boundaryTaken_others here)
  refine ⟨boundaryTaken_moves site boundary basis s, rfl, rfl, fun i => boundaryTaken_others, boundaryTaken_member,
    fun i => ?_, fun i => ?_, fun i => ?_⟩
  · rcases each i with e | e <;> rw [e]
  · rcases each i with e | e <;> rw [e]
  · rcases each i with e | e <;> rw [e]

theorem boundaryGone_keeps (s : State) (time : ClockTime) (site : Nat) : GoneKeeps site s (boundaryGone s time site) := by
  unfold boundaryGone
  split
  · unfold boundaryPasses
    split
    · exact boundaryTaken_keeps site _ _ s
    · exact .refl site s
  · exact .refl site s

section
variable {causes : CloseCauses} {time : ClockTime} {fresh : Option Nat} {s : State} {site : Nat}

theorem partialSite_moves : Moves (only [.harm, .store]) s (partialSite causes time fresh s site) :=
  ((boundaryGone_keeps s time site).moves.mono (by decide)).trans (closeSite_moves _ _ _ _ _ (by decide) (by decide))

theorem partialSite_harmSite (i : Nat) :
    harmSite (partialSite causes time fresh s site) i =
      harmSite (siteClosed (partialClosing s time fresh site) allRoles (boundaryGone s time site) site).2 i := by
  rw [harmSite, partialSite, (closeSite_rest _ _ _ _ _).1]
  rfl

theorem partialSite_others {i : Nat} (h : i ≠ site) :
    harmSite (partialSite causes time fresh s site) i = harmSite s i :=
  (partialSite_harmSite i).trans ((siteClosed_keeps.others i h).trans ((boundaryGone_keeps s time site).others i h))

theorem boundaryGone_counted (roles : List Nat) :
    countedAt (boundaryGone s time site) site roles = countedAt s site roles ∧
      emptyAt (boundaryGone s time site) site roles = emptyAt s site roles := by
  have closing : closingAt (boundaryGone s time site) site roles = closingAt s site roles :=
    closingAt_congr fun role _ => (boundaryGone_keeps s time site).member site role
  exact ⟨congrArg (List.filter _) closing, congrArg (List.countP _) closing⟩

theorem partialSite_grows :
    QueueGrows (countedAt s site allRoles).length s (partialSite causes time fresh s site) := by
  have grows := closeSite_grows (partialClosing s time fresh site)
    { causes with boundary := boundaryFalls s time site } allRoles_nodup (boundaryGone s time site) site
  rw [(boundaryGone_counted allRoles).1] at grows
  exact ((QueueGrows.of_store (boundaryGone_keeps s time site).store).trans grows).mono (Nat.le_of_eq (Nat.zero_add _))

theorem partialSite_postsAtMost : PostsAtMost 1 s (partialSite causes time fresh s site) :=
  ((PostsAtMost.of_link (boundaryGone_keeps s time site).link).trans (closeSite_postsAtMost _ _ _ _ _)).mono (Nat.le_refl _)

theorem partialSite_owed : OwedKept s (partialSite causes time fresh s site) :=
  (OwedKept.of_link (boundaryGone_keeps s time site).link).trans (closeSite_owed _ _ _ _ _)

theorem partialSite_others_member {i j : Nat} (h : i ≠ site) :
    harmMember (partialSite causes time fresh s site) i j = harmMember s i j := by
  rw [harmMember, partialSite_others h]
  rfl

theorem partialSite_mark (i : Nat) :
    (harmSite (partialSite causes time fresh s site) i).mark = (harmSite s i).mark ∧
      (harmSite (partialSite causes time fresh s site) i).basis = (harmSite s i).basis := by
  have mark := (boundaryGone_keeps s time site).mark i
  have basis := (boundaryGone_keeps s time site).basis i
  by_cases here : i = site
  · subst here
    obtain ⟨mark', basis', _⟩ := (siteClosed_keeps (c := partialClosing s time fresh i) (roles := allRoles) (site := i)
      (s := boundaryGone s time i)).figures
    rw [partialSite_harmSite, mark', basis']
    exact ⟨mark, basis⟩
  · rw [partialSite_others here]
    exact ⟨rfl, rfl⟩

theorem partialSite_next (h : boundaryFalls s time site = false) :
    (harmSite (partialSite causes time fresh s site) site).next = (harmSite s site).next := by
  have gone : (harmSite (boundaryGone s time site) site).next = (harmSite s site).next := by
    rw [boundaryGone, h, if_neg Bool.false_ne_true]
  obtain ⟨_, _, next⟩ := (siteClosed_keeps (c := partialClosing s time fresh site) (roles := allRoles) (site := site)
    (s := boundaryGone s time site)).figures
  rw [partialSite_harmSite, next, gone]

theorem freshFor_boundaryGone (role : Nat) (c : Closing) :
    freshFor (boundaryGone s time site) site role c = freshFor s site role c := by
  have sites : (boundaryGone s time site).sites = s.sites := (boundaryGone_keeps s time site).moves.sites_eq (by decide)
  unfold freshFor
  rw [memberOf_of_sites sites, siteOf_eq_of_sites sites, (boundaryGone_keeps s time site).mark]

section
variable (shaped : Shaped s) (hs : site < 4)
include shaped hs

theorem partialSite_closed {role : Nat} (hr : role < 8) :
    MemberClosed (partialClosing s time fresh site) site role s (partialSite causes time fresh s site) := by
  have closed := closeFold_closed hs (c := partialClosing s time fresh site) allRoles (k := {})
    ((boundaryGone_keeps s time site).moves.shaped shaped) allRoles_nodup allRoles_below role (List.mem_range.2 hr)
  have before := (boundaryGone_keeps s time site).member site role
  have after : harmMember (partialSite causes time fresh s site) site role =
      harmMember (siteClosed (partialClosing s time fresh site) allRoles (boundaryGone s time site) site).2 site role := by
    rw [harmMember, partialSite_harmSite]
    rfl
  exact ⟨(congrArg _ after).trans (closed.window.trans (congrArg _ before)),
    (congrArg _ after).trans (closed.latest.trans (congrArg _ before)),
    (congrArg _ after).trans (closed.acc.trans (by rw [before, freshFor_boundaryGone])),
    (congrArg _ after).trans (closed.lossDue.trans (by rw [before]))⟩

theorem partialSite_empty :
    (harmSite (partialSite causes time fresh s site) site).empty =
      (satInc max32)^[emptyAt s site allRoles] (harmSite s site).empty := by
  rw [partialSite_harmSite]
  refine (closeFold_empty _ hs allRoles {} _ allRoles_nodup ((boundaryGone_keeps s time site).moves.shaped shaped)).trans ?_
  rw [(boundaryGone_counted allRoles).2, (boundaryGone_keeps s time site).empty]

theorem partialSite_records (up : storeUp s.store = true) (notFull : s.store.state ≠ .full)
    (room : s.store.queue.length + (countedAt s site allRoles).length ≤ 16) {x : Nat × Accumulator}
    (h : x ∈ countedAt s site allRoles) :
    ∃ id, ⟨.interval, id, .interval id (stamped s (closeRecord (partialClosing s time fresh site) site s x)), false⟩ ∈
      (partialSite causes time fresh s site).store.queue := by
  have gone := boundaryGone_keeps s time site
  obtain ⟨queue, _⟩ := siteClosed_room (c := partialClosing s time fresh site) (site := site) allRoles_nodup
    (gone.moves.shaped shaped) hs allRoles_below (by rw [gone.store]; exact notFull)
    (by rw [gone.store]; exact up) (by rw [gone.store, (boundaryGone_counted allRoles).1]; exact room)
  have record : stamped (boundaryGone s time site)
      (closeRecord (partialClosing s time fresh site) site (boundaryGone s time site) x) =
      stamped s (closeRecord (partialClosing s time fresh site) site s x) := by
    unfold stamped closeRecord recordOf
    rw [gone.member, gone.moves.survey_eq (by decide), gone.moves.clock_eq (by decide)]
  obtain ⟨id, mem⟩ := mem_intervalEntries (first := (boundaryGone s time site).store.nextIds.interval)
    (List.mem_map_of_mem (f := fun x => stamped (boundaryGone s time site)
      (closeRecord (partialClosing s time fresh site) site (boundaryGone s time site) x))
      (by rw [(boundaryGone_counted allRoles).1]; exact h : x ∈ countedAt (boundaryGone s time site) site allRoles))
  rw [record] at mem
  refine ⟨id, ?_⟩
  have store : (partialSite causes time fresh s site).store =
    (siteClosed (partialClosing s time fresh site) allRoles (boundaryGone s time site) site).2.store :=
    (closeSite_rest _ _ _ _ _).2
  rw [store, queue]
  exact List.mem_append_right _ mem

end

end

/-! ### All the sites -/

/-- The records that the closes of some sites make. -/
def countedOf (s : State) (sites : List Nat) : Nat := (sites.map fun site => (countedAt s site allRoles).length).sum

theorem countedAt_of_harmSite {s t : State} {site : Nat} (h : harmSite t site = harmSite s site) (roles : List Nat) :
    countedAt t site roles = countedAt s site roles ∧ emptyAt t site roles = emptyAt s site roles := by
  have closing : closingAt t site roles = closingAt s site roles := closingAt_congr fun role _ => by
    rw [harmMember, h]
    rfl
  exact ⟨congrArg (List.filter _) closing, congrArg (List.countP _) closing⟩

theorem countedOf_congr {s t : State} {sites : List Nat} (h : ∀ i ∈ sites, harmSite t i = harmSite s i) :
    countedOf t sites = countedOf s sites :=
  congrArg List.sum (List.map_congr_left fun i hi => by rw [(countedAt_of_harmSite (h i hi) allRoles).1])

section
variable {causes : CloseCauses} {time : ClockTime} {fresh : Option Nat}

theorem partialFold_moves (sites : List Nat) (s : State) :
    Moves (only [.harm, .store]) s (sites.foldl (partialSite causes time fresh) s) :=
  .foldl _ (fun _ _ => partialSite_moves) _ _

theorem partialFold_postsAtMost (sites : List Nat) (s : State) :
    PostsAtMost sites.length s (sites.foldl (partialSite causes time fresh) s) :=
  (PostsAtMost.foldl _ (fun _ _ => partialSite_postsAtMost) sites s).mono (Nat.le_of_eq (Nat.mul_one _))

theorem partialFold_owed (sites : List Nat) (s : State) :
    OwedKept s (sites.foldl (partialSite causes time fresh) s) :=
  .foldl _ (fun _ _ => partialSite_owed) sites s

theorem partialFold_other (sites : List Nat) (s : State) {i : Nat} (h : i ∉ sites) :
    harmSite (sites.foldl (partialSite causes time fresh) s) i = harmSite s i := by
  induction sites generalizing s with
  | nil => rfl
  | cons site sites ih =>
    rw [List.mem_cons, not_or] at h
    have step : harmSite (partialSite causes time fresh s site) i = harmSite s i := partialSite_others h.1
    rw [List.foldl_cons, ← step]
    exact ih (partialSite causes time fresh s site) h.2

theorem partialFold_grows (sites : List Nat) : ∀ s : State, sites.Nodup →
    QueueGrows (countedOf s sites) s (sites.foldl (partialSite causes time fresh) s) := by
  induction sites with
  | nil => exact fun s _ => .of_store rfl
  | cons site sites ih =>
    intro s nodup
    obtain ⟨absent, nodup⟩ := List.nodup_cons.1 nodup
    have same : countedOf (partialSite causes time fresh s site) sites = countedOf s sites :=
      countedOf_congr fun i hi => partialSite_others fun e => absent (e ▸ hi)
    have rest := ih (partialSite causes time fresh s site) nodup
    have step : QueueGrows (countedAt s site allRoles).length s (partialSite causes time fresh s site) := partialSite_grows
    rw [same] at rest
    rw [List.foldl_cons, countedOf, List.map_cons, List.sum_cons]
    exact step.trans rest

/-- The turn of one site: the state before it, and what it leaves. -/
theorem partialFold_turn (sites : List Nat) : ∀ s : State, sites.Nodup → ∀ site ∈ sites, ∃ (u : State) (m : Nat),
    Moves (only [.harm, .store]) s u ∧ harmSite u site = harmSite s site ∧ QueueGrows m s u ∧
      m + (countedAt s site allRoles).length ≤ countedOf s sites ∧
      harmSite (sites.foldl (partialSite causes time fresh) s) site =
        harmSite (partialSite causes time fresh u site) site ∧
      (partialSite causes time fresh u site).store.queue <+:
        (sites.foldl (partialSite causes time fresh) s).store.queue := by
  induction sites with
  | nil => exact fun _ _ _ mem => absurd mem List.not_mem_nil
  | cons first sites ih =>
    intro s nodup site mem
    obtain ⟨absent, distinct⟩ := List.nodup_cons.1 nodup
    rcases List.mem_cons.1 mem with rfl | later
    · have after := partialFold_other (causes := causes) (time := time) (fresh := fresh) sites
        (partialSite causes time fresh s site) absent
      have grows := partialFold_grows (causes := causes) (time := time) (fresh := fresh) sites
        (partialSite causes time fresh s site) distinct
      rw [List.foldl_cons]
      exact ⟨s, 0, .refl s, rfl, .of_store rfl, by rw [Nat.zero_add]; exact Nat.le_add_right _ _, after, grows.queue⟩
    · have others : ∀ i ∈ sites, harmSite (partialSite causes time fresh s first) i = harmSite s i := fun i hi =>
        partialSite_others fun e => absent (e ▸ hi)
      obtain ⟨u, m, moves, same, grows, most, after, queue⟩ := ih (partialSite causes time fresh s first) distinct site later
      rw [countedOf_congr others, (countedAt_of_harmSite (others site later) allRoles).1] at most
      rw [List.foldl_cons]
      refine ⟨u, (countedAt s first allRoles).length + m, partialSite_moves.trans moves, same.trans (others site later),
        partialSite_grows.trans grows, ?_, after, queue⟩
      rw [Nat.add_assoc]
      exact Nat.add_le_add_left most _

/-- What the closes leave of a site (R98, R104, R110). -/
theorem partialFold_site (sites : List Nat) {s : State} (shaped : Shaped s) (nodup : sites.Nodup) {site : Nat}
    (mem : site ∈ sites) (hs : site < 4) :
    let t := sites.foldl (partialSite causes time fresh) s
    (∀ role, role < 8 → (harmMember t site role).window = (harmMember s site role).window ∧
      (harmMember t site role).latest = (harmMember s site role).latest ∧
      (harmMember t site role).acc = (harmMember s site role).acc.bind fun _ =>
        freshFor s site role (partialClosing s time fresh site)) ∧
    (harmSite t site).mark = (harmSite s site).mark ∧ (harmSite t site).basis = (harmSite s site).basis ∧
    (boundaryFalls s time site = false → (harmSite t site).next = (harmSite s site).next) ∧
    (harmSite t site).empty = (satInc max32)^[emptyAt s site allRoles] (harmSite s site).empty ∧
    (storeUp s.store = true → s.store.state ≠ .full → s.store.queue.length + countedOf s sites ≤ 16 →
      ∀ x ∈ countedAt s site allRoles, ∃ id,
        ⟨.interval, id, .interval id (stamped s (closeRecord (partialClosing s time fresh site) site s x)), false⟩ ∈
          t.store.queue) := by
  intro t
  obtain ⟨u, m, moves, same, grows, most, after, queue⟩ :=
    partialFold_turn (causes := causes) (time := time) (fresh := fresh) sites s nodup site mem
  have shapedU := moves.shaped shaped
  have falls : boundaryFalls u time site = boundaryFalls s time site := by
    unfold boundaryFalls boundaryReached recording
    rw [same, moves.survey_eq (by decide)]
  have endTime : partialEnd u time site = partialEnd s time site := by
    unfold partialEnd
    rw [falls, same]
  have member : ∀ role, harmMember u site role = harmMember s site role := fun role => by
    rw [harmMember, same]
    rfl
  have memberT : ∀ role, harmMember t site role = harmMember (partialSite causes time fresh u site) site role :=
    fun role => by
      rw [harmMember, after]
      rfl
  have freshEq : ∀ role, freshFor u site role (partialClosing u time fresh site) =
      freshFor s site role (partialClosing s time fresh site) := fun role => by
    unfold freshFor partialClosing
    rw [memberOf_of_sites (moves.sites_eq (by decide)), siteOf_eq_of_sites (moves.sites_eq (by decide)), same, endTime]
  have counted := countedAt_of_harmSite same allRoles
  refine ⟨fun role hr => ?_, ?_, ?_, fun waits => ?_, ?_, fun up notFull room x hx => ?_⟩
  · have closed := partialSite_closed (causes := causes) (time := time) (fresh := fresh) shapedU hs hr
    rw [memberT, closed.window, closed.latest, closed.acc, member, freshEq]
    exact ⟨rfl, rfl, rfl⟩
  · rw [after, (partialSite_mark site).1, same]
  · rw [after, (partialSite_mark site).2, same]
  · rw [after, partialSite_next (falls.trans waits), same]
  · rw [after, partialSite_empty shapedU hs, same, counted.2]
  · have length := grows.length
    have record : stamped u (closeRecord (partialClosing u time fresh site) site u x) =
        stamped s (closeRecord (partialClosing s time fresh site) site s x) := by
      unfold stamped closeRecord recordOf partialClosing
      rw [member, endTime, moves.survey_eq (by decide), moves.clock_eq (by decide)]
    obtain ⟨id, inQueue⟩ := partialSite_records (causes := causes) (time := time) (fresh := fresh) shapedU hs
      (by rw [storeUp, grows.state]; exact up) (grows.state ▸ notFull) (by rw [counted.1]; omega)
      (counted.1 ▸ hx)
    rw [record] at inQueue
    exact ⟨id, queue.subset inQueue⟩

end

end Sys2Proof.Machine
end

