-- ==== Sys2Proof/Proofs/StopBoundary.lean ====
section
/-!
PROOFS. The stop boundary of a run (R49, R52, R54, R55, R76, R90, R98, R110), block by block, with O42.
-/

namespace Sys2Proof.Machine

/-! ### The blocks of a stop boundary, in turn -/

/-- The stop boundary enters every site's history. -/
@[irreducible] def boundaryEntered (s : State) : State :=
  allSites.foldl (fun s site => modifySag (SagSite.enter (boundaryRecord s site [])) site s) s

/-- Then the open events close. -/
@[irreducible] def eventsClosed (s : State) : State :=
  allSites.foldl (forceClose s.bus.frame true) (boundaryEntered s)

/-- Then the captures end. -/
@[irreducible] def eventsStopped (s : State) : State := truncateCaptures s.bus.frame (eventsClosed s)

/-- Then the engine's windows and accumulators close. -/
@[irreducible] def intervalsStopped (s : State) : State :=
  partialCloses { stop := true } s.bus.frameTime none (abandonWindows (eventsStopped s))

/-- The engine with no interval boundary to come. -/
@[irreducible] def harmRested (s : State) : State :=
  { s with harm := { s.harm with
    sites := s.harm.sites.map fun h => { h with basis := none, next := none, due := false } } }

/-- Then the engine and the channels rest. -/
@[irreducible] def blocksRested (s : State) : State := sagRest (harmRested (intervalsStopped s))

/-- The survey with no change pending. -/
def changeTaken (s : State) : State := setSurvey (fun v => { v with change := none, changeDue := false }) s

/-- Then the survey enters the state that the change leads to. -/
@[irreducible] def surveyStopped (change : Change) (s : State) : State :=
  changeEnds (some change) (changeTaken (blocksRested s))

theorem boundaryEntered_moves (s : State) : Moves (only [.sag]) s (boundaryEntered s) := by
  unfold boundaryEntered
  exact .foldl _ (fun s site => modifySag_moves _ site s (fun g => by rw [enter_channels]) (by decide)) _ _

theorem eventsClosed_moves (s : State) :
    Moves (only [.capture, .sag, .harm, .store]) (boundaryEntered s) (eventsClosed s) := by
  unfold eventsClosed
  exact forceFold_moves _ _

theorem eventsStopped_moves (s : State) : Moves (only [.capture, .sag, .harm, .store]) s (eventsStopped s) := by
  unfold eventsStopped
  exact .trans (.trans ((boundaryEntered_moves s).mono (by decide)) (eventsClosed_moves s))
    (truncateCaptures_moves _ _ (by decide))

theorem intervalsStopped_moves (s : State) : Moves (only [.harm, .store]) (eventsStopped s) (intervalsStopped s) := by
  unfold intervalsStopped
  exact .trans (abandonWindows_moves _ (by decide)) (partialCloses_moves _ _ _ _ (by decide) (by decide))

theorem harmRested_moves (s : State) : Moves (only [.harm]) s (harmRested s) := by
  unfold harmRested
  exact setHarm_moves _ _ (harmShape_map _ rfl fun _ => rfl) (by decide)

theorem blocksRested_moves (s : State) : Moves (only [.harm, .sag]) (intervalsStopped s) (blocksRested s) := by
  unfold blocksRested
  exact .trans ((harmRested_moves _).mono (by decide)) (sagRest_moves _ (by decide))

theorem surveyStopped_moves (change : Change) (s : State) :
    Moves (only [.survey, .store]) (blocksRested s) (surveyStopped change s) := by
  unfold surveyStopped
  exact .trans (setSurvey_moves _ _ (by decide)) (changeEnds_moves _ _ (by decide) (by decide))

theorem stopBoundary_due {change : Change} {s : State} (hc : s.survey.change = some change) (ho : change ≠ .start)
    (hd : s.survey.changeDue = true) :
    stopBoundary s = storeNext (answerStop (surveyStopped change s)) := by
  have due : stopDue s = true := by simp [stopDue, hc, hd, ho]
  have bus : (eventsStopped s).bus = s.bus := (eventsStopped_moves s).bus_eq (by decide)
  have stopped : truncateCaptures s.bus.frame (sagStop s) = eventsStopped s := by
    unfold eventsStopped eventsClosed boundaryEntered
    rfl
  have shape : harmStops (eventsStopped s) = harmRested (intervalsStopped s) := by
    unfold harmStops intervalsStopped harmRested
    rw [bus]
  have survey : (blocksRested s).survey = s.survey :=
    ((blocksRested_moves s).survey_eq (by decide)).trans (((intervalsStopped_moves s).survey_eq (by decide)).trans
      ((eventsStopped_moves s).survey_eq (by decide)))
  refine (if_pos due).trans (congrArg storeNext ?_)
  have rested : sagRest (harmStops (truncateCaptures s.bus.frame (sagStop s))) = blocksRested s := by
    unfold blocksRested
    rw [stopped, shape]
  refine (congrArg surveyStops rested).trans ?_
  unfold surveyStops surveyStopped
  rw [survey, hc]
  rfl

/-! ### The history, the events and the channels -/

theorem enterFold_site (sites : List Nat) : ∀ s : State, Shaped s → sites.Nodup → ∀ {i : Nat}, i < 4 →
    sagSite (sites.foldl (fun s site => modifySag (SagSite.enter (boundaryRecord s site [])) site s) s) i =
      if i ∈ sites then (sagSite s i).enter (boundaryRecord s i []) else sagSite s i := by
  induction sites with
  | nil => exact fun s _ _ i _ => (if_neg List.not_mem_nil).symm
  | cons site sites ih =>
    intro s shaped nodup i hi
    obtain ⟨absent, distinct⟩ := List.nodup_cons.1 nodup
    let u := modifySag (SagSite.enter (boundaryRecord s site [])) site s
    have moves : Moves (only [.sag]) s u := modifySag_moves _ site s (fun g => by rw [enter_channels]) (by decide)
    have record : boundaryRecord u i [] = boundaryRecord s i [] := rfl
    have rest := ih u (moves.shaped shaped) distinct hi
    rw [record] at rest
    refine rest.trans ?_
    by_cases here : i = site
    · subst here
      rw [if_neg absent, if_pos List.mem_cons_self]
      exact sagSite_modifySag _ _ _ (by rw [shaped.sag_length]; exact hi)
    · have other : sagSite u i = sagSite s i := sagSite_modifySag_other _ _ _ _ here
      rw [other]
      exact if_congr ⟨List.mem_cons_of_mem _, fun h => (List.mem_cons.1 h).resolve_left here⟩ rfl rfl

theorem boundaryEntered_site {s : State} (shaped : Shaped s) {i : Nat} (hi : i < 4) :
    sagSite (boundaryEntered s) i = (sagSite s i).enter (boundaryRecord s i []) := by
  unfold boundaryEntered
  exact (enterFold_site allSites s shaped allSites_nodup hi).trans (if_pos (List.mem_range.2 hi))

theorem enter_event (b : Boundary) (g : SagSite) : (g.enter b).event = g.event := by
  unfold SagSite.enter
  split <;> rfl

theorem boundaryEntered_event {s : State} (shaped : Shaped s) (i : Nat) :
    (sagSite (boundaryEntered s) i).event = (sagSite s i).event := by
  by_cases hi : i < 4
  · rw [boundaryEntered_site shaped hi, enter_event]
  · have beyond : ∀ t : State, Shaped t → sagSite t i = {} := fun t ht =>
      List.getD_eq_default _ _ (by rw [ht.sag_length]; exact Nat.le_of_not_lt hi)
    rw [beyond _ ((boundaryEntered_moves s).shaped shaped), beyond s shaped]

theorem boundaryEntered_rest (s : State) : (boundaryEntered s).capture = s.capture ∧ (boundaryEntered s).link = s.link ∧
    (boundaryEntered s).store = s.store ∧ (boundaryEntered s).harm = s.harm := by
  have each : ∀ (sites : List Nat) (u : State), (u.capture = s.capture ∧ u.link = s.link ∧ u.store = s.store ∧
      u.harm = s.harm) →
      let t := sites.foldl (fun s site => modifySag (SagSite.enter (boundaryRecord s site [])) site s) u
      t.capture = s.capture ∧ t.link = s.link ∧ t.store = s.store ∧ t.harm = s.harm := by
    intro sites
    induction sites with
    | nil => exact fun u h => h
    | cons site sites ih => exact fun u h => ih _ h
  unfold boundaryEntered
  exact each allSites s ⟨rfl, rfl, rfl, rfl⟩

/-- R64, R76: the channels rest. -/
theorem sagRest_site {u : State} {i : Nat} (inside : i < u.sag.sites.length) :
    sagSite (sagRest u) i = SagSite.rest (sagSite u i) := by
  have sites : (sagRest u).sag.sites = u.sag.sites.map SagSite.rest := rfl
  simp only [sagSite, sites, List.getD_eq_getElem?_getD, List.getElem?_map, List.getElem?_eq_getElem inside]
  rfl

theorem harmRested_sag (u : State) : (harmRested u).sag = u.sag := by
  unfold harmRested
  rfl

theorem eventsStopped_sag (s : State) : (eventsStopped s).sag = (eventsClosed s).sag := by
  unfold eventsStopped
  rfl

/-- A site of the detector after a stop boundary. -/
theorem blocksRested_site {s : State} (shaped : Shaped s) {i : Nat} (hi : i < 4) :
    sagSite (blocksRested s) i =
      SagSite.rest { (sagSite s i).enter (boundaryRecord s i []) with event := none } := by
  have shapedE := (boundaryEntered_moves s).shaped shaped
  have shapedC := (eventsClosed_moves s).shaped shapedE
  have fold : sagSite (eventsClosed s) i = { sagSite (boundaryEntered s) i with event := none } := by
    unfold eventsClosed
    exact forceFold_event allSites _ shapedE allSites_nodup (List.mem_range.2 hi) hi
  have sag : (harmRested (intervalsStopped s)).sag = (eventsClosed s).sag :=
    (harmRested_sag _).trans (((intervalsStopped_moves s).sag_eq (by decide)).trans (eventsStopped_sag s))
  have same : sagSite (harmRested (intervalsStopped s)) i = sagSite (eventsClosed s) i := by
    rw [sagSite, sag]
    rfl
  unfold blocksRested
  rw [sagRest_site (by rw [sag, shapedC.sag_length]; exact hi), same, fold, boundaryEntered_site shaped hi]

theorem rest_channels (g : SagSite) : g.rest.channels = g.channels.map fun c => c.rest.shown none := rfl

theorem blocksRested_channel {s : State} (shaped : Shaped s) {i role : Nat} (hi : i < 4) (hr : role < 3) :
    channelOf (blocksRested s) i role = ((channelOf s i role).rest).shown none := by
  have length := shaped.channels_length hi
  have channels : (sagSite (blocksRested s) i).channels =
      (sagSite s i).channels.map fun c => c.rest.shown none := by
    rw [blocksRested_site shaped hi, rest_channels]
    exact congrArg (List.map _) (enter_channels _ _)
  simp only [channelOf, channels, List.getD_eq_getElem?_getD, List.getElem?_map,
    List.getElem?_eq_getElem (show role < (sagSite s i).channels.length by omega)]
  rfl

/-! ### The engine -/

theorem harmRested_site {s : State} {i : Nat} (inside : i < s.harm.sites.length) :
    harmSite (harmRested s) i = { harmSite s i with basis := none, next := none, due := false } := by
  have e : (harmRested s).harm.sites = s.harm.sites.map fun h => { h with basis := none, next := none, due := false } := by
    unfold harmRested
    rfl
  simp only [harmSite, e, List.getD_eq_getElem?_getD, List.getElem?_map, List.getElem?_eq_getElem inside]
  rfl

theorem harmMember_of_members {s t : State} {i : Nat} (h : (harmSite t i).members = (harmSite s i).members) (role : Nat) :
    harmMember t i role = harmMember s i role := by
  rw [harmMember, h]
  rfl

theorem blocksRested_harmSite {s : State} (shaped : Shaped s) {i : Nat} (hi : i < 4) :
    harmSite (blocksRested s) i =
      { harmSite (intervalsStopped s) i with basis := none, next := none, due := false } := by
  have shapedI := (intervalsStopped_moves s).shaped ((eventsStopped_moves s).shaped shaped)
  have sagRested : ∀ u, (sagRest u).harm = u.harm := fun _ => rfl
  unfold blocksRested
  rw [harmSite, sagRested]
  exact harmRested_site (by rw [shapedI.harm_length]; exact hi)

/-- R98, R110: no window and no accumulator is left. -/
theorem intervalsStopped_member {s : State} (shaped : Shaped s) {i role : Nat} (hi : i < 4) (hr : role < 8) :
    (harmMember (intervalsStopped s) i role).window = none ∧ (harmMember (intervalsStopped s) i role).acc = none := by
  have shapedE := (eventsStopped_moves s).shaped shaped
  have abandoned := harmMember_abandonWindows (eventsStopped s) (i := i) (j := role) (by rw [shapedE.harm_length]; exact hi)
  have shapedA : Shaped (abandonWindows (eventsStopped s)) :=
    (abandonWindows_moves (P := only [.harm]) _ (by decide)).shaped shapedE
  unfold intervalsStopped
  rw [partialCloses_eq]
  generalize abandonWindows (eventsStopped s) = u at *
  obtain ⟨window, _, acc⟩ := (partialFold_site (causes := { stop := true }) (time := s.bus.frameTime) (fresh := none)
    (List.range 4) shapedA List.nodup_range (List.mem_range.2 hi) hi).1 role hr
  refine ⟨window.trans (by rw [abandoned]), acc.trans ?_⟩
  cases (harmMember u i role).acc <;> rfl

/-! ### The write queue -/

theorem eventsClosed_grows {s : State} (shaped : Shaped s) :
    QueueGrows ((List.range 4).countP fun site => (sagSite s site).event.isSome) s (eventsStopped s) := by
  have entered : QueueGrows 0 s (boundaryEntered s) := .of_store (boundaryEntered_rest s).2.2.1
  have closed : QueueGrows (allSites.countP fun site => (sagSite (boundaryEntered s) site).event.isSome)
      (boundaryEntered s) (eventsClosed s) := by
    unfold eventsClosed
    exact forceFold_grows allSites _ allSites_nodup
  have truncated : QueueGrows 0 (eventsClosed s) (eventsStopped s) := by
    unfold eventsStopped
    exact .of_store rfl
  have same : (allSites.countP fun site => (sagSite (boundaryEntered s) site).event.isSome) =
      (List.range 4).countP fun site => (sagSite s site).event.isSome :=
    List.countP_congr fun site _ => by rw [boundaryEntered_event shaped]
  rw [same] at closed
  exact ((entered.trans closed).trans truncated).mono (by omega)

/-- The engine's figures as the accumulators close. -/
theorem abandoned_kept (s : State) : HarmKept s (abandonWindows (eventsStopped s)) := by
  have entered : HarmKept s (boundaryEntered s) := .of_harm (congrArg Harm.sites (boundaryEntered_rest s).2.2.2)
  have closed : HarmKept (boundaryEntered s) (eventsClosed s) := by
    unfold eventsClosed
    exact .of_forceFold _ _
  have truncated : HarmKept (eventsClosed s) (eventsStopped s) := by
    unfold eventsStopped
    exact .of_harm rfl
  exact ((entered.trans closed).trans truncated).trans (abandonWindows_kept _)

theorem bare_any (o : Option Accumulator) : (o.map Accumulator.bare).any (fun a => 0 < a.n) = o.any fun a => 0 < a.n := by
  cases o <;> rfl

/-- The records that a site's close makes are its accumulators with a counted window. -/
theorem countedAt_length (s : State) (site : Nat) (roles : List Nat) :
    (countedAt s site roles).length = roles.countP fun role => (harmMember s site role).acc.any fun a => 0 < a.n := by
  induction roles with
  | nil => rfl
  | cons role roles ih =>
    rw [countedAt] at ih ⊢
    rw [List.countP_cons]
    cases h : (harmMember s site role).acc with
    | none =>
      rw [closingAt_none h, ih]
      rfl
    | some a =>
      rw [closingAt_some h, List.filter_cons]
      by_cases counted : 1 ≤ a.n
      · rw [if_pos (decide_eq_true counted), List.length_cons, ih]
        simp only [Option.any_some, decide_eq_true (show 0 < a.n from counted), if_true]
      · rw [if_neg (by simpa using counted), ih]
        simp only [Option.any_some, decide_eq_false (show ¬0 < a.n from counted), Bool.false_eq_true, if_false,
          Nat.add_zero]

theorem countedOf_kept {s t : State} (h : HarmKept s t) (sites : List Nat) :
    countedOf t sites = (sites.map fun site => (List.range 8).countP fun role =>
      (harmMember s site role).acc.any fun a => 0 < a.n).sum := by
  refine congrArg List.sum (List.map_congr_left fun site _ => (countedAt_length t site allRoles).trans ?_)
  exact List.countP_congr fun role _ => by rw [← bare_any, h.acc, bare_any]

/-- The number of accumulators with a counted window. -/
def countedWindows (s : State) : Nat := ((List.range 4).map fun site => (List.range 8).countP fun role =>
  (harmMember s site role).acc.any fun a => 0 < a.n).sum

theorem blocksRested_rest (s : State) : (blocksRested s).store = (intervalsStopped s).store ∧
    (blocksRested s).link = (intervalsStopped s).link := by
  unfold blocksRested harmRested
  exact ⟨rfl, rfl⟩

theorem intervalsStopped_grows (s : State) : QueueGrows (countedWindows s) (eventsStopped s) (blocksRested s) := by
  have abandoned : QueueGrows 0 (eventsStopped s) (abandonWindows (eventsStopped s)) := .of_store rfl
  have closed : QueueGrows (countedOf (abandonWindows (eventsStopped s)) (List.range 4))
      (abandonWindows (eventsStopped s)) (intervalsStopped s) := by
    unfold intervalsStopped
    rw [partialCloses_eq]
    exact partialFold_grows (List.range 4) _ List.nodup_range
  have rested : QueueGrows 0 (intervalsStopped s) (blocksRested s) := .of_store (blocksRested_rest s).1
  rw [countedOf_kept (abandoned_kept s)] at closed
  exact ((abandoned.trans closed).trans rested).mono (by rw [countedWindows]; omega)

/-- R76: the records of the events. -/
theorem eventsStopped_records {s : State} (shaped : Shaped s) (up : storeUp s.store = true)
    (notFull : s.store.state ≠ .full)
    (room : s.store.queue.length + ((List.range 4).countP fun site => (sagSite s site).event.isSome) ≤ 16)
    {site : Nat} (hs : site < 4) {e : OpenEvent} (he : (sagSite s site).event = some e) :
    eventFits (boundaryEntered s) = true ∧
    ⟨.event, e.id, .event (toldRecord site s.bus.frame (forcedEvent s.bus.frame true (boundaryEntered s) site e)
      (boundaryEntered s)), false⟩ ∈ (eventsStopped s).store.queue := by
  have store := (boundaryEntered_rest s).2.2.1
  have same : (allSites.countP fun site => (sagSite (boundaryEntered s) site).event.isSome) =
      (List.range 4).countP fun site => (sagSite s site).event.isSome :=
    List.countP_congr fun site _ => by rw [boundaryEntered_event shaped]
  have records := forceFold_records (c := s.bus.frame) (atStop := true) allSites (boundaryEntered s) allSites_nodup
    (by rw [store]; exact up) (by rw [store]; exact notFull) (by rw [store, same]; exact room) site (List.mem_range.2 hs) e
    ((boundaryEntered_event shaped site).trans he)
  unfold eventsStopped eventsClosed
  exact records

theorem boundaryEntered_history {s : State} (shaped : Shaped s) {site : Nat} (hs : site < 4)
    (new : (sagSite s site).history.head?.map (·.frame) ≠ some s.bus.frame) :
    (sagSite (boundaryEntered s) site).timeOf s.bus.frame = some s.bus.frameTime := by
  rw [boundaryEntered_site shaped hs]
  have history : ((sagSite s site).enter (boundaryRecord s site [])).history =
      (boundaryRecord s site [] :: (sagSite s site).history).take 4 := by
    unfold SagSite.enter
    exact congrArg SagSite.history (if_neg new)
  rw [SagSite.timeOf, history, List.take_succ_cons, List.find?_cons_of_pos (by simp [boundaryRecord])]
  rfl

/-- R78: what an event's record holds. -/
theorem eventsStopped_record {s : State} (shaped : Shaped s) {site : Nat} (hs : site < 4) (e : OpenEvent)
    (fits : eventFits (boundaryEntered s) = true) :
    let r := toldRecord site s.bus.frame (forcedEvent s.bus.frame true (boundaryEntered s) site e) (boundaryEntered s)
    r.id = e.id ∧ r.site = site ∧ r.number = s.survey.number ∧ r.startTime = e.startTime ∧ r.capture = e.capture ∧
      r.flags.truncated = true ∧ r.flags.clockUnset = !s.clock.valid ∧
      ((∃ i ∈ e.involved, i.holding = true) → s.bus.frame < 2 ^ 48 →
        (∀ i ∈ e.involved, ∀ x, i.recovery = some x → x < 2 ^ 48) →
        (sagSite s site).history.head?.map (·.frame) ≠ some s.bus.frame →
        r.endTime = s.bus.frameTime ∧ r.half = Nat.min 65535 (frameDiff s.bus.frame e.startFrame / 64)) := by
  intro r
  have moves := boundaryEntered_moves s
  have keeps := forcedEvent_keeps (c := s.bus.frame) (atStop := true) (s := boundaryEntered s) (site := site) (e := e)
  obtain ⟨id, capture, start, startFrame, _⟩ := keeps
  have survey : (boundaryEntered s).survey = s.survey := moves.survey_eq (by decide)
  have clock : (boundaryEntered s).clock = s.clock := moves.clock_eq (by decide)
  have bus : (boundaryEntered s).bus = s.bus := moves.bus_eq (by decide)
  refine ⟨id, rfl, congrArg Survey.number survey, start, capture, (toldRecord_flags _ _ _ _).1.trans forcedEvent_truncated, ?_,
    fun holds below recoveries new => ?_⟩
  · change (eventFits (boundaryEntered s) && !(boundaryEntered s).clock.valid) = _
    rw [fits, clock]
    rfl
  · have stop : endBoundary s.bus.frame (forcedEvent s.bus.frame true (boundaryEntered s) site e) = s.bus.frame :=
      forced_endBoundary holds below recoveries
    constructor
    · change ((sagSite (boundaryEntered s) site).timeOf (endBoundary s.bus.frame _)).getD (boundaryEntered s).bus.frameTime = _
      rw [stop, boundaryEntered_history shaped hs new]
      rfl
    · change Nat.min 65535 (halfCycles (endBoundary s.bus.frame _) _) = _
      rw [stop, startFrame]
      rfl

theorem Accumulator.of_bare {a b : Accumulator} (h : a.bare = b.bare) : a.n = b.n ∧ a.slot = b.slot ∧
    a.serial = b.serial ∧ a.startTime = b.startTime ∧ a.excluded = b.excluded := by
  have n : a.bare.n = b.bare.n := by rw [h]
  have slot : a.bare.slot = b.bare.slot := by rw [h]
  have serial : a.bare.serial = b.bare.serial := by rw [h]
  have start : a.bare.startTime = b.bare.startTime := by rw [h]
  have excluded : a.bare.excluded = b.bare.excluded := by rw [h]
  exact ⟨n, slot, serial, start, excluded⟩

/-- The end time of the records that a moment's closes make, by the figures before the moment (R110). -/
theorem partialEnd_kept {s u : State} (kept : HarmKept s u) (survey : u.survey = s.survey) (time : ClockTime)
    (site : Nat) : partialEnd u time site =
      (if (harmSite s site).due = true ∨ boundaryReached s time (harmSite s site) = true then
        (harmSite s site).next.getD time else time) := by
  obtain ⟨next, basis, due⟩ := kept.timing site
  have reached : boundaryReached u time (harmSite u site) = boundaryReached s time (harmSite s site) := by
    unfold boundaryReached recording
    rw [next, survey]
  unfold partialEnd boundaryFalls
  rw [reached, due, next]
  exact if_congr (by rw [Bool.or_eq_true]) rfl rfl

/-- R110: the records of the accumulators that close, by the figures before the moment. -/
theorem partialCloses_record {causes : CloseCauses} {time : ClockTime} {fresh : Option Nat} {s u : State}
    (kept : HarmKept s u) (shaped : Shaped u) (survey : u.survey = s.survey) (clock : u.clock = s.clock)
    (up : storeUp u.store = true) (notFull : u.store.state ≠ .full)
    (room : u.store.queue.length + countedWindows s ≤ 16) {site role : Nat} (hs : site < 4) (hr : role < 8)
    {a : Accumulator} (ha : (harmMember s site role).acc = some a) (counted : 0 < a.n) :
    ∃ id r, (⟨.interval, id, .interval id r, false⟩ : QueueItem) ∈ (partialCloses causes time fresh u).store.queue ∧
      r.number = s.survey.number ∧ r.site = site ∧ r.role = roleOf role ∧ r.slot = a.slot ∧
      r.serial = a.serial ∧ r.startTime = a.startTime ∧
      r.endTime = (if (harmSite s site).due = true ∨ boundaryReached s time (harmSite s site) = true then
        (harmSite s site).next.getD time else time) ∧
      r.n = a.n ∧ r.excluded = a.excluded ∧ r.flags.partialClose = true ∧ r.flags.clockUnset = !s.clock.valid := by
  have bare := kept.acc site role
  rw [ha, Option.map_some] at bare
  obtain ⟨a', ha', same⟩ := Option.map_eq_some_iff.1 bare
  obtain ⟨n, slot, serial, start, excluded⟩ := Accumulator.of_bare same
  have mem : (role, a') ∈ countedAt u site allRoles :=
    List.mem_filter.2 ⟨List.mem_filterMap.2 ⟨role, List.mem_range.2 hr, by rw [ha']; rfl⟩,
      decide_eq_true (show 1 ≤ a'.n by rw [n]; exact counted)⟩
  obtain ⟨_, _, _, _, _, records⟩ := partialFold_site (causes := causes) (time := time) (fresh := fresh) (s := u)
    (List.range 4) shaped List.nodup_range (List.mem_range.2 hs) hs
  have roomU : u.store.queue.length + countedOf u (List.range 4) ≤ 16 := by
    rw [countedOf_kept kept]
    exact room
  obtain ⟨id, queued⟩ := records up notFull roomU (role, a') mem
  rw [partialCloses_eq]
  refine ⟨id, _, queued, congrArg Survey.number survey, rfl, rfl, slot, serial, start,
    partialEnd_kept kept survey time site, n, excluded, rfl, ?_⟩
  change (!u.clock.valid) = _
  rw [clock]

/-- R110: the records of the accumulators at a stop boundary. -/
theorem blocksRested_records {s : State} (shaped : Shaped s) (up : storeUp s.store = true)
    (notFull : s.store.state ≠ .full)
    (room : s.store.queue.length + ((List.range 4).countP fun site => (sagSite s site).event.isSome) +
      countedWindows s ≤ 16)
    {site role : Nat} (hs : site < 4) (hr : role < 8) {a : Accumulator}
    (ha : (harmMember s site role).acc = some a) (counted : 0 < a.n) :
    ∃ id r, (⟨.interval, id, .interval id r, false⟩ : QueueItem) ∈ (blocksRested s).store.queue ∧
      r.number = s.survey.number ∧ r.site = site ∧ r.role = roleOf role ∧ r.slot = a.slot ∧
      r.serial = a.serial ∧ r.startTime = a.startTime ∧
      r.endTime = (if (harmSite s site).due = true ∨ boundaryReached s s.bus.frameTime (harmSite s site) = true then
        (harmSite s site).next.getD s.bus.frameTime else s.bus.frameTime) ∧
      r.n = a.n ∧ r.excluded = a.excluded ∧ r.flags.partialClose = true ∧ r.flags.clockUnset = !s.clock.valid := by
  have moves : Moves (only [.capture, .sag, .harm, .store]) s (abandonWindows (eventsStopped s)) :=
    (eventsStopped_moves s).trans (abandonWindows_moves _ (by decide))
  have grows := eventsClosed_grows shaped
  have length := grows.length
  have store : (abandonWindows (eventsStopped s)).store = (eventsStopped s).store := rfl
  have kept := abandoned_kept s
  rw [(blocksRested_rest s).1]
  unfold intervalsStopped
  generalize abandonWindows (eventsStopped s) = u at *
  exact partialCloses_record kept (moves.shaped shaped) (moves.survey_eq (by decide)) (moves.clock_eq (by decide))
    (by rw [storeUp, store, grows.state]; exact up) (by rw [store, grows.state]; exact notFull)
    (by rw [store]; omega) hs hr ha counted

/-! ### The link -/

/-- R104, R80: a stop boundary posts at most one notice of an event and one of its closes for each site. -/
theorem blocksRested_posts (s : State) : PostsAtMost 8 s (blocksRested s) := by
  have entered : PostsAtMost 0 s (boundaryEntered s) := .of_link (boundaryEntered_rest s).2.1
  have closed : PostsAtMost 4 (boundaryEntered s) (eventsClosed s) := by
    unfold eventsClosed
    exact .foldl _ (fun _ _ => forceClose_postsAtMost) allSites _
  have abandoned : PostsAtMost 0 (eventsClosed s) (abandonWindows (eventsStopped s)) := by
    unfold eventsStopped
    exact .of_link rfl
  have partials : PostsAtMost 4 (abandonWindows (eventsStopped s)) (intervalsStopped s) := by
    unfold intervalsStopped
    rw [partialCloses_eq]
    exact partialFold_postsAtMost (List.range 4) _
  have rested : PostsAtMost 0 (intervalsStopped s) (blocksRested s) := .of_link (blocksRested_rest s).2
  exact (((entered.trans closed).trans abandoned).trans partials).trans rested

theorem blocksRested_owed (s : State) : OwedKept s (blocksRested s) := by
  have entered : OwedKept s (boundaryEntered s) := .of_link (boundaryEntered_rest s).2.1
  have closed : OwedKept (boundaryEntered s) (eventsClosed s) := by
    unfold eventsClosed
    exact .foldl _ (fun _ _ => forceClose_owed) allSites _
  have abandoned : OwedKept (eventsClosed s) (abandonWindows (eventsStopped s)) := by
    unfold eventsStopped
    exact .of_link rfl
  have partials : OwedKept (abandonWindows (eventsStopped s)) (intervalsStopped s) := by
    unfold intervalsStopped
    rw [partialCloses_eq]
    exact partialFold_owed (List.range 4) _
  have rested : OwedKept (intervalsStopped s) (blocksRested s) := .of_link (blocksRested_rest s).2
  exact (((entered.trans closed).trans abandoned).trans partials).trans rested

/-! ### The survey and the answer -/

/-- The survey state that a stop leads to. -/
def stopState (change : Change) : SurveyState := if change = .stopEnd then .ended else .held

/-- Its cause of HELD. -/
def stopCause : Change → Option HoldCause
  | .stopEnd => none
  | .stopSupply => some .supply
  | _ => some .linkRequest

theorem surveyStopped_eq {change : Change} (ho : change ≠ .start) (s : State) : surveyStopped change s =
    enterSurvey (stopState change) (stopCause change) (blocksRested s).bus.frame (blocksRested s).bus.frameTime
      (changeTaken (blocksRested s)) := by
  unfold surveyStopped
  cases change with
  | start => exact absurd rfl ho
  | _ => rfl

theorem answerStop_only (s : State) : answerStop s = { s with link := (answerStop s).link } := by
  unfold answerStop
  split
  · split <;> rfl
  · rfl

theorem answerStop_waits {s : State} {kind : Nat} {tag : Byte} {clamped : Bool}
    (h : s.link.current = some ⟨kind, tag, clamped⟩) (k : kind = 0x0D ∨ kind = 0x0F) :
    answerStop s = answer .ok .empty s := by
  unfold answerStop
  rw [h]
  exact if_pos k

theorem answerStop_other {s : State} (h : ∀ c, s.link.current = some c → c.kind ≠ 0x0D ∧ c.kind ≠ 0x0F) :
    answerStop s = s := by
  unfold answerStop
  split
  · next c hc => exact if_neg (not_or.2 (h c hc))
  · rfl

theorem answerStop_notices {s : State} (h : Sends s.link) : (answerStop s).link.notices = s.link.notices := by
  have answered : (answer .ok .empty s).link.notices = s.link.notices := by
    change (s.link.answer .ok .empty).notices = _
    unfold Link.answer
    split
    · rw [startTransmit_of_sends (by exact h.busy)]
    · rfl
  unfold answerStop
  split
  · split
    · exact answered
    · rfl
  · rfl

/-! ### The stop boundary -/

theorem truncateSlot_state {s : State} {c : Nat} {slot : CaptureSlot} (h : (truncateSlot s c slot).site.isSome) :
    (truncateSlot s c slot).state ≠ .filling := by
  by_cases filling : slot.state = .filling
  · cases site : slot.site with
    | none =>
      have same : truncateSlot s c slot = slot := by
        unfold truncateSlot
        rw [filling, site]
      rw [same, site] at h
      exact absurd h Bool.false_ne_true
    | some site' =>
      have cut := (truncateSlot_filling (s := s) (c := c) filling site).1
      rw [cut]
      exact nofun
  · rwa [truncateSlot_other filling]

/-- What a stop boundary leaves, block by block. -/
theorem stopBoundary_blocks {change : Change} {s : State} (hc : s.survey.change = some change)
    (ho : change ≠ .start) (hd : s.survey.changeDue = true) :
    (stopBoundary s).survey = (surveyStopped change s).survey ∧
      (stopBoundary s).sag = (blocksRested s).sag ∧ (stopBoundary s).harm = (blocksRested s).harm ∧
      (stopBoundary s).capture = (truncateCaptures s.bus.frame (eventsClosed s)).capture ∧
      (stopBoundary s).store.queue = (surveyStopped change s).store.queue ∧
      (stopBoundary s).link = (answerStop (surveyStopped change s)).link := by
  have stopped := surveyStopped_moves change s
  have capture : (surveyStopped change s).capture = (truncateCaptures s.bus.frame (eventsClosed s)).capture := by
    have same : (eventsStopped s).capture = (truncateCaptures s.bus.frame (eventsClosed s)).capture := by
      unfold eventsStopped
      rfl
    rw [← same, stopped.capture_eq (by decide), (blocksRested_moves s).capture_eq (by decide),
      (intervalsStopped_moves s).capture_eq (by decide)]
  have sag : (surveyStopped change s).sag = (blocksRested s).sag := stopped.sag_eq (by decide)
  have harm : (surveyStopped change s).harm = (blocksRested s).harm := stopped.harm_eq (by decide)
  rw [stopBoundary_due hc ho hd, ← sag, ← harm, ← capture]
  generalize surveyStopped change s = v
  rw [answerStop_only v]
  exact ⟨rfl, rfl, rfl, rfl, (next_keeps _).queue, rfl⟩

theorem boundary_survey {s : State} : (blocksRested s).survey = s.survey ∧ (blocksRested s).sites = s.sites ∧
    (blocksRested s).clock = s.clock ∧ (blocksRested s).bus = s.bus := by
  have moves : Moves (only [.capture, .sag, .harm, .store]) s (blocksRested s) :=
    ((eventsStopped_moves s).trans ((intervalsStopped_moves s).mono (by decide))).trans
      ((blocksRested_moves s).mono (by decide))
  exact ⟨moves.survey_eq (by decide), moves.sites_eq (by decide), moves.clock_eq (by decide), moves.bus_eq (by decide)⟩

theorem blocksRested_grows {s : State} (shaped : Shaped s) :
    QueueGrows (((List.range 4).countP fun site => (sagSite s site).event.isSome) + countedWindows s) s
      (blocksRested s) :=
  (eventsClosed_grows shaped).trans (intervalsStopped_grows s)

/-- The SURVEY record that a stop makes is that of the state before the boundary (R56). -/
theorem recordEntering_stopped {s : State} (shaped : Shaped s) (new : SurveyState) (cause : Option HoldCause) :
    recordEntering new cause (changeTaken (blocksRested s)) = recordEntering new cause s := by
  obtain ⟨survey, sites, clock, _⟩ := boundary_survey (s := s)
  have mode := (blocksRested_grows shaped).mode
  have surveyT : (changeTaken (blocksRested s)).survey = { s.survey with change := none, changeDue := false } := by
    rw [← survey]
    rfl
  have rest : (changeTaken (blocksRested s)).sites = s.sites ∧ (changeTaken (blocksRested s)).clock = s.clock ∧
      (changeTaken (blocksRested s)).store.mode = s.store.mode := ⟨sites, clock, mode⟩
  unfold recordEntering
  rw [surveyT, rest.1, rest.2.1, rest.2.2]

section
variable {change : Change} {s : State} (shaped : Shaped s) (ho : change ≠ .start)
include shaped ho

/-- R56: the survey after a stop, and its record. -/
theorem surveyStopped_record :
    let r := recordEntering (stopState change) (stopCause change) s
    let up := s.store.state ≠ .mounting ∧ s.store.state ≠ .wiping
    let q := (blocksRested s).store.queue
    (surveyStopped change s).survey =
      { s.survey with
        change := none, changeDue := false, state := some (stopState change), cause := stopCause change
        place := if up ∧ q.length < 16 then none else some r } ∧
    q <+: (surveyStopped change s).store.queue ∧
    (up → q.length < 16 → ⟨.survey, s.store.nextIds.survey, .survey r, false⟩ ∈ (surveyStopped change s).store.queue) := by
  intro r up q
  obtain ⟨surveyB, _, clockB, busB⟩ := boundary_survey (s := s)
  have grows := blocksRested_grows shaped
  obtain ⟨record, queued, waits⟩ := enterSurvey_record (stopState change) (stopCause change) (blocksRested s).bus.frame
    (blocksRested s).bus.frameTime (changeTaken (blocksRested s))
  have before : (changeTaken (blocksRested s)).survey = { s.survey with change := none, changeDue := false } := by
    rw [← surveyB]
    rfl
  have storeC : (changeTaken (blocksRested s)).store = (blocksRested s).store := rfl
  rw [← surveyStopped_eq ho, recordEntering_stopped shaped, before, storeC, grows.state] at record
  rw [← surveyStopped_eq ho, recordEntering_stopped shaped, storeC, grows.state, grows.survey] at queued
  rw [← surveyStopped_eq ho, storeC, grows.state] at waits
  refine ⟨record, ?_, fun isup room => ?_⟩
  · by_cases goes : up ∧ q.length < 16
    · rw [(queued goes.1 goes.2).1]
      exact List.prefix_append _ _
    · rw [(waits ((not_and_or.1 goes).imp_right Nat.le_of_not_lt)).1]
  · rw [(queued isup room).1]
    exact List.mem_append_right _ (List.mem_singleton.2 rfl)

omit shaped in
/-- R48: the link after a stop. -/
theorem surveyStopped_link : (surveyStopped change s).link =
    (post (.surveyState s.survey.number (stopState change) s.survey.state (stopCause change) s.bus.frame s.bus.frameTime
      none) (changeTaken (blocksRested s))).link := by
  obtain ⟨surveyB, _, _, busB⟩ := boundary_survey (s := s)
  have entersLink := enterSurvey_link (stopState change) (stopCause change) (blocksRested s).bus.frame
    (blocksRested s).bus.frameTime (changeTaken (blocksRested s))
  have before : (changeTaken (blocksRested s)).survey = { s.survey with change := none, changeDue := false } := by
    rw [← surveyB]
    rfl
  rw [← surveyStopped_eq ho, before, busB] at entersLink
  exact entersLink

omit shaped in
/-- The notice that a stop posts (R48). -/
theorem surveyStopped_told (sending : s.link.sending.isSome = true) (unowed : s.link.owed = none)
    (mask : s.link.mask.getLsbD 5 = true) (room : s.link.notices.length ≤ 23) :
    ⟨.surveyState s.survey.number (stopState change) s.survey.state (stopCause change) s.bus.frame s.bus.frameTime none,
      s.clock.time⟩ ∈ (answerStop (surveyStopped change s)).link.notices := by
  have sends : Sends s.link := ⟨sending, unowed⟩
  obtain ⟨appends, length⟩ := blocksRested_posts s sends
  have linkC : (changeTaken (blocksRested s)).link = (blocksRested s).link := rfl
  have clockC : (changeTaken (blocksRested s)).clock = s.clock := (boundary_survey (s := s)).2.2.1
  have sendsC : Sends (changeTaken (blocksRested s)).link := linkC ▸ appends.sends sends
  have link := surveyStopped_link (s := s) ho
  have sendsV : Sends (surveyStopped change s).link := link ▸ (post_appends _ sendsC).sends sendsC
  rw [answerStop_notices sendsV, link, post_mem sendsC (by rw [linkC, appends.mask]; exact mask)
    (by rw [linkC]; exact Nat.lt_of_le_of_lt length (by show _ < 32; omega)), clockC]
  exact List.mem_append_right _ (List.mem_singleton.2 rfl)

omit shaped in
/-- R52, R54: the request that waits for a stop is answered, and no other. -/
theorem surveyStopped_answers (unowed : s.link.owed = none) {kind : Nat} {tag : Byte} {clamped : Bool}
    (current : s.link.current = some ⟨kind, tag, clamped⟩) :
    (kind = 0x0D ∨ kind = 0x0F → (answerStop (surveyStopped change s)).link.current = none ∧
      (s.link.sending.isSome = true →
        (answerStop (surveyStopped change s)).link.reply = some ⟨kind + 128, tag, .ok, .empty⟩)) ∧
    (kind ≠ 0x0D → kind ≠ 0x0F → (answerStop (surveyStopped change s)).link.current = s.link.current) := by
  have due : s.link.noticeResetDue = false := by simp [Link.noticeResetDue, unowed]
  have linkC : (changeTaken (blocksRested s)).link = (blocksRested s).link := rfl
  have link := surveyStopped_link (s := s) ho
  have owed : OwedKept s (surveyStopped change s) :=
    (blocksRested_owed s).trans ((OwedKept.of_link linkC).trans ((post_owed _ _).trans (.of_link link)))
  have currentV : (surveyStopped change s).link.current = some ⟨kind, tag, clamped⟩ := (owed due).2.trans current
  refine ⟨fun waits => ?_, fun no no' => ?_⟩
  · rw [answerStop_waits currentV waits]
    refine ⟨linkAnswer_current _ _ _, fun sending => ?_⟩
    have sends : Sends s.link := ⟨sending, unowed⟩
    have sendsC : Sends (changeTaken (blocksRested s)).link := linkC ▸ (blocksRested_posts s sends).1.sends sends
    have sendsV : Sends (surveyStopped change s).link := link ▸ (post_appends _ sendsC).sends sendsC
    refine (linkAnswer_reply currentV sendsV.busy).trans ?_
    rcases waits with rfl | rfl <;> rfl
  · rw [answerStop_other fun c hc => by
      obtain rfl := Option.some.inj (hc.symm.trans currentV)
      exact ⟨no, no'⟩]
    exact currentV.trans current.symm

end

/-- Settles O42. -/
theorem stopBoundaryEndsTheRun : Obligations.StopBoundaryEndsTheRun := by
  unfold Obligations.StopBoundaryEndsTheRun
  intro change s q shaped hc ho hd
  obtain ⟨survey, sag, harm, capture, queue, link⟩ := stopBoundary_blocks hc ho hd
  have moves : Moves (only [.survey, .sag, .harm, .store, .capture]) s (stopBoundary s) :=
    stopBoundary_moves s (by decide) (by decide) (by decide) (by decide) (by decide)
  obtain ⟨surveyT, kept, entered⟩ := surveyStopped_record shaped ho
  rw [← survey] at surveyT
  rw [← queue] at kept entered
  have grows := blocksRested_grows shaped
  have length := grows.length
  have cause : (stopBoundary s).survey.cause = stopCause change := by rw [surveyT]
  have executed : exec .stopBoundary s = _ := (congrFun (exec_event rfl) s).trans (event_of_moves (P := anyPart)
    (stopBoundary_moves s trivial trivial trivial trivial trivial) q)
  generalize stopBoundary s = t at *
  refine ⟨t, executed, by rw [surveyT]; rfl, cause.trans (by cases change <;> rfl), by rw [surveyT],
    by rw [surveyT], by rw [surveyT], by rw [surveyT], fun site hs => ?site, ?closed,
    ⟨fun site e hs he up notFull room => ?event, fun site role a hs hr ha counted up notFull room => ?interval, ⟨?record, ?pending, ?told⟩,
      fun unowed kind tag clamped current => ?waiting, ?captures⟩,
    moves.sites_eq (by decide), moves.roster_eq (by decide), moves.tracker_eq (by decide), moves.bus_eq (by decide),
    moves.array_eq (by decide)⟩
  case site =>
    have sites : sagSite t site = sagSite (blocksRested s) site := by rw [sagSite, sag]; rfl
    have rested := blocksRested_site shaped hs
    have figures := blocksRested_harmSite shaped hs
    have harmSites : harmSite t site = harmSite (blocksRested s) site := by rw [harmSite, harm]; rfl
    rw [sites, harmSites]
    refine ⟨by rw [rested]; rfl, fun role hr => ?_, by rw [figures], by rw [figures], fun role hr => ?_⟩
    · rw [channelOf_of_sag sag, blocksRested_channel shaped hs hr]
      exact ⟨rfl, rfl, rfl⟩
    · have member : harmMember t site role = harmMember (intervalsStopped s) site role :=
        harmMember_of_members (by rw [harmSites, figures]) role
      rw [member]
      exact intervalsStopped_member shaped hs hr
  case closed =>
    intro c mem
    rw [capture] at mem
    obtain ⟨slot, _, rfl⟩ := List.mem_map.1 mem
    exact truncateSlot_state
  case event =>
    obtain ⟨fits, mem⟩ := eventsStopped_records shaped ((storeUp_iff _).2 up) notFull room hs he
    exact ⟨_, kept.subset ((intervalsStopped_grows s).queue.subset mem), eventsStopped_record shaped hs e fits⟩
  case interval =>
    obtain ⟨id, r, mem, figures⟩ := blocksRested_records shaped ((storeUp_iff _).2 up) notFull room hs hr ha counted
    exact ⟨id, r, kept.subset mem, figures⟩
  case record =>
    rw [cause]
    intro up room
    have fits : (blocksRested s).store.queue.length < 16 := by
      refine Nat.lt_of_le_of_lt length ?_
      rw [← Nat.add_assoc]
      exact room
    refine ⟨entered up fits, ?_⟩
    rw [surveyT]
    exact if_pos ⟨up, fits⟩
  case pending =>
    rw [cause]
    intro waits
    rw [surveyT]
    refine if_neg ?_
    rintro ⟨up, room⟩
    exact waits.elim (· up) fun full => absurd (full.trans grows.queue.length_le) (Nat.not_le.2 room)
  case told =>
    rw [cause, link]
    exact surveyStopped_told ho
  case waiting =>
    rw [link]
    exact surveyStopped_answers ho unowed current
  case captures =>
    intro i site hi filling hsite others
    have ends : CapturesEndAt s.bus.frame s t := by
      refine capturesEndAt_forced (atStop := true) (u := boundaryEntered s) ((boundaryEntered_moves s).shaped shaped)
        ((boundaryEntered_moves s).sites_eq (by decide)) (boundaryEntered_rest s).1 (boundaryEntered_event shaped) ?_
      rw [capture]
      unfold eventsClosed
      rfl
    refine ends.2 i site hi filling hsite fun other hne named => ?_
    obtain ⟨e, p, below, he, hp, same⟩ := named
    exact others other e p below hne he hp same

end Sys2Proof.Machine
end

