-- ==== Sys2Proof/Proofs/AcqResets.lean ====
section
/-!
PROOFS. The ACQ reset (R2, R12, R37, R47, R77, R91, R98, R110, R115), block by block.
-/

namespace Sys2Proof.Machine

/-! ### The notices of a link that owes no NOTICE reset -/

/-- The transmitter sends, and no NOTICE reset is due. -/
structure Undue (l : Link) : Prop where
  busy : l.sending.isSome = true
  due : l.noticeResetDue = false

/-- From `s` to `t` a link that owes no NOTICE reset is told at most `n` notices. -/
def Tells (n : Nat) (s t : State) : Prop :=
  Undue s.link → Undue t.link ∧ t.link.mask = s.link.mask ∧ s.link.notices <+: t.link.notices ∧
    t.link.notices.length ≤ s.link.notices.length + n

namespace Tells
variable {m n : Nat} {s t u : State}

theorem of_link (h : t.link = s.link) : Tells n s t := fun undue => by
  rw [h]
  exact ⟨undue, rfl, List.prefix_refl _, Nat.le_add_right _ _⟩

theorem trans (h : Tells m s t) (k : Tells n t u) : Tells (m + n) s u := fun undue => by
  obtain ⟨undue', mask, kept, length⟩ := h undue
  obtain ⟨undue'', mask', kept', length'⟩ := k undue'
  exact ⟨undue'', mask'.trans mask, kept.trans kept', by omega⟩

theorem mono (h : Tells m s t) (k : m ≤ n) : Tells n s t := fun undue => by
  obtain ⟨undue', mask, kept, length⟩ := h undue
  exact ⟨undue', mask, kept, by omega⟩

theorem foldl {α : Type} (f : State → α → State) (hf : ∀ s a, Tells n s (f s a)) (xs : List α) :
    ∀ s, Tells (xs.length * n) s (xs.foldl f s) := by
  induction xs with
  | nil => exact fun s => .of_link rfl
  | cons x xs ih => exact fun s => ((hf s x).trans (ih _)).mono (by rw [List.length_cons, Nat.succ_mul, Nat.add_comm])

end Tells

theorem post_offers (b : NoticeBody) {s : State} (h : Undue s.link) :
    (post b s).link = s.link.offerNotice ⟨b, s.clock.time⟩ := by
  have same : s.link.noticeReset = s.link := if_neg (by rw [h.due]; exact Bool.false_ne_true)
  change s.link.noticeReset.offerNotice _ = _
  rw [same]

theorem post_tells (b : NoticeBody) (s : State) : Tells 1 s (post b s) := fun undue => by
  rw [post_offers b undue]
  unfold Link.offerNotice
  split
  · exact ⟨undue, rfl, List.prefix_refl _, Nat.le_succ _⟩
  · split
    · rw [startTransmit_of_sends (l := { s.link with notices := s.link.notices ++ _ }) undue.busy]
      exact ⟨⟨undue.busy, undue.due⟩, rfl, List.prefix_append _ _, Nat.le_of_eq List.length_append⟩
    · exact ⟨⟨undue.busy, undue.due⟩, rfl, List.prefix_refl _, Nat.le_succ _⟩

theorem postWhen_tells (c : Bool) (b : NoticeBody) (s : State) : Tells 1 s (postWhen c b s) := by
  unfold postWhen
  split
  · exact post_tells b s
  · exact .of_link rfl

theorem post_told {b : NoticeBody} {s : State} (h : Undue s.link) (mask : s.link.mask.getLsbD b.code = true)
    (room : s.link.notices.length < 32) : ⟨b, s.clock.time⟩ ∈ (post b s).link.notices := by
  have fits : s.link.notices.length < Config.noticePlaces := room
  rw [post_offers b h]
  simp only [Link.offerNotice, mask, Bool.not_true, Bool.false_eq_true, if_false, if_pos fits]
  rw [startTransmit_of_sends (l := { s.link with notices := s.link.notices ++ _ }) h.busy]
  exact List.mem_append_right _ (List.mem_singleton.2 rfl)

/-! ### What the frame before leaves -/

/-- The figures of the sample NCO. -/
structure StrobeKept (s t : State) : Prop where
  nco : t.tracker.nco = s.tracker.nco
  kMoved : t.tracker.kMoved = s.tracker.kMoved
  boundaryK : t.tracker.boundaryK = s.tracker.boundaryK
  k : t.tracker.k = s.tracker.k

theorem StrobeKept.of_tracker {s t : State} (h : t.tracker = s.tracker) : StrobeKept s t :=
  ⟨by rw [h], by rw [h], by rw [h], by rw [h]⟩

theorem StrobeKept.trans {s t u : State} (h : StrobeKept s t) (k : StrobeKept t u) : StrobeKept s u :=
  ⟨k.nco.trans h.nco, k.kMoved.trans h.kMoved, k.boundaryK.trans h.boundaryK, k.k.trans h.k⟩

theorem noCrossingTimeout_strobe (s : State) : StrobeKept s (noCrossingTimeout s) := by
  unfold noCrossingTimeout
  split
  · unfold enterHoldover postTrack postWhen
    dsimp only
    split <;> exact ⟨rfl, rfl, rfl, rfl⟩
  · exact .of_tracker rfl

/-- The end of the frame before moves nothing of the tracker but at the timeout. -/
theorem frameEndWork_strobe (s : State) : StrobeKept s (frameEndWork s) := by
  have windows : (windowsEnd s).tracker = s.tracker :=
    (windowsEnd_moves (P := only [.harm]) s (by decide)).tracker_eq (by decide)
  have after : Moves (only [.capture, .roster, .sites, .sag, .harm, .rotation]) (noCrossingTimeout (windowsEnd s))
      (frameEndWork s) :=
    .trans (.trans (capturesEnd_moves _ (by decide))
      (stuckEnd_moves _ (by decide) (by decide) (by decide) (by decide) (by decide)))
      (lostEnd_moves _ (by decide) (by decide) (by decide) (by decide) (by decide))
  exact ((StrobeKept.of_tracker windows).trans (noCrossingTimeout_strobe _)).trans
    (.of_tracker (after.tracker_eq (by decide)))

/-- A site with every member inactive (R47). -/
def Site.rested (e : Site) : Site :=
  { e with members := e.members.map fun m => m.map fun m => { m with active := false } }

theorem updateAt_map {α β : Type} (f : α → α) (g : α → β) (h : ∀ x, g (f x) = g x) : ∀ (i : Nat) (xs : List α),
    (updateAt f i xs).map g = xs.map g
  | _, [] => by rw [updateAt]
  | 0, x :: xs => by rw [updateAt, List.map_cons, h, List.map_cons]
  | i + 1, x :: xs => by rw [updateAt, List.map_cons, updateAt_map f g h i xs, List.map_cons]

theorem leaveService_rested (slot : Nat) (s : State) :
    (leaveService slot s).sites.map Site.rested = s.sites.map Site.rested := by
  unfold leaveService
  split
  · next site role _ =>
    have refreshed := (refreshRotation_moves (P := only [.rotation]) (harmLeave site role (sagLeave site role
      (modifyMember (Option.map fun m => { m with active := false }) site role s))) site (by decide)).sites_eq (by decide)
    have left : (harmLeave site role (sagLeave site role
        (modifyMember (Option.map fun m => { m with active := false }) site role s))).sites =
        (modifyMember (Option.map fun m => { m with active := false }) site role s).sites := by
      unfold sagLeave
      split <;> rfl
    dsimp only
    rw [refreshed, left]
    refine updateAt_map _ _ (fun e => ?_) _ _
    refine congrArg (fun members => { e with members := members }) (updateAt_map _ _ (fun m => ?_) _ _)
    cases m <;> rfl
  · rfl

theorem frameEndWork_rested (s : State) :
    (frameEndWork s).sites.map Site.rested = s.sites.map Site.rested := by
  have fold : ∀ (f : Nat → State → State), (∀ slot u, (f slot u).sites.map Site.rested = u.sites.map Site.rested) →
      ∀ (slots : List Nat) (u : State),
        (slots.foldl (fun s slot => f slot s) u).sites.map Site.rested = u.sites.map Site.rested := by
    intro f hf slots
    induction slots with
    | nil => exact fun _ => rfl
    | cons slot slots ih => exact fun u => (ih _).trans (hf slot u)
  have stuck : ∀ slot u, (podStuck slot u).sites.map Site.rested = u.sites.map Site.rested := fun slot u => by
    unfold podStuck
    split
    · exact leaveService_rested _ _
    · rfl
  have lost : ∀ slot u, (podLost slot u).sites.map Site.rested = u.sites.map Site.rested := fun slot u => by
    unfold podLost
    split
    · exact leaveService_rested _ _
    · rfl
  have before : Moves (only [.capture, .tracker, .harm]) s (capturesEnd (noCrossingTimeout (windowsEnd s))) :=
    .trans (.trans (windowsEnd_moves s (by decide)) (noCrossingTimeout_moves _ (by decide))) (capturesEnd_moves _ (by decide))
  unfold frameEndWork lostEnd stuckEnd
  rw [fold podLost lost, fold podStuck stuck, before.sites_eq (by decide)]

theorem refreshRotation_owed (s : State) (site : Nat) : OwedKept s (refreshRotation s site) := by
  unfold refreshRotation
  dsimp only
  split
  · exact .of_link rfl
  · exact (OwedKept.of_link (t := setRotation site _ s) rfl).trans (postWhen_owed _ _ _)

theorem leaveService_owed (slot : Nat) (s : State) : OwedKept s (leaveService slot s) := by
  unfold leaveService
  split
  · next site role _ =>
    have left : (harmLeave site role (sagLeave site role
        (modifyMember (Option.map fun m => { m with active := false }) site role s))).link = s.link := by
      unfold sagLeave
      split <;> rfl
    exact (OwedKept.of_link left).trans (refreshRotation_owed _ _)
  · exact .of_link rfl

theorem windowComplete_link (site role : Nat) (s : State) : (windowComplete site role s).link = s.link := by
  unfold windowComplete
  dsimp only
  split
  · split <;> rfl
  · rfl

theorem noCrossingTimeout_owed (s : State) : OwedKept s (noCrossingTimeout s) := by
  have told : ∀ u, OwedKept u (postTrack .locked .noCrossing u) := fun u => postWhen_owed _ _ _
  unfold noCrossingTimeout enterHoldover
  split
  · exact ((OwedKept.of_link (s := s) (t := setTracker _ s) rfl).trans (told _)).trans (.of_link rfl)
  · exact .of_link rfl

theorem podStuck_owed (slot : Nat) (s : State) : OwedKept s (podStuck slot s) := by
  unfold podStuck
  split
  · exact ((OwedKept.of_link (t := modifyEntry _ slot s) rfl).trans (post_owed _ _)).trans (leaveService_owed _ _)
  · exact .of_link rfl

theorem podLost_owed (slot : Nat) (s : State) : OwedKept s (podLost slot s) := by
  unfold podLost
  split
  · exact ((OwedKept.of_link (t := modifyEntry _ slot s) rfl).trans (post_owed _ _)).trans (leaveService_owed _ _)
  · exact .of_link rfl

theorem frameEndWork_owed (s : State) : OwedKept s (frameEndWork s) := by
  have windows : ∀ u, OwedKept u (windowsEnd u) := fun u => by
    unfold windowsEnd
    exact .foldl _ (fun u p => .of_link (windowComplete_link _ _ u)) allPositions u
  have captures : ∀ u, OwedKept u (capturesEnd u) := fun u => by
    unfold capturesEnd
    generalize List.range 12 = slots
    exact .foldl (fun s i => captureComplete i s) (fun u i => .of_link rfl) slots u
  have stuck : ∀ u, OwedKept u (stuckEnd u) := fun u => by
    unfold stuckEnd
    exact .foldl _ (fun u slot => podStuck_owed slot u) allSlots u
  have lost : ∀ u, OwedKept u (lostEnd u) := fun u => by
    unfold lostEnd
    exact .foldl _ (fun u slot => podLost_owed slot u) allSlots u
  unfold frameEndWork
  exact ((((windows _).trans (noCrossingTimeout_owed _)).trans (captures _)).trans (stuck _)).trans (lost _)

/-! ### The blocks of an ACQ reset, in turn -/

/-- The open events close. -/
@[irreducible] def acqClosed (s : State) : State := sagAcqCloses s

/-- Then the captures end and the rings are emptied. -/
@[irreducible] def acqCaptured (s : State) : State :=
  emptyRings (truncateCaptures (s.sag.lastBoundary.getD 0) (acqClosed s))

/-- Then the windows are abandoned and the accumulators close. -/
@[irreducible] def acqIntervals (s : State) : State :=
  if recording (abandonWindows (acqCaptured s)) then
    partialCloses { acqReset := true } (abandonWindows (acqCaptured s)).clock.time (some 0)
      (nextMoment (abandonWindows (acqCaptured s)))
  else abandonWindows (acqCaptured s)

/-- The engine without marks and latest results. -/
@[irreducible] def resultsCleared (s : State) : State :=
  { s with harm := { s.harm with
      sites := s.harm.sites.map fun h =>
        { h with mark := none, members := h.members.map fun x => { x with latest := none } } } }

/-- Then the channels, the bus, the roster and the members are reset. -/
@[irreducible] def acqQuieted (s : State) : State :=
  membersInactive (busReset (sagAcqReset (resultsCleared (acqIntervals s))))

theorem acqBlocks_eq (s : State) : acqBlocks s = storeNext (trackerAcqReset (acqQuieted s)) := by
  unfold acqQuieted resultsCleared acqIntervals acqCaptured acqClosed
  rfl

theorem acqClosed_moves (s : State) : Moves (only [.capture, .sag, .harm, .store]) s (acqClosed s) := by
  unfold acqClosed
  exact forceFold_moves _ _

theorem acqCaptured_moves (s : State) : Moves (only [.capture, .sag, .harm, .store]) s (acqCaptured s) := by
  unfold acqCaptured
  exact .trans (.trans (acqClosed_moves s) (truncateCaptures_moves _ _ (by decide))) (emptyRings_moves _ (by decide))

theorem acqIntervals_moves (s : State) : Moves (only [.harm, .store]) (acqCaptured s) (acqIntervals s) := by
  unfold acqIntervals
  refine .trans (abandonWindows_moves _ (by decide)) (.ite ?_ (.refl _))
  exact .trans (nextMoment_moves _ (by decide)) (partialCloses_moves _ _ _ _ (by decide) (by decide))

theorem resultsCleared_moves (s : State) : Moves (only [.harm]) s (resultsCleared s) := by
  unfold resultsCleared
  exact setHarm_moves _ _ (harmShape_map _ rfl fun _ => List.length_map _) (by decide)

theorem acqQuieted_moves (s : State) :
    Moves (only [.harm, .sag, .bus, .roster, .receive, .sites]) (acqIntervals s) (acqQuieted s) := by
  unfold acqQuieted
  exact .trans (.trans (.trans ((resultsCleared_moves _).mono (by decide)) (sagAcqReset_moves _ (by decide)))
    (busReset_moves _ (by decide) (by decide) (by decide))) (membersInactive_moves _ (by decide))

theorem trackerAcq_moves (s : State) : Moves (only [.tracker, .rotation, .store]) (acqQuieted s) (acqBlocks s) := by
  rw [acqBlocks_eq]
  exact .trans (trackerAcqReset_moves _ (by decide) (by decide)) (storeNext_moves _ (by decide))

/-! ### The engine -/

/-- The accumulators of a site that count as empty. -/
theorem emptyAt_length (s : State) (site : Nat) (roles : List Nat) :
    emptyAt s site roles = roles.countP fun role => (harmMember s site role).acc.any fun a => a.n == 0 := by
  induction roles with
  | nil => rfl
  | cons role roles ih =>
    rw [emptyAt] at ih ⊢
    rw [List.countP_cons]
    cases h : (harmMember s site role).acc with
    | none =>
      rw [closingAt_none h, ih]
      rfl
    | some a =>
      rw [closingAt_some h, List.countP_cons, ih]
      rfl

theorem emptyAt_kept {s t : State} (h : HarmKept s t) (site : Nat) :
    emptyAt t site allRoles = (List.range 8).countP fun role => (harmMember s site role).acc.any fun a => a.n == 0 := by
  have bare : ∀ o : Option Accumulator, (o.map Accumulator.bare).any (fun a => a.n == 0) = o.any fun a => a.n == 0 :=
    fun o => by cases o <;> rfl
  refine (emptyAt_length t site allRoles).trans ?_
  exact List.countP_congr fun role _ => by rw [← bare, h.acc, bare]

/-- R110: what the closes of a reset leave of a site, by the figures before the moment. -/
theorem partialCloses_site {causes : CloseCauses} {time : ClockTime} {frame : Nat} {s v : State}
    (kept : HarmKept s v) (shaped : Shaped v) (survey : v.survey = s.survey) (sites : v.sites = s.sites) {site : Nat}
    (hs : site < 4) :
    let t := partialCloses causes time (some frame) v
    let h := harmSite s site
    let due := h.due = true ∨ boundaryReached s time h = true
    (∀ role, role < 8 → (harmMember t site role).window = (harmMember v site role).window ∧
      (harmMember t site role).acc = (harmMember s site role).acc.bind fun _ => (memberOf s site role).map fun m =>
        newAccumulator m (siteOf s site).settings.hmax (if due then h.next.getD time else time) frame
          (harmSite v site).mark.isSome) ∧
    (harmSite t site).basis = h.basis ∧ (¬due → (harmSite t site).next = h.next) ∧
    (h.empty ≤ max32 → (harmSite t site).empty = Nat.min max32 (h.empty +
      (List.range 8).countP fun role => (harmMember s site role).acc.any fun a => a.n == 0)) := by
  intro t h due
  obtain ⟨next, basis, dueKept⟩ := kept.timing site
  obtain ⟨members, _, basisT, nextT, emptyT, _⟩ := partialFold_site (causes := causes) (time := time)
    (fresh := some frame) (s := v) (List.range 4) shaped List.nodup_range (List.mem_range.2 hs) hs
  have endTime := partialEnd_kept kept survey time site
  refine ⟨fun role hr => ?_, basisT.trans basis, fun waits => (nextT ?_).trans next, fun below => ?_⟩
  · obtain ⟨window, _, acc⟩ := members role hr
    refine ⟨window, acc.trans ?_⟩
    have fresh : freshFor v site role (partialClosing v time (some frame) site) = (memberOf s site role).map fun m =>
        newAccumulator m (siteOf s site).settings.hmax (partialEnd v time site) frame (harmSite v site).mark.isSome := by
      unfold freshFor partialClosing
      rw [memberOf_of_sites sites, siteOf_eq_of_sites sites]
      cases memberOf s site role <;> rfl
    have some_ := kept.acc site role
    rw [fresh, endTime]
    cases hv : (harmMember v site role).acc with
    | none =>
      rw [hv] at some_
      rw [Option.map_eq_none_iff.1 some_.symm, Option.bind_none]
    | some a =>
      rw [hv] at some_
      obtain ⟨b, hb, _⟩ := Option.map_eq_some_iff.1 some_.symm
      rw [hb, Option.bind_some, Option.bind_some]
  · have reached : boundaryReached v time (harmSite v site) = boundaryReached s time h := by
      unfold boundaryReached recording
      rw [next, survey]
    unfold boundaryFalls
    rw [dueKept, reached]
    exact Bool.eq_false_iff.2 fun k => waits ((Bool.or_eq_true _ _).mp k)
  · rw [show (harmSite t site).empty = _ from emptyT, emptyAt_kept kept, kept.empty, satInc_iterate below]

/-- R107: a forced close clears the site's mark. -/
theorem forceClose_mark {c : Nat} {atStop : Bool} {s : State} {site i : Nat} (inside : i < s.harm.sites.length) :
    (harmSite (forceClose c atStop s site) i).mark =
      if i = site ∧ (sagSite s site).event.isSome = true then none else (harmSite s i).mark := by
  cases h : (sagSite s site).event with
  | none =>
    rw [forceClose_none h, if_neg fun k => absurd k.2 Bool.false_ne_true]
  | some e =>
    have harm := (closeEvent_parts site c (forcedSpan c atStop) (forcedEvent c atStop s site e) s).2.2
    rw [forceClose_some h, harmSite, harm]
    by_cases here : i = site
    · subst here
      rw [if_pos ⟨rfl, rfl⟩]
      exact congrArg HarmSite.mark (harmSite_modifyHarm _ _ _ inside)
    · rw [if_neg fun k => here k.1]
      exact congrArg HarmSite.mark (harmSite_modifyHarm_other _ _ _ _ here)

theorem forceFold_mark {c : Nat} {atStop : Bool} (sites : List Nat) : ∀ s : State, Shaped s → sites.Nodup → ∀ {i : Nat},
    i < 4 → (harmSite (sites.foldl (forceClose c atStop) s) i).mark =
      if i ∈ sites ∧ (sagSite s i).event.isSome = true then none else (harmSite s i).mark := by
  induction sites with
  | nil => exact fun s _ _ i _ => (if_neg fun k => absurd k.1 List.not_mem_nil).symm
  | cons site sites ih =>
    intro s shaped nodup i hi
    obtain ⟨absent, nodup⟩ := List.nodup_cons.1 nodup
    have step : (harmSite (forceClose c atStop s site) i).mark =
        if i = site ∧ (sagSite s site).event.isSome = true then none else (harmSite s i).mark :=
      forceClose_mark (by rw [shaped.harm_length]; exact hi)
    refine (ih (forceClose c atStop s site) ((forceClose_only c atStop s site).shaped shaped) nodup hi).trans ?_
    by_cases here : i = site
    · subst here
      rw [if_neg fun k => absent k.1, step]
      exact if_congr (by simp) rfl rfl
    · have step' : (harmSite (forceClose c atStop s site) i).mark = (harmSite s i).mark :=
        step.trans (if_neg fun k => here k.1)
      rw [step', (forceClose_keeps c atStop s site).2 i here]
      exact if_congr (by simp [here]) rfl rfl

theorem acqCaptured_harm (s : State) : (acqCaptured s).harm = (acqClosed s).harm := by
  unfold acqCaptured
  rfl

/-- The engine as the accumulators of an ACQ reset close. -/
theorem acqAbandoned_kept (s : State) : HarmKept s (abandonWindows (acqCaptured s)) := by
  have closed : HarmKept s (acqClosed s) := by
    unfold acqClosed sagAcqCloses
    exact .of_forceFold _ _
  exact (closed.trans (.of_harm (congrArg Harm.sites (acqCaptured_harm s)))).trans (abandonWindows_kept _)

theorem abandonSite_mark (h : HarmSite) : (abandonSite h).mark = h.mark := rfl

theorem acqAbandoned_mark {s : State} (shaped : Shaped s) {i : Nat} (hi : i < 4) :
    (harmSite (abandonWindows (acqCaptured s)) i).mark.isSome =
      ((harmSite s i).mark.isSome && (sagSite s i).event.isNone) := by
  have shapedC := (acqCaptured_moves s).shaped shaped
  have fold : (harmSite (acqClosed s) i).mark =
      if i ∈ allSites ∧ (sagSite s i).event.isSome = true then none else (harmSite s i).mark := by
    unfold acqClosed sagAcqCloses
    exact forceFold_mark allSites s shaped allSites_nodup hi
  have same : harmSite (acqCaptured s) i = harmSite (acqClosed s) i := by rw [harmSite, acqCaptured_harm]; rfl
  rw [harmSite_abandonWindows _ (by rw [shapedC.harm_length]; exact hi), abandonSite_mark, same, fold]
  have mem : i ∈ allSites := List.mem_range.2 hi
  cases (sagSite s i).event with
  | none => rw [if_neg fun k => absurd k.2 Bool.false_ne_true]; simp
  | some e => rw [if_pos ⟨mem, rfl⟩]; simp

theorem nextMoment_harm (s : State) : HarmKept s (nextMoment s) := .of_harm rfl

/-- R98, R110: what an ACQ reset leaves of the engine's figures at a site. -/
theorem acqIntervals_site {s : State} (shaped : Shaped s) {site : Nat} (hs : site < 4) :
    let t := acqIntervals s
    let h := harmSite s site
    let due := h.due = true ∨ boundaryReached s s.clock.time h = true
    (∀ role, role < 8 → (harmMember t site role).window = none ∧
      ((harmMember s site role).acc = none → (harmMember t site role).acc = none) ∧
      ∀ a, s.survey.state = some .recording → (harmMember s site role).acc = some a →
        (harmMember t site role).acc = (memberOf s site role).map fun m =>
          newAccumulator m (siteOf s site).settings.hmax (if due then h.next.getD s.clock.time else s.clock.time) 0
            (h.mark.isSome && (sagSite s site).event.isNone)) ∧
    (harmSite t site).basis = h.basis ∧
    (s.survey.state ≠ some .recording ∨ ¬due → (harmSite t site).next = h.next) ∧
    (h.empty ≤ max32 → s.survey.state = some .recording → (harmSite t site).empty = Nat.min max32 (h.empty +
      (List.range 8).countP fun role => (harmMember s site role).acc.any fun a => a.n == 0)) := by
  intro t h due
  have shapedC := (acqCaptured_moves s).shaped shaped
  have kept := acqAbandoned_kept s
  have marks := acqAbandoned_mark shaped hs
  have window : ∀ role, (harmMember (abandonWindows (acqCaptured s)) site role).window = none := fun role => by
    rw [harmMember_abandonWindows _ (by rw [shapedC.harm_length]; exact hs)]
  have moves : Moves (only [.capture, .sag, .harm, .store]) s (abandonWindows (acqCaptured s)) :=
    (acqCaptured_moves s).trans (abandonWindows_moves _ (by decide))
  have eq : t = if recording (abandonWindows (acqCaptured s)) then
      partialCloses { acqReset := true } (abandonWindows (acqCaptured s)).clock.time (some 0)
        (nextMoment (abandonWindows (acqCaptured s)))
      else abandonWindows (acqCaptured s) := by
    simp only [t]
    unfold acqIntervals
    rfl
  generalize abandonWindows (acqCaptured s) = v at *
  have survey : v.survey = s.survey := moves.survey_eq (by decide)
  rw [eq, moves.clock_eq (by decide)]
  by_cases runs : s.survey.state = some .recording
  · have records : recording v = true := (recording_iff v).2 (by rw [survey]; exact runs)
    rw [if_pos records]
    obtain ⟨members, basis, next, empty⟩ := partialCloses_site (causes := { acqReset := true }) (time := s.clock.time)
      (frame := 0) (kept.trans (nextMoment_harm v)) ((nextMoment_moves (P := only [.harm]) v (by decide)).shaped (moves.shaped shaped))
      survey (moves.sites_eq (by decide)) hs
    have mark : (harmSite (nextMoment v) site).mark.isSome = _ := marks
    refine ⟨fun role hr => ?_, basis, fun k => next (k.resolve_left (not_not.2 runs)), fun below _ => empty below⟩
    obtain ⟨windowT, acc⟩ := members role hr
    rw [mark] at acc
    exact ⟨windowT.trans (window role), fun none_ => by rw [acc, none_]; rfl, fun a _ some_ => by
      rw [acc, some_, Option.bind_some]⟩
  · have idle : ¬recording v = true := fun k => runs (survey ▸ (recording_iff v).1 k)
    rw [if_neg idle]
    obtain ⟨next, basis, _⟩ := kept.timing site
    refine ⟨fun role _ => ⟨window role, fun none_ => ?_, fun a k => absurd k runs⟩, basis, fun _ => next,
      fun _ k => absurd k runs⟩
    have acc := kept.acc site role
    rw [none_] at acc
    exact Option.map_eq_none_iff.1 acc

/-- R110: the records of the accumulators at an ACQ reset. -/
theorem acqIntervals_records {s : State} (shaped : Shaped s) (runs : s.survey.state = some .recording)
    (up : storeUp s.store = true) (notFull : s.store.state ≠ .full)
    (grows : QueueGrows ((List.range 4).countP fun site => (sagSite s site).event.isSome) s (acqCaptured s))
    (room : s.store.queue.length + ((List.range 4).countP fun site => (sagSite s site).event.isSome) +
      countedWindows s ≤ 16)
    {site role : Nat} (hs : site < 4) (hr : role < 8) {a : Accumulator}
    (ha : (harmMember s site role).acc = some a) (counted : 0 < a.n) :
    ∃ id r, (⟨.interval, id, .interval id r, false⟩ : QueueItem) ∈ (acqIntervals s).store.queue ∧
      r.number = s.survey.number ∧ r.site = site ∧ r.role = roleOf role ∧ r.slot = a.slot ∧
      r.serial = a.serial ∧ r.startTime = a.startTime ∧
      r.endTime = (if (harmSite s site).due = true ∨ boundaryReached s s.clock.time (harmSite s site) = true then
        (harmSite s site).next.getD s.clock.time else s.clock.time) ∧
      r.n = a.n ∧ r.excluded = a.excluded ∧ r.flags.partialClose = true ∧ r.flags.clockUnset = !s.clock.valid := by
  have moves : Moves (only [.capture, .sag, .harm, .store]) s (abandonWindows (acqCaptured s)) :=
    (acqCaptured_moves s).trans (abandonWindows_moves _ (by decide))
  have length := grows.length
  have store : (abandonWindows (acqCaptured s)).store = (acqCaptured s).store := rfl
  have kept := acqAbandoned_kept s
  unfold acqIntervals
  generalize abandonWindows (acqCaptured s) = v at *
  have survey : v.survey = s.survey := moves.survey_eq (by decide)
  rw [if_pos ((recording_iff v).2 (by rw [survey]; exact runs)), moves.clock_eq (by decide)]
  have storeV : (nextMoment v).store = (acqCaptured s).store := store
  exact partialCloses_record (kept.trans (nextMoment_harm v))
    ((nextMoment_moves (P := only [.harm]) v (by decide)).shaped (moves.shaped shaped)) survey
    (moves.clock_eq (by decide)) (by rw [storeV, storeUp, grows.state]; exact up)
    (by rw [storeV, grows.state]; exact notFull) (by rw [storeV]; omega) hs hr ha counted

end Sys2Proof.Machine
end

