-- ==== Sys2Proof/Proofs/AcqNotices.lean ====
section
/-!
PROOFS. The records and the notices of an ACQ reset (R37, R77, R110), and its clause of O60.
-/

namespace Sys2Proof.Machine

/-! ### The turn of a site's event -/

theorem forceClose_tells {c : Nat} {atStop : Bool} (s : State) (site : Nat) :
    Tells 1 s (forceClose c atStop s site) := by
  cases h : (sagSite s site).event with
  | none => rw [forceClose_none h]; exact .of_link rfl
  | some e =>
    rw [forceClose_some h]
    intro undue
    rw [closeEvent_link]
    exact post_tells _ s undue

theorem forceFold_tells {c : Nat} {atStop : Bool} (sites : List Nat) (s : State) :
    Tells sites.length s (sites.foldl (forceClose c atStop) s) :=
  (Tells.foldl _ forceClose_tells sites s).mono (Nat.le_of_eq (Nat.mul_one _))

/-- R80: the notice of an event that a forced close ends. -/
theorem forceFold_told {c : Nat} {atStop : Bool} (sites : List Nat) : ∀ s : State, sites.Nodup →
    storeUp s.store = true → s.store.state ≠ .full →
    s.store.queue.length + (sites.countP fun site => (sagSite s site).event.isSome) ≤ 16 →
    Undue s.link → s.link.mask.getLsbD 7 = true → s.link.notices.length + sites.length ≤ 32 →
    ∀ site ∈ sites, ∀ e, (sagSite s site).event = some e →
      ⟨.eventClose (eventSummary (toldRecord site c (forcedEvent c atStop s site e) s)) false, s.clock.time⟩ ∈
        (sites.foldl (forceClose c atStop) s).link.notices := by
  induction sites with
  | nil => exact fun _ _ _ _ _ _ _ _ _ mem => absurd mem List.not_mem_nil
  | cons first sites ih =>
    intro s nodup up notFull room undue mask places site mem e he
    have fitsS := (forceFold_records (c := c) (atStop := atStop) (first :: sites) s nodup up notFull room site mem e he).1
    obtain ⟨absent, nodup⟩ := List.nodup_cons.1 nodup
    obtain ⟨undue', mask', kept, length⟩ := forceClose_tells (c := c) (atStop := atStop) s first undue
    rw [List.length_cons] at places
    rcases List.mem_cons.1 mem with rfl | later
    · obtain ⟨_, _, further, _⟩ := forceFold_tells (c := c) (atStop := atStop) sites (forceClose c atStop s site) undue'
      refine further.subset ?_
      rw [forceClose_some he, closeEvent_link, fitsS]
      exact post_told undue mask (by omega)
    · have others : ∀ x ∈ sites, sagSite (forceClose c atStop s first) x = sagSite s x := fun x hx =>
        (forceClose_keeps c atStop s first).2 x fun h => absent (h ▸ hx)
      have same : (sites.countP fun x => (sagSite (forceClose c atStop s first) x).event.isSome) =
          sites.countP fun x => (sagSite s x).event.isSome :=
        List.countP_congr fun x hx => by rw [others x hx]
      have grows := forceClose_grows (c := c) (atStop := atStop) (s := s) (site := first)
      have queue := grows.length
      have moves := forceClose_only c atStop s first
      rw [List.countP_cons] at room
      have upU : storeUp (forceClose c atStop s first).store = true := by rw [storeUp, grows.state]; exact up
      have roomU : (forceClose c atStop s first).store.queue.length +
          (sites.countP fun x => (sagSite (forceClose c atStop s first) x).event.isSome) ≤ 16 := by
        rw [same]
        omega
      have heU : (sagSite (forceClose c atStop s first) site).event = some e :=
        (congrArg SagSite.event (others site later)).trans he
      have fitsU := (forceFold_records (c := c) (atStop := atStop) sites _ nodup upU (grows.state ▸ notFull) roomU site later e
        heU).1
      have told := ih (forceClose c atStop s first) nodup upU (grows.state ▸ notFull) roomU undue'
        (by rw [mask']; exact mask) (by omega) site later e heU
      rw [forcedEvent_congr (others site later) (moves.sites_eq (by decide)) (moves.roster_eq (by decide)),
        toldRecord_congr (others site later) (moves.sites_eq (by decide)) (moves.bus_eq (by decide))
          (moves.survey_eq (by decide)) (moves.clock_eq (by decide)) (fitsU.trans fitsS.symm),
        moves.clock_eq (by decide)] at told
      exact told

/-! ### The records of the events -/

/-- A participant of an event that an ACQ reset closes at boundary `c` (R77). -/
def resetInvolved (s : State) (site c : Nat) (i : Involved) : Involved :=
  let x := channelOf s site i.role.code
  if i.holding then
    { i with
      minR := Nat.min i.minR (x.minR.getD 2000)
      half := Nat.min 65535 (i.half + Nat.min 65535 (frameDiff c (x.sagStart.getD c) / 64))
      recovery := some c, holding := false }
  else i

theorem forceInvolved_eq (s : State) (site c : Nat) (i : Involved) :
    forceInvolved (sagSite s site) c i = resetInvolved s site c i := by
  unfold forceInvolved resetInvolved Involved.finish Channel.halves halfCycles
  rfl

theorem acqCaptured_rest (s : State) : (acqCaptured s).store = (acqClosed s).store ∧
    (acqCaptured s).link = (acqClosed s).link := by
  unfold acqCaptured
  exact ⟨rfl, rfl⟩

theorem acqCaptured_grows (s : State) :
    QueueGrows ((List.range 4).countP fun site => (sagSite s site).event.isSome) s (acqCaptured s) := by
  have closed : QueueGrows (allSites.countP fun site => (sagSite s site).event.isSome) s (acqClosed s) := by
    unfold acqClosed sagAcqCloses
    exact forceFold_grows allSites s allSites_nodup
  exact closed.trans (n := 0) (.of_store (acqCaptured_rest s).1)

section
variable {s : State} (up : storeUp s.store = true) (notFull : s.store.state ≠ .full)
  (room : s.store.queue.length + ((List.range 4).countP fun site => (sagSite s site).event.isSome) ≤ 16)
  {site : Nat} (hs : site < 4) {e : OpenEvent} (he : (sagSite s site).event = some e)
include up notFull room hs he

/-- The record of an event that an ACQ reset closes. -/
theorem acqCaptured_records : eventFits s = true ∧
    ⟨.event, e.id, .event (toldRecord site (s.sag.lastBoundary.getD 0)
      (forcedEvent (s.sag.lastBoundary.getD 0) false s site e) s), false⟩ ∈ (acqCaptured s).store.queue := by
  rw [(acqCaptured_rest s).1]
  unfold acqClosed sagAcqCloses
  exact forceFold_records allSites s allSites_nodup up notFull room site (List.mem_range.2 hs) e he

theorem acqCaptured_told (undue : Undue s.link) (mask : s.link.mask.getLsbD 7 = true)
    (places : s.link.notices.length + 4 ≤ 32) :
    ⟨.eventClose (eventSummary (toldRecord site (s.sag.lastBoundary.getD 0)
      (forcedEvent (s.sag.lastBoundary.getD 0) false s site e) s)) false, s.clock.time⟩ ∈ (acqCaptured s).link.notices := by
  rw [(acqCaptured_rest s).2]
  unfold acqClosed sagAcqCloses
  exact forceFold_told allSites s allSites_nodup up notFull room undue mask places site (List.mem_range.2 hs) e he

end

section
variable {s : State} {site : Nat} {e : OpenEvent} (c : Nat)

theorem eventFlags_told (f : EventFlags) (long unset : Bool) :
    let g : EventFlags := { { f with long := long } with clockUnset := unset }
    g = { f with long := g.long, clockUnset := unset } := rfl

theorem toldRecord_allFlags (site c : Nat) (e : OpenEvent) (s : State) :
    (toldRecord site c e s).flags =
      { e.flags with
        long := (toldRecord site c e s).flags.long, clockUnset := eventFits s && !s.clock.valid } :=
  eventFlags_told e.flags (decide (65535 < halfCycles (endBoundary c e) e.startFrame))
    (eventFits s && !s.clock.valid)

theorem resetRecord_flags (fits : eventFits s = true) :
    let r := toldRecord site c (forcedEvent c false s site e) s
    r.flags =
        { e.flags with
          truncated := true, long := r.flags.long, clockUnset := !s.clock.valid
          probeLost := e.flags.probeLost || e.involved.any fun i =>
            i.holding && (channelOf s site i.role.code).lost } := by
  intro r
  have flag : (eventFits s && !s.clock.valid) = !s.clock.valid := by rw [fits, Bool.true_and]
  have told := toldRecord_allFlags site c (forcedEvent c false s site e) s
  have forced : (forcedEvent c false s site e).flags =
      { e.flags with
        truncated := true, probeLost := e.flags.probeLost || e.involved.any fun i =>
          i.holding && (channelOf s site i.role.code).lost } := rfl
  rw [forced, flag] at told
  exact told

theorem resetRecord_involved : (toldRecord site c (forcedEvent c false s site e) s).involved =
    (e.involved.map (resetInvolved s site c)).map (fun i => (i.role, i.serial, i.minR, i.half)) := by
  have roles : (toldRecord site c (forcedEvent c false s site e) s).involved =
    (forcedEvent c false s site e).involved.map (fun i => (i.role, i.serial, i.minR, i.half)) := rfl
  rw [roles, forcedEvent_keeps.2.2.2.2, funext (forceInvolved_eq s site c)]

theorem resetRecord_ends (holds : ∃ i ∈ e.involved, i.holding = true) (below : c < 2 ^ 48)
    (recoveries : ∀ i ∈ e.involved, ∀ x, i.recovery = some x → x < 2 ^ 48) :
    let r := toldRecord site c (forcedEvent c false s site e) s
    r.half = Nat.min 65535 (frameDiff c e.startFrame / 64) ∧
        ∀ h, (sagSite s site).history.find? (fun h => h.frame = c) = some h → r.endTime = h.time := by
  intro r
  have stop : endBoundary c (forcedEvent c false s site e) = c := forced_endBoundary holds below recoveries
  obtain ⟨_, _, _, startFrame, _⟩ :=
    forcedEvent_keeps (c := c) (atStop := false) (s := s) (site := site) (e := e)
  constructor
  · change Nat.min 65535 (halfCycles (endBoundary c _) _) = _
    rw [stop, startFrame]
    rfl
  · intro h found
    have at_ : (sagSite s site).history.find? (fun b => b.frame == c) = some h := found
    change ((sagSite s site).timeOf (endBoundary c _)).getD s.bus.frameTime = _
    rw [stop, SagSite.timeOf, at_]
    rfl

end

/-! ### The tracker and the rotation checks -/

/-- The tracker that an ACQ reset leaves (R37). -/
def trackerCleared (straps : Straps) (t : Tracker) : Tracker :=
  { (t.setFreq (nominal straps)) with
    kMoved := t.kMoved, boundaryK := some (carryK t)
    state := .acquiring, inLock := 0, since := 0, lastCross := none, selection := none
    wanted := none, inUse := none, det := {}, unlockSeen := false, frameState := .acquiring
    frameFreq := nominal straps }

/-- The tracker cleared and told, before the rotation checks. -/
@[irreducible] def trackTold (s : State) : State :=
  postTrack s.tracker.state .reset (setTracker (trackerCleared s.straps) s)

/-- The rotation checks of some sites, cleared. -/
@[irreducible] def rotationsCleared (sites : List Nat) (s : State) : State :=
  sites.foldl (fun s site => moveRotation site {} s) s

theorem trackerAcqReset_eq (s : State) : trackerAcqReset s = rotationsCleared (List.range 4) (trackTold s) := by
  unfold rotationsCleared trackTold
  rfl

theorem trackTold_keeps (s : State) : (trackTold s).tracker = trackerCleared s.straps s.tracker ∧
    (trackTold s).rotation = s.rotation ∧ (trackTold s).clock = s.clock := by
  unfold trackTold postTrack postWhen
  dsimp only
  split <;> exact ⟨rfl, rfl, rfl⟩

theorem trackTold_tells (s : State) : Tells 1 s (trackTold s) := by
  unfold trackTold
  exact (Tells.of_link (n := 0) (t := setTracker (trackerCleared s.straps) s) rfl).trans (postWhen_tells _ _ _)

theorem trackTold_told {s : State} (undue : Undue s.link) (mask : s.link.mask.getLsbD 3 = true)
    (room : s.link.notices.length < 32) (moved : s.tracker.state ≠ .acquiring) :
    ⟨.trackState .acquiring s.tracker.state (nominal s.straps) (incrementOf (nominal s.straps)) none .reset, s.clock.time⟩ ∈
      (trackTold s).link.notices := by
  let v := setTracker (trackerCleared s.straps) s
  have goes : (v.tracker.state != s.tracker.state) = true := bne_iff_ne.2 fun k => moved k.symm
  have told : trackTold s = post (.trackState .acquiring s.tracker.state (nominal s.straps)
      (incrementOf (nominal s.straps)) none .reset) v := by
    unfold trackTold postTrack postWhen
    exact if_pos goes
  rw [told]
  exact post_told (s := v) undue mask room

theorem moveRotation_tells (site : Nat) (r : Rotation) (s : State) : Tells 1 s (moveRotation site r s) := by
  unfold moveRotation
  exact (Tells.of_link (n := 0) (t := setRotation site r s) rfl).trans (postWhen_tells _ _ _)

theorem rotationsCleared_moves (sites : List Nat) (s : State) : Moves (only [.rotation]) s (rotationsCleared sites s) := by
  unfold rotationsCleared
  exact .foldl _ (fun s site => moveRotation_moves site {} s (by decide)) _ _

theorem rotationsCleared_tells (sites : List Nat) (s : State) : Tells sites.length s (rotationsCleared sites s) := by
  unfold rotationsCleared
  exact (Tells.foldl _ (fun s site => moveRotation_tells site {} s) sites s).mono (Nat.le_of_eq (Nat.mul_one _))

theorem rotationsCleared_cons (site : Nat) (sites : List Nat) (s : State) :
    rotationsCleared (site :: sites) s = rotationsCleared sites (moveRotation site {} s) := by
  unfold rotationsCleared
  rfl

theorem moveRotation_list (site : Nat) (r : Rotation) (s : State) :
    (moveRotation site r s).rotation = s.rotation.set site r := by
  have same : (moveRotation site r s).rotation = updateAt (fun _ => r) site s.rotation := by
    unfold moveRotation postWhen
    dsimp only
    split <;> rfl
  rw [same]
  exact updateAt_eq_set _ {} _ _

theorem set_four {α : Type} {x : α} : ∀ {xs : List α}, xs.length = 4 →
    (((xs.set 0 x).set 1 x).set 2 x).set 3 x = List.replicate 4 x
  | [_, _, _, _], _ => rfl

/-- R37: the rotation checks that an ACQ reset leaves. -/
theorem rotationsCleared_all {s : State} (shaped : Shaped s) :
    (rotationsCleared (List.range 4) s).rotation = List.replicate 4 {} := by
  have length := shaped.rotation_length
  have steps : (rotationsCleared (List.range 4) s).rotation =
      (((s.rotation.set 0 {}).set 1 {}).set 2 {}).set 3 {} := by
    have sites : List.range 4 = [0, 1, 2, 3] := rfl
    have done : ∀ u, rotationsCleared [] u = u := fun u => by unfold rotationsCleared; rfl
    rw [sites, rotationsCleared_cons, rotationsCleared_cons, rotationsCleared_cons, rotationsCleared_cons, done,
      moveRotation_list, moveRotation_list, moveRotation_list, moveRotation_list]
  rw [steps, set_four length]

theorem rotationsCleared_told (sites : List Nat) : ∀ s : State, sites.Nodup → Undue s.link →
    s.link.mask.getLsbD 4 = true → s.link.notices.length + sites.length ≤ 32 → ∀ site ∈ sites,
    (rotationOf s site).state ≠ .unknown →
    ⟨.rotation site .unknown (rotationOf s site).state, s.clock.time⟩ ∈ (rotationsCleared sites s).link.notices := by
  induction sites with
  | nil => exact fun _ _ _ _ _ _ mem => absurd mem List.not_mem_nil
  | cons first sites ih =>
    intro s nodup undue mask room site mem known
    obtain ⟨absent, nodup⟩ := List.nodup_cons.1 nodup
    obtain ⟨undue', mask', _, length⟩ := moveRotation_tells first {} s undue
    rw [List.length_cons] at room
    rw [rotationsCleared_cons]
    rcases List.mem_cons.1 mem with rfl | later
    · obtain ⟨_, _, further, _⟩ := rotationsCleared_tells sites (moveRotation site {} s) undue'
      refine further.subset ?_
      have goes : (({} : Rotation).state != (rotationOf s site).state) = true := bne_iff_ne.2 fun k => known k.symm
      have told : moveRotation site {} s = post (.rotation site .unknown (rotationOf s site).state) (setRotation site {} s) :=
        if_pos goes
      rw [told]
      exact post_told (s := setRotation site {} s) undue mask (by change s.link.notices.length < 32; omega)
    · have other : rotationOf (moveRotation first {} s) site = rotationOf s site := by
        have apart : first ≠ site := fun h => absent (h ▸ later)
        rw [rotationOf, moveRotation_list, List.getD_eq_getElem?_getD, List.getElem?_set_ne apart, ← List.getD_eq_getElem?_getD]
        rfl
      have clock : (moveRotation first {} s).clock = s.clock :=
        (moveRotation_moves (P := only [.rotation]) first {} s (by decide)).clock_eq (by decide)
      have told := ih (moveRotation first {} s) nodup undue' (by rw [mask']; exact mask) (by omega) site later
        (by rw [other]; exact known)
      rw [other, clock] at told
      exact told

/-! ### The link through the blocks -/

theorem closeSite_tells (c : Closing) (causes : CloseCauses) (roles : List Nat) (s : State) (site : Nat) :
    Tells 1 s (closeSite c causes roles s site) :=
  (Tells.of_link (n := 0) (siteClosed_keeps (c := c) (roles := roles) (site := site) (s := s)).link).trans
    (postWhen_tells _ _ _)

theorem partialSite_tells {causes : CloseCauses} {time : ClockTime} {fresh : Option Nat} (s : State) (site : Nat) :
    Tells 1 s (partialSite causes time fresh s site) :=
  (Tells.of_link (n := 0) (boundaryGone_keeps s time site).link).trans (closeSite_tells _ _ _ _ _)

theorem acqIntervals_tells (s : State) : Tells 4 (acqCaptured s) (acqIntervals s) := by
  unfold acqIntervals
  split
  · rw [partialCloses_eq]
    exact (Tells.of_link (n := 0) (t := nextMoment (abandonWindows (acqCaptured s))) rfl).trans
      (Tells.foldl _ partialSite_tells (List.range 4) _)
  · exact .of_link rfl

theorem acqIntervals_owed (s : State) : OwedKept (acqCaptured s) (acqIntervals s) := by
  unfold acqIntervals
  split
  · rw [partialCloses_eq]
    exact (OwedKept.of_link (t := nextMoment (abandonWindows (acqCaptured s))) rfl).trans
      (partialFold_owed (List.range 4) _)
  · exact .of_link rfl

theorem acqQuieted_rest (s : State) : (acqQuieted s).link = (acqIntervals s).link ∧
    (acqQuieted s).store = (acqIntervals s).store ∧ (acqQuieted s).harm = (resultsCleared (acqIntervals s)).harm := by
  unfold acqQuieted resultsCleared
  exact ⟨rfl, rfl, rfl⟩

theorem acqCaptured_tells (s : State) : Tells 4 s (acqCaptured s) := by
  have closed : Tells 4 s (acqClosed s) := by
    unfold acqClosed sagAcqCloses
    exact forceFold_tells allSites s
  exact closed.trans (n := 0) (.of_link (acqCaptured_rest s).2)

theorem acqQuieted_tells (s : State) : Tells 8 s (acqQuieted s) :=
  ((acqCaptured_tells s).trans (acqIntervals_tells s)).trans (n := 0) (.of_link (acqQuieted_rest s).1)

theorem acqQuieted_owed (s : State) : OwedKept s (acqQuieted s) := by
  have closed : OwedKept s (acqClosed s) := by
    unfold acqClosed sagAcqCloses
    exact .foldl _ (fun _ _ => forceClose_owed) allSites s
  exact ((closed.trans (.of_link (acqCaptured_rest s).2)).trans (acqIntervals_owed s)).trans (.of_link (acqQuieted_rest s).1)

theorem acqBlocks_link (s : State) :
    (acqBlocks s).link = (rotationsCleared (List.range 4) (trackTold (acqQuieted s))).link := by
  rw [acqBlocks_eq, trackerAcqReset_eq]
  rfl

theorem acqBlocks_owed (s : State) : OwedKept s (acqBlocks s) := by
  have told : OwedKept (acqQuieted s) (trackTold (acqQuieted s)) := by
    unfold trackTold
    exact (OwedKept.of_link (t := setTracker (trackerCleared _) (acqQuieted s)) rfl).trans (postWhen_owed _ _ _)
  have cleared : ∀ u, OwedKept u (rotationsCleared (List.range 4) u) := fun u => by
    unfold rotationsCleared
    refine .foldl _ (fun s site => ?_) (List.range 4) u
    exact (OwedKept.of_link (t := setRotation site {} s) rfl).trans (postWhen_owed _ _ _)
  exact (((acqQuieted_owed s).trans told).trans (cleared _)).trans (.of_link (acqBlocks_link s))

/-- The notices of the earlier blocks stay. -/
theorem acqBlocks_notices {s : State} (undue : Undue s.link) :
    (acqCaptured s).link.notices <+: (acqBlocks s).link.notices := by
  obtain ⟨undueC, _⟩ := acqCaptured_tells s undue
  obtain ⟨undueI, _, kept, _⟩ := acqIntervals_tells s undueC
  rw [← (acqQuieted_rest s).1] at undueI kept
  obtain ⟨undueT, _, kept', _⟩ := trackTold_tells (acqQuieted s) undueI
  obtain ⟨_, _, kept'', _⟩ := rotationsCleared_tells (List.range 4) _ undueT
  rw [acqBlocks_link]
  exact (kept.trans kept').trans kept''

/-! ### The state that the blocks leave -/

theorem resultsCleared_site {s : State} {i : Nat} (inside : i < s.harm.sites.length) :
    harmSite (resultsCleared s) i =
      { harmSite s i with mark := none, members := (harmSite s i).members.map fun x => { x with latest := none } } := by
  have e : (resultsCleared s).harm.sites = s.harm.sites.map fun h =>
      { h with mark := none, members := h.members.map fun x => { x with latest := none } } := by
    unfold resultsCleared
    rfl
  simp only [harmSite, e, List.getD_eq_getElem?_getD, List.getElem?_map, List.getElem?_eq_getElem inside]
  rfl

theorem resultsCleared_member {s : State} {i : Nat} (inside : i < s.harm.sites.length) (role : Nat) :
    harmMember (resultsCleared s) i role = { harmMember s i role with latest := none } := by
  rw [harmMember, resultsCleared_site inside]
  simp only [harmMember, List.getD_eq_getElem?_getD, List.getElem?_map]
  cases (harmSite s i).members[role]? <;> rfl

section
variable (s : State)

theorem acqBlocks_kept : (acqBlocks s).survey = s.survey ∧ (acqBlocks s).clock = s.clock ∧
    (acqBlocks s).print = s.print ∧ (acqBlocks s).supply = s.supply ∧ (acqBlocks s).store.array = s.store.array ∧
    (acqBlocks s).straps = s.straps := by
  have moves : Moves (only [.sag, .harm, .store, .capture, .bus, .tracker, .rotation, .roster, .receive, .sites]) s
      (acqBlocks s) := acqBlocks_moves s (by decide) (by decide) (by decide) (by decide) (by decide) (by decide)
    (by decide) (by decide) (by decide) (by decide)
  exact ⟨moves.survey_eq (by decide), moves.clock_eq (by decide), moves.print_eq (by decide), moves.supply_eq (by decide),
    moves.array_eq (by decide), moves.straps_eq⟩

theorem acqIntervals_all : Moves (only [.capture, .sag, .harm, .store]) s (acqIntervals s) :=
  (acqCaptured_moves s).trans ((acqIntervals_moves s).mono (by decide))

theorem acqBlocks_after : (acqBlocks s).bus = { frameTime := s.bus.frameTime, frameValid := s.bus.frameValid } ∧
    (acqBlocks s).roster = List.replicate 15 {} ∧ (acqBlocks s).receive = List.replicate 15 {} ∧
    (acqBlocks s).sites = s.sites.map Site.rested ∧ (acqBlocks s).capture = (acqCaptured s).capture ∧
    (acqBlocks s).harm = (resultsCleared (acqIntervals s)).harm := by
  have moves := trackerAcq_moves s
  have intervals := acqIntervals_all s
  have bus : (acqQuieted s).bus = { frameTime := (acqIntervals s).bus.frameTime, frameValid := (acqIntervals s).bus.frameValid } ∧
      (acqQuieted s).roster = List.replicate 15 {} ∧ (acqQuieted s).receive = List.replicate 15 {} ∧
      (acqQuieted s).sites = (acqIntervals s).sites.map Site.rested := by
    unfold acqQuieted resultsCleared
    exact ⟨rfl, rfl, rfl, rfl⟩
  rw [intervals.bus_eq (by decide), intervals.sites_eq (by decide)] at bus
  refine ⟨(moves.bus_eq (by decide)).trans bus.1, (moves.roster_eq (by decide)).trans bus.2.1,
    (moves.receive_eq (by decide)).trans bus.2.2.1, (moves.sites_eq (by decide)).trans bus.2.2.2, ?_,
    (moves.harm_eq (by decide)).trans (acqQuieted_rest s).2.2⟩
  rw [moves.capture_eq (by decide), (acqQuieted_moves s).capture_eq (by decide), (acqIntervals_moves s).capture_eq (by decide)]

theorem acqBlocks_tracker : (acqBlocks s).tracker = trackerCleared s.straps s.tracker := by
  have intervals := acqIntervals_all s
  have quieted := acqQuieted_moves s
  rw [acqBlocks_eq, trackerAcqReset_eq]
  have cleared := (rotationsCleared_moves (List.range 4) (trackTold (acqQuieted s))).tracker_eq (by decide)
  refine cleared.trans ((trackTold_keeps _).1.trans ?_)
  rw [quieted.straps_eq, quieted.tracker_eq (by decide), intervals.straps_eq, intervals.tracker_eq (by decide)]

variable {s} (shaped : Shaped s)
include shaped

theorem acqIntervals_shaped : Shaped (acqIntervals s) := (acqIntervals_all s).shaped shaped

theorem acqBlocks_rotation : (acqBlocks s).rotation = List.replicate 4 {} := by
  have told := trackTold_keeps (acqQuieted s)
  have quieted : Shaped (acqQuieted s) := (acqQuieted_moves s).shaped (acqIntervals_shaped shaped)
  have shapedT : Shaped (trackTold (acqQuieted s)) := by
    have moves : Moves (only [.tracker]) (acqQuieted s) (trackTold (acqQuieted s)) := by
      unfold trackTold
      exact .trans (setTracker_moves _ _ (fun _ => ⟨rfl, nominal_range _⟩) (by decide)) (postTrack_moves _ _ _)
    exact moves.shaped quieted
  rw [acqBlocks_eq, trackerAcqReset_eq]
  exact rotationsCleared_all shapedT

theorem acqBlocks_sag : (acqBlocks s).sag = {} := by
  have sag : (acqQuieted s).sag =
      { sites := (acqIntervals s).sag.sites.map fun _ => {}, lastBoundary := none, runBoundary := none } := by
    unfold acqQuieted
    have cleared : (resultsCleared (acqIntervals s)).sag = (acqIntervals s).sag := by
      unfold resultsCleared
      rfl
    rw [← cleared]
    rfl
  rw [(trackerAcq_moves s).sag_eq (by decide), sag, List.map_const', (acqIntervals_shaped shaped).sag_length]

theorem acqBlocks_harm {site : Nat} (hs : site < 4) :
    harmSite (acqBlocks s) site =
      { harmSite (acqIntervals s) site with
        mark := none, members := (harmSite (acqIntervals s) site).members.map fun x => { x with latest := none } } := by
  rw [harmSite, (acqBlocks_after s).2.2.2.2.2]
  exact resultsCleared_site (by rw [(acqIntervals_shaped shaped).harm_length]; exact hs)

theorem acqBlocks_harmMember {site : Nat} (hs : site < 4) (role : Nat) :
    harmMember (acqBlocks s) site role = { harmMember (acqIntervals s) site role with latest := none } := by
  rw [harmMember, harmSite, (acqBlocks_after s).2.2.2.2.2]
  exact resultsCleared_member (by rw [(acqIntervals_shaped shaped).harm_length]; exact hs) role

end

/-! ### The reset as it is taken -/

theorem settle_notices (l : Link) : l.settle.notices = l.notices := by
  unfold Link.settle
  split
  · split <;> rfl
  · rfl

/-- The ACQ domain has taken its reset. -/
def acqTaken (s : State) : State := takeDomain (fun d => { d with acq := false }) s

theorem acqTaken_link (s : State) : acqTaken s = { s with link := (acqTaken s).link } := rfl

theorem acqTaken_notices (s : State) : (acqTaken s).link.notices = s.link.notices := settle_notices _

theorem acqTaken_owed {s : State} {printDue : Bool} (h : s.link.owed = some ⟨⟨true, printDue, false⟩, true⟩) :
    (acqTaken s).link.owed = if printDue then some ⟨⟨false, printDue, false⟩, true⟩ else none := by
  have domains : (s.link.setDomains fun d => { d with acq := false }).owed = some ⟨⟨false, printDue, false⟩, true⟩ := by
    rw [Link.setDomains, h]
    rfl
  change (s.link.setDomains fun d => { d with acq := false }).settle.owed = _
  unfold Link.settle
  rw [domains]
  cases printDue with
  | true => exact domains
  | false => rfl

theorem acqReset_due {s : State} {printDue notice : Bool} (idle : s.bus.inFrame = false)
    (h : s.link.owed = some ⟨⟨true, printDue, notice⟩, true⟩) : acqReset s = acqTaken (acqBlocks (frameEndWork s)) := by
  have due : acqResetDue s = true := by
    unfold acqResetDue
    rw [h, idle]
    rfl
  exact if_pos due

theorem acqReset_undue {s : State} (h : s.bus.inFrame = true ∨ s.link.owed = none) : acqReset s = s := by
  refine if_neg ?_
  unfold acqResetDue
  rcases h with busy | none_
  · rw [busy]
    split
    · rw [Bool.not_true, Bool.and_false]
      exact Bool.false_ne_true
    · exact Bool.false_ne_true
  · rw [none_]
    exact Bool.false_ne_true

theorem frameEndWork_only (s : State) :
    Moves (only [.tracker, .rotation, .sag, .capture, .harm, .roster, .sites]) s (frameEndWork s) :=
  frameEndWork_moves s (by decide) (by decide) (by decide) (by decide) (by decide) (by decide) (by decide)

/-- R2, R12, R37, R47: the blocks after an ACQ reset, whatever the frame before it owes. -/
theorem acqReset_blocks {s : State} (shaped : Shaped s) :
    let t := acqTaken (acqBlocks (frameEndWork s))
    t.bus = { frameTime := s.bus.frameTime, frameValid := s.bus.frameValid } ∧
    t.roster = List.replicate 15 {} ∧ t.receive = List.replicate 15 {} ∧
    t.tracker = trackerCleared s.straps (frameEndWork s).tracker ∧
    t.rotation = List.replicate 4 {} ∧ t.sag = {} ∧ t.sites = s.sites.map Site.rested ∧
    t.capture = (acqCaptured (frameEndWork s)).capture ∧
    (∀ site, site < 4 → (harmSite t site).mark = none ∧ ∀ role, role < 8 →
      (harmMember t site role).window = none ∧ (harmMember t site role).latest = none) ∧
    t.survey = s.survey ∧ t.clock = s.clock ∧ t.print = s.print ∧ t.supply = s.supply ∧
    t.store.array = s.store.array ∧ t.straps = s.straps := by
  have work := frameEndWork_only s
  have shapedU := work.shaped shaped
  have rested := frameEndWork_rested s
  have straps := work.straps_eq
  obtain ⟨bus, roster, receive, sites, capture, _⟩ := acqBlocks_after (frameEndWork s)
  obtain ⟨survey, clock, print, supply, array, strapsU⟩ := acqBlocks_kept (frameEndWork s)
  have tracker := acqBlocks_tracker (frameEndWork s)
  have rotation := acqBlocks_rotation shapedU
  have sag := acqBlocks_sag shapedU
  have harm : ∀ site, site < 4 → (harmSite (acqBlocks (frameEndWork s)) site).mark = none ∧ ∀ role, role < 8 →
      (harmMember (acqBlocks (frameEndWork s)) site role).window = none ∧
        (harmMember (acqBlocks (frameEndWork s)) site role).latest = none := fun site hs => by
    refine ⟨by rw [acqBlocks_harm shapedU hs], fun role hr => ?_⟩
    rw [acqBlocks_harmMember shapedU hs]
    exact ⟨((acqIntervals_site shapedU hs).1 role hr).1, rfl⟩
  rw [work.bus_eq (by decide)] at bus
  rw [straps] at tracker
  rw [rested] at sites
  rw [work.survey_eq (by decide)] at survey
  rw [work.clock_eq (by decide)] at clock
  rw [work.print_eq (by decide)] at print
  rw [work.supply_eq (by decide)] at supply
  rw [work.array_eq (by decide)] at array
  rw [straps] at strapsU
  generalize acqBlocks (frameEndWork s) = w at *
  exact ⟨bus, roster, receive, tracker, rotation, sag, sites, capture, harm, survey, clock, print, supply, array, strapsU⟩

theorem acqCaptured_capture (s : State) : (acqCaptured s).capture.rings = List.replicate 4 {} ∧
    (acqCaptured s).capture.slots = (truncateCaptures (s.sag.lastBoundary.getD 0) (acqClosed s)).capture.slots := by
  unfold acqCaptured
  exact ⟨rfl, rfl⟩

/-- R91: no slot fills after an ACQ reset. -/
theorem acqCaptured_filled (s : State) : ∀ c ∈ (acqCaptured s).capture.slots, c.site.isSome = true → c.state ≠ .filling := by
  intro c mem
  rw [(acqCaptured_capture s).2] at mem
  obtain ⟨slot, _, rfl⟩ := List.mem_map.1 mem
  exact truncateSlot_state

theorem acqCaptured_ends {s t : State} (shaped : Shaped s) (capture : t.capture = (acqCaptured s).capture) :
    CapturesEndAt (s.sag.lastBoundary.getD 0) s t := by
  refine capturesEndAt_forced (atStop := false) shaped rfl rfl (fun _ => rfl) ?_
  rw [capture, (acqCaptured_capture s).2]
  unfold acqClosed sagAcqCloses
  rfl

/-- The queue that the closes of the events and of the accumulators leave is kept. -/
theorem acqBlocks_queue (s : State) : (acqCaptured s).store.queue <+: (acqBlocks s).store.queue ∧
    (acqBlocks s).store.queue = (acqIntervals s).store.queue := by
  have quieted : (acqQuieted s).store = (acqIntervals s).store := (acqQuieted_rest s).2.1
  have same : (acqBlocks s).store.queue = (acqIntervals s).store.queue := by
    have told : (trackTold (acqQuieted s)).store = (acqQuieted s).store := by
      unfold trackTold postTrack postWhen
      dsimp only
      split <;> rfl
    have cleared : ∀ (sites : List Nat) (u : State), (rotationsCleared sites u).store = u.store := fun sites u =>
      (rotationsCleared_moves sites u).store_eq (by decide)
    rw [acqBlocks_eq, trackerAcqReset_eq]
    refine (next_keeps _).queue.trans ?_
    rw [cleared, told, quieted]
  refine ⟨?_, same⟩
  rw [same]
  unfold acqIntervals
  split
  · rw [partialCloses_eq]
    have before : (nextMoment (abandonWindows (acqCaptured s))).store = (acqCaptured s).store := rfl
    rw [← before]
    generalize nextMoment (abandonWindows (acqCaptured s)) = v
    have grows := partialFold_grows (causes := { acqReset := true })
      (time := (abandonWindows (acqCaptured s)).clock.time) (fresh := some 0) (List.range 4) v List.nodup_range
    exact grows.queue
  · exact List.prefix_refl _

end Sys2Proof.Machine
end

