-- ==== Sys2Proof/Proofs/Cuts.lean ====
section
/-!
PROOFS. What a cut array operation leaves of the array (R130, R131, R136, R174), and the hardware resets, with O60.
-/

namespace Sys2Proof.Machine

/-! ### Bytes -/

namespace Memory

theorem readBytes_eq (m : Memory) (a n : Nat) : readBytes m a n = (List.range n).map fun i => read m (a + i) := by
  unfold readBytes
  refine List.map_congr_left fun i hi => ?_
  have below := List.mem_range.1 hi
  exact read_filter _ _ _ fun _ => by simp only [Bool.and_eq_true, decide_eq_true_eq]; omega

theorem readBytes_write (m : Memory) (a : Nat) (bs : List Byte) : readBytes (write m a bs) a bs.length = bs := by
  rw [readBytes_eq]
  refine List.ext_getElem (by rw [List.length_map, List.length_range]) fun i _ h => ?_
  rw [List.getElem_map, List.getElem_range]
  exact read_write m a bs i _ (List.getElem?_eq_getElem h)

end Memory

/-! ### A cut erase -/

/-- The 256 bytes of a block, by address. -/
def BlockReads (m : Memory) (loc : Nat × Nat) (f : Nat → Byte) : Prop :=
  ∀ i, i < 256 → Memory.read m (blockAddress loc + i) = f (blockAddress loc + i)

/-- What a cut erase leaves of a block. -/
def BlockCut (before after : Memory) (loc : Nat × Nat) : Prop :=
  BlockReads after loc (Memory.read before) ∨ BlockReads after loc (fun _ => 0xFF) ∨ BlockReads after loc (fun _ => 0x00)

/-- One block of a cut erase. -/
def cutBlock (n sector : Nat) (m : Memory) (block : Nat) : Memory :=
  match Config.cutErase n block with
  | .survives => m
  | .erased => Memory.erase m (blockAddress (sector, block)) 256
  | .padding => Memory.write m (blockAddress (sector, block)) (List.replicate 256 0)

theorem cutSector_eq (n sector : Nat) (m : Memory) :
    cutSector n sector m = (List.range 64).foldl (cutBlock n sector) m := rfl

theorem cutBlock_other {n sector block : Nat} {m : Memory} {x : Nat}
    (h : x < blockAddress (sector, block) ∨ blockAddress (sector, block) + 256 ≤ x) :
    Memory.read (cutBlock n sector m block) x = Memory.read m x := by
  unfold cutBlock
  split
  · rfl
  · exact Memory.read_erase_other _ _ _ _ h
  · exact Memory.read_write_other _ _ _ _ (by rw [List.length_replicate]; exact h)

theorem cutBlock_same (n sector block : Nat) (m : Memory) : BlockCut m (cutBlock n sector m block) (sector, block) := by
  unfold cutBlock
  split
  · exact .inl fun _ _ => rfl
  · exact .inr (.inl fun i hi => Memory.read_erase _ _ _ _ (Nat.le_add_right _ _) (by omega))
  · exact .inr (.inr fun i hi => Memory.read_write _ _ _ _ _ (by rw [List.getElem?_replicate, if_pos hi]))

theorem BlockCut.congr {a b c : Memory} {loc : Nat × Nat} (h : BlockCut a b loc)
    (k : BlockReads c loc (Memory.read b)) : BlockCut a c loc :=
  h.imp (fun h i hi => (k i hi).trans (h i hi))
    (Or.imp (fun h i hi => (k i hi).trans (h i hi)) (fun h i hi => (k i hi).trans (h i hi)))

theorem BlockCut.of_before {a b c : Memory} {loc : Nat × Nat} (h : BlockCut b c loc)
    (k : BlockReads b loc (Memory.read a)) : BlockCut a c loc :=
  h.imp_left fun h i hi => (h i hi).trans (k i hi)

theorem cutFold_other {n sector : Nat} {x : Nat} (blocks : List Nat) : ∀ m : Memory,
    (∀ b ∈ blocks, x < blockAddress (sector, b) ∨ blockAddress (sector, b) + 256 ≤ x) →
    Memory.read (blocks.foldl (cutBlock n sector) m) x = Memory.read m x := by
  induction blocks with
  | nil => exact fun _ _ => rfl
  | cons b blocks ih =>
    exact fun m h => (ih _ fun c hc => h c (List.mem_cons_of_mem _ hc)).trans (cutBlock_other (h b List.mem_cons_self))

theorem blocks_apart {sector a b i : Nat} (h : a ≠ b) (hi : i < 256) :
    blockAddress (sector, a) + i < blockAddress (sector, b) ∨ blockAddress (sector, b) + 256 ≤ blockAddress (sector, a) + i := by
  simp only [blockAddress]
  omega

theorem cutFold_block {n sector : Nat} (blocks : List Nat) : ∀ m : Memory, blocks.Nodup → ∀ b ∈ blocks,
    BlockCut m (blocks.foldl (cutBlock n sector) m) (sector, b) := by
  induction blocks with
  | nil => exact fun _ _ _ mem => absurd mem List.not_mem_nil
  | cons first blocks ih =>
    intro m nodup b mem
    obtain ⟨absent, nodup⟩ := List.nodup_cons.1 nodup
    rcases List.mem_cons.1 mem with rfl | later
    · refine (cutBlock_same n sector b m).congr fun i hi => cutFold_other blocks _ fun c hc => ?_
      exact blocks_apart (fun h => absent (h ▸ hc)) hi
    · refine (ih _ nodup b later).of_before fun i hi => cutBlock_other ?_
      exact blocks_apart (fun h => absent (h ▸ later)) hi

theorem block_outside {sector b x : Nat} (hb : b < 64) (hx : x < sector * 16384 ∨ sector * 16384 + 16384 ≤ x) :
    x < blockAddress (sector, b) ∨ blockAddress (sector, b) + 256 ≤ x := by
  have address : blockAddress (sector, b) = sector * 16384 + b * 256 := rfl
  omega

/-- A cut erase leaves each block as it was, erased or of padding, and no other byte of the array changes. -/
theorem cutSector_blocks (n sector : Nat) (m : Memory) :
    (∀ block, block < 64 → BlockCut m (cutSector n sector m) (sector, block)) ∧
      ∀ x, x < sector * 16384 ∨ sector * 16384 + 16384 ≤ x → Memory.read (cutSector n sector m) x = Memory.read m x := by
  rw [cutSector_eq]
  exact ⟨fun block hb => cutFold_block _ m List.nodup_range block (List.mem_range.2 hb), fun x hx =>
    cutFold_other _ m fun b hb => block_outside (List.mem_range.1 hb) hx⟩

/-! ### A cut write, mark and extension step -/

/-- A record without its header. -/
theorem cutBody_reads (c : Content) (loc : Nat × Nat) (m : Memory) :
    (∀ i, i < 37 → Memory.read (cutBody c loc m) (blockAddress loc + i) = 0xFF) ∧
      (∀ i b, (bodyBytes c)[i]? = some b → Memory.read (cutBody c loc m) (blockAddress loc + i) = b) ∧
      ∀ x, x < blockAddress loc ∨ blockAddress loc + (bodyBytes c).length ≤ x →
        Memory.read (cutBody c loc m) x = Memory.read m x := by
  have reads : ∀ i b, (bodyBytes c)[i]? = some b → Memory.read (cutBody c loc m) (blockAddress loc + i) = b :=
    fun i b h => Memory.read_write m _ _ i b h
  refine ⟨fun i hi => reads i 0xFF ?_, reads, fun x hx => Memory.read_write_other m _ _ x hx⟩
  have header : (List.replicate headerBytes erasedByte)[i]? = some 0xFF := by
    rw [List.getElem?_replicate, if_pos (show i < headerBytes from hi)]
    rfl
  unfold bodyBytes recordBytes padTo
  rw [List.append_assoc, List.append_assoc, List.getElem?_append_left (by rw [List.length_replicate]; exact hi)]
  exact header

/-- A set bit below `n`. -/
theorem exists_lowest_bit {x n : Nat} (h : x ≠ 0) (below : x < 2 ^ n) :
    ∃ k, (List.range n).find? x.testBit = some k ∧ x.testBit k = true ∧ ∀ j, j < k → x.testBit j = false := by
  obtain ⟨k, hk⟩ := Nat.exists_testBit_of_ne_zero h
  have inside : k < n := by
    by_contra no
    rw [Nat.testBit_lt_two_pow (below.trans_le (Nat.pow_le_pow_right (by omega) (Nat.le_of_not_lt no)))] at hk
    exact Bool.false_ne_true hk
  cases found : (List.range n).find? x.testBit with
  | none => exact absurd hk (List.find?_eq_none.1 found k (List.mem_range.2 inside))
  | some j =>
    obtain ⟨set, _, before⟩ := List.find?_range_eq_some.1 found
    exact ⟨j, rfl, set, fun i hi => by simpa using before i hi⟩

/-- R120: the field that an extension step leaves. -/
theorem setStep_lowest {x : Nat} (h : x ≠ 0) (below : x < 2 ^ 32) :
    ∃ k, x.testBit k = true ∧ (∀ j, j < k → x.testBit j = false) ∧ setStep x = x - 2 ^ k := by
  obtain ⟨k, found, set, lowest⟩ := exists_lowest_bit h below
  refine ⟨k, set, lowest, ?_⟩
  unfold setStep
  rw [found]

theorem extensionField_lt (st : Store) (loc : Nat × Nat) : extensionField st loc < 2 ^ 32 := field_lt _ 0 4

theorem programStep_field (st : Store) (loc : Nat × Nat) :
    extensionField { st with array := (st.programStep loc).array } loc = setStep (extensionField st loc) := by
  have below : setStep (extensionField st loc) < 256 ^ 4 := by
    have range := extensionField_lt st loc
    unfold setStep
    split
    · exact (Nat.sub_le _ _).trans_lt range
    · exact range
  have bytes : Memory.readBytes (st.programStep loc).array (blockAddress loc + 33) 4 =
      le 4 (setStep (extensionField st loc)) := Memory.readBytes_write _ _ (le 4 _)
  change field (Memory.readBytes (st.programStep loc).array (blockAddress loc + 33) 4) 0 4 = _
  rw [bytes]
  exact (congrArg (field · 0 4) (List.append_nil _).symm).trans (field_le_append 4 _ [] below)

theorem programStep_other (st : Store) (loc : Nat × Nat) {x : Nat}
    (h : x < blockAddress loc + 33 ∨ blockAddress loc + 33 + 4 ≤ x) :
    Memory.read (st.programStep loc).array x = Memory.read st.array x :=
  Memory.read_write_other _ _ _ _ (by rw [le_length]; exact h)

/-! ### A cut wipe -/

theorem write_empty (a : Nat) (bs : List Byte) : Memory.write [] a bs = Memory.cells a bs := by
  unfold Memory.write
  rw [List.filter_nil, List.filter_nil, List.nil_append, List.append_nil]

/-- Every sector of a wiped array is erased. -/
theorem placesWhere_wiped : ∃ rest, placesWhere Option.isNone (List.replicate 64 (none : Option Nat)) = 0 :: rest :=
  ⟨_, rfl⟩

theorem placeFor_erased {st : Store} (opening : st.opening = List.replicate 64 none) (head : st.head = none) :
    placeFor st 1 0 = some ((0, 0), true) := by
  obtain ⟨rest, erased⟩ := placesWhere_wiped
  have sectors : erasedSectors st = 0 :: rest := by rw [erasedSectors, opening, erased]
  unfold placeFor
  rw [head, sectors]
  exact if_pos (Nat.succ_pos _)

/-- R136: what the write of the first LOCK_MARK record into a wiped array leaves when it is cut. -/
theorem firstLockStages_wiped (clock : Clock) (st : Store) :
    firstLockStages clock st.wiped =
      [Memory.cells 0 (bodyBytes (.lockMark ⟨1, 0, clock.time, !clock.valid⟩)),
        Memory.cells 0 (recordBytes (headerOf .lockMark 1 1 1 ⟨1024, 1024, 1024, 1024, 1025⟩)
          (.lockMark ⟨1, 0, clock.time, !clock.valid⟩))] := by
  have place : placeFor st.wiped.drawFirst 1 0 = some ((0, 0), true) := placeFor_erased rfl rfl
  have array : (st.wiped.drawFirst.firstLock (0, 0) true (lockRecord clock)).array =
      Memory.write [] 0 (recordBytes (headerOf .lockMark 1 1 1 ⟨1024, 1024, 1024, 1024, 1025⟩)
        (.lockMark (lockRecord clock))) := rfl
  unfold firstLockStages
  dsimp only
  rw [place]
  dsimp only
  rw [array, write_empty]
  exact congrArg (fun m => [m, _]) (write_empty _ _)

/-- R136: a cut wipe. -/
theorem cutWipe_stages (n : Nat) (clock : Clock) (st : Store) :
    (∃ sector, sector < 64 ∧ (∀ b, b < sector * 16384 → Memory.read (cutWipe n clock st) b = 0xFF) ∧
      (∀ block, block < 64 → BlockCut st.array (cutWipe n clock st) (sector, block)) ∧
      ∀ b, (sector + 1) * 16384 ≤ b → Memory.read (cutWipe n clock st) b = Memory.read st.array b) ∨
    cutWipe n clock st = [] ∨
    cutWipe n clock st = Memory.cells 0 (bodyBytes (.lockMark ⟨1, 0, clock.time, !clock.valid⟩)) ∨
    cutWipe n clock st = Memory.cells 0 (recordBytes (headerOf .lockMark 1 1 1 ⟨1024, 1024, 1024, 1024, 1025⟩)
      (.lockMark ⟨1, 0, clock.time, !clock.valid⟩)) := by
  have bound : Config.cutWipe n % 67 < 67 := Nat.mod_lt _ (by decide)
  unfold cutWipe
  generalize Config.cutWipe n % 67 = k at *
  dsimp only
  split
  · next below =>
    obtain ⟨blocks, others⟩ := cutSector_blocks n k (Memory.erase st.array 0 (k * 16384))
    refine .inl ⟨k, below, fun b hb => ?_, fun block hblock => ?_, fun b hb => ?_⟩
    · rw [others b (.inl hb)]
      exact Memory.read_erase _ _ _ _ (Nat.zero_le _) (by omega)
    · refine (blocks block hblock).of_before fun i hi => Memory.read_erase_other _ _ _ _ (.inr ?_)
      have address : blockAddress (k, block) = k * 16384 + block * 256 := rfl
      omega
    · rw [others b (.inr (by omega))]
      exact Memory.read_erase_other _ _ _ _ (.inr (by omega))
  · next above =>
    rw [firstLockStages_wiped]
    refine .inr ?_
    obtain rfl | rfl | rfl : k = 64 ∨ k = 65 ∨ k = 66 := by omega
    · exact .inl rfl
    · exact .inr (.inl rfl)
    · exact .inr (.inr rfl)

/-- R131, R175: a cut mount. -/
theorem cutMount_stages (n : Nat) (clock : Clock) (st : Store) : cutMount n clock st ∈ mountStages clock st := by
  have stages : 0 < (mountStages clock st).length := Nat.succ_pos _
  unfold cutMount
  dsimp only
  rw [List.getD_eq_getElem _ _ (Nat.mod_lt _ stages)]
  exact List.getElem_mem _

/-! ### The hardware resets -/

theorem stateBefore_array (source : ResetSource) (s : State) :
    (stateBefore source s).2.store = s.store ∧ (stateBefore source s).2.print = s.print ∧
      (stateBefore source s).2.pending = s.pending ∧ (stateBefore source s).2.clock = s.clock := by
  unfold stateBefore
  split <;> exact ⟨rfl, rfl, rfl, rfl⟩

/-- R175, R182: what a hardware reset does to the part that it finds, cut unless it is held. -/
theorem hardwareReset_eq {source : ResetSource} {straps : Straps} {backup : Bool} {s v : State}
    (h : s.held = false ∨ source ≠ .pin) (hv : (if s.held then s else cut s) = v) :
    hardwareReset source straps backup s =
      { State.reset with
        straps := straps, clock := clockAfter backup s.clock, tracker := Tracker.reset straps
        store := { array := v.store.array }, print := { paper := s.print.paper }
        link := Link.started (causeOf source) (mountingNotice (stateBefore source v).1 (stateBefore source v).2.free)
          (clockAfter backup s.clock).time
        free := (stateBefore source v).2.free + 1, pending := s.pending } := by
  have takes : ¬(s.held && source == .pin) = true := by
    rw [Bool.and_eq_true, beq_iff_eq]
    rintro ⟨held, pin⟩
    exact h.elim (fun k => Bool.false_ne_true (k ▸ held)) (fun k => k pin)
  obtain ⟨store, print, pending, clock⟩ := stateBefore_array source v
  have kept : v.print = s.print ∧ v.pending = s.pending ∧ v.clock = s.clock := by
    subst hv
    split <;> exact ⟨rfl, rfl, rfl⟩
  have eq : hardwareReset source straps backup s = postMounting (stateBefore source v).1
      { resetState straps (clockAfter backup (stateBefore source v).2.clock) (stateBefore source v).2 with
        link := { cause := causeOf source } } := by
    subst hv
    exact if_neg takes
  rw [eq, postMounting_released, clock, kept.2.2]
  unfold resetState
  dsimp only
  rw [store, print, pending, kept.1, kept.2.1]

/-- What a cut operation leaves, operation by operation (R130, R131, R136). -/
structure ArrayCut (clock : Clock) (st : Store) (a : Memory) : Prop where
  idle : st.op = none → st.state ≠ .wiping → st.state ≠ .mounting → a = st.array
  mount : st.op = none → st.state = .mounting → a ∈ mountStages clock st
  write : ∀ seq loc size opened q rest, st.op = some (.write seq loc size opened) → st.queue = q :: rest →
    a = cutBody q.content loc st.array
  copy : ∀ kind id seq loc size e, st.op = some (.copy kind id seq loc size) → findEntry st kind id = some e →
    a = cutBody (contentOf st e) loc st.array
  mark : ∀ m, st.op = some (.mark m) → a = Memory.write st.array (blockAddress m.loc + 32) [deadStatus]
  extend : ∀ loc, st.op = some (.extend loc) → a = st.array ∨ a = (st.programStep loc).array
  erase : ∀ sector, st.op = some (.erase sector) → ∃ n, a = cutSector n sector st.array
  wipe : st.op = none → st.state = .wiping → ∃ n, a = cutWipe n clock st

theorem cutArray_cut (n : Nat) (clock : Clock) (st : Store) : ArrayCut clock st (cutArray n clock st) where
  idle op wiping mounting := by
    unfold cutArray
    rw [op]
    dsimp only
    split
    · next k => exact absurd k wiping
    · next k => exact absurd k mounting
    · rfl
  mount op mounting := by
    unfold cutArray
    rw [op, mounting]
    exact cutMount_stages n clock st
  write seq loc size opened q rest op queue := by
    unfold cutArray
    rw [op, queue]
  copy kind id seq loc size e op found := by
    unfold cutArray
    rw [op]
    dsimp only
    rw [found]
  mark m op := by
    unfold cutArray
    rw [op]
  extend loc op := by
    unfold cutArray
    rw [op]
    dsimp only
    split
    · exact .inr rfl
    · exact .inl rfl
  erase sector op := by
    unfold cutArray
    rw [op]
    exact ⟨n, rfl⟩
  wipe op wiping := by
    unfold cutArray
    rw [op, wiping]
    exact ⟨n, rfl⟩

theorem trackerCleared_strobe (straps : Straps) (t : Tracker) : (trackerCleared straps t).nco = t.nco ∧
    (trackerCleared straps t).kMoved = t.kMoved ∧ (trackerCleared straps t).boundaryK = some (t.boundaryK.getD t.k) :=
  ⟨rfl, rfl, rfl⟩

theorem resetRecord_keeps (c : Nat) {s : State} {site : Nat} {e : OpenEvent} :
    let r := toldRecord site c (forcedEvent c false s site e) s
    r.id = e.id ∧ r.site = site ∧ r.number = s.survey.number ∧ r.startTime = e.startTime ∧ r.capture = e.capture := by
  intro r
  obtain ⟨id, capture, start, _⟩ := forcedEvent_keeps (c := c) (atStop := false) (s := s) (site := site) (e := e)
  exact ⟨id, rfl, rfl, start, capture⟩

/-- R37: the notices of the tracker and of the rotation checks. -/
theorem acqBlocks_told {s : State} (undue : Undue s.link) (room : s.link.notices.length ≤ 19) :
    (s.link.mask.getLsbD 3 = true → s.tracker.state ≠ .acquiring →
      ⟨.trackState .acquiring s.tracker.state (nominal s.straps) (incrementOf (nominal s.straps)) none .reset,
        s.clock.time⟩ ∈ (acqBlocks s).link.notices) ∧
    (s.link.mask.getLsbD 4 = true → ∀ site, site < 4 → (rotationOf s site).state ≠ .unknown →
      ⟨.rotation site .unknown (rotationOf s site).state, s.clock.time⟩ ∈ (acqBlocks s).link.notices) := by
  have intervals := acqIntervals_all s
  have quieted := acqQuieted_moves s
  have tracker : (acqQuieted s).tracker = s.tracker :=
    (quieted.tracker_eq (by decide)).trans (intervals.tracker_eq (by decide))
  have clock : (acqQuieted s).clock = s.clock := (quieted.clock_eq (by decide)).trans (intervals.clock_eq (by decide))
  have straps : (acqQuieted s).straps = s.straps := quieted.straps_eq.trans intervals.straps_eq
  have rotation : (acqQuieted s).rotation = s.rotation :=
    (quieted.rotation_eq (by decide)).trans (intervals.rotation_eq (by decide))
  obtain ⟨undueQ, maskQ, _, lengthQ⟩ := acqQuieted_tells s undue
  obtain ⟨undueT, maskT, _, lengthT⟩ := trackTold_tells (acqQuieted s) undueQ
  obtain ⟨_, _, kept, _⟩ := rotationsCleared_tells (List.range 4) (trackTold (acqQuieted s)) undueT
  obtain ⟨_, rotationT, clockT⟩ := trackTold_keeps (acqQuieted s)
  rw [acqBlocks_link]
  refine ⟨fun mask moved => kept.subset ?_, fun mask site hs known => ?_⟩
  · have told := trackTold_told undueQ (by rw [maskQ]; exact mask) (by omega) (by rw [tracker]; exact moved)
    rw [tracker, clock, straps] at told
    exact told
  · have same : rotationOf (trackTold (acqQuieted s)) site = rotationOf s site :=
      rotationOf_of_rotation (rotationT.trans rotation) site
    have told := rotationsCleared_told (List.range 4) (trackTold (acqQuieted s)) List.nodup_range undueT
      (by rw [maskT, maskQ]; exact mask) (by rw [List.length_range]; omega) site (List.mem_range.2 hs) (by rw [same]; exact known)
    rw [same, clockT, clock] at told
    exact told

/-- The write queue, the notices, the tables of the engine and the slots as an ACQ reset is taken. -/
theorem acqTaken_keeps (w : State) : (acqTaken w).store = w.store ∧ (acqTaken w).harm = w.harm ∧
    (acqTaken w).link.notices = w.link.notices := ⟨rfl, rfl, acqTaken_notices w⟩

/-- Settles O60. -/
theorem resetsRestoreTheirBlocks : Obligations.ResetsRestoreTheirBlocks := by
  unfold Obligations.ResetsRestoreTheirBlocks
  intro s restarted cutTo
  have cuts : ∀ n, cutTo (cutArray n s.clock s.store) := by
    intro n
    have c := cutArray_cut n s.clock s.store
    generalize cutArray n s.clock s.store = a at c
    refine ⟨c.idle, c.mount, ?_⟩
    intro at_ kept headless body blocks
    have written : ∀ (content : Content) (loc : Nat × Nat), body loc content ↔ (
        (∀ i, i < 37 → Memory.read a (blockAddress loc + i) = 0xFF) ∧
        (∀ i b, (bodyBytes content)[i]? = some b → Memory.read a (blockAddress loc + i) = b) ∧
        ∀ x, x < blockAddress loc ∨ blockAddress loc + (bodyBytes content).length ≤ x →
          Memory.read a x = Memory.read s.store.array x) := fun _ _ => Iff.rfl
    refine ⟨fun seq loc size opened q rest op queue => ?write, fun kind id seq loc size e op found => ?copy,
      fun m op => ?mark, fun loc op clear => ?extend, fun sector op => ?erase, fun op wiping => ?wipe⟩
    case write =>
      rw [written, c.write seq loc size opened q rest op queue]
      exact cutBody_reads _ _ _
    case copy =>
      rw [written, c.copy kind id seq loc size e op found]
      exact cutBody_reads _ _ _
    case mark =>
      obtain rfl := c.mark m op
      exact ⟨Memory.read_write _ _ _ 0 _ rfl, fun x hx => Memory.read_write_other _ _ _ _ hx⟩
    case extend =>
      refine (c.extend loc op).imp id fun step => ?_
      subst step
      obtain ⟨k, set, lowest, value⟩ := setStep_lowest clear (extensionField_lt s.store loc)
      exact ⟨fun x hx => programStep_other s.store loc hx, k, set, lowest, (programStep_field s.store loc).trans value⟩
    case erase =>
      obtain ⟨n, rfl⟩ := c.erase sector op
      exact cutSector_blocks n sector s.store.array
    case wipe =>
      obtain ⟨n, rfl⟩ := c.wipe op wiping
      refine (cutWipe_stages n s.clock s.store).imp ?_ id
      rintro ⟨sector, below, erased, cut_, rest⟩
      exact ⟨sector, below, erased, cut_, fun x hx => rest x (by omega)⟩
  refine ⟨fun straps backup held => ?pinHeld, fun source straps backup free => ?reset, fun held => ?brownoutHeld, fun free => ?brownout,
    fun printDue notice q shaped idle owed => ?acq, fun free queue none_ => ?undue⟩
  case pinHeld =>
    have stays : hardwareReset .pin straps backup s = s := if_pos (by rw [held]; rfl)
    exact congrArg Host.Outcome.next stays
  case reset =>
    intro clock
    let v := if s.held then s else cut s
    have reset := hardwareReset_eq (straps := straps) (backup := backup) free (v := v) rfl
    refine ⟨v.store.array, (stateBefore source v).2.free + 1, (stateBefore source v).1,
      Config.erasedBeforeMount (stateBefore source v).2.free % 65, (congrArg Host.Outcome.next reset).trans ?_, fun pin => ?_,
      Nat.le_of_lt_succ (Nat.mod_lt _ (by decide)), fun held => ?_, fun running => ?_⟩
    · cases source <;> rfl
    · subst pin
      have found : (stateBefore .pin v).1 = v.store.state := rfl
      rw [found]
      simp only [v]
      split <;> rfl
    · simp only [v]
      rw [if_pos held]
    · have same : v = cut s := if_neg (by rw [running]; exact Bool.false_ne_true)
      rw [same]
      exact cuts s.free
  case brownoutHeld => exact if_pos held
  case brownout =>
    exact ⟨cutArray s.free s.clock s.store, s.free + 1, cuts s.free,
      if_neg (by rw [free]; exact Bool.false_ne_true)⟩
  case undue =>
    have executed : exec .acqReset s = _ := (congrFun (exec_event rfl) s).trans (event_of_moves (P := anyPart)
      (acqReset_moves s trivial trivial trivial trivial trivial trivial trivial trivial trivial trivial) ⟨free, queue⟩)
    exact executed.trans (congrArg Host.Outcome.next (acqReset_undue none_))
  case acq =>
    have executed : exec .acqReset s = _ := (congrFun (exec_event rfl) s).trans (event_of_moves (P := anyPart)
      (acqReset_moves s trivial trivial trivial trivial trivial trivial trivial trivial trivial trivial) q)
    rw [acqReset_due idle owed] at executed
    obtain ⟨bus, roster, receive, tracker, rotation, sag, sites, capture, harm, survey, clock, print, supply, array,
      strapsT⟩ := acqReset_blocks shaped
    have strobe := frameEndWork_strobe s
    have undue : notice = false → s.link.noticeResetDue = false := fun h => by simp [Link.noticeResetDue, owed, h]
    have owedT : notice = false → (acqTaken (acqBlocks (frameEndWork s))).link.owed =
        if printDue then some ⟨⟨false, printDue, false⟩, true⟩ else none := fun h => by
      subst h
      refine acqTaken_owed ?_
      exact (((frameEndWork_owed s).trans (acqBlocks_owed _)) (undue rfl)).1.trans owed
    refine ⟨_, executed, bus, roster, receive, ?state, ?f, ?k, ?nco, ?kMoved, ?boundaryK, ?selection, ?inUse, ?wanted,
      ?lastCross, ?inLock, ?since, ?unlockSeen, ?det, rotation, sag, sites, ?rings, ?filled, harm, survey, clock, print, supply,
      array, strapsT, owedT, fun settled => ?rest⟩
    case rest =>
      rw [settled] at capture ⊢
      obtain ⟨storeT, harmT, noticesT⟩ := acqTaken_keeps (acqBlocks s)
      obtain ⟨eventsKept, queueT⟩ := acqBlocks_queue s
      generalize acqTaken (acqBlocks s) = t at *
      intro c time room events intervals told
      have link : told → Undue s.link := fun h => ⟨h.2.1, undue h.1⟩
      have up : room → storeUp s.store = true := fun h => (storeUp_iff _).2 ⟨h.1, h.2.1⟩
      refine ⟨acqCaptured_ends shaped capture, ?events, ?sites, fun h => ?track, fun h => ?rotations⟩
      case events =>
        intro site e hs he ready places ended
        obtain ⟨fits, queued⟩ := acqCaptured_records (up ready) ready.2.2 places hs he
        obtain ⟨id, siteR, number, start, captureR⟩ := resetRecord_keeps c (s := s) (site := site) (e := e)
        refine ⟨_, ?_, id, siteR, number, start, captureR, resetRecord_involved c, resetRecord_flags c fits,
          resetRecord_ends c, fun h mask => ?_⟩
        · rw [storeT]
          exact eventsKept.subset queued
        · rw [noticesT]
          have places' := h.2.2
          exact (acqBlocks_notices (link h)).subset
            (acqCaptured_told (up ready) ready.2.2 places hs he (link h) mask (by omega))
      case sites =>
        intro site role hs hr h due end_
        have site_ : harmSite t site = _ := (by rw [harmSite, harmT]; rfl : harmSite t site = harmSite (acqBlocks s) site).trans
          (acqBlocks_harm shaped hs)
        have member : harmMember t site role = _ :=
          (harmMember_of_harm harmT site role).trans (acqBlocks_harmMember shaped hs role)
        obtain ⟨members, basis, next, empty⟩ := acqIntervals_site shaped hs
        obtain ⟨_, none_, fresh⟩ := members role hr
        rw [member, site_]
        refine ⟨fun a runs ha => ⟨fresh a runs ha, fun counted ready places => ?_⟩, none_, empty, basis, next⟩
        obtain ⟨id, r, queued, figures⟩ := acqIntervals_records shaped runs (up ready) ready.2.2 (acqCaptured_grows s)
          places hs hr ha counted
        refine ⟨id, r, ?_, figures⟩
        rw [storeT, queueT]
        exact queued
      case track =>
        rw [noticesT]
        exact (acqBlocks_told (link h) h.2.2).1
      case rotations =>
        rw [noticesT]
        exact (acqBlocks_told (link h) h.2.2).2
    case rings => rw [capture, (acqCaptured_capture _).1]
    case filled =>
      rw [capture]
      exact acqCaptured_filled _
    case nco => rw [tracker, (trackerCleared_strobe _ _).1, strobe.nco]
    case kMoved => rw [tracker, (trackerCleared_strobe _ _).2.1, strobe.kMoved]
    case boundaryK => rw [tracker, (trackerCleared_strobe _ _).2.2, strobe.boundaryK, strobe.k]
    all_goals
      rw [tracker]
      rfl

end Sys2Proof.Machine
end

