-- ==== Sys2Proof/Proofs/StoreRules.lean ====
section
/-!
PROOFS. The store's shared operations, said once: its directory, the hand-over of free places, the entry into a
store state and the reclaim trigger.
-/

namespace Sys2Proof.Machine

/-! ### The directory -/

theorem find?_unique {α : Type} {p : α → Bool} {xs : List α} {x : α} (mem : x ∈ xs) (holds : p x = true)
    (unique : ∀ y ∈ xs, p y = true → y = x) : xs.find? p = some x := by
  cases h : xs.find? p with
  | none => exact absurd holds (List.find?_eq_none.1 h x mem)
  | some y => rw [unique y (List.mem_of_find?_eq_some h) (List.find?_some h)]

theorem isFor_iff {e : Entry} {kind : RecordKind} {id : Nat} :
    e.isFor kind id = true ↔ e.kind = kind ∧ e.id = id ∧ e.state ≠ .dead := by
  simp [Entry.isFor, and_assoc]

theorem findEntry_isFor {st : Store} {kind : RecordKind} {id : Nat} {e : Entry} (h : findEntry st kind id = some e) :
    e ∈ st.dir ∧ e.kind = kind ∧ e.id = id ∧ e.state ≠ .dead :=
  ⟨List.mem_of_find?_eq_some h, isFor_iff.1 (List.find?_some (p := fun e : Entry => e.isFor kind id) h)⟩

theorem mem_insertEntry {st : Store} {e x : Entry} : x ∈ (st.insertEntry e).dir ↔ x = e ∨ x ∈ st.dir := by
  rw [Store.insertEntry]
  exact (insertBy_perm Entry.rank e st.dir).mem_iff.trans List.mem_cons

theorem mem_removeEntry {st : Store} {kind : RecordKind} {id : Nat} {x : Entry} :
    x ∈ (st.removeEntry kind id).dir ↔ x ∈ st.dir ∧ x.isFor kind id = false := by
  rw [Store.removeEntry]
  simp

/-- An entry taken out and put back anew is the one found. -/
theorem findEntry_replaced {st : Store} {kind : RecordKind} {id : Nat} {e : Entry} (he : e.isFor kind id = true) :
    findEntry ((st.removeEntry kind id).insertEntry e) kind id = some e := by
  refine find?_unique (mem_insertEntry.2 (.inl rfl)) he fun y mem hy => ?_
  rcases mem_insertEntry.1 mem with rfl | there
  · rfl
  · rw [(mem_removeEntry.1 there).2] at hy
    exact absurd hy Bool.false_ne_true

theorem findEntry_prefix {st t : Store} {kind : RecordKind} {id : Nat} {e : Entry} (kept : st.dir <+: t.dir)
    (h : findEntry st kind id = some e) : findEntry t kind id = some e := by
  obtain ⟨more, same⟩ := kept
  rw [findEntry, ← same, List.find?_append]
  exact Option.or_eq_some_iff.2 (.inl h)

section
variable {e : Entry} {seq size : Nat} {loc : Nat × Nat} {cause : MarkCause} {st : Store}

/-- The entry of a record at its new place. -/
def Entry.moved (e : Entry) (seq : Nat) (loc : Nat × Nat) (size : Nat) : Entry :=
  { e with seq := some seq, loc := some loc, size := size, reclaim := false }

theorem findEntry_moveEntry (alive : e.state ≠ .dead) :
    findEntry (st.moveEntry e seq loc size cause) e.kind e.id = some (e.moved seq loc size) := by
  have found : (e.moved seq loc size).isFor e.kind e.id = true := isFor_iff.2 ⟨rfl, rfl, alive⟩
  unfold Store.moveEntry
  dsimp only
  split
  · next old _ =>
    refine find?_unique (mem_insertEntry.2 (.inr (mem_insertEntry.2 (.inl rfl)))) found fun y mem hy => ?_
    rcases mem_insertEntry.1 mem with rfl | mem
    · exact absurd rfl (isFor_iff.1 hy).2.2
    · rcases mem_insertEntry.1 mem with rfl | there
      · rfl
      · rw [(mem_removeEntry.1 there).2] at hy
        exact absurd hy Bool.false_ne_true
  · exact findEntry_replaced found

theorem moveEntry_old {old : Nat × Nat} (h : e.loc = some old) :
    (∃ d ∈ (st.moveEntry e seq loc size cause).dir, d.kind = e.kind ∧ d.id = e.id ∧ d.state = .dead ∧ d.loc = some old) ∧
      (st.moveEntry e seq loc size cause).marks = st.marks ++ [⟨old, cause⟩] := by
  unfold Store.moveEntry
  rw [h]
  exact ⟨⟨_, mem_insertEntry.2 (.inl rfl), rfl, rfl, rfl, rfl⟩, rfl⟩

end

/-- What a change of the directory and of the marks leaves. -/
structure DirMoves (st t : Store) : Prop where
  array : t.array = st.array
  state : t.state = st.state
  queue : t.queue = st.queue
  limits : t.limits = st.limits
  nextIds : t.nextIds = st.nextIds
  opening : t.opening = st.opening
  extSector : t.extSector = st.extSector
  lockMark : t.lockMark = st.lockMark
  intervalDrops : t.intervalDrops = st.intervalDrops

theorem moveEntry_keeps (e : Entry) (seq : Nat) (loc : Nat × Nat) (size : Nat) (cause : MarkCause) (st : Store) :
    DirMoves st (st.moveEntry e seq loc size cause) := by
  unfold Store.moveEntry
  dsimp only
  split <;> constructor <;> rfl

theorem recordWritten_keeps (q : QueueItem) (seq : Nat) (loc : Nat × Nat) (size : Nat) (st : Store) :
    DirMoves st (st.recordWritten q seq loc size) := by
  unfold Store.recordWritten
  split
  · constructor <;> rfl
  · split
    · exact moveEntry_keeps _ _ _ _ _ _
    · constructor <;> rfl

/-! ### The hand-over of free places -/

/-- What a hand-over of free places leaves of the store. -/
structure HandKeeps (st t : Store) : Prop where
  array : t.array = st.array
  state : t.state = st.state
  mode : t.mode = st.mode
  dir : st.dir <+: t.dir
  queue : st.queue <+: t.queue
  op : t.op = st.op
  limits : t.limits = st.limits
  nextSeq : t.nextSeq = st.nextSeq
  extSector : t.extSector = st.extSector
  marks : t.marks = st.marks
  opening : t.opening = st.opening
  reclaim : t.reclaim = st.reclaim
  lockMark : t.lockMark = st.lockMark

namespace HandKeeps
variable {s t u : Store}

theorem refl (s : Store) : HandKeeps s s :=
  ⟨rfl, rfl, rfl, List.prefix_refl _, List.prefix_refl _, rfl, rfl, rfl, rfl, rfl, rfl, rfl, rfl⟩

theorem trans (h : HandKeeps s t) (k : HandKeeps t u) : HandKeeps s u :=
  ⟨k.array.trans h.array, k.state.trans h.state, k.mode.trans h.mode, h.dir.trans k.dir, h.queue.trans k.queue,
    k.op.trans h.op, k.limits.trans h.limits, k.nextSeq.trans h.nextSeq, k.extSector.trans h.extSector,
    k.marks.trans h.marks, k.opening.trans h.opening, k.reclaim.trans h.reclaim, k.lockMark.trans h.lockMark⟩

theorem of_drawId (kind : RecordKind) (s : Store) : HandKeeps s (drawId kind s).2 := by
  unfold drawId
  dsimp only
  split <;> exact ⟨rfl, rfl, rfl, List.prefix_refl _, List.prefix_refl _, rfl, rfl, rfl, rfl, rfl, rfl, rfl, rfl⟩

theorem of_enqueue (id : Nat) (c : Content) (links : Links) (s : Store) : HandKeeps s (s.enqueue id c links) :=
  ⟨rfl, rfl, rfl, List.prefix_append _ _, List.prefix_append _ _, rfl, rfl, rfl, rfl, rfl, rfl, rfl, rfl⟩

theorem of_handInterval (s : State) : HandKeeps s.store (handInterval s).store := by
  unfold handInterval
  split
  · exact refl _
  · dsimp only
    split
    · exact refl _
    · split
      · exact ⟨rfl, rfl, rfl, List.prefix_refl _, List.prefix_refl _, rfl, rfl, rfl, rfl, rfl, rfl, rfl, rfl⟩
      · exact (of_drawId .interval _).trans (of_enqueue _ _ _ _)

theorem of_handIntervals (n : Nat) : ∀ s : State, HandKeeps s.store (handIntervals n s).store := by
  induction n with
  | zero => exact fun s => refl _
  | succ n ih => exact fun s => (of_handInterval s).trans (ih _)

theorem of_offerSurvey (s : State) : HandKeeps s.store (offerSurvey s).store := by
  unfold offerSurvey
  split
  · exact refl _
  · split
    · exact (of_drawId .survey _).trans (of_enqueue _ _ _ _)
    · exact refl _

theorem of_announcePlace (s : State) : HandKeeps s.store (announcePlace s).store := by
  unfold announcePlace
  dsimp only
  split
  · have drawn : HandKeeps s.store (drawFree s).2.store := refl _
    exact ((drawn.trans (of_handIntervals _ _)).trans (of_offerSurvey _)).trans (of_handIntervals _ _)
  · exact (of_offerSurvey _).trans (of_handIntervals _ _)

end HandKeeps

theorem handIntervals_link (n : Nat) : ∀ s : State, (handIntervals n s).link = s.link := by
  induction n with
  | zero => exact fun _ => rfl
  | succ n ih =>
    intro s
    refine (ih _).trans ?_
    unfold handInterval
    split
    · rfl
    · dsimp only
      split
      · rfl
      · split <;> rfl

theorem offerSurvey_link (s : State) : (offerSurvey s).link = s.link := by
  unfold offerSurvey
  split
  · rfl
  · split <;> rfl

theorem announcePlace_link (s : State) : (announcePlace s).link = s.link := by
  unfold announcePlace
  dsimp only
  split
  · rw [handIntervals_link, offerSurvey_link, handIntervals_link]
    rfl
  · rw [handIntervals_link, offerSurvey_link]

theorem announcePlace_idle {s : State} (place : s.survey.place = none) (waits : nextWaiting s = none) :
    announcePlace s = s := by
  unfold announcePlace
  rw [place, waits]
  dsimp only
  rw [offerSurvey_none s place]
  exact handIntervals_none _ s waits

/-! ### Entering a store state -/

theorem enterStore_store (new : StoreState) (s : State) : (enterStore new s).store = { s.store with state := new } := by
  unfold enterStore
  rw [postWhen_store]
  rfl

theorem enterStore_rest (new : StoreState) (s : State) : (enterStore new s).survey = s.survey ∧
    (enterStore new s).harm = s.harm ∧ (enterStore new s).clock = s.clock := by
  unfold enterStore postWhen
  dsimp only
  split <;> exact ⟨rfl, rfl, rfl⟩

theorem chooseReclaim_some {s : State} {sector : Nat} (h : reclaimChoice s.store = some sector) :
    chooseReclaim s = enterStore .reclaiming (setStore (Store.chooseSector sector) s) := by
  unfold chooseReclaim
  rw [h]
  rfl

theorem chooseReclaim_none {s : State} (h : reclaimChoice s.store = none) : chooseReclaim s = enterStore .full s := by
  unfold chooseReclaim
  rw [h]

/-- What the trigger leaves of the store (R125, R126). -/
structure TriggerKeeps (st t : Store) : Prop where
  array : t.array = st.array
  queue : t.queue = st.queue
  op : t.op = st.op
  limits : t.limits = st.limits
  nextIds : t.nextIds = st.nextIds
  extSector : t.extSector = st.extSector
  marks : t.marks = st.marks
  opening : t.opening = st.opening
  lockMark : t.lockMark = st.lockMark
  intervalDrops : t.intervalDrops = st.intervalDrops
  reclaims : t.reclaims = st.reclaims

theorem TriggerKeeps.refl (st : Store) : TriggerKeeps st st := by constructor <;> rfl

theorem chooseReclaim_keeps (s : State) : TriggerKeeps s.store (chooseReclaim s).store := by
  cases h : reclaimChoice s.store with
  | some sector =>
    rw [chooseReclaim_some h, enterStore_store]
    constructor <;> rfl
  | none =>
    rw [chooseReclaim_none h, enterStore_store]
    constructor <;> rfl

/-- The state that the trigger leads to. -/
theorem chooseReclaim_state (s : State) : (∀ sector, reclaimChoice s.store = some sector →
      (chooseReclaim s).store.state = .reclaiming ∧ (chooseReclaim s).store.reclaim.map (·.sector) = some sector) ∧
    (reclaimChoice s.store = none → (chooseReclaim s).store.state = .full) := by
  refine ⟨fun sector h => ?_, fun h => ?_⟩
  · rw [chooseReclaim_some h, enterStore_store]
    exact ⟨rfl, rfl⟩
  · rw [chooseReclaim_none h, enterStore_store]

theorem chooseReclaim_ends (s : State) :
    (chooseReclaim s).store.state = .reclaiming ∨ (chooseReclaim s).store.state = .full := by
  obtain ⟨some_, none_⟩ := chooseReclaim_state s
  cases h : reclaimChoice s.store with
  | some sector => exact .inl (some_ sector h).1
  | none => exact .inr (none_ h)

theorem chooseReclaim_rest (s : State) : (chooseReclaim s).survey = s.survey ∧
    (chooseReclaim s).harm = s.harm ∧ (chooseReclaim s).clock = s.clock := by
  cases h : reclaimChoice s.store with
  | some sector => rw [chooseReclaim_some h]; exact enterStore_rest _ _
  | none => rw [chooseReclaim_none h]; exact enterStore_rest _ _

/-! ### The reply place of a transmitter that sends -/

/-- From `s` to `t` no request is answered and no reply is made, where the transmitter sends and no RESET is in
progress. -/
def ReplyKept (s t : State) : Prop :=
  Sends s.link → Sends t.link ∧ t.link.reply = s.link.reply ∧ t.link.current = s.link.current

namespace ReplyKept
variable {s t u : State}

theorem of_link (h : t.link = s.link) : ReplyKept s t := fun sends => by
  rw [h]
  exact ⟨sends, rfl, rfl⟩

theorem trans (h : ReplyKept s t) (k : ReplyKept t u) : ReplyKept s u := fun sends => by
  obtain ⟨sendsT, reply, current⟩ := h sends
  obtain ⟨sendsU, reply', current'⟩ := k sendsT
  exact ⟨sendsU, reply'.trans reply, current'.trans current⟩

theorem of_post (b : NoticeBody) (s : State) : ReplyKept s (post b s) := fun sends => by
  refine ⟨(post_appends b sends).sends sends, ?_⟩
  rw [post_unowed b s sends.unowed]
  unfold Link.offerNotice
  split
  · exact ⟨rfl, rfl⟩
  · split
    · rw [startTransmit_of_sends (l := { s.link with notices := s.link.notices ++ _ }) sends.busy]
      exact ⟨rfl, rfl⟩
    · exact ⟨rfl, rfl⟩

theorem of_postWhen (c : Bool) (b : NoticeBody) (s : State) : ReplyKept s (postWhen c b s) := by
  unfold postWhen
  split
  · exact of_post b s
  · exact of_link rfl

theorem of_enterStore (new : StoreState) (s : State) : ReplyKept s (enterStore new s) := by
  unfold enterStore
  exact (of_link (t := setStore (fun st => { st with state := new }) s) rfl).trans (of_postWhen _ _ _)

theorem of_chooseReclaim (s : State) : ReplyKept s (chooseReclaim s) := by
  cases h : reclaimChoice s.store with
  | some sector =>
    rw [chooseReclaim_some h]
    exact (of_link (t := setStore (Store.chooseSector sector) s) rfl).trans (of_enterStore _ _)
  | none => rw [chooseReclaim_none h]; exact of_enterStore _ _

end ReplyKept

/-! ### The next array operation -/

section
variable {st : Store}

/-- An owed mark is owed still, or the array has begun it. -/
theorem mem_next_marks {m : Mark} (owed : m ∈ st.marks) : m ∈ st.next.marks ∨ st.next.op = some (.mark m) := by
  unfold Store.next
  split
  · exact .inl owed
  · split
    · exact .inl owed
    · next first rest _ marks =>
      rw [marks] at owed
      rcases List.mem_cons.1 owed with rfl | later
      · exact .inr rfl
      · exact .inl later
    · next _ marks =>
      rw [marks] at owed
      exact absurd owed List.not_mem_nil

theorem next_dir_ready (h : st.state = .ready) : st.next.dir = st.dir := (next_pinsAlone (.inl h)).1

/-- While a mark is owed the array takes no reclaim step. -/
theorem next_dir_owed {m : Mark} (owed : m ∈ st.marks) : st.next.dir = st.dir := by
  unfold Store.next
  split
  · rfl
  · split
    · rfl
    · rfl
    · next _ marks =>
      rw [marks] at owed
      exact absurd owed List.not_mem_nil

theorem openPlace_extSector (loc : Nat × Nat) (opened : Bool) (st : Store) :
    (st.openPlace loc opened).extSector = st.extSector := by
  unfold Store.openPlace
  dsimp only
  split <;> rfl

theorem beginWrite_extSector (st : Store) : (beginWrite st).extSector = st.extSector := by
  unfold beginWrite
  split
  · rfl
  · dsimp only
    split
    · exact openPlace_extSector _ _ _
    · rfl

theorem nextReclaim_extSector (st : Store) : (nextReclaim st).extSector = st.extSector := by
  unfold nextReclaim
  split
  · rfl
  · split
    · dsimp only
      split
      · split
        · exact openPlace_extSector _ _ _
        · rfl
      · rfl
    · rfl

theorem next_extSector (st : Store) : st.next.extSector = st.extSector := by
  unfold Store.next
  split
  · rfl
  · split
    · rfl
    · rfl
    · split
      · exact nextReclaim_extSector st
      · exact beginWrite_extSector st
      · rfl

end

/-! ### The hand-over seen from another state -/

/-- What a hand-over reads of the state it begins in and of the state it leaves. -/
structure HandsAlike (s m : State) : Prop where
  state : m.store.state = s.store.state
  nextIds : m.store.nextIds = s.store.nextIds
  intervalDrops : m.store.intervalDrops = s.store.intervalDrops
  place : m.survey.place = s.survey.place
  clock : m.clock = s.clock
  harm : m.harm = s.harm

theorem HandsOver.of_alike {rest : List QueueItem} {s m p t : State} (h : HandsOver rest m p) (from_ : HandsAlike s m)
    (queue : t.store.queue = p.store.queue) (drops : t.store.intervalDrops = p.store.intervalDrops)
    (place : t.survey.place = p.survey.place) (harm : t.harm = p.harm) : HandsOver rest s t := by
  obtain ⟨state, nextIds, intervalDrops, surveyPlace, clock, harmS⟩ := from_
  unfold HandsOver WaitingInOrder harmMember harmSite at *
  rwa [state, nextIds, intervalDrops, surveyPlace, clock, harmS, ← queue, ← drops, ← place, ← harm] at h

end Sys2Proof.Machine
end

