-- ==== Sys2Proof/Proofs/RecordWrites.lean ====
section
/-!
PROOFS. The ends of a record write and of a relocation copy (O51).
-/

namespace Sys2Proof.Machine

/-! ### The sizes of records (R117) -/

theorem pieces_length {α : Type} (n : Nat) (pos : 0 < n) (fuel : Nat) :
    ∀ xs : List α, xs.length ≤ n * fuel → (pieces n fuel xs).length = (xs.length + (n - 1)) / n := by
  induction fuel with
  | zero =>
    intro xs short
    have empty : xs.length = 0 := Nat.le_zero.1 short
    rw [empty, Nat.zero_add, Nat.div_eq_of_lt (by omega)]
    rfl
  | succ fuel ih =>
    intro xs short
    cases xs with
    | nil => exact (Nat.div_eq_of_lt (by simp; omega)).symm
    | cons x xs =>
      have more : (pieces n fuel ((x :: xs).drop n)).length = (((x :: xs).drop n).length + (n - 1)) / n :=
        ih _ (by rw [List.length_drop]; rw [Nat.mul_succ] at short; omega)
      have step : (pieces n (fuel + 1) (x :: xs)).length = (pieces n fuel ((x :: xs).drop n)).length + 1 := rfl
      rw [step, more, List.length_drop]
      have some_ : 0 < (x :: xs).length := Nat.succ_pos _
      generalize (x :: xs).length = len at *
      by_cases one : len ≤ n
      · rw [Nat.sub_eq_zero_of_le one, Nat.zero_add, Nat.div_eq_of_lt (by omega)]
        exact (Nat.div_eq_of_lt_le (by omega) (by omega)).symm
      · rw [show len + (n - 1) = len - n + (n - 1) + n by omega, Nat.add_div_right _ pos]

theorem contentSize_interval {id : Nat} {r : IntervalRecord} (h : r.orders.length ≤ 64) :
    contentSize (.interval id r) = 1 + (r.orders.length + 15) / 16 := by
  have bytes : (r.orders.flatMap orderBytes).length = 8 * r.orders.length := by
    have each : r.orders.map (fun o => (orderBytes o).length) = r.orders.map fun _ => 8 :=
      List.map_congr_left fun _ _ => rfl
    rw [List.length_flatMap, each, List.map_const', List.sum_replicate_nat]
    omega
  have size : contentSize (.interval id r) = 1 + (pieces 128 4 (r.orders.flatMap orderBytes)).length := rfl
  rw [size, pieces_length 128 (by decide) 4 _ (by omega), bytes]
  omega

theorem contentSize_note {r : NoteRecord} (h : r.text.length ≤ 600) :
    contentSize (.note r) = 1 + (r.text.length + 199) / 200 :=
  congrArg (1 + ·) (pieces_length 200 (by decide) 3 _ h)

/-! ### The bytes of a record (R117) -/

/-- The limits, the bytes and the extension sector that programming a record leaves. -/
structure Programs (kind : RecordKind) (id seq : Nat) (loc : Nat × Nat) (c : Content) (st t : Store) : Prop where
  array : t.array = Memory.write st.array (blockAddress loc)
    (recordBytes (headerOf kind (contentSize c) id seq (carriedLimits st)) c)
  limits : t.limits = carriedLimits st
  extSector : t.extSector = none

section
variable {kind : RecordKind} {id seq : Nat} {loc : Nat × Nat} {c : Content} {st t u : Store}

theorem Programs.of_program : Programs kind id seq loc c st (st.program kind id seq loc c) := ⟨rfl, rfl, rfl⟩

theorem Programs.kept (h : Programs kind id seq loc c st t) (array : u.array = t.array) (limits : u.limits = t.limits)
    (extSector : u.extSector = t.extSector) : Programs kind id seq loc c st u :=
  ⟨array.trans h.array, limits.trans h.limits, extSector.trans h.extSector⟩

theorem Programs.of_dirMoves (h : Programs kind id seq loc c st t) (k : DirMoves t u) : Programs kind id seq loc c st u :=
  h.kept k.array k.limits k.extSector

theorem Programs.next (h : Programs kind id seq loc c st t) : Programs kind id seq loc c st t.next :=
  h.kept (next_keeps t).array (next_keeps t).limits (next_extSector t)

end

/-! ### The end of a write -/

theorem writeEnds_programs (q : QueueItem) (rest : List QueueItem) (seq : Nat) (loc : Nat × Nat) (size : Nat) (st : Store) :
    Programs q.kind q.id seq loc q.content st (st.writeEnds q rest seq loc size) :=
  (Programs.of_program.of_dirMoves (recordWritten_keeps q seq loc size _)).kept rfl rfl rfl

/-- What the end of a write leaves of the store, but for its bytes, its directory and its queue. -/
theorem writeEnds_keeps (q : QueueItem) (rest : List QueueItem) (seq : Nat) (loc : Nat × Nat) (size : Nat) (st : Store) :
    let t := st.writeEnds q rest seq loc size
    t.state = st.state ∧ t.nextIds = st.nextIds ∧ t.opening = st.opening ∧ t.lockMark = st.lockMark ∧
      t.intervalDrops = st.intervalDrops := by
  have k := recordWritten_keeps q seq loc size (st.program q.kind q.id seq loc q.content)
  exact ⟨k.state, k.nextIds, k.opening, k.lockMark, k.intervalDrops⟩

theorem findEntry_program (kind : RecordKind) (id seq : Nat) (loc : Nat × Nat) (c : Content) (st : Store) (k : RecordKind)
    (i : Nat) : findEntry (st.program kind id seq loc c) k i = findEntry st k i := rfl

section
variable {q : QueueItem} {rest : List QueueItem} {seq : Nat} {loc : Nat × Nat} {size : Nat} {st : Store} {e : Entry}

/-- A record's first write makes its entry LIVE. -/
theorem writeEnds_first (found : findEntry st q.kind q.id = some e) (first : q.replacement = false) :
    findEntry (st.writeEnds q rest seq loc size) q.kind q.id =
      some { e with seq := some seq, loc := some loc, size := size, state := .live } := by
  obtain ⟨_, kind, id, _⟩ := findEntry_isFor found
  have written : (st.writeEnds q rest seq loc size).dir =
      (((st.program q.kind q.id seq loc q.content).removeEntry q.kind q.id).insertEntry
        { e with seq := some seq, loc := some loc, size := size, state := .live }).dir := by
    unfold Store.writeEnds Store.recordWritten
    rw [findEntry_program, found]
    dsimp only
    rw [first]
    rfl
  exact (findEntry_of_dir written q.kind q.id).trans (findEntry_replaced (isFor_iff.2 ⟨kind, id, by simp⟩))

/-- A replacement moves the entry, and owes a DEAD mark for the old copy. -/
theorem writeEnds_replacement (found : findEntry st q.kind q.id = some e) (replaces : q.replacement = true) :
    findEntry (st.writeEnds q rest seq loc size) q.kind q.id = some (e.moved seq loc size) ∧
      ∀ old, e.loc = some old → ⟨old, .replacement⟩ ∈ (st.writeEnds q rest seq loc size).marks := by
  obtain ⟨_, kind, id, alive⟩ := findEntry_isFor found
  have written : (st.program q.kind q.id seq loc q.content).recordWritten q seq loc size =
      (st.program q.kind q.id seq loc q.content).moveEntry e seq loc size .replacement := by
    unfold Store.recordWritten
    rw [findEntry_program, found]
    dsimp only
    rw [if_pos replaces]
  constructor
  · rw [← kind, ← id]
    refine (findEntry_of_dir (congrArg Store.dir written) e.kind e.id).trans (findEntry_moveEntry alive)
  · intro old hold
    have marks : (st.writeEnds q rest seq loc size).marks = st.marks ++ [⟨old, .replacement⟩] :=
      (congrArg Store.marks written).trans (moveEntry_old hold).2
    rw [marks]
    exact List.mem_append_right _ (List.mem_singleton.2 rfl)

/-- The entry of a record that has been written, at its place. -/
def LiveAt (e : Entry) (seq : Nat) (loc : Nat × Nat) (size : Nat) (t : Store) : Prop :=
  ∃ e', findEntry t e.kind e.id = some e' ∧ e'.seq = some seq ∧ e'.loc = some loc ∧ e'.size = size ∧
    e'.links = e.links ∧ e'.pins = e.pins

theorem writeEnds_live (found : findEntry st q.kind q.id = some e) :
    LiveAt e seq loc size (st.writeEnds q rest seq loc size) := by
  obtain ⟨_, kind, id, _⟩ := findEntry_isFor found
  unfold LiveAt
  rw [kind, id]
  cases replaces : q.replacement with
  | false => exact ⟨_, writeEnds_first found replaces, rfl, rfl, rfl, rfl, rfl⟩
  | true => exact ⟨_, (writeEnds_replacement found replaces).1, rfl, rfl, rfl, rfl, rfl⟩

end

/-! ### The lock mark that a written record sets (R145) -/

/-- The lock mark after a record has been written. -/
def lockMarkAfter (c : Content) (old : Nat) : Nat :=
  match c with
  | .lockMark r => r.mark
  | _ => old

theorem markWritten_store (c : Content) (s : State) :
    (markWritten c s).store = { s.store with lockMark := lockMarkAfter c s.store.lockMark } := by
  cases c with
  | lockMark r =>
    unfold markWritten lockWritten answer
    dsimp only
    rw [post_store]
    rfl
  | _ => rfl

theorem markWritten_rest (c : Content) (s : State) :
    (markWritten c s).survey = s.survey ∧ (markWritten c s).clock = s.clock ∧ (markWritten c s).harm = s.harm := by
  cases c with
  | lockMark r => exact ⟨rfl, rfl, rfl⟩
  | _ => exact ⟨rfl, rfl, rfl⟩

/-- The NOTE_LOCK in progress is answered (R145). -/
theorem lockWritten_answers (r : LockRecord) {s : State} {kind : Nat} {tag : Byte} {clamped : Bool}
    (current : s.link.current = some ⟨kind, tag, clamped⟩) (sends : Sends s.link) :
    let t := lockWritten r s
    Sends t.link ∧ t.link.current = none ∧ t.link.reply =
      some ⟨replyKind kind, tag, if clamped then .okClamped else .ok, if clamped then .lockMark r.mark else .empty⟩ := by
  have posted := fun b => ReplyKept.of_post b (setStore (fun st => { st with lockMark := r.mark }) s) sends
  unfold lockWritten answer
  rw [current]
  dsimp only
  generalize (s.store.dir.filter _).length = count
  obtain ⟨sendsP, _, currentP⟩ := posted (.noteLocked r.mark s.store.lockMark r.id count)
  exact ⟨(linkAnswer_appends _ _ sendsP).sends sendsP, linkAnswer_current _ _ _,
    linkAnswer_reply (currentP.trans current) sendsP.busy⟩

/-! ### The trigger (R125) -/

theorem headTrigger_due {opened : Bool} {s : State} (opens : opened = true) (few : s.store.opening.countP (·.isNone) < 2)
    (ready : s.store.state = .ready) : headTrigger opened s = chooseReclaim s := by
  refine if_pos ?_
  rw [opens, erasedSectors_length, ready, decide_eq_true few]
  rfl

theorem headTrigger_undue {opened : Bool} {s : State} (h : opened = false ∨ 2 ≤ s.store.opening.countP (·.isNone)) :
    headTrigger opened s = s := by
  refine if_neg ?_
  rcases h with shut | enough
  · rw [shut]
    simp
  · rw [erasedSectors_length, decide_eq_false (Nat.not_lt.2 enough), Bool.and_false]
    simp

section
variable (opened : Bool) (s : State)

theorem headTrigger_keeps : TriggerKeeps s.store (headTrigger opened s).store := by
  unfold headTrigger
  split
  · exact chooseReclaim_keeps s
  · exact .refl _

theorem headTrigger_rest : (headTrigger opened s).survey = s.survey ∧ (headTrigger opened s).harm = s.harm := by
  unfold headTrigger
  split
  · exact ⟨(chooseReclaim_rest s).1, (chooseReclaim_rest s).2.1⟩
  · exact ⟨rfl, rfl⟩

theorem headTrigger_replyKept : ReplyKept s (headTrigger opened s) := by
  unfold headTrigger
  split
  · exact .of_chooseReclaim s
  · exact .of_link rfl

end

/-! ### The state after a write -/

section
variable (q : QueueItem) (rest : List QueueItem) (seq : Nat) (loc : Nat × Nat) (size : Nat) (opened : Bool) (s : State)

/-- The state with the record written and its lock mark told, before its place is handed on. -/
@[irreducible] def recordProgrammed : State :=
  markWritten q.content (setStore (Store.writeEnds q rest seq loc size) s)

/-- The state with the free place handed on, before the array takes its next operation. -/
@[irreducible] def placeHandedOn : State := headTrigger opened (announcePlace (recordProgrammed q rest seq loc size s))

theorem recordWriteDone_eq (op : s.store.op = some (.write seq loc size opened)) (queue : s.store.queue = q :: rest)
    (up : s.store.state ≠ .wiping) :
    recordWriteDone s = storeNext (placeHandedOn q rest seq loc size opened s) := by
  have whole : recordWriteDone s = afterWrite opened (recordProgrammed q rest seq loc size s) := by
    unfold recordWriteDone recordProgrammed
    rw [op, queue]
  rw [whole]
  unfold placeHandedOn
  refine if_neg ?_
  unfold recordProgrammed
  rw [markWritten_store]
  exact fun h => up ((writeEnds_keeps q rest seq loc size s.store).1.symm.trans h)

theorem recordProgrammed_store : (recordProgrammed q rest seq loc size s).store =
    { s.store.writeEnds q rest seq loc size with lockMark := lockMarkAfter q.content s.store.lockMark } := by
  unfold recordProgrammed
  rw [markWritten_store]
  have kept := (writeEnds_keeps q rest seq loc size s.store).2.2.2.1
  have told : (setStore (Store.writeEnds q rest seq loc size) s).store.lockMark = s.store.lockMark := kept
  rw [told]
  rfl

theorem recordProgrammed_alike : HandsAlike s (recordProgrammed q rest seq loc size s) := by
  obtain ⟨state, nextIds, _, _, drops⟩ := writeEnds_keeps q rest seq loc size s.store
  obtain ⟨survey, clock, harm⟩ := markWritten_rest q.content (setStore (Store.writeEnds q rest seq loc size) s)
  constructor
  · rw [recordProgrammed_store]; exact state
  · rw [recordProgrammed_store]; exact nextIds
  · rw [recordProgrammed_store]; exact drops
  · unfold recordProgrammed; rw [survey]; rfl
  · unfold recordProgrammed; rw [clock]; rfl
  · unfold recordProgrammed; rw [harm]; rfl

/-- What the hand-over and the trigger leave of the store that a written record leaves. -/
theorem placeHandedOn_store :
    let m := s.store.writeEnds q rest seq loc size
    let h := (placeHandedOn q rest seq loc size opened s).store
    h.array = m.array ∧ h.limits = m.limits ∧ h.extSector = m.extSector ∧ h.marks = m.marks ∧
      h.lockMark = lockMarkAfter q.content s.store.lockMark ∧ rest <+: h.queue := by
  have hand := HandKeeps.of_announcePlace (recordProgrammed q rest seq loc size s)
  have trigger := headTrigger_keeps opened (announcePlace (recordProgrammed q rest seq loc size s))
  rw [recordProgrammed_store] at hand
  unfold placeHandedOn
  refine ⟨trigger.array.trans hand.array, trigger.limits.trans hand.limits, trigger.extSector.trans hand.extSector,
    trigger.marks.trans hand.marks, trigger.lockMark.trans hand.lockMark, ?_⟩
  rw [trigger.queue]
  exact hand.queue

/-- Where the trigger is not due, the hand-over keeps the store's state and the entries of its directory. -/
theorem placeHandedOn_untriggered (h : opened = false ∨ 2 ≤ s.store.opening.countP (·.isNone)) :
    (placeHandedOn q rest seq loc size opened s).store.state = s.store.state ∧
      (s.store.writeEnds q rest seq loc size).dir <+: (placeHandedOn q rest seq loc size opened s).store.dir := by
  have hand := HandKeeps.of_announcePlace (recordProgrammed q rest seq loc size s)
  rw [recordProgrammed_store] at hand
  obtain ⟨state, _, opening, _, _⟩ := writeEnds_keeps q rest seq loc size s.store
  unfold placeHandedOn
  rw [headTrigger_undue (h.imp_right fun enough => by rw [hand.opening]; exact opening.symm ▸ enough)]
  exact ⟨hand.state.trans state, hand.dir⟩

/-- Where it is due, the store is RECLAIMING or FULL. -/
theorem placeHandedOn_triggered (ready : s.store.state = .ready) (opens : opened = true)
    (few : s.store.opening.countP (·.isNone) < 2) :
    (placeHandedOn q rest seq loc size opened s).store.state = .reclaiming ∨
      (placeHandedOn q rest seq loc size opened s).store.state = .full := by
  have hand := HandKeeps.of_announcePlace (recordProgrammed q rest seq loc size s)
  rw [recordProgrammed_store] at hand
  obtain ⟨state, _, opening, _, _⟩ := writeEnds_keeps q rest seq loc size s.store
  unfold placeHandedOn
  rw [headTrigger_due opens (by rw [hand.opening]; exact opening.symm ▸ few) (hand.state.trans (state.trans ready))]
  exact chooseReclaim_ends _

/-- The free place goes to the records that wait. -/
theorem placeHandedOn_handsOver (up : storeUp s.store = true) :
    HandsOver rest s (placeHandedOn q rest seq loc size opened s) := by
  have alike := recordProgrammed_alike q rest seq loc size s
  have upM : storeUp (recordProgrammed q rest seq loc size s).store = true := by
    rw [storeUp, alike.state]
    exact up
  have queue : (recordProgrammed q rest seq loc size s).store.queue = rest := by
    rw [recordProgrammed_store]
    rfl
  have handed := announcePlace_handsOver _ upM
  rw [queue] at handed
  have trigger := headTrigger_keeps opened (announcePlace (recordProgrammed q rest seq loc size s))
  obtain ⟨survey, harm⟩ := headTrigger_rest opened (announcePlace (recordProgrammed q rest seq loc size s))
  unfold placeHandedOn
  exact handed.of_alike alike trigger.queue trigger.intervalDrops (congrArg Survey.place survey) harm

theorem placeHandedOn_idle (place : s.survey.place = none) (waits : nextWaiting s = none) :
    (placeHandedOn q rest seq loc size opened s).store.queue = rest := by
  have alike := recordProgrammed_alike q rest seq loc size s
  have waitsM : nextWaiting (recordProgrammed q rest seq loc size s) = none := by
    have same : ∀ m : State, m.harm = s.harm → nextWaiting m = nextWaiting s := fun m h => by
      unfold nextWaiting harmMember harmSite
      rw [h]
    exact (same _ alike.harm).trans waits
  unfold placeHandedOn
  rw [(headTrigger_keeps opened _).queue, announcePlace_idle (alike.place.trans place) waitsM, recordProgrammed_store]
  rfl

/-- The NOTE_LOCK in progress is answered (R145). -/
theorem placeHandedOn_answer {r : LockRecord} (lock : q.content = .lockMark r) {kind : Nat} {tag : Byte} {clamped : Bool}
    (current : s.link.current = some ⟨kind, tag, clamped⟩) (sends : Sends s.link) :
    (placeHandedOn q rest seq loc size opened s).link.current = none ∧
      (placeHandedOn q rest seq loc size opened s).link.reply =
        some ⟨replyKind kind, tag, if clamped then .okClamped else .ok, if clamped then .lockMark r.mark else .empty⟩ := by
  have written : recordProgrammed q rest seq loc size s = lockWritten r (setStore (Store.writeEnds q rest seq loc size) s) := by
    unfold recordProgrammed
    rw [lock]
    rfl
  obtain ⟨sendsM, none_, reply⟩ :=
    lockWritten_answers r (s := setStore (Store.writeEnds q rest seq loc size) s) current sends
  rw [← written] at sendsM none_ reply
  have handed : ReplyKept (recordProgrammed q rest seq loc size s) (announcePlace (recordProgrammed q rest seq loc size s)) :=
    .of_link (announcePlace_link _)
  obtain ⟨_, replyH, currentH⟩ := handed.trans (headTrigger_replyKept opened _) sendsM
  unfold placeHandedOn
  exact ⟨currentH.trans none_, replyH.trans reply⟩

end

/-! ### The end of a relocation copy -/

section
variable {e : Entry} {seq : Nat} {loc : Nat × Nat} {size : Nat} {c : Content} {st : Store}

theorem copyEnds_keeps : DirMoves (st.program e.kind e.id seq loc c) (st.copyEnds e seq loc size c) := by
  obtain ⟨array, state, queue, limits, nextIds, opening, extSector, lockMark, drops⟩ :=
    moveEntry_keeps e seq loc size .relocation (st.program e.kind e.id seq loc c)
  exact ⟨array, state, queue, limits, nextIds, opening, extSector, lockMark, drops⟩

theorem copyEnds_live (alive : e.state ≠ .dead) : LiveAt e seq loc size (st.copyEnds e seq loc size c) :=
  ⟨_, (findEntry_of_dir rfl e.kind e.id).trans
    (findEntry_moveEntry (st := st.program e.kind e.id seq loc c) (cause := .relocation) alive), rfl, rfl, rfl, rfl, rfl⟩

theorem copyEnds_old {old : Nat × Nat} (h : e.loc = some old) :
    (∃ d ∈ (st.copyEnds e seq loc size c).dir,
        d.kind = e.kind ∧ d.id = e.id ∧ d.state = .dead ∧ d.loc = some old) ∧
      ⟨old, .relocation⟩ ∈ (st.copyEnds e seq loc size c).marks := by
  obtain ⟨dead, marks⟩ := moveEntry_old (seq := seq) (loc := loc) (size := size) (cause := .relocation)
    (st := st.program e.kind e.id seq loc c) h
  refine ⟨dead, ?_⟩
  have owed : (st.copyEnds e seq loc size c).marks = st.marks ++ [⟨old, .relocation⟩] := marks
  rw [owed]
  exact List.mem_append_right _ (List.mem_singleton.2 rfl)

theorem LiveAt.of_dir {t : Store} (h : LiveAt e seq loc size st) (dir : t.dir = st.dir) : LiveAt e seq loc size t := by
  obtain ⟨e', found, more⟩ := h
  exact ⟨e', (findEntry_of_dir dir e.kind e.id).trans found, more⟩

theorem LiveAt.of_prefix {t : Store} (h : LiveAt e seq loc size st) (dir : st.dir <+: t.dir) :
    LiveAt e seq loc size t := by
  obtain ⟨e', found, more⟩ := h
  exact ⟨e', findEntry_prefix dir found, more⟩

end

theorem relocationCopyDone_eq {s : State} {kind : RecordKind} {id seq : Nat} {loc : Nat × Nat} {size : Nat} {e : Entry}
    (op : s.store.op = some (.copy kind id seq loc size)) (found : findEntry s.store kind id = some e)
    (up : s.store.state ≠ .wiping) : relocationCopyDone s =
      storeNext (setStore (Store.copyEnds e seq loc size (contentOf s.store e)) s) := by
  have whole : relocationCopyDone s = afterOp (setStore (Store.copyEnds e seq loc size (contentOf s.store e)) s) := by
    unfold relocationCopyDone
    rw [op]
    dsimp only
    rw [found]
  rw [whole]
  refine if_neg ?_
  have state : (s.store.copyEnds e seq loc size (contentOf s.store e)).state = s.store.state := copyEnds_keeps.state
  exact fun h => up (state.symm.trans h)

/-! ### The obligation -/

/-- Settles O51. -/
theorem writesProgramTheRecord : Obligations.WritesProgramTheRecord := by
  unfold Obligations.WritesProgramTheRecord
  intro seq sector block size s q up addr limits programmed isLive
  have any : ∀ p, anyPart p := fun _ => trivial
  have programs : ∀ {kind id c} {t : State}, Programs kind id seq (sector, block) c s.store t.store →
      Moves (only [.store, .array, .survey, .harm, .free]) s t → programmed kind id c t := by
    intro kind id c t p moves
    refine ⟨fun i b h => ?_, fun a h => ?_, p.limits, p.extSector, moves.roster_eq (by decide), moves.sites_eq (by decide),
      moves.sag_eq (by decide), moves.capture_eq (by decide), moves.print_eq (by decide), moves.bus_eq (by decide),
      moves.tracker_eq (by decide), moves.supply_eq (by decide)⟩
    · rw [p.array]
      exact Memory.read_write _ _ _ _ _ h
    · rw [p.array]
      exact Memory.read_write_other _ _ _ _ h
  refine ⟨?write, ?copy, fun r => rfl, fun id r => contentSize_interval, fun r => contentSize_note, fun r => rfl,
    fun r => rfl, ?noWrite, ?noCopy⟩
  case write =>
    intro opened item rest e op queue found
    have taken : exec .recordWriteDone s = .next (recordWriteDone s) :=
      event_of_moves (P := anyPart) (recordWriteDone_moves s (any _) (any _) (any _) (any _) (any _)) q
    have moves : Moves (only [.store, .array, .survey, .harm, .free]) s (recordWriteDone s) :=
      recordWriteDone_moves s (by decide) (by decide) (by decide) (by decide) (by decide)
    have whole := recordWriteDone_eq item rest seq (sector, block) size opened s op queue up
    rw [whole] at taken moves
    obtain ⟨array, limits_, extSector, marks, lockMark, queue_⟩ :=
      placeHandedOn_store item rest seq (sector, block) size opened s
    have untriggered := placeHandedOn_untriggered item rest seq (sector, block) size opened s
    have triggered := placeHandedOn_triggered item rest seq (sector, block) size opened s
    have handed := placeHandedOn_handsOver item rest seq (sector, block) size opened s
    have idle := placeHandedOn_idle item rest seq (sector, block) size opened s
    have answered := fun r lock tag clamped =>
      placeHandedOn_answer item rest seq (sector, block) size opened s (r := r) lock (kind := 0x21) (tag := tag)
        (clamped := clamped)
    generalize placeHandedOn item rest seq (sector, block) size opened s = h at *
    have kept := next_keeps h.store
    refine ⟨storeNext h, taken, programs
      (((writeEnds_programs item rest seq (sector, block) size s.store).kept array limits_ extSector).next) moves,
      ?_, fun place waits => kept.queue.trans (idle place waits), fun mounted => ?_, fun ready early => ?_,
      fun ready opens few => ?_, fun r lock => ⟨?_, fun tag clamped current reply owed sending => ?_⟩, fun other => ?_⟩
    · exact kept.queue.symm ▸ queue_
    · exact (handed ((storeUp_iff _).2 ⟨mounted, up⟩)).of_alike ⟨rfl, rfl, rfl, rfl, rfl, rfl⟩ kept.queue kept.intervalDrops
        rfl rfl
    · obtain ⟨state, dir⟩ := untriggered early
      have readyH := state.trans ready
      have dirT : h.store.next.dir = h.store.dir := next_dir_ready readyH
      refine ⟨kept.state.trans readyH, ?_, fun first => ?_, fun replaces old loc => ?_⟩
      · exact (((writeEnds_live found).of_prefix dir).of_dir dirT)
      · exact (findEntry_of_dir dirT item.kind item.id).trans (findEntry_prefix dir (writeEnds_first found first))
      · exact mem_next_marks (marks.symm ▸ (writeEnds_replacement found replaces).2 old loc)
    · exact (triggered ready opens few).imp kept.state.trans kept.state.trans
    · rw [show (storeNext h).store.lockMark = _ from kept.lockMark.trans lockMark, lock]
      rfl
    · exact answered r lock tag clamped current ⟨sending, owed⟩
    · refine kept.lockMark.trans (lockMark.trans ?_)
      cases c : item.content with
      | lockMark r => exact absurd c (other r)
      | _ => rfl
  case copy =>
    intro kind id e old op found loc reclaiming
    have taken : exec .relocationCopyDone s = .next (relocationCopyDone s) :=
      event_of_moves (P := anyPart) (relocationCopyDone_moves s (any _) (any _) (any _) (any _)) q
    have moves : Moves (only [.store, .array, .survey, .harm, .free]) s (relocationCopyDone s) :=
      relocationCopyDone_moves s (by decide) (by decide) (by decide) (by decide)
    rw [relocationCopyDone_eq op found up] at taken moves
    obtain ⟨_, rfl, rfl, alive⟩ := findEntry_isFor found
    generalize hc : contentOf s.store e = c at *
    have copied := copyEnds_keeps (e := e) (seq := seq) (loc := (sector, block)) (size := size) (c := c) (st := s.store)
    obtain ⟨dead, owed⟩ :=
      copyEnds_old (seq := seq) (loc := (sector, block)) (size := size) (c := c) (st := s.store) loc
    have live := copyEnds_live (seq := seq) (loc := (sector, block)) (size := size) (c := c) (st := s.store) alive
    have dir := next_dir_owed owed
    have kept := next_keeps (s.store.copyEnds e seq (sector, block) size c)
    refine ⟨_, taken, programs (Programs.of_program.of_dirMoves copied).next moves, live.of_dir dir,
      kept.queue.trans copied.queue, kept.lockMark.trans copied.lockMark, kept.state.trans (copied.state.trans reclaiming),
      ?_, mem_next_marks owed⟩
    obtain ⟨d, mem, more⟩ := dead
    exact ⟨d, dir.symm ▸ mem, more⟩
  case noWrite =>
    intro none_
    have taken : exec .recordWriteDone s = .next (recordWriteDone s) :=
      event_of_moves (P := anyPart) (recordWriteDone_moves s (any _) (any _) (any _) (any _) (any _)) q
    rw [taken]
    unfold recordWriteDone
    split
    · next n loc m opened _ _ op _ => exact absurd op (none_ n loc m opened)
    · rfl
  case noCopy =>
    intro none_
    have taken : exec .relocationCopyDone s = .next (relocationCopyDone s) :=
      event_of_moves (P := anyPart) (relocationCopyDone_moves s (any _) (any _) (any _) (any _)) q
    rw [taken]
    unfold relocationCopyDone
    split
    · next kind id n loc m op => exact absurd op (none_ kind id n loc m)
    · rfl

end Sys2Proof.Machine
end

