-- ==== Sys2Proof/Proofs/ReclaimChoices.lean ====
section
/-!
PROOFS. The sector that a reclaim takes: the oldest eligible of the 8 closed sectors opened first (R125).
-/

namespace Sys2Proof.Machine

/-! ### A list of sectors by the order of their opening -/

/-- `x` comes before `y`: by rank, and the lower number of two of one rank. -/
def RankedBefore (rank : Nat → Nat) (x y : Nat) : Prop := rank x < rank y ∨ rank x = rank y ∧ x < y

section
variable {rank : Nat → Nat}

theorem RankedBefore.trans {x y z : Nat} (h : RankedBefore rank x y) (k : RankedBefore rank y z) :
    RankedBefore rank x z := by
  unfold RankedBefore at *
  omega

theorem insertBy_ranked (x : Nat) : ∀ ys, (∀ y ∈ ys, y < x) → ys.Pairwise (RankedBefore rank) →
    (insertBy rank x ys).Pairwise (RankedBefore rank)
  | [], _, _ => List.pairwise_singleton _ _
  | y :: ys, above, ordered => by
    obtain ⟨first, later⟩ := List.pairwise_cons.1 ordered
    have below : y < x := above y List.mem_cons_self
    rw [insertBy]
    split
    · next less =>
      have before : RankedBefore rank x y := .inl less
      refine List.pairwise_cons.2 ⟨fun z mem => ?_, ordered⟩
      rcases List.mem_cons.1 mem with rfl | there
      · exact before
      · exact before.trans (first z there)
    · next more =>
      refine List.pairwise_cons.2 ⟨fun z mem => ?_, insertBy_ranked x ys (fun z hz => above z (List.mem_cons_of_mem _ hz)) later⟩
      rcases List.mem_cons.1 ((insertBy_perm rank x ys).mem_iff.1 mem) with rfl | there
      · unfold RankedBefore
        omega
      · exact first z there

/-- Sorting keeps the order of equal ranks. -/
theorem sortBy_ranked (xs : List Nat) (ascending : xs.Pairwise (· < ·)) :
    (sortBy rank xs).Pairwise (RankedBefore rank) := by
  have step : ∀ (xs acc : List Nat), xs.Pairwise (· < ·) → (∀ a ∈ acc, ∀ x ∈ xs, a < x) →
      acc.Pairwise (RankedBefore rank) →
      (xs.foldl (fun acc x => insertBy rank x acc) acc).Pairwise (RankedBefore rank) := by
    intro xs
    induction xs with
    | nil => exact fun acc _ _ h => h
    | cons x xs ih =>
      intro acc hxs below h
      obtain ⟨first, later⟩ := List.pairwise_cons.1 hxs
      refine ih _ later (fun a mem y hy => ?_)
        (insertBy_ranked x acc (fun a ha => below a ha x List.mem_cons_self) h)
      rcases List.mem_cons.1 ((insertBy_perm rank x acc).mem_iff.1 mem) with rfl | there
      · exact first y hy
      · exact below a there y (List.mem_cons_of_mem _ hy)
  exact step xs [] ascending (fun a h => absurd h List.not_mem_nil) .nil

/-- In an ordered list the number of the entries before one is its place. -/
theorem countP_before {before : Nat → Nat → Bool} (same : ∀ x y, before x y = true ↔ RankedBefore rank x y) :
    ∀ {xs : List Nat} {i x : Nat}, xs.Pairwise (RankedBefore rank) → xs[i]? = some x →
      xs.countP (fun y => before y x) = i := by
  intro xs
  induction xs with
  | nil => exact fun _ h => absurd h (by simp)
  | cons y ys ih =>
    intro i x ordered at_
    obtain ⟨first, later⟩ := List.pairwise_cons.1 ordered
    cases i with
    | zero =>
      obtain rfl : y = x := by simpa using at_
      refine List.countP_eq_zero.2 fun z mem => ?_
      rw [same]
      rcases List.mem_cons.1 mem with rfl | there
      · unfold RankedBefore
        omega
      · have := first z there
        unfold RankedBefore at *
        omega
    | succ i =>
      have inside : ys[i]? = some x := by simpa using at_
      rw [List.countP_cons_of_pos (p := fun y => before y x) ((same y x).2 (first x (List.mem_of_getElem? inside))), ih later inside]

end

/-! ### The closed sectors (R125) -/

/-- A sector that is open and no head. -/
def isClosed (st : Store) (x : Nat) : Bool := (st.opening.getD x none).isSome && st.head != some x

/-- A sector's opening sequence. -/
def openedAt (st : Store) (x : Nat) : Nat := (st.opening.getD x none).getD 0

/-- `x` was opened before `y`. -/
def opensBefore (st : Store) (x y : Nat) : Bool :=
  openedAt st x < openedAt st y || (openedAt st x == openedAt st y && decide (x < y))

theorem opensBefore_iff (st : Store) (x y : Nat) :
    opensBefore st x y = true ↔ RankedBefore (openedAt st) x y := by
  simp [opensBefore, RankedBefore]

theorem placesWhere_eq {α : Type} (p : α → Bool) (d : α) (xs : List α) :
    placesWhere p xs = (List.range xs.length).filter fun i => p (xs.getD i d) := by
  rw [placesWhere, zipIdx_eq_range d rfl, List.filter_map, List.map_map]
  exact List.map_id _

theorem closedSectors_eq (st : Store) :
    closedSectors st = sortBy (openedAt st) ((List.range st.opening.length).filter (isClosed st)) := by
  rw [closedSectors, placesWhere_eq Option.isSome none, List.filter_filter]
  refine congrArg (sortBy (openedAt st)) (List.filter_congr fun x _ => ?_)
  exact Bool.and_comm _ _

theorem closedSectors_ordered (st : Store) : (closedSectors st).Pairwise (RankedBefore (openedAt st)) := by
  rw [closedSectors_eq]
  exact sortBy_ranked _ (List.pairwise_lt_range.filter _)

theorem mem_closedSectors {st : Store} {x : Nat} :
    x ∈ closedSectors st ↔ isClosed st x = true := by
  rw [closedSectors_eq, (sortBy_spec (openedAt st) _).1.mem_iff, List.mem_filter, List.mem_range]
  refine ⟨And.right, fun closed => ⟨?_, closed⟩⟩
  by_contra outside
  unfold isClosed at closed
  rw [List.getD_eq_default _ _ (Nat.not_lt.1 outside)] at closed
  exact absurd closed Bool.false_ne_true

/-- The closed sectors opened before one, counted by their numbers. -/
theorem countP_opensBefore (st : Store) (x : Nat) :
    (List.range st.opening.length).countP (fun y => isClosed st y && opensBefore st y x) =
      (closedSectors st).countP fun y => opensBefore st y x := by
  rw [closedSectors_eq, (sortBy_spec (openedAt st) _).1.countP_eq, List.countP_filter]
  exact List.countP_congr fun y _ => by rw [Bool.and_comm]

/-- One of the 8 closed sectors opened first. -/
def isCandidate (st : Store) (x : Nat) : Prop :=
  isClosed st x = true ∧ ((List.range st.opening.length).countP fun y => isClosed st y && opensBefore st y x) < 8

theorem mem_candidates {st : Store} {x : Nat} : x ∈ (closedSectors st).take 8 ↔ isCandidate st x := by
  have place : ∀ {i}, (closedSectors st)[i]? = some x →
      (List.range st.opening.length).countP (fun y => isClosed st y && opensBefore st y x) = i := fun h =>
    (countP_opensBefore st x).trans (countP_before (opensBefore_iff st) (closedSectors_ordered st) h)
  constructor
  · intro mem
    obtain ⟨i, h⟩ := List.mem_iff_getElem?.1 mem
    rw [List.getElem?_take] at h
    split at h
    · next early => exact ⟨mem_closedSectors.1 (List.mem_of_getElem? h), place h ▸ early⟩
    · exact absurd h (by simp)
  · intro ⟨closed, few⟩
    obtain ⟨i, h⟩ := List.mem_iff_getElem?.1 (mem_closedSectors.2 closed)
    rw [place h] at few
    exact List.mem_iff_getElem?.2 ⟨i, by rw [List.getElem?_take, if_pos few, h]⟩

/-! ### The choice (R125) -/

/-- A sector's LIVE records, in the words of the statement. -/
theorem liveIn_eq (st : Store) (x : Nat) :
    liveIn st x = st.dir.filter fun e => e.state = .live ∧ e.loc.map (·.1) = some x := by
  refine List.filter_congr fun e _ => ?_
  unfold inSector
  cases e.loc with
  | none => simp
  | some loc => simp [beq_eq_decide]

theorem sectorEligible_iff (st : Store) (x : Nat) : eligible st x = true ↔
    retainedSize st x ≤ 48 ∧ st.extSector ≠ some x ∧
      (st.mode = .overwrite ∨ ∀ e ∈ liveIn st x, isRetained st e = true) := by
  simp only [eligible, Bool.and_eq_true, Bool.or_eq_true, decide_eq_true_eq, bne_iff_ne, beq_iff_eq,
    List.all_eq_true, and_assoc]

theorem reclaimChoice_some {st : Store} {x : Nat} (h : reclaimChoice st = some x) :
    isCandidate st x ∧ eligible st x = true ∧
      ∀ y, isCandidate st y → eligible st y = true → y = x ∨ opensBefore st x y = true := by
  obtain ⟨fit, before, after, parts, unfit⟩ := List.find?_eq_some_iff_append.1 h
  have ordered := (closedSectors_ordered st).sublist (List.take_sublist 8 _)
  refine ⟨mem_candidates.1 (List.mem_of_find?_eq_some h), fit, fun y candidate fits => ?_⟩
  have mem := mem_candidates.2 candidate
  rw [parts] at mem ordered
  rcases List.mem_append.1 mem with early | late
  · exact absurd fits (by simpa using unfit y early)
  · rcases List.mem_cons.1 late with rfl | later
    · exact .inl rfl
    · have first := (List.pairwise_cons.1 (List.pairwise_append.1 ordered).2.1).1
      exact .inr ((opensBefore_iff st x y).2 (first y later))

theorem reclaimChoice_none {st : Store} (h : reclaimChoice st = none) {x : Nat} (candidate : isCandidate st x) :
    ¬eligible st x = true := List.find?_eq_none.1 h x (mem_candidates.2 candidate)

end Sys2Proof.Machine
end

