-- ==== Sys2Proof/Proofs/StoreSteps.lean ====
section
/-!
PROOFS. The ends of a DEAD mark, an extension step and a sector erase (O52).
-/

namespace Sys2Proof.Machine

/-! ### What the array's next operation leaves of a reclaim -/

section
variable (st : Store)

theorem openPlace_reclaim (loc : Nat × Nat) (opened : Bool) :
    (st.openPlace loc opened).reclaim = st.reclaim ∧ (st.openPlace loc opened).dir = st.dir := by
  unfold Store.openPlace
  dsimp only
  split <;> exact ⟨rfl, rfl⟩

theorem beginWrite_reclaim : (beginWrite st).reclaim = st.reclaim := by
  unfold beginWrite
  split
  · rfl
  · dsimp only
    split
    · exact (openPlace_reclaim st _ _).1
    · rfl

theorem nextReclaim_sector : (nextReclaim st).reclaim.map (·.sector) = st.reclaim.map (·.sector) := by
  unfold nextReclaim
  split
  · rfl
  · next r h =>
    have sector : st.reclaim.map (·.sector) = some r.sector := congrArg (Option.map (·.sector)) h
    rw [sector]
    split
    · next rest _ =>
      dsimp only
      split
      · split
        · exact congrArg (Option.map (·.sector)) (openPlace_reclaim { st with reclaim := some { r with copies := rest } } _ _).1
        · exact sector
      · rfl
    · exact sector

theorem next_sector : st.next.reclaim.map (·.sector) = st.reclaim.map (·.sector) := by
  unfold Store.next
  split
  · rfl
  · split
    · rfl
    · rfl
    · split
      · exact nextReclaim_sector st
      · exact congrArg (Option.map (·.sector)) (beginWrite_reclaim st)
      · rfl

theorem nextReclaim_locs : (nextReclaim st).dir.map (·.loc) = st.dir.map (·.loc) := by
  unfold nextReclaim
  split
  · rfl
  · next r h =>
    split
    · next rest _ =>
      dsimp only
      split
      · split
        · exact congrArg (List.map (·.loc)) (openPlace_reclaim { st with reclaim := some { r with copies := rest } } _ _).2
        · rfl
      · rfl
    · refine (List.map_map ..).trans (List.map_congr_left fun e _ => ?_)
      dsimp only [Function.comp]
      split <;> rfl

theorem next_locs : st.next.dir.map (·.loc) = st.dir.map (·.loc) := by
  unfold Store.next
  split
  · rfl
  · split
    · rfl
    · rfl
    · split
      · exact nextReclaim_locs st
      · exact congrArg (List.map (·.loc)) (beginWrite_dir st)
      · rfl

theorem chooseSector_locs (sector : Nat) : (st.chooseSector sector).dir.map (·.loc) = st.dir.map (·.loc) := by
  refine (List.map_map ..).trans (List.map_congr_left fun e _ => ?_)
  dsimp only [Function.comp]
  split <;> rfl

end

theorem chooseReclaim_locs (s : State) : (chooseReclaim s).store.dir.map (·.loc) = s.store.dir.map (·.loc) := by
  cases h : reclaimChoice s.store with
  | some sector =>
    rw [chooseReclaim_some h, enterStore_store]
    exact chooseSector_locs s.store sector
  | none => rw [chooseReclaim_none h, enterStore_store]

/-! ### The FULL re-check (R128) -/

section
variable {s : State}

theorem recheckFull_some {sector : Nat} (full : s.store.state = .full) (h : reclaimChoice s.store = some sector) :
    recheckFull s = chooseReclaim s := by
  rw [chooseReclaim_some h]
  refine (if_pos full).trans ?_
  rw [h]
  rfl

theorem recheckFull_none (h : reclaimChoice s.store = none) : recheckFull s = s := by
  unfold recheckFull
  rw [h]
  exact ite_self _

theorem recheckFull_open (h : s.store.state ≠ .full) : recheckFull s = s := if_neg h

theorem recheckFull_keeps (s : State) : TriggerKeeps s.store (recheckFull s).store := by
  by_cases full : s.store.state = .full
  · cases h : reclaimChoice s.store with
    | some sector => rw [recheckFull_some full h]; exact chooseReclaim_keeps s
    | none => rw [recheckFull_none h]; exact .refl _
  · rw [recheckFull_open full]; exact .refl _

theorem recheckFull_replyKept (s : State) : ReplyKept s (recheckFull s) := by
  by_cases full : s.store.state = .full
  · cases h : reclaimChoice s.store with
    | some sector => rw [recheckFull_some full h]; exact .of_chooseReclaim s
    | none => rw [recheckFull_none h]; exact .of_link rfl
  · rw [recheckFull_open full]; exact .of_link rfl

end

/-! ### After an array operation -/

theorem afterOp_array (s : State) : (afterOp s).store.array = s.store.array := by
  unfold afterOp
  split
  · rfl
  · exact (next_keeps s.store).array

theorem afterOp_link (s : State) : (afterOp s).link = s.link := by
  unfold afterOp
  split <;> rfl

theorem afterOp_up {s : State} (up : s.store.state ≠ .wiping) : afterOp s = storeNext s := if_neg up

/-! ### The end of a DEAD mark -/

/-- The state with the status of a header programmed. -/
def marked (m : Mark) (s : State) : State := setStore (Store.markDead m.loc) s

section
variable {s : State} {m : Mark}

theorem deadMarkDone_delete (op : s.store.op = some (.mark m)) (cause : m.cause = .delete) :
    deadMarkDone s = afterOp (recheckFull (answer .ok .empty (marked m s))) := by
  unfold deadMarkDone marked
  rw [op]
  dsimp only
  rw [cause]

theorem deadMarkDone_other (op : s.store.op = some (.mark m)) (cause : m.cause ≠ .delete) :
    deadMarkDone s = afterOp (marked m s) := by
  unfold deadMarkDone marked
  rw [op]
  dsimp only
  split
  · next h => exact absurd h cause
  · rfl

/-- The choice of a reclaim sector does not read the array. -/
theorem reclaimChoice_marked : reclaimChoice (marked m s).store = reclaimChoice s.store := rfl

theorem deadMarkDone_array (op : s.store.op = some (.mark m)) :
    (deadMarkDone s).store.array = (s.store.markDead m.loc).array := by
  by_cases cause : m.cause = .delete
  · rw [deadMarkDone_delete op cause, afterOp_array, (recheckFull_keeps _).array]
    rfl
  · rw [deadMarkDone_other op cause, afterOp_array]
    rfl

/-- Where the FULL re-check is not due, the store takes its next operation. -/
theorem deadMarkDone_next (op : s.store.op = some (.mark m)) (h : m.cause ≠ .delete ∨ s.store.state ≠ .full)
    (up : s.store.state ≠ .wiping) : (deadMarkDone s).store = (s.store.markDead m.loc).next := by
  by_cases cause : m.cause = .delete
  · have open_ : s.store.state ≠ .full := h.resolve_left (not_not.2 cause)
    rw [deadMarkDone_delete op cause, recheckFull_open (s := answer .ok .empty (marked m s)) open_,
      afterOp_up (s := answer .ok .empty (marked m s)) up]
    rfl
  · rw [deadMarkDone_other op cause, afterOp_up (s := marked m s) up]
    rfl

/-- The waiting delete is answered. -/
theorem deadMarkDone_answers (op : s.store.op = some (.mark m)) (cause : m.cause = .delete) {kind : Nat} {tag : Byte}
    {clamped : Bool} (current : s.link.current = some ⟨kind, tag, clamped⟩) (sends : Sends s.link) :
    (deadMarkDone s).link.current = none ∧ (deadMarkDone s).link.reply = some ⟨replyKind kind, tag, .ok, .empty⟩ := by
  have sendsA : Sends (answer .ok .empty (marked m s)).link := (linkAnswer_appends _ _ sends).sends sends
  obtain ⟨_, reply, current_⟩ := recheckFull_replyKept _ sendsA
  rw [deadMarkDone_delete op cause, afterOp_link]
  exact ⟨current_.trans (linkAnswer_current _ _ _), reply.trans (linkAnswer_reply current sends.busy)⟩

/-- A delete that finds the store FULL re-checks the trigger. -/
theorem deadMarkDone_rechecks (op : s.store.op = some (.mark m)) (cause : m.cause = .delete)
    (full : s.store.state = .full) :
    (∀ sector, reclaimChoice s.store = some sector →
      (deadMarkDone s).store.state = .reclaiming ∧ (deadMarkDone s).store.reclaim.map (·.sector) = some sector) ∧
    (reclaimChoice s.store = none → (deadMarkDone s).store.state = .full) := by
  have fullA : (answer .ok .empty (marked m s)).store.state = .full := full
  have choice : reclaimChoice (answer .ok .empty (marked m s)).store = reclaimChoice s.store := reclaimChoice_marked
  obtain ⟨chosen, _⟩ := chooseReclaim_state (answer .ok .empty (marked m s))
  rw [deadMarkDone_delete op cause]
  generalize answer .ok .empty (marked m s) = a at *
  refine ⟨fun sector h => ?_, fun h => ?_⟩
  · obtain ⟨state, sector_⟩ := chosen sector (choice.trans h)
    rw [recheckFull_some fullA (choice.trans h), afterOp_up (by rw [state]; decide)]
    exact ⟨(next_keeps _).state.trans state, (next_sector _).trans sector_⟩
  · rw [recheckFull_none (choice.trans h), afterOp_up (by rw [fullA]; decide)]
    exact (next_keeps _).state.trans fullA

end

/-! ### The end of an extension step -/

theorem extensionStepDone_eq {s : State} {loc : Nat × Nat} (op : s.store.op = some (.extend loc)) :
    extensionStepDone s = afterOp (setStore (Store.stepEnds loc) s) := by
  unfold extensionStepDone
  rw [op]

/-- The field of a header reads the array alone. -/
theorem extensionField_of_array {st t : Store} (h : t.array = st.array) (loc : Nat × Nat) :
    extensionField t loc = extensionField st loc := by
  unfold extensionField
  rw [h]

/-- What the end of a step leaves of the limits and of the extension sector, in a wipe as well. -/
theorem extensionStepDone_limits {s : State} {loc : Nat × Nat} (op : s.store.op = some (.extend loc)) :
    (extensionStepDone s).store.array = (s.store.programStep loc).array ∧
      (extensionStepDone s).store.limits = s.store.limits.map (· + 1024) ∧
      (extensionStepDone s).store.extSector = some loc.1 := by
  rw [extensionStepDone_eq op]
  refine ⟨afterOp_array _, ?_, ?_⟩
  · unfold afterOp
    split
    · rfl
    · exact (next_keeps _).limits
  · unfold afterOp
    split
    · rfl
    · exact next_extSector _

/-! ### The fetch that waits for an erase (R156) -/

/-- Every item fetched has its content. -/
def AllFetched (p : Print) : Prop := ∀ e ∈ p.cache, e.snapshot.isSome = true

theorem modifyActive_cache (f : Job → Job) (p : Print) : (modifyActive f p).cache = p.cache := by
  unfold modifyActive
  split
  · split <;> rfl
  · rfl

theorem renderFrom_fetched (straps : Straps) (fuel : Nat) : ∀ p, AllFetched p → AllFetched (renderFrom straps fuel p) := by
  induction fuel with
  | zero => exact fun p h => h
  | succ fuel ih =>
    intro p h
    rw [renderFrom]
    split
    · exact h
    · next e rest cache =>
      have first : e.snapshot.isSome = true := h e (cache ▸ List.mem_cons_self)
      have later : ∀ x ∈ rest, x.snapshot.isSome = true := fun x mem => h x (cache ▸ List.mem_cons_of_mem _ mem)
      split
      · exact h
      · dsimp only
        split
        · refine ih _ fun x mem => later x ?_
          rwa [modifyActive_cache] at mem
        · intro x mem
          rcases List.mem_cons.1 mem with rfl | mem
          · exact first
          · exact later x mem

theorem render_fetched {s : State} (h : AllFetched s.print) : AllFetched (render s).print := renderFrom_fetched _ _ _ h

theorem beginLine_cache (p : Print) : (beginLine p).cache = p.cache := by
  unfold beginLine
  split <;> rfl

theorem lineBoundary_fetched {s : State} (h : AllFetched s.print) : AllFetched (lineBoundary s).print := by
  unfold lineBoundary
  split
  · exact h
  · split
    · intro e mem
      refine h e ?_
      rwa [← beginLine_cache s.print]
    · next x rest _ _ =>
      refine render_fetched fun e mem => h e ?_
      have same := beginLine_cache { s.print with inHand := some x, buffer := rest }
      exact same ▸ mem
    · split
      · split
        · exact h
        · exact h
      · exact h

theorem renderAndTake_fetched {s : State} (h : AllFetched s.print) : AllFetched (renderAndTake s).print := by
  unfold renderAndTake
  dsimp only
  split
  · exact lineBoundary_fetched (render_fetched h)
  · exact render_fetched h

theorem waitingFetch_fetched {s : State} (active : (activeJob s.print).isSome = true) :
    AllFetched (waitingFetch s).print := by
  obtain ⟨j, job⟩ := Option.isSome_iff_exists.1 active
  unfold waitingFetch
  rw [job]
  dsimp only
  split
  · next all => exact List.all_eq_true.1 all
  · unfold printStep
    dsimp only
    rw [postWhen_print]
    refine renderAndTake_fetched fun e mem => ?_
    obtain ⟨x, _, rfl⟩ := List.mem_map.1 mem
    unfold fillEntry
    split
    · next fetched => exact fetched
    · rfl

/-! ### The end of a sector erase -/

section
variable {s : State} {sector : Nat}

/-- The state with the sector erased and the reclaim ended. -/
def erased (sector : Nat) (s : State) : State := setStore (Store.reclaimEnds sector) s

theorem sectorEraseDone_eq (op : s.store.op = some (.erase sector)) (up : s.store.state ≠ .wiping) :
    sectorEraseDone s = storeNext
      (if (erasedSectors (erased sector s).store).length < 2 then chooseReclaim (erased sector s)
        else enterStore .ready (erased sector s)) := by
  have whole : sectorEraseDone s =
      if (erased sector s).store.state = .wiping then wipeEmpty (erased sector s)
      else storeNext
        (if (erasedSectors (erased sector s).store).length < 2 then chooseReclaim (erased sector s)
          else enterStore .ready (erased sector s)) := by
    unfold sectorEraseDone erased
    rw [op]
  rw [whole]
  exact if_neg up

theorem erased_opening : (erasedSectors (erased sector s).store).length =
    (s.store.opening.set sector none).countP (·.isNone) :=
  (erasedSectors_length _).trans (congrArg (List.countP (·.isNone)) (updateAt_const none sector s.store.opening))

/-- A sector that is enough ends the reclaim. -/
theorem sectorEraseDone_enough (op : s.store.op = some (.erase sector)) (up : s.store.state ≠ .wiping)
    (enough : 2 ≤ (s.store.opening.set sector none).countP (·.isNone)) :
    (sectorEraseDone s).store.state = .ready ∧ (sectorEraseDone s).store.reclaim = none := by
  rw [sectorEraseDone_eq op up, if_neg (by rw [erased_opening]; omega)]
  have entered := enterStore_store .ready (erased sector s)
  have sector_ := next_sector (enterStore .ready (erased sector s)).store
  refine ⟨(next_keeps _).state.trans (congrArg Store.state entered), Option.map_eq_none_iff.1 (sector_.trans ?_)⟩
  rw [entered]
  rfl

theorem sectorEraseDone_short (op : s.store.op = some (.erase sector)) (up : s.store.state ≠ .wiping)
    (few : (s.store.opening.set sector none).countP (·.isNone) < 2) :
    (sectorEraseDone s).store.state = .reclaiming ∨ (sectorEraseDone s).store.state = .full := by
  rw [sectorEraseDone_eq op up, if_pos (by rw [erased_opening]; exact few)]
  exact (chooseReclaim_ends _).imp (next_keeps _).state.trans (next_keeps _).state.trans

/-- The bytes, the count and the entries that the erase leaves. -/
theorem sectorEraseDone_store (op : s.store.op = some (.erase sector)) (up : s.store.state ≠ .wiping) :
    (sectorEraseDone s).store.array = Memory.erase s.store.array (sector * 16384) 16384 ∧
      (sectorEraseDone s).store.reclaims = satInc max32 s.store.reclaims ∧
      (sectorEraseDone s).store.dir.map (·.loc) = (s.store.dir.filter fun e => !inSector e sector).map (·.loc) := by
  rw [sectorEraseDone_eq op up]
  have next := fun u : State => next_keeps u.store
  have locs := fun u : State => next_locs u.store
  split
  · have kept := chooseReclaim_keeps (erased sector s)
    exact ⟨(next _).array.trans kept.array, (next _).reclaims.trans kept.reclaims,
      (locs _).trans (chooseReclaim_locs (erased sector s))⟩
  · have entered := enterStore_store .ready (erased sector s)
    refine ⟨(next _).array.trans ?_, (next _).reclaims.trans ?_, (locs _).trans ?_⟩ <;> rw [entered] <;> rfl

theorem sectorEraseDone_away (op : s.store.op = some (.erase sector)) (up : s.store.state ≠ .wiping) :
    ∀ e ∈ (sectorEraseDone s).store.dir, ∀ loc, e.loc = some loc → loc.1 ≠ sector := by
  intro e mem loc at_ here
  have there : some loc ∈ (sectorEraseDone s).store.dir.map (·.loc) := List.mem_map.2 ⟨e, mem, at_⟩
  rw [(sectorEraseDone_store op up).2.2] at there
  obtain ⟨x, memX, locX⟩ := List.mem_map.1 there
  have outside := (List.mem_filter.1 memX).2
  rw [inSector, locX] at outside
  simp [here] at outside

end

/-! ### The obligation -/

/-- Settles O52. -/
theorem marksStepsAndErasesEnd : Obligations.MarksStepsAndErasesEnd := by
  unfold Obligations.MarksStepsAndErasesEnd
  refine ⟨fun st => ?choice, fun s q => ?ends⟩
  case choice =>
    intro closed opened older candidate live fits
    have fitsIff : ∀ x, eligible st x = true ↔ fits x := fun x => by
      refine (sectorEligible_iff st x).trans ?_
      unfold retainedSize
      rw [liveIn_eq st x]
    refine ⟨fun x chosen => ?_, fun none_ x able fit => reclaimChoice_none none_ able ((fitsIff x).2 fit)⟩
    obtain ⟨able, fit, first⟩ := reclaimChoice_some chosen
    exact ⟨able, (fitsIff x).1 fit, fun y ableY fitY => first y ableY ((fitsIff y).2 fitY)⟩
  case ends =>
    intro at_ kept same
    have sames : ∀ {t}, Moves (only [.store, .array, .survey, .harm, .free, .print]) s t → same t := fun m =>
      ⟨m.roster_eq (by decide), m.sites_eq (by decide), m.sag_eq (by decide), m.capture_eq (by decide),
        m.bus_eq (by decide), m.tracker_eq (by decide), m.supply_eq (by decide), m.clock_eq (by decide)⟩
    refine ⟨fun m op => ?mark, fun loc op clear => ?step, fun sector op up => ?erase, fun none_ => ?noMark,
      fun none_ => ?noStep, fun none_ => ?noErase⟩
    case mark =>
      have moves : ∀ {P}, P .store → P .array → P .survey → P .harm → Moves P s (deadMarkDone s) :=
        fun a b c d => deadMarkDone_moves s a b c d
      refine ⟨deadMarkDone s, event_of_moves (P := anyPart) (moves trivial trivial trivial trivial) q,
        sames (moves (by decide) (by decide) (by decide) (by decide)),
        (moves (P := only [.store, .array, .survey, .harm]) (by decide) (by decide) (by decide) (by decide)).print_eq
          (by decide), ?_, fun a away => ?_, fun ready => ?_, fun cause kind tag clamped current _ owed sending =>
          deadMarkDone_answers op cause current ⟨sending, owed⟩, fun cause full => (deadMarkDone_rechecks op cause full).1,
          fun cause full => (deadMarkDone_rechecks op cause full).2, fun early up => ?_⟩
      · rw [deadMarkDone_array op]
        exact Memory.read_write _ _ [deadStatus] 0 _ rfl
      · rw [deadMarkDone_array op]
        exact Memory.read_write_other _ _ [deadStatus] _ away
      · rw [deadMarkDone_next op (.inr (by rw [ready]; decide)) (by rw [ready]; decide)]
        exact ⟨next_dir_ready (st := s.store.markDead m.loc) ready, (next_keeps (s.store.markDead m.loc)).queue⟩
      · have stored : ({ s.store with array := (deadMarkDone s).store.array, op := none } : Store) =
            s.store.markDead m.loc := by
          rw [deadMarkDone_array op]
          rfl
        rw [stored, deadMarkDone_next op early up]
        exact next_takesNext _ rfl
    case step =>
      have moves : ∀ {P}, P .store → P .array → P .survey → P .harm → Moves P s (extensionStepDone s) :=
        fun a b c d => extensionStepDone_moves s a b c d
      obtain ⟨k, set, lowest, value⟩ := setStep_lowest clear (extensionField_lt s.store loc)
      obtain ⟨array, limits, extSector⟩ := extensionStepDone_limits op
      refine ⟨extensionStepDone s, k, event_of_moves (P := anyPart) (moves trivial trivial trivial trivial) q,
        sames (moves (by decide) (by decide) (by decide) (by decide)),
        (moves (P := only [.store, .array, .survey, .harm]) (by decide) (by decide) (by decide) (by decide)).print_eq
          (by decide), limits, extSector, set, lowest, ?_, fun a away => ?_, fun up => ?_⟩
      · exact (extensionField_of_array (t := (extensionStepDone s).store)
          (st := { s.store with array := (s.store.programStep loc).array }) array loc).trans
          ((programStep_field s.store loc).trans value)
      · rw [array]
        exact programStep_other s.store loc away
      · have stored : ({ s.store with array := (extensionStepDone s).store.array
                                      limits := s.store.limits.map (· + 1024), extSector := some loc.1
                                      op := none } : Store) = s.store.stepEnds loc := by
          rw [array]
          rfl
        rw [stored, extensionStepDone_eq op, afterOp_up (s := setStore (Store.stepEnds loc) s) up]
        exact next_takesNext _ rfl
    case erase =>
      have moves : ∀ {P}, P .print → P .store → P .array → P .survey → P .harm → Moves P s (eraseDone s) :=
        fun a b c d e => eraseDone_moves s a b c d e
      have taken : exec .sectorEraseDone s = .next (eraseDone s) :=
        event_of_moves (P := anyPart) (moves trivial trivial trivial trivial trivial) q
      have kept_ := sames (moves (by decide) (by decide) (by decide) (by decide) (by decide))
      have whole : eraseDone s = sectorEraseDone (waitingFetch s) := by
        unfold eraseDone eraseInFlight
        rw [op]
        rfl
      have store : (waitingFetch s).store = s.store :=
        (waitingFetch_moves (P := only [.print]) s (by decide)).store_eq (by decide)
      have print : (sectorEraseDone (waitingFetch s)).print = (waitingFetch s).print :=
        (sectorEraseDone_moves (P := only [.store, .array, .survey, .harm]) _ (by decide) (by decide) (by decide)
          (by decide)).print_eq (by decide)
      have fetched := waitingFetch_fetched (s := s)
      rw [whole] at taken kept_
      rw [← print] at fetched
      rw [← store] at op up
      obtain ⟨array, reclaims, _⟩ := sectorEraseDone_store op up
      have enough := sectorEraseDone_enough op up
      have short := sectorEraseDone_short op up
      rw [store] at array reclaims enough short
      refine ⟨_, taken, kept_, fun a low high => ?_, fun a away => ?_, sectorEraseDone_away op up, reclaims, enough,
        short, fetched⟩
      · rw [array]
        exact Memory.read_erase _ _ _ _ low (by omega)
      · rw [array]
        exact Memory.read_erase_other _ _ _ _ away
    case noMark =>
      refine (event_of_moves (P := anyPart) (deadMarkDone_moves s trivial trivial trivial trivial) q).trans ?_
      unfold deadMarkDone
      split
      · next m op => exact absurd op (none_ m)
      · rfl
    case noStep =>
      refine (event_of_moves (P := anyPart) (extensionStepDone_moves s trivial trivial trivial trivial) q).trans ?_
      unfold extensionStepDone
      split
      · next loc op => exact absurd op (none_ loc)
      · rfl
    case noErase =>
      refine (event_of_moves (P := anyPart) (eraseDone_moves s trivial trivial trivial trivial trivial) q).trans ?_
      have idle : eraseInFlight s.store = false := by
        unfold eraseInFlight
        split
        · next sector op => exact absurd op (none_ sector)
        · rfl
      unfold eraseDone
      rw [idle]
      rfl

end Sys2Proof.Machine
end

