-- ==== Sys2Proof/Proofs/StoreAnswers.lean ====
section
/-!
PROOFS. What the requests of the record store and of the notes share: the answer for an absent record, the list of
a kind, the reply's link, and a record taken out or killed.
-/

namespace Sys2Proof.Machine

/-! ### Requests on a free link -/

/-- A request on a free link is served at once. -/
theorem request_served (tag : Byte) (r : Request) {s t : State} (h : Ready s)
    (hr : serve r (waiting (requestCode r) tag s) = t) : exec (r.command tag) s = .next t := by
  rw [exec_command, request_ready tag r s h, hr]

/-- The link that an answer leaves, where nothing has moved it since the request was taken. -/
theorem answered_link {u s : State} {kind : Nat} {tag : Byte} (status : Status) (body : ReplyBody)
    (same : u.link = (waiting kind tag s).link) (free : s.link.current = none) :
    (answer status body u).link = (replied (replyKind kind) tag status body s).link := by
  rw [← answer_waiting _ _ _ _ _ free]
  exact congrArg (Link.answer status body) same

/-! ### Records that are not there (R127) -/

theorem discarding_iff {st : Store} {kind : RecordKind} {id : Nat} : discarding st kind id = true ↔
    ∃ d ∈ st.dir, d.kind = kind ∧ d.id = id ∧ d.state = .dead ∧ d.reclaim = true := by
  simp [discarding, and_assoc]

theorem absentStatus_eq {st : Store} {kind : RecordKind} {id : Nat} {p : Prop} [Decidable p]
    (h : discarding st kind id = true ↔ p) : absentStatus st kind id = if p then .busy else .notFound := by
  by_cases gone : p
  · exact (if_pos (h.2 gone)).trans (if_pos gone).symm
  · exact (if_neg (mt h.1 gone)).trans (if_neg gone).symm

/-! ### The entries of a kind (R132, R147) -/

theorem attachedTo_iff {st : Store} {kind : RecordKind} {id : Nat} : attachedTo st kind id = true ↔
    ∃ n ∈ st.dir, n.kind = .note ∧ n.state ≠ .dead ∧ n.links.attach = some ⟨kind, id⟩ := by
  simp [attachedTo, and_assoc]

theorem countValid_iff {count : Byte} : countValid count = true ↔ 1 ≤ count.toNat ∧ count.toNat ≤ 32 := by
  simp [countValid]

theorem listed_spec (st : Store) (kind : RecordKind) (fromId : Nat) :
    (listed st kind fromId).Perm (st.dir.filter fun e => decide (e.kind = kind ∧ e.state ≠ .dead ∧ fromId ≤ e.id)) ∧
      (listed st kind fromId).Pairwise fun a b => a.id ≤ b.id := by
  obtain ⟨perm, ordered⟩ := sortBy_spec (fun e : Entry => e.id)
    (st.dir.filter fun e => e.kind == kind && e.state != .dead && fromId ≤ e.id)
  refine ⟨perm.trans (List.Perm.of_eq (List.filter_congr fun e _ => ?_)), ordered⟩
  simp [beq_eq_decide, bne, Bool.and_assoc]

theorem nextListed_eq (xs : List Entry) (count : Nat) : nextListed xs count = xs[count]?.map (·.id) := by
  rw [nextListed, List.head?_drop]

/-! ### A record taken out of the queue (R134) -/

/-- The store without a queued record. -/
def Store.unqueued (kind : RecordKind) (id : Nat) (st : Store) : Store := (st.dequeue kind id).removeEntry kind id

section
variable {kind : RecordKind} {id : Nat} {s : State}

/-- The queue without a record. -/
abbrev queueWithout (kind : RecordKind) (id : Nat) (xs : List QueueItem) : List QueueItem :=
  xs.filter fun q => ¬(q.kind = kind ∧ q.id = id)

theorem unqueued_queue (st : Store) : (st.unqueued kind id).queue = queueWithout kind id st.queue :=
  List.filter_congr fun q _ => by simp [beq_eq_decide]

theorem unqueued_dir (st : Store) :
    (st.unqueued kind id).dir = st.dir.filter fun d => ¬(d.kind = kind ∧ d.id = id ∧ d.state ≠ .dead) :=
  List.filter_congr fun d _ => by
    cases same : d.isFor kind id with
    | false => simp [mt isFor_iff.2 (by simp [same] : ¬d.isFor kind id = true)]
    | true => simp [isFor_iff.1 same]

theorem unqueued_findEntry (st : Store) : findEntry (st.unqueued kind id) kind id = none := by
  refine List.find?_eq_none.2 fun d mem => ?_
  have away := (mem_removeEntry.1 mem).2
  simp [away]

theorem removeQueued_eq : removeQueued kind id s = storeNext (announcePlace (setStore (Store.unqueued kind id) s)) := rfl

theorem removeQueued_link : (removeQueued kind id s).link = s.link :=
  announcePlace_link (setStore (Store.unqueued kind id) s)

theorem removeQueued_array : (removeQueued kind id s).store.array = s.store.array :=
  (next_keeps _).array.trans (HandKeeps.of_announcePlace (setStore (Store.unqueued kind id) s)).array

/-- The freed place goes to the records that wait. -/
theorem removeQueued_handsOver (up : storeUp s.store = true) :
    HandsOver (queueWithout kind id s.store.queue) s (removeQueued kind id s) := by
  have handed := announcePlace_handsOver (setStore (Store.unqueued kind id) s) up
  have queue : (setStore (Store.unqueued kind id) s).store.queue = queueWithout kind id s.store.queue :=
    unqueued_queue s.store
  rw [queue] at handed
  have kept := next_keeps (announcePlace (setStore (Store.unqueued kind id) s)).store
  exact handed.of_alike ⟨rfl, rfl, rfl, rfl, rfl, rfl⟩ kept.queue kept.intervalDrops rfl rfl

/-- Where no record waits, the place stays free. -/
theorem removeQueued_idle (place : s.survey.place = none) (waits : nextWaiting s = none) :
    removeQueued kind id s = storeNext (setStore (Store.unqueued kind id) s) :=
  congrArg storeNext (announcePlace_idle (s := setStore (Store.unqueued kind id) s) place waits)

/-- Where no record waits, nothing else of a READY store's queue and directory moves. -/
theorem removeQueued_quiet (place : s.survey.place = none) (waits : nextWaiting s = none)
    (ready : s.store.state = .ready) :
    (removeQueued kind id s).store.queue = queueWithout kind id s.store.queue ∧
      (removeQueued kind id s).store.dir = (s.store.unqueued kind id).dir ∧
      (removeQueued kind id s).store.nextIds = s.store.nextIds := by
  have kept := next_keeps (s.store.unqueued kind id)
  rw [removeQueued_idle place waits]
  exact ⟨kept.queue.trans (unqueued_queue s.store), next_dir_ready (st := s.store.unqueued kind id) ready, kept.nextIds⟩

/-! ### A LIVE record killed (R134) -/

/-- The store with a record's entry DEAD and its mark owed. -/
def Store.killed (kind : RecordKind) (id : Nat) (loc : Nat × Nat) (st : Store) : Store :=
  { st.modifyEntry (fun e => { e with state := .dead, pins := 0, links := {} }) kind id with
    marks := st.marks ++ [⟨loc, .delete⟩] }

theorem killLive_eq {e : Entry} {loc : Nat × Nat} (h : e.loc = some loc) :
    killLive kind id e s = storeNext (setStore (Store.killed kind id loc) s) := by
  unfold killLive
  rw [h]
  rfl

theorem killed_marks (st : Store) (loc : Nat × Nat) : ⟨loc, .delete⟩ ∈ (st.killed kind id loc).marks :=
  List.mem_append_right _ (List.mem_singleton.2 rfl)

theorem killed_findEntry (st : Store) (loc : Nat × Nat) : findEntry (st.killed kind id loc) kind id = none := by
  refine List.find?_eq_none.2 fun d mem => ?_
  obtain ⟨x, _, rfl⟩ := List.mem_map.1 mem
  split
  · intro found
    exact absurd rfl (isFor_iff.1 found).2.2
  · next away => exact away

/-- What a killed record leaves of the store. -/
theorem killed_next (st : Store) (loc : Nat × Nat) :
    let t := (st.killed kind id loc).next
    findEntry t kind id = none ∧ (⟨loc, .delete⟩ ∈ t.marks ∨ t.op = some (.mark ⟨loc, .delete⟩)) ∧
      t.queue = st.queue ∧ t.array = st.array ∧ t.nextIds = st.nextIds := by
  have kept := next_keeps (st.killed kind id loc)
  have owed := killed_marks (kind := kind) (id := id) st loc
  exact ⟨(findEntry_of_dir (next_dir_owed owed) kind id).trans (killed_findEntry st loc), mem_next_marks owed,
    kept.queue, kept.array, kept.nextIds⟩

end

end Sys2Proof.Machine
end

