-- ==== Sys2Proof/Proofs/StoreRequests.lean ====
section
/-!
PROOFS. STORE_MODE, RECORD_LIST, RECORD_READ, RECORD_DELETE and STORE_WIPE (O54).
-/

namespace Sys2Proof.Machine

/-! ### STORE_MODE (R128, R129) -/

theorem storeMode?_none {n : Nat} (h : 1 < n) : storeMode? n = none := by
  unfold storeMode?
  split
  · omega
  · omega
  · rfl

theorem storeMode?_some {b : Byte} (h : b.toNat ≤ 1) :
    storeMode? b.toNat = some (if b = 1 then .stop else .overwrite) := by
  have cases_ : b = 0 ∨ b = 1 := by
    rcases Nat.le_one_iff_eq_zero_or_eq_one.1 h with zero | one
    · exact .inl (BitVec.eq_of_toNat_eq zero)
    · exact .inr (BitVec.eq_of_toNat_eq one)
  rcases cases_ with rfl | rfl <;> rfl

/-- The state with the mode stored and answered. -/
def modeAnswered (m : StoreMode) (s : State) : State :=
  answer .ok (.storeMode m) (setStore (fun st => { st with mode := m }) s)

section
variable {s : State}

theorem storeMode_busy {b : Byte} (down : storeUp s.store ≠ true) : storeMode b s = refuse .busy s :=
  if_pos (by rw [Bool.eq_false_of_not_eq_true down]; rfl)

theorem storeMode_bad {b : Byte} (up : storeUp s.store = true) (bad : storeMode? b.toNat = none) :
    storeMode b s = refuse .badValue s := by
  refine (if_neg (by rw [up]; decide)).trans ?_
  rw [bad]

theorem storeMode_set {b : Byte} {m : StoreMode} (up : storeUp s.store = true) (named : storeMode? b.toNat = some m) :
    storeMode b s = storeNext (recheckFull (modeAnswered m s)) := by
  refine (if_neg (by rw [up]; decide)).trans ?_
  rw [named]
  rfl

/-- What STORE_MODE leaves of the store. -/
theorem modeSet_keeps (m : StoreMode) :
    let t := (storeNext (recheckFull (modeAnswered m s))).store
    t.array = s.store.array ∧ t.queue = s.store.queue := by
  have recheck := recheckFull_keeps (modeAnswered m s)
  have next := next_keeps (recheckFull (modeAnswered m s)).store
  exact ⟨next.array.trans recheck.array, next.queue.trans recheck.queue⟩

theorem chooseReclaim_mode (s : State) : (chooseReclaim s).store.mode = s.store.mode := by
  cases h : reclaimChoice s.store with
  | some sector => rw [chooseReclaim_some h, enterStore_store]; rfl
  | none => rw [chooseReclaim_none h, enterStore_store]

theorem modeSet_mode (m : StoreMode) : (storeNext (recheckFull (modeAnswered m s))).store.mode = m := by
  refine (next_keeps _).mode.trans ?_
  unfold recheckFull
  split
  · split
    · next sector h =>
      have chosen : startReclaim sector (modeAnswered m s) = chooseReclaim (modeAnswered m s) := by
        rw [chooseReclaim_some h]
        rfl
      rw [chosen]
      exact chooseReclaim_mode _
    · rfl
  · rfl

/-- STORE_MODE on a store that is not FULL. -/
theorem modeSet_open (m : StoreMode) (open_ : s.store.state ≠ .full) :
    storeNext (recheckFull (modeAnswered m s)) = storeNext (modeAnswered m s) :=
  congrArg storeNext (recheckFull_open (s := modeAnswered m s) open_)

/-- STORE_MODE on a FULL store. -/
theorem modeSet_full (m : StoreMode) (full : s.store.state = .full) :
    (∀ sector, reclaimChoice { s.store with mode := m } = some sector →
      (storeNext (recheckFull (modeAnswered m s))).store.state = .reclaiming ∧
        (storeNext (recheckFull (modeAnswered m s))).store.reclaim.map (·.sector) = some sector) ∧
    (reclaimChoice { s.store with mode := m } = none →
      (storeNext (recheckFull (modeAnswered m s))).store.state = .full ∧
        (storeNext (recheckFull (modeAnswered m s))).link = (modeAnswered m s).link) := by
  have fullA : (modeAnswered m s).store.state = .full := full
  have choice : reclaimChoice (modeAnswered m s).store = reclaimChoice { s.store with mode := m } := rfl
  obtain ⟨chosen, _⟩ := chooseReclaim_state (modeAnswered m s)
  generalize modeAnswered m s = a at *
  refine ⟨fun sector h => ?_, fun h => ?_⟩
  · obtain ⟨state, sector_⟩ := chosen sector (choice.trans h)
    rw [recheckFull_some fullA (choice.trans h)]
    exact ⟨(next_keeps _).state.trans state, (next_sector _).trans sector_⟩
  · rw [recheckFull_none (choice.trans h)]
    exact ⟨(next_keeps _).state.trans fullA, rfl⟩

/-! ### RECORD_LIST and RECORD_READ (R132, R133) -/

section
variable {kind count : Byte} {k : RecordKind} {id : Word} (named : recordKind? kind.toNat = some k)
include named

theorem recordList_bad (bad : ¬countValid count = true) : recordList kind id count s = refuse .badValue s := by
  unfold recordList
  rw [named]
  exact if_pos (by rw [Bool.eq_false_of_not_eq_true bad]; rfl)

theorem recordList_down (good : countValid count = true) (down : storeUp s.store ≠ true) :
    recordList kind id count s = refuse .busy s := by
  unfold recordList
  rw [named]
  exact (if_neg (by rw [good]; decide)).trans (if_pos (by rw [Bool.eq_false_of_not_eq_true down]; rfl))

theorem recordList_lists (good : countValid count = true) (up : storeUp s.store = true) :
    recordList kind id count s = answer .ok
      (.recordList (((listed s.store k id.toNat).take count.toNat).map (recordLine s.store))
        (nextListed (listed s.store k id.toNat) count.toNat)) s := by
  unfold recordList
  rw [named]
  exact (if_neg (by rw [good]; decide)).trans (if_neg (by rw [up]; decide))

theorem recordRead_down (down : storeUp s.store ≠ true) : recordRead kind id s = refuse .busy s := by
  unfold recordRead
  rw [named]
  exact if_pos (by rw [Bool.eq_false_of_not_eq_true down]; rfl)

theorem recordRead_none (up : storeUp s.store = true) (absent : findEntry s.store k id.toNat = none) :
    recordRead kind id s = refuse (absentStatus s.store k id.toNat) s := by
  unfold recordRead
  rw [named]
  refine (if_neg (by rw [up]; decide)).trans ?_
  rw [absent]

theorem recordRead_some {e : Entry} (up : storeUp s.store = true) (found : findEntry s.store k id.toNat = some e) :
    recordRead kind id s = if e.reclaim then refuse .busy s else readRecord e s := by
  unfold recordRead
  rw [named]
  refine (if_neg (by rw [up]; decide)).trans ?_
  rw [found]

end

/-! ### RECORD_DELETE (R134) -/

theorem recordDelete_found {kind : Byte} {k : RecordKind} {id : Word} (named : recordKind? kind.toNat = some k)
    (up : storeUp s.store = true) : recordDelete kind id s =
      if critical s then refuse .supply s
      else
        match findEntry s.store k id.toNat with
        | none => refuse (absentStatus s.store k id.toNat) s
        | some e => if k = .note then noteDelete id s else deleteRecord e s := by
  unfold recordDelete
  rw [named]
  exact if_neg (by rw [up]; decide)

theorem recordDelete_none {kind : Byte} {k : RecordKind} {id : Word} (named : recordKind? kind.toNat = some k)
    (up : storeUp s.store = true) (calm : ¬critical s = true) (absent : findEntry s.store k id.toNat = none) :
    recordDelete kind id s = refuse (absentStatus s.store k id.toNat) s := by
  refine (recordDelete_found named up).trans ((if_neg calm).trans ?_)
  rw [absent]

theorem recordDelete_unnamed {kind : Byte} {id : Word} (unnamed : recordKind? kind.toNat = none) :
    recordDelete kind id s = refuse .badValue s := by
  unfold recordDelete
  rw [unnamed]

theorem recordDelete_down {kind : Byte} {k : RecordKind} {id : Word} (named : recordKind? kind.toNat = some k)
    (down : storeUp s.store ≠ true) : recordDelete kind id s = refuse .busy s := by
  unfold recordDelete
  rw [named]
  exact if_pos (by rw [Bool.eq_false_of_not_eq_true down]; rfl)

section
variable {e : Entry}

theorem deleteRecord_busy (busy : e.reclaim = true ∨ writeInFlight s.store e.kind e.id = true) :
    deleteRecord e s = refuse .busy s := if_pos (by rwa [Bool.or_eq_true])

/-- From check 6b on. -/
theorem deleteRecord_free (free : ¬(e.reclaim = true ∨ writeInFlight s.store e.kind e.id = true)) :
    deleteRecord e s =
      if 0 < e.pins then refuse .pinned s
      else if attachedTo s.store e.kind e.id then refuse .attached s
      else if holdsLast s.store e then refuse .wrongState s
      else if e.state = .queued then answer .ok .empty (removeQueued e.kind e.id s)
      else killLive e.kind e.id e s := if_neg (by rwa [Bool.or_eq_true])

theorem deleteRecord_pinned (free : ¬(e.reclaim = true ∨ writeInFlight s.store e.kind e.id = true))
    (pinned : 0 < e.pins) : deleteRecord e s = refuse .pinned s :=
  (deleteRecord_free free).trans (if_pos pinned)

theorem deleteRecord_attached (free : ¬(e.reclaim = true ∨ writeInFlight s.store e.kind e.id = true))
    (unpinned : e.pins = 0) (attached : attachedTo s.store e.kind e.id = true) :
    deleteRecord e s = refuse .attached s :=
  (deleteRecord_free free).trans ((if_neg (by omega)).trans (if_pos attached))

theorem deleteRecord_last (free : ¬(e.reclaim = true ∨ writeInFlight s.store e.kind e.id = true))
    (unpinned : e.pins = 0) (alone : ¬attachedTo s.store e.kind e.id = true) (last : holdsLast s.store e = true) :
    deleteRecord e s = refuse .wrongState s :=
  (deleteRecord_free free).trans ((if_neg (by omega)).trans ((if_neg alone).trans (if_pos last)))

theorem deleteRecord_passes (free : ¬(e.reclaim = true ∨ writeInFlight s.store e.kind e.id = true))
    (unpinned : e.pins = 0) (alone : ¬attachedTo s.store e.kind e.id = true) (lone : ¬holdsLast s.store e = true) :
    deleteRecord e s =
      if e.state = .queued then answer .ok .empty (removeQueued e.kind e.id s) else killLive e.kind e.id e s :=
  (deleteRecord_free free).trans ((if_neg (by omega)).trans ((if_neg alone).trans (if_neg lone)))

theorem holdsLast_iff : holdsLast s.store e = true ↔
    (e.kind = .survey ∨ e.kind = .lockMark) ∧ isHeld s.store e = true := by
  simp [holdsLast]

end

/-! ### STORE_WIPE (R136) -/

/-- The state in which a wipe begins. -/
def wipeBegun (s : State) : State :=
  if s.store.op.isSome then enterStore .wiping s else wipeEmpty (enterStore .wiping s)

theorem enterStore_link {new : StoreState} (moves : new ≠ s.store.state) (other : new ≠ .reclaiming) :
    (enterStore new s).link = (post (.storeState new s.store.state (s.store.opening.countP (·.isNone)) none
      s.store.queue.length) s).link := by
  unfold enterStore
  dsimp only
  rw [erasedSectors_length, if_neg other]
  have told : (new != s.store.state || new == .reclaiming) = true := by
    rw [bne_iff_ne.2 moves]
    rfl
  rw [told]
  rfl

theorem wipeBegun_store : (wipeBegun s).store.state = .wiping ∧ (wipeBegun s).store.array = s.store.array ∧
    (wipeBegun s).link = (enterStore .wiping s).link := by
  have entered := enterStore_store .wiping s
  unfold wipeBegun
  split
  · exact ⟨by rw [entered], by rw [entered], rfl⟩
  · refine ⟨?_, ?_, rfl⟩
    · have state := congrArg Store.state entered
      exact state
    · have array := congrArg Store.array entered
      exact array

theorem wipeBegun_busy (busy : s.store.op.isSome = true) :
    (wipeBegun s).store = { s.store with state := .wiping } ∧ (wipeBegun s).survey = s.survey ∧
      (wipeBegun s).harm = s.harm := by
  obtain ⟨survey, harm, _⟩ := enterStore_rest .wiping s
  unfold wipeBegun
  rw [if_pos busy]
  exact ⟨enterStore_store _ _, survey, harm⟩

theorem wipeBegun_idle (idle : s.store.op = none) :
    (wipeBegun s).store.queue = [] ∧ (wipeBegun s).store.dir = [] ∧ (wipeBegun s).store.marks = [] ∧
      (wipeBegun s).store.extOwed = false ∧ (wipeBegun s).survey.place = none ∧
      (wipeBegun s).survey.state = s.survey.state := by
  have state := congrArg Survey.state (enterStore_rest .wiping s).1
  unfold wipeBegun
  rw [idle]
  exact ⟨rfl, rfl, rfl, rfl, rfl, state⟩

section
variable (able : s.store.state = .ready ∨ s.store.state = .full)
include able

theorem storeWipe_able : storeWipe s =
    if critical s then refuse .supply s
    else if s.survey.state = some .recording ∨ s.survey.state = some .held then refuse .wrongState s
    else if printJobHeld s then refuse .wrongState s
    else wipeBegun (answer .ok .empty s) := by
  have passes : ¬(s.store.state ≠ .ready ∧ s.store.state ≠ .full) := fun ⟨a, b⟩ => able.elim a b
  refine (if_neg passes).trans ?_
  unfold wipeBegun
  have op : (enterStore .wiping (answer .ok .empty s)).store.op = (answer .ok .empty s).store.op := by
    rw [enterStore_store]
  dsimp only
  rw [op]

theorem storeWipe_running (calm : ¬critical s = true)
    (running : (s.survey.state = some .recording ∨ s.survey.state = some .held) ∨ s.print.ring ≠ []) :
    storeWipe s = refuse .wrongState s := by
  refine (storeWipe_able able).trans ((if_neg calm).trans ?_)
  by_cases survey : s.survey.state = some .recording ∨ s.survey.state = some .held
  · exact if_pos survey
  · refine (if_neg survey).trans (if_pos ?_)
    have jobs := running.resolve_left survey
    unfold printJobHeld
    cases ring : s.print.ring with
    | nil => exact absurd ring jobs
    | cons j rest => rfl

theorem storeWipe_begins (calm : ¬critical s = true)
    (idle : ¬(s.survey.state = some .recording ∨ s.survey.state = some .held)) (free : s.print.ring = []) :
    storeWipe s = wipeBegun (answer .ok .empty s) := by
  refine (storeWipe_able able).trans ((if_neg calm).trans ((if_neg idle).trans (if_neg ?_)))
  unfold printJobHeld
  rw [free]
  decide

end

end

/-! ### The obligation -/

/-- Settles O54. -/
theorem storeRequestsAnswer : Obligations.StoreRequestsAnswer := by
  unfold Obligations.StoreRequestsAnswer
  intro tag kind mode count id s h up st ans absent
  have ⟨_, free, _, _⟩ := h
  have upIff : storeUp s.store = true ↔ up := storeUp_iff s.store
  have down : ¬up → storeUp s.store ≠ true := mt upIff.1
  have calm : s.supply.level ≠ .critical → ¬critical s = true := mt (critical_iff s).1
  have absentEq : ∀ k, absentStatus st k id.toNat = absent k := fun k => absentStatus_eq discarding_iff
  refine ⟨fun no => ?modeDown, fun yes bad => ?modeBad, fun yes valid => ?mode, fun unnamed => ?unnamed,
    fun k named => ?named, fun a b => ?wipeBusy, fun able => ?wipe⟩
  case modeDown => exact request_refused tag (.storeMode mode) .busy s h fun u hu => by subst hu; exact storeMode_busy (down no)
  case modeBad =>
    exact request_refused tag (.storeMode mode) .badValue s h fun u hu => by
      subst hu
      exact storeMode_bad (upIff.2 yes) (storeMode?_none bad)
  case mode =>
    intro m
    have set : storeMode mode (waiting 0x18 tag s) = storeNext (recheckFull (modeAnswered m (waiting 0x18 tag s))) :=
      storeMode_set (s := waiting 0x18 tag s) (upIff.2 yes) (storeMode?_some valid)
    have moves : Moves (only [.store]) (waiting 0x18 tag s) (storeMode mode (waiting 0x18 tag s)) :=
      storeMode_moves _ _ (by decide)
    have sites := moves.sites_eq (by decide)
    have link : (modeAnswered m (waiting 0x18 tag s)).link = (replied 0x98 tag .ok (.storeMode m) s).link :=
      answered_link (kind := 0x18) _ _ rfl free
    obtain ⟨array, queue⟩ := modeSet_keeps (s := waiting 0x18 tag s) m
    have atMode := modeSet_mode (s := waiting 0x18 tag s) m
    have open_ := fun o => modeSet_open (s := waiting 0x18 tag s) m o
    have full := fun f => modeSet_full (s := waiting 0x18 tag s) m f
    rw [set] at sites
    refine ⟨_, request_served tag (.storeMode mode) h set, atMode, array, queue, sites, fun ready => ?_, fun o => ?_,
      fun f => (full f).1, fun f choice => ?_⟩
    · rw [open_ (by rw [show (waiting 0x18 tag s).store.state = _ from ready]; decide)]
      exact ⟨next_dir_ready (st := (modeAnswered m (waiting 0x18 tag s)).store) ready, link⟩
    · rw [open_ o]
      exact (next_keeps _).state
    · obtain ⟨state, linkF⟩ := (full f).2 choice
      exact ⟨state, linkF.trans link⟩
  case unnamed =>
    refine ⟨request_refused tag (.recordList kind id count) .badValue s h fun u _ => ?_,
      request_refused tag (.recordRead kind id) .badValue s h fun u _ => ?_,
      request_refused tag (.recordDelete kind id) .badValue s h fun u _ => recordDelete_unnamed unnamed⟩
    · change recordList kind id count u = _
      unfold recordList
      rw [unnamed]
    · change recordRead kind id u = _
      unfold recordRead
      rw [unnamed]
  case named =>
    intro matches_ counted
    have w : ∀ {code : Nat}, (waiting code tag s).store = st := rfl
    refine ⟨fun bad => ?listBad, fun no => ⟨fun good => ?listDown, ?readDown, ?deleteDown⟩, fun yes good => ?list,
      fun yes none_ => ?readNone, fun e yes found => ?read, fun yes low => ?deleteSupply,
      fun yes high none_ => ?deleteNone, fun e yes high other found => ?delete⟩
    case listBad =>
      exact request_refused tag (.recordList kind id count) .badValue s h fun u _ => recordList_bad named (mt countValid_iff.1 bad)
    case listDown =>
      exact request_refused tag (.recordList kind id count) .busy s h fun u hu => by
        subst hu
        exact recordList_down named (countValid_iff.2 good) (down no)
    case readDown =>
      exact request_refused tag (.recordRead kind id) .busy s h fun u hu => by
        subst hu
        exact recordRead_down named (down no)
    case deleteDown =>
      exact request_refused tag (.recordDelete kind id) .busy s h fun u hu => by
        subst hu
        exact recordDelete_down named (down no)
    case list =>
      obtain ⟨perm, ordered⟩ := listed_spec st k id.toNat
      refine ⟨_, _, request_answered tag (.recordList kind id count) .ok _ s s h free
        (recordList_lists (s := waiting 0x19 tag s) named (countValid_iff.2 good) (upIff.2 yes)), listed st k id.toNat, perm,
        ordered, nextListed_eq _ _, rfl⟩
    case readNone =>
      rw [← absentEq]
      exact request_refused tag (.recordRead kind id) _ s h fun u hu => by
        subst hu
        exact recordRead_none (s := waiting 0x1A tag s) named (upIff.2 yes) none_
    case read =>
      have reads := recordRead_some (s := waiting 0x1A tag s) named (upIff.2 yes) found
      have isKind := (findEntry_isFor found).2.1
      split
      · next gone =>
        exact request_refused tag (.recordRead kind id) .busy s h fun u hu => by
          subst hu
          exact reads.trans (if_pos gone)
      · next kept =>
        rw [← isKind]
        exact request_answered tag (.recordRead kind id) .ok _ s s h free (reads.trans (if_neg kept))
    case deleteSupply =>
      exact request_refused tag (.recordDelete kind id) .supply s h fun u hu => by
        subst hu
        exact (recordDelete_found (s := waiting 0x1B tag s) named (upIff.2 yes)).trans (if_pos ((critical_iff s).2 low))
    case deleteNone =>
      rw [← absentEq]
      exact request_refused tag (.recordDelete kind id) _ s h fun u hu => by
        subst hu
        exact recordDelete_none (s := waiting 0x1B tag s) named (upIff.2 yes) (calm high) none_
    case delete =>
      obtain ⟨_, rfl, sameId, _⟩ := findEntry_isFor found
      rw [← sameId] at found ⊢
      intro o busy attached last
      have deletes : ∀ {code : Nat}, recordDelete kind id (waiting code tag s) = deleteRecord e (waiting code tag s) := by
        intro code
        refine (recordDelete_found (s := waiting code tag s) named (upIff.2 yes)).trans ((if_neg (calm high)).trans ?_)
        rw [w, ← sameId, found]
        exact if_neg other
      have refused : ∀ status, deleteRecord e (waiting 0x1B tag s) = refuse status (waiting 0x1B tag s) →
          o = ans 0x9B status := fun status hr =>
        request_refused tag (.recordDelete kind id) status s h fun u hu => by
          subst hu
          exact deletes.trans hr
      have moves : Moves (only [.store, .survey, .harm, .free]) (waiting 0x1B tag s) (deleteRecord e (waiting 0x1B tag s)) :=
        deleteRecord_moves _ _ (by decide) (by decide) (by decide) (by decide)
      have alone : ¬attached → ¬attachedTo st e.kind e.id = true := mt attachedTo_iff.1
      have lone : ¬last → ¬holdsLast st e = true := mt holdsLast_iff.1
      have passes := fun nb np na nl => deleteRecord_passes (s := waiting 0x1B tag s) (e := e) nb np (alone na) (lone nl)
      have queued := fun nb np na nl eq => (passes nb np na nl).trans (if_pos eq)
      have served : ∀ {t}, deleteRecord e (waiting 0x1B tag s) = t → o = .next t := fun ht =>
        request_served tag (.recordDelete kind id) h (deletes.trans ht)
      have link := answered_link (kind := 0x1B) .ok .empty (removeQueued_link (kind := e.kind) (id := e.id)
        (s := waiting 0x1B tag s)) free
      have array := removeQueued_array (kind := e.kind) (id := e.id) (s := waiting 0x1B tag s)
      refine ⟨fun b => refused .busy (deleteRecord_busy b), fun nb p => refused .pinned (deleteRecord_pinned nb p),
        fun nb np a => refused .attached (deleteRecord_attached nb np (attachedTo_iff.2 a)),
        fun nb np na l => refused .wrongState (deleteRecord_last nb np (alone na) (holdsLast_iff.2 l)),
        fun nb np na nl eq place waits ready => ?quiet, fun nb np na nl eq => ?handed, fun loc nb np na nl eq at_ => ?live⟩
      case quiet =>
        rw [queued nb np na nl eq] at moves
        have sites := moves.sites_eq (by decide)
        obtain ⟨queue, dir, nextIds⟩ := removeQueued_quiet (kind := e.kind) (id := e.id) (s := waiting 0x1B tag s) place waits ready
        exact ⟨_, served (queued nb np na nl eq), link, (findEntry_of_dir dir e.kind e.id).trans (unqueued_findEntry st), queue,
          dir.trans (unqueued_dir st), array, nextIds, sites⟩
      case handed =>
        rw [queued nb np na nl eq] at moves
        exact ⟨_, served (queued nb np na nl eq), link,
          (removeQueued_handsOver (s := waiting 0x1B tag s) (upIff.2 yes)).of_alike ⟨rfl, rfl, rfl, rfl, rfl, rfl⟩ rfl rfl rfl rfl,
          array, moves.sites_eq (by decide)⟩
      case live =>
        have kills := (passes nb np na nl).trans ((if_neg (by rw [eq]; decide)).trans (killLive_eq at_))
        rw [kills] at moves
        obtain ⟨gone, owed, queue, array_, nextIds⟩ := killed_next (kind := e.kind) (id := e.id) st loc
        exact ⟨_, served kills, rfl, gone, owed, queue, array_, nextIds, moves.sites_eq (by decide),
          moves.capture_eq (by decide)⟩
  case wipeBusy => exact request_refused tag .storeWipe .busy s h fun u hu => by subst hu; exact if_pos ⟨a, b⟩
  case wipe =>
    intro running
    refine ⟨fun critical_ => ?_, fun low busy => ?_, fun low idle none_ => ?_⟩
    · refine request_refused tag .storeWipe .supply s h fun u hu => ?_
      subst hu
      exact (storeWipe_able (s := waiting 0x1C tag s) able).trans (if_pos ((critical_iff s).2 critical_))
    · refine request_refused tag .storeWipe .wrongState s h fun u hu => ?_
      subst hu
      exact storeWipe_running able (calm low) busy
    · have begins : storeWipe (waiting 0x1C tag s) = wipeBegun (replied 0x9C tag .ok .empty s) := by
        rw [storeWipe_begins (s := waiting 0x1C tag s) able (calm low) idle none_, answer_waiting _ _ _ _ _ free]
        rfl
      have moves : Moves (only [.store, .survey, .harm]) (waiting 0x1C tag s) (storeWipe (waiting 0x1C tag s)) :=
        storeWipe_moves _ (by decide) (by decide) (by decide)
      rw [begins] at moves
      obtain ⟨state, array, link⟩ := wipeBegun_store (s := replied 0x9C tag .ok .empty s)
      have entered := enterStore_link (s := replied 0x9C tag .ok .empty s) (new := .wiping)
        (by show StoreState.wiping ≠ s.store.state; rcases able with able | able <;> rw [able] <;> decide) (by decide)
      exact ⟨_, request_served tag .storeWipe h begins, state, link.trans entered, array, moves.sites_eq (by decide),
        moves.roster_eq (by decide), moves.capture_eq (by decide),
        fun busy => wipeBegun_busy (s := replied 0x9C tag .ok .empty s) busy,
        fun idle_ => wipeBegun_idle (s := replied 0x9C tag .ok .empty s) idle_⟩

end Sys2Proof.Machine
end

