-- ==== Sys2Proof/Proofs/NotesMade.lean ====
section
/-!
PROOFS. NOTE_ADD and NOTE_AMEND (O55).
-/

namespace Sys2Proof.Machine

/-! ### The fields of a NOTE_ADD (R140, check 1) -/

theorem textValid_iff {text : List Byte} : textValid text = true ↔
    1 ≤ text.length ∧ text.length ≤ 600 ∧ ∀ c ∈ text, 0x20 ≤ c.toNat ∧ c.toNat ≤ 0x7E := by
  simp [textValid, printable, and_assoc]

theorem attachKind?_isSome {n : Nat} : (attachKind? n).isSome = true ↔ n = 1 ∨ n = 2 := by
  unfold attachKind?
  split
  · simp
  · simp
  · next one two => exact ⟨fun h => absurd h Bool.false_ne_true, fun h => (h.elim one two).elim⟩

theorem attachKind?_named {kind : Byte} {k : RecordKind} (h : kind = 1 ∧ k = .event ∨ kind = 2 ∧ k = .interval) :
    attachKind? kind.toNat = some k := by
  rcases h with ⟨rfl, rfl⟩ | ⟨rfl, rfl⟩ <;> rfl

/-- The site and the attach kind are such as NOTE_ADD admits. -/
def fieldsOk (site kind : Byte) : Bool :=
  (site == 0xFF || site.toNat ≤ 3) && (kind == 0 || (attachKind? kind.toNat).isSome)

theorem fieldsOk_iff {site kind : Byte} : fieldsOk site kind = true ↔
    (site = 0xFF ∨ site.toNat ≤ 3) ∧ kind.toNat ≤ 2 := by
  have kinds : (kind == 0 || (attachKind? kind.toNat).isSome) = true ↔ kind.toNat ≤ 2 := by
    rw [Bool.or_eq_true, attachKind?_isSome, beq_iff_eq]
    constructor
    · rintro (rfl | one | two)
      · decide
      · omega
      · omega
    · intro small
      by_cases zero : kind.toNat = 0
      · exact .inl (BitVec.eq_of_toNat_eq zero)
      · exact .inr (by omega)
  rw [fieldsOk, Bool.and_eq_true, kinds, Bool.or_eq_true, beq_iff_eq, decide_eq_true_eq]

theorem addFields_eq (site kind : Byte) (crew : Crew) (text : List Byte) : addFields site kind crew text =
    (crewLetters crew).bind fun letters =>
      if textValid text && fieldsOk site kind then some (optionalSite site, attachKind? kind.toNat, letters) else none := by
  unfold addFields fieldsOk
  cases crewLetters crew with
  | none => rfl
  | some letters => rw [Option.bind_some, ← Bool.and_assoc]

theorem addFields_bad {site kind : Byte} {crew : Crew} {text : List Byte}
    (h : crewLetters crew = none ∨ ¬textValid text = true ∨ ¬fieldsOk site kind = true) :
    addFields site kind crew text = none := by
  rw [addFields_eq]
  cases letters : crewLetters crew with
  | none => rfl
  | some x =>
    refine (Option.bind_some ..).trans (if_neg ?_)
    rw [Bool.and_eq_true, not_and_or]
    exact h.resolve_left (by rw [letters]; exact Option.some_ne_none x)

theorem addFields_good {site kind : Byte} {crew : Crew} {text letters : List Byte} (crew_ : crewLetters crew = some letters)
    (text_ : textValid text = true) (fields : fieldsOk site kind = true) :
    addFields site kind crew text = some (optionalSite site, attachKind? kind.toNat, letters) := by
  rw [addFields_eq, crew_, text_, fields]
  rfl

/-! ### A note queued (R140, R141) -/

theorem modifyEntry_dir (f : Entry → Entry) (kind : RecordKind) (id : Nat) (st : Store) :
    (st.modifyEntry f kind id).dir =
      st.dir.map fun d => if d.kind = kind ∧ d.id = id ∧ d.state ≠ .dead then f d else d :=
  List.map_congr_left fun _ _ => if_congr isFor_iff rfl rfl

/-- A store whose next operation leaves the directory. -/
theorem next_dir_calm {st : Store} (h : st.state = .ready ∨ st.op.isSome = true) : st.next.dir = st.dir := by
  rcases h with ready | busy
  · exact next_dir_ready ready
  · exact congrArg Store.dir (if_pos (by rw [busy]; rfl) : st.next = st)

/-- The record of a note made now. -/
def noteMade (site : Option Nat) (attach : Option Attach) (amends : Option Nat) (crew text : List Byte) (s : State) :
    NoteRecord :=
  { id := s.store.nextIds.note, number := s.survey.number, site := site, attach := attach, amends := amends
    crew := crew, time := s.clock.time, clockUnset := !s.clock.valid, text := text }

/-- The QUEUED entry of a note made now. -/
def noteEntered (size : Nat) (links : Links) (s : State) : Entry :=
  { kind := .note, id := s.store.nextIds.note, seq := none, loc := none, size := size, state := .queued, links := links }

/-- From `s` to `v` the note `r` has entered the queue, and the directory has become `dir`. -/
structure NoteQueued (r : NoteRecord) (dir : List Entry) (s v : State) : Prop where
  rest : v = { s with store := v.store }
  queue : v.store.queue = s.store.queue ++ [⟨.note, s.store.nextIds.note, .note r, false⟩]
  nextIds : v.store.nextIds = { s.store.nextIds with note := s.store.nextIds.note + 1 }
  dir : v.store.dir = dir
  array : v.store.array = s.store.array
  lockMark : v.store.lockMark = s.store.lockMark
  state : v.store.state = s.store.state
  op : v.store.op = s.store.op

theorem drawId_same (kind : RecordKind) (st : Store) : (drawId kind st).2.array = st.array ∧
    (drawId kind st).2.lockMark = st.lockMark ∧ (drawId kind st).2.state = st.state ∧ (drawId kind st).2.op = st.op ∧
    (drawId kind st).2.dir = st.dir := by
  unfold drawId
  dsimp only
  split <;> exact ⟨rfl, rfl, rfl, rfl, rfl⟩

section
variable {site : Option Nat} {attach : Option Attach} {amends : Option Nat} {crew text : List Byte} {s : State}

theorem queueNote_id : (queueNote site attach amends crew text s).1 = s.store.nextIds.note := rfl

theorem queueNote_queued (short : text.length ≤ 600) :
    NoteQueued (noteMade site attach amends crew text s)
      (s.store.dir ++ [noteEntered (1 + (text.length + 199) / 200) { attach := attach, amends := amends } s]) s
      (queueNote site attach amends crew text s).2 := by
  obtain ⟨array, lockMark, state, op, dir⟩ := drawId_same .note s.store
  have size : contentSize (.note (noteMade site attach amends crew text s)) = 1 + (text.length + 199) / 200 :=
    contentSize_note short
  have entered : (queueNote site attach amends crew text s).2.store.dir =
      (drawId .note s.store).2.dir ++ [noteEntered (contentSize (.note (noteMade site attach amends crew text s)))
        { attach := attach, amends := amends } s] := rfl
  have queued : (queueNote site attach amends crew text s).2.store.queue =
      (drawId .note s.store).2.queue ++
        [⟨.note, s.store.nextIds.note, .note (noteMade site attach amends crew text s), false⟩] := rfl
  exact ⟨rfl, queued.trans (by rw [drawId_queue]), drawId_nextIds .note s.store, entered.trans (by rw [dir, size]), array,
    lockMark, state, op⟩

/-- The amended note is linked to the new one. -/
theorem NoteQueued.linked {r : NoteRecord} {dir : List Entry} {v : State} (h : NoteQueued r dir s v) (f : Links → Links)
    (id : Nat) : NoteQueued r
      (dir.map fun d => if d.kind = .note ∧ d.id = id ∧ d.state ≠ .dead then { d with links := f d.links } else d) s
      (setLinks f id v) := by
  obtain ⟨rest, queue, nextIds, rfl, array, lockMark, state, op⟩ := h
  refine ⟨?_, queue, nextIds, modifyEntry_dir _ _ _ _, array, lockMark, state, op⟩
  conv_lhs => rw [rest]
  rfl

end

/-- The answer to a request that queues a note: `storeFull`, `busy`, or ACCEPTED with its id. -/
def QueuesNote (code : Nat) (tag : Byte) (o : Host.Outcome State Fault Refusal) (r : NoteRecord) (dir : List Entry)
    (s : State) : Prop :=
  (s.store.state = .full → o = .next (replied code tag .storeFull .empty s)) ∧
  (s.store.state ≠ .full → 16 ≤ s.store.queue.length → o = .next (replied code tag .busy .empty s)) ∧
  (s.store.state ≠ .full → s.store.queue.length < 16 →
    ∃ t, o = .next t ∧
      t.link = (replied code tag .accepted (.noteId s.store.nextIds.note) s).link ∧
      t.store.queue = s.store.queue ++ [⟨.note, s.store.nextIds.note, .note r, false⟩] ∧
      t.store.nextIds = { s.store.nextIds with note := s.store.nextIds.note + 1 } ∧
      (s.store.state = .ready ∨ s.store.op.isSome = true → t.store.dir = dir) ∧
      t.store.array = s.store.array ∧ t.store.lockMark = s.store.lockMark ∧ t.sites = s.sites ∧
      t.survey = s.survey ∧ t.capture = s.capture ∧ t.print = s.print)

/-! ### The last two checks (R140, R141) -/

section
variable {f : State → State} {s : State}

theorem whenQueueOpen_full (full : s.store.state = .full) : whenQueueOpen f s = refuse .storeFull s := if_pos full

theorem whenQueueOpen_busy (open_ : s.store.state ≠ .full) (busy : 16 ≤ s.store.queue.length) :
    whenQueueOpen f s = refuse .busy s :=
  (if_neg open_).trans (if_pos (by
    rw [show queueRoom s.store = false from decide_eq_false (Nat.not_lt.2 busy)]
    rfl))

theorem whenQueueOpen_room (open_ : s.store.state ≠ .full) (room : s.store.queue.length < 16) :
    whenQueueOpen f s = f s :=
  (if_neg open_).trans (if_neg (by
    rw [show queueRoom s.store = true from decide_eq_true room]
    decide))

end

/-- A request whose rule queues a note where the queue is open. -/
theorem request_queues (tag : Byte) (r : Request) {s : State} {f : State → State} {v : State} {note : NoteRecord}
    {dir : List Entry} (h : Ready s)
    (hr : serve r (waiting (requestCode r) tag s) = whenQueueOpen f (waiting (requestCode r) tag s))
    (hf : f (waiting (requestCode r) tag s) = answer .accepted (.noteId s.store.nextIds.note) (storeNext v))
    (queued : NoteQueued note dir (waiting (requestCode r) tag s) v) :
    QueuesNote (replyKind (requestCode r)) tag (exec (r.command tag) s) note dir s := by
  have ⟨_, free, _, _⟩ := h
  refine ⟨fun full => ?_, fun open_ busy => ?_, fun open_ room => ?_⟩
  · exact request_refused tag r .storeFull s h fun u hu => by subst hu; exact hr.trans (whenQueueOpen_full full)
  · exact request_refused tag r .busy s h fun u hu => by subst hu; exact hr.trans (whenQueueOpen_busy open_ busy)
  · have kept := next_keeps v.store
    have link : v.link = (waiting (requestCode r) tag s).link := by rw [queued.rest]
    refine ⟨_, request_served tag r h (hr.trans ((whenQueueOpen_room (s := waiting (requestCode r) tag s) open_ room).trans hf)),
      answered_link (u := storeNext v) _ _ link free, kept.queue.trans queued.queue, kept.nextIds.trans queued.nextIds,
      fun calm => ?_, kept.array.trans queued.array, kept.lockMark.trans queued.lockMark, ?_, ?_, ?_, ?_⟩
    · have calmV : v.store.state = .ready ∨ v.store.op.isSome = true :=
        calm.imp queued.state.trans fun busy => by rw [queued.op]; exact busy
      exact (next_dir_calm calmV).trans queued.dir
    · have sites := congrArg State.sites queued.rest
      exact sites
    · have survey := congrArg State.survey queued.rest
      exact survey
    · have capture := congrArg State.capture queued.rest
      exact capture
    · have print := congrArg State.print queued.rest
      exact print

/-! ### NOTE_ADD (R140) -/

section
variable {site kind : Byte} {target : Word} {crew : Crew} {text letters : List Byte} {s : State}
  (crew_ : crewLetters crew = some letters) (text_ : textValid text = true) (fields : fieldsOk site kind = true)
include crew_ text_ fields

theorem noteAdd_down (down : storeUp s.store ≠ true) : noteAdd site kind target crew text s = refuse .busy s := by
  unfold noteAdd
  rw [addFields_good crew_ text_ fields]
  exact if_pos (by rw [Bool.eq_false_of_not_eq_true down]; rfl)

theorem noteAdd_supply (up : storeUp s.store = true) (low : critical s = true) :
    noteAdd site kind target crew text s = refuse .supply s := by
  unfold noteAdd
  rw [addFields_good crew_ text_ fields]
  exact (if_neg (by rw [up]; decide)).trans (if_pos low)

theorem noteAdd_plain (up : storeUp s.store = true) (calm : ¬critical s = true) (plain : attachKind? kind.toNat = none) :
    noteAdd site kind target crew text s = acceptNote (optionalSite site) none letters text s := by
  unfold noteAdd
  rw [addFields_good crew_ text_ fields]
  refine (if_neg (by rw [up]; decide)).trans ((if_neg calm).trans ?_)
  rw [plain]

theorem noteAdd_attached {k : RecordKind} (up : storeUp s.store = true) (calm : ¬critical s = true)
    (named : attachKind? kind.toNat = some k) :
    noteAdd site kind target crew text s = addAttached (optionalSite site) ⟨k, target.toNat⟩ letters text s := by
  unfold noteAdd
  rw [addFields_good crew_ text_ fields]
  refine (if_neg (by rw [up]; decide)).trans ((if_neg calm).trans ?_)
  rw [named]

end

theorem addAttached_none {site : Option Nat} {a : Attach} {crew text : List Byte} {s : State}
    (absent : findEntry s.store a.kind a.id = none) :
    addAttached site a crew text s = refuse (absentStatus s.store a.kind a.id) s := by
  unfold addAttached
  rw [absent]

theorem addAttached_some {site : Option Nat} {a : Attach} {crew text : List Byte} {s : State} {e : Entry}
    (found : findEntry s.store a.kind a.id = some e) : addAttached site a crew text s =
      if e.reclaim then refuse .busy s
      else if site.isSome ∧ site ≠ siteOfTarget s.store e then refuse .badValue s
      else acceptNote (siteOfTarget s.store e) (some a) crew text s := by
  unfold addAttached
  rw [found]

/-! ### NOTE_AMEND (R141) -/

section
variable {id : Word} {crew : Crew} {text letters : List Byte} {s : State}

theorem noteAmend_bad (h : crewLetters crew = none ∨ ¬textValid text = true) :
    noteAmend id crew text s = refuse .badValue s := by
  unfold noteAmend
  cases letters : crewLetters crew with
  | none => rfl
  | some x =>
    refine if_pos ?_
    rw [Bool.eq_false_of_not_eq_true (h.resolve_left (by rw [letters]; exact Option.some_ne_none x))]
    rfl

variable (crew_ : crewLetters crew = some letters) (text_ : textValid text = true)
include crew_ text_

theorem noteAmend_valid : noteAmend id crew text s =
    if !storeUp s.store then refuse .busy s
    else if critical s then refuse .supply s
    else
      match noteEntry s.store id.toNat with
      | none => refuse (absentStatus s.store .note id.toNat) s
      | some e =>
        if e.reclaim then refuse .busy s
        else if e.links.amendedBy.isSome then refuse .hasAmendment s
        else if 8 ≤ depthOf s.store id.toNat then refuse .chainLimit s
        else whenQueueOpen (amend id.toNat e letters text) s := by
  unfold noteAmend
  rw [crew_]
  exact if_neg (by rw [text_]; decide)

theorem noteAmend_down (down : storeUp s.store ≠ true) : noteAmend id crew text s = refuse .busy s :=
  (noteAmend_valid crew_ text_).trans (if_pos (by rw [Bool.eq_false_of_not_eq_true down]; rfl))

theorem noteAmend_supply (up : storeUp s.store = true) (low : critical s = true) :
    noteAmend id crew text s = refuse .supply s :=
  (noteAmend_valid crew_ text_).trans ((if_neg (by rw [up]; decide)).trans (if_pos low))

variable (up : storeUp s.store = true) (calm : ¬critical s = true)
include up calm

theorem noteAmend_none (absent : findEntry s.store .note id.toNat = none) :
    noteAmend id crew text s = refuse (absentStatus s.store .note id.toNat) s := by
  refine (noteAmend_valid crew_ text_).trans ((if_neg (by rw [up]; decide)).trans ((if_neg calm).trans ?_))
  rw [noteEntry, absent]

theorem noteAmend_some {e : Entry} (found : findEntry s.store .note id.toNat = some e) : noteAmend id crew text s =
    if e.reclaim then refuse .busy s
    else if e.links.amendedBy.isSome then refuse .hasAmendment s
    else if 8 ≤ depthOf s.store id.toNat then refuse .chainLimit s
    else whenQueueOpen (amend id.toNat e letters text) s := by
  refine (noteAmend_valid crew_ text_).trans ((if_neg (by rw [up]; decide)).trans ((if_neg calm).trans ?_))
  rw [noteEntry, found]

end

/-- An amendment of a note that holds a record. -/
theorem amend_noted {id : Nat} {e : Entry} {crew text : List Byte} {r : NoteRecord} {s : State}
    (holds : contentOf s.store e = .note r) : amend id e crew text s =
      answer .accepted (.noteId s.store.nextIds.note)
        (storeNext (setLinks (fun l => { l with amendedBy := some s.store.nextIds.note }) id
          (queueNote r.site (if e.links.attachLost then none else r.attach) (some id) crew text s).2)) := by
  have content : noteContent s.store e = some r := by
    unfold noteContent
    rw [holds]
  unfold amend
  rw [content]
  rfl

/-! ### The obligation -/

/-- Settles O55. -/
theorem notesAreAddedAndAmended : Obligations.NotesAreAddedAndAmended := by
  unfold Obligations.NotesAreAddedAndAmended
  intro tag site kind target id crew text s h st new up goes textOk ends absent queues entry size add amend_
  have ⟨_, free, _, _⟩ := h
  have upIff : storeUp s.store = true ↔ up := storeUp_iff s.store
  have down : ¬up → storeUp s.store ≠ true := mt upIff.1
  have calm : s.supply.level ≠ .critical → ¬critical s = true := mt (critical_iff s).1
  have absentEq : ∀ k i, absentStatus st k i = absent k i := fun k i => absentStatus_eq discarding_iff
  let addR : Request := .noteAdd site kind target crew text
  let amendR : Request := .noteAmend id crew text
  have addRefused : ∀ status, noteAdd site kind target crew text (waiting 0x1D tag s) = refuse status (waiting 0x1D tag s) →
      ends 0x9D add status := fun status hr =>
    request_refused tag addR status s h fun u hu => by subst hu; exact hr
  have amendRefused : ∀ status, noteAmend id crew text (waiting 0x1E tag s) = refuse status (waiting 0x1E tag s) →
      ends 0x9E amend_ status := fun status hr =>
    request_refused tag amendR status s h fun u hu => by subst hu; exact hr
  have addBad : crewLetters crew = none ∨ ¬textValid text = true ∨ ¬fieldsOk site kind = true → ends 0x9D add .badValue := by
    intro bad
    refine addRefused .badValue ?_
    unfold noteAdd
    rw [addFields_bad bad]
  refine ⟨fun bad => ⟨addBad ?_, amendRefused _ (noteAmend_bad (bad.imp_right (mt textValid_iff.1)))⟩, fun bad => addBad ?_,
    fun letters crew_ ok => ?_⟩
  · exact bad.imp_right fun no => .inl (mt textValid_iff.1 no)
  · refine .inr (.inr (mt fieldsOk_iff.1 fun good => ?_))
    rcases bad with ⟨noSite, high⟩ | big
    · exact good.1.elim noSite (by omega)
    · omega
  intro own fields
  have text_ : textValid text = true := textValid_iff.2 ok
  have good : fields → fieldsOk site kind = true := fieldsOk_iff.2
  have queued := fun (code : Nat) at_ a am => queueNote_queued (site := at_) (attach := a) (amends := am) (crew := letters)
    (s := waiting code tag s) ok.2.1
  refine ⟨fun f no => addRefused _ (noteAdd_down (s := waiting 0x1D tag s) crew_ text_ (good f) (down no)),
    fun f yes low => addRefused _ (noteAdd_supply (s := waiting 0x1D tag s) crew_ text_ (good f) (upIff.2 yes) ((critical_iff s).2 low)),
    fun f go zero => ?plain, fun k f go named => ?attached, fun no => amendRefused _ (noteAmend_down (s := waiting 0x1E tag s) crew_ text_ (down no)),
    fun yes low => amendRefused _ (noteAmend_supply (s := waiting 0x1E tag s) crew_ text_ (upIff.2 yes) ((critical_iff s).2 low)),
    fun go none_ => ?amendNone, fun e go found => ?amend⟩
  case plain =>
    subst zero
    have plain := noteAdd_plain (target := target) (s := waiting 0x1D tag s) crew_ text_ (good f) (upIff.2 go.1) (calm go.2) rfl
    exact request_queues tag addR h plain rfl (queued 0x1D own none none)
  case attached =>
    have serves := noteAdd_attached (target := target) (s := waiting 0x1D tag s) crew_ text_ (good f) (upIff.2 go.1) (calm go.2)
      (attachKind?_named named)
    constructor
    · intro none_
      rw [← absentEq]
      exact addRefused _ (serves.trans (addAttached_none (a := ⟨k, target.toNat⟩) (s := waiting 0x1D tag s) none_))
    intro e found targetSite a
    refine ⟨fun gone => ?_, fun kept set differs => ?_, fun kept agrees => ?_⟩
    · exact addRefused _ (serves.trans ((addAttached_some (a := ⟨k, target.toNat⟩) (s := waiting 0x1D tag s) found).trans (if_pos gone)))
    · exact addRefused _ (serves.trans ((addAttached_some (a := ⟨k, target.toNat⟩) (s := waiting 0x1D tag s) found).trans
        ((if_neg (by rw [kept]; decide)).trans (if_pos ⟨set, differs⟩))))
    · have fits : ¬(own.isSome = true ∧ own ≠ targetSite) := fun ⟨set, differs⟩ =>
        agrees.elim (fun none_ => by rw [none_] at set; exact absurd set Bool.false_ne_true) differs
      exact request_queues tag addR h (serves.trans ((addAttached_some (a := ⟨k, target.toNat⟩) (s := waiting 0x1D tag s) found).trans
        ((if_neg (by rw [kept]; decide)).trans (if_neg fits)))) rfl (queued 0x1D targetSite (some a) none)
  case amendNone =>
    rw [← absentEq]
    exact amendRefused _ (noteAmend_none (s := waiting 0x1E tag s) crew_ text_ (upIff.2 go.1) (calm go.2) none_)
  case amend =>
    have serves := noteAmend_some (s := waiting 0x1E tag s) crew_ text_ (upIff.2 go.1) (calm go.2) found
    refine ⟨fun gone => ?_, fun kept has => ?_, fun kept no deep => ?_, ?_⟩
    · exact amendRefused _ (serves.trans (if_pos gone))
    · exact amendRefused _ (serves.trans ((if_neg (by rw [kept]; decide)).trans (if_pos has)))
    · exact amendRefused _ (serves.trans ((if_neg (by rw [kept]; decide)).trans ((if_neg (by rw [no]; decide)).trans (if_pos deep))))
    · intro r kept no shallow holds a
      exact request_queues tag amendR h (serves.trans ((if_neg (by rw [kept]; decide)).trans
        ((if_neg (by rw [no]; decide)).trans (if_neg (Nat.not_le.2 shallow))))) (amend_noted (s := waiting 0x1E tag s) holds)
        ((queued 0x1E r.site a (some id.toNat)).linked (fun l => { l with amendedBy := some new }) id.toNat)

end Sys2Proof.Machine
end

