-- ==== Sys2Proof/Proofs/NotesChanged.lean ====
section
/-!
PROOFS. NOTE_ATTACH, NOTE_DELETE, NOTE_LOCK and NOTE_LIST (O56).
-/

namespace Sys2Proof.Machine

theorem isLocked_iff {st : Store} {id : Nat} : isLocked st id = true ↔ id ≤ st.lockMark := decide_eq_true_iff

/-- A directory with the links of a note changed. -/
abbrev relinked (m : Nat) (f : Links → Links) (dir : List Entry) : List Entry :=
  dir.map fun d => if d.kind = .note ∧ d.id = m ∧ d.state ≠ .dead then { d with links := f d.links } else d

theorem setLinks_eq (f : Links → Links) (m : Nat) (s : State) :
    setLinks f m s = setStore (fun st => { st with dir := relinked m f st.dir }) s := by
  have store : s.store.modifyEntry (fun e => { e with links := f e.links }) .note m =
      { s.store with dir := relinked m f s.store.dir } :=
    congrArg (fun dir => { s.store with dir := dir }) (modifyEntry_dir _ _ _ _)
  exact congrArg (fun st => { s with store := st }) store

theorem setLinks_dir (f : Links → Links) (m : Nat) (s : State) : (setLinks f m s).store.dir = relinked m f s.store.dir :=
  modifyEntry_dir _ _ _ _

/-! ### NOTE_ATTACH (R142, R143) -/

section
variable {id : Word} {kind : Byte} {target : Word} {k : RecordKind} {s : State}

theorem noteAttach_unnamed (h : attachKind? kind.toNat = none) : noteAttach id kind target s = refuse .badValue s := by
  unfold noteAttach
  rw [h]

section
variable (named : attachKind? kind.toNat = some k)
include named

theorem noteAttach_down (down : storeUp s.store ≠ true) : noteAttach id kind target s = refuse .busy s := by
  unfold noteAttach
  rw [named]
  exact if_pos (by rw [Bool.eq_false_of_not_eq_true down]; rfl)

theorem noteAttach_supply (up : storeUp s.store = true) (low : critical s = true) :
    noteAttach id kind target s = refuse .supply s := by
  unfold noteAttach
  rw [named]
  exact (if_neg (by rw [up]; decide)).trans (if_pos low)

theorem noteAttach_none (up : storeUp s.store = true) (calm : ¬critical s = true)
    (absent : findEntry s.store .note id.toNat = none) :
    noteAttach id kind target s = refuse (absentStatus s.store .note id.toNat) s := by
  unfold noteAttach
  rw [named]
  refine (if_neg (by rw [up]; decide)).trans ((if_neg calm).trans ?_)
  rw [noteEntry, absent]

/-- From check 5 on. -/
theorem noteAttach_some {e : Entry} (up : storeUp s.store = true) (calm : ¬critical s = true)
    (found : findEntry s.store .note id.toNat = some e) : noteAttach id kind target s =
      if e.reclaim || writeInFlight s.store .note id.toNat then refuse .busy s
      else if isLocked s.store id.toNat then refuse .locked s
      else if e.links.attach.isSome || e.links.attachLost then refuse .wrongState s
      else if 0 < e.pins then refuse .pinned s
      else attachTo id.toNat e ⟨k, target.toNat⟩ s := by
  unfold noteAttach
  rw [named]
  refine (if_neg (by rw [up]; decide)).trans ((if_neg calm).trans ?_)
  rw [noteEntry, found]

end

theorem attachTo_none {n : Nat} {e : Entry} {a : Attach} (absent : findEntry s.store a.kind a.id = none) :
    attachTo n e a s = refuse (absentStatus s.store a.kind a.id) s := by
  unfold attachTo
  rw [absent]

theorem attachTo_some {n : Nat} {e d : Entry} {a : Attach} {r : NoteRecord} (found : findEntry s.store a.kind a.id = some d)
    (holds : contentOf s.store e = .note r) : attachTo n e a s =
      if d.reclaim then refuse .busy s
      else if r.site.isSome ∧ r.site ≠ siteOfTarget s.store d then refuse .badValue s
      else attach n e a (withAttach a (siteOfTarget s.store d) r) s := by
  have content : noteContent s.store e = some r := by
    unfold noteContent
    rw [holds]
  unfold attachTo
  rw [found, content]

end

/-- The store with a note's attach among its links. -/
def Store.attached (n : Nat) (a : Attach) (st : Store) : Store :=
  st.modifyEntry (fun e => { e with links := { e.links with attach := some a } }) .note n

/-- The state with the attach in a QUEUED note's queue place. -/
def noteAttached (n : Nat) (a : Attach) (r : NoteRecord) (s : State) : State :=
  setStore (fun st => replaceContent n r (st.attached n a)) s

/-- The store with the replacement of a LIVE note in the queue. -/
@[irreducible] def Store.noteReplaced (n : Nat) (a : Attach) (r : NoteRecord) (st : Store) : Store :=
  (queueReplacement n r (st.attached n a)).next

/-- The state with that store. -/
def noteReplaced (n : Nat) (a : Attach) (r : NoteRecord) (s : State) : State := setStore (Store.noteReplaced n a r) s

section
variable {n : Nat} {e : Entry} {a : Attach} {r : NoteRecord} {s : State}

theorem attach_queued (queued : e.state = .queued) : attach n e a r s = answer .ok .empty (noteAttached n a r s) :=
  if_pos queued

theorem attach_live (live : e.state = .live) :
    attach n e a r s = whenQueueOpen (fun s => answer .ok .empty (noteReplaced n a r s)) s := by
  unfold noteReplaced Store.noteReplaced
  exact if_neg (by rw [live]; decide)

theorem noteAttached_rest : (noteAttached n a r s).link = s.link ∧ (noteAttached n a r s).store.array = s.store.array ∧
    (noteAttached n a r s).sites = s.sites ∧ (noteAttached n a r s).survey = s.survey ∧
    (noteAttached n a r s).capture = s.capture ∧ (noteAttached n a r s).print = s.print :=
  ⟨rfl, rfl, rfl, rfl, rfl, rfl⟩

theorem noteAttached_dir :
    (noteAttached n a r s).store.dir = relinked n (fun l => { l with attach := some a }) s.store.dir :=
  setLinks_dir (fun l => { l with attach := some a }) n s

theorem noteAttached_queue : (noteAttached n a r s).store.queue =
    s.store.queue.map fun q => if q.kind = .note ∧ q.id = n then { q with content := .note r } else q :=
  List.map_congr_left fun _ _ => if_congr (by simp) rfl rfl

theorem noteReplaced_queue : (noteReplaced n a r s).store.queue = s.store.queue ++ [⟨.note, n, .note r, true⟩] := by
  show (s.store.noteReplaced n a r).queue = _
  unfold Store.noteReplaced
  exact (next_keeps _).queue

theorem noteReplaced_dir (calm : s.store.state = .ready ∨ s.store.op.isSome = true) :
    (noteReplaced n a r s).store.dir = relinked n (fun l => { l with attach := some a }) s.store.dir := by
  show (s.store.noteReplaced n a r).dir = _
  unfold Store.noteReplaced
  refine (next_dir_calm ?_).trans (setLinks_dir (fun l => { l with attach := some a }) n s)
  exact calm

theorem noteReplaced_rest : (noteReplaced n a r s).link = s.link ∧ (noteReplaced n a r s).store.array = s.store.array ∧
    (noteReplaced n a r s).sites = s.sites ∧ (noteReplaced n a r s).survey = s.survey ∧
    (noteReplaced n a r s).capture = s.capture ∧ (noteReplaced n a r s).print = s.print := by
  refine ⟨rfl, ?_, rfl, rfl, rfl, rfl⟩
  show (s.store.noteReplaced n a r).array = _
  unfold Store.noteReplaced
  exact (next_keeps _).array

end

/-! ### NOTE_DELETE (R144) -/

/-- RECORD_DELETE of kind NOTE is NOTE_DELETE (R134). -/
theorem recordDelete_note (id : Word) (s : State) : recordDelete 3 id s = noteDelete id s := by
  by_cases up : storeUp s.store = true
  · refine (recordDelete_found (kind := 3) (k := .note) rfl up).trans ?_
    have passes : noteDelete id s =
        if critical s then refuse .supply s
        else match noteEntry s.store id.toNat with
          | none => refuse (absentStatus s.store .note id.toNat) s
          | some e => deleteNote id.toNat e s := if_neg (by rw [up]; decide)
    by_cases low : critical s = true
    · rw [if_pos low, passes, if_pos low]
    · rw [if_neg low]
      cases found : findEntry s.store .note id.toNat with
      | none =>
        rw [passes, if_neg low, noteEntry, found]
      | some e => exact if_pos rfl
  · rw [recordDelete_down (kind := 3) (k := .note) rfl up]
    exact (if_pos (by rw [Bool.eq_false_of_not_eq_true up]; rfl)).symm

section
variable {id : Word} {e : Entry} {n : Nat} {s : State}

theorem noteDelete_down (down : storeUp s.store ≠ true) : noteDelete id s = refuse .busy s :=
  if_pos (by rw [Bool.eq_false_of_not_eq_true down]; rfl)

theorem noteDelete_supply (up : storeUp s.store = true) (low : critical s = true) : noteDelete id s = refuse .supply s :=
  (if_neg (by rw [up]; decide)).trans (if_pos low)

theorem noteDelete_none (up : storeUp s.store = true) (calm : ¬critical s = true)
    (absent : findEntry s.store .note id.toNat = none) :
    noteDelete id s = refuse (absentStatus s.store .note id.toNat) s := by
  refine (if_neg (by rw [up]; decide)).trans ((if_neg calm).trans ?_)
  rw [noteEntry, absent]

theorem noteDelete_some (up : storeUp s.store = true) (calm : ¬critical s = true)
    (found : findEntry s.store .note id.toNat = some e) : noteDelete id s = deleteNote id.toNat e s := by
  refine (if_neg (by rw [up]; decide)).trans ((if_neg calm).trans ?_)
  rw [noteEntry, found]

/-- The directory in which the note that this one amends is the tail of its chain. -/
def unlinkedDir (e : Entry) (dir : List Entry) : List Entry :=
  match e.links.amends with
  | some a => relinked a (fun l => { l with amendedBy := none }) dir
  | none => dir

/-- The store of that directory. -/
def Store.unlinked (e : Entry) (st : Store) : Store := { st with dir := unlinkedDir e st.dir }

theorem unlink_eq : unlink e s = setStore (Store.unlinked e) s := by
  unfold unlink Store.unlinked unlinkedDir
  cases e.links.amends with
  | none => rfl
  | some a => exact setLinks_eq _ a s

theorem replacementQueued_eq (st : Store) : replacementQueued st n =
    st.queue.any fun q => decide (q.kind = .note ∧ q.id = n ∧ q.replacement = true) := by
  unfold replacementQueued
  refine congrArg st.queue.any (funext fun q => ?_)
  simp [beq_eq_decide, Bool.and_assoc]

theorem dequeue_queue (st : Store) : (st.dequeue .note n).queue = queueWithout .note n st.queue := unqueued_queue st

/-- A killed record leaves the queue, the counts and the other blocks. -/
theorem killLive_keeps (kind : RecordKind) (s : State) :
    (killLive kind n e s).store.queue = s.store.queue ∧ (killLive kind n e s).store.intervalDrops = s.store.intervalDrops ∧
      (killLive kind n e s).store.array = s.store.array ∧ (killLive kind n e s).survey = s.survey ∧
      (killLive kind n e s).harm = s.harm := by
  cases h : e.loc with
  | some loc =>
    have kept := next_keeps (s.store.killed kind n loc)
    rw [killLive_eq h]
    exact ⟨kept.queue, kept.intervalDrops, kept.array, rfl, rfl⟩
  | none =>
    unfold killLive
    rw [h]
    exact ⟨rfl, rfl, rfl, rfl, rfl⟩

end

/-! ### NOTE_DELETE, from check 4 (R144) -/

section
variable {e : Entry} {n : Nat} {s : State}

theorem deleteNote_locked (locked : n ≤ s.store.lockMark) : deleteNote n e s = refuse .locked s :=
  if_pos (isLocked_iff.2 locked)

section
variable (open_ : s.store.lockMark < n)
include open_

theorem deleteNote_unlocked : deleteNote n e s =
    if e.reclaim || writeInFlight s.store .note n then refuse .busy s
    else if 0 < e.pins then refuse .pinned s
    else if e.links.amendedBy.isSome then refuse .hasAmendment s
    else if e.state = .queued then answer .ok .empty (removeQueued .note n (unlink e s))
    else killLive .note n e (dropReplacement n (unlink e s)) :=
  if_neg (mt isLocked_iff.1 (Nat.not_le.2 open_))

theorem deleteNote_busy (busy : e.reclaim = true ∨ writeInFlight s.store .note n = true) :
    deleteNote n e s = refuse .busy s :=
  (deleteNote_unlocked open_).trans (if_pos (by rwa [Bool.or_eq_true]))

variable (free : ¬(e.reclaim = true ∨ writeInFlight s.store .note n = true))
include free

theorem deleteNote_pinned (pinned : 0 < e.pins) : deleteNote n e s = refuse .pinned s :=
  (deleteNote_unlocked open_).trans ((if_neg (by rwa [Bool.or_eq_true])).trans (if_pos pinned))

theorem deleteNote_amended (unpinned : e.pins = 0) (amended : e.links.amendedBy.isSome = true) :
    deleteNote n e s = refuse .hasAmendment s :=
  (deleteNote_unlocked open_).trans ((if_neg (by rwa [Bool.or_eq_true])).trans ((if_neg (by omega)).trans (if_pos amended)))

theorem deleteNote_passes (unpinned : e.pins = 0) (tail : e.links.amendedBy = none) : deleteNote n e s =
    if e.state = .queued then answer .ok .empty (removeQueued .note n (setStore (Store.unlinked e) s))
    else killLive .note n e (dropReplacement n (setStore (Store.unlinked e) s)) := by
  rw [← unlink_eq]
  exact (deleteNote_unlocked open_).trans ((if_neg (by rwa [Bool.or_eq_true])).trans
    ((if_neg (by omega)).trans (if_neg (by rw [tail]; decide))))

end

/-- A replacement in the queue leaves it, and its place goes to the records that wait. -/
theorem dropReplacement_queued (queued : replacementQueued s.store n = true) :
    dropReplacement n s = announcePlace (setStore (Store.dequeue .note n) s) := if_pos queued

theorem dropReplacement_handsOver (up : storeUp s.store = true) (queued : replacementQueued s.store n = true) :
    HandsOver (queueWithout .note n s.store.queue) s (dropReplacement n s) ∧
      (dropReplacement n s).store.array = s.store.array := by
  have handed := announcePlace_handsOver (setStore (Store.dequeue .note n) s) up
  have queue : (setStore (Store.dequeue .note n) s).store.queue = queueWithout .note n s.store.queue := dequeue_queue s.store
  rw [queue] at handed
  rw [dropReplacement_queued queued]
  exact ⟨handed.of_alike ⟨rfl, rfl, rfl, rfl, rfl, rfl⟩ rfl rfl rfl rfl,
    (HandKeeps.of_announcePlace (setStore (Store.dequeue .note n) s)).array⟩

/-- The store without the replacement that a note has in the queue. -/
def Store.unreplaced (n : Nat) (st : Store) : Store :=
  { st with queue := if replacementQueued st n = true then queueWithout .note n st.queue else st.queue }

/-- Where no record waits, only the queue moves. -/
theorem dropReplacement_idle (place : s.survey.place = none) (waits : nextWaiting s = none) :
    dropReplacement n s = setStore (Store.unreplaced n) s := by
  unfold setStore Store.unreplaced
  by_cases queued : replacementQueued s.store n = true
  · rw [dropReplacement_queued queued, announcePlace_idle (s := setStore (Store.dequeue .note n) s) place waits,
      if_pos queued, ← dequeue_queue]
    rfl
  · rw [if_neg queued]
    exact if_neg queued

end

/-- The store with a QUEUED note taken out, where no record waits for its place. -/
@[irreducible] def Store.noteTaken (n : Nat) (e : Entry) (st : Store) : Store := ((st.unlinked e).unqueued .note n).next

/-- The state with that store. -/
def noteTaken (n : Nat) (e : Entry) (s : State) : State := setStore (Store.noteTaken n e) s

/-- The store with a LIVE note killed, and its replacement dropped, where no record waits for its place. -/
@[irreducible] def Store.noteKilled (n : Nat) (e : Entry) (loc : Nat × Nat) (st : Store) : Store :=
  (((st.unlinked e).unreplaced n).killed .note n loc).next

/-- The state with that store. -/
def noteKilled (n : Nat) (e : Entry) (loc : Nat × Nat) (s : State) : State := setStore (Store.noteKilled n e loc) s

section
variable {n : Nat} {e : Entry} {loc : Nat × Nat} {s : State}

theorem removeQueued_taken (place : s.survey.place = none) (waits : nextWaiting s = none) :
    removeQueued .note n (setStore (Store.unlinked e) s) = noteTaken n e s := by
  unfold noteTaken Store.noteTaken
  exact removeQueued_idle (s := setStore (Store.unlinked e) s) place waits

theorem killLive_killed (place : s.survey.place = none) (waits : nextWaiting s = none) (at_ : e.loc = some loc) :
    killLive .note n e (dropReplacement n (setStore (Store.unlinked e) s)) = noteKilled n e loc s := by
  unfold noteKilled Store.noteKilled
  rw [dropReplacement_idle (s := setStore (Store.unlinked e) s) place waits]
  exact killLive_eq at_

theorem noteTaken_rest : (noteTaken n e s).store.array = s.store.array ∧ (noteTaken n e s).sites = s.sites ∧
    (noteTaken n e s).survey = s.survey ∧ (noteTaken n e s).capture = s.capture ∧ (noteTaken n e s).print = s.print ∧
    (noteTaken n e s).link = s.link := by
  refine ⟨?_, rfl, rfl, rfl, rfl, rfl⟩
  show (s.store.noteTaken n e).array = _
  unfold Store.noteTaken
  exact (next_keeps _).array

theorem noteTaken_queue : (noteTaken n e s).store.queue = queueWithout .note n s.store.queue := by
  show (s.store.noteTaken n e).queue = _
  unfold Store.noteTaken
  exact (next_keeps _).queue.trans (unqueued_queue _)

theorem noteTaken_dir (calm : s.store.state = .ready ∨ s.store.op.isSome = true) : (noteTaken n e s).store.dir =
    (unlinkedDir e s.store.dir).filter fun d => ¬(d.kind = .note ∧ d.id = n ∧ d.state ≠ .dead) := by
  show (s.store.noteTaken n e).dir = _
  unfold Store.noteTaken
  exact (next_dir_calm (st := (s.store.unlinked e).unqueued .note n) calm).trans (unqueued_dir _)

theorem noteKilled_rest : (noteKilled n e loc s).store.array = s.store.array ∧ (noteKilled n e loc s).sites = s.sites ∧
    (noteKilled n e loc s).survey = s.survey ∧ (noteKilled n e loc s).capture = s.capture ∧
    (noteKilled n e loc s).print = s.print ∧ (noteKilled n e loc s).link = s.link := by
  refine ⟨?_, rfl, rfl, rfl, rfl, rfl⟩
  show (s.store.noteKilled n e loc).array = _
  unfold Store.noteKilled
  exact (next_keeps _).array

theorem noteKilled_queue : (noteKilled n e loc s).store.queue =
    if s.store.queue.any (fun q => decide (q.kind = .note ∧ q.id = n ∧ q.replacement = true)) = true then
      queueWithout .note n s.store.queue else s.store.queue := by
  rw [← replacementQueued_eq]
  show (s.store.noteKilled n e loc).queue = _
  unfold Store.noteKilled
  exact (next_keeps _).queue

theorem noteKilled_owed : ⟨loc, .delete⟩ ∈ (noteKilled n e loc s).store.marks ∨
    (noteKilled n e loc s).store.op = some (.mark ⟨loc, .delete⟩) := by
  show _ ∈ (s.store.noteKilled n e loc).marks ∨ (s.store.noteKilled n e loc).op = _
  unfold Store.noteKilled
  exact mem_next_marks (killed_marks _ _)

theorem noteKilled_dir : (noteKilled n e loc s).store.dir = (unlinkedDir e s.store.dir).map fun d =>
    if d.kind = .note ∧ d.id = n ∧ d.state ≠ .dead then { d with state := .dead, pins := 0, links := {} } else d := by
  show (s.store.noteKilled n e loc).dir = _
  unfold Store.noteKilled
  refine (next_dir_owed (killed_marks (kind := .note) (id := n) ((s.store.unlinked e).unreplaced n) loc)).trans ?_
  exact modifyEntry_dir (fun e => { e with state := .dead, pins := 0, links := {} }) .note n
    ((s.store.unlinked e).unreplaced n)

end

/-! ### NOTE_LOCK (R145) -/

section
variable {upto : Word} {s : State}

theorem noteLock_down (down : storeUp s.store ≠ true) : noteLock upto s = refuse .busy s :=
  if_pos (by rw [Bool.eq_false_of_not_eq_true down]; rfl)

theorem noteLock_supply (up : storeUp s.store = true) (low : critical s = true) : noteLock upto s = refuse .supply s :=
  (if_neg (by rw [up]; decide)).trans (if_pos low)

/-- The lock of the notes up to `mark`, where the queue is open. -/
def lockNotes (n : Nat) (s : State) : State :=
  let mark := Nat.min n (lastNoteId s.store)
  let clamped := mark != n
  if mark = s.store.lockMark then
    answer (if clamped then .okClamped else .ok) (if clamped then .lockMark mark else .empty) s
  else queueLock mark clamped s

section
variable (up : storeUp s.store = true) (calm : ¬critical s = true)
include up calm

theorem noteLock_low (low : upto.toNat < s.store.lockMark) : noteLock upto s = refuse .badValue s :=
  (if_neg (by rw [up]; decide)).trans ((if_neg calm).trans (if_pos low))

theorem noteLock_opens (high : s.store.lockMark ≤ upto.toNat) : noteLock upto s = whenQueueOpen (lockNotes upto.toNat) s :=
  (if_neg (by rw [up]; decide)).trans ((if_neg calm).trans (if_neg (Nat.not_lt.2 high)))

end

theorem clamps_iff (n last : Nat) : (Nat.min n last != n) = decide (last < n) := by
  rw [bne, beq_eq_decide]
  by_cases below : n ≤ last
  · rw [show n.min last = n from Nat.min_eq_left below]
    simp [Nat.not_lt.2 below]
  · have high : last < n := Nat.not_le.1 below
    rw [show n.min last = last from Nat.min_eq_right high.le]
    simp [high, high.ne]

theorem lockNotes_same {n : Nat} (same : Nat.min n (lastNoteId s.store) = s.store.lockMark) : lockNotes n s =
    answer (if n ≤ lastNoteId s.store then .ok else .okClamped)
      (if n ≤ lastNoteId s.store then .empty else .lockMark (Nat.min n (lastNoteId s.store))) s := by
  refine (if_pos same).trans ?_
  rw [clamps_iff]
  by_cases below : n ≤ lastNoteId s.store
  · rw [decide_eq_false (Nat.not_lt.2 below), if_pos below, if_pos below]
    rfl
  · rw [decide_eq_true (Nat.not_le.1 below), if_neg below, if_neg below]
    rfl

theorem lockNotes_queues {n : Nat} (moves : Nat.min n (lastNoteId s.store) ≠ s.store.lockMark) :
    lockNotes n s = queueLock (Nat.min n (lastNoteId s.store)) (decide (lastNoteId s.store < n)) s := by
  refine (if_neg moves).trans ?_
  rw [clamps_iff]

/-- The LOCK_MARK record of a lock made now. -/
def lockMade (mark : Nat) (s : State) : LockRecord := ⟨s.store.nextIds.lockMark, mark, s.clock.time, !s.clock.valid⟩

theorem queueLock_queues (mark : Nat) (clamped : Bool) (s : State) : let t := queueLock mark clamped s
    t.store.lockMark = s.store.lockMark ∧ t.store.array = s.store.array ∧
      t.link = { s.link with current := s.link.current.map fun c => { c with clamped := clamped } } ∧
      t.store.queue = s.store.queue ++ [⟨.lockMark, s.store.nextIds.lockMark, .lockMark (lockMade mark s), false⟩] ∧
      t.store.nextIds = { s.store.nextIds with lockMark := s.store.nextIds.lockMark + 1 } := by
  obtain ⟨array, lockMark, _, _, _⟩ := drawId_same .lockMark s.store
  have kept := next_keeps ((drawId .lockMark s.store).2.enqueue s.store.nextIds.lockMark (.lockMark (lockMade mark s)) {})
  refine ⟨kept.lockMark.trans lockMark, kept.array.trans array, rfl, kept.queue.trans ?_,
    kept.nextIds.trans (drawId_nextIds .lockMark s.store)⟩
  exact congrArg (· ++ [_]) (drawId_queue .lockMark s.store)

end

/-! ### NOTE_LIST (R147) -/

section
variable {fromId : Word} {count : Byte} {s : State}

theorem noteList_bad (bad : ¬countValid count = true) : noteList fromId count s = refuse .badValue s :=
  if_pos (by rw [Bool.eq_false_of_not_eq_true bad]; rfl)

theorem noteList_down (good : countValid count = true) (down : storeUp s.store ≠ true) :
    noteList fromId count s = refuse .busy s :=
  (if_neg (by rw [good]; decide)).trans (if_pos (by rw [Bool.eq_false_of_not_eq_true down]; rfl))

theorem noteList_lists (good : countValid count = true) (up : storeUp s.store = true) : noteList fromId count s =
    answer .ok (.noteList s.store.lockMark
      (((listed s.store .note fromId.toNat).take count.toNat).map (noteLine s.store))
      (nextListed (listed s.store .note fromId.toNat) count.toNat)) s :=
  (if_neg (by rw [good]; decide)).trans (if_neg (by rw [up]; decide))

end

theorem noteLine_holds {st : Store} {e : Entry} {r : NoteRecord} (holds : contentOf st e = .note r) :
    (noteLine st e).site = r.site ∧ (noteLine st e).crew = r.crew ∧ (noteLine st e).time = r.time ∧
      (noteLine st e).textLength = r.text.length := by
  have content : noteContent st e = some r := by
    unfold noteContent
    rw [holds]
  unfold noteLine
  rw [content]
  exact ⟨rfl, rfl, rfl, rfl⟩

/-! ### The obligation -/

theorem attachKind?_other {kind : Byte} (one : kind ≠ 1) (two : kind ≠ 2) : attachKind? kind.toNat = none := by
  cases h : attachKind? kind.toNat with
  | none => rfl
  | some k =>
    rcases attachKind?_isSome.1 (by rw [h]; rfl) with n | n
    · exact absurd (BitVec.eq_of_toNat_eq n) one
    · exact absurd (BitVec.eq_of_toNat_eq n) two

/-- Settles O56. -/
theorem notesAreAttachedDeletedAndLocked : Obligations.NotesAreAttachedDeletedAndLocked := by
  unfold Obligations.NotesAreAttachedDeletedAndLocked
  intro tag kind count target id s h st n up goes absent calm same relink ends
  have ⟨_, free, _, _⟩ := h
  have upIff : storeUp s.store = true ↔ up := storeUp_iff s.store
  have down : ¬up → storeUp s.store ≠ true := mt upIff.1
  have high : s.supply.level ≠ .critical → ¬critical s = true := mt (critical_iff s).1
  have absentEq : ∀ k i, absentStatus st k i = absent k i := fun k i => absentStatus_eq discarding_iff
  refine ⟨?attach, ?delete, ?lock, ?list⟩
  case attach =>
    intro o
    let r : Request := .noteAttach id kind target
    let w := waiting 0x1F tag s
    have refused : ∀ status, noteAttach id kind target w = refuse status w → ends 0x9F o status := fun status hr =>
      request_refused tag r status s h fun u hu => by subst hu; exact hr
    refine ⟨fun one two => refused _ (noteAttach_unnamed (attachKind?_other one two)), fun k named_ => ?_⟩
    have named := attachKind?_named named_
    refine ⟨fun no => refused _ (noteAttach_down named (down no)),
      fun yes low => refused _ (noteAttach_supply named (upIff.2 yes) ((critical_iff s).2 low)),
      fun go none_ => ?_, fun e go found => ?_⟩
    · rw [← absentEq]
      exact refused _ (noteAttach_none (s := w) named (upIff.2 go.1) (high go.2) none_)
    have serves := noteAttach_some (target := target) (s := w) named (upIff.2 go.1) (high go.2) found
    intro busy linked
    have open_ : st.lockMark < n → ¬isLocked w.store n = true := fun o => mt isLocked_iff.1 (Nat.not_le.2 o)
    refine ⟨fun b => ?_, fun nb locked => ?_, fun nb o l => ?_, fun nb o nl p => ?_, fun nb o nl np => ?_⟩
    · exact refused _ (serves.trans (if_pos (by rwa [Bool.or_eq_true])))
    · exact refused _ (serves.trans ((if_neg (by rwa [Bool.or_eq_true])).trans (if_pos (isLocked_iff.2 locked))))
    · exact refused _ (serves.trans ((if_neg (by rwa [Bool.or_eq_true])).trans ((if_neg (open_ o)).trans
        (if_pos (by rwa [Bool.or_eq_true])))))
    · exact refused _ (serves.trans ((if_neg (by rwa [Bool.or_eq_true])).trans ((if_neg (open_ o)).trans
        ((if_neg (by rwa [Bool.or_eq_true])).trans (if_pos p)))))
    have attaches := serves.trans ((if_neg (by rwa [Bool.or_eq_true])).trans ((if_neg (open_ o)).trans
        ((if_neg (by rwa [Bool.or_eq_true])).trans (if_neg (by omega)))))
    constructor
    · intro none_
      rw [← absentEq]
      exact refused _ (attaches.trans (attachTo_none (a := ⟨k, target.toNat⟩) (s := w) none_))
    intro d note foundD holds site a r'
    have checks := attaches.trans (attachTo_some (a := a) (s := w) foundD holds)
    refine ⟨fun gone => refused _ (checks.trans (if_pos gone)), fun kept set differs =>
      refused _ (checks.trans ((if_neg (by rw [kept]; decide)).trans (if_pos ⟨set, differs⟩))), fun kept agrees => ?_⟩
    have fits : ¬(note.site.isSome = true ∧ note.site ≠ site) := fun ⟨set, differs⟩ =>
      agrees.elim (fun none_ => by rw [none_] at set; exact absurd set Bool.false_ne_true) differs
    have accepts := checks.trans ((if_neg (by rw [kept]; decide)).trans (if_neg fits))
    have live := fun l => accepts.trans (attach_live (n := n) (r := r') (a := a) (s := w) l)
    refine ⟨fun queued => ?_, fun l full => refused _ ((live l).trans (whenQueueOpen_full (s := w) full)),
      fun l o full => refused _ ((live l).trans (whenQueueOpen_busy (s := w) o full)), fun l o room => ?_⟩
    · obtain ⟨link, array, sites, survey, capture, print⟩ := noteAttached_rest (n := n) (a := a) (r := r') (s := w)
      exact ⟨_, request_served tag r h (accepts.trans (attach_queued queued)), ⟨array, sites, survey, capture, print⟩,
        answered_link (kind := 0x1F) _ _ link free, noteAttached_queue, noteAttached_dir⟩
    · obtain ⟨link, array, sites, survey, capture, print⟩ := noteReplaced_rest (n := n) (a := a) (r := r') (s := w)
      exact ⟨_, request_served tag r h ((live l).trans (whenQueueOpen_room (s := w) o room)),
        ⟨array, sites, survey, capture, print⟩, answered_link (kind := 0x1F) _ _ link free, noteReplaced_queue,
        fun c => noteReplaced_dir c⟩
  case delete =>
    intro c code named o
    obtain ⟨r, rfl, rfl, request, serves⟩ : ∃ r : Request, c = r.command tag ∧ code = replyKind (requestCode r) ∧
        code - 128 = requestCode r ∧ ∀ u, serve r u = noteDelete id u := by
      rcases named with ⟨rfl, rfl⟩ | ⟨rfl, rfl⟩
      · exact ⟨.noteDelete id, rfl, rfl, rfl, fun u => rfl⟩
      · exact ⟨.recordDelete 3 id, rfl, rfl, rfl, recordDelete_note id⟩
    rw [request]
    let w := waiting (requestCode r) tag s
    have refused : ∀ status, noteDelete id w = refuse status w → ends (replyKind (requestCode r)) o status :=
      fun status hr => request_refused tag r status s h fun u hu => by
        subst hu
        exact (serves _).trans hr
    have served : ∀ {t}, noteDelete id w = t → o = .next t := fun ht => request_served tag r h ((serves _).trans ht)
    refine ⟨fun no => refused _ (noteDelete_down (s := w) (down no)),
      fun yes low => refused _ (noteDelete_supply (s := w) (upIff.2 yes) ((critical_iff s).2 low)),
      fun go none_ => ?_, fun e go found => ?_⟩
    · rw [← absentEq]
      exact refused _ (noteDelete_none (s := w) (upIff.2 go.1) (high go.2) none_)
    have deletes := noteDelete_some (s := w) (upIff.2 go.1) (high go.2) found
    have moves : Moves (only [.store, .survey, .harm, .free]) w (noteDelete id w) :=
      noteDelete_moves _ _ (by decide) (by decide) (by decide) (by decide)
    intro busy unlinked
    have unlinkedEq : unlinkedDir e st.dir = unlinked := rfl
    let v := setStore (Store.unlinked e) w
    have passes := fun o nb np tail => deletes.trans (deleteNote_passes (s := w) (n := n) (e := e) o nb np tail)
    have queued := fun o nb np tail eq => (passes o nb np tail).trans (if_pos eq)
    have kills : ∀ _ _ _ _, e.state = .live → _ := fun o nb np tail eq =>
      (passes o nb np tail).trans (if_neg (by rw [eq]; decide))
    refine ⟨fun locked => refused _ (deletes.trans (deleteNote_locked (s := w) locked)),
      fun o b => refused _ (deletes.trans (deleteNote_busy (s := w) o b)),
      fun o nb p => refused _ (deletes.trans (deleteNote_pinned (s := w) o nb p)),
      fun o nb np am => refused _ (deletes.trans (deleteNote_amended (s := w) o nb np am)),
      fun o nb np tail which => ?handed, fun o nb np tail place waits => ⟨fun eq => ?quiet, fun loc eq at_ => ?killed⟩⟩
    case handed =>
      have alike : HandsAlike s v := ⟨rfl, rfl, rfl, rfl, rfl, rfl⟩
      rcases which with eq | ⟨eq, replaced⟩
      · rw [queued o nb np tail eq] at moves
        have sites := moves.sites_eq (by decide)
        exact ⟨_, served (queued o nb np tail eq), removeQueued_array (s := v), sites,
          (removeQueued_handsOver (s := v) (upIff.2 go.1)).of_alike alike rfl rfl rfl rfl⟩
      · rw [kills o nb np tail eq] at moves
        have sites := moves.sites_eq (by decide)
        obtain ⟨handed, array⟩ := dropReplacement_handsOver (s := v) (n := n) (upIff.2 go.1)
          ((replacementQueued_eq v.store).trans replaced)
        obtain ⟨queueK, dropsK, arrayK, surveyK, harmK⟩ := killLive_keeps (n := n) (e := e) .note (dropReplacement n v)
        exact ⟨_, served (kills o nb np tail eq), arrayK.trans array, sites,
          handed.of_alike alike queueK dropsK (congrArg Survey.place surveyK) harmK⟩
    case quiet =>
      obtain ⟨array, sites, survey, capture, print, link⟩ := noteTaken_rest (n := n) (e := e) (s := w)
      exact ⟨_, served ((queued o nb np tail eq).trans (congrArg (answer .ok .empty) (removeQueued_taken place waits))),
        ⟨array, sites, survey, capture, print⟩, answered_link (kind := requestCode r) _ _ link free, noteTaken_queue,
        fun c => noteTaken_dir c⟩
    case killed =>
      obtain ⟨array, sites, survey, capture, print, link⟩ := noteKilled_rest (n := n) (e := e) (loc := loc) (s := w)
      exact ⟨_, served ((kills o nb np tail eq).trans (killLive_killed place waits at_)),
        ⟨array, sites, survey, capture, print⟩, link, noteKilled_queue, noteKilled_owed, noteKilled_dir⟩
  case lock =>
    intro o last mark status
    let r : Request := .noteLock id
    let w := waiting 0x21 tag s
    have refused : ∀ status, noteLock id w = refuse status w → ends 0xA1 o status := fun status hr =>
      request_refused tag r status s h fun u hu => by subst hu; exact hr
    have opens := fun (go : goes) high_ => noteLock_opens (upto := id) (s := w) (upIff.2 go.1) (high go.2) high_
    refine ⟨fun no => refused _ (noteLock_down (s := w) (down no)),
      fun yes low => refused _ (noteLock_supply (s := w) (upIff.2 yes) ((critical_iff s).2 low)),
      fun go low => refused _ (noteLock_low (s := w) (upIff.2 go.1) (high go.2) low),
      fun go above full => refused _ ((opens go above).trans (whenQueueOpen_full (s := w) full)),
      fun go above o full => refused _ ((opens go above).trans (whenQueueOpen_busy (s := w) o full)),
      fun go above o room same_ => ?_, fun go above o room moves => ?_⟩
    · exact request_answered tag r _ _ s s h free ((opens go above).trans
        ((whenQueueOpen_room (s := w) o room).trans (lockNotes_same (s := w) same_)))
    · intro record
      obtain ⟨lockMark, array, link, queue, nextIds⟩ := queueLock_queues mark (decide (last < n)) w
      exact ⟨_, request_served tag r h ((opens go above).trans
        ((whenQueueOpen_room (s := w) o room).trans (lockNotes_queues (s := w) moves))), ⟨array, rfl, rfl, rfl, rfl⟩, lockMark,
        link, queue, nextIds⟩
  case list =>
    intro o counted matches_
    let r : Request := .noteList id count
    let w := waiting 0x22 tag s
    have refused : ∀ status, noteList id count w = refuse status w → ends 0xA2 o status := fun status hr =>
      request_refused tag r status s h fun u hu => by subst hu; exact hr
    refine ⟨fun bad => refused _ (noteList_bad (mt countValid_iff.1 bad)),
      fun good no => refused _ (noteList_down (countValid_iff.2 good) (down no)), fun good yes => ?_⟩
    obtain ⟨perm, ordered⟩ := listed_spec st .note n
    refine ⟨_, _, request_answered tag r .ok _ s s h free (noteList_lists (s := w) (countValid_iff.2 good) (upIff.2 yes)),
      listed st .note n, perm, ordered, nextListed_eq _ _, ?_, fun i e line at_ lineAt => ?_⟩
    · exact (List.length_map _).trans List.length_take
    · have lineEq : line = noteLine st e := by
        rw [List.getElem?_map] at lineAt
        obtain ⟨x, hx, rfl⟩ := Option.map_eq_some_iff.1 lineAt
        rw [List.getElem?_take] at hx
        split at hx
        · exact congrArg (noteLine st) (Option.some.inj (hx.symm.trans at_))
        · exact absurd hx (by simp)
      subst lineEq
      exact ⟨rfl, rfl, rfl, rfl, rfl, rfl, rfl, rfl, rfl, isLocked_iff, rfl, fun r holds => noteLine_holds holds⟩

end Sys2Proof.Machine
end

