-- ==== Sys2Proof/Proofs/PrintPins.lean ====
section
/-!
PROOFS. What a section of a print job pins: the records it names, the chain of a note, and a capture slot (R148,
R154).
-/

namespace Sys2Proof.Machine

/-! ### The chain of a note (R148) -/

/-- The ids of a chain, root first, each note amended by the one after it, as seen from its place `i`: the notes
before it by their amends, those after it by their amended-by. -/
structure IsChain (st : Store) (chain : List Nat) (i : Nat) : Prop where
  entry : ∀ k a b, chain[k]? = some a → chain[k + 1]? = some b → (findEntry st .note a).isSome = true
  back : ∀ k a b, chain[k]? = some a → chain[k + 1]? = some b → k < i →
    (findEntry st .note b).bind (·.links.amends) = some a
  ahead : ∀ k a b, chain[k]? = some a → chain[k + 1]? = some b → i ≤ k →
    (findEntry st .note a).bind (·.links.amendedBy) = some b
  root : ∀ root a, chain.head? = some root → (findEntry st .note root).bind (·.links.amends) = some a →
    findEntry st .note a = none
  tail : ∀ tail, chain.getLast? = some tail → (findEntry st .note tail).bind (·.links.amendedBy) = none

section
variable {st : Store} {chain : List Nat} {i : Nat} (c : IsChain st chain i)
include c

/-- Back from a note at or before the place: the ids up to it. -/
theorem IsChain.backward (fuel : Nat) : ∀ k a, k ≤ i → k ≤ fuel → chain[k]? = some a →
    backward st fuel a = chain.take (k + 1) := by
  induction fuel with
  | zero =>
    intro k a _ low at_
    obtain rfl : k = 0 := Nat.le_zero.1 low
    rw [List.take_one, List.head?_eq_getElem?, at_]
    rfl
  | succ fuel ih =>
    intro k a place low at_
    rw [Machine.backward]
    cases k with
    | zero =>
      have first : chain.head? = some a := by rw [List.head?_eq_getElem?, at_]
      have alone : ((noteEntry st a).bind (·.links.amends)).filter (fun x => (noteEntry st x).isSome) = none := by
        rw [Option.filter_eq_none_iff]
        intro x hx
        rw [noteEntry, c.root a x first hx]
        decide
      rw [alone, List.take_one, first]
      rfl
    | succ k =>
      obtain ⟨b, before⟩ : ∃ b, chain[k]? = some b := by
        have inside := (List.getElem?_eq_some_iff.1 at_).1
        exact ⟨_, List.getElem?_eq_getElem (by omega)⟩
      have linked : ((noteEntry st a).bind (·.links.amends)).filter (fun x => (noteEntry st x).isSome) = some b := by
        rw [noteEntry, c.back k b a before at_ (by omega), Option.filter_some]
        exact if_pos (c.entry k b a before at_)
      rw [linked]
      dsimp only
      rw [ih k b (by omega) (by omega) before, List.take_add_one (i := k + 1), at_]
      rfl

/-- On from a note at or after the place: the ids after it. -/
theorem IsChain.forward (fuel : Nat) : ∀ k a, i ≤ k → chain.length ≤ fuel + k + 1 → chain[k]? = some a →
    forward st fuel a = chain.drop (k + 1) := by
  induction fuel with
  | zero =>
    intro k a _ long _
    exact (List.drop_eq_nil_of_le (by omega)).symm
  | succ fuel ih =>
    intro k a place long at_
    rw [Machine.forward]
    cases next : chain[k + 1]? with
    | none =>
      have past := List.getElem?_eq_none_iff.1 next
      have inside := (List.getElem?_eq_some_iff.1 at_).1
      have last : chain.getLast? = some a := by
        rw [List.getLast?_eq_getElem?, show chain.length - 1 = k by omega, at_]
      rw [noteEntry, c.tail a last, List.drop_eq_nil_of_le past]
    | some b =>
      rw [noteEntry, c.ahead k a b at_ next place]
      dsimp only
      obtain ⟨inside, rfl⟩ := List.getElem?_eq_some_iff.1 next
      rw [ih (k + 1) _ (by omega) (by omega) next]
      exact List.getElem_cons_drop inside

theorem chainOf_eq {id : Nat} (at_ : chain[i]? = some id) (short : chain.length ≤ st.dir.length + 1) :
    chainOf st id = chain := by
  have inside := (List.getElem?_eq_some_iff.1 at_).1
  rw [chainOf, c.backward _ i id (le_refl _) (by omega) at_, c.forward _ i id (le_refl _) (by omega) at_,
    List.take_append_drop]

end

/-! ### The records of a section (R154) -/

theorem recordsPinned_named {st : Store} {x : Section} (h : ∀ id, x ≠ .note id true) :
    recordsPinned st x = (namedRecord x).toList := by
  cases x with
  | note id chain =>
    cases chain with
    | true => exact absurd rfl (h id)
    | false => rfl
  | _ => rfl

/-! ### The capture slot of a section (R154) -/

theorem capturePinned_other {s : State} {x : Section} (h : ∀ id, x ≠ .eventDetail id true) :
    capturePinned s x = none := by
  cases x with
  | eventDetail id waveform =>
    cases waveform with
    | true => exact absurd rfl (h id)
    | false => rfl
  | _ => rfl

theorem eventOf_some {st : Store} {e : Entry} {r : EventRecord} : eventOf st e = some r ↔ contentOf st e = .event r := by
  unfold eventOf
  cases contentOf st e with
  | event x => simp
  | _ => simp

theorem captureValid_iff {s : State} {c : CapturePin} : captureValid s c = true ↔
    c.slot < 12 ∧ (captureSlot s c.slot).state ≠ .free ∧ (captureSlot s c.slot).serial = c.serial ∧
      (captureSlot s c.slot).event = some c.event := by
  simp [captureValid, and_assoc]

theorem capturePinned_some {s : State} {id : Word} {c : CapturePin} :
    capturePinned s (.eventDetail id true) = some c ↔
      c.event = id.toNat ∧ c.slot < 12 ∧ (captureSlot s c.slot).state ≠ .free ∧
        (captureSlot s c.slot).serial = c.serial ∧ (captureSlot s c.slot).event = some id.toNat ∧
        ∃ e r, findEntry s.store .event id.toNat = some e ∧ contentOf s.store e = .event r ∧
          r.capture = some (c.slot, c.serial) := by
  have found : ∀ p : Nat × Nat,
      (((findEntry s.store .event id.toNat).bind (eventOf s.store)).bind (·.capture) = some p ↔
        ∃ e r, findEntry s.store .event id.toNat = some e ∧ contentOf s.store e = .event r ∧ r.capture = some p) := fun p => by
    simp only [Option.bind_eq_some_iff, ← eventOf_some]
    exact ⟨fun ⟨r, ⟨e, he, hr⟩, hp⟩ => ⟨e, r, he, hr, hp⟩, fun ⟨e, r, he, hr, hp⟩ => ⟨r, ⟨e, he, hr⟩, hp⟩⟩
  unfold capturePinned
  rw [Option.bind_eq_some_iff]
  constructor
  · rintro ⟨p, named, picked⟩
    dsimp only at picked
    split at picked
    · next valid =>
      obtain rfl := Option.some.inj picked
      obtain ⟨low, used, serial, event⟩ := captureValid_iff.1 valid
      exact ⟨rfl, low, used, serial, event, (found p).1 named⟩
    · exact absurd picked (by simp)
  · rintro ⟨event, low, used, serial, names, record⟩
    obtain ⟨slot, serial_, event_⟩ := c
    obtain rfl : event_ = id.toNat := event
    exact ⟨(slot, serial_), (found _).2 record, if_pos (captureValid_iff.2 ⟨low, used, serial, names⟩)⟩

/-! ### The pins taken (R154) -/

/-- From `s` to `t` the records `ps` have been pinned once each, and no more of the store has moved. -/
def Pinned (ps : List (RecordKind × Nat)) (s t : State) : Prop :=
  (∀ kind id, findEntry t.store kind id =
    (findEntry s.store kind id).map fun e => { e with pins := e.pins + ps.count (kind, id) }) ∧
  t.store.array = s.store.array ∧ t.store.queue = s.store.queue

theorem Pinned.refl (s : State) : Pinned [] s s := by
  refine ⟨fun kind id => ?_, rfl, rfl⟩
  cases findEntry s.store kind id <;> rfl

theorem Pinned.of_store {ps : List (RecordKind × Nat)} {s t u : State} (h : Pinned ps s t) (same : u.store = t.store) :
    Pinned ps s u := by
  unfold Pinned at *
  rwa [same]

theorem Pinned.trans {ps qs : List (RecordKind × Nat)} {s t u : State} (h : Pinned ps s t) (k : Pinned qs t u) :
    Pinned (ps ++ qs) s u := by
  refine ⟨fun kind id => ?_, k.2.1.trans h.2.1, k.2.2.trans h.2.2⟩
  rw [k.1, h.1, Option.map_map]
  refine congrArg (fun f => Option.map f (findEntry s.store kind id)) (funext fun e => ?_)
  simp [List.count_append, Nat.add_assoc]

theorem pinRecord_pinned (s : State) (p : RecordKind × Nat) : Pinned [p] s (pinRecord p s) := by
  refine ⟨fun kind id => ?_, rfl, rfl⟩
  refine (findEntry_modifyEntry (fun e => { e with pins := e.pins + 1 }) (fun _ => ⟨rfl, rfl, rfl⟩) p.1 p.2 s.store
    kind id).trans ?_
  refine congrArg (fun f => Option.map f (findEntry s.store kind id)) (funext fun e => ?_)
  rw [List.count_singleton]
  by_cases same : p.1 = kind ∧ p.2 = id
  · obtain ⟨rfl, rfl⟩ := same
    simp
  · have differs : p ≠ (kind, id) := fun h => same ⟨congrArg Prod.fst h, congrArg Prod.snd h⟩
    simp [same, differs]

theorem pinRecords_pinned (ps : List (RecordKind × Nat)) : ∀ s : State,
    Pinned ps s (ps.foldl (fun s p => pinRecord p s) s) := by
  induction ps with
  | nil => exact .refl
  | cons p ps ih => exact fun s => (pinRecord_pinned s p).trans (ih (pinRecord p s))

theorem takeSection_pinned (s : State) (x : JobSection) : Pinned x.pins s (takeSection s x) := by
  refine (pinRecords_pinned x.pins s).of_store ?_
  unfold takeSection
  dsimp only
  split <;> rfl

theorem takeSections_pinned (xs : List JobSection) : ∀ s : State,
    Pinned (xs.flatMap (·.pins)) s (xs.foldl takeSection s) := by
  induction xs with
  | nil => exact .refl
  | cons x xs ih => exact fun s => (takeSection_pinned s x).trans (ih (takeSection s x))

/-- The pins on a capture slot that sections take. -/
def slotPins (xs : List JobSection) (i : Nat) : Nat := xs.countP fun x => x.capturePin.any fun c => c.slot = i

theorem takeSection_capture (s : State) (x : JobSection) {i : Nat} (inside : i < s.capture.slots.length) :
    captureSlot (takeSection s x) i =
      { captureSlot s i with pins := (captureSlot s i).pins + slotPins [x] i } ∧
    (takeSection s x).capture.slots.length = s.capture.slots.length := by
  have pinned : (x.pins.foldl (fun s p => pinRecord p s) s).capture = s.capture := by
    generalize x.pins = ps
    induction ps generalizing s with
    | nil => rfl
    | cons p ps ih => exact ih (pinRecord p s) inside
  unfold takeSection
  dsimp only
  cases h : x.capturePin with
  | none =>
    refine ⟨?_, congrArg (·.slots.length) pinned⟩
    have none_ : slotPins [x] i = 0 := by simp [slotPins, h]
    rw [none_]
    exact congrArg (fun c : Capture => c.slots.getD i {}) pinned
  | some c =>
    generalize x.pins.foldl (fun s p => pinRecord p s) s = u at *
    have insideU : i < u.capture.slots.length := by rw [pinned]; exact inside
    have sameU : captureSlot u i = captureSlot s i := congrArg (fun c : Capture => c.slots.getD i {}) pinned
    refine ⟨?_, (updateAt_length _ _ _).trans (congrArg (·.slots.length) pinned)⟩
    unfold pinCapture
    by_cases same : c.slot = i
    · subst same
      have one : slotPins [x] c.slot = 1 := by simp [slotPins, h]
      rw [captureSlot_modifyCapture _ _ _ insideU, sameU, one]
    · have none_ : slotPins [x] i = 0 := by simp [slotPins, h, same]
      refine (captureSlot_modifyCapture_other _ _ _ _ (fun e => same e.symm)).trans (sameU.trans ?_)
      exact congrArg (fun n => { captureSlot s i with pins := (captureSlot s i).pins + n }) none_.symm

theorem takeSections_capture (xs : List JobSection) : ∀ (s : State) {i : Nat}, i < s.capture.slots.length →
    captureSlot (xs.foldl takeSection s) i =
      { captureSlot s i with pins := (captureSlot s i).pins + slotPins xs i } := by
  induction xs with
  | nil => exact fun s i _ => rfl
  | cons x xs ih =>
    intro s i inside
    obtain ⟨slot, length⟩ := takeSection_capture s x inside
    refine (ih (takeSection s x) (by rw [length]; exact inside)).trans ?_
    rw [slot]
    have split_ : slotPins (x :: xs) i = slotPins [x] i + slotPins xs i :=
      List.countP_append (l₁ := [x]) (l₂ := xs)
    rw [split_, ← Nat.add_assoc]

end Sys2Proof.Machine
end

