-- ==== Sys2Proof/Proofs/PrintSubmits.lean ====
section
/-!
PROOFS. PRINT_SUBMIT: its checks in their order, and what an accepted job leaves (R153, R154).
-/

namespace Sys2Proof.Machine

/-! ### The checks of a section -/

/-- The parameters of a section are within their ranges (R153). -/
def SectionInRange (x : Section) : Prop :=
  match x with
  | .text cs => cs.length ≤ 96 ∧ ∀ c ∈ cs, 0x20 ≤ c.toNat ∧ c.toNat ≤ 0x7E
  | .feed n => 8 ≤ n.toNat ∧ n.toNat ≤ 400
  | .eventList a b site => a.toNat ≤ b.toNat ∧ b.toNat - a.toNat ≤ 255 ∧ (site = 0xFF ∨ site.toNat ≤ 3)
  | .intervalTable _ orders => 1 ≤ orders.length ∧ orders.length ≤ 8 ∧ ∀ h ∈ orders, 1 ≤ h.toNat ∧ h.toNat ≤ 50
  | .unknown .. => False
  | _ => True

theorem sectionValid_iff (x : Section) : sectionValid x = true ↔ SectionInRange x := by
  cases x with
  | text cs => simp [sectionValid, SectionInRange, printable]
  | feed n => simp [sectionValid, SectionInRange]
  | eventList a b site => simp [sectionValid, SectionInRange, and_assoc]
  | eventDetail id waveform => simp [sectionValid, SectionInRange]
  | intervalTable id orders => simp [sectionValid, SectionInRange, and_assoc]
  | note id chain => simp [sectionValid, SectionInRange]
  | surveySummary => simp [sectionValid, SectionInRange]
  | unknown => simp [sectionValid, SectionInRange]

theorem needsStore_iff (x : Section) : needsStore x = true ↔ (∀ cs, x ≠ .text cs) ∧ ∀ lines, x ≠ .feed lines := by
  cases x with
  | text cs => simp [needsStore]
  | feed n => simp [needsStore]
  | _ => simp [needsStore]

/-- The record of a section is not there, and no reclaim has discarded it. -/
theorem recordMissing_iff {st : Store} {x : Section} : recordMissing st x = true ↔
    ∃ kind id, namedRecord x = some (kind, id) ∧ findEntry st kind id = none ∧ ¬discarding st kind id = true := by
  unfold recordMissing
  cases namedRecord x with
  | none => simp
  | some p =>
    obtain ⟨k, i⟩ := p
    simp [Option.any]

theorem recordReclaimed_iff {st : Store} {x : Section} : recordReclaimed st x = true ↔
    ∃ r ∈ recordsPinned st x, (∃ e, findEntry st r.1 r.2 = some e ∧ e.reclaim = true) ∨
      findEntry st r.1 r.2 = none ∧ discarding st r.1 r.2 = true := by
  unfold recordReclaimed
  rw [List.any_eq_true]
  refine exists_congr fun r => and_congr_right fun _ => ?_
  cases findEntry st r.1 r.2 with
  | none => simp
  | some e => simp

/-- The first section at which a check fails. -/
def FirstAt (bad : Section → Prop) (xs : List Section) (n : Nat) : Prop :=
  1 ≤ n ∧ (∃ x, xs[n - 1]? = some x ∧ bad x) ∧ ∀ k x, k + 1 < n → xs[k]? = some x → ¬bad x

theorem firstFault_of {bad : Section → Bool} {p : Section → Prop} (same : ∀ x, bad x = true ↔ p x) {xs : List Section}
    {n : Nat} (h : FirstAt p xs n) : firstFault bad xs = some n := by
  obtain ⟨one, ⟨x, at_, fails⟩, before⟩ := h
  obtain ⟨k, rfl⟩ : ∃ k, n = k + 1 := ⟨n - 1, by omega⟩
  obtain ⟨inside, here⟩ := List.getElem?_eq_some_iff.1 at_
  have found : xs.findIdx? bad = some k := by
    rw [List.findIdx?_eq_some_iff_getElem]
    refine ⟨inside, (same _).2 (here ▸ fails), fun j low => ?_⟩
    rw [same]
    exact before j _ (by omega) (List.getElem?_eq_getElem (by omega))
  rw [firstFault, found]
  rfl

theorem firstFault_none {bad : Section → Bool} {p : Section → Prop} (same : ∀ x, bad x = true ↔ p x) {xs : List Section}
    (h : ∀ x ∈ xs, ¬p x) : firstFault bad xs = none := by
  rw [firstFault, List.findIdx?_eq_none_iff.2 fun x mem => Bool.eq_false_of_not_eq_true (mt (same x).1 (h x mem))]
  rfl

/-! ### The checks of a submission, in order (R154) -/

section
variable {copies : Byte} {xs : List Section} {s : State}

theorem submitFault_uncounted
    (h : ¬(1 ≤ copies.toNat ∧ copies.toNat ≤ 3 ∧ 1 ≤ xs.length ∧ xs.length ≤ 16)) :
    submitFault copies xs s = some (.badValue, .sectionIndex 0) := if_pos (by omega)

section
variable (counted : 1 ≤ copies.toNat ∧ copies.toNat ≤ 3 ∧ 1 ≤ xs.length ∧ xs.length ≤ 16)
include counted

theorem submitFault_invalid {n : Nat} (first : FirstAt (fun x => ¬SectionInRange x) xs n) :
    submitFault copies xs s = some (.badValue, .sectionIndex n) := by
  refine (if_neg (by omega)).trans ?_
  rw [firstFault_of (fun x => by rw [Bool.not_eq_true', ← Bool.not_eq_true, sectionValid_iff]) first]

/-- From check 2b on. -/
theorem submitFault_valid (valid : ∀ x ∈ xs, SectionInRange x) : submitFault copies xs s =
    if !storeUp s.store && xs.any needsStore then some (.busy, .sectionIndex 0)
    else if 8 ≤ s.print.ring.length then some (.queueFull, .empty)
    else
      match firstFault (recordMissing s.store) xs with
      | some n => some (.notFound, .sectionIndex n)
      | none => (firstFault (recordReclaimed s.store) xs).map fun n => (.busy, .sectionIndex n) := by
  refine (if_neg (by omega)).trans ?_
  rw [firstFault_none (fun x => by rw [Bool.not_eq_true', ← Bool.not_eq_true, sectionValid_iff])
    fun x mem => not_not.2 (valid x mem)]
  rfl

variable (valid : ∀ x ∈ xs, SectionInRange x)
include valid

theorem submitFault_down (down : storeUp s.store ≠ true) (stored : ∃ x ∈ xs, needsStore x = true) :
    submitFault copies xs s = some (.busy, .sectionIndex 0) := by
  refine (submitFault_valid counted valid).trans (if_pos ?_)
  rw [Bool.eq_false_of_not_eq_true down, List.any_eq_true.2 stored]
  rfl

variable (fit : storeUp s.store = true ∨ ¬∃ x ∈ xs, needsStore x = true)
include fit

/-- From check 3 on. -/
theorem submitFault_fit : submitFault copies xs s =
    if 8 ≤ s.print.ring.length then some (.queueFull, .empty)
    else
      match firstFault (recordMissing s.store) xs with
      | some n => some (.notFound, .sectionIndex n)
      | none => (firstFault (recordReclaimed s.store) xs).map fun n => (.busy, .sectionIndex n) := by
  refine (submitFault_valid counted valid).trans (if_neg ?_)
  rw [Bool.and_eq_true, List.any_eq_true]
  rintro ⟨down, stored⟩
  exact fit.elim (fun up => by rw [up] at down; exact absurd down Bool.false_ne_true) fun none_ => none_ stored

theorem submitFault_full (full : 8 ≤ s.print.ring.length) : submitFault copies xs s = some (.queueFull, .empty) :=
  (submitFault_fit counted valid fit).trans (if_pos full)

variable (room : s.print.ring.length < 8)
include room

theorem submitFault_missing {p : Section → Prop} (same : ∀ x, recordMissing s.store x = true ↔ p x) {n : Nat}
    (first : FirstAt p xs n) : submitFault copies xs s = some (.notFound, .sectionIndex n) := by
  refine (submitFault_fit counted valid fit).trans ((if_neg (by omega)).trans ?_)
  rw [firstFault_of same first]

variable {p : Section → Prop} (sameP : ∀ x, recordMissing s.store x = true ↔ p x) (named : ∀ x ∈ xs, ¬p x)
include sameP named

theorem submitFault_named : submitFault copies xs s =
    (firstFault (recordReclaimed s.store) xs).map fun n => (.busy, .sectionIndex n) := by
  refine (submitFault_fit counted valid fit).trans ((if_neg (by omega)).trans ?_)
  rw [firstFault_none sameP named]

variable {q : Section → Prop} (sameQ : ∀ x, recordReclaimed s.store x = true ↔ q x)
include sameQ

theorem submitFault_reclaimed {n : Nat} (first : FirstAt q xs n) :
    submitFault copies xs s = some (.busy, .sectionIndex n) := by
  rw [submitFault_named counted valid fit room sameP named, firstFault_of sameQ first]
  rfl

theorem submitFault_none (free : ∀ x ∈ xs, ¬q x) : submitFault copies xs s = none := by
  rw [submitFault_named counted valid fit room sameP named, firstFault_none sameQ free]
  rfl

end

theorem printSubmit_refused {f : Status × ReplyBody} (h : submitFault copies xs s = some f) :
    printSubmit copies xs s = answer f.1 f.2 s := by
  unfold printSubmit
  rw [h]

theorem printSubmit_accepted (h : submitFault copies xs s = none) :
    printSubmit copies xs s = printStep (acceptJob copies.toNat xs) s := by
  unfold printSubmit
  rw [h]

end

/-! ### The engine's steps -/

/-- The oldest job of a ring begins where the done queue has room (R155). -/
def Print.started (p : Print) : Print :=
  match p.ring with
  | j :: rest =>
    if j.phase.isNone && p.done.length < Config.donePlaces then { p with ring := { j with phase := some .running } :: rest }
    else p
  | [] => p

/-- The oldest job begins now. -/
def jobBegins (j : Job) (p : Print) : Bool := j.phase.isNone && p.done.length < Config.donePlaces

/-- The engine with its oldest job running. -/
def Print.running (j : Job) (rest : List Job) (p : Print) : Print :=
  { p with ring := { j with phase := some .running } :: rest }

theorem started_nil {p : Print} (h : p.ring = []) : p.started = p := by
  unfold Print.started
  rw [h]

theorem started_cons {p : Print} {j : Job} {rest : List Job} (h : p.ring = j :: rest) :
    p.started = if jobBegins j p then p.running j rest else p := by
  unfold Print.started
  rw [h]
  rfl

theorem startNext_nil {s : State} (h : s.print.ring = []) : startNext s = s := by
  unfold startNext
  rw [h]

theorem startNext_cons {s : State} {j : Job} {rest : List Job} (h : s.print.ring = j :: rest) :
    startNext s = if jobBegins j s.print then
      postPrint (some j.id) (some (some .running)) (setPrint (Print.running j rest) s) else s := by
  unfold startNext
  rw [h]
  rfl

theorem startNext_print (s : State) : (startNext s).print = s.print.started := by
  cases h : s.print.ring with
  | nil => rw [startNext_nil h, started_nil h]
  | cons j rest =>
    rw [startNext_cons h, started_cons h]
    split
    · exact post_print _ _
    · rfl

theorem startNext_replyKept (s : State) : ReplyKept s (startNext s) := by
  cases h : s.print.ring with
  | nil => rw [startNext_nil h]; exact .of_link rfl
  | cons j rest =>
    rw [startNext_cons h]
    split
    · exact (ReplyKept.of_link (t := setPrint (Print.running j rest) s) rfl).trans (.of_post _ _)
    · exact .of_link rfl

theorem printStep_print (f : State → State) (s : State) : (printStep f s).print = (f s).print := by
  unfold printStep
  exact postWhen_print _ _ _

theorem printStep_store (f : State → State) (s : State) :
    (printStep f s).store = (f s).store ∧ (printStep f s).capture = (f s).capture := by
  unfold printStep
  exact ⟨postWhen_store _ _ _, postWhen_capture _ _ _⟩

theorem printStep_replyKept {f : State → State} {s u : State} (h : ReplyKept u (f s)) : ReplyKept u (printStep f s) := by
  unfold printStep
  exact h.trans (.of_postWhen _ _ _)

theorem printStep_idle {f : State → State} {s : State} (h : (f s).link.current = none) :
    (printStep f s).link.current = none := by
  unfold printStep
  exact (postWhen_moves (P := anyPart) _ _ _).link_kept.idle h

/-- A started ring keeps what `bare` tells of its jobs. -/
theorem started_map {α : Type} (f : Job → α) (keeps : ∀ j phase, f { j with phase := phase } = f j) (p : Print) :
    p.started.ring.map f = p.ring.map f := by
  cases h : p.ring with
  | nil => rw [started_nil h, h]
  | cons j rest =>
    rw [started_cons h]
    split
    · exact congrArg (· :: rest.map f) (keeps j _)
    · rw [h]

/-- What a start leaves of the engine. -/
theorem started_rest (p : Print) : p.started = { p with ring := p.started.ring } := by
  cases h : p.ring with
  | nil => rw [started_nil h]
  | cons j rest =>
    rw [started_cons h]
    split <;> rfl

theorem started_active {p : Print} {j : Job} {rest : List Job} (h : p.ring = j :: rest) (active : j.phase.isSome = true) :
    p.started = p := by
  rw [started_cons h]
  refine if_neg ?_
  unfold jobBegins
  cases phase : j.phase with
  | none => rw [phase] at active; exact absurd active Bool.false_ne_true
  | some x => simp

/-! ### An accepted job (R154) -/

section
variable (copies : Nat) (xs : List Section) (s : State)

/-- The sections of a job with their pins. -/
def jobSections : List JobSection := xs.map fun x => ⟨x, recordsPinned s.store x, capturePinned s x⟩

/-- The state with the job in the ring. -/
@[irreducible] def jobQueued : State :=
  setPrint
    (fun p =>
      { p with
        ring := p.ring ++ [{ id := s.print.nextJob, copies := copies, sections := jobSections xs s }]
        nextJob := nextJobId s.print.nextJob, submits := wrap32 p.submits })
    ((jobSections xs s).foldl takeSection s)

theorem takeSections_moves (xs : List JobSection) (s : State) :
    Moves (only [.store, .capture]) s (xs.foldl takeSection s) :=
  .foldl takeSection (fun s x => takeSection_moves s x (by decide) (by decide)) _ s

theorem takeSections_print (xs : List JobSection) (s : State) : (xs.foldl takeSection s).print = s.print :=
  (takeSections_moves xs s).print_eq (by decide)

theorem takeSection_link (s : State) (x : JobSection) : (takeSection s x).link = s.link := by
  have pinned : (x.pins.foldl (fun s p => pinRecord p s) s).link = s.link := by
    generalize x.pins = ps
    induction ps generalizing s with
    | nil => rfl
    | cons p ps ih => exact ih (pinRecord p s)
  unfold takeSection
  dsimp only
  split
  · exact pinned
  · exact pinned

theorem takeSections_link (xs : List JobSection) : ∀ s : State, (xs.foldl takeSection s).link = s.link := by
  induction xs with
  | nil => exact fun _ => rfl
  | cons x xs ih => exact fun s => (ih _).trans (takeSection_link s x)

theorem acceptJob_eq : acceptJob copies xs s =
    startNext (answer .accepted (.jobId s.print.nextJob)
      (postPrint (some s.print.nextJob) (some none) (jobQueued copies xs s))) := by
  have next : ((jobSections xs s).foldl takeSection s).print.nextJob = s.print.nextJob :=
    congrArg Print.nextJob (takeSections_print _ s)
  unfold acceptJob jobQueued
  unfold jobSections at next ⊢
  dsimp only
  rw [next]

theorem jobQueued_print : (jobQueued copies xs s).print =
    { s.print with
      ring := s.print.ring ++ [{ id := s.print.nextJob, copies := copies, sections := jobSections xs s }]
      nextJob := nextJobId s.print.nextJob, submits := wrap32 s.print.submits } := by
  unfold jobQueued setPrint
  rw [takeSections_print]

theorem jobQueued_pinned :
    Pinned (xs.flatMap (recordsPinned s.store)) s (jobQueued copies xs s) := by
  have taken := takeSections_pinned (jobSections xs s) s
  have pins : (jobSections xs s).flatMap (·.pins) = xs.flatMap (recordsPinned s.store) := List.flatMap_map _ _ _
  rw [pins] at taken
  unfold jobQueued
  exact taken.of_store rfl

theorem jobQueued_capture {i : Nat} (inside : i < s.capture.slots.length) : captureSlot (jobQueued copies xs s) i =
    { captureSlot s i with
      pins := (captureSlot s i).pins + xs.countP fun x => (capturePinned s x).any fun c => c.slot = i } := by
  have taken := takeSections_capture (jobSections xs s) s inside
  have pins : slotPins (jobSections xs s) i = xs.countP fun x => (capturePinned s x).any fun c => c.slot = i :=
    List.countP_map
  rw [pins] at taken
  unfold jobQueued
  exact taken

theorem jobQueued_link : (jobQueued copies xs s).link = s.link := by
  unfold jobQueued
  exact takeSections_link _ s

/-- The engine, the store and the slots after an accepted submission. -/
theorem accepted_blocks : let t := printStep (acceptJob copies xs) s
    t.print = (jobQueued copies xs s).print.started ∧ t.store = (jobQueued copies xs s).store ∧
      t.capture = (jobQueued copies xs s).capture := by
  obtain ⟨store, capture⟩ := printStep_store (acceptJob copies xs) s
  have print := printStep_print (acceptJob copies xs) s
  rw [acceptJob_eq] at store capture print
  have begun := startNext_moves (P := only [.print]) (answer .accepted (.jobId s.print.nextJob)
      (postPrint (some s.print.nextJob) (some none) (jobQueued copies xs s))) (by decide)
  exact ⟨print.trans (startNext_print _), store.trans (begun.store_eq (by decide)),
    capture.trans (begun.capture_eq (by decide))⟩

/-- The reply to an accepted submission. -/
theorem accepted_link {tag : Byte} {clamped : Bool} (current : s.link.current = some ⟨0x23, tag, clamped⟩) :
    let t := printStep (acceptJob copies xs) s
    t.link.current = none ∧
      (Sends s.link → t.link.reply = some ⟨0xA3, tag, .accepted, .jobId s.print.nextJob⟩) := by
  have link := jobQueued_link copies xs s
  have queued : ∀ u, u.link = s.link → u = jobQueued copies xs s → Sends s.link →
      Sends (postPrint (some s.print.nextJob) (some none) u).link ∧
        (postPrint (some s.print.nextJob) (some none) u).link.current = some ⟨0x23, tag, clamped⟩ := by
    intro u same _ sends
    rw [← same] at sends current
    obtain ⟨sends', _, current'⟩ := ReplyKept.of_post _ u sends
    exact ⟨sends', current'.trans current⟩
  have posted := queued _ link rfl
  have answered : ∀ u : State, (startNext (answer .accepted (.jobId s.print.nextJob) u)).link.current = none := fun u =>
    (startNext_moves (P := anyPart) _ trivial).link_kept.idle (linkAnswer_current _ _ _)
  constructor
  · refine printStep_idle ?_
    rw [acceptJob_eq]
    exact answered _
  · intro sends
    obtain ⟨sendsP, currentP⟩ := posted sends
    have sendsA := (linkAnswer_appends .accepted (.jobId s.print.nextJob) sendsP).sends sendsP
    have kept : ReplyKept (answer .accepted (.jobId s.print.nextJob)
        (postPrint (some s.print.nextJob) (some none) (jobQueued copies xs s))) (printStep (acceptJob copies xs) s) :=
      printStep_replyKept (by rw [acceptJob_eq]; exact startNext_replyKept _)
    exact (kept sendsA).2.1.trans (linkAnswer_reply currentP sendsP.busy)

end

end Sys2Proof.Machine
end

