-- ==== Sys2Proof/Proofs/PrintRequests.lean ====
section
/-!
PROOFS. PRINT_CANCEL, PRINT_RESUME and PRINT_DONE_READ, and with PRINT_SUBMIT the obligation on the requests of the
engine (O58).
-/

namespace Sys2Proof.Machine

/-! ### Steps that tell nothing -/

theorem mechMoves_same (m : MechState) : mechMoves m m = false := by
  cases m <;> rfl

theorem printStep_quiet {f : State → State} {s : State}
    (h : mechMoves (mechState s.print) (mechState (f s).print) = false) : printStep f s = f s := by
  unfold printStep
  dsimp only
  rw [h]
  rfl

/-- A move of the engine alone. -/
theorem Moves.eq_of_print {s t : State} (h : Moves (only [.print]) s t) :
    t = { s with print := t.print, link := t.link } := by
  have held := h.held_eq
  have straps := h.straps_eq
  have pending := h.pending_eq
  have clock := h.clock_eq (by decide)
  have bus := h.bus_eq (by decide)
  have roster := h.roster_eq (by decide)
  have receive := h.receive_eq (by decide)
  have tracker := h.tracker_eq (by decide)
  have rotation := h.rotation_eq (by decide)
  have sites := h.sites_eq (by decide)
  have survey := h.survey_eq (by decide)
  have sag := h.sag_eq (by decide)
  have capture := h.capture_eq (by decide)
  have harm := h.harm_eq (by decide)
  have store := h.store_eq (by decide)
  have supply := h.supply_eq (by decide)
  have free := h.free_eq (by decide)
  obtain ⟨⟩ := t
  dsimp only at *
  subst held straps pending clock bus roster receive tracker rotation sites survey sag capture harm store supply free
  rfl

/-! ### A job that is done (R165) -/

section
variable (j : Job) (s : State)

/-- The engine with a job in the done queue. -/
def Print.withDone (j : Job) (p : Print) : Print :=
  { p with
    done := p.done ++ [⟨j.id, j.cancelled, j.tallies⟩], ring := p.ring.eraseP fun k => k.id == j.id
    completions := wrap32 p.completions }

theorem makeDone_eq : makeDone j s =
    startNext (post (.jobDone ⟨j.id, j.cancelled, j.tallies⟩) (releaseJob j (setPrint (Print.withDone j) s))) := rfl

theorem releaseJob_print : (releaseJob j s).print = s.print :=
  (releaseJob_moves (P := only [.store, .capture]) j s (by decide) (by decide)).print_eq (by decide)

theorem makeDone_print : (makeDone j s).print = (s.print.withDone j).started := by
  rw [makeDone_eq, startNext_print, post_print, releaseJob_print]
  rfl

theorem unpinRecord_replyKept (s : State) (p : RecordKind × Nat) : ReplyKept s (unpinRecord s p) :=
  (ReplyKept.of_link (t := setStore (Store.modifyEntry (fun e => { e with pins := e.pins - 1 }) p.1 p.2) s) rfl).trans
    ((recheckFull_replyKept _).trans (.of_link rfl))

theorem ReplyKept.foldl {α : Type} {f : State → α → State} (hf : ∀ s a, ReplyKept s (f s a)) (xs : List α) :
    ∀ s, ReplyKept s (xs.foldl f s) := by
  induction xs with
  | nil => exact fun s => .of_link rfl
  | cons x xs ih => exact fun s => (hf s x).trans (ih _)

theorem releaseSection_replyKept (s : State) (x : JobSection) : ReplyKept s (releaseSection s x) := by
  have unpinned : ReplyKept s (x.pins.foldl unpinRecord s) := .foldl unpinRecord_replyKept _ s
  unfold releaseSection
  dsimp only
  split
  · exact unpinned.trans (.of_link rfl)
  · exact unpinned

theorem makeDone_replyKept : ReplyKept s (makeDone j s) := by
  rw [makeDone_eq]
  exact (ReplyKept.of_link (t := setPrint (Print.withDone j) s) rfl).trans
    ((ReplyKept.foldl releaseSection_replyKept j.sections _).trans ((ReplyKept.of_post _ _).trans (startNext_replyKept _)))

theorem makeDone_array : (makeDone j s).store.array = s.store.array :=
  (makeDone_moves (P := only [.print, .store, .capture]) j s (by decide) (by decide) (by decide)).array_eq (by decide)

theorem makeDone_idle (idle : s.link.current = none) : (makeDone j s).link.current = none :=
  (makeDone_moves (P := anyPart) j s trivial trivial trivial).link_kept.idle idle

end

theorem withDone_started (j : Job) (p : Print) : (p.withDone j).started.done = p.done ++ [⟨j.id, j.cancelled, j.tallies⟩] ∧
    (p.withDone j).started.completions = wrap32 p.completions := by
  rw [started_rest]
  exact ⟨rfl, rfl⟩

theorem ringErase_eq (id : Nat) (ring : List Job) :
    ring.eraseP (fun k => k.id == id) = ring.eraseP fun k => decide (k.id = id) := by
  congr

/-! ### The cancel of a RUNNING job (R164) -/

theorem cancelTrailer_lines (straps : Straps) (id : Nat) : (linesOf straps (.cancelTrailer id)).length = 92 := by
  simp [linesOf, textLine, trailerFeed, blankLines]

section
variable {p : Print} {j : Job} {rest : List Job} {straps : Straps}

/-- The job in CANCELLING, at the copy and item it was at. -/
def cancelling (j : Job) : Job :=
  { j with phase := some .cancelling, cancelled := true, fullyRendered := false, placed := true }

/-- The engine with the first 32 dot lines of the cancel trailer placed. -/
def Print.cancels (straps : Straps) (j : Job) (rest : List Job) (p : Print) : Print :=
  { p with
    ring := cancelling j :: rest
    cache := [{ copy := j.renderCopy, item := j.renderItem, snapshot := some (.cancelTrailer j.id), placed := 32 }]
    buffer := (linesOf straps (.cancelTrailer j.id)).take 32
    inHand := if p.lineBusy then p.inHand else none, lineStale := p.lineBusy }

theorem modifyActive_cons {f : Job → Job} (ring : p.ring = j :: rest) (active : j.phase.isSome = true) :
    modifyActive f p = { p with ring := f j :: rest } := by
  unfold modifyActive
  rw [ring]
  exact if_pos active

theorem cancelActive_eq (ring : p.ring = j :: rest) (active : j.phase.isSome = true) : cancelActive j p =
    { p with
      ring := { j with phase := some .cancelling, cancelled := true, fullyRendered := false } :: rest
      cache := [{ copy := j.renderCopy, item := j.renderItem, snapshot := some (.cancelTrailer j.id) }]
      buffer := [], inHand := if p.lineBusy then p.inHand else none, lineStale := p.lineBusy } :=
  modifyActive_cons (p := { p with
      cache := [{ copy := j.renderCopy, item := j.renderItem, snapshot := some (.cancelTrailer j.id) }]
      buffer := [], inHand := if p.lineBusy then p.inHand else none, lineStale := p.lineBusy }) ring active

theorem renderFrom_long {q : Print} {k : Job} {e : CacheEntry} {more : List CacheEntry} {x : Snapshot} (fuel : Nat)
    (cache : q.cache = e :: more) (fetched : e.snapshot = some x) (empty : q.buffer = []) (fresh : e.placed = 0)
    (ring : q.ring = k :: rest) (active : k.phase.isSome = true) (long : 32 < (linesOf straps x).length) :
    renderFrom straps (fuel + 1) q =
      { q with
        ring := { k with renderCopy := e.copy, renderItem := e.item, placed := true } :: rest
        buffer := (linesOf straps x).take 32, cache := { e with placed := 32 } :: more } := by
  rw [renderFrom, cache]
  dsimp only
  rw [fetched]
  dsimp only
  rw [empty, fresh, List.drop_zero]
  generalize linesOf straps x = lines at *
  have free : Config.bufferPlaces - ([] : List DotLine).length = 32 := rfl
  have least : Nat.min 32 lines.length = 32 := Nat.min_eq_left long.le
  rw [free, least, if_neg (Nat.not_le.2 long)]
  rw [modifyActive_cons (j := k) (rest := rest) ?ring active]
  case ring => exact ring
  simp

end

section
variable {j : Job} {rest : List Job}

/-- The mechanism's state tells of no change while its job enters CANCELLING. -/
theorem mechMoves_cancel {p q : Print} (ring : p.ring = j :: rest) (running : j.phase = some .running)
    (ringQ : q.ring = cancelling j :: rest) (brake : q.brake = p.brake) (latch : q.latch = p.latch)
    (temp : q.tempClass = p.tempClass) : mechMoves (mechState p) (mechState q) = false := by
  have activeP : activeJob p = some j := by
    rw [activeJob, ring, List.head?_cons, Option.filter_some, if_pos (by rw [running]; rfl)]
  have activeQ : activeJob q = some (cancelling j) := by
    rw [activeJob, ringQ]
    rfl
  unfold mechState
  rw [activeP, activeQ]
  dsimp only
  have going : ¬j.phase = some .doneWait := by rw [running]; decide
  have goes : ¬(cancelling j).phase = some .doneWait := show ¬some JobPhase.cancelling = some .doneWait by decide
  rw [if_neg going, if_neg goes, brake, latch, temp]
  split
  · rfl
  · split
    · rfl
    · split
      · rfl
      · split <;> split <;> rfl

/-- PRINT_CANCEL of the RUNNING job, answered. -/
def cancelTaken (j : Job) (s : State) : State := renderAndTake (setPrint (cancelActive j) (answer .ok .empty s))

/-- No line begins: one is in progress or the brake holds. -/
theorem cancelTaken_eq {s : State} (ring : s.print.ring = j :: rest) (running : j.phase = some .running)
    (held : s.print.lineBusy = true ∨ s.print.brake = true) :
    cancelTaken j s = setPrint (Print.cancels s.straps j rest) (answer .ok .empty s) := by
  have active : j.phase.isSome = true := by rw [running]; rfl
  have rendered : render (setPrint (cancelActive j) (answer .ok .empty s)) =
      setPrint (Print.cancels s.straps j rest) (answer .ok .empty s) := by
    have engine : renderFrom s.straps (Config.cachePlaces + 1) (cancelActive j s.print) =
        s.print.cancels s.straps j rest := by
      rw [cancelActive_eq ring active]
      have long : 32 < (linesOf s.straps (.cancelTrailer j.id)).length := by
        rw [cancelTrailer_lines]
        decide
      refine (renderFrom_long (rest := rest) (more := [])
        (k := { j with phase := some .cancelling, cancelled := true, fullyRendered := false })
        (e := { copy := j.renderCopy, item := j.renderItem, snapshot := some (.cancelTrailer j.id) })
        Config.cachePlaces ?_ ?_ ?_ ?_ ?_ ?_ long).trans ?_ <;> rfl
    unfold render setPrint
    exact congrArg (fun p => { answer .ok .empty s with print := p }) engine
  have still : lineBoundary (setPrint (Print.cancels s.straps j rest) (answer .ok .empty s)) =
      setPrint (Print.cancels s.straps j rest) (answer .ok .empty s) := by
    refine if_pos ?_
    have busy : (s.print.cancels s.straps j rest).lineBusy = s.print.lineBusy := rfl
    have brake : (s.print.cancels s.straps j rest).brake = s.print.brake := rfl
    rw [setPrint_print]
    rcases held with line | set
    · rw [show (answer .ok .empty s).print = s.print from rfl, busy, line]
      rfl
    · have no : mayPrint (s.print.cancels s.straps j rest) = false := by simp [mayPrint, brake, set]
      rw [show (answer .ok .empty s).print = s.print from rfl, no]
      simp
  unfold cancelTaken renderAndTake
  rw [rendered]
  dsimp only
  split
  · exact still
  · rfl

end

/-! ### PRINT_CANCEL (R164) -/

section
variable {job : Half} {s : State} {j : Job}

theorem printCancel_none (absent : ∀ j ∈ s.print.ring, j.id ≠ job.toNat) : printCancel job s = refuse .notFound s := by
  unfold printCancel
  have none_ : s.print.ring.find? (fun j => j.id == job.toNat) = none :=
    List.find?_eq_none.2 fun j mem => by simpa using absent j mem
  dsimp only
  rw [none_]

section
variable (found : s.print.ring.find? (fun j => j.id == job.toNat) = some j)
include found

theorem printCancel_queued (queued : j.phase = none) : printCancel job s =
    if s.print.done.length < 8 then
      printStep (fun s => makeDone { j with cancelled := true, tallies := {} } (answer .ok .empty s)) s
    else refuse .queueFull s := by
  unfold printCancel
  dsimp only
  rw [found]
  dsimp only
  rw [queued]
  rfl

theorem printCancel_running (running : j.phase = some .running) : printCancel job s = printStep (cancelTaken j) s := by
  unfold printCancel
  dsimp only
  rw [found]
  dsimp only
  rw [running]
  rfl

theorem printCancel_cancelling (phase : j.phase = some .cancelling) : printCancel job s = answer .ok .empty s := by
  unfold printCancel
  dsimp only
  rw [found]
  dsimp only
  rw [phase]

theorem printCancel_waits (phase : j.phase = some .doneWait) : printCancel job s = refuse .wrongState s := by
  unfold printCancel
  dsimp only
  rw [found]
  dsimp only
  rw [phase]

end

/-- The cancel of a RUNNING job tells nothing but its reply. -/
theorem printStep_cancelTaken {rest : List Job} (ring : s.print.ring = j :: rest) (running : j.phase = some .running)
    (held : s.print.lineBusy = true ∨ s.print.brake = true) :
    printStep (cancelTaken j) s = setPrint (Print.cancels s.straps j rest) (answer .ok .empty s) := by
  have taken := cancelTaken_eq ring running held
  refine (printStep_quiet ?_).trans taken
  rw [taken]
  exact mechMoves_cancel ring running rfl rfl rfl rfl

end

/-! ### PRINT_RESUME (R162) -/

theorem modifyActive_latch (f : Job → Job) (p : Print) :
    (modifyActive f p).latch = p.latch ∧ (modifyActive f p).paper = p.paper := by
  unfold modifyActive
  split
  · split <;> exact ⟨rfl, rfl⟩
  · exact ⟨rfl, rfl⟩

theorem renderFrom_latch (straps : Straps) (fuel : Nat) : ∀ p : Print,
    (renderFrom straps fuel p).latch = p.latch ∧ (renderFrom straps fuel p).paper = p.paper := by
  induction fuel with
  | zero => exact fun _ => ⟨rfl, rfl⟩
  | succ fuel ih =>
    intro p
    rw [renderFrom]
    split
    · exact ⟨rfl, rfl⟩
    · split
      · exact ⟨rfl, rfl⟩
      · dsimp only
        split
        · obtain ⟨latch, paper⟩ := ih (modifyActive (entryRendered _ _) _)
          obtain ⟨latch', paper'⟩ := modifyActive_latch (entryRendered _ _) _
          obtain ⟨latch'', paper''⟩ := modifyActive_latch _ _
          exact ⟨(latch.trans latch').trans latch'', (paper.trans paper').trans paper''⟩
        · exact modifyActive_latch _ _

theorem beginLine_latch {p : Print} (paper : p.paper = true) : (beginLine p).latch = p.latch ∧ (beginLine p).paper = true := by
  unfold beginLine
  rw [if_pos paper]
  exact ⟨rfl, paper⟩

/-- With paper, a line boundary leaves the latch. -/
theorem lineBoundary_latch {s : State} (paper : s.print.paper = true) :
    (lineBoundary s).print.latch = s.print.latch ∧ (lineBoundary s).print.paper = true := by
  unfold lineBoundary
  split
  · exact ⟨rfl, paper⟩
  · split
    · exact beginLine_latch paper
    · next x rest _ _ =>
      obtain ⟨latch, paper'⟩ := renderFrom_latch s.straps (Config.cachePlaces + 1)
        (beginLine { s.print with inHand := some x, buffer := rest })
      obtain ⟨latch', paper''⟩ := beginLine_latch (p := { s.print with inHand := some x, buffer := rest }) paper
      exact ⟨latch.trans latch', paper'.trans paper''⟩
    · split
      · split <;> exact ⟨rfl, paper⟩
      · exact ⟨rfl, paper⟩

section
variable {s : State}

/-- The engine with the latch cleared, at its line boundary. -/
def unlatched (s : State) : State := lineBoundary (setPrint (fun p => { p with latch := false }) s)

theorem printResume_refused (h : s.print.latch = false ∨ s.print.paper = false) :
    printResume s = answer .wrongState (.paper s.print.paper (mechState s.print)) s := by
  refine if_neg ?_
  rw [Bool.and_eq_true]
  rintro ⟨latch, paper⟩
  rcases h with h | h
  · rw [h] at latch
    exact absurd latch Bool.false_ne_true
  · rw [h] at paper
    exact absurd paper Bool.false_ne_true

theorem printResume_taken (latch : s.print.latch = true) (paper : s.print.paper = true) : printResume s =
    printStep (fun s => answer .ok (.paper (unlatched s).print.paper (mechState (unlatched s).print)) (unlatched s)) s :=
  if_pos (by rw [latch, paper]; rfl)

/-- What PRINT_RESUME leaves of the engine. -/
theorem unlatched_print (owed : s.link.owed = none) (idle : s.print.lineBusy = false) (paper : s.print.paper = true) :
    (mayPrint { s.print with latch := false } = true → ∀ x, s.print.inHand = some x → (unlatched s).print =
      { s.print with latch := false, lineBusy := true, lineSlow := s.print.tempClass == .hot }) ∧
    (mayPrint { s.print with latch := false } = false → (unlatched s).print = { s.print with latch := false }) := by
  unfold unlatched
  refine ⟨fun may x hand => ?_, fun no => ?_⟩
  · rw [lineBoundary_inHand (s := setPrint (fun p => { p with latch := false }) s) idle may hand owed]
    exact if_pos paper
  · rw [lineBoundary_stopped (s := setPrint (fun p => { p with latch := false }) s) no]
    rfl

end

/-! ### PRINT_DONE_READ (R166) -/

/-- The state with the oldest done entry read. -/
def doneTaken (e : DoneEntry) (rest : List DoneEntry) (s : State) : State :=
  answer .ok (.doneEntry e) (setPrint (fun p => { p with done := rest }) s)

section
variable {s : State} {e : DoneEntry} {rest : List DoneEntry}

theorem printDoneRead_none (h : s.print.done = []) : printDoneRead s = refuse .notFound s := by
  unfold printDoneRead
  rw [h]

theorem printDoneRead_some (h : s.print.done = e :: rest) :
    printDoneRead s = printStep (fun s => doneFreed (doneTaken e rest s)) s := by
  unfold printDoneRead
  rw [h]
  rfl

theorem doneFreed_idle (h : s.print.ring = []) : doneFreed s = s := by
  unfold doneFreed activeJob
  rw [h]
  exact startNext_nil h

theorem doneFreed_active {j : Job} {more : List Job} (h : s.print.ring = j :: more)
    (active : j.phase = some .running ∨ j.phase = some .cancelling) : doneFreed s = s := by
  have some_ : j.phase.isSome = true := by rcases active with p | p <;> rw [p] <;> rfl
  have job : activeJob s.print = some j := by
    rw [activeJob, h, List.head?_cons, Option.filter_some, if_pos some_]
  have begins : ¬jobBegins j s.print = true := by
    rcases active with p | p <;> simp [jobBegins, p]
  unfold doneFreed
  rw [job]
  dsimp only
  rw [if_neg (by rcases active with p | p <;> rw [p] <;> decide), startNext_cons h, if_neg begins]

theorem doneFreed_begins {j : Job} {more : List Job} (h : s.print.ring = j :: more) (queued : j.phase = none)
    (room : s.print.done.length < 8) : doneFreed s =
      postPrint (some j.id) (some (some .running)) (setPrint (Print.running j more) s) := by
  have job : activeJob s.print = none := by
    rw [activeJob, h, List.head?_cons, Option.filter_some, if_neg (by rw [queued]; decide)]
  have begins : jobBegins j s.print = true := by
    unfold jobBegins
    rw [queued]
    exact decide_eq_true room
  unfold doneFreed
  rw [job]
  dsimp only
  rw [startNext_cons h, if_pos begins]

theorem doneFreed_waits {j : Job} {more : List Job} (h : s.print.ring = j :: more) (waits : j.phase = some .doneWait) :
    doneFreed s = makeDone j s := by
  have job : activeJob s.print = some j := by
    rw [activeJob, h, List.head?_cons, Option.filter_some, if_pos (by rw [waits]; rfl)]
  unfold doneFreed
  rw [job]
  exact if_pos waits

end

/-! ### The obligation -/

theorem find_job (ring : List Job) (id : Nat) : ring.find? (fun j => decide (j.id = id)) = ring.find? fun j => j.id == id := by
  congr

/-- Settles O58. -/
theorem printRequestsAnswer : Obligations.PrintRequestsAnswer := by
  unfold Obligations.PrintRequestsAnswer
  intro tag copies sections job s h shaped p st up bare
  have ⟨_, free, noReply, owed⟩ := h
  have upIff : storeUp s.store = true ↔ up := storeUp_iff s.store
  refine ⟨?submit, ?cancel, ?resume, ?done⟩
  case submit =>
    intro o refused counted inRange names valid stored first discarded missing reclaimed named
    let r : Request := .printSubmit copies sections
    let w := waiting 0x23 tag s
    have namesEq : ∀ x, names x = namedRecord x := fun x => by cases x <;> rfl
    have storedIff : stored ↔ ∃ x ∈ sections, needsStore x = true :=
      exists_congr fun x => and_congr_right fun _ => (needsStore_iff x).symm
    have rangeIff : ∀ x, SectionInRange x ↔ inRange x := fun x => by cases x <;> exact Iff.rfl
    have missingIff : ∀ x, recordMissing st x = true ↔ missing x := fun x => by
      refine recordMissing_iff.trans ?_
      rw [← namesEq]
      simp only [discarding_iff]
      rfl
    have reclaimedIff : ∀ x, recordReclaimed st x = true ↔ reclaimed x := fun x => by
      refine recordReclaimed_iff.trans ?_
      simp only [discarding_iff]
      rfl
    have answers : ∀ {f}, submitFault copies sections w = some f → refused f.1 f.2 := fun hf =>
      request_answered tag r _ _ s s h free (printSubmit_refused hf)
    have validOf : valid → ∀ x ∈ sections, SectionInRange x := fun v x mem => (rangeIff x).2 (v x mem)
    have firstOf : ∀ n, first (fun x => ¬inRange x) n → FirstAt (fun x => ¬SectionInRange x) sections n := by
      rintro n ⟨one, ⟨x, at_, bad⟩, before⟩
      exact ⟨one, ⟨x, at_, mt (rangeIff x).1 bad⟩, fun k y low atK bad' => before k y low atK (mt (rangeIff y).2 bad')⟩
    have fitOf : up ∨ ¬stored → storeUp w.store = true ∨ ¬∃ x ∈ sections, needsStore x = true :=
      Or.imp upIff.2 (mt storedIff.2)
    refine ⟨fun x plain => ?_, fun id chain i at_ short linked root tail => ?_, fun x other => capturePinned_other other,
      fun id c => capturePinned_some, fun bad => answers (submitFault_uncounted bad),
      fun n c f => answers (submitFault_invalid c (firstOf n f)),
      fun c v no some_ => answers (submitFault_down c (validOf v) (mt upIff.1 no) (storedIff.1 some_)),
      fun c v fit full => answers (submitFault_full c (validOf v) (fitOf fit) full),
      fun n c v fit room f => answers (submitFault_missing c (validOf v) (fitOf fit) room missingIff f),
      fun n c v fit room all f => answers (submitFault_reclaimed c (validOf v) (fitOf fit) room missingIff all reclaimedIff f),
      fun c v fit room all none_ => ?accepted⟩
    · rw [namesEq]
      exact recordsPinned_named plain
    · have chainOk : IsChain st chain i := ⟨fun k a b ha hb => (linked k a b ha hb).1,
        fun k a b ha hb => (linked k a b ha hb).2.1, fun k a b ha hb => (linked k a b ha hb).2.2, root, tail⟩
      exact congrArg (List.map fun n => (RecordKind.note, n)) (chainOf_eq chainOk at_ short)
    case accepted =>
      have accepts := printSubmit_accepted (submitFault_none c (validOf v) (fitOf fit) room missingIff all reclaimedIff none_)
      have moves : Moves (only [.print, .store, .capture]) w (printSubmit copies sections w) :=
        printSubmit_moves _ _ _ (by decide) (by decide) (by decide)
      rw [accepts] at moves
      obtain ⟨print, store, capture⟩ := accepted_blocks copies.toNat sections w
      obtain ⟨current, reply⟩ := accepted_link copies.toNat sections w (tag := tag) (clamped := false) rfl
      obtain ⟨pins, array, queue⟩ := jobQueued_pinned copies.toNat sections w
      have slots := fun i (hi : i < 12) => jobQueued_capture copies.toNat sections w (i := i)
        (by rw [show w.capture = s.capture from rfl, shaped.slots_length]; exact hi)
      have engine := jobQueued_print copies.toNat sections w
      have rest := started_rest (jobQueued copies.toNat sections w).print
      rw [← print] at rest
      have slotOf : ∀ i, captureSlot (printStep (acceptJob copies.toNat sections) w) i =
          captureSlot (jobQueued copies.toNat sections w) i := fun i =>
        congrArg (fun c : Capture => c.slots.getD i {}) capture
      have bareJob : (jobSections sections w).map (·.content) = sections := by
        unfold jobSections
        rw [List.map_map]
        exact List.map_id _
      refine ⟨_, request_served tag r h accepts, current, fun sending => reply ⟨sending, owed⟩, ?_, ?_, ?_, ?_, ?_, ?_,
        fun j more ring active => ?_, fun ring => ?_, fun kind id e found => ?_, fun i hi => ?_,
        (congrArg Store.array store).trans array, (congrArg Store.queue store).trans queue, moves.sites_eq (by decide),
        moves.survey_eq (by decide)⟩
      · rw [print, started_map bare (fun _ _ => rfl), engine]
        refine (List.map_append ..).trans (congrArg (p.ring.map bare ++ [·]) ?_)
        exact congrArg (fun c => (p.nextJob, copies.toNat, c, ({} : Tallies))) bareJob
      · rw [rest, engine]
        rfl
      · rw [rest, engine]
        rfl
      · rw [rest, engine]
        rfl
      · rw [rest, engine]
        rfl
      · rw [rest, engine]
        rfl
      · rw [print, started_active (j := j) (rest := more ++ _) (by rw [engine, show w.print.ring = j :: more from ring]; rfl)
          active, engine]
        exact List.map_append
      · have ringW : w.print.ring = [] := ring
        rw [print, started_cons (rest := []) (by rw [engine, ringW]; rfl), engine]
        have begins : ∀ k : Job, k.phase = none → jobBegins k
            { w.print with
              ring := w.print.ring ++ [{ id := w.print.nextJob, copies := copies.toNat, sections := jobSections sections w }]
              nextJob := nextJobId w.print.nextJob, submits := wrap32 w.print.submits } = decide (p.done.length < 8) :=
          fun k queued => by
            unfold jobBegins
            rw [queued]
            rfl
        rw [begins _ rfl, ringW]
        by_cases more : p.done.length < 8
        · rw [if_pos more, if_pos (decide_eq_true more)]
          rfl
        · rw [if_neg more, if_neg (by rw [decide_eq_false more]; decide)]
          rfl
      · have there := pins kind id
        rw [show findEntry w.store kind id = some e from found] at there
        rw [store]
        exact ⟨_, there, rfl⟩
      · rw [slotOf]
        exact slots i hi
  case cancel =>
    intro o ends
    let r : Request := .printCancel job
    let w := waiting 0x24 tag s
    have refused : ∀ status, printCancel job w = refuse status w → ends status := fun status hr =>
      request_refused tag r status s h fun u hu => by subst hu; exact hr
    refine ⟨fun absent => refused _ (printCancel_none absent), fun j found queued => ?_, fun j rest ring named => ?_⟩
    · rw [find_job] at found
      have serves := printCancel_queued (s := w) found queued
      refine ⟨fun full => refused _ (serves.trans (if_neg (Nat.not_lt.2 full))), fun room => ?_⟩
      have serves_ := serves.trans (if_pos room)
      let x : Job := { j with cancelled := true, tallies := {} }
      let a := answer .ok .empty w
      have answered : a.link.current = none := linkAnswer_current _ _ _
      have print := (printStep_print (fun s => makeDone x (answer .ok .empty s)) w).trans (makeDone_print x a)
      have array := (congrArg Store.array (printStep_store (fun s => makeDone x (answer .ok .empty s)) w).1).trans
        (makeDone_array x a)
      have kept : ReplyKept a (printStep (fun s => makeDone x (answer .ok .empty s)) w) :=
        printStep_replyKept (makeDone_replyKept x a)
      obtain ⟨done, completions⟩ := withDone_started x a.print
      refine ⟨_, request_served tag r h serves_, printStep_idle (makeDone_idle x a answered), fun sending => ?_, ?_, ?_, ?_,
        array⟩
      · have sends : Sends w.link := ⟨sending, owed⟩
        have sendsA : Sends a.link := (linkAnswer_appends .ok .empty sends).sends sends
        exact (kept sendsA).2.1.trans (linkAnswer_reply (l := w.link) rfl sending)
      · rw [print]
        exact done
      · rw [print, started_map bare (fun _ _ => rfl), ← ringErase_eq]
        rfl
      · rw [print]
        exact completions
    · have found : w.print.ring.find? (fun k => k.id == job.toNat) = some j := by
        rw [show w.print.ring = j :: rest from ring]
        exact List.find?_cons_of_pos (by simpa using named)
      refine ⟨fun phase => request_answered tag r .ok .empty s s h free (printCancel_cancelling (s := w) found phase),
        fun phase => refused _ (printCancel_waits (s := w) found phase), ?_⟩
      intro phase held lines
      have serves := (printCancel_running (s := w) found phase).trans
        (printStep_cancelTaken (s := w) ring phase held)
      refine ⟨_, request_served tag r h serves, answered_link (kind := 0x24) _ _ rfl free, rfl, cancelTrailer_lines _ _, rfl,
        rfl, rfl, rfl, rfl, rfl, ?_, ?_⟩
      · rw [ring]
        rfl
      · rw [ring]
        rfl
  case resume =>
    intro o
    let r : Request := .printResume
    let w := waiting 0x25 tag s
    refine ⟨fun no => request_answered tag r _ _ s s h free (printResume_refused (s := w) no), fun latch paper idle => ?_⟩
    have serves := printResume_taken (s := w) latch paper
    have moves : Moves (only [.print]) w (printResume w) := printResume_moves _ (by decide)
    rw [serves] at moves
    let f := fun s => answer .ok (.paper (unlatched s).print.paper (mechState (unlatched s).print)) (unlatched s)
    have print : (printStep f w).print = (unlatched w).print := printStep_print f w
    obtain ⟨latchL, paperL⟩ := lineBoundary_latch (s := setPrint (fun p => { p with latch := false }) w) paper
    obtain ⟨begins, stays⟩ := unlatched_print (s := w) owed idle paper
    refine ⟨_, request_served tag r h serves, ?_, ?_, moves.eq_of_print, fun sending => ?_, fun may x hand => ?_, fun no => ?_⟩
    · exact (congrArg Print.latch print).trans latchL
    · exact (congrArg Print.paper print).trans paperL
    · have link : (unlatched w).link = w.link := lineBoundary_link _
      have sends : Sends (unlatched w).link := by rw [link]; exact ⟨sending, owed⟩
      have sendsA : Sends (f w).link := (linkAnswer_appends _ _ sends).sends sends
      have kept : ReplyKept (f w) (printStep f w) := printStep_replyKept (.of_link rfl)
      have paperU : (unlatched w).print.paper = true := paperL
      rw [print]
      refine (kept sendsA).2.1.trans ((linkAnswer_reply (l := (unlatched w).link) (by rw [link]; rfl) sends.busy).trans ?_)
      rw [paperU]
      rfl
    · exact print.trans (begins may x hand)
    · exact print.trans (stays no)
  case done =>
    intro o
    let r : Request := .printDoneRead
    let w := waiting 0x26 tag s
    refine ⟨fun none_ => request_refused tag r .notFound s h fun u hu => by subst hu; exact printDoneRead_none (s := w) none_,
      fun e rest some_ => ?_⟩
    have serves := printDoneRead_some (s := w) some_
    let d := doneTaken e rest w
    have quiet : doneFreed d = d → o = .next (replied 0xA6 tag .ok (.doneEntry e)
        { s with print := { p with done := rest } }) := fun same => by
      have step : printStep (fun s => doneFreed (doneTaken e rest s)) w = d := by
        refine (printStep_quiet ?_).trans same
        rw [same]
        exact mechMoves_same _
      exact request_answered tag r .ok (.doneEntry e) s { s with print := { p with done := rest } } h free (serves.trans step)
    refine ⟨fun ring => quiet (doneFreed_idle (s := d) ring), fun j more ring active =>
      quiet (doneFreed_active (s := d) ring active), fun j more ring queued room => ?_, fun j more ring waits => ?_⟩
    · have step := doneFreed_begins (s := d) ring queued room
      have begun : Moves (only [.print]) d (doneFreed d) := by
        rw [step]
        exact .trans (setPrint_moves _ _ (by decide)) (postPrint_moves _ _ _)
      have taken : Moves (only [.print]) w d := .trans (setPrint_moves _ _ (by decide)) (.answer _ _ _)
      have moves := printStep_moves (fun s => doneFreed (doneTaken e rest s)) w (taken.trans begun)
      have print : (printStep (fun s => doneFreed (doneTaken e rest s)) w).print = d.print.running j more :=
        (printStep_print _ _).trans (by rw [step]; exact post_print _ _)
      exact ⟨_, request_served tag r h serves, print, moves.eq_of_print,
        printStep_idle (begun.link_kept.idle (linkAnswer_current _ _ _))⟩
    · have step := doneFreed_waits (s := d) ring waits
      have print : (printStep (fun s => doneFreed (doneTaken e rest s)) w).print = (d.print.withDone j).started :=
        (printStep_print _ _).trans (by rw [step]; exact makeDone_print j d)
      have array : (printStep (fun s => doneFreed (doneTaken e rest s)) w).store.array = d.store.array :=
        (congrArg Store.array (printStep_store _ _).1).trans (by rw [step]; exact makeDone_array j d)
      have idle : (doneFreed d).link.current = none := by
        rw [step]
        exact makeDone_idle j d (linkAnswer_current _ _ _)
      obtain ⟨done, completions⟩ := withDone_started j d.print
      refine ⟨_, request_served tag r h serves, ?_, ?_, ?_, printStep_idle idle, array⟩
      · rw [print]
        exact done
      · rw [print, started_map (·.id) (fun _ _ => rfl)]
        have erased_ : d.print.ring.eraseP (fun k => k.id == j.id) = more := by
          rw [show d.print.ring = j :: more from ring]
          exact List.eraseP_cons_of_pos (by simp)
        exact congrArg (List.map (·.id)) erased_
      · rw [print]
        exact completions

end Sys2Proof.Machine
end

