-- ==== Sys2Proof/Proofs/QueueBlind.lean ====
section
/-!
PROOFS. The frames that wait in the receive queue are nothing to the request being served: each operation on
a state with another receive queue gives its own outcome with that queue (R177).
-/

namespace Sys2Proof.Machine

/-! ### The link -/

/-- The state with `q` for its receive queue. -/
def withQueue (q : List Frame) (s : State) : State := setLink (fun l => { l with queue := q }) s

/-- An operation that neither reads nor moves the receive queue. -/
def QueueBlind (f : State → State) : Prop := ∀ q s, f (withQueue q s) = withQueue q (f s)

theorem startTransmit_queue (q : List Frame) (l : Link) :
    { l with queue := q }.startTransmit = { l.startTransmit with queue := q } := by
  unfold Link.startTransmit
  change (if (l.sending.isSome || l.noticeResetDue) = true then _ else _) = _
  split
  · rfl
  · cases hr : l.reply with
    | some r => rfl
    | none => cases hn : l.notices <;> simp only [hr, hn]

theorem settle_queue (q : List Frame) (l : Link) :
    { l with queue := q }.settle = { l.settle with queue := q } := by
  unfold Link.settle
  cases ho : l.owed with
  | none => simp only [ho]
  | some o =>
    dsimp only
    split
    · rfl
    · rw [ho]

theorem noticeReset_queue (q : List Frame) (l : Link) :
    { l with queue := q }.noticeReset = { l.noticeReset with queue := q } := by
  unfold Link.noticeReset
  change (if l.noticeResetDue = true then _ else _) = _
  split
  · exact settle_queue q (Link.setDomains (fun d => { d with notice := false })
      { l with notices := [], lost := 0, mask := 0x3FFF, seq := 0 })
  · rfl

theorem offerNotice_queue (q : List Frame) (n : Notice) (l : Link) :
    { l with queue := q }.offerNotice n = { l.offerNotice n with queue := q } := by
  unfold Link.offerNotice
  dsimp only
  split
  · rfl
  · split
    · exact startTransmit_queue q { l with notices := l.notices ++ [n] }
    · rfl

theorem linkAnswer_queue (q : List Frame) (st : Status) (b : ReplyBody) (l : Link) :
    { l with queue := q }.answer st b = { l.answer st b with queue := q } := by
  unfold Link.answer
  cases hc : l.current with
  | none => simp only [hc]
  | some c =>
    exact startTransmit_queue q
      { l with current := none, reply := some ⟨replyKind c.kind, c.tag, st, b⟩ }

@[simp] theorem post_withQueue (b : NoticeBody) (q : List Frame) (s : State) :
    post b (withQueue q s) = withQueue q (post b s) := by
  unfold post Link.post
  change ({ s with link := ({ s.link with queue := q } : Link).noticeReset.offerNotice _ } : State) = _
  rw [noticeReset_queue, offerNotice_queue]
  rfl

@[simp] theorem answer_withQueue (st : Status) (b : ReplyBody) (q : List Frame) (s : State) :
    answer st b (withQueue q s) = withQueue q (answer st b s) := by
  unfold answer
  change ({ s with link := ({ s.link with queue := q } : Link).answer st b } : State) = _
  rw [linkAnswer_queue]
  rfl

@[simp] theorem refuse_withQueue (st : Status) (q : List Frame) (s : State) :
    refuse st (withQueue q s) = withQueue q (refuse st s) := answer_withQueue ..

/-- A case on the state is the same case on the state with another receive queue. -/
@[simp] theorem ite_withQueue (c : Prop) [Decidable c] (q : List Frame) (s t : State) :
    (if c then withQueue q s else withQueue q t) = withQueue q (if c then s else t) :=
  (apply_ite (withQueue q) c s t).symm

theorem ite_eq_withQueue {c d : Prop} [Decidable c] [Decidable d] (h : d ↔ c) {q : List Frame}
    {s t s' t' : State} (hs : s' = withQueue q s) (ht : t' = withQueue q t) :
    (if d then s' else t') = withQueue q (if c then s else t) := by
  rw [hs, ht, ite_withQueue]
  exact congrArg _ (if_congr h rfl rfl)

@[simp] theorem postWhen_withQueue (c : Bool) (b : NoticeBody) (q : List Frame) (s : State) :
    postWhen c b (withQueue q s) = withQueue q (postWhen c b s) := by
  simp [postWhen]

theorem foldl_withQueue {α : Type} (f : State → α → State) (hf : ∀ x, QueueBlind (f · x)) (xs : List α)
    (q : List Frame) (s : State) : xs.foldl f (withQueue q s) = withQueue q (xs.foldl f s) := by
  induction xs generalizing s with
  | nil => rfl
  | cons x xs ih => exact (congrArg (xs.foldl f) (hf x q s)).trans (ih _)

/-! ### What is read of a state -/

section
variable (q : List Frame) (s : State)

@[simp] theorem withQueue_clock : (withQueue q s).clock = s.clock := rfl
@[simp] theorem withQueue_bus : (withQueue q s).bus = s.bus := rfl
@[simp] theorem withQueue_roster : (withQueue q s).roster = s.roster := rfl
@[simp] theorem withQueue_tracker : (withQueue q s).tracker = s.tracker := rfl
@[simp] theorem withQueue_rotation : (withQueue q s).rotation = s.rotation := rfl
@[simp] theorem withQueue_sites : (withQueue q s).sites = s.sites := rfl
@[simp] theorem withQueue_survey : (withQueue q s).survey = s.survey := rfl
@[simp] theorem withQueue_sag : (withQueue q s).sag = s.sag := rfl
@[simp] theorem withQueue_capture : (withQueue q s).capture = s.capture := rfl
@[simp] theorem withQueue_harm : (withQueue q s).harm = s.harm := rfl
@[simp] theorem withQueue_store : (withQueue q s).store = s.store := rfl
@[simp] theorem withQueue_print : (withQueue q s).print = s.print := rfl
@[simp] theorem withQueue_supply : (withQueue q s).supply = s.supply := rfl
@[simp] theorem withQueue_straps : (withQueue q s).straps = s.straps := rfl
@[simp] theorem entryOf_withQueue (n : Nat) : entryOf (withQueue q s) n = entryOf s n := rfl
@[simp] theorem siteOf_withQueue (n : Nat) : siteOf (withQueue q s) n = siteOf s n := rfl
@[simp] theorem memberOf_withQueue (i j : Nat) : memberOf (withQueue q s) i j = memberOf s i j := rfl
@[simp] theorem positionOf_withQueue (n : Nat) : positionOf (withQueue q s) n = positionOf s n := rfl
@[simp] theorem rotationOf_withQueue (n : Nat) : rotationOf (withQueue q s) n = rotationOf s n := rfl
@[simp] theorem rotationRuns_withQueue (n : Nat) : rotationRuns (withQueue q s) n = rotationRuns s n := rfl
@[simp] theorem isVoltage_withQueue (n : Nat) : isVoltage (withQueue q s) n = isVoltage s n := rfl
@[simp] theorem captureSlot_withQueue (n : Nat) : captureSlot (withQueue q s) n = captureSlot s n := rfl
@[simp] theorem harmSite_withQueue (n : Nat) : harmSite (withQueue q s) n = harmSite s n := rfl
@[simp] theorem sagSite_withQueue (n : Nat) : sagSite (withQueue q s) n = sagSite s n := rfl
@[simp] theorem nextWaiting_withQueue : nextWaiting (withQueue q s) = nextWaiting s := rfl
@[simp] theorem critical_withQueue : critical (withQueue q s) = critical s := rfl
@[simp] theorem recording_withQueue : recording (withQueue q s) = recording s := rfl
@[simp] theorem qualifies_withQueue : qualifies (withQueue q s) = qualifies s := rfl
@[simp] theorem memberFor_withQueue (n : Nat) (x : Identity) :
    memberFor (withQueue q s) n x = memberFor s n x := rfl
@[simp] theorem surveyRecord_withQueue : surveyRecord (withQueue q s) = surveyRecord s := rfl
@[simp] theorem trackView_withQueue : trackView (withQueue q s) = trackView s := rfl
@[simp] theorem supplyView_withQueue : supplyView (withQueue q s) = supplyView s := rfl
@[simp] theorem printJobHeld_withQueue : printJobHeld (withQueue q s) = printJobHeld s := rfl
@[simp] theorem submitFault_withQueue (c : Byte) (xs : List Section) :
    submitFault c xs (withQueue q s) = submitFault c xs s := rfl
@[simp] theorem capturePinned_withQueue (x : Section) :
    capturePinned (withQueue q s) x = capturePinned s x := rfl

/-! ### The updates of one part -/

@[simp] theorem modifyEntry_withQueue (f : RosterEntry → RosterEntry) (n : Nat) :
    modifyEntry f n (withQueue q s) = withQueue q (modifyEntry f n s) := rfl
@[simp] theorem modifySite_withQueue (f : Site → Site) (n : Nat) :
    modifySite f n (withQueue q s) = withQueue q (modifySite f n s) := rfl
@[simp] theorem modifyMember_withQueue (f : Option Member → Option Member) (i j : Nat) :
    modifyMember f i j (withQueue q s) = withQueue q (modifyMember f i j s) := rfl
@[simp] theorem modifyChannel_withQueue (f : Channel → Channel) (i j : Nat) :
    modifyChannel f i j (withQueue q s) = withQueue q (modifyChannel f i j s) := rfl
@[simp] theorem modifyHarmMember_withQueue (f : HarmMember → HarmMember) (i j : Nat) :
    modifyHarmMember f i j (withQueue q s) = withQueue q (modifyHarmMember f i j s) := rfl
@[simp] theorem modifyCapture_withQueue (f : CaptureSlot → CaptureSlot) (n : Nat) :
    modifyCapture f n (withQueue q s) = withQueue q (modifyCapture f n s) := rfl
@[simp] theorem setStore_withQueue (f : Store → Store) :
    setStore f (withQueue q s) = withQueue q (setStore f s) := rfl
@[simp] theorem setTracker_withQueue (f : Tracker → Tracker) :
    setTracker f (withQueue q s) = withQueue q (setTracker f s) := rfl
@[simp] theorem setRotation_withQueue (n : Nat) (r : Rotation) :
    setRotation n r (withQueue q s) = withQueue q (setRotation n r s) := rfl
@[simp] theorem setSurvey_withQueue (f : Survey → Survey) :
    setSurvey f (withQueue q s) = withQueue q (setSurvey f s) := rfl
@[simp] theorem setPrint_withQueue (f : Print → Print) :
    setPrint f (withQueue q s) = withQueue q (setPrint f s) := rfl
@[simp] theorem setSupply_withQueue (f : Supply → Supply) :
    setSupply f (withQueue q s) = withQueue q (setSupply f s) := rfl
@[simp] theorem storeNext_withQueue : storeNext (withQueue q s) = withQueue q (storeNext s) := rfl
@[simp] theorem setLinks_withQueue (f : Links → Links) (id : Nat) :
    setLinks f id (withQueue q s) = withQueue q (setLinks f id s) := rfl
@[simp] theorem queueSurvey_withQueue (r : SurveyRecord) :
    queueSurvey r (withQueue q s) = withQueue q (queueSurvey r s) := rfl
@[simp] theorem queueInterval_withQueue (r : IntervalRecord) :
    queueInterval r (withQueue q s) = withQueue q (queueInterval r s) := rfl
@[simp] theorem dropInterval_withQueue : dropInterval (withQueue q s) = withQueue q (dropInterval s) := rfl
@[simp] theorem wipeEmpty_withQueue : wipeEmpty (withQueue q s) = withQueue q (wipeEmpty s) := rfl
@[simp] theorem evaluateCalDue_withQueue :
    evaluateCalDue (withQueue q s) = withQueue q (evaluateCalDue s) := rfl
@[simp] theorem pinRecord_withQueue (p : RecordKind × Nat) :
    pinRecord p (withQueue q s) = withQueue q (pinRecord p s) := rfl
@[simp] theorem pinCapture_withQueue (p : CapturePin) :
    pinCapture p (withQueue q s) = withQueue q (pinCapture p s) := rfl
@[simp] theorem unpinCapture_withQueue (p : CapturePin) :
    unpinCapture p (withQueue q s) = withQueue q (unpinCapture p s) := rfl
@[simp] theorem render_withQueue : render (withQueue q s) = withQueue q (render s) := rfl
@[simp] theorem queueLock_withQueue (mark : Nat) (clamped : Bool) :
    queueLock mark clamped (withQueue q s) = withQueue q (queueLock mark clamped s) := rfl
@[simp] theorem queueNote_withQueue (site : Option Nat) (attach : Option Attach) (amends : Option Nat)
    (crew text : List Byte) : queueNote site attach amends crew text (withQueue q s) =
      ((queueNote site attach amends crew text s).1,
        withQueue q (queueNote site attach amends crew text s).2) := rfl
@[simp] theorem drawFree_withQueue :
    drawFree (withQueue q s) = ((drawFree s).1, withQueue q (drawFree s).2) := rfl

end

/-! ### The operations that requests share -/

section
variable (q : List Frame) (s : State)

theorem unlessMounting_withQueue {f : State → State} (hf : QueueBlind f) :
    unlessMounting f (withQueue q s) = withQueue q (unlessMounting f s) := by
  simp [unlessMounting, hf q s]

theorem whenQueueOpen_withQueue {f : State → State} (hf : QueueBlind f) :
    whenQueueOpen f (withQueue q s) = withQueue q (whenQueueOpen f s) := by
  simp [whenQueueOpen, hf q s]

theorem printStep_withQueue {f : State → State} (hf : QueueBlind f) :
    printStep f (withQueue q s) = withQueue q (printStep f s) := by
  simp [printStep, hf q s]

@[simp] theorem enterStore_withQueue (new : StoreState) :
    enterStore new (withQueue q s) = withQueue q (enterStore new s) := by
  simp [enterStore]

@[simp] theorem recheckFull_withQueue : recheckFull (withQueue q s) = withQueue q (recheckFull s) := by
  unfold recheckFull
  cases h : reclaimChoice s.store <;> simp [h, startReclaim]

@[simp] theorem offerSurvey_withQueue : offerSurvey (withQueue q s) = withQueue q (offerSurvey s) := by
  unfold offerSurvey
  cases h : s.survey.place <;> simp [h]

@[simp] theorem handInterval_withQueue : handInterval (withQueue q s) = withQueue q (handInterval s) := by
  unfold handInterval
  rw [nextWaiting_withQueue]
  cases nextWaiting s with
  | none => rfl
  | some w =>
    obtain ⟨site, role, r⟩ := w
    refine ite_eq_withQueue Iff.rfl rfl (ite_eq_withQueue Iff.rfl ?_ ?_) <;> simp

@[simp] theorem handIntervals_withQueue (n : Nat) :
    handIntervals n (withQueue q s) = withQueue q (handIntervals n s) := by
  induction n generalizing s with
  | zero => rfl
  | succ n ih => simp [handIntervals, ih]

@[simp] theorem announcePlace_withQueue : announcePlace (withQueue q s) = withQueue q (announcePlace s) := by
  simp [announcePlace]

@[simp] theorem noCrossingTimeout_withQueue :
    noCrossingTimeout (withQueue q s) = withQueue q (noCrossingTimeout s) := by
  simp [noCrossingTimeout, enterHoldover, postTrack]

@[simp] theorem refreshRotation_withQueue (site : Nat) :
    refreshRotation (withQueue q s) site = withQueue q (refreshRotation s site) := by
  simp [refreshRotation, moveRotation]

@[simp] theorem changePosition_withQueue (m : Option Member) (site role : Nat) :
    changePosition m site role (withQueue q s) = withQueue q (changePosition m site role s) := by
  simp [changePosition]

@[simp] theorem makeSurveyRecord_withQueue :
    makeSurveyRecord (withQueue q s) = withQueue q (makeSurveyRecord s) := by
  simp [makeSurveyRecord]

@[simp] theorem enterSurvey_withQueue (new : SurveyState) (cause : Option HoldCause) (frame : Nat)
    (time : ClockTime) :
    enterSurvey new cause frame time (withQueue q s) = withQueue q (enterSurvey new cause frame time s) := by
  simp [enterSurvey]

/-! ### The requests of the front and of the survey -/

@[simp] theorem podRetry_withQueue (slot : Byte) :
    podRetry slot (withQueue q s) = withQueue q (podRetry slot s) := by
  unfold podRetry
  cases h : (entryOf s slot.toNat).state <;> simp [h]

@[simp] theorem podClear_withQueue (slot : Byte) :
    podClear slot (withQueue q s) = withQueue q (podClear slot s) := by
  simp [podClear]

@[simp] theorem podStatus_withQueue (slot : Byte) :
    podStatus slot (withQueue q s) = withQueue q (podStatus slot s) := by
  simp [podStatus]

@[simp] theorem trackRef_withQueue (slot : Byte) :
    trackRef slot (withQueue q s) = withQueue q (trackRef slot s) := by
  simp [trackRef]

@[simp] theorem trackFixed_withQueue (freq : Word) :
    trackFixed freq (withQueue q s) = withQueue q (trackFixed freq s) := by
  simp [trackFixed, setFixed, postTrack]

@[simp] theorem trackStatus_withQueue (clear : Bool) :
    trackStatus clear (withQueue q s) = withQueue q (trackStatus clear s) := by
  simp [trackStatus, reportTrack]

theorem setClock_withQueue (c : Clock) :
    { withQueue q s with clock := c } = withQueue q { s with clock := c } := rfl

@[simp] theorem clockSet_withQueue (sec : Word) (ms : Half) :
    clockSet sec ms (withQueue q s) = withQueue q (clockSet sec ms s) :=
  unlessMounting_withQueue q s fun q s => by
    simp only [recording_withQueue, refuse_withQueue, withQueue_clock, setClock_withQueue,
      evaluateCalDue_withQueue, answer_withQueue, ite_withQueue]

@[simp] theorem siteSet_withQueue (site : Byte) (c : CarriedSettings) :
    siteSet site c (withQueue q s) = withQueue q (siteSet site c s) :=
  unlessMounting_withQueue q s fun q s => by simp

@[simp] theorem siteGet_withQueue (site : Byte) :
    siteGet site (withQueue q s) = withQueue q (siteGet site s) :=
  unlessMounting_withQueue q s fun q s => by simp

theorem unassign_withQueue (slot : Nat) :
    unassign slot (withQueue q s) = withQueue q (unassign slot s) := by
  unfold unassign
  rw [positionOf_withQueue]
  cases positionOf s slot <;> simp

theorem vacate_withQueue (slot site role : Nat) :
    vacate slot site role (withQueue q s) = withQueue q (vacate slot site role s) := by
  unfold vacate
  rw [positionOf_withQueue]
  cases positionOf s slot <;> simp

theorem place_withQueue (slot site role : Nat) (x : Identity) :
    place slot site role x (withQueue q s) = withQueue q (place slot site role x s) := by
  simp [place, vacate_withQueue, settleIn]

@[simp] theorem assign_withQueue (slot site role : Byte) :
    assign slot site role (withQueue q s) = withQueue q (assign slot site role s) :=
  unlessMounting_withQueue q s fun q s => by
    cases h : (entryOf s slot.toNat).identity <;> simp [h, unassign_withQueue, place_withQueue]

theorem requestStart_withQueue : requestStart (withQueue q s) = withQueue q (requestStart s) := by
  simp [requestStart]

@[simp] theorem surveyStart_withQueue : surveyStart (withQueue q s) = withQueue q (surveyStart s) :=
  unlessMounting_withQueue q s fun q s => by simp [requestStart_withQueue]

@[simp] theorem surveyResume_withQueue : surveyResume (withQueue q s) = withQueue q (surveyResume s) :=
  unlessMounting_withQueue q s fun q s => by simp [requestStart_withQueue]

@[simp] theorem surveyHold_withQueue : surveyHold (withQueue q s) = withQueue q (surveyHold s) :=
  unlessMounting_withQueue q s fun q s =>
    ite_eq_withQueue Iff.rfl (refuse_withQueue _ q s) (ite_eq_withQueue Iff.rfl rfl rfl)

@[simp] theorem surveyEnd_withQueue : surveyEnd (withQueue q s) = withQueue q (surveyEnd s) :=
  unlessMounting_withQueue q s fun q s => by
    rw [withQueue_survey]
    cases s.survey.state with
    | none => simp
    | some v => cases v <;> simp

@[simp] theorem surveyNew_withQueue : surveyNew (withQueue q s) = withQueue q (surveyNew s) :=
  unlessMounting_withQueue q s fun q s => by simp

@[simp] theorem surveyStatus_withQueue : surveyStatus (withQueue q s) = withQueue q (surveyStatus s) :=
  unlessMounting_withQueue q s fun q s => by simp

/-! ### The requests of the engines -/

@[simp] theorem sagStatus_withQueue (site : Byte) :
    sagStatus site (withQueue q s) = withQueue q (sagStatus site s) := by
  simp [sagStatus]

@[simp] theorem captureList_withQueue : captureList (withQueue q s) = withQueue q (captureList s) := by
  simp [captureList]

@[simp] theorem captureRead_withQueue (slot segment member first cycles : Byte) :
    captureRead slot segment member first cycles (withQueue q s) =
      withQueue q (captureRead slot segment member first cycles s) := by
  unfold captureRead
  cases hg : (captureSlot s slot.toNat).segments[segment.toNat]? with
  | none => simp [hg]
  | some g => cases hm : (captureSlot s slot.toNat).members[member.toNat]? <;> simp [hg, hm]

@[simp] theorem captureRelease_withQueue (slot : Byte) (serial : Option Half) :
    captureRelease slot serial (withQueue q s) = withQueue q (captureRelease slot serial s) := by
  unfold captureRelease
  cases h : (captureSlot s slot.toNat).state <;> simp [h]

@[simp] theorem harmonicStatus_withQueue (site : Byte) :
    harmonicStatus site (withQueue q s) = withQueue q (harmonicStatus site s) := by
  simp [harmonicStatus]

@[simp] theorem supplySet_withQueue (low critical : Option Half) (schedule : Option Byte) :
    supplySet low critical schedule (withQueue q s) = withQueue q (supplySet low critical schedule s) := by
  unfold supplySet
  cases schedule with
  | none => simp [setThresholds]
  | some b => cases h : schedule? b.toNat <;> simp [h, setThresholds]

@[simp] theorem supplyStatus_withQueue (clear : Bool) :
    supplyStatus clear (withQueue q s) = withQueue q (supplyStatus clear s) := by
  simp [supplyStatus]

/-! ### The requests of the store and of the notes -/

@[simp] theorem storeMode_withQueue (mode : Byte) :
    storeMode mode (withQueue q s) = withQueue q (storeMode mode s) := by
  unfold storeMode
  cases storeMode? mode.toNat <;> simp

@[simp] theorem storeStatus_withQueue : storeStatus (withQueue q s) = withQueue q (storeStatus s) :=
  answer_withQueue .ok _ q s

@[simp] theorem storeWipe_withQueue : storeWipe (withQueue q s) = withQueue q (storeWipe s) := by
  simp [storeWipe]

@[simp] theorem recordList_withQueue (kind : Byte) (fromId : Word) (count : Byte) :
    recordList kind fromId count (withQueue q s) = withQueue q (recordList kind fromId count s) := by
  unfold recordList
  cases recordKind? kind.toNat <;> simp

@[simp] theorem recordRead_withQueue (kind : Byte) (id : Word) :
    recordRead kind id (withQueue q s) = withQueue q (recordRead kind id s) := by
  unfold recordRead
  cases recordKind? kind.toNat with
  | none => simp
  | some k => cases h : findEntry s.store k id.toNat <;> simp [h, readRecord]

@[simp] theorem removeQueued_withQueue (kind : RecordKind) (id : Nat) :
    removeQueued kind id (withQueue q s) = withQueue q (removeQueued kind id s) := by
  simp [removeQueued]

@[simp] theorem killLive_withQueue (kind : RecordKind) (id : Nat) (e : Entry) :
    killLive kind id e (withQueue q s) = withQueue q (killLive kind id e s) := by
  unfold killLive
  cases e.loc <;> simp

@[simp] theorem unlink_withQueue (e : Entry) : unlink e (withQueue q s) = withQueue q (unlink e s) := by
  unfold unlink
  cases e.links.amends <;> simp

@[simp] theorem dropReplacement_withQueue (id : Nat) :
    dropReplacement id (withQueue q s) = withQueue q (dropReplacement id s) := by
  simp [dropReplacement]

@[simp] theorem deleteNote_withQueue (id : Nat) (e : Entry) :
    deleteNote id e (withQueue q s) = withQueue q (deleteNote id e s) := by
  simp [deleteNote]

@[simp] theorem noteDelete_withQueue (id : Word) :
    noteDelete id (withQueue q s) = withQueue q (noteDelete id s) := by
  unfold noteDelete
  cases h : noteEntry s.store id.toNat <;> simp [h]

@[simp] theorem recordDelete_withQueue (kind : Byte) (id : Word) :
    recordDelete kind id (withQueue q s) = withQueue q (recordDelete kind id s) := by
  unfold recordDelete
  cases recordKind? kind.toNat with
  | none => simp
  | some k => cases h : findEntry s.store k id.toNat <;> simp [h, deleteRecord]

@[simp] theorem acceptNote_withQueue (site : Option Nat) (attach : Option Attach) (crew text : List Byte) :
    acceptNote site attach crew text (withQueue q s) = withQueue q (acceptNote site attach crew text s) :=
  whenQueueOpen_withQueue q s fun q s => by simp

@[simp] theorem addAttached_withQueue (site : Option Nat) (a : Attach) (crew text : List Byte) :
    addAttached site a crew text (withQueue q s) = withQueue q (addAttached site a crew text s) := by
  unfold addAttached
  cases h : findEntry s.store a.kind a.id <;> simp [h]

@[simp] theorem noteAdd_withQueue (site kind : Byte) (id : Word) (crew : Crew) (text : List Byte) :
    noteAdd site kind id crew text (withQueue q s) = withQueue q (noteAdd site kind id crew text s) := by
  unfold noteAdd
  cases addFields site kind crew text with
  | none => simp
  | some x =>
    obtain ⟨site, kind, letters⟩ := x
    cases kind <;> simp

theorem amend_withQueue (id : Nat) (e : Entry) (crew text : List Byte) :
    amend id e crew text (withQueue q s) = withQueue q (amend id e crew text s) := by
  simp [amend]

@[simp] theorem noteAmend_withQueue (id : Word) (crew : Crew) (text : List Byte) :
    noteAmend id crew text (withQueue q s) = withQueue q (noteAmend id crew text s) := by
  unfold noteAmend
  cases crewLetters crew with
  | none => simp
  | some letters =>
    cases h : noteEntry s.store id.toNat with
    | none => simp [h]
    | some e =>
      have open_ := whenQueueOpen_withQueue q s fun q s => amend_withQueue q s id.toNat e letters text
      simp [h, open_]

@[simp] theorem attach_withQueue (id : Nat) (e : Entry) (a : Attach) (r : NoteRecord) :
    attach id e a r (withQueue q s) = withQueue q (attach id e a r s) := by
  unfold attach
  refine ite_eq_withQueue Iff.rfl ?_ (whenQueueOpen_withQueue q s fun q s => ?_) <;> simp

@[simp] theorem attachTo_withQueue (id : Nat) (e : Entry) (a : Attach) :
    attachTo id e a (withQueue q s) = withQueue q (attachTo id e a s) := by
  unfold attachTo
  cases h : findEntry s.store a.kind a.id with
  | none => simp [h]
  | some target => cases hr : noteContent s.store e <;> simp [h, hr]

@[simp] theorem noteAttach_withQueue (id : Word) (kind : Byte) (target : Word) :
    noteAttach id kind target (withQueue q s) = withQueue q (noteAttach id kind target s) := by
  unfold noteAttach
  cases attachKind? kind.toNat with
  | none => simp
  | some k => cases h : noteEntry s.store id.toNat <;> simp [h]

@[simp] theorem noteLock_withQueue (upto : Word) :
    noteLock upto (withQueue q s) = withQueue q (noteLock upto s) := by
  have open_ := whenQueueOpen_withQueue q s (f := fun s =>
    let mark := Nat.min upto.toNat (lastNoteId s.store)
    let clamped := mark != upto.toNat
    if mark = s.store.lockMark then
      answer (if clamped then .okClamped else .ok) (if clamped then .lockMark mark else .empty) s
    else queueLock mark clamped s) fun q s =>
      ite_eq_withQueue Iff.rfl (answer_withQueue _ _ q s) (queueLock_withQueue q s _ _)
  unfold noteLock
  dsimp only at open_ ⊢
  rw [open_]
  simp

@[simp] theorem noteList_withQueue (fromId : Word) (count : Byte) :
    noteList fromId count (withQueue q s) = withQueue q (noteList fromId count s) := by
  simp [noteList]

/-! ### The requests of the print engine -/

@[simp] theorem lineBoundary_withQueue : lineBoundary (withQueue q s) = withQueue q (lineBoundary s) := by
  unfold lineBoundary
  refine ite_eq_withQueue Iff.rfl rfl ?_
  rw [withQueue_print]
  cases s.print.inHand with
  | some x => rfl
  | none =>
    cases s.print.buffer with
    | cons x rest => rfl
    | nil => cases activeJob s.print <;> simp

@[simp] theorem renderAndTake_withQueue :
    renderAndTake (withQueue q s) = withQueue q (renderAndTake s) :=
  ite_eq_withQueue Iff.rfl (lineBoundary_withQueue q (render s)) rfl

@[simp] theorem releaseSection_withQueue (x : JobSection) :
    releaseSection (withQueue q s) x = withQueue q (releaseSection s x) := by
  unfold releaseSection
  rw [foldl_withQueue unpinRecord fun p q s => by simp [unpinRecord]]
  cases x.capturePin <;> simp

@[simp] theorem takeSection_withQueue (x : JobSection) :
    takeSection (withQueue q s) x = withQueue q (takeSection s x) := by
  unfold takeSection
  rw [foldl_withQueue (fun s p => pinRecord p s) fun p q s => rfl]
  cases x.capturePin <;> simp

@[simp] theorem releaseJob_withQueue (j : Job) :
    releaseJob j (withQueue q s) = withQueue q (releaseJob j s) :=
  foldl_withQueue releaseSection (fun x q s => releaseSection_withQueue q s x) _ q s

@[simp] theorem postPrint_withQueue (job : Option Nat) (phase : Option (Option JobPhase)) :
    postPrint job phase (withQueue q s) = withQueue q (postPrint job phase s) := by
  simp [postPrint]

@[simp] theorem startNext_withQueue : startNext (withQueue q s) = withQueue q (startNext s) := by
  unfold startNext
  rw [withQueue_print]
  cases s.print.ring with
  | nil => rfl
  | cons j rest => exact ite_eq_withQueue Iff.rfl (by simp) rfl

@[simp] theorem makeDone_withQueue (j : Job) :
    makeDone j (withQueue q s) = withQueue q (makeDone j s) := by
  simp [makeDone]

theorem acceptJob_withQueue (copies : Nat) (xs : List Section) :
    acceptJob copies xs (withQueue q s) = withQueue q (acceptJob copies xs s) := by
  have taken (ys : List JobSection) := foldl_withQueue takeSection
    (fun x q s => takeSection_withQueue q s x) ys q s
  simp [acceptJob, taken]

@[simp] theorem printSubmit_withQueue (copies : Byte) (xs : List Section) :
    printSubmit copies xs (withQueue q s) = withQueue q (printSubmit copies xs s) := by
  unfold printSubmit
  rw [submitFault_withQueue]
  cases submitFault copies xs s with
  | some f => simp
  | none => exact printStep_withQueue q s fun q s => acceptJob_withQueue q s _ xs

@[simp] theorem printCancel_withQueue (job : Half) :
    printCancel job (withQueue q s) = withQueue q (printCancel job s) := by
  unfold printCancel
  dsimp only [withQueue_print]
  cases s.print.ring.find? fun j => j.id == job.toNat with
  | none => exact refuse_withQueue _ q s
  | some j =>
    dsimp only
    split
    · exact ite_eq_withQueue Iff.rfl (printStep_withQueue q s fun q s => by simp) (refuse_withQueue _ q s)
    · exact printStep_withQueue q s fun q s => by simp
    · exact answer_withQueue _ _ q s
    · exact refuse_withQueue _ q s

@[simp] theorem printResume_withQueue : printResume (withQueue q s) = withQueue q (printResume s) := by
  unfold printResume
  refine ite_eq_withQueue Iff.rfl (printStep_withQueue q s fun q s => ?_) ?_ <;> simp

theorem doneFreed_withQueue : doneFreed (withQueue q s) = withQueue q (doneFreed s) := by
  unfold doneFreed
  cases h : activeJob s.print <;> simp [h]

@[simp] theorem printDoneRead_withQueue : printDoneRead (withQueue q s) = withQueue q (printDoneRead s) := by
  unfold printDoneRead
  rw [withQueue_print]
  cases s.print.done with
  | nil => exact refuse_withQueue _ q s
  | cons e rest => exact printStep_withQueue q s fun q s => by simp [doneFreed_withQueue]

@[simp] theorem printStatus_withQueue : printStatus (withQueue q s) = withQueue q (printStatus s) := by
  simp [printStatus]

/-! ### The requests of the link, and every request -/

@[simp] theorem noticeMask_withQueue (mask : Half) :
    noticeMask mask (withQueue q s) = withQueue q (noticeMask mask s) := by
  unfold noticeMask
  split
  · exact refuse_withQueue _ q s
  · exact answer_withQueue .ok (.mask mask) q (setLink (fun l => { l with mask := mask }) s)

theorem replyKept_queue (st : Status) (l : Link) :
    Link.replyKept st { l with queue := q } = { Link.replyKept st l with queue := q } := by
  unfold Link.replyKept
  cases hc : l.current with
  | none => simp only [hc]
  | some c =>
    exact startTransmit_queue q { l with current := some c, reply := some ⟨replyKind c.kind, c.tag, st, .empty⟩ }

@[simp] theorem linkReset_withQueue (domains : Byte) :
    linkReset domains (withQueue q s) = withQueue q (linkReset domains s) := by
  unfold linkReset
  cases domains? domains with
  | none => exact refuse_withQueue _ q s
  | some d =>
    exact congrArg (fun l : Link => { s with link := l }) (replyKept_queue q .ok { s.link with
      cause := .link, domains := d, resets := satInc 65535 s.link.resets, owed := some ⟨d, false⟩ })

/-- A request is served alike whatever waits behind it. -/
theorem serve_withQueue (r : Request) : serve r (withQueue q s) = withQueue q (serve r s) := by
  cases r with
  | podRoster => exact answer_withQueue _ _ q s
  | identify => exact answer_withQueue _ _ q s
  | _ => simp [serve]

end

end Sys2Proof.Machine
end

