-- ==== Sys2Proof/Proofs/Transmitter.lean ====
section
/-!
PROOFS. The transmitter and the receive queue (R177, R179 to R181): O14. What an idle transmitter takes, that
a frame which is taken occupies the link until its reply has left, and that a frame waits only while the link
is occupied.
-/

namespace Sys2Proof.Machine

/-! ### What the transmitter takes -/

theorem transmitDone_sending {l : Link} {f : OutFrame} (h : l.sending = some f) :
    l.transmitDone = { l with
      sending := none
      owed := l.owed.map fun o : OwedReset => ⟨o.domains, o.replySent || resetReplied f l⟩ }.startTransmit := by
  rw [Link.transmitDone, h]

section
variable {l : Link}

/-- A due NOTICE reset keeps the transmitter idle (R181). -/
theorem startTransmit_due (due : l.noticeResetDue = true) : l.startTransmit = l := by
  rw [Link.startTransmit, due, Bool.or_true, if_pos rfl]

variable (idle : l.sending = none) (due : l.noticeResetDue = false)
include idle due

theorem startTransmit_reply {w : Reply} (h : l.reply = some w) :
    l.startTransmit = { l with sending := some (.reply w), reply := none } := by
  rw [Link.startTransmit, idle, due, if_neg (by decide), h]

theorem startTransmit_notice {n : Notice} {rest : List Notice} (h : l.reply = none)
    (hn : l.notices = n :: rest) :
    l.startTransmit = { l with
      sending := some (.notice (l.seq % 256) l.lost n), notices := rest, lost := 0, seq := l.seq + 1 } := by
  rw [Link.startTransmit, idle, due, if_neg (by decide), h, hn]

theorem startTransmit_nothing (h : l.reply = none) (hn : l.notices = []) : l.startTransmit = l := by
  rw [Link.startTransmit, idle, due, if_neg (by decide), h, hn]

end

/-- While no RESET is in progress nothing is owed when a frame has left. -/
theorem transmitDone_unowed {l : Link} (h : l.sending.isSome = true) (owed : l.owed = none) :
    l.transmitDone = { l with sending := none }.startTransmit := by
  obtain ⟨f, hf⟩ := Option.isSome_iff_exists.1 h
  rw [transmitDone_sending hf, owed]
  obtain ⟨⟩ := l
  cases owed
  rfl

theorem exec_transmitDone {s : State} (held : s.held = false) :
    exec .transmitDone s = .next (pump { s with link := s.link.transmitDone }) := by
  rw [exec_event rfl, event_next, if_neg (by rw [held]; decide)]
  rfl

/-- While a RESET is in progress no frame is taken as one has left. -/
theorem exec_transmitDone_owed {s : State} {l : Link} {o : OwedReset} (held : s.held = false)
    (h : s.link.transmitDone = l) (owed : l.owed = some o) :
    exec .transmitDone s = .next { s with link := l } := by
  rw [exec_transmitDone held, h]
  refine congrArg _ (pump_busy _ ?_)
  simp [linkFree, owed]

/-! ### A taken frame occupies the link -/

/-- A request is in progress or its reply waits. -/
def Occupied (l : Link) : Prop := l.current.isSome = true ∨ l.reply.isSome = true

theorem Occupied.linkFree {l : Link} (h : Occupied l) : linkFree l = false := by
  obtain h | h := h
  · exact linkFree_of_current l h
  · obtain ⟨w, hw⟩ := Option.isSome_iff_exists.1 h
    rw [Machine.linkFree, hw, Option.isNone_some, Bool.and_false, Bool.false_and]

theorem offerNotice_occupied (n : Notice) {l : Link} (h : Sends l) (k : Occupied l) :
    Occupied (l.offerNotice n) := by
  unfold Link.offerNotice
  split
  · exact k
  · split
    · rw [startTransmit_of_sends (l := { l with notices := l.notices ++ [n] }) h.busy]
      exact k
    · exact k

theorem linkAnswer_occupied (st : Status) (b : ReplyBody) {l : Link} (h : Sends l) (k : Occupied l) :
    Occupied (l.answer st b) := by
  unfold Link.answer
  split
  · rw [startTransmit_of_sends (by exact h.busy)]
    exact .inr rfl
  · exact k

theorem Moves.occupied {P : Part → Prop} {s t : State} (m : Moves P s t) (h : Sends s.link)
    (k : Occupied s.link) : Occupied t.link := by
  induction m with
  | refl s => exact k
  | same e => rwa [e.link]
  | post b s => rw [post_unowed b s h.unowed]; exact offerNotice_occupied _ h k
  | answer st b s => exact linkAnswer_occupied st b h k
  | clamp c s => exact k.imp_left fun hc => by rwa [← Option.isSome_map] at hc
  | domain f s =>
    have same : (takeDomain f s).link = s.link := by
      change (s.link.setDomains f).settle = _
      rw [setDomains_unowed f h.unowed, settle_unowed h.unowed]
    rwa [same]
  | notice s =>
    have same : (noticeReset s).link = s.link := noticeReset_unowed _ h.unowed
    rwa [same]
  | trans first _ one two => exact two ((first.appends h).sends h) (one h k)

theorem replied_occupied (kind : Nat) (tag : Byte) (st : Status) (b : ReplyBody) {s : State}
    (h : s.link.sending.isSome = true) : Occupied (replied kind tag st b s).link := by
  rw [replied, startTransmit_sending { s.link with reply := some ⟨kind, tag, st, b⟩ } h]
  exact .inr rfl

/-- A request that is served while the transmitter sends keeps the link from being free: it is in progress,
or its reply waits, or it is a RESET. -/
theorem serve_occupies (r : Request) (kind : Nat) (tag : Byte) (s : State) (h : Sends s.link) :
    linkFree (serve r (waiting kind tag s)).link = false := by
  have sends : Sends (waiting kind tag s).link := ⟨h.busy, h.unowed⟩
  have taken : Occupied (waiting kind tag s).link := .inl rfl
  by_cases hr : ∃ d, r = .reset d
  · obtain ⟨d, rfl⟩ := hr
    change linkFree (linkReset d _).link = false
    unfold linkReset
    split
    · exact (linkAnswer_occupied _ _ sends taken).linkFree
    · next d _ =>
      have owed : (acceptReset d (waiting kind tag s)).link.owed = some ⟨d, false⟩ :=
        (startTransmit_owed _).1
      simp [linkFree, owed]
  · by_cases hm : ∃ m, r = .noticeMask m
    · obtain ⟨m, rfl⟩ := hm
      change linkFree (noticeMask m _).link = false
      unfold noticeMask
      split
      · exact (linkAnswer_occupied _ _ sends taken).linkFree
      · exact (linkAnswer_occupied (l := { (waiting kind tag s).link with mask := m }) _ _
          ⟨sends.busy, sends.unowed⟩ taken).linkFree
    · have moved := serve_moves (P := anyPart) r (waiting kind tag s) (fun d e => hr ⟨d, e⟩)
        (fun m e => hm ⟨m, e⟩) trivial trivial trivial trivial trivial trivial trivial trivial trivial
        trivial trivial trivial trivial
      exact (moved.occupied sends taken).linkFree

theorem pumpFrom_busy (n : Nat) (s : State) (h : linkFree s.link = false) : pumpFrom n s = s := by
  cases n with
  | zero => rfl
  | succ n =>
    unfold pumpFrom
    split
    · rfl
    · rw [h]; rfl

/-- The oldest waiting frame is taken on a free link, and no other while it occupies the link. -/
theorem pump_one {f : Frame} {rest : List Frame} {s : State} (hq : s.link.queue = f :: rest)
    (free : linkFree s.link = true)
    (busy : linkFree (takeFrame f (withQueue rest s)).link = false) :
    pump s = takeFrame f (withQueue rest s) := by
  unfold pump Config.receivePlaces pumpFrom
  rw [hq]
  dsimp only
  rw [if_pos free]
  exact pumpFrom_busy _ _ busy

/-! ### A frame waits only while the link is not free -/

/-- A frame waits only while the link is not free. -/
def WaitsBusy (s : State) : Prop :=
  s.link.queue = [] ∨ (s.link.current.isSome || s.link.reply.isSome || s.link.owed.isSome) = true

theorem waitsBusy_iff (s : State) : WaitsBusy s ↔ s.link.queue = [] ∨ linkFree s.link = false := by
  unfold WaitsBusy linkFree
  cases s.link.current <;> cases s.link.reply <;> cases s.link.owed <;> simp

theorem WaitsBusy.of_link {s t : State} (h : WaitsBusy s) (e : t.link = s.link) : WaitsBusy t := by
  unfold WaitsBusy
  rwa [e]

theorem pumpFrom_waitsBusy (n : Nat) (s : State) (h : s.link.queue.length ≤ n) : WaitsBusy (pumpFrom n s) := by
  induction n generalizing s with
  | zero => exact .inl (List.eq_nil_of_length_eq_zero (Nat.le_zero.1 h))
  | succ n ih =>
    unfold pumpFrom
    split
    · next empty => exact .inl empty
    · next f rest hq =>
      split
      · refine ih _ ?_
        rw [takeFrame_queue]
        rw [hq] at h
        exact Nat.le_of_succ_le_succ h
      · next busy => exact (waitsBusy_iff _).2 (.inr (Bool.eq_false_iff.2 busy))

theorem pump_waitsBusy {s : State} (h : LinkBounded s) : WaitsBusy (pump s) := pumpFrom_waitsBusy _ s h.1

theorem offerFrame_waitsBusy (f : Frame) {s : State} (h : WaitsBusy s) : WaitsBusy (offerFrame f s) := by
  unfold offerFrame
  split
  · next room =>
    refine pumpFrom_waitsBusy _ _ ?_
    change (s.link.queue ++ [f]).length ≤ _
    rw [List.length_append]
    exact room
  · exact h

theorem arrive_waitsBusy (tag : Byte) (r : Request) {s : State} (h : WaitsBusy s) :
    WaitsBusy (arrive tag r s) := by
  unfold arrive
  split
  · next free =>
    have empty : s.link.queue = [] := List.isEmpty_iff.1 ((Bool.and_eq_true _ _).mp free).2
    refine pumpFrom_waitsBusy _ _ ?_
    rw [(serve_link r _).2.1]
    change s.link.queue.length ≤ _
    rw [empty]
    exact Nat.zero_le _
  · exact offerFrame_waitsBusy _ h

theorem takeMidnight_link (s : State) : (takeMidnight s).link = s.link := by
  unfold takeMidnight
  split <;> rfl

theorem clockEffect_link {c : Instr} {f : State → State} (h : clockEffect c = some f) (s : State) :
    (f s).link = s.link := by
  cases c <;> cases h
  case clockMidnight => exact takeMidnight_link s
  case clockTick => exact takeMidnight_link s
  case clockWrap =>
    unfold clockWrap
    split
    · exact takeMidnight_link s
    · rfl

theorem hardwareReset_waitsBusy (source : ResetSource) (straps : Straps) (backup : Bool) {s : State}
    (h : WaitsBusy s) : WaitsBusy (hardwareReset source straps backup s) := by
  obtain e | ⟨_, _, _, b, time, hlink⟩ := hardwareReset_cases source straps backup s
  · rwa [e]
  · exact .inl (congrArg Link.queue hlink)

theorem exec_waitsBusy (c : Instr) {s t : State} (bounded : LinkBounded s) (h : WaitsBusy s)
    (ht : exec c s = .next t) : WaitsBusy t := by
  cases form c with
  | event hf =>
    rw [exec_event hf, event_next] at ht
    cases ht
    split
    · exact h
    · exact pump_waitsBusy ((event_effects hf s).linkBounded bounded)
  | clock hf =>
    rw [exec_clock hf] at ht
    cases ht
    exact h.of_link (clockEffect_link hf s)
  | request tag r =>
    rw [exec_command, running_next] at ht
    cases ht
    split
    · exact h
    · exact arrive_waitsBusy tag r h
  | paper present =>
    change (if s.held then _ else event (paperChange present) s) = _ at ht
    split at ht
    · cases ht
      exact h
    · rw [event_next] at ht
      cases ht
      split
      · exact h
      · have any : True := trivial
        exact pump_waitsBusy ((Effects.moves (paperChange_moves present s)).linkBounded bounded)
  | brownout =>
    rw [exec_brownout] at ht
    cases ht
    split
    · exact h
    · exact .inl rfl
  | hardwareReset source straps backup =>
    cases ht
    exact hardwareReset_waitsBusy source straps backup h

/-! ### O14 -/

/-- Settles O14. -/
theorem transmitterTakesTheNextFrame : Obligations.TransmitterTakesTheNextFrame := by
  unfold Obligations.TransmitterTakesTheNextFrame
  refine ⟨?unowed, ?resetting, ?freed, fun c s t bounded busy h => exec_waitsBusy c bounded busy h⟩
  case unowed =>
    intro s ⟨held, empty⟩ sending owed
    have idle : ∀ m : Link, m.queue = [] → ({ s.link with sending := none } : Link).startTransmit = m →
        exec .transmitDone s = .next { s with link := m } := by
      rintro m hm rfl
      rw [exec_transmitDone held, transmitDone_unowed sending owed, pump_of_empty _ hm]
    have due : ({ s.link with sending := none } : Link).noticeResetDue = false := by
      simp [Link.noticeResetDue, owed]
    exact ⟨fun r hr => idle _ empty (startTransmit_reply rfl due hr),
      fun n rest hr hn => idle _ empty (startTransmit_notice rfl due hr hn),
      fun hr hn => idle _ empty (startTransmit_nothing rfl due hr hn)⟩
  case resetting =>
    intro d s held sending
    obtain ⟨g, hg⟩ := Option.isSome_iff_exists.1 sending
    refine ⟨fun w hr owed => ?reply, fun sent hr owed left => ?left⟩
    case reply =>
      have kept : s.link.transmitDone = { s.link with sending := some (.reply w), reply := none } := by
        have waits : resetReplied g s.link = false := by cases g <;> simp [resetReplied, hr]
        rw [transmitDone_sending hg, owed, Option.map_some, waits]
        refine (startTransmit_reply (l := { s.link with sending := none, owed := some ⟨d, false⟩ }) rfl rfl
          hr).trans ?_
        rw [← owed]
      exact exec_transmitDone_owed held kept owed
    case left =>
      have owes : s.link.transmitDone =
          ({ s.link with sending := none, owed := some ⟨d, true⟩ } : Link).startTransmit := by
        have told : (sent || resetReplied g s.link) = true := by
          obtain rfl | ⟨w, hw⟩ := left
          · rfl
          · cases hg.symm.trans hw
            simp [resetReplied, hr]
        rw [transmitDone_sending hg, owed, Option.map_some, told]
      refine ⟨fun none_ => ?_, fun n rest keeps hn => ?_⟩
      · refine exec_transmitDone_owed held (owes.trans ?_) rfl
        cases due : d.notice with
        | true => exact startTransmit_due due
        | false => exact startTransmit_nothing rfl due hr (none_.resolve_left (by rw [due]; decide))
      · exact exec_transmitDone_owed held (owes.trans (startTransmit_notice
          (l := { s.link with sending := none, owed := some ⟨d, true⟩ }) rfl keeps hr hn)) rfl
  case freed =>
    intro f rest w s held sending hr current owed hq u
    have sends : Sends u.link := ⟨rfl, owed⟩
    have left : s.link.transmitDone = { s.link with sending := some (.reply w), reply := none } := by
      have due : ({ s.link with sending := none } : Link).noticeResetDue = false := by
        simp [Link.noticeResetDue, owed]
      rw [transmitDone_unowed sending owed]
      exact startTransmit_reply rfl due hr
    have taken : linkFree (takeFrame f u).link = false →
        exec .transmitDone s = .next (takeFrame f u) := fun busy => by
      rw [exec_transmitDone held, left]
      refine congrArg _ (pump_one (rest := rest) hq ?_ busy)
      simp [linkFree, current, owed]
    have refused : ∀ st, takeFrame f u = replied (replyKind f.kind) f.tag st .empty u →
        exec .transmitDone s = .next (replied (replyKind f.kind) f.tag st .empty u) := fun st e => by
      rw [taken (by rw [e]; exact (replied_occupied _ _ _ _ sends.busy).linkFree), e]
    refine ⟨fun unknown => ?_, fun h1 h2 badLength => ?_, fun r wf kind payload => ?_⟩
    · exact refused _ (takeFrame_unknown u (decodeRequest_unknown _ _ unknown) current)
    · have read := takeFrame_badLength u ((decodeRequest_reads f.kind f.payload h1 h2).1 badLength) current
      have top : replyKind f.kind = f.kind + 128 := if_pos (by omega)
      rw [← top]
      exact refused _ read
    · have read : decodeRequest f.kind f.payload = .ok r := by
        rw [kind, payload]
        exact requestPayloadsRoundTrip r wf
      have served : takeFrame f u = withQueue rest (serve r (waiting (requestCode r) f.tag (withQueue [] u))) := by
        rw [takeFrame_request u read, kind, ← serve_withQueue]
        rfl
      refine ⟨serve r (waiting (requestCode r) f.tag (withQueue [] u)), ?_, ?_⟩
      · rw [exec_command]
        exact request_ready f.tag r _ ⟨⟨held, rfl⟩, current, rfl, owed⟩
      · rw [taken, served]
        · rfl
        · rw [takeFrame_request u read]
          exact serve_occupies r _ _ u sends

end Sys2Proof.Machine
end

