-- ==== Sys2Proof/Proofs/InvolvedLists.lean ====
section
/-!
PROOFS. The involved list of an open event at a boundary (R70, R75), entry by entry, and the flags that the
boundary gives it (R73, R74).
-/

namespace Sys2Proof.Machine

theorem roleOf_code (r : Role) : roleOf r.code = r := by cases r <;> rfl

theorem code_roleOf {n : Nat} (h : n < 8) : (roleOf n).code = n := by
  interval_cases n <;> rfl

theorem code_injective {r r' : Role} (h : r.code = r'.code) : r = r' := by
  rw [← roleOf_code r, h, roleOf_code]

/-! ### One move -/

/-- The entries of one role. -/
def entriesOf (role : Role) (xs : List Involved) : List Involved := xs.filter fun i => i.role = role

theorem mem_entriesOf {role : Role} {xs : List Involved} {i : Involved} :
    i ∈ entriesOf role xs ↔ i ∈ xs ∧ i.role = role := by
  rw [entriesOf, List.mem_filter, decide_eq_true_iff]

theorem entriesOf_map {f : Involved → Involved} (hf : ∀ i, (f i).role = i.role) (role : Role)
    (xs : List Involved) : entriesOf role (xs.map f) = (entriesOf role xs).map f := by
  unfold entriesOf
  rw [List.filter_map]
  refine congrArg (List.map f) (List.filter_congr fun i _ => ?_)
  exact congrArg (fun r => decide (r = role)) (hf i)

/-- The involved list after one channel's move at boundary `b`. -/
def movedList (s : State) (site b : Nat) (xs : List Involved) (x : Role × Move) : List Involved :=
  match x.2 with
  | .still => xs
  | .sagged _ => joinInvolved s site x.1 xs
  | .recovered recovery minR half => finishInvolved x.1 recovery minR half xs
  | .lost minR half => finishInvolved x.1 b minR half xs

/-- A move that ends a sag for the loss of its pod (R75). -/
def Move.isLost : Move → Bool
  | .lost .. => true
  | _ => false

theorem takeMove_eq (s : State) (site b : Nat) (e : OpenEvent) (x : Role × Move) :
    takeMove s site b e x =
      { e with
        involved := movedList s site b e.involved x
        flags := { e.flags with probeLost := e.flags.probeLost || x.2.isLost } } := by
  obtain ⟨role, move⟩ := x
  cases move <;> simp [takeMove, movedList, Move.isLost]

theorem takeMoves_eq (s : State) (site b : Nat) (moves : List (Role × Move)) : ∀ e : OpenEvent,
    moves.foldl (takeMove s site b) e =
      { e with
        involved := moves.foldl (movedList s site b) e.involved
        flags := { e.flags with probeLost := e.flags.probeLost || moves.any fun x => x.2.isLost } } := by
  induction moves with
  | nil => exact fun e => by simp
  | cons x moves ih =>
    intro e
    rw [List.foldl_cons, ih, takeMove_eq, List.foldl_cons, List.any_cons, Bool.or_assoc]

section
variable {s : State} {site b : Nat} {xs : List Involved}

theorem entriesOf_insertBy_other {role : Role} {x : Involved} (h : x.role ≠ role) :
    ∀ ys, entriesOf role (insertBy (fun i => i.role.code) x ys) = entriesOf role ys
  | [] => List.filter_cons_of_neg (by simpa using h)
  | y :: ys => by
    unfold insertBy
    split
    · exact List.filter_cons_of_neg (by simpa using h)
    · unfold entriesOf
      rw [List.filter_cons, List.filter_cons]
      exact if_congr Iff.rfl (congrArg (y :: ·) (entriesOf_insertBy_other h ys)) (entriesOf_insertBy_other h ys)

theorem entriesOf_finish_other {role r : Role} {recovery minR half : Nat} (h : r ≠ role) :
    entriesOf role (finishInvolved r recovery minR half xs) = entriesOf role xs := by
  unfold finishInvolved
  rw [entriesOf_map (fun i => by split <;> rfl)]
  refine (List.map_congr_left fun i hi => ?_).trans (List.map_id _)
  exact if_neg fun e => h (e.symm.trans (mem_entriesOf.1 hi).2)

/-- A channel's move leaves the entries of the other channels. -/
theorem entriesOf_moved_other {role : Role} {x : Role × Move} (h : x.1 ≠ role) :
    entriesOf role (movedList s site b xs x) = entriesOf role xs := by
  unfold movedList
  split
  · rfl
  · unfold joinInvolved
    split
    · rw [entriesOf_map (fun i => by split <;> rfl)]
      refine (List.map_congr_left fun i hi => ?_).trans (List.map_id _)
      exact if_neg fun e => h (e.symm.trans (mem_entriesOf.1 hi).2)
    · exact entriesOf_insertBy_other h xs
  · exact entriesOf_finish_other h
  · exact entriesOf_finish_other h

/-- R70: the entries of a channel that reached SAG. -/
theorem entriesOf_joined (role : Role) : entriesOf role (joinInvolved s site role xs) =
    if entriesOf role xs = [] then [newInvolved s site role]
    else (entriesOf role xs).map fun i => { i with holding := true } := by
  have listed : (xs.any fun e => e.role == role) = true ↔ entriesOf role xs ≠ [] := by
    rw [List.any_eq_true, entriesOf, Ne, List.filter_eq_nil_iff]
    push Not
    exact exists_congr fun i => and_congr_right fun _ => by rw [beq_iff_eq, decide_eq_true_iff]
  unfold joinInvolved
  by_cases new : entriesOf role xs = []
  · rw [if_pos new, if_neg (mt listed.1 (not_not.2 new))]
    have perm := (insertBy_perm (fun i : Involved => i.role.code) (newInvolved s site role) xs).filter
      fun i => i.role = role
    rw [List.filter_cons_of_pos (by simp [newInvolved])] at perm
    change (entriesOf role _).Perm (_ :: entriesOf role xs) at perm
    rw [new] at perm
    exact List.perm_singleton.1 perm
  · rw [if_neg new, if_pos (listed.2 new), entriesOf_map (fun i => by split <;> rfl)]
    exact List.map_congr_left fun i hi => if_pos (mem_entriesOf.1 hi).2

theorem entriesOf_finished (role : Role) (recovery minR half : Nat) :
    entriesOf role (finishInvolved role recovery minR half xs) =
      (entriesOf role xs).map fun i => i.finish recovery minR half := by
  unfold finishInvolved
  rw [entriesOf_map (fun i => by split <;> rfl)]
  exact List.map_congr_left fun i hi => if_pos (mem_entriesOf.1 hi).2

theorem pairwise_map_role {f : Involved → Involved} (hf : ∀ i, (f i).role = i.role)
    (h : xs.Pairwise fun i j => i.role.code < j.role.code) :
    (xs.map f).Pairwise fun i j => i.role.code < j.role.code :=
  List.pairwise_map.2 (h.imp fun {i j} k => by rw [hf, hf]; exact k)

theorem pairwise_insertBy {x : Involved} (new : ∀ i ∈ xs, i.role ≠ x.role)
    (h : xs.Pairwise fun i j => i.role.code < j.role.code) :
    (insertBy (fun i : Involved => i.role.code) x xs).Pairwise fun i j => i.role.code < j.role.code := by
  induction xs with
  | nil => exact List.pairwise_singleton _ _
  | cons y ys ih =>
    obtain ⟨first, rest⟩ := List.pairwise_cons.1 h
    unfold insertBy
    split
    · next before =>
      refine List.pairwise_cons.2 ⟨fun z hz => ?_, h⟩
      rcases List.mem_cons.1 hz with rfl | hz
      · exact before
      · exact before.trans (first z hz)
    · next after =>
      refine List.pairwise_cons.2 ⟨fun z hz => ?_, ih (fun i hi => new i (List.mem_cons_of_mem _ hi)) rest⟩
      rcases List.mem_cons.1 ((insertBy_perm _ x ys).mem_iff.1 hz) with rfl | hz
      · exact lt_of_le_of_ne (Nat.le_of_not_lt after) fun e => new y List.mem_cons_self (code_injective e)
      · exact first z hz

/-- The list stays in role order. -/
theorem movedList_ordered {x : Role × Move} (h : xs.Pairwise fun i j => i.role.code < j.role.code) :
    (movedList s site b xs x).Pairwise fun i j => i.role.code < j.role.code := by
  unfold movedList
  split
  · exact h
  · unfold joinInvolved
    split
    · exact pairwise_map_role (fun i => by split <;> rfl) h
    · next absent =>
      refine pairwise_insertBy (fun i hi same => absent ?_) h
      exact List.any_eq_true.2 ⟨i, hi, beq_iff_eq.2 same⟩
  · exact pairwise_map_role (fun i => by split <;> rfl) h
  · exact pairwise_map_role (fun i => by split <;> rfl) h

theorem movedLists_ordered (moves : List (Role × Move)) : ∀ xs : List Involved,
    xs.Pairwise (fun i j => i.role.code < j.role.code) →
    (moves.foldl (movedList s site b) xs).Pairwise fun i j => i.role.code < j.role.code := by
  induction moves with
  | nil => exact fun _ h => h
  | cons x moves ih => exact fun xs h => ih _ (movedList_ordered h)

/-! ### All the moves -/

theorem entriesOf_moves_other {role : Role} (moves : List (Role × Move)) : ∀ xs : List Involved,
    (∀ x ∈ moves, x.1 ≠ role) → entriesOf role (moves.foldl (movedList s site b) xs) = entriesOf role xs := by
  induction moves with
  | nil => exact fun _ _ => rfl
  | cons x moves ih =>
    intro xs h
    exact (ih _ fun y hy => h y (List.mem_cons_of_mem _ hy)).trans (entriesOf_moved_other (h x List.mem_cons_self))

theorem entriesOf_moved_congr {x : Role × Move} {xs ys : List Involved} (h : entriesOf x.1 xs = entriesOf x.1 ys) :
    entriesOf x.1 (movedList s site b xs x) = entriesOf x.1 (movedList s site b ys x) := by
  unfold movedList
  split
  · exact h
  · rw [entriesOf_joined, entriesOf_joined, h]
  · rw [entriesOf_finished, entriesOf_finished, h]
  · rw [entriesOf_finished, entriesOf_finished, h]

/-- The entries of a channel that moves are those that its own move leaves. -/
theorem entriesOf_moves (moves : List (Role × Move)) : ∀ xs : List Involved, (moves.map (·.1)).Nodup →
    ∀ x ∈ moves, entriesOf x.1 (moves.foldl (movedList s site b) xs) = entriesOf x.1 (movedList s site b xs x) := by
  induction moves with
  | nil => exact fun _ _ _ mem => absurd mem List.not_mem_nil
  | cons y moves ih =>
    intro xs nodup x mem
    obtain ⟨fresh, distinct⟩ := List.nodup_cons.1 (List.map_cons ▸ nodup)
    rw [List.foldl_cons]
    rcases List.mem_cons.1 mem with rfl | later
    · exact entriesOf_moves_other moves _ fun z hz e => fresh (List.mem_map.2 ⟨z, hz, e⟩)
    · rw [ih _ distinct x later]
      refine entriesOf_moved_congr (entriesOf_moved_other fun e => fresh ?_)
      exact List.mem_map.2 ⟨x, later, e.symm⟩

end

/-! ### The three channels of a site -/

/-- The moves of a site's channels, in role order. -/
def channelMoves (move : Nat → Move) : List (Role × Move) := (List.range 3).map fun role => (roleOf role, move role)

theorem mem_channelMoves {move : Nat → Move} {role : Nat} (h : role < 3) :
    (roleOf role, move role) ∈ channelMoves move := List.mem_map.2 ⟨role, List.mem_range.2 h, rfl⟩

theorem channelMoves_roles (move : Nat → Move) : (channelMoves move).map (·.1) = [.l1, .l2, .l3] := rfl

/-- The move of channel `role` ends its sag. -/
def Leaves (move : Nat → Move) (role : Nat) : Prop :=
  role < 3 ∧ ((∃ at_ least half, move role = .recovered at_ least half) ∨ ∃ least half, move role = .lost least half)

section
variable {s : State} {site b : Nat} {xs : List Involved} {move : Nat → Move}

theorem entriesOf_channel {role : Nat} (h : role < 3) :
    entriesOf (roleOf role) ((channelMoves move).foldl (movedList s site b) xs) =
      entriesOf (roleOf role) (movedList s site b xs (roleOf role, move role)) :=
  entriesOf_moves _ xs (by rw [channelMoves_roles]; decide) _ (mem_channelMoves h)

theorem entriesOf_beyond {role : Role} (h : 3 ≤ role.code) :
    entriesOf role ((channelMoves move).foldl (movedList s site b) xs) = entriesOf role xs := by
  refine entriesOf_moves_other _ xs fun x hx same => ?_
  have mem : x.1 ∈ (channelMoves move).map (·.1) := List.mem_map_of_mem hx
  rw [channelMoves_roles, same] at mem
  revert h mem
  cases role <;> decide

/-- R70, R75: what the channel's move leaves of its entries. -/
theorem entries_after {role : Nat} (h : role < 3) :
    let before := entriesOf (roleOf role) xs
    let after := entriesOf (roleOf role) ((channelMoves move).foldl (movedList s site b) xs)
    (move role = .still → after = before) ∧
      (∀ start, move role = .sagged start → after =
        if before = [] then [⟨roleOf role, ((memberOf s site role).map (·.serial)).getD 0, 2000, 0, none, true⟩]
        else before.map fun i => { i with holding := true }) ∧
      (∀ recovery least half, move role = .recovered recovery least half →
        after = before.map fun i => i.finish recovery least half) ∧
      (∀ least half, move role = .lost least half → after = before.map fun i => i.finish b least half) := by
  intro before after
  have own : after = entriesOf (roleOf role) (movedList s site b xs (roleOf role, move role)) := entriesOf_channel h
  refine ⟨fun hm => ?_, fun start hm => ?_, fun recovery least half hm => ?_, fun least half hm => ?_⟩
  · rw [own, hm]
    rfl
  · rw [own, hm]
    refine (entriesOf_joined (roleOf role)).trans ?_
    rw [newInvolved, code_roleOf (by omega)]
  · rw [own, hm]
    exact entriesOf_finished ..
  · rw [own, hm]
    exact entriesOf_finished ..

/-- An entry that holds after the moves held before and its channel has not left, or its channel has reached
SAG (R71). -/
theorem holding_after :
    ((channelMoves move).foldl (movedList s site b) xs).any (·.holding) = true ↔
      (∃ i ∈ xs, i.holding = true ∧ ¬Leaves move i.role.code) ∨
        ∃ role start, role < 3 ∧ move role = .sagged start := by
  have mine : ∀ {i : Involved} {zs : List Involved}, i ∈ zs → i ∈ entriesOf (roleOf i.role.code) zs := fun h =>
    mem_entriesOf.2 ⟨h, (roleOf_code _).symm⟩
  have inside : ∀ {i : Involved} {r : Role} {zs : List Involved}, i ∈ entriesOf r zs → i ∈ zs := fun h =>
    (mem_entriesOf.1 h).1
  rw [List.any_eq_true]
  constructor
  · rintro ⟨i, hi, holding⟩
    by_cases h : i.role.code < 3
    · obtain ⟨still, _, recovered, lost⟩ := entries_after (s := s) (site := site) (b := b) (xs := xs) (move := move) h
      have own := mine hi
      cases hm : move i.role.code with
      | still =>
        refine .inl ⟨i, inside (still hm ▸ own), holding, ?_⟩
        rintro ⟨_, ⟨_, _, _, e⟩ | ⟨_, _, e⟩⟩ <;> exact absurd (hm.symm.trans e) nofun
      | sagged start => exact .inr ⟨_, start, h, hm⟩
      | recovered recovery least half =>
        obtain ⟨j, _, rfl⟩ := List.mem_map.1 (recovered _ _ _ hm ▸ own)
        exact absurd holding Bool.false_ne_true
      | lost least half =>
        obtain ⟨j, _, rfl⟩ := List.mem_map.1 (lost _ _ hm ▸ own)
        exact absurd holding Bool.false_ne_true
    · have own := mine hi
      rw [roleOf_code, entriesOf_beyond (Nat.le_of_not_lt h)] at own
      exact .inl ⟨i, inside own, holding, fun leaves => h leaves.1⟩
  · rintro (⟨i, hi, holding, stays⟩ | ⟨role, start, h, hm⟩)
    · by_cases h : i.role.code < 3
      · obtain ⟨still, sagged, _, _⟩ := entries_after (s := s) (site := site) (b := b) (xs := xs) (move := move) h
        have own : i ∈ entriesOf (roleOf i.role.code) xs := mine hi
        cases hm : move i.role.code with
        | still => exact ⟨i, inside ((still hm).symm ▸ own), holding⟩
        | sagged start =>
          have after := (sagged start hm).trans (if_neg (List.ne_nil_of_mem own))
          exact ⟨{ i with holding := true }, inside (after.symm ▸ List.mem_map_of_mem own), rfl⟩
        | recovered recovery least half => exact absurd ⟨h, .inl ⟨_, _, _, hm⟩⟩ stays
        | lost least half => exact absurd ⟨h, .inr ⟨_, _, hm⟩⟩ stays
      · refine ⟨i, inside (r := i.role) ?_, holding⟩
        rw [entriesOf_beyond (Nat.le_of_not_lt h)]
        exact mem_entriesOf.2 ⟨hi, rfl⟩
    · obtain ⟨_, sagged, _, _⟩ := entries_after (s := s) (site := site) (b := b) (xs := xs) (move := move) h
      have after := sagged start hm
      split at after
      · exact ⟨_, inside (r := roleOf role) (after.symm ▸ List.mem_singleton_self _), rfl⟩
      · next some_ =>
        obtain ⟨i, hi⟩ := List.exists_mem_of_ne_nil _ some_
        exact ⟨{ i with holding := true }, inside (r := roleOf role) (after.symm ▸ List.mem_map_of_mem hi), rfl⟩

theorem isLost_after : ((channelMoves move).any fun x => x.2.isLost) = true ↔
    ∃ role least half, role < 3 ∧ move role = .lost least half := by
  rw [List.any_eq_true]
  constructor
  · rintro ⟨x, hx, lost⟩
    obtain ⟨role, hr, rfl⟩ := List.mem_map.1 hx
    cases hm : move role with
    | lost least half => exact ⟨role, least, half, List.mem_range.1 hr, hm⟩
    | _ => rw [hm] at lost; exact absurd lost Bool.false_ne_true
  · rintro ⟨role, least, half, h, hm⟩
    refine ⟨_, mem_channelMoves h, ?_⟩
    rw [hm]
    rfl

/-! ### The flags -/

/-- R74: CAL_EXPIRED of a list of entries. -/
theorem calExpired_iff : calExpired s site xs = true ↔ ∃ i ∈ xs, ∃ m,
    memberOf s site i.role.code = some m ∧ m.active = true ∧ (entryOf s m.slot).calDue = true := by
  unfold calExpired
  rw [List.any_eq_true]
  refine exists_congr fun i => and_congr_right fun _ => ?_
  cases memberOf s site i.role.code with
  | none => exact ⟨fun h => absurd h Bool.false_ne_true, nofun⟩
  | some m => simp

/-- R73, R74: an open event after the boundary that its site's history begins with. -/
theorem flagBoundary_entered {h : Boundary} {rest : List Boundary} (hh : (sagSite s site).history = h :: rest)
    (e : OpenEvent) : (flagBoundary s site e).flags =
      { e.flags with
        freqUnlocked := e.flags.freqUnlocked || !h.locked
        rotationReversed := e.flags.rotationReversed || h.reversed
        clipped := e.flags.clipped || h.clipped
        probeGap := e.flags.probeGap || h.gapped
        calExpired := e.flags.calExpired || calExpired s site e.involved } := by
  unfold flagBoundary
  rw [hh]
  rfl

end

end Sys2Proof.Machine
end

