-- ==== Sys2Proof/Proofs/BoundaryChannels.lean ====
section
/-!
PROOFS. The channels of every site at a half-cycle boundary (R63 to R67, R75): their moves are those of the state
before the boundary, and each site's history takes it.
-/

namespace Sys2Proof.Machine

/-! ### One site -/

/-- A channel of a site at the boundary, with its move. -/
def sagMove (b : Nat) (s : State) (site role : Nat) : Channel × Move :=
  (channelOf s site role).atBoundary b (siteOf s site).settings (channelValue s site role)

/-- The moves of a site's channels at the boundary. -/
def siteMoves (b : Nat) (s : State) (site : Nat) : List (Role × Move) :=
  channelMoves fun role => (sagMove b s site role).2

/-- The boundary as the site's history takes it. -/
def enteredBoundary (s : State) (site : Nat) : Boundary :=
  boundaryRecord s site (((List.range 3).map fun role => channelValue s site role).filterMap id)

/-- A site of the detector after its channels have moved. -/
def movedSite (b : Nat) (s : State) (site : Nat) : SagSite :=
  { (sagSite s site).enter (enteredBoundary s site) with
    channels := (List.range 3).map fun role => (sagMove b s site role).1 }

theorem moveChannels_moved {s : State} (shaped : Shaped s) (b site : Nat) :
    (sagSite s site).channels.zipIdx.map (fun c => (roleOf c.2, c.1.atBoundary b (siteOf s site).settings
      (((List.range 3).map fun role => channelValue s site role).getD c.2 none))) =
      (List.range 3).map fun role => (roleOf role, sagMove b s site role) := by
  obtain ⟨x, y, z, h⟩ := List.length_eq_three.1 (sagSite_channels shaped site)
  have channel : ∀ role, channelOf s site role = [x, y, z].getD role {} := fun role => by rw [channelOf, h]
  rw [h]
  unfold sagMove
  simp only [channel]
  rfl

theorem moveChannels_moves_eq {s : State} (shaped : Shaped s) (b site : Nat) :
    (moveChannels b s site).1 = siteMoves b s site := by
  unfold moveChannels
  dsimp only
  rw [moveChannels_moved shaped]
  exact List.map_map

theorem sagSite_moveChannels {s : State} (shaped : Shaped s) (b : Nat) {site : Nat} (hs : site < 4) :
    sagSite (moveChannels b s site).2 site = movedSite b s site := by
  unfold moveChannels
  dsimp only
  rw [moveChannels_moved shaped, sagSite_modifySag _ _ _ (by rw [shaped.sag_length]; exact hs), List.map_map]
  rfl

/-- What the channels of the other sites leave of the state: all but the detector's sites. -/
structure SagAlone (s t : State) : Prop where
  rest : t = { s with sag := { s.sag with sites := t.sag.sites } }
  shaped : Shaped s → Shaped t

theorem SagAlone.refl (s : State) : SagAlone s s := ⟨rfl, id⟩

theorem SagAlone.trans {s t u : State} (h : SagAlone s t) (k : SagAlone t u) : SagAlone s u :=
  ⟨k.rest.trans (by rw [h.rest]), fun x => k.shaped (h.shaped x)⟩

theorem moveChannels_alone (b : Nat) (s : State) (site : Nat) : SagAlone s (moveChannels b s site).2 :=
  ⟨rfl, (moveChannels_moves (P := only [.sag]) b s site (by decide)).shaped⟩

theorem sagSite_moveChannels_other (b : Nat) (s : State) {site i : Nat} (h : i ≠ site) :
    sagSite (moveChannels b s site).2 i = sagSite s i := sagSite_modifySag_other _ _ _ _ h

theorem channelOf_of_sagSite {s t : State} {site : Nat} (same : sagSite t site = sagSite s site) (role : Nat) :
    channelOf t site role = channelOf s site role := by
  rw [channelOf, same]
  rfl

section
variable {s t : State} (h : SagAlone s t) {site : Nat} (same : sagSite t site = sagSite s site)
include h same

theorem SagAlone.channelValue (role : Nat) : channelValue t site role = channelValue s site role := by
  unfold Machine.channelValue
  rw [channelOf_of_sagSite same, h.rest]
  rfl

theorem SagAlone.sagMove (b role : Nat) : sagMove b t site role = sagMove b s site role := by
  unfold Machine.sagMove
  rw [channelOf_of_sagSite same, h.channelValue same, h.rest]
  rfl

theorem SagAlone.movedSite (b : Nat) : movedSite b t site = movedSite b s site := by
  have record : enteredBoundary t site = enteredBoundary s site := by
    unfold enteredBoundary
    simp only [h.channelValue same]
    rw [h.rest]
    rfl
  unfold Machine.movedSite
  simp only [h.sagMove same, same, record]

theorem SagAlone.siteMoves (b : Nat) : siteMoves b t site = siteMoves b s site := by
  unfold Machine.siteMoves
  simp only [h.sagMove same]

end

/-! ### All the sites -/

/-- The state in which the channels of the listed sites have moved. -/
def channelsOf (b : Nat) (sites : List Nat) (s : State) : State :=
  sites.foldl (fun u site => (moveChannels b u site).2) s

theorem channelsOf_alone (b : Nat) (sites : List Nat) (s : State) : SagAlone s (channelsOf b sites s) := by
  induction sites generalizing s with
  | nil => exact .refl s
  | cons site sites ih => exact (moveChannels_alone b s site).trans (ih _)

theorem channelsOf_other (b : Nat) (sites : List Nat) (s : State) {i : Nat} (h : i ∉ sites) :
    sagSite (channelsOf b sites s) i = sagSite s i := by
  induction sites generalizing s with
  | nil => rfl
  | cons site sites ih =>
    rw [List.mem_cons, not_or] at h
    exact (ih _ h.2).trans (sagSite_moveChannels_other b s h.1)

theorem channelsOf_site (b : Nat) (sites : List Nat) : ∀ s : State, Shaped s → sites.Nodup → ∀ {i : Nat}, i ∈ sites →
    i < 4 → sagSite (channelsOf b sites s) i = movedSite b s i := by
  induction sites with
  | nil => exact fun _ _ _ _ mem => absurd mem List.not_mem_nil
  | cons site sites ih =>
    intro s shaped nodup i mem hi
    obtain ⟨absent, distinct⟩ := List.nodup_cons.1 nodup
    have alone := moveChannels_alone b s site
    rcases List.mem_cons.1 mem with rfl | later
    · exact (channelsOf_other b sites _ absent).trans (sagSite_moveChannels shaped b hi)
    · refine (ih _ (alone.shaped shaped) distinct later hi).trans (alone.movedSite ?_ b)
      exact sagSite_moveChannels_other b s fun e => absent (e ▸ later)

theorem channelsFold_eq (b : Nat) (sites : List Nat) : ∀ (acc : List (List (Role × Move))) (s : State), Shaped s →
    sites.Nodup →
    sites.foldl (fun (a : List (List (Role × Move)) × State) site =>
      (a.1 ++ [(moveChannels b a.2 site).1], (moveChannels b a.2 site).2)) (acc, s) =
      (acc ++ sites.map (siteMoves b s), channelsOf b sites s) := by
  induction sites with
  | nil => exact fun acc s _ _ => by rw [List.map_nil, List.append_nil]; rfl
  | cons site sites ih =>
    intro acc s shaped nodup
    obtain ⟨absent, distinct⟩ := List.nodup_cons.1 nodup
    have alone := moveChannels_alone b s site
    have same : sites.map (siteMoves b (moveChannels b s site).2) = sites.map (siteMoves b s) :=
      List.map_congr_left fun i hi => alone.siteMoves (sagSite_moveChannels_other b s fun e => absent (e ▸ hi)) b
    rw [List.foldl_cons, ih _ _ (alone.shaped shaped) distinct, same, moveChannels_moves_eq shaped, List.append_assoc]
    rfl

/-- The state in which every channel has moved at boundary `b`. -/
@[irreducible] def channelsMoved (b : Nat) (s : State) : State := channelsOf b allSites s

theorem allChannels_eq {s : State} (shaped : Shaped s) (b : Nat) :
    allChannels b s = (allSites.map (siteMoves b s), channelsMoved b s) := by
  unfold channelsMoved
  exact channelsFold_eq b allSites [] s shaped allSites_nodup

theorem channelsMoved_alone (b : Nat) (s : State) : SagAlone s (channelsMoved b s) := by
  unfold channelsMoved
  exact channelsOf_alone b allSites s

theorem channelsMoved_site {s : State} (shaped : Shaped s) (b : Nat) {site : Nat} (hs : site < 4) :
    sagSite (channelsMoved b s) site = movedSite b s site := by
  unfold channelsMoved
  exact channelsOf_site b allSites s shaped allSites_nodup (List.mem_range.2 hs) hs

/-! ### What the boundary leaves of a site -/

theorem movedSite_event (b : Nat) (s : State) (site : Nat) : (movedSite b s site).event = (sagSite s site).event :=
  enter_event _ _

theorem movedSite_history (b : Nat) (s : State) (site : Nat) : (movedSite b s site).history =
    if (sagSite s site).history.head?.map (·.frame) = some s.bus.frame then (sagSite s site).history
    else (enteredBoundary s site :: (sagSite s site).history).take 4 := by
  change ((sagSite s site).enter _).history = _
  unfold SagSite.enter
  exact apply_ite SagSite.history _ _ _

theorem movedSite_nonempty (b : Nat) (s : State) (site : Nat) :
    ∃ h rest, (movedSite b s site).history = h :: rest := by
  rw [movedSite_history]
  split
  · next same =>
    cases hist : (sagSite s site).history with
    | nil => rw [hist] at same; exact absurd same nofun
    | cons h rest => exact ⟨h, rest, rfl⟩
  · exact ⟨_, _, rfl⟩

/-- R63: the entered boundary's flags. -/
theorem enteredBoundary_flags (s : State) (site : Nat) :
    let h := enteredBoundary s site
    h.frame = s.bus.frame ∧ h.time = s.bus.frameTime ∧
      (h.locked = true ↔ s.tracker.frameState = .locked ∨ s.tracker.frameState = .fixed) ∧
      (h.reversed = true ↔ (rotationOf s site).state = .reversed) ∧
      (h.clipped = true ↔ ∃ role v, role < 3 ∧ channelValue s site role = some v ∧ v.clipped = true) ∧
      (h.gapped = true ↔ ∃ role v, role < 3 ∧ channelValue s site role = some v ∧ v.gapped = true) := by
  have values : ∀ p : Value → Bool,
      (((List.range 3).map fun role => channelValue s site role).filterMap id).any p = true ↔
        ∃ role v, role < 3 ∧ channelValue s site role = some v ∧ p v = true := fun p => by
    rw [List.any_eq_true]
    constructor
    · rintro ⟨v, hv, hp⟩
      obtain ⟨o, ho, e⟩ := List.mem_filterMap.1 hv
      obtain ⟨role, hr, rfl⟩ := List.mem_map.1 ho
      exact ⟨role, v, List.mem_range.1 hr, e, hp⟩
    · rintro ⟨role, v, hr, e, hp⟩
      exact ⟨v, List.mem_filterMap.2 ⟨_, List.mem_map.2 ⟨role, List.mem_range.2 hr, rfl⟩, e⟩, hp⟩
  refine ⟨rfl, rfl, ?_, beq_iff_eq, values _, values _⟩
  exact (Bool.or_eq_true _ _).to_iff.trans (or_congr beq_iff_eq beq_iff_eq)

end Sys2Proof.Machine
end

