-- ==== Sys2Proof/Proofs/SiteActs.lean ====
section
/-!
PROOFS. What a site's event does at a half-cycle boundary (R69, R71): it opens, stays or closes, and what each of
these leaves of the other sites, the capture slots, the write queue and the link.
-/

namespace Sys2Proof.Machine

/-! ### The lowest FREE slot -/

theorem freeSlot_eq {s : State} (shaped : Shaped s) :
    freeSlot s = (List.range 12).find? fun i => (captureSlot s i).state == .free := by
  unfold freeSlot
  rw [shaped.slots_length, List.filter_eq_self.2 fun i hi => decide_eq_true (List.mem_range.1 hi)]

theorem freeSlot_some {s : State} (shaped : Shaped s) {i : Nat} (h : freeSlot s = some i) :
    i < 12 ∧ (captureSlot s i).state = .free ∧ ∀ j, j < i → (captureSlot s j).state ≠ .free := by
  rw [freeSlot_eq shaped] at h
  obtain ⟨free, mem, before⟩ := List.find?_range_eq_some.1 h
  refine ⟨List.mem_range.1 mem, beq_iff_eq.1 free, fun j hj e => ?_⟩
  have busy := before j hj
  rw [e] at busy
  exact absurd busy (by decide)

theorem freeSlot_none {s : State} (shaped : Shaped s) (h : freeSlot s = none) {i : Nat} (hi : i < 12) :
    (captureSlot s i).state ≠ .free := fun e => by
  rw [freeSlot_eq shaped] at h
  have busy := List.find?_range_eq_none.1 h i hi
  rw [e] at busy
  exact absurd busy (by decide)

/-! ### The opening of an event -/

/-- The state with the next event id drawn. -/
def eventDrawn (s : State) : State := setStore (fun st => (drawId .event st).2) s

/-- The earliest sag start of the channels that reached SAG at boundary `b`. -/
def openingStart (b : Nat) (sagged : List (Role × Nat)) : Nat := earliest b (sagged.map (·.2))

/-- R85: the slot and the serial that an opening event claims. -/
def slotClaim (s : State) : Option (Nat × Nat) := (freeSlot s).map fun i => (i, nextSerial (captureSlot s i).serial)

/-- R69, R73, R74: the event that opens. -/
def openedEvent (site b : Nat) (sagged : List (Role × Nat)) (s : State) : OpenEvent :=
  let start := openingStart b sagged
  let involved := sagged.foldl (fun xs x => joinInvolved s site x.1 xs) []
  { id := s.store.nextIds.event, startFrame := start
    startTime := ((sagSite s site).timeOf start).getD s.bus.frameTime, opening := b, involved := involved
    flags :=
      { ((sagSite s site).history.filter fun x => frameDiff b x.frame ≤ frameDiff b start).foldl EventFlags.at {} with
        calExpired := calExpired s site involved, atStart := s.sag.runBoundary == some start
        overlap := captureOverlap s site, noCapture := (slotClaim s).isNone }
    capture := slotClaim s }

/-- The state in which the lowest FREE slot is claimed for the event. -/
def slotTaken (site b : Nat) (sagged : List (Role × Nat)) (s : State) : State :=
  match freeSlot s with
  | some i => modifyCapture (claimed s s.store.nextIds.event site (openingStart b sagged) b) i s
  | none => s

/-- The state in which an opening event is told. -/
def eventOpened (site b : Nat) (sagged : List (Role × Nat)) (s : State) : State :=
  markOpen site b (setEvent (some (openedEvent site b sagged s)) site (eventDrawn (slotTaken site b sagged s)))

/-- R69: what EVENT_OPEN carries. -/
def openNotice (site b : Nat) (sagged : List (Role × Nat)) (s : State) : NoticeBody :=
  let e := openedEvent site b sagged s
  .eventOpen e.id site e.startFrame e.startTime (sagged.map (·.1)) e.capture e.flags.atStart e.flags.overlap
    e.flags.noCapture

theorem claimSlot_eq {s : State} (shaped : Shaped s) (site b : Nat) (sagged : List (Role × Nat)) :
    claimSlot s.store.nextIds.event site (openingStart b sagged) b (eventDrawn s) =
      (slotClaim s, eventDrawn (slotTaken site b sagged s)) := by
  have drawn : freeSlot (eventDrawn s) = freeSlot s := rfl
  unfold claimSlot slotClaim slotTaken
  rw [drawn]
  cases h : freeSlot s with
  | none => rfl
  | some i =>
    have inside : i < (eventDrawn s).capture.slots.length := by
      change i < s.capture.slots.length
      rw [shaped.slots_length]
      exact (freeSlot_some shaped h).1
    dsimp only
    rw [captureSlot_modifyCapture _ _ _ inside]
    rfl

theorem openEvent_eq {s : State} (shaped : Shaped s) (site b : Nat) (sagged : List (Role × Nat)) :
    openEvent site b sagged s = post (openNotice site b sagged s) (eventOpened site b sagged s) := by
  have claim : claimSlot (drawId .event s.store).1 site (earliest b (sagged.map (·.2))) b
      { s with store := (drawId .event s.store).2 } = _ := claimSlot_eq shaped site b sagged
  unfold openEvent
  dsimp only
  rw [claim]
  unfold eventOpened openNotice openedEvent slotTaken
  cases freeSlot s <;> rfl

/-! ### What the events of some sites leave -/

/-- From `s` to `t` the events of the listed sites have acted: what they leave of the rest. -/
structure ActsOn (sites : List Nat) (s t : State) : Prop where
  moves : Moves (only [.capture, .sag, .harm, .store]) s t
  rings : t.capture.rings = s.capture.rings
  channels : ∀ k, (sagSite t k).channels = (sagSite s k).channels ∧ (sagSite t k).history = (sagSite s k).history
  events : ∀ k, k ∉ sites → (sagSite t k).event = (sagSite s k).event
  runBoundary : t.sag.runBoundary = s.sag.runBoundary
  marks : ∀ k, k ∉ sites → (harmSite t k).mark = (harmSite s k).mark
  ids : s.store.nextIds.event ≤ t.store.nextIds.event
  grows : QueueGrows sites.length s t
  posts : PostsAtMost sites.length s t

namespace ActsOn
variable {sites sites' : List Nat} {s t u : State}

theorem refl (s : State) : ActsOn [] s s :=
  ⟨.refl s, rfl, fun _ => ⟨rfl, rfl⟩, fun _ _ => rfl, rfl, fun _ _ => rfl, Nat.le_refl _, .of_store rfl, .of_link rfl⟩

theorem trans (h : ActsOn sites s t) (k : ActsOn sites' t u) : ActsOn (sites ++ sites') s u where
  moves := h.moves.trans k.moves
  rings := k.rings.trans h.rings
  channels i := ⟨(k.channels i).1.trans (h.channels i).1, (k.channels i).2.trans (h.channels i).2⟩
  events i hi := by
    rw [List.mem_append, not_or] at hi
    exact (k.events i hi.2).trans (h.events i hi.1)
  runBoundary := k.runBoundary.trans h.runBoundary
  marks i hi := by
    rw [List.mem_append, not_or] at hi
    exact (k.marks i hi.2).trans (h.marks i hi.1)
  ids := h.ids.trans k.ids
  grows := List.length_append ▸ h.grows.trans k.grows
  posts := List.length_append ▸ h.posts.trans k.posts

/-- A site that does nothing. -/
theorem idle (site : Nat) (s : State) : ActsOn [site] s s :=
  ⟨.refl s, rfl, fun _ => ⟨rfl, rfl⟩, fun _ _ => rfl, rfl, fun _ _ => rfl, Nat.le_refl _, .of_store rfl,
    (PostsAtMost.of_link rfl).mono (Nat.zero_le _)⟩

theorem foldl {f : State → Nat → State} (hf : ∀ s site, Shaped s → site < 4 → ActsOn [site] s (f s site))
    (sites : List Nat) : ∀ s : State, Shaped s → (∀ site ∈ sites, site < 4) → ActsOn sites s (sites.foldl f s) := by
  induction sites with
  | nil => exact fun s _ _ => .refl s
  | cons site sites ih =>
    intro s shaped below
    have step := hf s site shaped (below site List.mem_cons_self)
    exact step.trans (ih _ (step.moves.shaped shaped) fun i hi => below i (List.mem_cons_of_mem _ hi))

end ActsOn

section
variable {s : State} {site : Nat}

theorem setEvent_sites (e : Option OpenEvent) (site : Nat) (s : State) (k : Nat) :
    (sagSite (setEvent e site s) k).channels = (sagSite s k).channels ∧
      (sagSite (setEvent e site s) k).history = (sagSite s k).history := by
  by_cases here : k = site
  · subst here
    by_cases inside : k < s.sag.sites.length
    · rw [setEvent, sagSite_modifySag _ _ _ inside]
      exact ⟨rfl, rfl⟩
    · have beyond : setEvent e k s = s := congrArg (fun xs => { s with sag := { s.sag with sites := xs } })
        ((updateAt_eq_set _ {} k _).trans (List.set_eq_of_length_le (Nat.le_of_not_lt inside)))
      rw [beyond]
      exact ⟨rfl, rfl⟩
  · rw [setEvent, sagSite_modifySag_other _ _ _ _ here]
    exact ⟨rfl, rfl⟩

theorem setEvent_acts (e : Option OpenEvent) (site : Nat) (s : State) : ActsOn [site] s (setEvent e site s) where
  moves := setEvent_moves e site s (by decide)
  rings := rfl
  channels := setEvent_sites e site s
  events k hk := congrArg SagSite.event (sagSite_modifySag_other _ _ _ _ fun e => hk (List.mem_singleton.2 e))
  runBoundary := rfl
  marks _ _ := rfl
  ids := Nat.le_refl _
  grows := .of_store rfl
  posts := (PostsAtMost.of_link rfl).mono (Nat.zero_le _)

theorem closeEvent_acts (c : Nat) (told : Option Nat) (e : OpenEvent) (site : Nat) (s : State) :
    ActsOn [site] s (closeEvent site c told e s) := by
  obtain ⟨capture, sag, harm⟩ := closeEvent_parts site c told e s
  refine
    { moves := closeEvent_moves site c told e s (by decide) (by decide) (by decide) (by decide)
      rings := ?_
      channels := fun k => ?_
      events := fun k hk => ?_
      runBoundary := by rw [sag]; rfl
      marks := fun k hk => ?_
      ids := ?_
      grows := closeEvent_grows told
      posts := fun sends => ?_ }
  · rw [capture]
    unfold closeCapture
    split <;> rfl
  · rw [sagSite, sag]
    exact setEvent_sites none site s k
  · rw [sagSite, sag]
    exact congrArg SagSite.event (sagSite_modifySag_other _ _ _ _ fun e => hk (List.mem_singleton.2 e))
  · rw [harmSite, harm]
    exact congrArg HarmSite.mark (harmSite_modifyHarm_other _ _ _ _ fun e => hk (List.mem_singleton.2 e))
  · rw [closeEvent_store]
    split <;> exact Nat.le_refl _
  · rw [closeEvent_link]
    exact post_postsAtMost _ s sends

/-! ### What an opening leaves -/

variable {b : Nat} {sagged : List (Role × Nat)}

theorem slotTaken_rest (site b : Nat) (sagged : List (Role × Nat)) (s : State) :
    slotTaken site b sagged s = { s with capture := (slotTaken site b sagged s).capture } ∧
      (slotTaken site b sagged s).capture.rings = s.capture.rings := by
  unfold slotTaken
  split <;> exact ⟨rfl, rfl⟩

theorem eventOpened_capture (site b : Nat) (sagged : List (Role × Nat)) (s : State) :
    (eventOpened site b sagged s).capture = (slotTaken site b sagged s).capture := rfl

theorem eventOpened_store (site b : Nat) (sagged : List (Role × Nat)) (s : State) :
    (eventOpened site b sagged s).store = (drawId .event s.store).2 := by
  change (drawId .event (slotTaken site b sagged s).store).2 = _
  rw [(slotTaken_rest site b sagged s).1]

theorem eventOpened_link (site b : Nat) (sagged : List (Role × Nat)) (s : State) :
    (eventOpened site b sagged s).link = s.link ∧ (eventOpened site b sagged s).clock = s.clock := by
  change (slotTaken site b sagged s).link = s.link ∧ (slotTaken site b sagged s).clock = s.clock
  rw [(slotTaken_rest site b sagged s).1]
  exact ⟨rfl, rfl⟩

theorem eventOpened_sag (site b : Nat) (sagged : List (Role × Nat)) (s : State) :
    (eventOpened site b sagged s).sag = (setEvent (some (openedEvent site b sagged s)) site s).sag := by
  change (setEvent _ site (eventDrawn (slotTaken site b sagged s))).sag = _
  rw [(slotTaken_rest site b sagged s).1]
  rfl

theorem eventOpened_harm (site b : Nat) (sagged : List (Role × Nat)) (s : State) :
    (eventOpened site b sagged s).harm = (markOpen site b s).harm := by
  change (markOpen site b (setEvent _ site (eventDrawn (slotTaken site b sagged s)))).harm = _
  rw [(slotTaken_rest site b sagged s).1]
  rfl

theorem openEvent_acts (shaped : Shaped s) : ActsOn [site] s (openEvent site b sagged s) := by
  have same := openEvent_eq shaped site b sagged
  have store : (openEvent site b sagged s).store = (drawId .event s.store).2 := by
    rw [same, post_store, eventOpened_store]
  have capture : (openEvent site b sagged s).capture = (slotTaken site b sagged s).capture := by
    rw [same, post_capture, eventOpened_capture]
  have sag : (openEvent site b sagged s).sag = (setEvent (some (openedEvent site b sagged s)) site s).sag := by
    rw [same, post_sag, eventOpened_sag]
  have harm : (openEvent site b sagged s).harm = (markOpen site b s).harm := by
    rw [same, post_harm, eventOpened_harm]
  refine
    { moves := openEvent_moves site b sagged s (by decide) (by decide) (by decide) (by decide)
      rings := by rw [capture, (slotTaken_rest site b sagged s).2]
      channels := fun k => ?_
      events := fun k hk => ?_
      runBoundary := by rw [sag]; rfl
      marks := fun k hk => ?_
      ids := ?_
      grows := ?_
      posts := fun sends => ?_ }
  · rw [sagSite, sag]
    exact setEvent_sites _ site s k
  · rw [sagSite, sag]
    exact congrArg SagSite.event (sagSite_modifySag_other _ _ _ _ fun e => hk (List.mem_singleton.2 e))
  · rw [harmSite, harm]
    exact congrArg HarmSite.mark (harmSite_modifyHarm_other _ _ _ _ fun e => hk (List.mem_singleton.2 e))
  · rw [store, drawId_nextIds]
    exact Nat.le_succ _
  · have queue := drawId_queue .event s.store
    refine ⟨by rw [store, queue], by rw [store, queue]; exact Nat.le_succ _, by rw [store, (drawId_same _ _).2.2.1], ?_, ?_⟩
    · rw [store, drawId_nextIds]
      rfl
    · rw [store]
      unfold drawId
      dsimp only
      split <;> rfl
  · have link : (eventOpened site b sagged s).link = s.link := (eventOpened_link site b sagged s).1
    have told := post_postsAtMost (openNotice site b sagged s) (eventOpened site b sagged s)
    unfold PostsAtMost at told
    rw [link] at told
    rw [same]
    exact told sends

/-! ### One site -/

theorem siteActs_none {moves : List (Role × Move)} (he : (sagSite s site).event = none) (hm : sagStarts moves = []) :
    siteActs b site moves s = s := by
  unfold siteActs
  rw [he, hm]

theorem siteActs_opens {moves : List (Role × Move)} (he : (sagSite s site).event = none) (hm : sagStarts moves ≠ []) :
    siteActs b site moves s = openEvent site b (sagStarts moves) s := by
  unfold siteActs
  rw [he]
  obtain ⟨x, rest, h⟩ := List.exists_cons_of_ne_nil hm
  rw [h]

/-- An open event as the moves and the flags of boundary `b` leave it. -/
def actedEvent (b site : Nat) (moves : List (Role × Move)) (s : State) (e : OpenEvent) : OpenEvent :=
  flagBoundary s site (moves.foldl (takeMove s site b) e)

theorem siteActs_open {moves : List (Role × Move)} {e : OpenEvent} (he : (sagSite s site).event = some e) :
    siteActs b site moves s =
      if (actedEvent b site moves s e).involved.any (·.holding) then setEvent (some (actedEvent b site moves s e)) site s
      else closeEvent site b (some b) (actedEvent b site moves s e) s := by
  unfold siteActs
  rw [he]
  rfl

theorem siteActs_acts {moves : List (Role × Move)} (shaped : Shaped s) :
    ActsOn [site] s (siteActs b site moves s) := by
  cases he : (sagSite s site).event with
  | some e =>
    rw [siteActs_open he]
    split
    · exact setEvent_acts _ site s
    · exact closeEvent_acts b _ _ site s
  | none =>
    by_cases hm : sagStarts moves = []
    · rw [siteActs_none he hm]
      exact .idle site s
    · rw [siteActs_opens he hm]
      exact openEvent_acts shaped

end

end Sys2Proof.Machine
end

