-- ==== Sys2Proof/Proofs/BoundaryCaptures.lean ====
section
/-!
PROOFS. The capture slots at a half-cycle boundary (R85 to R88): those that closing events end, and then those that
opening events claim.
-/

namespace Sys2Proof.Machine

/-! ### The slots that closing events end -/

/-- From `c` to `d` a slot may have completed; it keeps what it stands for. -/
structure SlotEnds (c d : CaptureSlot) : Prop where
  serial : d.serial = c.serial
  pins : d.pins = c.pins
  site : d.site = c.site
  state : d.state = c.state ∨ c.state = .filling ∧ d.state = .complete

theorem SlotEnds.refl (c : CaptureSlot) : SlotEnds c c := ⟨rfl, rfl, rfl, .inl rfl⟩

theorem SlotEnds.trans {c d e : CaptureSlot} (h : SlotEnds c d) (k : SlotEnds d e) : SlotEnds c e := by
  refine ⟨k.serial.trans h.serial, k.pins.trans h.pins, k.site.trans h.site, ?_⟩
  rcases k.state with same | ⟨filling, complete⟩
  · rw [same]
    exact h.state
  · rcases h.state with same | ⟨_, done⟩
    · exact .inr ⟨same ▸ filling, complete⟩
    · exact absurd (done.symm.trans filling) nofun

theorem SlotEnds.free_iff {c d : CaptureSlot} (h : SlotEnds c d) : d.state = .free ↔ c.state = .free := by
  rcases h.state with same | ⟨filling, complete⟩
  · rw [same]
  · rw [filling, complete]
    exact ⟨nofun, nofun⟩

theorem closeSlot_ends (s : State) (site c : Nat) (slot : CaptureSlot) : SlotEnds slot (closeSlot s site c slot) := by
  unfold closeSlot completeSlot
  split
  · next done =>
    have filling := ((captureDone_iff _).1 done).1
    rw [addEnd_rest] at filling ⊢
    exact ⟨rfl, rfl, rfl, .inr ⟨filling, rfl⟩⟩
  · rw [addEnd_rest]
    exact ⟨rfl, rfl, rfl, .inl rfl⟩

/-- From `s` to `t` the events of the listed sites that close have ended their slots. -/
def SlotsEnd (sites : List Nat) (s t : State) : Prop :=
  ∀ i, i < 12 → SlotEnds (captureSlot s i) (captureSlot t i) ∧
    ((∀ k ∈ sites, ¬Names s k i) → captureSlot t i = captureSlot s i)

section
variable {s : State} {site b : Nat} {moves : List (Role × Move)}

theorem actedEvent_capture (e : OpenEvent) : (actedEvent b site moves s e).capture = e.capture := by
  unfold actedEvent
  rw [takeMoves_eq]
  rfl

theorem captureSlot_closeEvent (site c : Nat) (told : Option Nat) (e : OpenEvent) (s : State) (i : Nat) :
    captureSlot (closeEvent site c told e s) i = captureSlot (closeCapture site c e s) i := by
  rw [captureSlot, (closeEvent_parts site c told e s).1]
  rfl

theorem captureSlot_acts_unnamed (stays : (sagSite s site).event = none → sagStarts moves = []) {i : Nat}
    (h : ¬Names s site i) : captureSlot (siteActs b site moves s) i = captureSlot s i := by
  cases he : (sagSite s site).event with
  | none => rw [siteActs_none he (stays he)]
  | some e =>
    rw [siteActs_open he]
    split
    · rfl
    · rw [captureSlot_closeEvent]
      refine captureSlot_closeCapture_other fun p hp same => h ⟨e, p, he, ?_, same⟩
      rw [← actedEvent_capture]
      exact hp

theorem siteActs_slotsEnd (shaped : Shaped s) (stays : (sagSite s site).event = none → sagStarts moves = []) :
    SlotsEnd [site] s (siteActs b site moves s) := fun i hi => by
  refine ⟨?_, fun unnamed => captureSlot_acts_unnamed stays (unnamed site List.mem_cons_self)⟩
  by_cases named : Names s site i
  · obtain ⟨e, p, he, hp, same⟩ := named
    rw [siteActs_open he]
    split
    · exact .refl _
    · rw [captureSlot_closeEvent, captureSlot_closeCapture_named (by rw [shaped.slots_length]; exact hi)
        ((actedEvent_capture e).trans hp) same]
      exact closeSlot_ends s site b _
  · rw [captureSlot_acts_unnamed stays named]
    exact .refl _

end

theorem names_congr {s t : State} {k i : Nat} (h : (sagSite t k).event = (sagSite s k).event) :
    Names t k i ↔ Names s k i := by
  unfold Names
  rw [h]

/-- The events of the listed sites act in turn on moves that are worked out before. -/
def actAll (b : Nat) (moves : Nat → List (Role × Move)) (sites : List Nat) (s : State) : State :=
  sites.foldl (fun s site => siteActs b site (moves site) s) s

section
variable {b : Nat} {moves : Nat → List (Role × Move)}

theorem actAll_acts (sites : List Nat) {s : State} (shaped : Shaped s) (below : ∀ site ∈ sites, site < 4) :
    ActsOn sites s (actAll b moves sites s) :=
  .foldl (fun _ _ shaped _ => siteActs_acts shaped) sites s shaped below

/-- Of the listed sites none opens an event. -/
def NoneOpens (moves : Nat → List (Role × Move)) (sites : List Nat) (s : State) : Prop :=
  ∀ site ∈ sites, (sagSite s site).event = none → sagStarts (moves site) = []

/-- Each of the listed sites opens an event. -/
def AllOpen (moves : Nat → List (Role × Move)) (sites : List Nat) (s : State) : Prop :=
  ∀ site ∈ sites, (sagSite s site).event = none ∧ sagStarts (moves site) ≠ []

theorem actAll_slotsEnd (sites : List Nat) : ∀ s : State, Shaped s → sites.Nodup →
    NoneOpens moves sites s → SlotsEnd sites s (actAll b moves sites s) := by
  induction sites with
  | nil => exact fun s _ _ _ i _ => ⟨.refl _, fun _ => rfl⟩
  | cons site sites ih =>
    intro s shaped nodup stays i hi
    obtain ⟨absent, distinct⟩ := List.nodup_cons.1 nodup
    have acts := siteActs_acts (b := b) (site := site) (moves := moves site) shaped
    have event : ∀ k ∈ sites, (sagSite (siteActs b site (moves site) s) k).event = (sagSite s k).event := fun k hk =>
      acts.events k fun h => absent (List.mem_singleton.1 h ▸ hk)
    obtain ⟨ends, kept⟩ := siteActs_slotsEnd (b := b) shaped (stays site List.mem_cons_self) i hi
    obtain ⟨ends', kept'⟩ := ih (siteActs b site (moves site) s) (acts.moves.shaped shaped) distinct
      (fun k hk he => stays k (List.mem_cons_of_mem _ hk) ((event k hk).symm.trans he)) i hi
    refine ⟨ends.trans ends', fun unnamed => ?_⟩
    refine (kept' fun k hk => ?_).trans (kept fun k hk => unnamed k ?_)
    · rw [names_congr (event k hk)]
      exact unnamed k (List.mem_cons_of_mem _ hk)
    · rw [List.mem_singleton.1 hk]
      exact List.mem_cons_self

/-! ### The slots that opening events claim -/

/-- From `s` to `t` the listed sites may have claimed FREE slots; the others are the same. -/
def SlotsClaimed (sites : List Nat) (s t : State) : Prop :=
  ∀ i, i < 12 → captureSlot t i = captureSlot s i ∨
    (captureSlot s i).state = .free ∧ (captureSlot t i).state = .filling ∧
      ∃ k ∈ sites, (captureSlot t i).site = some k

theorem SlotsClaimed.busy {sites : List Nat} {s t : State} (h : SlotsClaimed sites s t) {i : Nat} (hi : i < 12)
    (busy : (captureSlot s i).state ≠ .free) : captureSlot t i = captureSlot s i :=
  (h i hi).resolve_right fun k => busy k.1

theorem openEvent_capture {s : State} (shaped : Shaped s) (site : Nat) (sagged : List (Role × Nat)) :
    (openEvent site b sagged s).capture = (slotTaken site b sagged s).capture := by
  rw [openEvent_eq shaped, post_capture, eventOpened_capture]

theorem openEvent_slots {s : State} (shaped : Shaped s) (site : Nat) (sagged : List (Role × Nat)) :
    (∀ i, freeSlot s ≠ some i → captureSlot (openEvent site b sagged s) i = captureSlot s i) ∧
      ∀ i, freeSlot s = some i → captureSlot (openEvent site b sagged s) i =
        claimed s s.store.nextIds.event site (openingStart b sagged) b (captureSlot s i) := by
  have slot : ∀ i, captureSlot (openEvent site b sagged s) i = captureSlot (slotTaken site b sagged s) i := fun i => by
    rw [captureSlot, openEvent_capture shaped]
    rfl
  unfold slotTaken at slot
  refine ⟨fun i other => ?_, fun i free => ?_⟩
  · rw [slot]
    cases h : freeSlot s with
    | none => rfl
    | some j => exact captureSlot_modifyCapture_other _ _ _ _ fun e => other (e ▸ h)
  · rw [slot, free]
    exact captureSlot_modifyCapture _ _ _ (by rw [shaped.slots_length]; exact (freeSlot_some shaped free).1)

theorem openEvent_claims {s : State} (shaped : Shaped s) (site : Nat) (sagged : List (Role × Nat)) :
    SlotsClaimed [site] s (openEvent site b sagged s) := fun i hi => by
  obtain ⟨other, own⟩ := openEvent_slots (b := b) shaped site sagged
  by_cases h : freeSlot s = some i
  · rw [own i h]
    exact .inr ⟨(freeSlot_some shaped h).2.1, rfl, site, List.mem_cons_self, rfl⟩
  · exact .inl (other i h)

theorem SlotsClaimed.trans {sites sites' : List Nat} {s t u : State} (h : SlotsClaimed sites s t)
    (k : SlotsClaimed sites' t u) : SlotsClaimed (sites ++ sites') s u := fun i hi => by
  rcases h i hi with same | ⟨free, filling, x, hx, site⟩
  · rcases k i hi with same' | ⟨free', filling', x, hx, site'⟩
    · exact .inl (same'.trans same)
    · exact .inr ⟨same ▸ free', filling', x, List.mem_append_right _ hx, site'⟩
  · rw [k.busy hi (by rw [filling]; exact nofun)]
    exact .inr ⟨free, filling, x, List.mem_append_left _ hx, site⟩

theorem actAll_claims (sites : List Nat) : ∀ s : State, Shaped s → sites.Nodup → AllOpen moves sites s →
    SlotsClaimed sites s (actAll b moves sites s) := by
  induction sites with
  | nil => exact fun s _ _ _ i _ => .inl rfl
  | cons site sites ih =>
    intro s shaped nodup opens
    obtain ⟨absent, distinct⟩ := List.nodup_cons.1 nodup
    obtain ⟨none_, starts⟩ := opens site List.mem_cons_self
    have acts := siteActs_acts (b := b) (site := site) (moves := moves site) shaped
    have rest := ih (siteActs b site (moves site) s) (acts.moves.shaped shaped) distinct fun k hk => by
      rw [acts.events k fun h => absent (List.mem_singleton.1 h ▸ hk)]
      exact opens k (List.mem_cons_of_mem _ hk)
    rw [siteActs_opens none_ starts] at rest
    have step := openEvent_claims (b := b) shaped site (sagStarts (moves site))
    refine step.trans (u := actAll b moves (site :: sites) s) ?_
    rw [actAll, List.foldl_cons, siteActs_opens none_ starts]
    exact rest

end

end Sys2Proof.Machine
end

