-- ==== Sys2Proof/Proofs/BoundaryTurns.lean ====
section
/-!
PROOFS. The order in which the sites act at a half-cycle boundary (R69): those that open no event, and then those
that do; and the turn of one site among them.
-/

namespace Sys2Proof.Machine

/-! ### The sites in their order -/

/-- The site opens an event at boundary `b`. -/
def sagOpens (b : Nat) (s : State) (site : Nat) : Bool :=
  (sagSite s site).event.isNone && !(sagStarts (siteMoves b s site)).isEmpty

/-- The sites that open no event. -/
def sitesKeeping (b : Nat) (s : State) : List Nat := allSites.filter fun site => !sagOpens b s site

/-- The sites that open one, in the order in which they draw their ids. -/
def sitesOpening (b : Nat) (s : State) : List Nat := (drawOrder (allSites.filter (sagOpens b s)) (channelsMoved b s)).1

/-- The state in which the sites begin to act. -/
def orderDrawn (b : Nat) (s : State) : State := (drawOrder (allSites.filter (sagOpens b s)) (channelsMoved b s)).2

/-- The state in which the sites have acted. -/
def sitesActed (b : Nat) (s : State) : State :=
  actAll b (siteMoves b s) (sitesKeeping b s ++ sitesOpening b s) (orderDrawn b s)

theorem drawOrder_perm (opening : List Nat) (s : State) : (drawOrder opening s).1.Perm opening := by
  unfold drawOrder
  split
  · exact .refl _
  · exact (sortBy_spec _ _).1

theorem drawOrder_rest (opening : List Nat) (s : State) :
    (drawOrder opening s).2 = { s with free := (drawOrder opening s).2.free } := by
  unfold drawOrder
  split <;> rfl

section
variable {b : Nat} {s : State}

theorem mem_sitesKeeping {site : Nat} : site ∈ sitesKeeping b s ↔ site < 4 ∧ sagOpens b s site = false := by
  rw [sitesKeeping, List.mem_filter, Bool.not_eq_true', allSites, List.mem_range]

theorem mem_sitesOpening {site : Nat} : site ∈ sitesOpening b s ↔ site < 4 ∧ sagOpens b s site = true := by
  rw [sitesOpening, (drawOrder_perm _ _).mem_iff, List.mem_filter, allSites, List.mem_range]

theorem sitesKeeping_nodup : (sitesKeeping b s).Nodup := allSites_nodup.filter _

theorem sitesOpening_nodup : (sitesOpening b s).Nodup :=
  (drawOrder_perm _ _).nodup_iff.2 (allSites_nodup.filter _)

theorem sites_length : (sitesKeeping b s).length + (sitesOpening b s).length = 4 := by
  rw [sitesOpening, (drawOrder_perm _ _).length_eq, sitesKeeping, ← List.countP_eq_length_filter,
    ← List.countP_eq_length_filter]
  have both := List.length_eq_countP_add_countP (sagOpens b s) (l := allSites)
  have same : allSites.countP (fun a => decide (¬sagOpens b s a = true)) = allSites.countP fun a => !sagOpens b s a :=
    List.countP_congr fun a _ => by simp
  have four : allSites.length = 4 := rfl
  omega

theorem sites_apart {site : Nat} (h : site ∈ sitesOpening b s) : site ∉ sitesKeeping b s := fun k => by
  have one := (mem_sitesKeeping.1 k).2
  rw [(mem_sitesOpening.1 h).2] at one
  exact absurd one nofun

theorem sitesOpening_below : ∀ site ∈ sitesOpening b s, site < 4 := fun _ h => (mem_sitesOpening.1 h).1

theorem sitesKeeping_below : ∀ site ∈ sitesKeeping b s, site < 4 := fun _ h => (mem_sitesKeeping.1 h).1

/-- R63, R68: the detector's work at the boundary. -/
theorem sagBoundary_eq (shaped : Shaped s) (hb : s.bus.frame = b) :
    sagBoundary s =
      { sitesActed b s with sag := { (sitesActed b s).sag with lastBoundary := some b } } := by
  subst hb
  have each : ∀ site, site < 4 → (allSites.map (siteMoves s.bus.frame s)).getD site [] = siteMoves s.bus.frame s site :=
    fun site hs => by
      rw [List.getD_eq_getElem?_getD, List.getElem?_map, allSites, List.getElem?_range hs]
      rfl
  have opens : allSites.filter (fun site => (sagSite (channelsMoved s.bus.frame s) site).event.isNone &&
      !(sagStarts ((allSites.map (siteMoves s.bus.frame s)).getD site [])).isEmpty) =
      allSites.filter (sagOpens s.bus.frame s) := List.filter_congr fun site hs => by
    have below := List.mem_range.1 hs
    rw [each site below, channelsMoved_site shaped _ below, movedSite_event]
    rfl
  have keeps : allSites.filter (fun site => !((sagSite (channelsMoved s.bus.frame s) site).event.isNone &&
      !(sagStarts ((allSites.map (siteMoves s.bus.frame s)).getD site [])).isEmpty)) =
      sitesKeeping s.bus.frame s := List.filter_congr fun site hs => by
    have below := List.mem_range.1 hs
    rw [each site below, channelsMoved_site shaped _ below, movedSite_event]
    rfl
  have acts : ∀ (sites : List Nat), (∀ site ∈ sites, site < 4) → ∀ u : State,
      sites.foldl (fun s' site => siteActs s.bus.frame site
        ((allSites.map (siteMoves s.bus.frame s)).getD site []) s') u =
      actAll s.bus.frame (siteMoves s.bus.frame s) sites u := fun sites below u =>
    List.foldl_ext _ _ _ fun v site hs => by rw [each site (below site hs)]
  unfold sagBoundary
  dsimp only
  rw [allChannels_eq shaped]
  dsimp only
  rw [opens, keeps]
  refine congrArg (fun w : State => { w with sag := { w.sag with lastBoundary := some s.bus.frame } })
    (acts (sitesKeeping s.bus.frame s ++ sitesOpening s.bus.frame s) (fun site hs => ?_) (orderDrawn s.bus.frame s))
  rcases List.mem_append.1 hs with h | h
  · exact sitesKeeping_below site h
  · exact sitesOpening_below site h


end

/-! ### The state in which the sites begin to act -/

section
variable {b : Nat} {s : State}

theorem orderDrawn_rest (b : Nat) (s : State) :
    orderDrawn b s =
      { s with
        sag := { s.sag with sites := (channelsMoved b s).sag.sites }
        free := (orderDrawn b s).free } := by
  refine (drawOrder_rest (allSites.filter (sagOpens b s)) (channelsMoved b s)).trans ?_
  exact congrArg (fun v : State => { v with free := (orderDrawn b s).free }) (channelsMoved_alone b s).rest

theorem orderDrawn_moves (b : Nat) (s : State) : Moves (only [.sag, .free]) s (orderDrawn b s) := by
  have moved : Moves (only [.sag, .free]) s (channelsMoved b s) := by
    unfold channelsMoved channelsOf
    exact .foldl _ (fun u site => moveChannels_moves b u site (by decide)) allSites s
  exact moved.trans (drawOrder_moves _ _ (by decide))

theorem orderDrawn_site (shaped : Shaped s) {site : Nat} (hs : site < 4) :
    sagSite (orderDrawn b s) site = movedSite b s site := by
  have same : sagSite (orderDrawn b s) site = sagSite (channelsMoved b s) site := by
    rw [sagSite, orderDrawn_rest]
    rfl
  rw [same, channelsMoved_site shaped b hs]

theorem orderDrawn_event (shaped : Shaped s) {site : Nat} (hs : site < 4) :
    (sagSite (orderDrawn b s) site).event = (sagSite s site).event := by
  rw [orderDrawn_site shaped hs, movedSite_event]

theorem orderDrawn_slot (i : Nat) : captureSlot (orderDrawn b s) i = captureSlot s i := by
  rw [captureSlot, orderDrawn_rest]
  rfl

theorem keeping_noneOpens (shaped : Shaped s) : NoneOpens (siteMoves b s) (sitesKeeping b s) (orderDrawn b s) :=
  fun site hs none_ => by
    obtain ⟨below, opens⟩ := mem_sitesKeeping.1 hs
    rw [orderDrawn_event shaped below] at none_
    rw [sagOpens, none_] at opens
    simpa using opens

theorem opening_allOpen (shaped : Shaped s) {t : State}
    (events : ∀ site, site < 4 → site ∉ sitesKeeping b s → (sagSite t site).event = (sagSite (orderDrawn b s) site).event) :
    AllOpen (siteMoves b s) (sitesOpening b s) t := fun site hs => by
  obtain ⟨below, opens⟩ := mem_sitesOpening.1 hs
  rw [events site below (sites_apart hs), orderDrawn_event shaped below]
  obtain ⟨none_, starts⟩ := (Bool.and_eq_true _ _).mp opens
  exact ⟨Option.isNone_iff_eq_none.1 none_, by simpa using starts⟩

/-! ### The turn of a site -/

/-- One site's turn: `u` before it, `x` after it, and what the sites before and after it leave. -/
structure Turn (b : Nat) (s : State) (site : Nat) (u x : State) : Prop where
  shaped : Shaped u
  before : ∃ sites, site ∉ sites ∧ sites.length ≤ 3 ∧ ActsOn sites (orderDrawn b s) u
  acts : siteActs b site (siteMoves b s site) u = x
  after : ∃ sites, site ∉ sites ∧ sites.length ≤ 3 ∧ ActsOn sites x (sitesActed b s)

theorem actAll_append (b : Nat) (moves : Nat → List (Role × Move)) (xs ys : List Nat) (s : State) :
    actAll b moves (xs ++ ys) s = actAll b moves ys (actAll b moves xs s) := List.foldl_append

theorem orderDrawn_shaped (shaped : Shaped s) : Shaped (orderDrawn b s) := (orderDrawn_moves b s).shaped shaped

theorem turn_of_split (shaped : Shaped s) {site : Nat} {xs ys : List Nat}
    (split : sitesKeeping b s ++ sitesOpening b s = xs ++ site :: ys) :
    Turn b s site (actAll b (siteMoves b s) xs (orderDrawn b s))
      (siteActs b site (siteMoves b s site) (actAll b (siteMoves b s) xs (orderDrawn b s))) ∧
      sitesActed b s = actAll b (siteMoves b s) ys
        (siteActs b site (siteMoves b s site) (actAll b (siteMoves b s) xs (orderDrawn b s))) := by
  have nodup : (xs ++ site :: ys).Nodup := by
    rw [← split]
    exact List.nodup_append'.2 ⟨sitesKeeping_nodup, sitesOpening_nodup, fun _ hk ho => sites_apart ho hk⟩
  have below : ∀ i ∈ xs ++ site :: ys, i < 4 := fun i hi => by
    rw [← split] at hi
    rcases List.mem_append.1 hi with h | h
    · exact sitesKeeping_below i h
    · exact sitesOpening_below i h
  have length : (xs ++ site :: ys).length = 4 := by rw [← split, List.length_append, sites_length]
  rw [List.length_append, List.length_cons] at length
  have absent := (List.nodup_middle.1 nodup).notMem
  rw [List.mem_append, not_or] at absent
  have drawn := orderDrawn_shaped (b := b) shaped
  have first := actAll_acts (b := b) (moves := siteMoves b s) xs drawn fun i hi => below i (List.mem_append_left _ hi)
  have shapedU := first.moves.shaped drawn
  have own := siteActs_acts (b := b) (site := site) (moves := siteMoves b s site) shapedU
  have last := actAll_acts (b := b) (moves := siteMoves b s) ys (own.moves.shaped shapedU) fun i hi =>
    below i (List.mem_append_right _ (List.mem_cons_of_mem _ hi))
  have all : sitesActed b s = actAll b (siteMoves b s) ys
      (siteActs b site (siteMoves b s site) (actAll b (siteMoves b s) xs (orderDrawn b s))) := by
    rw [sitesActed, split, actAll_append]
    rfl
  exact ⟨⟨shapedU, ⟨xs, absent.1, by omega, first⟩, rfl, ⟨ys, absent.2, by omega, all ▸ last⟩⟩, all⟩

/-- The turn of a site that opens no event, with the slots before it, after it and at the end. -/
theorem keeping_turn (shaped : Shaped s) {site : Nat} (h : site ∈ sitesKeeping b s) :
    ∃ u x y before after, Turn b s site u x ∧ site ∉ before ∧ site ∉ after ∧ (∀ k ∈ before, k < 4) ∧ (∀ k ∈ after, k < 4) ∧
      SlotsEnd before (orderDrawn b s) u ∧ SlotsEnd after x y ∧
      SlotsClaimed (sitesOpening b s) y (sitesActed b s) ∧
      ∀ k ∈ after, (sagSite x k).event = (sagSite (orderDrawn b s) k).event := by
  obtain ⟨xs, ys, split⟩ := List.append_of_mem h
  have nodup : (xs ++ site :: ys).Nodup := split ▸ sitesKeeping_nodup
  obtain ⟨nodupX, nodupSY, apart⟩ := List.nodup_append'.1 nodup
  obtain ⟨absentY, nodupY⟩ := List.nodup_cons.1 nodupSY
  have absentX : site ∉ xs := fun k => apart k List.mem_cons_self
  have stays := keeping_noneOpens (b := b) shaped
  have below := sitesKeeping_below (b := b) (s := s)
  rw [split] at stays below
  have whole : sitesKeeping b s ++ sitesOpening b s = xs ++ site :: (ys ++ sitesOpening b s) := by
    rw [split, List.append_assoc]
    rfl
  obtain ⟨turn, all⟩ := turn_of_split shaped whole
  rw [actAll_append] at all
  have drawn := orderDrawn_shaped (b := b) shaped
  have belowX : ∀ k ∈ xs, k < 4 := fun k hk => below k (List.mem_append_left _ hk)
  have belowY : ∀ k ∈ ys, k < 4 := fun k hk => below k (List.mem_append_right _ (List.mem_cons_of_mem _ hk))
  have first := actAll_acts (b := b) (moves := siteMoves b s) xs drawn belowX
  have own := siteActs_acts (b := b) (site := site) (moves := siteMoves b s site) turn.shaped
  have shapedX := own.moves.shaped turn.shaped
  have rest := actAll_acts (b := b) (moves := siteMoves b s) ys shapedX belowY
  have eventX : ∀ k, k ∉ xs → k ≠ site → (sagSite (siteActs b site (siteMoves b s site)
      (actAll b (siteMoves b s) xs (orderDrawn b s))) k).event = (sagSite (orderDrawn b s) k).event := fun k hk hne =>
    (own.events k (by simpa using hne)).trans (first.events k hk)
  have notX : ∀ k ∈ ys, k ∉ xs := fun k hk hx => apart hx (List.mem_cons_of_mem _ hk)
  have staysY : NoneOpens (siteMoves b s) ys (siteActs b site (siteMoves b s site)
      (actAll b (siteMoves b s) xs (orderDrawn b s))) := fun k hk none_ => by
    rw [eventX k (notX k hk) fun e => absentY (e ▸ hk)] at none_
    exact stays k (List.mem_append_right _ (List.mem_cons_of_mem _ hk)) none_
  refine ⟨_, _, actAll b (siteMoves b s) ys _, xs, ys, turn, absentX, absentY, belowX, belowY,
    actAll_slotsEnd xs _ drawn nodupX fun k hk => stays k (List.mem_append_left _ hk),
    actAll_slotsEnd ys _ shapedX nodupY staysY, ?_, fun k hk => eventX k (notX k hk) fun e => absentY (e ▸ hk)⟩
  rw [all]
  refine actAll_claims _ _ (rest.moves.shaped shapedX) sitesOpening_nodup (opening_allOpen shaped fun k _ hk => ?_)
  rw [split, List.mem_append, List.mem_cons, not_or, not_or] at hk
  exact (rest.events k hk.2.2).trans (eventX k hk.1 hk.2.1)

/-- The turn of a site that opens an event, with the slots that the closing sites and those before it leave. -/
theorem opening_turn (shaped : Shaped s) {site : Nat} (h : site ∈ sitesOpening b s) :
    ∃ u x v before after, Turn b s site u x ∧ site ∉ before ∧ site ∉ after ∧
      SlotsEnd (sitesKeeping b s) (orderDrawn b s) v ∧ SlotsClaimed before v u ∧
      SlotsClaimed after x (sitesActed b s) := by
  obtain ⟨xs, ys, split⟩ := List.append_of_mem h
  have nodup : (xs ++ site :: ys).Nodup := split ▸ sitesOpening_nodup
  obtain ⟨nodupX, nodupSY, apart⟩ := List.nodup_append'.1 nodup
  obtain ⟨absentY, nodupY⟩ := List.nodup_cons.1 nodupSY
  have absentX : site ∉ xs := fun k => apart k List.mem_cons_self
  have whole : sitesKeeping b s ++ sitesOpening b s = (sitesKeeping b s ++ xs) ++ site :: ys := by
    rw [split, List.append_assoc]
  obtain ⟨turn, all⟩ := turn_of_split shaped whole
  rw [actAll_append] at turn all
  have drawn := orderDrawn_shaped (b := b) shaped
  have kept := actAll_acts (b := b) (moves := siteMoves b s) (sitesKeeping b s) drawn sitesKeeping_below
  have shapedV := kept.moves.shaped drawn
  have below := sitesOpening_below (b := b) (s := s)
  have opens := opening_allOpen (b := b) shaped fun k _ hk => kept.events k hk
  rw [split] at opens below
  have first := actAll_acts (b := b) (moves := siteMoves b s) xs shapedV fun k hk => below k (List.mem_append_left _ hk)
  have own := siteActs_acts (b := b) (site := site) (moves := siteMoves b s site) turn.shaped
  refine ⟨_, _, _, xs, ys, turn, absentX, absentY,
    actAll_slotsEnd _ _ drawn sitesKeeping_nodup (keeping_noneOpens shaped),
    actAll_claims xs _ shapedV nodupX fun k hk => opens k (List.mem_append_left _ hk), ?_⟩
  rw [all]
  refine actAll_claims ys _ (own.moves.shaped turn.shaped) nodupY fun k hk => ?_
  have notX : k ∉ xs := fun hx => apart hx (List.mem_cons_of_mem _ hk)
  rw [own.events k (by simpa using fun e : k = site => absentY (e ▸ hk)), first.events k notX]
  exact opens k (List.mem_append_right _ (List.mem_cons_of_mem _ hk))

end

end Sys2Proof.Machine
end

