-- ==== Sys2Proof/Proofs/EventOpens.lean ====
section
/-!
PROOFS. An event that opens (R69, R73, R74) and the capture slot that it claims (R85, R86).
-/

namespace Sys2Proof.Machine

/-! ### The channels that reached SAG -/

/-- R69: the earliest sag start is the latest boundary or one of the starts, and none is earlier. -/
theorem earliest_spec (b : Nat) (starts : List Nat) :
    (earliest b starts = b ∨ earliest b starts ∈ starts) ∧
      ∀ x ∈ starts, frameDiff b x ≤ frameDiff b (earliest b starts) := by
  have each : ∀ (xs : List Nat) (best : Nat),
      let r := xs.foldl (fun best x => if frameDiff b best < frameDiff b x then x else best) best
      (r = best ∨ r ∈ xs) ∧ frameDiff b best ≤ frameDiff b r ∧ ∀ x ∈ xs, frameDiff b x ≤ frameDiff b r := by
    intro xs
    induction xs with
    | nil => exact fun best => ⟨.inl rfl, Nat.le_refl _, fun x hx => absurd hx List.not_mem_nil⟩
    | cons x xs ih =>
      intro best
      obtain ⟨mem, least, all⟩ := ih (if frameDiff b best < frameDiff b x then x else best)
      rw [List.foldl_cons]
      by_cases later : frameDiff b best < frameDiff b x
      · rw [if_pos later] at mem least all ⊢
        refine ⟨.inr (List.mem_cons.2 mem), by omega, fun y hy => ?_⟩
        rcases List.mem_cons.1 hy with rfl | hy
        · exact least
        · exact all y hy
      · rw [if_neg later] at mem least all ⊢
        refine ⟨mem.imp_right (List.mem_cons_of_mem _), least, fun y hy => ?_⟩
        rcases List.mem_cons.1 hy with rfl | hy
        · omega
        · exact all y hy
  exact ⟨(each starts b).1, (each starts b).2.2⟩

theorem mem_sagStarts {move : Nat → Move} {p : Role × Nat} :
    p ∈ sagStarts (channelMoves move) ↔ ∃ role, role < 3 ∧ p.1 = roleOf role ∧ move role = .sagged p.2 := by
  unfold sagStarts channelMoves
  rw [List.mem_filterMap]
  constructor
  · rintro ⟨m, hm, hp⟩
    obtain ⟨role, hr, rfl⟩ := List.mem_map.1 hm
    cases h : move role with
    | sagged start =>
      rw [h] at hp
      cases hp
      exact ⟨role, List.mem_range.1 hr, rfl, h⟩
    | _ =>
      rw [h] at hp
      exact absurd hp nofun
  · rintro ⟨role, hr, role_, hm⟩
    refine ⟨(roleOf role, move role), List.mem_map.2 ⟨role, List.mem_range.2 hr, rfl⟩, ?_⟩
    dsimp only
    rw [hm, ← role_]

theorem sagStarts_ordered (move : Nat → Move) :
    (sagStarts (channelMoves move)).Pairwise fun p q => p.1.code < q.1.code := by
  have roles : (channelMoves move).Pairwise fun p q => p.1.code < q.1.code :=
    List.pairwise_map.2 (show (List.range 3).Pairwise fun a b => (roleOf a).code < (roleOf b).code by decide)
  have first : ∀ {m : Role × Move} {p : Role × Nat}, (match m.2 with
      | .sagged start => some (m.1, start)
      | _ => none) = some p → p.1 = m.1 := fun {m p} h => by
    obtain ⟨role, move⟩ := m
    cases move with
    | sagged start => cases h; rfl
    | _ => cases h
  refine roles.filterMap _ fun x y (hxy : x.1.code < y.1.code) p hp q hq => ?_
  rw [first hp, first hq]
  exact hxy

theorem insertBy_last {x : Involved} : ∀ ys : List Involved, (∀ y ∈ ys, y.role.code < x.role.code) →
    insertBy (fun i : Involved => i.role.code) x ys = ys ++ [x]
  | [], _ => rfl
  | y :: ys, h => by
    unfold insertBy
    rw [if_neg (Nat.not_lt.2 (Nat.le_of_lt (h y List.mem_cons_self))),
      insertBy_last ys fun z hz => h z (List.mem_cons_of_mem _ hz)]
    rfl

/-- R70: the list of an event that opens, an entry for each channel that reached SAG. -/
theorem opened_involved (s : State) (site : Nat) (ps : List (Role × Nat)) : ∀ acc : List Involved,
    ps.Pairwise (fun p q => p.1.code < q.1.code) → (∀ i ∈ acc, ∀ p ∈ ps, i.role.code < p.1.code) →
    ps.foldl (fun xs p => joinInvolved s site p.1 xs) acc = acc ++ ps.map fun p => newInvolved s site p.1 := by
  induction ps with
  | nil => exact fun acc _ _ => (List.append_nil acc).symm
  | cons p ps ih =>
    intro acc ordered before
    obtain ⟨first, rest⟩ := List.pairwise_cons.1 ordered
    have absent : ¬(acc.any fun e => e.role == p.1) = true := fun h => by
      obtain ⟨i, hi, same⟩ := List.any_eq_true.1 h
      have less := before i hi p List.mem_cons_self
      rw [beq_iff_eq.1 same] at less
      exact absurd less (Nat.lt_irrefl _)
    have joined : joinInvolved s site p.1 acc = acc ++ [newInvolved s site p.1] := by
      unfold joinInvolved
      rw [if_neg absent]
      exact insertBy_last acc fun i hi => before i hi p List.mem_cons_self
    rw [List.foldl_cons, joined, ih _ rest, List.append_assoc]
    · rfl
    · intro i hi q hq
      rcases List.mem_append.1 hi with h | h
      · exact before i h q (List.mem_cons_of_mem _ hq)
      · rw [List.mem_singleton.1 h]
        exact first q hq

/-! ### The flags of the span -/

/-- R73: the flags that a span of boundaries gives. -/
theorem spanFlags (hs : List Boundary) : ∀ f : EventFlags, hs.foldl EventFlags.at f =
    { f with
      freqUnlocked := f.freqUnlocked || hs.any fun h => !h.locked
      rotationReversed := f.rotationReversed || hs.any fun h => h.reversed
      clipped := f.clipped || hs.any fun h => h.clipped
      probeGap := f.probeGap || hs.any fun h => h.gapped } := by
  induction hs with
  | nil => exact fun f => by simp
  | cons h hs ih =>
    intro f
    rw [List.foldl_cons, ih]
    simp only [EventFlags.at, List.any_cons, Bool.or_assoc]

theorem any_span_iff {b start : Nat} {hs : List Boundary} {p : Boundary → Bool} :
    (false || (hs.filter fun x => frameDiff b x.frame ≤ frameDiff b start).any p) = true ↔
      ∃ h, (h ∈ hs ∧ frameDiff b h.frame ≤ frameDiff b start) ∧ p h = true := by
  rw [Bool.false_or, List.any_eq_true]
  refine exists_congr fun h => and_congr_left fun _ => ?_
  rw [List.mem_filter, decide_eq_true_iff]

section
variable {b site : Nat} {s : State} {sagged : List (Role × Nat)}

/-- R73, R74: the flags of an event that opens. -/
theorem openedEvent_flags (b site : Nat) (s : State) (sagged : List (Role × Nat)) :
    let e := openedEvent site b sagged s
    let f := e.flags
    let spans := fun (h : Boundary) =>
      h ∈ (sagSite s site).history ∧ frameDiff b h.frame ≤ frameDiff b e.startFrame
    f = { freqUnlocked := f.freqUnlocked, rotationReversed := f.rotationReversed
          clipped := f.clipped, probeGap := f.probeGap, calExpired := f.calExpired
          atStart := f.atStart, overlap := f.overlap, noCapture := f.noCapture } ∧
      (f.freqUnlocked = true ↔ ∃ h, spans h ∧ h.locked = false) ∧
      (f.rotationReversed = true ↔ ∃ h, spans h ∧ h.reversed = true) ∧
      (f.clipped = true ↔ ∃ h, spans h ∧ h.clipped = true) ∧
      (f.probeGap = true ↔ ∃ h, spans h ∧ h.gapped = true) ∧
      f.calExpired = calExpired s site e.involved ∧
      (f.atStart = true ↔ s.sag.runBoundary = some e.startFrame) ∧
      f.overlap = captureOverlap s site ∧ (f.noCapture = true ↔ e.capture = none) := by
  intro e f spans
  have shape : f = { ({} : EventFlags) with
      freqUnlocked := f.freqUnlocked, rotationReversed := f.rotationReversed
      clipped := f.clipped, probeGap := f.probeGap, calExpired := f.calExpired
      atStart := f.atStart, overlap := f.overlap, noCapture := f.noCapture } := by
    simp only [f, e, openedEvent, spanFlags]
  have span := spanFlags
    ((sagSite s site).history.filter fun x => frameDiff b x.frame ≤ frameDiff b e.startFrame) {}
  have unlocked : f.freqUnlocked = _ := (congrArg EventFlags.freqUnlocked span :)
  have reversed : f.rotationReversed = _ := (congrArg EventFlags.rotationReversed span :)
  have clipped : f.clipped = _ := (congrArg EventFlags.clipped span :)
  have gapped : f.probeGap = _ := (congrArg EventFlags.probeGap span :)
  refine ⟨shape, ?_, ?_, ?_, ?_, rfl, beq_iff_eq, rfl, Option.isNone_iff_eq_none⟩
  · rw [unlocked]
    exact any_span_iff.trans (exists_congr fun h => and_congr_right fun _ => (Bool.not_eq_true' h.locked).to_iff)
  · rw [reversed]
    exact any_span_iff
  · rw [clipped]
    exact any_span_iff
  · rw [gapped]
    exact any_span_iff

end

/-! ### The claimed slot -/

theorem countRows_eq (rows : List (List CapSample)) (members : List CaptureMember) :
    countRows rows members = members.mapIdx fun j m =>
      { m with
        gaps := m.gaps + rows.countP fun row => (row.getD j ⟨0, true⟩).gap
        lastValue := match rows with
          | [] => m.lastValue
          | row :: _ => (row.getD j ⟨0, true⟩).value } := by
  unfold countRows
  rw [List.mapIdx_eq_zipIdx_map]
  refine List.map_congr_left fun x _ => ?_
  have gaps : ((rows.map fun row => row.getD x.2 ⟨0, true⟩).filter (·.gap)).length =
      rows.countP fun row => (row.getD x.2 ⟨0, true⟩).gap := by
    rw [← List.countP_eq_length_filter, List.countP_map]
    rfl
  dsimp only
  rw [gaps]
  cases rows <;> rfl

/-- A claim depends on the settings and members of the site, on its ring and on the roster. -/
theorem claimed_congr {s t : State} (sites : t.sites = s.sites) (roster : t.roster = s.roster)
    (rings : t.capture.rings = s.capture.rings) (event site start opening : Nat) (c : CaptureSlot) :
    claimed t event site start opening c = claimed s event site start opening c := by
  have members : memberList t site = memberList s site := by
    unfold memberList capMember
    simp only [siteOf_eq_of_sites sites, entryOf_of_roster roster]
  unfold claimed
  rw [members, rings, siteOf_eq_of_sites sites]

theorem memberList_eq {s : State} (shaped : Shaped s) {site : Nat} (hs : site < 4) :
    memberList s site = (List.range 8).filterMap fun role => (memberOf s site role).bind fun m =>
      if m.active then some (capMember s role m) else none := by
  have length : (siteOf s site).members.length = 8 := shaped.members_length hs
  unfold memberList
  rw [zipIdx_eq_range none length, List.filterMap_map]
  refine List.filterMap_congr fun role _ => ?_
  change (match memberOf s site role with
    | some m => _
    | none => _) = _
  cases memberOf s site role <;> rfl

theorem ringCopy_eq (r : Ring) (first count : Nat) (roles : List Role) :
    r.copy first count roles =
      ((r.frames.drop (frameDiff r.newest ((first + count + 2 ^ 48 - 1) % 2 ^ 48))).take count).map fun row =>
        roles.map fun role => row.getD role.code ⟨0, true⟩ := by
  unfold Ring.copy
  dsimp only
  refine congrArg (List.map _) ?_
  split
  · next none => rw [none, List.take_zero]
  · rfl

/-- R85, R86: the claimed slot, its START segment and its members. -/
theorem claimed_spec {s : State} (shaped : Shaped s) {site : Nat} (hs : site < 4) (event start b : Nat)
    (c : CaptureSlot) :
    let x := (siteOf s site).settings
    let ring := s.capture.rings.getD site {}
    let pre := Nat.min x.pc (start / 128)
    let first := (start + 2 ^ 48 - 128 * pre) % 2 ^ 48
    let n := Nat.min (frameDiff b first) (128 * (pre + x.wc))
    let d := claimed s event site start b c
    ∃ frames : List (List CapSample),
      d =
        { state := .filling, serial := (c.serial + 1) % 65536, event := some event, site := some site
          eventOpen := true, members := d.members, pins := c.pins
          segments :=
            [{ kind := .start, first := first
               firstTime := (ring.times.find? fun y => y.1 = first).map (·.2)
               pre := pre, planned := pre + x.wc, frames := frames
               filling := decide (frames.length < 128 * (pre + x.wc))
               live := d.members.map fun _ => .notYet }] } ∧
      frames = (((ring.frames.drop
          (frameDiff ring.newest ((first + n + 2 ^ 48 - 1) % 2 ^ 48))).take n).map
        fun row => d.members.map fun m => row.getD m.role.code ⟨0, true⟩) ∧
      d.members.map (fun m => (m.role, m.slot, m.serial)) =
        (List.range 8).filterMap (fun role => (memberOf s site role).bind fun m =>
          if m.active then some (roleOf role, m.slot, m.serial) else none) ∧
      (∀ m ∈ d.members, ∀ identity, (entryOf s m.slot).identity = some identity →
        m.kind = identity.kind ∧ m.fullScale = identity.fullScale) ∧
      ∀ j m, d.members[j]? = some m →
        m.gaps = frames.countP fun row => (row.getD j ⟨0, true⟩).gap := by
  intro x ring pre first n d
  let members := memberList s site
  let frames := ring.copy first n (members.map (·.role))
  have counted : d.members = countRows frames members := rfl
  have identity : d.members.map memberIdentity = members.map memberIdentity := by
    rw [counted]
    exact countRows_identity _ _
  have ofIdentity : ∀ {α : Type} (f : Role × Nat × Nat × PodKind × Nat → α),
      d.members.map (fun m => f (memberIdentity m)) = members.map fun m => f (memberIdentity m) := fun f => by
    have mapped := congrArg (List.map f) identity
    rwa [List.map_map, List.map_map] at mapped
  have listed : members = _ := memberList_eq shaped hs
  refine ⟨frames, ?shape, ?frames, ?listed, ?kinds, ?gaps⟩
  case shape =>
    have live : members.map (fun _ => LiveState.notYet) = d.members.map fun _ => .notYet := (ofIdentity fun _ => _).symm
    rw [← live]
    rfl
  case frames =>
    refine (ringCopy_eq ring first n _).trans (List.map_congr_left fun row _ => ?_)
    rw [List.map_map]
    exact (ofIdentity fun m => row.getD m.1.code ⟨0, true⟩).symm
  case listed =>
    refine (ofIdentity fun m => (m.1, m.2.1, m.2.2.1)).trans ?_
    rw [listed, List.map_filterMap]
    refine List.filterMap_congr fun role _ => ?_
    cases memberOf s site role with
    | none => rfl
    | some m =>
      change Option.map _ (if m.active = true then _ else _) = if m.active = true then _ else _
      split <;> rfl
  case kinds =>
    intro m hm identity_ he
    have mem : memberIdentity m ∈ members.map memberIdentity := identity ▸ List.mem_map_of_mem hm
    obtain ⟨k, hk, same⟩ := List.mem_map.1 mem
    rw [listed] at hk
    obtain ⟨role, _, hrole⟩ := List.mem_filterMap.1 hk
    obtain ⟨p, _, hp⟩ := Option.bind_eq_some_iff.1 hrole
    split at hp
    · cases hp
      have slot : p.slot = m.slot := congrArg (·.2.1) same
      have kind : (((entryOf s p.slot).identity.map (·.kind)).getD (roleKind role)) = m.kind := congrArg (·.2.2.2.1) same
      have scale : (((entryOf s p.slot).identity.map (·.fullScale)).getD 0) = m.fullScale := congrArg (·.2.2.2.2) same
      rw [slot, he] at kind scale
      exact ⟨kind.symm, scale.symm⟩
    · cases hp
  case gaps =>
    intro j m hm
    rw [counted, countRows_eq, List.getElem?_mapIdx] at hm
    obtain ⟨k, hk, rfl⟩ := Option.map_eq_some_iff.1 hm
    have fresh : k.gaps = 0 := by
      have mem := List.mem_of_getElem? hk
      rw [listed] at mem
      obtain ⟨role, _, hrole⟩ := List.mem_filterMap.1 mem
      obtain ⟨p, _, hp⟩ := Option.bind_eq_some_iff.1 hrole
      split at hp <;> cases hp
      rfl
    dsimp only
    rw [fresh, Nat.zero_add]

end Sys2Proof.Machine
end

