-- ==== Sys2Proof/Proofs/OpeningSites.lean ====
section
/-!
PROOFS. A site that opens its event at a half-cycle boundary: the event, its flags, its slot and EVENT_OPEN as the
boundary leaves them (R69, R73, R74, R85, R86).
-/

namespace Sys2Proof.Machine

/-! ### Before and after a site's turn -/

/-- The state `u` in which site `site` takes its turn, by the state `s` before the boundary. -/
structure StartsAs (b : Nat) (s : State) (site : Nat) (u : State) : Prop where
  shaped : Shaped u
  own : sagSite u site = movedSite b s site
  sites : u.sites = s.sites
  roster : u.roster = s.roster
  bus : u.bus = s.bus
  clock : u.clock = s.clock
  survey : u.survey = s.survey
  rings : u.capture.rings = s.capture.rings
  runBoundary : u.sag.runBoundary = s.sag.runBoundary
  ids : s.store.nextIds.event ≤ u.store.nextIds.event
  grows : QueueGrows 3 s u
  posts : PostsAtMost 3 s u

/-- The state `t` after the boundary has what the sites that acted have left. -/
structure Concludes (b : Nat) (s t : State) : Prop where
  sag : ∀ k, sagSite t k = sagSite (sitesActed b s) k
  harm : t.harm = (sitesActed b s).harm
  slots : t.capture.slots = (sitesActed b s).capture.slots
  link : t.link = (sitesActed b s).link
  ids : t.store.nextIds = (sitesActed b s).store.nextIds
  queue : t.store.queue = (sitesActed b s).store.queue

/-- The state `t` after the boundary, by the state `x` in which a site has just taken its turn. -/
structure EndsAs (site : Nat) (x t : State) : Prop where
  own : sagSite t site = sagSite x site
  mark : (harmSite t site).mark = (harmSite x site).mark
  ids : x.store.nextIds.event ≤ t.store.nextIds.event
  queue : x.store.queue <+: t.store.queue
  notices : Sends x.link → x.link.notices <+: t.link.notices

section
variable {b site : Nat} {s u x t : State}

theorem sagSite_ext {g h : SagSite} (channels : g.channels = h.channels) (history : g.history = h.history)
    (event : g.event = h.event) : g = h := by
  cases g
  cases h
  simp only at channels history event
  rw [channels, history, event]

theorem Turn.starts (turn : Turn b s site u x) (shaped : Shaped s) (hs : site < 4) : StartsAs b s site u := by
  obtain ⟨sites, absent, few, acts⟩ := turn.before
  have drawn := orderDrawn_moves b s
  have rest := orderDrawn_rest b s
  have store : (orderDrawn b s).store = s.store := by rw [rest]
  have link : (orderDrawn b s).link = s.link := by rw [rest]
  have capture : (orderDrawn b s).capture = s.capture := by rw [rest]
  have run : (orderDrawn b s).sag.runBoundary = s.sag.runBoundary := by rw [rest]
  have grows : QueueGrows 0 s (orderDrawn b s) := .of_store store
  have posts : PostsAtMost 0 s (orderDrawn b s) := .of_link link
  exact
    { shaped := turn.shaped
      own := (sagSite_ext (acts.channels site).1 (acts.channels site).2 (acts.events site absent)).trans
        (orderDrawn_site shaped hs)
      sites := (acts.moves.sites_eq (by decide)).trans (drawn.sites_eq (by decide))
      roster := (acts.moves.roster_eq (by decide)).trans (drawn.roster_eq (by decide))
      bus := (acts.moves.bus_eq (by decide)).trans (drawn.bus_eq (by decide))
      clock := (acts.moves.clock_eq (by decide)).trans (drawn.clock_eq (by decide))
      survey := (acts.moves.survey_eq (by decide)).trans (drawn.survey_eq (by decide))
      rings := acts.rings.trans (congrArg Capture.rings capture)
      runBoundary := acts.runBoundary.trans run
      ids := store ▸ acts.ids
      grows := (grows.trans acts.grows).mono (by omega)
      posts := (posts.trans acts.posts).mono (by omega) }

theorem Turn.ends (turn : Turn b s site u x) (concludes : Concludes b s t) : EndsAs site x t := by
  obtain ⟨sites, absent, few, acts⟩ := turn.after
  exact
    { own := (concludes.sag site).trans
        (sagSite_ext (acts.channels site).1 (acts.channels site).2 (acts.events site absent))
      mark := by rw [harmSite, concludes.harm]; exact acts.marks site absent
      ids := by rw [concludes.ids]; exact acts.ids
      queue := by rw [concludes.queue]; exact acts.grows.queue
      notices := fun sends => by rw [concludes.link]; exact (acts.posts sends).1.notices }

/-- The site's channels and history are those that the boundary gave it. -/
theorem Turn.history (turn : Turn b s site u x) (shaped : Shaped s) (hs : site < 4) (concludes : Concludes b s t) :
    (sagSite t site).channels = (movedSite b s site).channels ∧
      (sagSite t site).history = (movedSite b s site).history := by
  have starts := turn.starts shaped hs
  have own := siteActs_acts (b := b) (site := site) (moves := siteMoves b s site) turn.shaped
  rw [turn.acts] at own
  rw [(turn.ends concludes).own, (own.channels site).1, (own.channels site).2, starts.own]
  exact ⟨rfl, rfl⟩

theorem memberOf_same (starts : StartsAs b s site u) (k role : Nat) : memberOf u k role = memberOf s k role :=
  memberOf_of_sites starts.sites k role

theorem calExpired_same (starts : StartsAs b s site u) (xs : List Involved) :
    calExpired u site xs = calExpired s site xs := by
  unfold calExpired
  simp only [memberOf_same starts, entryOf_of_roster starts.roster]

end

/-! ### The slots that an opening finds and leaves -/

theorem slots_exists {s : State} (shaped : Shaped s) {p : CaptureSlot → Prop} :
    (∃ c ∈ s.capture.slots, p c) ↔ ∃ i, i < 12 ∧ p (captureSlot s i) := by
  have length := shaped.slots_length
  constructor
  · rintro ⟨c, hc, hp⟩
    obtain ⟨i, hi, rfl⟩ := List.getElem_of_mem hc
    refine ⟨i, by omega, ?_⟩
    rwa [captureSlot, List.getD_eq_getElem _ _ hi]
  · rintro ⟨i, hi, hp⟩
    have inside : i < s.capture.slots.length := by omega
    rw [captureSlot, List.getD_eq_getElem _ _ inside] at hp
    exact ⟨_, List.getElem_mem inside, hp⟩

theorem captureOverlap_iff {s : State} (shaped : Shaped s) (site : Nat) : captureOverlap s site = true ↔
    ∃ i, i < 12 ∧ (captureSlot s i).state = .filling ∧ (captureSlot s i).site = some site := by
  unfold captureOverlap
  rw [List.any_eq_true, ← slots_exists shaped (p := fun c => c.state = .filling ∧ c.site = some site)]
  exact exists_congr fun c => and_congr_right fun _ => by rw [Bool.and_eq_true, beq_iff_eq, beq_iff_eq]

section
variable {b site : Nat} {s v u : State} {before : List Nat}

/-- A slot that is FREE as a site takes its turn was FREE before the boundary, with its serial and pins. -/
theorem free_before (ends : SlotsEnd (sitesKeeping b s) (orderDrawn b s) v) (claims : SlotsClaimed before v u) {i : Nat}
    (hi : i < 12) (free : (captureSlot u i).state = .free) :
    (captureSlot s i).state = .free ∧ (captureSlot u i).serial = (captureSlot s i).serial ∧
      (captureSlot u i).pins = (captureSlot s i).pins := by
  have ended := (ends i hi).1
  rw [orderDrawn_slot] at ended
  rcases claims i hi with same | ⟨_, filling, _⟩
  · rw [same] at free ⊢
    exact ⟨ended.free_iff.1 free, ended.serial, ended.pins⟩
  · rw [free] at filling
    exact absurd filling nofun

/-- The slots of the site that are FILLING as it opens its event are those before the boundary, where no event of
another site names them. -/
theorem overlap_before (shaped : Shaped s) (ends : SlotsEnd (sitesKeeping b s) (orderDrawn b s) v)
    (claims : SlotsClaimed before v u) (absent : site ∉ before)
    (apart : ∀ other e p, other < 4 → (sagSite s other).event = some e → e.capture = some p →
      (captureSlot s p.1).site ≠ some site) :
    (∃ i, i < 12 ∧ (captureSlot u i).state = .filling ∧ (captureSlot u i).site = some site) ↔
      ∃ i, i < 12 ∧ (captureSlot s i).state = .filling ∧ (captureSlot s i).site = some site := by
  refine exists_congr fun i => and_congr_right fun hi => ?_
  obtain ⟨ended, unnamed⟩ := ends i hi
  rw [orderDrawn_slot] at ended unnamed
  constructor
  · rintro ⟨filling, own⟩
    rcases claims i hi with same | ⟨_, _, k, hk, other⟩
    · rw [same] at filling own
      rcases ended.state with kept | ⟨_, complete⟩
      · exact ⟨kept ▸ filling, ended.site ▸ own⟩
      · exact absurd (filling.symm.trans complete) nofun
    · cases own.symm.trans other
      exact absurd hk absent
  · rintro ⟨filling, own⟩
    have sameV : captureSlot v i = captureSlot s i := unnamed fun k hk named => by
      have below := sitesKeeping_below k hk
      obtain ⟨e, p, he, hp, rfl⟩ := (names_congr (orderDrawn_event shaped below)).1 named
      exact apart k e p below he hp own
    have sameU := claims.busy hi (by rw [sameV, filling]; exact nofun)
    rw [sameU, sameV]
    exact ⟨filling, own⟩

end

/-! ### A site that opens its event -/

section
variable {b site : Nat} {s t : State}

/-- Channel `role` of the site reached SAG at boundary `b`, with its sag start. -/
def Sags (b : Nat) (s : State) (site role start : Nat) : Prop :=
  role < 3 ∧ (sagMove b s site role).2 = .sagged start

theorem mem_starts {p : Role × Nat} : p ∈ sagStarts (siteMoves b s site) ↔
    ∃ role, p.1 = roleOf role ∧ Sags b s site role p.2 :=
  mem_sagStarts.trans (exists_congr fun _ => and_left_comm)

theorem starts_nonempty : sagStarts (siteMoves b s site) ≠ [] ↔ ∃ role start, Sags b s site role start := by
  rw [Ne, List.eq_nil_iff_forall_not_mem]
  push Not
  constructor
  · rintro ⟨p, hp⟩
    obtain ⟨role, _, sags⟩ := mem_starts.1 hp
    exact ⟨role, p.2, sags⟩
  · rintro ⟨role, start, sags⟩
    exact ⟨(roleOf role, start), mem_starts.2 ⟨role, rfl, sags⟩⟩

theorem sagOpens_iff : sagOpens b s site = true ↔
    (sagSite s site).event = none ∧ ∃ role start, Sags b s site role start := by
  rw [sagOpens, Bool.and_eq_true, Option.isNone_iff_eq_none, ← starts_nonempty]
  simp

/-- R69, R70: the start and the list of the event that opens. -/
theorem openedEvent_spec (u : State) :
    let starts := sagStarts (siteMoves b s site)
    let e := openedEvent site b starts u
    (e.startFrame = b ∨ ∃ role, Sags b s site role e.startFrame) ∧
      (∀ role start, Sags b s site role start → frameDiff b start ≤ frameDiff b e.startFrame) ∧
      (∀ role, role < 3 → ((∃ i ∈ e.involved, i.role = roleOf role) ↔ ∃ start, Sags b s site role start)) ∧
      (∀ i ∈ e.involved, i.holding = true) ∧ e.involved.map (·.role) = starts.map (·.1) := by
  intro starts e
  obtain ⟨mem, least⟩ := earliest_spec b (starts.map (·.2))
  have involved : e.involved = starts.map fun p => newInvolved u site p.1 :=
    (opened_involved u site starts [] (sagStarts_ordered _) fun _ h => absurd h List.not_mem_nil).trans
      (List.nil_append _)
  have injective : ∀ {i j : Nat}, i < 3 → j < 3 → roleOf i = roleOf j → i = j := fun {i j} hi hj h => by
    have codes := congrArg Role.code h
    rwa [code_roleOf (by omega), code_roleOf (by omega)] at codes
  refine ⟨mem.imp_right fun h => ?_, fun role start sags => least start ?_, fun role hr => ?_, fun i hi => ?_, ?_⟩
  · obtain ⟨p, hp, same⟩ := List.mem_map.1 h
    obtain ⟨role, _, sags⟩ := mem_starts.1 hp
    have start : e.startFrame = p.2 := same.symm
    exact ⟨role, start ▸ sags⟩
  · exact List.mem_map.2 ⟨(roleOf role, start), mem_starts.2 ⟨role, rfl, sags⟩, rfl⟩
  · rw [involved]
    constructor
    · rintro ⟨i, hi, role_⟩
      obtain ⟨p, hp, rfl⟩ := List.mem_map.1 hi
      obtain ⟨role', own, sags⟩ := mem_starts.1 hp
      have here : role' = role := injective sags.1 hr (own.symm.trans role_)
      exact ⟨p.2, here ▸ sags⟩
    · rintro ⟨start, sags⟩
      exact ⟨_, List.mem_map.2 ⟨(roleOf role, start), mem_starts.2 ⟨role, rfl, sags⟩, rfl⟩, rfl⟩
  · rw [involved] at hi
    obtain ⟨p, _, rfl⟩ := List.mem_map.1 hi
    rfl
  · rw [involved, List.map_map]
    rfl

end

end Sys2Proof.Machine
end

