-- ==== Sys2Proof/Proofs/OpenedEvents.lean ====
section
/-!
PROOFS. The event, the slot and the EVENT_OPEN of a site that opens its event, as they stand after the half-cycle
boundary (R69, R73, R74, R85, R86).
-/

namespace Sys2Proof.Machine

section
variable {b site : Nat} {s u x t : State}

theorem Turn.opened (turn : Turn b s site u x) (shaped : Shaped s) (hs : site < 4) (opens : sagOpens b s site = true) :
    openEvent site b (sagStarts (siteMoves b s site)) u = x := by
  obtain ⟨none_, starts⟩ := sagOpens_iff.1 opens
  have event : (sagSite u site).event = none := by
    rw [(turn.starts shaped hs).own, movedSite_event]
    exact none_
  rw [← turn.acts, siteActs_opens event (starts_nonempty.2 starts)]

theorem openEvent_event (shaped : Shaped u) (hs : site < 4) (sagged : List (Role × Nat)) :
    (sagSite (openEvent site b sagged u) site).event = some (openedEvent site b sagged u) := by
  rw [openEvent_eq shaped, sagSite, post_sag, eventOpened_sag]
  exact congrArg SagSite.event (sagSite_modifySag _ _ _ (by rw [shaped.sag_length]; exact hs))

theorem openEvent_mark (shaped : Shaped u) (hs : site < 4) (sagged : List (Role × Nat)) :
    (harmSite (openEvent site b sagged u) site).mark = some b := by
  rw [openEvent_eq shaped, harmSite, post_harm, eventOpened_harm]
  exact congrArg HarmSite.mark (harmSite_modifyHarm _ _ _ (by rw [shaped.harm_length]; exact hs))

theorem openEvent_id (shaped : Shaped u) (sagged : List (Role × Nat)) :
    (openEvent site b sagged u).store.nextIds.event = (openedEvent site b sagged u).id + 1 := by
  rw [openEvent_eq shaped, post_store, eventOpened_store, drawId_nextIds]
  rfl

/-- R69: EVENT_OPEN, where the notice queue has room. -/
theorem openEvent_told (shaped : Shaped u) (sagged : List (Role × Nat)) (sends : Sends u.link)
    (mask : u.link.mask.getLsbD 6 = true) (room : u.link.notices.length < 32) :
    ⟨openNotice site b sagged u, u.clock.time⟩ ∈ (openEvent site b sagged u).link.notices := by
  obtain ⟨link, clock⟩ := eventOpened_link site b sagged u
  rw [openEvent_eq shaped, post_mem (by rw [link]; exact sends) (by rw [link]; exact mask) (by rw [link]; exact room),
    clock]
  exact List.mem_append_right _ (List.mem_singleton.2 rfl)

/-- R73, R74: the flags, by the site's history as the boundary leaves it. -/
theorem Turn.openedFlags {v : State} {before : List Nat} (turn : Turn b s site u x) (shaped : Shaped s)
    (hs : site < 4) (concludes : Concludes b s t) (absent : site ∉ before)
    (ends : SlotsEnd (sitesKeeping b s) (orderDrawn b s) v) (claims : SlotsClaimed before v u) :
    let e := openedEvent site b (sagStarts (siteMoves b s site)) u
    let spans := fun (h : Boundary) =>
      h ∈ (sagSite t site).history ∧ frameDiff b h.frame ≤ frameDiff b e.startFrame
    let f := e.flags
    f = { freqUnlocked := f.freqUnlocked, rotationReversed := f.rotationReversed
          clipped := f.clipped, probeGap := f.probeGap, calExpired := f.calExpired
          atStart := f.atStart, overlap := f.overlap, noCapture := f.noCapture } ∧
      (f.freqUnlocked = true ↔ ∃ h, spans h ∧ h.locked = false) ∧
      (f.rotationReversed = true ↔ ∃ h, spans h ∧ h.reversed = true) ∧
      (f.clipped = true ↔ ∃ h, spans h ∧ h.clipped = true) ∧
      (f.probeGap = true ↔ ∃ h, spans h ∧ h.gapped = true) ∧
      (f.calExpired = true ↔ ∃ i ∈ e.involved, ∃ m,
        memberOf s site i.role.code = some m ∧ m.active = true ∧ (entryOf s m.slot).calDue = true) ∧
      (f.atStart = true ↔ s.sag.runBoundary = some e.startFrame) ∧
      ((∀ other e' p, other < 4 → (sagSite s other).event = some e' → e'.capture = some p →
          (captureSlot s p.1).site ≠ some site) →
        (f.overlap = true ↔ ∃ c ∈ s.capture.slots, c.state = .filling ∧ c.site = some site)) ∧
      (f.noCapture = true ↔ e.capture = none) := by
  intro e spans f
  have starts := turn.starts shaped hs
  have history : (sagSite t site).history = (sagSite u site).history := by
    rw [(turn.history shaped hs concludes).2, starts.own]
  obtain ⟨shape, unlocked, reversed, clipped, gapped, cal, run, overlap, capture⟩ :=
    openedEvent_flags b site u (sagStarts (siteMoves b s site))
  rw [← history] at unlocked reversed clipped gapped
  rw [starts.runBoundary] at run
  refine ⟨shape, unlocked, reversed, clipped, gapped, ?_, run, fun apart => ?_, capture⟩
  · rw [cal, calExpired_same starts, calExpired_iff]
  · rw [overlap, captureOverlap_iff turn.shaped, overlap_before shaped ends claims absent apart,
      slots_exists shaped (p := fun c => c.state = .filling ∧ c.site = some site)]

/-! ### The slot -/

theorem slotClaim_none (h : slotClaim u = none) : freeSlot u = none := Option.map_eq_none_iff.1 h

theorem slotClaim_some {i serial : Nat} (h : slotClaim u = some (i, serial)) :
    freeSlot u = some i ∧ serial = ((captureSlot u i).serial + 1) % 65536 := by
  obtain ⟨j, free, e⟩ := Option.map_eq_some_iff.1 h
  cases e
  exact ⟨free, rfl⟩

theorem captureSlot_of_slots {c d : State} (h : d.capture.slots = c.capture.slots) (i : Nat) :
    captureSlot d i = captureSlot c i := by
  rw [captureSlot, h]
  rfl

section
variable {after : List Nat} (turn : Turn b s site u x) (shaped : Shaped s) (hs : site < 4)
  (opens : sagOpens b s site = true) (concludes : Concludes b s t)
  (claimed : SlotsClaimed after x (sitesActed b s))
include turn shaped hs opens concludes claimed

/-- A slot that is not FREE as the site opens its event, and that the event does not claim, is the same after the
boundary. -/
theorem Turn.otherSlot {i : Nat} (hi : i < 12) (busy : (captureSlot u i).state ≠ .free) :
    captureSlot t i = captureSlot u i := by
  have other : freeSlot u ≠ some i := fun e => busy (freeSlot_some turn.shaped e).2.1
  have same := (openEvent_slots (b := b) turn.shaped site (sagStarts (siteMoves b s site))).1 i other
  rw [turn.opened shaped hs opens] at same
  rw [captureSlot_of_slots concludes.slots, claimed.busy hi (by rw [same]; exact busy), same]

/-- The slot that the event claims. -/
theorem Turn.claimedSlot {i : Nat} (free : freeSlot u = some i) :
    captureSlot t i = Machine.claimed s u.store.nextIds.event site
      (openingStart b (sagStarts (siteMoves b s site))) b (captureSlot u i) := by
  have starts := turn.starts shaped hs
  have own := (openEvent_slots (b := b) turn.shaped site (sagStarts (siteMoves b s site))).2 i free
  rw [turn.opened shaped hs opens, claimed_congr starts.sites starts.roster starts.rings] at own
  rw [captureSlot_of_slots concludes.slots,
    claimed.busy (freeSlot_some turn.shaped free).1 (by rw [own]; exact nofun), own]

end

/-- R85, R86: the slot of an event that opens, as the boundary leaves it. -/
theorem Turn.openedSlot {v : State} {before after : List Nat} (turn : Turn b s site u x) (shaped : Shaped s)
    (hs : site < 4) (opens : sagOpens b s site = true) (concludes : Concludes b s t)
    (ends : SlotsEnd (sitesKeeping b s) (orderDrawn b s) v) (earlier : SlotsClaimed before v u)
    (claimed : SlotsClaimed after x (sitesActed b s)) :
    let e := openedEvent site b (sagStarts (siteMoves b s site)) u
    (e.capture = none → ∀ i, i < 12 → (captureSlot t i).state ≠ .free) ∧
      ∀ i serial, e.capture = some (i, serial) →
        let x := (siteOf s site).settings
        let ring := s.capture.rings.getD site {}
        let pre := Nat.min x.pc (e.startFrame / 128)
        let first := (e.startFrame + 2 ^ 48 - 128 * pre) % 2 ^ 48
        let n := Nat.min (frameDiff b first) (128 * (pre + x.wc))
        let d := captureSlot t i
        i < 12 ∧ (captureSlot s i).state = .free ∧ (∀ j, j < i → (captureSlot t j).state ≠ .free) ∧
        serial = ((captureSlot s i).serial + 1) % 65536 ∧
        ∃ frames : List (List CapSample),
          d =
            { state := .filling, serial := serial, event := some e.id, site := some site
              eventOpen := true, members := d.members, pins := (captureSlot s i).pins
              segments :=
                [{ kind := .start, first := first
                   firstTime := (ring.times.find? fun y => y.1 = first).map (·.2)
                   pre := pre, planned := pre + x.wc, frames := frames
                   filling := decide (frames.length < 128 * (pre + x.wc))
                   live := d.members.map fun _ => .notYet }] } ∧
          frames = (((ring.frames.drop
              (frameDiff ring.newest ((first + n + 2 ^ 48 - 1) % 2 ^ 48))).take n).map
            fun row => d.members.map fun m => row.getD m.role.code ⟨0, true⟩) ∧
          d.members.map (fun m => (m.role, m.slot, m.serial)) =
            (List.range 8).filterMap (fun role => (memberOf s site role).bind fun m =>
              if m.active then some (roleOf role, m.slot, m.serial) else none) ∧
          (∀ m ∈ d.members, ∀ identity, (entryOf s m.slot).identity = some identity →
            m.kind = identity.kind ∧ m.fullScale = identity.fullScale) ∧
          ∀ j m, d.members[j]? = some m →
            m.gaps = frames.countP fun row => (row.getD j ⟨0, true⟩).gap := by
  intro e
  have other := @Turn.otherSlot b site s u x t after turn shaped hs opens concludes claimed
  refine ⟨fun none_ i hi => ?_, fun i serial some_ => ?_⟩
  · have busy := freeSlot_none turn.shaped (slotClaim_none none_) hi
    rw [other hi busy]
    exact busy
  · intro set ring pre first n d
    obtain ⟨free, next⟩ := slotClaim_some some_
    obtain ⟨hi, unclaimed, lower⟩ := freeSlot_some turn.shaped free
    obtain ⟨freeBefore, sameSerial, pins⟩ := free_before ends earlier hi unclaimed
    have slot : d = _ := turn.claimedSlot shaped hs opens concludes claimed free
    have spec := claimed_spec shaped hs e.id e.startFrame b (captureSlot u i)
    dsimp only at spec
    rw [pins, ← next] at spec
    rw [sameSerial] at next
    refine ⟨hi, freeBefore, fun j hj => ?_, next, ?_⟩
    · have busy := lower j hj
      rw [other (by omega) busy]
      exact busy
    · rw [slot]
      exact spec

/-- R69: EVENT_OPEN, as the boundary leaves the notice queue. -/
theorem Turn.openedTold (turn : Turn b s site u x) (shaped : Shaped s) (hs : site < 4)
    (opens : sagOpens b s site = true) (concludes : Concludes b s t) (sends : Sends s.link)
    (mask : s.link.mask.getLsbD 6 = true) (room : s.link.notices.length ≤ 28) :
    let e := openedEvent site b (sagStarts (siteMoves b s site)) u
    ⟨.eventOpen e.id site e.startFrame e.startTime (e.involved.map (·.role)) e.capture
      e.flags.atStart e.flags.overlap e.flags.noCapture, s.clock.time⟩ ∈ t.link.notices := by
  intro e
  have starts := turn.starts shaped hs
  obtain ⟨appends, length⟩ := starts.posts sends
  have told := openEvent_told (b := b) (site := site) turn.shaped (sagStarts (siteMoves b s site)) (appends.sends sends)
    (by rw [appends.mask]; exact mask) (by omega)
  have sendsX := (post_appends (openNotice site b (sagStarts (siteMoves b s site)) u)
    (s := eventOpened site b (sagStarts (siteMoves b s site)) u)
    (by rw [(eventOpened_link _ _ _ _).1]; exact appends.sends sends)).sends
    (by rw [(eventOpened_link _ _ _ _).1]; exact appends.sends sends)
  rw [← openEvent_eq turn.shaped] at sendsX
  rw [turn.opened shaped hs opens] at told sendsX
  rw [(openedEvent_spec u).2.2.2.2, ← starts.clock]
  exact ((turn.ends concludes).notices sendsX).subset told

end

end Sys2Proof.Machine
end

