-- ==== Sys2Proof/Proofs/StandingEvents.lean ====
section
/-!
PROOFS. An open event at a half-cycle boundary (R70, R71, R73 to R75): its list and flags, and, where it closes, its
record, its EVENT_CLOSE and its slot with the END segment of R88.
-/

namespace Sys2Proof.Machine

/-! ### The event's list and flags -/

section
variable {b site : Nat} {s u : State} {e : OpenEvent}

/-- The list of an open event after the moves of its site's channels. -/
def actedList (b site : Nat) (moves : List (Role × Move)) (s : State) (e : OpenEvent) : List Involved :=
  moves.foldl (movedList s site b) e.involved

theorem actedEvent_eq {moves : List (Role × Move)} {h : Boundary} {rest : List Boundary}
    (hh : (sagSite u site).history = h :: rest) :
    actedEvent b site moves u e =
      { e with
        involved := actedList b site moves u e
        flags :=
          { e.flags with
            freqUnlocked := e.flags.freqUnlocked || !h.locked
            rotationReversed := e.flags.rotationReversed || h.reversed
            clipped := e.flags.clipped || h.clipped
            probeGap := e.flags.probeGap || h.gapped
            calExpired := e.flags.calExpired || calExpired u site (actedList b site moves u e)
            probeLost := e.flags.probeLost || moves.any fun x => x.2.isLost } } := by
  unfold actedEvent actedList
  rw [takeMoves_eq]
  unfold flagBoundary
  rw [hh]
  rfl

theorem actedEvent_involved {moves : List (Role × Move)} :
    (actedEvent b site moves u e).involved = actedList b site moves u e := by
  unfold actedEvent actedList
  rw [takeMoves_eq]
  rfl

theorem movedList_nonempty {xs : List Involved} {x : Role × Move} (h : xs ≠ []) : movedList u site b xs x ≠ [] := by
  unfold movedList
  split
  · exact h
  · unfold joinInvolved
    split
    · exact mt List.map_eq_nil_iff.1 h
    · intro none_
      have perm := insertBy_perm (fun i : Involved => i.role.code) (newInvolved u site x.1) xs
      rw [none_] at perm
      exact absurd perm.symm.eq_nil nofun
  · exact mt List.map_eq_nil_iff.1 h
  · exact mt List.map_eq_nil_iff.1 h

theorem actedList_nonempty {moves : List (Role × Move)} (h : e.involved ≠ []) : actedList b site moves u e ≠ [] := by
  unfold actedList
  exact List.foldlRecOn moves _ (motive := fun xs => xs ≠ []) h fun xs nonempty x _ => movedList_nonempty nonempty

/-- R70, R75: the list. -/
theorem StartsAs.involved (starts : StartsAs b s site u) :
    let move := fun (role : Nat) => sagMove b s site role
    let after := (actedEvent b site (siteMoves b s site) u e).involved
    (∀ role, role < 3 →
      let mine := fun (xs : List Involved) => xs.filter fun i => i.role = roleOf role
      let ends := fun (recovery least half : Nat) =>
        mine after = (mine e.involved).map fun i =>
          { i with
            minR := Nat.min i.minR least, half := Nat.min 65535 (i.half + half)
            recovery := some recovery, holding := false }
      ((move role).2 = .still → mine after = mine e.involved) ∧
      (∀ start, (move role).2 = .sagged start →
        mine after =
          if mine e.involved = [] then
            [⟨roleOf role, ((memberOf s site role).map (·.serial)).getD 0, 2000, 0, none, true⟩]
          else (mine e.involved).map fun i => { i with holding := true }) ∧
      (∀ recovery least half, (move role).2 = .recovered recovery least half → ends recovery least half) ∧
      (∀ least half, (move role).2 = .lost least half → ends b least half)) ∧
    (∀ i : Involved, 3 ≤ i.role.code → (i ∈ after ↔ i ∈ e.involved)) ∧
    (e.involved.Pairwise (fun i j => i.role.code < j.role.code) →
      after.Pairwise (fun i j => i.role.code < j.role.code)) := by
  intro move after
  have list : after = actedList b site (siteMoves b s site) u e := actedEvent_involved
  refine ⟨fun role hr => ?_, fun i hi => ?_, fun ordered => ?_⟩
  · have entries := entries_after (s := u) (site := site) (b := b) (xs := e.involved)
      (move := fun role => (sagMove b s site role).2) hr
    rw [memberOf_same starts] at entries
    rw [list]
    exact entries
  · have same := entriesOf_beyond (s := u) (site := site) (b := b) (xs := e.involved)
      (move := fun role => (sagMove b s site role).2) hi
    have own : ∀ zs : List Involved, i ∈ zs ↔ i ∈ entriesOf i.role zs := fun zs =>
      ⟨fun h => mem_entriesOf.2 ⟨h, rfl⟩, fun h => (mem_entriesOf.1 h).1⟩
    rw [list, own, own e.involved]
    exact (congrArg (i ∈ ·) same).to_iff
  · rw [list]
    exact movedLists_ordered _ _ ordered

/-- R73, R74: the flags. -/
theorem StartsAs.flags (starts : StartsAs b s site u) :
    let f := e.flags
    let e1 := actedEvent b site (siteMoves b s site) u e
    let g := e1.flags
    e1 = { e with involved := e1.involved, flags := e1.flags } ∧
    g = { f with
      freqUnlocked := g.freqUnlocked, rotationReversed := g.rotationReversed
      clipped := g.clipped, probeGap := g.probeGap, calExpired := g.calExpired
      probeLost := g.probeLost } ∧
    (∃ h, (movedSite b s site).history.head? = some h ∧
      g.freqUnlocked = (f.freqUnlocked || !h.locked) ∧
      g.rotationReversed = (f.rotationReversed || h.reversed) ∧
      g.clipped = (f.clipped || h.clipped) ∧ g.probeGap = (f.probeGap || h.gapped)) ∧
    (g.calExpired = true ↔ f.calExpired = true ∨ ∃ i ∈ e1.involved, ∃ m,
      memberOf s site i.role.code = some m ∧ m.active = true ∧ (entryOf s m.slot).calDue = true) ∧
    (g.probeLost = true ↔ f.probeLost = true ∨
      ∃ role least half, role < 3 ∧ (sagMove b s site role).2 = .lost least half) := by
  intro f e1 g
  obtain ⟨h, rest, history⟩ := movedSite_nonempty b s site
  have acted := actedEvent_eq (b := b) (e := e) (moves := siteMoves b s site)
    ((congrArg SagSite.history starts.own).trans history)
  have list : e1.involved = actedList b site (siteMoves b s site) u e := actedEvent_involved
  have shape : ∀ {a : OpenEvent} {xs : List Involved} {f : EventFlags}, a = { e with involved := xs, flags := f } →
      a = { e with involved := a.involved, flags := a.flags } := by
    rintro _ _ _ rfl
    rfl
  have flags : g = _ := congrArg OpenEvent.flags acted
  have shapeF : ∀ {g : EventFlags} {a1 a2 a3 a4 a5 a6 : Bool},
      g = { f with
        freqUnlocked := a1, rotationReversed := a2, clipped := a3, probeGap := a4, calExpired := a5, probeLost := a6 } →
      g = { f with
        freqUnlocked := g.freqUnlocked, rotationReversed := g.rotationReversed
        clipped := g.clipped, probeGap := g.probeGap, calExpired := g.calExpired, probeLost := g.probeLost } := by
    rintro _ _ _ _ _ _ _ rfl
    rfl
  refine ⟨shape acted, shapeF flags, ⟨h, by rw [history]; rfl, ?_, ?_, ?_, ?_⟩, ?_, ?_⟩
  · rw [flags]
  · rw [flags]
  · rw [flags]
  · rw [flags]
  · have due : g.calExpired = (f.calExpired || calExpired u site e1.involved) := by
      rw [flags, list]
    rw [due, Bool.or_eq_true, calExpired_same starts, calExpired_iff]
  · have lost : g.probeLost = (f.probeLost || (siteMoves b s site).any fun x => x.2.isLost) := by
      rw [flags]
    rw [lost, Bool.or_eq_true]
    exact or_congr_right isLost_after

/-- R71: an entry holds after the boundary. -/
theorem actedEvent_holds :
    (actedEvent b site (siteMoves b s site) u e).involved.any (·.holding) = true ↔
      (∃ i ∈ e.involved, i.holding = true ∧ ¬Leaves (fun role => (sagMove b s site role).2) i.role.code) ∨
        ∃ role start, Sags b s site role start := by
  rw [actedEvent_involved]
  exact holding_after

end

/-! ### The slot that a close ends -/

/-- R88, R89: the slot of a closing event. -/
theorem closeSlot_spec (s : State) (site b : Nat) {c : CaptureSlot} (filling : c.state = .filling) :
    let x := (siteOf s site).settings
    let ring := s.capture.rings.getD site {}
    let first := (b + 2 ^ 48 - 128 * x.pe) % 2 ^ 48
    let rows := (ring.frames.drop (frameDiff ring.newest
      ((first + 128 * x.pe + 2 ^ 48 - 1) % 2 ^ 48))).take (128 * x.pe)
    let frames := rows.map fun row =>
      c.members.map fun m => row.getD m.role.code ⟨0, true⟩
    let end_ : Segment :=
      { kind := .ending, first := first
        firstTime := (ring.times.find? fun y => y.1 = first).map (·.2), pre := x.pe
        planned := x.pe + x.we, frames := frames
        filling := decide (frames.length < 128 * (x.pe + x.we))
        live := c.members.map fun _ => .notYet }
    let takes := ∃ g rest, c.segments = g :: rest ∧
      128 * g.planned + 128 * x.pe ≤ frameDiff b g.first
    let d := closeSlot s site b c
    d = { c with
      state := d.state, eventOpen := false, segments := d.segments
      members := d.members } ∧
    (takes → d.segments = c.segments ++ [end_] ∧
      d.members = c.members.mapIdx fun j m =>
        { m with
          gaps := m.gaps + frames.countP fun row => (row.getD j ⟨0, true⟩).gap
          lastValue := match frames with
            | [] => m.lastValue
            | row :: _ => (row.getD j ⟨0, true⟩).value }) ∧
    (¬takes → d.segments = c.segments ∧ d.members = c.members) ∧
    d.state = if d.segments.all (fun g => !g.filling) then .complete else .filling := by
  intro x ring first rows frames end_ takes d
  let ended : CaptureSlot := { addEnd s site b c with eventOpen := false }
  have rest : ended = { c with
      eventOpen := false, segments := (addEnd s site b c).segments, members := (addEnd s site b c).members } := by
    simp only [ended]
    rw [addEnd_rest]
  have state : ended.state = .filling := (congrArg CaptureSlot.state rest).trans filling
  have full : captureDone ended = ended.segments.all fun g => !g.filling := by
    rw [captureDone, state]
    rfl
  have done : d = { ended with
      state := if (ended.segments.all fun g => !g.filling) = true then .complete else .filling } := by
    change completeSlot ended = _
    unfold completeSlot
    rw [full]
    by_cases all : (ended.segments.all fun g => !g.filling) = true
    · rw [if_pos all, if_pos all]
    · rw [if_neg all, if_neg all, ← state]
  have segments : d.segments = (addEnd s site b c).segments :=
    (congrArg CaptureSlot.segments done :)
  have members : d.members = (addEnd s site b c).members :=
    (congrArg CaptureSlot.members done :)
  have end_eq : endSegment s site b c = end_ := endSegment_eq s site b c
  refine ⟨?_, fun yes => ?_, fun no => ?_, ?_⟩
  · have states := congrArg CaptureSlot.state done
    rw [segments, members, states, done, rest]
  · have taken : addEnd s site b c =
        { c with segments := c.segments ++ [end_], members := countRows frames c.members } := by
      unfold addEnd
      rw [if_pos (takesEnd_iff.2 yes), end_eq]
    rw [segments, members, taken]
    exact ⟨rfl, countRows_eq _ _⟩
  · have kept : addEnd s site b c = c := if_neg (mt takesEnd_iff.1 no)
    rw [segments, members, kept]
    exact ⟨rfl, rfl⟩
  · rw [segments]
    exact congrArg CaptureSlot.state done

end Sys2Proof.Machine
end

