-- ==== Sys2Proof/Proofs/ClosingEvents.lean ====
section
/-!
PROOFS. What a half-cycle boundary leaves of an open event (R71): the event, or the record, EVENT_CLOSE and slot of
one that closes (R72, R78, R80, R88).
-/

namespace Sys2Proof.Machine

section
variable {b site : Nat} {s u x t : State} {e : OpenEvent}

/-- The event stays, or closes, by the list that the boundary leaves it. -/
theorem Turn.standing (turn : Turn b s site u x) (shaped : Shaped s) (hs : site < 4)
    (he : (sagSite s site).event = some e) :
    x = if (actedEvent b site (siteMoves b s site) u e).involved.any (·.holding) then
      setEvent (some (actedEvent b site (siteMoves b s site) u e)) site u
    else closeEvent site b (some b) (actedEvent b site (siteMoves b s site) u e) u := by
  have event : (sagSite u site).event = some e := by
    rw [(turn.starts shaped hs).own, movedSite_event]
    exact he
  rw [← turn.acts]
  exact siteActs_open event

theorem Turn.stays (turn : Turn b s site u x) (shaped : Shaped s) (hs : site < 4) (concludes : Concludes b s t)
    (he : (sagSite s site).event = some e)
    (holds : (actedEvent b site (siteMoves b s site) u e).involved.any (·.holding) = true) :
    (sagSite t site).event = some (actedEvent b site (siteMoves b s site) u e) := by
  have after := turn.standing shaped hs he
  rw [if_pos holds] at after
  rw [(turn.ends concludes).own, after, setEvent, sagSite_modifySag _ _ _ (by rw [turn.shaped.sag_length]; exact hs)]

/-- The record of a closing event where the queue takes it. -/
theorem closeEvent_queue {e1 : OpenEvent} (fits : eventFits u = true) :
    (closeEvent site b (some b) e1 u).store.queue =
      u.store.queue ++ [⟨.event, e1.id, .event (toldRecord site b e1 u), false⟩] := by
  rw [closeEvent_store, if_pos fits]
  rfl

/-- The flags of a record that is told with CLOCK_UNSET, where its event's flags were `f`. -/
theorem flags_told {r : EventRecord} {f : EventFlags} {long : Bool} (h : r.flags = { f with long := long })
    (unset : Bool) :
    let told : EventRecord := { r with flags := { r.flags with clockUnset := unset } }
    told.flags = { f with long := told.flags.long, clockUnset := unset } := by
  intro told
  simp only [told, h]

theorem eventRecord_flags (e1 : OpenEvent) : (eventRecord u site b e1).flags =
    { e1.flags with long := decide (65535 < halfCycles (endBoundary b e1) e1.startFrame) } := rfl

theorem toldRecord_fits {e1 : OpenEvent} (fits : eventFits u = true) :
    (toldRecord site b e1 u).flags =
      { e1.flags with long := (toldRecord site b e1 u).flags.long, clockUnset := !u.clock.valid } := by
  have told := flags_told (eventRecord_flags (u := u) (site := site) (b := b) e1) (!u.clock.valid)
  unfold toldRecord
  rw [fits, Bool.true_and]
  exact told

/-- R79: when an event ends, and how long it was. -/
theorem toldRecord_times (e1 : OpenEvent) :
    ∃ stop, (stop = b ∧ (∀ i ∈ e1.involved, i.recovery = none) ∨
        (∃ i ∈ e1.involved, i.recovery = some stop) ∧
          ∀ i ∈ e1.involved, ∀ x, i.recovery = some x → frameDiff b stop ≤ frameDiff b x) ∧
      let n := frameDiff stop e1.startFrame / 64
      (toldRecord site b e1 u).half = Nat.min n 65535 ∧ ((toldRecord site b e1 u).flags.long = true ↔ 65535 < n) ∧
      ∀ h, (sagSite u site).history.find? (fun h => h.frame = stop) = some h →
        (toldRecord site b e1 u).endTime = h.time ∧
        let ms := fun (x : ClockTime) => x.sec * 1000 + x.ms
        (ms e1.startTime ≤ ms h.time → ms h.time < 2 ^ 32 * 1000 →
          (toldRecord site b e1 u).ms = ms h.time - ms e1.startTime) := by
  refine ⟨endBoundary b e1, endBoundary_spec b e1, ?_, decide_eq_true_iff, fun h hh => ?_⟩
  · exact Nat.min_comm _ _
  · have time : ((sagSite u site).timeOf (endBoundary b e1)).getD u.bus.frameTime = h.time := by
      have at_ : (sagSite u site).history.find? (fun b' => b'.frame == endBoundary b e1) = some h := hh
      rw [SagSite.timeOf, at_]
      rfl
    have ends : (toldRecord site b e1 u).endTime = h.time := time
    have lasts : (toldRecord site b e1 u).ms = msBetween h.time e1.startTime :=
      congrArg (msBetween · e1.startTime) time
    rw [ends, lasts]
    exact ⟨rfl, (msBetween_spec h.time e1.startTime).1⟩

section
variable (turn : Turn b s site u x) (shaped : Shaped s) (hs : site < 4) (concludes : Concludes b s t)
  (he : (sagSite s site).event = some e)
  (closes : ¬(actedEvent b site (siteMoves b s site) u e).involved.any (·.holding) = true)
include turn shaped hs concludes he closes

theorem Turn.ended : (sagSite t site).event = none := by
  have after := turn.standing shaped hs he
  rw [if_neg closes] at after
  rw [(turn.ends concludes).own, after, sagSite, (closeEvent_parts _ _ _ _ _).2.1]
  exact congrArg SagSite.event (sagSite_modifySag _ _ _ (by rw [turn.shaped.sag_length]; exact hs))

/-- R72, R78 to R80: the record and EVENT_CLOSE. -/
theorem Turn.closedRecord (nonempty : e.involved ≠ [])
    (up : s.store.state = .ready ∨ s.store.state = .reclaiming) (room : s.store.queue.length ≤ 12) :
    let e1 := actedEvent b site (siteMoves b s site) u e
    ∃ r : EventRecord, ⟨.event, e.id, .event r, false⟩ ∈ t.store.queue ∧
      r.id = e.id ∧ r.site = site ∧ r.number = s.survey.number ∧
      r.startTime = e.startTime ∧ r.capture = e.capture ∧
      r.udin = (siteOf s site).settings.udin ∧
      r.involved = e1.involved.map (fun i => (i.role, i.serial, i.minR, i.half)) ∧
      (∀ i ∈ e1.involved, r.minR ≤ i.minR) ∧
      (∃ i, e1.involved.find? (fun i => i.minR = r.minR) = some i ∧ i.role = r.worst) ∧
      (r.interruption = true ↔ r.minR < (siteOf s site).settings.ti) ∧
      r.flags = { e1.flags with long := r.flags.long, clockUnset := !s.clock.valid } ∧
      (∃ stop, (stop = b ∧ (∀ i ∈ e1.involved, i.recovery = none) ∨
          (∃ i ∈ e1.involved, i.recovery = some stop) ∧
            ∀ i ∈ e1.involved, ∀ x, i.recovery = some x → frameDiff b stop ≤ frameDiff b x) ∧
        let n := frameDiff stop e.startFrame / 64
        r.half = Nat.min n 65535 ∧ (r.flags.long = true ↔ 65535 < n) ∧
        ∀ h, (sagSite t site).history.find? (fun h => h.frame = stop) = some h →
          r.endTime = h.time ∧
          let ms := fun (x : ClockTime) => x.sec * 1000 + x.ms
          (ms e.startTime ≤ ms h.time → ms h.time < 2 ^ 32 * 1000 →
            r.ms = ms h.time - ms e.startTime)) ∧
      (s.link.sending.isSome = true → s.link.owed = none →
        s.link.mask.getLsbD 7 = true → s.link.notices.length ≤ 28 →
        ⟨.eventClose (eventSummary r) false, s.clock.time⟩ ∈ t.link.notices) := by
  intro e1
  have starts := turn.starts shaped hs
  have ends := turn.ends concludes
  have after := turn.standing shaped hs he
  rw [if_neg closes] at after
  have same : e1 = { e with involved := e1.involved, flags := e1.flags } := starts.flags.1
  have id : e1.id = e.id := (congrArg OpenEvent.id same :)
  have startFrame : e1.startFrame = e.startFrame := (congrArg OpenEvent.startFrame same :)
  have startTime : e1.startTime = e.startTime := (congrArg OpenEvent.startTime same :)
  have capture : e1.capture = e.capture := (congrArg OpenEvent.capture same :)
  have list : e1.involved ≠ [] := by
    rw [actedEvent_involved]
    exact actedList_nonempty nonempty
  have fits : eventFits u = true := by
    refine (eventFits_iff u).2 ⟨?_, ?_, ?_, Nat.lt_of_le_of_lt starts.grows.length (by omega)⟩
    all_goals
      rw [starts.grows.state]
      rcases up with up | up <;> rw [up] <;> exact nofun
  have queued := closeEvent_queue (site := site) (b := b) (e1 := e1) fits
  rw [← after] at queued
  obtain ⟨least, i, found, role⟩ := worstOf_spec list
  have times := toldRecord_times (b := b) (site := site) (u := u) e1
  rw [startFrame, startTime] at times
  have history : (sagSite u site).history = (sagSite t site).history := by
    rw [starts.own, (turn.history shaped hs concludes).2]
  rw [history] at times
  have settings : siteOf u site = siteOf s site := siteOf_eq_of_sites starts.sites site
  refine ⟨toldRecord site b e1 u, ?queue, id, rfl, ?number, startTime, capture, ?udin, rfl, least, ⟨i, found, role⟩,
    ?interruption, ?flags, times, fun sending unowed mask room => ?told⟩
  case queue =>
    refine ends.queue.subset ?_
    rw [queued, id]
    exact List.mem_append_right _ (List.mem_singleton.2 rfl)
  case number => exact congrArg Survey.number starts.survey
  case udin =>
    rw [← settings]
    exact rfl
  case interruption =>
    rw [← settings]
    exact decide_eq_true_iff
  case flags =>
    rw [← starts.clock]
    exact toldRecord_fits fits
  case told =>
    have sends : Sends s.link := ⟨sending, unowed⟩
    obtain ⟨appends, length⟩ := starts.posts sends
    have link := closeEvent_link (site := site) (c := b) (e := e1) (s := u) (some b)
    rw [← after, fits] at link
    have told := post_mem (b := .eventClose (eventSummary (toldRecord site b e1 u)) false) (appends.sends sends)
      (by rw [appends.mask]; exact mask) (by omega)
    have sendsX : Sends x.link := by
      rw [link]
      exact (post_appends _ (appends.sends sends)).sends (appends.sends sends)
    refine (ends.notices sendsX).subset ?_
    rw [link]
    refine told ▸ ?_
    rw [starts.clock]
    exact List.mem_append_right _ (List.mem_singleton.2 rfl)

end

/-- R88: the slot of a closing event that no other event names. -/
theorem closingSlot {y : State} {before after : List Nat} (turn : Turn b s site u x) (shaped : Shaped s) (hs : site < 4)
    (concludes : Concludes b s t) (he : (sagSite s site).event = some e)
    (closes : ¬(actedEvent b site (siteMoves b s site) u e).involved.any (·.holding) = true)
    (absentBefore : site ∉ before) (absentAfter : site ∉ after) (belowBefore : ∀ k ∈ before, k < 4)
    (belowAfter : ∀ k ∈ after, k < 4) (endsBefore : SlotsEnd before (orderDrawn b s) u) (endsAfter : SlotsEnd after x y)
    (claims : SlotsClaimed (sitesOpening b s) y (sitesActed b s))
    (events : ∀ k ∈ after, (sagSite x k).event = (sagSite (orderDrawn b s) k).event)
    {i serial : Nat} (capture : e.capture = some (i, serial)) (hi : i < 12) (filling : (captureSlot s i).state = .filling)
    (apart : ∀ other e' p, other < 4 → other ≠ site → (sagSite s other).event = some e' →
      e'.capture = some p → p.1 ≠ i) :
    captureSlot t i = closeSlot s site b (captureSlot s i) := by
  have starts := turn.starts shaped hs
  have unnamed : ∀ k, k < 4 → k ≠ site → ¬Names (orderDrawn b s) k i := fun k hk other named => by
    obtain ⟨e', p, he', hp, same⟩ := (names_congr (orderDrawn_event shaped hk)).1 named
    exact apart k e' p hk other he' hp same
  have slotU : captureSlot u i = captureSlot s i := by
    rw [(endsBefore i hi).2 fun k hk => unnamed k (belowBefore k hk) fun same => absentBefore (same ▸ hk),
      orderDrawn_slot]
  have turned := turn.standing shaped hs he
  rw [if_neg closes] at turned
  have slotX : captureSlot x i = closeSlot s site b (captureSlot s i) := by
    rw [turned, captureSlot_closeEvent, captureSlot_closeCapture_named
      (by rw [turn.shaped.slots_length]; exact hi) ((actedEvent_capture e).trans capture) rfl, slotU,
      closeSlot_congr starts.sites starts.rings]
  have slotY : captureSlot y i = captureSlot x i := (endsAfter i hi).2 fun k hk => by
    rw [names_congr (events k hk)]
    exact unnamed k (belowAfter k hk) fun same => absentAfter (same ▸ hk)
  have busy : (captureSlot y i).state ≠ .free := by
    rw [slotY, slotX]
    refine mt (closeSlot_ends s site b _).free_iff.1 ?_
    rw [filling]
    exact nofun
  rw [captureSlot_of_slots concludes.slots, claims.busy hi busy, slotY, slotX]

end

end Sys2Proof.Machine
end

