-- ==== Sys2Proof/Proofs/HalfCycle.lean ====
section
/-!
PROOFS. HALF_CYCLE_BOUNDARY as a whole (R49, R63, R68): the survey's change that comes first, and what the boundary
leaves of the sites and of the rest of the part.
-/

namespace Sys2Proof.Machine

/-! ### The survey's change -/

section
variable {s : State}

/-- No change of the survey is due at the boundary. -/
def ChangeCalm (s : State) : Prop := s.survey.changeDue = false ∨ s.survey.change = none

theorem startBoundary_calm (h : s.survey.changeDue = false ∨ s.survey.change ≠ some .start) : startBoundary s = s := by
  refine if_neg fun due => ?_
  rw [Bool.and_eq_true, beq_iff_eq] at due
  rcases h with h | h
  · exact absurd (h.symm.trans due.1) nofun
  · exact h due.2

theorem stopBoundary_calm (h : ChangeCalm s ∨ s.survey.change = some .start) : stopBoundary s = s := by
  refine if_neg fun due => ?_
  unfold stopDue at due
  rw [Bool.and_eq_true, Bool.and_eq_true, bne_iff_ne] at due
  obtain ⟨⟨changeDue, some_⟩, other⟩ := due
  rcases h with (h | h) | h
  · exact absurd (h.symm.trans changeDue) nofun
  · rw [h] at some_
    exact absurd some_ nofun
  · exact other h

theorem changeBoundary_calm (h : ChangeCalm s) : changeBoundary s = s := by
  have start : startBoundary s = s := startBoundary_calm (h.imp_right fun none_ => by rw [none_]; exact nofun)
  rw [changeBoundary, start, stopBoundary_calm (.inl h)]

theorem startBoundary_taken (hc : s.survey.change = some .start) (hd : s.survey.changeDue = true) :
    (startBoundary s).survey.changeDue = false := by
  have starts := harmStarts_moves (P := only [.harm]) (answer .ok (startReply s) (runEntered s)) (by decide)
  have entered := (enterSurvey_record .recording none s.bus.frame s.bus.frameTime (runStarted s)).1
  have survey : (startBoundary s).survey = (runEntered s).survey := by
    rw [startBoundary_due hc hd]
    exact starts.survey_eq (by decide)
  rw [survey, runEntered, entered]
  rfl

theorem stopBoundary_taken {change : Change} (shaped : Shaped s) (hc : s.survey.change = some change)
    (ho : change ≠ .start) (hd : s.survey.changeDue = true) : (stopBoundary s).survey.changeDue = false := by
  rw [(stopBoundary_blocks hc ho hd).1, (surveyStopped_record shaped ho).1]

/-- R49: the change that is due comes first. -/
theorem changeBoundary_taken {change : Change} (shaped : Shaped s) (hc : s.survey.change = some change)
    (hd : s.survey.changeDue = true) :
    let f := if change = .start then startBoundary else stopBoundary
    (f s).survey.changeDue = false ∧ changeBoundary s = f s := by
  by_cases ho : change = .start
  · subst ho
    have taken := startBoundary_taken hc hd
    exact ⟨taken, stopBoundary_calm (.inl (.inl taken))⟩
  · intro f
    have stops : f = stopBoundary := if_neg ho
    have kept : startBoundary s = s := startBoundary_calm (.inr fun same => ho (Option.some.inj (hc.symm.trans same)))
    rw [stops, changeBoundary, kept]
    exact ⟨stopBoundary_taken shaped hc ho hd, rfl⟩

end

/-! ### The state after the boundary -/

/-- The state after a boundary at which no change of the survey is due. -/
def boundaryEnd (b : Nat) (s : State) : State :=
  storeNext (setBus (fun x => { x with boundaryDue := false })
    { sitesActed b s with sag := { (sitesActed b s).sag with lastBoundary := some b } })

section
variable {b : Nat} {s : State}

theorem halfCycleBoundary_eq (shaped : Shaped s) (hb : s.bus.frame = b) (due : s.bus.boundaryDue = true)
    (calm : ChangeCalm s) : halfCycleBoundary s = boundaryEnd b s := by
  refine (if_pos due).trans ?_
  rw [changeBoundary_calm calm, sagBoundary_eq shaped hb]
  rfl

theorem boundaryEnd_concludes : Concludes b s (boundaryEnd b s) where
  sag _ := rfl
  harm := rfl
  slots := rfl
  link := rfl
  ids := (next_keeps (sitesActed b s).store).nextIds
  queue := (next_keeps (sitesActed b s).store).queue

/-- What the sites leave of the rest of the part. -/
theorem sitesActed_rest (shaped : Shaped s) :
    Moves (only [.capture, .sag, .harm, .store, .free]) s (sitesActed b s) ∧
      (sitesActed b s).capture.rings = s.capture.rings ∧
      (sitesActed b s).sag.runBoundary = s.sag.runBoundary := by
  have drawn : Moves (only [.capture, .sag, .harm, .store, .free]) s (orderDrawn b s) := by
    have moved : Moves (only [.capture, .sag, .harm, .store, .free]) s (channelsMoved b s) := by
      unfold channelsMoved channelsOf
      exact .foldl _ (fun u site => moveChannels_moves b u site (by decide)) allSites s
    exact moved.trans (drawOrder_moves _ _ (by decide))
  have acted : Moves (only [.capture, .sag, .harm, .store, .free]) (orderDrawn b s) (sitesActed b s) :=
    .foldl _ (fun u site => siteActs_moves b site _ u (by decide) (by decide) (by decide) (by decide)) _ _
  have all := actAll_acts (b := b) (moves := siteMoves b s) (sitesKeeping b s ++ sitesOpening b s)
    (orderDrawn_shaped (b := b) shaped) fun site hs => (List.mem_append.1 hs).elim (sitesKeeping_below site)
      (sitesOpening_below site)
  refine ⟨drawn.trans acted, all.rings.trans ?_, all.runBoundary.trans ?_⟩ <;> rw [orderDrawn_rest]

end

/-! ### A site of the part -/

section
variable {b site : Nat} {s : State}

theorem keeping_or_opening (hs : site < 4) : site ∈ sitesKeeping b s ∨ site ∈ sitesOpening b s := by
  cases h : sagOpens b s site with
  | false => exact .inl (mem_sitesKeeping.2 ⟨hs, h⟩)
  | true => exact .inr (mem_sitesOpening.2 ⟨hs, h⟩)

theorem site_turn (shaped : Shaped s) (hs : site < 4) : ∃ u x, Turn b s site u x := by
  rcases keeping_or_opening (b := b) (s := s) hs with h | h
  · obtain ⟨u, x, _, _, _, turn, _⟩ := keeping_turn shaped h
    exact ⟨u, x, turn⟩
  · obtain ⟨u, x, _, _, _, turn, _⟩ := opening_turn shaped h
    exact ⟨u, x, turn⟩

/-- R64 to R67, R75: the site's channels, and its history (R63). -/
theorem boundaryEnd_site (shaped : Shaped s) (hs : site < 4) :
    (∀ role, role < 3 → channelOf (boundaryEnd b s) site role = (sagMove b s site role).1) ∧
      (sagSite (boundaryEnd b s) site).history = (movedSite b s site).history := by
  obtain ⟨u, x, turn⟩ := site_turn (b := b) shaped hs
  obtain ⟨channels, history⟩ := turn.history shaped hs boundaryEnd_concludes
  refine ⟨fun role hr => ?_, history⟩
  rw [channelOf, channels, movedSite, List.getD_eq_getElem?_getD, List.getElem?_map, List.getElem?_range hr]
  rfl

/-- A site with no event at which no channel reached SAG has none. -/
theorem boundaryEnd_idle (shaped : Shaped s) (hs : site < 4) (none_ : (sagSite s site).event = none)
    (still : ∀ role start, ¬Sags b s site role start) : (sagSite (boundaryEnd b s) site).event = none := by
  obtain ⟨u, x, turn⟩ := site_turn (b := b) shaped hs
  have event : (sagSite u site).event = none := by
    rw [(turn.starts shaped hs).own, movedSite_event]
    exact none_
  have starts : sagStarts (siteMoves b s site) = [] := by
    by_contra some_
    obtain ⟨role, start, sags⟩ := starts_nonempty.1 some_
    exact still role start sags
  rw [(turn.ends boundaryEnd_concludes).own, ← turn.acts, siteActs_none event starts, event]

end

end Sys2Proof.Machine
end

