-- ==== Sys2Proof/Proofs/HalfCycleSites.lean ====
section
/-!
PROOFS. HALF_CYCLE_BOUNDARY, assembled (R49, R63, R68, R69, R71).
-/

namespace Sys2Proof.Machine

/-- Settles O45. -/
theorem halfCycleBoundaryMovesTheSites : Obligations.HalfCycleBoundaryMovesTheSites := by
  unfold Obligations.HalfCycleBoundaryMovesTheSites
  intro b s q shaped hb
  have run : ∀ {v : State}, Quiet v → exec .halfCycleBoundary v = .next (halfCycleBoundary v) := fun {v} quiet =>
    (congrFun (exec_event rfl) v).trans (event_of_moves (P := anyPart)
      (halfCycleBoundary_moves v trivial trivial trivial trivial trivial trivial trivial) quiet)
  refine ⟨fun idle => ?nothing, fun change due hd hc => ?change, fun due calm => ?boundary⟩
  case nothing =>
    have same : halfCycleBoundary s = s := if_neg (by rw [idle]; exact nofun)
    rw [run q, same]
  case change =>
    obtain ⟨taken, changed⟩ := changeBoundary_taken shaped hc hd
    have moves : Moves anyPart s ((if change = .start then startBoundary else stopBoundary) s) := by
      split
      · exact startBoundary_moves s trivial trivial trivial trivial
      · exact stopBoundary_moves s trivial trivial trivial trivial trivial
    have bus : ((if change = .start then startBoundary else stopBoundary) s).bus = s.bus := by
      split
      · exact (startBoundary_moves (P := only [.survey, .sag, .harm, .store]) s (by decide) (by decide) (by decide)
          (by decide)).bus_eq (by decide)
      · exact (stopBoundary_moves (P := only [.survey, .sag, .harm, .store, .capture]) s (by decide) (by decide)
          (by decide) (by decide) (by decide)).bus_eq (by decide)
    have exec_ : exec (if change = .start then .startBoundary else .stopBoundary) s =
        .next ((if change = .start then startBoundary else stopBoundary) s) := by
      split
      · next start =>
        rw [if_pos start] at moves
        exact (congrFun (exec_event rfl) s).trans (event_of_moves moves q)
      · next stop =>
        rw [if_neg stop] at moves
        exact (congrFun (exec_event rfl) s).trans (event_of_moves moves q)
    generalize (if change = .start then startBoundary else stopBoundary) s = u at *
    have quiet : Quiet u := ⟨moves.held_eq ▸ q.1, moves.queue_eq.trans q.2⟩
    refine ⟨u, exec_, taken, ?_⟩
    rw [run q, run quiet]
    unfold halfCycleBoundary
    rw [changed, changeBoundary_calm (.inl taken), bus]
    by_cases h : s.bus.boundaryDue = true
    · rw [if_pos h, if_pos h]
    · exact absurd due h
  case boundary =>
    obtain ⟨moves, rings, runBoundary⟩ := sitesActed_rest (b := b) shaped
    have concludes := boundaryEnd_concludes (b := b) (s := s)
    have array : (boundaryEnd b s).store.array = s.store.array :=
      (next_keeps (sitesActed b s).store).array.trans (moves.array_eq (by decide))
    refine ⟨boundaryEnd b s, (run q).trans (congrArg _ (halfCycleBoundary_eq shaped hb due calm)),
      congrArg (fun x : Bus => { x with boundaryDue := false }) (moves.bus_eq (by decide)), rfl, runBoundary,
      moves.sites_eq (by decide), moves.roster_eq (by decide), moves.receive_eq (by decide), moves.tracker_eq (by decide),
      moves.rotation_eq (by decide), moves.clock_eq (by decide), moves.survey_eq (by decide), moves.print_eq (by decide),
      moves.supply_eq (by decide), rings, array, fun site hs => ?_⟩
    intro move sags leaves
    obtain ⟨channels, history⟩ := boundaryEnd_site (b := b) shaped hs
    refine ⟨channels, fun fresh => ?entered, boundaryEnd_idle shaped hs, fun none_ starts => ?opens,
      fun e he => ?stands⟩
    case entered =>
      refine ⟨enteredBoundary s site, ?_, ?_⟩
      · rw [history, movedSite_history, hb, if_neg fresh]
      · exact hb ▸ enteredBoundary_flags s site
    case opens =>
      have opens : sagOpens b s site = true := sagOpens_iff.2 ⟨none_, starts⟩
      obtain ⟨u, x, v, before, after, turn, absent, _, ends, earlier, claimed⟩ :=
        opening_turn shaped (mem_sitesOpening.2 ⟨hs, opens⟩)
      have begun := turn.starts shaped hs
      have done := turn.ends concludes
      have opened := turn.opened shaped hs opens
      obtain ⟨start, least, involved, holding, _⟩ := openedEvent_spec (b := b) (s := s) (site := site) u
      have event := openEvent_event (b := b) turn.shaped hs (sagStarts (siteMoves b s site))
      have mark := openEvent_mark (b := b) turn.shaped hs (sagStarts (siteMoves b s site))
      have id := openEvent_id (b := b) (site := site) turn.shaped (sagStarts (siteMoves b s site))
      rw [opened] at event mark id
      obtain ⟨unclaimed, slot⟩ := turn.openedSlot shaped hs opens concludes ends earlier claimed
      refine ⟨openedEvent site b (sagStarts (siteMoves b s site)) u, done.own ▸ event, rfl, begun.ids,
        Nat.lt_of_lt_of_le (by rw [id]; exact Nat.lt_succ_self _) done.ids, start, least, involved, holding, done.mark.trans mark,
        turn.openedFlags shaped hs concludes absent ends earlier, unclaimed, slot, fun sending unowed mask room => ?_⟩
      exact turn.openedTold shaped hs opens concludes ⟨sending, unowed⟩ mask room
    case stands =>
      intro holds
      have keeps : site ∈ sitesKeeping b s :=
        mem_sitesKeeping.2 ⟨hs, Bool.eq_false_iff.2 fun opens => absurd (he.symm.trans (sagOpens_iff.1 opens).1) nofun⟩
      obtain ⟨u, x, y, before, after, turn, absentBefore, absentAfter, belowBefore, belowAfter, endsBefore, endsAfter,
        claims, events⟩ := keeping_turn shaped keeps
      have begun := turn.starts shaped hs
      obtain ⟨list, beyond, ordered⟩ := begun.involved (e := e)
      obtain ⟨shape, flags, head, cal, lost⟩ := begun.flags (e := e)
      have holding := actedEvent_holds (b := b) (site := site) (s := s) (u := u) (e := e)
      refine ⟨actedEvent b site (siteMoves b s site) u e, shape, list, beyond, ordered,
        ⟨flags, history ▸ head, cal, lost⟩, fun stays => turn.stays shaped hs concludes he (holding.2 stays),
        fun closes => ?_⟩
      have closes := mt holding.1 closes
      refine ⟨turn.ended shaped hs concludes he closes, turn.closedRecord shaped hs concludes he closes,
        fun i serial capture hi filling apart => ?_⟩
      have ended := closingSlot turn shaped hs concludes he closes absentBefore absentAfter belowBefore belowAfter
        endsBefore endsAfter claims events capture hi filling apart
      rw [ended]
      exact closeSlot_spec s site b filling

end Sys2Proof.Machine
end

