-- ==== Sys2Proof/Proofs/EngineWork.lean ====
section
/-!
PROOFS. What the renderer and the mechanism do of themselves (R158 to R160): the jobs, the brake and the head's
readings that they keep, and the notice of a step of the engine (R151, R167).
-/

namespace Sys2Proof.Machine

/-! ### What rendering and the taking of lines keep -/

/-- What rendering and the taking of lines keep of a job. -/
def jobKept (j : Job) : Nat × Option JobPhase × (Nat × Nat) × Nat × List JobSection × Bool × (Nat × Nat × Nat) :=
  (j.id, j.phase, (j.fetchCopy, j.fetchItem), j.copies, j.sections, j.cancelled,
    (j.tallies.dotLines, j.tallies.textLines, j.tallies.copies))

/-- From `p` to `q` items may have been rendered and a line begun. -/
structure EngineWorks (p q : Print) : Prop where
  jobs : q.ring.map jobKept = p.ring.map jobKept
  done : q.done = p.done
  completions : q.completions = p.completions
  brake : q.brake = p.brake
  tempClass : q.tempClass = p.tempClass
  temp : q.temp = p.temp
  paper : q.paper = p.paper

namespace EngineWorks
variable {p q r : Print}

theorem refl (p : Print) : EngineWorks p p := ⟨rfl, rfl, rfl, rfl, rfl, rfl, rfl⟩

theorem trans (h : EngineWorks p q) (k : EngineWorks q r) : EngineWorks p r :=
  ⟨k.jobs.trans h.jobs, k.done.trans h.done, k.completions.trans h.completions, k.brake.trans h.brake,
    k.tempClass.trans h.tempClass, k.temp.trans h.temp, k.paper.trans h.paper⟩

theorem length (h : EngineWorks p q) : q.ring.length = p.ring.length := by
  have lengths := congrArg List.length h.jobs
  rwa [List.length_map, List.length_map] at lengths

theorem map (h : EngineWorks p q) {α : Type}
    (f : Nat × Option JobPhase × (Nat × Nat) × Nat × List JobSection × Bool × (Nat × Nat × Nat) → α) :
    q.ring.map (fun j => f (jobKept j)) = p.ring.map fun j => f (jobKept j) := by
  have mapped := congrArg (List.map f) h.jobs
  rwa [List.map_map, List.map_map] at mapped

/-- The job at work has the phase it had. -/
theorem phase (h : EngineWorks p q) : (activeJob q).map (·.phase) = (activeJob p).map (·.phase) := by
  have active : ∀ r : Print, (activeJob r).map (·.phase) = ((r.ring.map (·.phase)).head?).filter Option.isSome := by
    intro r
    unfold activeJob
    cases r.ring with
    | nil => rfl
    | cons j rest =>
      rw [List.map_cons, List.head?_cons, List.head?_cons, Option.filter_some, Option.filter_some]
      split <;> rfl
  have phases : q.ring.map (·.phase) = p.ring.map (·.phase) := h.map fun k => k.2.1
  rw [active, active, phases]

end EngineWorks

/-- No notice for a job shows the mechanism's state where the job at work keeps its phase. -/
theorem jobShown_kept {p q : Print} (phases : (activeJob q).map (·.phase) = (activeJob p).map (·.phase))
    (completions : q.completions = p.completions) : jobShown p q = false := by
  unfold jobShown
  cases hq : activeJob q with
  | none => rfl
  | some j =>
    rw [hq] at phases
    obtain ⟨k, hk, same⟩ := Option.map_eq_some_iff.1 phases.symm
    rw [hk]
    dsimp only
    have same : k.phase = j.phase := same
    rw [completions, same, bne_self_eq_false, Bool.false_or]
    exact Bool.and_not_self _

theorem EngineWorks.unshown {p q : Print} (h : EngineWorks p q) : jobShown p q = false :=
  jobShown_kept h.phase h.completions

theorem modifyActive_works {f : Job → Job} (hf : ∀ j, jobKept (f j) = jobKept j) (p : Print) :
    EngineWorks p (modifyActive f p) := by
  unfold modifyActive
  split
  · next j rest ring =>
    split
    · exact { EngineWorks.refl p with jobs := by rw [ring, List.map_cons, List.map_cons, hf] }
    · exact .refl p
  · exact .refl p

theorem renderFrom_works (straps : Straps) (fuel : Nat) : ∀ p, EngineWorks p (renderFrom straps fuel p) := by
  induction fuel with
  | zero => exact .refl
  | succ fuel ih =>
    intro p
    rw [renderFrom]
    split
    · exact .refl p
    · next e rest _ =>
      split
      · exact .refl p
      · next x _ =>
        dsimp only
        have placed := modifyActive_works (f := fun j => { j with
            renderCopy := e.copy, renderItem := e.item
            placed := j.placed || 0 < Nat.min (Config.bufferPlaces - p.buffer.length) ((linesOf straps x).drop e.placed).length })
          (fun _ => rfl)
          { p with buffer := p.buffer ++ ((linesOf straps x).drop e.placed).take (Config.bufferPlaces - p.buffer.length) }
        have grown : EngineWorks p { p with buffer := p.buffer ++
            ((linesOf straps x).drop e.placed).take (Config.bufferPlaces - p.buffer.length) } :=
          { EngineWorks.refl p with }
        generalize modifyActive _ _ = q at *
        have works := grown.trans placed
        split
        · refine (works.trans ?_).trans (ih _)
          exact EngineWorks.trans (q := { q with cache := rest }) { EngineWorks.refl q with }
            (modifyActive_works (f := entryRendered e x) (fun _ => rfl) _)
        · exact works.trans { EngineWorks.refl q with }

theorem beginLine_works (p : Print) : EngineWorks p (beginLine p) := by
  unfold beginLine
  split
  · exact { EngineWorks.refl p with }
  · exact { EngineWorks.refl p with }

/-- From `s` to `t` the engine alone may have moved, in the way of `EngineWorks`. -/
structure Works (s t : State) : Prop where
  rest : t = { s with print := t.print }
  print : EngineWorks s.print t.print

theorem Works.refl (s : State) : Works s s := ⟨rfl, .refl _⟩

theorem Works.trans {s t u : State} (h : Works s t) (k : Works t u) : Works s u :=
  ⟨k.rest.trans (congrArg (fun w : State => { w with print := u.print }) h.rest), h.print.trans k.print⟩

theorem setPrint_works {f : Print → Print} {s : State} (h : EngineWorks s.print (f s.print)) : Works s (setPrint f s) :=
  ⟨rfl, h⟩

theorem render_works (s : State) : Works s (render s) := setPrint_works (renderFrom_works _ _ _)

theorem lineBoundary_works (s : State) : Works s (lineBoundary s) := by
  unfold lineBoundary
  split
  · exact .refl s
  · split
    · exact setPrint_works (beginLine_works _)
    · next x rest _ _ =>
      refine Works.trans ?_ (render_works _)
      refine setPrint_works (f := fun p => beginLine { p with inHand := some x, buffer := rest }) ?_
      exact EngineWorks.trans (q := { s.print with inHand := some x, buffer := rest })
        { EngineWorks.refl s.print with } (beginLine_works _)
    · split
      · split
        · exact setPrint_works { EngineWorks.refl s.print with }
        · exact .refl s
      · exact .refl s

theorem renderAndTake_works (s : State) : Works s (renderAndTake s) := by
  unfold renderAndTake
  dsimp only
  split
  · exact (render_works s).trans (lineBoundary_works _)
  · exact render_works s

/-! ### The notice of a step -/

/-- R151, R167: the link after a step of the engine that shows no job. -/
def toldLink (s : State) (q : Print) : Link :=
  if mechState s.print = mechState q ∨
      (mechState s.print = .printing ∨ mechState s.print = .stalled) ∧
        (mechState q = .printing ∨ mechState q = .stalled) then s.link
  else
    (post (.printState none none (mechState q) q.brake q.latch q.tempClass q.ring.length q.done.length) s).link

theorem mechMoves_iff (a b : MechState) : mechMoves a b = false ↔
    a = b ∨ (a = .printing ∨ a = .stalled) ∧ (b = .printing ∨ b = .stalled) := by
  cases a <;> cases b <;> decide

/-- A step that moves the engine alone and shows no job. -/
theorem printStep_told {f : State → State} {s : State} {q : Print} (h : f s = { s with print := q })
    (unshown : jobShown s.print q = false) : printStep f s = { s with print := q, link := toldLink s q } := by
  unfold printStep
  dsimp only
  rw [h]
  dsimp only
  rw [unshown, Bool.not_false, Bool.and_true]
  unfold toldLink
  cases moved : mechMoves (mechState s.print) (mechState q) with
  | false =>
    rw [if_pos ((mechMoves_iff _ _).1 moved)]
    rfl
  | true =>
    rw [if_neg fun silent => absurd ((mechMoves_iff _ _).2 silent) (by rw [moved]; exact nofun)]
    rfl

/-- An event that is such a step. -/
theorem event_printStep {f : State → State} {s : State} {q : Print} (quiet : Quiet s)
    (moved : f s = { s with print := q }) (unshown : jobShown s.print q = false) :
    event (printStep f) s = .next { s with print := q, link := toldLink s q } := by
  have after := printStep_told moved unshown
  have queue : (printStep f s).link.queue = [] := by
    refine ((printStep_after f s).1.queue_eq).trans ?_
    rw [moved]
    exact quiet.2
  rw [event_quiet _ s quiet.1 queue, after]

end Sys2Proof.Machine
end

