-- ==== Sys2Proof/Proofs/EngineReadings.lean ====
section
/-!
PROOFS. A reading of the head's temperature and a change of the paper sensor (R150, R159, R162).
-/

namespace Sys2Proof.Machine

/-! ### The head's temperature -/

/-- R150: the class after a reading. -/
theorem classAfter_eq (p : Print) (c : Int) : classAfter p.temp.isNone p.tempClass c =
    if p.temp = none then if c < 60 then .cool else if c < 75 then .hot else .overheat
    else if c < 55 then .cool
    else if p.tempClass = .overheat ∨ 75 ≤ c then .overheat
    else if 60 ≤ c then .hot
    else p.tempClass := by
  unfold classAfter
  cases p.temp with
  | none =>
    simp only [Option.isNone_none, if_true]
    split_ifs <;> first | rfl | omega
  | some t =>
    simp only [Option.isNone_some, Bool.false_eq_true, if_false, reduceCtorEq]
    by_cases cool : c < 55
    · rw [if_pos cool, if_pos cool]
    · rw [if_neg cool, if_neg cool]
      cases p.tempClass with
      | overheat => rfl
      | hot => simp only [reduceCtorEq, false_or, ite_self]
      | cool => simp only [reduceCtorEq, false_or]

/-- The engine with the reading, before the mechanism acts on it. -/
def Print.heated (c : Int) (p : Print) : Print :=
  { p with tempClass := classAfter p.temp.isNone p.tempClass c, temp := some c }

/-- The state with the reading, and the line boundary of a class that leaves OVERHEAT. -/
def heatedStep (c : Int) (s : State) : State :=
  if s.print.tempClass = .overheat ∧ (s.print.heated c).tempClass ≠ .overheat then
    lineBoundary (setPrint (Print.heated c) s)
  else setPrint (Print.heated c) s

theorem headTemperature_eq (c : Int) : headTemperature c = printStep (heatedStep c) := rfl

section
variable {c : Int} {s : State}

theorem Works.jobs_heated {t : State} (h : Works (setPrint (Print.heated c) s) t) :
    t = { s with print := t.print } ∧ jobShown s.print t.print = false := by
  have heated : jobShown s.print t.print = jobShown (s.print.heated c) t.print := rfl
  exact ⟨h.rest, heated.trans h.print.unshown⟩

theorem heatedStep_works : Works (setPrint (Print.heated c) s) (heatedStep c s) := by
  unfold heatedStep
  split
  · exact lineBoundary_works _
  · exact .refl _

/-- R150, R159: what a reading leaves. -/
theorem exec_headTemperature (quiet : Quiet s) : exec (.headTemperatureReading c) s =
    .next { s with print := (heatedStep c s).print, link := toldLink s (heatedStep c s).print } := by
  obtain ⟨rest, unshown⟩ := (heatedStep_works (c := c) (s := s)).jobs_heated
  exact (congrFun (exec_event rfl) s).trans (event_printStep quiet rest unshown)

theorem heatedStep_still (h : s.print.tempClass ≠ .overheat ∨ (s.print.heated c).tempClass = .overheat) :
    (heatedStep c s).print = s.print.heated c := by
  have still : heatedStep c s = setPrint (Print.heated c) s := if_neg fun k => h.elim (· k.1) k.2
  rw [still]
  rfl

/-- R159: the line in hand begins as the head leaves OVERHEAT. -/
theorem heatedStep_begins {j : Job} {rest : List Job} {x : DotLine} (hot : s.print.tempClass = .overheat)
    (cooled : (s.print.heated c).tempClass ≠ .overheat) (idle : s.print.lineBusy = false)
    (brake : s.print.brake = false) (latch : s.print.latch = false) (unowed : s.link.owed = none)
    (ring : s.print.ring = j :: rest) (works : j.phase = some .running ∨ j.phase = some .cancelling)
    (hand : s.print.inHand = some x) : (heatedStep c s).print = beginLine (s.print.heated c) := by
  have active : activeJob (s.print.heated c) = some j := by
    change (s.print.ring.head?).filter _ = _
    rw [ring, List.head?_cons, Option.filter_some, if_pos (by rcases works with h | h <;> rw [h] <;> rfl)]
  have may : mayPrint (s.print.heated c) = true := by
    have brake : (s.print.heated c).brake = false := brake
    have latch : (s.print.heated c).latch = false := latch
    have going : (j.phase != some .doneWait) = true := by rcases works with h | h <;> rw [h] <;> rfl
    unfold mayPrint
    rw [active, brake, latch, bne_iff_ne.2 cooled]
    dsimp only
    rw [going]
    rfl
  have boundary : heatedStep c s = lineBoundary (setPrint (Print.heated c) s) := if_pos ⟨hot, cooled⟩
  rw [boundary, lineBoundary_inHand (s := setPrint (Print.heated c) s) idle may hand unowed]
  rfl

end

/-! ### The paper sensor -/

/-- R162: the engine after the sensor's report. -/
def Print.papered (present : Bool) (p : Print) : Print :=
  if present = false ∧ p.lineBusy = true then
    { p with
      paper := present, latch := true, lineBusy := false, lineStale := false
      inHand := if p.lineStale then none else p.inHand }
  else { p with paper := present }

theorem exec_paperChange {s : State} (present : Bool) (quiet : Quiet s) : exec (.paperSensorChange present) s =
    .next { s with print := s.print.papered present, link := toldLink s (s.print.papered present) } := by
  have engine : (let p := { s.print with paper := present }
      if !present && p.lineBusy then stopLine { p with latch := true } else p) = s.print.papered present := by
    unfold Print.papered stopLine
    cases present <;> cases busy : s.print.lineBusy <;> simp [busy]
  have works : EngineWorks { s.print with paper := present } (s.print.papered present) := by
    unfold Print.papered
    split
    · exact { EngineWorks.refl _ with }
    · exact .refl _
  have same : jobShown s.print (s.print.papered present) =
      jobShown { s.print with paper := present } (s.print.papered present) := rfl
  refine (if_neg (by rw [quiet.1]; exact nofun)).trans (event_printStep quiet ?_ (same.trans works.unshown))
  exact congrArg (fun q : Print => { s with print := q }) engine

end Sys2Proof.Machine
end

