-- ==== Sys2Proof/Proofs/FetchUnit.lean ====
section
/-!
PROOFS. SECTION_FETCH: when the fetch unit takes an item, and what the renderer makes of it (R156, R158).
-/

namespace Sys2Proof.Machine

theorem activeJob_cons {p : Print} {j : Job} {rest : List Job} (ring : p.ring = j :: rest)
    (active : j.phase.isSome = true) : activeJob p = some j := by
  rw [activeJob, ring, List.head?_cons, Option.filter_some, if_pos active]

/-! ### When a fetch is due -/

section
variable {s : State} {j : Job} {rest : List Job}

theorem canFetch_iff {p : Print} : canFetch p j = true ↔
    j.phase = some .running ∧ p.cache.length < 3 ∧ j.fetchCopy ≤ j.copies ∧ ∀ e ∈ p.cache, e.snapshot.isSome = true := by
  have three : Config.cachePlaces = 3 := rfl
  unfold canFetch
  rw [Bool.and_eq_true, Bool.and_eq_true, Bool.and_eq_true, beq_iff_eq, decide_eq_true_iff, decide_eq_true_iff,
    List.all_eq_true, three]
  tauto

/-- A fetch that is not due does nothing. -/
theorem fetchNext_idle (h : ∀ j, activeJob s.print = some j → ¬canFetch s.print j = true) : fetchNext s = s := by
  unfold fetchNext
  cases active : activeJob s.print with
  | none => rfl
  | some j => exact if_neg (h j active)

theorem sectionFetch_idle (h : fetchNext s = s) : sectionFetch s = s := by
  refine (printStep_quiet ?_).trans h
  rw [h]
  exact mechMoves_same _

theorem exec_sectionFetch_idle (quiet : Quiet s) (h : fetchNext s = s) : exec .sectionFetch s = .next s := by
  have same := sectionFetch_idle h
  have after := event_quiet sectionFetch s quiet.1 (by rw [same]; exact quiet.2)
  rw [same] at after
  exact (congrFun (exec_event rfl) s).trans after

/-- R156: the content that the fetch takes, or none where it waits. -/
def fetchSnapshot (s : State) (j : Job) : Option Snapshot :=
  if itemWaits s.store j j.fetchItem then none else some (itemSnapshot s j j.fetchCopy j.fetchItem)

/-- The engine with the item in the cache. -/
def fetchTaken (s : State) (j : Job) (rest : List Job) : Print :=
  { s.print with
    ring := advanceFetch j :: rest
    cache := s.print.cache ++ [{ copy := j.fetchCopy, item := j.fetchItem, snapshot := fetchSnapshot s j }] }

theorem advanceFetch_phase (j : Job) : (advanceFetch j).phase = j.phase := by
  unfold advanceFetch
  split <;> rfl

/-- The state in which the renderer turns to the item. -/
def fetchStep (s : State) (j : Job) (rest : List Job) : State := { s with print := fetchTaken s j rest }

theorem fetching_active (fetches : canFetch s.print j = true) : j.phase.isSome = true := by
  rw [(canFetch_iff.1 fetches).1]
  rfl

section
variable (ring : s.print.ring = j :: rest) (fetches : canFetch s.print j = true)
include ring fetches

theorem fetchNext_eq : fetchNext s = renderAndTake (fetchStep s j rest) := by
  have active := fetching_active fetches
  unfold fetchNext
  rw [activeJob_cons ring active]
  refine (if_pos fetches).trans (congrArg (fun p : Print => renderAndTake { s with print := p }) ?_)
  exact modifyActive_cons (p := { s.print with
    cache := s.print.cache ++ [{ copy := j.fetchCopy, item := j.fetchItem, snapshot := fetchSnapshot s j }] }) ring active

theorem exec_sectionFetch (quiet : Quiet s) :
    let q := (renderAndTake (fetchStep s j rest)).print
    exec .sectionFetch s = .next { s with print := q, link := toldLink s q } := by
  intro q
  have active := fetching_active fetches
  have works := renderAndTake_works (fetchStep s j rest)
  have phases : (activeJob (fetchTaken s j rest)).map (·.phase) = (activeJob s.print).map (·.phase) := by
    rw [activeJob_cons ring active, activeJob_cons (p := fetchTaken s j rest) rfl (by rw [advanceFetch_phase]; exact active)]
    exact congrArg some (advanceFetch_phase j)
  exact (congrFun (exec_event rfl) s).trans (event_printStep quiet ((fetchNext_eq ring fetches).trans works.rest)
    (jobShown_kept (works.print.phase.trans phases) works.print.completions))

end

/-! ### The content -/

theorem eraseInFlight_iff {st : Store} : eraseInFlight st = true ↔ ∃ sector, st.op = some (.erase sector) := by
  unfold eraseInFlight
  split
  · next sector op => exact ⟨fun _ => ⟨sector, op⟩, fun _ => rfl⟩
  · next other => exact ⟨fun h => absurd h nofun, fun ⟨sector, op⟩ => absurd op (other sector)⟩

theorem inArray_iff {st : Store} {e : Entry} : inArray st e = true ↔
    e.state = .live ∧ ∀ q ∈ st.queue, ¬(q.kind = e.kind ∧ q.id = e.id) := by
  unfold inArray
  rw [Bool.and_eq_true, beq_iff_eq, Bool.not_eq_true', List.any_eq_false]
  simp

theorem itemSection_some {n : Nat} {x : JobSection} : itemSection j n = some x ↔ 1 ≤ n ∧ j.sections[n - 1]? = some x := by
  unfold itemSection
  by_cases h : n = 0
  · rw [if_pos h]
    exact ⟨nofun, fun k => absurd k.1 (by omega)⟩
  · rw [if_neg h]
    exact ⟨fun k => ⟨by omega, k⟩, fun k => k.2⟩

theorem itemWaits_iff {st : Store} {n : Nat} : itemWaits st j n = true ↔
    ∃ x, 1 ≤ n ∧ j.sections[n - 1]? = some x ∧ (∃ sector, st.op = some (.erase sector)) ∧
      ∃ e ∈ recordsRead st x, e.state = .live ∧ ∀ q ∈ st.queue, ¬(q.kind = e.kind ∧ q.id = e.id) := by
  have reads : ∀ x, fetchWaits st x = true ↔ (∃ sector, st.op = some (.erase sector)) ∧
      ∃ e ∈ recordsRead st x, e.state = .live ∧ ∀ q ∈ st.queue, ¬(q.kind = e.kind ∧ q.id = e.id) := fun x => by
    unfold fetchWaits
    rw [Bool.and_eq_true, eraseInFlight_iff, List.any_eq_true]
    exact and_congr_right fun _ => exists_congr fun e => and_congr_right fun _ => inArray_iff
  unfold itemWaits
  cases h : itemSection j n with
  | none =>
    refine ⟨fun no => absurd no nofun, ?_⟩
    rintro ⟨x, one, at_, _⟩
    exact absurd (h.symm.trans (itemSection_some.2 ⟨one, at_⟩)) nofun
  | some x =>
    obtain ⟨one, at_⟩ := itemSection_some.1 h
    dsimp only
    rw [reads]
    constructor
    · exact fun k => ⟨x, one, at_, k⟩
    · rintro ⟨y, _, there, k⟩
      cases at_.symm.trans there
      exact k

theorem fetchSnapshot_header (ready : ¬itemWaits s.store j j.fetchItem = true) (first : j.fetchItem = 0) :
    fetchSnapshot s j = some (.header j.id j.fetchCopy j.copies s.clock.time s.survey.number) := by
  refine (if_neg ready).trans (congrArg some ?_)
  exact if_pos first

theorem fetchSnapshot_trailer (last : j.fetchItem = j.sections.length + 1) :
    fetchSnapshot s j = some (.trailer j.id j.fetchCopy j.copies s.clock.time s.survey.number) := by
  have none_ : itemSection j j.fetchItem = none := by
    rw [last]
    exact (if_neg (Nat.succ_ne_zero _)).trans (List.getElem?_eq_none (le_refl _))
  have ready : ¬itemWaits s.store j j.fetchItem = true := by
    rw [itemWaits, none_]
    exact nofun
  refine (if_neg ready).trans (congrArg some ?_)
  unfold itemSnapshot
  rw [if_neg (by omega), none_]

theorem fetchSnapshot_section {x : JobSection} (ready : ¬itemWaits s.store j j.fetchItem = true)
    (one : 1 ≤ j.fetchItem) (at_ : j.sections[j.fetchItem - 1]? = some x) :
    fetchSnapshot s j = some (sectionSnapshot s x) := by
  refine (if_neg ready).trans (congrArg some ?_)
  unfold itemSnapshot
  rw [if_neg (by omega), itemSection_some.2 ⟨one, at_⟩]

/-! ### What the renderer makes of it -/

theorem modifyActive_buffer (f : Job → Job) (p : Print) : (modifyActive f p).buffer = p.buffer := by
  unfold modifyActive
  split
  · split <;> rfl
  · rfl

/-- A full buffer takes nothing. -/
theorem renderFrom_full (straps : Straps) (fuel : Nat) : ∀ p : Print, p.buffer.length = 32 →
    (renderFrom straps fuel p).buffer = p.buffer := by
  induction fuel with
  | zero => exact fun _ _ => rfl
  | succ fuel ih =>
    intro p full
    rw [renderFrom]
    split
    · rfl
    · split
      · rfl
      · have none_ : Config.bufferPlaces - p.buffer.length = 0 := by rw [full]; rfl
        dsimp only
        rw [none_, List.take_zero, List.append_nil]
        split
        · have kept : ∀ (f g : Job → Job) (cache : List CacheEntry),
              (modifyActive f { modifyActive g { p with buffer := p.buffer } with cache := cache }).buffer = p.buffer :=
            fun f g cache => (modifyActive_buffer _ _).trans (modifyActive_buffer _ _)
          rw [ih _ (by rw [kept]; exact full), kept]
        · exact modifyActive_buffer _ _

theorem renderAndTake_full {u : State} (full : u.print.buffer.length = 32) : renderAndTake u = render u := by
  have same : (render u).print.buffer = u.print.buffer := renderFrom_full _ _ _ full
  unfold renderAndTake
  dsimp only
  rw [same]
  exact if_neg (by simp)

/-- The oldest entry stays where the buffer is full and it has lines left. -/
theorem renderFrom_stands {p : Print} {k : Job} {e : CacheEntry} {more : List CacheEntry} {x : Snapshot}
    {straps : Straps} (fuel : Nat) (full : p.buffer.length = 32) (cache : p.cache = e :: more)
    (fetched : e.snapshot = some x) (left : e.placed < (linesOf straps x).length) (ring : p.ring = k :: rest)
    (active : k.phase.isSome = true) :
    renderFrom straps (fuel + 1) p =
      { p with ring := { k with renderCopy := e.copy, renderItem := e.item } :: rest } := by
  have none_ : Config.bufferPlaces - p.buffer.length = 0 := by rw [full]; rfl
  have some_ : ¬((linesOf straps x).drop e.placed).length ≤ 0 := by
    rw [List.length_drop]
    omega
  rw [renderFrom, cache]
  dsimp only
  rw [fetched]
  dsimp only
  rw [none_, if_neg some_, modifyActive_cons (j := k) (rest := rest) ?ring active]
  case ring => exact ring
  simp [← fetched]

/-- A long item that finds the buffer and the cache empty. -/
theorem renderAndTake_first (empty : s.print.cache = []) (buffer : s.print.buffer = []) (brake : s.print.brake = true)
    (running : j.phase = some .running) {x : Snapshot} (snapshot : fetchSnapshot s j = some x)
    (long : 32 < (linesOf s.straps x).length) :
    let q := (renderAndTake (fetchStep s j rest)).print
    q.buffer = (linesOf s.straps x).take 32 ∧ q.inHand = s.print.inHand ∧
      q.cache = [{ copy := j.fetchCopy, item := j.fetchItem, snapshot := some x, placed := 32 }] := by
  have active : (advanceFetch j).phase.isSome = true := by rw [advanceFetch_phase, running]; rfl
  have rendered := renderFrom_long (straps := s.straps) (q := fetchTaken s j rest) (k := advanceFetch j) (rest := rest)
    (e := { copy := j.fetchCopy, item := j.fetchItem, snapshot := some x }) (more := []) Config.cachePlaces
    (by rw [← snapshot]; exact congrArg (· ++ _) empty) rfl buffer rfl rfl active long
  have engine : (render (fetchStep s j rest)).print = _ := rendered
  have held : mayPrint (render (fetchStep s j rest)).print = false := by
    have brakes : (render (fetchStep s j rest)).print.brake = true := by
      rw [engine]
      exact brake
    simp [mayPrint, brakes]
  have taken : renderAndTake (fetchStep s j rest) = render (fetchStep s j rest) := by
    unfold renderAndTake
    dsimp only
    split
    · exact lineBoundary_stopped held
    · rfl
  rw [taken, engine]
  exact ⟨rfl, rfl, rfl⟩

end

end Sys2Proof.Machine
end

