-- ==== Sys2Proof/Proofs/Snapshots.lean ====
section
/-!
PROOFS. What a fetch takes of a section, as its content stands (R153, R156).
-/

namespace Sys2Proof.Machine

section
variable {s : State} {pins : List (RecordKind × Nat)} {capture : Option CapturePin}

/-- R153: the events of a range that an EVENT_LIST names, and how many ids name none. -/
theorem listSnapshot_eq (st : Store) (first last : Nat) (site : Byte) :
    let ids := (List.range (last + 1 - first)).map (first + ·)
    listSnapshot st first last (optionalSite site) =
      .eventList first last (if site = 0xFF then none else some site.toNat)
        ((ids.filterMap fun id => (findEntry st .event id).bind (eventOf st)).filter
          fun r => site = 0xFF ∨ r.site = site.toNat)
        (ids.countP fun id => (findEntry st .event id).isNone) := by
  intro ids
  have missing : ids.length - (ids.filterMap (findEntry st .event)).length =
      ids.countP fun id => (findEntry st .event id).isNone := by
    have both := List.length_eq_countP_add_countP (fun id => (findEntry st .event id).isSome) (l := ids)
    have others : (ids.countP fun id => !(findEntry st .event id).isSome) =
        ids.countP fun id => (findEntry st .event id).isNone :=
      List.countP_congr fun id _ => by cases findEntry st .event id <;> simp
    rw [List.length_filterMap_eq_countP, ← others]
    simp only [Bool.not_eq_true, Bool.decide_eq_false] at both
    omega
  have chosen : ∀ r : EventRecord, (optionalSite site).all (r.site == ·) =
      decide (site = 0xFF ∨ r.site = site.toNat) := fun r => by
    unfold optionalSite
    by_cases h : site = 0xFF
    · rw [if_pos h, decide_eq_true (.inl h)]
      rfl
    · rw [if_neg h, Option.all_some]
      simp only [h, false_or]
      rfl
  unfold listSnapshot rangeIds
  dsimp only
  rw [missing, List.filterMap_filterMap]
  simp only [chosen]
  rfl

/-- R96: the START segment that an EVENT_DETAIL takes. -/
theorem traceSet_eq {c : CapturePin} {g : Segment} {more : List Segment}
    (segments : (captureSlot s c.slot).segments = g :: more) : ∃ traces,
    traceSet s c = some ⟨c.slot, c.serial, g.pre, g.cycles, traces⟩ ∧
      traces.map (·.role) = ((captureSlot s c.slot).members.filter fun m => m.kind = .voltage).map (·.role) := by
  refine ⟨_, by unfold traceSet; dsimp only; rw [segments]; rfl, ?_⟩
  rw [List.map_map]
  have first : (captureSlot s c.slot).members.zipIdx.map (·.1) = (captureSlot s c.slot).members := List.zipIdx_map_fst ..
  have mapped : ((captureSlot s c.slot).members.zipIdx.filter fun m => m.1.kind == .voltage).map (·.1) =
      (captureSlot s c.slot).members.filter fun m => m.kind = .voltage := by
    have filtered := List.filter_map (p := fun m : CaptureMember => m.kind == .voltage) (f := Prod.fst)
      (l := (captureSlot s c.slot).members.zipIdx)
    rw [first] at filtered
    exact filtered.symm
  rw [← mapped, List.map_map]
  rfl

/-- R148, R153: the notes of a NOTE section. -/
theorem notes_taken {es : List (Entry × NoteRecord)}
    (h : List.Forall₂ (fun p x =>
      findEntry s.store .note p.2 = some x.1 ∧ contentOf s.store x.1 = .note x.2) pins es) :
    (pins.filterMap fun p => ((noteEntry s.store p.2).bind (noteContent s.store)).map fun r =>
        (r, isLocked s.store p.2)) =
      (pins.zip es).map fun x => (x.2.2, decide (x.1.2 ≤ s.store.lockMark)) := by
  induction h with
  | nil => rfl
  | @cons p x ps xs both _ ih =>
    obtain ⟨found, content⟩ := both
    have noted : ((noteEntry s.store p.2).bind (noteContent s.store)).map (fun r => (r, isLocked s.store p.2)) =
        some (x.2, decide (p.2 ≤ s.store.lockMark)) := by
      rw [noteEntry, found, Option.bind_some, noteContent, content]
      rfl
    rw [List.filterMap_cons, noted, List.zip_cons_cons, List.map_cons, ← ih]

theorem taken_interval {id : Word} {orders : List Byte} {e : Entry} {r : IntervalRecord} {n : Nat}
    (found : findEntry s.store .interval id.toNat = some e) (content : contentOf s.store e = .interval n r) :
    sectionSnapshot s ⟨.intervalTable id orders, pins, capture⟩ =
      .intervalTable id.toNat (some r) (orders.map (·.toNat)) := by
  have read : (findEntry s.store .interval id.toNat).bind (intervalOf s.store) = some r := by
    rw [found, Option.bind_some, intervalOf, content]
  exact congrArg (fun r => Snapshot.intervalTable id.toNat r (orders.map (·.toNat))) read

end

end Sys2Proof.Machine
end

