-- ==== Sys2Proof/Proofs/DotLines.lean ====
section
/-!
PROOFS. The dot lines of the items of a job: text lines, broken texts and traces (R149, R153, R157).
-/

namespace Sys2Proof.Machine

/-! ### Text lines -/

/-- The dot lines `ds` are those of the text lines `xs`: 24 glyph rows and a gap of 4. -/
def Printed (xs : List Line) (ds : List DotLine) : Prop :=
  ds.length = 28 * xs.length ∧ ∀ (i k : Nat) (x : Line), xs[i]? = some x → k < 28 →
    ds[28 * i + k]? = some
      (if k < 24 then { marks := .glyph x k } else { marks := .blank, endsText := decide (k = 27) })

theorem textLine_length (x : Line) : (textLine x).length = 28 := by
  simp [textLine]

theorem textLine_row (x : Line) {k : Nat} (h : k < 28) : (textLine x)[k]? =
    some (if k < 24 then { marks := .glyph x k } else { marks := .blank, endsText := decide (k = 27) }) := by
  interval_cases k <;> rfl

theorem printed_textLines : ∀ xs : List Line, Printed xs (textLines xs)
  | [] => ⟨rfl, fun _ _ _ h => absurd h nofun⟩
  | x :: xs => by
    obtain ⟨length, rows⟩ := printed_textLines xs
    have shape : textLines (x :: xs) = textLine x ++ textLines xs := rfl
    have first := textLine_length x
    refine ⟨by rw [shape, List.length_append, first, length, List.length_cons]; omega, fun i k y hy hk => ?_⟩
    rw [shape]
    cases i with
    | zero =>
      cases hy
      rw [List.getElem?_append_left (by omega), Nat.mul_zero, Nat.zero_add]
      exact textLine_row x hk
    | succ i =>
      rw [List.getElem?_append_right (by omega), first]
      have place : 28 * (i + 1) + k - 28 = 28 * i + k := by omega
      rw [place]
      exact rows i k y hy hk

theorem printed_textLine (x : Line) : Printed [x] (textLine x) := by
  have one := printed_textLines [x]
  have same : textLines [x] = textLine x := List.append_nil _
  rwa [same] at one

/-! ### Broken texts -/

/-- R149: a text is broken into lines of `n` characters, the last of them shorter, and at least one. -/
def Broken (n : Nat) (cs : List Byte) (parts : List (List Byte)) : Prop :=
  parts.flatten = cs ∧ parts.length = Nat.max 1 ((cs.length + (n - 1)) / n) ∧ ∀ part ∈ parts.dropLast, part.length = n

theorem pieces_flatten {α : Type} {n : Nat} (fuel : Nat) : ∀ xs : List α, xs.length ≤ n * fuel →
    (pieces n fuel xs).flatten = xs := by
  induction fuel with
  | zero =>
    intro xs short
    exact (List.length_eq_zero_iff.1 (Nat.le_zero.1 short)).symm
  | succ fuel ih =>
    intro xs short
    cases xs with
    | nil => rfl
    | cons x xs =>
      have rest := ih ((x :: xs).drop n) (by rw [List.length_drop, Nat.mul_succ] at *; omega)
      change ((x :: xs).take n ++ (pieces n fuel ((x :: xs).drop n)).flatten) = _
      rw [rest, List.take_append_drop]

theorem pieces_full {α : Type} {n : Nat} (fuel : Nat) : ∀ xs : List α,
    ∀ part ∈ (pieces n fuel xs).dropLast, part.length = n := by
  induction fuel with
  | zero => exact fun _ _ h => absurd h List.not_mem_nil
  | succ fuel ih =>
    intro xs part h
    cases xs with
    | nil => exact absurd h List.not_mem_nil
    | cons x xs =>
      change part ∈ ((x :: xs).take n :: pieces n fuel ((x :: xs).drop n)).dropLast at h
      by_cases last : pieces n fuel ((x :: xs).drop n) = []
      · rw [last] at h
        exact absurd h List.not_mem_nil
      · rw [List.dropLast_cons_of_ne_nil last] at h
        rcases List.mem_cons.1 h with rfl | later
        · have longer : (x :: xs).drop n ≠ [] := fun none_ => last (by
            rw [none_]
            cases fuel <;> rfl)
          rw [List.length_take]
          have positive := List.length_pos_iff.2 longer
          rw [List.length_drop] at positive
          omega
        · exact ih _ part later

theorem breakText_broken {n : Nat} (pos : 0 < n) (cs : List Byte) : Broken n cs (breakText n cs) := by
  unfold breakText
  cases cs with
  | nil =>
    have none_ : (([] : List Byte).length + (n - 1)) / n = 0 := Nat.div_eq_of_lt (by rw [List.length_nil]; omega)
    refine ⟨rfl, ?_, fun _ h => absurd h List.not_mem_nil⟩
    rw [none_]
    rfl
  | cons c cs =>
    have short : (c :: cs).length ≤ n * (c :: cs).length := Nat.le_mul_of_pos_left _ pos
    refine ⟨pieces_flatten _ _ short, (pieces_length n pos _ _ short).trans ?_, pieces_full _ _⟩
    refine (Nat.max_eq_right ((Nat.one_le_div_iff pos).2 ?_)).symm
    rw [List.length_cons]
    omega

theorem charsPerLine_pos (straps : Straps) : 0 < charsPerLine straps := by
  unfold charsPerLine headWidth
  split <;> decide

/-! ### Traces -/

theorem foldl_min_spec (xs : List Int) : ∀ a : Int, xs.foldl min a ∈ a :: xs ∧ ∀ x ∈ a :: xs, xs.foldl min a ≤ x := by
  induction xs with
  | nil => exact fun a => ⟨List.mem_cons_self, fun x h => by rw [List.mem_singleton.1 h]; exact le_refl _⟩
  | cons y ys ih =>
    intro a
    obtain ⟨mem, least⟩ := ih (min a y)
    rw [List.foldl_cons]
    have first := least _ List.mem_cons_self
    refine ⟨?_, fun x hx => ?_⟩
    · rcases List.mem_cons.1 mem with h | h
      · rw [h]
        rcases min_choice a y with e | e <;> rw [e] <;> simp
      · exact List.mem_cons_of_mem _ (List.mem_cons_of_mem _ h)
    · rcases List.mem_cons.1 hx with rfl | hx
      · exact first.trans (min_le_left _ _)
      · rcases List.mem_cons.1 hx with rfl | hx
        · exact first.trans (min_le_right _ _)
        · exact least x (List.mem_cons_of_mem _ hx)

theorem foldl_max_spec (xs : List Int) : ∀ a : Int, xs.foldl max a ∈ a :: xs ∧ ∀ x ∈ a :: xs, x ≤ xs.foldl max a := by
  induction xs with
  | nil => exact fun a => ⟨List.mem_cons_self, fun x h => by rw [List.mem_singleton.1 h]; exact le_refl _⟩
  | cons y ys ih =>
    intro a
    obtain ⟨mem, greatest⟩ := ih (max a y)
    rw [List.foldl_cons]
    have first := greatest _ List.mem_cons_self
    refine ⟨?_, fun x hx => ?_⟩
    · rcases List.mem_cons.1 mem with h | h
      · rw [h]
        rcases max_choice a y with e | e <;> rw [e] <;> simp
      · exact List.mem_cons_of_mem _ (List.mem_cons_of_mem _ h)
    · rcases List.mem_cons.1 hx with rfl | hx
      · exact (le_max_left _ _).trans first
      · rcases List.mem_cons.1 hx with rfl | hx
        · exact (le_max_right _ _).trans first
        · exact greatest x (List.mem_cons_of_mem _ hx)

theorem extremes_spec {xs : List Int} (h : xs ≠ []) :
    (leastInt xs ∈ xs ∧ ∀ x ∈ xs, leastInt xs ≤ x) ∧ greatestInt xs ∈ xs ∧ ∀ x ∈ xs, x ≤ greatestInt xs := by
  obtain ⟨x, rest, rfl⟩ := List.exists_cons_of_ne_nil h
  obtain ⟨memL, least⟩ := foldl_min_spec (x :: rest) x
  obtain ⟨memG, greatest⟩ := foldl_max_spec (x :: rest) x
  have inside : ∀ {y}, y ∈ x :: x :: rest → y ∈ x :: rest := fun {y} hy => by
    rcases List.mem_cons.1 hy with rfl | hy
    · exact List.mem_cons_self
    · exact hy
  exact ⟨⟨inside memL, fun y hy => least y (List.mem_cons_of_mem _ hy)⟩, inside memG,
    fun y hy => greatest y (List.mem_cons_of_mem _ hy)⟩

theorem column_mono (width : Nat) {x y : Int} (h : x ≤ y) : column width x ≤ column width y := by
  unfold column
  exact Nat.div_le_div_right (Nat.mul_le_mul_right _ (by omega))

/-- R157: a line of a trace spans the columns of the samples that it covers. -/
theorem traceLine_spec (width pre cycles : Nat) (samples : List Int) (k : Nat) (hk : k < 96) (some_ : 1 ≤ cycles)
    (full : samples.length = 128 * cycles) :
    let first := k * (128 * cycles) / 96
    let after := (k + 1) * (128 * cycles) / 96
    let at_ := fun (column j : Nat) => first ≤ j ∧ j < after ∧
      ∃ x, samples[j]? = some x ∧ column = (x + 32768).toNat * width / 65536
    ∃ low high, (∃ j, at_ low j) ∧ (∃ j, at_ high j) ∧
      (∀ column j, at_ column j → low ≤ column ∧ column ≤ high) ∧
      traceLine width pre cycles samples k =
        { marks := .trace low high (width / 2) (decide (first ≤ 128 * pre ∧ 128 * pre < after)) } := by
  intro first after at_
  have grows : first < after := by
    have step : (k + 1) * (128 * cycles) = k * (128 * cycles) + 128 * cycles := Nat.succ_mul ..
    simp only [first, after]
    omega
  have inside : after ≤ samples.length := by
    rw [full]
    exact Nat.div_le_of_le_mul (Nat.mul_le_mul_right _ (by omega))
  let covered := (samples.drop first).take (after - first)
  have mem : ∀ x, x ∈ covered ↔ ∃ j, first ≤ j ∧ j < after ∧ samples[j]? = some x := fun x => by
    rw [List.mem_iff_getElem?]
    constructor
    · rintro ⟨i, hi⟩
      rw [List.getElem?_take] at hi
      split at hi
      · rw [List.getElem?_drop] at hi
        exact ⟨first + i, by omega, by omega, hi⟩
      · exact absurd hi nofun
    · rintro ⟨j, low, high, hj⟩
      refine ⟨j - first, ?_⟩
      rw [List.getElem?_take, if_pos (by omega), List.getElem?_drop]
      have place : first + (j - first) = j := by omega
      rw [place, hj]
  have nonempty : covered ≠ [] := by
    refine List.ne_nil_of_length_pos ?_
    rw [List.length_take, List.length_drop]
    omega
  obtain ⟨⟨memL, least⟩, memG, greatest⟩ := extremes_spec nonempty
  have placed : ∀ x ∈ covered, ∃ j, at_ (column width x) j := fun x hx => by
    obtain ⟨j, low, high, hj⟩ := (mem x).1 hx
    exact ⟨j, low, high, x, hj, rfl⟩
  refine ⟨column width (leastInt covered), column width (greatestInt covered), placed _ memL, placed _ memG, ?_, ?_⟩
  · rintro _ j ⟨low, high, x, hj, rfl⟩
    have here := (mem x).2 ⟨j, low, high, hj⟩
    exact ⟨column_mono width (least x here), column_mono width (greatest x here)⟩
  · rw [Bool.decide_and]
    rfl

/-- The lines of the traces, 96 for each. -/
theorem traces_spec {α : Type} (f : α → Nat → DotLine) : ∀ ts : List α,
    (ts.flatMap fun t => (List.range 96).map (f t)).length = 96 * ts.length ∧
      ∀ i k t, ts[i]? = some t → k < 96 → (ts.flatMap fun t => (List.range 96).map (f t))[96 * i + k]? = some (f t k)
  | [] => ⟨rfl, fun _ _ _ h => absurd h nofun⟩
  | t :: ts => by
    obtain ⟨length, rows⟩ := traces_spec f ts
    have first : ((List.range 96).map (f t)).length = 96 := by rw [List.length_map, List.length_range]
    rw [List.flatMap_cons]
    refine ⟨by rw [List.length_append, first, length, List.length_cons]; omega, fun i k u hu hk => ?_⟩
    cases i with
    | zero =>
      cases hu
      rw [List.getElem?_append_left (by omega), Nat.mul_zero, Nat.zero_add, List.getElem?_map, List.getElem?_range hk]
      rfl
    | succ i =>
      have place : 96 * (i + 1) + k - 96 = 96 * i + k := by omega
      rw [List.getElem?_append_right (by omega), first, place]
      exact rows i k u hu hk

end Sys2Proof.Machine
end

