-- ==== Sys2Proof/Proofs/LineDone.lean ====
section
/-!
PROOFS. DOT_LINE_DONE: the line counted, and the next line boundary or the end of the job (R159, R160, R163, R165).
-/

namespace Sys2Proof.Machine

/-! ### What the renderer keeps of the mechanism -/

/-- From `p` to `q` the renderer has appended dot lines, and the mechanism is where it was. -/
structure Rendered (p q : Print) : Prop where
  inHand : q.inHand = p.inHand
  lineBusy : q.lineBusy = p.lineBusy
  lineSlow : q.lineSlow = p.lineSlow
  latch : q.latch = p.latch
  buffer : p.buffer <+: q.buffer

theorem Rendered.refl (p : Print) : Rendered p p := ⟨rfl, rfl, rfl, rfl, List.prefix_refl _⟩

theorem Rendered.trans {p q r : Print} (h : Rendered p q) (k : Rendered q r) : Rendered p r :=
  ⟨k.inHand.trans h.inHand, k.lineBusy.trans h.lineBusy, k.lineSlow.trans h.lineSlow, k.latch.trans h.latch,
    h.buffer.trans k.buffer⟩

theorem modifyActive_rendered (f : Job → Job) (p : Print) : Rendered p (modifyActive f p) := by
  unfold modifyActive
  split
  · split
    · exact { Rendered.refl p with }
    · exact .refl p
  · exact .refl p

theorem renderFrom_rendered (straps : Straps) (fuel : Nat) : ∀ p, Rendered p (renderFrom straps fuel p) := by
  induction fuel with
  | zero => exact .refl
  | succ fuel ih =>
    intro p
    rw [renderFrom]
    split
    · exact .refl p
    · next e rest _ =>
      split
      · exact .refl p
      · next x _ =>
        dsimp only
        have grown : Rendered p { p with buffer := p.buffer ++
            ((linesOf straps x).drop e.placed).take (Config.bufferPlaces - p.buffer.length) } :=
          { Rendered.refl p with buffer := List.prefix_append _ _ }
        have placed := modifyActive_rendered (fun j => { j with
            renderCopy := e.copy, renderItem := e.item
            placed := j.placed || 0 < Nat.min (Config.bufferPlaces - p.buffer.length) ((linesOf straps x).drop e.placed).length })
          { p with buffer := p.buffer ++ ((linesOf straps x).drop e.placed).take (Config.bufferPlaces - p.buffer.length) }
        generalize modifyActive _ _ = q at *
        have works := grown.trans placed
        split
        · refine (works.trans ?_).trans (ih _)
          exact Rendered.trans (q := { q with cache := rest }) { Rendered.refl q with }
            (modifyActive_rendered (entryRendered e x) _)
        · exact works.trans { Rendered.refl q with }

/-! ### The line counted -/

section
variable {s : State} {j : Job} {rest : List Job} {x : DotLine}

/-- R159: the engine with the line counted and none in hand. -/
def Print.counted (x : DotLine) (j : Job) (rest : List Job) (p : Print) : Print :=
  { p with ring := countLine x j :: rest, inHand := none, lineBusy := false, lineStale := false }

theorem countLine_eq (x : DotLine) (j : Job) : countLine x j =
    { j with
      tallies :=
        { j.tallies with
          dotLines := j.tallies.dotLines + 1
          textLines := if x.endsText then j.tallies.textLines + 1 else j.tallies.textLines
          copies := if x.endsCopy ∧ j.cancelled = false then j.tallies.copies + 1 else j.tallies.copies } } := by
  unfold countLine
  cases x.endsText <;> cases x.endsCopy <;> cases j.cancelled <;> rfl

/-- The state in which the engine turns to what follows the line. -/
def lineCounted (x : DotLine) (j : Job) (rest : List Job) (s : State) : State :=
  { s with print := s.print.counted x j rest }

/-- A line's end that is not due does nothing. -/
theorem dotLineDone_idle (h : s.print.lineBusy = false ∨ s.print.inHand = none) : dotLineDone s = s := by
  unfold dotLineDone
  split
  · next busy hand =>
    rcases h with h | h
    · exact absurd (busy.symm.trans h) nofun
    · exact absurd (hand.symm.trans h) nofun
  · rfl

/-- No fetch is due. -/
theorem fetchDue_idle (h : fetchNext s = s) : fetchDue s = s := by
  have same := sectionFetch_idle h
  rw [fetchDue, same, same, same]

section
variable (works : j.phase = some .running ∨ j.phase = some .cancelling)
include works

theorem working_active : j.phase.isSome = true := by
  rcases works with h | h <;> rw [h] <;> rfl

theorem finished_iff : finished (s.print.counted x j rest) (countLine x j) = true ↔
    j.fullyRendered = true ∧ s.print.buffer = [] := by
  have going : (j.phase == some .running || j.phase == some .cancelling) = true := by
    rcases works with h | h <;> rw [h] <;> rfl
  have shape : finished (s.print.counted x j rest) (countLine x j) =
      ((j.phase == some .running || j.phase == some .cancelling) && j.fullyRendered && s.print.buffer.isEmpty && true) := rfl
  rw [shape, going, Bool.true_and, Bool.and_true, Bool.and_eq_true, List.isEmpty_iff]

theorem mayPrint_counted : mayPrint (s.print.counted x j rest) = true ↔
    s.print.brake = false ∧ s.print.latch = false ∧ s.print.tempClass ≠ .overheat := by
  have going : (j.phase != some .doneWait) = true := by rcases works with h | h <;> rw [h] <;> rfl
  have at_ : activeJob (s.print.counted x j rest) = some (countLine x j) :=
    activeJob_cons (p := s.print.counted x j rest) rfl (working_active works)
  have shape : mayPrint (s.print.counted x j rest) =
      ((j.phase != some .doneWait) && !s.print.brake && !s.print.latch && s.print.tempClass != .overheat) := by
    unfold mayPrint
    rw [at_]
    rfl
  rw [shape, going, Bool.true_and, Bool.and_eq_true, Bool.and_eq_true, Bool.not_eq_true', Bool.not_eq_true',
    bne_iff_ne, and_assoc]

end

section
variable (busy : s.print.lineBusy = true) (hand : s.print.inHand = some x) (ring : s.print.ring = j :: rest)
  (works : j.phase = some .running ∨ j.phase = some .cancelling) (unowed : s.link.owed = none)
include ring works

theorem fetchNext_full (full : j.phase = some .cancelling ∨ j.copies < j.fetchCopy ∨ 3 ≤ s.print.cache.length) :
    fetchNext s = s := by
  refine fetchNext_idle fun k hk => ?_
  cases hk.symm.trans (activeJob_cons ring (working_active works))
  rw [canFetch_iff]
  rintro ⟨running, room, copies, _⟩
  rcases full with h | h | h
  · exact absurd (h.symm.trans running) nofun
  · omega
  · omega

include busy hand in
theorem dotLineDone_due (full : j.phase = some .cancelling ∨ j.copies < j.fetchCopy ∨ 3 ≤ s.print.cache.length) :
    dotLineDone s = printStep (lineDone x) s := by
  have same := fetchDue_idle (fetchNext_full ring works full)
  unfold dotLineDone
  rw [busy, hand]
  dsimp only
  rw [same]

include unowed in
theorem lineDone_eq : lineDone x s =
    if finished (s.print.counted x j rest) (countLine x j) then finishActive (countLine x j) (lineCounted x j rest s)
    else lineBoundary (lineCounted x j rest s) := by
  have active := working_active works
  have counted : setPrint (fun p => modifyActive (countLine x)
      { p with inHand := none, lineBusy := false, lineStale := false }) s = lineCounted x j rest s := by
    refine congrArg (fun p : Print => { s with print := p }) ?_
    exact modifyActive_cons (p := { s.print with inHand := none, lineBusy := false, lineStale := false }) ring active
  have undue : printResetDue (lineCounted x j rest s).link = false := by
    change printResetDue s.link = false
    rw [printResetDue, unowed]
  have at_ : activeJob (lineCounted x j rest s).print = some (countLine x j) :=
    activeJob_cons (p := s.print.counted x j rest) rfl active
  unfold lineDone
  dsimp only
  rw [counted, undue, if_neg Bool.false_ne_true]
  unfold endLine
  rw [at_]
  rfl

end

end

/-- An event whose effect is a step that moves the engine alone. -/
theorem exec_engine {c : Instr} {f g : State → State} {s : State} {q : Print} (quiet : Quiet s)
    (h : eventEffect c = some g) (step : g s = printStep f s) (moved : f s = { s with print := q })
    (unshown : jobShown s.print q = false) : exec c s = .next { s with print := q, link := toldLink s q } := by
  have told := event_printStep quiet moved unshown
  rw [event_next] at told
  rw [congrFun (exec_event h) s, event_next, step, told]

end Sys2Proof.Machine
end

