-- ==== Sys2Proof/Proofs/LineBoundaries.lean ====
section
/-!
PROOFS. What follows a line that is done: the job's end, a line boundary with nothing placed, or the next line (R159,
R160, R163, R165).
-/

namespace Sys2Proof.Machine

section
variable {s : State} {j : Job} {rest : List Job} {x : DotLine}

/-! ### The next line -/

theorem lineCounted_free (unowed : s.link.owed = none)
    (may : mayPrint (s.print.counted x j rest) = true) :
    ¬((lineCounted x j rest s).print.lineBusy || !mayPrint (lineCounted x j rest s).print ||
      printResetDue (lineCounted x j rest s).link) = true := by
  have may : mayPrint (lineCounted x j rest s).print = true := may
  have undue : printResetDue (lineCounted x j rest s).link = false := by
    change printResetDue s.link = false
    rw [printResetDue, unowed]
  rw [may, undue]
  exact nofun

/-- R160: a line boundary at which no line is placed counts a stall of a job that has begun. -/
theorem lineBoundary_none (unowed : s.link.owed = none) (may : mayPrint (s.print.counted x j rest) = true)
    (works : j.phase = some .running ∨ j.phase = some .cancelling) (empty : s.print.buffer = []) :
    (lineBoundary (lineCounted x j rest s)).print =
      if j.phase = some .running ∧ j.fullyRendered = false ∧ j.placed = true then
        { s.print.counted x j rest with stalls := satInc 4294967295 s.print.stalls }
      else s.print.counted x j rest := by
  have at_ : activeJob (lineCounted x j rest s).print = some (countLine x j) :=
    activeJob_cons (p := s.print.counted x j rest) rfl (working_active works)
  have none_ : (lineCounted x j rest s).print.inHand = none := rfl
  have buffer : (lineCounted x j rest s).print.buffer = [] := empty
  have open_ : unfinished (countLine x j) = true ↔
      j.phase = some .running ∧ j.fullyRendered = false ∧ j.placed = true := by
    have shape : unfinished (countLine x j) = (j.phase == some .running && !j.fullyRendered && j.placed) := rfl
    rw [shape, Bool.and_eq_true, Bool.and_eq_true, beq_iff_eq, Bool.not_eq_true', and_assoc]
  have cases_ : lineBoundary (lineCounted x j rest s) =
      if unfinished (countLine x j) then
        setPrint (fun p => { p with stalls := satInc max32 p.stalls }) (lineCounted x j rest s)
      else lineCounted x j rest s := by
    unfold lineBoundary
    rw [if_neg (lineCounted_free unowed may), none_, buffer]
    dsimp only
    rw [at_]
  rw [cases_]
  by_cases h : unfinished (countLine x j) = true
  · rw [if_pos h, if_pos (open_.1 h)]
    rfl
  · rw [if_neg h, if_neg (mt open_.2 h)]
    rfl

/-- R159: the next line placed begins, or sets the paper-out latch. -/
theorem lineBoundary_next {y : DotLine} {more : List DotLine} (unowed : s.link.owed = none)
    (may : mayPrint (s.print.counted x j rest) = true) (latch : s.print.latch = false)
    (buffer : s.print.buffer = y :: more) :
    let q := (lineBoundary (lineCounted x j rest s)).print
    q.inHand = some y ∧ q.lineBusy = s.print.paper ∧ q.latch = (!s.print.paper) ∧
      (s.print.paper = true → q.lineSlow = (s.print.tempClass == .hot)) ∧ more <+: q.buffer := by
  let p : Print := { s.print.counted x j rest with inHand := some y, buffer := more }
  have next : lineBoundary (lineCounted x j rest s) = render { s with print := beginLine p } := by
    have none_ : (lineCounted x j rest s).print.inHand = none := rfl
    have placed : (lineCounted x j rest s).print.buffer = y :: more := buffer
    unfold lineBoundary
    rw [if_neg (lineCounted_free unowed may), none_, placed]
    rfl
  have rendered : Rendered (beginLine p) (lineBoundary (lineCounted x j rest s)).print := by
    rw [next]
    exact renderFrom_rendered _ _ _
  have begun : (beginLine p).inHand = some y ∧ (beginLine p).lineBusy = s.print.paper ∧
      (beginLine p).latch = (!s.print.paper) ∧
      (s.print.paper = true → (beginLine p).lineSlow = (s.print.tempClass == .hot)) ∧ (beginLine p).buffer = more := by
    cases paper : s.print.paper with
    | true =>
      have shape : beginLine p = { p with lineBusy := true, lineSlow := s.print.tempClass == .hot } := if_pos paper
      rw [shape]
      exact ⟨rfl, rfl, latch, fun _ => rfl, rfl⟩
    | false =>
      have shape : beginLine p = { p with latch := true } := if_neg (by rw [show p.paper = false from paper]; exact nofun)
      rw [shape]
      exact ⟨rfl, rfl, rfl, nofun, rfl⟩
  obtain ⟨hand, busy, out, slow, left⟩ := begun
  exact ⟨rendered.inHand.trans hand, rendered.lineBusy.trans busy, rendered.latch.trans out,
    fun paper => rendered.lineSlow.trans (slow paper), left ▸ rendered.buffer⟩

/-! ### The end of the job -/

/-- R165: the job leaves the ring for the done queue. -/
theorem finishActive_done (room : s.print.done.length < 8) :
    let t := printStep (fun _ => finishActive (countLine x j) (lineCounted x j rest s)) s
    t.print.done = s.print.done ++ [⟨j.id, j.cancelled, (countLine x j).tallies⟩] ∧
      t.print.ring.map (·.id) = rest.map (·.id) ∧ t.print.completions = (s.print.completions + 1) % 2 ^ 32 ∧
      t.print.inHand = none ∧ t.store.array = s.store.array ∧ t.sites = s.sites ∧ t.supply = s.supply := by
  intro t
  let u := lineCounted x j rest s
  have finishes : finishActive (countLine x j) u = makeDone (countLine x j) u := if_pos room
  have print : t.print = (u.print.withDone (countLine x j)).started := by
    rw [printStep_print, finishes, makeDone_print]
  have moves := makeDone_moves (P := only [.print, .store, .capture]) (countLine x j) u (by decide) (by decide) (by decide)
  have after := (printStep_after (fun _ => finishActive (countLine x j) u) s).1
  have ring : (u.print.withDone (countLine x j)).ring = rest := by
    have own : (fun k : Job => k.id == (countLine x j).id) (countLine x j) = true := beq_self_eq_true _
    exact List.eraseP_cons_of_pos (p := fun k : Job => k.id == (countLine x j).id) (a := countLine x j) (l := rest) own
  obtain ⟨done, completions⟩ := withDone_started (countLine x j) u.print
  refine ⟨by rw [print]; exact done, ?_, by rw [print]; exact completions, ?_, ?_, ?_, ?_⟩
  · rw [print, started_map (·.id) (fun _ _ => rfl), ring]
  · rw [print, started_rest]
    rfl
  · rw [after.array_eq (by decide), finishes]
    exact makeDone_array _ _
  · rw [after.sites_eq (by decide), finishes]
    exact moves.sites_eq (by decide)
  · rw [after.supply_eq (by decide), finishes]
    exact moves.supply_eq (by decide)

/-- R163: the job waits for a place of the done queue. -/
theorem finishActive_waits (works : j.phase = some .running ∨ j.phase = some .cancelling) (full : 8 ≤ s.print.done.length) :
    let t := printStep (fun _ => finishActive (countLine x j) (lineCounted x j rest s)) s
    t.print = { s.print.counted x j rest with ring := { countLine x j with phase := some .doneWait } :: rest } ∧
      t = { s with print := t.print, link := t.link } := by
  intro t
  let waits : Job → Job := fun j => { j with phase := some .doneWait }
  have waited : modifyActive waits (s.print.counted x j rest) =
      { s.print.counted x j rest with ring := waits (countLine x j) :: rest } :=
    modifyActive_cons (p := s.print.counted x j rest) rfl (working_active works)
  have finishes : finishActive (countLine x j) (lineCounted x j rest s) =
      postPrint (some j.id) (some (some .doneWait)) (setPrint (modifyActive waits) (lineCounted x j rest s)) :=
    if_neg (Nat.not_lt.2 full)
  have after := (printStep_after (fun _ => finishActive (countLine x j) (lineCounted x j rest s)) s).1
  have moves : Moves (only [.print]) s t := by
    have counted : Moves (only [.print]) s (lineCounted x j rest s) :=
      setPrint_moves (P := only [.print]) (fun _ => s.print.counted x j rest) s (by decide)
    have waiting := setPrint_moves (P := only [.print]) (modifyActive waits) (lineCounted x j rest s) (by decide)
    have told := Moves.post (P := only [.print]) (.printState (some j.id) (some (some .doneWait))
      (mechState (setPrint (modifyActive waits) (lineCounted x j rest s)).print)
      (setPrint (modifyActive waits) (lineCounted x j rest s)).print.brake
      (setPrint (modifyActive waits) (lineCounted x j rest s)).print.latch
      (setPrint (modifyActive waits) (lineCounted x j rest s)).print.tempClass
      (setPrint (modifyActive waits) (lineCounted x j rest s)).print.ring.length
      (setPrint (modifyActive waits) (lineCounted x j rest s)).print.done.length)
      (setPrint (modifyActive waits) (lineCounted x j rest s))
    have last : Moves (only [.print]) s (finishActive (countLine x j) (lineCounted x j rest s)) := by
      rw [finishes]
      exact (counted.trans waiting).trans told
    exact last.trans (postWhen_moves _ _ _)
  refine ⟨?_, moves.eq_of_print⟩
  rw [printStep_print, finishes]
  exact waited

end

end Sys2Proof.Machine
end

