-- ==== Sys2Proof/Proofs/PrintEvents.lean ====
section
/-!
PROOFS. The events of the print engine, assembled (O57).
-/

namespace Sys2Proof.Machine

/-! ### The items (R149, R152, R153, R157) -/

section
variable (straps : Straps)

theorem lines_trailer (job copy copies : Nat) (time : ClockTime) (n : Nat) : ∃ ds, Printed [.trailer job copy] ds ∧
    linesOf straps (.trailer job copy copies time n) =
      ds ++ List.replicate 63 { marks := .blank } ++ [{ marks := .blank, endsCopy := true }] :=
  ⟨_, printed_textLine _, (List.append_assoc ..).symm⟩

theorem lines_cancelTrailer (job : Nat) : ∃ ds, Printed [.cancelled job] ds ∧
    linesOf straps (.cancelTrailer job) = ds ++ List.replicate 64 { marks := .blank } :=
  ⟨_, printed_textLine _, rfl⟩

theorem lines_text (cs : List Byte) : ∃ parts, Broken (headWidth straps / 12) cs parts ∧
    Printed (parts.map .chars) (linesOf straps (.text cs)) :=
  ⟨_, breakText_broken (charsPerLine_pos straps) cs, printed_textLines _⟩

/-- R157: an EVENT_DETAIL with the waveform of its capture. -/
theorem lines_detail (r : EventRecord) (c : TraceSet) : ∃ ds traces,
    linesOf straps (.eventDetail (some r) true (some c)) = ds ++ traces ∧
      Printed (detailLines true (some c) (some r)) ds ∧ traces.length = 96 * c.traces.length ∧
      ∀ (i k : Nat) (t : Trace), c.traces[i]? = some t → k < 96 →
        traces[96 * i + k]? = some (traceLine (headWidth straps) c.pre c.cycles t.samples k) := by
  obtain ⟨length, rows⟩ := traces_spec (fun (t : Trace) k =>
    traceLine (headWidth straps) c.pre c.cycles t.samples k) c.traces
  exact ⟨_, _, rfl, printed_textLines _, length, rows⟩

theorem lines_notes_append (xs ys : List (NoteRecord × Bool)) :
    linesOf straps (.notes (xs ++ ys)) = linesOf straps (.notes xs) ++ linesOf straps (.notes ys) := by
  change textLines _ = textLines _ ++ textLines _
  unfold textLines
  rw [List.flatMap_append, List.flatMap_append]

theorem lines_note (r : NoteRecord) (locked : Bool) : ∃ parts, Broken (headWidth straps / 12) r.text parts ∧
    Printed (.noteHead r.id r.crew r.time r.site r.attach locked :: parts.map .chars)
      (linesOf straps (.notes [(r, locked)])) := by
  refine ⟨_, breakText_broken (charsPerLine_pos straps) r.text, ?_⟩
  have lines : linesOf straps (.notes [(r, locked)]) =
      textLines (noteLines (charsPerLine straps) (r, locked)) := congrArg textLines (List.append_nil _)
  rw [lines]
  exact printed_textLines _

theorem lines_interval (id : Nat) (r : IntervalRecord) (orders : List Nat) :
    Printed ([.intervalHead id r.site r.role r.serial,
        .intervalSpan r.startTime r.endTime r.n r.excluded r.flags, .intervalThd r.thd] ++
        orders.map fun h => .intervalOrder h r.orders[h - 1]? (decide (4 ≤ r.role.code)))
      (linesOf straps (.intervalTable id (some r) orders)) := by
  have current : (roleKind r.role.code == .current) = decide (4 ≤ r.role.code) := by cases r.role <;> rfl
  rw [← current]
  exact printed_textLines _

theorem lines_survey {r : SurveyRecord} {a b c d : SiteRecord} (sites : r.sites = [a, b, c, d]) :
    let site := fun (e : SiteRecord) => (e.settings.enabled, e.settings.name, e.settings.udin)
    Printed
      [.surveyState r.number r.state, .surveyCause r.cause, .surveyFirst r.first,
        .surveyRun r.runStart, .surveyMode r.mode r.time, .surveySites (site a) (site b),
        .surveySites (site c) (site d),
        .surveyMembers ([a, b, c, d].map fun e => e.members.countP Option.isSome)]
      (linesOf straps (.survey (some r))) := by
  intro site
  have each : ∀ i e, [a, b, c, d][i]? = some e → siteLine r i = site e := fun i e h => by
    unfold siteLine
    rw [sites, h]
  have members : (r.sites.map fun e => (e.members.filter Option.isSome).length) =
      [a, b, c, d].map fun e => e.members.countP Option.isSome := by
    rw [sites]
    exact List.map_congr_left fun e _ => List.countP_eq_length_filter.symm
  have lines : ∀ {xs}, summaryLines (some r) = xs → Printed xs (linesOf straps (.survey (some r))) := by
    rintro _ rfl
    exact printed_textLines _
  refine lines ?_
  unfold summaryLines
  dsimp only
  rw [each 0 a rfl, each 1 b rfl, each 2 c rfl, each 3 d rfl, members]

end

/-! ### The obligation -/

/-- Settles O57. -/
theorem printEventsMoveTheEngine : Obligations.PrintEventsMoveTheEngine := by
  unfold Obligations.PrintEventsMoveTheEngine
  intro s quiet p told moves idle ready
  refine ⟨fun c => ?head, fun present => exec_paperChange present quiet, fun j rest ring => ?fetch, fun none_ => ?empty,
    fun pins capture => ?taken, ?lines, fun h => ?idleLine, fun x j rest busy hand ring works unowed full => ?line⟩
  case head =>
    intro first class_ q
    have class_eq : classAfter s.print.temp.isNone s.print.tempClass c = class_ := classAfter_eq s.print c
    have heated : s.print.heated c = q := by
      unfold Print.heated
      rw [class_eq]
    have after := exec_headTemperature (c := c) quiet
    refine ⟨fun h => ?_, fun hot cooled notBusy going x hand => ?_, (heatedStep c s).print, after, ?_⟩
    · rw [heatedStep_still (by rw [heated]; exact h), heated] at after
      exact after
    · obtain ⟨brake, latch, unowed, j, rest, ring, works⟩ := going
      rw [heatedStep_begins hot (by rw [heated]; exact cooled) notBusy brake latch unowed ring works hand, heated] at after
      exact after
    · have works := (heatedStep_works (c := c) (s := s)).print
      refine ⟨works.temp, works.tempClass.trans class_eq, works.length, works.done, works.brake⟩
  case fetch =>
    intro last next fetches waits
    have due : canFetch s.print j = true ↔ fetches := canFetch_iff
    have waiting : itemWaits s.store j j.fetchItem = true ↔ waits := itemWaits_iff
    refine ⟨fun no => exec_sectionFetch_idle quiet (fetchNext_idle fun k hk => ?_), fun yes => ?_⟩
    · have same : k = j := by
        rw [activeJob, show s.print.ring = j :: rest from ring, List.head?_cons] at hk
        exact (Option.some.inj (Option.mem_filter_iff.1 hk).1).symm
      rw [same]
      exact mt due.1 no
    · have fetch := due.2 yes
      have active := fetching_active fetch
      refine ⟨(renderAndTake (fetchStep s j rest)).print, fetchSnapshot s j, exec_sectionFetch ring fetch quiet,
        fun w => if_pos (waiting.2 w), fun w => ?_, fun w => fetchSnapshot_header (mt waiting.1 w),
        fetchSnapshot_trailer, fun x w => fetchSnapshot_section (mt waiting.1 w), fun fullBuffer some_ => ?_,
        fun x cache buffer brake snapshot long => ?_⟩
      · rw [fetchSnapshot, if_neg (mt waiting.1 w)]
        rfl
      · have taken := renderAndTake_full (u := fetchStep s j rest) fullBuffer
        rw [taken]
        refine ⟨renderFrom_full _ _ _ fullBuffer, fun h t cache x fetched left => ?_⟩
        have stands := renderFrom_stands (straps := s.straps) (p := fetchTaken s j rest) (k := advanceFetch j) (rest := rest)
          (e := h) (more := t ++ [{ copy := j.fetchCopy, item := j.fetchItem, snapshot := fetchSnapshot s j }])
          Config.cachePlaces fullBuffer (congrArg (· ++ _) cache) fetched left rfl (by rw [advanceFetch_phase]; exact active)
        have engine : (render (fetchStep s j rest)).print = _ := stands
        rw [engine]
        exact ⟨rfl, rfl⟩
      · obtain ⟨buffered, hand, cached⟩ := renderAndTake_first (rest := rest) cache buffer brake yes.1 snapshot long
        exact ⟨buffered, hand, snapshot ▸ cached⟩
  case empty =>
    refine exec_sectionFetch_idle quiet (fetchNext_idle fun k hk => ?_)
    rw [activeJob, show s.print.ring = [] from none_] at hk
    exact absurd hk nofun
  case taken =>
    intro taken eventOf_
    refine ⟨fun _ => rfl, fun _ => rfl, fun a b site => listSnapshot_eq s.store a.toNat b.toNat site, fun id w h => ?_,
      fun id w c g more h segments => ?_, fun id orders e r n found content => taken_interval found content,
      fun id amendments es both => congrArg Snapshot.notes (notes_taken both), rfl⟩
    · subst h
      rfl
    · subst h
      obtain ⟨traces, set_, roles⟩ := traceSet_eq segments
      exact ⟨traces, congrArg (Snapshot.eventDetail _ w) set_, roles⟩
  case lines =>
    intro width blank printed broken lines
    refine ⟨fun job copy copies time n => ⟨printed_textLines _, lines_trailer _ job copy copies time n⟩,
      lines_cancelTrailer _, lines_text _, fun _ => rfl, fun _ _ _ _ _ => printed_textLines _, fun r => ?detail,
      lines_interval _, lines_notes_append _, lines_note _, fun r a b c d => lines_survey _, printed_textLines _⟩
    intro detail
    refine ⟨fun c => ?_, ?_, fun c => ?_⟩
    · have same : lines (.eventDetail (some r) false c) = textLines (detail .noWaveform) := by
        refine (List.append_nil _).trans ?_
        cases c <;> rfl
      rw [same]
      exact printed_textLines _
    · have same : lines (.eventDetail (some r) true none) = textLines (detail .noWaveform ++ [.waveformNotAvailable]) := by
        unfold textLines
        rw [List.flatMap_append, List.flatMap_singleton]
        rfl
      rw [same]
      exact printed_textLines _
    · obtain ⟨ds, traces, shape, text, length, rows⟩ := lines_detail s.straps r c
      refine ⟨ds, traces, shape, text, length, fun i k t ht hk some_ full => ?_⟩
      intro first after at_
      obtain ⟨low, high, least, greatest, between, line⟩ :=
        traceLine_spec (headWidth s.straps) c.pre c.cycles t.samples k hk some_ full
      exact ⟨low, high, least, greatest, between, (rows i k t ht hk).trans (congrArg some line)⟩
  case idleLine =>
    have same := dotLineDone_idle h
    have after := event_quiet dotLineDone s quiet.1 (by rw [same]; exact quiet.2)
    rw [same] at after
    exact (congrFun (exec_event rfl) s).trans after
  case line =>
    intro tallies q finished_ prints
    have step := dotLineDone_due busy hand ring works full
    have done := lineDone_eq (x := x) ring works unowed
    have counted : s.print.counted x j rest = q := by
      unfold Print.counted
      rw [countLine_eq]
    have ends : finished (s.print.counted x j rest) (countLine x j) = true ↔ finished_ := finished_iff works
    have may : mayPrint (s.print.counted x j rest) = true ↔ prints := mayPrint_counted works
    have finishes : finished_ → dotLineDone s =
        printStep (fun _ => finishActive (countLine x j) (lineCounted x j rest s)) s := fun h => by
      rw [step]
      unfold printStep
      dsimp only
      rw [done, if_pos (ends.2 h)]
    have phases : (activeJob (s.print.counted x j rest)).map (·.phase) = (activeJob s.print).map (·.phase) := by
      rw [activeJob_cons (p := s.print.counted x j rest) rfl (working_active works),
        activeJob_cons ring (working_active works)]
      rfl
    have event_ : exec .dotLineDone s = .next (dotLineDone s) :=
      (congrFun (exec_event rfl) s).trans (event_of_moves (P := anyPart) (dotLineDone_moves s trivial trivial trivial) quiet)
    have goesOn : ¬finished_ → moves .dotLineDone (lineBoundary (lineCounted x j rest s)).print := fun h => by
      have boundary := lineBoundary_works (lineCounted x j rest s)
      refine exec_engine quiet rfl step ?_ (jobShown_kept (boundary.print.phase.trans phases) boundary.print.completions)
      rw [done, if_neg (mt ends.1 h)]
      exact boundary.rest
    refine ⟨fun h room => ⟨_, event_, ?_⟩, fun h noRoom => ⟨_, event_, ?_⟩, fun h held => ?_, fun h go none_ => ?_,
      fun y more h go next => ?_⟩
    · rw [finishes h]
      have tallied : (countLine x j).tallies = tallies := by rw [countLine_eq]
      rw [← tallied]
      exact finishActive_done room
    · rw [finishes h]
      obtain ⟨print, rest_⟩ := finishActive_waits (s := s) (rest := rest) (x := x) works noRoom
      refine ⟨print.trans ?_, rest_⟩
      rw [← counted, countLine_eq]
    · have still := goesOn h
      rw [lineBoundary_stopped (s := lineCounted x j rest s) (Bool.eq_false_iff.2 (mt may.1 held))] at still
      rw [← counted]
      exact still
    · have after := goesOn h
      rw [lineBoundary_none unowed (may.2 go) works none_, counted] at after
      exact after
    · obtain ⟨inHand, lineBusy, latch, slow, buffered⟩ := lineBoundary_next (x := x) (rest := rest) unowed (may.2 go) go.2.1 next
      have boundary := (lineBoundary_works (lineCounted x j rest s)).print
      refine ⟨_, goesOn h, inHand, lineBusy, latch, slow, buffered, ?_⟩
      rw [← counted]
      exact boundary.map fun k => (k.1, k.2.2.2.2.2.2)

end Sys2Proof.Machine
end

