-- ==== Sys2Proof/Proofs/SectorWalks.lean ====
section
/-!
PROOFS. The walk of a sector at mount (R130): it finds exactly the valid headers that lie in no record before them.
-/

namespace Sys2Proof.Machine

/-- The valid header at a block of the array whose record lies within the sector. -/
def headerOn (m : Memory) (sector block : Nat) : Option Header :=
  (decodeHeader (Memory.readBytes m (blockAddress (sector, block)) 37)).filter fun h =>
    1 ≤ h.size && block + h.size ≤ 64

theorem headerOn_iff {m : Memory} {sector block : Nat} {h : Header} : headerOn m sector block = some h ↔
    1 ≤ h.size ∧ block + h.size ≤ 64 ∧
      decodeHeader (Memory.readBytes m (blockAddress (sector, block)) 37) = some h := by
  unfold headerOn
  rw [Option.filter_eq_some_iff, Bool.and_eq_true, decide_eq_true_iff, decide_eq_true_iff]
  tauto

theorem blockAddress_eq (sector block : Nat) : blockAddress (sector, block) = sector * 16384 + block * 256 := rfl

/-! ### The cells of a block -/

section
variable {m : Memory} {sector block : Nat}

theorem read_blockCells (inside : block < 64) {x : Nat}
    (low : blockAddress (sector, block) ≤ x) (high : x < blockAddress (sector, block) + 256) :
    Memory.read (blockCells (sectorCells m sector) sector block) x = Memory.read m x := by
  rw [blockAddress_eq] at low high
  refine (Memory.read_filter _ _ _ fun b => ?_).trans (Memory.read_filter _ _ _ fun b => ?_)
  · rw [Bool.and_eq_true, decide_eq_true_iff, decide_eq_true_iff, blockAddress_eq]
    exact ⟨low, high⟩
  · rw [Bool.and_eq_true, decide_eq_true_iff, decide_eq_true_iff]
    omega

theorem headerAt_eq (inside : block < 64) :
    headerAt (blockCells (sectorCells m sector) sector block) sector block = headerOn m sector block := by
  unfold headerAt headerOn
  refine congrArg (fun bytes => (decodeHeader bytes).filter _) ?_
  rw [Memory.readBytes_eq, Memory.readBytes_eq]
  refine List.map_congr_left fun i hi => read_blockCells inside (Nat.le_add_right _ _) ?_
  have below := List.mem_range.1 hi
  have bytes : headerBytes = 37 := rfl
  omega

theorem decodeHeader_erased : decodeHeader (List.replicate 37 erasedByte) = none := by
  unfold decodeHeader
  split
  · rfl
  · rfl

/-- A block with no cell holds no header. -/
theorem headerOn_erased (inside : block < 64)
    (empty : (blockCells (sectorCells m sector) sector block).isEmpty = true) : headerOn m sector block = none := by
  rw [← headerAt_eq inside, List.isEmpty_iff.1 empty]
  unfold headerAt
  have erased : Memory.readBytes [] (blockAddress (sector, block)) headerBytes = List.replicate 37 erasedByte := by
    rw [Memory.readBytes_eq]
    exact List.map_const' ..
  rw [erased, decodeHeader_erased]
  rfl

end

/-! ### The walk -/

/-- The records of a walk from a block, each ending before the next begins. -/
structure WalkFrom (m : Memory) (sector block : Nat) (records : List (Header × Nat)) : Prop where
  headers : ∀ r ∈ records, block ≤ r.2 ∧ headerOn m sector r.2 = some r.1
  apart : records.Pairwise fun x y => x.2 + x.1.size ≤ y.2
  all : ∀ b h, block ≤ b → headerOn m sector b = some h →
    (∀ r ∈ records, r.2 < b → r.2 + r.1.size ≤ b) → (h, b) ∈ records

theorem WalkFrom.beyond {m : Memory} {sector block : Nat} (h : 64 ≤ block) : WalkFrom m sector block [] where
  headers _ mem := absurd mem List.not_mem_nil
  apart := .nil
  all b k low at_ _ := by
    obtain ⟨one, fits, _⟩ := headerOn_iff.1 at_
    omega

theorem WalkFrom.skip {m : Memory} {sector block : Nat} {records : List (Header × Nat)}
    (h : WalkFrom m sector (block + 1) records) (none_ : headerOn m sector block = none) :
    WalkFrom m sector block records where
  headers r mem := ⟨by have := (h.headers r mem).1; omega, (h.headers r mem).2⟩
  apart := h.apart
  all b k low at_ clear := by
    refine h.all b k ?_ at_ clear
    rcases Nat.lt_or_eq_of_le low with later | rfl
    · exact later
    · exact absurd (none_.symm.trans at_) nofun

theorem WalkFrom.take {m : Memory} {sector block : Nat} {k : Header} {records : List (Header × Nat)}
    (h : WalkFrom m sector (block + k.size) records) (at_ : headerOn m sector block = some k) :
    WalkFrom m sector block ((k, block) :: records) where
  headers r mem := by
    rcases List.mem_cons.1 mem with rfl | mem
    · exact ⟨le_refl _, at_⟩
    · exact ⟨by have := (h.headers r mem).1; omega, (h.headers r mem).2⟩
  apart := List.pairwise_cons.2 ⟨fun r mem => (h.headers r mem).1, h.apart⟩
  all b d low there clear := by
    rcases Nat.lt_or_eq_of_le low with later | rfl
    · refine List.mem_cons_of_mem _ (h.all b d ?_ there fun r mem => clear r (List.mem_cons_of_mem _ mem))
      exact clear _ List.mem_cons_self later
    · cases at_.symm.trans there
      exact List.mem_cons_self

theorem walkSector_walks (m : Memory) (sector : Nat) (fuel : Nat) : ∀ block w, 64 ≤ block + fuel →
    ∃ records, (walkSector (sectorCells m sector) sector fuel block w).records = w.records ++ records ∧
      WalkFrom m sector block records := by
  induction fuel with
  | zero => exact fun block w beyond => ⟨[], (List.append_nil _).symm, .beyond beyond⟩
  | succ fuel ih =>
    intro block w enough
    rw [walkSector]
    split
    · next beyond => exact ⟨[], (List.append_nil _).symm, .beyond beyond⟩
    · next inside =>
      have inside := Nat.lt_of_not_le inside
      dsimp only
      split
      · next empty =>
        obtain ⟨records, eq_, walks⟩ := ih (block + 1) w (by omega)
        exact ⟨records, eq_, walks.skip (headerOn_erased inside empty)⟩
      · rw [headerAt_eq inside]
        cases at_ : headerOn m sector block with
        | none =>
          obtain ⟨records, eq_, walks⟩ := ih (block + 1) { w with used := block + 1 } (by omega)
          exact ⟨records, eq_, walks.skip at_⟩
        | some k =>
          obtain ⟨one, _, _⟩ := headerOn_iff.1 at_
          obtain ⟨records, eq_, walks⟩ := ih (block + k.size) ⟨w.records ++ [(k, block)], block + k.size⟩ (by omega)
          exact ⟨(k, block) :: records, eq_.trans (List.append_assoc ..), walks.take at_⟩

theorem walkOf_walks (m : Memory) (sector : Nat) : WalkFrom m sector 0 (walkOf m sector).records := by
  obtain ⟨records, eq_, walks⟩ := walkSector_walks m sector 64 0 {} (by omega)
  have same : (walkOf m sector).records = records := eq_
  rw [same]
  exact walks

/-- An array with no cell has no record, and no block is used. -/
theorem walkSector_erased (sector fuel : Nat) : ∀ block w, walkSector [] sector fuel block w = w := by
  induction fuel with
  | zero => exact fun _ _ => rfl
  | succ fuel ih =>
    intro block w
    rw [walkSector]
    split
    · rfl
    · exact ih (block + 1) w

theorem walkOf_erased (sector : Nat) : walkOf [] sector = {} := walkSector_erased sector 64 0 {}

/-! ### The records found -/

/-- The walk of sector `sector` finds a record of header `h` at `block`. -/
def Found (a : Memory) (sector block : Nat) (h : Header) : Prop :=
  sector < 64 ∧ (h, block) ∈ (walkOf a sector).records

section
variable {a : Memory} {sector block block' : Nat} {h d : Header}

theorem Found.header (f : Found a sector block h) : headerOn a sector block = some h :=
  ((walkOf_walks a sector).headers _ f.2).2

theorem Found.fits (f : Found a sector block h) : 1 ≤ h.size ∧ block + h.size ≤ 64 :=
  ⟨(headerOn_iff.1 f.header).1, (headerOn_iff.1 f.header).2.1⟩

theorem Found.decoded (f : Found a sector block h) :
    decodeHeader (Memory.readBytes a (blockAddress (sector, block)) 37) = some h := (headerOn_iff.1 f.header).2.2

/-- One record at one place. -/
theorem Found.unique (f : Found a sector block h) (g : Found a sector block d) : h = d :=
  Option.some.inj (f.header.symm.trans g.header)

theorem Found.apart (f : Found a sector block h) (g : Found a sector block' d) (before : block' < block) :
    block' + d.size ≤ block := by
  have apart := (walkOf_walks a sector).apart
  exact List.Pairwise.forall_of_forall_of_flip
    (R := fun x y : Header × Nat => x.2 < y.2 → x.2 + x.1.size ≤ y.2)
    (fun x _ less => absurd less (Nat.lt_irrefl _)) (apart.imp fun {x y} h (_ : x.2 < y.2) => h)
    (apart.imp fun {x y} h (less : y.2 < x.2) => show y.2 + y.1.size ≤ x.2 by omega) g.2 f.2 before

/-- R130: what the walk finds. -/
theorem found_iff (inside : sector < 64) : Found a sector block h ↔
    1 ≤ h.size ∧ block + h.size ≤ 64 ∧
      decodeHeader (Memory.readBytes a (blockAddress (sector, block)) 37) = some h ∧
      ∀ block' d, Found a sector block' d → block' < block → block' + d.size ≤ block := by
  constructor
  · exact fun f => ⟨f.fits.1, f.fits.2, f.decoded, fun block' d g before => f.apart g before⟩
  · rintro ⟨one, fits, decoded, clear⟩
    exact ⟨inside, (walkOf_walks a sector).all block h (Nat.zero_le _) (headerOn_iff.2 ⟨one, fits, decoded⟩)
      fun r mem before => clear r.2 r.1 ⟨inside, mem⟩ before⟩

end

end Sys2Proof.Machine
end

