-- ==== Sys2Proof/Proofs/MountStages.lean ====
section
/-!
PROOFS. The stages of a mount (R130, R131): what each keeps of the directory, and what every mount ends with.
-/

namespace Sys2Proof.Machine

/-! ### The entries that stay -/

/-- A change of an entry that leaves what its header says, and makes it no more than DEAD. -/
structure EntryKept (e e' : Entry) : Prop where
  kind : e'.kind = e.kind
  id : e'.id = e.id
  seq : e'.seq = e.seq
  size : e'.size = e.size
  loc : e'.loc = e.loc
  state : e'.state = e.state ∨ e'.state = .dead

theorem EntryKept.refl (e : Entry) : EntryKept e e := ⟨rfl, rfl, rfl, rfl, rfl, .inl rfl⟩

theorem EntryKept.trans {e e' e'' : Entry} (h : EntryKept e e') (k : EntryKept e' e'') : EntryKept e e'' :=
  ⟨k.kind.trans h.kind, k.id.trans h.id, k.seq.trans h.seq, k.size.trans h.size, k.loc.trans h.loc, by
    rcases k.state with same | dead
    · rw [same]
      exact h.state
    · exact .inr dead⟩

/-- A change of an entry's links and marks alone. -/
structure EntrySame (e e' : Entry) : Prop extends EntryKept e e' where
  alive : e'.state = e.state

theorem EntrySame.refl (e : Entry) : EntrySame e e := ⟨.refl e, rfl⟩

theorem EntrySame.trans {e e' e'' : Entry} (h : EntrySame e e') (k : EntrySame e' e'') : EntrySame e e'' :=
  ⟨h.toEntryKept.trans k.toEntryKept, k.alive.trans h.alive⟩

/-- From `st` to `st'` the directory keeps its entries. -/
structure EntriesKept (st st' : Store) : Prop where
  dir : ∃ f : Entry → Entry, (∀ e, EntryKept e (f e)) ∧ st'.dir = st.dir.map f
  ids : st'.nextIds = st.nextIds
  seq : st.nextSeq ≤ st'.nextSeq

theorem EntriesKept.of_dir {st st' : Store} (dir : st'.dir = st.dir) (ids : st'.nextIds = st.nextIds)
    (seq : st.nextSeq ≤ st'.nextSeq) : EntriesKept st st' :=
  ⟨⟨id, .refl, by rw [List.map_id]; exact dir⟩, ids, seq⟩

theorem EntriesKept.refl (st : Store) : EntriesKept st st := .of_dir rfl rfl (le_refl _)

theorem EntriesKept.trans {st st' st'' : Store} (h : EntriesKept st st') (k : EntriesKept st' st'') :
    EntriesKept st st'' := by
  obtain ⟨f, keepsF, dirF⟩ := h.dir
  obtain ⟨g, keepsG, dirG⟩ := k.dir
  refine ⟨⟨g ∘ f, fun e => (keepsF e).trans (keepsG (f e)), ?_⟩, k.ids.trans h.ids, h.seq.trans k.seq⟩
  rw [dirG, dirF, List.map_map]

theorem openPlace_entries (loc : Nat × Nat) (opened : Bool) (st : Store) : EntriesKept st (st.openPlace loc opened) := by
  unfold Store.openPlace
  dsimp only
  split
  · exact .of_dir rfl rfl (Nat.le_succ _)
  · exact .of_dir rfl rfl (Nat.le_succ _)

/-- An entry of the sector that the reclaim discards. -/
def discardedEntry (sector : Nat) (e : Entry) : Entry :=
  if e.state == .live && inSector e sector then { e with state := .dead } else e

theorem discardedEntry_kept (sector : Nat) (e : Entry) : EntryKept e (discardedEntry sector e) := by
  unfold discardedEntry
  split
  · exact ⟨rfl, rfl, rfl, rfl, rfl, .inr rfl⟩
  · exact .refl e

theorem discard_entries (sector : Nat) (st : Store) : EntriesKept st (st.discard sector) :=
  ⟨⟨discardedEntry sector, discardedEntry_kept sector, rfl⟩, rfl, le_refl _⟩

theorem next_entries (st : Store) : EntriesKept st st.next := by
  unfold Store.next
  split
  · exact .refl st
  · split
    · exact .of_dir rfl rfl (le_refl _)
    · exact .of_dir rfl rfl (le_refl _)
    · split
      · unfold nextReclaim
        split
        · exact .refl st
        · next r _ =>
          split
          · next kind id rest _ =>
            have fresh : EntriesKept st { st with reclaim := some { r with copies := rest } } := .of_dir rfl rfl (le_refl _)
            dsimp only
            split
            · split
              · next loc opened _ =>
                exact (fresh.trans (openPlace_entries loc opened _)).trans (.of_dir rfl rfl (le_refl _))
              · exact .refl st
            · exact fresh
          · exact (discard_entries r.sector st).trans (.of_dir rfl rfl (le_refl _))
      · unfold beginWrite
        split
        · exact .refl st
        · dsimp only
          split
          · exact (openPlace_entries _ _ st).trans (.of_dir rfl rfl (le_refl _))
          · exact .refl st
      · exact .refl st

/-- From `st` to `st'` the directory keeps its entries with their states. -/
structure EntriesSame (st st' : Store) : Prop where
  dir : ∃ f : Entry → Entry, (∀ e, EntrySame e (f e)) ∧ st'.dir = st.dir.map f
  ids : st'.nextIds = st.nextIds
  seq : st'.nextSeq = st.nextSeq

theorem EntriesSame.of_dir {st st' : Store} (dir : st'.dir = st.dir) (ids : st'.nextIds = st.nextIds)
    (seq : st'.nextSeq = st.nextSeq) : EntriesSame st st' :=
  ⟨⟨id, .refl, by rw [List.map_id]; exact dir⟩, ids, seq⟩

theorem EntriesSame.refl (st : Store) : EntriesSame st st := .of_dir rfl rfl rfl

theorem EntriesSame.trans {st st' st'' : Store} (h : EntriesSame st st') (k : EntriesSame st' st'') :
    EntriesSame st st'' := by
  obtain ⟨f, keepsF, dirF⟩ := h.dir
  obtain ⟨g, keepsG, dirG⟩ := k.dir
  refine ⟨⟨g ∘ f, fun e => (keepsF e).trans (keepsG (f e)), ?_⟩, k.ids.trans h.ids, k.seq.trans h.seq⟩
  rw [dirG, dirF, List.map_map]

theorem EntriesSame.kept {st st' : Store} (h : EntriesSame st st') : EntriesKept st st' := by
  obtain ⟨f, keeps, dir⟩ := h.dir
  exact ⟨⟨f, fun e => (keeps e).toEntryKept, dir⟩, h.ids, h.seq.ge⟩

/-- An entry of the sector that the reclaim takes. -/
def chosenEntry (sector : Nat) (e : Entry) : Entry :=
  if e.state == .live && inSector e sector then { e with reclaim := true } else e

theorem chosenEntry_same (sector : Nat) (e : Entry) : EntrySame e (chosenEntry sector e) := by
  unfold chosenEntry
  split
  · exact ⟨⟨rfl, rfl, rfl, rfl, rfl, .inl rfl⟩, rfl⟩
  · exact .refl e

theorem enterStore_entries (new : StoreState) (s : State) : EntriesSame s.store (enterStore new s).store := by
  rw [enterStore_store]
  exact .of_dir rfl rfl rfl

theorem mountTrigger_entries (s : State) : EntriesSame s.store (mountTrigger s).store := by
  unfold mountTrigger
  split
  · cases h : reclaimChoice s.store with
    | some sector =>
      rw [chooseReclaim_some h]
      exact EntriesSame.trans (st' := s.store.chooseSector sector)
        ⟨⟨chosenEntry sector, chosenEntry_same sector, rfl⟩, rfl, rfl⟩
        (enterStore_entries .reclaiming (setStore (Store.chooseSector sector) s))
    | none =>
      rw [chooseReclaim_none h]
      exact enterStore_entries _ _
  · exact enterStore_entries _ s

/-- An entry whose links are set. -/
def linkedEntry (f : Links → Links) (id : Nat) (e : Entry) : Entry :=
  if e.isFor .note id then { e with links := f e.links } else e

theorem linkedEntry_same (f : Links → Links) (id : Nat) (e : Entry) : EntrySame e (linkedEntry f id e) := by
  unfold linkedEntry
  split
  · exact ⟨⟨rfl, rfl, rfl, rfl, rfl, .inl rfl⟩, rfl⟩
  · exact .refl e

theorem setLinks_entries (f : Links → Links) (id : Nat) (s : State) :
    EntriesSame s.store (setLinks f id s).store :=
  ⟨⟨linkedEntry f id, linkedEntry_same f id, rfl⟩, rfl, rfl⟩

theorem linkNote_entries (s : State) (e : Entry) : EntriesSame s.store (linkNote s e).store := by
  unfold linkNote
  split
  · dsimp only
    split
    · exact (setLinks_entries _ _ s).trans (setLinks_entries _ _ _)
    · exact setLinks_entries _ _ s
  · exact .refl _

theorem linkNotes_entries (s : State) : EntriesSame s.store (linkNotes s).store := by
  unfold linkNotes
  exact List.foldlRecOn (motive := fun u => EntriesSame s.store u.store) _ _ (.refl _)
    fun u kept e _ => kept.trans (linkNote_entries u e)

/-! ### The stages -/

/-- The state after the writes of R131, steps 1 to 5, and the lock mark and mode of step 6. -/
def mountNumbered (s : State) : State :=
  setStore (fun st => { st with lockMark := markFound st, mode := modeFound st })
    (firstWrites (setStore (fun st => retireDuplicates (scanned st)) s))

/-- The state as the survey is restored. -/
def mountTriggered (s : State) : State := mountTrigger (linkNotes (mountNumbered s))

theorem storeNext_store (s : State) : (storeNext s).store = s.store.next := rfl

section
variable {s : State}

theorem mountComplete_eq (h : s.store.state = .mounting) :
    mountComplete s = storeNext (restoreSurvey (mountTriggered s)) := if_pos h

theorem restoreSurvey_store (s : State) : (restoreSurvey s).store = s.store :=
  (restoreSurvey_moves (P := only [.survey, .sites, .rotation]) s (by decide) (by decide) (by decide)).store_eq (by decide)

theorem mountComplete_store (h : s.store.state = .mounting) :
    (mountComplete s).store = (mountTriggered s).store.next := by
  rw [mountComplete_eq h, storeNext_store, restoreSurvey_store]

theorem mountTriggered_entries : EntriesSame (mountNumbered s).store (mountTriggered s).store :=
  (linkNotes_entries _).trans (mountTrigger_entries _)

/-! ### What every mount ends with -/

/-- R131: the ids and the sequences of the entries lie below the next ones. -/
def Numbered (st : Store) : Prop :=
  ∀ e ∈ st.dir, e.id < st.nextIds.get e.kind ∧ ∃ seq, e.seq = some seq ∧ seq < st.nextSeq

/-- R131, step 1: of a kind and id no two LIVE entries have two sequences. -/
def SingleLive (st : Store) : Prop :=
  ∀ e ∈ st.dir, ∀ d ∈ st.dir, e.state = .live → d.state = .live → e.kind = d.kind → e.id = d.id → e.seq = d.seq

theorem Numbered.kept {st st' : Store} (h : Numbered st) (k : EntriesKept st st') : Numbered st' := by
  obtain ⟨f, keeps, dir⟩ := k.dir
  intro e' mem
  rw [dir] at mem
  obtain ⟨e, he, rfl⟩ := List.mem_map.1 mem
  obtain ⟨low, seq, at_, below⟩ := h e he
  have same := keeps e
  rw [same.id, same.kind, k.ids, same.seq]
  exact ⟨low, seq, at_, below.trans_le k.seq⟩

theorem EntryKept.live {e e' : Entry} (h : EntryKept e e') (live : e'.state = .live) : e.state = .live := by
  rcases h.state with same | dead
  · rw [← same]
    exact live
  · exact absurd (live.symm.trans dead) nofun

theorem SingleLive.kept {st st' : Store} (h : SingleLive st) (k : EntriesKept st st') : SingleLive st' := by
  obtain ⟨f, keeps, dir⟩ := k.dir
  intro e' memE d' memD liveE liveD kind id
  rw [dir] at memE memD
  obtain ⟨e, he, rfl⟩ := List.mem_map.1 memE
  obtain ⟨d, hd, rfl⟩ := List.mem_map.1 memD
  have sameE := keeps e
  have sameD := keeps d
  rw [sameE.seq, sameD.seq]
  rw [sameE.kind, sameD.kind] at kind
  rw [sameE.id, sameD.id] at id
  exact h e he d hd (sameE.live liveE) (sameD.live liveD) kind id

/-- The entry that a duplicate is left with. -/
def retiredEntry (st : Store) (e : Entry) : Entry := if isDuplicate st e then { e with state := .dead } else e

theorem retiredEntry_kept (st : Store) (e : Entry) : EntryKept e (retiredEntry st e) := by
  unfold retiredEntry
  split
  · exact ⟨rfl, rfl, rfl, rfl, rfl, .inr rfl⟩
  · exact .refl e

theorem retireDuplicates_entries (st : Store) : EntriesKept st (retireDuplicates st) :=
  ⟨⟨retiredEntry st, retiredEntry_kept st, rfl⟩, rfl, le_refl _⟩

theorem isDuplicate_iff {st : Store} {e : Entry} : isDuplicate st e = true ↔
    e.state = .live ∧ ∃ x ∈ st.dir, x.kind = e.kind ∧ x.id = e.id ∧ x.state = .live ∧ e.rank < x.rank := by
  unfold isDuplicate
  rw [Bool.and_eq_true, beq_iff_eq, List.any_eq_true]
  simp only [Bool.and_eq_true, beq_iff_eq, decide_eq_true_iff, and_assoc]

theorem retireDuplicates_single {st : Store} (sequenced : ∀ e ∈ st.dir, e.seq.isSome = true) :
    SingleLive (retireDuplicates st) := by
  have kept : ∀ e, (retiredEntry st e).state = .live → isDuplicate st e = false ∧ e.state = .live := fun e live => by
    unfold retiredEntry at live
    split at live
    · exact absurd live nofun
    · next h => exact ⟨Bool.eq_false_iff.2 h, live⟩
  have least : ∀ e ∈ st.dir, ∀ d ∈ st.dir, isDuplicate st e = false → e.state = .live → d.state = .live →
      d.kind = e.kind → d.id = e.id → d.rank ≤ e.rank := fun e _ d hd single liveE liveD kind id => by
    by_contra above
    have dup := isDuplicate_iff.2 ⟨liveE, d, hd, kind, id, liveD, Nat.lt_of_not_le above⟩
    exact absurd (single.symm.trans dup) nofun
  intro e' memE d' memD liveE liveD kind id
  obtain ⟨e, he, rfl⟩ := List.mem_map.1 (show e' ∈ st.dir.map (retiredEntry st) from memE)
  obtain ⟨d, hd, rfl⟩ := List.mem_map.1 (show d' ∈ st.dir.map (retiredEntry st) from memD)
  have sameE := retiredEntry_kept st e
  have sameD := retiredEntry_kept st d
  rw [sameE.kind, sameD.kind] at kind
  rw [sameE.id, sameD.id] at id
  obtain ⟨singleE, aliveE⟩ := kept e liveE
  obtain ⟨singleD, aliveD⟩ := kept d liveD
  have one := least e he d hd singleE aliveE aliveD kind.symm id.symm
  have other := least d hd e he singleD aliveD aliveE kind id
  obtain ⟨m, hm⟩ := Option.isSome_iff_exists.1 (sequenced e he)
  obtain ⟨n, hn⟩ := Option.isSome_iff_exists.1 (sequenced d hd)
  rw [sameE.seq, sameD.seq, hm, hn]
  rw [Entry.rank, Entry.rank, hm, hn] at one other
  exact congrArg some (Nat.le_antisymm other one)

end

end Sys2Proof.Machine
end

