-- ==== Sys2Proof/Proofs/MountScan.lean ====
section
/-!
PROOFS. What the walk of every sector leaves in the store (R130, R131): its entries, its numbers, and the counts that
every mount ends with.
-/

namespace Sys2Proof.Machine

/-! ### The greatest of a list -/

theorem greatest_spec {α : Type} (f : α → Nat) (xs : List α) : ∀ b,
    b ≤ xs.foldl (fun m x => Nat.max m (f x)) b ∧ (∀ x ∈ xs, f x ≤ xs.foldl (fun m x => Nat.max m (f x)) b) ∧
      (xs.foldl (fun m x => Nat.max m (f x)) b = b ∨ ∃ x ∈ xs, f x = xs.foldl (fun m x => Nat.max m (f x)) b) := by
  induction xs with
  | nil => exact fun b => ⟨le_refl _, fun x mem => absurd mem List.not_mem_nil, .inl rfl⟩
  | cons x xs ih =>
    intro b
    obtain ⟨low, all, reached⟩ := ih (Nat.max b (f x))
    rw [List.foldl_cons]
    refine ⟨(Nat.le_max_left _ _).trans low, fun y mem => ?_, ?_⟩
    · rcases List.mem_cons.1 mem with rfl | mem
      · exact (Nat.le_max_right _ _).trans low
      · exact all y mem
    · rcases reached with same | ⟨y, mem, at_⟩
      · rw [same]
        rcases Nat.le_total (f x) b with less | more
        · exact .inl (Nat.max_eq_left less)
        · exact .inr ⟨x, List.mem_cons_self, (Nat.max_eq_right more).symm⟩
      · exact .inr ⟨y, List.mem_cons_of_mem _ mem, at_⟩

theorem maxOf_eq (xs : List Nat) : maxOf 0 xs = xs.foldl (fun m x => Nat.max m x) 0 := by
  cases xs with
  | nil => rfl
  | cons x xs => exact congrArg (xs.foldl _) (Nat.zero_max x).symm

/-! ### The records found, with their sectors -/

/-- The headers of the records found in the array, with their sectors. -/
def foundHeaders (a : Memory) : List (Nat × Header) :=
  ((List.range 64).map (walkOf a)).zipIdx.flatMap fun w => w.1.records.map fun r => (w.2, r.1)

section
variable {a : Memory}

theorem walks_eq (a : Memory) : ((List.range 64).map (walkOf a)).zipIdx =
    (List.range 64).map fun sector => (walkOf a sector, sector) := by
  rw [zipIdx_eq_range {} (List.length_map ..), List.length_range]
  refine List.map_congr_left fun sector mem => ?_
  have inside := List.mem_range.1 mem
  rw [List.getD_eq_getElem _ _ (by simpa using inside), List.getElem_map, List.getElem_range]

theorem mem_walks {α : Type} {f : Nat → Header × Nat → α} {x : α} :
    x ∈ ((List.range 64).map (walkOf a)).zipIdx.flatMap (fun w => w.1.records.map (f w.2)) ↔
      ∃ sector block h, Found a sector block h ∧ x = f sector (h, block) := by
  rw [walks_eq, List.mem_flatMap]
  constructor
  · rintro ⟨w, mem, at_⟩
    obtain ⟨sector, inside, rfl⟩ := List.mem_map.1 mem
    obtain ⟨⟨h, block⟩, found, rfl⟩ := List.mem_map.1 at_
    exact ⟨sector, block, h, ⟨List.mem_range.1 inside, found⟩, rfl⟩
  · rintro ⟨sector, block, h, ⟨inside, found⟩, rfl⟩
    exact ⟨(walkOf a sector, sector), List.mem_map.2 ⟨sector, List.mem_range.2 inside, rfl⟩,
      List.mem_map.2 ⟨(h, block), found, rfl⟩⟩

theorem mem_foundHeaders {x : Nat × Header} : x ∈ foundHeaders a ↔
    ∃ sector block h, Found a sector block h ∧ x = (sector, h) := mem_walks (f := fun sector r => (sector, r.1))

theorem Found.mem {sector block : Nat} {h : Header} (f : Found a sector block h) : (sector, h) ∈ foundHeaders a :=
  mem_foundHeaders.2 ⟨sector, block, h, f, rfl⟩

/-- R130: every record found is an entry, and every entry a record found. -/
theorem mem_scanned {st : Store} {e : Entry} : e ∈ (scanned st).dir ↔
    ∃ sector block h, Found st.array sector block h ∧ e = mountEntry sector (h, block) :=
  ((sortBy_spec Entry.rank _).1.mem_iff).trans mem_walks

/-! ### The numbers found -/

theorem get_zip (f : Nat → Nat → Nat) (p q : PerKind) (k : RecordKind) : (p.zip f q).get k = f (p.get k) (q.get k) := by
  cases k <;> rfl

theorem get_map (f : Nat → Nat) (p : PerKind) (k : RecordKind) : (p.map f).get k = f (p.get k) := by
  cases k <;> rfl

theorem get_modify (f : Nat → Nat) (p : PerKind) (kind k : RecordKind) :
    (p.modify f kind).get k = if kind = k then f (p.get k) else p.get k := by
  cases kind <;> cases k <;> rfl

theorem foldl_get {α : Type} {g : PerKind → α → PerKind} {f : α → Nat} {k : RecordKind}
    (step : ∀ p x, (g p x).get k = Nat.max (p.get k) (f x)) (xs : List α) : ∀ p,
    (xs.foldl g p).get k = xs.foldl (fun m x => Nat.max m (f x)) (p.get k) := by
  induction xs with
  | nil => exact fun _ => rfl
  | cons x xs ih =>
    intro p
    rw [List.foldl_cons, List.foldl_cons, ih, step]

theorem get_zero (k : RecordKind) : (⟨0, 0, 0, 0, 0⟩ : PerKind).get k = 0 := by cases k <;> rfl

theorem limitsFound_get (xs : List (Nat × Header)) (k : RecordKind) :
    (limitsFound xs).get k = xs.foldl (fun m x => Nat.max m (x.2.effective.get k)) 0 :=
  (foldl_get (fun p x => get_zip Nat.max p x.2.effective k) xs _).trans (by rw [get_zero])

/-- The id of a header of kind `k`, and 0 of another's. -/
def idIf (k : RecordKind) (h : Header) : Nat := if h.kind = k then h.id else 0

theorem idsFound_get (xs : List (Nat × Header)) (k : RecordKind) :
    (idsFound xs).get k = xs.foldl (fun m x => Nat.max m (idIf k x.2)) 0 := by
  refine (foldl_get (f := fun x => idIf k x.2) (fun p x => ?_) xs _).trans (by rw [get_zero])
  rw [get_modify, idIf]
  split
  · exact Nat.max_comm _ _
  · exact (Nat.max_zero _).symm

theorem effective_get (h : Header) (k : RecordKind) : h.effective.get k = h.limits.get k + 1024 * stepsSet h.ext :=
  get_map _ _ k

section
variable {st : Store} (k : RecordKind)

theorem scanned_nextIds : (scanned st).nextIds.get k =
    Nat.max ((limitsFound (foundHeaders st.array)).get k) ((idsFound (foundHeaders st.array)).get k) + 1 :=
  (get_map (· + 1) _ k).trans (congrArg (· + 1) (get_zip Nat.max _ _ k))

/-- R131: the limits found. -/
theorem limits_above {sector block : Nat} {h : Header} (f : Found st.array sector block h) :
    h.limits.get k + 1024 * stepsSet h.ext ≤ (limitsFound (foundHeaders st.array)).get k := by
  rw [limitsFound_get, ← effective_get]
  have above := (greatest_spec (fun x : Nat × Header => x.2.effective.get k) (foundHeaders st.array) 0).2.1 _ f.mem
  exact above

theorem limits_reached {sector block : Nat} {h : Header} (f : Found st.array sector block h) :
    ∃ sector' block' d, Found st.array sector' block' d ∧
      d.limits.get k + 1024 * stepsSet d.ext = (limitsFound (foundHeaders st.array)).get k := by
  have above := limits_above k f
  rw [limitsFound_get] at above ⊢
  rcases (greatest_spec (fun x : Nat × Header => x.2.effective.get k) (foundHeaders st.array) 0).2.2 with zero | ⟨x, mem, at_⟩
  · rw [zero] at above ⊢
    exact ⟨sector, block, h, f, Nat.le_zero.1 above⟩
  · obtain ⟨sector', block', d, g, rfl⟩ := mem_foundHeaders.1 mem
    exact ⟨sector', block', d, g, (effective_get d k).symm.trans at_⟩

theorem ids_above {sector block : Nat} {h : Header} (f : Found st.array sector block h) (kind : h.kind = k) :
    h.id ≤ (idsFound (foundHeaders st.array)).get k := by
  rw [idsFound_get]
  have above := (greatest_spec (fun x : Nat × Header => idIf k x.2) _ 0).2.1 _ f.mem
  dsimp only at above
  rw [idIf, if_pos kind] at above
  exact above

theorem ids_reached : (idsFound (foundHeaders st.array)).get k = 0 ∨ ∃ sector block h,
    Found st.array sector block h ∧ h.kind = k ∧ h.id = (idsFound (foundHeaders st.array)).get k := by
  rw [idsFound_get]
  rcases (greatest_spec (fun x : Nat × Header => idIf k x.2) (foundHeaders st.array) 0).2.2 with zero | ⟨x, mem, at_⟩
  · exact .inl zero
  · obtain ⟨sector, block, d, g, rfl⟩ := mem_foundHeaders.1 mem
    dsimp only at at_
    by_cases kind : d.kind = k
    · rw [idIf, if_pos kind] at at_
      exact .inr ⟨sector, block, d, g, kind, at_⟩
    · rw [idIf, if_neg kind] at at_
      exact .inl at_.symm

end

section
variable {st : Store}

theorem scanned_nextSeq : (scanned st).nextSeq =
    (foundHeaders st.array).foldl (fun m x => Nat.max m x.2.seq) 0 + 1 := by
  change maxOf 0 ((foundHeaders st.array).map (·.2.seq)) + 1 = _
  rw [maxOf_eq, List.foldl_map]

theorem seq_below {sector block : Nat} {h : Header} (f : Found st.array sector block h) :
    h.seq < (scanned st).nextSeq := by
  rw [scanned_nextSeq]
  exact Nat.lt_succ_of_le ((greatest_spec (fun x : Nat × Header => x.2.seq) _ 0).2.1 _ f.mem)

theorem seq_reached {sector block : Nat} {h : Header} (f : Found st.array sector block h) :
    ∃ sector' block' d, Found st.array sector' block' d ∧ (scanned st).nextSeq = d.seq + 1 := by
  have below := seq_below f
  rw [scanned_nextSeq] at below ⊢
  rcases (greatest_spec (fun x : Nat × Header => x.2.seq) (foundHeaders st.array) 0).2.2 with zero | ⟨x, mem, at_⟩
  · rw [zero] at below ⊢
    exact ⟨sector, block, h, f, by omega⟩
  · obtain ⟨sector', block', d, g, rfl⟩ := mem_foundHeaders.1 mem
    exact ⟨sector', block', d, g, congrArg (· + 1) at_.symm⟩

/-! ### What every mount ends with -/

theorem scanned_numbered (st : Store) : Numbered (scanned st) := by
  intro e mem
  obtain ⟨sector, block, h, f, rfl⟩ := mem_scanned.1 mem
  refine ⟨?_, h.seq, rfl, seq_below f⟩
  rw [scanned_nextIds]
  exact Nat.lt_succ_of_le ((ids_above h.kind f rfl).trans (Nat.le_max_right _ _))

theorem scanned_sequenced (st : Store) : ∀ e ∈ (scanned st).dir, e.seq.isSome = true := fun e mem => by
  obtain ⟨_, seq, at_, _⟩ := scanned_numbered st e mem
  rw [at_]
  rfl

theorem insertEntry_nil {st : Store} (empty : st.dir = []) (e : Entry) : (st.insertEntry e).dir = [e] := by
  unfold Store.insertEntry
  rw [empty]
  rfl

theorem openPlace_dir (loc : Nat × Nat) (opened : Bool) (st : Store) : (st.openPlace loc opened).dir = st.dir := by
  unfold Store.openPlace
  dsimp only
  split <;> rfl

theorem openPlace_nextSeq (loc : Nat × Nat) (opened : Bool) (st : Store) :
    (st.openPlace loc opened).nextSeq = st.nextSeq + 1 := by
  unfold Store.openPlace
  dsimp only
  split <;> rfl

theorem openPlace_nextIds (loc : Nat × Nat) (opened : Bool) (st : Store) :
    (st.openPlace loc opened).nextIds = st.nextIds := by
  unfold Store.openPlace
  dsimp only
  split <;> rfl

theorem firstLock_fields {st : Store} (empty : st.dir = []) (loc : Nat × Nat) (opened : Bool) (r : LockRecord) :
    (st.firstLock loc opened r).dir =
        [{ kind := .lockMark, id := 1, seq := some st.nextSeq, loc := some loc, size := 1, state := .live }] ∧
      (st.firstLock loc opened r).nextIds = st.nextIds ∧ (st.firstLock loc opened r).nextSeq = st.nextSeq + 1 := by
  have dir : ((st.openPlace loc opened).program .lockMark 1 st.nextSeq loc (.lockMark r)).dir = [] :=
    (openPlace_dir loc opened st).trans empty
  exact ⟨insertEntry_nil dir _, openPlace_nextIds loc opened st, openPlace_nextSeq loc opened st⟩

/-- R131, step 4: over an array with no header the first LOCK_MARK record is the only one. -/
theorem firstLockMark_dir {s : State} (empty : s.store.dir = []) :
    Numbered (firstLockMark s).store ∧ SingleLive (firstLockMark s).store := by
  unfold firstLockMark Numbered SingleLive
  dsimp only
  split
  · have none_ : (setStore Store.drawFirst s).store.dir = [] := empty
    rw [none_]
    exact ⟨fun e mem => absurd mem List.not_mem_nil, fun e mem => absurd mem List.not_mem_nil⟩
  · next loc opened _ =>
    obtain ⟨dir, ids, seq⟩ := firstLock_fields (st := s.store.drawFirst) empty loc opened (lockRecord s.clock)
    refine ⟨fun e mem => ?_, fun e memE d memD _ _ _ _ => ?_⟩
    · have at_ := List.mem_singleton.1 (dir ▸ mem : e ∈ [_])
      cases at_
      refine ⟨?_, s.store.nextSeq, rfl, ?_⟩
      · exact Nat.lt_of_lt_of_eq (Nat.lt_succ_self 1) (congrArg (·.get .lockMark) ids).symm
      · exact Nat.lt_of_lt_of_eq (Nat.lt_succ_self _) seq.symm
    · rw [List.mem_singleton.1 (dir ▸ memE : e ∈ [_]), List.mem_singleton.1 (dir ▸ memD : d ∈ [_])]

theorem programStep_entries (loc : Nat × Nat) (st : Store) : EntriesKept st (st.programStep loc) :=
  .of_dir rfl rfl (le_refl _)

theorem mountStep_entries (st : Store) : EntriesKept st (mountStep st) := by
  unfold mountStep
  split
  · exact programStep_entries _ st
  · exact .refl st

theorem firstWrites_dir {s : State} (numbered : Numbered s.store) (single : SingleLive s.store) :
    Numbered (firstWrites s).store ∧ SingleLive (firstWrites s).store := by
  unfold firstWrites
  split
  · next empty => exact firstLockMark_dir (List.isEmpty_iff.1 empty)
  · exact ⟨numbered.kept (mountStep_entries s.store), single.kept (mountStep_entries s.store)⟩

theorem mountNumbered_dir (s : State) : Numbered (mountNumbered s).store ∧ SingleLive (mountNumbered s).store := by
  have scan := firstWrites_dir (s := setStore (fun st => retireDuplicates (scanned st)) s)
    ((scanned_numbered s.store).kept (retireDuplicates_entries _)) (retireDuplicates_single (scanned_sequenced s.store))
  exact ⟨fun e mem => scan.1 e mem, fun e mem d mem' => scan.2 e mem d mem'⟩

/-- After any mount the next numbers lie above all that was found, and of a kind and id one record is LIVE. -/
theorem mountComplete_dir {s : State} (h : s.store.state = .mounting) :
    Numbered (mountComplete s).store ∧ SingleLive (mountComplete s).store := by
  have kept := mountTriggered_entries.kept.trans (next_entries (mountTriggered s).store)
  rw [mountComplete_store h]
  exact ⟨(mountNumbered_dir s).1.kept kept, (mountNumbered_dir s).2.kept kept⟩

end

end

end Sys2Proof.Machine
end

