-- ==== Sys2Proof/Proofs/MountSurvey.lean ====
section
/-!
PROOFS. The survey, the site table and the state of the store that every mount ends with (R57, R125, R131).
-/

namespace Sys2Proof.Machine

/-! ### The survey that is restored -/

theorem restoreSurvey_eq (s : State) : restoreSurvey s =
    post (.surveyState (refreshRotations (restored s).1).survey.number
        ((refreshRotations (restored s).1).survey.state.getD .setup) none (refreshRotations (restored s).1).survey.cause
        (refreshRotations (restored s).1).bus.frame (refreshRotations (restored s).1).clock.time (some (restored s).2))
      (refreshRotations (restored s).1) := rfl

theorem refreshRotations_only (s : State) : Moves (only [.rotation]) s (refreshRotations s) :=
  refreshRotations_moves (P := only [.rotation]) s (by decide)

theorem restoreSurvey_kept (s : State) : (restoreSurvey s).survey = (restored s).1.survey ∧
    (restoreSurvey s).sites = (restored s).1.sites := by
  have posted : Moves (only [.rotation]) (restored s).1 (restoreSurvey s) := by
    rw [restoreSurvey_eq]
    exact (refreshRotations_only _).trans (.post _ _)
  exact ⟨posted.survey_eq (by decide), posted.sites_eq (by decide)⟩

section
variable {s : State}

theorem restored_none (h : latestSurvey s.store = none) : (restored s).1.sites = List.replicate 4 {} ∧
    (restored s).1.survey.state = some .setup ∧ (restored s).1.survey.cause = none ∧
    (restored s).1.survey.number = 1 ∧ (restored s).1.survey.first = none ∧
    (restored s).1.survey.runStart = none := by
  unfold restored
  rw [h]
  exact ⟨rfl, rfl, rfl, rfl, rfl, rfl⟩

theorem restored_some {r : SurveyRecord} (h : latestSurvey s.store = some r) :
    (restored s).1.sites = restoreSites s r.sites ∧
    (restored s).1.survey.state = some (if r.state = .ended then .ended else .held) ∧
    (restored s).1.survey.cause = (if r.state = .ended then none else some .power) ∧
    (restored s).1.survey.number = r.number ∧ (restored s).1.survey.first = r.first ∧
    (restored s).1.survey.runStart = r.runStart ∧ (restored s).2 = clearedCount r.sites (restoreSites s r.sites) := by
  unfold restored
  rw [h]
  dsimp only
  simp only [beq_iff_eq, and_self]

/-- R57: after a mount the survey is in SETUP, HELD with cause POWER, or ENDED. -/
theorem restored_survey (s : State) :
    ((restored s).1.survey.state = some .setup ∧ (restored s).1.survey.number = 1) ∨
      ((restored s).1.survey.state = some .held ∧ (restored s).1.survey.cause = some .power) ∨
      ((restored s).1.survey.state = some .ended ∧ (restored s).1.survey.cause = none) := by
  cases h : latestSurvey s.store with
  | none =>
    obtain ⟨_, state, _, number, _, _⟩ := restored_none h
    exact .inl ⟨state, number⟩
  | some r =>
    obtain ⟨_, state, cause, _, _, _, _⟩ := restored_some h
    rw [state, cause]
    by_cases ended : r.state = .ended
    · rw [if_pos ended, if_pos ended]
      exact .inr (.inr ⟨rfl, rfl⟩)
    · rw [if_neg ended, if_neg ended]
      exact .inr (.inl ⟨rfl, rfl⟩)

/-! ### The mount -/

theorem storeNext_rest (s : State) : (storeNext s).survey = s.survey ∧ (storeNext s).sites = s.sites ∧
    (storeNext s).link = s.link := ⟨rfl, rfl, rfl⟩

theorem mountComplete_rest (h : s.store.state = .mounting) :
    (mountComplete s).survey = (restored (mountTriggered s)).1.survey ∧
      (mountComplete s).sites = (restored (mountTriggered s)).1.sites ∧
      (mountComplete s).link = (restoreSurvey (mountTriggered s)).link := by
  obtain ⟨survey, sites, link⟩ := storeNext_rest (restoreSurvey (mountTriggered s))
  obtain ⟨surveyR, sitesR⟩ := restoreSurvey_kept (mountTriggered s)
  rw [mountComplete_eq h]
  exact ⟨survey.trans surveyR, sites.trans sitesR, link⟩

theorem mountTrigger_state (s : State) : (mountTrigger s).store.state = .ready ∨
    (mountTrigger s).store.state = .reclaiming ∨ (mountTrigger s).store.state = .full := by
  unfold mountTrigger
  split
  · cases h : reclaimChoice s.store with
    | some sector =>
      rw [chooseReclaim_some h, enterStore_store]
      exact .inr (.inl rfl)
    | none =>
      rw [chooseReclaim_none h, enterStore_store]
      exact .inr (.inr rfl)
  · rw [enterStore_store]
    exact .inl rfl

theorem mountComplete_state (h : s.store.state = .mounting) : (mountComplete s).store.state = .ready ∨
    (mountComplete s).store.state = .reclaiming ∨ (mountComplete s).store.state = .full := by
  rw [mountComplete_store h, (next_keeps _).state, mountTriggered]
  exact mountTrigger_state _

/-- What a mount leaves as it is. -/
theorem mountComplete_only (s : State) :
    Moves (only [.store, .array, .survey, .sites, .rotation]) s (mountComplete s) :=
  mountComplete_moves (P := only [.store, .array, .survey, .sites, .rotation]) s (by decide) (by decide) (by decide)
    (by decide) (by decide)

theorem exec_mountComplete (q : Quiet s) : exec .mountComplete s = .next (mountComplete s) :=
  event_of_moves (mountComplete_only s) q

/-- What a wipe's end leaves as it is. -/
theorem wipeComplete_only (s : State) : Moves (only [.store, .array]) s (wipeComplete s) :=
  wipeComplete_moves (P := only [.store, .array]) s (by decide) (by decide)

theorem exec_wipeComplete (q : Quiet s) : exec .wipeComplete s = .next (wipeComplete s) :=
  event_of_moves (wipeComplete_only s) q

theorem mountComplete_undue (h : s.store.state ≠ .mounting) : mountComplete s = s := if_neg h

theorem wipeComplete_undue (h : s.store.state ≠ .wiping ∨ s.store.op.isSome = true) : wipeComplete s = s := by
  refine if_neg fun due => ?_
  rcases h with other | busy
  · exact other due.1
  · rw [due.2] at busy
    exact absurd busy Bool.false_ne_true

end

end Sys2Proof.Machine
end

