-- ==== Sys2Proof/Proofs/FirstLockMark.lean ====
section
/-!
PROOFS. A mount of an array that holds nothing, and the end of a wipe: the first LOCK_MARK record alone (R131, R136).
-/

namespace Sys2Proof.Machine

/-! ### An array with no cell -/

theorem walks_empty : (List.range 64).map (walkOf []) = List.replicate 64 {} := by
  have same : (List.range 64).map (walkOf []) = (List.range 64).map fun _ => ({} : Walk) :=
    List.map_congr_left fun sector _ => walkOf_erased sector
  rw [same, List.map_const', List.length_range]

theorem scanned_empty : scanned {} = {} := by
  unfold scanned
  dsimp only
  rw [walks_empty]
  rfl

theorem retireDuplicates_empty : retireDuplicates {} = {} := rfl

/-! ### The first LOCK_MARK record -/

/-- The limits that the first LOCK_MARK record carries (R119). -/
def firstLimits : PerKind := ⟨1024, 1024, 1024, 1024, 1025⟩

/-- The bytes of the first LOCK_MARK record. -/
def firstRecord (clock : Clock) : List Byte :=
  recordBytes (headerOf .lockMark 1 1 1 firstLimits) (.lockMark (lockRecord clock))

/-- The store that holds the first LOCK_MARK record alone. -/
def firstStore (clock : Clock) (state : StoreState) : Store :=
  { array := Memory.cells 0 (firstRecord clock)
    state := state
    dir := [{ kind := .lockMark, id := 1, seq := some 1, loc := some (0, 0), size := 1, state := .live }]
    nextIds := ⟨1, 1, 1, 1, 2⟩, limits := firstLimits, nextSeq := 2, head := some 0, headUsed := 1
    opening := some 1 :: List.replicate 63 none }

theorem firstLock_wiped (clock : Clock) (st : Store) :
    st.wiped.drawFirst.firstLock (0, 0) true (lockRecord clock) = firstStore clock st.state := by
  have array : (st.wiped.drawFirst.firstLock (0, 0) true (lockRecord clock)).array =
      Memory.write [] 0 (firstRecord clock) := rfl
  have same : st.wiped.drawFirst.firstLock (0, 0) true (lockRecord clock) =
      { firstStore clock st.state with
        array := (st.wiped.drawFirst.firstLock (0, 0) true (lockRecord clock)).array } := rfl
  rw [same, array, write_empty]
  rfl

theorem firstLockMark_wiped {s : State} {st : Store} (h : s.store = st.wiped) :
    firstLockMark s = setStore (fun _ => firstStore s.clock st.state) s := by
  have place : placeFor s.store.drawFirst 1 0 = some ((0, 0), true) := by
    rw [h]
    exact placeFor_erased rfl rfl
  have placeS : placeFor (setStore Store.drawFirst s).store 1 0 = some ((0, 0), true) := place
  unfold firstLockMark
  dsimp only
  rw [placeS]
  dsimp only
  have record : s.store.drawFirst.firstLock (0, 0) true (lockRecord s.clock) = firstStore s.clock st.state := by
    rw [h]
    exact firstLock_wiped s.clock st
  exact congrArg (fun x : Store => { s with store := x }) record

section
variable (clock : Clock) (state : StoreState)

/-- With an empty queue and a READY store that owes nothing, the array takes no operation. -/
theorem firstStore_next : (firstStore clock .ready).next = firstStore clock .ready := rfl

theorem erased_firstStore : (erasedSectors (firstStore clock state)).length = 63 := rfl

theorem headerOf_length (kind : RecordKind) (size id seq : Nat) (limits : PerKind) :
    (headerOf kind size id seq limits).length = 37 := by
  unfold headerOf headerCore
  simp only [List.length_append, le_length, List.length_singleton, List.length_replicate]

theorem padTo_parts (n : Nat) (h a b c d : List Byte) :
    ∃ rest, padTo n (h ++ (a ++ b ++ c ++ d)) ++ [] = h ++ (a ++ (b ++ rest)) := by
  refine ⟨c ++ (d ++ List.replicate (n - (h ++ (a ++ b ++ c ++ d)).length) 0), ?_⟩
  unfold padTo
  simp only [List.append_assoc, List.append_nil]

theorem firstRecord_eq : ∃ rest, firstRecord clock = headerOf .lockMark 1 1 1 firstLimits ++ (le 4 1 ++ (le 4 0 ++ rest)) :=
  padTo_parts 256 _ (le 4 1) (le 4 0) (timeField clock.time) (le 1 (if !clock.valid then 1 else 0))

theorem firstRecord_length : (firstRecord clock).length = 256 := by
  unfold firstRecord recordBytes contentBlocks lockBytes padTo timeField
  simp only [List.flatMap_nil, List.append_nil, List.length_append, headerOf_length, le_length, List.length_replicate]

theorem firstStore_content {e : Entry} (h : e ∈ (firstStore clock state).dir) :
    ∃ r, contentOf (firstStore clock state) e = .lockMark r ∧ r.mark = 0 := by
  cases List.mem_singleton.1 h
  have bytes : Memory.readBytes (Memory.cells 0 (firstRecord clock)) 0 256 = firstRecord clock := by
    have read := Memory.readBytes_write [] 0 (firstRecord clock)
    rw [firstRecord_length, write_empty] at read
    exact read
  refine ⟨decodeLock (((Memory.readBytes (Memory.cells 0 (firstRecord clock)) 0 256).take 256).drop 37), rfl, ?_⟩
  obtain ⟨rest, record⟩ := firstRecord_eq clock
  have body : ((firstRecord clock).take 256).drop 37 = le 4 1 ++ (le 4 0 ++ rest) := by
    rw [List.take_of_length_le (Nat.le_of_eq (firstRecord_length clock)), record]
    exact List.drop_left' (headerOf_length ..)
  rw [bytes, body]
  exact (field_append (le 4 1) _ 4).trans (field_le_append 4 0 rest (by decide))

theorem firstStore_mark : markFound (firstStore clock state) = 0 := by
  have latest : ∃ e ∈ (firstStore clock state).dir, latestLive (firstStore clock state) .lockMark = some e :=
    ⟨_, List.mem_singleton_self _, rfl⟩
  obtain ⟨e, mem, at_⟩ := latest
  obtain ⟨r, content, zero⟩ := firstStore_content clock state mem
  unfold markFound
  rw [at_, Option.map_some, content]
  exact zero

theorem firstStore_survey : latestSurvey (firstStore clock state) = none := rfl

end

/-! ### The mount of an empty array -/

section
variable {s : State}

theorem mountNumbered_empty (h : s.store = {}) : (mountNumbered s).store = firstStore s.clock .mounting := by
  have stages : setStore (fun st => retireDuplicates (scanned st)) s = s := by
    have same : retireDuplicates (scanned s.store) = s.store := by rw [h, scanned_empty, retireDuplicates_empty]
    exact congrArg (fun x : Store => { s with store := x }) same
  have wiped : s.store = Store.wiped {} := h
  have writes : firstWrites s = firstLockMark s := if_pos (by rw [h]; rfl)
  unfold mountNumbered
  rw [stages, writes, firstLockMark_wiped wiped]
  change { firstStore s.clock .mounting with
    lockMark := markFound (firstStore s.clock .mounting), mode := modeFound (firstStore s.clock .mounting) } = _
  rw [firstStore_mark, modeFound, firstStore_survey]
  rfl

theorem linkNotes_none (h : ∀ e ∈ s.store.dir, e.kind ≠ .note) : linkNotes s = s := by
  have none_ : (s.store.dir.filter fun e => e.kind == .note && e.state == .live) = [] := by
    refine List.filter_eq_nil_iff.2 fun e mem live => ?_
    rw [Bool.and_eq_true, beq_iff_eq] at live
    exact h e mem live.1
  unfold linkNotes
  rw [none_]
  rfl

theorem mountTriggered_empty (h : s.store = {}) : (mountTriggered s).store = firstStore s.clock .ready := by
  have numbered := mountNumbered_empty h
  have links : linkNotes (mountNumbered s) = mountNumbered s := linkNotes_none fun e mem => by
    rw [numbered] at mem
    cases List.mem_singleton.1 mem
    exact nofun
  have calm : ¬(erasedSectors (mountNumbered s).store).length < 2 := by
    rw [numbered, erased_firstStore]
    decide
  rw [mountTriggered, links, mountTrigger, if_neg calm, enterStore_store, numbered]
  rfl

/-- R131: the mount of an array with no header. -/
theorem mountComplete_empty (h : s.store = {}) : (mountComplete s).store = firstStore s.clock .ready ∧
    (mountComplete s).sites = List.replicate 4 {} ∧ (mountComplete s).survey.state = some .setup ∧
    (mountComplete s).survey.number = 1 ∧ (mountComplete s).survey.first = none ∧
    (mountComplete s).survey.runStart = none := by
  have mounting : s.store.state = .mounting := by rw [h]
  have store := mountTriggered_empty h
  obtain ⟨survey, sites, _⟩ := mountComplete_rest mounting
  obtain ⟨sitesR, state, _, number, first, runStart⟩ := restored_none (s := mountTriggered s) (by rw [store]; exact firstStore_survey _ _)
  rw [mountComplete_store mounting, store, firstStore_next, survey, sites]
  exact ⟨rfl, sitesR, state, number, first, runStart⟩

/-- R136: the end of a wipe. -/
theorem wipeComplete_due (h : s.store.state = .wiping) (free : s.store.op = none) :
    (wipeComplete s).store = firstStore s.clock .ready := by
  have due : wipeComplete s = storeNext (enterStore .ready (firstLockMark (setStore Store.wiped s))) := if_pos ⟨h, free⟩
  have first : firstLockMark (setStore Store.wiped s) =
      setStore (fun _ => firstStore s.clock s.store.state) (setStore Store.wiped s) := firstLockMark_wiped rfl
  rw [due, storeNext_store, enterStore_store, first]
  exact firstStore_next s.clock

end

end Sys2Proof.Machine
end

