-- ==== Sys2Proof/Proofs/MountTriggers.lean ====
section
/-!
PROOFS. A mount over records: what the links, the trigger and the next operation keep of the store that R131 has made
(R124, R125, R139).
-/

namespace Sys2Proof.Machine

/-! ### The stages over an array of records -/

/-- R131, step 1, over an array of which nothing else is known. -/
def mountScan (a : Memory) : Store := retireDuplicates (scanned { array := a })

/-- R131, steps 1 to 5. -/
def mountStore (a : Memory) : Store := mountStep (mountScan a)

/-- R131, steps 1 to 6. -/
def mountKnown (a : Memory) : Store :=
  { mountStore a with lockMark := markFound (mountStore a), mode := modeFound (mountStore a) }

/-- A store that waits for nothing while its array is mounted. -/
structure MountIdle (a : Memory) (st : Store) : Prop where
  state : st.state = .mounting
  queue : st.queue = []
  op : st.op = none
  marks : st.marks = []
  owed : st.extOwed = false
  reclaim : st.reclaim = none
  opening : st.opening = (List.range 64).map fun sector => openingOf (walkOf a sector)

theorem mountScan_idle (a : Memory) : MountIdle a (mountScan a) where
  state := rfl
  queue := rfl
  op := rfl
  marks := rfl
  owed := rfl
  reclaim := rfl
  opening := List.map_map

theorem mountStep_idle {a : Memory} {st : Store} (h : MountIdle a st) : MountIdle a (mountStep st) := by
  unfold mountStep
  split
  · exact ⟨h.state, h.queue, h.op, h.marks, h.owed, h.reclaim, h.opening⟩
  · exact h

theorem mountStore_idle (a : Memory) : MountIdle a (mountStore a) := mountStep_idle (mountScan_idle a)

theorem mountKnown_idle (a : Memory) : MountIdle a (mountKnown a) :=
  let h := mountStore_idle a
  ⟨h.state, h.queue, h.op, h.marks, h.owed, h.reclaim, h.opening⟩

theorem mountScan_dir (a : Memory) : (mountScan a).dir = (scanned { array := a }).dir.map (retiredEntry (scanned { array := a })) :=
  rfl

theorem mountScan_some {a : Memory} {sector block : Nat} {k : Header} (f : Found a sector block k) :
    (mountScan a).dir.isEmpty ≠ true := fun empty => by
  have found : mountEntry sector (k, block) ∈ (scanned { array := a }).dir := mem_scanned.2 ⟨sector, block, k, f, rfl⟩
  have mem := List.mem_map_of_mem (f := retiredEntry (scanned { array := a })) found
  rw [← mountScan_dir, List.isEmpty_iff.1 empty] at mem
  exact absurd mem List.not_mem_nil

theorem setStore_setStore (f : Store → Store) (st : Store) (s : State) :
    setStore f (setStore (fun _ => st) s) = setStore (fun _ => f st) s := rfl

theorem mountNumbered_found {s : State} {a : Memory} (h : s.store = { array := a }) {sector block : Nat} {k : Header}
    (f : Found a sector block k) : mountNumbered s = setStore (fun _ => mountKnown a) s := by
  have scan : setStore (fun st => retireDuplicates (scanned st)) s = setStore (fun _ => mountScan a) s := by
    have same : retireDuplicates (scanned s.store) = mountScan a := by rw [h]; rfl
    exact congrArg (fun x : Store => { s with store := x }) same
  have writes : firstWrites (setStore (fun _ => mountScan a) s) = setStore mountStep (setStore (fun _ => mountScan a) s) :=
    if_neg (mountScan_some f)
  rw [mountNumbered, scan, writes, setStore_setStore, setStore_setStore, mountKnown, mountStore]

/-! ### What the links change -/

theorem linkNote_dir (s : State) (e : Entry) : ∃ dir, linkNote s e = { s with store := { s.store with dir := dir } } := by
  unfold linkNote
  split
  · dsimp only
    split
    · exact ⟨_, rfl⟩
    · exact ⟨_, rfl⟩
  · exact ⟨_, rfl⟩

theorem linkNotes_dir (s : State) : ∃ dir, linkNotes s = { s with store := { s.store with dir := dir } } := by
  unfold linkNotes
  refine List.foldlRecOn (motive := fun u : State => ∃ dir, u = { s with store := { s.store with dir := dir } }) _ _
    ⟨_, rfl⟩ fun u kept e _ => ?_
  obtain ⟨dir, rfl⟩ := kept
  obtain ⟨dir', same⟩ := linkNote_dir { s with store := { s.store with dir := dir } } e
  exact ⟨dir', same⟩

/-! ### What the trigger and the next operation change -/

/-- What of the store stands when R131, step 6 is done. -/
structure MountKeeps (st t : Store) : Prop where
  array : t.array = st.array
  queue : t.queue = st.queue
  limits : t.limits = st.limits
  nextIds : t.nextIds = st.nextIds
  lockMark : t.lockMark = st.lockMark
  mode : t.mode = st.mode
  extSector : t.extSector = st.extSector

theorem MountKeeps.trans {st t u : Store} (h : MountKeeps st t) (k : MountKeeps t u) : MountKeeps st u :=
  ⟨k.array.trans h.array, k.queue.trans h.queue, k.limits.trans h.limits, k.nextIds.trans h.nextIds,
    k.lockMark.trans h.lockMark, k.mode.trans h.mode, k.extSector.trans h.extSector⟩

theorem linkNotes_keeps (s : State) : MountKeeps s.store (linkNotes s).store := by
  obtain ⟨dir, same⟩ := linkNotes_dir s
  rw [same]
  constructor <;> rfl

theorem mountTrigger_keeps (s : State) : MountKeeps s.store (mountTrigger s).store := by
  unfold mountTrigger
  split
  · cases h : reclaimChoice s.store with
    | some sector =>
      rw [chooseReclaim_some h, enterStore_store]
      constructor <;> rfl
    | none =>
      rw [chooseReclaim_none h, enterStore_store]
      constructor <;> rfl
  · rw [enterStore_store]
    constructor <;> rfl

theorem next_mountKeeps (st : Store) : MountKeeps st st.next :=
  let k := next_keeps st
  ⟨k.array, k.queue, k.limits, k.nextIds, k.lockMark, k.mode, next_extSector st⟩

/-- The next operation takes a sequence number only as it begins. -/
theorem next_nextSeq {st : Store} (free : st.next.op = none) : st.next.nextSeq = st.nextSeq := by
  unfold Store.next at free ⊢
  split at free
  · rw [if_pos ‹_›]
  · rw [if_neg ‹_›]
    split at free
    · exact absurd free nofun
    · exact absurd free nofun
    · split at free
      · unfold nextReclaim at free ⊢
        split at free
        · rfl
        · split at free
          · dsimp only at free ⊢
            split at free
            · split at free
              · exact absurd free nofun
              · rfl
            · rfl
          · exact absurd free nofun
      · unfold beginWrite at free ⊢
        split at free
        · rfl
        · dsimp only at free ⊢
          split at free
          · exact absurd free nofun
          · rfl
      · rfl

/-- The entries that the next operation discards (R126, step 2). -/
theorem next_discards (st : Store) : st.next.dir = st.dir ∨ ∃ r, st.reclaim = some r ∧ r.copies = [] ∧
    st.next.reclaim = some r ∧ st.next.dir = st.dir.map (discardedEntry r.sector) := by
  unfold Store.next
  split
  · exact .inl rfl
  · split
    · exact .inl rfl
    · exact .inl rfl
    · split
      · unfold nextReclaim
        split
        · exact .inl rfl
        · next r reclaim =>
          split
          · dsimp only
            split
            · split
              · exact .inl (openPlace_dir _ _ _)
              · exact .inl rfl
            · exact .inl rfl
          · next copies => exact .inr ⟨r, reclaim, copies, reclaim, rfl⟩
      · unfold beginWrite
        split
        · exact .inl rfl
        · dsimp only
          split
          · exact .inl (openPlace_dir _ _ _)
          · exact .inl rfl
      · exact .inl rfl

/-- With an empty queue and a READY store that owes nothing, the array takes no operation. -/
theorem next_idle {st : Store} (state : st.state = .ready) (queue : st.queue = []) (marks : st.marks = [])
    (owed : st.extOwed = false) : st.next = st := by
  unfold Store.next
  split
  · rfl
  · rw [owed, if_neg Bool.false_ne_true, marks, state]
    dsimp only
    unfold beginWrite
    rw [queue]

/-! ### The trigger at the end of a mount -/

theorem erased_count {a : Memory} {st : Store}
    (opening : st.opening = (List.range 64).map fun sector => openingOf (walkOf a sector)) :
    (erasedSectors st).length = (List.range 64).countP fun sector => (walkOf a sector).used == 0 := by
  rw [erasedSectors_length, opening, List.countP_map]
  refine List.countP_congr fun sector _ => ?_
  rw [Function.comp_apply, openingOf]
  split
  · next zero => simp only [zero, Option.isNone_none, beq_self_eq_true]
  · next used => simp only [Option.isNone_some, beq_iff_eq, used, Bool.false_eq_true]

end Sys2Proof.Machine
end

