-- ==== Sys2Proof/Proofs/MountDirectory.lean ====
section
/-!
PROOFS. The directory, the numbers and the trigger after a mount over records (R125, R131).
-/

namespace Sys2Proof.Machine

/-- R131, step 1: another LIVE record of the kind and id has a higher sequence. -/
def Duplicate (a : Memory) (h : Header) : Prop :=
  h.live = true ∧ ∃ sector block d, Found a sector block d ∧ d.live = true ∧ d.kind = h.kind ∧ d.id = h.id ∧ h.seq < d.seq

section
variable {a : Memory} {sector block : Nat} {h : Header}

theorem mountEntry_live : (mountEntry sector (h, block)).state = .live ↔ h.live = true := by
  unfold mountEntry
  cases h.live
  · exact ⟨nofun, nofun⟩
  · exact ⟨fun _ => rfl, fun _ => rfl⟩

theorem mountEntry_dead (dead : h.live = false) : (mountEntry sector (h, block)).state = .dead := by
  unfold mountEntry
  rw [dead]
  rfl

theorem mountEntry_rank : (mountEntry sector (h, block)).rank = h.seq := rfl

theorem isDuplicate_mountEntry :
    isDuplicate (scanned { array := a }) (mountEntry sector (h, block)) = true ↔ Duplicate a h := by
  rw [isDuplicate_iff]
  refine and_congr mountEntry_live ⟨?_, ?_⟩
  · rintro ⟨x, mem, kind, id, live, below⟩
    obtain ⟨sector', block', d, g, rfl⟩ := mem_scanned.1 mem
    exact ⟨sector', block', d, g, mountEntry_live.1 live, kind, id, below⟩
  · rintro ⟨sector', block', d, g, live, kind, id, below⟩
    exact ⟨mountEntry sector' (d, block'), mem_scanned.2 ⟨sector', block', d, g, rfl⟩, kind, id, mountEntry_live.2 live, below⟩

/-- The entry of a record found, when the duplicates are retired. -/
def standing (a : Memory) (sector block : Nat) (h : Header) : Entry :=
  retiredEntry (scanned { array := a }) (mountEntry sector (h, block))

theorem standing_kept : EntryKept (mountEntry sector (h, block)) (standing a sector block h) := retiredEntry_kept _ _

theorem standing_dead (gone : h.live = false ∨ Duplicate a h) : (standing a sector block h).state = .dead := by
  unfold standing retiredEntry
  split
  · rfl
  · next single =>
    rcases gone with dead | dup
    · exact mountEntry_dead dead
    · exact absurd (isDuplicate_mountEntry.2 dup) single

theorem standing_alive (single : ¬Duplicate a h) :
    standing a sector block h = mountEntry sector (h, block) := if_neg (mt isDuplicate_mountEntry.1 single)

theorem standing_live : (standing a sector block h).state = .live ↔ h.live = true ∧ ¬Duplicate a h := by
  constructor
  · intro live
    by_contra gone
    have dead := standing_dead (a := a) (sector := sector) (block := block) (h := h) (by
      by_contra none_
      obtain ⟨alive, single⟩ := not_or.1 none_
      exact gone ⟨by rwa [Bool.not_eq_false] at alive, single⟩)
    exact absurd (live.symm.trans dead) nofun
  · rintro ⟨live, single⟩
    rw [standing_alive single]
    exact mountEntry_live.2 live

theorem mem_mountScan {e : Entry} : e ∈ (mountScan a).dir ↔
    ∃ sector block h, Found a sector block h ∧ e = standing a sector block h := by
  rw [mountScan_dir, List.mem_map]
  constructor
  · rintro ⟨x, mem, rfl⟩
    obtain ⟨sector, block, h, f, rfl⟩ := mem_scanned.1 mem
    exact ⟨sector, block, h, f, rfl⟩
  · rintro ⟨sector, block, h, f, rfl⟩
    exact ⟨_, mem_scanned.2 ⟨sector, block, h, f, rfl⟩, rfl⟩

end

theorem mountStep_dir (st : Store) : (mountStep st).dir = st.dir := by
  unfold mountStep
  split <;> rfl

theorem mountKnown_dir (a : Memory) : (mountKnown a).dir = (mountScan a).dir := mountStep_dir _

/-! ### The mount over records -/

section
variable {s : State} {a : Memory} (h : s.store = { array := a }) {sector block : Nat} {k : Header}
  (f : Found a sector block k)
include h

theorem mounting_found : s.store.state = .mounting := by rw [h]

theorem mountComplete_next : (mountComplete s).store = (mountTriggered s).store.next :=
  mountComplete_store (mounting_found h)

include f

theorem mountNumbered_known : (mountNumbered s).store = mountKnown a := by rw [mountNumbered_found h f]; rfl

theorem mountTriggered_keeps : MountKeeps (mountKnown a) (mountTriggered s).store := by
  rw [← mountNumbered_known h f]
  exact (linkNotes_keeps _).trans (mountTrigger_keeps _)

theorem mountComplete_keeps : MountKeeps (mountKnown a) (mountComplete s).store := by
  rw [mountComplete_next h]
  exact (mountTriggered_keeps h f).trans (next_mountKeeps _)

/-- The entries stand, but that the reclaim chosen may discard those of its sector. -/
theorem mountComplete_entries : ∃ g : Entry → Entry, (mountComplete s).store.dir = (mountScan a).dir.map g ∧
    ∀ e, EntryKept e (g e) ∧ ((∀ r, (mountComplete s).store.reclaim = some r → inSector e r.sector = false) →
      (g e).state = e.state) := by
  obtain ⟨f1, same, dir⟩ := (mountTriggered_entries (s := s)).dir
  rw [mountNumbered_known h f, mountKnown_dir] at dir
  rw [mountComplete_next h]
  rcases next_discards (mountTriggered s).store with calm | ⟨r, _, _, reclaim, gone⟩
  · exact ⟨f1, calm.trans dir, fun e => ⟨(same e).toEntryKept, fun _ => (same e).alive⟩⟩
  · refine ⟨discardedEntry r.sector ∘ f1, ?_, fun e => ⟨(same e).toEntryKept.trans (discardedEntry_kept _ _), fun other => ?_⟩⟩
    · rw [gone, dir, List.map_map]
    · have out : inSector (f1 e) r.sector = false := by
        rw [← other r reclaim, inSector, inSector, (same e).loc]
      have stays : discardedEntry r.sector (f1 e) = f1 e := if_neg (by rw [out, Bool.and_false]; exact Bool.false_ne_true)
      rw [Function.comp_apply, stays]
      exact (same e).alive

/-- R131: every record found is an entry; the DEAD and the duplicates are DEAD. -/
theorem mounted_entry {sector block : Nat} {d : Header} (g : Found a sector block d) : ∃ e ∈ (mountComplete s).store.dir,
    e.kind = d.kind ∧ e.id = d.id ∧ e.seq = some d.seq ∧ e.size = d.size ∧ e.loc = some (sector, block) ∧
      (d.live = false ∨ Duplicate a d → e.state = .dead) ∧
      (d.live = true → ¬Duplicate a d →
        (∀ r, (mountComplete s).store.reclaim = some r → r.sector ≠ sector) → e.state = .live) := by
  obtain ⟨move, dir, kept⟩ := mountComplete_entries h f
  obtain ⟨keeps, alive⟩ := kept (standing a sector block d)
  have whole := (standing_kept (a := a) (sector := sector) (block := block) (h := d)).trans keeps
  refine ⟨move (standing a sector block d), ?_, whole.kind, whole.id, whole.seq, whole.size, whole.loc, fun gone => ?_,
    fun live single other => ?_⟩
  · rw [dir]
    exact List.mem_map_of_mem (mem_mountScan.2 ⟨sector, block, d, g, rfl⟩)
  · rcases keeps.state with same | dead
    · exact same.trans (standing_dead gone)
    · exact dead
  · refine (alive fun r reclaim => ?_).trans (standing_live.2 ⟨live, single⟩)
    rw [inSector, (standing_kept (a := a) (sector := sector) (block := block) (h := d)).loc]
    exact beq_false_of_ne (other r reclaim).symm

/-- Every entry is of a record found. -/
theorem mounted_found {e : Entry} (mem : e ∈ (mountComplete s).store.dir) : ∃ sector block d, Found a sector block d ∧
    e.loc = some (sector, block) ∧ e.kind = d.kind ∧ e.id = d.id ∧ e.seq = some d.seq := by
  obtain ⟨move, dir, kept⟩ := mountComplete_entries h f
  rw [dir] at mem
  obtain ⟨x, memX, rfl⟩ := List.mem_map.1 mem
  obtain ⟨sector, block, d, g, rfl⟩ := mem_mountScan.1 memX
  have whole := (standing_kept (a := a) (sector := sector) (block := block) (h := d)).trans (kept _).1
  exact ⟨sector, block, d, g, whole.loc, whole.kind, whole.id, whole.seq⟩

/-! ### The numbers -/

theorem mounted_nextIds (kind : RecordKind) : (mountComplete s).store.nextIds.get kind =
    Nat.max ((limitsFound (foundHeaders a)).get kind) ((idsFound (foundHeaders a)).get kind) + 1 := by
  have ids : (mountKnown a).nextIds = (scanned { array := a }).nextIds := (mountStep_entries (mountScan a)).ids
  rw [(mountComplete_keeps h f).nextIds, ids]
  exact scanned_nextIds kind

theorem mounted_nextSeq (free : (mountComplete s).store.op = none) :
    ∃ sector block d, Found a sector block d ∧ (mountComplete s).store.nextSeq = d.seq + 1 := by
  have stepSeq : (mountStep (mountScan a)).nextSeq = (mountScan a).nextSeq := by
    unfold mountStep
    split <;> rfl
  have known : (mountTriggered s).store.nextSeq = (scanned { array := a }).nextSeq := by
    rw [(mountTriggered_entries (s := s)).seq, mountNumbered_known h f]
    exact stepSeq
  rw [mountComplete_next h] at free ⊢
  rw [next_nextSeq free, known]
  exact seq_reached (st := { array := a }) f

/-! ### The trigger -/

theorem linked_store : ∃ dir, linkNotes (mountNumbered s) = setStore (fun _ => { mountKnown a with dir := dir }) s := by
  obtain ⟨dir, same⟩ := linkNotes_dir (mountNumbered s)
  rw [mountNumbered_found h f] at same ⊢
  exact ⟨dir, same⟩

theorem linked_erased : (erasedSectors (linkNotes (mountNumbered s)).store).length =
    (List.range 64).countP fun sector => (walkOf a sector).used == 0 := by
  obtain ⟨dir, same⟩ := linked_store h f
  rw [same]
  exact erased_count (mountKnown_idle a).opening

/-- R125: with two erased sectors left the store is READY and the array takes no operation. -/
theorem mounted_ready (enough : 2 ≤ (List.range 64).countP fun sector => (walkOf a sector).used == 0) :
    mountTriggered s = enterStore .ready (linkNotes (mountNumbered s)) ∧
      (mountComplete s).store.state = .ready ∧ (mountComplete s).store.reclaim = none ∧
      (mountComplete s).store.op = none := by
  have taken : mountTriggered s = enterStore .ready (linkNotes (mountNumbered s)) :=
    if_neg (by rw [linked_erased h f]; exact Nat.not_lt.2 enough)
  obtain ⟨dir, same⟩ := linked_store h f
  have idle := mountKnown_idle a
  have store : (mountTriggered s).store = { mountKnown a with dir := dir, state := .ready } := by
    rw [taken, enterStore_store, same]
    rfl
  refine ⟨taken, ?_⟩
  rw [mountComplete_next h, store,
    next_idle (st := { mountKnown a with dir := dir, state := .ready }) rfl idle.queue idle.marks idle.owed]
  exact ⟨rfl, idle.reclaim, idle.op⟩

theorem mounted_few (few : ((List.range 64).countP fun sector => (walkOf a sector).used == 0) < 2) :
    (mountComplete s).store.state = .reclaiming ∨ (mountComplete s).store.state = .full := by
  have taken : mountTriggered s = chooseReclaim (linkNotes (mountNumbered s)) :=
    if_pos (by rw [linked_erased h f]; exact few)
  rw [mountComplete_next h, (next_keeps _).state, taken]
  exact chooseReclaim_ends _

end

end Sys2Proof.Machine
end

