-- ==== Sys2Proof/Proofs/MountArray.lean ====
section
/-!
PROOFS. The array after a mount over records (R131): the DEAD marks of the duplicates, and the extension step with the
limits it gives.
-/

namespace Sys2Proof.Machine

/-! ### The DEAD marks -/

theorem deadStatus_eq : deadStatus = 0x00 := rfl

theorem markEntry_other {m : Memory} {e : Entry} {b : Nat} (h : ∀ loc, e.loc = some loc → b ≠ blockAddress loc + 32) :
    Memory.read (markEntry m e) b = Memory.read m b := by
  unfold markEntry
  split
  · next loc at_ =>
    refine Memory.read_write_other _ _ _ _ ?_
    have apart := h loc at_
    rw [List.length_singleton]
    omega
  · rfl

theorem markEntry_marked {m : Memory} {e : Entry} {loc : Nat × Nat} (h : e.loc = some loc) :
    Memory.read (markEntry m e) (blockAddress loc + 32) = 0x00 := by
  unfold markEntry
  rw [h]
  exact Memory.read_write m _ [deadStatus] 0 _ rfl

theorem markEntry_stays {m : Memory} (e : Entry) {b : Nat} (h : Memory.read m b = 0x00) :
    Memory.read (markEntry m e) b = 0x00 := by
  by_cases here : ∃ loc, e.loc = some loc ∧ b = blockAddress loc + 32
  · obtain ⟨loc, at_, rfl⟩ := here
    exact markEntry_marked at_
  · exact (markEntry_other fun loc at_ same => here ⟨loc, at_, same⟩).trans h

theorem markFold_other {es : List Entry} {b : Nat} (h : ∀ e ∈ es, ∀ loc, e.loc = some loc → b ≠ blockAddress loc + 32) :
    ∀ m, Memory.read (es.foldl markEntry m) b = Memory.read m b := by
  induction es with
  | nil => exact fun _ => rfl
  | cons e es ih =>
    exact fun m => (ih (fun x mem => h x (List.mem_cons_of_mem _ mem)) _).trans (markEntry_other (h e List.mem_cons_self))

theorem markFold_stays (es : List Entry) {b : Nat} : ∀ m, Memory.read m b = 0x00 →
    Memory.read (es.foldl markEntry m) b = 0x00 := by
  induction es with
  | nil => exact fun _ h => h
  | cons e es ih => exact fun m h => ih _ (markEntry_stays e h)

theorem markFold_marked {es : List Entry} {e : Entry} {loc : Nat × Nat} (mem : e ∈ es) (h : e.loc = some loc) :
    ∀ m, Memory.read (es.foldl markEntry m) (blockAddress loc + 32) = 0x00 := by
  induction es with
  | nil => exact absurd mem List.not_mem_nil
  | cons x es ih =>
    intro m
    rcases List.mem_cons.1 mem with rfl | later
    · exact markFold_stays es _ (markEntry_marked h)
    · exact ih later _

section
variable {a : Memory} {sector block : Nat} {h : Header}

/-- R131, step 1: a duplicate is marked so in the array. -/
theorem mountScan_marked (f : Found a sector block h) (dup : Duplicate a h) :
    Memory.read (mountScan a).array (blockAddress (sector, block) + 32) = 0x00 :=
  markFold_marked (e := mountEntry sector (h, block))
    (List.mem_filter.2 ⟨mem_scanned.2 ⟨sector, block, h, f, rfl⟩, isDuplicate_mountEntry.2 dup⟩) rfl _

theorem mountScan_other {b : Nat}
    (clear : ∀ sector block h, Found a sector block h → Duplicate a h → b ≠ blockAddress (sector, block) + 32) :
    Memory.read (mountScan a).array b = Memory.read a b := by
  refine markFold_other (fun e mem loc at_ => ?_) a
  obtain ⟨memDir, dup⟩ := List.mem_filter.1 mem
  obtain ⟨sector, block, h, f, rfl⟩ := mem_scanned.1 memDir
  cases at_
  exact clear sector block h f (isDuplicate_mountEntry.1 dup)

/-! ### The extension fields -/

/-- The extension field of the header at a place of the array. -/
def fieldAt (m : Memory) (loc : Nat × Nat) : Nat := field (Memory.readBytes m (blockAddress loc + 33) 4) 0 4

theorem fieldAt_congr {m n : Memory} {loc : Nat × Nat}
    (same : ∀ i, i < 4 → Memory.read m (blockAddress loc + 33 + i) = Memory.read n (blockAddress loc + 33 + i)) :
    fieldAt m loc = fieldAt n loc := by
  refine congrArg (field · 0 4) ?_
  rw [Memory.readBytes_eq, Memory.readBytes_eq]
  exact List.map_congr_left fun i mem => same i (List.mem_range.1 mem)

theorem readBytes_drop (m : Memory) (x n k : Nat) :
    ((Memory.readBytes m x (n + k)).drop n).take k = Memory.readBytes m (x + n) k := by
  rw [Memory.readBytes_eq, Memory.readBytes_eq, List.take_of_length_le (by simp)]
  refine List.ext_getElem (by simp) fun i h1 h2 => ?_
  rw [List.getElem_drop, List.getElem_map, List.getElem_map, List.getElem_range, List.getElem_range, Nat.add_assoc]

theorem decodeHeader_ext {p : List Byte} (dec : decodeHeader p = some h) : h.ext = field p 33 4 := by
  unfold decodeHeader at dec
  split at dec
  · obtain ⟨kind, _, rfl⟩ := Option.map_eq_some_iff.1 dec
    rfl
  · exact absurd dec nofun

theorem found_ext (f : Found a sector block h) : fieldAt a (sector, block) = h.ext := by
  rw [decodeHeader_ext f.decoded]
  refine (congrArg unle ?_ : unle _ = unle _)
  rw [readBytes_drop a _ 33 4, List.drop_zero]
  refine List.take_of_length_le ?_
  rw [Memory.readBytes_eq, List.length_map, List.length_range]

/-- A byte of an extension field is no status byte. -/
theorem status_apart {loc loc' : Nat × Nat} {i : Nat} (inside : i < 4) :
    blockAddress loc + 33 + i ≠ blockAddress loc' + 32 := by
  have one : blockAddress loc = loc.1 * 16384 + loc.2 * 256 := rfl
  have other : blockAddress loc' = loc'.1 * 16384 + loc'.2 * 256 := rfl
  omega

theorem scanned_ext (f : Found a sector block h) : extensionField (mountScan a) (sector, block) = h.ext := by
  refine Eq.trans (fieldAt_congr fun i inside => ?_) (found_ext f)
  exact mountScan_other fun _ _ _ _ _ => status_apart inside

theorem ext_lt (f : Found a sector block h) : h.ext < 2 ^ 32 := by
  rw [← scanned_ext f]
  exact extensionField_lt _ _

theorem standsAt_standing (f : Found a sector block h) (clear : h.ext ≠ 0) :
    StandsAt (mountScan a) (standing a sector block h) (h.seq, sector, block) := by
  have kept := standing_kept (a := a) (sector := sector) (block := block) (h := h)
  refine ⟨kept.seq, kept.loc, ?_⟩
  dsimp only
  rw [scanned_ext f]
  exact clear

/-- R120: a header that the step can take. -/
theorem extensionTarget_found {loc : Nat × Nat} (target : extensionTarget (mountScan a) = some loc) :
    ∃ sector block d, Found a sector block d ∧ loc = (sector, block) ∧ d.ext ≠ 0 ∧
      ∀ sector' block' h, Found a sector' block' h → h.ext ≠ 0 → h.seq ≤ d.seq := by
  have spec := higherHeader_spec (mountScan a) (mountScan a).dir none
  rw [extensionTarget_eq] at target
  obtain ⟨r, best, rfl⟩ := Option.map_eq_some_iff.1 target
  rw [best] at spec
  obtain ⟨from_, _, above⟩ := spec
  rcases from_ with none_ | ⟨e, mem, seq, at_, clear⟩
  · exact absurd none_ nofun
  · obtain ⟨sector, block, d, g, rfl⟩ := mem_mountScan.1 mem
    have kept := standing_kept (a := a) (sector := sector) (block := block) (h := d)
    have place : (sector, block) = r.2 := Option.some.inj (kept.loc.symm.trans at_)
    have number : d.seq = r.1 := Option.some.inj (kept.seq.symm.trans seq)
    refine ⟨sector, block, d, g, place.symm, ?_, fun sector' block' h f ext => ?_⟩
    · rw [← place, scanned_ext g] at clear
      exact clear
    · rw [number]
      exact above _ (mem_mountScan.2 ⟨sector', block', h, f, rfl⟩) _ (standsAt_standing f ext)

theorem extensionTarget_some (f : Found a sector block h) (clear : h.ext ≠ 0) :
    ∃ loc, extensionTarget (mountScan a) = some loc := by
  have spec := higherHeader_spec (mountScan a) (mountScan a).dir none
  rw [extensionTarget_eq]
  cases best : (mountScan a).dir.foldl (higherHeader (mountScan a)) none with
  | some r => exact ⟨r.2, rfl⟩
  | none =>
    rw [best] at spec
    exact absurd (standsAt_standing f clear) (spec.2 _ (mem_mountScan.2 ⟨sector, block, h, f, rfl⟩) _)

/-! ### The step of the mount -/

theorem mountStore_taken {loc : Nat × Nat} (target : extensionTarget (mountScan a) = some loc) :
    mountStore a = (mountScan a).programStep loc := by
  unfold mountStore mountStep
  rw [target]

theorem mountStore_none (target : extensionTarget (mountScan a) = none) : mountStore a = mountScan a := by
  unfold mountStore mountStep
  rw [target]

/-- The array after a mount, away from the extension fields. -/
theorem mountStore_away {b : Nat}
    (away : ∀ sector block h, Found a sector block h →
      b < blockAddress (sector, block) + 33 ∨ blockAddress (sector, block) + 37 ≤ b) :
    Memory.read (mountStore a).array b = Memory.read (mountScan a).array b := by
  cases target : extensionTarget (mountScan a) with
  | none => rw [mountStore_none target]
  | some loc =>
    obtain ⟨sector, block, d, g, rfl, _, _⟩ := extensionTarget_found target
    rw [mountStore_taken target]
    exact programStep_other _ _ (away sector block d g)

theorem mountStore_marked (f : Found a sector block h) (dup : Duplicate a h) :
    Memory.read (mountStore a).array (blockAddress (sector, block) + 32) = 0x00 := by
  refine (mountStore_away fun sector' block' d _ => ?_).trans (mountScan_marked f dup)
  have one : blockAddress (sector, block) = sector * 16384 + block * 256 := rfl
  have other : blockAddress (sector', block') = sector' * 16384 + block' * 256 := rfl
  omega

theorem mountStore_kept {b : Nat}
    (clear : ∀ sector block h, Found a sector block h →
      (Duplicate a h → b ≠ blockAddress (sector, block) + 32) ∧
        (b < blockAddress (sector, block) + 33 ∨ blockAddress (sector, block) + 37 ≤ b)) :
    Memory.read (mountStore a).array b = Memory.read a b :=
  (mountStore_away fun sector block h f => (clear sector block h f).2).trans
    (mountScan_other fun sector block h f => (clear sector block h f).1)

/-- R131, step 5: the step of the header of highest sequence with one clear. -/
theorem mountStore_step (f : Found a sector block h) (clear : h.ext ≠ 0)
    (latest : ∀ sector' block' d, Found a sector' block' d → d.ext ≠ 0 → (sector', block') ≠ (sector, block) → d.seq < h.seq) :
    (mountStore a).extSector = some sector ∧
      (∃ k, h.ext.testBit k = true ∧ (∀ j, j < k → h.ext.testBit j = false) ∧
        extensionField (mountStore a) (sector, block) = h.ext - 2 ^ k) ∧
      ∀ sector' block' d, Found a sector' block' d → (sector', block') ≠ (sector, block) →
        extensionField (mountStore a) (sector', block') = d.ext := by
  obtain ⟨loc, target⟩ := extensionTarget_some f clear
  obtain ⟨sector₁, block₁, d, g, rfl, ext, above⟩ := extensionTarget_found target
  have same : (sector₁, block₁) = (sector, block) := by
    by_contra other
    have below := latest sector₁ block₁ d g ext other
    have upper := above sector block h f clear
    omega
  cases same
  rw [mountStore_taken target]
  refine ⟨rfl, ?_, fun sector' block' e k other => ?_⟩
  · obtain ⟨j, set, lowest, step⟩ := setStep_lowest clear (ext_lt f)
    refine ⟨j, set, lowest, ?_⟩
    have field_ := programStep_field (mountScan a) (sector, block)
    rw [scanned_ext f, step] at field_
    exact field_
  · refine Eq.trans (fieldAt_congr fun i inside => ?_) (scanned_ext k)
    refine programStep_other _ _ ?_
    have one : blockAddress (sector, block) = sector * 16384 + block * 256 := rfl
    have two : blockAddress (sector', block') = sector' * 16384 + block' * 256 := rfl
    have insideF := f.fits
    have insideK := k.fits
    by_contra within
    exact other (Prod.ext (by omega : sector' = sector) (by omega : block' = block))

/-- R131: the limits after the mount. -/
theorem mountStore_limits (kind : RecordKind) :
    ((∃ sector block h, Found a sector block h ∧ h.ext ≠ 0) →
      (mountStore a).limits.get kind = (limitsFound (foundHeaders a)).get kind + 1024) ∧
    ((∀ sector block h, Found a sector block h → h.ext = 0) →
      (mountStore a).limits.get kind = (limitsFound (foundHeaders a)).get kind) := by
  constructor
  · rintro ⟨sector, block, h, f, clear⟩
    obtain ⟨loc, target⟩ := extensionTarget_some f clear
    rw [mountStore_taken target]
    exact get_map (· + 1024) _ kind
  · intro full
    have target : extensionTarget (mountScan a) = none := by
      cases target : extensionTarget (mountScan a) with
      | none => rfl
      | some loc =>
        obtain ⟨sector, block, d, g, _, ext, _⟩ := extensionTarget_found target
        exact absurd (full sector block d g) ext
    rw [mountStore_none target]
    rfl

end

end Sys2Proof.Machine
end

