-- ==== Sys2Proof/Proofs/MountLatest.lean ====
section
/-!
PROOFS. The latest LIVE record of a kind after a mount, its content, and the lock mark, the mode and the survey that are
read from it (R57, R131).
-/

namespace Sys2Proof.Machine

/-! ### The LIVE entry of highest sequence -/

/-- The later of two entries. -/
def laterEntry (best : Option Entry) (e : Entry) : Option Entry :=
  match best with
  | some b => if b.rank < e.rank then some e else best
  | none => some e

theorem latestLive_eq (st : Store) (kind : RecordKind) :
    latestLive st kind = (st.dir.filter fun e => e.kind == kind && e.state == .live).foldl laterEntry none := rfl

theorem laterEntry_fold (es : List Entry) : ∀ b,
    match es.foldl laterEntry b with
    | none => b = none ∧ es = []
    | some r => (b = some r ∨ r ∈ es) ∧ (∀ c, b = some c → c.rank ≤ r.rank) ∧ ∀ e ∈ es, e.rank ≤ r.rank := by
  induction es with
  | nil =>
    intro b
    cases b with
    | none => exact ⟨rfl, rfl⟩
    | some c => exact ⟨.inl rfl, fun x h => by cases h; exact le_refl _, fun x mem => absurd mem List.not_mem_nil⟩
  | cons e es ih =>
    intro b
    have step : ∃ c, laterEntry b e = some c ∧ (b = some c ∨ c = e) ∧ e.rank ≤ c.rank ∧ ∀ d, b = some d → d.rank ≤ c.rank := by
      unfold laterEntry
      split
      · next d =>
        split
        · next less => exact ⟨e, rfl, .inr rfl, le_refl _, fun x h => by cases h; exact less.le⟩
        · next more => exact ⟨d, rfl, .inl rfl, Nat.le_of_not_lt more, fun x h => by cases h; exact le_refl _⟩
      · exact ⟨e, rfl, .inr rfl, le_refl _, nofun⟩
    obtain ⟨c, taken, from_, aboveE, aboveB⟩ := step
    have rest := ih (some c)
    rw [List.foldl_cons, taken]
    cases found : es.foldl laterEntry (some c) with
    | none =>
      rw [found] at rest
      exact absurd rest.1 nofun
    | some r =>
      rw [found] at rest
      obtain ⟨origin, aboveC, aboveEs⟩ := rest
      have upper := aboveC c rfl
      refine ⟨?_, fun d h => (aboveB d h).trans upper, fun x mem => ?_⟩
      · rcases origin with same | later
        · cases same
          rcases from_ with old | rfl
          · exact .inl old
          · exact .inr List.mem_cons_self
        · exact .inr (List.mem_cons_of_mem _ later)
      · rcases List.mem_cons.1 mem with rfl | later
        · exact aboveE.trans upper
        · exact aboveEs x later

section
variable {st : Store} {kind : RecordKind}

theorem mem_liveOf {e : Entry} : (e ∈ st.dir.filter fun e => e.kind == kind && e.state == .live) ↔
    e ∈ st.dir ∧ e.kind = kind ∧ e.state = .live := by
  rw [List.mem_filter, Bool.and_eq_true, beq_iff_eq, beq_iff_eq]

theorem latestLive_none (none_ : ∀ e ∈ st.dir, e.kind = kind → e.state ≠ .live) : latestLive st kind = none := by
  have empty : (st.dir.filter fun e => e.kind == kind && e.state == .live) = [] :=
    List.eq_nil_iff_forall_not_mem.2 fun e mem => by
      obtain ⟨inDir, isKind, live⟩ := mem_liveOf.1 mem
      exact none_ e inDir isKind live
  rw [latestLive_eq, empty]
  rfl

theorem latestLive_some {e : Entry} (mem : e ∈ st.dir) (isKind : e.kind = kind) (live : e.state = .live) :
    ∃ r ∈ st.dir, latestLive st kind = some r ∧ r.kind = kind ∧ r.state = .live ∧ e.rank ≤ r.rank := by
  have spec := laterEntry_fold (st.dir.filter fun e => e.kind == kind && e.state == .live) none
  have inside := mem_liveOf.2 ⟨mem, isKind, live⟩
  rw [latestLive_eq]
  cases found : (st.dir.filter fun e => e.kind == kind && e.state == .live).foldl laterEntry none with
  | none =>
    rw [found] at spec
    rw [spec.2] at inside
    exact absurd inside List.not_mem_nil
  | some r =>
    rw [found] at spec
    obtain ⟨origin, _, above⟩ := spec
    rcases origin with none_ | memR
    · exact absurd none_ nofun
    · obtain ⟨inDir, kindR, liveR⟩ := mem_liveOf.1 memR
      exact ⟨r, inDir, rfl, kindR, liveR, above e inside⟩

end

/-! ### The content of a record found -/

/-- The content that the array holds after the mount of the record at a place. -/
def mountedContent (a : Memory) (sector block : Nat) (h : Header) : Content :=
  decodeContent h.kind (Memory.readBytes (mountStore a).array (blockAddress (sector, block)) (h.size * 256))

theorem contentOf_calm {st : Store} (queue : st.queue = []) (e : Entry) :
    contentOf st e = decodeContent e.kind (entryBytes st e) := by
  unfold contentOf
  rw [queue]
  rfl

/-- A store of the mount: the entries found, with their states, over the array that the mount leaves. -/
structure Mounted (a : Memory) (st : Store) : Prop where
  dir : ∃ f : Entry → Entry, (∀ e, EntrySame e (f e)) ∧ st.dir = (mountScan a).dir.map f
  queue : st.queue = []
  array : st.array = (mountStore a).array

theorem mountStore_mounted (a : Memory) : Mounted a (mountStore a) :=
  ⟨⟨id, .refl, by rw [List.map_id]; exact mountStep_dir _⟩, (mountStore_idle a).queue, rfl⟩

theorem Mounted.moved {a : Memory} {st st' : Store} (h : Mounted a st) (same : EntriesSame st st') (keeps : MountKeeps st st') :
    Mounted a st' := by
  obtain ⟨f, sameF, dirF⟩ := h.dir
  obtain ⟨g, sameG, dirG⟩ := same.dir
  refine ⟨⟨g ∘ f, fun e => (sameF e).trans (sameG (f e)), ?_⟩, keeps.queue.trans h.queue, keeps.array.trans h.array⟩
  rw [dirG, dirF, List.map_map]

theorem mountKnown_mounted (a : Memory) : Mounted a (mountKnown a) :=
  let h := mountStore_mounted a
  ⟨h.dir, h.queue, h.array⟩

section
variable {a : Memory} {st : Store} {sector block : Nat} {h : Header}

theorem content_at (queue : st.queue = []) (array : st.array = (mountStore a).array) {e : Entry}
    (kept : EntryKept (mountEntry sector (h, block)) e) : contentOf st e = mountedContent a sector block h := by
  rw [contentOf_calm queue, entryBytes, kept.loc, kept.kind, kept.size, array]
  rfl

namespace Mounted
variable (m : Mounted a st)
include m

/-- The entry of a record found. -/
theorem entry (f : Found a sector block h) : ∃ e ∈ st.dir, EntryKept (mountEntry sector (h, block)) e ∧
    e.state = (standing a sector block h).state := by
  obtain ⟨g, same, dir⟩ := m.dir
  refine ⟨g (standing a sector block h), ?_, standing_kept.trans (same _).toEntryKept, (same _).alive⟩
  rw [dir]
  exact List.mem_map_of_mem (mem_mountScan.2 ⟨sector, block, h, f, rfl⟩)

theorem found {e : Entry} (mem : e ∈ st.dir) : ∃ sector block h, Found a sector block h ∧
    EntryKept (mountEntry sector (h, block)) e ∧ e.state = (standing a sector block h).state := by
  obtain ⟨g, same, dir⟩ := m.dir
  rw [dir] at mem
  obtain ⟨x, memX, rfl⟩ := List.mem_map.1 mem
  obtain ⟨sector, block, h, f, rfl⟩ := mem_mountScan.1 memX
  exact ⟨sector, block, h, f, standing_kept.trans (same _).toEntryKept, (same _).alive⟩

theorem content {e : Entry} (kept : EntryKept (mountEntry sector (h, block)) e) :
    contentOf st e = mountedContent a sector block h := content_at m.queue m.array kept

end Mounted

/-- The LIVE record of its kind with the highest sequence, above every other. -/
def Latest (a : Memory) (kind : RecordKind) (sector block : Nat) (h : Header) : Prop :=
  Found a sector block h ∧ h.kind = kind ∧ h.live = true ∧
    ∀ sector' block' d, Found a sector' block' d → d.kind = kind → d.live = true →
      (sector', block') ≠ (sector, block) → d.seq < h.seq

theorem Latest.single {kind : RecordKind} (l : Latest a kind sector block h) : ¬Duplicate a h := by
  obtain ⟨f, isKind, live, above⟩ := l
  rintro ⟨_, sector', block', d, g, liveD, kindD, _, later⟩
  by_cases same : (sector', block') = (sector, block)
  · cases same
    cases f.unique g
    exact Nat.lt_irrefl _ later
  · exact Nat.lt_asymm later (above sector' block' d g (kindD.trans isKind) liveD same)

theorem Mounted.latest_some (m : Mounted a st) {kind : RecordKind} (l : Latest a kind sector block h) :
    ∃ e, latestLive st kind = some e ∧ contentOf st e = mountedContent a sector block h := by
  obtain ⟨f, isKind, live, above⟩ := id l
  obtain ⟨e, mem, kept, state⟩ := m.entry f
  have alive : e.state = .live := state.trans (standing_live.2 ⟨live, l.single⟩)
  obtain ⟨r, memR, latest, kindR, liveR, upper⟩ := latestLive_some mem (kept.kind.trans isKind) alive
  obtain ⟨sector', block', d, g, keptR, stateR⟩ := m.found memR
  obtain ⟨liveD, _⟩ := standing_live.1 (stateR.symm.trans liveR)
  refine ⟨r, latest, ?_⟩
  by_cases same : (sector', block') = (sector, block)
  · cases same
    cases f.unique g
    exact m.content keptR
  · have below := above sector' block' d g (keptR.kind.symm.trans kindR) liveD same
    rw [Entry.rank, Entry.rank, kept.seq, keptR.seq] at upper
    exact absurd (upper : h.seq ≤ d.seq) (Nat.not_le.2 below)

theorem Mounted.latest_none (m : Mounted a st) {kind : RecordKind}
    (none_ : ∀ sector block h, Found a sector block h → h.kind = kind → h.live = false) : latestLive st kind = none := by
  refine latestLive_none fun e mem isKind live => ?_
  obtain ⟨sector, block, h, f, kept, state⟩ := m.found mem
  obtain ⟨liveH, _⟩ := standing_live.1 (state.symm.trans live)
  exact absurd (liveH.symm.trans (none_ sector block h f (kept.kind.symm.trans isKind))) nofun

/-! ### The lock mark and the mode -/

theorem content_lock (isKind : h.kind = .lockMark) : ∃ r, mountedContent a sector block h = .lockMark r := by
  unfold mountedContent
  rw [isKind]
  exact ⟨_, rfl⟩

/-- A SURVEY record read from the array has four sites of eight positions. -/
theorem content_survey (isKind : h.kind = .survey) : ∃ p, mountedContent a sector block h = .survey (decodeSurvey p) := by
  unfold mountedContent
  rw [isKind]
  exact ⟨_, rfl⟩

theorem markFound_latest (l : Latest a .lockMark sector block h) :
    ∃ r, mountedContent a sector block h = .lockMark r ∧ markFound (mountStore a) = r.mark := by
  obtain ⟨e, latest, content⟩ := (mountStore_mounted a).latest_some l
  obtain ⟨r, same⟩ := content_lock (a := a) (sector := sector) (block := block) l.2.1
  refine ⟨r, same, ?_⟩
  unfold markFound
  rw [latest, Option.map_some, content, same]

theorem markFound_none (none_ : ∀ sector block h, Found a sector block h → h.kind = .lockMark → h.live = false) :
    markFound (mountStore a) = 0 := by
  unfold markFound
  rw [(mountStore_mounted a).latest_none none_]
  rfl

theorem Mounted.survey_some (m : Mounted a st) {p : List Byte} (l : Latest a .survey sector block h)
    (content : mountedContent a sector block h = .survey (decodeSurvey p)) : latestSurvey st = some (decodeSurvey p) := by
  obtain ⟨e, latest, same⟩ := m.latest_some l
  unfold latestSurvey
  rw [latest]
  dsimp only
  rw [same, content]

theorem Mounted.survey_none (m : Mounted a st)
    (none_ : ∀ sector block h, Found a sector block h → h.kind = .survey → h.live = false) : latestSurvey st = none := by
  unfold latestSurvey
  rw [m.latest_none none_]

end

/-! ### The mount over records -/

section
variable {s : State} {a : Memory} (h : s.store = { array := a }) {sector block : Nat} {k : Header}
  (f : Found a sector block k)
include h f

theorem mountTriggered_mounted : Mounted a (mountTriggered s).store := by
  have same := mountTriggered_entries (s := s)
  rw [mountNumbered_known h f] at same
  exact (mountKnown_mounted a).moved same (mountTriggered_keeps h f)

/-- The content of a record found, as the store gives it after the mount. -/
theorem mounted_content (sector block : Nat) (d : Header) :
    contentOf (mountComplete s).store (mountEntry sector (d, block)) = mountedContent a sector block d :=
  content_at ((mountComplete_keeps h f).queue.trans (mountKnown_idle a).queue) (mountComplete_keeps h f).array (.refl _)

theorem mounted_lockMark : (mountComplete s).store.lockMark = markFound (mountStore a) :=
  (mountComplete_keeps h f).lockMark

theorem mounted_mode : (mountComplete s).store.mode = modeFound (mountStore a) := (mountComplete_keeps h f).mode

end

end Sys2Proof.Machine
end

