-- ==== Sys2Proof/Proofs/MountNotices.lean ====
section
/-!
PROOFS. The survey and the site table after a mount over records, and the notices of the mount (R57, R137).
-/

namespace Sys2Proof.Machine

/-! ### The sites of a SURVEY record -/

section
variable {s u : State}

theorem restoreSites_site (rs : List SiteRecord) {site : Nat} (inside : site < 4) :
    (restoreSites u rs).getD site {} = restoreSite u (rs.getD site ⟨{}, []⟩) := by
  unfold restoreSites
  rw [List.getD_eq_getElem _ _ (by rw [List.length_map, List.length_range]; exact inside), List.getElem_map,
    List.getElem_range]

theorem restoreSite_member (r : SiteRecord) {role : Nat} (inside : role < 8) :
    (restoreSite u r).members.getD role none = (r.members.getD role none).bind (restoreMember u role) := by
  unfold restoreSite
  dsimp only
  rw [List.getD_eq_getElem _ _ (by rw [List.length_map, List.length_range]; exact inside), List.getElem_map,
    List.getElem_range]

/-- A restored position (R46, R57). -/
theorem restoreMember_eq (roster : u.roster = s.roster) (role slot serial : Nat) :
    restoreMember u role (slot, serial) =
      if slotReady s slot then
        if (entryOf s slot).identity.map (fun i => (i.serial, i.kind)) =
            some (serial, if role < 4 then .voltage else .current) then
          some ⟨slot, serial, true⟩
        else none
      else some ⟨slot, serial, false⟩ := by
  have entry : entryOf u slot = entryOf s slot := by rw [entryOf, entryOf, roster]
  unfold restoreMember
  rw [slotReady, entry]
  refine if_congr (Iff.of_eq rfl) ?_ rfl
  cases (entryOf s slot).identity with
  | none => exact (if_neg nofun).symm
  | some i =>
    refine if_congr ?_ rfl rfl
    rw [Option.map_some, Option.some.injEq, Prod.mk.injEq, roleKind]

theorem restoreMember_bind (roster : u.roster = s.roster) (role : Nat) (o : Option (Nat × Nat)) :
    o.bind (restoreMember u role) =
      match o with
      | none => none
      | some (slot, serial) =>
        if slotReady s slot then
          if (entryOf s slot).identity.map (fun i => (i.serial, i.kind)) =
              some (serial, if role < 4 then .voltage else .current) then
            some ⟨slot, serial, true⟩
          else none
        else some ⟨slot, serial, false⟩ := by
  cases o with
  | none => rfl
  | some m => exact restoreMember_eq roster role m.1 m.2

/-! ### The positions that a restoration clears -/

theorem countP_split {α : Type} (p q : α → Bool) (within : ∀ x, q x = true → p x = true) (xs : List α) :
    xs.countP p = xs.countP q + xs.countP fun x => p x && !q x := by
  induction xs with
  | nil => rfl
  | cons x xs ih =>
    rw [List.countP_cons, List.countP_cons, List.countP_cons, ih]
    have sub := within x
    cases hp : p x <;> cases hq : q x <;> simp_all <;> omega

theorem foldl_assigned {α : Type} (xs : List (Option α)) : ∀ n : Nat,
    xs.foldl (fun n o => if o.isSome then n + 1 else n) n = n + xs.countP (·.isSome) := by
  induction xs with
  | nil => exact fun _ => rfl
  | cons x xs ih =>
    intro n
    rw [List.foldl_cons, ih, List.countP_cons]
    cases x with
    | none => rfl
    | some _ =>
      change n + 1 + xs.countP (·.isSome) = n + (xs.countP (·.isSome) + 1)
      omega

/-- The members of a site record. -/
theorem decodeSite_members (p : List Byte) : (decodeSite p).members.length = 8 := by
  unfold decodeSite
  rw [List.length_map, List.length_range]

/-- A record's assigned positions, and those that a restoration keeps. -/
theorem restoreSite_counts (r : SiteRecord) (eight : r.members.length = 8) :
    (r.members.filter Option.isSome).length = (restoreSite u r).members.foldl (fun n o => if o.isSome then n + 1 else n) 0 +
      (List.range 8).countP fun role => (r.members.getD role none).isSome &&
        ((restoreSite u r).members.getD role none).isNone := by
  have all : r.members.countP (·.isSome) = (List.range 8).countP fun role => (r.members.getD role none).isSome := by
    have same := map_eq_range (fun o : Option (Nat × Nat) => o.isSome) none eight
    have counts := congrArg (List.countP id) same
    rw [List.countP_map, List.countP_map] at counts
    exact counts
  have kept : (restoreSite u r).members.countP (·.isSome) =
      (List.range 8).countP fun role => ((r.members.getD role none).bind (restoreMember u role)).isSome := by
    unfold restoreSite
    dsimp only
    rw [List.countP_map]
    rfl
  rw [foldl_assigned, Nat.zero_add, kept, ← List.countP_eq_length_filter, all]
  refine (countP_split (fun role => (r.members.getD role none).isSome)
    (fun role => ((r.members.getD role none).bind (restoreMember u role)).isSome) (fun role some_ => ?_) _).trans
    (congrArg (List.countP _ _ + ·) (List.countP_congr fun role mem => ?_))
  · obtain ⟨x, at_⟩ := Option.isSome_iff_exists.1 some_
    obtain ⟨m, same, _⟩ := Option.bind_eq_some_iff.1 at_
    rw [same]
    rfl
  · rw [restoreSite_member r (List.mem_range.1 mem), Option.not_isSome]

/-- R57: the count of positions that the restoration has cleared. -/
theorem clearedCount_eq (p : List Byte) (sites : List Site) (rs : sites = restoreSites u (decodeSurvey p).sites) :
    clearedCount (decodeSurvey p).sites sites =
      allPositions.countP fun x => (((decodeSurvey p).sites.getD x.1 ⟨{}, []⟩).members.getD x.2 none).isSome &&
        ((sites.getD x.1 {}).members.getD x.2 none).isNone := by
  have four : (decodeSurvey p).sites.length = 4 := by
    unfold decodeSurvey
    rw [List.length_map, List.length_range]
  have eight : ∀ site, site < 4 → ((decodeSurvey p).sites.getD site ⟨{}, []⟩).members.length = 8 := fun site inside => by
    rw [List.getD_eq_getElem _ _ (by rw [four]; exact inside)]
    unfold decodeSurvey
    dsimp only
    rw [List.getElem_map]
    exact decodeSite_members _
  have positions : (allPositions.countP fun x => (((decodeSurvey p).sites.getD x.1 ⟨{}, []⟩).members.getD x.2 none).isSome &&
        ((sites.getD x.1 {}).members.getD x.2 none).isNone) =
      ((List.range 4).map fun site => (List.range 8).countP fun role =>
        (((decodeSurvey p).sites.getD site ⟨{}, []⟩).members.getD role none).isSome &&
          ((restoreSite u ((decodeSurvey p).sites.getD site ⟨{}, []⟩)).members.getD role none).isNone).sum := by
    unfold allPositions
    rw [List.countP_flatMap]
    refine congrArg List.sum (List.map_congr_left fun site mem => ?_)
    rw [Function.comp_apply, List.countP_map, rs, ← restoreSites_site _ (List.mem_range.1 mem)]
    rfl
  have record : (((decodeSurvey p).sites.map fun r => (r.members.filter Option.isSome).length)).sum =
      ((List.range 4).map fun site => (restoreSite u ((decodeSurvey p).sites.getD site ⟨{}, []⟩)).members.foldl
          (fun n o => if o.isSome then n + 1 else n) 0 +
        (List.range 8).countP fun role => (((decodeSurvey p).sites.getD site ⟨{}, []⟩).members.getD role none).isSome &&
          ((restoreSite u ((decodeSurvey p).sites.getD site ⟨{}, []⟩)).members.getD role none).isNone).sum := by
    rw [map_eq_range _ ⟨{}, []⟩ four]
    exact congrArg List.sum (List.map_congr_left fun site mem => restoreSite_counts _ (eight site (List.mem_range.1 mem)))
  have after : (sites.map fun e => e.members.foldl (fun n (o : Option Member) => if o.isSome then n + 1 else n) 0).sum =
      ((List.range 4).map fun site => (restoreSite u ((decodeSurvey p).sites.getD site ⟨{}, []⟩)).members.foldl
          (fun n o => if o.isSome then n + 1 else n) 0).sum := by
    rw [rs]
    unfold restoreSites
    rw [List.map_map]
    rfl
  unfold clearedCount
  dsimp only
  rw [record, after, positions, List.sum_map_add, Nat.add_sub_cancel_left]

end

/-! ### The notices of the mount -/

theorem enterStore_posts (new : StoreState) (s : State) : PostsAtMost 1 s (enterStore new s) := by
  unfold enterStore
  exact (PostsAtMost.of_link (t := setStore (fun st => { st with state := new }) s) rfl).trans (postWhen_postsAtMost _ _ _)

theorem mountTrigger_posts (s : State) : PostsAtMost 1 s (mountTrigger s) := by
  unfold mountTrigger
  split
  · cases h : reclaimChoice s.store with
    | some sector =>
      rw [chooseReclaim_some h]
      exact (PostsAtMost.of_link (t := setStore (Store.chooseSector sector) s) rfl).trans (enterStore_posts _ _)
    | none =>
      rw [chooseReclaim_none h]
      exact enterStore_posts _ _
  · exact enterStore_posts _ _

theorem restored_rest (s : State) : (restored s).1.link = s.link ∧ (restored s).1.clock = s.clock ∧
    (restored s).1.bus = s.bus := by
  unfold restored
  split <;> exact ⟨rfl, rfl, rfl⟩

theorem restored_link (s : State) : (restored s).1.link = s.link := (restored_rest s).1

theorem refreshRotations_posts (s : State) : PostsAtMost 4 s (refreshRotations s) :=
  PostsAtMost.foldl refreshRotation refreshRotation_postsAtMost (List.range 4) s

theorem restoreSurvey_posts (s : State) : PostsAtMost 5 s (restoreSurvey s) := by
  rw [restoreSurvey_eq]
  exact ((PostsAtMost.of_link (restored_link s)).trans (refreshRotations_posts _)).trans (post_postsAtMost _ _)

section
variable {s : State} {a : Memory} (h : s.store = { array := a }) {sector block : Nat} {k : Header}
  (f : Found a sector block k)
include h f

/-- What the trigger finds of the other blocks. -/
theorem linked_rest : (linkNotes (mountNumbered s)).link = s.link ∧ (linkNotes (mountNumbered s)).clock = s.clock ∧
    (linkNotes (mountNumbered s)).roster = s.roster ∧ (linkNotes (mountNumbered s)).bus = s.bus ∧
    (linkNotes (mountNumbered s)).store.state = .mounting ∧ (linkNotes (mountNumbered s)).store.queue = [] := by
  obtain ⟨dir, same⟩ := linked_store h f
  have idle := mountKnown_idle a
  rw [same]
  exact ⟨rfl, rfl, rfl, rfl, idle.state, idle.queue⟩

theorem mountTriggered_rest : (mountTriggered s).clock = s.clock ∧ (mountTriggered s).roster = s.roster ∧
    (mountTriggered s).bus = s.bus := by
  obtain ⟨_, clock, roster, bus, _, _⟩ := linked_rest h f
  have moves := mountTrigger_moves (P := only [.store]) (linkNotes (mountNumbered s)) (by decide)
  exact ⟨(moves.clock_eq (by decide)).trans clock, (moves.roster_eq (by decide)).trans roster,
    (moves.bus_eq (by decide)).trans bus⟩

theorem mountTriggered_posts : PostsAtMost 1 s (mountTriggered s) :=
  (PostsAtMost.of_link (linked_rest h f).1).trans (mountTrigger_posts _)

/-- R137: the STORE_STATE of a mount that leaves two erased sectors. -/
theorem mounted_storeState (sends : Sends s.link) (room : s.link.notices.length ≤ 26) (mask : s.link.mask.getLsbD 9 = true)
    (enough : 2 ≤ (List.range 64).countP fun sector => (walkOf a sector).used == 0) :
    ⟨.storeState .ready .mounting ((List.range 64).countP fun sector => (walkOf a sector).used == 0) none 0, s.clock.time⟩ ∈
      (mountComplete s).link.notices := by
  obtain ⟨link, clock, _, _, state, queue⟩ := linked_rest h f
  have erased := linked_erased h f
  rw [erasedSectors_length] at erased
  have told : (mountTriggered s).link.notices = s.link.notices ++
      [⟨.storeState .ready .mounting ((List.range 64).countP fun sector => (walkOf a sector).used == 0) none 0,
        s.clock.time⟩] := by
    have moves : StoreState.ready ≠ (linkNotes (mountNumbered s)).store.state := by rw [state]; exact nofun
    rw [(mounted_ready h f enough).1, enterStore_link moves nofun, state, queue, erased,
      post_mem (by rw [link]; exact sends) (by rw [link]; exact mask) (by rw [link]; omega), link, clock]
    rfl
  obtain ⟨appended, _⟩ := mountTriggered_posts h f sends
  obtain ⟨further, _⟩ := restoreSurvey_posts (mountTriggered s) (appended.sends sends)
  rw [(mountComplete_rest (mounting_found h)).2.2]
  refine further.notices.subset ?_
  rw [told]
  exact List.mem_append_right _ (List.mem_singleton_self _)

/-- R57: SURVEY_STATE at the end of a mount. -/
theorem mounted_surveyState (sends : Sends s.link) (room : s.link.notices.length ≤ 26) (mask : s.link.mask.getLsbD 5 = true) :
    ⟨.surveyState (restored (mountTriggered s)).1.survey.number
        ((restored (mountTriggered s)).1.survey.state.getD .setup) none (restored (mountTriggered s)).1.survey.cause
        s.bus.frame s.clock.time (some (restored (mountTriggered s)).2), s.clock.time⟩ ∈
      (mountComplete s).link.notices := by
  obtain ⟨clock, _, bus⟩ := mountTriggered_rest h f
  obtain ⟨appended, length⟩ := ((mountTriggered_posts h f).trans
    ((PostsAtMost.of_link (restored_link _)).trans (refreshRotations_posts _))) sends
  have rotated := refreshRotations_only (restored (mountTriggered s)).1
  obtain ⟨_, clockR, busR⟩ := restored_rest (mountTriggered s)
  have clockV := ((rotated.clock_eq (by decide)).trans clockR).trans clock
  have busV := ((rotated.bus_eq (by decide)).trans busR).trans bus
  have surveyV := rotated.survey_eq (by decide)
  rw [(mountComplete_rest (mounting_found h)).2.2, restoreSurvey_eq,
    post_mem (appended.sends sends) (by rw [appended.mask]; exact mask) (by omega), clockV, busV, surveyV]
  exact List.mem_append_right _ (List.mem_singleton_self _)

/-! ### The survey after the mount -/

/-- R57: the survey and the site table that the latest SURVEY record gives. -/
theorem mounted_survey {sector block : Nat} {d : Header} (l : Latest a .survey sector block d) : ∃ p,
    mountedContent a sector block d = .survey (decodeSurvey p) ∧ (mountComplete s).store.mode = (decodeSurvey p).mode ∧
      latestSurvey (mountTriggered s).store = some (decodeSurvey p) := by
  obtain ⟨p, content⟩ := content_survey (a := a) (sector := sector) (block := block) l.2.1
  refine ⟨p, content, ?_, (mountTriggered_mounted h f).survey_some l content⟩
  rw [mounted_mode h f, modeFound, (mountStore_mounted a).survey_some l content]

theorem mounted_noSurvey (none_ : ∀ sector block d, Found a sector block d → d.kind = .survey → d.live = false) :
    (mountComplete s).store.mode = .overwrite ∧ latestSurvey (mountTriggered s).store = none := by
  refine ⟨?_, (mountTriggered_mounted h f).survey_none none_⟩
  rw [mounted_mode h f, modeFound, (mountStore_mounted a).survey_none none_]

end

end Sys2Proof.Machine
end

