-- ==== Sys2Proof/Proofs/MountLinks.lean ====
section
/-!
PROOFS. The links that a mount gives the notes (R139): what one note sets, and what the run over all of them leaves.
-/

namespace Sys2Proof.Machine

/-! ### What one note sets -/

/-- The links of entry `e` when the note of entry `x` has been linked. -/
def linkStep (st : Store) (e : Entry) (l : Links) (x : Entry) : Links :=
  match noteContent st x with
  | some r =>
    let l := if e.isFor .note x.id then { mountLinks st r with amendedBy := l.amendedBy } else l
    if r.amends.any (e.isFor .note) then { l with amendedBy := some x.id } else l
  | none => l

theorem linkStep_some {st : Store} {x : Entry} {r : NoteRecord} (content : noteContent st x = some r) (e : Entry) (l : Links) :
    linkStep st e l x =
      if r.amends.any (e.isFor .note) then
        { (if e.isFor .note x.id then { mountLinks st r with amendedBy := l.amendedBy } else l) with
          amendedBy := some x.id }
      else if e.isFor .note x.id then { mountLinks st r with amendedBy := l.amendedBy } else l := by
  unfold linkStep
  rw [content]

theorem linkStep_none {st : Store} {x : Entry} (content : noteContent st x = none) (e : Entry) (l : Links) :
    linkStep st e l x = l := by
  unfold linkStep
  rw [content]

/-- The directory whose entries have the links `f`. -/
def withLinks (f : Entry → Links) (st : Store) : Store := { st with dir := st.dir.map fun e => { e with links := f e } }

/-! ### What the links leave of the store -/

/-- Two stores between which a mount's links make no difference. -/
structure LinkAlike (st u : Store) : Prop where
  queue : u.queue = st.queue
  array : u.array = st.array
  dir : ∃ f : Entry → Links, u.dir = st.dir.map fun e => { e with links := f e }

theorem withLinks_alike (f : Entry → Links) (st : Store) : LinkAlike st (withLinks f st) := ⟨rfl, rfl, f, rfl⟩

section
variable {st u : Store} (h : LinkAlike st u)
include h

theorem LinkAlike.content (x : Entry) : noteContent u x = noteContent st x := by
  unfold noteContent contentOf entryBytes
  rw [h.queue, h.array]

theorem LinkAlike.live (kind : RecordKind) (id : Nat) : isLive u kind id = isLive st kind id := by
  obtain ⟨f, dir⟩ := h.dir
  have found : findEntry u kind id = (findEntry st kind id).map fun e => { e with links := f e } := by
    unfold findEntry
    rw [dir, List.find?_map]
    rfl
  unfold isLive
  rw [found]
  cases findEntry st kind id <;> rfl

theorem LinkAlike.links (r : NoteRecord) : mountLinks u r = mountLinks st r := by
  have same : isLive u = isLive st := funext fun kind => funext fun id => h.live kind id
  unfold mountLinks
  rw [same]

theorem LinkAlike.step (e : Entry) (l : Links) (x : Entry) : linkStep u e l x = linkStep st e l x := by
  unfold linkStep
  rw [h.content x]
  cases noteContent st x with
  | none => rfl
  | some r =>
    dsimp only
    rw [h.links r]

end

/-! ### The run over the notes -/

theorem withLinks_withLinks (g f : Entry → Links) (st : Store) :
    withLinks g (withLinks f st) = withLinks (fun e => g { e with links := f e }) st :=
  congrArg (fun dir => { st with dir := dir }) List.map_map

theorem withLinks_same (st : Store) : withLinks (fun e => e.links) st = st :=
  congrArg (fun dir => { st with dir := dir }) (List.map_id st.dir)

theorem setLinks_relinks (f : Links → Links) (id : Nat) (s : State) :
    (setLinks f id s).store = withLinks (fun e => if e.isFor .note id then f e.links else e.links) s.store := by
  refine congrArg (fun dir => { s.store with dir := dir }) (List.map_congr_left fun e _ => ?_)
  dsimp only
  split <;> rfl

theorem linkNote_relinks (s : State) (x : Entry) :
    (linkNote s x).store = withLinks (fun e => linkStep s.store e e.links x) s.store := by
  unfold linkNote
  cases content : noteContent s.store x with
  | none =>
    have same : (fun e : Entry => linkStep s.store e e.links x) = fun e => e.links := funext fun e => linkStep_none content e _
    rw [same, withLinks_same]
  | some r =>
    dsimp only
    have step : (fun e : Entry => linkStep s.store e e.links x) = fun e =>
        if r.amends.any (e.isFor .note) then
          { (if e.isFor .note x.id then { mountLinks s.store r with amendedBy := e.links.amendedBy } else e.links) with
            amendedBy := some x.id }
        else if e.isFor .note x.id then { mountLinks s.store r with amendedBy := e.links.amendedBy } else e.links :=
      funext fun e => linkStep_some content e _
    rw [step]
    cases amends : r.amends with
    | none => exact setLinks_relinks _ _ _
    | some a => rw [setLinks_relinks, setLinks_relinks, withLinks_withLinks]; rfl

theorem linkFold_relinks (xs : List Entry) : ∀ s : State,
    (xs.foldl linkNote s).store = withLinks (fun e => xs.foldl (linkStep s.store e) e.links) s.store := by
  induction xs with
  | nil => exact fun s => (withLinks_same s.store).symm
  | cons x xs ih =>
    intro s
    rw [List.foldl_cons, ih, linkNote_relinks, withLinks_withLinks]
    have alike := withLinks_alike (fun e => linkStep s.store e e.links x) s.store
    refine congrArg (withLinks · s.store) (funext fun e => ?_)
    have steps : linkStep (withLinks (fun e => linkStep s.store e e.links x) s.store)
        { e with links := linkStep s.store e e.links x } = linkStep s.store e :=
      funext fun l => funext fun y => alike.step _ l y
    exact congrArg (fun step => xs.foldl step (linkStep s.store e e.links x)) steps

/-! ### The links of one note -/

/-- The links that a note's own record gives it. -/
structure OwnLinks (want l : Links) : Prop where
  attach : l.attach = want.attach
  attachLost : l.attachLost = want.attachLost
  amends : l.amends = want.amends
  amendLost : l.amendLost = want.amendLost

section
variable {st : Store} {e : Entry} {r : NoteRecord} {xs : List Entry}
  (content : noteContent st e = some r) (alive : e.isFor .note e.id = true)
  (single : ∀ x ∈ xs, e.isFor .note x.id = true → x = e)

theorem linkStep_other {x : Entry} {l : Links} (other : e.isFor .note x.id ≠ true) : OwnLinks l (linkStep st e l x) := by
  cases at_ : noteContent st x with
  | none =>
    rw [linkStep_none at_]
    exact ⟨rfl, rfl, rfl, rfl⟩
  | some q =>
    rw [linkStep_some at_, if_neg other]
    split <;> exact ⟨rfl, rfl, rfl, rfl⟩

include content alive in
theorem linkStep_own (l : Links) : OwnLinks (mountLinks st r) (linkStep st e l e) := by
  rw [linkStep_some content, if_pos alive]
  split <;> exact ⟨rfl, rfl, rfl, rfl⟩

include content alive single in
/-- R139: a note has the links of its own record. -/
theorem linkFold_own : ∀ l, (e ∈ xs ∨ OwnLinks (mountLinks st r) l) →
    OwnLinks (mountLinks st r) (xs.foldl (linkStep st e) l) := by
  induction xs with
  | nil =>
    rintro l (mem | own)
    · exact absurd mem List.not_mem_nil
    · exact own
  | cons x xs ih =>
    intro l start
    refine ih (fun y mem => single y (List.mem_cons_of_mem _ mem)) _ ?_
    by_cases own : e.isFor .note x.id = true
    · rw [single x List.mem_cons_self own]
      exact .inr (linkStep_own content alive l)
    · obtain ⟨attach, attachLost, amends, amendLost⟩ := linkStep_other (st := st) (l := l) own
      rcases start with mem | had
      · rcases List.mem_cons.1 mem with same | later
        · rw [← same] at own
          exact absurd alive own
        · exact .inl later
      · exact .inr ⟨attach.trans had.attach, attachLost.trans had.attachLost, amends.trans had.amends,
          amendLost.trans had.amendLost⟩

/-- The note of entry `x` amends that of entry `e`. -/
def Amends (st : Store) (e x : Entry) : Prop := ∃ q, noteContent st x = some q ∧ q.amends.any (e.isFor .note) = true

theorem linkStep_amended {x : Entry} {l : Links} (h : Amends st e x) : (linkStep st e l x).amendedBy = some x.id := by
  obtain ⟨q, at_, amends⟩ := h
  rw [linkStep_some at_, if_pos amends]

theorem linkStep_unamended {x : Entry} {l : Links} (h : ¬Amends st e x) : (linkStep st e l x).amendedBy = l.amendedBy := by
  cases at_ : noteContent st x with
  | none => rw [linkStep_none at_]
  | some q =>
    rw [linkStep_some at_, if_neg fun amends => h ⟨q, at_, amends⟩]
    split <;> rfl

/-- R139: a note's amended-by names a note that amends it, and is none only where no note does. -/
theorem linkFold_amendedBy : ∀ l, (∀ id, (xs.foldl (linkStep st e) l).amendedBy = some id →
      l.amendedBy = some id ∨ ∃ x ∈ xs, Amends st e x ∧ x.id = id) ∧
    (l.amendedBy.isSome = true ∨ (∃ x ∈ xs, Amends st e x) → (xs.foldl (linkStep st e) l).amendedBy.isSome = true) := by
  induction xs with
  | nil =>
    refine fun l => ⟨fun id at_ => .inl at_, ?_⟩
    rintro (had | ⟨x, mem, _⟩)
    · exact had
    · exact absurd mem List.not_mem_nil
  | cons x xs ih =>
    intro l
    obtain ⟨names, stays⟩ := ih (linkStep st e l x)
    refine ⟨fun id at_ => ?_, fun start => stays ?_⟩
    · rcases names id at_ with here | ⟨y, mem, amends, same⟩
      · by_cases amends : Amends st e x
        · rw [linkStep_amended amends] at here
          exact .inr ⟨x, List.mem_cons_self, amends, Option.some.inj here⟩
        · rw [linkStep_unamended amends] at here
          exact .inl here
      · exact .inr ⟨y, List.mem_cons_of_mem _ mem, amends, same⟩
    · by_cases amends : Amends st e x
      · rw [linkStep_amended amends]
        exact .inl rfl
      · rcases start with had | ⟨y, mem, amendsY⟩
        · rw [linkStep_unamended amends]
          exact .inl had
        · rcases List.mem_cons.1 mem with rfl | later
          · exact absurd amendsY amends
          · exact .inr ⟨y, later, amendsY⟩

end

end Sys2Proof.Machine
end

