-- ==== Sys2Proof/Proofs/MountNotes.lean ====
section
/-!
PROOFS. The links of the notes after a mount over records (R139), as the store shows them.
-/

namespace Sys2Proof.Machine

/-! ### What is LIVE -/

/-- A LIVE record of the kind and id is found. -/
def LiveRecord (a : Memory) (kind : RecordKind) (id : Nat) : Prop :=
  ∃ sector block h, Found a sector block h ∧ h.kind = kind ∧ h.id = id ∧ h.live = true

section
variable {a : Memory} {st : Store} {kind : RecordKind} {id : Nat}

/-- Of the LIVE records of a kind and id one is no duplicate. -/
theorem LiveRecord.single (l : LiveRecord a kind id) :
    ∃ sector block h, Found a sector block h ∧ h.kind = kind ∧ h.id = id ∧ h.live = true ∧ ¬Duplicate a h := by
  by_contra none_
  have climbs : ∀ n, ∃ sector block h, Found a sector block h ∧ h.kind = kind ∧ h.id = id ∧ h.live = true ∧ n ≤ h.seq := by
    intro n
    induction n with
    | zero =>
      obtain ⟨sector, block, h, f, isKind, isId, live⟩ := l
      exact ⟨sector, block, h, f, isKind, isId, live, Nat.zero_le _⟩
    | succ n ih =>
      obtain ⟨sector, block, h, f, isKind, isId, live, above⟩ := ih
      have dup : Duplicate a h := by
        by_contra single
        exact none_ ⟨sector, block, h, f, isKind, isId, live, single⟩
      obtain ⟨_, sector', block', d, g, liveD, kindD, idD, later⟩ := dup
      exact ⟨sector', block', d, g, kindD.trans isKind, idD.trans isId, liveD, by omega⟩
  obtain ⟨sector, block, h, f, _, _, _, above⟩ := climbs (scanned { array := a }).nextSeq
  exact Nat.lt_irrefl _ ((seq_below (st := { array := a }) f).trans_le above)

theorem standing_state (sector block : Nat) (h : Header) : (standing a sector block h).state = .live ∨
    (standing a sector block h).state = .dead := by
  by_cases alive : h.live = true ∧ ¬Duplicate a h
  · exact .inl (standing_live.2 alive)
  · refine .inr (standing_dead ?_)
    by_contra none_
    obtain ⟨live, single⟩ := not_or.1 none_
    exact alive ⟨by rwa [Bool.not_eq_false] at live, single⟩

theorem Mounted.isLive_iff (m : Mounted a st) : isLive st kind id = true ↔ LiveRecord a kind id := by
  unfold isLive
  constructor
  · intro live
    split at live
    · next e found =>
      obtain ⟨mem, isKind, isId, _⟩ := findEntry_isFor found
      obtain ⟨sector, block, h, f, kept, state⟩ := m.found mem
      obtain ⟨liveH, _⟩ := standing_live.1 (state.symm.trans (beq_iff_eq.1 live))
      exact ⟨sector, block, h, f, kept.kind.symm.trans isKind, kept.id.symm.trans isId, liveH⟩
    · exact absurd live Bool.false_ne_true
  · intro l
    obtain ⟨sector, block, h, f, isKind, isId, live, single⟩ := l.single
    obtain ⟨e, mem, kept, state⟩ := m.entry f
    have alive := state.trans (standing_live.2 ⟨live, single⟩)
    have holds : e.isFor kind id = true :=
      isFor_iff.2 ⟨kept.kind.trans isKind, kept.id.trans isId, by rw [alive]; exact nofun⟩
    split
    · next x found =>
      obtain ⟨memX, _, _, undead⟩ := findEntry_isFor found
      obtain ⟨sector', block', d, _, _, stateX⟩ := m.found memX
      rcases standing_state (a := a) sector' block' d with liveX | deadX
      · exact beq_iff_eq.2 (stateX.trans liveX)
      · exact absurd (stateX.trans deadX) undead
    · next none_ => exact absurd holds (List.find?_eq_none.1 none_ e mem)

theorem Mounted.noteContent (m : Mounted a st) {sector block : Nat} {h : Header} {r : NoteRecord} :
    noteContent st (mountEntry sector (h, block)) = some r ↔ mountedContent a sector block h = .note r := by
  unfold Machine.noteContent
  rw [m.content (.refl _)]
  cases mountedContent a sector block h <;> simp

/-! ### The links of a record -/

section
variable (m : Mounted a st) (r : NoteRecord)
include m

theorem Mounted.attach_iff (x : Attach) : (mountLinks st r).attach = some x ↔ r.attach = some x ∧ LiveRecord a x.kind x.id := by
  unfold mountLinks
  dsimp only
  rw [Option.filter_eq_some_iff, m.isLive_iff]

omit m in
theorem mountLinks_attachLost : (mountLinks st r).attachLost = true ↔
    r.attach.isSome = true ∧ (mountLinks st r).attach = none := by
  unfold mountLinks
  dsimp only
  rw [Bool.and_eq_true, Option.isNone_iff_eq_none]

theorem Mounted.amendLost_iff : (mountLinks st r).amendLost = true ↔
    ∃ id, r.amends = some id ∧ ¬LiveRecord a .note id := by
  unfold mountLinks
  dsimp only
  cases r.amends with
  | none => exact ⟨fun h => absurd h Bool.false_ne_true, fun ⟨_, h, _⟩ => absurd h nofun⟩
  | some x =>
    rw [Option.isSome_some, Bool.true_and, Option.any_some, Bool.not_eq_true', ← Bool.not_eq_true, m.isLive_iff]
    exact ⟨fun h => ⟨x, rfl, h⟩, fun ⟨id, same, h⟩ => by cases same; exact h⟩

end

end

/-! ### The notes as the trigger and the next operation leave them -/

theorem chosenEntry_links (sector : Nat) (e : Entry) : (chosenEntry sector e).links = e.links := by
  unfold chosenEntry
  split <;> rfl

theorem discardedEntry_links (sector : Nat) (e : Entry) : (discardedEntry sector e).links = e.links := by
  unfold discardedEntry
  split <;> rfl

/-- A change of an entry that leaves its links, and its state too where it is a note. -/
structure NoteStill (e e' : Entry) : Prop extends EntryKept e e' where
  links : e'.links = e.links
  still : e.kind = .note → e'.state = e.state

theorem NoteStill.refl (e : Entry) : NoteStill e e := ⟨.refl e, rfl, fun _ => rfl⟩

theorem chosenEntry_still (sector : Nat) (e : Entry) : NoteStill e (chosenEntry sector e) :=
  ⟨(chosenEntry_same sector e).toEntryKept, chosenEntry_links sector e, fun _ => (chosenEntry_same sector e).alive⟩

/-- Notes are retained (R122), so that a reclaim with nothing to copy holds none. -/
theorem chooseSector_notes {st : Store} {sector : Nat} (copies : ∀ r, (st.chooseSector sector).reclaim = some r → r.copies = [])
    {e : Entry} (mem : e ∈ st.dir) (note : e.kind = .note) : (e.state == .live && inSector e sector) = false := by
  have none_ : ((liveIn st sector).filter (isRetained st)).map (fun e => (e.kind, e.id)) = [] := copies _ rfl
  by_contra there
  rw [Bool.not_eq_false] at there
  have live : e ∈ liveIn st sector := List.mem_filter.2 ⟨mem, there⟩
  have kept : isRetained st e = true := by
    unfold isRetained isHeld
    rw [note]
    rfl
  have copied := List.mem_map_of_mem (f := fun e : Entry => (e.kind, e.id)) (List.mem_filter.2 ⟨live, kept⟩)
  rw [none_] at copied
  exact absurd copied List.not_mem_nil

theorem chooseReclaim_still (s : State) (free : s.store.reclaim = none) :
    ∃ g, (chooseReclaim s).store.next.dir = s.store.dir.map g ∧ ∀ e ∈ s.store.dir, NoteStill e (g e) := by
  have same : ∀ dir : List Entry, dir = dir.map id := fun dir => (List.map_id dir).symm
  cases choice : reclaimChoice s.store with
  | none =>
    rw [chooseReclaim_none choice, enterStore_store]
    rcases next_discards { s.store with state := .full } with calm | ⟨r, reclaim, _⟩
    · exact ⟨id, calm.trans (same _), fun e _ => .refl e⟩
    · exact absurd (free.symm.trans reclaim) nofun
  | some sector =>
    rw [chooseReclaim_some choice, enterStore_store]
    have dir : { (setStore (Store.chooseSector sector) s).store with state := StoreState.reclaiming }.dir =
        s.store.dir.map (chosenEntry sector) := rfl
    rcases next_discards { (setStore (Store.chooseSector sector) s).store with state := .reclaiming } with
      calm | ⟨r, reclaim, copies, _, gone⟩
    · exact ⟨chosenEntry sector, calm.trans dir, fun e _ => chosenEntry_still sector e⟩
    · have sector_ : r.sector = sector := by
        have at_ : (s.store.chooseSector sector).reclaim = some r := reclaim
        cases at_
        rfl
      refine ⟨discardedEntry sector ∘ chosenEntry sector, ?_, fun e mem => ?_⟩
      · rw [gone, dir, List.map_map, sector_]
      · have chosen := chosenEntry_still sector e
        have whole := chosen.toEntryKept.trans (discardedEntry_kept sector _)
        refine ⟨whole, (discardedEntry_links sector _).trans chosen.links, fun note => ?_⟩
        have stays := chooseSector_notes (fun q at_ => by cases (reclaim.symm.trans at_ : some r = some q); exact copies) mem note
        have untouched : chosenEntry sector e = e := if_neg (by rw [stays]; exact Bool.false_ne_true)
        have left_ : discardedEntry sector e = e := if_neg (by rw [stays]; exact Bool.false_ne_true)
        rw [Function.comp_apply, untouched, left_]

section
variable {s : State} {a : Memory} (h : s.store = { array := a }) {sector block : Nat} {k : Header}
  (f : Found a sector block k)
include h f

theorem mounted_still : ∃ g, (mountComplete s).store.dir = (linkNotes (mountNumbered s)).store.dir.map g ∧
    ∀ e ∈ (linkNotes (mountNumbered s)).store.dir, NoteStill e (g e) := by
  obtain ⟨dir, same⟩ := linked_store h f
  have idle := mountKnown_idle a
  rw [mountComplete_next h]
  by_cases few : (erasedSectors (linkNotes (mountNumbered s)).store).length < 2
  · have taken : mountTriggered s = chooseReclaim (linkNotes (mountNumbered s)) := if_pos few
    have free : (linkNotes (mountNumbered s)).store.reclaim = none := by
      rw [same]
      exact idle.reclaim
    rw [taken]
    exact chooseReclaim_still _ free
  · have taken : mountTriggered s = enterStore .ready (linkNotes (mountNumbered s)) := if_neg few
    have store : (mountTriggered s).store = { mountKnown a with dir := dir, state := .ready } := by
      rw [taken, enterStore_store, same]
      rfl
    have linked : (linkNotes (mountNumbered s)).store.dir = dir := by
      rw [same]
      rfl
    rw [store, next_idle (st := { mountKnown a with dir := dir, state := .ready }) rfl idle.queue idle.marks idle.owed, linked]
    exact ⟨id, (List.map_id _).symm, fun e _ => .refl e⟩

/-! ### The notes -/

/-- The entries of the LIVE notes found. -/
def liveNotes (a : Memory) : List Entry := (mountKnown a).dir.filter fun e => e.kind == .note && e.state == .live

/-- An entry with the links that the mount gives it. -/
def linkedOf (a : Memory) (e : Entry) : Entry :=
  { e with links := (liveNotes a).foldl (linkStep (mountKnown a) e) e.links }

omit h f in
theorem mem_liveNotes {x : Entry} : x ∈ liveNotes a ↔ ∃ sector block d, Found a sector block d ∧ d.kind = .note ∧
    d.live = true ∧ ¬Duplicate a d ∧ x = mountEntry sector (d, block) := by
  unfold liveNotes
  rw [mem_liveOf, mountKnown_dir, mem_mountScan]
  constructor
  · rintro ⟨⟨sector, block, d, g, rfl⟩, note, live⟩
    obtain ⟨alive, single⟩ := standing_live.1 live
    exact ⟨sector, block, d, g, standing_kept.kind.symm.trans note, alive, single, standing_alive single⟩
  · rintro ⟨sector, block, d, g, note, alive, single, rfl⟩
    exact ⟨⟨sector, block, d, g, (standing_alive single).symm⟩, note, mountEntry_live.2 alive⟩

theorem linked_dir : (linkNotes (mountNumbered s)).store.dir = (mountScan a).dir.map (linkedOf a) := by
  have known := mountNumbered_known h f
  have run : linkNotes (mountNumbered s) = (liveNotes a).foldl linkNote (mountNumbered s) := by
    unfold linkNotes liveNotes
    rw [known]
  rw [run, linkFold_relinks, known, ← mountKnown_dir]
  rfl

end

/-- R139: a LIVE note found, whose id no other LIVE note has with a sequence as high. -/
structure LinkedNote (a : Memory) (sector block : Nat) (d : Header) (r : NoteRecord) : Prop where
  found : Found a sector block d
  kind : d.kind = .note
  live : d.live = true
  content : mountedContent a sector block d = .note r
  first : ∀ sector' block' d', Found a sector' block' d' → d'.kind = .note → d'.live = true → d'.id = d.id →
    (sector', block') ≠ (sector, block) → d'.seq < d.seq

section
variable {a : Memory} {sector block : Nat} {d : Header} {r : NoteRecord} (n : LinkedNote a sector block d r)
include n

theorem LinkedNote.single : ¬Duplicate a d := by
  rintro ⟨_, sector', block', d', g, liveD, kindD, idD, later⟩
  by_cases same : (sector', block') = (sector, block)
  · cases same
    cases n.found.unique g
    exact Nat.lt_irrefl _ later
  · exact Nat.lt_asymm later (n.first sector' block' d' g (kindD.trans n.kind) liveD idD same)

/-- Of the LIVE notes that stand it alone has its id. -/
theorem LinkedNote.alone {sector' block' : Nat} {d' : Header} (g : Found a sector' block' d') (kind : d'.kind = .note)
    (live : d'.live = true) (single : ¬Duplicate a d') (id : d'.id = d.id) : sector' = sector ∧ block' = block ∧ d' = d := by
  by_cases same : (sector', block') = (sector, block)
  · cases same
    exact ⟨rfl, rfl, g.unique n.found⟩
  · have below := n.first sector' block' d' g kind live id same
    exact absurd ⟨live, sector, block, d, n.found, n.live, n.kind.trans kind.symm, id.symm, below⟩ single

theorem LinkedNote.isFor_own : (mountEntry sector (d, block)).isFor .note d.id = true :=
  isFor_iff.2 ⟨n.kind, rfl, by rw [mountEntry_live.2 n.live]; exact nofun⟩

theorem LinkedNote.amends_iff (x : Entry) : Amends (mountKnown a) (mountEntry sector (d, block)) x ↔
    ∃ q, noteContent (mountKnown a) x = some q ∧ q.amends = some d.id := by
  refine exists_congr fun q => and_congr_right fun _ => ?_
  cases q.amends with
  | none => exact ⟨fun h => absurd h Bool.false_ne_true, fun h => absurd h nofun⟩
  | some y =>
    rw [Option.any_some, Option.some.injEq]
    constructor
    · intro own
      exact (isFor_iff.1 own).2.1.symm
    · rintro rfl
      exact n.isFor_own

/-- The links that the mount gives it. -/
theorem LinkedNote.links :
    OwnLinks (mountLinks (mountKnown a) r) ((liveNotes a).foldl (linkStep (mountKnown a) (mountEntry sector (d, block))) {}) := by
  refine linkFold_own ((mountKnown_mounted a).noteContent.2 n.content) n.isFor_own (fun x mem own => ?_) {} (.inl ?_)
  · obtain ⟨sector', block', d', g, kind, live, single, rfl⟩ := mem_liveNotes.1 mem
    obtain ⟨_, id, _⟩ := isFor_iff.1 own
    obtain ⟨rfl, rfl, rfl⟩ := n.alone g kind live single id.symm
    rfl
  · exact mem_liveNotes.2 ⟨sector, block, d, n.found, n.kind, n.live, n.single, rfl⟩

/-- The notes that amend it. -/
theorem LinkedNote.amendedBy :
    let l := (liveNotes a).foldl (linkStep (mountKnown a) (mountEntry sector (d, block))) {}
    let by_ := fun id => ∃ sector' block' d' r', (Found a sector' block' d' ∧ d'.kind = .note ∧ d'.live = true ∧
      mountedContent a sector' block' d' = .note r') ∧ ¬Duplicate a d' ∧ d'.id = id ∧ r'.amends = some d.id
    (∀ id, l.amendedBy = some id → by_ id) ∧ ((∃ id, by_ id) → l.amendedBy.isSome = true) := by
  obtain ⟨names, stays⟩ := linkFold_amendedBy (st := mountKnown a) (e := mountEntry sector (d, block)) (xs := liveNotes a) {}
  refine ⟨fun id at_ => ?_, ?_⟩
  · rcases names id at_ with none_ | ⟨x, mem, amends, same⟩
    · exact absurd none_ nofun
    · obtain ⟨sector', block', d', g, kind, live, single, rfl⟩ := mem_liveNotes.1 mem
      obtain ⟨q, content, target⟩ := (n.amends_iff _).1 amends
      exact ⟨sector', block', d', q, ⟨g, kind, live, (mountKnown_mounted a).noteContent.1 content⟩, single, same, target⟩
  · rintro ⟨id, sector', block', d', q, ⟨g, kind, live, content⟩, single, _, target⟩
    exact stays (.inr ⟨_, mem_liveNotes.2 ⟨sector', block', d', g, kind, live, single, rfl⟩,
      (n.amends_iff _).2 ⟨q, (mountKnown_mounted a).noteContent.2 content, target⟩⟩)

variable {s : State} (h : s.store = { array := a })
include h

/-- The entry that the store finds of it. -/
theorem LinkedNote.entry : ∃ e, findEntry (mountComplete s).store .note d.id = some e ∧ e.loc = some (sector, block) ∧
    e.links = (liveNotes a).foldl (linkStep (mountKnown a) (mountEntry sector (d, block))) {} := by
  obtain ⟨g, dir, still⟩ := mounted_still h n.found
  rw [linked_dir h n.found] at dir still
  have stands := standing_alive (sector := sector) (block := block) n.single
  have mem : mountEntry sector (d, block) ∈ (mountScan a).dir := mem_mountScan.2 ⟨sector, block, d, n.found, stands.symm⟩
  have memL := List.mem_map_of_mem (f := linkedOf a) mem
  have kept := still _ memL
  have alive := kept.still n.kind
  have memT : g (linkedOf a (mountEntry sector (d, block))) ∈ (mountComplete s).store.dir := by
    rw [dir]
    exact List.mem_map_of_mem memL
  refine ⟨_, find?_unique (p := fun e : Entry => e.isFor .note d.id) memT ?_ ?_, kept.loc, kept.links⟩
  · refine isFor_iff.2 ⟨kept.kind.trans n.kind, kept.id, ?_⟩
    rw [alive]
    exact (isFor_iff.1 n.isFor_own).2.2
  · intro x memX own
    rw [dir] at memX
    obtain ⟨y, memY, rfl⟩ := List.mem_map.1 memX
    obtain ⟨z, memZ, rfl⟩ := List.mem_map.1 memY
    obtain ⟨sector', block', d', f', rfl⟩ := mem_mountScan.1 memZ
    have keptY := still _ memY
    obtain ⟨kind, id, undead⟩ := isFor_iff.1 own
    have isNote : d'.kind = .note :=
      (standing_kept (a := a) (sector := sector') (block := block') (h := d')).kind.symm.trans (keptY.kind.symm.trans kind)
    have isId : d'.id = d.id :=
      (standing_kept (a := a) (sector := sector') (block := block') (h := d')).id.symm.trans (keptY.id.symm.trans id)
    rcases standing_state (a := a) sector' block' d' with live | dead
    · obtain ⟨liveD, single⟩ := standing_live.1 live
      obtain ⟨rfl, rfl, rfl⟩ := n.alone f' isNote liveD single isId
      rw [stands]
    · rcases keptY.state with same | gone
      · exact absurd (same.trans dead) undead
      · exact absurd gone undead

end

end Sys2Proof.Machine
end

