-- ==== Sys2Proof/Proofs/MountAndWipe.lean ====
section
/-!
PROOFS. MOUNT_COMPLETE and WIPE_COMPLETE (R57, R130, R131, R136, R139): O53.
-/

namespace Sys2Proof.Machine

/-! ### The clauses over an array of records -/

section
variable {s : State} {a : Memory} (h : s.store = { array := a }) {sector block : Nat} {k : Header}
  (f : Found a sector block k)
include h f

/-- R120, R131: the extension step. -/
theorem mounted_step {sector block : Nat} {d : Header} (g : Found a sector block d) (clear : d.ext ≠ 0)
    (latest : ∀ sector' block' d', Found a sector' block' d' → d'.ext ≠ 0 → (sector', block') ≠ (sector, block) →
      d'.seq < d.seq) :
    (mountComplete s).store.extSector = some sector ∧
      (∃ k, d.ext.testBit k = true ∧ (∀ j, j < k → d.ext.testBit j = false) ∧
        extensionField (mountComplete s).store (sector, block) = d.ext - 2 ^ k) ∧
      ∀ sector' block' d', Found a sector' block' d' → (sector', block') ≠ (sector, block) →
        extensionField (mountComplete s).store (sector', block') = d'.ext := by
  have keeps := mountComplete_keeps h f
  have fields : extensionField (mountComplete s).store = extensionField (mountStore a) :=
    funext fun loc => congrArg (fieldAt · loc) keeps.array
  rw [keeps.extSector, fields]
  exact mountStore_step g clear latest

/-- R131: the limits and the next ids. -/
theorem mounted_numbers (kind : RecordKind) : ∃ limit id,
    (∀ sector block d, Found a sector block d →
      d.limits.get kind + 1024 * stepsSet d.ext ≤ limit ∧ (d.kind = kind → d.id ≤ id)) ∧
    (∃ sector block d, Found a sector block d ∧ d.limits.get kind + 1024 * stepsSet d.ext = limit) ∧
    (id = 0 ∨ ∃ sector block d, Found a sector block d ∧ d.kind = kind ∧ d.id = id) ∧
    (mountComplete s).store.nextIds.get kind = Nat.max limit id + 1 ∧
    ((∃ sector block d, Found a sector block d ∧ d.ext ≠ 0) →
      (mountComplete s).store.limits.get kind = limit + 1024) ∧
    ((∀ sector block d, Found a sector block d → d.ext = 0) →
      (mountComplete s).store.limits.get kind = limit) := by
  have limits : (mountComplete s).store.limits = (mountStore a).limits := (mountComplete_keeps h f).limits
  rw [limits]
  exact ⟨_, _, fun sector block d g => ⟨limits_above (st := { array := a }) kind g,
    fun isKind => ids_above (st := { array := a }) kind g isKind⟩,
    limits_reached (st := { array := a }) kind f, ids_reached (st := { array := a }) kind, mounted_nextIds h f kind,
    (mountStore_limits kind).1, (mountStore_limits kind).2⟩

omit f in
/-- R139: the links of a note. -/
theorem mounted_links {sector block : Nat} {d : Header} {r : NoteRecord} (n : LinkedNote a sector block d r) :
    ∃ e, findEntry (mountComplete s).store .note d.id = some e ∧ e.loc = some (sector, block) ∧
      (∀ x, e.links.attach = some x ↔ r.attach = some x ∧ LiveRecord a x.kind x.id) ∧
      (e.links.attachLost = true ↔ r.attach.isSome = true ∧ e.links.attach = none) ∧
      e.links.amends = r.amends ∧
      (e.links.amendLost = true ↔ ∃ id, r.amends = some id ∧ ¬LiveRecord a .note id) ∧
      let by_ := fun id => ∃ sector' block' d' r', (Found a sector' block' d' ∧ d'.kind = .note ∧ d'.live = true ∧
        mountedContent a sector' block' d' = .note r') ∧ ¬Duplicate a d' ∧ d'.id = id ∧ r'.amends = some d.id
      (∀ id, e.links.amendedBy = some id → by_ id) ∧ ((∃ id, by_ id) → e.links.amendedBy.isSome = true) := by
  have m := mountKnown_mounted a
  obtain ⟨e, found, place, links⟩ := n.entry h
  obtain ⟨attach, attachLost, amends, amendLost⟩ := n.links
  rw [← links] at attach attachLost amends amendLost
  refine ⟨e, found, place, fun x => ?_, ?_, amends, ?_, ?_⟩
  · rw [attach]
    exact m.attach_iff r x
  · rw [attachLost, attach]
    exact mountLinks_attachLost r
  · rw [amendLost]
    exact m.amendLost_iff r
  · rw [links]
    exact n.amendedBy

/-- R57: the survey and the site table of the latest SURVEY record, and SURVEY_STATE. -/
theorem mounted_survey_clause {sector block : Nat} {d : Header} (l : Latest a .survey sector block d) : ∃ r,
    contentOf (mountComplete s).store (mountEntry sector (d, block)) = .survey r ∧
      (mountComplete s).store.mode = r.mode ∧
      (mountComplete s).survey.state = some (if r.state = .ended then .ended else .held) ∧
      (mountComplete s).survey.cause = (if r.state = .ended then none else some .power) ∧
      (mountComplete s).survey.number = r.number ∧ (mountComplete s).survey.first = r.first ∧
      (mountComplete s).survey.runStart = r.runStart ∧
      (∀ site, site < 4 → (siteOf (mountComplete s) site).settings = (r.sites.getD site ⟨{}, []⟩).settings ∧
        ∀ role, role < 8 → memberOf (mountComplete s) site role =
          match (r.sites.getD site ⟨{}, []⟩).members.getD role none with
          | none => none
          | some (slot, serial) =>
            if slotReady s slot then
              if (entryOf s slot).identity.map (fun i => (i.serial, i.kind)) =
                  some (serial, if role < 4 then .voltage else .current) then
                some ⟨slot, serial, true⟩
              else none
            else some ⟨slot, serial, false⟩) ∧
      (Sends s.link → s.link.notices.length ≤ 26 → s.link.mask.getLsbD 5 = true →
        ⟨.surveyState r.number (if r.state = .ended then .ended else .held) none
          (if r.state = .ended then none else some .power) s.bus.frame s.clock.time
          (some (allPositions.countP fun p =>
            ((r.sites.getD p.1 ⟨{}, []⟩).members.getD p.2 none).isSome &&
              (memberOf (mountComplete s) p.1 p.2).isNone)), s.clock.time⟩ ∈ (mountComplete s).link.notices) := by
  obtain ⟨p, content, mode, latest⟩ := mounted_survey h f l
  obtain ⟨survey, sites, _⟩ := mountComplete_rest (mounting_found h)
  obtain ⟨sitesR, state, cause, number, first, runStart, cleared⟩ := restored_some latest
  have roster := (mountTriggered_rest h f).2.1
  have table := sites.trans sitesR
  refine ⟨decodeSurvey p, (mounted_content h f sector block d).trans content, mode, ?_⟩
  rw [survey]
  refine ⟨state, cause, number, first, runStart, fun site inside => ?_, fun sends room mask => ?_⟩
  · have entry : siteOf (mountComplete s) site =
        restoreSite (mountTriggered s) ((decodeSurvey p).sites.getD site ⟨{}, []⟩) := by
      rw [siteOf, table, restoreSites_site _ inside]
    rw [entry]
    refine ⟨rfl, fun role below => ?_⟩
    rw [memberOf, entry, restoreSite_member _ below]
    exact restoreMember_bind roster role _
  · have told := mounted_surveyState h f sends room mask
    rw [state, cause, number, cleared, clearedCount_eq p _ rfl, ← table] at told
    exact told

end

/-- Settles O53. -/
theorem mountAndWipeComplete : Obligations.MountAndWipeComplete := by
  unfold Obligations.MountAndWipeComplete
  intro s q r limits first same
  have record : firstStore s.clock .ready = first := rfl
  have mountSame : same (mountComplete s) := by
    have m := mountComplete_only s
    exact ⟨m.roster_eq (by decide), m.bus_eq (by decide), m.tracker_eq (by decide), m.clock_eq (by decide),
      m.sag_eq (by decide), m.capture_eq (by decide), m.print_eq (by decide), m.supply_eq (by decide)⟩
  have wipeSame : same (wipeComplete s) := by
    have m := wipeComplete_only s
    exact ⟨m.roster_eq (by decide), m.bus_eq (by decide), m.tracker_eq (by decide), m.clock_eq (by decide),
      m.sag_eq (by decide), m.capture_eq (by decide), m.print_eq (by decide), m.supply_eq (by decide)⟩
  have mounts := exec_mountComplete q
  have wipes := exec_wipeComplete q
  refine ⟨?empty, ?mount, ?wipe, fun undue => mounts.trans (congrArg _ (mountComplete_undue undue)),
    fun undue => wipes.trans (congrArg _ (wipeComplete_undue undue))⟩
  case empty =>
    intro empty
    obtain ⟨store, sites, state, number, firstTime, runStart⟩ := mountComplete_empty empty
    exact ⟨_, mounts, mountSame, store.trans record, sites, state, number, firstTime, runStart⟩
  case wipe =>
    intro wiping free
    have m := wipeComplete_only s
    exact ⟨_, wipes, wipeSame, (wipeComplete_due wiping free).trans record, m.sites_eq (by decide),
      m.survey_eq (by decide), m.harm_eq (by decide)⟩
  case mount =>
    intro mounting
    obtain ⟨numbered, single⟩ := mountComplete_dir mounting
    obtain ⟨survey, sites, _⟩ := mountComplete_rest mounting
    refine ⟨_, mounts, mountSame, mountComplete_state mounting, numbered, single, ?_, ?records⟩
    · rw [survey]
      exact restored_survey _
    case records =>
      intro a found h some_ at_ duplicate latest erased tells
      obtain ⟨sector₀, block₀, k, f⟩ := some_
      have f : Found a sector₀ block₀ k := f
      have contents : ∀ sector block d, contentOf (mountComplete s).store (mountEntry sector (d, block)) =
          mountedContent a sector block d := mounted_content h f
      refine ⟨?walk, ?entries, ?sources, ?marked, ?others, ?step, ?numbers, ?sequence, ?enough, ?few, ?locked, ?unlocked,
        ?notes, ?surveyed, ?unsurveyed⟩
      case walk => exact fun sector block d inside => found_iff inside
      case entries => exact fun sector block d g => mounted_entry h f g
      case sources => exact fun e mem => mounted_found h f mem
      case marked =>
        intro sector block d g dup
        rw [(mountComplete_keeps h f).array]
        exact mountStore_marked g dup
      case others =>
        intro b clear
        rw [(mountComplete_keeps h f).array]
        exact mountStore_kept clear
      case step => exact fun sector block d g clear above => mounted_step h f g clear above
      case numbers => exact mounted_numbers h f
      case sequence => exact mounted_nextSeq h f
      case enough =>
        intro enough
        obtain ⟨_, ready, free, idle⟩ := mounted_ready h f enough
        exact ⟨ready, free, idle, fun ⟨busy, unowed, room⟩ mask => mounted_storeState h f ⟨busy, unowed⟩ room mask enough⟩
      case few => exact mounted_few h f
      case locked =>
        intro sector block d l
        obtain ⟨lock, content, mark⟩ := markFound_latest (show Latest a .lockMark sector block d from l)
        exact ⟨lock, (contents sector block d).trans content, (mounted_lockMark h f).trans mark⟩
      case unlocked => exact fun none_ => (mounted_lockMark h f).trans (markFound_none none_)
      case notes =>
        intro liveRecord holds sector block d note ⟨g, kind, live, content⟩ above amendedBy
        have n : LinkedNote a sector block d note :=
          ⟨g, kind, live, (contents sector block d).symm.trans content, above⟩
        have linked := mounted_links h n
        simp only [← contents] at linked
        exact linked
      case surveyed =>
        intro sector block d l
        obtain ⟨lived, content, mode, state, cause, number, firstTime, runStart, table, told⟩ :=
          mounted_survey_clause h f (show Latest a .survey sector block d from l)
        exact ⟨lived, content, mode, state, cause, number, firstTime, runStart, table,
          fun ⟨busy, unowed, room⟩ mask => told ⟨busy, unowed⟩ room mask⟩
      case unsurveyed =>
        intro none_
        obtain ⟨mode, latest_⟩ := mounted_noSurvey h f none_
        obtain ⟨sitesR, state, _, number, firstTime, runStart⟩ := restored_none latest_
        rw [survey, sites]
        exact ⟨mode, state, number, firstTime, runStart, sitesR⟩

end Sys2Proof.Machine
end
